-- ==== Sys2Proof/Word.lean ====
section
/-!
DEFINITION. The plain data types every other file uses: bytes, words, sparse tables and the
unit numbers of R3.
-/

namespace Sys2Proof

/-- One byte. -/
abbrev Byte := BitVec 8

/-- A 64-bit word: a strand register, a doorbell value, a control register. -/
abbrev Word := BitVec 64

/-- A sparse table: pairs of a key and an entry, keys strictly rising, no entry equal to what
an unlisted key reads as. -/
abbrev Tab (α : Type) := List (Nat × α)

/-- An engine number (R3): die [9:8], cluster [7:5], core [4:2], engine [1:0]. -/
abbrev EngineId := Fin 1024

/-- A core number (R3): die [7:6], cluster [5:3], core [2:0]. -/
abbrev CoreId := Fin 256

/-- A cluster number: die × 8 + cluster in die. -/
abbrev ClusterId := Fin 32

/-- A compute die number. -/
abbrev DieId := Fin 4

/-- A hearth number, equal to its stack number. -/
abbrev HearthId := Fin 20

/-- A sequencer number (model's own): core k's forward sequencer is k, its backward sequencer
256 + k, and hearth h's update sequencer 512 + h (R205). -/
abbrev SeqId := Fin 532

end Sys2Proof
end

