-- ==== Sys2Proof/Machine/Tab.lean ====
section
/-!
DEFINITION. Reading and writing the sparse tables of State, and lists used as ordered sets.
-/

namespace Sys2Proof.Machine

/-- The entry at key `k`, `d` where the table lists none. -/
def tget {α : Type} (d : α) : Tab α → Nat → α
  | [], _ => d
  | (j, v) :: r, k => if j = k then v else if k < j then d else tget d r k

/-- Put `v` at `k`, dropping the entry when `drop` says it is what an unlisted key reads as. -/
def tput {α : Type} (drop : Bool) : Tab α → Nat → α → Tab α
  | [], k, v => if drop then [] else [(k, v)]
  | (j, w) :: r, k, v =>
    if j = k then (if drop then r else (k, v) :: r)
    else if k < j then (if drop then (j, w) :: r else (k, v) :: (j, w) :: r)
    else (j, w) :: tput drop r k v

/-- Write an entry, keeping the table free of entries equal to the default. -/
def tset {α : Type} [DecidableEq α] (d : α) (t : Tab α) (k : Nat) (v : α) : Tab α :=
  tput (decide (v = d)) t k v

/-- Keys strictly rising from at least `lo`, and no entry equal to the default. -/
def twfFrom {α : Type} [DecidableEq α] (d : α) : Nat → Tab α → Bool
  | _, [] => true
  | lo, (j, v) :: r => decide (lo ≤ j) && decide (v ≠ d) && twfFrom d (j + 1) r

/-- The canonical form of a table. -/
def twf {α : Type} [DecidableEq α] (d : α) (t : Tab α) : Bool := twfFrom d 0 t

/-- Insert into a strictly rising list. -/
def sinsert (k : Nat) : List Nat → List Nat
  | [] => [k]
  | j :: r => if j = k then j :: r else if k < j then k :: j :: r else j :: sinsert k r

/-- Remove from a list. -/
def sremove (k : Nat) (l : List Nat) : List Nat := l.filter (fun j => j != k)

/-- Bit `i` of a mask. -/
def bitOf (m i : Nat) : Bool := m / 2 ^ i % 2 == 1

/-- Set or clear bit `i` of a mask. -/
def setBit (m i : Nat) (b : Bool) : Nat :=
  if bitOf m i = b then m else if b then m + 2 ^ i else m - 2 ^ i

/-- The number of set bits below `n`. -/
def countBits (m n : Nat) : Nat := ((List.range n).filter (bitOf m)).length

/-- Bits [hi:lo] of a word. -/
def bits (w hi lo : Nat) : Nat := w / 2 ^ lo % 2 ^ (hi + 1 - lo)

/-- The little-endian number of a byte list. -/
def leNat : List Byte → Nat
  | [] => 0
  | b :: r => b.toNat + 256 * leNat r

/-- `n` little-endian bytes of a number. -/
def leBytes : (n : Nat) → Nat → List Byte
  | 0, _ => []
  | n + 1, v => BitVec.ofNat 8 v :: leBytes n (v / 256)

/-- The little-endian field of `n` bytes at offset `o` of a byte list. -/
def leField (b : List Byte) (o n : Nat) : Nat := leNat ((b.drop o).take n)

/-- Replace element `i` of a list by its image. -/
def modAt {α : Type} (f : α → α) : Nat → List α → List α
  | _, [] => []
  | 0, x :: r => f x :: r
  | i + 1, x :: r => x :: modAt f i r

/-- Remove element `i` of a list. -/
def dropAt {α : Type} : Nat → List α → List α
  | _, [] => []
  | 0, _ :: r => r
  | i + 1, x :: r => x :: dropAt i r

/-- A saturating sum. -/
def satAdd (max a b : Nat) : Nat := min max (a + b)

end Sys2Proof.Machine
end

