-- ==== Sys2Proof/Machine/DictTable.lean ====
section
/-!
DEFINITION. The entries of the Tranan object dictionary: a key for each (index × 256 + sub-index of its
first entry) and the table of their types, access, classes, defaults and ranges. The table's rows
are those of the chapters' "Dictionary entries" tables (R45–R49, R59, R95, R114, R163, R203, R265, R290,
R308, R335, R359, R360, R384, R405, R424, R453, R454, R446, R472, R494, R506).
-/

namespace Sys2Proof.Machine

/-- Types of R426. -/
inductive ETy where
  | bool | u8 | u16 | u32 | u64 | i16 | i32 | ol16 | enum | str | blob
  deriving DecidableEq, Repr

/-- Access rights of R427. -/
inductive EAcc where
  | ro | rw | wo | rwl
  deriving DecidableEq, Repr

/-- Persistence classes of R428. -/
inductive ECls where
  | v | w | p
  deriving DecidableEq, Repr

/-- A row of an entry table: indices `i0`–`i1`, sub-indices `s0`–`s1`, type, access, default, class,
range and step of a writable value, and the length of a STR or BLOB. -/
structure EMeta where
  i0 : Nat
  i1 : Nat
  s0 : Nat
  s1 : Nat
  ty : ETy
  acc : EAcc
  dflt : Nat
  cls : ECls
  lo : Nat
  hi : Nat
  step : Nat
  len : Nat
  deriving DecidableEq, Repr

namespace Key

/-- `VENDOR_ID` -/
def vendorId : Nat := 0x010001
/-- `DEVICE_ID` -/
def deviceId : Nat := 0x010002
/-- `SUBSYS_VENDOR_ID` -/
def subsysVendorId : Nat := 0x010003
/-- `SUBSYS_ID` -/
def subsysId : Nat := 0x010004
/-- `REVISION_ID` -/
def revisionId : Nat := 0x010005
/-- `SERIAL_NUMBER` -/
def serialNumber : Nat := 0x010101
/-- `MODULE_ID` -/
def moduleId : Nat := 0x010102
/-- `BASE_MAC` -/
def baseMac : Nat := 0x010103
/-- `PART_NUMBER` -/
def partNumber : Nat := 0x010201
/-- `FW_VERSION` -/
def fwVersion : Nat := 0x010202
/-- `NODE_ID` -/
def nodeId : Nat := 0x020001
/-- `TRANAN_PORT` -/
def trananPort : Nat := 0x020002
/-- `PLCA_NODE_COUNT` -/
def plcaNodeCount : Nat := 0x020003
/-- `PLCA_TO_TIMER` -/
def plcaToTimer : Nat := 0x020004
/-- `FIELD_ACCESS` -/
def fieldAccess : Nat := 0x020005
/-- `FIELD_LINK_STATE` -/
def fieldLinkState : Nat := 0x020006
/-- `TRANAN_DROPS` -/
def trananDrops : Nat := 0x020007
/-- `DICT_COMMIT` -/
def dictCommit : Nat := 0x030001
/-- `DICT_COMMIT_STATE` -/
def dictCommitState : Nat := 0x030002
/-- `DICT_LOAD_DEFAULTS` -/
def dictLoadDefaults : Nat := 0x030003
/-- `DICT_DIRTY` -/
def dictDirty : Nat := 0x030004
/-- `DICT_IMAGE_GEN` -/
def dictImageGen : Nat := 0x030005
/-- `DICT_IMAGE_COPY` -/
def dictImageCopy : Nat := 0x030006
/-- `DICT_IMAGE_FAIL` -/
def dictImageFail : Nat := 0x030007
/-- `DICT_IMAGE_SKIPPED` -/
def dictImageSkipped : Nat := 0x030008
/-- `HOLD_CAUSE` -/
def holdCause : Nat := 0x030009
/-- `DICT_COMMITS` -/
def dictCommits : Nat := 0x03000A
/-- `QCTX_BASE` -/
def qctxBase : Nat := 0x040001
/-- `READY_LIMIT` -/
def readyLimit : Nat := 0x040002
/-- `DOORBELL_DROPS` -/
def doorbellDrops : Nat := 0x040003
/-- `HIF_DROPS` -/
def hifDrops : Nat := 0x040004
/-- `BAR2_INIT_LOG2` -/
def bar2InitLog2 : Nat := 0x040101
/-- `PCIE_MAX_RATE` -/
def pcieMaxRate : Nat := 0x040102
/-- `RESET_TARGET` -/
def resetTarget : Nat := 0x050001
/-- `RESET_CMD` -/
def resetCmd : Nat := 0x050002
/-- `RESET_STATE` -/
def resetState : Nat := 0x050003
/-- `RESET_CAUSE` -/
def resetCause : Nat := 0x050004
/-- `STARTUP_STAGE` -/
def startupStage : Nat := 0x050005
/-- `STARTUP_FAULT` -/
def startupFault : Nat := 0x050006
/-- `QUENCH_DROPS` -/
def quenchDrops : Nat := 0x050007
/-- `ASH_SENT` -/
def ashSent : Nat := 0x050008
/-- `FW_STAGE_CMD` -/
def fwStageCmd : Nat := 0x051001
/-- `FW_STAGE_OFFSET` -/
def fwStageOffset : Nat := 0x051002
/-- `FW_STAGE_DATA` -/
def fwStageData : Nat := 0x051003
/-- `FW_STAGE_STATE` -/
def fwStageState : Nat := 0x051004
/-- `FW_STAGE_VERSION` -/
def fwStageVersion : Nat := 0x051005
/-- `FW_ACTIVATED` -/
def fwActivated : Nat := 0x051006
/-- `FW_FALLBACK` -/
def fwFallback : Nat := 0x051007
/-- `FEED_VOLT` -/
def feedVolt : Nat := 0x100001
/-- `FEED_CURR` -/
def feedCurr : Nat := 0x100003
/-- `FEED_COND` -/
def feedCond : Nat := 0x100005
/-- `MODULE_POWER` -/
def modulePower : Nat := 0x100006
/-- `FEED_ILIM` -/
def feedIlim : Nat := 0x100101
/-- `POWER_CAP` -/
def powerCap : Nat := 0x101001
/-- `BUDGET_WINDOW` -/
def budgetWindow : Nat := 0x101002
/-- `HARD_CAP_PCT` -/
def hardCapPct : Nat := 0x101003
/-- `DAMP_HOLD_WINDOWS` -/
def dampHoldWindows : Nat := 0x101004
/-- `CAP_HELD` -/
def capHeld : Nat := 0x101005
/-- `CAP_UNMET` -/
def capUnmet : Nat := 0x101006
/-- `POWER_STATE` -/
def powerState : Nat := 0x102001
/-- `POWER_STATE_CMD` -/
def powerStateCmd : Nat := 0x102002
/-- `DAMP_IDLE` -/
def dampIdle : Nat := 0x102003
/-- `CLUSTER_STATE` -/
def clusterState : Nat := 0x102004
/-- `CLUSTER_TEMP` -/
def clusterTemp : Nat := 0x103001
/-- `CLUSTER_THERMAL` -/
def clusterThermal : Nat := 0x103101
/-- `COOLANT_TEMP` -/
def coolantTemp : Nat := 0x103201
/-- `DRAUGHT_LEVEL` -/
def draughtLevel : Nat := 0x104001
/-- `DRAUGHT_MAX` -/
def draughtMax : Nat := 0x104005
/-- `DRAUGHT_FIXED` -/
def draughtFixed : Nat := 0x104101
/-- `ENERGY_TABLE` -/
def energyTable : Nat := 0x105001
/-- `ENERGY_DEFAULT_W` -/
def energyDefaultW : Nat := 0x105002
/-- `AGE_LIMIT` -/
def ageLimit : Nat := 0x105003
/-- `DIE_STEP_RATE` -/
def dieStepRate : Nat := 0x110001
/-- `CLUSTER_STEP_RATE` -/
def clusterStepRate : Nat := 0x110101
/-- `STEP_MON_WINDOW` -/
def stepMonWindow : Nat := 0x110201
/-- `STEP_MON_COUNT` -/
def stepMonCount : Nat := 0x110202
/-- `LOW_VOLTAGE_PERMIT` -/
def lowVoltagePermit : Nat := 0x111001
/-- `E4M3_OVF_MODE` -/
def e4m3OvfMode : Nat := 0x203001
/-- `E5M2_OVF_MODE` -/
def e5m2OvfMode : Nat := 0x203002
/-- `SLUB_MARGIN` -/
def slubMargin : Nat := 0x204001
/-- `STOP_ON_INVALID` -/
def stopOnInvalid : Nat := 0x206001
/-- `CHK_TOL_LOG` -/
def chkTolLog : Nat := 0x207001
/-- `CHK_TOL_LIN` -/
def chkTolLin : Nat := 0x207002
/-- `STORM_FRACTION` -/
def stormFraction : Nat := 0x220001
/-- `STORM_POLICY` -/
def stormPolicy : Nat := 0x220002
/-- `STORM_RELEASE` -/
def stormRelease : Nat := 0x220003
/-- `REPLAY_ARENA_MIB` -/
def replayArenaMib : Nat := 0x220004
/-- `STORM_ACTIVE` -/
def stormActive : Nat := 0x220005
/-- `COLD_PERMILLE` -/
def coldPermille : Nat := 0x221001
/-- `COLD_THRESHOLD` -/
def coldThreshold : Nat := 0x221002
/-- `COLD_SHIFT_OCT` -/
def coldShiftOct : Nat := 0x221003
/-- `ZONE_NEAR_UNITS` -/
def zoneNearUnits : Nat := 0x300001
/-- `ZONE_EXPL_UNITS` -/
def zoneExplUnits : Nat := 0x300002
/-- `ZONE_DIE_UNITS` -/
def zoneDieUnits : Nat := 0x300003
/-- `ZONE_PKG_UNITS` -/
def zonePkgUnits : Nat := 0x300004
/-- `HEARTH_SCRATCH_WAYS` -/
def hearthScratchWays : Nat := 0x300101
/-- `CACHE_EXPLICIT` -/
def cacheExplicit : Nat := 0x300102
/-- `PKG_BYTES` -/
def pkgBytes : Nat := 0x301001
/-- `DIE_BYTES` -/
def dieBytes : Nat := 0x301002
/-- `NEAR_BYTES` -/
def nearBytes : Nat := 0x301101
/-- `MAPOUT_REQ` -/
def mapoutReq : Nat := 0x302001
/-- `LIVE_MASK` -/
def liveMask : Nat := 0x302101
/-- `STACK_DROPPED` -/
def stackDropped : Nat := 0x302201
/-- `SCRUB_HOURS` -/
def scrubHours : Nat := 0x303001
/-- `CE_EVENT_THRESHOLD` -/
def ceEventThreshold : Nat := 0x303002
/-- `FENCE_UE_COUNT` -/
def fenceUeCount : Nat := 0x303003
/-- `STACK_TEMP` -/
def stackTemp : Nat := 0x304001
/-- `STACK_THERMAL` -/
def stackThermal : Nat := 0x304101
/-- `HEARTH_RA_COUNT` -/
def hearthRaCount : Nat := 0x310001
/-- `HEARTH_RA_ASH` -/
def hearthRaAsh : Nat := 0x310101
/-- `HEARTH_GROUP_RETRY` -/
def hearthGroupRetry : Nat := 0x310201
/-- `HEARTH_EXPECT_FAIL` -/
def hearthExpectFail : Nat := 0x310301
/-- `CORD_ETHERTYPE` -/
def cordEthertype : Nat := 0x400001
/-- `CORD_VLAN` -/
def cordVlan : Nat := 0x400002
/-- `CORD_PCP` -/
def cordPcp : Nat := 0x400003
/-- `CORD_PAYLOAD` -/
def cordPayload : Nat := 0x400004
/-- `CORD_PORT_ENABLE` -/
def cordPortEnable : Nat := 0x400005
/-- `CORD_PORT_STATE` -/
def cordPortState : Nat := 0x400101
/-- `CORD_PEER_TABLE` -/
def cordPeerTable : Nat := 0x401001
/-- `CORD_PEER_COUNT` -/
def cordPeerCount : Nat := 0x401002
/-- `CORD_SESSION` -/
def cordSession : Nat := 0x401003
/-- `CORD_WINDOW` -/
def cordWindow : Nat := 0x402001
/-- `CORD_RTO` -/
def cordRto : Nat := 0x402002
/-- `CORD_RETRY_MAX` -/
def cordRetryMax : Nat := 0x402003
/-- `CORD_RNR_WAIT` -/
def cordRnrWait : Nat := 0x402004
/-- `COLL_TIMEOUT` -/
def collTimeout : Nat := 0x403001
/-- `HEAT_HOLD_LIMIT` -/
def heatHoldLimit : Nat := 0x403002
/-- `CORD_RETX` -/
def cordRetx : Nat := 0x404001
/-- `CORD_CRC_DROPS` -/
def cordCrcDrops : Nat := 0x404002
/-- `CORD_DROPS` -/
def cordDrops : Nat := 0x404003
/-- `CORD_ABORTS` -/
def cordAborts : Nat := 0x404004
/-- `PARTNER_HOLDER` -/
def partnerHolder : Nat := 0x410001
/-- `PARTNER_OF` -/
def partnerOf : Nat := 0x410002
/-- `PARTNER_SLOT_PAGES` -/
def partnerSlotPages : Nat := 0x410003
/-- `PARTNER_REGION_BYTES` -/
def partnerRegionBytes : Nat := 0x410004
/-- `PAIR_STATE` -/
def pairState : Nat := 0x410005
/-- `PAIR_CORRELATED` -/
def pairCorrelated : Nat := 0x410006
/-- `FEED_A_ID` -/
def feedAId : Nat := 0x411001
/-- `FEED_B_ID` -/
def feedBId : Nat := 0x411002
/-- `FEED_A_OVR` -/
def feedAOvr : Nat := 0x411003
/-- `FEED_B_OVR` -/
def feedBOvr : Nat := 0x411004
/-- `PAIR_SAME_FEED_OK` -/
def pairSameFeedOk : Nat := 0x411005
/-- `HOLDER_SLOT_STATE` -/
def holderSlotState : Nat := 0x412001
/-- `HOLDER_SLOT_GEN` -/
def holderSlotGen : Nat := 0x412003
/-- `FAULTS_SAFE` -/
def faultsSafe : Nat := 0x500001
/-- `FAULTS_DD` -/
def faultsDd : Nat := 0x500002
/-- `FAULTS_LATENT` -/
def faultsLatent : Nat := 0x500003
/-- `LAST_FAULT` -/
def lastFault : Nat := 0x500004
/-- `RETIRE_LIMIT` -/
def retireLimit : Nat := 0x501001
/-- `ENGINE_RETIRED` -/
def engineRetired : Nat := 0x501002
/-- `LANE_RETIRED` -/
def laneRetired : Nat := 0x501003
/-- `ENGINE_UNRETIRE` -/
def engineUnretire : Nat := 0x501004
/-- `PROOF_TILES` -/
def proofTiles : Nat := 0x502001
/-- `PROOF_GROUPS` -/
def proofGroups : Nat := 0x502002
/-- `PROOF_FAILS` -/
def proofFails : Nat := 0x502003
/-- `FAULT_INJECT` -/
def faultInject : Nat := 0x503001
/-- `ALERT_CLASS_MASK` -/
def alertClassMask : Nat := 0x504001
/-- `ALERT_ACK` -/
def alertAck : Nat := 0x504002
/-- `EVT_HOLD` -/
def evtHold : Nat := 0x600001
/-- `EVT_UNROUTED` -/
def evtUnrouted : Nat := 0x600002
/-- `EVT_RING_ERR` -/
def evtRingErr : Nat := 0x600003
/-- `EOI_SPURIOUS` -/
def eoiSpurious : Nat := 0x600004
/-- `RECORD_SEQ` -/
def recordSeq : Nat := 0x600101
/-- `RING_BASE` -/
def ringBase : Nat := 0x602001
/-- `RING_CFG` -/
def ringCfg : Nat := 0x602101
/-- `RING_MOD` -/
def ringMod : Nat := 0x602201
/-- `RING_ENABLE` -/
def ringEnable : Nat := 0x602301
/-- `RING_PI` -/
def ringPi : Nat := 0x602401
/-- `RING_CI` -/
def ringCi : Nat := 0x602501
/-- `RING_OVF` -/
def ringOvf : Nat := 0x602601
/-- `RING_PPRI` -/
def ringPpri : Nat := 0x602701
/-- `GROUP_DEF` -/
def groupDef : Nat := 0x603001
/-- `SRC_CFG` -/
def srcCfg : Nat := 0x610001
/-- `TCTL` -/
def tctl : Nat := 0x640001
/-- `CEC_MASK` -/
def cecMask : Nat := 0x660001
/-- `CEC_PEND` -/
def cecPend : Nat := 0x660101
/-- `DEC_MASK` -/
def decMask : Nat := 0x661001
/-- `DEC_PEND` -/
def decPend : Nat := 0x661101
/-- `EC_HOLDOFF` -/
def ecHoldoff : Nat := 0x661201
/-- `EC_LOCK` -/
def ecLock : Nat := 0x661301
/-- `ATT_STATE` -/
def attState : Nat := 0x700001
/-- `OPEN_COUNT` -/
def openCount : Nat := 0x700002
/-- `SEC_FLAGS` -/
def secFlags : Nat := 0x700003
/-- `BOOT_RESULT` -/
def bootResult : Nat := 0x700004
/-- `BOOT_FAIL` -/
def bootFail : Nat := 0x700005
/-- `ACTIVE_SVN` -/
def activeSvn : Nat := 0x700006
/-- `ENTROPY_FAIL` -/
def entropyFail : Nat := 0x700007
/-- `SERVICE_PORT_STATE` -/
def servicePortState : Nat := 0x700101
/-- `SERVICE_OPEN_PERMIT` -/
def serviceOpenPermit : Nat := 0x700102
/-- `SERVICE_OPEN_CMD` -/
def serviceOpenCmd : Nat := 0x700103
/-- `ATT_NONCE` -/
def attNonce : Nat := 0x701001
/-- `ATT_CMD` -/
def attCmd : Nat := 0x701002
/-- `ATT_REPORT_STATE` -/
def attReportState : Nat := 0x701003
/-- `ATT_REPORT_LEN` -/
def attReportLen : Nat := 0x701004
/-- `ATT_REPORT_OFFSET` -/
def attReportOffset : Nat := 0x701005
/-- `ATT_REPORT_DATA` -/
def attReportData : Nat := 0x701006
/-- `ENROL_CMD` -/
def enrolCmd : Nat := 0x702001
/-- `ENROL_RESULT` -/
def enrolResult : Nat := 0x702002
/-- `ENROL_CHAIN` -/
def enrolChain : Nat := 0x702003
/-- `ENROL_OFFSET` -/
def enrolOffset : Nat := 0x702004
/-- `ENROL_REQ_DATA` -/
def enrolReqData : Nat := 0x702005
/-- `ENROL_CHAIN_DATA` -/
def enrolChainData : Nat := 0x702006
/-- `SNAP_TRIGGER` -/
def snapTrigger : Nat := 0x800001
/-- `SNAP_ARM` -/
def snapArm : Nat := 0x800002
/-- `SNAP_SOURCES` -/
def snapSources : Nat := 0x800003
/-- `SNAP_EVT_SRC` -/
def snapEvtSrc : Nat := 0x800004
/-- `SNAP_HALT` -/
def snapHalt : Nat := 0x800005
/-- `SNAP_RESUME` -/
def snapResume : Nat := 0x800006
/-- `SNAP_CUT` -/
def snapCut : Nat := 0x800007
/-- `SNAP_XCUT` -/
def snapXcut : Nat := 0x800008
/-- `SNAP_STATE` -/
def snapState : Nat := 0x800009
/-- `SNAP_PENDING` -/
def snapPending : Nat := 0x80000A
/-- `SNAP_MISSED` -/
def snapMissed : Nat := 0x80000B
/-- `SNAP_BLOCK` -/
def snapBlock : Nat := 0x801001
/-- `SNAP_OFFSET` -/
def snapOffset : Nat := 0x801002
/-- `SNAP_DATA` -/
def snapData : Nat := 0x801003
/-- `SNAP_READ_STATUS` -/
def snapReadStatus : Nat := 0x801004
/-- `FREEZE_EVERY` -/
def freezeEvery : Nat := 0x810001
/-- `FREEZE_NOW` -/
def freezeNow : Nat := 0x810002
/-- `FREEZE_JOB` -/
def freezeJob : Nat := 0x810003
/-- `FREEZE_SET_BASE` -/
def freezeSetBase : Nat := 0x810004
/-- `FREEZE_SET_COUNT` -/
def freezeSetCount : Nat := 0x810005
/-- `FREEZE_HOST` -/
def freezeHost : Nat := 0x810006
/-- `FREEZE_HOST_BASE` -/
def freezeHostBase : Nat := 0x810007
/-- `FREEZE_HOST_PAGES` -/
def freezeHostPages : Nat := 0x810008
/-- `FT_POOL_MIB` -/
def ftPoolMib : Nat := 0x810009
/-- `FREEZE_STATE` -/
def freezeState : Nat := 0x810101
/-- `FREEZE_GEN` -/
def freezeGen : Nat := 0x810102
/-- `FREEZE_DONE_GEN` -/
def freezeDoneGen : Nat := 0x810103
/-- `FT_COPIES` -/
def ftCopies : Nat := 0x810104
/-- `FT_WAITS` -/
def ftWaits : Nat := 0x810105
/-- `RESTORE_SOURCE` -/
def restoreSource : Nat := 0x811001
/-- `RESTORE_REPLICA` -/
def restoreReplica : Nat := 0x811002
/-- `RESTORE_GEN` -/
def restoreGen : Nat := 0x811003
/-- `RESTORE_ORIGIN` -/
def restoreOrigin : Nat := 0x811004
/-- `RESTORE_HOST_BASE` -/
def restoreHostBase : Nat := 0x811005
/-- `RESTORE_HOST_LIST` -/
def restoreHostList : Nat := 0x811006
/-- `ALLOW_UNVERIFIED` -/
def allowUnverified : Nat := 0x811007
/-- `RESTORE_CMD` -/
def restoreCmd : Nat := 0x811008
/-- `RESTORE_STATE` -/
def restoreState : Nat := 0x811101
/-- `RESTORE_RESULT` -/
def restoreResult : Nat := 0x811102
/-- `RESTORE_PAGES` -/
def restorePages : Nat := 0x811103
/-- `RESTORE_UNVERIFIED` -/
def restoreUnverified : Nat := 0x811104
/-- `RESTORE_SCHED_ADDR` -/
def restoreSchedAddr : Nat := 0x811105

end Key

/-- Entry rows 0 to 23 of the dictionary. -/
def entryRows0 : List EMeta :=
  [⟨0x0100, 0x0100, 0x01, 0x01, .u16, .ro, 7982, .v, 0, 65535, 1, 0⟩,
   ⟨0x0100, 0x0100, 0x02, 0x02, .u16, .ro, 8342, .v, 0, 65535, 1, 0⟩,
   ⟨0x0100, 0x0100, 0x03, 0x03, .u16, .ro, 7982, .v, 0, 65535, 1, 0⟩,
   ⟨0x0100, 0x0100, 0x04, 0x04, .u16, .ro, 72, .v, 0, 65535, 1, 0⟩,
   ⟨0x0100, 0x0100, 0x05, 0x05, .u8, .ro, 1, .v, 0, 255, 1, 0⟩,
   ⟨0x0101, 0x0101, 0x01, 0x01, .u64, .ro, 0, .v, 0, 18446744073709551615, 1, 0⟩,
   ⟨0x0101, 0x0101, 0x02, 0x02, .u32, .ro, 0, .v, 0, 4294967295, 1, 0⟩,
   ⟨0x0101, 0x0101, 0x03, 0x03, .u64, .ro, 0, .v, 0, 18446744073709551615, 1, 0⟩,
   ⟨0x0102, 0x0102, 0x01, 0x01, .str, .ro, 0, .v, 0, 0, 1, 32⟩,
   ⟨0x0102, 0x0102, 0x02, 0x02, .str, .ro, 0, .v, 0, 0, 1, 32⟩,
   ⟨0x0200, 0x0200, 0x01, 0x01, .u8, .ro, 0, .v, 0, 255, 1, 0⟩,
   ⟨0x0200, 0x0200, 0x02, 0x02, .u16, .rw, 47201, .p, 1024, 65535, 1, 0⟩,
   ⟨0x0200, 0x0200, 0x03, 0x03, .u8, .rw, 8, .p, 2, 32, 1, 0⟩,
   ⟨0x0200, 0x0200, 0x04, 0x04, .u8, .rw, 32, .p, 1, 255, 1, 0⟩,
   ⟨0x0200, 0x0200, 0x05, 0x05, .enum, .rw, 0, .p, 0, 1, 1, 0⟩,
   ⟨0x0200, 0x0200, 0x06, 0x06, .enum, .ro, 0, .v, 0, 255, 1, 0⟩,
   ⟨0x0200, 0x0200, 0x07, 0x07, .u32, .ro, 0, .v, 0, 4294967295, 1, 0⟩,
   ⟨0x0300, 0x0300, 0x01, 0x01, .bool, .wo, 0, .v, 0, 1, 1, 0⟩,
   ⟨0x0300, 0x0300, 0x02, 0x02, .enum, .ro, 0, .v, 0, 255, 1, 0⟩,
   ⟨0x0300, 0x0300, 0x03, 0x03, .u8, .wo, 0, .v, 1, 2, 1, 0⟩,
   ⟨0x0300, 0x0300, 0x04, 0x04, .bool, .ro, 0, .v, 0, 1, 1, 0⟩,
   ⟨0x0300, 0x0300, 0x05, 0x05, .u32, .ro, 0, .v, 0, 4294967295, 1, 0⟩,
   ⟨0x0300, 0x0300, 0x06, 0x06, .enum, .ro, 0, .v, 0, 255, 1, 0⟩,
   ⟨0x0300, 0x0300, 0x07, 0x07, .u8, .ro, 0, .v, 0, 255, 1, 0⟩]

/-- Entry rows 24 to 47 of the dictionary. -/
def entryRows1 : List EMeta :=
  [⟨0x0300, 0x0300, 0x08, 0x08, .u16, .ro, 0, .v, 0, 65535, 1, 0⟩,
   ⟨0x0300, 0x0300, 0x09, 0x09, .enum, .ro, 0, .v, 0, 255, 1, 0⟩,
   ⟨0x0300, 0x0300, 0x0A, 0x0A, .u32, .ro, 0, .p, 0, 4294967295, 1, 0⟩,
   ⟨0x0400, 0x0400, 0x01, 0x01, .u64, .rwl, 0, .w, 0, 18446744073709551615, 67108864, 0⟩,
   ⟨0x0400, 0x0400, 0x02, 0x02, .u16, .rw, 64, .p, 1, 256, 1, 0⟩,
   ⟨0x0400, 0x0400, 0x03, 0x03, .u32, .ro, 0, .v, 0, 4294967295, 1, 0⟩,
   ⟨0x0400, 0x0400, 0x04, 0x04, .u32, .ro, 0, .v, 0, 4294967295, 1, 0⟩,
   ⟨0x0401, 0x0401, 0x01, 0x01, .u8, .rw, 28, .p, 28, 41, 1, 0⟩,
   ⟨0x0401, 0x0401, 0x02, 0x02, .enum, .rw, 5, .p, 3, 5, 1, 0⟩,
   ⟨0x0500, 0x0500, 0x01, 0x01, .u16, .rw, 0, .v, 0, 65535, 1, 0⟩,
   ⟨0x0500, 0x0500, 0x02, 0x02, .enum, .wo, 0, .v, 1, 4, 1, 0⟩,
   ⟨0x0500, 0x0500, 0x03, 0x03, .enum, .ro, 0, .v, 0, 255, 1, 0⟩,
   ⟨0x0500, 0x0500, 0x04, 0x04, .enum, .ro, 0, .v, 0, 255, 1, 0⟩,
   ⟨0x0500, 0x0500, 0x05, 0x05, .enum, .ro, 0, .v, 0, 255, 1, 0⟩,
   ⟨0x0500, 0x0500, 0x06, 0x06, .u8, .ro, 0, .v, 0, 255, 1, 0⟩,
   ⟨0x0500, 0x0500, 0x07, 0x07, .u32, .ro, 0, .v, 0, 4294967295, 1, 0⟩,
   ⟨0x0500, 0x0500, 0x08, 0x08, .u32, .ro, 0, .v, 0, 4294967295, 1, 0⟩,
   ⟨0x0510, 0x0510, 0x01, 0x01, .enum, .wo, 0, .v, 1, 4, 1, 0⟩,
   ⟨0x0510, 0x0510, 0x02, 0x02, .u32, .rw, 0, .v, 0, 16777215, 1024, 0⟩,
   ⟨0x0510, 0x0510, 0x03, 0x03, .blob, .wo, 0, .v, 0, 0, 1, 1024⟩,
   ⟨0x0510, 0x0510, 0x04, 0x04, .enum, .ro, 0, .v, 0, 255, 1, 0⟩,
   ⟨0x0510, 0x0510, 0x05, 0x05, .str, .ro, 0, .v, 0, 0, 1, 32⟩,
   ⟨0x0510, 0x0510, 0x06, 0x06, .bool, .ro, 0, .v, 0, 1, 1, 0⟩,
   ⟨0x0510, 0x0510, 0x07, 0x07, .bool, .ro, 0, .v, 0, 1, 1, 0⟩]

/-- Entry rows 48 to 71 of the dictionary. -/
def entryRows2 : List EMeta :=
  [⟨0x1000, 0x1000, 0x01, 0x02, .i16, .ro, 0, .v, 0, 65535, 1, 0⟩,
   ⟨0x1000, 0x1000, 0x03, 0x04, .u16, .ro, 0, .v, 0, 65535, 1, 0⟩,
   ⟨0x1000, 0x1000, 0x05, 0x05, .u8, .ro, 0, .v, 0, 255, 1, 0⟩,
   ⟨0x1000, 0x1000, 0x06, 0x06, .u16, .ro, 0, .v, 0, 65535, 1, 0⟩,
   ⟨0x1001, 0x1001, 0x01, 0x01, .u16, .rw, 7000, .p, 1000, 7000, 1, 0⟩,
   ⟨0x1010, 0x1010, 0x01, 0x01, .u16, .rw, 2700, .p, 40, 2700, 1, 0⟩,
   ⟨0x1010, 0x1010, 0x02, 0x02, .u32, .rw, 1000, .p, 100, 100000, 1, 0⟩,
   ⟨0x1010, 0x1010, 0x03, 0x03, .u8, .rw, 10, .p, 2, 25, 1, 0⟩,
   ⟨0x1010, 0x1010, 0x04, 0x04, .u8, .rw, 4, .p, 1, 255, 1, 0⟩,
   ⟨0x1010, 0x1010, 0x05, 0x05, .u32, .ro, 0, .v, 0, 4294967295, 1, 0⟩,
   ⟨0x1010, 0x1010, 0x06, 0x06, .bool, .ro, 0, .v, 0, 1, 1, 0⟩,
   ⟨0x1020, 0x1020, 0x01, 0x01, .enum, .ro, 0, .v, 0, 255, 1, 0⟩,
   ⟨0x1020, 0x1020, 0x02, 0x02, .enum, .wo, 0, .v, 0, 2, 1, 0⟩,
   ⟨0x1020, 0x1020, 0x03, 0x03, .u16, .rw, 50, .p, 0, 65535, 1, 0⟩,
   ⟨0x1020, 0x1020, 0x04, 0x04, .blob, .ro, 0, .v, 0, 0, 1, 32⟩,
   ⟨0x1030, 0x1030, 0x01, 0x20, .i16, .ro, 0, .v, 0, 65535, 1, 0⟩,
   ⟨0x1031, 0x1031, 0x01, 0x20, .enum, .ro, 0, .v, 0, 255, 1, 0⟩,
   ⟨0x1032, 0x1032, 0x01, 0x02, .i16, .ro, 0, .v, 0, 65535, 1, 0⟩,
   ⟨0x1040, 0x1040, 0x01, 0x04, .u16, .ro, 0, .v, 0, 65535, 1, 0⟩,
   ⟨0x1040, 0x1040, 0x05, 0x05, .u16, .rw, 850, .p, 650, 850, 5, 0⟩,
   ⟨0x1041, 0x1041, 0x01, 0x04, .u16, .rw, 0, .p, 0, 65535, 1, 0⟩,
   ⟨0x1050, 0x1050, 0x01, 0x01, .u64, .rwl, 0, .w, 0, 18446744073709551615, 1048576, 0⟩,
   ⟨0x1050, 0x1050, 0x02, 0x02, .u16, .rw, 20, .p, 1, 2700, 1, 0⟩,
   ⟨0x1050, 0x1050, 0x03, 0x03, .u16, .rw, 8, .p, 1, 65535, 1, 0⟩]

/-- Entry rows 72 to 95 of the dictionary. -/
def entryRows3 : List EMeta :=
  [⟨0x1100, 0x1100, 0x01, 0x04, .u32, .ro, 0, .v, 0, 4294967295, 1, 0⟩,
   ⟨0x1101, 0x1101, 0x01, 0x20, .u32, .ro, 0, .v, 0, 4294967295, 1, 0⟩,
   ⟨0x1102, 0x1102, 0x01, 0x01, .u8, .rw, 20, .p, 16, 24, 1, 0⟩,
   ⟨0x1102, 0x1102, 0x02, 0x02, .u32, .ro, 0, .v, 0, 4294967295, 1, 0⟩,
   ⟨0x1110, 0x1110, 0x01, 0x01, .bool, .rw, 0, .p, 0, 1, 1, 0⟩,
   ⟨0x2030, 0x2030, 0x01, 0x01, .enum, .rwl, 0, .p, 0, 1, 1, 0⟩,
   ⟨0x2030, 0x2030, 0x02, 0x02, .enum, .rwl, 0, .p, 0, 1, 1, 0⟩,
   ⟨0x2040, 0x2040, 0x01, 0x01, .u8, .rwl, 3, .p, 0, 7, 1, 0⟩,
   ⟨0x2060, 0x2060, 0x01, 0x01, .bool, .rwl, 0, .p, 0, 1, 1, 0⟩,
   ⟨0x2070, 0x2070, 0x01, 0x01, .u8, .rwl, 23, .p, 23, 40, 1, 0⟩,
   ⟨0x2070, 0x2070, 0x02, 0x02, .u8, .rwl, 14, .p, 14, 40, 1, 0⟩,
   ⟨0x2200, 0x2200, 0x01, 0x01, .u8, .rw, 25, .p, 1, 100, 1, 0⟩,
   ⟨0x2200, 0x2200, 0x02, 0x02, .enum, .rw, 0, .p, 0, 2, 1, 0⟩,
   ⟨0x2200, 0x2200, 0x03, 0x03, .enum, .wo, 0, .v, 0, 1, 1, 0⟩,
   ⟨0x2200, 0x2200, 0x04, 0x04, .u16, .rwl, 64, .p, 0, 192, 1, 0⟩,
   ⟨0x2200, 0x2200, 0x05, 0x05, .bool, .ro, 0, .v, 0, 1, 1, 0⟩,
   ⟨0x2210, 0x2210, 0x01, 0x01, .u16, .rw, 999, .p, 900, 1000, 1, 0⟩,
   ⟨0x2210, 0x2210, 0x02, 0x02, .u16, .rw, 64, .p, 0, 65535, 1, 0⟩,
   ⟨0x2210, 0x2210, 0x03, 0x03, .u8, .rw, 4, .p, 1, 16, 1, 0⟩,
   ⟨0x3000, 0x3000, 0x01, 0x01, .u8, .rw, 4, .p, 0, 48, 1, 0⟩,
   ⟨0x3000, 0x3000, 0x02, 0x02, .u8, .rw, 1, .p, 0, 48, 1, 0⟩,
   ⟨0x3000, 0x3000, 0x03, 0x03, .u8, .rw, 5, .p, 0, 48, 1, 0⟩,
   ⟨0x3000, 0x3000, 0x04, 0x04, .u8, .ro, 38, .v, 0, 255, 1, 0⟩,
   ⟨0x3001, 0x3001, 0x01, 0x01, .u8, .rw, 4, .p, 0, 14, 1, 0⟩]

/-- Entry rows 96 to 119 of the dictionary. -/
def entryRows4 : List EMeta :=
  [⟨0x3001, 0x3001, 0x02, 0x02, .bool, .rw, 0, .p, 0, 1, 1, 0⟩,
   ⟨0x3010, 0x3010, 0x01, 0x01, .u64, .ro, 0, .v, 0, 18446744073709551615, 1, 0⟩,
   ⟨0x3010, 0x3010, 0x02, 0x05, .u64, .ro, 0, .v, 0, 18446744073709551615, 1, 0⟩,
   ⟨0x3011, 0x3011, 0x01, 0x14, .u64, .ro, 0, .v, 0, 18446744073709551615, 1, 0⟩,
   ⟨0x3020, 0x3020, 0x01, 0x14, .u32, .rw, 0, .p, 0, 4294967295, 1, 0⟩,
   ⟨0x3021, 0x3021, 0x01, 0x14, .u32, .ro, 0, .v, 0, 4294967295, 1, 0⟩,
   ⟨0x3022, 0x3022, 0x01, 0x01, .u32, .ro, 0, .v, 0, 4294967295, 1, 0⟩,
   ⟨0x3030, 0x3030, 0x01, 0x01, .u16, .rw, 24, .p, 0, 168, 1, 0⟩,
   ⟨0x3030, 0x3030, 0x02, 0x02, .u16, .rw, 64, .p, 0, 65535, 1, 0⟩,
   ⟨0x3030, 0x3030, 0x03, 0x03, .u8, .rw, 4, .p, 1, 255, 1, 0⟩,
   ⟨0x3040, 0x3040, 0x01, 0x14, .i16, .ro, 0, .v, 0, 65535, 1, 0⟩,
   ⟨0x3041, 0x3041, 0x01, 0x14, .enum, .ro, 0, .v, 0, 255, 1, 0⟩,
   ⟨0x3100, 0x3100, 0x01, 0x14, .u64, .ro, 0, .v, 0, 18446744073709551615, 1, 0⟩,
   ⟨0x3101, 0x3101, 0x01, 0x14, .u32, .ro, 0, .v, 0, 4294967295, 1, 0⟩,
   ⟨0x3102, 0x3102, 0x01, 0x14, .u32, .ro, 0, .v, 0, 4294967295, 1, 0⟩,
   ⟨0x3103, 0x3103, 0x01, 0x14, .u32, .ro, 0, .v, 0, 4294967295, 1, 0⟩,
   ⟨0x4000, 0x4000, 0x01, 0x01, .u16, .rwl, 34997, .p, 1536, 65535, 1, 0⟩,
   ⟨0x4000, 0x4000, 0x02, 0x02, .u16, .rwl, 0, .p, 0, 4094, 1, 0⟩,
   ⟨0x4000, 0x4000, 0x03, 0x03, .u8, .rwl, 3, .p, 0, 7, 1, 0⟩,
   ⟨0x4000, 0x4000, 0x04, 0x04, .enum, .rwl, 0, .p, 0, 1, 1, 0⟩,
   ⟨0x4000, 0x4000, 0x05, 0x05, .u8, .rwl, 255, .p, 0, 255, 1, 0⟩,
   ⟨0x4001, 0x4001, 0x01, 0x08, .enum, .ro, 0, .v, 0, 255, 1, 0⟩,
   ⟨0x4010, 0x4010, 0x01, 0x01, .u64, .rwl, 0, .w, 0, 18446744073709551615, 1, 0⟩,
   ⟨0x4010, 0x4010, 0x02, 0x02, .u16, .rwl, 0, .w, 0, 4096, 1, 0⟩]

/-- Entry rows 120 to 143 of the dictionary. -/
def entryRows5 : List EMeta :=
  [⟨0x4010, 0x4010, 0x03, 0x03, .u16, .ro, 0, .v, 0, 65535, 1, 0⟩,
   ⟨0x4020, 0x4020, 0x01, 0x01, .u16, .rwl, 64, .p, 8, 256, 1, 0⟩,
   ⟨0x4020, 0x4020, 0x02, 0x02, .u16, .rw, 32, .p, 8, 4096, 1, 0⟩,
   ⟨0x4020, 0x4020, 0x03, 0x03, .u8, .rw, 16, .p, 1, 255, 1, 0⟩,
   ⟨0x4020, 0x4020, 0x04, 0x04, .u16, .rw, 4, .p, 1, 4096, 1, 0⟩,
   ⟨0x4030, 0x4030, 0x01, 0x01, .u32, .rw, 8192, .p, 256, 1073741824, 1, 0⟩,
   ⟨0x4030, 0x4030, 0x02, 0x02, .u32, .rw, 200000, .p, 0, 1073741824, 1, 0⟩,
   ⟨0x4040, 0x4040, 0x01, 0x01, .u64, .ro, 0, .v, 0, 18446744073709551615, 1, 0⟩,
   ⟨0x4040, 0x4040, 0x02, 0x02, .u32, .ro, 0, .v, 0, 4294967295, 1, 0⟩,
   ⟨0x4040, 0x4040, 0x03, 0x03, .u32, .ro, 0, .v, 0, 4294967295, 1, 0⟩,
   ⟨0x4040, 0x4040, 0x04, 0x04, .u32, .ro, 0, .v, 0, 4294967295, 1, 0⟩,
   ⟨0x4100, 0x4100, 0x01, 0x01, .u16, .rw, 65535, .w, 0, 65535, 1, 0⟩,
   ⟨0x4100, 0x4100, 0x02, 0x02, .u16, .rw, 65535, .w, 0, 65535, 1, 0⟩,
   ⟨0x4100, 0x4100, 0x03, 0x03, .u32, .rw, 8192, .p, 0, 65536, 1, 0⟩,
   ⟨0x4100, 0x4100, 0x04, 0x04, .u64, .ro, 0, .v, 0, 18446744073709551615, 1, 0⟩,
   ⟨0x4100, 0x4100, 0x05, 0x05, .enum, .ro, 0, .v, 0, 255, 1, 0⟩,
   ⟨0x4100, 0x4100, 0x06, 0x06, .bool, .ro, 0, .v, 0, 1, 1, 0⟩,
   ⟨0x4110, 0x4110, 0x01, 0x01, .u8, .ro, 0, .v, 0, 255, 1, 0⟩,
   ⟨0x4110, 0x4110, 0x02, 0x02, .u8, .ro, 0, .v, 0, 255, 1, 0⟩,
   ⟨0x4110, 0x4110, 0x03, 0x03, .u8, .rw, 255, .p, 0, 255, 1, 0⟩,
   ⟨0x4110, 0x4110, 0x04, 0x04, .u8, .rw, 255, .p, 0, 255, 1, 0⟩,
   ⟨0x4110, 0x4110, 0x05, 0x05, .bool, .rw, 0, .p, 0, 1, 1, 0⟩,
   ⟨0x4120, 0x4120, 0x01, 0x02, .enum, .ro, 0, .v, 0, 255, 1, 0⟩,
   ⟨0x4120, 0x4120, 0x03, 0x04, .u32, .ro, 0, .v, 0, 4294967295, 1, 0⟩]

/-- Entry rows 144 to 167 of the dictionary. -/
def entryRows6 : List EMeta :=
  [⟨0x5000, 0x5000, 0x01, 0x01, .u32, .ro, 0, .v, 0, 4294967295, 1, 0⟩,
   ⟨0x5000, 0x5000, 0x02, 0x02, .u32, .ro, 0, .v, 0, 4294967295, 1, 0⟩,
   ⟨0x5000, 0x5000, 0x03, 0x03, .u32, .ro, 0, .v, 0, 4294967295, 1, 0⟩,
   ⟨0x5000, 0x5000, 0x04, 0x04, .blob, .ro, 0, .v, 0, 0, 1, 16⟩,
   ⟨0x5010, 0x5010, 0x01, 0x01, .u8, .rw, 3, .p, 0, 255, 1, 0⟩,
   ⟨0x5010, 0x5010, 0x02, 0x02, .blob, .ro, 0, .w, 0, 0, 1, 128⟩,
   ⟨0x5010, 0x5010, 0x03, 0x03, .blob, .ro, 0, .w, 0, 0, 1, 320⟩,
   ⟨0x5010, 0x5010, 0x04, 0x04, .u16, .wo, 0, .v, 0, 65535, 1, 0⟩,
   ⟨0x5020, 0x5020, 0x01, 0x01, .u32, .rw, 4096, .p, 0, 4294967295, 1, 0⟩,
   ⟨0x5020, 0x5020, 0x02, 0x02, .u32, .rw, 1048576, .p, 0, 4294967295, 1, 0⟩,
   ⟨0x5020, 0x5020, 0x03, 0x03, .u32, .ro, 0, .v, 0, 4294967295, 1, 0⟩,
   ⟨0x5030, 0x5030, 0x01, 0x01, .u32, .wo, 0, .v, 0, 4294967295, 1, 0⟩,
   ⟨0x5040, 0x5040, 0x01, 0x01, .u8, .rw, 6, .p, 0, 255, 1, 0⟩,
   ⟨0x5040, 0x5040, 0x02, 0x02, .bool, .wo, 0, .v, 0, 1, 1, 0⟩,
   ⟨0x6000, 0x6000, 0x01, 0x01, .bool, .rw, 0, .v, 0, 1, 1, 0⟩,
   ⟨0x6000, 0x6000, 0x02, 0x02, .u32, .ro, 0, .v, 0, 4294967295, 1, 0⟩,
   ⟨0x6000, 0x6000, 0x03, 0x03, .u64, .ro, 0, .v, 0, 18446744073709551615, 1, 0⟩,
   ⟨0x6000, 0x6000, 0x04, 0x04, .u32, .ro, 0, .v, 0, 4294967295, 1, 0⟩,
   ⟨0x6001, 0x6001, 0x01, 0x01, .u64, .ro, 1, .v, 0, 18446744073709551615, 1, 0⟩,
   ⟨0x6020, 0x6020, 0x01, 0x40, .u64, .rw, 0, .w, 0, 18446744073709551615, 1, 0⟩,
   ⟨0x6021, 0x6021, 0x01, 0x40, .u32, .rw, 10, .w, 0, 4294967295, 1, 0⟩,
   ⟨0x6022, 0x6022, 0x01, 0x40, .u32, .rw, 0, .w, 0, 4294967295, 1, 0⟩,
   ⟨0x6023, 0x6023, 0x01, 0x40, .bool, .rw, 0, .w, 0, 1, 1, 0⟩,
   ⟨0x6024, 0x6024, 0x01, 0x40, .u32, .ro, 0, .w, 0, 4294967295, 1, 0⟩]

/-- Entry rows 168 to 191 of the dictionary. -/
def entryRows7 : List EMeta :=
  [⟨0x6025, 0x6025, 0x01, 0x40, .u32, .rw, 0, .w, 0, 4294967295, 1, 0⟩,
   ⟨0x6026, 0x6026, 0x01, 0x40, .u32, .ro, 0, .w, 0, 4294967295, 1, 0⟩,
   ⟨0x6027, 0x6027, 0x01, 0x40, .u8, .ro, 0, .v, 0, 255, 1, 0⟩,
   ⟨0x6030, 0x6030, 0x01, 0x40, .u32, .rw, 4096, .p, 0, 4294967295, 1, 0⟩,
   ⟨0x6100, 0x62FF, 0x01, 0x80, .u32, .rw, 32776, .p, 0, 4294967295, 1, 0⟩,
   ⟨0x6400, 0x6410, 0x01, 0x06, .u32, .rw, 0, .v, 0, 4294967295, 1, 0⟩,
   ⟨0x6600, 0x6600, 0x01, 0x20, .u64, .rw, 0, .v, 0, 18446744073709551615, 1, 0⟩,
   ⟨0x6601, 0x6601, 0x01, 0x20, .u64, .rw, 0, .v, 0, 18446744073709551615, 1, 0⟩,
   ⟨0x6610, 0x6610, 0x01, 0x04, .u64, .rw, 0, .v, 0, 18446744073709551615, 1, 0⟩,
   ⟨0x6611, 0x6611, 0x01, 0x04, .u64, .rw, 0, .v, 0, 18446744073709551615, 1, 0⟩,
   ⟨0x6612, 0x6612, 0x01, 0x04, .u16, .rw, 0, .p, 0, 65535, 1, 0⟩,
   ⟨0x6613, 0x6613, 0x01, 0x04, .u8, .rw, 0, .v, 0, 255, 1, 0⟩,
   ⟨0x7000, 0x7000, 0x01, 0x01, .enum, .ro, 0, .v, 0, 255, 1, 0⟩,
   ⟨0x7000, 0x7000, 0x02, 0x02, .u16, .ro, 0, .v, 0, 65535, 1, 0⟩,
   ⟨0x7000, 0x7000, 0x03, 0x03, .u32, .ro, 0, .v, 0, 4294967295, 1, 0⟩,
   ⟨0x7000, 0x7000, 0x04, 0x04, .enum, .ro, 0, .v, 0, 255, 1, 0⟩,
   ⟨0x7000, 0x7000, 0x05, 0x05, .enum, .ro, 0, .v, 0, 255, 1, 0⟩,
   ⟨0x7000, 0x7000, 0x06, 0x06, .u32, .ro, 0, .v, 0, 4294967295, 1, 0⟩,
   ⟨0x7000, 0x7000, 0x07, 0x07, .bool, .ro, 0, .v, 0, 1, 1, 0⟩,
   ⟨0x7001, 0x7001, 0x01, 0x01, .enum, .ro, 0, .v, 0, 255, 1, 0⟩,
   ⟨0x7001, 0x7001, 0x02, 0x02, .bool, .rw, 0, .p, 0, 1, 1, 0⟩,
   ⟨0x7001, 0x7001, 0x03, 0x03, .bool, .wo, 0, .v, 0, 1, 1, 0⟩,
   ⟨0x7010, 0x7010, 0x01, 0x01, .blob, .wo, 0, .v, 0, 0, 1, 32⟩,
   ⟨0x7010, 0x7010, 0x02, 0x02, .enum, .wo, 0, .v, 1, 1, 1, 0⟩]

/-- Entry rows 192 to 215 of the dictionary. -/
def entryRows8 : List EMeta :=
  [⟨0x7010, 0x7010, 0x03, 0x03, .enum, .ro, 0, .v, 0, 255, 1, 0⟩,
   ⟨0x7010, 0x7010, 0x04, 0x04, .u32, .ro, 0, .v, 0, 4294967295, 1, 0⟩,
   ⟨0x7010, 0x7010, 0x05, 0x05, .u32, .rw, 0, .v, 0, 4294967295, 1024, 0⟩,
   ⟨0x7010, 0x7010, 0x06, 0x06, .blob, .ro, 0, .v, 0, 0, 1, 1024⟩,
   ⟨0x7020, 0x7020, 0x01, 0x01, .enum, .wo, 0, .v, 1, 3, 1, 0⟩,
   ⟨0x7020, 0x7020, 0x02, 0x02, .enum, .ro, 0, .v, 0, 255, 1, 0⟩,
   ⟨0x7020, 0x7020, 0x03, 0x03, .u8, .rw, 0, .v, 0, 1, 1, 0⟩,
   ⟨0x7020, 0x7020, 0x04, 0x04, .u32, .rw, 0, .v, 0, 65535, 1024, 0⟩,
   ⟨0x7020, 0x7020, 0x05, 0x05, .blob, .ro, 0, .v, 0, 0, 1, 1024⟩,
   ⟨0x7020, 0x7020, 0x06, 0x06, .blob, .rw, 0, .v, 0, 0, 1, 1024⟩,
   ⟨0x8000, 0x8000, 0x01, 0x01, .bool, .wo, 0, .v, 0, 1, 1, 0⟩,
   ⟨0x8000, 0x8000, 0x02, 0x02, .bool, .rw, 0, .v, 0, 1, 1, 0⟩,
   ⟨0x8000, 0x8000, 0x03, 0x03, .u8, .rw, 0, .p, 0, 15, 1, 0⟩,
   ⟨0x8000, 0x8000, 0x04, 0x04, .u16, .rw, 0, .p, 0, 65535, 1, 0⟩,
   ⟨0x8000, 0x8000, 0x05, 0x05, .bool, .rw, 0, .p, 0, 1, 1, 0⟩,
   ⟨0x8000, 0x8000, 0x06, 0x06, .bool, .wo, 0, .v, 0, 1, 1, 0⟩,
   ⟨0x8000, 0x8000, 0x07, 0x07, .u16, .ro, 0, .v, 0, 65535, 1, 0⟩,
   ⟨0x8000, 0x8000, 0x08, 0x08, .u32, .ro, 0, .v, 0, 4294967295, 1, 0⟩,
   ⟨0x8000, 0x8000, 0x09, 0x09, .enum, .ro, 0, .v, 0, 255, 1, 0⟩,
   ⟨0x8000, 0x8000, 0x0A, 0x0A, .u32, .ro, 0, .v, 0, 4294967295, 1, 0⟩,
   ⟨0x8000, 0x8000, 0x0B, 0x0B, .u32, .ro, 0, .v, 0, 4294967295, 1, 0⟩,
   ⟨0x8010, 0x8010, 0x01, 0x01, .u32, .rw, 0, .v, 0, 4294967295, 1, 0⟩,
   ⟨0x8010, 0x8010, 0x02, 0x02, .u32, .rw, 0, .v, 0, 458751, 1024, 0⟩,
   ⟨0x8010, 0x8010, 0x03, 0x03, .blob, .ro, 0, .v, 0, 0, 1, 1024⟩]

/-- Entry rows 216 to 239 of the dictionary. -/
def entryRows9 : List EMeta :=
  [⟨0x8010, 0x8010, 0x04, 0x04, .enum, .ro, 0, .v, 0, 255, 1, 0⟩,
   ⟨0x8100, 0x8100, 0x01, 0x01, .u16, .rw, 0, .p, 0, 65535, 1, 0⟩,
   ⟨0x8100, 0x8100, 0x02, 0x02, .bool, .wo, 0, .v, 0, 1, 1, 0⟩,
   ⟨0x8100, 0x8100, 0x03, 0x03, .u64, .rw, 0, .w, 0, 18446744073709551615, 1, 0⟩,
   ⟨0x8100, 0x8100, 0x04, 0x04, .u64, .rw, 0, .w, 0, 18446744073709551615, 32, 0⟩,
   ⟨0x8100, 0x8100, 0x05, 0x05, .u16, .rw, 0, .w, 1, 1024, 1, 0⟩,
   ⟨0x8100, 0x8100, 0x06, 0x06, .enum, .rw, 0, .p, 0, 2, 1, 0⟩,
   ⟨0x8100, 0x8100, 0x07, 0x07, .u64, .rw, 0, .w, 0, 18446744073709551615, 4096, 0⟩,
   ⟨0x8100, 0x8100, 0x08, 0x08, .u32, .rw, 0, .w, 0, 4294967295, 1, 0⟩,
   ⟨0x8100, 0x8100, 0x09, 0x09, .u16, .rw, 4096, .p, 2, 16384, 2, 0⟩,
   ⟨0x8101, 0x8101, 0x01, 0x01, .enum, .ro, 0, .v, 0, 255, 1, 0⟩,
   ⟨0x8101, 0x8101, 0x02, 0x02, .u32, .ro, 0, .w, 0, 4294967295, 1, 0⟩,
   ⟨0x8101, 0x8101, 0x03, 0x03, .u32, .ro, 0, .w, 0, 4294967295, 1, 0⟩,
   ⟨0x8101, 0x8101, 0x04, 0x04, .u32, .ro, 0, .v, 0, 4294967295, 1, 0⟩,
   ⟨0x8101, 0x8101, 0x05, 0x05, .u32, .ro, 0, .v, 0, 4294967295, 1, 0⟩,
   ⟨0x8110, 0x8110, 0x01, 0x01, .u16, .rw, 65535, .v, 0, 65535, 1, 0⟩,
   ⟨0x8110, 0x8110, 0x02, 0x02, .u16, .rw, 65535, .v, 0, 65535, 1, 0⟩,
   ⟨0x8110, 0x8110, 0x03, 0x03, .u32, .rw, 0, .v, 0, 4294967295, 1, 0⟩,
   ⟨0x8110, 0x8110, 0x04, 0x04, .u32, .rw, 0, .v, 0, 4294967295, 1, 0⟩,
   ⟨0x8110, 0x8110, 0x05, 0x05, .u64, .rw, 0, .v, 0, 18446744073709551615, 1, 0⟩,
   ⟨0x8110, 0x8110, 0x06, 0x06, .u64, .rw, 0, .v, 0, 18446744073709551615, 1, 0⟩,
   ⟨0x8110, 0x8110, 0x07, 0x07, .bool, .rw, 0, .p, 0, 1, 1, 0⟩,
   ⟨0x8110, 0x8110, 0x08, 0x08, .enum, .wo, 0, .v, 1, 2, 1, 0⟩,
   ⟨0x8111, 0x8111, 0x01, 0x01, .enum, .ro, 0, .v, 0, 255, 1, 0⟩]

/-- Entry rows 240 to 243 of the dictionary. -/
def entryRows10 : List EMeta :=
  [⟨0x8111, 0x8111, 0x02, 0x02, .enum, .ro, 0, .v, 0, 255, 1, 0⟩,
   ⟨0x8111, 0x8111, 0x03, 0x03, .u32, .ro, 0, .v, 0, 4294967295, 1, 0⟩,
   ⟨0x8111, 0x8111, 0x04, 0x04, .bool, .ro, 0, .w, 0, 1, 1, 0⟩,
   ⟨0x8111, 0x8111, 0x05, 0x05, .u64, .ro, 0, .v, 0, 18446744073709551615, 1, 0⟩]

/-- Every entry row of the dictionary. -/
def entryRows : List EMeta :=
  entryRows0 ++ entryRows1 ++ entryRows2 ++ entryRows3 ++ entryRows4 ++ entryRows5 ++ entryRows6 ++ entryRows7 ++ entryRows8 ++ entryRows9 ++ entryRows10

/-- The row's index and sub-index ranges hold the key; a row over several indices holds sub-indices
1 to 0x80 of each but the last (R424). -/
def EMeta.holds (m : EMeta) (key : Nat) : Bool :=
  let i := key / 256
  let s := key % 256
  if m.i0 = m.i1 then i == m.i0 && decide (m.s0 ≤ s) && decide (s ≤ m.s1)
  else decide (m.i0 ≤ i) && decide (i ≤ m.i1) && decide (1 ≤ s) && decide (s ≤ (if i = m.i1 then m.s1 else 0x80))

/-- The row of an entry. -/
def findMeta (key : Nat) : Option EMeta := entryRows.find? (·.holds key)

/-- The default of an entry: the row's default, except for the source configurations of the fault
collector, whose priority is 15 (R407). -/
def dictDefault (key : Nat) : Nat :=
  if 0x610001 ≤ key ∧ key ≤ 0x610180 then (if key % 256 = 0 ∨ key % 256 > 0x80 then 0 else 0x800F)
  else match findMeta key with
    | some m => m.dflt
    | none => 0

/-- The source configuration word's key of source n (R424). -/
def srcCfgKey (n : Nat) : Nat := (0x6100 + n / 128) * 256 + n % 128 + 1

/-- The control word's key of target t (R424). -/
def tctlKey (t : Nat) : Nat := (0x6400 + t / 128) * 256 + t % 128 + 1

end Sys2Proof.Machine
end

