-- ==== Sys2Proof/Machine/EventTypes.lean ====
section
/-!
DEFINITION. The data of events, faults and knot messages: detection mechanisms (R365, R525), fault
messages (R370), event records (R413), and what stands in flight towards the hub and the die agents.
-/

namespace Sys2Proof.Machine

/-- The detection mechanisms of R365. -/
inductive Mech where
  | res3Cell | res3Ply | res3Feed | res7Run | res7Acc | antilog | chkCol | chkRow | parityStat
  | resCore | resHearth | memCe | memUe | hbmUe | fence | linkRetry | linkDown | hbmClock
  | emberCrc | seqUe | knotUe | tallyParity | proofFail | hubInternal
  deriving DecidableEq, Repr

/-- The code of a mechanism (R365). -/
def Mech.code : Mech → Nat
  | .res3Cell => 0x01 | .res3Ply => 0x02 | .res3Feed => 0x03 | .res7Run => 0x04 | .res7Acc => 0x05
  | .antilog => 0x06 | .chkCol => 0x07 | .chkRow => 0x08 | .parityStat => 0x09 | .resCore => 0x0A
  | .resHearth => 0x0B | .memCe => 0x0C | .memUe => 0x0D | .hbmUe => 0x0E | .fence => 0x0F
  | .linkRetry => 0x10 | .linkDown => 0x11 | .hbmClock => 0x12 | .emberCrc => 0x13 | .seqUe => 0x14
  | .knotUe => 0x15 | .tallyParity => 0x16 | .proofFail => 0x17 | .hubInternal => 0x18

/-- The mechanism of a code. -/
def Mech.ofCode : Nat → Option Mech
  | 0x01 => some .res3Cell | 0x02 => some .res3Ply | 0x03 => some .res3Feed | 0x04 => some .res7Run
  | 0x05 => some .res7Acc | 0x06 => some .antilog | 0x07 => some .chkCol | 0x08 => some .chkRow
  | 0x09 => some .parityStat | 0x0A => some .resCore | 0x0B => some .resHearth | 0x0C => some .memCe
  | 0x0D => some .memUe | 0x0E => some .hbmUe | 0x0F => some .fence | 0x10 => some .linkRetry
  | 0x11 => some .linkDown | 0x12 => some .hbmClock | 0x13 => some .emberCrc | 0x14 => some .seqUe
  | 0x15 => some .knotUe | 0x16 => some .tallyParity | 0x17 => some .proofFail
  | 0x18 => some .hubInternal | _ => none

/-- The class of a mechanism (R365): 0 safe, 1 detected-dangerous, 2 latent. -/
def Mech.cls : Mech → Nat
  | .memCe | .linkRetry | .tallyParity => 0
  | .proofFail => 2
  | .res3Cell | .res3Ply | .res3Feed | .res7Run | .res7Acc | .antilog | .chkCol | .chkRow
  | .parityStat | .resCore | .resHearth | .memUe | .hbmUe | .fence | .linkDown | .hbmClock
  | .emberCrc | .seqUe | .knotUe | .hubInternal => 1

/-- R525: the unit kinds that carry a mechanism. -/
def Mech.kinds : Mech → List Nat
  | .res3Cell | .res3Ply | .res3Feed | .res7Run | .res7Acc | .antilog | .chkCol | .chkRow
  | .parityStat => [0]
  | .resCore => [1]
  | .resHearth => [2]
  | .memCe => [0, 1, 2, 3, 6, 7]
  | .memUe => [0, 1]
  | .hbmUe | .fence | .hbmClock => [2]
  | .linkRetry | .linkDown => [4]
  | .emberCrc => [4, 5, 6]
  | .seqUe => [1, 2]
  | .knotUe => [3]
  | .tallyParity => [1]
  | .proofFail => [0, 1, 2]
  | .hubInternal => [6]

/-- Mechanisms an engine can detect in a step, with a tile retry (R365). -/
def engineMechs : List Mech :=
  [.res3Cell, .res3Ply, .res3Feed, .res7Run, .res7Acc, .antilog, .chkCol, .parityStat, .memUe]

/-- A fault message (R370). -/
structure FaultMsg where
  mech : Mech
  retry : Bool := false
  inj : Bool := false
  utype : Nat := 0
  unit : Nat := 0
  locA : Nat := 0
  locB : Nat := 0
  locC : Nat := 0
  fseq : Nat := 0
  /-- its place in the order of sending (R30) -/
  no : Nat := 0
  deriving DecidableEq, Repr

/-- The 128 bits of a fault message (R370). -/
def FaultMsg.bits (m : FaultMsg) : Nat :=
  1 * 2 ^ 124 + m.mech.cls * 2 ^ 122 + (if m.retry then 2 ^ 121 else 0) + (if m.inj then 2 ^ 120 else 0)
    + m.mech.code * 2 ^ 112 + m.utype % 16 * 2 ^ 108 + m.unit % 2 ^ 12 * 2 ^ 96
    + m.locA % 2 ^ 24 * 2 ^ 72 + m.locB % 2 ^ 24 * 2 ^ 48 + m.locC % 2 ^ 32 * 2 ^ 16 + m.fseq % 2 ^ 16

/-- The unit that counts a message's `FSEQ` (R370): unit kind and number. -/
def FaultMsg.src (m : FaultMsg) : Nat := m.utype * 4096 + m.unit

/-- The hub as an ember source (R27): its sub-functions share it. -/
def hubSource : Nat := 6 * 4096
/-- The ember source of a unit (R27): unit kind and number, as R370 numbers them. -/
def emberSource (utype unit : Nat) : Nat := if utype = 6 then hubSource else utype * 4096 + unit
/-- The ember source of a die agent. -/
def agentSource (d : Nat) : Nat := emberSource 3 d
/-- The ember source of a fault message. -/
def FaultMsg.ember (m : FaultMsg) : Nat := emberSource m.utype m.unit
/-- The ember source of a sequencer's unit: its core or hearth. -/
def seqSource (q : Nat) : Nat := if q < 512 then emberSource 1 (q % 256) else emberSource 2 (q - 512)

/-- The die of an ember source, none for the hub. -/
def sourceDie (src : Nat) : Option Nat :=
  let u := src % 4096
  match src / 4096 with
  | 0 => some (u / 256)
  | 1 => some (u / 64)
  | 2 => some (u / 5)
  | 3 => some u
  | 5 => some (u / 8)
  | _ => none

/-- What an ember message other than a fault or a knot update says (R25): the quench of a unit (kind and number, R459), a
hard-cap hold or release of an engine (R176), or a block's acknowledgement of a marker, null or not (R496). -/
inductive EmberWhat where
  | quench (kind unit : Nat)
  | cap (engine : Nat) (hold : Bool)
  | markerAck (key : Nat) (null : Bool)
  deriving DecidableEq, Repr

/-- Such a message in flight: its source, its destination, its place in the order of sending (R30), and whether it is still
at its source for want of a credit (R27). -/
structure EmberMsg where
  src : Nat
  dst : Nat
  no : Nat := 0
  held : Bool := false
  what : EmberWhat
  deriving DecidableEq, Repr

/-- An event on its way to the package event controller: where it comes from (0 the hub, 1 + c cluster
controller c, 33 + d die controller d), and the record's fields of R413. -/
structure EvRec where
  origin : Nat := 0
  source : Nat
  kind : Nat
  code : Nat := 0
  data : Nat := 0
  count : Nat := 1
  soft : Bool := false
  deriving DecidableEq, Repr

/-- An occurrence on its way to a cluster (0–31) or die (32–35) event controller's local source (R419). -/
structure LocalOcc where
  ctl : Nat
  bit : Nat
  ev : EvRec
  deriving DecidableEq, Repr

/-- A knot update in flight (R215–R217): the unit that sends it (an ember source), the die it goes to, set or increment, and
whether it travels in the ember class. `held` marks one still at its source for want of a credit (R27). -/
structure KnotMsg where
  src : Nat
  die : Nat
  knot : Nat
  isSet : Bool
  val : Nat
  ember : Bool
  held : Bool := false
  /-- the queue entry whose update this is (R255): queue × 65,536 + index -/
  ent : Option Nat := none
  /-- the strand whose TIE or KSET it is, by queue and entry (R217) -/
  owner : Option (Nat × Nat) := none
  /-- its place in the order of sending (R30) -/
  no : Nat := 0
  /-- sent in class 1 by a block that has latched in the running wave (R32) -/
  post : Bool := false
  deriving DecidableEq, Repr

/-- Events: records and occurrences in flight, latches of the local controllers, priority stacks of
the targets (R412), rings with an interrupt raised and not yet delivered, moderation state. -/
structure EvSys where
  /-- R57: the next record sequence value. -/
  seq : Nat := 1
  evq : List EvRec := []
  occq : List LocalOcc := []
  /-- data latches and counts, key controller × 64 + bit (R420) -/
  latch : Tab (Option EvRec) := []
  /-- priority stacks, key target (R412) -/
  tstack : Tab (List Nat) := []
  /-- rings whose interrupt waits for an eligible target (R411), rising -/
  ringPend : List Nat := []
  /-- rings that went non-empty and still wait for moderation (R416), rising -/
  ringMod : List Nat := []
  /-- rings that raised and have not gone empty since (R415), rising -/
  ringRaised : List Nat := []
  /-- rings with a dropped record since the last record written (R414), rising -/
  ringDropped : List Nat := []
  /-- MSI-X Enable and Function Mask of the function (R410, R412) -/
  msixEnable : Bool := false
  msixFuncMask : Bool := false
  /-- vectors not masked in the MSI-X table, rising; every vector resets masked -/
  vecOpen : List Nat := []
  /-- address and data of a vector's entry in the MSI-X table (R245) -/
  vecMsg : Tab (Nat × Nat) := []
  /-- PBA bits set, rising (R412) -/
  pba : List Nat := []
  /-- internal interrupts asserted at management cores and die agents: target and ring, oldest first -/
  intIrq : List (Nat × Nat) := []
  deriving DecidableEq, Repr

/-- Faults: messages in flight, held at their source, credits, fault sequences, armed injections, the
`ALERT_N` pin and the hold of R379. -/
structure FltSys where
  faultq : List FaultMsg := []
  held : List FaultMsg := []
  /-- the other ember messages in flight or held at their sources -/
  embers : List EmberMsg := []
  /-- ember messages sent so far, which number them (R30) -/
  emberNo : Nat := 0
  /-- ember credits in use per source (R27) -/
  inflight : Tab Nat := []
  /-- credits on their way back per source (R371) -/
  returning : Tab Nat := []
  /-- next fault sequence per source (R370) -/
  fseq : Tab Nat := []
  /-- injections armed: mechanism, unit kind, unit (R383) -/
  armed : List (Mech × Nat × Nat) := []
  /-- `ALERT_N` asserted (R372) -/
  alert : Bool := false
  /-- R379: the hub's own fault holds every unit and `ALERT_N` until module reset -/
  hubFault : Bool := false
  /-- detected-dangerous faults per hearth lane, key hearth × 128 + lane (R376) -/
  laneFaults : Tab Nat := []
  /-- retired lanes, a mask per hearth (R376) -/
  laneRetired : Tab Nat := []
  /-- groups of each hearth since its last proof test (R377) -/
  groups : Tab Nat := []
  /-- generators that failed a proof test, core × 16 + g or (256 + hearth) × 16 + g, rising (R378) -/
  badGen : List Nat := []
  /-- hearths whose hash lane failed its proof test, rising (R378) -/
  badHash : List Nat := []
  deriving DecidableEq, Repr

end Sys2Proof.Machine
end

