-- ==== Sys2Proof/Machine/FrameTypes.lean ====
section
/-!
DEFINITION. A Cord frame (R310–R312): its Ethernet header, header fields, payload and checks, as commands carry received
frames and State carries sent ones; its bytes, and what of R310–R313 shows in a frame itself.
-/

namespace Sys2Proof

/-- A Cord frame without its type (R310, R311): addresses, the TCI of an 802.1Q tag, EtherType, header fields, payload and
CRC-32C, and whether its FCS is right. -/
structure CordFrame where
  dst : Nat := 0
  src : Nat := 0
  tag : Option Nat := none
  etherType : Nat := 0x88B5
  ver : Nat := 1
  chan : Nat := 0
  retx : Bool := false
  /-- bits [7:5] of byte 1 -/
  rsvd : Nat := 0
  len : Nat := 0
  job : Nat := 0
  srcRank : Nat := 0xFFFF
  dstRank : Nat := 0xFFFF
  group : Nat := 0xFFFF
  session : Nat := 0
  seq : Nat := 0
  arg : Nat := 0
  elem : Nat := 0
  code : Nat := 0
  coll : Nat := 0
  payload : List Byte := []
  crc : Nat := 0
  fcsOk : Bool := true
  deriving DecidableEq, Repr

namespace Machine

/-! ### CRC-32C (R26, R311) -/

/-- A bit of the reflected CRC-32C, polynomial 0x1EDC6F41 (log 125). -/
def crcBit (c : Nat) : Nat := if c % 2 = 1 then (c / 2).xor 0x82F63B78 else c / 2

/-- A byte of it. -/
def crcByte (c : Nat) (b : Byte) : Nat := crcBit (crcBit (crcBit (crcBit (crcBit (crcBit (crcBit (crcBit (c.xor b.toNat))))))))

/-- CRC-32C of a byte string. -/
def crc32c (b : List Byte) : Nat := (b.foldl crcByte 0xFFFF_FFFF).xor 0xFFFF_FFFF

/-! ### Bytes (R311) -/

/-- `n` big-endian bytes of a number, as Ethernet sends its fields. -/
def beBytes (n v : Nat) : List Byte := (leBytes n v).reverse

/-- The 32-byte Cord header. -/
def frameHeader (f : CordFrame) (type : Nat) : List Byte :=
  leBytes 1 (type % 16 + f.ver % 16 * 16) ++ leBytes 1 (f.chan % 16 + (if f.retx then 16 else 0) + f.rsvd % 8 * 32)
    ++ leBytes 2 f.len ++ leBytes 4 f.job ++ leBytes 2 f.srcRank ++ leBytes 2 f.dstRank ++ leBytes 2 f.group
    ++ leBytes 2 f.session ++ leBytes 4 f.seq ++ leBytes 4 f.arg ++ leBytes 5 f.elem ++ leBytes 1 f.code ++ leBytes 2 f.coll

/-- The CRC-32C of header and payload. -/
def frameSum (f : CordFrame) (type : Nat) : Nat := crc32c (frameHeader f type ++ f.payload.take (64 * f.len))

/-- The frame with its `LEN` and CRC-32C. -/
def sealFrame (f : CordFrame) (type : Nat) : CordFrame :=
  let g := { f with len := f.payload.length / 64 }
  { g with crc := frameSum g type }

/-- Ethernet header, Cord header, payload and CRC-32C, without the FCS. -/
def frameBytes (f : CordFrame) (type : Nat) : List Byte :=
  beBytes 6 f.dst ++ beBytes 6 f.src ++ (match f.tag with | some t => beBytes 2 0x8100 ++ beBytes 2 t | none => [])
    ++ beBytes 2 f.etherType ++ frameHeader f type ++ f.payload ++ leBytes 4 f.crc

/-- Length of a frame with its FCS. -/
def frameLength (f : CordFrame) : Nat := 14 + (if f.tag.isSome then 4 else 0) + 32 + f.payload.length + 8

/-- The big-endian field of `n` bytes at offset `o`. -/
def beField (b : List Byte) (o n : Nat) : Nat := leNat ((b.drop o).take n).reverse

/-- The type and fields of the bytes of a frame, its FCS left out; what stands after the CRC-32C is padding. A `LEN` beyond the
frame leaves all that is there as payload. -/
def parseFrame (b : List Byte) : Nat × CordFrame :=
  let tagged := beField b 12 2 == 0x8100
  let h := b.drop (if tagged then 18 else 14)
  let len := leField h 2 2
  let rest := h.drop 32
  let fits := decide (64 * len + 4 ≤ rest.length)
  (leField h 0 1 % 16,
   { dst := beField b 0 6, src := beField b 6 6, tag := if tagged then some (beField b 14 2) else none
     etherType := beField b (if tagged then 16 else 12) 2, ver := leField h 0 1 / 16
     chan := leField h 1 1 % 16, retx := bitOf (leField h 1 1) 4, rsvd := leField h 1 1 / 32, len := len
     job := leField h 4 4, srcRank := leField h 8 2, dstRank := leField h 10 2, group := leField h 12 2
     session := leField h 14 2, seq := leField h 16 4, arg := leField h 20 4, elem := leField h 24 5, code := leField h 29 1
     coll := leField h 30 2
     payload := if fits then rest.take (64 * len) else rest.take (rest.length - 4)
     crc := if fits then leField rest (64 * len) 4 else leField rest (rest.length - 4) 4 })

/-! ### Acceptance (R310–R313) -/

/-- What a port makes of a frame: it accepts it, drops it and counts it in `CORD_CRC_DROPS` or in `CORD_DROPS`, or ignores it
as one of the flow control frames. -/
inductive Verdict where
  | accept
  | crcDrop
  | drop
  | ignore
  deriving DecidableEq, Repr

/-- `TYPE` and `CODE` hold no reserved value (R312, R350); `format` says that a code of R220 is one. -/
def codeListed (format : Nat → Bool) (type code : Nat) : Bool :=
  match type with
  | 1 => format code
  | 2 | 3 | 5 | 6 | 9 => true
  | 4 => decide (code ≤ 2)
  | 7 => decide (1 ≤ code ∧ code ≤ 4)
  | 8 | 10 => decide (code ≤ 1)
  | 11 => decide (1 ≤ code ∧ code ≤ 13)
  | 12 => decide (1 ≤ code ∧ code ≤ 9)
  | _ => false

/-- R310–R313: the checks that need no table of the module: own address, EtherType, VID of a tag, length, `LEN`, CRC-32C, `VER`
and reserved values. A flow control frame (EtherType 0x8808) is ignored (log 125). -/
def frameVerdict (mac etherType vlan : Nat) (format : Nat → Bool) (type : Nat) (f : CordFrame) : Verdict :=
  if !f.fcsOk then .crcDrop
  else if f.etherType = 0x8808 then .ignore
  else if f.dst ≠ mac ∨ f.etherType ≠ etherType ∨ f.tag.any (fun t => t % 4096 != vlan) ∨ frameLength f > 4158
      ∨ 64 * f.len > f.payload.length then .drop
  else if f.crc ≠ frameSum f type then .crcDrop
  else if f.ver ≠ 1 ∨ f.rsvd ≠ 0 ∨ !codeListed format type f.code then .drop
  else .accept

end Machine

end Sys2Proof
end

