-- ==== Sys2Proof/Machine/CmdTypes.lean ====
section
/-!
DEFINITION. The operand types of commands: what the world outside decides when a command comes.
-/

namespace Sys2Proof.Machine

/-- What the codes of R283 make of an atom read: nothing wrong, a corrected error, or an uncorrectable one. -/
inductive AtomErr where
  | none
  | corrected
  | uncorrectable
  deriving DecidableEq, Repr

/-- A place a flit can fail its CRC: a die link, a cluster router or crossbar, or the hub's own ember lanes (R525). -/
inductive FlitPlace where
  | link (l : Fin 8)
  | router (r : Fin 32)
  | hub
  deriving DecidableEq, Repr

/-- What a core's proof test found wrong: its feeder's checks, its vector unit's checks, and a mask of its generators. -/
structure CoreProof where
  feeder : Bool := false
  vector : Bool := false
  gens : Nat := 0
  deriving DecidableEq, Repr

/-- A reading of a feed: signed voltage in units of 10 mV, current in units of 10 mA, and the mean power over the last
window in units of 0.1 W, none when its monitor cannot be read. -/
structure FeedReading where
  volt : Int := 0
  curr : Nat := 0
  power : Option Nat := none
  deriving DecidableEq, Repr

/-- How the flash write and read-back of a commit end. -/
inductive FlashEnd where
  | ok
  | writeFailed
  | readBackFailed
  deriving DecidableEq, Repr

/-- What stage 0 finds of the images: the identity block verifies, the verdicts of the staged image's signatures, and the first
failed step of the active image (0 none). -/
structure BootFinds where
  identity : Bool
  stagedRsa : Bool
  stagedSlh : Bool
  activeStep : Nat
  deriving DecidableEq, Repr

/-- A synchronous island with its own clock. -/
inductive Island where
  | hbm (h : HearthId)
  | dieLink (l : Fin 8)
  | pcie
  | cord (port : Fin 8)
  | field
  deriving DecidableEq, Repr

/-- What a write may need from outside: the bytes host memory delivers for a host digest list (R351). -/
structure Outside where
  hostList : List Byte := []
  deriving DecidableEq, Repr

/-- Where a Tranan request comes from (R434): the mailbox, or a datagram of the field network: source address, source
port, whether it was sent to ff02::1, and whether it met R436's rules. -/
structure Datagram where
  src : Nat
  port : Nat
  multicast : Bool := false
  ok : Bool := true
  /-- the queue of eight requests was full when it came (R437; log 30) -/
  full : Bool := false
  payload : List Byte
  deriving DecidableEq, Repr

/-- Where a request comes from: the mailbox, or a datagram. -/
inductive Tranan where
  | mailbox
  | field (d : Datagram)
  deriving DecidableEq, Repr

/-- A unit that hard-cap messages reach (R176). -/
inductive CapUnit where
  | engine (e : EngineId)
  | hearth (h : HearthId)
  deriving DecidableEq, Repr

/-- Where a write of the dictionary comes from: the PCIe mirror or the field network. -/
inductive DictPath where
  | mirror
  | field
  deriving DecidableEq, Repr

/-- An entry of the MSI-X table as the host has written it (R245): the vector, and the address and data of its message. -/
structure VecEntry where
  vec : Fin 2048
  addr : Word := 0
  data : BitVec 32 := 0
  deriving DecidableEq, Repr

/-- An RA frame, and the request of it whose residue check fails: its number, the lane, and whether it fails again when
repeated (R292). -/
structure RaFrame where
  frame : CordFrame
  hit : Option (Nat × Nat × Bool) := none
  deriving DecidableEq, Repr

/-- What comes in at a Cord port: its bytes up to the FCS, and whether the FCS is right (R310). -/
structure RxBytes where
  port : Fin 8
  bytes : List Byte
  fcs : Bool
  deriving DecidableEq, Repr

end Sys2Proof.Machine
end

