-- ==== Sys2Proof/Syntax.lean ====
section
/-!
DEFINITION. The commands: one constructor per row of the table of operations and events. Operands carry what the world
outside decides. Positions `pos` count the messages in flight of one kind, from the oldest.
-/

namespace Sys2Proof

open Machine

/-- A command sent to the module, or an event at its boundary or inside it. -/
inductive Instr where
  -- ArrayCmds
  | arrayStep (e : EngineId) (hit : Option (Mech × Nat × Nat))
  | stationaryLoadDone (e : EngineId) (hit : Option Mech)
  | checksumRowPass (e : EngineId) (hit : Option Mech)
  | tileRoundDone (e : EngineId) (hit : Option Mech)
  | drainDone (e : EngineId)
  | respinRequest (e : EngineId)
  | replayStagingDone (e : EngineId)
  | respinReport (pos : Nat)
  | stormNotice (u : Fin 276)
  | stormRelease (v : Byte)
  | preemptionRequest (e : EngineId)
  | hardCapHold (u : CapUnit)
  | hardCapRelease (u : CapUnit)
  | proofTest (e : EngineId) (fails : Bool) (core : CoreProof)
  | hearthProofTest (h : HearthId) (lane : Option (Fin 128)) (hash : Bool)
  -- StrandCmds
  | seti (q : SeqId) (dst : Fin 32) (imm : BitVec 32)
  | seth (q : SeqId) (dst : Fin 32) (imm : BitVec 32)
  | alu (q : SeqId) (fn : Fin 14) (dst : Fin 32) (a : Fin 32) (b : Fin 32)
  | alui (q : SeqId) (fn : Fin 14) (dst : Fin 32) (a : Fin 32) (imm : BitVec 32)
  | ld (q : SeqId) (dst : Fin 32) (a : Fin 32) (imm : BitVec 32)
  | st (q : SeqId) (a : Fin 32) (b : Fin 32) (imm : BitVec 32)
  | br (q : SeqId) (cond : Fin 7) (a : Fin 32) (b : Fin 32) (imm : BitVec 32)
  | loop (q : SeqId) (dst : Fin 32) (imm : BitVec 32)
  | jal (q : SeqId) (dst : Fin 32) (imm : BitVec 32)
  | jr (q : SeqId) (a : Fin 32)
  | issue (q : SeqId) (dst : Fin 32) (a : Fin 32) (imm : BitVec 32)
  | sealwTag (q : SeqId) (dst : Fin 32) (a : Fin 32)
  | sealwAll (q : SeqId) (dst : Fin 32) (a : Fin 32)
  | tie (q : SeqId) (fn : Fin 2048) (a : Fin 32) (b : Fin 32) (imm : BitVec 32)
  | kset (q : SeqId) (bcast : Bool) (a : Fin 32) (b : Fin 32) (imm : BitVec 32)
  | wait (q : SeqId) (a : Fin 32) (b : Fin 32) (imm : BitVec 32)
  | krd (q : SeqId) (dst : Fin 32) (a : Fin 32) (imm : BitVec 32)
  | ladr (q : SeqId) (fn : Fin 10) (dst : Fin 32) (a : Fin 32) (imm : BitVec 32)
  | evt (q : SeqId) (a : Fin 32) (code : BitVec 16)
  | yield (q : SeqId)
  | yieldDone (q : SeqId)
  | yieldError (q : SeqId) (a : Fin 32)
  -- WorkCmds
  | knotTie (pos : Nat)
  | knotSet (pos : Nat)
  | tallyTableSwap (d : DieId)
  | ladderControllerPass (lost : List Nat)
  | requestReply (pos : Nat)
  | operationComplete (op : Nat)
  | sequencerSelect (q : SeqId)
  -- QueueCmds
  | doorbell (v : Word)
  | entryFetchReturn (queue : Fin 1048576) (host : Option (List Byte))
  | copyComplete (queue : Fin 1048576) (entry : BitVec 16) (host : Option (List Byte))
  | enable (queue : Fin 1048576)
  | disable (queue : Fin 1048576)
  | flush (queue : Fin 1048576)
  | resume (queue : Fin 1048576) (entry : BitVec 16)
  | endStrand (queue : Fin 1048576) (entry : BitVec 16)
  | badCommand (strand : Bool) (cmd : Fin 16) (entry : BitVec 16) (queue : Fin 1048576)
  | hifWinBaseWrite (v : Word) (whole : Bool)
  | bar0DiscardedWrite (unlisted : Bool)
  | bar2Read (off len : Nat)
  | bar2Write (off : Nat) (data : List Byte)
  | bar2Resize (n : Nat)
  | d3hotEntry
  | d0Return
  | pcieCompletionTimeout (queue : Fin 1048576) (copy : Option (BitVec 16))
  | pcieLinkTraining (rate width : Nat)
  | msiXEnable (enable funcMask : Bool)
  | vectorUnmask (v : VecEntry)
  -- MemoryCmds
  | memoryRequest (pos : Nat) (errs : List AtomErr)
  | firstTouchCopyDone (page : Nat)
  | fetchAdd (die : Option DieId) (wide : Bool) (addr v : Nat)
  | compareSwap (die : Option DieId) (addr expected new : Nat)
  | remoteAccRequest (pos : Nat) (hit : Option (Fin 128))
  | hearthGroup (op : Nat) (h : HearthId) (hit : Option (Fin 128))
  | vectorPart (op : Nat) (core : CoreId) (hit : Option Mech)
  | pageDigestDone (u : Fin 21) (host : List Byte)
  | channelFence (h : HearthId) (c : Fin 32)
  | scrubVisit (h : HearthId) (err : AtomErr)
  | stackThermalLevel (h : HearthId) (reading : Option Int)
  | islandClockLoss (isl : Island)
  -- PowerCmds
  | feedCondition (f : Fin 2) (r : FeedReading)
  | feedVoltageCrossover (a b : FeedReading)
  | powerFail
  | coldStart
  | budgetWindowEnd (a b : FeedReading) (clusters : List (Option Nat)) (quiet : BitVec 20)
  | dampIdleExpiry (c : ClusterId)
  | clusterWake (c : ClusterId)
  | powerSmoulder
  | powerBanked
  | powerRun
  | clusterThermalLevel (c : ClusterId) (reading : Option Int)
  | trip (c : ClusterId)
  | lowVoltagePermitWrite (v : Byte)
  | stepMonitorWindow (counts : List Nat)
  | coolantInletReading (inlet outlet : Option Int)
  -- EventCmds
  | eventRecordAccept (pos : Nat) (ringFails : Bool)
  | holdoffExpiry (r : Fin 64)
  | ringCiWrite (r : Fin 64) (v : BitVec 32)
  | tctlWrite (t : Fin 2054) (v : BitVec 31)
  | eoi (t : Fin 2054) (v : BitVec 31)
  | evtHoldWrite (v : Byte)
  | groupDefWrite (g : Fin 64) (v : BitVec 32)
  | localOccurrence (pos : Nat)
  | ecForward (ctl : Fin 36)
  | maskWrite (ctl : Fin 36) (v : Word)
  | pendWrite (ctl : Fin 36) (v : Word)
  | ecLockWrite (d : DieId) (v : Byte)
  -- CordCmds
  | ra (peer : Nat) (port : Fin 8) (f : RaFrame)
  | gather (peer : Nat) (port : Fin 8) (f : CordFrame)
  | ack (peer : Nat) (port : Fin 8) (f : CordFrame)
  | nak (peer : Nat) (port : Fin 8) (f : CordFrame)
  | ashNak (peer : Nat) (port : Fin 8) (f : CordFrame)
  | heartbeat (peer : Nat) (port : Fin 8) (f : CordFrame)
  | goingDown (peer : Nat) (port : Fin 8) (f : CordFrame)
  | heatHold (peer : Nat) (port : Fin 8) (f : CordFrame)
  | marker (peer : Nat) (port : Fin 8) (f : CordFrame)
  | abort (peer : Nat) (port : Fin 8) (f : CordFrame)
  | cordFrameDrop (f : RxBytes)
  | heartbeatSend (peer : Nat) (port : Fin 8)
  | pathSilenceTimeout (peer : Nat) (port : Fin 8)
  | cordRtoExpiry (peer : Nat) (port : Fin 8) (ch : Fin 16)
  | cordRnrWaitExpiry (peer : Nat) (port : Fin 8) (ch : Fin 16)
  | ackTimer (peer : Nat) (port : Fin 8) (ch : Fin 16)
  | collTimeout (post : Nat)
  | heatHoldRepeat
  | heatHoldLimit (post : Nat)
  | abortAgeing (post : Nat)
  | portStateChange (port : Fin 8) (up : Bool)
  | cordPeerCountWrite (v : BitVec 16)
  -- CheckpointCmds
  | page (peer : Nat) (port : Fin 8) (f : CordFrame)
  | pairReq (peer : Nat) (port : Fin 8) (f : CordFrame)
  | pairAck (peer : Nat) (port : Fin 8) (f : CordFrame)
  | pairRefuse (peer : Nat) (port : Fin 8) (f : CordFrame)
  | freezeBegin (peer : Nat) (port : Fin 8) (f : CordFrame)
  | beginAck (peer : Nat) (port : Fin 8) (f : CordFrame)
  | digests (peer : Nat) (port : Fin 8) (f : CordFrame)
  | freezeEnd (peer : Nat) (port : Fin 8) (f : CordFrame)
  | endAck (peer : Nat) (port : Fin 8) (f : CordFrame)
  | refuse (peer : Nat) (port : Fin 8) (f : CordFrame)
  | abandon (peer : Nat) (port : Fin 8) (f : CordFrame)
  | restoreReq (peer : Nat) (port : Fin 8) (f : CordFrame)
  | digestReq (peer : Nat) (port : Fin 8) (f : CordFrame)
  | unavailable (peer : Nat) (port : Fin 8) (f : CordFrame)
  | freezeNow (v : Byte)
  | partnerHolderWrite (v : BitVec 16)
  | partnerOfWrite (v : BitVec 16)
  | restoreStart (hostList : List Byte)
  | restoreAbort
  -- IntegrityCmds
  | faultMessage (pos : Nat)
  | emberCreditReturn (src : Nat)
  | hubInternalFault (sub : Fin 4096) (lost : Bool)
  | faultInject (v : BitVec 32)
  | alertAck (v : Byte)
  | engineUnretire (v : BitVec 16)
  | dieLinkCrcError (p : FlitPlace) (twice : Bool)
  -- DictionaryCmds
  | read (t : Tranan)
  | write (t : Tranan) (x : Outside)
  | discover (d : Datagram)
  | discoverDelayExpiry
  | duplicateAddressDetection (conflict : Bool)
  | neighborSolicitation (src : Nat)
  | echoRequest (src : Nat) (data : List Byte)
  | fieldLinkStateChange (up : Bool)
  | mbxDoorbell (v : Word) (buf : List Byte)
  | directMapWrite (off : Nat) (v : Word) (whole : Bool)
  | entryWrite (field : Bool) (key : BitVec 24) (type : Byte) (data : List Byte)
  | dictCommit (v : Byte)
  | commitComplete (e : FlashEnd)
  | dictLoadDefaults
  | dictLoadDefaultsCommit
  -- ResetCmds
  | mrstNAssert
  | mrstNRelease
  | perstAssert
  | perstDeassert
  | flr
  | resetModule
  | resetDie
  | resetCluster (agent : Option ClusterId)
  | resetCore
  | quench (pos : Nat)
  | quenchNotice (pos : Nat) (h : HearthId)
  | quenchAck (pos : Nat) (faulty : BitVec 20)
  | quenchRelease (pos : Nat)
  | dieResetDone (d : DieId)
  | boot (b : BootFinds) (puf : Bool)
  | startDies (failed : BitVec 4)
  | startMemory (fails : List (BitVec 32))
  | startCompute (bad : List EngineId) (cores : List (CoreId × CoreProof))
  -- SecurityCmds
  | fwBegin
  | fwStageData (data : List Byte)
  | fwVerify
  | fwVerifyDone (rsa slh : Bool)
  | fwArm
  | fwCancel
  | watchdogFallback (puf : Bool)
  | enrolGenerate
  | enrolGenerateDone
  | enrolInstall (path : DictPath)
  | enrolCancel
  | attGenerate
  | reportReady
  | getVersion
  | getCapabilities
  | negotiateAlgorithms
  | getDigests
  | getCertificate (off len : Nat)
  | challenge
  | getMeasurements (signed : Bool)
  | getPqSignature
  | getPqChain (off len : Nat)
  | doeAbort
  | openRequest (tap : Option (BitVec 32))
  | eraseDone
  | entropyFail
  | drbgReseed (ok : Bool)
  -- SnapshotCmds
  | markerArrival (ut : Fin 8) (u : Fin 1024) (last : Bool)
  | markerAck (ut : Fin 8) (u : Fin 1024)
  | snapTrigger (v : Byte)
  | snapIn
  | snapOutPulseEnd
  | snapResume (v : Byte)
  deriving DecidableEq, Repr

end Sys2Proof
end

