-- ==== Sys2Proof/Decode.lean ====
section
/-!
DEFINITION. The command that a word spells by the bits of the table of operations. The table gives no row any bits: its
commands are writes, frames and events, and no row is spelled by a word.
-/

namespace Sys2Proof

/-- The command that the low `nbits` bits of `w` spell: none, since no row of the table gives bits. -/
def decodeTableWord (_nbits _w : Nat) : Option Instr := none

/-- A field of a register's value: `n` bits from bit `lo`. -/
def wordField (w lo n : Nat) : Nat := w / 2 ^ lo % 2 ^ n

/-- R259, R261: the command that a 64-bit write of `HIF_QUEUE_CMD` is. A reserved bit or `CMD` makes it BAD_COMMAND. -/
def queueCommandWord (w : Nat) : Instr :=
  let q := Fin.ofNat 1048576 w
  if wordField w 20 4 = 0 ∧ wordField w 28 36 = 0 then
    match wordField w 24 4 with
    | 1 => .enable q
    | 2 => .disable q
    | 3 => .flush q
    | c => .badCommand false (Fin.ofNat 16 c) 0 q
  else .badCommand false (Fin.ofNat 16 (wordField w 24 4)) 0 q

/-- R259, R262: the command that a 64-bit write of `HIF_STRAND_CMD` is. -/
def strandCommandWord (w : Nat) : Instr :=
  let q := Fin.ofNat 1048576 w
  let e := BitVec.ofNat 16 (w / 2 ^ 20)
  if wordField w 40 24 = 0 then
    match wordField w 36 4 with
    | 1 => .resume q e
    | 2 => .endStrand q e
    | c => .badCommand true (Fin.ofNat 16 c) e q
  else .badCommand true (Fin.ofNat 16 (wordField w 36 4)) e q

end Sys2Proof
end

