-- ==== Sys2Proof/Config.lean ====
section
/-!
DEFINITION. What a unit fixes and what the spec leaves open. Each constant is opaque: nothing can
evaluate it, so a claim holds whatever its value is.
-/

namespace Sys2Proof.Config

/-- A free value: where the spec leaves a value open the model uses the next of these, counted by
`State.free` (log 3). -/
opaque freeNat : Nat → Nat

/-- `CODE` and `DATA` of a notice, given its source and what its chapter says it carries, where neither that chapter nor R527
lays it out (log 47). -/
opaque noticeCode : Nat → List Nat → Nat
/-- `DATA` of such a notice. -/
opaque noticeData : Nat → List Nat → Nat

/-- The 16 bits of a master after an UPDATE whose new second moment is negative (R299 gives its root no value), from
everything that decides an operation's results (R138; log 3). -/
opaque negativeMoment : List Nat → Nat

/-- The per-unit serial number, module identity and base MAC address (R453). -/
opaque serialNumber : BitVec 64
/-- Module identity (R453). -/
opaque moduleId : BitVec 32
/-- Base of the sixteen MAC addresses (R453). -/
opaque baseMac : BitVec 48

/-- The version string and security version of the hub image in slot A or B (R453, R474). -/
opaque imageVersion : Nat → List Byte
/-- Strap values of the module's connector (R513), 0 NODE_ID, 1 FEED_A_ID, 2 FEED_B_ID. -/
opaque strap : Nat → Nat

/-- Security version and body digest of the hub image a unit is delivered with, the digest of its identity block
(R453, R487), and the digests that the boot ROM holds or has: of itself, and of the image keys (R473). -/
opaque imageSvn : BitVec 32
/-- `BODY_DIGEST` of the delivered hub image. -/
opaque imageDigest : BitVec 384
/-- `BODY_DIGEST` of the identity block. -/
opaque identityDigest : BitVec 384
/-- SHA-384 of the boot ROM. -/
opaque romDigest : BitVec 384
/-- Digests of the image keys in the boot ROM: RSA, then SLH-DSA. -/
opaque imageKeyDigest : Bool → BitVec 384
/-- Digests of the enrolment roots in the boot ROM: RSA, then SLH-DSA (R473). -/
opaque enrolRootDigest : Bool → BitVec 384

/-- The certificates of a chain in their order, leaf first. R483 says what a valid chain holds; the spec gives certificates no
layout, so what one says is read through this and the four functions below (log 133). -/
opaque certificates : List Byte → List (List Byte)
/-- Whether the key of the second certificate signed the first, under RSA or SLH-DSA. -/
opaque certSigned : Bool → List Byte → List Byte → Bool
/-- A certificate's public key. -/
opaque certKey : List Byte → List Byte
/-- `MODULE_ID` in a certificate's Iseonto extension. -/
opaque certModuleId : List Byte → BitVec 32
/-- `OPEN_COUNT` in a certificate's Iseonto extension. -/
opaque certOpenCount : List Byte → BitVec 16
/-- The public key of the private key that a key slot holds, RSA (KS3) or SLH-DSA (KS2). -/
opaque publicKey : Bool → Nat → List Byte

end Sys2Proof.Config
end

