-- ==== Sys2Proof/Machine/MemTypes.lean ====
section
/-!
DEFINITION. The data of the memory system: cells, cache lines, poison, live and fenced channels, the
division in force, and requests in flight (chapter "Memory system").
-/

namespace Sys2Proof.Machine

/-- A cached line: its 64 bytes and whether it is dirty (R279). -/
structure CLine where
  data : List Byte
  dirty : Bool
  deriving DecidableEq, Repr

/-- Who sent a class 1–3 request, for its reply and its home (R269, R526). -/
inductive Requester where
  | seq (s : SeqId)      -- LD, ST or instruction fetch of a sequencer
  | host                 -- the hub on the host's behalf
  | bar2                 -- a host access through BAR2 (R248)
  | agent (d : DieId)    -- a die agent (R269, R281)
  /-- the hub's write of an entry's completion (R256): queue, index, end code, and whether its event is asked for -/
  | completion (queue idx code : Nat) (evt : Bool)
  deriving DecidableEq, Repr

/-- An atomic operation (R281): fetch-add of a value, or compare-swap from one value to another. -/
inductive Amo where
  | add (v : Nat)
  | swap (expected new : Nat)
  deriving DecidableEq, Repr

/-- A class 1–3 request in flight to its hearth: requester and its epoch (R458), bulk class, address,
length, the bytes of a write or the atomic, the number a sequencer gives it (R207), `CACHE_EXPLICIT` as it stood when
the request was issued (R290), and whether it has reached its hearth and waits there (R282). -/
structure MemReq where
  who : Requester
  epoch : Nat := 0
  bulk : Bool := false
  addr : Nat
  len : Nat
  wdata : Option (List Byte) := none
  amo : Option Amo := none
  no : Nat := 0
  expl : Bool := false
  arrived : Bool := false
  /-- sent by a block that has latched in the running wave (R32) -/
  post : Bool := false
  deriving DecidableEq, Repr

/-- How an access ended. -/
inductive MemErr where
  | unmapped | poisoned | fenced | ash
  /-- the access waits: its stack is held for heat, or its page's copy or send is pending -/
  | waits
  deriving DecidableEq, Repr

/-- A reply's result as plain data: the error, or the bytes, and for an atomic its `CODE` (R228). -/
structure MemAnswer where
  err : Option MemErr := none
  code : Nat := 0
  bytes : List Byte := []
  deriving DecidableEq, Repr

/-- A reply in flight to a sequencer or unit (R458), with the number, address, length and direction of its request. -/
structure ReplyMsg where
  who : Requester
  epoch : Nat := 0
  ans : MemAnswer
  no : Nat := 0
  addr : Nat := 0
  len : Nat := 0
  write : Bool := false
  /-- sent by a hearth that has latched in the running wave (R32) -/
  post : Bool := false
  deriving DecidableEq, Repr

/-- The memory system. -/
structure MemSys where
  /-- bytes of HBM and hearth memory by physical address; an unlisted byte reads 0 -/
  cells : List Host.Cell := []
  /-- cached lines by physical atom number (R279) -/
  cache : Tab (Option CLine) := []
  /-- poisoned atoms, rising (R284) -/
  poison : List Nat := []
  /-- hearths whose whole memory has been poisoned by a reset of their die, a mask, and their atoms rewritten since,
  rising (R297) -/
  hpoison : Nat := 0
  cured : List Nat := []
  /-- atoms poisoned since module reset, rising (R287) -/
  poisonSeen : List Nat := []
  /-- channels live since start-up, a mask per stack (R286) -/
  live : Tab Nat := []
  /-- channels fenced at run time, a mask per stack (R287) -/
  fenced : Tab Nat := []
  /-- zone sizes in force, 64 MiB units (R272) -/
  zNear : Nat := 4
  zExpl : Nat := 1
  zDie : Nat := 5
  /-- ways in force: user scratchpad U and replay A (R277) -/
  uWays : Nat := 4
  aWays : Nat := 5
  /-- partner slot pages and first-touch pool MiB in force (R276, R345) -/
  slotPages : Nat := 8192
  ftPoolMib : Nat := 4096
  /-- a restored schedule page stands at the base of D0's first-touch pool, where software may read it (R355) -/
  schedOpen : Bool := false
  /-- stacks in self-refresh, a mask (R288, R289) -/
  selfRefresh : Nat := 0
  /-- stacks in idle self-refresh, a mask (R393) -/
  idleRefresh : Nat := 0
  /-- requests in flight -/
  reqs : List MemReq := []
  /-- requests in the hearths' hold queues, with their hearth (R288) -/
  holdq : List (Nat × MemReq) := []
  /-- replies in flight -/
  replies : List ReplyMsg := []
  /-- corrected errors per channel in this scrub pass, key 32 s + c (R285) -/
  cePass : Tab Nat := []
  /-- corrected errors per channel (key 32 s + c) or hearth memory (key 640 + h) (R284) -/
  ceTotal : Tab Nat := []
  /-- next atom to scrub per hearth (R285) -/
  scrubPos : Tab Nat := []
  deriving DecidableEq, Repr

end Sys2Proof.Machine
end

