-- ==== Sys2Proof/Machine/Formats.lean ====
section
/-!
DEFINITION. Number formats: element codes, the decoding and midpoint tables, conversions and their
range limits (chapter "Number formats", R60–R76, R89–R95, and R123–R126 of the arithmetic chapter).
-/

namespace Sys2Proof.Machine

/-- The element formats of R60, with the skein element types of R79 told apart. -/
inductive Fmt where
  | ol16 | ol8 | e4m3 | e5m2 | bf16 | fp16 | int8
  | sk4i | sk4f | sk4u | sk2s | sk2t | fp32
  deriving DecidableEq, Repr

/-- The format codes of R179, with 0x0C FP32 and 0x0D SK4 UINT4 (R220). -/
def Fmt.ofCode : Nat → Option Fmt
  | 0x01 => some .sk2s | 0x02 => some .sk2t | 0x03 => some .sk4i | 0x04 => some .sk4f
  | 0x05 => some .e4m3 | 0x06 => some .e5m2 | 0x07 => some .bf16 | 0x08 => some .fp16
  | 0x09 => some .int8 | 0x0A => some .ol8 | 0x0B => some .ol16 | 0x0C => some .fp32
  | 0x0D => some .sk4u | _ => none

/-- The code of a format (R179, R220). -/
def Fmt.code : Fmt → Nat
  | .sk2s => 0x01 | .sk2t => 0x02 | .sk4i => 0x03 | .sk4f => 0x04
  | .e4m3 => 0x05 | .e5m2 => 0x06 | .bf16 => 0x07 | .fp16 => 0x08
  | .int8 => 0x09 | .ol8 => 0x0A | .ol16 => 0x0B | .fp32 => 0x0C | .sk4u => 0x0D

/-- A logarithmic format (R60). -/
def Fmt.isLog : Fmt → Bool
  | .ol16 | .ol8 => true
  | .e4m3 | .e5m2 | .bf16 | .fp16 | .int8 | .sk4i | .sk4f | .sk4u | .sk2s | .sk2t | .fp32 => false

/-- A 96-element skein block format (R83). -/
def Fmt.isSk4 : Fmt → Bool
  | .sk4i | .sk4f | .sk4u => true
  | .ol16 | .ol8 | .e4m3 | .e5m2 | .bf16 | .fp16 | .int8 | .sk2s | .sk2t | .fp32 => false

/-- A 192-element skein block format (R83). -/
def Fmt.isSk2 : Fmt → Bool
  | .sk2s | .sk2t => true
  | .ol16 | .ol8 | .e4m3 | .e5m2 | .bf16 | .fp16 | .int8 | .sk4i | .sk4f | .sk4u | .fp32 => false

/-- A skein format. -/
def Fmt.isSkein (f : Fmt) : Bool := f.isSk4 || f.isSk2

/-- A storage format (R87). -/
def Fmt.isStorage : Fmt → Bool
  | .ol16 | .ol8 | .e4m3 | .e5m2 | .bf16 | .fp16 | .int8 => true
  | .sk4i | .sk4f | .sk4u | .sk2s | .sk2t | .fp32 => false

/-- Bytes of one element; a skein element has no byte size of its own and answers 0. -/
def Fmt.bytes : Fmt → Nat
  | .ol8 | .e4m3 | .e5m2 | .int8 => 1
  | .ol16 | .bf16 | .fp16 => 2
  | .fp32 => 4
  | .sk4i | .sk4f | .sk4u | .sk2s | .sk2t => 0

/-- Elements of one skein block along K (R83); 0 for a format without blocks. -/
def Fmt.blockLen (f : Fmt) : Nat := if f.isSk4 then 96 else if f.isSk2 then 192 else 0

/-- The ply of a stationary format on the linear path (R99); 1 on the log path. -/
def Fmt.ply : Fmt → Nat
  | .bf16 | .int8 => 2
  | .fp16 => 3
  | .ol16 | .ol8 | .e4m3 | .e5m2 | .sk4i | .sk4f | .sk4u | .sk2s | .sk2t | .fp32 => 1

/-- R99: the pairs of streamed and stationary formats a cell accepts. -/
def Fmt.pairs (streamed stationary : Fmt) : Bool :=
  streamed != .fp32 && stationary != .fp32 && streamed.isLog == stationary.isLog

/-- The value of one element: a log path value keeps its OL16 log in units of 1/256, a linear path
value its significand and exponent of R104 (significand not zero). -/
inductive Num where
  | zero
  | nan
  | inf (neg : Bool)
  | log (neg : Bool) (l : Int)
  | lin (neg : Bool) (m : Nat) (e : Int)
  deriving DecidableEq, Repr

/-- What one conversion charges to the tally (R93). -/
inductive Charge where
  | none | sat | flush | inv
  deriving DecidableEq, Repr

/-- An element code with what its conversion charged. -/
structure Coded where
  code : Nat
  charge : Charge := .none
  deriving DecidableEq, Repr

/-! ### The tables of R70 and R72 -/

/-- Entries 0 to 31. -/
def decTab0 : List Nat :=
  [16384, 16428, 16473, 16518, 16562, 16607, 16652, 16697,
   16743, 16788, 16834, 16879, 16925, 16971, 17017, 17063,
   17109, 17156, 17202, 17249, 17296, 17343, 17390, 17437,
   17484, 17531, 17579, 17627, 17674, 17722, 17770, 17819]

/-- Entries 32 to 63. -/
def decTab1 : List Nat :=
  [17867, 17915, 17964, 18013, 18061, 18110, 18160, 18209,
   18258, 18308, 18357, 18407, 18457, 18507, 18557, 18607,
   18658, 18708, 18759, 18810, 18861, 18912, 18963, 19015,
   19066, 19118, 19170, 19222, 19274, 19326, 19379, 19431]

/-- Entries 64 to 95. -/
def decTab2 : List Nat :=
  [19484, 19537, 19590, 19643, 19696, 19750, 19803, 19857,
   19911, 19965, 20019, 20073, 20127, 20182, 20237, 20292,
   20347, 20402, 20457, 20513, 20568, 20624, 20680, 20736,
   20792, 20849, 20905, 20962, 21019, 21076, 21133, 21190]

/-- Entries 96 to 127. -/
def decTab3 : List Nat :=
  [21247, 21305, 21363, 21421, 21479, 21537, 21595, 21654,
   21713, 21772, 21831, 21890, 21949, 22009, 22068, 22128,
   22188, 22248, 22309, 22369, 22430, 22491, 22552, 22613,
   22674, 22735, 22797, 22859, 22921, 22983, 23045, 23108]

/-- Entries 128 to 159. -/
def decTab4 : List Nat :=
  [23170, 23233, 23296, 23359, 23423, 23486, 23550, 23614,
   23678, 23742, 23806, 23871, 23936, 24001, 24066, 24131,
   24196, 24262, 24328, 24394, 24460, 24526, 24593, 24659,
   24726, 24793, 24860, 24928, 24995, 25063, 25131, 25199]

/-- Entries 160 to 191. -/
def decTab5 : List Nat :=
  [25268, 25336, 25405, 25474, 25543, 25612, 25681, 25751,
   25821, 25891, 25961, 26031, 26102, 26173, 26244, 26315,
   26386, 26458, 26530, 26601, 26674, 26746, 26818, 26891,
   26964, 27037, 27110, 27184, 27258, 27332, 27406, 27480]

/-- Entries 192 to 223. -/
def decTab6 : List Nat :=
  [27554, 27629, 27704, 27779, 27855, 27930, 28006, 28082,
   28158, 28234, 28311, 28388, 28464, 28542, 28619, 28697,
   28774, 28852, 28931, 29009, 29088, 29167, 29246, 29325,
   29405, 29484, 29564, 29644, 29725, 29805, 29886, 29967]

/-- Entries 224 to 255. -/
def decTab7 : List Nat :=
  [30048, 30130, 30212, 30293, 30376, 30458, 30541, 30623,
   30706, 30790, 30873, 30957, 31041, 31125, 31209, 31294,
   31379, 31464, 31549, 31635, 31720, 31806, 31893, 31979,
   32066, 32153, 32240, 32327, 32415, 32503, 32591, 32679]

/-- R70: the decoding table a[f] = round_half_up(2^(f/256) × 2^14), f = 0 … 255. -/
def decTable : List Nat :=
  decTab0 ++ decTab1 ++ decTab2 ++ decTab3 ++ decTab4 ++ decTab5 ++ decTab6 ++ decTab7

/-- Entries 0 to 31. -/
def midTab0 : List Nat :=
  [16799944, 16845494, 16891166, 16936963, 16982884, 17028929, 17075099, 17121394,
   17167815, 17214362, 17261035, 17307834, 17354761, 17401814, 17448995, 17496304,
   17543742, 17591307, 17639002, 17686826, 17734780, 17782864, 17831078, 17879423,
   17927899, 17976507, 18025246, 18074118, 18123121, 18172258, 18221528, 18270932]

/-- Entries 32 to 63. -/
def midTab1 : List Nat :=
  [18320469, 18370141, 18419948, 18469889, 18519966, 18570179, 18620528, 18671013,
   18721635, 18772395, 18823292, 18874327, 18925501, 18976813, 19028264, 19079855,
   19131586, 19183457, 19235468, 19287621, 19339915, 19392351, 19444929, 19497649,
   19550513, 19603520, 19656670, 19709965, 19763404, 19816988, 19870717, 19924592]

/-- Entries 64 to 95. -/
def midTab2 : List Nat :=
  [19978613, 20032781, 20087095, 20141557, 20196166, 20250924, 20305829, 20360884,
   20416088, 20471442, 20526945, 20582600, 20638405, 20694361, 20750469, 20806729,
   20863142, 20919708, 20976427, 21033300, 21090327, 21147509, 21204845, 21262338,
   21319986, 21377790, 21435751, 21493869, 21552145, 21610579, 21669171, 21727922]

/-- Entries 96 to 127. -/
def midTab3 : List Nat :=
  [21786832, 21845903, 21905133, 21964524, 22024076, 22083789, 22143664, 22203702,
   22263902, 22324266, 22384793, 22445484, 22506340, 22567361, 22628547, 22689899,
   22751418, 22813103, 22874956, 22936976, 22999165, 23061522, 23124048, 23186743,
   23249609, 23312645, 23375852, 23439231, 23502781, 23566503, 23630399, 23694467]

/-- Entries 128 to 159. -/
def midTab4 : List Nat :=
  [23758709, 23823126, 23887717, 23952483, 24017425, 24082542, 24147837, 24213308,
   24278957, 24344784, 24410790, 24476974, 24543338, 24609881, 24676606, 24743511,
   24810597, 24877866, 24945316, 25012950, 25080767, 25148768, 25216953, 25285323,
   25353879, 25422620, 25491548, 25560662, 25629964, 25699454, 25769132, 25839000]

/-- Entries 160 to 191. -/
def midTab5 : List Nat :=
  [25909056, 25979303, 26049740, 26120368, 26191187, 26262199, 26333403, 26404800,
   26476391, 26548175, 26620155, 26692329, 26764700, 26837266, 26910029, 26982990,
   27056148, 27129505, 27203060, 27276815, 27350770, 27424926, 27499282, 27573840,
   27648601, 27723564, 27798730, 27874100, 27949674, 28025453, 28101438, 28177629]

/-- Entries 192 to 223. -/
def midTab6 : List Nat :=
  [28254026, 28330631, 28407443, 28484463, 28561692, 28639131, 28716779, 28794639,
   28872709, 28950991, 29029485, 29108192, 29187112, 29266246, 29345595, 29425159,
   29504939, 29584935, 29665148, 29745578, 29826226, 29907094, 29988180, 30069486,
   30151013, 30232760, 30314730, 30396921, 30479336, 30561974, 30644836, 30727922]

/-- Entries 224 to 255. -/
def midTab7 : List Nat :=
  [30811234, 30894772, 30978536, 31062527, 31146746, 31231194, 31315870, 31400776,
   31485912, 31571279, 31656877, 31742708, 31828771, 31915068, 32001598, 32088363,
   32175364, 32262600, 32350073, 32437783, 32525731, 32613917, 32702342, 32791007,
   32879913, 32969059, 33058447, 33148078, 33237951, 33328069, 33418430, 33509037]

/-- R72: the midpoint table t[j] = round_half_up(2^((j + 0.5)/256) × 2^24), j = 0 … 255. -/
def midTable : List Nat :=
  midTab0 ++ midTab1 ++ midTab2 ++ midTab3 ++ midTab4 ++ midTab5 ++ midTab6 ++ midTab7

/-- a[f] of R70. -/
def decEntry (f : Nat) : Nat := decTable.getD f 0

/-- The count of entries of a table that are at most `mm` (R72). -/
def countLE (tab : List Nat) (mm : Nat) : Nat := (tab.filter (· ≤ mm)).length

/-- Two's complement reading of the low `w` bits of `n`. -/
def signedOf (w n : Nat) : Int :=
  if n % 2 ^ w < 2 ^ (w - 1) then (n % 2 ^ w : Nat) else (n % 2 ^ w : Nat) - (2 ^ w : Nat)

/-- The low `w` bits of the two's complement of `i`. -/
def unsignedOf (w : Nat) (i : Int) : Nat := (i % (2 ^ w : Nat)).toNat

/-- Number of bits of `n` (0 for 0). -/
def bitlen (n : Nat) : Nat := if n = 0 then 0 else n.log2 + 1

/-- floor(l / 256), the integer part of an OL16 log (R71). -/
def logInt (l : Int) : Int := l / 256

/-- l − 256 × floor(l / 256), the low 8 bits of an OL16 log (R71). -/
def logFrac (l : Int) : Nat := (l % 256).toNat

/-- R71: the decoded value of a log as an exact significand and exponent. -/
def decodedM (l : Int) : Nat := decEntry (logFrac l)
/-- R71: the exponent of the decoded value. -/
def decodedE (l : Int) : Int := logInt l - 14

/-! ### Reading an element -/

/-- R64, R65: an OL16 code. -/
def readOl16 (c : Nat) : Num :=
  let neg := c / 2 ^ 15 % 2 == 1
  let l := c % 2 ^ 15
  if l = 0x4000 then (if neg then .nan else .zero)
  else if l = 0x3FFF then .inf neg
  else .log neg (signedOf 15 l)

/-- R66, R67: an OL8 code under bias bb; with bb = 0 it is the log that enters the cell (R102). -/
def readOl8 (bb : Int) (c : Nat) : Num :=
  let neg := c / 2 ^ 7 % 2 == 1
  let l := c % 2 ^ 7
  if l = 0x40 then (if neg then .nan else .zero)
  else if l = 0x3F then .inf neg
  else .log neg (32 * signedOf 7 l + bb)

/-- A small binary floating-point layout: `p` significand bits with the implicit one, `q` the
exponent of the subnormal unit, `ebits` exponent bits. -/
structure FloatFmt where
  p : Nat
  ebits : Nat
  q : Int
  /-- the largest finite magnitude code -/
  maxCode : Nat
  deriving DecidableEq, Repr

/-- R73, R74: the layout of each floating-point format. -/
def floatFmt : Fmt → Option FloatFmt
  | .e4m3 => some ⟨4, 4, -9, 0x7E⟩
  | .e5m2 => some ⟨3, 5, -16, 0x7B⟩
  | .bf16 => some ⟨8, 8, -133, 0x7F7F⟩
  | .fp16 => some ⟨11, 5, -24, 0x7BFF⟩
  | .fp32 => some ⟨24, 8, -149, 0x7F7F_FFFF⟩
  | .ol16 | .ol8 | .int8 | .sk4i | .sk4f | .sk4u | .sk2s | .sk2t => none

/-- A floating-point code (R62, R63, R73, R74, R104): the significand and exponent of R104. -/
def readFloat (fmt : Fmt) (ff : FloatFmt) (c : Nat) : Num :=
  let w := ff.p + ff.ebits
  let neg := c / 2 ^ (w - 1) % 2 == 1
  let mag := c % 2 ^ (w - 1)
  let ef := mag / 2 ^ (ff.p - 1)
  let mf := mag % 2 ^ (ff.p - 1)
  if mag > ff.maxCode then
    (if fmt != .e4m3 && mf = 0 then .inf neg else .nan)
  else if mag = 0 then .zero
  else if ef = 0 then .lin neg mf ff.q
  else .lin neg (2 ^ (ff.p - 1) + mf) (ff.q + (ef : Int) - 1)

/-- An integer as a linear value. -/
def numOfInt (i : Int) (e : Int) : Num := if i = 0 then .zero else .lin (i < 0) i.natAbs e

/-- The value of an element code of a non-skein format: `bb` is the OL8 bias in units of 1/256
(R67), `z` the INT8 zero point (R75). -/
def readElem (fmt : Fmt) (bb z : Int) (c : Nat) : Num :=
  match fmt with
  | .ol16 => readOl16 c
  | .ol8 => readOl8 bb c
  | .int8 => numOfInt (signedOf 8 c - z) 0
  | .e4m3 | .e5m2 | .bf16 | .fp16 | .fp32 =>
    match floatFmt fmt with
    | some ff => readFloat fmt ff c
    | none => .nan
  | .sk4i | .sk4f | .sk4u | .sk2s | .sk2t => .nan

/-- The exact linear form of a finite value (R71 for a log): sign, significand, exponent. -/
def Num.linear : Num → Option (Bool × Nat × Int)
  | .log neg l => some (neg, decodedM l, decodedE l)
  | .lin neg m e => some (neg, m, e)
  | .zero | .nan | .inf _ => none

/-! ### Rounding (R89–R93, R123–R125) -/

/-- A rounding mode for one element: nearest even, or stochastic with the element's 32-bit word. -/
abbrev Mode := Option Nat

/-- m × 2^e over the grid 2^q: quotient, remainder and divisor. -/
def gridSplit (m : Nat) (e q : Int) : Nat × Nat × Nat :=
  if q ≤ e then (m * 2 ^ (e - q).toNat, 0, 1)
  else (m / 2 ^ (q - e).toNat, m % 2 ^ (q - e).toNat, 2 ^ (q - e).toNat)

/-- R92, R124: one of the two neighbours n and n + 1 of n + rem/den. -/
def pickNeighbour (mode : Mode) (n rem den : Nat) : Nat :=
  match mode with
  | none => if 2 * rem > den ∨ (2 * rem = den ∧ n % 2 = 1) then n + 1 else n
  | some w =>
    if rem = 0 then n
    else if rem * 2 ^ 24 / den + w / 2 ^ 8 ≥ 2 ^ 24 then n + 1 else n

/-- Round m × 2^e to a multiple of 2^q. -/
def roundGrid (mode : Mode) (m : Nat) (e q : Int) : Nat :=
  let s := gridSplit m e q
  pickNeighbour mode s.1 s.2.1 s.2.2

/-- The exponent of the last significand bit of m × 2^e at precision p. -/
def ulpExp (p m : Nat) (e : Int) : Int := (m.log2 : Int) + e - ((p : Int) - 1)

/-- Round m × 2^e (m not zero) to a float grid with its subnormals; the result is the magnitude
code, possibly above the largest finite one. -/
def floatCode (ff : FloatFmt) (mode : Mode) (m : Nat) (e : Int) : Nat :=
  let q := max (ulpExp ff.p m e) ff.q
  let n := roundGrid mode m e q
  if n = 0 then 0 else (q - ff.q).toNat * 2 ^ (ff.p - 1) + n

/-- R74, R92: BF16 and FP16 round at the format's precision with an unbounded exponent, then flush
below the smallest normal; the result is the magnitude code, 0 for a flush. An E5M2 subnormal converted to FP16 is flushed as
well, and counts as a flush, although R91 lists the conversion as exact (log 137). -/
def floatCodeFlush (ff : FloatFmt) (mode : Mode) (m : Nat) (e : Int) : Nat :=
  let q0 := ulpExp ff.p m e
  let n0 := roundGrid mode m e q0
  let q := if n0 = 2 ^ ff.p then q0 + 1 else q0
  let n := if n0 = 2 ^ ff.p then 2 ^ (ff.p - 1) else n0
  if q < ff.q then 0 else (q - ff.q).toNat * 2 ^ (ff.p - 1) + n

/-- R72, R123: a linear magnitude to an OL16 log, to nearest by the midpoint table. -/
def logNearest (m : Nat) (e : Int) : Int :=
  let k := m.log2
  let mm := if k ≤ 24 then m * 2 ^ (24 - k) else m / 2 ^ (k - 24)
  256 * ((k : Int) + e) + (countLE midTable mm : Int)

/-- R124: a linear magnitude to an OL16 log, stochastically with word `w`. -/
def logStoch (w m : Nat) (e : Int) : Int :=
  let k := m.log2
  let mm := if k ≤ 24 then m * 2 ^ (24 - k) else m / 2 ^ (k - 24)
  let f := countLE (decTable.map (· * 2 ^ 10)) mm - 1
  let lo := decEntry f
  let hi := if f = 255 then 2 ^ 15 else decEntry (f + 1)
  let lLo := 256 * ((k : Int) + e) + (f : Int)
  let num := m * 2 ^ 14 - lo * 2 ^ k
  if num = 0 then lLo
  else if num * 2 ^ 24 / ((hi - lo) * 2 ^ k) + w / 2 ^ 8 ≥ 2 ^ 24 then lLo + 1 else lLo

/-- A linear magnitude to an OL16 log in the mode given, without range limits. -/
def logOfLin (mode : Mode) (m : Nat) (e : Int) : Int :=
  match mode with
  | none => logNearest m e
  | some w => logStoch w m e

/-- R90, R125: an OL16 log to an OL8 log under bias bb, without range limits. -/
def ol8OfLog (mode : Mode) (bb l16 : Int) : Int :=
  let d := l16 - bb
  let q := d / 32
  let r := (d % 32).toNat
  match mode with
  | none => if r > 16 ∨ (r = 16 ∧ q % 2 = 1) then q + 1 else q
  | some w => if r + w / 2 ^ 27 ≥ 32 then q + 1 else q

/-- R93 for OL16: the code of a log after rounding. -/
def ol16Limit (neg : Bool) (l : Int) : Coded :=
  if l > 16382 then ⟨(if neg then 0xBFFE else 0x3FFE), .sat⟩
  else if l ≤ -16384 then ⟨0x4000, .flush⟩
  else ⟨(if neg then 2 ^ 15 else 0) + unsignedOf 15 l, .none⟩

/-- R93 for OL8. -/
def ol8Limit (neg : Bool) (l : Int) : Coded :=
  if l ≥ 63 then ⟨(if neg then 0xBE else 0x3E), .sat⟩
  else if l ≤ -64 then ⟨0x40, .flush⟩
  else ⟨(if neg then 2 ^ 7 else 0) + unsignedOf 7 l, .none⟩

/-- A destination of a conversion: the format, the OL8 bias, the INT8 zero point and the overflow
choices of R95. -/
structure Dest where
  fmt : Fmt
  bb : Int := 0
  z : Int := 0
  e4m3Nan : Bool := false
  e5m2Inf : Bool := false
  deriving DecidableEq, Repr

/-- The canonical NaN of a format (R63); INT8 gives its zero point (R93). -/
def Dest.nanCode (d : Dest) : Nat :=
  match d.fmt with
  | .ol16 => 0xC000
  | .ol8 => 0xC0
  | .e4m3 | .e5m2 => 0x7F
  | .bf16 => 0x7FC0
  | .fp16 => 0x7E00
  | .fp32 => 0x7FC0_0000
  | .int8 => unsignedOf 8 d.z
  | .sk4i | .sk4f | .sk4u | .sk2s | .sk2t => 0

/-- The code of +0 (R62); an INT8 zero is the zero point (R75). -/
def Dest.zeroCode (d : Dest) : Nat :=
  match d.fmt with
  | .ol16 => 0x4000
  | .ol8 => 0x40
  | .int8 => unsignedOf 8 d.z
  | .e4m3 | .e5m2 | .bf16 | .fp16 | .fp32 | .sk4i | .sk4f | .sk4u | .sk2s | .sk2t => 0

/-- The code of ±∞ and its charge (R93). -/
def Dest.infCode (d : Dest) (neg : Bool) : Coded :=
  match d.fmt with
  | .ol16 => ⟨if neg then 0xBFFF else 0x3FFF, .none⟩
  | .ol8 => ⟨if neg then 0xBF else 0x3F, .none⟩
  | .e4m3 => ⟨0x7F, .inv⟩
  | .e5m2 => ⟨if neg then 0xFC else 0x7C, .none⟩
  | .bf16 => ⟨if neg then 0xFF80 else 0x7F80, .none⟩
  | .fp16 => ⟨if neg then 0xFC00 else 0x7C00, .none⟩
  | .fp32 => ⟨if neg then 0xFF80_0000 else 0x7F80_0000, .none⟩
  | .int8 => ⟨if neg then 0x80 else 0x7F, .sat⟩
  | .sk4i | .sk4f | .sk4u | .sk2s | .sk2t => ⟨0, .inv⟩

/-- Put the sign bit on a floating-point magnitude code. -/
def withSign (ff : FloatFmt) (neg : Bool) (mag : Nat) : Nat :=
  (if neg then 2 ^ (ff.p + ff.ebits - 1) else 0) + mag

/-- R73, R93: the code of a floating-point overflow. -/
def Dest.overflowCode (d : Dest) (ff : FloatFmt) (neg : Bool) : Nat :=
  match d.fmt with
  | .e4m3 => if d.e4m3Nan then 0x7F else withSign ff neg ff.maxCode
  | .e5m2 => if d.e5m2Inf then withSign ff neg 0x7C else withSign ff neg ff.maxCode
  | .bf16 => withSign ff neg 0x7F80
  | .fp16 => withSign ff neg 0x7C00
  | .fp32 => withSign ff neg 0x7F80_0000
  | .ol16 | .ol8 | .int8 | .sk4i | .sk4f | .sk4u | .sk2s | .sk2t => 0

/-- A floating-point magnitude code with its range limits (R93). -/
def Dest.floatLimit (d : Dest) (ff : FloatFmt) (neg : Bool) (mag : Nat) : Coded :=
  if mag = 0 then ⟨0, .flush⟩
  else if mag > ff.maxCode then ⟨d.overflowCode ff neg, .sat⟩
  else ⟨withSign ff neg mag, .none⟩

/-- R75, R93: a rounded integer to INT8 with its zero point added before it saturates. -/
def int8Limit (z : Int) (v : Int) : Coded :=
  if v = 0 then ⟨unsignedOf 8 z, .flush⟩
  else if v + z > 127 then ⟨0x7F, .sat⟩
  else if v + z < -128 then ⟨0x80, .sat⟩
  else ⟨unsignedOf 8 (v + z), .none⟩

/-- A signed integer from a sign and a magnitude. -/
def signed (neg : Bool) (n : Nat) : Int := if neg then -(n : Int) else n

/-- R89–R93: a finite linear value to a destination. -/
def Dest.ofLin (d : Dest) (mode : Mode) (neg : Bool) (m : Nat) (e : Int) : Coded :=
  if m = 0 then ⟨d.zeroCode, .none⟩ else
  match d.fmt with
  | .ol16 => ol16Limit neg (logOfLin mode m e)
  | .ol8 => ol8Limit neg (ol8OfLog mode d.bb (logNearest m e))
  | .int8 => int8Limit d.z (signed neg (roundGrid mode m e 0))
  | .e4m3 | .e5m2 | .fp32 =>
    match floatFmt d.fmt with
    | some ff => d.floatLimit ff neg (floatCode ff mode m e)
    | none => ⟨0, .none⟩
  | .bf16 | .fp16 =>
    match floatFmt d.fmt with
    | some ff => d.floatLimit ff neg (floatCodeFlush ff mode m e)
    | none => ⟨0, .none⟩
  | .sk4i | .sk4f | .sk4u | .sk2s | .sk2t => ⟨0, .none⟩

/-- R89–R93: a finite logarithmic value to a destination; from its decoded value unless the
destination is logarithmic too. -/
def Dest.ofLog (d : Dest) (mode : Mode) (neg : Bool) (l : Int) : Coded :=
  match d.fmt with
  | .ol16 => ol16Limit neg l
  | .ol8 => ol8Limit neg (ol8OfLog mode d.bb l)
  | .e4m3 | .e5m2 | .bf16 | .fp16 | .fp32 | .int8 | .sk4i | .sk4f | .sk4u | .sk2s | .sk2t =>
    d.ofLin mode neg (decodedM l) (decodedE l)

/-- One conversion (R89): a value to a destination, with its charge. -/
def Dest.convert (d : Dest) (mode : Mode) : Num → Coded
  | .zero => ⟨d.zeroCode, .none⟩
  | .nan => ⟨d.nanCode, if d.fmt == .int8 then .inv else .none⟩
  | .inf neg => d.infCode neg
  | .log neg l => d.ofLog mode neg l
  | .lin neg m e => d.ofLin mode neg m e

/-! ### Exact dyadic values -/

/-- An exact value m × 2^e. -/
structure Dy where
  m : Int
  e : Int
  deriving DecidableEq, Repr

/-- The exact sum of two dyadic values. -/
def Dy.add (a b : Dy) : Dy :=
  if a.e ≤ b.e then ⟨a.m + b.m * (2 ^ (b.e - a.e).toNat : Nat), a.e⟩
  else ⟨a.m * (2 ^ (a.e - b.e).toNat : Nat) + b.m, b.e⟩

/-- The negative of a dyadic value. -/
def Dy.neg (a : Dy) : Dy := ⟨-a.m, a.e⟩

/-- The exact product of two dyadic values. -/
def Dy.mul (a b : Dy) : Dy := ⟨a.m * b.m, a.e + b.e⟩

/-- a ≤ b. -/
def Dy.le (a b : Dy) : Bool := decide ((Dy.add a b.neg).m ≤ 0)

/-- The dyadic value of a finite element; zero for a special one. -/
def Num.dy (x : Num) : Dy :=
  match x.linear with
  | some (neg, m, e) => ⟨signed neg m, e⟩
  | none => ⟨0, 0⟩

/-- A dyadic value as an element value. -/
def Dy.num (a : Dy) : Num := if a.m = 0 then .zero else .lin (decide (a.m < 0)) a.m.natAbs a.e

/-- An element value is NaN or infinite. -/
def Num.special : Num → Bool
  | .nan | .inf _ => true
  | .zero | .log _ _ | .lin _ _ _ => false

/-- The sign of an element value; zero and NaN count as positive. -/
def Num.isNeg : Num → Bool
  | .inf n | .log n _ | .lin n _ _ => n
  | .zero | .nan => false

end Sys2Proof.Machine
end

