-- ==== Sys2Proof/Machine/Arith.lean ====
section
/-!
DEFINITION. Arithmetic of the cells and sums: product triples, digit-serial products, slub products,
the run adder, the wide accumulator with its residue, and the rounding generators
(chapter "Arithmetic", R99–R135).
-/

namespace Sys2Proof.Machine

/-- The class of a product triple (R100). -/
inductive TCls where
  | zero | finite | pinf | ninf | inv
  deriving DecidableEq, Repr

/-- A product triple (R100). -/
structure Triple where
  sign : Bool := false
  p : Nat := 0
  sh : Int := 0
  cls : TCls := .zero
  deriving DecidableEq, Repr

/-- The class of an operand at the cell (R111). -/
inductive OCls where
  | zero | finite | inf | nan
  deriving DecidableEq, Repr

/-- The class of an element value. -/
def Num.ocls : Num → OCls
  | .zero => .zero
  | .nan => .nan
  | .inf _ => .inf
  | .log _ _ => .finite
  | .lin _ m _ => if m = 0 then .zero else .finite

/-- R111: the class of the product of two operands, from their classes and the XOR of their signs. -/
def productClass (x w : OCls) (negative : Bool) : TCls :=
  match x, w with
  | .nan, _ | _, .nan => .inv
  | .zero, .inf | .inf, .zero => .inv
  | .zero, .zero | .zero, .finite | .finite, .zero => .zero
  | .finite, .finite => .finite
  | .finite, .inf | .inf, .finite | .inf, .inf => if negative then .ninf else .pinf

/-- R101: the log-path triple of two finite logs. -/
def logTriple (sx : Bool) (lx : Int) (sw : Bool) (lw : Int) : Triple :=
  { sign := sx ^^ sw
    p := decEntry (logFrac (lx + lw)) * 2 ^ 7
    sh := logInt (lx + lw) - 21
    cls := .finite }

/-- R105: the non-adjacent signed digits of `m`, from position `j` up; `fuel` bounds the positions. -/
def nafDigits : (fuel m j : Nat) → List (Nat × Int)
  | 0, _, _ => []
  | fuel + 1, m, j =>
    if m = 0 then []
    else if m % 2 = 1 then
      if m % 4 = 1 then (j, 1) :: nafDigits fuel ((m - 1) / 2) (j + 1)
      else (j, -1) :: nafDigits fuel ((m + 1) / 2) (j + 1)
    else nafDigits fuel (m / 2) (j + 1)

/-- R105: the digits of a streamed significand. -/
def digitsOf (m : Nat) : List (Nat × Int) := nafDigits (bitlen m + 1) m 0

/-- R107: the partial register of one cell after the digits of an element: the sum of
d × slice × 2^j. -/
def partialReg (digits : List (Nat × Int)) (slice : Nat) : Int :=
  digits.foldl (fun acc d => acc + d.2 * (slice : Int) * (2 ^ d.1 : Nat)) 0

/-- R104: slice c of a stationary significand, bits [4c+3:4c]. -/
def sliceOf (m c : Nat) : Nat := m / 2 ^ (4 * c) % 16

/-- R107: the product of a ply group of width `ply`: the sum over c of partial_c × 2^(4c). -/
def serialProduct (digits : List (Nat × Int)) (mw : Nat) : (ply : Nat) → Int
  | 0 => 0
  | c + 1 => serialProduct digits mw c + partialReg digits (sliceOf mw c) * (2 ^ (4 * c) : Nat)

/-- R107: the linear-path triple of two finite linear operands. -/
def linTriple (ply : Nat) (sx : Bool) (mx : Nat) (ex : Int) (sw : Bool) (mw : Nat) (ew : Int) : Triple :=
  { sign := sx ^^ sw
    p := (serialProduct (digitsOf mx) mw ply).toNat
    sh := ex + ew
    cls := .finite }

/-! ### Residues modulo 3 (R133) -/

/-- The residue of an integer modulo 3, 0–2. -/
def res3 (i : Int) : Nat := (i % 3).toNat

/-- R133, log path: the log adder's sum of two logs agrees with the sum of the residues they carry. -/
def logResidueOk (lx lw : Int) (rx rw : Nat) : Bool := res3 (lx + lw) == (rx + rw) % 3

/-- R133, linear path: a partial register with the residue carried beside it, and whether the check after every digit
has passed. -/
def partialStep (slice rs : Nat) (a : Int × Nat × Bool) (d : Nat × Int) : Int × Nat × Bool :=
  let p := a.1 + d.2 * (slice : Int) * (2 ^ d.1 : Nat)
  let r := res3 (a.2.1 + d.2 * (rs : Int) * (if d.1 % 2 = 0 then 1 else 2))
  (p, r, a.2.2 && res3 p == r)

/-- R107, R133: a cell's partial register after the digits of an element, its residue, and whether its checks passed;
`rs` is the residue that the slice's entry carries. -/
def partialChecked (digits : List (Nat × Int)) (slice rs : Nat) : Int × Nat × Bool :=
  digits.foldl (partialStep slice rs) (0, 0, true)

/-- R133: the checks of a ply group's cells, given each cell's slice and the residue it carries, lowest first, and the
check of the combined `P` against the cells' residues (4c is even). -/
def plyResidueOk (digits : List (Nat × Int)) (cells : List (Nat × Nat)) : Bool :=
  let ps := cells.map fun c => partialChecked digits c.1 c.2
  ps.all (·.2.2) &&
    res3 ((List.range ps.length).foldl (fun acc c => acc + (ps.getD c (0, 0, true)).1 * (2 ^ (4 * c) : Nat)) 0)
      == (ps.map (·.2.1)).sum % 3

/-- The triple of one cell (R99, R101, R107, R111). -/
def cellTriple (ply : Nat) (x w : Num) : Triple :=
  let cls := productClass x.ocls w.ocls (x.isNeg ^^ w.isNeg)
  match x, w, cls with
  | .log sx lx, .log sw lw, .finite => logTriple sx lx sw lw
  | .lin sx mx ex, .lin sw mw ew, .finite => linTriple ply sx mx ex sw mw ew
  | _, _, c => { cls := c }

/-- R110: a slub product; a slub is a log value, the other operand linear or a slub itself. -/
def slubTriple (x w : Num) : Triple :=
  let cls := productClass x.ocls w.ocls (x.isNeg ^^ w.isNeg)
  match x, w, cls with
  | .log sx lx, .log sw lw, .finite => logTriple sx lx sw lw
  | .log ss ls, .lin so m e, .finite | .lin so m e, .log ss ls, .finite =>
    { sign := ss ^^ so, p := decEntry (logFrac ls) * m, sh := logInt ls - 14 + e, cls := .finite }
  | _, _, c => { cls := c }

/-- R106: steps of one streamed element in quarter steps: 1 for a zero significand, 4 for an element
with no digits (special values, a logarithmic element), else 4 for each non-zero digit. -/
def elementCost (x : Num) : Nat :=
  match x with
  | .zero => 1
  | .lin _ m _ => if m = 0 then 1 else 4 * (digitsOf m).length
  | .log _ _ | .nan | .inf _ => 4

/-! ### The run adder (R115–R117) -/

/-- The infinities and invalids met by a run or accumulator (R112). -/
structure SClasses where
  inv : Bool := false
  pinf : Bool := false
  ninf : Bool := false
  deriving DecidableEq, Repr

/-- The result of one run (R115), with the residue modulo 7 that its adder forms (R134). -/
structure RunResult where
  acc : Int := 0
  smax : Int := 0
  cls : SClasses := {}
  sticky : Bool := false
  shadowed : Nat := 0
  res : Nat := 0
  deriving DecidableEq, Repr

/-- The largest shift of the finite triples; `none` when there is none (R115). -/
def maxShift : List Triple → Option Int
  | [] => none
  | t :: ts =>
    match t.cls, maxShift ts with
    | .finite, none => some t.sh
    | .finite, some s => some (max t.sh s)
    | _, r => r

/-- The special classes of a run's triples (R112). -/
def runClasses (ts : List Triple) : SClasses :=
  { inv := ts.any (·.cls == .inv), pinf := ts.any (·.cls == .pinf), ninf := ts.any (·.cls == .ninf) }

/-- The residue of an integer modulo 7, 0–6. -/
def res7 (i : Int) : Nat := (i % 7).toNat

/-- R134: the residue of a magnitude shifted right by k, from its residue and that of the part lost. -/
def shiftRes7 (ρ lost k : Nat) : Nat := (ρ + 7 - lost % 7) * (4 ^ (k % 3) % 7) % 7

/-- One triple into a run (R115), with the residue of the sum (R134). -/
def runAdd (smax : Int) (r : RunResult) (t : Triple) : RunResult :=
  match t.cls with
  | .finite =>
    let k := (smax - t.sh).toNat
    let kept := t.p / 2 ^ k
    let lost := decide (kept * 2 ^ k ≠ t.p)
    let ρ := shiftRes7 (t.p % 7) (t.p % 2 ^ k) k
    { r with
      acc := r.acc + signed t.sign kept
      res := (r.res + (if t.sign then 7 - ρ else ρ)) % 7
      sticky := r.sticky || lost
      shadowed := r.shadowed + (if lost then 1 else 0) }
  | .zero | .pinf | .ninf | .inv => r

/-- R115: the run adder. -/
def runSum (ts : List Triple) : RunResult :=
  match maxShift ts with
  | none => { cls := runClasses ts }
  | some smax => ts.foldl (runAdd smax) { smax := smax, cls := runClasses ts }

/-- R134: the residue that the run adder formed agrees with its sum. -/
def RunResult.residueOk (r : RunResult) : Bool := r.res == res7 r.acc

/-! ### The wide accumulator (R118–R122) and its residue (R134) -/

/-- A wide accumulator (R118), with the residue of `SIG` modulo 7 carried beside it (R134). -/
structure WAcc where
  sig : Int := 0
  exp : Int := 0
  inv : Bool := false
  pinf : Bool := false
  ninf : Bool := false
  stk : Bool := false
  res : Nat := 0
  deriving DecidableEq, Repr

/-- R119 align: v × 2^e moved to weight 2^x, truncated toward zero. -/
def alignTo (v e x : Int) : Int :=
  if x ≤ e then v * (2 ^ (e - x).toNat : Nat)
  else signed (decide (v < 0)) (v.natAbs / 2 ^ (x - e).toNat)

/-- R119: whether align loses bits. -/
def alignLoses (v e x : Int) : Bool :=
  decide (e < x) && decide (v.natAbs % 2 ^ (x - e).toNat ≠ 0)

/-- 2^k modulo 7 (R134). -/
def pow2mod7 (k : Nat) : Nat := 2 ^ (k % 3) % 7

/-- R134: the residue of an aligned value from the residue of the value: left shifts multiply by
2^(k mod 3), right shifts take the lost part λ away and multiply by 4^(k mod 3). -/
def alignRes (ρ : Nat) (v e x : Int) : Nat :=
  if x ≤ e then ρ * pow2mod7 (e - x).toNat % 7
  else
    let k := (x - e).toNat
    let lost := res7 (signed (decide (v < 0)) (v.natAbs % 2 ^ k))
    (ρ + 7 - lost) * (4 ^ (k % 3) % 7) % 7

/-- R119: the common weight of a promotion. -/
def promoteWeight (we wSig smax acc : Int) : Int :=
  let x := min we smax
  let top := max (we + (bitlen wSig.natAbs : Int)) (smax + (bitlen acc.natAbs : Int)) + 1
  if top - x > 62 then top - 62 else x

/-- R119: promote a run result, a split-mode half or a slub product into a wide accumulator; `ρ` is the residue that
comes with it (R134). -/
def promote (w : WAcc) (acc smax : Int) (cls : SClasses) (sticky : Bool) (ρ : Nat := res7 acc) : WAcc :=
  let pinf := w.pinf || cls.pinf
  let ninf := w.ninf || cls.ninf
  let w1 : WAcc :=
    { w with inv := w.inv || cls.inv || (pinf && ninf), pinf := pinf, ninf := ninf, stk := w.stk || sticky }
  if acc = 0 then w1
  else if w.sig = 0 then { w1 with sig := acc, exp := smax, res := ρ }
  else
    let x := promoteWeight w.exp w.sig smax acc
    { w1 with
      sig := alignTo w.sig w.exp x + alignTo acc smax x
      exp := x
      stk := w1.stk || alignLoses w.sig w.exp x || alignLoses acc smax x
      res := (alignRes w.res w.sig w.exp x + alignRes ρ acc smax x) % 7 }

/-- Promote a run result. -/
def WAcc.addRun (w : WAcc) (r : RunResult) : WAcc := promote w r.acc r.smax r.cls r.sticky r.res

/-- R119: a triple promoted on its own (a slub product, a hearth or vector term). A term wider than
62 bits does not arise here. -/
def WAcc.addTriple (w : WAcc) (t : Triple) : WAcc :=
  match t.cls with
  | .zero => w
  | .finite => promote w (signed t.sign t.p) t.sh {} false
  | .pinf => promote w 0 0 { pinf := true } false
  | .ninf => promote w 0 0 { ninf := true } false
  | .inv => promote w 0 0 { inv := true } false

/-- R133–R135: the residue carried beside `SIG` agrees with it. -/
def WAcc.residueOk (w : WAcc) : Bool := w.res == res7 w.sig

/-- An accumulator that holds one exact term (a bias, a converted element). -/
def WAcc.ofNum (x : Num) : WAcc :=
  match x with
  | .zero => {}
  | .nan => { inv := true }
  | .inf neg => { pinf := !neg, ninf := neg }
  | .log neg l => { sig := signed neg (decodedM l), exp := decodedE l, res := res7 (signed neg (decodedM l)) }
  | .lin neg m e => { sig := signed neg m, exp := e, res := res7 (signed neg m) }

/-- Promote an element value. -/
def WAcc.addNum (w : WAcc) (x : Num) : WAcc :=
  match x with
  | .zero => w
  | .nan => promote w 0 0 { inv := true } false
  | .inf neg => promote w 0 0 { pinf := !neg, ninf := neg } false
  | .log neg l => promote w (signed neg (decodedM l)) (decodedE l) {} false
  | .lin neg m e => promote w (signed neg m) e {} false

/-- R121: the value of a wide accumulator. -/
def WAcc.num (w : WAcc) : Num :=
  if w.inv then .nan
  else if w.pinf then .inf false
  else if w.ninf then .inf true
  else if w.sig = 0 then .zero
  else .lin (decide (w.sig < 0)) w.sig.natAbs w.exp

/-- R118: the 80-bit layout. -/
def WAcc.pack (w : WAcc) : Nat :=
  unsignedOf 64 w.sig * 2 ^ 16 + unsignedOf 12 w.exp * 2 ^ 4
    + (if w.inv then 8 else 0) + (if w.pinf then 4 else 0) + (if w.ninf then 2 else 0) + (if w.stk then 1 else 0)

/-- R118: the accumulator an 80-bit word holds; its residue is formed from the significand. -/
def WAcc.unpack (n : Nat) : WAcc :=
  { sig := signedOf 64 (n / 2 ^ 16), exp := signedOf 12 (n / 2 ^ 4)
    inv := n / 8 % 2 == 1, pinf := n / 4 % 2 == 1, ninf := n / 2 % 2 == 1, stk := n % 2 == 1
    res := res7 (signedOf 64 (n / 2 ^ 16)) }

/-! ### Rounding generators (R127–R129) -/

/-- A rounding generator: its 64-bit key and 128-bit counter (R127). -/
structure Gen where
  key : Nat := 0
  ctr : Nat := 0
  deriving DecidableEq, Repr

/-- One Philox round (R127). -/
def philoxRound (c : Nat × Nat × Nat × Nat) (k0 k1 : Nat) : Nat × Nat × Nat × Nat :=
  let p0 := 0xD251_1F53 * c.1
  let p1 := 0xCD9E_8D57 * c.2.2.1
  (((p1 / 2 ^ 32) ^^^ c.2.1) ^^^ k0, p1 % 2 ^ 32, ((p0 / 2 ^ 32) ^^^ c.2.2.2) ^^^ k1, p0 % 2 ^ 32)

/-- The rounds of R127, the key advanced between them. -/
def philoxRounds : Nat → Nat × Nat × Nat × Nat → Nat → Nat → Nat × Nat × Nat × Nat
  | 0, c, _, _ => c
  | n + 1, c, k0, k1 =>
    philoxRounds n (philoxRound c k0 k1) ((k0 + 0x9E37_79B9) % 2 ^ 32) ((k1 + 0xBB67_AE85) % 2 ^ 32)

/-- R127: the block of four words of a counter and key, word 0 lowest. -/
def philox (ctr key : Nat) : Nat × Nat × Nat × Nat :=
  philoxRounds 10 (ctr % 2 ^ 32, ctr / 2 ^ 32 % 2 ^ 32, ctr / 2 ^ 64 % 2 ^ 32, ctr / 2 ^ 96 % 2 ^ 32)
    (key % 2 ^ 32) (key / 2 ^ 32 % 2 ^ 32)

/-- R128: the word of element j of a rounding site whose generator was read at issue. -/
def siteWord (g : Gen) (j : Nat) : Nat :=
  let b := philox ((g.ctr + j / 4) % 2 ^ 128) g.key
  match j % 4 with
  | 0 => b.1
  | 1 => b.2.1
  | 2 => b.2.2.1
  | _ => b.2.2.2

/-- R129: the counter after a site of n elements issues. -/
def Gen.advance (g : Gen) (n : Nat) : Gen := { g with ctr := (g.ctr + (n + 3) / 4) % 2 ^ 128 }

/-- The rounding mode of element j of a site (R92, R128): nearest when the operation names no
generator for it. -/
def siteMode (site : Option Gen) (j : Nat) : Mode := site.map (siteWord · j)

end Sys2Proof.Machine
end

