-- ==== Sys2Proof/Machine/Skein.lean ====
section
/-!
DEFINITION. Skein blocks: their layout, checks and elements (R77–R86), the spin-down mapping
(R96–R98) and the Walsh–Hadamard rotation (R154).
-/

namespace Sys2Proof.Machine

/-- The element type code of a skein format (R79). -/
def skeinEtype : Fmt → Nat
  | .sk4i => 0 | .sk4f => 1 | .sk4u => 2 | .sk2s => 4 | .sk2t => 5
  | .ol16 | .ol8 | .e4m3 | .e5m2 | .bf16 | .fp16 | .int8 | .fp32 => 7

/-- Byte i of a block. -/
def blkByte (b : List Byte) (i : Nat) : Nat := (b.getD i 0#8).toNat

/-- Slub slot j of a block (R77): index and OL16 code. -/
def blkSlot (b : List Byte) (j : Nat) : Nat × Nat :=
  (blkByte b (4 + 3 * j), blkByte b (5 + 3 * j) + 256 * blkByte b (6 + 3 * j))

/-- Slub slots in use (R78). -/
def blkSlubCnt (b : List Byte) : Nat := min (blkByte b 2 % 8) 4

/-- The slots in use. -/
def blkSlubs (b : List Byte) : List (Nat × Nat) := (List.range (blkSlubCnt b)).map (blkSlot b)

/-- Strictly increasing. -/
def strictlyRising : List Nat → Bool
  | [] => true
  | [_] => true
  | a :: b :: r => decide (a < b) && strictlyRising (b :: r)

/-- An OL16 special code (R65). -/
def ol16Special (c : Nat) : Bool := c % 2 ^ 15 == 0x4000 || c % 2 ^ 15 == 0x3FFF

/-- What a consumer makes of a block whose tag has passed (R84–R86). -/
inductive BlkKind where
  | allZero | poisoned | live
  deriving DecidableEq, Repr

/-- R84, R85: the kind of a block read as format `fmt`. -/
def blkKind (fmt : Fmt) (b : List Byte) : BlkKind :=
  let e8 := blkByte b 0
  let fl := blkByte b 2
  let cnt := fl % 8
  let zp := fl / 8 % 2
  let et := fl / 32
  let slots := blkSlubs b
  if e8 = 0 then .allZero
  else if e8 = 255 then .poisoned
  else if cnt = 6 ∨ cnt = 7 then .poisoned
  else if et ≠ skeinEtype fmt then .poisoned
  else if (zp = 1 ∧ et ≠ 2) ∨ (zp = 0 ∧ et = 2) then .poisoned
  else if (blkByte b 3 ≠ 0 ∧ zp = 0) ∨ blkByte b 3 > 15 then .poisoned
  else if !strictlyRising (slots.map (·.1)) || slots.any (fun s => decide (s.1 ≥ fmt.blockLen)) then .poisoned
  else if (List.range 4).any (fun j => decide (j ≥ blkSlubCnt b) && decide (blkSlot b j ≠ (0, 0))) then .poisoned
  else if slots.any (fun s => ol16Special s.2) then .poisoned
  else .live

/-- The data bits of element i (R80). -/
def blkBits (fmt : Fmt) (b : List Byte) (i : Nat) : Nat :=
  if fmt.isSk4 then blkByte b (16 + i / 2) / 2 ^ (4 * (i % 2)) % 16
  else blkByte b (16 + i / 4) / 2 ^ (2 * (i % 4)) % 4

/-- The significand and exponent of an element's data bits (R79, R104): the raw integer of UINT4,
before its zero point. -/
def skeinRaw (fmt : Fmt) (e8 bits : Nat) : Num :=
  let e : Int := (e8 : Int) - 127
  match fmt with
  | .sk4i => numOfInt (signedOf 4 bits) e
  | .sk4u => numOfInt bits e
  | .sk4f =>
    let mag := bits % 8
    let m := if mag < 2 then mag else (2 + mag % 2) * 2 ^ (mag / 2 - 1)
    if m = 0 then .zero else .lin (bits / 8 % 2 == 1) m (e - 1)
  | .sk2s => numOfInt (signedOf 2 bits) e
  | .sk2t => if bits = 2 then .zero else numOfInt (signedOf 2 bits) e
  | .ol16 | .ol8 | .e4m3 | .e5m2 | .bf16 | .fp16 | .int8 | .fp32 => .nan

/-- The slub at position i, if any (R81). -/
def blkSlubAt (b : List Byte) (i : Nat) : Option Nat :=
  ((blkSlubs b).find? (fun s => s.1 == i)).map (·.2)

/-- One element as it reaches a cell: its value, whether it is a slub, and whether it charges an
invalid result (R79, R84). -/
structure SkElem where
  val : Num := .zero
  slub : Bool := false
  badCode : Bool := false
  deriving DecidableEq, Repr

/-- Element i of a block read as `fmt`, raw (UINT4 before its zero point), slubs in place (R81, R84). -/
def blkElem (fmt : Fmt) (b : List Byte) (i : Nat) : SkElem :=
  match blkKind fmt b with
  | .allZero => {}
  | .poisoned => { val := .nan }
  | .live =>
    match blkSlubAt b i with
    | some c => { val := readOl16 c, slub := true }
    | none =>
      let bits := blkBits fmt b i
      { val := skeinRaw fmt (blkByte b 0) bits, badCode := fmt == .sk2t && bits == 2 }

/-- The value of element i for a consumer outside the engines: UINT4 with its zero point taken off
(R79). -/
def blkValue (fmt : Fmt) (b : List Byte) (i : Nat) : SkElem :=
  let s := blkElem fmt b i
  if fmt == .sk4u && !s.slub && blkKind fmt b == .live then
    { s with val := numOfInt ((blkBits fmt b i : Int) - (blkByte b 3 : Int)) ((blkByte b 0 : Int) - 127) }
  else s

/-! ### Spin-down (R96–R98) -/

/-- R96: l_Q, the negative limit and the positive limit of each element type, the limits on the
type's own grid (FP4 in halves). -/
def spinLog : Fmt → Int
  | .sk4i => 719 | .sk4f => 662
  | .sk4u | .sk2s | .sk2t | .ol16 | .ol8 | .e4m3 | .e5m2 | .bf16 | .fp16 | .int8 | .fp32 => 0

/-- The magnitude log of a source value; a zero sorts below every finite value (R97). -/
def magLog : Num → Int
  | .log _ l => l
  | .lin _ m e => logNearest m e
  | .zero | .nan | .inf _ => -1000000

/-- Insert into a falling list. -/
def insFalling (x : Int) : List Int → List Int
  | [] => [x]
  | y :: r => if x ≤ y then y :: insFalling x r else x :: y :: r

/-- Sort falling. -/
def sortFalling : List Int → List Int
  | [] => []
  | x :: r => insFalling x (sortFalling r)

/-- The position of the largest magnitude among the indices given, ties to the lower index. -/
def argMax (ls : List Int) : List Nat → Option Nat
  | [] => none
  | i :: r =>
    match argMax ls r with
    | none => some i
    | some j => if ls.getD i 0 ≥ ls.getD j 0 then some i else some j

/-- The `k` largest of the indices given, in choice order (R97). -/
def takeLargest (ls : List Int) : Nat → List Nat → List Nat
  | 0, _ => []
  | k + 1, is =>
    match argMax ls is with
    | none => []
    | some i => i :: takeLargest ls k (is.filter (· ≠ i))

/-- The element code of one scaled value on the grid of R96, with its charge: sign, and the rounded
magnitude in units of the grid before the clamp. -/
def spinCode (fmt : Fmt) (mode : Mode) (x : Num) (e : Int) : Coded :=
  match x.linear with
  | none => ⟨0, .none⟩
  | some (neg, m, xe) =>
    match fmt with
    | .sk4f =>
      let mag := floatCode ⟨2, 2, -1, 7⟩ mode m (xe - e)
      if mag = 0 then ⟨0, .flush⟩
      else if mag > 7 then ⟨(if neg then 8 else 0) + 7, .sat⟩
      else ⟨(if neg then 8 else 0) + mag, .none⟩
    | .sk4i | .sk4u | .sk2s | .sk2t | .ol16 | .ol8 | .e4m3 | .e5m2 | .bf16 | .fp16 | .int8 | .fp32 =>
      let v := signed neg (roundGrid mode m (xe - e) 0)
      let lo : Int := match fmt with | .sk4i => -8 | .sk2s => -2 | _ => -1
      let hi : Int := match fmt with | .sk4i => 7 | _ => 1
      let w := if fmt == .sk4i then 4 else 2
      if v = 0 then ⟨0, .flush⟩
      else if v > hi then ⟨unsignedOf w hi, .sat⟩
      else if v < lo then ⟨unsignedOf w lo, .sat⟩
      else ⟨unsignedOf w v, .none⟩

/-- A spun block with what it charges (R97, R155, R302). -/
structure Spun where
  bytes : List Byte
  sat : Nat := 0
  flush : Nat := 0
  slubOvf : Nat := 0
  deriving DecidableEq, Repr

/-- Pack element codes into data bytes (R80). -/
def packCodes (bitsPer : Nat) (codes : List Nat) : List Byte :=
  let per := 8 / bitsPer
  (List.range 48).map fun b =>
    BitVec.ofNat 8 ((List.range per).foldl (fun a k => a + codes.getD (b * per + k) 0 * 2 ^ (bitsPer * k)) 0)

/-- The outliers of a block (R97). -/
def spinOutliers (margin : Nat) (ls : List Int) : List Nat :=
  let n := ls.length
  let ref := (sortFalling ls).getD (n / 6 - 1) (-1000000)
  if margin = 0 ∨ ref ≤ -1000000 then []
  else (List.range n).filter fun i => decide (ls.getD i 0 > ref + 256 * (margin : Int))

/-- R97: the block scale from the largest magnitude outside the outliers. -/
def spinScale (fmt : Fmt) (ls : List Int) (outliers : List Nat) : Int :=
  let rest := (List.range ls.length).filter (fun i => !outliers.contains i)
  match argMax ls rest with
  | none => 0
  | some i =>
    let h := ls.getD i 0
    if h ≤ -1000000 then 0 else -((spinLog fmt - h) / 256)

/-- R97, R98: spin one block of OL16 values (already padded to the block length). -/
def spinBlock (fmt : Fmt) (margin : Nat) (rot : Bool) (tag : Nat) (mode : Nat → Mode) (xs : List Num) : Spun :=
  let n := fmt.blockLen
  if xs.any Num.special then
    { bytes := 255#8 :: BitVec.ofNat 8 tag :: List.replicate 62 0#8 }
  else if xs.all (fun x => x == .zero) then
    { bytes := 0#8 :: BitVec.ofNat 8 tag :: List.replicate 62 0#8 }
  else
    let ls := xs.map magLog
    let outliers := spinOutliers margin ls
    let chosen := takeLargest ls 4 outliers
    let slubs := (List.range n).filter (chosen.contains ·)
    let ovf := outliers.filter (fun i => !chosen.contains i)
    let e := spinScale fmt ls outliers
    let coded := (List.range n).map fun i =>
      if chosen.contains i then (⟨0, .none⟩ : Coded) else spinCode fmt (mode i) (xs.getD i .zero) e
    let cnt := if ovf.isEmpty then slubs.length else 5
    let flags := cnt + (if rot then 16 else 0) + 32 * skeinEtype fmt
    let slot := fun j =>
      match slubs[j]? with
      | none => [0#8, 0#8, 0#8]
      | some i =>
        let c := (ol16Limit (xs.getD i .zero).isNeg (ls.getD i 0)).code
        [BitVec.ofNat 8 i, BitVec.ofNat 8 c, BitVec.ofNat 8 (c / 256)]
    let satAt := fun i => !ovf.contains i && (coded.getD i ⟨0, .none⟩).charge == .sat
    { bytes := [BitVec.ofNat 8 (127 + e).toNat, BitVec.ofNat 8 tag, BitVec.ofNat 8 flags, 0#8]
        ++ slot 0 ++ slot 1 ++ slot 2 ++ slot 3
        ++ packCodes (if fmt.isSk4 then 4 else 2) (coded.map (·.code))
      sat := ((List.range n).filter satAt).length
      flush := (coded.filter (fun c => c.charge == .flush)).length
      slubOvf := ovf.length }

/-! ### Rotation (R154) -/

/-- popcount(n) is odd, for n below 2^fuel. -/
def oddPop : Nat → Nat → Bool
  | 0, _ => false
  | fuel + 1, n => (n % 2 == 1) ^^ oddPop fuel (n / 2)

/-- y_i of R154, exact. -/
def rotSum (xs : List Num) (i : Nat) : Dy :=
  (List.range xs.length).foldl
    (fun a j => let d := (xs.getD j .zero).dy; a.add (if oddPop 8 (i &&& j) then d.neg else d)) ⟨0, 0⟩

/-- R154: the rotation of one aligned block of B values, as OL16 codes with their charges. A
special value in the block takes its place in the sum by R112: a NaN, or infinities of both signs, give NaN. -/
def rotateBlock (xs : List Num) : List Coded :=
  let b := xs.length
  (List.range b).map fun i =>
    if xs.any Num.special then
      (let specials := (List.range b).filter (fun j => (xs.getD j .zero).special)
       let sgn := fun j => (xs.getD j .zero).isNeg ^^ oddPop 8 (i &&& j)
       if specials.any (fun j => xs.getD j .zero == .nan) then ⟨0xC000, .none⟩
       else if specials.all (fun j => sgn j == false) then ⟨0x3FFF, .none⟩
       else if specials.all (fun j => sgn j == true) then ⟨0xBFFF, .none⟩
       else ⟨0xC000, .none⟩)
    else
      match (rotSum xs i).num with
      | .lin neg m e => ol16Limit neg (logNearest m e - 128 * (b.log2 : Int))
      | _ => ⟨0x4000, .none⟩

end Sys2Proof.Machine
end

