-- ==== Sys2Proof/Machine/ComputeTypes.lean ====
section
/-!
DEFINITION. The data of computation: tensor descriptors, operations in flight, tiles, chunks, engines,
tallies, slots, sequencers and jobs (chapters "The engine array", "Precision per layer", "Strands").
-/

namespace Sys2Proof.Machine

/-! ### Tallies (R181) -/

/-- A tally record (R181); every counter saturates. `feedElems` counts the elements that the core feeder
converted or spun, which R199 compares and R181 does not list (log 31). -/
structure Tally where
  hist : Tab Nat := []
  outputs : Nat := 0
  zeros : Nat := 0
  specials : Nat := 0
  outSat : Nat := 0
  outFlush : Nat := 0
  feedSat : Nat := 0
  feedFlush : Nat := 0
  invalid : Nat := 0
  slubOvf : Nat := 0
  shadowed : Nat := 0
  products : Nat := 0
  elems : Nat := 0
  zeroElems : Nat := 0
  digits : Nat := 0
  drag : Nat := 0
  misalign : Nat := 0
  respin : Nat := 0
  refresh : Nat := 0
  unrepaired : Nat := 0
  emptyRed : Nat := 0
  xmax : Option Int := none
  wmax : Option Int := none
  tiles : Nat := 0
  respinTop : Option Nat := none
  feedElems : Nat := 0
  deriving DecidableEq, Repr

/-! ### Descriptors -/

/-- A tensor descriptor (R220). -/
structure TD where
  base : Nat := 0
  fmt : Nat := 0
  place : Nat := 0
  rot : Nat := 0
  biasFromSlot : Bool := false
  zp : Bool := false
  trans : Bool := false
  /-- the offset of a reserved field or bit that is not 0 -/
  reservedAt : Option Nat := none
  bias : Nat := 0
  expl : Nat := 0
  d0 : Nat := 0
  d1 : Nat := 0
  d2 : Nat := 0
  st1 : Nat := 0
  st2 : Nat := 0
  biasSlot : Nat := 0
  deriving DecidableEq, Repr

/-- A tensor as an operation uses it: descriptor, format, OL8 bias in units of 1/256 and INT8 zero
point as read at issue (R69, R75, R200). -/
structure Tensor where
  td : TD
  fmt : Fmt
  bb : Int := 0
  z : Int := 0
  deriving DecidableEq, Repr

/-- Operation kinds (R232). -/
inductive Kind where
  | matmul | conv | vec | reduce | gather | scatter | convert | fill | genSet
  | remoteAcc | update | spin | fold | redScatter | gatherAll
  deriving DecidableEq, Repr

/-- One part of an operation on a core's vector unit or a hearth (R230, R292): the unit, the range of
element indices still to do, and what it has used up. -/
structure Part where
  unit : Nat
  lo : Nat
  hi : Nat
  /-- groups of 128 elements done of the column at `lo` (R292) -/
  sub : Nat := 0
  retried : Bool := false
  refetched : Bool := false
  /-- the count check of R300 has passed -/
  checked : Bool := false
  deriving DecidableEq, Repr

/-- An operation that has issued (R225–R229). -/
structure OpRec where
  seq : Nat
  tag : Nat
  /-- the queue and entry of the issuing strand (R527) -/
  queue : Nat := 0
  entry : Nat := 0
  evtSrc : Nat := 0x1000
  kind : Kind
  desc : List Byte
  job : Nat := 0
  x : Option Tensor := none
  w : Option Tensor := none
  y : Option Tensor := none
  z : Option Tensor := none
  /-- further tensors of hearth kinds, in descriptor order -/
  extra : List (Option Tensor) := []
  spun : List (Option Tensor) := []
  slot : Option Nat := none
  /-- the slot descriptor as read at issue (R188) -/
  slotBytes : List Byte := []
  rung : Nat := 0
  /-- the requester whose home the operation's addresses resolve against (R526) -/
  home : Option Nat := none
  die : Option Nat := none
  /-- generators of the rounding sites as read at issue (R128) -/
  sites : List (Option Gen) := []
  e4m3Nan : Bool := false
  e5m2Inf : Bool := false
  slubMargin : Nat := 3
  stopOnInvalid : Bool := false
  tolLog : Nat := 23
  tolLin : Nat := 14
  fine : Bool := false
  storm : Bool := false
  discard : Bool := false
  refreshed : Bool := false
  respun : Bool := false
  invalid : Bool := false
  unrepaired : Bool := false
  code : Nat := 0
  tilesLeft : Nat := 0
  parts : List Part := []
  /-- statistics of each die's hearths, committed when the operation completes (R183) -/
  tally : List (Nat × Tally) := []
  /-- every tile has drained, every part is written, or the operation has failed -/
  finished : Bool := false
  /-- the unit that finished it, as an ember source (R229) -/
  last : Nat := hubSource
  deriving DecidableEq, Repr

/-- A remote accumulate request in flight to its owning hearth (R295): the operation, the sender (hearth 0–19, or
1000 for the hub), the requester's home, the mode of R296, the source format and bias, the first accumulator, and the
contributions; whether its group has been recomputed. -/
structure RaReq where
  op : Nat
  sender : Nat
  home : Option Nat := none
  mode : Nat := 0
  fmt : Fmt := .ol16
  bb : Int := 0
  addr : Nat
  codes : List Nat
  retried : Bool := false
  /-- it has reached its hearth and waits there (R282) -/
  arrived : Bool := false
  /-- sent by a block that has latched in the running wave (R32) -/
  post : Bool := false
  deriving DecidableEq, Repr

/-! ### Tiles and chunks -/

/-- A stationary entry of a cell (R149) with its side bits: the residue modulo 3 and even parity over both. -/
structure Entry where
  bits : BitVec 16 := 0
  res : BitVec 2 := 0
  par : Bool := false
  deriving DecidableEq, Repr

/-- A scale register (R150) with its parity. -/
structure ScaleReg where
  e8 : BitVec 8 := 0
  par : Bool := false
  deriving DecidableEq, Repr

/-- A slub of a stationary slub list (R150): array row, effective column of the pass, OL16 value, and its parity. -/
structure SlubEnt where
  k : Nat
  n : Nat
  code : BitVec 16
  par : Bool := false
  deriving DecidableEq, Repr

/-- What the core feeder counts on one line of an operand (R181, R190): saturations, flushes, non-zero source elements,
elements converted or spun, the largest log of a line converted to OL8, invalid results, and slub overflows. -/
structure LineCounts where
  sat : Nat := 0
  flush : Nat := 0
  nonz : Nat := 0
  conv : Nat := 0
  maxL : Option Int := none
  invalid : Nat := 0
  ovf : Nat := 0
  deriving DecidableEq, Repr

/-- One line of a staging copy in the core store, or of a replay allocation (R151, R153, R193): part of one streamed row or
stationary column in the format it is used in. A whole-byte format holds codes, none for a position that padding makes
zero (R224); a skein format holds blocks, each with its expected index (R83). -/
structure Staged where
  stationary : Bool
  line : Nat
  k0 : Nat
  n : Nat
  fmt : Fmt
  z : Int := 0
  codes : List (Option Nat) := []
  blocks : List (Nat × List Byte) := []
  counts : LineCounts := {}
  deriving DecidableEq, Repr

/-- A loaded slice (R149–R151): pass and slice, the stationary format and whether cells hold two elements (R109), the
entries of each array row by physical column, each physical column's two scale registers and slub list, and each
effective column's zero points and raw sums of its two groups of 96 rows (R165). -/
structure Buf where
  pass : Nat
  slice : Nat
  fmt : Fmt
  split : Bool := false
  rows : List (List Entry) := []
  scales : List (ScaleReg × ScaleReg) := []
  slubs : List (List SlubEnt) := []
  zps : List (Int × Int) := []
  zsums : List (Dy × Dy) := []
  /-- the checksum-column entries C[k] (R161) -/
  csum : List WAcc := []
  /-- what feeding the slice counted, where this pass counts it -/
  tally : Tally := {}
  sat : Nat := 0
  flush : Nat := 0
  nonz : Nat := 0
  slubOvf : Bool := false
  deriving DecidableEq, Repr

/-- What one column has contributed in the chunk (R162). -/
structure ColSum where
  sum : WAcc := {}
  sigma : Option Int := none
  deriving DecidableEq, Repr

/-- A captured invalid product (R113). -/
structure InvCap where
  path : Nat
  tile : Nat
  m : Nat
  k : Nat
  n : Nat
  deriving DecidableEq, Repr

/-- A chunk that streams or whose checksum-row pass is due (R146, R157–R162). -/
structure Chunk where
  buf : Buf
  /-- rows of the span in this pass, and the next to stream -/
  m0 : Nat
  rows : Nat
  next : Nat := 0
  /-- quarter-step times at which each array row placed its last element (R157) -/
  placed : List Nat := []
  /-- quarter-step times of the last eight joins, latest first -/
  joins : List Nat := []
  /-- quarter-step time at which the slub lanes finished (R159) -/
  lane : Nat := 0
  cols : List ColSum := []
  /-- the checksum row R[k] (R162) -/
  rowSum : List WAcc := []
  tally : Tally := {}
  cap : Option InvCap := none
  deriving DecidableEq, Repr

/-- Where a tile's attempt stands beyond its chunks (R171, R193). -/
inductive TilePhase where
  | running        -- slices are loaded and streamed
  | respinWait     -- a re-spin request is on its way to the die agent
  | staging        -- the core feeder fills the replay allocation
  deriving DecidableEq, Repr

/-- A numeric check's outcome (R190): scale off, range clip, slub overflow. -/
structure Checks where
  scale : Bool := false
  clip : Bool := false
  slub : Bool := false
  deriving DecidableEq, Repr

/-- A tile in progress, pre-empted, or draining. -/
structure TileRun where
  op : Nat
  tile : Nat
  rung : Nat
  phase : TilePhase := .running
  refreshed : Bool := false
  respun : Bool := false
  /-- refreshed feed biases of this tile (R195) -/
  bbX : Option Int := none
  bbW : Option Int := none
  faultRetry : Bool := false
  misRetry : Bool := false
  /-- bytes of its replay allocation (R194) -/
  replay : Nat := 0
  /-- next pass and slice to load, and to stream -/
  loadPass : Nat := 0
  loadSlice : Nat := 0
  bufs : List Buf := []
  cur : Option Chunk := none
  sealing : Option Chunk := none
  /-- sealed chunks of this attempt, and the next slice to run (R178) -/
  sealed : Nat := 0
  nextSlice : Nat := 0
  /-- its staging copies, or what its replay allocation holds (R153, R193) -/
  staged : List Staged := []
  /-- its bank has been spilled to hearth memory (R174), and its place among its core's held banks -/
  spilled : Bool := false
  order : Nat := 0
  bank : Tab WAcc := []
  /-- the rescale entries of its columns (R168), read when the first chunk starts -/
  rescale : List (Nat × Nat) := []
  /-- feed counts of the tile (R190): saturations, flushes and non-zero elements of each side -/
  satX : Nat := 0
  satW : Nat := 0
  flushX : Nat := 0
  flushW : Nat := 0
  nonzX : Nat := 0
  nonzW : Nat := 0
  slubOvf : Bool := false
  /-- deltas of the last chunk, which seals with the numeric checks (R172) -/
  lastTally : Tally := {}
  lastCap : Option InvCap := none
  /-- the output buffer: destination index and code (R171), and the deltas of R183 -/
  out : Option (List (Nat × Nat)) := none
  outTally : Tally := {}
  failed : Checks := {}
  /-- the target rung of a re-spin asked for (R193), and whether it is a scale refresh -/
  target : Nat := 0
  refresh : Bool := false
  deriving DecidableEq, Repr

/-- An engine (R146–R178). -/
structure Engine where
  todo : List (Nat × Nat) := []
  /-- tiles that restart here after another engine was retired or quenched (R376, R461) -/
  restarts : List TileRun := []
  cur : Option TileRun := none
  drains : List TileRun := []
  saved : List TileRun := []
  preempt : Bool := false
  capHold : Bool := false
  heatHold : Bool := false
  haltHold : Bool := false
  hubHold : Bool := false
  fenced : Bool := false
  retired : Bool := false
  faults : Nat := 0
  /-- tiles since the last proof test (R377) -/
  tiles : Nat := 0
  /-- chunks sealed and drag in quarter steps since module reset (R502) -/
  seals : Nat := 0
  drag : Nat := 0
  invCap : Option InvCap := none
  invOp : Option Nat := none
  invSticky : Bool := false
  /-- the operation tag the captured product belongs to (R527) -/
  invTag : Nat := 0
  deriving DecidableEq, Repr

/-! ### Sequencers -/

/-- What a sequencer waits for. -/
inductive SeqWait where
  | none
  | fetch (atom : Nat)
  | load (dst : Nat)
  | store
  | ladr (dst : Nat)
  | knot (knot target : Nat)
  /-- operations waited for, whether FN[0] is 1, and the destination register -/
  | seal (tags : List Nat) (all : Bool) (dst : Nat)
  deriving DecidableEq, Repr

/-- A status word kept by a sequencer (R226, R228): its low 13 bits. -/
structure TagSt where
  tag : Nat
  status : Nat := 0
  inFlight : Bool := true
  deriving DecidableEq, Repr

/-- A knot update withheld by a hold (R237), and the unit that sends it (R229). -/
structure KnotUpd where
  src : Nat
  die : Nat
  knot : Nat
  bcast : Bool
  val : Nat
  deriving DecidableEq, Repr

/-- A strand: what a sequencer holds of it, and what a save record holds of it (R206, R239). -/
structure Strand where
  pc : Word := 0
  regs : Tab Word := []
  job : Nat := 0
  queue : Nat := 0
  entry : Nat := 0
  evtSrc : Nat := 0x1000
  energySlot : Nat := 0
  nextTag : Nat := 1
  tags : List TagSt := []
  wait : SeqWait := .none
  /-- cause of a hold (R237) as R413 codes it: 0 an operation's code, 1 an ash tie -/
  hold : Option Nat := none
  /-- the strand has stopped before a knot instruction -/
  stopped : Bool := false
  stormStop : Bool := false
  withheld : List KnotUpd := []
  /-- budget windows it has stood in its WAIT or SEALW (R403) -/
  waited : Nat := 0
  /-- 64-atom instruction buffer, most recent first: atom address and bytes (R207) -/
  ibuf : List (Nat × List Byte) := []
  deriving DecidableEq, Repr

/-- A sequencer (R205): its strand, if one runs, and the epoch of its unit (R458). -/
structure Seqr where
  strand : Option Strand := none
  epoch : Nat := 0
  /-- the number of its last request, which its reply carries as the outstanding-request index of R458 -/
  reqNo : Nat := 0
  /-- the code that its last YIELD with `FN` 2 carried (R210, R213) -/
  yieldCode : Nat := 0
  /-- clusters and cores in reset: the sequencer takes no strand -/
  fenced : Bool := false
  deriving DecidableEq, Repr

/-- A saved strand (R239): the sequencer it belongs to and its save record. -/
structure Saved where
  seq : Nat
  record : Nat
  strand : Strand
  /-- operations that have completed since the save: tag and status, oldest first -/
  completed : List (Nat × Nat) := []
  /-- budget windows since the save, and its place in the order of becoming ready (R239, R402) -/
  age : Nat := 0
  stamp : Nat := 0
  deriving DecidableEq, Repr

/-- The storm (R196–R198). -/
inductive StormHold where
  | none | record | host
  deriving DecidableEq, Repr

/-- Storm state of the ladder controller: whether declared, the policy read then, what the hold waits
for, and whether updates are discarded. -/
structure Storm where
  active : Bool := false
  job : Nat := 0
  hold : StormHold := .none
  discard : Bool := false
  policy : Nat := 0
  /-- cores that have received the declaration (R197), rising; hearth h as 256 + h -/
  told : List Nat := []
  deriving DecidableEq, Repr

/-- A report on its way to the ladder controller (R193, R196): job, slot, and whether the replay
allocation did not fit. -/
structure Report where
  job : Nat
  slot : Nat
  noFit : Bool
  deriving DecidableEq, Repr

/-- What a tile's attempt has committed to a tally and takes back if it is discarded (R173, R183). -/
structure Held where
  op : Nat
  tile : Nat
  rcd : Tally
  deriving DecidableEq, Repr

/-- A tally line of a core, or a record of a die tally table (R184). -/
structure TLine where
  job : Nat
  slot : Nat
  rcd : Tally
  held : List Held := []
  deriving DecidableEq, Repr

end Sys2Proof.Machine
end

