-- ==== Sys2Proof/Machine/QueueTypes.lean ====
section
/-!
DEFINITION. The data of work queues: job descriptors (R219), queue contexts (R250), entries (R254), work
items (R255) and the host interface registers (R246–R260).
-/

namespace Sys2Proof.Machine

/-- A job descriptor (R219). -/
structure JobDesc where
  slotTable : Nat := 0
  slotCount : Nat := 0
  knotBase : Nat := 0
  knotCount : Nat := 0
  stepKnot : Nat := 0
  stepTies : Nat := 0
  rungKnot : Nat := 0
  saveBase : Nat := 0
  saveCount : Nat := 0
  groupCount : Nat := 0
  groupTable : Nat := 0
  deriving DecidableEq, Repr

/-- R219: the descriptor in 64 bytes. -/
def JobDesc.parse (b : List Byte) : JobDesc :=
  { slotTable := leField b 0 8, slotCount := leField b 8 4, knotBase := leField b 12 2
    knotCount := leField b 14 2, stepKnot := leField b 16 2, stepTies := leField b 18 2
    rungKnot := leField b 20 2, saveBase := leField b 24 8, saveCount := leField b 32 2
    groupCount := leField b 36 4, groupTable := leField b 40 8 }

/-- The descriptor keeps the ranges, alignments and reserved fields of R219. -/
def JobDesc.valid (b : List Byte) : Bool :=
  let d := JobDesc.parse b
  decide (d.slotTable % 64 = 0) && decide (1 ≤ d.slotCount) && decide (d.slotCount ≤ 65536)
    && decide (d.knotBase ≤ 4095) && decide (d.knotBase + d.knotCount ≤ 4096)
    && decide (1 ≤ d.stepTies) && decide (leField b 22 2 = 0) && decide (d.saveBase % 512 = 0)
    && decide (leField b 34 2 = 0) && decide (leField b 48 16 = 0)

/-- A job that has started: its descriptor's content and what the hub keeps of it. -/
structure Job where
  desc : JobDesc := {}
  /-- slots named since the job started, rising (R189) -/
  active : List Nat := []
  /-- training steps ended -/
  step : Nat := 0
  /-- slots of the updates completed in this training step, rising (R197) -/
  updated : List Nat := []
  /-- slots that asked for a re-spin in this training step, rising (R196) -/
  respun : List Nat := []
  /-- record sequence at the start of the training step (R527); none before the first slot is named -/
  stepSeq : Option Nat := none
  /-- the active slot count that a restore has reinstated (R355) -/
  activeBase : Nat := 0
  deriving DecidableEq, Repr

/-- The ladder controller's count of active slots (R189, R355). -/
def Job.activeCount (j : Job) : Nat := max j.activeBase j.active.length

/-- A queue context (R250). `reserved` says a reserved bit of it is set. -/
structure QCtx where
  ringBase : Nat := 0
  complBase : Nat := 0
  job : Nat := 0
  ringLog2 : Nat := 0
  state : Nat := 0
  ringDev : Bool := false
  complDev : Bool := false
  class2 : Bool := false
  pi : Nat := 0
  ci : Nat := 0
  done : Nat := 0
  evtSrc : Nat := 0
  weight : Nat := 0
  errCode : Nat := 0
  errEntry : Nat := 0
  epoch : Nat := 0
  reserved : Bool := false
  deriving DecidableEq, Repr

/-- R250: the context in 64 bytes. -/
def QCtx.parse (b : List Byte) : QCtx :=
  { ringBase := leField b 0 8, complBase := leField b 8 8, job := leField b 16 8
    ringLog2 := leField b 24 1 % 16, state := leField b 25 1
    ringDev := bitOf (leField b 26 1) 0, complDev := bitOf (leField b 26 1) 1, class2 := bitOf (leField b 26 1) 2
    pi := leField b 28 2, ci := leField b 30 2, done := leField b 32 2, evtSrc := leField b 34 2
    weight := leField b 36 2, errCode := leField b 38 2, errEntry := leField b 40 2, epoch := leField b 42 2
    reserved := decide (leField b 24 1 ≥ 16) || decide (leField b 26 1 ≥ 8) || decide (leField b 27 1 ≠ 0)
      || decide (leField b 44 20 ≠ 0) }

/-- Where an entry of a queue stands (R255). -/
inductive EntPhase where
  | fetched
  | started
  | done
  deriving DecidableEq, Repr

/-- A fetched entry: its index, bytes and phase; a COPY's bytes written; knot updates still to be applied
and whether one was answered with an ash completion. -/
structure QEnt where
  idx : Nat
  bytes : List Byte
  phase : EntPhase := .fetched
  sent : Bool := false
  ashed : Bool := false
  deriving DecidableEq, Repr

/-- A work item (R255): a started STRAND entry in the draught scheduler's ready list, with its age in
budget windows and its energy estimate's slot. -/
structure WorkItem where
  queue : Nat
  entry : Nat
  weight : Nat
  skind : Nat
  place : Nat
  any : Bool
  energySlot : Nat
  program : Nat
  args : List Nat
  job : Nat
  evtSrc : Nat
  age : Nat := 0
  /-- its place in the order of becoming ready -/
  stamp : Nat := 0
  deriving DecidableEq, Repr

/-- A BAR0 write that waits for BAR2 writes which arrived before it (R248): a doorbell, or a command: whether of
strands, its code, entry and queue. -/
inductive Bar0Act where
  | doorbell (v : Nat)
  | command (strand : Bool) (cmd entry queue : Nat)
  deriving DecidableEq, Repr

/-- The completion of an entry that waits because its queue's context cannot be read yet (R256, R288): queue, index, end
code, `INFO` and `ERROR`. -/
structure Owed where
  queue : Nat
  idx : Nat
  code : Nat
  info : Nat
  error : Nat
  deriving DecidableEq, Repr

/-- The queue engine and the host function (R242–R260). -/
structure QSys where
  /-- cached contexts, most recently used first (R251) -/
  cache : List (Nat × QCtx) := []
  /-- fetched entries by queue, oldest first -/
  ents : Tab (List QEnt) := []
  /-- completions that wait for their queue's context, oldest first -/
  owed : List Owed := []
  /-- ready work items, oldest first (R255) -/
  ready : List WorkItem := []
  /-- work items started per queue since ENABLE from DISABLED (R402) -/
  started : Tab Nat := []
  /-- the next item's place in the order of becoming ready (R402) -/
  stamp : Nat := 0
  /-- queues ENABLED or in ERROR in this host epoch, rising (R339, R341) -/
  live : List Nat := []
  /-- doorbells accepted since module reset (R502) -/
  doorbells : Nat := 0
  /-- `HIF_CMD_RESULT` (R260) -/
  cmdResult : Nat := 0
  /-- `HIF_WIN_BASE` and the present BAR2 size exponent (R249) -/
  winBase : Nat := 0
  bar2Log2 : Nat := 28
  /-- `BAR2_INIT_LOG2` as it stood at the last start (R265) -/
  bar2Init : Nat := 28
  /-- the link has been lost with its clock and not trained since (R54) -/
  linkLost : Bool := false
  /-- the host epoch (R258) -/
  hostEpoch : Nat := 1
  linkDegraded : Bool := false
  /-- the link's rate and width as trained (R242) -/
  linkRate : Nat := 0
  linkWidth : Nat := 0
  /-- BAR0 writes that wait for BAR2 writes (R248) -/
  late : List Bar0Act := []
  qeReady : Bool := false
  memReady : Bool := false
  /-- PERST# asserted or link in reset (R462) -/
  perst : Bool := false
  deriving DecidableEq, Repr

end Sys2Proof.Machine
end

