-- ==== Sys2Proof/Machine/PowerTypes.lean ====
section
/-!
DEFINITION. The data of power, heat and resets: cluster conditions (R394), the module's power state
(R397), the scheduler's targets (R391), quenched units (R459) and start-up (R464).
-/

namespace Sys2Proof.Machine

/-- Why a cluster is damped (R395). -/
inductive Damp where
  | none
  | idle
  | hold
  deriving DecidableEq, Repr

/-- A cluster's condition (R394, R398): off, held for the cap or for heat, damped, marked for turning off
(R393), tripped, its power in the last window in units of 0.1 W, and what R392 keeps of a hold: the
windows it lasted, the power and the level when it began. -/
structure ClusterPw where
  off : Bool := false
  capHold : Bool := false
  heatHold : Bool := false
  damp : Damp := .none
  marked : Bool := false
  tripped : Bool := false
  power : Nat := 0
  heldFor : Nat := 0
  heldPower : Nat := 0
  heldLevel : Nat := 0
  deriving DecidableEq, Repr

/-- A fraction, not reduced. -/
structure Frac where
  num : Nat := 0
  den : Nat := 1
  deriving DecidableEq, Repr

/-- Power states of the module (R394). -/
inductive ModulePower where
  | run
  | smoulder
  | banked
  | off
  deriving DecidableEq, Repr

/-- Power, heat and the draught scheduler. -/
structure PwSys where
  module : ModulePower := .run
  clusters : Tab ClusterPw := []
  /-- hearths with a hard-cap hold (R176), a mask -/
  hearthHold : Nat := 0
  /-- the cap target and the thermal targets in mV (R391) -/
  vc : Nat := 650
  vt : Tab Nat := []
  /-- `POWER_CAP` of the present budget window, in W: a change of the entry applies from the next -/
  capW : Nat := 2700
  /-- estimates of the work items started since the last window ended, in W (R402) -/
  committed : Frac := {}
  /-- windows in which the cap could not be met since the last cap-unmet event (R393) -/
  unmetFor : Nat := 0
  /-- feeds: the magnitude last read, 10 mV units, A then B (R385) -/
  feedA : Nat := 0
  feedB : Nat := 0
  /-- draws: bit 0 from A, bit 1 from B (R385) -/
  feedDraw : Nat := 0
  coolantHot : Bool := false
  deriving DecidableEq, Repr

end Sys2Proof.Machine
end

