-- ==== Sys2Proof/Machine/CordTypes.lean ====
section
/-!
DEFINITION. The data of the Cord: peers, paths, channels, frames waiting or unacknowledged, and posted
collectives (chapter "Cord scale-out and collectives").
-/

namespace Sys2Proof.Machine

/-- A record of the peer table (R314). -/
structure Peer where
  mac : Nat := 0
  portMask : Nat := 0
  valid : Bool := false
  moduleId : Nat := 0
  deriving DecidableEq, Repr

/-- Where a frame's payload comes from; a retransmission reads it again (R319). -/
inductive TxSrc where
  /-- no payload -/
  | none
  /-- elements lo to lo + n − 1 of a tensor, in logical order, for a requester with the home given -/
  | elems (x : Tensor) (home : Option Nat) (lo n : Nat)
  /-- bytes of device memory, for a requester with the home given -/
  | mem (home : Option Nat) (addr n : Nat)
  /-- granules of a frozen page: page, first granule, granules -/
  | page (page j n : Nat)
  /-- bytes at a physical address, within one channel -/
  | phys (addr n : Nat)
  /-- bytes formed by the hub -/
  | lit (b : List Byte)
  deriving DecidableEq, Repr

/-- A frame to send (R311): type and header fields, and its payload's source. -/
structure TxFrame where
  type : Nat
  seq : Nat := 0
  job : Nat := 0
  srcRank : Nat := 0xFFFF
  dstRank : Nat := 0xFFFF
  group : Nat := 0xFFFF
  arg : Nat := 0
  elem : Nat := 0
  code : Nat := 0
  coll : Nat := 0
  /-- a collective's posting number; none for the frames of no collective -/
  post : Option Nat := none
  /-- the stream a PAGE frame belongs to, a freeze's (0) or that of holder slot A (1) or B (2), and its slot index -/
  slot : Option (Nat × Nat) := none
  src : TxSrc := .none
  deriving DecidableEq, Repr

/-- A channel of a path (R318–R321): the sender's next sequence, frames waiting and unacknowledged, and
its counted go-backs; the receiver's expected sequence and frames applied since the last ACK. -/
structure Chan where
  nextSeq : Nat := 1
  queue : List TxFrame := []
  unacked : List TxFrame := []
  goBacks : Nat := 0
  /-- the sequence to resend from after a NAK BUSY or NOT_POSTED, or once its source can be read (R319, R321) -/
  rnr : Option Nat := none
  expected : Nat := 1
  owed : Nat := 0
  /-- a NAK GAP has been sent and the expected frame has not arrived (R320) -/
  gapSent : Bool := false
  deriving DecidableEq, Repr

/-- A posted collective (R327). -/
structure Coll where
  /-- its posting number -/
  post : Nat
  /-- the operation it carries out, and that operation's requester home (R526) -/
  op : Nat
  home : Option Nat := none
  job : Nat
  jobId : Nat
  group : Nat
  coll : Nat
  gather : Bool
  chan : Nat
  members : Nat
  myRank : Nat
  /-- peer index of each rank; 0xFFFF at this module's own -/
  peers : List Nat
  /-- live ports of each rank when it was posted (R316) -/
  ports : List Nat
  x : Tensor
  /-- base of the whole tensor of a GATHER_ALL -/
  yBase : Nat := 0
  /-- accumulator of the shard's element 0 -/
  accBase : Nat := 0
  /-- elements of a shard (RED_SCATTER) or bytes of one (GATHER_ALL) -/
  shard : Nat := 0
  /-- elements or bytes of the module's own shard already sent or copied (R324, R326) -/
  ownNext : Nat := 0
  /-- owners still to be served, the one in turn first; whether its frames have been queued -/
  owners : List Nat := []
  queued : Bool := false
  /-- elements or bytes applied from each rank -/
  got : Tab Nat := []
  /-- the reason of an abort (R330) -/
  aborted : Option Nat := none
  deriving DecidableEq, Repr

/-- The Cord (R309–R334). -/
structure CordSys where
  started : Bool := false
  peers : List Peer := []
  /-- paths up, keys peer × 8 + port, rising (R315) -/
  up : List Nat := []
  /-- session last seen from each peer, and every one before it (R317) -/
  peerSess : Tab Nat := []
  oldSess : Tab (List Nat) := []
  /-- channels, key (peer × 8 + port) × 16 + channel -/
  chans : Tab Chan := []
  /-- frames of no collective whose source could not be read again, for their stream to answer (R344, R357) -/
  broken : List TxFrame := []
  posted : List Coll := []
  /-- the next posting number -/
  nextPost : Nat := 1
  /-- a heat-hold notice stands at the peers (R331) -/
  heatSent : Bool := false
  /-- peers whose hold notice stands, rising -/
  peerHeat : List Nat := []
  /-- frames sent, received and resent by port (R502) -/
  portTx : Tab Nat := []
  portRx : Tab Nat := []
  portRetx : Tab Nat := []
  deriving DecidableEq, Repr

end Sys2Proof.Machine
end

