-- ==== Sys2Proof/Machine/CheckTypes.lean ====
section
/-!
DEFINITION. The data of freezes, holders and restores (chapter "Checkpoint, partners and recovery") and of marker
waves and debug banks (chapter "Snapshot and debug").
-/

namespace Sys2Proof.Machine

/-- Where a frozen page stands (R342, R343). -/
inductive PagePhase where
  /-- protected: its content is still in place -/
  | prot
  /-- a first-touch copy is under way -/
  | copying
  /-- moved to the head of its stream, a write waits for the send -/
  | urgent
  /-- copied into the first-touch pool -/
  | copied
  deriving DecidableEq, Repr

/-- A frozen page: its granule mask (R338), phase, and its masked granules once copied. -/
structure PageSt where
  mask : Nat
  phase : PagePhase := .prot
  copy : List Byte := []
  deriving DecidableEq, Repr

/-- A freeze in progress (R339–R344): its generation, training step and job; whether the cut is complete; the
freeze set; the frozen pages with their masks, rising, page i of the list in slot i + 1; holders; what the
units held when they latched; and the digest list's entries by slot. -/
structure Freeze where
  gen : Nat
  step : Nat
  job : Nat
  stream : Bool := false
  set : List Byte := []
  pages : List (Nat × Nat) := []
  partner : Option Nat := none
  host : Nat := 0
  hostBase : Nat := 0
  knots : Tab Nat := []
  gens : Tab Gen := []
  seqs : Tab (List Byte) := []
  ctxs : List (Nat × List Byte) := []
  recSeq : Nat := 0
  entries : Tab (List Byte) := []
  /-- the wave has ended, and the schedule page is still to be assembled (R340) -/
  cutDone : Bool := false
  /-- a queue context that the cut takes could not be read -/
  unread : Bool := false
  /-- the digest list and FREEZE_END have been sent -/
  ended : Bool := false
  deriving DecidableEq, Repr

/-- A holder slot beyond its state and generation (R345, R346): the peer it receives from, the slot count
announced, the digest-list entries received, the granules written by frame, the target it serves, and the requests
that wait: peer and first slot index. -/
structure Holder where
  peer : Nat := 0
  count : Nat := 0
  list : Tab (List Byte) := []
  got : Tab Nat := []
  serving : Option Nat := none
  waiting : List (Nat × Nat) := []
  deriving DecidableEq, Repr

/-- A restore in FILL or VERIFY (R351–R355). -/
structure Restore where
  source : Nat
  replica : Nat
  origin : Nat
  gen : Nat
  /-- digest-list entries received from the source and the replica, by slot, and the count and list digest that
  close each list -/
  srcList : Tab (List Byte) := []
  repList : Tab (List Byte) := []
  srcEnd : Option (Nat × Nat) := none
  repEnd : Option (Nat × Nat) := none
  /-- the lists agree and pages are fetched -/
  filling : Bool := false
  /-- the next slot to fill, the granules received of slots not yet filled, and slots fetched a second time -/
  next : Nat := 0
  buf : Tab (Tab (List Byte)) := []
  again : List Nat := []
  /-- the verified schedule page -/
  sched : List Byte := []
  /-- freeze-set entries whose SPIN is still to issue, and operations issued for SPINs -/
  spins : List Nat := []
  spinOps : List Nat := []
  deriving DecidableEq, Repr

/-- Freezes, holders and restores. -/
structure CkSys where
  pages : Tab (Option PageSt) := []
  /-- issues wait while a freeze's cut is taken (R340) -/
  issueHold : Bool := false
  fz : Option Freeze := none
  /-- a job at whose boundary a freeze is due and whose freeze set must wait to be read (R339) -/
  due : Option Nat := none
  /-- `FREEZE_NOW` has been written, and the jobs that have had a boundary since (R339) -/
  now : Bool := false
  nowPast : List Nat := []
  /-- the pair with the holder, and the pair with the module held for, share a feed (R349) -/
  corrHolder : Bool := false
  corrOf : Bool := false
  /-- the slot size of the paired partner (R349) -/
  partnerSlots : Nat := 0
  /-- digest lists of the last two complete generations, latest first (R342, R345) -/
  own : List (Nat × List Byte) := []
  slotA : Holder := {}
  slotB : Holder := {}
  rs : Option Restore := none
  deriving DecidableEq, Repr

/-- A marker wave (R495–R500): a freeze cut or a debug cut, its number, the blocks that owe a latch, the blocks that
have latched and whose acknowledgement is on its way (with whether it is null), the null blocks counted, and the
cross-module identity: number and originator. -/
structure Cut where
  freeze : Bool
  number : Nat
  owed : List Nat
  acks : List (Nat × Bool) := []
  nulls : Nat := 0
  xnum : Nat := 0
  xorigin : Nat := 0
  deriving DecidableEq, Repr

/-- Snapshots (R495–R506). A block's key is unit kind × 4,096 + unit. -/
structure SnapSys where
  cut : Option Cut := none
  /-- debug banks: header and words (R502) -/
  banks : Tab (List Nat) := []
  /-- a freeze waits for the running wave or a halt (R499, R501) -/
  freezeWaits : Bool := false
  /-- `SNAP_OUT` is high (R500) -/
  outHigh : Bool := false
  /-- the cut's holds, on engines and hearths (hearth h as 1,024 + h), rising (R501) -/
  held : List Nat := []
  /-- identities of the cross-module cuts joined last, latest first: originator and number (R503) -/
  joined : List (Nat × Nat) := []
  /-- channels whose count is closed in the cut joined last, keys of `CordSys.chans`, and frames received after
  launch and before the channel's marker, key port × 16 + channel (R502, R503) -/
  closed : List Nat := []
  xcount : Tab Nat := []
  deriving DecidableEq, Repr

end Sys2Proof.Machine
end

