-- ==== Sys2Proof/Machine/SecTypes.lean ====
section
/-!
DEFINITION. The data of flash, the dictionary's two paths, and security (chapters "Dictionary", "Resets",
"Security").
-/

namespace Sys2Proof.Machine

/-- A copy of the persistent image in flash (R444): its generation, and its records by key, rising. -/
structure DictImage where
  gen : Nat
  recs : Tab Nat
  deriving DecidableEq, Repr

/-- A hub image in a flash slot (R468, R474): its data by 1,024-byte block, its version, security version and body
digest once known. -/
structure FwImage where
  data : Tab (List Byte) := []
  version : List Byte := []
  svn : Nat := 0
  digest : Nat := 0
  deriving DecidableEq, Repr

/-- What flash keeps over every reset. -/
structure FlashSys where
  copyA : Option DictImage := none
  copyB : Option DictImage := none
  /-- commits over the module's life, in the identity block's wear record (R454) -/
  commits : Nat := 0
  /-- map-out bits set by run-time fences and not cleared by the host since, per stack (R286) -/
  mapout : Tab Nat := []
  /-- the staged slot's state as `FW_STAGE_STATE` codes it (R472), its image, and the active slot's; none is the
  image the unit was delivered with -/
  fwState : Nat := 0
  staged : FwImage := {}
  active : Option FwImage := none
  /-- helper data and key store are present; a chain has been installed (R482) -/
  helper : Bool := false
  enrolled : Bool := false
  /-- certificate chains, key object × 64 + block (R482) -/
  chains : Tab (List Byte) := []
  /-- the session drawn last (R317) -/
  lastSession : Nat := 0
  openMarker : Bool := false
  openCount : Nat := 0
  deriving DecidableEq, Repr

/-- A response kept for a resent request (R437). -/
structure KeptResp where
  src : Nat
  port : Nat
  reqId : Nat
  resp : List Byte
  deriving DecidableEq, Repr

/-- A commit under way (R448): the copy it writes (1 A, 2 B), its generation and its records. -/
structure Commit where
  target : Nat
  gen : Nat
  recs : Tab Nat
  deriving DecidableEq, Repr

/-- The dictionary's paths and image (R431–R454). -/
structure DictSys where
  /-- the mailbox: a request being served, the request, the response held and its `DONE`, and whether a host reset
  has hidden the response to come (R442, R452) -/
  mbxBusy : Bool := false
  mbxReq : List Byte := []
  mbxDone : Bool := false
  mbxResp : List Byte := []
  mbxQuiet : Bool := false
  /-- responses to the last 16 requests of the field network, latest first -/
  kept : List KeptResp := []
  /-- DISCOVER answers that wait for their delay: address, port, `REQ_ID` (R438) -/
  discover : List (Nat × Nat × Nat) := []
  commit : Option Commit := none
  /-- the P values that the loaded or last committed image holds (R428) -/
  base : Tab Nat := []
  /-- written values that wait for the next module reset to act (R451) -/
  written : Tab (Option Nat) := []
  /-- the stage at which start-up resumes after the hold state (R449) -/
  holdAt : Nat := 3
  /-- Duplicate Address Detection runs (R436) -/
  dad : Bool := false
  /-- PLCA settings in force since the port started (R454) -/
  plcaNodes : Nat := 8
  plcaTimer : Nat := 32
  deriving DecidableEq, Repr

/-- An SPDM response (R484–R487), by its content. -/
inductive SpdmResp where
  | version (v : Nat)
  | capabilities (ctExponent : Nat) (cert chal measSig : Bool)
  | algorithms
  | digests (chain : Nat)
  | certificate (portion : List Byte) (remainder : Nat)
  | challengeAuth (nonce signature : Nat)
  | measurements (blocks : List Byte) (nonce : Nat) (signature : Option Nat)
  | pqSignature (signature : Nat)
  | pqChain (portion : List Byte)
  /-- ERROR UnexpectedRequest -/
  | unexpected
  deriving DecidableEq, Repr

/-- Signed work of the security block, and staged-image verification (R486). -/
inductive SecWork where
  | report
  | challenge
  | signedMeas (blocks : List Byte)
  /-- a GET_PQ_SIGNATURE that came while random output waited for a reseed (R481) -/
  | pqSignature
  | verify
  deriving DecidableEq, Repr

/-- The security block (R473–R494). -/
structure SecSys where
  /-- key slots KS0–KS4; 0 is zeroised -/
  ks : Tab Nat := []
  /-- requests for random output since the last reseed, and the session or signed work that waits for one (R481) -/
  drbg : Nat := 0
  cordWaits : Bool := false
  nonce : List Byte := []
  report : List Byte := []
  work : List SecWork := []
  /-- how far the SPDM connection has come: 1 VERSION, 2 CAPABILITIES, 3 ALGORITHMS -/
  spdm : Nat := 0
  /-- the last request was answered with a signed response, and GET_PQ_SIGNATURE may follow (R485) -/
  pqNext : Bool := false
  /-- certificate requests built, and chains written while ENROLLING: key object × 64 + block (R482) -/
  certReqs : Tab Nat := []
  chainBuf : Tab (List Byte) := []
  /-- ENROL GENERATE runs -/
  enrolBusy : Bool := false
  /-- a new image runs and has not entered stage 1 (R468) -/
  trial : Bool := false
  /-- the image of the other slot verified when the new one was started -/
  earlierOk : Bool := false
  /-- the image of the staged slot runs, since the active one did not verify (R477) -/
  runStaged : Bool := false
  deriving DecidableEq, Repr

end Sys2Proof.Machine
end

