-- ==== Sys2Proof/Machine/State.lean ====
section
/-!
DEFINITION. The state of the module.
-/

namespace Sys2Proof.Machine

/-- An error that the function logs and reports by Advanced Error Reporting (R264). -/
inductive Aer where
  | poisonedTlp
  | completionTimeout
  /-- Unsupported Request, Advisory Non-Fatal -/
  | unsupportedRequest
  /-- Uncorrectable Internal Error -/
  | internalError
  deriving DecidableEq, Repr

/-- A message that leaves the module. -/
inductive OutMsg where
  /-- a posted write towards the host: address and bytes -/
  | hostWrite (addr : Nat) (data : List Byte)
  /-- an MSI-X message of a vector, with the address and data of its table entry (R245, R412) -/
  | msix (vector addr data : Nat)
  /-- an Advanced Error Reporting message (R264) -/
  | aer (e : Aer)
  /-- a Cord frame sent on a port to a peer (R311): type and fields -/
  | cord (peer port type : Nat) (f : CordFrame)
  /-- the internal interrupt of a management core or die agent (R412) -/
  | internalIrq (target : Nat)
  /-- a PCIe completion: data, Unsupported Request (1) or poisoned (2) (R248) -/
  | completion (status : Nat) (data : List Byte)
  /-- a UDP datagram of the field network: address and port it goes to (R437) -/
  | udp (dst port : Nat) (data : List Byte)
  /-- a Neighbor Solicitation of Duplicate Address Detection, a Neighbor Advertisement and an Echo Reply (R436) -/
  | neighborProbe
  | neighborAdvert (dst : Nat)
  | echoReply (dst : Nat) (data : List Byte)
  /-- an SPDM response in the DOE mailbox (R484) -/
  | spdm (r : SpdmResp)
  deriving DecidableEq, Repr

/-- A quench in progress (R459): the unit's kind (1 core, 3 die, 5 cluster) and number, whether it is a command's, whether
the unit has received the message and has acknowledged, and the hearths that still owe the notice. -/
structure Quench where
  kind : Nat
  unit : Nat
  cmd : Bool
  begun : Bool := false
  acked : Bool := false
  owed : List Nat := List.range 20
  deriving DecidableEq, Repr

/-- Registers of the function's capabilities (R243): Max_Payload_Size and Max_Read_Request_Size in bytes, the Completion
Timeout value field and its disable bit, and the AER status registers (log 120). -/
structure PcieFn where
  mps : Nat := 128
  mrrs : Nat := 512
  ctoValue : Nat := 0
  ctoDisable : Bool := false
  aerUncorrectable : Nat := 0
  aerCorrectable : Nat := 0
  deriving DecidableEq, Repr

/-- The class code of the function, a processing accelerator (R242). -/
def pcieClassCode : Nat := 0x120000

/-- The serial number that the Device Serial Number capability gives (R242, R243). -/
def pcieSerialNumber : Nat := Config.serialNumber.toNat

/-- Resets (R456–R463). -/
structure RstSys where
  /-- `MRST_N` is asserted -/
  mrst : Bool := false
  /-- module Off after a power fail (R388) -/
  off : Bool := false
  quenches : List Quench := []
  /-- host resets and FLRs since module reset, which raise every requester's epoch (R462) -/
  epochs : Nat := 0
  /-- dies whose tallies a reset has cleared since the last boundary, a mask (R463) -/
  tallyLost : Nat := 0
  /-- dies whose mesh is fenced by a die reset or which are not up (R463), a mask -/
  dieFence : Nat := 0
  /-- die links down, a mask in the order of R20 (R54) -/
  linkDown : Nat := 0
  /-- flits resent per die link (R365, R502) -/
  linkResends : Tab Nat := []
  deriving DecidableEq, Repr

structure State where
  pending : List Instr := []
  free : Nat := 0
  dict : Tab Nat := []
  mem : MemSys := {}
  ev : EvSys := {}
  flt : FltSys := {}
  knotq : List KnotMsg := []
  /-- knots, key die × 4,096 + number (R214) -/
  knots : Tab Nat := []
  /-- knots lost to an uncorrectable error, rising keys (R365) -/
  knotsLost : List Nat := []
  engines : Tab Engine := []
  ops : Tab (Option OpRec) := []
  /-- the number the next operation takes in `ops` -/
  nextOp : Nat := 1
  jobs : Tab Job := []
  /-- remote accumulate requests in flight, in order of arrival (R295) -/
  raq : List RaReq := []
  storm : Storm := {}
  reports : List Report := []
  /-- rounding generators, core × 16 + g, (256 + hearth) × 16 + g (R127) -/
  gens : Tab Gen := []
  /-- tally lines per core, most recently named first (R184) -/
  tlines : Tab (List TLine) := []
  /-- die tally tables: the incoming one per die and the outgoing one handed over, by slot (R184) -/
  tin : Tab (List TLine) := []
  tout : Tab (List TLine) := []
  /-- dies that have handed over their table for the boundary in progress, and its job -/
  swapJob : Option Nat := none
  swapped : List Nat := []
  seqs : Tab Seqr := []
  saved : List Saved := []
  q : QSys := {}
  pcie : PcieFn := {}
  pw : PwSys := {}
  cord : CordSys := {}
  ck : CkSys := {}
  snap : SnapSys := {}
  rst : RstSys := {}
  flash : FlashSys := {}
  dsys : DictSys := {}
  sec : SecSys := {}
  /-- writes and messages held while the function is in D3hot (R244) -/
  d3 : Bool := false
  heldHost : List OutMsg := []
  out : List OutMsg := []
  deriving DecidableEq, Repr

/-- The machine right after reset (R464, R470, R472): stage 0 of a start after a cold start; every field of every
structure at the value its declaration gives it. -/
def State.reset : State := {}

/-- Faults: a command of this block always leaves a next state, so the set is empty. -/
inductive Fault where
  deriving DecidableEq, Repr

/-- Refusals: an arm of `exec` that has no meaning yet names its command; nothing else refuses. Safe: a refusal is no
state. -/
inductive Refusal where
  | notModelled (mnemonic : String)
  deriving DecidableEq, Repr

end Sys2Proof.Machine
end

