-- ==== Sys2Proof/Machine/Ops.lean ====
section
/-!
DEFINITION. Operations shared by every family: dictionary values, free values, messages to the host,
event records (R406, R413, R419), fault messages (R370, R371) and knot updates (R214–R217).
-/

namespace Sys2Proof.Machine

/-- The outcome of a command. -/
abbrev Result := Host.Outcome State Fault Refusal

/-! ### Dictionary values -/

/-- The value of an entry. -/
def dget (s : State) (key : Nat) : Nat := tget (dictDefault key) s.dict key

/-- Set an entry's value. -/
def dset (s : State) (key v : Nat) : State :=
  { s with dict := tset (dictDefault key) s.dict key v }

/-- Raise a saturating counter entry of 32 bits. -/
def dcount (s : State) (key : Nat) (n : Nat := 1) : State :=
  dset s key (satAdd (2 ^ 32 - 1) (dget s key) n)

/-- The next free value, and the state that has drawn it. -/
def drawFree (s : State) : Nat × State := (Config.freeNat s.free, { s with free := s.free + 1 })

/-! ### Towards the host -/

/-- Send a message towards the host; in D3hot it is held (R244). -/
def toHost (s : State) (m : OutMsg) : State :=
  if s.d3 then { s with heldHost := s.heldHost ++ [m] } else { s with out := s.out ++ [m] }

/-- The bit of an AER error in the uncorrectable status register, as PCIe places it (log 120). -/
def Aer.statusBit : Aer → Nat
  | .poisonedTlp => 12
  | .completionTimeout => 14
  | .unsupportedRequest => 20
  | .internalError => 22

/-- R264: an error is logged in the AER status registers, an Advisory Non-Fatal one in the correctable status too (bit 13),
and reported to the host. -/
def sendAer (s : State) (e : Aer) : State :=
  let f := s.pcie
  toHost { s with pcie := { f with
    aerUncorrectable := setBit f.aerUncorrectable e.statusBit true
    aerCorrectable := if e = .unsupportedRequest then setBit f.aerCorrectable 13 true else f.aerCorrectable } } (.aer e)

/-- Send any other message out of the module. -/
def sendOut (s : State) (m : OutMsg) : State := { s with out := s.out ++ [m] }

/-! ### Events -/

/-- An event of the hub: its record goes to the package event controller. -/
def hubEvent (s : State) (source : Nat) (code : Nat := 0) (data : Nat := 0) (kind : Nat := 2) : State :=
  { s with ev := { s.ev with evq := s.ev.evq ++ [{ source := source, kind := kind, code := code, data := data }] } }

/-- An event of a core, hearth or die agent: an occurrence on its way to its local controller (R419). -/
def localEvent (s : State) (ctl bit source kind code data : Nat) : State :=
  { s with ev := { s.ev with occq := s.ev.occq ++
      [{ ctl := ctl, bit := bit
         ev := { origin := ctl + 1, source := source, kind := kind, code := code, data := data } }] } }

/-- A notice of the hub whose chapter says what it carries, `what`, and not where: code and data are a layout of it that is
left open (log 47). -/
def hubNotice (s : State) (source : Nat) (what : List Nat := []) : State :=
  hubEvent s source (Config.noticeCode source what % 2 ^ 16) (Config.noticeData source what % 2 ^ 128)

/-- The number of a field placed at byte `o` of an event's data (bytes 16–31 of the record). -/
def atByte (o v : Nat) : Nat := v * 256 ^ (o - 16)

/-- The write-rejected event 0x0600: index, sub-index and status code (R429). -/
def writeRejected (s : State) (key status : Nat) : State :=
  hubEvent s 0x0600 status (atByte 16 (key / 256) + atByte 18 (key % 256) + atByte 20 status)

/-! ### Faults -/

/-- Credits of an ember source that are in use (R27). -/
def emberUse (s : State) (src : Nat) : Nat := tget 0 s.flt.inflight src

/-- A credit of a source is taken. -/
def FltSys.take (f : FltSys) (src : Nat) : FltSys := { f with inflight := tset 0 f.inflight src (tget 0 f.inflight src + 1) }

/-- R27: a source sends a message that is no fault while at most two of its credits are in use, so that the fourth stays
for faults (log 121). -/
def FltSys.free (f : FltSys) (src : Nat) : Bool := decide (tget 0 f.inflight src < 3)

/-- A message has been received: its credit starts back to its source (R371). -/
def emberCredit (s : State) (src : Nat) : State :=
  { s with flt := { s.flt with returning := tset 0 s.flt.returning src (tget 0 s.flt.returning src + 1) } }

/-- R371: put a formed message in flight, or hold it at the source, merged with a held one of its
mechanism. -/
def postFault (f : FltSys) (m : FaultMsg) : FltSys :=
  if tget 0 f.inflight m.ember < 4 then
    { f.take m.ember with faultq := f.faultq ++ [{ m with no := f.emberNo }], emberNo := f.emberNo + 1 }
  else if f.held.any (fun h => h.src == m.src && h.mech == m.mech) then
    { f with held := f.held.map fun h =>
        if h.src == m.src && h.mech == m.mech then { h with fseq := m.fseq } else h }
  else { f with held := f.held ++ [m] }

/-- R30: an ember message of a source to a destination, sent earlier, has not arrived yet. One still held at its source has
not been sent. -/
def emberAhead (s : State) (src dst no : Nat) : Bool :=
  (dst == hubSource && s.flt.faultq.any fun m => m.ember == src && decide (m.no < no))
    || s.knotq.any (fun m => m.ember && !m.held && m.src == src && agentSource m.die == dst && decide (m.no < no))
    || s.flt.embers.any fun m => !m.held && m.src == src && m.dst == dst && decide (m.no < no)

/-- Send an ember message, or hold it at its source for want of a credit (R27). -/
def sendEmber (s : State) (src dst : Nat) (w : EmberWhat) : State :=
  let m : EmberMsg := { src := src, dst := dst, no := s.flt.emberNo, what := w }
  let f := { s.flt with emberNo := s.flt.emberNo + 1 }
  if f.free src then { s with flt := { f.take src with embers := f.embers ++ [m] } }
  else { s with flt := { f with embers := f.embers ++ [{ m with held := true }] } }

/-- The message that arrives next of those that say `w`: it has left its source, and none of its source to its destination
is ahead of it. -/
def emberArrival (s : State) (w : EmberWhat) : Option EmberMsg :=
  match s.flt.embers.find? (fun m => m.what == w) with
  | none => none
  | some m => if m.held || emberAhead s m.src m.dst m.no then none else some m

/-- Such a message is received. -/
def takeEmber (s : State) (m : EmberMsg) : State :=
  emberCredit { s with flt := { s.flt with embers := s.flt.embers.filter fun x => x.no != m.no } } m.src

/-- An ember message that leaves and arrives in one act: it needs a credit, and none ahead of it; its credit starts
back. -/
def emberPass (s : State) (src dst : Nat) : Option State :=
  if s.flt.free src && !emberAhead s src dst s.flt.emberNo then
    some (emberCredit { s with flt := { s.flt.take src with emberNo := s.flt.emberNo + 1 } } src)
  else none

/-- A unit reports a detected fault (R370): the message takes the unit's next `FSEQ`. -/
def raiseFault (s : State) (m : FaultMsg) : State :=
  let n := tget 0 s.flt.fseq m.src
  let f := { s.flt with fseq := tset 0 s.flt.fseq m.src ((n + 1) % 2 ^ 16) }
  { s with flt := postFault f { m with fseq := n } }

/-- R383: an injection armed for this unit and one of these mechanisms fires. -/
def takeArmed (s : State) (utype unit : Nat) (mechs : List Mech) : Option (Mech × Bool) × State :=
  match s.flt.armed.find? (fun a => mechs.contains a.1 && a.2.1 == utype && a.2.2 == unit) with
  | none => (none, s)
  | some a => (some (a.1, true), { s with flt := { s.flt with armed := s.flt.armed.erase a } })

/-- R362: a unit reports a safe fault, at an engine's tile and slice or in a core's tally unit or store, and goes on. -/
def safeFault (s : State) (utype unit : Nat) (loc : Nat × Nat) (m : Mech) : State :=
  raiseFault s { mech := m, utype := utype, unit := unit
                 locA := if utype = 1 then (if m = .tallyParity then 2 else 5) else loc.1, locB := loc.2 }

/-- The fault that occurs where these mechanisms watch, with whether it was injected (R365, R383). A fault of the hardware's own
comes first; a safe one that the unit kind carries is reported alone, and one of a mechanism that does not watch there is none
(log 143). -/
def takeHit (s : State) (utype unit : Nat) (mechs : List Mech) (hit : Option Mech) (loc : Nat × Nat := (0, 0)) :
    Option (Mech × Bool) × State :=
  match hit with
  | some m =>
    if mechs.contains m then (some (m, false), s)
    else if m.cls = 0 && m.kinds.contains utype then takeArmed (safeFault s utype unit loc m) utype unit mechs
    else takeArmed s utype unit mechs
  | none => takeArmed s utype unit mechs

/-! ### The marker wave's order (R32) -/

/-- A block, by its ember source, has latched in the running wave, so that what it sends from now on travels behind the
marker. -/
def waveLatched (s : State) (block : Nat) : Bool :=
  match s.snap.cut with
  | none => false
  | some c => !c.owed.contains block

/-- What a block sent after it latched does not reach a block that still owes the wave. -/
def waveBehind (s : State) (post : Bool) (block : Nat) : Bool :=
  post && (match s.snap.cut with | none => false | some c => c.owed.contains block)

/-! ### Knot updates -/

/-- A knot update in the ember class takes a credit of its source or waits there (R27); one in class 1 needs none. -/
def sendKnot (s : State) (m : KnotMsg) : State :=
  if !m.ember then { s with knotq := s.knotq ++ [{ m with post := waveLatched s m.src }] }
  else
    let f := { s.flt with emberNo := s.flt.emberNo + 1 }
    if f.free m.src then { s with knotq := s.knotq ++ [{ m with no := s.flt.emberNo }], flt := f.take m.src }
    else { s with knotq := s.knotq ++ [{ m with no := s.flt.emberNo, held := true }], flt := f }

/-- R214–R216: send a knot update of unit `src` to one die, or with `bcast` to all four. One to the unit's own die travels
in class 1, any other and every update of the hub in the ember class. -/
def knotUpdate (s : State) (src die knot : Nat) (bcast isSet : Bool) (val : Nat) (ent : Option Nat := none)
    (owner : Option (Nat × Nat) := none) : State :=
  let one := fun (st : State) (d : Nat) =>
    sendKnot st { src := src, die := d, knot := knot, isSet := isSet, val := val, ember := sourceDie src != some d
                  ent := ent, owner := owner }
  if bcast then one (one (one (one s 0) 1) 2) 3 else one s die

end Sys2Proof.Machine
end

