-- ==== Sys2Proof/Machine/Memory.lean ====
section
/-!
DEFINITION. The memory system's named operations: the canonical cell list, address resolution
(R268–R276, R526), the cache (R277–R280), poison and fencing (R284, R287), protection (R343), and
reads and writes of device addresses.
-/

namespace Sys2Proof.Machine

/-! ### Cells -/

/-- The byte at a physical address; an unlisted byte reads 0 (log 2). -/
def cellGet (l : List Host.Cell) (a : Nat) : Byte := tget (α := Byte) 0#8 l a

/-- Write the byte at a physical address, keeping the canonical form. -/
def cellSet (l : List Host.Cell) (a : Nat) (b : Byte) : List Host.Cell := tset (α := Byte) 0#8 l a b

/-- The `n` bytes from a physical address. -/
def cellRead (l : List Host.Cell) (a : Nat) : (n : Nat) → List Byte
  | 0 => []
  | n + 1 => cellGet l a :: cellRead l (a + 1) n

/-- Write bytes from a physical address up. -/
def cellWrite (l : List Host.Cell) (a : Nat) : List Byte → List Host.Cell
  | [] => l
  | b :: r => cellWrite (cellSet l a b) (a + 1) r

/-- The cell list is in canonical form: addresses strictly rising, no cell that holds 0. -/
def Memory.wf (l : List Host.Cell) : Bool := twf (α := Byte) 0#8 l

/-! ### Units and sizes -/

/-- Bytes of one channel, 3 GiB (R266). -/
def channelBytes : Nat := 3 * 2 ^ 30

/-- Bytes of one hearth's memory, 48 MiB, and of a way, 3 MiB (R277). -/
def hearthBytes : Nat := 48 * 2 ^ 20
/-- Bytes of a way (R277). -/
def wayBytes : Nat := 3 * 2 ^ 20

/-- 64 MiB, the unit of the zones (R272). -/
def zoneUnit : Nat := 2 ^ 26

/-- A place in memory: a byte of a channel, or of a hearth's memory. -/
inductive Loc where
  | hbm (stack chan off : Nat)
  | hearth (h off : Nat)
  deriving DecidableEq, Repr

/-- The physical address of a place. -/
def Loc.phys : Loc → Nat
  | .hbm s c off => (32 * s + c) * channelBytes + off
  | .hearth h off => 640 * channelBytes + h * hearthBytes + off

/-- The hearth that owns a place (R23). -/
def Loc.owner : Loc → Nat
  | .hbm s _ _ => s
  | .hearth h _ => h

/-- Channel Ss.Cc is live (R286). -/
def chanLive (m : MemSys) (s c : Nat) : Bool := bitOf (tget 0 m.live s) c

/-- Channel Ss.Cc is fenced (R287). -/
def chanFenced (m : MemSys) (s c : Nat) : Bool := bitOf (tget 0 m.fenced s) c

/-- `LIVE_MASK` of a stack: its channels that are live and not fenced. -/
def liveMask (m : MemSys) (s : Nat) : Nat :=
  Nat.xor (tget 0 m.live s) (Nat.land (tget 0 m.live s) (tget 0 m.fenced s))

/-- A stack with no live channel offers no capacity: it is dropped, or not yet started (R286). -/
def stackDropped (m : MemSys) (s : Nat) : Bool := tget 0 m.live s == 0

/-- R273: the interleave list of the stacks given, by channel and then by stack. -/
def interleave (m : MemSys) (sts : List Nat) : List (Nat × Nat) :=
  (List.range 32).flatMap fun c => (sts.filter (fun s => chanLive m s c)).map (fun s => (s, c))

/-- The stacks of die d. -/
def dieStacks (d : Nat) : List Nat := [5 * d, 5 * d + 1, 5 * d + 2, 5 * d + 3, 5 * d + 4]

/-- The die of a stack or hearth. -/
def dieOfStack (s : Nat) : Nat := s / 5

/-- The zones of R272, the EXPLICIT zone that follows them included. -/
inductive Zone where
  | pkg | die | near | expl
  deriving DecidableEq, Repr

/-- Units of a zone in force (R272). -/
def zoneUnits (m : MemSys) : Zone → Nat
  | .pkg => 48 - (m.zNear + m.zExpl + m.zDie)
  | .die => m.zDie
  | .near => m.zNear
  | .expl => m.zExpl

/-- First channel offset of a zone (R272). -/
def zoneBase (m : MemSys) : Zone → Nat
  | .pkg => 0
  | .die => zoneUnits m .pkg * zoneUnit
  | .near => (zoneUnits m .pkg + m.zDie) * zoneUnit
  | .expl => (zoneUnits m .pkg + m.zDie + m.zNear) * zoneUnit

/-! ### Reservations (R276) -/

/-- D of R345: pages of digest list of one holder slot. -/
def digestPages (slotPages : Nat) : Nat := (slotPages + 16383) / 16384

/-- Bytes of the partner region (R345). -/
def partnerBytes (m : MemSys) : Nat :=
  if m.slotPages = 0 then 0
  else (2 * (m.slotPages + digestPages m.slotPages) + 2 * digestPages m.slotPages) * 2 ^ 21

/-- Bytes a die reserves: tally tables, bank spill area, first-touch pool (R276). -/
def dieReserved (m : MemSys) : Nat := (48 + 24 + m.ftPoolMib) * 2 ^ 20

/-- No stack of the die is live, so its reservations lie in the PACKAGE aperture (R276). -/
def dieWithoutStack (m : MemSys) (d : Nat) : Bool := (dieStacks d).all (stackDropped m)

/-- Bytes the PACKAGE aperture reserves (R276). -/
def pkgReserved (m : MemSys) : Nat :=
  partnerBytes m + ((List.range 4).filter (dieWithoutStack m)).length * dieReserved m

/-- Bytes of an interleaved aperture (R274). -/
def apertureBytes (m : MemSys) (sts : List Nat) (z : Zone) : Nat :=
  (interleave m sts).length * (zoneUnits m z * zoneUnit)

/-- The PACKAGE aperture less its reservations (R290). -/
def pkgBytes (m : MemSys) : Nat := apertureBytes m (List.range 20) .pkg - pkgReserved m

/-- The DIE aperture of die d less its reservations (R290). -/
def dieBytes (m : MemSys) (d : Nat) : Nat := apertureBytes m (dieStacks d) .die - dieReserved m

/-- The NEAR aperture of stack s (R290). -/
def nearBytes (m : MemSys) (s : Nat) : Nat := apertureBytes m [s] .near

/-- The reservations fit their apertures (R276). -/
def reservationsFit (m : MemSys) : Bool :=
  decide (pkgReserved m ≤ apertureBytes m (List.range 20) .pkg)
    && (List.range 4).all fun d =>
        dieWithoutStack m d || decide (dieReserved m ≤ apertureBytes m (dieStacks d) .die)

/-! ### Homes (R269) -/

/-- The first live stack of a die from position `k`, in cyclic order. -/
def liveFrom (m : MemSys) (d k : Nat) : Option Nat :=
  ((List.range 5).map (fun i => 5 * d + (k + i) % 5)).find? (fun s => !stackDropped m s)

/-- The home stack of a core (R269). -/
def homeOfCore (m : MemSys) (core : Nat) : Option Nat :=
  let c := core / 8 % 8
  liveFrom m (core / 64) (if c < 2 then 0 else if c < 4 then 1 else if c = 4 then 2 else if c < 7 then 3 else 4)

/-- The home stack of a hearth and of its update strand (R269). -/
def homeOfHearth (m : MemSys) (h : Nat) : Option Nat := liveFrom m (h / 5) (h % 5)

/-- The home of the unit whose sequencer this is (R526). -/
def homeOfSeq (m : MemSys) (q : Nat) : Option Nat :=
  if q < 512 then homeOfCore m (q % 256) else homeOfHearth m (q - 512)

/-! ### Resolving a device address (R268, R273, R278) -/

/-- An address of an interleaved aperture at offset `o`, in a usable size of `usable` bytes. -/
def resolveIn (m : MemSys) (sts : List Nat) (z : Zone) (usable o : Nat) : Option Loc :=
  if o ≥ usable then none
  else
    let list := interleave m sts
    let n := list.length
    if n = 0 then none
    else
      let g := o / 2 ^ 12
      match list[g % n]? with
      | none => none
      | some (s, c) => some (.hbm s c (zoneBase m z + g / n * 2 ^ 12 + o % 2 ^ 12))

/-- Usable bytes of a hearth aperture (R278). -/
def scratchBytes (m : MemSys) (h : Nat) : Nat :=
  (if stackDropped m h then 16 - m.aWays else m.uWays) * wayBytes

/-- The apertures of R268. -/
inductive Aperture where
  | package
  | die (d : Nat)
  | explicit (s c : Nat)
  | nearHome
  | near (s : Nat)
  | hearth (h : Nat)
  deriving DecidableEq, Repr

/-- The aperture of an address and its offset there (R268); none outside every aperture. -/
def apertureOf (a : Nat) : Option (Aperture × Nat) :=
  if a < 0x0200_0000_0000 then some (.package, a)
  else if a < 0x0400_0000_0000 then
    some (.die ((a - 0x0200_0000_0000) / 2 ^ 39), (a - 0x0200_0000_0000) % 2 ^ 39)
  else if a < 0x0400_0000_0000 + 640 * 2 ^ 32 then
    let k := (a - 0x0400_0000_0000) / 2 ^ 32
    some (.explicit (k / 32) (k % 32), (a - 0x0400_0000_0000) % 2 ^ 32)
  else if 0x0700_0000_0000 ≤ a ∧ a < 0x0720_0000_0000 then some (.nearHome, a - 0x0700_0000_0000)
  else if 0x0800_0000_0000 ≤ a ∧ a < 0x0800_0000_0000 + 20 * 2 ^ 37 then
    some (.near ((a - 0x0800_0000_0000) / 2 ^ 37), (a - 0x0800_0000_0000) % 2 ^ 37)
  else if 0x0C00_0000_0000 ≤ a ∧ a < 0x0C00_0000_0000 + 20 * 2 ^ 26 then
    some (.hearth ((a - 0x0C00_0000_0000) / 2 ^ 26), (a - 0x0C00_0000_0000) % 2 ^ 26)
  else none

/-- Resolve an offset into an aperture for a requester with the home given (R273, R526). -/
def resolveAt (m : MemSys) (home : Option Nat) : Aperture → Nat → Option Loc
  | .package, o => resolveIn m (List.range 20) .pkg (pkgBytes m) o
  | .die d, o => resolveIn m (dieStacks d) .die (dieBytes m d) o
  | .explicit s c, o =>
    if chanLive m s c && decide (o < zoneUnits m .expl * zoneUnit) then
      some (.hbm s c (zoneBase m .expl + o))
    else none
  | .nearHome, o =>
    match home with
    | none => none
    | some s => resolveIn m [s] .near (nearBytes m s) o
  | .near s, o => resolveIn m [s] .near (nearBytes m s) o
  | .hearth h, o => if o < scratchBytes m h then some (.hearth h o) else none

/-- Bytes of the schedule page's content, 270 granules (R341). -/
def schedBytes : Nat := 270 * 4096

/-- The aperture of D0's first-touch pool and the pool's base there (R276): its stacks, zone, first device address
and offset. -/
def schedAt (m : MemSys) : List Nat × Zone × Nat × Nat :=
  if dieWithoutStack m 0 then
    (List.range 20, .pkg, 0, apertureBytes m (List.range 20) .pkg - partnerBytes m - dieReserved m)
  else (dieStacks 0, .die, 0x0200_0000_0000, apertureBytes m (dieStacks 0) .die - dieReserved m)

/-- The device address of the schedule page (R355). -/
def schedAddr (m : MemSys) : Nat := (schedAt m).2.2.1 + (schedAt m).2.2.2

/-- The place of byte `o` of the schedule page. -/
def schedLoc (m : MemSys) (o : Nat) : Option Loc :=
  resolveIn m (schedAt m).1 (schedAt m).2.1 ((schedAt m).2.2.2 + schedBytes) ((schedAt m).2.2.2 + o)

/-- A device address that lies in a restored schedule page, which software may read (R355; log 51). -/
def schedResolve (m : MemSys) (a : Nat) : Option Loc :=
  if m.schedOpen && decide (schedAddr m ≤ a) && decide (a < schedAddr m + schedBytes) then schedLoc m (a - schedAddr m)
  else none

/-- Resolve a device address. -/
def resolve (m : MemSys) (home : Option Nat) (a : Nat) : Option Loc :=
  match apertureOf a with
  | none => none
  | some (ap, o) => (resolveAt m home ap o).or (schedResolve m a)

/-- An EXPLICIT address (R280). -/
def isExplicit (a : Nat) : Bool :=
  match apertureOf a with
  | some (.explicit _ _, _) => true
  | _ => false

/-! ### Atoms, cache and poison -/

/-- The physical atom number of a place. -/
def Loc.atom (l : Loc) : Nat := l.phys / 64

/-- Atoms of one stack. -/
def stackAtoms : Nat := 32 * channelBytes / 64

/-- Ways of the cache of each hearth (R277). -/
def cacheWays (m : MemSys) : Nat := 16 - m.uWays - m.aWays

/-- The cached line of an atom. -/
def cacheLine (m : MemSys) (atom : Nat) : Option CLine := tget none m.cache atom

/-- Hold a line for an atom. -/
def putLine (m : MemSys) (atom : Nat) (l : CLine) : MemSys := { m with cache := tset none m.cache atom (some l) }

/-- Keys of the lines in the set of an atom (R279). -/
def setLines (m : MemSys) (atom : Nat) : List Nat :=
  (m.cache.filter fun p => p.1 / stackAtoms == atom / stackAtoms
    && p.1 % stackAtoms % 49152 == atom % stackAtoms % 49152).map (·.1)

/-- Write a line back to HBM and drop it (R279). -/
def evictLine (m : MemSys) (atom : Nat) : MemSys :=
  match cacheLine m atom with
  | none => m
  | some l =>
    { m with
      cells := if l.dirty then cellWrite m.cells (atom * 64) l.data else m.cells
      cache := tset none m.cache atom none }

/-- Write every dirty line of the stacks chosen back to HBM, the lines staying clean (R289). -/
def writeBackAll (m : MemSys) (which : Nat → Bool) : MemSys :=
  { m with
    cells := m.cache.foldl (fun cs p =>
      match p.2 with
      | some l => if l.dirty && which (p.1 / stackAtoms) then cellWrite cs (p.1 * 64) l.data else cs
      | none => cs) m.cells
    cache := m.cache.map fun p =>
      match p.2 with
      | some l => if which (p.1 / stackAtoms) then (p.1, some { l with dirty := false }) else p
      | none => p }

/-- Drop the lines chosen by atom number. -/
def dropLines (m : MemSys) (which : Nat → Bool) : MemSys :=
  { m with cache := m.cache.filter (fun p => !which p.1) }

/-- The dirty lines among those chosen. -/
def dirtyLines (m : MemSys) (which : Nat → Bool) : Nat :=
  (m.cache.filter fun p => which p.1 && (match p.2 with | some l => l.dirty | none => false)).length

/-- Put a line for an atom into the cache, evicting one when its set is full; which one is a free value
(R279 names pseudo-LRU and not its state: log 6). -/
def allocLine (s : State) (atom : Nat) (l : CLine) : State :=
  let lines := setLines s.mem atom
  if (cacheLine s.mem atom).isSome ∨ lines.length < cacheWays s.mem then
    { s with mem := putLine s.mem atom l }
  else
    let (k, s1) := drawFree s
    { s1 with mem := putLine (evictLine s1.mem (lines.getD (k % lines.length) 0)) atom l }

/-- The hearth in whose memory an atom lies. -/
def atomHearth (atom : Nat) : Option Nat :=
  let p := atom * 64
  if p < 640 * channelBytes then none else some ((p - 640 * channelBytes) / hearthBytes)

/-- The atom is poisoned (R284), by itself or with its whole hearth (R297). -/
def isPoisoned (m : MemSys) (atom : Nat) : Bool :=
  m.poison.contains atom
    || (match atomHearth atom with
        | some h => bitOf m.hpoison h && !m.cured.contains atom
        | none => false)

/-- Mark an atom poisoned (R284). -/
def poisonAtom (m : MemSys) (atom : Nat) : MemSys :=
  { m with poison := sinsert atom m.poison, poisonSeen := sinsert atom m.poisonSeen }

/-- A full-atom write replaces a poisoned atom (R284). -/
def cureAtom (m : MemSys) (atom : Nat) : MemSys :=
  { m with
    poison := sremove atom m.poison
    cured := match atomHearth atom with
      | some h => if bitOf m.hpoison h then sinsert atom m.cured else m.cured
      | none => m.cured }

/-- The thermal level of a stack holds it (R288). -/
def stackHeld (s : State) (st : Nat) : Bool := dget s (Key.stackThermal + st) ≥ 3

/-- The die of a place is fenced (R459, R463). -/
def locFenced (s : State) (l : Loc) : Bool := bitOf s.rst.dieFence (dieOfStack l.owner)

/-- Page number of an HBM place (R338). -/
def pageOf (st c off : Nat) : Nat := (32 * st + c) * 1536 + off / 2 ^ 21

/-- The place lies in a frozen page that is protected, or whose copy or send is pending; the page is protected whole,
whichever of its granules are frozen (R343). -/
def pageBlocks (s : State) : Loc → Bool
  | .hearth _ _ => false
  | .hbm st c off =>
    match tget none s.ck.pages (pageOf st c off) with
    | none => false
    | some p => p.phase != .copied

/-- Where a request comes from: its home stack (R269, R526) and its compute die, none for the hub; whether it is a die
agent (R278, R281); `CACHE_EXPLICIT` at its issue, where that is not now (R290); and whether it is the first in line at
its atoms, no earlier request waiting there (R282). -/
structure Via where
  home : Option Nat := none
  die : Option Nat := none
  agent : Bool := false
  expl : Option Bool := none
  front : Bool := false
  deriving DecidableEq, Repr

/-- A class 1–2 access to this address is cached (R280, R290). -/
def isCached (s : State) (v : Via) (bulk : Bool) (a : Nat) (l : Loc) : Bool :=
  match l with
  | .hearth _ _ => false
  | .hbm st _ _ =>
    !bulk && !stackDropped s.mem st && (!isExplicit a || v.expl.getD (dget s Key.cacheExplicit == 1))

/-- The hub as requester (R269). -/
def hubVia : Via := {}

/-- A core as requester. -/
def coreVia (m : MemSys) (core : Nat) : Via := { home := homeOfCore m core, die := some (core / 64) }

/-- A hearth as requester. -/
def hearthVia (m : MemSys) (h : Nat) : Via := { home := homeOfHearth m h, die := some (h / 5) }

/-- A die agent as requester (R269). -/
def agentVia (m : MemSys) (d : Nat) : Via := { home := liveFrom m d 0, die := some d, agent := true }

/-- The unit whose sequencer this is as requester (R526). -/
def seqVia (m : MemSys) (q : Nat) : Via := if q < 512 then coreVia m (q % 256) else hearthVia m (q - 512)

/-- R20, R21: the die links from die a to die b, numbered in the order of R20: the row link of a first,
then the column link of b. -/
def dieRoute (a b : Nat) : List Nat :=
  if a = b then [] else if a / 2 = b / 2 then [a / 2] else if a % 2 = b % 2 then [2 + a % 2]
  else [a / 2, 2 + b % 2]

/-- The links a request and its reply cross between a requester and a die. -/
def routeLinks (v : Via) (d : Nat) : List Nat :=
  match v.die with
  | none => [4 + d]
  | some a => dieRoute a d ++ dieRoute d a

/-- An address of a hearth's replay ways, which die agents and core feeders alone reach (R278). -/
def replayLoc (m : MemSys) (a : Nat) : Option Loc :=
  match apertureOf a with
  | some (.hearth h, o) => if (16 - m.aWays) * wayBytes ≤ o ∧ o < hearthBytes then some (.hearth h o) else none
  | _ => none

/-- The place of a device address for a requester (R268, R278, R526). -/
def Via.resolve (v : Via) (m : MemSys) (a : Nat) : Option Loc :=
  (Machine.resolve m v.home a).or (if v.agent then replayLoc m a else none)

/-- What stops an access to a place before it begins: a link that is down on its route, the fence of
its die, a fenced channel, or a hold for heat, which only a cached access passes whose atom the cache holds (R54, R287,
R288, R459). -/
def accessStop (s : State) (v : Via) (cached : Bool) (l : Loc) : Option MemErr :=
  if locFenced s l || (routeLinks v (dieOfStack l.owner)).any (bitOf s.rst.linkDown) then some .ash
  else match l with
    | .hearth _ _ => none
    | .hbm st c _ =>
      if chanFenced s.mem st c then some .fenced
      else if stackHeld s st && !(cached && (cacheLine s.mem l.atom).isSome) then some .waits
      else none

/-- The 64 bytes of the atom of a place, allocating a line for a cached miss (R279, R280). -/
def atomFill (s : State) (cached : Bool) (l : Loc) : List Byte × State :=
  match cacheLine s.mem l.atom with
  | some ln => (ln.data, s)
  | none =>
    let d := cellRead s.mem.cells (l.atom * 64) 64
    (d, if cached then allocLine s l.atom { data := d, dirty := false } else s)

/-- Read `n` bytes of one atom. -/
def atomRead (s : State) (v : Via) (cached : Bool) (l : Loc) (n : Nat) : Except MemErr (List Byte) × State :=
  match accessStop s v cached l with
  | some e => (.error e, s)
  | none =>
    let (d, s1) := atomFill s cached l
    if isPoisoned s1.mem l.atom then (.error .poisoned, s1)
    else (.ok ((d.drop (l.phys % 64)).take n), s1)

/-- `d` with `b` laid over it from position `o`. -/
def overlay (d : List Byte) (o : Nat) (b : List Byte) : List Byte :=
  d.take o ++ b ++ d.drop (o + b.length)

/-- Write bytes within one atom (R267, R279, R280). A whole atom cures poison (R284); a part of a poisoned atom cannot be
written, because the atom is read first (R267). -/
def atomWrite (s : State) (v : Via) (cached : Bool) (l : Loc) (b : List Byte) : Option MemErr × State :=
  match accessStop s v cached l with
  | some e => (some e, s)
  | none =>
    let full := b.length == 64
    let s0 := if full then { s with mem := cureAtom s.mem l.atom } else s
    if isPoisoned s0.mem l.atom then (some .poisoned, s) else
    match cacheLine s0.mem l.atom with
    | some ln =>
      (none, { s0 with mem := putLine s0.mem l.atom { data := overlay ln.data (l.phys % 64) b, dirty := true } })
    | none =>
      if cached then
        let d := if full then b else overlay (cellRead s0.mem.cells (l.atom * 64) 64) (l.phys % 64) b
        (none, allocLine s0 l.atom { data := d, dirty := true })
      else (none, { s0 with mem := { s0.mem with cells := cellWrite s0.mem.cells l.phys b } })

/-- `n` bytes within one atom whose contents the spec leaves undefined become free values (log 139). -/
def undefineAt (s : State) (l : Loc) (n : Nat) : State :=
  let b := (List.range n).map fun i => BitVec.ofNat 8 (Config.freeNat (s.free + i))
  let s1 := { s with free := s.free + n }
  match cacheLine s.mem l.atom with
  | some ln => { s1 with mem := putLine s1.mem l.atom { data := overlay ln.data (l.phys % 64) b, dirty := true } }
  | none => { s1 with mem := { s1.mem with cells := cellWrite s1.mem.cells l.phys b } }

/-! ### Requests that wait at their hearth (R282) -/

/-- The requester of a request in flight, as the memory system sees it when it serves the request. -/
def MemReq.via (m : MemSys) (r : MemReq) : Via :=
  let v : Via := match r.who with
    | .seq q => seqVia m q.val
    | .host | .bar2 | .completion _ _ _ _ => hubVia
    | .agent d => agentVia m d.val
  { v with expl := some r.expl, front := true }

/-- The pieces of a range that lie within one atom each: address and length. -/
def pieces (a : Nat) : (n fuel : Nat) → List (Nat × Nat)
  | _, 0 => []
  | n, fuel + 1 =>
    if n = 0 then []
    else
      let k := min n (64 - a % 64)
      (a, k) :: pieces (a + k) (n - k) fuel

/-- The pieces of the `n` bytes from `a`. -/
def piecesOf (a n : Nat) : List (Nat × Nat) := pieces a n (n / 64 + 2)

/-- The atoms of a range of device addresses. -/
def atomsOf (m : MemSys) (v : Via) (a n : Nat) : List Nat :=
  (piecesOf a n).filterMap fun p => (v.resolve m p.1).map Loc.atom

/-- The request changes its atoms. -/
def MemReq.changes (r : MemReq) : Bool := r.wdata.isSome || r.amo.isSome

/-- A request touches one of the atoms given. -/
def MemReq.touches (m : MemSys) (r : MemReq) (atoms : List Nat) : Bool :=
  (atomsOf m (r.via m) r.addr r.len).any atoms.contains

/-- The requester of a remote accumulate request. -/
def RaReq.via (r : RaReq) : Via := { home := r.home, die := if r.sender < 20 then some (r.sender / 5) else none, front := true }

/-- A remote accumulate request touches one of the atoms given. -/
def RaReq.touches (m : MemSys) (r : RaReq) (atoms : List Nat) : Bool :=
  (atomsOf m r.via r.addr (16 * r.codes.length)).any atoms.contains

/-- A remote accumulate request that has arrived waits at one of the atoms given. -/
def raWaits (s : State) (atoms : List Nat) : Bool := s.raq.any fun r => r.arrived && r.touches s.mem atoms

/-- A write, an atomic or a remote accumulate that arrived earlier waits at an atom of the range, so that a later access waits
behind it (R282). -/
def heldBack (s : State) (v : Via) (a n : Nat) : Bool :=
  let atoms := atomsOf s.mem v a n
  !v.front && (s.mem.reqs.any (fun r => r.arrived && r.changes && r.touches s.mem atoms)
    || s.mem.holdq.any (fun p => p.2.changes && p.2.touches s.mem atoms) || raWaits s atoms)

/-! ### Device reads and writes -/

/-- Read the pieces in order; the first error ends the read. -/
def readPieces (s : State) (v : Via) (bulk : Bool) :
    List (Nat × Nat) → Except MemErr (List Byte) × State
  | [] => (.ok [], s)
  | (a, n) :: r =>
    match v.resolve s.mem a with
    | none => (.error .unmapped, s)
    | some l =>
      match atomRead s v (isCached s v bulk a l) l n with
      | (.error e, s1) => (.error e, s1)
      | (.ok b, s1) =>
        match readPieces s1 v bulk r with
        | (.error e, s2) => (.error e, s2)
        | (.ok bs, s2) => (.ok (b ++ bs), s2)

/-- Read `n` bytes at a device address for a requester, in class 3 when `bulk`. -/
def devRead (s : State) (v : Via) (bulk : Bool) (a n : Nat) : Except MemErr (List Byte) × State :=
  if heldBack s v a n then (.error .waits, s) else readPieces s v bulk (piecesOf a n)

/-- Set or drop a frozen page. -/
def setPage (s : State) (p : Nat) (pg : Option PageSt) : State :=
  { s with ck := { s.ck with pages := tset none s.ck.pages p pg } }

/-- Pages of a die's first-touch pool in use; while pages are frozen D0's lowest page holds the schedule
page (R340, R343). -/
def poolUsed (s : State) (die : Nat) : Nat :=
  (s.ck.pages.filter fun e => decide (e.1 / 1536 / 32 / 5 = die) &&
    (match e.2 with | some q => q.phase == .copying || q.phase == .copied | none => false)).length
    + (if die = 0 then 1 else 0)

/-- R343: a write meets a protected page: a copy starts when the pool of the page's die has a free
page, else the page moves to the head of its stream and the write waits for its send. -/
def touchPage (s : State) (p : Nat) (pg : PageSt) : State :=
  match pg.phase with
  | .prot =>
    if poolUsed s (dieOfStack (p / 1536 / 32)) < s.mem.ftPoolMib / 2 then
      setPage s p (some { pg with phase := .copying })
    else dcount (setPage s p (some { pg with phase := .urgent })) Key.ftWaits
  | .copying | .urgent | .copied => s

/-- Whether some piece of a write must wait, and the state in which first-touch copies have started
for the pages it meets (R343). -/
def writeBlocked (s : State) (v : Via) (bulk : Bool) : List (Nat × Nat) → Bool × State
  | [] => (false, s)
  | (a, _) :: r =>
    match v.resolve s.mem a with
    | none => writeBlocked s v bulk r
    | some l =>
      if pageBlocks s l then
        match l with
        | .hearth _ _ => writeBlocked s v bulk r
        | .hbm st c off =>
          match tget none s.ck.pages (pageOf st c off) with
          | none => writeBlocked s v bulk r
          | some pg => (true, (writeBlocked (touchPage s (pageOf st c off) pg) v bulk r).2)
      else if accessStop s v (isCached s v bulk a l) l = some .waits then (true, (writeBlocked s v bulk r).2)
      else writeBlocked s v bulk r

/-- A page of the range waits for its send already, so that a further write waits for it too (R343). -/
def sendAwaited (s : State) (v : Via) (a n : Nat) : Bool :=
  (piecesOf a n).any fun p =>
    match v.resolve s.mem p.1 with
    | some (.hbm st c off) =>
      (match tget none s.ck.pages (pageOf st c off) with | some q => q.phase == .urgent | none => false)
    | some (.hearth _ _) => false
    | none => false

/-- Whether some piece of a read must wait, for a held stack (R288) or behind an earlier write (R282). -/
def readBlocked (s : State) (v : Via) (bulk : Bool) (a n : Nat) : Bool :=
  heldBack s v a n || (piecesOf a n).any fun p =>
    match v.resolve s.mem p.1 with
    | none => false
    | some l => accessStop s v (isCached s v bulk p.1 l) l == some .waits

/-- Write the pieces of a byte string in order; a piece that ends in an error is discarded and the last
error is the write's. -/
def writePieces (s : State) (v : Via) (bulk : Bool) :
    List (Nat × Nat) → List Byte → Option MemErr × State
  | [], _ => (none, s)
  | (a, n) :: r, b =>
    match v.resolve s.mem a with
    | none =>
      let (e, s2) := writePieces s v bulk r (b.drop n)
      (some (e.getD .unmapped), s2)
    | some l =>
      let (e1, s1) := atomWrite s v (isCached s v bulk a l) l (b.take n)
      let (e2, s2) := writePieces s1 v bulk r (b.drop n)
      (match e2 with | some e => some e | none => e1, s2)

/-- Write bytes at a device address. A write that must wait answers `waits`, having started any
first-touch copy it needs, and changes no byte. -/
def devWrite (s : State) (v : Via) (bulk : Bool) (a : Nat) (b : List Byte) : Option MemErr × State :=
  let ps := piecesOf a b.length
  if heldBack s v a b.length then (some .waits, s)
  else
    match writeBlocked s v bulk ps with
    | (true, s1) => (some .waits, s1)
    | (false, _) => writePieces s v bulk ps b

/-- The error of a write, a discarded write to a fenced channel being none (R287). -/
def lostWrite (e : Option MemErr) : Option MemErr := if e = some .fenced then none else e

/-- Requests in the hold queues of stacks that no heat holds are taken up again, ahead of later ones (R288, R343). -/
def releaseHold (s : State) : State :=
  { s with mem := { s.mem with
      holdq := s.mem.holdq.filter (fun p => stackHeld s p.1)
      reqs := (s.mem.holdq.filter (fun p => !stackHeld s p.1)).map (·.2) ++ s.mem.reqs } }

/-- The bytes of a device range as memory holds them now, cached lines first, without effect on the
cache: the model's read of memory for statements. -/
def peek (m : MemSys) (phys : Nat) : Byte :=
  match cacheLine m (phys / 64) with
  | some l => l.data.getD (phys % 64) 0#8
  | none => cellGet m.cells phys

end Sys2Proof.Machine
end

