-- ==== Sys2Proof/Machine/Events.lean ====
section
/-!
DEFINITION. Events and interrupt delivery: acceptance of records, rings, moderation, targets, and the
cluster and die event controllers (chapter "Events and interrupt delivery", R406–R424).
-/

namespace Sys2Proof.Machine

/-! ### Targets (R408–R412) -/

/-- `THRESH`, `RUNPRI` and `TIDLE` of a target's control word (R409). -/
def tThresh (s : State) (t : Nat) : Nat := bits (dget s (tctlKey t)) 3 0
/-- `RUNPRI` (R409). -/
def tRunpri (s : State) (t : Nat) : Nat := bits (dget s (tctlKey t)) 7 4
/-- `TIDLE` (R409). -/
def tIdle (s : State) (t : Nat) : Bool := bitOf (dget s (tctlKey t)) 8

/-- The priority stack of a target (R412). -/
def tStack (s : State) (t : Nat) : List Nat := tget [] s.ev.tstack t

/-- Write a target's control word with its stack depth (R409). -/
def putTctl (s : State) (t : Nat) (idle : Bool) (runpri thresh : Nat) (stack : List Nat) : State :=
  let s1 := dset s (tctlKey t)
    (stack.length % 16 * 2 ^ 9 + (if idle then 2 ^ 8 else 0) + runpri % 16 * 2 ^ 4 + thresh % 16)
  { s1 with ev := { s1.ev with tstack := tset [] s1.ev.tstack t stack } }

/-- `BASE` and `COUNT` of a target group (R408). -/
def groupTargets (s : State) (g : Nat) : List Nat :=
  let w := dget s (Key.groupDef + g)
  (List.range (bits w 18 12)).map (· + bits w 11 0)

/-- The group of a ring (R424). -/
def ringGroup (s : State) (r : Nat) : Nat := bits (dget s (Key.ringCfg + r)) 26 21

/-- R410: an interrupt of priority p is eligible at a target. -/
def eligible (s : State) (p t : Nat) : Bool :=
  decide (p > tThresh s t) && decide (p > tRunpri s t) && (decide (t ≥ 2048) || s.ev.msixEnable)

/-- R411: t is the better target of the two: lower `RUNPRI`, then idle, then lower number. -/
def betterTarget (s : State) (t u : Nat) : Bool :=
  if tRunpri s t ≠ tRunpri s u then decide (tRunpri s t < tRunpri s u)
  else if tIdle s t != tIdle s u then tIdle s t
  else decide (t < u)

/-- R411: the target chosen among those given. -/
def chooseTarget (s : State) (p : Nat) : List Nat → Option Nat
  | [] => none
  | t :: r =>
    match chooseTarget s p r with
    | none => if eligible s p t then some t else none
    | some u => if eligible s p t && betterTarget s t u then some t else some u

/-- The message of a vector: the address and data of its entry in the MSI-X table (R245). -/
def msixOf (s : State) (v : Nat) : OutMsg := .msix v (tget (0, 0) s.ev.vecMsg v).1 (tget (0, 0) s.ev.vecMsg v).2

/-- R412: deliver an interrupt of priority p of ring r at target t. -/
def deliverAt (s : State) (r p t : Nat) : State :=
  let s1 := putTctl s t false p (tThresh s t) (tRunpri s t :: tStack s t)
  if t ≥ 2048 then
    sendOut { s1 with ev := { s1.ev with intIrq := s1.ev.intIrq ++ [(t, r)] } } (.internalIrq t)
  else if s1.ev.vecOpen.contains t && !s1.ev.msixFuncMask then toHost s1 (msixOf s1 t)
  else { s1 with ev := { s1.ev with pba := sinsert t s1.ev.pba } }

/-- R411: deliver the interrupt of a ring, or leave it pending at the ring. -/
def deliverRing (s : State) (r : Nat) : State :=
  let p := dget s (Key.ringPpri + r)
  match chooseTarget s p (groupTargets s (ringGroup s r)) with
  | some t =>
    deliverAt { s with ev := { s.ev with ringPend := sremove r s.ev.ringPend } } r p t
  | none => { s with ev := { s.ev with ringPend := sinsert r s.ev.ringPend } }

/-- A ring raises its interrupt; while `EVT_HOLD` is TRUE nothing is raised (R415, R417). -/
def raiseRing (s : State) (r : Nat) : State :=
  if dget s Key.evtHold = 1 then s
  else
    deliverRing { s with ev := { s.ev with
      ringMod := sremove r s.ev.ringMod, ringRaised := sinsert r s.ev.ringRaised } } r

/-- R411: evaluate again the pending interrupts of the rings chosen, in increasing ring number. -/
def retryRings (s : State) (which : Nat → Bool) : State :=
  if dget s Key.evtHold = 1 then s
  else (s.ev.ringPend.filter which).foldl deliverRing s

/-- Records in a ring not yet consumed (R414). -/
def ringCount (s : State) (r : Nat) : Nat :=
  (dget s (Key.ringPi + r) + 2 ^ 32 - dget s (Key.ringCi + r)) % 2 ^ 32

/-- R416: an eligible target of the ring's group is idle, the count is reached, or the holdoff is of 0 counts. -/
def moderationOver (s : State) (r : Nat) : Bool :=
  decide (ringCount s r ≥ bits (dget s (Key.ringMod + r)) 15 0) || decide (bits (dget s (Key.ringMod + r)) 31 16 = 0)
    || (groupTargets s (ringGroup s r)).any (fun t => eligible s (dget s (Key.ringPpri + r)) t && tIdle s t)

/-- R416: raise the moderated rings chosen whose moderation is over. -/
def checkModerated (s : State) (which : Nat → Bool) : State :=
  (s.ev.ringMod.filter which).foldl (fun st r => if moderationOver st r then raiseRing st r else st) s

/-! ### Accepting a record (R407, R413–R418) -/

/-- The 32 bytes of a record (R413). -/
def recordBytes (e : EvRec) (seq prio : Nat) (phase dropped : Bool) : List Byte :=
  leBytes 8 seq ++ leBytes 2 e.source
    ++ [BitVec.ofNat 8 ((if phase then 128 else 0) + (if dropped then 64 else 0)
        + (if e.soft then 32 else 0) + prio % 16), BitVec.ofNat 8 e.kind]
    ++ leBytes 2 e.count ++ leBytes 2 e.code ++ leBytes 16 e.data

/-- Count an unrouted record (R407). -/
def unrouted (s : State) : State := dcount s Key.evtUnrouted

/-- R418: a ring write failed. -/
def ringWriteFailed (s : State) (r : Nat) : State :=
  dset (dset s (Key.ringEnable + r) 0) Key.evtRingErr (setBit (dget s Key.evtRingErr) r true)

/-- R414, R415: the ring's indices and priority after a record is written, and what it raises. -/
def ringWritten (s : State) (r prio : Nat) : State :=
  let wasEmpty := dget s (Key.ringPi + r) == dget s (Key.ringCi + r)
  let oldP := dget s (Key.ringPpri + r)
  let s1 := dset s (Key.ringPi + r) ((dget s (Key.ringPi + r) + 1) % 2 ^ 32)
  let s2 := dset s1 (Key.ringPpri + r) (if wasEmpty then prio else max oldP prio)
  let s3 := { s2 with ev := { s2.ev with ringDropped := sremove r s2.ev.ringDropped } }
  if wasEmpty then
    let s4 := { s3 with ev := { s3.ev with ringMod := sinsert r s3.ev.ringMod } }
    if moderationOver s4 r then raiseRing s4 r else s4
  else if s3.ev.ringMod.contains r then
    if moderationOver s3 r then raiseRing s3 r else s3
  else if prio > oldP then retryRings s3 (· == r)
  else s3

/-- Write a record to its ring, in host or device memory (R414, R418). None: the write waits for a held
stack. -/
def ringStore (s : State) (r prio : Nat) (e : EvRec) (seq : Nat) (hostFails : Bool) : Option State :=
  let cfg := dget s (Key.ringCfg + r)
  let size := 2 ^ bits cfg 4 0
  let idx := dget s (Key.ringPi + r)
  let bytes := recordBytes e seq prio (idx / size % 2 == 0) (s.ev.ringDropped.contains r)
  let addr := dget s (Key.ringBase + r) + 32 * (idx % size)
  if bitOf cfg 20 then
    if hostFails then some (ringWriteFailed (unrouted s) r)
    else some (ringWritten (toHost s (.hostWrite addr bytes)) r prio)
  else
    match devWrite s hubVia false addr bytes with
    | (none, s1) => some (ringWritten s1 r prio)
    | (some .waits, _) => none
    | (some _, s1) => some (ringWriteFailed (unrouted s1) r)

/-- R407, R414: route an accepted record. None: its ring write waits. -/
def routeRecord (s : State) (e : EvRec) (seq : Nat) (hostFails : Bool) : Option State :=
  let cfg := dget s (srcCfgKey e.source)
  let r := bits cfg 21 16
  if !bitOf cfg 15 || dget s (Key.ringEnable + r) == 0 then some (unrouted s)
  else if ringCount s r = 2 ^ bits (dget s (Key.ringCfg + r)) 4 0 then
    some (dcount { s with ev := { s.ev with ringDropped := sinsert r s.ev.ringDropped } } (Key.ringOvf + r))
  else ringStore s r (bits cfg 3 0) e seq hostFails

/-- Accept a record: it takes the next record sequence value (R57, R414). -/
def acceptRecord (s : State) (e : EvRec) (hostFails : Bool) : Option State :=
  routeRecord { s with ev := { s.ev with seq := (s.ev.seq + 1) % 2 ^ 64 } } e s.ev.seq hostFails

/-- The record at position i may be accepted: none of the same origin stands before it (R58). The records of the hub's own
sources share one origin, so they are accepted in the order in which they occur (log 135). -/
def nextOfOrigin (q : List EvRec) (i : Nat) : Option EvRec :=
  match q[i]? with
  | none => none
  | some e => if (q.take i).any (fun f => f.origin == e.origin) then none else some e

/-- Accept the record at position i of those in flight. -/
def acceptEvent (s : State) (i : Nat) (hostFails : Bool) : State :=
  match nextOfOrigin s.ev.evq i with
  | none => s
  | some e =>
    match acceptRecord { s with ev := { s.ev with evq := dropAt i s.ev.evq } } e hostFails with
    | some s1 => s1
    | none => s

/-! ### Writes of the controller's registers -/

/-- R414, R415: a write of `RING_CI`; the status of R430. -/
def writeRingCi (s : State) (r v : Nat) : State × Nat :=
  let ci := dget s (Key.ringCi + r)
  if (v + 2 ^ 32 - ci) % 2 ^ 32 > ringCount s r then (s, 3)
  else
    let s1 := dset s (Key.ringCi + r) v
    if ringCount s1 r = 0 then
      let s2 := dset s1 (Key.ringPpri + r) 0
      ({ s2 with ev := { s2.ev with
          ringPend := sremove r s2.ev.ringPend
          ringMod := sremove r s2.ev.ringMod
          ringRaised := sremove r s2.ev.ringRaised } }, 0)
    else
      (raiseRing { s1 with ev := { s1.ev with ringRaised := sremove r s1.ev.ringRaised } } r, 0)

/-- R412: an end of interrupt at a target. -/
def endOfInterrupt (s : State) (t : Nat) : State :=
  match tStack s t with
  | [] => dcount s Key.eoiSpurious
  | p :: rest =>
    let s1 := putTctl s t (tIdle s t) p (tThresh s t) rest
    { s1 with ev := { s1.ev with
        intIrq := (s1.ev.intIrq.reverse.eraseP (fun e => e.1 == t)).reverse } }

/-- R409: a write of `TCTL`, with `EOI` when its bit 31 is 1. -/
def writeTctl (s : State) (t v : Nat) : State :=
  let s1 := putTctl s t (bitOf v 8) (tRunpri s t) (bits v 3 0) (tStack s t)
  let s2 := if bitOf v 31 then endOfInterrupt s1 t else s1
  let mine := fun r => (groupTargets s2 (ringGroup s2 r)).contains t
  checkModerated (retryRings s2 mine) mine

/-- R417: a write of `EVT_HOLD`. -/
def writeEvtHold (s : State) (hold : Bool) : State :=
  let s1 := dset s Key.evtHold (if hold then 1 else 0)
  if hold then s1
  else
    let due := (List.range 64).filter fun r =>
      decide (ringCount s1 r ≠ 0) && !s1.ev.ringRaised.contains r
    retryRings (due.foldl raiseRing s1) (fun r => !due.contains r)

/-- R408, R411, R416: a write of a group definition; the status of R430. -/
def writeGroupDef (s : State) (g v : Nat) : State × Nat :=
  let base := bits v 11 0
  let count := bits v 18 12
  if v ≥ 2 ^ 19 ∨ count = 0 ∨ count > 64 ∨ base + count > 2054 then (s, 3)
  else
    let s1 := dset s (Key.groupDef + g) v
    let mine := fun r => ringGroup s1 r == g
    (checkModerated (retryRings s1 mine) mine, 0)

/-- R412: unmasking a vector sends its message when its PBA bit is set. -/
def unmaskVector (s : State) (v : Nat) : State :=
  let s1 := { s with ev := { s.ev with vecOpen := sinsert v s.ev.vecOpen } }
  if s1.ev.pba.contains v && !s1.ev.msixFuncMask then
    toHost { s1 with ev := { s1.ev with pba := sremove v s1.ev.pba } } (msixOf s1 v)
  else s1

/-! ### Cluster and die event controllers (R419–R422) -/

/-- The `MASK` entry of a controller: clusters 0–31, die agents 32–35 (R424). -/
def maskKey (ctl : Nat) : Nat := if ctl < 32 then Key.cecMask + ctl else Key.decMask + (ctl - 32)
/-- The `PEND` entry of a controller. -/
def pendKey (ctl : Nat) : Nat := if ctl < 32 then Key.cecPend + ctl else Key.decPend + (ctl - 32)

/-- The data latch of a local source (R420). -/
def ecLatch (s : State) (ctl bit : Nat) : Option EvRec := tget none s.ev.latch (ctl * 64 + bit)

/-- Fill a latch. -/
def setLatch (s : State) (ctl bit : Nat) (e : EvRec) : State :=
  { s with ev := { s.ev with latch := tset none s.ev.latch (ctl * 64 + bit) (some e) } }

/-- R420: an occurrence at a local source. -/
def localOccur (s : State) (o : LocalOcc) : State :=
  let pend := dget s (pendKey o.ctl)
  if bitOf pend o.bit then
    match ecLatch s o.ctl o.bit with
    | some e => setLatch s o.ctl o.bit { e with count := satAdd 0xFFFF e.count 1 }
    | none => setLatch s o.ctl o.bit o.ev
  else setLatch (dset s (pendKey o.ctl) (setBit pend o.bit true)) o.ctl o.bit { o.ev with count := 1 }

/-- The package source and record kind of a local source that no occurrence has filled (R419); a work
queue's source is then 0x1000, the lowest (log 22). A reserved bit is never pending (log 23). -/
def softRecord (ctl bit : Nat) : EvRec :=
  let k := if ctl < 32 then bit % 8 else if bit < 40 then bit % 8 + 8 else 100 + bit
  let src : Nat :=
    if k = 0 then 0x0106 else if k = 1 then 0x0102 else if k = 2 then 0x0107 else if k = 7 then 0x0108
    else if k = 11 then 0x0303 else if k = 12 then 0x0300 else if k = 13 then 0x0301 else if k = 14 then 0x0302
    else if k = 156 then 0x0109 else if k = 157 then 0x0205
    else if 140 ≤ k ∧ k < 148 then 0x0203 else if 148 ≤ k ∧ k < 156 then 0x0204
    else 0x1000
  let kind : Nat :=
    if k = 3 ∨ k = 4 ∨ k = 8 then 5 else if k = 5 ∨ k = 9 then 6 else if k = 6 ∨ k = 10 then 7 else 2
  { origin := ctl + 1, source := src, kind := kind, count := 0, soft := true }

/-- R420: forward one pending, unmasked bit. -/
def forwardBit (ctl : Nat) (s : State) (bit : Nat) : State :=
  let pend := dget s (pendKey ctl)
  if bitOf pend bit && !bitOf (dget s (maskKey ctl)) bit then
    let e := (ecLatch s ctl bit).getD (softRecord ctl bit)
    let s1 := setLatch (dset s (pendKey ctl) (setBit pend bit false)) ctl bit { e with count := 0, soft := false }
    { s1 with ev := { s1.ev with evq := s1.ev.evq ++ [e] } }
  else s

/-- R420: the controller forwards every pending, unmasked bit in increasing order. -/
def forwardAll (s : State) (ctl : Nat) : State := (List.range 64).foldl (forwardBit ctl) s

/-- The bits of a die controller's words that are not reserved (R419). -/
def decBits : Nat := 0x03FF_FF7F_7F7F_7F7F

/-- A controller's word as it is kept: a die's reserved bits are not (R17; log 23). -/
def ctlWord (ctl v : Nat) : Nat := if ctl < 32 then v else Nat.land v decBits

/-- R420, R421: software writes `PEND` as a whole word. -/
def writePend (s : State) (ctl v0 : Nat) : State :=
  let v := ctlWord ctl v0
  let old := dget s (pendKey ctl)
  let newly := (List.range 64).filter fun b => bitOf v b && !bitOf old b
  newly.foldl (fun st b =>
    let e := (ecLatch st ctl b).getD (softRecord ctl b)
    setLatch st ctl b { e with count := 0, soft := true }) (dset s (pendKey ctl) v)

/-- R422: a write of `EC_LOCK`; the status of R430. -/
def writeEcLock (s : State) (die v : Nat) : State × Nat :=
  let held := dget s (Key.ecLock + die)
  if held = 0 ∨ held = v ∨ v = 0 then (dset s (Key.ecLock + die) v, 0) else (s, 3)

/-- R423: the die agent of a die is quenched: interrupts to it are withdrawn, its stack empties, and
their rings choose again. -/
def withdrawTarget (s : State) (t : Nat) : State :=
  let rings := (s.ev.intIrq.filter (fun e => e.1 == t)).map (·.2)
  let s1 := putTctl s t (tIdle s t) 0 (tThresh s t) []
  let s2 := { s1 with ev := { s1.ev with intIrq := s1.ev.intIrq.filter (fun e => e.1 != t) } }
  rings.foldl (fun st r => if ringCount st r = 0 then st else raiseRing st r) s2

end Sys2Proof.Machine
end

