-- ==== Sys2Proof/Machine/Operands.lean ====
section
/-!
DEFINITION. Every operand form: tensor descriptors and their elements (R220–R222), operation
descriptor fields (R223, R224), slot descriptors (R185), and the core feeder (R153–R156, R180).
-/

namespace Sys2Proof.Machine

/-! ### Tensor descriptors (R220) -/

/-- The tensor descriptor in 32 bytes. -/
def parseTD (b : List Byte) : TD :=
  let f := leField b 7 1
  { base := leField b 0 6, fmt := leField b 6 1, place := f % 4, rot := f / 4 % 4
    biasFromSlot := bitOf f 4, zp := bitOf f 5, trans := bitOf f 6
    reservedAt :=
      if bitOf f 7 then some 7
      else if (leField b 6 1 ≠ 0x0A ∧ !(leField b 6 1 == 0x09 && bitOf f 5) ∧ leField b 8 2 ≠ 0)
          ∨ (leField b 6 1 = 0x09 ∧ bitOf f 5 ∧ leField b 9 1 ≠ 0) then some 8
      else if leField b 10 2 ≥ 2 ^ 10 ∨ (f % 4 ≠ 3 ∧ leField b 10 2 ≠ 0) then some 10
      else if !bitOf f 4 && leField b 30 2 != 0 then some 30
      else none
    bias := leField b 8 2, expl := leField b 10 2
    d0 := leField b 12 3, d1 := leField b 15 3, d2 := leField b 18 2
    st1 := leField b 20 5, st2 := leField b 25 5, biasSlot := leField b 30 2 }

/-- Elements of a tensor. -/
def TD.count (t : TD) : Nat := t.d0 * t.d1 * t.d2

/-- R221: the address of element (i0, i1, i2) of a format with whole bytes. -/
def TD.elemAddr (t : TD) (eb i0 i1 i2 : Nat) : Nat :=
  t.base + eb * (if t.trans then t.st1 * i0 + i1 + t.st2 * i2 else i0 + t.st1 * i1 + t.st2 * i2)

/-- R83, R222: the index of block r of column n, blocks along a K of `d0`. -/
def TD.blockIndex (t : TD) (len n r : Nat) : Nat := n * ((t.d0 + len - 1) / len) + r

/-- The address of a block. -/
def TD.blockAddr (t : TD) (len n r : Nat) : Nat := t.base + 64 * t.blockIndex len n r

/-- The indices (i0, i1, i2) of logical index j (R221). -/
def TD.unflatten (t : TD) (j : Nat) : Nat × Nat × Nat := (j % t.d0, j / t.d0 % t.d1, j / t.d0 / t.d1)

/-! ### Reading lists of operands -/

/-- Read the ranges given in order; the first error ends the reading. -/
def readMany (s : State) (v : Via) (bulk : Bool) : List (Nat × Nat) → Except MemErr (List (List Byte)) × State
  | [] => (.ok [], s)
  | (a, n) :: r =>
    match devRead s v bulk a n with
    | (.error e, s1) => (.error e, s1)
    | (.ok b, s1) =>
      match readMany s1 v bulk r with
      | (.error e, s2) => (.error e, s2)
      | (.ok bs, s2) => (.ok (b :: bs), s2)

/-- Join ranges that follow one another without a gap: a unit writes whole atoms where it has them (log 118). -/
def mergeRuns : List (Nat × List Byte) → List (Nat × List Byte)
  | [] => []
  | (a, b) :: r =>
    match mergeRuns r with
    | [] => [(a, b)]
    | (a2, b2) :: t => if a2 = a + b.length then (a, b ++ b2) :: t else (a, b) :: (a2, b2) :: t

/-- Write the ranges given in order. A range that must wait ends the writing; the first other error is
the answer (a write to a fenced channel is discarded and is no error: R287). -/
def writeRuns (s : State) (v : Via) (bulk : Bool) : List (Nat × List Byte) → Option MemErr × State
  | [] => (none, s)
  | (a, b) :: r =>
    match devWrite s v bulk a b with
    | (some .waits, s1) => (some .waits, s1)
    | (e, s1) =>
      let (e2, s2) := writeRuns s1 v bulk r
      (if e = none ∨ e = some .fenced then e2 else if e2 = some .waits then e2 else e, s2)

/-- Write ranges, those that follow one another without a gap as one. -/
def writeMany (s : State) (v : Via) (bulk : Bool) (l : List (Nat × List Byte)) : Option MemErr × State :=
  writeRuns s v bulk (mergeRuns l)

/-- Some range of a list must wait before it can be written; first-touch copies it needs have started. -/
def writesBlocked (s : State) (v : Via) (l : List (Nat × List Byte)) : Bool × State :=
  l.foldl (fun acc p =>
    let (b, s1) := writeBlocked acc.2 v false (piecesOf p.1 p.2.length)
    (acc.1 || b || heldBack acc.2 v p.1 p.2.length, s1)) (false, s)

/-! ### Operation descriptor fields (R223, R224) -/

/-- The operation kinds' codes (R232). -/
def Kind.ofCode : Nat → Option Kind
  | 0x01 => some .matmul | 0x02 => some .conv | 0x03 => some .vec | 0x04 => some .reduce
  | 0x05 => some .gather | 0x06 => some .scatter | 0x07 => some .convert | 0x08 => some .fill
  | 0x09 => some .genSet | 0x10 => some .remoteAcc | 0x11 => some .update | 0x12 => some .spin
  | 0x13 => some .fold | 0x18 => some .redScatter | 0x19 => some .gatherAll | _ => none

/-- `UNIT` (R223). -/
def dUnit (d : List Byte) : Nat := leField d 5 1 / 4 % 4
/-- The common `ROT` field as a size (R223): 0, 32, 64 or 128. -/
def rotSize (code : Nat) : Nat := if code = 0 then 0 else 16 * 2 ^ code
/-- The operation's rotation size. -/
def dRot (d : List Byte) : Nat := rotSize (leField d 5 1 % 4)
/-- `GRAD`. -/
def dGrad (d : List Byte) : Nat := leField d 1 1 / 16 % 4
/-- `STOCH`. -/
def dStoch (d : List Byte) : Bool := bitOf (leField d 1 1) 3
/-- `DONE_VALID`. -/
def dDoneValid (d : List Byte) : Bool := bitOf (leField d 1 1) 6
/-- `RANGE`: `ENG_BASE`. -/
def dEngBase (d : List Byte) : Nat := leField d 8 4 % 2 ^ 10
/-- `RANGE`: `ENG_COUNT`. -/
def dEngCount (d : List Byte) : Nat := leField d 8 4 / 2 ^ 10 % 2 ^ 11
/-- `RANGE`: `HEARTH_MASK`. -/
def dHearthMask (d : List Byte) : Nat := leField d 8 4 % 2 ^ 20
/-- `DONE_KNOT`: the 14-bit knot number. -/
def dKnot (d : List Byte) : Nat := leField d 12 2 % 2 ^ 14
/-- `DONE_KNOT`: `BCAST`. -/
def dKnotBcast (d : List Byte) : Bool := bitOf (leField d 12 2) 14
/-- `DONE_KNOT`: the increment. -/
def dKnotInc (d : List Byte) : Nat := leField d 14 2
/-- `GSITEi`. -/
def dSite (d : List Byte) (i : Nat) : Nat := leField d (56 + i) 1

/-- The rounding sites of a kind (R232). -/
def Kind.sites : Kind → Nat
  | .matmul | .conv | .vec | .reduce | .convert | .spin => 1
  | .update => 3
  | .fold => 2
  | .gather | .scatter | .fill | .genSet | .remoteAcc | .redScatter | .gatherAll => 0

/-- Output height or width of a CONV (R224). -/
def convOut (inp pad dil kern stride : Nat) : Int :=
  ((inp : Int) + 2 * pad - dil * ((kern : Int) - 1) - 1) / stride + 1

/-- OUT_H of a CONV descriptor. -/
def dOutH (d : List Byte) : Int :=
  convOut (leField d 68 2) (leField d 76 1) (leField d 78 1) (leField d 72 1) (leField d 74 1)
/-- OUT_W of a CONV descriptor. -/
def dOutW (d : List Byte) : Int :=
  convOut (leField d 70 2) (leField d 77 1) (leField d 79 1) (leField d 73 1) (leField d 75 1)

/-! ### Slot descriptor fields (R185) -/

/-- Rung r of a slot: primary and companion codes. -/
def slotRung (b : List Byte) (r : Nat) : Nat × Nat := (leField b (2 * r) 1, leField b (2 * r + 1) 1)
/-- `NRUNG`. -/
def slotNrung (b : List Byte) : Nat := leField b 12 1 % 8
/-- `ROLE`. -/
def slotRole (b : List Byte) : Nat := leField b 12 1 / 8 % 4
/-- `FLOOR`. -/
def slotFloor (b : List Byte) : Nat := leField b 13 1 % 8
/-- `CEIL`. -/
def slotCeil (b : List Byte) : Nat := leField b 13 1 / 8 % 8
/-- `CUR`. -/
def slotCur (b : List Byte) : Nat := leField b 14 1 % 8
/-- `EFF_FLOOR`. -/
def slotEffFloor (b : List Byte) : Nat := leField b 14 1 / 8 % 8
/-- `XBIAS`, `WBIAS`, `OBIAS`. -/
def slotXbias (b : List Byte) : Int := signedOf 16 (leField b 36 2)
/-- `WBIAS`. -/
def slotWbias (b : List Byte) : Int := signedOf 16 (leField b 38 2)
/-- `OBIAS`. -/
def slotObias (b : List Byte) : Int := signedOf 16 (leField b 40 2)

/-- Replace bytes of a descriptor from offset `o`. -/
def putField (b : List Byte) (o n v : Nat) : List Byte := overlay b o (leBytes n v)

/-- R186: the default ladder of a role laid over a slot descriptor: rungs, `NRUNG`, `FLOOR`, `CEIL`,
`CUR`, `SPUN_MASK`, and every other field at its Default column; the role is kept. -/
def slotDefault (b : List Byte) : List Byte :=
  let role := slotRole b
  let p := match role with
    | 0 => ([0x01, 0, 0x03, 0, 0x05, 0, 0x0A, 0, 0x0B, 0, 0, 0], 5, 4, 1, 3)
    | 1 => ([0x06, 0x05, 0x0A, 0, 0x0B, 0, 0, 0, 0, 0, 0, 0], 3, 2, 0, 0)
    | _ => ([0x0B, 0, 0, 0, 0, 0, 0, 0, 0, 0, 0, 0], 1, 0, 0, 0)
  p.1.map (BitVec.ofNat 8)
    ++ [BitVec.ofNat 8 (p.2.1 + 8 * role + 64 + 128), BitVec.ofNat 8 (8 * p.2.2.1),
        BitVec.ofNat 8 p.2.2.2.1, BitVec.ofNat 8 p.2.2.2.2]
    ++ leBytes 2 16 ++ leBytes 2 0 ++ leBytes 2 32 ++ leBytes 2 1024 ++ leBytes 2 4096 ++ leBytes 2 64
    ++ leBytes 2 64 ++ [1#8, 2#8] ++ leBytes 2 0xFFFF ++ leBytes 2 0
    ++ List.replicate 28 0#8

/-! ### What an operation computes in -/

/-- The formats of the streamed and stationary operands at rung r of a slot (R179, R187). -/
def rungFormats (slot : List Byte) (grad r : Nat) : Option (Fmt × Fmt) :=
  let (p, c) := slotRung slot r
  let c' := if c = 0 then p else c
  match Fmt.ofCode p, Fmt.ofCode c' with
  | some fp, some fc => if slotRole slot = 1 ∧ grad = 2 then some (fc, fp) else some (fp, fc)
  | _, _ => none

/-- The compute formats of an operation at a rung (R180, R231). -/
def OpRec.formats (o : OpRec) (r : Nat) : Fmt × Fmt :=
  let stored := ((o.x.map (·.fmt)).getD .ol16, (o.w.map (·.fmt)).getD .ol16)
  match o.slot with
  | none => stored
  | some _ => (rungFormats o.slotBytes (dGrad o.desc) r).getD stored

/-- Both operands are SK2 blocks (R109). -/
def splitMode (p : Fmt × Fmt) : Bool := p.1.isSk2 && p.2.isSk2

/-- Effective columns (R146). -/
def effCols (p : Fmt × Fmt) : Nat :=
  if splitMode p then 128 else match p.2.ply with | 2 => 32 | 3 => 21 | _ => 64

/-- The largest span (R146). -/
def spanLimit (p : Fmt × Fmt) : Nat := if splitMode p then 256 else 512

/-- Rows per span of an operation (R224). -/
def OpRec.span (o : OpRec) : Nat :=
  let f := leField o.desc 64 2
  if f = 0 then spanLimit (o.formats o.rung) else f

/-- The GEMM shape of a MATMUL or CONV: batches, M, N, K and groups of columns (R224, R227, R529). -/
structure Gemm where
  batches : Nat
  m : Nat
  n : Nat
  k : Nat
  groups : Nat := 1
  deriving DecidableEq, Repr

/-- The shape of an operation. -/
def OpRec.gemm (o : OpRec) : Gemm :=
  match o.x, o.w with
  | some x, some w =>
    if o.kind = .conv then
      let g := leField o.desc 80 2
      { batches := 1, m := leField o.desc 66 2 * (dOutH o.desc).toNat * (dOutW o.desc).toNat
        n := w.td.d1, k := leField o.desc 72 1 * leField o.desc 73 1 * (x.td.d0 / g), groups := g }
    else { batches := x.td.d2, m := x.td.d1, n := w.td.d1, k := x.td.d0 }
  | _, _ => { batches := 0, m := 0, n := 0, k := 0 }

/-- Slices of K (R146). -/
def Gemm.slices (g : Gemm) : Nat := (g.k + 191) / 192

/-- Columns of one group (R224: each group is a separate column-block set). -/
def Gemm.groupCols (g : Gemm) : Nat := g.n / g.groups

/-- Column blocks of the operation: those of each group in turn (R146, R224). -/
def Gemm.colBlocks (g : Gemm) (e : Nat) : Nat := g.groups * ((g.groupCols + e - 1) / e)

/-- Spans (R146). -/
def Gemm.spans (g : Gemm) (span : Nat) : Nat := (g.m + span - 1) / span

/-- Tiles of an operation (R146, R227). -/
def OpRec.tiles (o : OpRec) : Nat :=
  let g := o.gemm
  g.batches * g.spans o.span * g.colBlocks (effCols (o.formats o.rung))

/-- Where a tile lies: batch, group, first row and rows, first global column and columns (R146, R227). -/
structure TileBox where
  batch : Nat
  group : Nat
  m0 : Nat
  rows : Nat
  n0 : Nat
  cols : Nat
  deriving DecidableEq, Repr

/-- The box of tile t: t = (b × MT + mt) × NB + nb. -/
def OpRec.box (o : OpRec) (t : Nat) : TileBox :=
  let g := o.gemm
  let e := effCols (o.formats o.rung)
  let nb := g.colBlocks e
  let perGroup := (g.groupCols + e - 1) / e
  let mt := t / nb % g.spans o.span
  let grp := t % nb / perGroup
  let c0 := t % nb % perGroup * e
  { batch := t / nb / g.spans o.span, group := grp
    m0 := mt * o.span, rows := min o.span (g.m - mt * o.span)
    n0 := grp * g.groupCols + c0, cols := min e (g.groupCols - c0) }

/-- The passes a tile takes at the formats of its rung (R193): column passes by row passes. -/
def tilePasses (b : TileBox) (p : Fmt × Fmt) : Nat × Nat :=
  ((b.cols + effCols p - 1) / effCols p, (b.rows + spanLimit p - 1) / spanLimit p)

/-- The box of pass i: first row, rows, first column, columns, within the tile. -/
def passBox (b : TileBox) (p : Fmt × Fmt) (i : Nat) : Nat × Nat × Nat × Nat :=
  let rp := (tilePasses b p).2
  let m := i % rp * spanLimit p
  let n := i / rp * effCols p
  (m, min (spanLimit p) (b.rows - m), n, min (effCols p) (b.cols - n))

/-! ### The core feeder (R153–R156, R180) -/

/-- A run of operand elements along k as they reach the array, with what feeding them counted. -/
structure Feed where
  elems : List SkElem := []
  zps : List Int := []
  exps : List Int := []
  sat : Nat := 0
  flush : Nat := 0
  nonz : Nat := 0
  conv : Nat := 0
  maxL : Option Int := none
  invalid : Nat := 0
  ovfElems : Nat := 0
  ovfBlock : Bool := false
  misaligned : Bool := false
  deriving DecidableEq, Repr

/-- Two feeds one after the other. -/
def Feed.append (a b : Feed) : Feed :=
  { elems := a.elems ++ b.elems, zps := a.zps ++ b.zps, exps := a.exps ++ b.exps
    sat := a.sat + b.sat, flush := a.flush + b.flush, nonz := a.nonz + b.nonz, conv := a.conv + b.conv
    maxL := match a.maxL, b.maxL with
      | some x, some y => some (max x y)
      | some x, none => some x
      | none, y => y
    invalid := a.invalid + b.invalid, ovfElems := a.ovfElems + b.ovfElems
    ovfBlock := a.ovfBlock || b.ovfBlock, misaligned := a.misaligned || b.misaligned }

/-- A list of feeds in order. -/
def Feed.concat (l : List Feed) : Feed := l.foldl Feed.append {}

/-- The largest OL16 log of source values, special codes and zeros ignored (R181, R195). -/
def maxLogOf (xs : List Num) : Option Int :=
  xs.foldl (fun a x =>
    match x with
    | .log _ l => some (match a with | none => l | some b => max b l)
    | .lin _ m e => some (match a with | none => logNearest m e | some b => max b (logNearest m e))
    | .zero | .nan | .inf _ => a) none

/-- The first `cnt` elements of one skein block as the streamed or stationary feeder splits it: tag first, then header
(R86, R156). A poisoned block counts one invalid result (R84), a reserved ternary code one each (R79). -/
def feedBlock (fmt : Fmt) (tag : Nat) (blk : List Byte) (cnt : Nat) : Feed :=
  let es := (List.range cnt).map (blkElem fmt blk)
  let k := blkKind fmt blk
  let zp : Int := if fmt == .sk4u && k == .live then blkByte blk 3 else 0
  { elems := es
    zps := es.map fun e => if e.val.special then 0 else zp
    exps := List.replicate cnt ((blkByte blk 0 : Int) - 127)
    invalid := (es.filter (·.badCode)).length + (if k == .poisoned then 1 else 0)
    ovfBlock := k == .live && blkByte blk 2 % 8 == 5
    misaligned := blkByte blk 1 != tag % 256 }

/-- Elements in a format with whole bytes as they enter the array: raw INT8 with its zero point beside it, raw OL8 logs
without their bias (R102), and a padding position as zero (R224). -/
def feedCodes (fmt : Fmt) (z : Int) (codes : List (Option Nat)) : Feed :=
  { elems := codes.map fun c => match c with | some c => { val := readElem fmt 0 0 c } | none => {}
    zps := codes.map fun c => if c.isSome && fmt == .int8 then z else 0
    exps := codes.map fun _ => 0 }

/-- A staged line as it is split for the array, with what staging it counted. -/
def Staged.feed (g : Staged) : Feed :=
  let f := if g.fmt.isSkein then
      Feed.concat ((List.range g.blocks.length).map fun i =>
        let b := g.blocks.getD i (0, [])
        feedBlock g.fmt b.1 b.2 (min g.fmt.blockLen (g.n - i * g.fmt.blockLen)))
    else feedCodes g.fmt g.z g.codes
  { f with
    sat := g.counts.sat, flush := g.counts.flush, nonz := g.counts.nonz, conv := g.counts.conv, maxL := g.counts.maxL
    invalid := f.invalid + g.counts.invalid, ovfElems := g.counts.ovf }

/-- A feed that counts nothing: its line has been counted in an earlier pass of the tile's attempt (R193). -/
def Feed.uncounted (f : Feed) : Feed :=
  { f with sat := 0, flush := 0, nonz := 0, conv := 0, maxL := none, invalid := 0, ovfElems := 0 }

/-- Source values of a storage tensor, biases and zero points applied. -/
def sourceVals (t : Tensor) (codes : List Nat) : List Num := codes.map (readElem t.fmt t.bb t.z)

/-- Finite source values that are not zero. -/
def nonZeros (xs : List Num) : Nat := (xs.filter (fun x => x != .zero && !x.special)).length

/-- Charges of one kind among codes. -/
def chargesOf (c : Charge) (cs : List Coded) : Nat := (cs.filter (·.charge == c)).length

/-- R153: a line converted by the core feeder to a format with whole bytes, to nearest even: `bb` is the OL8 feed
bias. -/
def Staged.converted (g : Staged) (bb : Int) (o : OpRec) (xs : List Num) : Staged :=
  let d : Dest := { fmt := g.fmt, bb := bb, e4m3Nan := o.e4m3Nan, e5m2Inf := o.e5m2Inf }
  let cs := xs.map (d.convert none)
  { g with
    codes := cs.map fun c => some c.code
    counts := { sat := chargesOf .sat cs, flush := chargesOf .flush cs, nonz := nonZeros xs, conv := xs.length
                maxL := if g.fmt == .ol8 then maxLogOf xs else none, invalid := chargesOf .inv cs } }

/-- A source value as OL16 before a spin or rotation: a linear one by R72 and the range limits of R93,
charged to the feed (log 33). -/
def toOl16 (x : Num) : Coded := ({ fmt := .ol16 } : Dest).convert none x

/-- R155, R180: a line spun by the core feeder to nearest even, block by block from element `k0` of a line of `kTotal`.
Elements that spin to zero are not flushes (R190); the saturations and flushes of the conversion to OL16 ahead of the
spin are charged (log 33). -/
def Staged.spun (g : Staged) (margin kTotal : Nat) (xs : List Num) : Staged :=
  let len := g.fmt.blockLen
  let cs := xs.map toOl16
  let vals := cs.map fun c => readOl16 c.code
  let sp := (List.range ((xs.length + len - 1) / len)).map fun i =>
    let tag := g.line * ((kTotal + len - 1) / len) + g.k0 / len + i
    let ys := (vals.drop (i * len)).take len
    (tag, spinBlock g.fmt margin false tag (fun _ => none) (ys ++ List.replicate (len - ys.length) .zero))
  { g with
    blocks := sp.map fun b => (b.1, b.2.bytes)
    counts := { sat := (sp.map (·.2.sat)).sum + chargesOf .sat cs, flush := chargesOf .flush cs, nonz := nonZeros xs
                conv := xs.length, ovf := (sp.map (·.2.slubOvf)).sum } }

/-- Rotate every aligned block of B values (R154); the values come from a multiple of B. -/
def rotateRuns (b : Nat) : (fuel : Nat) → List Num → List Coded
  | 0, _ => []
  | fuel + 1, xs =>
    match xs with
    | [] => []
    | _ => rotateBlock (xs.take b) ++ rotateRuns b fuel (xs.drop b)

/-! ### Stationary entries (R149, R150) -/

/-- Even parity of 16 bits. -/
def parity16 (n : Nat) : Bool := oddPop 16 n

/-- An entry with its side bits (R149). -/
def Entry.of (bits res : Nat) : Entry :=
  { bits := BitVec.ofNat 16 bits, res := BitVec.ofNat 2 res, par := parity16 bits ^^ parity16 res }

/-- The entry's parity holds (R152). -/
def Entry.parityOk (e : Entry) : Bool := e.par == (parity16 e.bits.toNat ^^ parity16 e.res.toNat)

/-- A scale register with its parity (R150). -/
def ScaleReg.of (e8 : Nat) : ScaleReg := { e8 := BitVec.ofNat 8 e8, par := parity16 (e8 % 256) }
/-- The register's parity holds. -/
def ScaleReg.parityOk (r : ScaleReg) : Bool := r.par == parity16 r.e8.toNat

/-- A slub of a stationary slub list with its parity (R150). -/
def SlubEnt.of (k n code : Nat) : SlubEnt :=
  { k := k, n := n, code := BitVec.ofNat 16 code, par := parity16 (code % 2 ^ 16) ^^ parity16 k ^^ parity16 n }
/-- The slub's parity holds. -/
def SlubEnt.parityOk (u : SlubEnt) : Bool := u.par == (parity16 u.code.toNat ^^ parity16 u.k ^^ parity16 u.n)

/-- The OL16 code of a value on the log path (R149). -/
def logCode : Num → Nat
  | .zero => 0x4000
  | .nan => 0xC000
  | .inf n => (if n then 2 ^ 15 else 0) + 0x3FFF
  | .log n l => (if n then 2 ^ 15 else 0) + unsignedOf 15 l
  | .lin _ _ _ => 0xC000

/-- The Log layout (R149): the residue is that of the signed L (R133). -/
def logEntry (x : Num) : Entry := Entry.of (logCode x) (res3 (signedOf 15 (logCode x)))

/-- The Linear layout of cell c of a ply group (R149). -/
def linEntry (skein : Bool) (c : Nat) (x : Num) : Entry :=
  match x with
  | .lin n m e =>
    let sl := sliceOf m c
    Entry.of ((if n then 2 ^ 15 else 0) + sl * 2 ^ 11 + (if skein then 0 else unsignedOf 9 e)) (res3 sl)
  | .inf n => Entry.of ((if n then 2 ^ 15 else 0) + 2 ^ 9) 0
  | .nan => Entry.of (2 * 2 ^ 9) 0
  | .zero | .log _ _ => Entry.of 0 0

/-- The 2-bit code of an SK2 element (R79). -/
def sk2Code (x : Num) : Nat := match x with | .lin n m _ => unsignedOf 2 (signed n m) | _ => 0

/-- The Split layout (R149): the elements of output columns n and n + 64. -/
def splitEntry (lo hi : Num) : Entry :=
  let bits := sk2Code lo + 4 * sk2Code hi
  Entry.of bits (res3 bits)

/-- What a slub position holds in its entry: zero (R149). -/
def SkElem.cell (x : SkElem) : Num := if x.slub then .zero else x.val

/-- The entries of one array row for the columns of a pass (R149, R107, R109). -/
def rowEntries (fmt : Fmt) (split : Bool) (fs : List Feed) (k : Nat) : List Entry :=
  let cell := fun (f : Feed) => (f.elems.getD k {}).cell
  if split then
    (List.range (min 64 fs.length)).map fun p =>
      splitEntry (cell (fs.getD p {})) (match fs[p + 64]? with | some f => cell f | none => .zero)
  else if fmt.isLog then fs.map fun f => logEntry (cell f)
  else fs.flatMap fun f => (List.range fmt.ply).map fun c => linEntry fmt.isSkein c (cell f)

/-- The scale register of a column's rows from k on (R150): a poisoned SK2 block of split mode, whose cells have no class,
reads 255. -/
def scaleOf (split : Bool) (f : Feed) (k : Nat) : ScaleReg :=
  if split && (f.elems.getD k {}).val == .nan then ScaleReg.of 255
  else ScaleReg.of ((f.exps.getD k (-127) + 127).toNat)

/-- The scale registers of each physical column. -/
def bufScales (fmt : Fmt) (split : Bool) (fs : List Feed) : List (ScaleReg × ScaleReg) :=
  if !fmt.isSkein then []
  else if split then
    (List.range (min 64 fs.length)).map fun p =>
      (scaleOf true (fs.getD p {}) 0, match fs[p + 64]? with | some f => scaleOf true f 0 | none => ScaleReg.of 0)
  else fs.map fun f => (scaleOf false f 0, scaleOf false f (if fmt.isSk4 then 96 else 0))

/-- The slubs of one effective column, in rising k. -/
def colSlubs (j : Nat) (f : Feed) : List SlubEnt :=
  (List.range f.elems.length).filterMap fun k =>
    match f.elems.getD k {} with
    | { val := .log n l, slub := true, .. } => some (SlubEnt.of k j (logCode (.log n l)))
    | { val := .zero, slub := true, .. } => some (SlubEnt.of k j 0x4000)
    | _ => none

/-- Insert a slub in (k, n) order. -/
def insSlub (u : SlubEnt) : List SlubEnt → List SlubEnt
  | [] => [u]
  | v :: r => if u.k < v.k ∨ (u.k = v.k ∧ u.n < v.n) then u :: v :: r else v :: insSlub u r

/-- The stationary slub list of each physical column (R150). -/
def bufSlubs (fmt : Fmt) (split : Bool) (fs : List Feed) : List (List SlubEnt) :=
  if !fmt.isSkein then []
  else
    let cols := (List.range fs.length).map fun j => colSlubs j (fs.getD j {})
    if split then
      (List.range (min 64 fs.length)).map fun p => (cols.getD (p + 64) []).foldl (fun l u => insSlub u l) (cols.getD p [])
    else cols

/-- The physical column of an effective one: the lowest of its ply group (R107), or the one it shares (R109). -/
def Buf.phys (b : Buf) (j : Nat) : Nat := if b.split then j % 64 else if b.fmt.isLog then j else b.fmt.ply * j

/-- The entries of effective column j in array row k: those of its ply group. -/
def Buf.group (b : Buf) (k j : Nat) : List Entry :=
  ((b.rows.getD k []).drop (b.phys j)).take (if b.split || b.fmt.isLog then 1 else b.fmt.ply)

/-- The column of the scale registers and slub lists of an effective column. -/
def Buf.scale (b : Buf) (k j : Nat) : Nat :=
  let r := b.scales.getD (if b.split then j % 64 else j) ({}, {})
  (if b.split then (if j < 64 then r.1 else r.2) else if k < 96 then r.1 else r.2).e8.toNat

/-- The exponent that an entry's integer weighs (R104, R150): that of its scale register, 0 for INT8. -/
def Buf.exp (b : Buf) (k j : Nat) : Int := if b.fmt.isSkein then (b.scale k j : Int) - 127 else 0

/-- The value of the entries of a ply group in the Linear layout. -/
def linValue (fmt : Fmt) (e8 : Nat) (es : List Entry) : Num :=
  let b := (es.getD 0 {}).bits.toNat
  let neg := bitOf b 15
  let m := (List.range es.length).foldl (fun a c => a + (es.getD c {}).bits.toNat / 2 ^ 11 % 16 * 2 ^ (4 * c)) 0
  match b / 2 ^ 9 % 4 with
  | 0 => if m = 0 then .zero
         else .lin neg m (if fmt == .sk4f then (e8 : Int) - 128 else if fmt.isSkein then (e8 : Int) - 127 else signedOf 9 b)
  | 1 => .inf neg
  | _ => .nan

/-- The element of effective column j in array row k as its cell holds it, its slub apart (R149). -/
def Buf.cell (b : Buf) (k j : Nat) : Num :=
  let es := b.group k j
  if b.split then
    let bits := (es.getD 0 {}).bits.toNat
    if b.scale k j = 255 then .nan else skeinRaw b.fmt (b.scale k j) (if j < 64 then bits % 4 else bits / 4 % 4)
  else if b.fmt.isLog then readOl16 (es.getD 0 {}).bits.toNat
  else linValue b.fmt (b.scale k j) es

/-- The slub of effective column j at array row k, from the column's slub list. -/
def Buf.slubAt (b : Buf) (k j : Nat) : Option SlubEnt :=
  (b.slubs.getD (if b.split then j % 64 else j) []).find? fun u => u.k == k && u.n == j

/-- The element of effective column j in array row k (R149, R150). -/
def Buf.elem (b : Buf) (k j : Nat) : SkElem :=
  match b.slubAt k j with
  | some u => { val := readOl16 u.code.toNat, slub := true }
  | none => { val := b.cell k j }

/-- No parity error touches the buffer (R152). -/
def Buf.parityOk (b : Buf) : Bool :=
  b.rows.all (·.all Entry.parityOk) && b.scales.all (fun r => r.1.parityOk && r.2.parityOk)
    && b.slubs.all (·.all SlubEnt.parityOk)

/-- The zero point of a column's rows from k on (R75, R79). -/
def zpOf (f : Feed) (k : Nat) : Int := f.zps.getD k 0

/-- The sum of the raw values of elements k0 to k0 + 95 of a column or row, slubs apart (R165). -/
def rawSum (es : List SkElem) (k0 : Nat) : Dy := ((es.drop k0).take 96).foldl (fun a x => a.add x.cell.dy) ⟨0, 0⟩

end Sys2Proof.Machine
end

