-- ==== Sys2Proof/Machine/Flags.lean ====
section
/-!
DEFINITION. Status words (R228), tallies and their commitment (R181–R184), and the position register of
an engine (R178).
-/

namespace Sys2Proof.Machine

/-! ### Tallies -/

/-- The larger of two optional values. -/
def optMax (a b : Option Int) : Option Int :=
  match a, b with
  | some x, some y => some (max x y)
  | some x, none => some x
  | none, y => y

/-- The larger of two optional rungs. -/
def optMaxN (a b : Option Nat) : Option Nat :=
  match a, b with
  | some x, some y => some (max x y)
  | some x, none => some x
  | none, y => y

/-- A log held to I16, of which 0x8000 means none (R181). -/
def clampL (x : Option Int) : Option Int := x.map fun l => max (-32767) (min 32767 l)

/-- Add a histogram. -/
def histAdd (a b : Tab Nat) : Tab Nat :=
  b.foldl (fun h e => tset 0 h e.1 (satAdd (2 ^ 32 - 1) (tget 0 h e.1) e.2)) a

/-- R181: add a delta to a record, every counter saturating. -/
def Tally.add (a b : Tally) : Tally :=
  let u32 := satAdd (2 ^ 32 - 1)
  let u64 := satAdd (2 ^ 64 - 1)
  let u16 := satAdd (2 ^ 16 - 1)
  { hist := histAdd a.hist b.hist
    outputs := u64 a.outputs b.outputs, zeros := u32 a.zeros b.zeros, specials := u32 a.specials b.specials
    outSat := u32 a.outSat b.outSat, outFlush := u32 a.outFlush b.outFlush
    feedSat := u32 a.feedSat b.feedSat, feedFlush := u32 a.feedFlush b.feedFlush
    invalid := u32 a.invalid b.invalid, slubOvf := u32 a.slubOvf b.slubOvf
    shadowed := u64 a.shadowed b.shadowed, products := u64 a.products b.products
    elems := u64 a.elems b.elems, zeroElems := u64 a.zeroElems b.zeroElems
    digits := u64 a.digits b.digits, drag := u64 a.drag b.drag
    misalign := u16 a.misalign b.misalign, respin := u16 a.respin b.respin, refresh := u16 a.refresh b.refresh
    unrepaired := u16 a.unrepaired b.unrepaired, emptyRed := u32 a.emptyRed b.emptyRed
    xmax := clampL (optMax a.xmax b.xmax), wmax := clampL (optMax a.wmax b.wmax)
    tiles := u32 a.tiles b.tiles, respinTop := optMaxN a.respinTop b.respinTop
    feedElems := u64 a.feedElems b.feedElems }

/-- The line of a slot in a list of lines. -/
def lineOf (ls : List TLine) (job slot : Nat) : Option TLine :=
  ls.find? (fun l => l.job == job && l.slot == slot)

/-- A line's record: what is final and what attempts in progress have committed (R173, R183). -/
def TLine.total (l : TLine) : Tally := l.held.foldl (fun a h => a.add h.rcd) l.rcd

/-- The line handed over whole. -/
def TLine.settled (l : TLine) : TLine := { l with rcd := l.total, held := [] }

/-- Add what an attempt commits to those of its tile before it. -/
def heldAdd (op tile : Nat) (d : Tally) : List Held → List Held
  | [] => [{ op := op, tile := tile, rcd := d }]
  | h :: r => if h.op = op ∧ h.tile = tile then { h with rcd := h.rcd.add d } :: r else h :: heldAdd op tile d r

/-- Add a record into a list of lines, as a die tally table does (R184). -/
def tableAdd (ls : List TLine) (l : TLine) : List TLine :=
  if (lineOf ls l.job l.slot).isSome then
    ls.map fun k =>
      if k.job == l.job && k.slot == l.slot then
        { k with rcd := k.rcd.add l.rcd, held := l.held.foldl (fun hs h => heldAdd h.op h.tile h.rcd hs) k.held }
      else k
  else ls ++ [l]

/-- R184: a slot is named on a core: its line becomes the most recently named; a 33rd line displaces the
least recently named one into the die tally table. -/
def nameSlot (s : State) (core job slot : Nat) : State :=
  let ls := tget [] s.tlines core
  let mine := (lineOf ls job slot).getD { job := job, slot := slot, rcd := {} }
  let rest := ls.filter (fun l => !(l.job == job && l.slot == slot))
  let s1 := { s with tlines := tset [] s.tlines core (mine :: rest.take 31) }
  match rest[31]? with
  | none => s1
  | some l => { s1 with tin := tset [] s1.tin (core / 64) (tableAdd (tget [] s1.tin (core / 64)) l) }

/-- Change the line of a slot on a core. A slot whose line was displaced or swapped out takes a line again, as when an
operation names it; a commitment to a line that stands names nothing (R184; log 130). -/
def onLine (s : State) (core job slot : Nat) (f : TLine → TLine) : State :=
  let s1 := if (lineOf (tget [] s.tlines core) job slot).isSome then s else nameSlot s core job slot
  { s1 with tlines := tset [] s1.tlines core ((tget [] s1.tlines core).map fun l =>
      if l.job == job && l.slot == slot then f l else l) }

/-- Commit a delta to the tally unit of a core for good (R173, R183). -/
def tallyCore (s : State) (core job slot : Nat) (d : Tally) : State :=
  onLine s core job slot fun l => { l with rcd := l.rcd.add d }

/-- Commit a delta of a hearth to its die agent (R183). -/
def tallyDie (s : State) (die job slot : Nat) (d : Tally) : State :=
  { s with tin := tset [] s.tin die (tableAdd (tget [] s.tin die) { job := job, slot := slot, rcd := d }) }

/-- Commit a delta of an operation at a core, when the operation names a slot. -/
def tallyOp (s : State) (core : Nat) (o : OpRec) (d : Tally) : State :=
  match o.slot with
  | none => s
  | some sl => tallyCore s core o.job sl d

/-- Commit the delta of a sealed chunk (R173): the tile takes it back if the attempt is discarded (R183). -/
def tallyHold (s : State) (core : Nat) (o : OpRec) (op tile : Nat) (d : Tally) : State :=
  match o.slot with
  | none => s
  | some sl => onLine s core o.job sl fun l => { l with held := heldAdd op tile d l.held }

/-- Change every line of the cores and every record of the tables that gather (R184). -/
def onTallies (s : State) (f : TLine → TLine) : State :=
  { s with tlines := s.tlines.map fun p => (p.1, p.2.map f), tin := s.tin.map fun p => (p.1, p.2.map f) }

/-- R183: the attempt of a tile is discarded, and what it committed since the last swap with it. -/
def tallyDrop (s : State) (op tile : Nat) : State :=
  onTallies s fun l => { l with held := l.held.filter fun h => !(h.op == op && h.tile == tile) }

/-- The same for every tile of an operation. -/
def tallyDropOp (s : State) (op : Nat) : State :=
  onTallies s fun l => { l with held := l.held.filter fun h => h.op != op }

/-- A tile has drained: what its attempt committed stays. -/
def tallyKeep (s : State) (op tile : Nat) : State :=
  onTallies s fun l =>
    { l with rcd := (l.held.filter fun h => h.op == op && h.tile == tile).foldl (fun a h => a.add h.rcd) l.rcd
             held := l.held.filter fun h => !(h.op == op && h.tile == tile) }

/-! ### Outputs and the histogram -/

/-- floor(log2 |x|) of a value as written (R182). -/
def outExp : Num → Option Int
  | .log _ l => some (logInt l)
  | .lin _ m e => if m = 0 then none else some ((m.log2 : Int) + e)
  | .zero | .nan | .inf _ => none

/-- R182: the bin of an exponent. -/
def outBin (e : Int) : Nat := (min 63 (max 0 ((e + 64) / 2))).toNat

/-- The deltas of one output (R181): the code written, the value it has, its charge, and whether it left
as NaN by R112. -/
def outTally (fmt : Fmt) (bb z : Int) (c : Coded) (nanByRule : Bool) : Tally :=
  let v := readElem fmt bb z c.code
  { outputs := 1
    hist := match outExp v with | some e => [(outBin e, 1)] | none => []
    zeros := if v == .zero then 1 else 0
    specials := if v.special then 1 else 0
    outSat := if c.charge == .sat then 1 else 0
    outFlush := if c.charge == .flush then 1 else 0
    invalid := if nanByRule || c.charge == .inv then 1 else 0 }

/-! ### Status words (R228) -/

/-- The low 13 bits of an operation's status word. -/
def OpRec.status (o : OpRec) : Nat :=
  o.code % 256 + (if o.unrepaired then 2 ^ 8 else 0) + (if o.invalid then 2 ^ 9 else 0)
    + (if o.respun then 2 ^ 10 else 0) + (if o.refreshed then 2 ^ 11 else 0) + (if o.storm then 2 ^ 12 else 0)

/-- The whole status word: tag above, status below. -/
def statusWord (tag status : Nat) : Nat := tag * 2 ^ 32 + status % 2 ^ 13

/-- R228: the combination of SEALW with FN[0] = 1: the OR of the flags and the lowest non-zero code. -/
def combineStatus (a b : Nat) : Nat :=
  let ca := a % 256
  let cb := b % 256
  let code := if ca = 0 then cb else if cb = 0 then ca else min ca cb
  (a / 256 ||| b / 256) * 256 + code

/-- The status of a tag the sequencer no longer keeps (R226): code STALE. -/
def staleStatus : Nat := 0x0F

/-! ### Engine position (R178) -/

/-- The `STATE` field of `ENG_POS`. Where several hold at once (log 131): an engine held with no chunk streaming reads held;
else streaming comes before sealing, a complete buffer before its drain reads sealing, and anything else of a tile in
progress loading; with no tile, pre-empted comes before draining. -/
def Engine.posState (e : Engine) : Nat :=
  let held := e.capHold || e.heatHold || e.haltHold || e.hubHold
  match e.cur with
  | some t =>
    if held && t.cur.isNone then 5
    else if t.cur.isSome then 2
    else if t.sealing.isSome then 3
    else if t.out.isSome then 3
    else 1
  | none => if !e.saved.isEmpty then 6 else if !e.drains.isEmpty then 4 else 0

/-- `SLICE` of `ENG_POS` (R178): the slice of the chunk that streams, as in the example of R504; else the next to run. -/
def TileRun.slicePos (t : TileRun) : Nat := match t.cur with | some c => c.buf.slice | none => t.nextSlice

/-- `ENG_POS` (R178). -/
def Engine.pos (e : Engine) : Nat :=
  let t := match e.cur with
    | some t => some t
    | none => match e.saved with
      | t :: _ => some t
      | [] => e.drains.head?
  e.posState * 2 ^ 13 + match t with
    | none => 0
    | some t =>
      t.tile % 2 ^ 24 * 2 ^ 40 + t.slicePos % 2 ^ 24 * 2 ^ 16 + t.rung % 8 * 8
        + (if t.respun then 4 else 0) + (if t.faultRetry then 2 else 0) + (if t.misRetry then 1 else 0)

/-- The invalid capture register (R113). -/
def InvCap.word (c : Option InvCap) : Nat :=
  match c with
  | none => 0
  | some c => 2 ^ 63 + c.path % 4 * 2 ^ 61 + c.tile % 2 ^ 24 * 2 ^ 32 + c.m % 2 ^ 16 * 2 ^ 16
      + c.k % 256 * 2 ^ 8 + c.n % 256

/-- R113: index order of captures. -/
def InvCap.lower (a b : InvCap) : Bool :=
  decide (a.tile < b.tile) || (a.tile == b.tile && (decide (a.m < b.m) || (a.m == b.m &&
    (decide (a.k < b.k) || (a.k == b.k && decide (a.n < b.n))))))

end Sys2Proof.Machine
end

