-- ==== Sys2Proof/Machine/Engine.lean ====
section
/-!
DEFINITION. The engine array: feeding, streaming, checks, sealing, rounding, draining, re-spins, faults
and pre-emption (chapters "The engine array" and "Precision per layer").
-/

namespace Sys2Proof.Machine

/-! ### Access -/

/-- An engine. -/
def getEng (s : State) (e : Nat) : Engine := tget {} s.engines e
/-- Replace an engine. -/
def setEng (s : State) (e : Nat) (g : Engine) : State := { s with engines := tset {} s.engines e g }
/-- Replace the tile in progress of an engine. -/
def setCur (s : State) (e : Nat) (t : Option TileRun) : State := setEng s e { getEng s e with cur := t }
/-- An operation in flight. -/
def getOp (s : State) (k : Nat) : Option OpRec := tget none s.ops k
/-- Replace an operation. -/
def setOp (s : State) (k : Nat) (o : Option OpRec) : State := { s with ops := tset none s.ops k o }
/-- The core of an engine (R3). -/
def coreOfEng (e : Nat) : Nat := e / 4
/-- The cluster of an engine (R3). -/
def clusterOfEng (e : Nat) : Nat := e / 32
/-- The die of an engine (R3). -/
def dieOfEng (e : Nat) : Nat := e / 256
/-- The requester an operation's addresses resolve against (R526), from the die of the unit that reads. -/
def opVia (o : OpRec) (die : Option Nat) : Via := { home := o.home, die := die }

/-- R419: an event of a core's local source j: 0 invalid capture … 7 engine retired. -/
def coreEvent (s : State) (core j source kind code data : Nat) : State :=
  localEvent s (core / 8) (8 * (core % 8) + j) source kind code data

/-- The slot field of an event (R527). -/
def slotField (o : OpRec) : Nat := o.slot.getD 0xFFFF

/-- The data of events 0x0102 and 0x0107 (R527). -/
def tileEventData (o : OpRec) (tile rung unit : Nat) : Nat :=
  atByte 16 (slotField o) + atByte 18 o.tag + atByte 22 tile + atByte 25 rung + atByte 26 unit + atByte 28 o.queue

/-! ### Failing and finishing operations -/

/-- Drop every tile of operation k from an engine. -/
def Engine.dropOp (g : Engine) (k : Nat) : Engine :=
  { g with
    todo := g.todo.filter (fun t => t.1 != k), restarts := g.restarts.filter (fun t => t.op != k)
    cur := match g.cur with | some t => if t.op == k then none else some t | none => none
    drains := g.drains.filter (fun t => t.op != k)
    saved := g.saved.filter (fun t => t.op != k) }

/-- Drop an operation's tiles from every engine, and what their attempts have committed to the tallies (R183). -/
def dropTiles (s : State) (k : Nat) : State :=
  let s1 := tallyDropOp s k
  { s1 with engines := (s1.engines.map fun e => (e.1, e.2.dropOp k)).filter (fun e => e.2 != {}) }

/-- An operation fails with a code (R114, R156, R175, R228, R374): its tiles and parts stop, and it is
finished. -/
def failOp (s : State) (k code : Nat) : State :=
  match getOp s k with
  | none => s
  | some o =>
    dropTiles (setOp s k (some { o with code := if o.code = 0 then code else o.code, finished := true, parts := [] })) k

/-- The code of an operation whose access ended in an error (R228, R270, R284, R287). -/
def errCode : MemErr → Nat
  | .ash => 0x05
  | .unmapped | .poisoned | .fenced | .waits => 0x07

/-! ### Feeding operands (R153–R156, R180) -/

/-- Weave read codes with the positions that read as zero (padding). -/
def weave : List (Option Nat) → List (List Byte) → List (Option Nat)
  | [], _ => []
  | none :: r, bs => none :: weave r bs
  | some _ :: r, b :: bs => some (leNat b) :: weave r bs
  | some _ :: r, [] => none :: weave r []

/-- Read element codes at the addresses given; none is a padding position. -/
def readCodes (s : State) (v : Via) (eb : Nat) (addrs : List (Option Nat)) :
    Except MemErr (List (Option Nat)) × State :=
  match readMany s v false (addrs.filterMap (fun a => a.map (·, eb))) with
  | (.error e, s1) => (.error e, s1)
  | (.ok bs, s1) => (.ok (weave addrs bs), s1)

/-- The address of X element k of row m of a tile (R221, R224, R529); none is padding. -/
def xAddr (o : OpRec) (t : Tensor) (b : TileBox) (m k : Nat) : Option Nat :=
  if o.kind = .conv then
    let g := leField o.desc 80 2
    let cg := t.td.d0 / g
    let kw := leField o.desc 73 1
    let c := k % cg
    let ow := (dOutW o.desc).toNat
    let oh := (dOutH o.desc).toNat
    let ih : Int := (m / ow % oh * leField o.desc 74 1 + k / cg / kw * leField o.desc 78 1 : Nat) - leField o.desc 76 1
    let iw : Int := (m % ow * leField o.desc 75 1 + k / cg % kw * leField o.desc 79 1 : Nat) - leField o.desc 77 1
    if ih < 0 ∨ iw < 0 ∨ ih ≥ leField o.desc 68 2 ∨ iw ≥ leField o.desc 70 2 then none
    else some (t.td.elemAddr t.fmt.bytes (b.group * cg + c) iw.toNat (ih.toNat + m / ow / oh * leField o.desc 68 2))
  else some (t.td.elemAddr t.fmt.bytes k m b.batch)

/-- The address of W element (k, n) of a tile's batch. -/
def wAddr (t : Tensor) (b : TileBox) (k n : Nat) : Nat :=
  t.td.elemAddr t.fmt.bytes k n (if t.td.d2 = 1 then 0 else b.batch)

/-- Values of codes read, with padding as zero; stored feeds keep raw codes apart. -/
def valsOf (t : Tensor) (cs : List (Option Nat)) : List Num :=
  cs.map fun c => match c with | none => .zero | some c => readElem t.fmt t.bb t.z c

/-- A line of a skein tensor as stored: the blocks of a column or row that cover elements [k0, k0 + n) of K (R83). -/
def stageBlocks (s : State) (v : Via) (t : Tensor) (g : Staged) : Except MemErr Staged × State :=
  let len := t.fmt.blockLen
  let idx := (List.range ((g.n + len - 1) / len)).map fun i => t.td.blockIndex len g.line (g.k0 / len + i)
  match readMany s v false (idx.map fun i => (t.td.base + 64 * i, 64)) with
  | (.error e, s1) => (.error e, s1)
  | (.ok bs, s1) => (.ok { g with fmt := t.fmt, blocks := idx.zip bs }, s1)

/-- Convert or spin source values into the line's format (R153, R155, R180). -/
def stageTo (o : OpRec) (bb : Int) (g : Staged) (xs : List Num) : Staged :=
  if g.fmt.isSkein then g.spun o.slubMargin o.gemm.k xs else g.converted bb o xs

/-- The OL8 feed biases in force for a tile: those of its scale refresh, else the slot's (R195, R200). -/
def tileBiasX (o : OpRec) (t : TileRun) : Int := t.bbX.getD (slotXbias o.slotBytes)
/-- The stationary side's feed bias. -/
def tileBiasW (o : OpRec) (t : TileRun) : Int := t.bbW.getD (slotWbias o.slotBytes)

/-- Whether the core feeder rotates the streamed operand of a tile (R154, R180). -/
def rotates (o : OpRec) (t : TileRun) (f : Fmt × Fmt) : Bool :=
  dRot o.desc != 0 && o.slot.isSome && f.2.isSkein && !t.respun

/-- R153–R155, R180: the core feeder stages elements [k0, k0 + cnt) of streamed row m (global) of a tile. -/
def stageX (s : State) (o : OpRec) (t : TileRun) (die m k0 cnt : Nat) : Except MemErr Staged × State :=
  let f := o.formats t.rung
  let g : Staged := { stationary := false, line := m, k0 := k0, n := cnt, fmt := f.1 }
  match o.x with
  | none => (.ok g, s)
  | some x =>
    let v := opVia o (some die)
    let b := o.box t.tile
    if x.fmt.isSkein then stageBlocks s v x g
    else
      let rb := dRot o.desc
      let rot := x.fmt != f.1 && rotates o t f
      let lo := if rot then k0 / rb * rb else k0
      let hi := if rot then (k0 + cnt + rb - 1) / rb * rb else k0 + cnt
      match readCodes s v x.fmt.bytes ((List.range (hi - lo)).map fun i => xAddr o x b m (lo + i)) with
      | (.error e, s1) => (.error e, s1)
      | (.ok cs, s1) =>
        if x.fmt = f.1 then (.ok { g with codes := cs, z := x.z }, s1)
        else
          let vals := valsOf x cs
          if rot then
            let rc := ((rotateRuns rb (vals.length + 1) vals).drop (k0 - lo)).take cnt
            let g1 := stageTo o (tileBiasX o t) g (rc.map fun c => readOl16 c.code)
            (.ok { g1 with counts := { g1.counts with
              sat := g1.counts.sat + chargesOf .sat rc, flush := g1.counts.flush + chargesOf .flush rc } }, s1)
          else (.ok (stageTo o (tileBiasX o t) g vals), s1)

/-- R180: the core feeder stages elements [k0, k0 + cnt) of stationary column n (global) of a tile. -/
def stageW (s : State) (o : OpRec) (t : TileRun) (die n k0 cnt : Nat) : Except MemErr Staged × State :=
  let f := o.formats t.rung
  let g : Staged := { stationary := true, line := n, k0 := k0, n := cnt, fmt := f.2 }
  match o.w with
  | none => (.ok g, s)
  | some w =>
    let v := opVia o (some die)
    let b := o.box t.tile
    if o.slot.isSome && f.2.isSkein && !t.respun then
      match o.spun.getD t.rung none with
      | some c => stageBlocks s v c g
      | none => (.error .unmapped, s)
    else if w.fmt.isSkein then stageBlocks s v w g
    else
      match readCodes s v w.fmt.bytes ((List.range cnt).map fun i => some (wAddr w b (k0 + i) n)) with
      | (.error e, s1) => (.error e, s1)
      | (.ok cs, s1) =>
        if w.fmt = f.2 then (.ok { g with codes := cs, z := w.z }, s1)
        else (.ok (stageTo o (tileBiasW o t) g (valsOf w cs)), s1)

/-- The staging copy of a line, if the tile has one. -/
def TileRun.lineAt (t : TileRun) (stationary : Bool) (line k0 : Nat) : Option Staged :=
  t.staged.find? fun g => g.stationary == stationary && g.line == line && g.k0 == k0

/-- Elements [k0, k0 + cnt) of streamed row m from the tile's staging copy, which the core feeder fills first where the line
is not in it (R151, R153). -/
def feedX (s : State) (o : OpRec) (t : TileRun) (die m k0 cnt : Nat) : Except MemErr (Feed × TileRun) × State :=
  match t.lineAt false m k0 with
  | some g => (.ok (g.feed, t), s)
  | none =>
    match stageX s o t die m k0 cnt with
    | (.error e, s1) => (.error e, s1)
    | (.ok g, s1) => (.ok (g.feed, { t with staged := t.staged ++ [g] }), s1)

/-- The same for stationary column n. -/
def feedW (s : State) (o : OpRec) (t : TileRun) (die n k0 cnt : Nat) : Except MemErr (Feed × TileRun) × State :=
  match t.lineAt true n k0 with
  | some g => (.ok (g.feed, t), s)
  | none =>
    match stageW s o t die n k0 cnt with
    | (.error e, s1) => (.error e, s1)
    | (.ok g, s1) => (.ok (g.feed, { t with staged := t.staged ++ [g] }), s1)

/-- Feed several columns in turn. -/
def feedCols (s : State) (o : OpRec) (t : TileRun) (die k0 cnt : Nat) :
    List Nat → Except MemErr (List Feed × TileRun) × State
  | [] => (.ok ([], t), s)
  | n :: r =>
    match feedW s o t die n k0 cnt with
    | (.error e, s1) => (.error e, s1)
    | (.ok (f, t1), s1) =>
      match feedCols s1 o t1 die k0 cnt r with
      | (.error e, s2) => (.error e, s2)
      | (.ok (fs, t2), s2) => (.ok (f :: fs, t2), s2)

/-- The feed counts of a tally (R181): saturations and flushes of feeder conversions and spins, slub
overflows, invalid results, and the largest log of a side fed as OL8. -/
def feedTally (fs : List Feed) (xSide : Bool) : Tally :=
  let mx := fs.foldl (fun a f => optMax a f.maxL) none
  { feedSat := (fs.map (·.sat)).sum, feedFlush := (fs.map (·.flush)).sum
    invalid := (fs.map (·.invalid)).sum, slubOvf := (fs.map (·.ovfElems)).sum
    feedElems := (fs.map (·.conv)).sum
    xmax := if xSide then mx else none
    wmax := if xSide then none else mx }

/-! ### Wide sums of the checks (R161–R163) -/

/-- A value truncated toward zero to 62 bits (R119, R163). -/
def trunc62 (d : Dy) : Dy × Bool :=
  let n := bitlen d.m.natAbs
  if n ≤ 62 then (d, false)
  else
    let k := n - 62
    (⟨signed (decide (d.m < 0)) (d.m.natAbs / 2 ^ k), d.e + k⟩, d.m.natAbs % 2 ^ k != 0)

/-- Promote an exact value. -/
def WAcc.addDy (w : WAcc) (d : Dy) : WAcc :=
  let (t, lost) := trunc62 d
  promote w t.m t.e {} lost

/-- The exact value an accumulator holds. -/
def WAcc.dy (w : WAcc) : Dy := ⟨w.sig, w.exp⟩

/-- |a − b| ≤ 2^x. -/
def within (a b : Dy) (x : Int) : Bool :=
  let d := a.add b.neg
  Dy.le ⟨d.m.natAbs, d.e⟩ ⟨1, x⟩

/-- The checksum-column entry of array row k: the sum of its stationary values over the effective columns, slubs
included (R161). -/
def checksumEntry (fs : List Feed) (k : Nat) : WAcc := fs.foldl (fun a f => a.addNum (f.elems.getD k {}).val) {}

/-! ### Starting tiles and loading slices (R147, R149–R151) -/

/-- No hold stops the engine from starting a chunk (R176). -/
def Engine.mayStart (g : Engine) : Bool :=
  !(g.capHold || g.heatHold || g.haltHold || g.hubHold || g.fenced || g.retired)

/-- A proof test of the engine is due (R377). -/
def proofDue (s : State) (e : Nat) : Bool :=
  dget s Key.proofTiles != 0 && decide ((getEng s e).tiles ≥ dget s Key.proofTiles)

/-- The engines of a core. -/
def coreEngines (core : Nat) : List Nat := (List.range 4).map (· + 4 * core)

/-- Accumulator banks of a core that hold a tile's contents: running, draining and held tiles (R166, R174). -/
def banksUsed (s : State) (core : Nat) : Nat :=
  ((coreEngines core).map fun e =>
    let g := getEng s e
    (if g.cur.isSome then 1 else 0) + g.drains.length + (g.saved.filter (fun t => !t.spilled)).length).sum

/-- The core has a free bank of its six (R166). -/
def bankFree (s : State) (core : Nat) : Bool := decide (banksUsed s core < 6)

/-- Order of starting: operations in order of issue, and their tiles by number (R227). -/
def tileBefore (a b : Nat × Nat) : Bool := decide (a.1 < b.1) || (a.1 == b.1 && decide (a.2 < b.2))

/-- Take up the oldest held tile of the core (R148, R174): its bank is fetched back where it was spilled, which takes a free
one. -/
def takeSaved (s : State) (e : Nat) : State :=
  match (coreEngines (e / 4)).find? (fun j => !(getEng s j).saved.isEmpty) with
  | none => s
  | some j =>
    match (getEng s j).saved with
    | [] => s
    | t :: rest =>
      if t.spilled && !bankFree s (e / 4) then s
      else setCur (setEng s j { getEng s j with saved := rest }) e (some { t with spilled := false })

/-- The tile an engine takes up next: the first given to it that has not started, or restarts here, in the order of R227; else
a pre-empted tile of its core (R148, R174). A new tile takes a free bank (R166). None while a proof test is due. -/
def takeTile (s : State) (e : Nat) : State :=
  let g := getEng s e
  if g.cur.isSome || !g.mayStart || s.flt.hubFault || proofDue s e then s
  else
    match g.todo, g.restarts with
    | [], [] => takeSaved s e
    | [], r :: rs => if bankFree s (e / 4) then setEng s e { g with restarts := rs, cur := some r } else s
    | (k, t) :: rest, rs =>
      if !bankFree s (e / 4) then s
      else
        match rs with
        | r :: rs' =>
          if tileBefore (r.op, r.tile) (k, t) then setEng s e { g with restarts := rs', cur := some r }
          else
            match getOp s k with
            | none => setEng s e { g with todo := rest }
            | some o => setEng s e { g with todo := rest, cur := some { op := k, tile := t, rung := o.rung } }
        | [] =>
          match getOp s k with
          | none => setEng s e { g with todo := rest }
          | some o => setEng s e { g with todo := rest, cur := some { op := k, tile := t, rung := o.rung } }

/-- Buffers of the engine that hold a slice: loaded, streaming or in their checksum-row pass (R151). -/
def TileRun.buffers (t : TileRun) : Nat :=
  t.bufs.length + (if t.cur.isSome then 1 else 0) + (if t.sealing.isSome then 1 else 0)

/-- The next pass and slice after a given one. -/
def nextSlice (slices pass slice : Nat) : Nat × Nat := if slice + 1 < slices then (pass, slice + 1) else (pass + 1, 0)

/-- Passes of a tile at its rung. -/
def tilePassCount (o : OpRec) (t : TileRun) : Nat :=
  let p := tilePasses (o.box t.tile) (o.formats t.rung)
  p.1 * p.2

/-- Discard an attempt: the tile starts again at slice 0 of pass 0 with fresh banks (R175, R193). What the core feeder staged
stays (R152), and the rescale entries are not read again (R168; log 128). -/
def TileRun.restart (t : TileRun) : TileRun :=
  { t with phase := .running, loadPass := 0, loadSlice := 0, nextSlice := 0, bufs := [], cur := none, sealing := none
           sealed := 0, bank := [], satX := 0, satW := 0, flushX := 0, flushW := 0, nonzX := 0, nonzW := 0
           slubOvf := false, lastTally := {}, lastCap := none, out := none, outTally := {}, failed := {} }

/-- An attempt is discarded: the tile's deltas leave the tallies that have not been handed over (R183), and it starts again. -/
def restartTile (s : State) (e : Nat) (t : TileRun) : State := setCur (tallyDrop s t.op t.tile) e (some t.restart)

/-! ### Pre-emption (R174) -/

/-- Every chunk of the tile has streamed and passed its row check. -/
def TileRun.chunksDone (o : OpRec) (t : TileRun) : Bool :=
  decide (o.gemm.slices = 0) ||
    (decide (t.loadPass ≥ tilePassCount o t) && t.bufs.isEmpty && t.cur.isNone && t.sealing.isNone)

/-- The pass and slice of the next chunk to run, its loaded buffers given up (R174). The streamed operand is fetched again;
what a replay allocation holds stays (R195). -/
def TileRun.rewind (t : TileRun) : TileRun :=
  let t1 := if t.replay = 0 then { t with staged := t.staged.filter (·.stationary) } else t
  match t1.bufs with
  | [] => t1
  | b :: _ => { t1 with loadPass := b.pass, loadSlice := b.slice, bufs := [] }

/-- The place of the next bank to be held among those of a core. -/
def nextOrder (s : State) (core : Nat) : Nat :=
  ((coreEngines core).flatMap fun e => (getEng s e).saved.map (·.order)).foldl max 0 + 1

/-- R174: while no bank of the core is free, the oldest held one is spilled to hearth memory. -/
def spillOldest (s : State) (core : Nat) : State :=
  if bankFree s core then s
  else
    let held := (coreEngines core).flatMap fun e => ((getEng s e).saved.filter (fun t => !t.spilled)).map fun t => (e, t.order)
    match held with
    | [] => s
    | h :: r =>
      let m := r.foldl (fun a b => if b.2 < a.2 then b else a) h
      let g := getEng s m.1
      setEng s m.1 { g with saved := g.saved.map fun t => if t.order = m.2 then { t with spilled := true } else t }

/-- A pre-emption takes effect once no chunk streams or awaits its seal (R174, R177). -/
def settle (s : State) (e : Nat) : State :=
  let g := getEng s e
  if !g.preempt then s
  else
    match g.cur with
    | none => setEng s e { g with preempt := false }
    | some t =>
      match getOp s t.op with
      | none => setEng s e { g with preempt := false, cur := none }
      | some o =>
        if t.cur.isSome || t.sealing.isSome || (t.phase == .running && t.chunksDone o) then s
        else
          spillOldest (setEng s e { g with
            preempt := false, cur := none, saved := g.saved ++ [{ t.rewind with order := nextOrder s (e / 4) }] }) (e / 4)

/-! ### Misalignments and faults (R156, R175, R177) -/

/-- The event of a second misalignment in a tile (R156, R527). -/
def misalignEvent (s : State) (e : Nat) (o : OpRec) (t : TileRun) : State :=
  coreEvent (failOp s t.op 0x02) (coreOfEng e) 2 0x0107 2 0 (tileEventData o t.tile t.rung e)

/-- A skein misalignment in a tile (R156): tallied; the tile restarts with its operands fetched again from memory, or the
second one fails the operation and raises an event. -/
def misalign (s : State) (e : Nat) (o : OpRec) (t : TileRun) : State :=
  let s1 := tallyOp s (coreOfEng e) o { misalign := 1 }
  settle (if t.misRetry then misalignEvent s1 e o t else restartTile s1 e { t with misRetry := true, staged := [] }) e

/-- An engine that takes tiles: not retired and not quenched (R376, R461). -/
def engLive (s : State) (e : Nat) : Bool := !(getEng s e).retired && !(getEng s e).fenced

/-- Insert a tile in the order of R227. -/
def insTile (kt : Nat × Nat) : List (Nat × Nat) → List (Nat × Nat)
  | [] => [kt]
  | x :: r => if tileBefore kt x then kt :: x :: r else x :: insTile kt r

/-- The same for a tile that restarts. -/
def insRestart (t : TileRun) : List TileRun → List TileRun
  | [] => [t]
  | x :: r => if tileBefore (t.op, t.tile) (x.op, x.tile) then t :: x :: r else x :: insRestart t r

/-- Move a tile of a retired or quenched engine to a live engine of its range, in the order of R227; its staging copies stay
behind in another core's store. An operation whose range holds no live engine fails with FAULT, or with ASH where some are
only quenched (R376, R461). -/
def reassignTile (s : State) (e : Nat) (kt : Nat × Nat) (t : Option TileRun) : State :=
  match getOp s kt.1 with
  | none => s
  | some o =>
    let range := (List.range (dEngCount o.desc)).map (· + dEngBase o.desc)
    let live := range.filter (engLive s)
    match live[kt.2 % live.length]? with
    | none => failOp s kt.1 (if range.all (fun j => (getEng s j).retired) then 0x01 else 0x05)
    | some j =>
      let g := getEng s j
      match t with
      | none => setEng s j { g with todo := insTile kt g.todo }
      | some r =>
        let r1 := if r.replay = 0 && coreOfEng j != coreOfEng e then { r.restart with staged := [] } else r.restart
        setEng (tallyDrop s r.op r.tile) j { g with restarts := insRestart { r1 with spilled := false } g.restarts }

/-- The tiles an engine holds that have not drained. -/
def Engine.tilesHeld (g : Engine) : List TileRun := g.cur.toList ++ g.saved ++ g.restarts

/-- R376: retire an engine; its unsealed tile is restarted elsewhere without using its retry. -/
def retireEngine (s : State) (e : Nat) : State :=
  let g := getEng s e
  let s1 := setEng s e { g with retired := true, todo := [], restarts := [], cur := none, saved := [] }
  let s2 := coreEvent s1 (coreOfEng e) 7 0x0108 2 0 0
  let s3 := g.tilesHeld.foldl (fun st t => reassignTile st e (t.op, t.tile) (some t)) s2
  g.todo.foldl (fun st kt => reassignTile st e kt none) s3

/-- A detected-dangerous fault of an engine (R175, R374–R376): the message, the count, and the tile's retry, its failure, or
the engine's retirement. -/
def engineFaultIn (s : State) (e : Nat) (m : Mech) (inj : Bool) (slice row k n : Nat) : State :=
  let g := getEng s e
  let tile := (g.cur.map (·.tile)).getD 0
  let first := match g.cur with | some t => !t.faultRetry | none => false
  let count := if inj then g.faults else g.faults + 1
  let limit := dget s Key.retireLimit
  let retire := !inj && limit ≠ 0 && decide (count ≥ limit)
  let s1 := raiseFault (setEng s e { g with faults := count })
    { mech := m, retry := first, inj := inj, utype := 0, unit := e, locA := tile, locB := slice
      locC := row * 2 ^ 16 + k % 256 * 2 ^ 8 + n % 256 }
  match g.cur with
  | none => if retire then retireEngine s1 e else s1
  | some t =>
    if !first then
      (let s2 := failOp s1 t.op 0x01
       if retire then retireEngine s2 e else s2)
    else if retire then retireEngine s1 e
    else restartTile s1 e { t with faultRetry := true }

/-- The same, after which a pending pre-emption takes effect at once (R177). -/
def engineFault (s : State) (e : Nat) (m : Mech) (inj : Bool) (slice row k n : Nat) : State :=
  settle (engineFaultIn s e m inj slice row k n) e

/-- R177: a misalignment in the chunk of a fault is counted beside it, with the one restart; the operation fails if its
refetch has already been used. -/
def alsoMisaligned (s : State) (e : Nat) (o : OpRec) (t : TileRun) : State :=
  let s1 := tallyOp s (coreOfEng e) o { misalign := 1 }
  if t.misRetry then misalignEvent s1 e o t
  else
    let mark := fun (u : TileRun) => if u.op = t.op ∧ u.tile = t.tile then { u with misRetry := true, staged := [] } else u
    { s1 with engines := s1.engines.map fun p =>
        (p.1, { p.2 with cur := p.2.cur.map mark, saved := p.2.saved.map mark, restarts := p.2.restarts.map mark }) }

/-- The first pass of a tile's columns that counts what feeding a stationary line charges, and of its rows for a streamed
one: later passes use the same staged line (R193). -/
def countsW (o : OpRec) (t : TileRun) (pass : Nat) : Bool :=
  pass % max 1 (tilePasses (o.box t.tile) (o.formats t.rung)).2 == 0
/-- The same for the streamed side. -/
def countsX (o : OpRec) (t : TileRun) (pass : Nat) : Bool :=
  pass / max 1 (tilePasses (o.box t.tile) (o.formats t.rung)).2 == 0

/-- R149–R151: a slice of `cnt` rows as it is loaded from the staged columns. -/
def loadBuf (f : Fmt × Fmt) (pass slice cnt : Nat) (counted : Bool) (fs : List Feed) : Buf :=
  let split := splitMode f
  let cs := if counted then fs else fs.map Feed.uncounted
  { pass := pass, slice := slice, fmt := f.2, split := split
    rows := (List.range cnt).map (rowEntries f.2 split fs)
    scales := bufScales f.2 split fs, slubs := bufSlubs f.2 split fs
    zps := fs.map fun c => (zpOf c 0, if f.2.isSk4 then zpOf c 96 else zpOf c 0)
    zsums := fs.map fun c => (rawSum c.elems 0, rawSum c.elems 96)
    csum := (List.range cnt).map (checksumEntry fs), tally := feedTally cs false
    sat := (cs.map (·.sat)).sum, flush := (cs.map (·.flush)).sum, nonz := (cs.map (·.nonz)).sum
    slubOvf := fs.any (·.ovfBlock) }

/-- The lines of the slice that the tile loads next: first row, rows, and global columns. -/
def sliceLines (o : OpRec) (t : TileRun) : Nat × Nat × List Nat :=
  let b := o.box t.tile
  let pb := passBox b (o.formats t.rung) t.loadPass
  let k0 := 192 * t.loadSlice
  (k0, min 192 (o.gemm.k - k0), (List.range pb.2.2.2).map (· + b.n0 + pb.2.2.1))

/-- R151: load the next slice of the tile into the idle buffer from the staging copy. -/
def loadSlice (s : State) (e : Nat) (o : OpRec) (t : TileRun) : State :=
  let l := sliceLines o t
  match feedCols s o t (dieOfEng e) l.1 l.2.1 l.2.2 with
  | (.error .waits, s1) => s1
  | (.error er, s1) => failOp s1 t.op (errCode er)
  | (.ok (fs, t1), s1) =>
    if fs.any (·.misaligned) then misalign s1 e o t
    else
      let buf := loadBuf (o.formats t.rung) t.loadPass t.loadSlice l.2.1 (countsW o t t.loadPass) fs
      let nx := nextSlice o.gemm.slices t.loadPass t.loadSlice
      setCur s1 e (some { t1 with bufs := t1.bufs ++ [buf], loadPass := nx.1, loadSlice := nx.2 })

/-- R177: a misalignment among the columns that a slice's load meets beside a fault. -/
def sliceMisaligned (s : State) (e : Nat) (o : OpRec) (t : TileRun) : Bool :=
  let l := sliceLines o t
  match feedCols s o t (dieOfEng e) l.1 l.2.1 l.2.2 with
  | (.ok (fs, _), _) => fs.any (·.misaligned)
  | (.error _, _) => false

/-- The stationary feeder finishes a slice (R149–R151), with any parity fault found (R152). -/
def stationaryLoad (s0 : State) (e : Nat) (hit : Option Mech) : State :=
  let s := takeTile s0 e
  match (getEng s e).cur with
  | none => s
  | some t =>
    match getOp s t.op with
    | none => setCur s e none
    | some o =>
      if t.phase ≠ .running ∨ t.loadPass ≥ tilePassCount o t ∨ o.gemm.slices = 0 ∨ t.buffers ≥ 2 then s
      else
        match takeHit s 0 e [.parityStat] hit (t.tile, t.loadSlice) with
        | (some (m, inj), s1) =>
          let s2 := engineFault s1 e m inj t.loadSlice 0 0 0
          if sliceMisaligned s e o t then alsoMisaligned s2 e o t else s2
        | (none, s1) => loadSlice s1 e o t

/-! ### Starting a chunk (R113, R166–R169) -/

/-- bb_sum of R169: the integer biases of the OL8 operands of a tile. -/
def biasSum (o : OpRec) (t : TileRun) : Int :=
  let f := o.formats t.rung
  (if f.1 = .ol8 then (match o.x with | some x => if x.fmt = .ol8 then x.bb else tileBiasX o t | none => 0) else 0)
    + (if f.2 = .ol8 then (match o.w with | some w => if w.fmt = .ol8 then w.bb else tileBiasW o t | none => 0) else 0)

/-- R169: the initial value of an output under a rescale entry (scale, bias). -/
def initialValue (o : OpRec) (t : TileRun) (r : Nat × Nat) : WAcc :=
  let sgn := bitOf r.1 15
  let off := signedOf 15 r.1 + biasSum o t
  match readOl16 r.2 with
  | .zero => {}
  | .nan => { inv := true }
  | .inf neg => { pinf := neg == sgn, ninf := neg != sgn }
  | .log neg l => WAcc.ofNum (.log (neg ^^ sgn) (l - off))
  | .lin _ _ _ => {}

/-- Read the rescale entries of a tile's columns (R168). -/
def readRescale (s : State) (o : OpRec) (t : TileRun) (die : Nat) : Except MemErr (List (Nat × Nat)) × State :=
  let b := o.box t.tile
  let base := leField o.desc 40 8
  if base = 0 then (.ok (List.replicate b.cols (0x0000, 0x4000)), s)
  else
    match readMany s (opVia o (some die)) false ((List.range b.cols).map fun i => (base + 4 * (b.n0 + i), 4)) with
    | (.error e, s1) => (.error e, s1)
    | (.ok bs, s1) => (.ok (bs.map fun x => (leNat x % 2 ^ 16, leNat x / 2 ^ 16)), s1)

/-- Load the bank slots of a pass with their initial values (R166, R167). -/
def initBank (o : OpRec) (t : TileRun) (pass : Nat) : Tab WAcc :=
  let f := o.formats t.rung
  let pb := passBox (o.box t.tile) f pass
  let e0 := effCols (o.formats o.rung)
  (List.range pb.2.1).foldl (fun bk i =>
    (List.range pb.2.2.2).foldl (fun bk j =>
      tset {} bk ((pb.1 + i) * e0 + pb.2.2.1 + j)
        (initialValue o t (t.rescale.getD (pb.2.2.1 + j) (0x0000, 0x4000)))) bk) t.bank

/-- Begin streaming a loaded buffer: what feeding it counted is the chunk's and the tile's from now on. -/
def startChunk (o : OpRec) (t : TileRun) (buf : Buf) (rest : List Buf) : TileRun :=
  let pb := passBox (o.box t.tile) (o.formats t.rung) buf.pass
  let t1 := if buf.slice = 0 then { t with bank := initBank o t buf.pass } else t
  { t1 with
    bufs := rest
    nextSlice := if buf.slice + 1 ≥ o.gemm.slices && decide (buf.pass + 1 < tilePassCount o t) then 0 else buf.slice + 1
    satW := t1.satW + buf.sat, flushW := t1.flushW + buf.flush, nonzW := t1.nonzW + buf.nonz
    slubOvf := t1.slubOvf || buf.slubOvf
    cur := some
      { buf := buf, m0 := pb.1, rows := pb.2.1, placed := List.replicate buf.rows.length 0
        cols := List.replicate pb.2.2.2 {}, rowSum := List.replicate buf.rows.length {}, tally := buf.tally } }

/-- R113: the invalid capture register is cleared when the engine starts a tile whose operation differs from that of the
tile it started before, a pre-empted tile that it takes up again among them. -/
def Engine.startOp (g : Engine) (k tag : Nat) : Engine :=
  if g.invOp = some k then g else { g with invOp := some k, invCap := none, invTag := tag }

/-- Start the next chunk of the tile when its slice is loaded and no hold or pre-emption stops it. -/
def beginChunk (s : State) (e : Nat) (o : OpRec) (t : TileRun) : State :=
  let g := getEng s e
  match t.cur, t.bufs with
  | none, buf :: rest =>
    if !g.mayStart || s.flt.hubFault || g.preempt then s
    else if t.rescale.isEmpty && (o.box t.tile).cols ≠ 0 then
      match readRescale s o t (dieOfEng e) with
      | (.error .waits, s1) => s1
      | (.error er, s1) => failOp s1 t.op (errCode er)
      | (.ok rs, s1) =>
        let t1 := startChunk o { t with rescale := rs } buf rest
        setEng s1 e { (getEng s1 e).startOp t.op o.tag with cur := some t1 }
    else setEng s e { g.startOp t.op o.tag with cur := some (startChunk o t buf rest) }
  | _, _ => s

/-! ### Streaming a row (R43, R99–R117, R157–R165, R167) -/

/-- The triple of the cell of a row for one column: a slub position contributes ZERO (R110). -/
def cellOf (ply : Nat) (x w : SkElem) : Triple :=
  if x.slub || w.slub then {} else cellTriple ply x.val w.val

/-- The slub product of a row for one column, if either operand is a slub (R110, R159). -/
def slubOf (x w : SkElem) : Option Triple :=
  if x.slub || w.slub then some (slubTriple x.val w.val) else none

/-- The runs of one column (R115, R117): one, or four fine ones over rows 48g to 48g + 47. -/
def columnRuns (fine : Bool) (ts : List Triple) : List RunResult :=
  if fine then (List.range 4).map fun g => runSum ((ts.drop (48 * g)).take 48) else [runSum ts]

/-- R165: the value true product − formed product of one position: the formed product is that of the raw values, or the
slub lane's (R104, R110). -/
def zeroPointTerm (x w : SkElem) (zx zw : Int) (ex ew : Int) : Dy :=
  if x.val.special || w.val.special then ⟨0, 0⟩
  else
    let X := if x.slub then x.val.dy else x.val.dy.add ⟨-zx, ex⟩
    let W := if w.slub then w.val.dy else w.val.dy.add ⟨-zw, ew⟩
    let formed : Dy := match slubOf x w with
      | some t => if t.cls = .finite then ⟨signed t.sign t.p, t.sh⟩ else ⟨0, 0⟩
      | none => x.val.dy.mul w.val.dy
    (X.mul W).add formed.neg

/-- R165: the correction term of 96 array rows from k0 for effective column j: from the sums that the feeders form where
neither operand holds a slub there, else position by position. -/
def halfTerm (buf : Buf) (x : Feed) (k0 j : Nat) : Dy :=
  let ks := (List.range (min 96 (buf.rows.length - k0))).map (· + k0)
  let zw := let z := buf.zps.getD j (0, 0); if k0 = 0 then z.1 else z.2
  let zx := x.zps.getD k0 0
  let ex := x.exps.getD k0 0
  let ew := buf.exp k0 j
  let xe := fun k => x.elems.getD k {}
  if ks.all (fun k => !(xe k).slub && !(xe k).val.special && !(buf.elem k j).slub && !(buf.elem k j).val.special
      && x.zps.getD k 0 == zx) then
    let ws := let z := buf.zsums.getD j (⟨0, 0⟩, ⟨0, 0⟩); if k0 = 0 then z.1 else z.2
    (((⟨zw, ew⟩ : Dy).mul (rawSum x.elems k0)).neg.add ((⟨zx, ex⟩ : Dy).mul ws).neg).add ⟨ks.length * zx * zw, ex + ew⟩
  else
    ks.foldl (fun a k => a.add (zeroPointTerm (xe k) (buf.elem k j) (x.zps.getD k 0) zw (x.exps.getD k 0) (buf.exp k j)))
      ⟨0, 0⟩

/-- R165: the correction terms of one output, one for each zero-point group. -/
def correctionTerms (f : Fmt × Fmt) (buf : Buf) (x : Feed) (j : Nat) : List Dy :=
  if !(f.1 == .int8 || f.2 == .int8 || f.1 == .sk4u || f.2 == .sk4u) then []
  else
    let lo := halfTerm buf x 0 j
    if buf.rows.length ≤ 96 then [lo]
    else if f.1 == .sk4u || f.2 == .sk4u then [lo, halfTerm buf x 96 j] else [lo.add (halfTerm buf x 96 j)]

/-- The larger of a shift and a run's shift, when the run has a finite term. -/
def sigmaOf (σ : Option Int) (ts : List Triple) : Option Int := optMax σ (maxShift ts)

/-- R133: the residue checks of the cells of array row k and effective column j for a streamed element. -/
def cellResidueOk (buf : Buf) (x : SkElem) (k j : Nat) : Bool :=
  let es := buf.group k j
  if x.slub || (buf.slubAt k j).isSome then true
  else
    match x.val, buf.cell k j with
    | .log _ lx, .log _ lw => logResidueOk lx lw (res3 lx) (es.getD 0 {}).res.toNat
    | .lin _ mx _, .lin _ _ _ =>
      if buf.split then res3 ((es.getD 0 {}).bits.toNat % 16) == (es.getD 0 {}).res.toNat
      else plyResidueOk (digitsOf mx) (es.map fun e => (e.bits.toNat / 2 ^ 11 % 16, e.res.toNat))
    | _, _ => true

/-- What one column contributes for a streamed row. -/
structure ColOut where
  runs : List RunResult
  slubs : List Triple
  corr : List Dy
  /-- class INV positions: array row and path (R113) -/
  inv : List (Nat × Nat)
  sigma : Option Int
  special : Bool
  /-- the residue checks of its cells and runs have passed (R133, R134) -/
  res3 : Bool
  res7 : Bool
  deriving DecidableEq, Repr

/-- R99–R117, R133, R165: the contributions of column j of the buffer for one streamed row. -/
def columnOut (f : Fmt × Fmt) (fine : Bool) (buf : Buf) (x : Feed) (j : Nat) : ColOut :=
  let n := buf.rows.length
  let ws := (List.range n).map fun k => buf.elem k j
  let xs := (List.range n).map fun k => x.elems.getD k {}
  let cells := List.zipWith (cellOf f.2.ply) xs ws
  let slubs := List.zipWith slubOf xs ws
  let some_ := slubs.filterMap id
  let runs := columnRuns (fine && !splitMode f) cells
  let all := cells ++ some_
  { runs := runs
    slubs := some_
    corr := correctionTerms f buf x j
    inv := (List.range n).filterMap fun k =>
      if (slubs.getD k none).any (fun t => t.cls == .inv) then some (k, 2)
      else if (cells.getD k {}).cls == .inv then some (k, if f.1.isLog then 0 else 1)
      else none
    sigma := maxShift all
    special := all.any fun t => t.cls == .inv || t.cls == .pinf || t.cls == .ninf
    res3 := (List.range n).all fun k => cellResidueOk buf (xs.getD k {}) k j
    res7 := runs.all RunResult.residueOk }

/-- R167: promote a column's contributions into its accumulator, in order. -/
def promoteCol (w : WAcc) (c : ColOut) : WAcc :=
  let w1 := c.runs.foldl WAcc.addRun w
  let w2 := c.slubs.foldl WAcc.addTriple w1
  c.corr.foldl (fun a d => if d.m = 0 then a else a.addDy d) w2

/-- The raw contributions of a column, without correction terms, promoted (R161, R163). -/
def promoteRaw (w : WAcc) (c : ColOut) : WAcc := c.slubs.foldl WAcc.addTriple (c.runs.foldl WAcc.addRun w)

/-- R161: the checksum-column check of one streamed row. -/
def columnCheck (buf : Buf) (x : Feed) (outs : List ColOut) (tol : Nat) : Bool :=
  if outs.any (·.special) then true
  else
    let scol := (List.range buf.rows.length).foldl (fun (a : WAcc) k =>
      let d := (x.elems.getD k {}).val.dy.mul (buf.csum.getD k {}).dy
      if d.m = 0 then a else a.addDy d) {}
    let sout := outs.foldl promoteRaw {}
    match outs.foldl (fun σ c => optMax σ c.sigma) none with
    | none => scol.sig = 0
    | some σ => within scol.dy sout.dy (σ + (tol : Int))

/-- R157–R159: the cost, in quarter steps, of one row of the array for an element; a slub position
carries a zero (R110). -/
def rowCost (log : Bool) (x : SkElem) : Nat := if log then 4 else if x.slub then 1 else elementCost x.val

/-- R157, R158: the quarter-step times of the rows, the join and the drag of one streamed row. -/
def paceRow (c : Chunk) (log : Bool) (x : Feed) (lane : Nat) : Chunk × Nat :=
  let costs := x.elems.map (rowCost log)
  let fin := List.zipWith (· + ·) c.placed costs
  let free := c.joins.getD 7 0
  let placed := fin.map (max free)
  let laneT := c.lane + 4 * lane
  let allZero := x.elems.all (fun e => e.val == .zero && !e.slub)
  let last := c.joins.getD 0 0
  let join := max (max (placed.foldl max 0) laneT) (last + (if allZero then 1 else 4))
  let firstFin := fin.foldl min (fin.getD 0 0)
  ({ c with placed := placed, joins := (join :: c.joins).take 8, lane := laneT }, free - firstFin)

/-- The lane work of a streamed row (R159): the most slub products of any physical column, whose one lane serves both
output columns in split mode (log 129). -/
def laneWork (split : Bool) (outs : List ColOut) : Nat :=
  let n := fun j => ((outs.map (·.slubs.length)).getD j 0)
  (List.range outs.length).foldl (fun a j => max a (if split then n (j % 64) + n (j % 64 + 64) else n j)) 0

/-- The zero-digit and digit counts of a streamed row (R181). -/
def rowTally (log : Bool) (x : Feed) (outs : List ColOut) : Tally :=
  let vals := x.elems.map fun e => if e.slub then (none : Option Num) else some e.val
  { shadowed := (outs.map fun c => (c.runs.map (·.shadowed)).sum).sum
    products := x.elems.length * outs.length
    elems := if log then 0 else x.elems.length
    zeroElems := if log then 0 else (vals.filter (fun v => v == some .zero)).length
    digits := if log then 0 else (vals.map fun (v : Option Num) => match v with
      | some (Num.lin _ m _) => (digitsOf m).length
      | _ => 0).sum }

/-- Put a column's promotion into the bank. -/
def bankPromote (e0 m n0 : Nat) : Tab WAcc → List ColOut → Tab WAcc
  | bk, [] => bk
  | bk, c :: r =>
    let key := m * e0 + n0
    bankPromote e0 m (n0 + 1) (tset {} bk key (promoteCol (tget {} bk key) c)) r

/-- The residues carried in the bank agree for the outputs of one row (R134). -/
def bankResidues (e0 m n0 cols : Nat) (bk : Tab WAcc) : Bool :=
  (List.range cols).all fun j => (tget {} bk (m * e0 + n0 + j)).residueOk

/-- The first invalid product of a row by index: lowest k, then lowest n (R113). -/
def firstInvalid (tile m n0 : Nat) (outs : List ColOut) : Option InvCap :=
  let cands := (List.range outs.length).flatMap fun j =>
    ((outs.map (·.inv)).getD j []).map fun p => ({ path := p.2, tile := tile, m := m, k := p.1, n := n0 + j } : InvCap)
  cands.foldl (fun a c => match a with | none => some c | some b => if c.lower b then some c else some b) none

/-- R113: keep the lower of two captures. -/
def lowerCap (a b : Option InvCap) : Option InvCap :=
  match a, b with
  | some x, some y => if y.lower x then some y else some x
  | some x, none => some x
  | none, y => y

/-- The chunk after one streamed row, and the new bank, with the drag of the row. -/
def streamRow (o : OpRec) (t : TileRun) (c : Chunk) (x : Feed) (outs : List ColOut) : TileRun × Chunk × Nat :=
  let f := o.formats t.rung
  let pb := passBox (o.box t.tile) f c.buf.pass
  let e0 := effCols (o.formats o.rung)
  let m := c.m0 + c.next
  let y := if countsX o t c.buf.pass then x else x.uncounted
  let (c1, drag) := paceRow c f.1.isLog x (laneWork c.buf.split outs)
  let cols := List.zipWith (fun (a : ColSum) (oc : ColOut) =>
    ({ sum := promoteRaw a.sum oc, sigma := optMax a.sigma oc.sigma } : ColSum)) c.cols outs
  let c2 : Chunk :=
    { c1 with
      next := c.next + 1, cols := cols
      rowSum := List.zipWith (fun (a : WAcc) (e : SkElem) => a.addNum e.val) c.rowSum x.elems
      tally := (c.tally.add (rowTally f.1.isLog x outs)).add (feedTally [y] true)
      cap := lowerCap c.cap (firstInvalid t.tile m pb.2.2.1 outs) }
  let t1 : TileRun :=
    { t with
      bank := bankPromote e0 m pb.2.2.1 t.bank outs
      satX := t.satX + y.sat, flushX := t.flushX + y.flush, nonzX := t.nonzX + y.nonz
      slubOvf := t.slubOvf || x.ovfBlock }
  (t1, c2, drag)

/-- Put the chunk back: a chunk whose rows are all joined moves to its checksum-row pass when that is
free (R162). -/
def TileRun.putChunk (t : TileRun) (c : Chunk) : TileRun :=
  if c.next ≥ c.rows ∧ t.sealing.isNone then { t with cur := none, sealing := some c }
  else { t with cur := some c }

/-- The check tolerance of an operation (R163). -/
def OpRec.tol (o : OpRec) (f : Fmt × Fmt) : Nat :=
  let c := leField o.desc 4 1
  if c ≠ 0 then c else if f.1.isLog then o.tolLog else o.tolLin

/-- The residue, checksum-column and parity checks of one streamed row (R133, R134, R152, R161): the mechanism of the first
that fails. -/
def rowChecks (o : OpRec) (t : TileRun) (c : Chunk) (x : Feed) (outs : List ColOut) (bank : Tab WAcc) : Option Mech :=
  let pb := passBox (o.box t.tile) (o.formats t.rung) c.buf.pass
  if !c.buf.parityOk then some .parityStat
  else if outs.any (fun oc => !oc.res3) then some .res3Cell
  else if outs.any (fun oc => !oc.res7) then some .res7Run
  else if !columnCheck c.buf x outs (o.tol (o.formats t.rung)) then some .chkCol
  else if !bankResidues (effCols (o.formats o.rung)) (c.m0 + c.next) pb.2.2.1 pb.2.2.2 bank then some .res7Acc
  else none

/-- One handshake cycle on a chunk: stream its next row. -/
def stepChunk (s : State) (e : Nat) (o : OpRec) (t : TileRun) (c : Chunk) (hit : Option (Mech × Nat × Nat)) : State :=
  let f := o.formats t.rung
  let b := o.box t.tile
  let pb := passBox b f c.buf.pass
  let m := c.m0 + c.next
  let row := fun (st : State) => feedX st o t (dieOfEng e) (b.m0 + m) (192 * c.buf.slice) c.buf.rows.length
  match takeHit s 0 e engineMechs (hit.map (·.1)) (t.tile, c.buf.slice) with
  | (some (mech, inj), s1) =>
    let s2 := engineFault s1 e mech inj c.buf.slice m ((hit.map (·.2.1)).getD 0) ((hit.map (·.2.2)).getD 0)
    match row s with
    | (.ok (x, _), _) => if x.misaligned then alsoMisaligned s2 e o t else s2
    | (.error _, _) => s2
  | (none, s1) =>
    match row s1 with
    | (.error .waits, s2) => s2
    | (.error er, s2) => failOp s2 t.op (errCode er)
    | (.ok (x, t1), s2) =>
      if x.misaligned then misalign s2 e o t
      else
        let outs := (List.range pb.2.2.2).map (columnOut f o.fine c.buf x)
        let r := streamRow o t1 c x outs
        match rowChecks o t1 c x outs r.1.bank with
        | some mech => engineFault s2 e mech false c.buf.slice m 0 0
        | none =>
          let s3 := if r.2.2 = 0 then s2 else
            tallyOp (setEng s2 e { getEng s2 e with drag := (getEng s2 e).drag + r.2.2 }) (coreOfEng e) o { drag := r.2.2 }
          let g := getEng s3 e
          setEng s3 e { g with
            cur := some (r.1.putChunk r.2.1)
            invSticky := g.invSticky || outs.any (fun oc => !oc.inv.isEmpty) }

/-- ARRAY_STEP (R43): start the next loaded chunk when none streams, and stream one row. -/
def arrayStep (s : State) (e : Nat) (hit : Option (Mech × Nat × Nat)) : State :=
  match (getEng s e).cur with
  | none => s
  | some t0 =>
    match getOp s t0.op with
    | none => setCur s e none
    | some o =>
      let s1 := beginChunk s e o t0
      match (getEng s1 e).cur with
      | none => s1
      | some t =>
        match t.cur with
        | none => s1
        | some c => if c.next ≥ c.rows then s1 else stepChunk s1 e o t c hit

end Sys2Proof.Machine
end

