-- ==== Sys2Proof/Machine/Tile.lean ====
section
/-!
DEFINITION. The end of a tile: row checks and seals (R162, R172), rounding and numeric checks (R170,
R171, R190–R192), draining (R171, R183), re-spins (R193–R195), storms (R196–R198), pre-emption and holds
(R174–R177).
-/

namespace Sys2Proof.Machine

/-! ### The row check and the seal (R162, R172, R173) -/

/-- Σ_k R[k] × w[k, j] of the checksum-row path (R162). -/
def rowPath (c : Chunk) (j : Nat) : WAcc :=
  (List.range c.buf.rows.length).foldl (fun (a : WAcc) k =>
    let d := (c.rowSum.getD k {}).dy.mul (c.buf.elem k j).val.dy
    if d.m = 0 then a else a.addDy d) {}

/-- R162: the row check of a chunk. -/
def rowCheck (c : Chunk) (tol : Nat) : Bool :=
  (List.range c.cols.length).all fun j =>
    let col := c.cols.getD j {}
    if col.sum.inv || col.sum.pinf || col.sum.ninf then true
    else
      match col.sigma with
      | none => (rowPath c j).sig == 0
      | some σ => within (rowPath c j).dy col.sum.dy (σ + (tol : Int) + 9)

/-- R113: enter a chunk's capture into the register and raise the event when the register changes. -/
def enterCapture (s : State) (e : Nat) (c : Option InvCap) : State :=
  let g := getEng s e
  let n := lowerCap g.invCap c
  if n = g.invCap then s
  else
    let s1 := setEng s e { g with invCap := n }
    coreEvent s1 (coreOfEng e) 0 0x0106 2 0
      (atByte 16 (InvCap.word n) + atByte 24 g.invTag + atByte 28 e)

/-- Mark operation flags. -/
def markOp (s : State) (k : Nat) (f : OpRec → OpRec) : State :=
  match getOp s k with
  | none => s
  | some o => setOp s k (some (f o))

/-- R172, R173: a chunk seals: its deltas and captures commit. A tile of no slice seals with no chunk (R147). -/
def sealChunk (s : State) (e : Nat) (t : TileRun) (o : OpRec) (d : Tally) (cap : Option InvCap) : State :=
  let s0 := enterCapture (tallyHold s (coreOfEng e) o t.op t.tile d) e cap
  let s1 := setEng s0 e { getEng s0 e with seals := (getEng s0 e).seals + (if o.gemm.slices = 0 then 0 else 1) }
  if cap.isSome || d.invalid ≠ 0 then markOp s1 t.op (fun o => { o with invalid := true }) else s1

/-- The chunk is the last of its tile's attempt. -/
def lastChunk (o : OpRec) (t : TileRun) (c : Chunk) : Bool :=
  c.buf.pass + 1 == tilePassCount o t && c.buf.slice + 1 == o.gemm.slices

/-- A streamed chunk that waited for the row path moves to it. -/
def TileRun.advance (t : TileRun) : TileRun :=
  match t.cur with
  | some c => t.putChunk c
  | none => t

/-- CHECKSUM_ROW_PASS (R162, R172): the row check of the chunk, and its seal or the stop of R114. -/
def checksumRowPass (s : State) (e : Nat) (hit : Option Mech) : State :=
  match (getEng s e).cur with
  | none => s
  | some t =>
    match t.sealing, getOp s t.op with
    | some c, some o =>
      match takeHit s 0 e [.chkRow, .res7Acc, .parityStat, .memUe] hit (t.tile, c.buf.slice) with
      | (some (m, inj), s1) => engineFault s1 e m inj c.buf.slice 0 0 0
      | (none, s1) =>
        if !c.buf.parityOk then engineFault s1 e .parityStat false c.buf.slice 0 0 0
        else if !rowCheck c (o.tol (o.formats t.rung)) then engineFault s1 e .chkRow false c.buf.slice 0 0 0
        else if c.cap.isSome && o.stopOnInvalid then
          markOp (failOp (enterCapture s1 e c.cap) t.op 0x03) t.op (fun o => { o with invalid := true })
        else if lastChunk o t c then
          settle (setCur s1 e (some
            { t with sealing := none, sealed := t.sealed + 1, lastTally := c.tally, lastCap := c.cap }.advance)) e
        else
          let s2 := setCur s1 e (some { t with sealing := none, sealed := t.sealed + 1 }.advance)
          settle (sealChunk s2 e t o c.tally c.cap) e
    | _, _ => s

/-! ### Rounding the tile (R170, R171) -/

/-- R170: the code of one output: value `w` of its accumulator, rescale entry `r`, destination `y`, element
index `j`; and whether it left as NaN by R112 or R168. -/
def outputOf (o : OpRec) (t : TileRun) (y : Tensor) (w : WAcc) (r : Nat × Nat) (j : Nat) : Coded × Bool :=
  let d : Dest := { fmt := y.fmt, bb := y.bb, z := y.z, e4m3Nan := o.e4m3Nan, e5m2Inf := o.e5m2Inf }
  let mode := siteMode (o.sites.getD 0 none) j
  if ol16Special r.1 then (⟨d.nanCode, .none⟩, true)
  else
    let neg := bitOf r.1 15
    let off := signedOf 15 r.1 + biasSum o t
    match w.num with
    | .nan => (⟨d.nanCode, .none⟩, true)
    | .zero => (⟨d.zeroCode, .none⟩, false)
    | .inf n => (d.infCode (n ^^ neg), false)
    | .log _ _ => (⟨d.zeroCode, .none⟩, false)
    | .lin n m x =>
      match y.fmt with
      | .ol16 => (ol16Limit (n ^^ neg) (logOfLin mode m x + off), false)
      | .ol8 => (ol8Limit (n ^^ neg) (ol8OfLog mode y.bb (logNearest m x + off)), false)
      | .e4m3 | .e5m2 | .bf16 | .fp16 | .fp32 | .int8 | .sk4i | .sk4f | .sk4u | .sk2s | .sk2t =>
        let p := (trunc62 ((Dy.mk (m : Int) x).mul ⟨decodedM off, decodedE off⟩)).1
        (d.ofLin mode (n ^^ neg) p.m.natAbs p.e, false)

/-- The rounded outputs of a tile, each with its destination index (R171). -/
def roundTile (o : OpRec) (t : TileRun) (y : Tensor) : List (Nat × Nat) × Tally :=
  let b := o.box t.tile
  let e0 := effCols (o.formats o.rung)
  let cells := (List.range b.rows).flatMap fun i => (List.range b.cols).map fun j => (i, j)
  cells.foldl (fun acc ij =>
    let idx := (b.n0 + ij.2) + y.td.d0 * ((b.m0 + ij.1) + (if o.kind = .conv then 0 else o.gemm.m * b.batch))
    let c := outputOf o t y (tget {} t.bank (ij.1 * e0 + ij.2)) (t.rescale.getD ij.2 (0x0000, 0x4000)) idx
    (acc.1 ++ [(idx, c.1.code)], acc.2.add (outTally y.fmt y.bb y.z c.1 c.2))) ([], {})

/-- R190: the numeric checks of a tile. -/
def numericChecks (o : OpRec) (t : TileRun) : Checks :=
  match o.slot with
  | none => { slub := t.slubOvf }
  | some _ =>
    let f := o.formats t.rung
    let satMax := leField o.slotBytes 20 2
    let convX := f.1 = .ol8 && (o.x.map (·.fmt)) != some .ol8
    let convW := f.2 = .ol8 && (o.w.map (·.fmt)) != some .ol8
    let off := fun (sat nonz flush : Nat) => decide (sat > satMax) || (decide (nonz > 0) && decide (flush ≥ nonz))
    if convX || convW then
      { scale := (convX && off t.satX t.nonzX t.flushX) || (convW && off t.satW t.nonzW t.flushW)
        slub := t.slubOvf }
    else
      { clip := decide (t.satX + t.satW > satMax) || decide (t.flushX + t.flushW > leField o.slotBytes 22 2)
        slub := t.slubOvf }

/-- Some check failed. -/
def Checks.any (c : Checks) : Bool := c.scale || c.clip || c.slub

/-- The code of event 0x0102 (R527). -/
def Checks.code (c : Checks) : Nat :=
  (if c.scale then 1 else 0) + (if c.clip then 2 else 0) + (if c.slub then 4 else 0)

/-- What a tile's failed checks ask for (R191, R192): nothing, a scale refresh, or the next rung. -/
inductive RespinAsk where
  | drain
  | refresh
  | up
  deriving DecidableEq, Repr

/-- R190–R192. -/
def respinAsk (o : OpRec) (t : TileRun) (c : Checks) (storm : Bool) : RespinAsk :=
  if !c.any || o.slot.isNone || storm then .drain
  else if c.scale && !t.refreshed then .refresh
  else if t.rung ≥ slotCeil o.slotBytes then .drain
  else .up

/-- The deltas of a tile's last seal (R173): those of its last chunk, the invalid results of its outputs, an empty reduction
(R147), and the rung that a re-spun tile reached (R181). -/
def sealTally (o : OpRec) (t : TileRun) : Tally :=
  t.lastTally.add
    { invalid := t.outTally.invalid, emptyRed := if o.gemm.slices = 0 then 1 else 0
      respinTop := if t.respun || t.refreshed then some t.rung else none }

/-- The last chunk seals and the tile's buffer goes to its drain, on its own bank (R171, R172). -/
def acceptTile (s : State) (e : Nat) (o : OpRec) (t : TileRun) : State :=
  let s1 := sealChunk s e t o (sealTally o t) t.lastCap
  let g := getEng s1 e
  setEng s1 e { g with cur := none, drains := g.drains ++ [{ t with phase := .running }] }

/-- The initial values of every pass of a tile with no chunk (R147). -/
def emptyBank (o : OpRec) (t : TileRun) : TileRun :=
  (List.range (tilePassCount o t)).foldl (fun u p => { u with bank := initBank o u p }) t

/-- The core has received a storm's declaration (R197); hearth h counts as 256 + h. -/
def stormTold (s : State) (u : Nat) : Bool := s.storm.active && s.storm.told.contains u

/-- R171, R190: the buffer is complete and the checks are evaluated. -/
def judgeTile (s : State) (e : Nat) (o : OpRec) (t : TileRun) (y : Tensor) : State :=
  let r := roundTile o t y
  let c := numericChecks o t
  let t1 := { t with out := some r.1, outTally := r.2, failed := c }
  match respinAsk o t c (stormTold s (coreOfEng e)) with
  | .drain => acceptTile s e o t1
  | .refresh => setCur s e (some { t1 with phase := .respinWait, target := t.rung, refresh := true })
  | .up => setCur s e (some { t1 with phase := .respinWait, target := t.rung + 1, refresh := false })

/-- R134: the residue carried beside every accumulator of a tile agrees with it at output. -/
def outputResidues (o : OpRec) (t : TileRun) : Bool :=
  let b := o.box t.tile
  (List.range b.rows).all fun i => bankResidues (effCols (o.formats o.rung)) i 0 b.cols t.bank

/-- TILE_ROUND_DONE (R171): the whole tile has been rounded. -/
def tileRoundDone (s0 : State) (e : Nat) (hit : Option Mech) : State :=
  let s := takeTile s0 e
  match (getEng s e).cur with
  | none => s
  | some t =>
    match getOp s t.op with
    | none => setCur s e none
    | some o =>
      if t.phase ≠ .running ∨ !t.chunksDone o then s
      else
        match takeHit s 0 e [.res7Acc, .memUe] hit (t.tile, 0) with
        | (some (m, inj), s1) => engineFault s1 e m inj 0 0 0 0
        | (none, s1) =>
          if !outputResidues o t then engineFault s1 e .res7Acc false 0 0 0 0
          else match o.y with
          | none => s1
          | some y =>
            if o.gemm.slices = 0 then
              match readRescale s1 o t (dieOfEng e) with
              | (.error .waits, s2) => s2
              | (.error er, s2) => failOp s2 t.op (errCode er)
              | (.ok rs, s2) => settle (judgeTile s2 e o (emptyBank o { t with rescale := rs }) y) e
            else settle (judgeTile s1 e o t y) e

/-! ### Draining (R171, R183) -/

/-- The bytes an output buffer writes: destination address and bytes. -/
def drainWrites (y : Tensor) (out : List (Nat × Nat)) : List (Nat × List Byte) :=
  out.map fun p =>
    let i := y.td.unflatten p.1
    (y.td.elemAddr y.fmt.bytes i.1 i.2.1 i.2.2, leBytes y.fmt.bytes p.2)

/-- The deltas a drain commits (R183); the invalid results of its outputs went with the last seal. -/
def drainTally (t : TileRun) : Tally :=
  { t.outTally with invalid := 0, tiles := 1, unrepaired := if t.failed.any then 1 else 0 }

/-- A tile of an operation has drained on an engine of a core; the operation is finished with its last one (R228), by that
core (R229). -/
def OpRec.tileDone (o : OpRec) (t : TileRun) (core : Nat) : OpRec :=
  { o with
    last := emberSource 1 core, tilesLeft := o.tilesLeft - 1, finished := o.finished || decide (o.tilesLeft ≤ 1)
    unrepaired := o.unrepaired || t.failed.any
    invalid := o.invalid || decide (t.outTally.invalid ≠ 0) }

/-- DRAIN_DONE (R171): the oldest draining tile has been written and acknowledged. -/
def drainDone (s : State) (e : Nat) : State :=
  let g := getEng s e
  match g.drains with
  | [] => s
  | t :: rest =>
    match getOp s t.op with
    | none => setEng s e { g with drains := rest }
    | some o =>
      match o.y, t.out with
      | some y, some out =>
        match writeMany s (opVia o (some (dieOfEng e))) false (drainWrites y out) with
        | (some .waits, s1) => s1
        | (r, s1) =>
          let g1 := getEng s1 e
          let s2 := setEng s1 e { g1 with drains := rest, tiles := g1.tiles + 1 }
          match r with
          | some .unmapped | some .poisoned | some .ash => failOp s2 t.op (errCode (r.getD .ash))
          | some .fenced | some .waits | none =>
            let s3 := setOp (tallyKeep (tallyOp s2 (coreOfEng e) o (drainTally t)) t.op t.tile) t.op
              (some (o.tileDone t (coreOfEng e)))
            if t.failed.any then
              coreEvent s3 (coreOfEng e) 1 0x0102 2 t.failed.code (tileEventData o t.tile t.rung e)
            else s3
      | _, _ => setEng s e { g with drains := rest }

/-! ### Re-spins (R193–R195) -/

/-- Whole bytes of `n` elements along K in a target format (R194). -/
def replayBytesOf (f : Fmt) (n : Nat) : Nat :=
  if f.isSkein then (n + f.blockLen - 1) / f.blockLen * 64 else n * f.bytes

/-- R194: the replay allocation of a tile at a target rung, E that of the target, as in the worked example of step 9. -/
def replaySize (o : OpRec) (t : TileRun) (rung : Nat) : Nat :=
  let f := o.formats rung
  let b := o.box t.tile
  let e := effCols f
  (b.rows * replayBytesOf f.1 o.gemm.k + e * replayBytesOf f.2 o.gemm.k + 65535) / 65536 * 65536

/-- Bytes of a die's replay arena in use. -/
def replayUsed (s : State) (die : Nat) : Nat :=
  (s.engines.map fun p =>
    if dieOfEng p.1 = die then
      ((p.2.cur.map (·.replay)).getD 0) + (p.2.saved.map (·.replay)).sum + (p.2.drains.map (·.replay)).sum
    else 0).sum

/-- Usable bytes of a die's replay arena: `REPLAY_ARENA_MIB`, within the ways reserved for it (R194,
R277). -/
def replayArena (s : State) : Nat := min (dget s Key.replayArenaMib) (15 * s.mem.aWays) * 2 ^ 20

/-- RESPIN_REQUEST (R193): the die agent refuses the request in a storm, or when the allocation does not
fit, and the tile drains by R192; else it allocates and reports, and the attempt is discarded. A tile that is re-spun
again keeps its one allocation, which grows where the new target needs more (log 132). -/
def respinRequest (s : State) (e : Nat) : State :=
  match (getEng s e).cur with
  | none => s
  | some t =>
    match getOp s t.op with
    | none => setCur s e none
    | some o =>
      if t.phase ≠ .respinWait then s
      else if s.storm.active then acceptTile s e o t
      else
        let need := replaySize o t t.target - t.replay
        if replayUsed s (dieOfEng e) + need > replayArena s ∨ dget s Key.replayArenaMib = 0 then
          acceptTile { s with reports := s.reports ++ [{ job := o.job, slot := slotField o, noFit := true }] } e o t
        else
          let s1 := tallyDrop { s with reports := s.reports ++ [{ job := o.job, slot := slotField o, noFit := false }] }
            t.op t.tile
          let s2 := tallyOp s1 (coreOfEng e) o { respin := 1, refresh := if t.refresh then 1 else 0 }
          let s3 := markOp s2 t.op fun o => { o with respun := true, refreshed := o.refreshed || t.refresh }
          setCur s3 e (some { t with phase := .staging, replay := t.replay + need, out := none, outTally := {} })

/-- R195: the largest OL16 log of the tile's part of the streamed operand. -/
def maxOfRows (s : State) (o : OpRec) (x : Tensor) (b : TileBox) (die : Nat) :
    List Nat → Except MemErr (Option Int) × State
  | [] => (.ok none, s)
  | m :: r =>
    match readCodes s (opVia o (some die)) x.fmt.bytes ((List.range o.gemm.k).map fun k => xAddr o x b m k) with
    | (.error e, s1) => (.error e, s1)
    | (.ok cs, s1) =>
      match maxOfRows s1 o x b die r with
      | (.error e, s2) => (.error e, s2)
      | (.ok mx, s2) => (.ok (optMax (maxLogOf (valsOf x cs)) mx), s2)

/-- R195: the same for the tile's columns of the stationary operand. -/
def maxOfCols (s : State) (o : OpRec) (w : Tensor) (b : TileBox) (die : Nat) :
    List Nat → Except MemErr (Option Int) × State
  | [] => (.ok none, s)
  | n :: r =>
    match readCodes s (opVia o (some die)) w.fmt.bytes ((List.range o.gemm.k).map fun k => some (wAddr w b k n)) with
    | (.error e, s1) => (.error e, s1)
    | (.ok cs, s1) =>
      match maxOfCols s1 o w b die r with
      | (.error e, s2) => (.error e, s2)
      | (.ok mx, s2) => (.ok (optMax (maxLogOf (valsOf w cs)) mx), s2)

/-- R195: the refreshed feed bias. -/
def refreshBias (mx : Option Int) : Option Int := mx.map fun l => max (-14336) (min 14336 (l - 1984))

/-- The maximum pre-pass of a scale refresh (R195): the biases of the two sides, none where the side is
not converted to OL8 or holds no finite non-zero element. -/
def prePass (s : State) (o : OpRec) (t : TileRun) (die : Nat) :
    Except MemErr (Option Int × Option Int) × State :=
  let f := o.formats t.rung
  let b := o.box t.tile
  match o.x, o.w with
  | some x, some w =>
    let doX := f.1 = .ol8 && x.fmt != .ol8
    let doW := f.2 = .ol8 && w.fmt != .ol8
    match maxOfRows s o x b die (if doX then (List.range b.rows).map (· + b.m0) else []) with
    | (.error e, s1) => (.error e, s1)
    | (.ok mx, s1) =>
      match maxOfCols s1 o w b die (if doW then (List.range b.cols).map (· + b.n0) else []) with
      | (.error e, s2) => (.error e, s2)
      | (.ok mw, s2) => (.ok (refreshBias mx, refreshBias mw), s2)
  | _, _ => (.ok (none, none), s)

/-- R193: stage lines of whole rows or columns, slice by slice. -/
def stageLines (s : State) (o : OpRec) (t : TileRun) (die : Nat) :
    List (Bool × Nat × Nat) → Except MemErr (List Staged) × State
  | [] => (.ok [], s)
  | (w, line, sl) :: r =>
    let cnt := min 192 (o.gemm.k - 192 * sl)
    match (if w then stageW s o t die line (192 * sl) cnt else stageX s o t die line (192 * sl) cnt) with
    | (.error e, s1) => (.error e, s1)
    | (.ok g, s1) =>
      match stageLines s1 o t die r with
      | (.error e, s2) => (.error e, s2)
      | (.ok gs, s2) => (.ok (g :: gs), s2)

/-- Every line of a tile's operands: its streamed rows and its stationary columns. -/
def tileLines (o : OpRec) (t : TileRun) : List (Bool × Nat × Nat) :=
  let b := o.box t.tile
  let sl := List.range o.gemm.slices
  ((List.range b.rows).flatMap fun i => sl.map fun k => (false, b.m0 + i, k))
    ++ (List.range b.cols).flatMap fun j => sl.map fun k => (true, b.n0 + j, k)

/-- R193, step 4: the core feeder converts or spins both operands of a tile into its replay allocation, and the tile starts
again. -/
def stageReplay (s : State) (e : Nat) (o : OpRec) (t : TileRun) : State :=
  match stageLines s o t (dieOfEng e) (tileLines o t) with
  | (.error .waits, s1) => s1
  | (.error er, s1) => failOp s1 t.op (errCode er)
  | (.ok gs, s1) => setCur s1 e (some { t with staged := gs })

/-- REPLAY_STAGING_DONE (R193, R195): the operands are staged, and the tile restarts at slice 0 at its target rung. -/
def replayStagingDone (s : State) (e : Nat) : State :=
  match (getEng s e).cur with
  | none => s
  | some t =>
    match getOp s t.op with
    | none => setCur s e none
    | some o =>
      if t.phase ≠ .staging then s
      else if t.refresh then
        match prePass s o t (dieOfEng e) with
        | (.error .waits, s1) => s1
        | (.error er, s1) => failOp s1 t.op (errCode er)
        | (.ok (bx, bw), s1) =>
          stageReplay s1 e o { t.restart with
            refreshed := true, bbX := if bx.isSome then bx else t.bbX, bbW := if bw.isSome then bw else t.bbW }
      else stageReplay s e o { t.restart with rung := t.target, respun := decide (t.target > o.rung) }

/-! ### Storms (R196, R197) -/

/-- R197, R301: slots of the job's updates of this training step that completed, or are in flight. -/
def stormSlots (s : State) (job : Nat) : List Nat :=
  s.ops.foldl (fun l e =>
    match e.2 with
    | some o =>
      match o.slot with
      | some sl => if o.kind == .update && o.job == job && !o.discard then sinsert sl l else l
      | none => l
    | none => l) (tget ({} : Job) s.jobs job).updated

/-- The list records of a storm (R527): three slots each. -/
def stormList (pos : Nat) (seq : Nat) : (fuel : Nat) → List Nat → List (Nat × Nat)
  | 0, _ => []
  | fuel + 1, l =>
    match l with
    | [] => []
    | _ =>
      let three := l.take 3
      (1, atByte 16 pos + atByte 18 seq + atByte 26 (three.getD 0 0xFFFF) + atByte 28 (three.getD 1 0xFFFF)
        + atByte 30 (three.getD 2 0xFFFF)) :: stormList (pos + 3) seq fuel (l.drop 3)

/-- R196, R197, R527: declare a storm for a job: the declaration record, then the list records. -/
def declareStorm (s : State) (job : Nat) (slot cause : Nat) : State :=
  let j := tget ({} : Job) s.jobs job
  let seq := j.stepSeq.getD 0
  let listed := stormSlots s job
  let policy := dget s Key.stormPolicy
  let s1 := dset { s with storm :=
    { active := true, job := job, policy := policy, hold := if policy = 2 then .host else .record
      discard := false, told := [] } } Key.stormActive 1
  let s2 := hubEvent s1 0x0101 0
    (atByte 16 slot + atByte 18 seq + atByte 26 cause + atByte 28 listed.length)
  (stormList 0 seq (listed.length + 1) listed).foldl (fun st r => hubEvent st 0x0101 r.1 r.2) s2

/-- RESPIN_REPORT (R196): the ladder controller receives the report at position i. -/
def respinReport (s : State) (i : Nat) : State :=
  match s.reports[i]? with
  | none => s
  | some r =>
    let s1 := { s with reports := dropAt i s.reports }
    let j := tget ({} : Job) s1.jobs r.job
    let j1 := { j with respun := sinsert r.slot j.respun }
    let s2 := if r.noFit then s1 else { s1 with jobs := tset ({} : Job) s1.jobs r.job j1 }
    if s2.storm.active then s2
    else if r.noFit then declareStorm s2 r.job 0xFFFF 1
    else if j1.respun.length > j1.activeCount * dget s2 Key.stormFraction / 100 then
      declareStorm s2 r.job r.slot 0
    else s2

/-- STORM_NOTICE (R197): a core (or hearth h as 256 + h) receives the declaration. -/
def stormNotice (s : State) (u : Nat) : State :=
  if !s.storm.active then s
  else { s with storm := { s.storm with told := sinsert u s.storm.told } }

/-! ### Pre-emption and hard-cap holds (R174–R176) -/

/-- PREEMPTION_REQUEST (R174). -/
def preemptRequest (s : State) (e : Nat) : State :=
  settle (setEng s e { getEng s e with preempt := true }) e

/-- HARD_CAP_HOLD of an engine (R176). -/
def capHoldEngine (s : State) (e : Nat) (hold : Bool) : State := setEng s e { getEng s e with capHold := hold }

end Sys2Proof.Machine
end

