-- ==== Sys2Proof/Machine/Ladder.lean ====
section
/-!
DEFINITION. The training-step boundary: detecting it (R36, R218), the tally-table swap (R184), the ladder
controller's pass (R199–R202), default slots (R186) and the release of storms (R197, R198).
-/

namespace Sys2Proof.Machine

/-! ### Jobs and boundaries (R36, R218) -/

/-- A job that has started. -/
def getJob (s : State) (job : Nat) : Job := tget ({} : Job) s.jobs job
/-- Replace what the hub keeps of a job. -/
def setJob (s : State) (job : Nat) (j : Job) : State := { s with jobs := tset ({} : Job) s.jobs job j }

/-- The value of a knot (R214). -/
def knotVal (s : State) (die k : Nat) : Nat := tget 0 s.knots (die * 4096 + k)

/-- R215: a knot of value v has reached target t. -/
def reached (v t : Nat) : Bool := decide ((v + 2 ^ 32 - t % 2 ^ 32) % 2 ^ 32 < 2 ^ 31)

/-- The job's step knot has reached the target of its training step on all four dies (R36, R218). -/
def stepReached (s : State) (j : Job) : Bool :=
  (List.range 4).all fun d =>
    reached (knotVal s d (j.desc.knotBase + j.desc.stepKnot)) ((j.step + 1) * j.desc.stepTies)

/-- R339: a freeze is due at the boundary that ends training step `step` of a job. -/
def freezeDue (s : State) (job step : Nat) : Bool :=
  let every := dget s Key.freezeEvery
  job == dget s Key.freezeJob && ((s.ck.now && !s.ck.nowPast.contains job) || (every != 0 && step % every == 0))

/-- The hub sees a boundary: it orders the die agents to swap tables (R36, R184); from here on update sequencers wait where a
freeze is due (R340). One boundary is handled at a time. -/
def checkBoundary (s : State) : State :=
  match s.swapJob with
  | some _ => s
  | none =>
    match s.jobs.find? (fun p => decide (p.2.desc.stepTies ≠ 0) && stepReached s p.2) with
    | none => s
    | some p =>
      { s with swapJob := some p.1, swapped := []
               ck := if freezeDue s p.1 (p.2.step + 1) then { s.ck with issueHold := true } else s.ck }

/-- TALLY_TABLE_SWAP (R184): the die agent flushes the lines of its cores and hands over the table. Records of other jobs
come back to the gathering table when the controller has processed this job's (log 96). -/
def tallySwap (s : State) (die : Nat) : State :=
  match s.swapJob with
  | none => s
  | some _ =>
    if s.swapped.contains die then s
    else
      let cores := (List.range 64).map (· + 64 * die)
      let lines := cores.flatMap fun c => tget [] s.tlines c
      let out := ((lines ++ tget [] s.tin die).map TLine.settled).foldl tableAdd []
      { s with
        tlines := cores.foldl (fun t c => tset [] t c []) s.tlines
        tin := tset [] s.tin die []
        tout := tset [] s.tout die out
        swapped := sinsert die s.swapped }

/-! ### The controller's C fields of a slot (R185) -/

/-- The fields the ladder controller writes. -/
structure SlotC where
  cur : Nat
  effFloor : Nat
  fine : Bool
  narrowed : Bool
  cleanRun : Nat
  narrowFails : Nat
  coldRun : Nat
  xbias : Int
  wbias : Int
  obias : Int
  steps : Nat
  respinTotal : Nat
  stormSteps : Nat
  deriving DecidableEq, Repr

/-- Read the C fields. -/
def SlotC.read (b : List Byte) : SlotC :=
  { cur := slotCur b, effFloor := slotEffFloor b, fine := bitOf (leField b 14 1) 6
    narrowed := bitOf (leField b 14 1) 7, cleanRun := leField b 18 2, narrowFails := leField b 31 1 / 16
    coldRun := leField b 34 2, xbias := slotXbias b, wbias := slotWbias b, obias := slotObias b
    steps := leField b 42 2, respinTotal := leField b 44 4, stormSteps := leField b 48 2 }

/-- Write the C fields into a descriptor. -/
def SlotC.write (c : SlotC) (b : List Byte) : List Byte :=
  let b1 := putField b 14 1 (c.cur % 8 + c.effFloor % 8 * 8 + (if c.fine then 64 else 0) + (if c.narrowed then 128 else 0))
  let b2 := putField b1 18 2 c.cleanRun
  let b3 := putField b2 31 1 (leField b 31 1 % 16 + c.narrowFails % 16 * 16)
  let b4 := putField b3 34 2 c.coldRun
  let b5 := putField b4 36 2 (unsignedOf 16 c.xbias)
  let b6 := putField b5 38 2 (unsignedOf 16 c.wbias)
  let b7 := putField b6 40 2 (unsignedOf 16 c.obias)
  let b8 := putField b7 42 2 c.steps
  let b9 := putField b8 44 4 c.respinTotal
  putField b9 48 2 c.stormSteps

/-- R200: a learned bias moves by at most 512 towards its target and stays within ±14,336. -/
def moveBias (old target : Int) : Int :=
  max (-14336) (min 14336 (max (old - 512) (min (old + 512) target)))

/-- R200: the lowest bin with at most the given count above it. -/
def topBin (h : Tab Nat) (limit : Nat) : Nat :=
  ((List.range 64).find? fun q => decide (((h.filter (fun e => decide (e.1 > q))).map (·.2)).sum ≤ limit)).getD 63

/-- R200: the output-clip condition. -/
def outputClip (b : List Byte) (t : Tally) : Bool :=
  decide (t.outSat * 2 ^ 20 > leField b 28 2 * t.outputs)

/-- R200: the biases learned from a step's tally. -/
def learnBiases (b : List Byte) (t : Tally) (c : SlotC) : SlotC :=
  let head : Int := leField b 30 1
  let from_ := fun (old : Int) (mx : Option Int) => match mx with
    | none => old
    | some l => moveBias old (l + 256 * head - 1984)
  let q := topBin t.hist ((t.outputs + 2 ^ 20 - 1) / 2 ^ 20)
  let ob :=
    if outputClip b t then moveBias c.obias (c.obias + 512)
    else if t.outputs - t.zeros - t.specials = 0 then c.obias
    else moveBias c.obias (256 * (2 * (q : Int) - 62) + 256 * head - 1984)
  { c with xbias := from_ c.xbias t.xmax, wbias := from_ c.wbias t.wmax, obias := ob }

/-- R201, R202: the cold-layer test; whether an event is raised. -/
def coldTest (s : State) (b : List Byte) (t : Tally) (c : SlotC) : SlotC × Bool :=
  let cold := decide (t.outputs > 0) && decide (1000 * t.outFlush ≥ dget s Key.coldPermille * t.outputs)
  let run := if cold then satAdd 0xFFFF c.coldRun 1 else 0
  let lim := leField b 32 2
  let thr := if lim = 0xFFFF then dget s Key.coldThreshold else lim
  let fires := decide (thr ≠ 0) && decide (run ≠ 0) && decide (run ≠ c.coldRun) && decide (run % thr = 0)
  let shift := fires && bitOf (leField b 13 1) 6
  ({ c with
     coldRun := run
     obias := if shift then max (-14336) (c.obias - 256 * (dget s Key.coldShiftOct : Int)) else c.obias }, fires)

/-- R199: the rung decision for a slot that is not frozen; whether the floor rose. -/
def rungDecision (b : List Byte) (t : Tally) (storm : Bool) (c : SlotC) : SlotC × Bool :=
  let ceil := slotCeil b
  let fineAuto := bitOf (leField b 12 1) 7
  let widen0 : Option Nat := match t.respinTop with
    | some r => some (min ceil r)
    | none =>
      if t.feedSat * 2 ^ 20 > leField b 26 2 * t.feedElems then some (min ceil (c.cur + 1)) else none
  let shadowHigh := decide (t.shadowed * 2 ^ 20 > leField b 24 2 * t.products)
  let useFine := shadowHigh && widen0.isNone && fineAuto && !c.fine
  let widen := if shadowHigh && widen0.isNone && !useFine then some (min ceil (c.cur + 1)) else widen0
  let c1 := if useFine then { c with fine := true } else c
  let clean := decide (t.respin = 0) && !storm && !shadowHigh && widen.isNone
  let target := widen.getD 0
  if widen.isSome && decide (target > c1.cur) then
    let fails := if c1.narrowed then min 15 (c1.narrowFails + 1) else c1.narrowFails
    let limit := leField b 31 1 % 16
    let raise := c1.narrowed && decide (limit ≠ 0) && decide (fails ≥ limit)
    ({ c1 with
       cur := target, cleanRun := 0, narrowed := false
       narrowFails := if raise then 0 else fails
       effFloor := if raise then target else c1.effFloor }, raise)
  else
    let run := if clean then satAdd 0xFFFF c1.cleanRun 1 else 0
    let after := leField b 16 2
    if after ≠ 0 ∧ run ≥ after ∧ c1.cur > c1.effFloor then
      ({ c1 with cur := c1.cur - 1, cleanRun := 0, narrowed := true, fine := if fineAuto then false else c1.fine }, false)
    else ({ c1 with cleanRun := run, narrowed := false }, false)

/-- R198: a storm's end on a slot. -/
def stormEndSlot (storm : Bool) (c : SlotC) : SlotC :=
  if storm then { c with cleanRun := 0, stormSteps := satAdd 0xFFFF c.stormSteps 1 } else c

/-- R199: the controller's procedure on one slot: its new content and the sources of the events raised. -/
def controlSlot (s : State) (b : List Byte) (t : Tally) (storm : Bool) : List Byte × List Nat :=
  let c0 := SlotC.read b
  let c1 := { c0 with
    steps := (c0.steps + 1) % 2 ^ 16, respinTotal := satAdd (2 ^ 32 - 1) c0.respinTotal t.respin }
  let clip := outputClip b t
  let c2 := if bitOf (leField b 12 1) 6 then learnBiases b t c1 else c1
  let (c3, cold) := if slotRole b = 1 then coldTest s b t c2 else (c2, false)
  let (c4, floor) := if bitOf (leField b 12 1) 5 then (c3, false) else rungDecision b t storm c3
  let c5 := stormEndSlot storm c4
  (c5.write b, (if clip then [0x0104] else []) ++ (if cold then [0x0105] else []) ++ (if floor then [0x0103] else []))

/-! ### The pass (R199) -/

/-- The summed record of a slot from the outgoing tables (R184). -/
def outgoing (s : State) (job slot : Nat) : Tally :=
  (List.range 4).foldl (fun a d =>
    match lineOf (tget [] s.tout d) job slot with
    | some l => a.add l.rcd
    | none => a) {}

/-- The data of the boundary events (R527). -/
def slotEventData (slot seq src : Nat) (b : List Byte) : Nat :=
  atByte 16 slot + atByte 18 seq + atByte 26 (slotCur b) + atByte 27 (slotEffFloor b)
    + (if src = 0x0105 then atByte 28 (leField b 34 2) else 0)

/-- One slot's result: its address and new content, and its events. -/
structure SlotDone where
  addr : Nat
  bytes : List Byte
  events : List (Nat × Nat)
  deriving DecidableEq, Repr

/-- Process the active slots of a job. A slot whose descriptor cannot be read is left out; none when one
must wait for its stack. -/
def processSlots (s : State) (j : Job) (job : Nat) (lost : List Nat) (storm : Bool) :
    List Nat → Option (List SlotDone) × State
  | [] => (some [], s)
  | sl :: r =>
    let addr := j.desc.slotTable + 64 * sl
    match devRead s hubVia false addr 64 with
    | (.error .waits, s1) => (none, s1)
    | (.error _, s1) => processSlots s1 j job lost storm r
    | (.ok b, s1) =>
      let res :=
        if lost.contains sl then ((stormEndSlot storm (SlotC.read b)).write b, [0x0100])
        else controlSlot s1 b (outgoing s1 job sl) storm
      match processSlots s1 j job lost storm r with
      | (none, s2) => (none, s2)
      | (some l, s2) =>
        (some ({ addr := addr, bytes := res.1
                 events := res.2.map fun src => (src, slotEventData sl (j.stepSeq.getD 0) src res.1) } :: l), s2)

/-- R198: the storm ends. -/
def endStorm (s : State) : State := dset { s with storm := {} } Key.stormActive 0

/-- LADDER_CONTROLLER_PASS (R199), steps 1, 2 and 4 of R36; `lost` names the slots whose records cannot be
read. The state and whether the pass was made: it waits until every die has handed over its table and
every slot can be read and written. -/
def ladderPass (s : State) (lost : List Nat) : State × Bool :=
  match s.swapJob with
  | none => (s, false)
  | some job =>
    if (List.range 4).any (fun d => !s.swapped.contains d) then (s, false)
    else
      let j := getJob s job
      let storm := s.storm.active && s.storm.job == job
      match processSlots s j job lost storm j.active with
      | (none, s1) => (s1, false)
      | (some done, s1) =>
        let writes := done.map fun d => (d.addr, d.bytes)
        match writesBlocked s1 hubVia writes with
        | (true, s2) => (s2, false)
        | (false, _) =>
          let s2 := (writeMany s1 hubVia false writes).2
          let s3 := (done.flatMap (·.events)).foldl (fun st e => hubEvent st e.1 0 e.2) s2
          let s4 := knotUpdate s3 hubSource 0 (j.desc.knotBase + j.desc.rungKnot) true false 1
          let s5 := if storm then endStorm s4 else s4
          let mine := fun (l : TLine) => l.job == job
          let s6 := { s5 with
            tin := (List.range 4).foldl (fun t d =>
              tset [] t d (((tget [] s5.tout d).filter fun l => !mine l).foldl tableAdd (tget [] t d))) s5.tin
            tout := (List.range 4).foldl (fun t d => tset [] t d []) s5.tout
            swapJob := none, swapped := [] }
          (setJob s6 job { j with step := j.step + 1, updated := [], respun := [], stepSeq := some s6.ev.seq }, true)

/-! ### Releasing a storm's hold (R197) -/

/-- R197: the hold of a storm ends, by DISCARD or APPLY. -/
def releaseStorm (s : State) (discard : Bool) : State :=
  { s with storm := { s.storm with hold := .none, discard := discard } }

/-- R197: the hub has accepted the storm's declaration record. -/
def stormRecorded (s : State) : State :=
  if s.storm.hold = .record then releaseStorm s (s.storm.policy == 0) else s

/-- The storm waits for the host (R203). -/
def stormWaits (s : State) : Bool := s.storm.active && s.storm.hold == .host

/-- A write of `STORM_RELEASE` (R197, R203): its status of R430. -/
def writeStormRelease (s : State) (v : Nat) : State × Nat :=
  if !stormWaits s then (s, 3)
  else if v > 1 then (s, 3)
  else (releaseStorm s (v == 0), 0)

/-! ### Default slots (R186) -/

/-- R186: write the default ladder of a slot whose `NRUNG` is 0. Its bytes as they then stand, or why they
cannot be read or written. -/
def fillSlot (s : State) (addr : Nat) (b : List Byte) : Except MemErr (List Byte) × State :=
  if slotNrung b ≠ 0 ∨ slotRole b = 3 then (.ok b, s)
  else
    match devWrite s hubVia false addr (slotDefault b) with
    | (some .waits, s1) => (.error .waits, s1)
    | (some .unmapped, s1) => (.error .unmapped, s1)
    | (some .ash, s1) => (.error .ash, s1)
    | (some .poisoned, s1) | (some .fenced, s1) | (none, s1) => (.ok (slotDefault b), s1)

end Sys2Proof.Machine
end

