-- ==== Sys2Proof/Machine/QueueEngine.lean ====
section
/-!
DEFINITION. The queue engine's operations: contexts (R250, R251), entries (R254, R255), completions
(R256), queue errors (R257), job descriptors (R219) and writes the hub makes.
-/

namespace Sys2Proof.Machine

/-! ### Writes of the hub -/

/-- A write of the hub for a requester within it. One that must wait, for its stack, its page or an earlier write, stays in
flight as a request (log 41). -/
def hubWriteFor (s : State) (who : Requester) (bulk : Bool) (a : Nat) (b : List Byte) : Option MemErr × State :=
  match devWrite s hubVia bulk a b with
  | (some .waits, s1) =>
    let s2 := if sendAwaited s hubVia a b.length then dcount s1 Key.ftWaits else s1
    (some .waits, { s2 with mem := { s2.mem with
      reqs := s2.mem.reqs ++ [{ who := who, epoch := s2.rst.epochs, bulk := bulk, addr := a, len := b.length, wdata := some b
                                expl := dget s2 Key.cacheExplicit == 1, arrived := true, post := waveLatched s2 hubSource }] } })
  | r => r

/-- A write of the hub that nothing follows: one that waits is no error. -/
def hubWrite (s : State) (bulk : Bool) (a : Nat) (b : List Byte) : Option MemErr × State :=
  match hubWriteFor s .host bulk a b with
  | (some .waits, s1) => (none, s1)
  | r => r

/-- Several writes of the hub; the first error that is not a discarded write to a fenced channel. -/
def hubWrites (s : State) (bulk : Bool) : List (Nat × List Byte) → Option MemErr × State
  | [] => (none, s)
  | (a, b) :: r =>
    let (e, s1) := hubWrite s bulk a b
    let (e2, s2) := hubWrites s1 bulk r
    (if e.isSome then e else e2, s2)

/-! ### Contexts (R250, R251) -/

/-- The address of a queue's context. -/
def qctxAddr (s : State) (q : Nat) : Nat := dget s Key.qctxBase + 64 * q

/-- The E fields of a context as writes to memory (R250). -/
def ctxWrites (base : Nat) (c : QCtx) : List (Nat × List Byte) :=
  [(base + 25, leBytes 1 c.state), (base + 28, leBytes 2 c.pi ++ leBytes 2 c.ci ++ leBytes 2 c.done),
   (base + 38, leBytes 2 c.errCode ++ leBytes 2 c.errEntry ++ leBytes 2 c.epoch)]

/-- Write a cached context's E fields back. -/
def ctxWriteBack (s : State) (q : Nat) (c : QCtx) : State := (hubWrites s false (ctxWrites (qctxAddr s q) c)).2

/-- The cached context of a queue. -/
def cachedCtx (s : State) (q : Nat) : Option QCtx := (s.q.cache.find? (fun p => p.1 == q)).map (·.2)

/-- R258: the state of a queue: DISABLED in another host epoch. -/
def ctxState (s : State) (c : QCtx) : Nat := if c.epoch = s.q.hostEpoch then c.state else 0

/-- Cache a context as the most recently used; the 4,097th displaces the least recently used, whose E
fields are written back (R251). -/
def putCtx (s : State) (q : Nat) (c : QCtx) : State :=
  let rest := s.q.cache.filter (fun p => p.1 != q)
  let s1 := { s with q := { s.q with cache := (q, c) :: rest.take 4095 } }
  match rest[4095]? with
  | none => s1
  | some v => ctxWriteBack s1 v.1 v.2

/-- Remove a context from the cache. -/
def dropCtx (s : State) (q : Nat) : State :=
  { s with q := { s.q with cache := s.q.cache.filter (fun p => p.1 != q) } }

/-- A queue's context, read from memory when the hub does not hold it; that of an enabled queue, or of one in ERROR, is
cached then. The host may write that of a DISABLED queue (R251), so it is not kept. -/
def loadCtx (s : State) (q : Nat) : Except MemErr QCtx × State :=
  match cachedCtx s q with
  | some c => (.ok c, putCtx s q c)
  | none =>
    match devRead s hubVia false (qctxAddr s q) 64 with
    | (.error e, s1) => (.error e, s1)
    | (.ok b, s1) =>
      let c := QCtx.parse b
      (.ok c, if ctxState s1 c = 0 then s1 else putCtx s1 q c)

/-- The event source of a queue (R406). -/
def evtSrcOf (n : Nat) : Nat := if n < 0x1000 then 0x1000 else n

/-- Fetched entries of a queue. -/
def queueEnts (s : State) (q : Nat) : List QEnt := tget [] s.q.ents q
/-- Replace a queue's entries. -/
def setEnts (s : State) (q : Nat) (l : List QEnt) : State := { s with q := { s.q with ents := tset [] s.q.ents q l } }

/-! ### Errors and completions (R256, R257) -/

/-- R257: a queue enters ERROR, with its event. -/
def queueError (s : State) (q code entry : Nat) : State :=
  match loadCtx s q with
  | (.error _, s1) => hubEvent s1 0x1000 code (atByte 16 q + atByte 20 entry) 4
  | (.ok c, s1) =>
    let s2 := if ctxState s1 c = 1 then putCtx s1 q { c with state := 2, errCode := code, errEntry := entry } else s1
    hubEvent s2 (evtSrcOf c.evtSrc) code (atByte 16 q + atByte 20 entry) 4

/-- The 32 bytes of a completion (R256). -/
def completionBytes (q : Nat) (c : QCtx) (e : QEnt) (code info error : Nat) : List Byte :=
  leBytes 4 (q + (if e.idx / 2 ^ c.ringLog2 % 2 = 0 then 2 ^ 31 else 0)) ++ leBytes 2 e.idx
    ++ [BitVec.ofNat 8 (leField e.bytes 0 1), BitVec.ofNat 8 code] ++ leBytes 8 info ++ leBytes 4 error
    ++ leBytes 4 (leField e.bytes 56 4) ++ leBytes 8 0

/-- R255: advance `DONE` over completed entries in index order. -/
def advanceDone (done : Nat) : (fuel : Nat) → List QEnt → Nat × List QEnt
  | 0, l => (done, l)
  | fuel + 1, l =>
    match l with
    | [] => (done, [])
    | e :: r => if e.phase = .done ∧ e.idx = done then advanceDone ((done + 1) % 2 ^ 16) fuel r else (done, l)

/-- The event of a completed entry (R256), source `src`. -/
def completionEvent (s : State) (src q idx code : Nat) : State := hubEvent s src code (atByte 16 q + atByte 20 idx) 3

/-- A completion write has ended: its event, when asked for and written or for a code that is not OK, and the queue's error
COMPL_WRITE when the write failed (R256, R257). -/
def completionWritten (s : State) (q idx code src : Nat) (evt : Bool) (err : Option MemErr) : State :=
  let s1 := if err.isSome then queueError s q 5 idx else s
  if code ≠ 0 ∨ (evt ∧ err.isNone) then completionEvent s1 src q idx code else s1

/-- R255: `DONE` of a queue and its entries advance over the completed entries. That of a DISABLED queue, whose context the
hub does not keep, goes to memory at once (R262). -/
def putDone (s : State) (q : Nat) (c : QCtx) (done : Nat) (ents : List QEnt) : State :=
  let s1 := setEnts s q ents
  if ctxState s c = 0 then (if done = c.done then s1 else (hubWrite s1 false (qctxAddr s1 q + 32) (leBytes 2 done)).2)
  else putCtx s1 q { c with done := done }

/-- R255, R256: an entry completes: its completion is written, its event raised, and `DONE` advances. While the queue's
context cannot be read the completion waits; if it never can be, the completion cannot be written. -/
def completeEntry (s : State) (q idx code info error : Nat) : State :=
  match (queueEnts s q).find? (fun e => e.idx == idx && e.phase != .done) with
  | none => s
  | some e =>
    match loadCtx s q with
    | (.error .waits, s1) =>
      { s1 with q := { s1.q with owed := s1.q.owed ++ [{ queue := q, idx := idx, code := code, info := info, error := error }] } }
    | (.error _, s1) =>
      queueError (setEnts s1 q ((queueEnts s1 q).map fun k => if k.idx = idx then { k with phase := .done } else k)) q 5 idx
    | (.ok c, s1) =>
      let ents := (queueEnts s1 q).map fun k => if k.idx = idx then { k with phase := .done } else k
      let adv := advanceDone c.done (ents.length + 1) ents
      let s2 := putDone s1 q c adv.1 adv.2
      let addr := c.complBase + 32 * (idx % 2 ^ c.ringLog2)
      let bytes := completionBytes q c e code info error
      let evt := bitOf (leField e.bytes 2 1) 0
      if c.complDev then
        match hubWriteFor s2 (.completion q idx code evt) false addr bytes with
        | (some .waits, s3) => s3
        | (err, s3) => completionWritten s3 q idx code (evtSrcOf c.evtSrc) evt err
      else completionWritten (toHost s2 (.hostWrite addr bytes)) q idx code (evtSrcOf c.evtSrc) evt none

/-- Completions that wait for their queue's context are tried again, in order. -/
def payOwed (s : State) : State :=
  s.q.owed.foldl (fun st o => completeEntry st o.queue o.idx o.code o.info o.error) { s with q := { s.q with owed := [] } }

/-- The reply to a completion write that had waited (R256). -/
def completionReply (s : State) (q idx code : Nat) (evt : Bool) (err : Option MemErr) : State :=
  match loadCtx s q with
  | (.error _, s1) => completionWritten s1 q idx code 0x1000 evt err
  | (.ok c, s1) => completionWritten s1 q idx code (evtSrcOf c.evtSrc) evt err

/-! ### Jobs (R219) -/

/-- Read a job descriptor; none when it breaks R219, its alignment included. -/
def readJob (s : State) (job : Nat) : Except MemErr (Option JobDesc) × State :=
  if job % 64 ≠ 0 then (.ok none, s) else
  match devRead s hubVia false job 64 with
  | (.error e, s1) => (.error e, s1)
  | (.ok b, s1) => (.ok (if JobDesc.valid b then some (JobDesc.parse b) else none), s1)

/-- A strand of the job runs, is saved, or waits to start. -/
def jobBusy (s : State) (job : Nat) : Bool :=
  s.seqs.any (fun p => match p.2.strand with | some st => st.job == job | none => false)
    || s.saved.any (fun v => v.strand.job == job)

/-- An entry of a job is about to start. The job itself starts with its first entry, and again when no strand of it
runs or is saved and its step knot, counted in earlier training steps, holds 0 on every die (log 42); else what the
hub keeps of it stays. -/
def startJob (s : State) (job : Nat) (d : JobDesc) : State :=
  let j := getJob s job
  let again := decide (j.step ≠ 0) && !jobBusy s job
    && (List.range 4).all (fun die => knotVal s die (d.knotBase + d.stepKnot) == 0)
  if again || !s.jobs.any (fun p => p.1 == job) then setJob s job { desc := d } else setJob s job { j with desc := d }

/-! ### Entries (R254, R255) -/

/-- `TYPE`. -/
def QEnt.type (e : QEnt) : Nat := leField e.bytes 0 1
/-- A flag bit of byte 2: 0 `EVT`, 1 `WAIT_VALID`, 2 `DONE_VALID`. -/
def QEnt.flag (e : QEnt) (i : Nat) : Bool := bitOf (leField e.bytes 2 1) i

/-- The bytes of an entry that its type lists (R254). -/
def listedBytes : Nat → List (Nat × Nat)
  | 1 => [(0, 3), (4, 50), (52, 60)]
  | 2 => [(0, 3), (8, 32), (44, 50), (52, 60)]
  | 3 => [(0, 1), (2, 3), (8, 13), (16, 20), (56, 60)]
  | _ => [(0, 1), (2, 3), (56, 60)]

/-- Every byte that the type does not list is 0. -/
def QEnt.reservedZero (e : QEnt) : Bool :=
  (List.range 64).all fun i =>
    (listedBytes e.type).any (fun r => decide (r.1 ≤ i) && decide (i < r.2)) || (e.bytes.getD i 0#8).toNat == 0

/-- A knot number's index lies within the job's knots (R214). -/
def knotInJob (d : JobDesc) (k : Nat) : Bool := decide (k % 4096 < d.knotCount)

/-- R255: the entry is malformed, apart from its knots. -/
def QEnt.malformed (e : QEnt) : Bool :=
  let b := e.bytes
  let flags := leField b 2 1
  let t := e.type
  decide (t = 0) || decide (t > 4) || !e.reservedZero || decide (flags ≥ 8)
    || (e.flag 1 && decide (t > 2)) || (e.flag 2 && decide (t ≠ 2))
    || (decide (t = 1) &&
        (decide (leField b 1 1 > 2) || decide (leField b 48 2 ≥ 2 ^ 14)
          || (let p := leField b 4 2 % 2 ^ 15
              if leField b 1 1 = 2 then decide (p ≥ 20) else decide (p ≥ 256))))
    || (decide (t = 2) &&
        (decide (leField b 1 1 > 2) || decide (leField b 8 8 % 64 ≠ 0) || decide (leField b 16 8 % 64 ≠ 0)
          || decide (leField b 24 8 % 64 ≠ 0) || decide (leField b 24 8 < 64) || decide (leField b 24 8 > 2 ^ 40)
          || decide (leField b 44 2 ≥ 2 ^ 15) || decide (leField b 48 2 ≥ 2 ^ 14)
          || (e.flag 2 && decide (leField b 46 2 = 0))))
    || (decide (t = 3) && (decide (leField b 8 4 ≥ 2 ^ 15) || decide (leField b 12 1 > 1)))

/-- R255: every knot the entry uses lies within the job's knots. -/
def QEnt.knotsOk (e : QEnt) (d : JobDesc) : Bool :=
  (!e.flag 1 || knotInJob d (leField e.bytes 48 2 % 2 ^ 14))
    && (!(e.flag 2) || knotInJob d (leField e.bytes 44 2 % 2 ^ 14))
    && (decide (e.type ≠ 3) || knotInJob d (leField e.bytes 8 4 % 2 ^ 14))

/-- R254: the entry's knot wait is over. -/
def QEnt.waitOver (s : State) (d : JobDesc) (e : QEnt) : Bool :=
  let k := leField e.bytes 48 2 % 2 ^ 14
  !e.flag 1 || reached (knotVal s (k / 4096) (d.knotBase + k % 4096)) (leField e.bytes 52 4)

/-- The work item of a STRAND entry (R255). -/
def QEnt.item (q : Nat) (c : QCtx) (e : QEnt) : WorkItem :=
  { queue := q, entry := e.idx, weight := if c.weight = 0 then 1 else c.weight
    skind := leField e.bytes 1 1 % 4, place := leField e.bytes 4 2 % 2 ^ 15, any := bitOf (leField e.bytes 4 2) 15
    energySlot := leField e.bytes 6 2, program := leField e.bytes 8 8
    args := (List.range 4).map fun i => leField e.bytes (16 + 8 * i) 8
    job := c.job, evtSrc := evtSrcOf c.evtSrc }

/-- Set the phase of an entry. -/
def setPhase (s : State) (q idx : Nat) (p : EntPhase) : State :=
  setEnts s q ((queueEnts s q).map fun e => if e.idx = idx ∧ e.phase ≠ .done then { e with phase := p } else e)

/-- The unit field of strand events (R413) of a sequencer: core, or 0x100 + hearth. -/
def seqUnit (q : Nat) : Nat := if q < 512 then q % 256 else 0x100 + (q - 512)

/-- The data of a strand's event (R413): a value, queue, entry and unit. -/
def strandData (val queue entry unit : Nat) : Nat :=
  atByte 16 (val % 2 ^ 64) + atByte 24 queue + atByte 28 entry + atByte 30 unit

/-- R419: an event of the strand of an entry on sequencer `q`: 0 strand event, 1 strand error, 2 held strand. -/
def strandEvent (s : State) (q src queue entry j code val : Nat) : State :=
  let data := strandData val queue entry (seqUnit q)
  if q < 512 then
    let bit := if j = 0 then (if q < 256 then 3 else 4) else 4 + j
    localEvent s (q % 256 / 8) (8 * (q % 256 % 8) + bit) src (5 + j) code data
  else localEvent s (32 + (q - 512) / 5) (8 * ((q - 512) % 5) + j) src (5 + j) code data

/-- The sequencer that `PLACE` names for a strand kind (R254). -/
def placedSeq (skind place : Nat) : Nat := if skind = 2 then 512 + place else 256 * skind + place

/-- R213, R255: the strand-error event of an entry that ends with ALIGN before it has a sequencer. Under `ANY` no unit has
been chosen: the hub raises it, and its unit field is a free value (log 119). -/
def alignEvent (s : State) (q : Nat) (c : QCtx) (e : QEnt) : State :=
  let w := e.item q c
  if w.any then
    let (u, s1) := drawFree s
    hubEvent s1 w.evtSrc 0x03 (strandData w.program q e.idx (u % 2 ^ 16)) 6
  else strandEvent s (placedSeq w.skind w.place) w.evtSrc q e.idx 1 0x03 w.program

/-- R255: start a STRAND entry: a work item, or an end with ALIGN. -/
def startStrand (s : State) (q : Nat) (c : QCtx) (e : QEnt) : State :=
  let s1 := setPhase s q e.idx .started
  if leField e.bytes 8 8 % 8 ≠ 0 then alignEvent (completeEntry s1 q e.idx 0x03 (leField e.bytes 8 8) 0) q c e
  else
    { s1 with q := { s1.q with ready := s1.q.ready ++ [{ e.item q c with stamp := s1.q.stamp }], stamp := s1.q.stamp + 1 } }

/-- R255: carry out a started KNOT entry once every earlier COPY of its queue has completed. -/
def sendKnotEntry (s : State) (q : Nat) (d : JobDesc) (e : QEnt) : State :=
  let k := leField e.bytes 8 4
  let s1 := setEnts s q ((queueEnts s q).map fun x => if x.idx = e.idx then { x with sent := true } else x)
  knotUpdate s1 hubSource (k % 2 ^ 14 / 4096) (d.knotBase + k % 4096) (bitOf k 14) (leField e.bytes 12 1 == 0)
    (leField e.bytes 16 4) (some (q * 65536 + e.idx))

/-- Send the KNOT entries of a queue that have started and wait for no COPY (R255). -/
def sendKnotEntries (s : State) (q : Nat) (d : JobDesc) : State :=
  let rec go (st : State) : List QEnt → State
    | [] => st
    | e :: r =>
      if e.type = 2 ∧ e.phase = .started then st
      else if e.type = 3 ∧ e.phase = .started ∧ !e.sent then go (sendKnotEntry st q d e) r
      else go st r
  go s (queueEnts s q)

/-- R255: start the queue's next entry. None when it must wait, or nothing is left to start. -/
def startNext (s : State) (q : Nat) : Option State :=
  match (if s.d3 then none else (queueEnts s q).find? (fun e => e.phase == .fetched)) with
  | none => none
  | some e =>
    match loadCtx s q with
    | (.error _, _) => none
    | (.ok c, s) =>
      if ctxState s c ≠ 1 then none
      else if e.malformed then some (queueError s q 3 e.idx)
      else if e.type = 4 then
        if (queueEnts s q).all (fun x => x.phase == .done || x.phase == .fetched)
            && ((queueEnts s q).find? (fun x => x.phase != .done)).map (·.idx) == some e.idx then
          some (completeEntry (setPhase s q e.idx .started) q e.idx 0 0 0)
        else none
      else
        match readJob s c.job with
        | (.error .waits, _) => none
        | (.error _, s1) | (.ok none, s1) => some (queueError s1 q 6 e.idx)
        | (.ok (some d), s1) =>
          if !e.knotsOk d then some (queueError s1 q 3 e.idx)
          else if !e.waitOver s1 d then none
          else
            let s2 := startJob s1 c.job d
            if e.type = 1 then some (startStrand s2 q c e)
            else if e.type = 2 then some (setPhase s2 q e.idx .started)
            else some (sendKnotEntries (setPhase s2 q e.idx .started) q d)

/-- Start entries of a queue as long as they can start. -/
def kickFuel (q : Nat) : (fuel : Nat) → State → State
  | 0, s => s
  | fuel + 1, s =>
    match startNext s q with
    | none => s
    | some s1 => kickFuel q fuel s1

/-- Send the started KNOT entries that need wait no more, then start what can start. -/
def kickQueue (s : State) (q : Nat) : State :=
  let s1 :=
    if (queueEnts s q).any (fun e => e.type == 3 && e.phase == .started && !e.sent) then
      match loadCtx s q with
      | (.error _, s1) => s1
      | (.ok c, s1) => sendKnotEntries s1 q (getJob s1 c.job).desc
    else s
  kickFuel q (2 * (queueEnts s1 q).length + 1) s1

/-- Every queue with fetched entries is looked at again: a knot has changed. -/
def kickAll (s : State) : State := (s.q.ents.map (·.1)).foldl kickQueue s

/-- Entries of a queue that are fetched and not started (R255). -/
def unstarted (s : State) (q : Nat) : Nat := ((queueEnts s q).filter (fun e => e.phase == .fetched)).length

/-- Such entries in the hub as a whole. -/
def unstartedAll (s : State) : Nat :=
  (s.q.ents.map fun p => (p.2.filter (fun e => e.phase == .fetched)).length).sum

/-! ### The host interface registers -/

/-- R246, R260: a discarded BAR0 write. -/
def bar0Drop (s : State) : State := hubEvent (dcount s Key.hifDrops) 0x0602

/-- R260: the value of `HIF_CMD_RESULT` after a command. -/
def cmdResultWord (strand : Bool) (result cmd entry q : Nat) : Nat :=
  (if strand then 2 ^ 62 else 0) + result * 2 ^ 40 + cmd * 2 ^ 36 + entry * 2 ^ 20 + q

/-- Set `HIF_CMD_RESULT` but for `BUSY`. -/
def setResult (s : State) (strand : Bool) (result cmd entry q : Nat) : State :=
  { s with q := { s.q with cmdResult := cmdResultWord strand result cmd entry q } }

/-- The module is in the hold state (R450). -/
def inHold (s : State) : Bool := dget s Key.holdCause != 0

/-- `HIF_STATUS` (R247). -/
def hifStatus (s : State) : Nat :=
  s.q.hostEpoch * 2 ^ 16 + (if s.q.linkDegraded then 8 else 0) + (if inHold s then 4 else 0)
    + (if s.q.qeReady then 2 else 0) + (if s.q.memReady then 1 else 0)

/-- DOORBELL (R253). -/
def doorbell (s : State) (v : Nat) : State :=
  let q := v % 2 ^ 20
  let pi := v / 2 ^ 20 % 2 ^ 16
  if v / 2 ^ 36 ≠ 0 ∨ !s.q.qeReady then hubEvent (dcount s Key.doorbellDrops) 0x0603
  else
    match loadCtx s q with
    | (.error _, s1) => dcount s1 Key.doorbellDrops
    | (.ok c, s1) =>
      let d := fun x => (x + 2 ^ 16 - c.done) % 2 ^ 16
      if ctxState s1 c ≠ 1 then dcount s1 Key.doorbellDrops
      else if d pi > 2 ^ c.ringLog2 then queueError s1 q 2 pi
      else if d pi < d c.pi then dcount s1 Key.doorbellDrops
      else if d pi = d c.pi then s1
      else putCtx { s1 with q := { s1.q with doorbells := s1.q.doorbells + 1 } } q { c with pi := pi }

/-- R261: a context as ENABLE requires it. -/
def ctxValid (s : State) (c : QCtx) : Bool :=
  decide (c.ringLog2 ≠ 0) && !c.reserved && decide (c.ringBase % 64 = 0) && decide (c.complBase % 32 = 0)
    && (resolve s.mem none c.job).isSome

/-- ENABLE (R261). -/
def enableQueue (s : State) (q : Nat) : State :=
  if !s.q.qeReady then bar0Drop s
  else
    match loadCtx s q with
    | (.error .waits, s1) => s1
    | (.error _, s1) =>
      let s2 := queueError (putCtx s1 q { state := 1, epoch := s1.q.hostEpoch }) q 1 0
      setResult { s2 with q := { s2.q with live := sinsert q s2.q.live } } false 2 1 0 q
    | (.ok old, s1) =>
      let st := ctxState s1 old
      if st = 1 then setResult s1 false 5 1 0 q
      else
        match devRead s1 hubVia false (qctxAddr s1 q) 64 with
        | (.error .waits, s2) => s2
        | (.error _, s2) =>
          let s3 := queueError (putCtx s2 q { old with state := 1, epoch := s2.q.hostEpoch }) q 1 old.ci
          setResult { s3 with q := { s3.q with live := sinsert q s3.q.live } } false 2 1 0 q
        | (.ok b, s2) =>
          let n := QCtx.parse b
          let c : QCtx :=
            if st = 0 then { n with state := 1, errCode := 0, epoch := s2.q.hostEpoch }
            else { n with state := 1, errCode := 0, epoch := old.epoch, pi := old.pi, ci := old.ci, done := old.done
                          errEntry := old.errEntry }
          let s3 := putCtx s2 q c
          let s3' := { s3 with q := { s3.q with live := sinsert q s3.q.live } }
          let s4 := if st = 0 then { s3' with q := { s3'.q with started := tset 0 s3'.q.started q 0 } } else s3'
          if ctxValid s4 n then kickQueue (setResult s4 false 0 1 0 q) q
          else setResult (queueError s4 q 1 c.ci) false 2 1 0 q

/-- The entries that DISABLE discards complete as CANCELLED (R261). -/
def cancelEntries (s : State) (q : Nat) : List Nat → State
  | [] => s
  | i :: r => cancelEntries (completeEntry s q i 0x0A 0 0) q r

/-- DISABLE (R261). -/
def disableQueue (s : State) (q : Nat) : State :=
  if !s.q.qeReady then bar0Drop s
  else
    match loadCtx s q with
    | (.error .waits, s1) => s1
    | (.error _, s1) => setResult s1 false 5 2 0 q
    | (.ok c, s1) =>
      if ctxState s1 c = 0 then setResult s1 false 5 2 0 q
      else
        let gone := ((queueEnts s1 q).filter (fun e => e.phase == .fetched)).map (·.idx)
        let s2 := cancelEntries s1 q gone
        let s3 := setEnts s2 q ((queueEnts s2 q).filter fun e => !gone.contains e.idx)
        match loadCtx s3 q with
        | (.error _, s4) => setResult { s4 with q := { s4.q with live := sremove q s4.q.live } } false 0 2 0 q
        | (.ok c1, s3) =>
          let c2 := { c1 with state := 0, ci := gone.headD c1.ci
                              done := if gone.contains ((c1.done + 2 ^ 16 - 1) % 2 ^ 16) then gone.headD c1.ci else c1.done }
          let s4 := ctxWriteBack (dropCtx s3 q) q c2
          setResult { s4 with q := { s4.q with live := sremove q s4.q.live } } false 0 2 0 q

/-- FLUSH (R261). -/
def flushQueue (s : State) (q : Nat) : State :=
  if !s.q.qeReady then bar0Drop s
  else
    match loadCtx s q with
    | (.error .waits, s1) => s1
    | (.error _, s1) => setResult s1 false 5 3 0 q
    | (.ok c, s1) =>
      if ctxState s1 c = 0 then setResult s1 false 5 3 0 q
      else setResult (ctxWriteBack s1 q c) false 0 3 0 q

/-! ### Fetching entries (R253, R255) -/

/-- Entries of the next fetch of a queue: up to eight, within the limits of R255 and the ring. -/
def fetchCount (s : State) (q : Nat) (c : QCtx) : Nat :=
  let room := min (dget s Key.readyLimit - unstarted s q) (16384 - unstartedAll s)
  min (min 8 ((c.pi + 2 ^ 16 - c.ci) % 2 ^ 16)) (min room (2 ^ c.ringLog2 - c.ci % 2 ^ c.ringLog2))

/-- Append fetched entries. -/
def appendEnts (idx : Nat) : (n : Nat) → List Byte → List QEnt
  | 0, _ => []
  | n + 1, b => { idx := idx % 2 ^ 16, bytes := b.take 64 } :: appendEnts (idx + 1) n (b.drop 64)

/-- The queue can fetch now: its context, the number of entries, and the state that has the context. -/
def canFetch (s : State) (q : Nat) : Option (QCtx × Nat × State) :=
  match loadCtx s q with
  | (.error _, _) => none
  | (.ok c, s1) =>
    if s1.d3 ∨ ctxState s1 c ≠ 1 ∨ fetchCount s1 q c = 0 then none else some (c, fetchCount s1 q c, s1)

/-- ENTRY_FETCH_RETURN (R255): a fetch of the queue returns; `host` is what a host ring delivers, none for
a poisoned or aborted completion. -/
def entryFetchReturn (s : State) (q : Nat) (host : Option (List Byte)) : State :=
  match canFetch s q with
  | none => s
  | some (c, n, s) =>
    let take := fun (st : State) (b : List Byte) =>
      kickQueue (putCtx (setEnts st q (queueEnts st q ++ appendEnts c.ci n b)) q { c with ci := (c.ci + n) % 2 ^ 16 }) q
    if c.ringDev then
      match devRead s hubVia false (c.ringBase + 64 * (c.ci % 2 ^ c.ringLog2)) (64 * n) with
      | (.error .waits, s1) => s1
      | (.error _, s1) => queueError s1 q 4 c.ci
      | (.ok b, s1) => take s1 b
    else
      match host with
      | none => queueError (sendAer s .poisonedTlp) q 4 c.ci
      | some b => if b.length < 64 * n then s else take s b

/-! ### COPY entries (R254, R255) -/

/-- A started COPY entry. -/
def copyEntry (s : State) (q idx : Nat) : Option QEnt :=
  (queueEnts s q).find? (fun e => e.idx == idx && e.type == 2 && e.phase == .started)

/-- Copy within device memory, atom by atom, writes to a fenced channel being discarded (R287): why it stopped, the bytes written, and the state. -/
def copyDev (bulk : Bool) : (atoms : Nat) → State → Nat → Nat → Nat → Option MemErr × Nat × State
  | 0, s, _, _, w => (none, w, s)
  | n + 1, s, src, dst, w =>
    match devRead s hubVia bulk src 64 with
    | (.error e, s1) => (some e, w, s1)
    | (.ok b, s1) =>
      match devWrite s1 hubVia bulk dst b with
      | (some .fenced, s2) | (none, s2) => copyDev bulk n s2 (src + 64) (dst + 64) (w + 64)
      | (some e, s2) => (some e, w, s2)

/-- Write host data into device memory atom by atom. -/
def copyIn (bulk : Bool) : (atoms : Nat) → State → Nat → List Byte → Nat → Option MemErr × Nat × State
  | 0, s, _, _, w => (none, w, s)
  | n + 1, s, dst, b, w =>
    match devWrite s hubVia bulk dst (b.take 64) with
    | (some .fenced, s1) | (none, s1) => copyIn bulk n s1 (dst + 64) (b.drop 64) (w + 64)
    | (some e, s1) => (some e, w, s1)

/-- The end of a COPY: its completion, its done knot when it went well, and what may start now. The job's descriptor is the
one read when the entry started. -/
def finishCopy (s : State) (q : Nat) (c : QCtx) (e : QEnt) (err : Option MemErr) (written : Nat) : State :=
  let b := e.bytes
  let s1 := completeEntry s q e.idx (if err.isSome then 0x04 else 0x00) written 0
  let s2 :=
    if e.flag 2 && err.isNone then
      knotUpdate s1 hubSource (leField b 44 2 % 2 ^ 14 / 4096) ((getJob s1 c.job).desc.knotBase + leField b 44 2 % 4096)
        (bitOf (leField b 44 2) 14) false (leField b 46 2)
    else s1
  kickQueue s2 q

/-- COPY_COMPLETE (R255): the copy's data moves and its last write is acknowledged; `host` is what host
memory delivers, none for a poisoned completion (R264). A copy that must wait, or that involves the host in D3hot, is not yet
complete. -/
def copyComplete (s : State) (q idx : Nat) (host : Option (List Byte)) : State :=
  match copyEntry s q idx, loadCtx s q with
  | some e, (.ok c, s) =>
    let srcHost := bitOf (leField e.bytes 1 1) 0
    let dstHost := bitOf (leField e.bytes 1 1) 1
    let src := leField e.bytes 8 8
    let dst := leField e.bytes 16 8
    let len := leField e.bytes 24 8
    let bulk := !c.class2
    if (srcHost || dstHost) && s.d3 then s
    else if srcHost then
      match host with
      | none => finishCopy (sendAer s .poisonedTlp) q c e (some .poisoned) 0
      | some h =>
        if h.length ≠ len then s
        else
          match copyIn bulk (len / 64) s dst h 0 with
          | (some .waits, _, s1) => { s1 with mem := s.mem, free := s.free }
          | (err, w, s1) => finishCopy s1 q c e err w
    else if dstHost then
      match devRead s hubVia bulk src len with
      | (.error .waits, s1) => s1
      | (.error er, s1) => finishCopy s1 q c e (some er) 0
      | (.ok b, s1) => finishCopy (toHost s1 (.hostWrite dst b)) q c e none len
    else
      match copyDev bulk (len / 64) s src dst 0 with
      | (some .waits, _, s1) => { s1 with mem := s.mem, free := s.free }
      | (err, w, s1) => finishCopy s1 q c e err w
  | _, _ => s

/-- PCIE_COMPLETION_TIMEOUT (R264): of a ring fetch, or of the COPY entry given. -/
def pcieTimeout (s : State) (q : Nat) (copy : Option Nat) : State :=
  match copy with
  | none =>
    match canFetch s q with
    | none => s
    | some (c, _, s1) => if c.ringDev then s else queueError (sendAer s1 .completionTimeout) q 4 c.ci
  | some idx =>
    match copyEntry s q idx, loadCtx s q with
    | some e, (.ok c, s1) =>
      if !bitOf (leField e.bytes 1 1) 0 then s
      else finishCopy (sendAer s1 .completionTimeout) q c e (some .poisoned) 0
    | _, _ => s

end Sys2Proof.Machine
end

