-- ==== Sys2Proof/Machine/Strand.lean ====
section
/-!
DEFINITION. Sequencers and strands: fetching (R207), the scalar instructions (R209–R212), knots
(R214–R217), seal waits (R226, R228), strand ends (R213), holds (R237, R238), yields (R239) and the effect
of knot updates on all who wait.
-/

namespace Sys2Proof.Machine

/-! ### Sequencers -/

/-- A sequencer. -/
def getSeq (s : State) (q : Nat) : Seqr := tget ({} : Seqr) s.seqs q
/-- Replace a sequencer. -/
def setSeq (s : State) (q : Nat) (r : Seqr) : State := { s with seqs := tset ({} : Seqr) s.seqs q r }
/-- The strand a sequencer runs. -/
def getStrand (s : State) (q : Nat) : Option Strand := (getSeq s q).strand
/-- Replace the strand a sequencer runs. -/
def setStrand (s : State) (q : Nat) (st : Option Strand) : State := setSeq s q { getSeq s q with strand := st }
/-- The core of a core's sequencer. -/
def seqCore (q : Nat) : Nat := q % 256
/-- The die of a sequencer's unit. -/
def seqDie (q : Nat) : Nat := if q < 512 then q % 256 / 64 else (q - 512) / 5
/-- A cluster's power condition. -/
def getCluster (s : State) (c : Nat) : ClusterPw := tget ({} : ClusterPw) s.pw.clusters c
/-- Replace a cluster's power condition. -/
def setCluster (s : State) (c : Nat) (p : ClusterPw) : State :=
  { s with pw := { s.pw with clusters := tset ({} : ClusterPw) s.pw.clusters c p } }

/-- The cluster is powered and not damped (R395, R464). -/
def clusterAwake (s : State) (c : Nat) : Bool :=
  s.q.qeReady && !(getCluster s c).off && (getCluster s c).damp == .none

/-- The sequencer's unit executes instructions: it is powered, awake and not fenced or held. -/
def seqRuns (s : State) (q : Nat) : Bool :=
  !(getSeq s q).fenced && !bitOf s.rst.dieFence (seqDie q) && !s.flt.hubFault
    && (decide (q ≥ 512) || clusterAwake s (seqCore q / 8))

/-- R419: an event of a sequencer: 0 strand event, 1 strand error, 2 held strand. -/
def seqEvent (s : State) (q : Nat) (st : Strand) (j code val : Nat) : State :=
  strandEvent s q st.evtSrc st.queue st.entry j code val

/-! ### Registers and memory of a strand -/

/-- Read a register; s0 reads as 0 (R206). -/
def Strand.reg (st : Strand) (r : Nat) : Word := if r = 0 then 0 else tget (α := Word) 0 st.regs r
/-- Write a register; a write to s0 is discarded (R206). -/
def Strand.setReg (st : Strand) (r : Nat) (v : Word) : Strand :=
  if r = 0 then st else { st with regs := tset (α := Word) 0 st.regs r v }

/-- The sign-extended immediate (R209). -/
def sextImm (imm : BitVec 32) : Word := imm.signExtend 64

/-- The present epoch of a sequencer (R458): its own quenches and the host resets. -/
def seqEpoch (s : State) (q : Nat) : Nat := ((getSeq s q).epoch + s.rst.epochs) % 16

/-- A class 1 request of a sequencer in flight (R458); its reply is the one with its number (R207). -/
def seqRequest (s : State) (q : Nat) (addr len : Nat) (w : Option (List Byte)) : State :=
  let r := getSeq s q
  let s1 := setSeq s q { r with reqNo := r.reqNo + 1 }
  { s1 with mem := { s1.mem with reqs := s1.mem.reqs ++
      [{ who := .seq (Fin.ofNat 532 q), epoch := seqEpoch s q, addr := addr, len := len, wdata := w, no := r.reqNo + 1
         expl := dget s Key.cacheExplicit == 1, post := waveLatched s (seqSource q) }] } }

/-! ### Ending a strand (R213, R401) -/

/-- R401: the energy slot record after a work item of energy `e` µJ and duration `t` counts. -/
def energyRecord (b : List Byte) (e t : Nat) : List Byte :=
  leBytes 4 (min e (2 ^ 32 - 1)) ++ leBytes 4 (t % 2 ^ 32)
    ++ leBytes 4 (satAdd (2 ^ 32 - 1) (leField b 8 4) (e / 1000))
    ++ leBytes 2 (satAdd (2 ^ 16 - 1) (leField b 12 2) 1) ++ leBytes 2 0

/-- The die agent writes the energy slot of a finished work item; what it measured is a free value (log 3).
Slot 0 is never written (R400). -/
def writeEnergy (s : State) (slot : Nat) : State :=
  if slot = 0 then s
  else
    let addr := dget s Key.energyTable + 16 * slot
    let (e, s1) := drawFree s
    let (t, s2) := drawFree s1
    match devRead s2 hubVia false addr 16 with
    | (.error _, s3) => s3
    | (.ok b, s3) => (hubWrite s3 false addr (energyRecord b e t)).2

/-- R213: a strand has ended: its entry completes, its error is raised, and its energy slot is written. -/
def reportEnd (s : State) (q : Nat) (st : Strand) (code info error : Nat) : State :=
  let s1 := completeEntry s st.queue st.entry code info error
  let s2 := if code = 0 then s1 else seqEvent s1 q st 1 code info
  kickQueue (writeEnergy s2 st.energySlot) st.queue

/-- The strand a sequencer runs ends with a code (R213). -/
def endStrand (s : State) (q code : Nat) (error : Nat := 0) : State :=
  match getStrand s q with
  | none => s
  | some st => reportEnd (setStrand s q none) q st code st.pc.toNat error

/-! ### Fetching (R207, R209) -/

/-- The instruction word that bytes of an atom hold at offset `o`. -/
def wordIn (b : List Byte) (o : Nat) : Nat := leField b o 8

/-- The instruction word at the strand's PC, when its atom is in the buffer. -/
def Strand.word (st : Strand) : Option Nat :=
  (st.ibuf.find? (fun p => p.1 == st.pc.toNat / 64)).map fun p => wordIn p.2 (st.pc.toNat % 64)

/-- Fields of an instruction word (R209). -/
def wOpc (w : Nat) : Nat := bits w 63 58
/-- `DST`. -/
def wDst (w : Nat) : Nat := bits w 57 53
/-- `SRCA`. -/
def wA (w : Nat) : Nat := bits w 52 48
/-- `SRCB`. -/
def wB (w : Nat) : Nat := bits w 47 43
/-- `FN`. -/
def wFn (w : Nat) : Nat := bits w 42 32
/-- `IMM`. -/
def wImm (w : Nat) : Nat := bits w 31 0

/-- The instruction word of the fields given (R209). -/
def encWord (opc dst a b fn imm : Nat) : Nat :=
  opc * 2 ^ 58 + dst * 2 ^ 53 + a * 2 ^ 48 + b * 2 ^ 43 + fn * 2 ^ 32 + imm

/-- R209–R212: the word is a legal instruction: its opcode is defined, its unused fields are 0 and its used
fields hold defined values. -/
def legalWord (w : Nat) : Bool :=
  let dst0 := wDst w == 0
  let a0 := wA w == 0
  let b0 := wB w == 0
  let fn := wFn w
  let i0 := wImm w == 0
  match wOpc w with
  | 0x01 | 0x02 | 0x09 | 0x0A => a0 && b0 && fn == 0
  | 0x03 => i0 && decide (fn ≤ 13)
  | 0x04 => b0 && decide (fn ≤ 13)
  | 0x05 | 0x10 | 0x1A => b0 && fn == 0
  | 0x06 | 0x19 => dst0 && fn == 0
  | 0x08 => dst0 && decide (fn ≤ 6)
  | 0x0B => dst0 && b0 && fn == 0 && i0
  | 0x11 => b0 && i0 && decide (fn ≤ 1)
  | 0x18 => dst0
  | 0x1B => dst0 && decide (fn % 1024 = 0)
  | 0x20 => b0 && decide (fn ≤ 9)
  | 0x28 => dst0 && b0 && fn == 0 && decide (wImm w < 2 ^ 16)
  | 0x30 => dst0 && b0 && i0 && decide (fn ≤ 2) && (fn == 2 || a0)
  | _ => false

/-- The strand has reached its PC: a misaligned PC or an illegal word ends it; an atom not in the buffer is
fetched (R207, R209, R213). -/
def arrive (s : State) (q : Nat) : State :=
  match getStrand s q with
  | none => s
  | some st =>
    if st.pc.toNat % 8 ≠ 0 then endStrand s q 0x03
    else
      match st.word with
      | some w =>
        if !legalWord w then endStrand s q 0x02
        else
          let atom := st.pc.toNat / 64
          let hit := st.ibuf.filter (fun p => p.1 == atom)
          setStrand s q (some { st with ibuf := hit ++ st.ibuf.filter (fun p => p.1 != atom) })
      | none =>
        let atom := st.pc.toNat / 64
        seqRequest (setStrand s q (some { st with wait := .fetch atom })) q (atom * 64) 64 none

/-- Continue a strand at a PC. A JR to a misaligned target ends the strand there, so that the PC reported is the target
(log 122). -/
def goTo (s : State) (q : Nat) (st : Strand) (pc : Word) : State :=
  arrive (setStrand s q (some { st with pc := pc, wait := .none, waited := 0 })) q

/-- Continue a strand at the next instruction. -/
def next (s : State) (q : Nat) (st : Strand) : State := goTo s q st (st.pc + 8)

/-- The fault of a sequencer with an uncorrectable error in its registers or instruction buffer (R365). -/
def seqFault (s : State) (q : Nat) (inj : Bool) : State :=
  raiseFault s { mech := .seqUe, inj := inj, utype := if q < 512 then 1 else 2, unit := if q < 512 then q % 256 else q - 512
                 locA := if q < 256 then 3 else if q < 512 then 4 else 1 }

/-- The strand of a sequencer that can execute the instruction word `w` now: its unit runs, it waits for
nothing and is not stopped, and its PC holds that word (log 43). An injected SEQ_UE ends it (R365, R383). -/
def execWord (s : State) (q w : Nat) (f : State → Strand → State) : State :=
  match getStrand s q with
  | none => s
  | some st =>
    if seqRuns s q && st.wait == .none && !st.stopped && st.word == some w then
      match takeHit s (if q < 512 then 1 else 2) (if q < 512 then q % 256 else q - 512) [.seqUe] none with
      | (some _, s1) => endStrand (seqFault s1 q true) q 0x04
      | (none, _) => f s st
    else s

/-! ### Scalar instructions (R210–R212) -/

/-- R211: the ALU functions. -/
def aluOp (fn : Nat) (a b : Word) : Word :=
  match fn with
  | 0 => a + b
  | 1 => a - b
  | 2 => a &&& b
  | 3 => a ||| b
  | 4 => a ^^^ b
  | 5 => a <<< (b.toNat % 64)
  | 6 => a >>> (b.toNat % 64)
  | 7 => a.sshiftRight (b.toNat % 64)
  | 8 => a * b
  | 9 => if a.toInt ≤ b.toInt then a else b
  | 10 => if a.toInt ≤ b.toInt then b else a
  | 11 => if a.toInt < b.toInt then 1 else 0
  | 12 => if a.toNat < b.toNat then 1 else 0
  | _ => if a = b then 1 else 0

/-- R212: the BR conditions. -/
def brCond (fn : Nat) (a b : Word) : Bool :=
  match fn with
  | 0 => true
  | 1 => a == b
  | 2 => a != b
  | 3 => decide (a.toInt < b.toInt)
  | 4 => decide (a.toInt ≥ b.toInt)
  | 5 => decide (a.toNat < b.toNat)
  | _ => decide (a.toNat ≥ b.toNat)

/-- A relative branch target: pc + 8 × sext(imm) (R210). -/
def brTarget (pc : Word) (imm : BitVec 32) : Word := pc + 8 * sextImm imm

/-! ### Knots (R214–R217, R237) -/

/-- The job descriptor of a strand. -/
def strandJob (s : State) (st : Strand) : JobDesc := (getJob s st.job).desc

/-- The number of knot instructions: srca + sext(imm), when it lies in the job's knots; `own` for WAIT and
KRD, whose DIE field must be 0 (R214). -/
def knotOf (s : State) (st : Strand) (n : Word) (own : Bool) : Option (Nat × Nat) :=
  let d := strandJob s st
  let k := n.toNat
  if k ≥ 2 ^ 14 then none
  else if !knotInJob d k then none
  else if own && decide (k ≥ 4096) then none
  else some (k / 4096, d.knotBase + k % 4096)

/-- R237: a held strand stops before a knot instruction, with its event. -/
def stopHeld (s : State) (q : Nat) (st : Strand) : Option State :=
  match st.hold with
  | none => none
  | some c => some (seqEvent (setStrand s q (some { st with stopped := true })) q st 2 c st.pc.toNat)

/-- TIE and KSET (R215, R216). -/
def knotInstr (s : State) (q : Nat) (st : Strand) (n : Word) (bcast isSet : Bool) (val : Nat) : State :=
  match stopHeld s q st with
  | some s1 => s1
  | none =>
    match knotOf s st (if bcast && decide (n.toNat < 2 ^ 14) then n &&& 0xFFF else n) false with
    | none => endStrand s q 0x05
    | some (die, k) =>
      next (knotUpdate s (seqSource q) die k bcast isSet (val % 2 ^ 32) none (some (st.queue, st.entry))) q st

/-- The storm holds an update strand before a WAIT (R238). -/
def stormHolds (s : State) (q : Nat) : Bool := decide (q ≥ 512) && s.storm.active && s.storm.hold != .none

/-- The value of a knot lost to an uncorrectable error cannot be read (R365). -/
def knotLost (s : State) (die k : Nat) : Bool := s.knotsLost.contains (die * 4096 + k)

/-- WAIT (R215). -/
def waitInstr (s : State) (q : Nat) (st : Strand) (n : Word) (target : Nat) : State :=
  match stopHeld s q st with
  | some s1 => s1
  | none =>
    if stormHolds s q then
      if st.stormStop then s
      else seqEvent (setStrand s q (some { st with stormStop := true })) q st 2 2 st.pc.toNat
    else
      match knotOf s st n true with
      | none => endStrand s q 0x05
      | some (_, k) =>
        let st1 := { st with stormStop := false }
        if reached (knotVal s (seqDie q) k) target && !knotLost s (seqDie q) k then next s q st1
        else if knotLost s (seqDie q) k then
          setStrand s q (some { st1 with wait := .knot k (target % 2 ^ 32), hold := some (st1.hold.getD 1) })
        else setStrand s q (some { st1 with wait := .knot k (target % 2 ^ 32) })

/-- Wake the strand of a sequencer whose wait on a knot is over (R215). -/
def wakeSeq (s : State) (q : Nat) : State :=
  match getStrand s q with
  | none => s
  | some st =>
    match st.wait with
    | .knot k t =>
      if seqRuns s q && reached (knotVal s (seqDie q) k) t && !knotLost s (seqDie q) k then next s q st else s
    | .none | .fetch _ | .load _ | .store | .ladr _ | .seal _ _ _ => s

/-- Every waiter looks at its knot again (R215), in the order of the sequencers. -/
def wakeAll (s : State) : State := (s.seqs.map (·.1)).foldl wakeSeq s

/-- The strand that a sequencer runs is held (R237). -/
def holdStrand (s : State) (q cause : Nat) : State :=
  match getStrand s q with
  | none => s
  | some st => if st.hold.isSome then s else setStrand s q (some { st with hold := some cause })

/-- The sequencer that runs the strand an entry started. -/
def runnerOf (s : State) (q entry : Nat) : Option Nat :=
  (s.seqs.find? (fun p => match p.2.strand with
    | some st => st.queue == q && st.entry == entry
    | none => false)).map (·.1)

/-- R217, R237: the strand of an entry is held, running or saved. -/
def holdOwner (s : State) (q entry cause : Nat) : State :=
  match runnerOf s q entry with
  | some r => holdStrand s r cause
  | none =>
    { s with saved := s.saved.map fun v =>
        if v.strand.queue = q ∧ v.strand.entry = entry ∧ v.strand.hold.isNone then
          { v with strand := { v.strand with hold := some cause } }
        else v }

/-- The queue entry of an update has been applied on every die, or answered with an ash completion
(R255). -/
def entryApplied (s : State) (ent : Option Nat) : State :=
  match ent with
  | none => s
  | some n =>
    if s.knotq.any (fun m => m.ent == some n) then s
    else
      let bad := (queueEnts s (n / 65536)).any (fun e => e.idx == n % 65536 && e.ashed)
      completeEntry s (n / 65536) (n % 65536) (if bad then 0x05 else 0) 0 0

/-- Whether the knot update at position i may arrive: it has left its source, and in the ember class none of its source
to its die is ahead of it. Updates in class 1 keep no order (R30). -/
def knotReady (s : State) (i : Nat) : Option KnotMsg :=
  match s.knotq[i]? with
  | none => none
  | some m => if m.held || waveBehind s m.post (agentSource m.die) || (m.ember && emberAhead s m.src (agentSource m.die) m.no) then none else some m

/-- A knot update has been received: an ember message's credit starts back (R371). -/
def knotCredit (s : State) (m : KnotMsg) : State := if m.ember then emberCredit s m.src else s

/-- The strand whose TIE or KSET an update is, running or saved, is held (R237). -/
def tieHeld (s : State) (m : KnotMsg) : State :=
  match m.owner with
  | none => s
  | some (q, e) => holdOwner s q e 1

/-- A knot update meets a quenched die (R217): the tying strand is held and the knot is lost. -/
def knotAsh (s : State) (m : KnotMsg) : State :=
  let s1 := tieHeld s m
  let s2 := match m.ent with
    | none => s1
    | some n => setEnts s1 (n / 65536) ((queueEnts s1 (n / 65536)).map fun e =>
        if e.idx = n % 65536 then { e with ashed := true } else e)
  dcount (localEvent s2 (32 + m.die) 56 0x0109 2 0 (atByte 16 (m.die * 4096 + m.knot))) Key.ashSent

/-- R365: an uncorrectable error in a knot (here an injected one, R383): its waiters and the strand that ties it are held,
and a knot-lost event is raised. -/
def knotPoisoned (s : State) (m : KnotMsg) : State :=
  let s1 := raiseFault s { mech := .knotUe, inj := true, utype := 3, unit := m.die }
  let waiters := (s1.seqs.filter fun p => decide (seqDie p.1 = m.die) &&
    (match p.2.strand with
     | some st => (match st.wait with
        | .knot k _ => k == m.knot
        | .none | .fetch _ | .load _ | .store | .ladr _ | .seal _ _ _ => false)
     | none => false)).map (·.1)
  let s2 := waiters.foldl (fun st q => holdStrand st q 1) { s1 with knotsLost := sinsert (m.die * 4096 + m.knot) s1.knotsLost }
  localEvent (tieHeld s2 m) (32 + m.die) 56 0x0109 2 0 (atByte 16 (m.die * 4096 + m.knot))

/-- A link on the way of a knot update is down, so that it is answered with an ash completion (R54). -/
def knotCut (s : State) (m : KnotMsg) : Bool :=
  (routeLinks { home := none, die := sourceDie m.src } m.die).any (bitOf s.rst.linkDown)

/-- KNOT_TIE and KNOT_SET (R215): the update at position i arrives, and all who wait look again. -/
def knotArrive (s : State) (i : Nat) (isSet : Bool) : State :=
  match knotReady s i with
  | none => s
  | some m =>
    if m.isSet != isSet then s
    else
      let s1 := knotCredit { s with knotq := dropAt i s.knotq } m
      let key := m.die * 4096 + m.knot
      if bitOf s1.rst.dieFence m.die || knotCut s1 m then kickAll (entryApplied (knotAsh s1 m) m.ent)
      else
       match takeHit s1 3 m.die [.knotUe] none with
       | (some _, s2) => kickAll (entryApplied (knotPoisoned s2 m) m.ent)
       | (none, _) =>
        if !isSet && s1.knotsLost.contains key then kickAll (entryApplied (tieHeld s1 m) m.ent) else
        let v := if isSet then m.val else (tget 0 s1.knots key + m.val) % 2 ^ 32
        let s2 := { s1 with
          knots := tset 0 s1.knots key v
          knotsLost := if isSet then sremove key s1.knotsLost else s1.knotsLost }
        checkBoundary (kickAll (wakeAll (entryApplied s2 m.ent)))

/-! ### Loads, stores and replies (R210, R458) -/

/-- LD: a misaligned address ends the strand; else the request goes out. -/
def loadInstr (s : State) (q : Nat) (st : Strand) (addr : Word) (dst : Nat) : State :=
  if addr.toNat % 8 ≠ 0 then endStrand s q 0x03
  else seqRequest (setStrand s q (some { st with wait := .load dst })) q addr.toNat 8 none

/-- ST. -/
def storeInstr (s : State) (q : Nat) (st : Strand) (addr v : Word) : State :=
  if addr.toNat % 8 ≠ 0 then endStrand s q 0x03
  else seqRequest (setStrand s q (some { st with wait := .store })) q addr.toNat 8 (some (leBytes 8 v.toNat))

/-- A reply reaches a sequencer whose epoch it carries. One that answers no request of the strand it runs is dropped: it
belongs to a strand that has ended (R207). A store to a fenced channel is discarded there and is no error (R287). -/
def seqReply (s : State) (q no : Nat) (a : MemAnswer) : State :=
  match (if no = (getSeq s q).reqNo then getStrand s q else none) with
  | none => s
  | some st =>
    match st.wait with
    | .fetch atom =>
      if a.err.isSome then endStrand s q 0x04
      else arrive (setStrand s q (some
        { st with wait := .none, ibuf := ((atom, a.bytes) :: st.ibuf.filter (fun p => p.1 != atom)).take 64 })) q
    | .load dst =>
      if a.err.isSome then endStrand s q 0x04
      else next s q (st.setReg dst (BitVec.ofNat 64 (leNat a.bytes)))
    | .store => if a.err.isSome ∧ a.err ≠ some .fenced then endStrand s q 0x04 else next s q st
    | .none | .ladr _ | .knot _ _ | .seal _ _ _ => s

/-- REQUEST_REPLY (R458): the reply at position i. -/
def requestReply (s : State) (i : Nat) : State :=
  match s.mem.replies[i]? with
  | none => s
  | some r =>
    let s1 := { s with mem := { s.mem with replies := dropAt i s.mem.replies } }
    match r.who with
    | .seq q =>
      if waveBehind s r.post (seqSource q) then s
      else if r.epoch ≠ seqEpoch s1 q || (getSeq s1 q).fenced then dcount s1 Key.quenchDrops
      else seqReply s1 q r.no r.ans
    | .completion q idx code evt =>
      if r.epoch ≠ s1.rst.epochs then dcount s1 Key.quenchDrops else completionReply s1 q idx code evt r.ans.err
    | .host | .bar2 | .agent _ => s1

/-! ### Ladder reads (R210) -/

/-- The storm's declaration has reached the sequencer's unit (R197); a hearth has it with its die agent. -/
def seqStorm (s : State) (q : Nat) : Bool := s.storm.active && (decide (q ≥ 512) || s.storm.told.contains (seqCore q))

/-- LADR FN 8 on a slot descriptor. -/
def ladrRung (b : List Byte) (storm : Bool) : Word :=
  if slotNrung b = 0 then
    if slotRole b = 3 then BitVec.allOnes 64
    else
      let d := slotDefault b
      BitVec.ofNat 64 (if storm then slotCeil d else slotCur d)
  else BitVec.ofNat 64 (if storm then slotCeil b else slotCur b)

/-- LADR. -/
def ladrInstr (s : State) (q : Nat) (st : Strand) (slot : Word) (fn dst : Nat) : State :=
  let d := strandJob s st
  if slot.toNat ≥ d.slotCount then endStrand s q 0x06
  else if fn = 9 then next s q (st.setReg dst (if s.storm.active then 1 else 0))
  else
    match devRead s (seqVia s.mem q) false (d.slotTable + 64 * slot.toNat) 64 with
    | (.error .waits, s1) => s1
    | (.error _, s1) => endStrand s1 q 0x04
    | (.ok b, s1) =>
      next s1 q (st.setReg dst (if fn = 8 then ladrRung b (seqStorm s1 q) else BitVec.ofNat 64 (leField b (8 * fn) 8)))

/-! ### Seal waits (R226, R228) -/

/-- The status of a tag the strand keeps. -/
def Strand.tag (st : Strand) (t : Nat) : Option TagSt := st.tags.find? (fun k => k.tag == t)

/-- The combined status of the tags given. -/
def Strand.combined (st : Strand) (l : List Nat) : Nat :=
  l.foldl (fun a t => combineStatus a (match st.tag t with | some k => k.status | none => 0)) 0

/-- Continue a strand whose seal wait is over. -/
def sealOver (s : State) (q : Nat) : State :=
  match getStrand s q with
  | none => s
  | some st =>
    match st.wait with
    | .seal l all dst =>
      if !seqRuns s q || l.any (fun t => match st.tag t with | some k => k.inFlight | none => false) then s
      else next s q (st.setReg dst (BitVec.ofNat 64 (statusWord (if all then 0 else l.headD 0) (st.combined l))))
    | .none | .fetch _ | .load _ | .store | .ladr _ | .knot _ _ => s

/-- SEALW with FN[0] = 0. -/
def sealTag (s : State) (q : Nat) (st : Strand) (t dst : Nat) : State :=
  match st.tag t with
  | none => next s q (st.setReg dst (BitVec.ofNat 64 (statusWord t staleStatus)))
  | some _ => sealOver (setStrand s q (some { st with wait := .seal [t] false dst })) q

/-- SEALW with FN[0] = 1. -/
def sealAll (s : State) (q : Nat) (st : Strand) (dst : Nat) : State :=
  let l := (st.tags.filter (·.inFlight)).map (·.tag)
  sealOver (setStrand s q (some { st with wait := .seal l true dst })) q

/-- A tag has completed with a status: the 16 most recent completed ones are kept (R226). -/
def Strand.tagDone (st : Strand) (t status : Nat) : Strand :=
  let others := st.tags.filter (fun k => k.tag != t)
  let fin := (others.filter (fun k => !k.inFlight)) ++ [{ tag := t, status := status, inFlight := false }]
  { st with tags := others.filter (·.inFlight) ++ fin.drop (fin.length - 16) }

/-! ### Yields (R239) -/

/-- A free save record of a job. -/
def freeRecord (s : State) (job : Nat) (count : Nat) : Option Nat :=
  (List.range count).find? fun r => !s.saved.any (fun v => v.strand.job == job && v.record == r)

/-- The packed tags of a save record (R239). -/
def tagBytes (st : Strand) : List Byte :=
  (List.range 32).flatMap fun i =>
    match st.tags[i]? with
    | some k => leBytes 4 k.tag ++ leBytes 2 (k.status % 2 ^ 13 + (if k.inFlight then 2 ^ 15 else 0))
    | none => leBytes 6 0

/-- The `SEQ` field of a save record. -/
def saveSeq (q : Nat) : Nat :=
  if q < 512 then q / 256 + q % 256 * 2 else (q - 512) * 2 ^ 9 + 2 ^ 14

/-- The 512 bytes of a save record (R239). A strand that waits is written as waiting, held or not, since the record's
`WAIT` fields serve its wait (log 105). -/
def saveBytes (s : State) (q : Nat) (st : Strand) : List Byte :=
  let w : Nat × Nat × Nat := match st.wait with
    | .knot k t => (1, k - (strandJob s st).knotBase, t)
    | .seal l all _ => (2, if all then 0 else l.headD 0, 0)
    | .none | .fetch _ | .load _ | .store | .ladr _ =>
      (if st.hold.isSome then 3 else if st.stormStop then 4 else 0, 0, 0)
  leBytes 8 st.pc.toNat ++ (List.range 31).flatMap (fun i => leBytes 8 (st.reg (i + 1)).toNat)
    ++ leBytes 4 w.1 ++ leBytes 4 w.2.1 ++ leBytes 4 w.2.2 ++ leBytes 4 st.nextTag ++ leBytes 4 st.queue
    ++ leBytes 4 (saveSeq q) ++ tagBytes st ++ leBytes 40 0

/-- The parts of a 512-byte record that one request carries, an atom each. -/
def recordAtoms (a : Nat) (b : List Byte) : List (Nat × List Byte) :=
  (List.range 8).map fun i => (a + 64 * i, (b.drop (64 * i)).take 64)

/-- Write a save record. One that must wait for its stack or page waits at its hearth, and what reads it waits with it
(R288). -/
def writeRecord (s : State) (q a : Nat) (b : List Byte) : State :=
  match devWrite s (seqVia s.mem q) false a b with
  | (some .waits, s1) =>
    { s1 with mem := { s1.mem with reqs := s1.mem.reqs ++ (recordAtoms a b).map fun p =>
        { who := .seq (Fin.ofNat 532 q), epoch := seqEpoch s1 q, addr := p.1, len := 64, wdata := some p.2
          expl := dget s1 Key.cacheExplicit == 1, arrived := true, post := waveLatched s1 (seqSource q) } } }
  | (_, s1) => s1

/-- Save a strand into a free record; none when no record is free. -/
def saveStrand (s : State) (q : Nat) (st : Strand) : Option State :=
  let d := strandJob s st
  match freeRecord s st.job d.saveCount with
  | none => none
  | some r =>
    let s1 := writeRecord s q (d.saveBase + 512 * r) (saveBytes s q st)
    some { setStrand s1 q none with
      saved := s1.saved ++ [{ seq := q, record := r, strand := { st with ibuf := [], waited := 0 }, stamp := s1.q.stamp }]
      q := { s1.q with stamp := s1.q.stamp + 1 } }

/-- YIELD with FN 0: without a free save record it is no operation. -/
def yieldInstr (s : State) (q : Nat) (st : Strand) : State :=
  let st1 := { st with pc := st.pc + 8 }
  match saveStrand s q st1 with
  | some s1 => s1
  | none => next s q st

/-- A saved strand's wait is over, and it may be resumed (R239). -/
def savedReady (s : State) (v : Saved) : Bool :=
  match v.strand.wait with
  | .knot k t => reached (knotVal s (seqDie v.seq) k) t && !knotLost s (seqDie v.seq) k
  | .seal l _ _ => l.all fun t => match v.strand.tag t with | some k => !k.inFlight | none => true
  | .none | .fetch _ | .load _ | .store | .ladr _ =>
    !v.strand.stopped && !(v.strand.stormStop && stormHolds s v.seq)

/-- The `TAGS` of a save record (R239). -/
def recordTags (b : List Byte) : List TagSt :=
  (List.range 32).filterMap fun i =>
    let t := leField b (280 + 6 * i) 4
    let w := leField b (284 + 6 * i) 2
    if t = 0 then none else some { tag := t, status := w % 2 ^ 13, inFlight := bitOf w 15 }

/-- The wait that a save record holds: `STATE` 1 names its knot and target. For `STATE` 2 the record names a tag or all; which
operations SEALW on all waits for, and its destination register, the sequencer keeps (log 105). -/
def recordWait (d : JobDesc) (b : List Byte) (v : Saved) : SeqWait :=
  match leField b 256 4 with
  | 1 => .knot (d.knotBase + leField b 260 4) (leField b 264 4)
  | 2 => (match v.strand.wait with
      | .seal l all dst => .seal (if all then l else [leField b 260 4]) all dst
      | .none | .fetch _ | .load _ | .store | .ladr _ | .knot _ _ => .none)
  | _ => .none

/-- The strand that a save record restores (R239): PC, registers, wait, `NEXT_TAG` and `TAGS` from the record, the tags as
the operations completed since have left them. -/
def restoreStrand (d : JobDesc) (b : List Byte) (v : Saved) : Strand :=
  let regs := (List.range 31).foldl (fun t i => tset (α := Word) 0 t (i + 1) (BitVec.ofNat 64 (leField b (8 + 8 * i) 8))) []
  v.completed.foldl (fun st c => st.tagDone c.1 c.2)
    { v.strand with
      pc := BitVec.ofNat 64 (leField b 0 8), regs := regs, ibuf := [], wait := recordWait d b v
      nextTag := leField b 268 4, tags := recordTags b }

/-- Resume a saved strand on its sequencer from its record. -/
def resumeSaved (s : State) (v : Saved) : State :=
  let d := strandJob s v.strand
  let s0 := { s with saved := s.saved.filter (fun w => !(w.seq == v.seq && w.record == v.record && w.strand.job == v.strand.job)) }
  match devRead s0 (seqVia s.mem v.seq) false (d.saveBase + 512 * v.record) 512 with
  | (.error .waits, _) => s
  | (.error _, s1) => endStrand (setStrand s1 v.seq (some v.strand)) v.seq 0x04
  | (.ok b, s1) =>
    let st := restoreStrand d b v
    let s2 := setStrand s1 v.seq (some st)
    match st.wait with
    | .knot _ _ => wakeSeq s2 v.seq
    | .seal _ _ _ => sealOver s2 v.seq
    | .none | .fetch _ | .load _ | .store | .ladr _ => arrive s2 v.seq

/-! ### Starting a strand (R206) -/

/-- Start a work item on a sequencer. -/
def startOn (s : State) (q : Nat) (w : WorkItem) : State :=
  let a := fun i => BitVec.ofNat 64 (w.args.getD i 0)
  let st0 : Strand :=
    { pc := BitVec.ofNat 64 w.program, job := w.job, queue := w.queue, entry := w.entry, evtSrc := w.evtSrc
      energySlot := w.energySlot }
  let st := ((((st0.setReg 1 (a 0)).setReg 2 (a 1)).setReg 3 (a 2)).setReg 4 (a 3)).setReg 31 (BitVec.ofNat 64 w.job)
  arrive (setStrand s q (some st)) q

/-! ### Operations completing (R228, R229, R237) -/

/-- The codes that hold a strand (R237). -/
def holdingCode (c : Nat) : Bool := [1, 2, 3, 5, 6, 7].contains c

/-- Tie a done knot (R229): the unit that finished the operation does. -/
def tieDone (s : State) (o : OpRec) (d : JobDesc) : State :=
  let k := dKnot o.desc
  knotUpdate s o.last (k / 4096) (d.knotBase + k % 4096) (dKnotBcast o.desc) false (dKnotInc o.desc)

/-- What a strand records when one of its operations completes. -/
def strandOpDone (st : Strand) (o : OpRec) (ties : Bool) : Strand :=
  let st1 := st.tagDone o.tag o.status
  let st2 := if holdingCode o.code && st1.hold.isNone then { st1 with hold := some 0 } else st1
  if ties && st2.hold.isSome then
    { st2 with withheld := st2.withheld ++
        [{ src := o.last, die := dKnot o.desc / 4096, knot := dKnot o.desc % 4096, bcast := dKnotBcast o.desc, val := dKnotInc o.desc }] }
  else st2

/-- The strand that issued an operation, still running. -/
def ownerRuns (s : State) (o : OpRec) : Option Strand :=
  match getStrand s o.seq with
  | none => none
  | some st => if st.queue = o.queue ∧ st.entry = o.entry ∧ st.job = o.job then some st else none

/-- R183, R197: what the completion of a hearth operation that names a slot commits: its counts, and an update's
slot among those updated in this training step. -/
def opCommit (s : State) (o : OpRec) : State :=
  match o.slot with
  | none => s
  | some sl =>
    let s1 := o.tally.foldl (fun st p => tallyDie st p.1 o.job sl p.2) s
    if o.kind = .update ∧ o.code = 0 then
      let j := getJob s1 o.job
      setJob s1 o.job { j with updated := sinsert sl j.updated }
    else s1

/-- R241: an operation that fails after its strand has ended is reported by an event: a held-strand record with cause 0 on
the strand's source, its PC a free value (log 124). -/
def failureEvent (s : State) (o : OpRec) : State :=
  if holdingCode o.code then
    let (pc, s1) := drawFree s
    strandEvent s1 o.seq o.evtSrc o.queue o.entry 2 0 (pc % 2 ^ 64)
  else s

/-- OPERATION_COMPLETE (R228): a finished operation completes. -/
def operationComplete (s : State) (k : Nat) : State :=
  match getOp s k with
  | none => s
  | some o =>
    if !o.finished then s
    else
      let d := (getJob s o.job).desc
      let ties := dDoneValid o.desc && (o.code == 0 || o.code == 4)
      let s1 := opCommit (setOp s k none) o
      match ownerRuns s1 o with
      | some st =>
        let st1 := strandOpDone st o ties
        let s2 := setStrand s1 o.seq (some st1)
        sealOver (if ties && st1.hold.isNone then tieDone s2 o d else s2) o.seq
      | none =>
        match s1.saved.find? (fun v => v.seq == o.seq && v.strand.queue == o.queue && v.strand.entry == o.entry) with
        | some v =>
          let st1 := strandOpDone v.strand o ties
          let s2 := { s1 with saved := s1.saved.map fun w =>
            if w.seq = v.seq ∧ w.record = v.record ∧ w.strand.job = v.strand.job then
              { w with strand := st1, completed := w.completed ++ [(o.tag, o.status)] }
            else w }
          if ties && st1.hold.isNone then tieDone s2 o d else s2
        | none => if ties then tieDone s1 o d else failureEvent s1 o

/-! ### Strand commands (R237, R262) -/

/-- Tie the done knots withheld by a hold. -/
def tieWithheld (s : State) (st : Strand) : State :=
  st.withheld.foldl (fun s1 w =>
    knotUpdate s1 w.src w.die ((strandJob s1 st).knotBase + w.knot) w.bcast false w.val) s

/-- RESUME (R237, R262). -/
def resumeStrand (s : State) (q entry : Nat) : State :=
  if !s.q.qeReady then bar0Drop s
  else
    match runnerOf s q entry with
    | some r =>
      match getStrand s r with
      | none => setResult s true 4 1 entry q
      | some st =>
        if st.hold.isNone then setResult s true 3 1 entry q
        else
          let s1 := tieWithheld s st
          setResult (setStrand s1 r (some { st with hold := none, stopped := false, withheld := [] })) true 0 1 entry q
    | none =>
      match s.saved.find? (fun v => v.strand.queue == q && v.strand.entry == entry) with
      | none => setResult s true 4 1 entry q
      | some v =>
        if v.strand.hold.isNone then setResult s true 3 1 entry q
        else
          let s1 := tieWithheld s v.strand
          setResult { s1 with saved := s1.saved.map fun w =>
              if w.strand.queue = q ∧ w.strand.entry = entry then
                { w with strand := { w.strand with hold := none, stopped := false, withheld := [] } }
              else w } true 0 1 entry q

/-- END (R237, R262): the strand ends with HOST_END, its withheld done knots discarded. -/
def endCommand (s : State) (q entry : Nat) : State :=
  if !s.q.qeReady then bar0Drop s
  else
    match runnerOf s q entry with
    | some r => setResult (endStrand s r 0x08) true 0 2 entry q
    | none =>
      match s.saved.find? (fun v => v.strand.queue == q && v.strand.entry == entry) with
      | none => setResult s true 4 2 entry q
      | some v =>
        let s1 := { s with saved := s.saved.filter fun w => !(w.strand.queue == q && w.strand.entry == entry) }
        setResult (reportEnd s1 v.seq v.strand 0x08 v.strand.pc.toNat 0) true 0 2 entry q

end Sys2Proof.Machine
end

