-- ==== Sys2Proof/Machine/Validate.lean ====
section
/-!
DEFINITION. Descriptor validation (R236): what ISSUE fetches, and the checks in the order of their codes.
-/

namespace Sys2Proof.Machine

/-- A tensor descriptor as fetched: its address, its content when the address is aligned and not 0, and the bias
it takes from a slot (R200, R220). -/
structure TDRef where
  addr : Nat := 0
  td : Option TD := none
  obias : Option Int := none
  deriving DecidableEq, Repr

/-- A collective group (R322): identity, members, rank, and the peer index of each rank. -/
structure GroupInfo where
  jobId : Nat
  members : Nat
  myRank : Nat
  peers : List Nat
  deriving DecidableEq, Repr

/-- What ISSUE has fetched (R225). -/
structure IssueIn where
  addr : Nat
  desc : List Byte
  kind : Option Kind
  x : TDRef := {}
  w : TDRef := {}
  y : TDRef := {}
  /-- `TD_Z`, `TD_M1` or `TD_E` -/
  z : TDRef := {}
  /-- `TD_M2` -/
  m2 : TDRef := {}
  spunAddr : Nat := 0
  spun : List TDRef := []
  slotB : Option (List Byte) := none
  group : Option GroupInfo := none
  deriving DecidableEq, Repr

/-- The rejecting condition of one check: byte offset and descriptor (R236). -/
abbrev Bad := Option (Nat × Nat)

/-- The first condition of a list that holds. -/
def firstBad : List (Bool × Nat × Nat) → Bad
  | [] => none
  | (c, o, d) :: r => if c then some (o, d) else firstBad r

/-! ### Properties of what was fetched -/

/-- `SLOT_VALID`. -/
def dSlotValid (d : List Byte) : Bool := bitOf (leField d 1 1) 0
/-- The offset of the field that names the fourth tensor: `TD_Z`, `TD_M1` or `TD_E` (R224, R298, R304). -/
def zOffset (k : Option Kind) : Nat := if k = some .fold then 64 else 72
/-- The tensors a descriptor names, with their descriptor numbers and field offsets. -/
def IssueIn.tds (i : IssueIn) : List (TDRef × Nat × Nat) :=
  [(i.x, 1, 16), (i.w, 2, 24), (i.y, 3, 32), (i.z, 4, zOffset i.kind), (i.m2, 4, 80)]
/-- The tensors that are present. -/
def IssueIn.present (i : IssueIn) : List (TD × Nat) := i.tds.filterMap fun t => t.1.td.map (·, t.2.1)
/-- The spun copies that are present, with their rungs. -/
def IssueIn.copies (i : IssueIn) : List (TD × Nat) :=
  (List.range i.spun.length).filterMap fun r => ((i.spun.getD r {}).td).map (·, r)
/-- The format of a tensor. -/
def TD.format (t : TD) : Option Fmt := Fmt.ofCode t.fmt
/-- Kind test. -/
def IssueIn.is (i : IssueIn) (k : Kind) : Bool := i.kind == some k
/-- MATMUL or CONV. -/
def IssueIn.isMm (i : IssueIn) : Bool := i.is .matmul || i.is .conv

/-- R232: the units a kind may run on. -/
def Kind.onUnit : Kind → Nat → Bool
  | .matmul, u | .conv, u | .vec, u | .reduce, u | .gather, u | .scatter, u => u == 0
  | .convert, u | .fill, u | .genSet, u => u == 0 || u == 1
  | .remoteAcc, u | .update, u | .spin, u | .fold, u => u == 1
  | .redScatter, u | .gatherAll, u => u == 2

/-- 0x0001 KIND. -/
def chkKind (i : IssueIn) : Bad :=
  firstBad [(i.kind.isNone, 0, 0),
    (match i.kind with | some k => !k.onUnit (dUnit i.desc) | none => false, 5, 0)]

/-- Bytes 64–127 that a kind lists, as ranges (R224, R296, R298, R304, R323, R326). -/
def Kind.listed : Kind → List (Nat × Nat)
  | .matmul => [(64, 66)]
  | .conv => [(64, 82)]
  | .vec => [(64, 68), (72, 80)]
  | .reduce => [(64, 66)]
  | .gather | .scatter => [(64, 76)]
  | .fill => [(64, 66)]
  | .genSet => [(64, 74)]
  | .remoteAcc => [(64, 71), (72, 76)]
  | .update => [(64, 71), (72, 106)]
  | .fold => [(64, 74)]
  | .redScatter => [(64, 69), (72, 78), (80, 84)]
  | .gatherAll => [(64, 69)]
  | .convert | .spin => []

/-- Reserved bits of a kind's listed bytes. -/
def Kind.reservedBits (k : Kind) (d : List Byte) : Bad :=
  let b := fun o => leField d o 1
  match k with
  | .vec => firstBad [(decide (b 65 ≥ 2), 65, 0)]
  | .remoteAcc => firstBad [(decide (b 70 ≥ 4), 70, 0)]
  | .update => firstBad [(decide (b 70 ≥ 16), 70, 0)]
  | .fold => firstBad [(decide (b 73 ≥ 2), 73, 0)]
  | .redScatter | .gatherAll => firstBad [(decide (b 68 ≥ 16), 68, 0)]
  | .matmul | .conv | .reduce | .gather | .scatter | .convert | .fill | .genSet | .spin => none

/-- Unlisted bytes from 64 up that are not 0. -/
def Kind.unlisted (k : Kind) (d : List Byte) : Bad :=
  ((List.range 64).find? fun j =>
    !k.listed.any (fun r => decide (r.1 ≤ 64 + j) && decide (64 + j < r.2)) && leField d (64 + j) 1 != 0).map
    fun j => (64 + j, 0)

/-- Reserved bits of a ladder slot descriptor (R185). -/
def slotReserved (b : List Byte) : Bad :=
  firstBad ([(bitOf (leField b 13 1) 7, 13, 5), (decide (leField b 15 1 ≥ 64), 15, 5)]
    ++ (List.range 14).map fun j => (decide (leField b (50 + j) 1 ≠ 0), 50 + j, 5))

/-- 0x0002 RESERVED. -/
def chkReserved (i : IssueIn) : Bad :=
  let d := i.desc
  let b := fun o => leField d o 1
  let common := firstBad
    [(decide (b 1 ≥ 128) || dGrad d == 3, 1, 0), (decide (b 5 ≥ 16), 5, 0), (decide (leField d 6 2 ≠ 0), 6, 0),
     (match dUnit d with
      | 0 => decide (leField d 8 4 ≥ 2 ^ 21)
      | 1 => decide (leField d 8 4 ≥ 2 ^ 20)
      | _ => decide (leField d 8 4 ≠ 0), 8, 0),
     (bitOf (leField d 12 2) 15, 12, 0),
     (decide (b 56 / 16 % 8 ≠ 0), 56, 0), (decide (b 57 / 16 % 8 ≠ 0), 57, 0),
     (decide (b 58 / 16 % 8 ≠ 0), 58, 0), (decide (b 59 / 16 % 8 ≠ 0), 59, 0),
     (decide (leField d 60 4 ≠ 0), 60, 0)]
  let kindBad := match i.kind with
    | none => none
    | some k => (k.reservedBits d).or (k.unlisted d)
  let tdBad := firstBad (i.present.map fun t => (t.1.reservedAt.isSome, t.1.reservedAt.getD 0, t.2))
  let slBad := match i.slotB with | some b => slotReserved b | none => none
  let spBad := firstBad (i.copies.map fun t => (t.1.reservedAt.isSome, t.1.reservedAt.getD 0, 6))
  (((common.or kindBad).or tdBad).or slBad).or spBad

/-- The alignment of a `BASE` (R236). -/
def TD.align (t : TD) : Nat :=
  match t.format with
  | some f => if f.isSkein then 64 else f.bytes
  | none => 1

/-- 0x0003 ALIGN. -/
def chkAlign (i : IssueIn) : Bad :=
  let acc := leField i.desc 64 6
  firstBad ([(decide (i.addr % 128 ≠ 0), 0, 0)]
    ++ i.tds.map (fun t => (decide (t.1.addr % 32 ≠ 0), t.2.2, 0))
    ++ [(decide (i.spunAddr % 64 ≠ 0), 48, 0)]
    ++ i.spun.map (fun t => (decide (t.addr % 32 ≠ 0), 48, 6))
    ++ i.present.map (fun t => (decide (t.1.base % t.1.align ≠ 0), 0, t.2))
    ++ i.copies.map (fun t => (decide (t.1.base % t.1.align ≠ 0), 0, 6))
    ++ [(i.is .remoteAcc && decide (acc % 64 ≠ 0), 64, 0), (i.is .update && decide (acc % 16 ≠ 0), 64, 0),
        (i.is .redScatter && decide (leField i.desc 72 6 % 16 ≠ 0), 72, 0)])

/-- Formats a remote accumulate accepts (R295). -/
def Fmt.accumulates : Fmt → Bool
  | .ol16 | .ol8 | .e4m3 | .e5m2 | .bf16 | .fp16 | .int8 => true
  | .sk4i | .sk4f | .sk4u | .sk2s | .sk2t | .fp32 => false

/-- Formats spin-down writes (R96). -/
def Fmt.spins : Fmt → Bool
  | .sk4i | .sk4f | .sk2s | .sk2t => true
  | .ol16 | .ol8 | .e4m3 | .e5m2 | .bf16 | .fp16 | .int8 | .sk4u | .fp32 => false

/-- The kinds that may name a skein Y: SPIN, and GATHER_ALL, whose rule R326 allows it (log 44). -/
def IssueIn.skeinY (i : IssueIn) : Bool := i.is .spin || i.is .gatherAll

/-- 0x0004 FORMAT. -/
def chkFormat (i : IssueIn) : Bad :=
  let fx := i.x.td.bind TD.format
  let fw := i.w.td.bind TD.format
  let fy := i.y.td.bind TD.format
  let fz := i.z.td.bind TD.format
  let fm := i.m2.td.bind TD.format
  let not16 := fun (f : Option Fmt) => f.isSome && f != some .ol16
  let sk := fun (f : Option Fmt) => match f with | some g => g.isSkein | none => false
  let stor := fun (f : Option Fmt) => match f with | some g => g.isStorage | none => true
  let accs := fun (f : Option Fmt) => match f with | some g => g.accumulates | none => true
  firstBad (
    i.present.map (fun t => (t.1.format.isNone, 6, t.2))
    ++ i.copies.map (fun t => (t.1.format.isNone, 6, 6))
    ++ i.present.map (fun t => (t.1.format == some .fp32 && !i.is .convert, 6, t.2))
    ++ i.copies.map (fun t => (t.1.format == some .fp32, 6, 6))
    ++ [(sk fy && !i.skeinY, 6, 3), (i.isMm && !stor fy, 6, 3),
        (dSlotValid i.desc && sk fx, 6, 1), (dSlotValid i.desc && sk fw, 6, 2),
        ((i.is .remoteAcc || i.is .redScatter) && !accs fx, 6, 1),
        (i.is .spin && not16 fx, 6, 1),
        (i.is .spin && (match fy with | some f => !f.spins | none => false), 6, 3),
        ((i.is .update || i.is .fold) && not16 fy, 6, 3), ((i.is .update || i.is .fold) && not16 fz, 6, 4),
        (i.is .update && not16 fm, 6, 4), (i.is .fold && not16 fx, 6, 1), (i.is .fold && not16 fw, 6, 2),
        ((i.is .gather || i.is .scatter || i.is .gatherAll) && fx.isSome && fy.isSome && fx != fy, 6, 3),
        ((i.is .vec || i.is .reduce || i.is .convert || i.is .fill) && sk fz, 6, 4)])

/-- 0x0005 PATH_MIX: the rungs of the slot an operation names, or the stored formats of a MATMUL or CONV without
one, whose operands alone reach cells (R99). -/
def chkPath (i : IssueIn) : Bad :=
  if dSlotValid i.desc then
    match i.slotB with
    | none => none
    | some b =>
      firstBad ((List.range (min (slotNrung b) 6)).map fun r =>
        (match rungFormats b (dGrad i.desc) r with | some p => !p.1.pairs p.2 | none => false, 2 * r, 5))
  else if !i.isMm then none
  else
    match i.x.td.bind TD.format, i.w.td.bind TD.format with
    | some fx, some fw => firstBad [(!fx.pairs fw, 6, 2)]
    | _, _ => none

/-- A bias outside ±56.0 (R68). -/
def biasWide (b : Int) : Bool := decide (b.natAbs > 14336)

/-- The OL8 bias conditions of one tensor with its descriptor number; a slot's bias is named by `BIAS_SLOT`. -/
def TDRef.biasBad (r : TDRef) (n slots : Nat) : List (Bool × Nat × Nat) :=
  match r.td with
  | none => []
  | some t =>
    [(t.fmt == 0x0A && !t.biasFromSlot && biasWide (signedOf 16 t.bias), 8, n),
     (t.biasFromSlot && t.fmt != 0x0A, 7, n),
     (t.biasFromSlot && decide (t.biasSlot ≥ slots), 30, n),
     (biasWide (r.obias.getD 0), 30, n)]

/-- 0x0006 OL8_BIAS: also of a bias that the slot `BIAS_SLOT` holds. -/
def chkBias (i : IssueIn) (d : JobDesc) : Bad :=
  firstBad (i.tds.flatMap (fun t => t.1.biasBad t.2.1 d.slotCount) ++ i.spun.flatMap (·.biasBad 6 d.slotCount))

/-- 0x0007 ZERO_POINT. -/
def chkZp (i : IssueIn) : Bad :=
  firstBad (i.present.map (fun t => (t.1.zp && t.1.fmt != 0x09, 7, t.2))
    ++ i.copies.map (fun t => (t.1.zp && t.1.fmt != 0x09, 7, 6)))

/-! ### 0x0008 SHAPE -/

/-- Two tensors have one shape. -/
def sameShape (a b : TD) : Bool := a.d0 == b.d0 && a.d1 == b.d1 && a.d2 == b.d2

/-- R222: a skein tensor's own shape. -/
def TD.skeinOk (t : TD) : Bool :=
  match t.format with
  | some f => !f.isSkein || (t.d2 == 1 && t.st1 == 0 && t.st2 == 0 && !t.trans)
  | none => true

/-- Whether a kind requires X, W, Y, Z and M2, or takes none of them; `none` where its mode is undefined, which
KIND_FIELDS rejects. -/
structure Takes where
  x : Option Bool := some false
  w : Option Bool := some false
  y : Option Bool := some false
  z : Option Bool := some false
  m2 : Option Bool := some false

/-- The vector operations with two sources (R233). -/
def vopTwo (v : Nat) : Bool := [1, 2, 3, 4, 9, 10, 15].contains v

/-- The tensors a kind takes in its mode (R232, R236). -/
def IssueIn.takes (i : IssueIn) : Takes :=
  match i.kind with
  | some .matmul | some .conv => { x := some true, w := some true, y := some true }
  | some .vec =>
    let v := leField i.desc 64 1
    let known := decide (1 ≤ v) && decide (v ≤ 15)
    { x := some true, w := if known then some (vopTwo v) else none, y := some true
      z := if known then some (v == 15) else none }
  | some .reduce | some .gather | some .scatter | some .convert | some .spin => { x := some true, y := some true }
  | some .fill => { y := some true }
  | some .genSet | none => {}
  | some .remoteAcc =>
    let mode := leField i.desc 70 1 % 4
    { x := if mode = 3 then none else some (mode != 1) }
  | some .update =>
    let opt := leField i.desc 70 1 % 4
    { y := some true, z := some true, m2 := if opt ≥ 2 then none else some (opt == 0) }
  | some .fold => { x := some true, w := some true, y := some true, z := some true }
  | some .redScatter => { x := some true }
  | some .gatherAll => { x := some true, y := some true }

/-- Bytes of a tensor's elements in logical order, or of its skein blocks. -/
def TD.bytes (t : TD) : Nat :=
  match t.format with
  | some f => if f.isSkein then (t.d0 + f.blockLen - 1) / f.blockLen * t.d1 * 64 else t.count * f.bytes
  | none => 0

/-- R326: the tensor is contiguous, or a skein tensor. -/
def TD.contiguous (t : TD) : Bool :=
  match t.format with
  | some f => f.isSkein || (t.st1 == t.d0 && t.st2 == t.d0 * t.d1 && !t.trans)
  | none => true

/-- The kind's relations between its tensors hold. -/
def IssueIn.shapeOk (i : IssueIn) : Bool :=
  let d := i.desc
  let x := i.x.td.getD {}
  let w := i.w.td.getD {}
  let y := i.y.td.getD {}
  let z := i.z.td.getD {}
  match i.kind with
  | none | some .genSet | some .fill => true
  | some .matmul =>
    w.d0 == x.d0 && (w.d2 == 1 || w.d2 == x.d2) && y.d0 == w.d1 && y.d1 == x.d1 && y.d2 == x.d2
  | some .conv =>
    let g := leField d 80 2
    let cin := if g = 0 then 0 else x.d0 / g
    x.d1 == leField d 70 2 && x.d2 == leField d 68 2 * leField d 66 2
      && w.d0 == leField d 72 1 * leField d 73 1 * cin && w.d2 == 1
      && (leField d 74 1 == 0 || leField d 75 1 == 0 ||
          (decide (1 ≤ dOutH d) && decide (1 ≤ dOutW d) && y.d0 == w.d1 && y.d1 == (dOutW d).toNat
            && y.d2 == (dOutH d).toNat * leField d 66 2))
      && !(match x.format with | some f => f.isSkein | none => false)
  | some .vec =>
    let v := leField d 64 1
    sameShape x y && (!vopTwo v || (if bitOf (leField d 65 1) 0 then w.d0 == x.d0 && w.d1 == 1 && w.d2 == 1
      else sameShape x w)) && (v != 15 || sameShape x z)
  | some .reduce =>
    match leField d 65 1 with
    | 0 => y.d0 == 1 && y.d1 == x.d1 && y.d2 == x.d2
    | 1 => y.d0 == x.d0 && y.d1 == 1 && y.d2 == x.d2
    | 2 => y.d0 == x.d0 && y.d1 == x.d1 && y.d2 == 1
    | _ => true
  | some .gather => y.d0 == x.d0 && y.d2 == x.d2 && y.d1 == leField d 72 4
  | some .scatter => y.d0 == x.d0 && y.d2 == x.d2 && x.d1 == leField d 72 4
  | some .convert => sameShape x y
  | some .remoteAcc => leField d 70 1 % 4 == 1 || i.x.td.isNone || x.count == leField d 72 4
  | some .update => sameShape y z && (i.m2.td.isNone || sameShape y (i.m2.td.getD {}))
  | some .spin => x.d2 == 1 && y.d0 == x.d0 && y.d1 == x.d1
  | some .fold =>
    x.d2 == 1 && w.d0 == x.d0 && w.d2 == 1 && w.d1 == leField d 72 1 && y.d0 == leField d 72 1 && y.d1 == x.d1
      && y.d2 == 1 && sameShape x z
  | some .redScatter =>
    match i.group, x.format with
    | some g, some f => x.count == g.members * leField d 80 4 && leField d 80 4 * f.bytes % 64 == 0
    | _, _ => true
  | some .gatherAll =>
    match i.group with
    | some g => x.bytes % 64 == 0 && decide (y.bytes ≥ g.members * x.bytes) && x.contiguous && y.contiguous
    | none => true

/-- 0x0008 SHAPE. -/
def chkShape (i : IssueIn) : Bad :=
  let t := i.takes
  let want := fun (need : Option Bool) (r : TDRef) => match need with
    | some n => n != (r.addr != 0)
    | none => false
  firstBad ([(want t.x i.x, 16, 0), (want t.w i.w, 24, 0), (want t.y i.y, 32, 0), (want t.z i.z, zOffset i.kind, 0),
     (want t.m2 i.m2, 80, 0)]
    ++ i.present.map (fun p => (!p.1.skeinOk, 12, p.2))
    ++ i.copies.map (fun p => (!p.1.skeinOk ||
        (i.isMm && (p.1.d0 != (i.w.td.getD {}).d0 || p.1.d1 != (i.w.td.getD {}).d1)), 12, 6))
    ++ [(!i.shapeOk, 12, 3)])

/-! ### 0x0009 EXTENT and 0x000A OVERLAP -/

/-- The address and length of every element, or block, of a tensor in logical order. -/
def TD.places (t : TD) : List (Nat × Nat) :=
  match t.format with
  | none => []
  | some f =>
    if f.isSkein then (List.range ((t.d0 + f.blockLen - 1) / f.blockLen * t.d1)).map fun i => (t.base + 64 * i, 64)
    else (List.range t.count).map fun j =>
      let p := t.unflatten j
      (t.elemAddr f.bytes p.1 p.2.1 p.2.2, f.bytes)

/-- The first byte of a tensor and the byte after its last. -/
def TD.extent (t : TD) : Nat × Nat :=
  match t.format with
  | none => (t.base, t.base)
  | some f =>
    if t.count = 0 then (t.base, t.base)
    else if f.isSkein then (t.base, t.base + t.bytes)
    else (t.base, t.elemAddr f.bytes (t.d0 - 1) (t.d1 - 1) (t.d2 - 1) + f.bytes)

/-- The place of an address outside every reservation of R276: a restored schedule page is inside one (R271). -/
def resolveFree (m : MemSys) (home : Option Nat) (a : Nat) : Option Loc :=
  match apertureOf a with
  | none => none
  | some (ap, o) => resolveAt m home ap o

/-- The byte at an address is installed and mapped in. -/
def mapped (m : MemSys) (home : Option Nat) (a : Nat) : Bool := (resolveFree m home a).isSome

/-- Every byte from `lo` up to `hi` is mapped when both ends lie in one aperture (R268, R273): the usable part
of an aperture starts at its first byte. -/
def spanMapped (m : MemSys) (home : Option Nat) (lo hi : Nat) : Bool :=
  lo == hi || (mapped m home lo && mapped m home (hi - 1)
    && (apertureOf lo).map (·.1) == (apertureOf (hi - 1)).map (·.1))

/-- R271: the apertures that agree with a tensor's `PLACE`. -/
def TD.agrees (t : TD) : Aperture → Bool
  | .package => t.place == 2
  | .die _ => t.place == 1
  | .nearHome | .near _ => t.place == 0
  | .explicit s c => t.place == 3 && t.expl % 32 == s && t.expl / 32 % 32 == c
  | .hearth _ => t.place == 3

/-- R236, R271: every addressed element of a tensor lies in mapped memory, in one aperture that agrees with the
tensor's `PLACE`. -/
def TD.mappedIn (t : TD) (m : MemSys) (home : Option Nat) : Bool :=
  let e := t.extent
  e.1 == e.2 || (spanMapped m home e.1 e.2
    && (match apertureOf e.1 with | some a => t.agrees a.1 | none => false))

/-- R296: an accumulator's atom lies in hearth memory or in a cached HBM aperture. -/
def accAtomOk (s : State) (home : Option Nat) (a : Nat) : Bool :=
  match resolveFree s.mem home a with
  | some (.hearth _ _) => true
  | some l => isCached s hubVia false a l
  | none => false

/-- The accumulators `n` from `base` all lie where R296 allows. -/
def accRangeOk (s : State) (home : Option Nat) (base n : Nat) : Bool :=
  (List.range ((base % 64 + 16 * n + 63) / 64)).all fun i => accAtomOk s home (base / 64 * 64 + 64 * i)

/-- 0x0009 EXTENT. -/
def chkExtent (s : State) (i : IssueIn) (home : Option Nat) : Bad :=
  let d := i.desc
  firstBad (i.present.map (fun t => (!t.1.mappedIn s.mem home, 0, t.2))
    ++ i.copies.map (fun t => (!t.1.mappedIn s.mem home, 0, 6))
    ++ [(i.is .remoteAcc && !accRangeOk s home (leField d 64 6) (leField d 72 4), 64, 0),
        (i.is .update && !accRangeOk s home (leField d 64 6) ((i.y.td.getD {}).count), 64, 0),
        (i.is .redScatter && !accRangeOk s home (leField d 72 6) (leField d 80 4), 72, 0)])

/-- Two byte ranges share a byte. -/
def rangesMeet (a b : Nat × Nat) : Bool := decide (a.1 < b.1 + b.2) && decide (b.1 < a.1 + a.2)

/-- Two tensors share an address. -/
def tdsMeet (a b : TD) : Bool :=
  let ea := a.extent
  let eb := b.extent
  decide (ea.1 < eb.2) && decide (eb.1 < ea.2) && a.places.any fun p => b.places.any (rangesMeet p)

/-- A tensor shares an address with a byte range. -/
def tdMeets (a : TD) (r : Nat × Nat) : Bool :=
  let ea := a.extent
  decide (ea.1 < r.1 + r.2) && decide (r.1 < ea.2) && a.places.any (rangesMeet r)

/-- 0x000A OVERLAP. -/
def chkOverlap (i : IssueIn) : Bad :=
  match i.y.td with
  | none => none
  | some y =>
    let meets := fun (r : TDRef) => match r.td with | some t => tdsMeet y t | none => false
    let same := i.is .vec && i.x.td == some y
    let atShard := i.is .gatherAll && (match i.x.td, i.group with
      | some x, some g => x.base == y.base + g.myRank * x.bytes
      | _, _ => false)
    let acc := (leField i.desc 64 6, 16 * y.count)
    let hits := fun (r : TDRef) => match r.td with | some t => tdMeets t acc | none => false
    let pair := fun (a b : TDRef) => match a.td, b.td with | some s, some t => tdsMeet s t | _, _ => false
    firstBad [(!same && !atShard && meets i.x, 0, 3), (meets i.w, 0, 3), (meets i.z, 0, 3), (meets i.m2, 0, 3),
      (i.is .update && (pair i.z i.m2 || tdMeets y acc || hits i.z || hits i.m2), 0, 4),
      (i.is .fold && (pair i.z i.x || pair i.z i.w), 0, 4)]

/-! ### 0x000B to 0x0017 -/

/-- Terms per output of an operation (R120). -/
def IssueIn.terms (i : IssueIn) : Nat :=
  let x := i.x.td.getD {}
  match i.kind with
  | some .matmul => x.d0
  | some .conv => (i.w.td.getD {}).d0
  | some .reduce => match leField i.desc 65 1 with | 0 => x.d0 | 1 => x.d1 | _ => x.d2
  | _ => 0

/-- 0x000B REDUCTION. -/
def chkTerms (i : IssueIn) : Bad := firstBad [(decide (i.terms > 2 ^ 40), 12, 1)]

/-- 0x000C ROTATION. -/
def chkRot (i : IssueIn) : Bad :=
  let rb := dRot i.desc
  let k := if i.is .conv then (i.w.td.getD {}).d0 else (i.x.td.getD {}).d0
  let yb := rotSize ((i.y.td.getD {}).rot)
  firstBad ([(i.isMm && rb != 0 && k % rb != 0, 5, 0)]
    ++ i.copies.map (fun t => (rotSize t.1.rot != rb, 7, 6))
    ++ [(i.is .spin && rb != 0, 5, 0), (i.is .spin && yb != 0 && k % yb != 0, 7, 3)])

/-- The rung an operation would read (R37, R197). -/
def slotRungNow (b : List Byte) (storm : Bool) : Nat := if storm then slotCeil b else slotCur b

/-- The compute formats an operation starts with. -/
def IssueIn.startFormats (i : IssueIn) (storm : Bool) : Option (Fmt × Fmt) :=
  match i.slotB with
  | some b => if dSlotValid i.desc then rungFormats b (dGrad i.desc) (slotRungNow b storm) else none
  | none =>
    match i.x.td.bind TD.format, i.w.td.bind TD.format with
    | some fx, some fw => some (fx, fw)
    | _, _ => none

/-- 0x000D CHK_TOL. -/
def chkTol (i : IssueIn) (storm : Bool) : Bad :=
  let t := leField i.desc 4 1
  match i.startFormats storm with
  | some p => firstBad [(i.isMm && decide (t ≠ 0) && decide (t < if p.1.isLog then 23 else 14), 4, 0)]
  | none => none

/-- The stationary format of rung r (R187). -/
def stationaryOf (b : List Byte) (grad r : Nat) : Option Fmt := (rungFormats b grad r).map (·.2)

/-- Rung r is a skein rung (R187). -/
def skeinRung (b : List Byte) (grad r : Nat) : Bool :=
  match stationaryOf b grad r with
  | some f => f.isSkein
  | none => false

/-- Formats a rung may name (R179). -/
def rungCodeOk (c : Nat) : Bool := decide (1 ≤ c) && decide (c ≤ 0x0B)

/-- 0x000E SLOT. -/
def chkSlot (i : IssueIn) (d : JobDesc) : Bad :=
  if !dSlotValid i.desc then none
  else if leField i.desc 2 2 ≥ d.slotCount then some (2, 0)
  else
    match i.slotB with
    | none => none
    | some b =>
      let n := slotNrung b
      let g := dGrad i.desc
      firstBad ([(slotRole b == 3, 12, 5), (n == 0 || decide (n > 6), 12, 5),
        (!(decide (slotFloor b ≤ slotEffFloor b) && decide (slotEffFloor b ≤ slotCur b)
          && decide (slotCur b ≤ slotCeil b) && decide (slotCeil b < n)), 13, 5)]
        ++ (List.range n).map (fun r =>
          let p := slotRung b r
          (!(rungCodeOk p.1 && (p.2 == 0 || rungCodeOk p.2)), 2 * r, 5))
        ++ (List.range n).map (fun r =>
          (decide (slotFloor b ≤ r) && skeinRung b g r && !bitOf (leField b 15 1) r, 15, 5))
        ++ [(slotRole b == 1 && g == 0, 1, 0), (slotRole b == 0 && g != 0, 1, 0)])

/-- 0x000F SPUN: of each rung, a copy it lacks or one that has another format. -/
def chkSpun (i : IssueIn) : Bad :=
  match i.slotB with
  | none => none
  | some b =>
    if !dSlotValid i.desc then none
    else
      firstBad ((List.range (min (slotNrung b) 6)).map fun r =>
        (match (i.spun.getD r {}).td with
         | none => decide (slotFloor b ≤ r) && skeinRung b (dGrad i.desc) r
         | some t => t.format != stationaryOf b (dGrad i.desc) r, 48, 6))

/-- Sites of the operation (R232): MOMENTUM has no site 2. -/
def IssueIn.siteCount (i : IssueIn) : Nat :=
  match i.kind with
  | some .update => if leField i.desc 70 1 % 4 = 1 then 2 else 3
  | some k => k.sites
  | none => 0

/-- A valid `GSITE` byte. -/
def dSiteValid (d : List Byte) (j : Nat) : Bool := decide (dSite d j ≥ 128)

/-- 0x0010 GEN_CONFLICT. -/
def chkGenConflict (i : IssueIn) : Bad :=
  firstBad ((List.range 4).flatMap fun a => (List.range a).map fun b =>
    (dSiteValid i.desc a && dSiteValid i.desc b && dSite i.desc a % 16 == dSite i.desc b % 16, 56 + a, 0))

/-- 0x0011 GEN_MISSING. -/
def chkGenMissing (i : IssueIn) : Bad :=
  firstBad ((List.range 4).map fun j =>
    ((dStoch i.desc && decide (j < i.siteCount) && !dSiteValid i.desc j)
      || (decide (j ≥ i.siteCount) && dSiteValid i.desc j), 56 + j, 0))

/-- 0x0012 RANGE. -/
def chkRange (i : IssueIn) : Bad :=
  match dUnit i.desc with
  | 0 => firstBad [(dEngCount i.desc == 0 || decide (dEngBase i.desc + dEngCount i.desc > 1024), 8, 0)]
  | 1 => firstBad [(dHearthMask i.desc == 0, 8, 0)]
  | _ => none

/-- 0x0013 KNOT. -/
def chkKnot (i : IssueIn) (d : JobDesc) : Bad :=
  firstBad [(dDoneValid i.desc && !knotInJob d (dKnot i.desc), 12, 0),
    (dDoneValid i.desc && dKnotInc i.desc == 0, 12, 0)]

/-- 0x0014 RESCALE. -/
def chkRescale (s : State) (i : IssueIn) (home : Option Nat) : Bad :=
  let base := leField i.desc 40 8
  let n := (i.w.td.getD {}).d1
  let need := match i.y.td with
    | some y => y.fmt == 0x0A || (y.fmt == 0x09 && y.zp)
    | none => false
  firstBad [(i.isMm && need && base == 0, 40, 0),
    (i.isMm && base != 0 && !spanMapped s.mem home base (base + 4 * n), 40, 0)]

/-- 0x0015 SPAN. -/
def chkSpan (i : IssueIn) (storm : Bool) : Bad :=
  let sp := leField i.desc 64 2
  let lim := match i.startFormats storm with | some p => spanLimit p | none => 512
  firstBad [(i.isMm && decide (sp > lim), 64, 0)]

/-- 0x0016 GROUP. -/
def chkGroup (i : IssueIn) : Bad :=
  firstBad [((i.is .redScatter || i.is .gatherAll) && i.group.isNone, 64, 0)]

/-- The (group, collective) is posted, or its abort ages (R327). -/
def collPosted (s : State) (job g c : Nat) : Bool :=
  s.cord.posted.any fun p => p.job == job && p.group == g && p.coll == c

/-- A special OL16 code. -/
def special16 (c : Nat) : Bool := ol16Special c

/-- 0x0017 KIND_FIELDS. -/
def chkFields (s : State) (i : IssueIn) (job : Nat) : Bad :=
  let d := i.desc
  let f := fun o n => leField d o n
  match i.kind with
  | some .conv =>
    firstBad [(f 72 1 == 0, 72, 0), (f 73 1 == 0, 73, 0), (f 74 1 == 0, 74, 0), (f 75 1 == 0, 75, 0),
      (f 78 1 == 0, 78, 0), (f 79 1 == 0, 79, 0),
      (f 80 2 == 0 || (i.x.td.getD {}).d0 % f 80 2 != 0 || (i.w.td.getD {}).d1 % f 80 2 != 0, 80, 0)]
  | some .vec => firstBad [(f 64 1 == 0 || decide (f 64 1 > 15), 64, 0)]
  | some .reduce => firstBad [(decide (f 64 1 > 4), 64, 0), (decide (f 65 1 > 2), 65, 0)]
  | some .remoteAcc => firstBad [(f 70 1 % 4 == 3, 70, 0), (f 72 4 == 0 || decide (f 72 4 > 2 ^ 24), 72, 0)]
  | some .update =>
    let mom := f 70 1 % 4 == 1
    firstBad [(decide (f 70 1 % 4 ≥ 2), 70, 0), (special16 (f 88 2), 88, 0), (special16 (f 90 2), 90, 0),
      (special16 (f 92 2), 92, 0), (special16 (f 102 2), 102, 0),
      (special16 (f 100 2) && f 100 2 != 0x4000, 100, 0),
      (!mom && special16 (f 98 2), 98, 0), (mom && f 94 2 != 0, 94, 0), (mom && f 96 2 != 0, 96, 0),
      (mom && f 98 2 != 0, 98, 0)]
  | some .fold => firstBad [(f 72 1 == 0 || decide (f 72 1 > 64), 72, 0)]
  | some .redScatter =>
    firstBad [(f 68 1 % 16 == 15, 68, 0), (f 80 4 == 0 || decide (f 80 4 > 2 ^ 24), 80, 0),
      (collPosted s job (f 64 2) (f 66 2), 66, 0)]
  | some .gatherAll => firstBad [(f 68 1 % 16 == 15, 68, 0), (collPosted s job (f 64 2) (f 66 2), 66, 0)]
  | some .matmul | some .gather | some .scatter | some .convert | some .fill | some .genSet | some .spin | none => none

/-- The checks in the order of their codes. -/
def allChecks (s : State) (i : IssueIn) (d : JobDesc) (job : Nat) (home : Option Nat) (storm : Bool) : List Bad :=
  [chkKind i, chkReserved i, chkAlign i, chkFormat i, chkPath i, chkBias i d, chkZp i, chkShape i,
   chkExtent s i home, chkOverlap i, chkTerms i, chkRot i, chkTol i storm, chkSlot i d, chkSpun i,
   chkGenConflict i, chkGenMissing i, chkRange i, chkKnot i d, chkRescale s i home, chkSpan i storm,
   chkGroup i, chkFields s i job]

/-- The first check that rejects, checks numbered from `c`. -/
def firstCode (c : Nat) : List Bad → Option (Nat × Nat × Nat)
  | [] => none
  | some p :: _ => some (c, p.1, p.2)
  | none :: r => firstCode (c + 1) r

/-- R236: the checks in the order of their codes: the lowest failing code with its offset and descriptor. -/
def validate (s : State) (i : IssueIn) (d : JobDesc) (job : Nat) (home : Option Nat) (storm : Bool) :
    Option (Nat × Nat × Nat) :=
  firstCode 1 (allChecks s i d job home storm)

/-- The error word (R236). -/
def errorWord (e : Nat × Nat × Nat) : Nat := e.1 + e.2.1 * 2 ^ 16 + e.2.2 * 2 ^ 24

end Sys2Proof.Machine
end

