-- ==== Sys2Proof/Machine/Vector.lean ====
section
/-!
DEFINITION. What vector units and hearth lanes share, and the vector parts of a cores-range operation: reading
elements, the vector functions (R233, R234), reductions (R235), gathers and scatters (R232), conversions and
fills, with their checks, retries and writes (R156, R230, R375, R528).
-/

namespace Sys2Proof.Machine

/-! ### Reading elements -/

/-- Why a part or group cannot be computed: a memory error, or a skein misalignment (R156). -/
inductive UErr where
  | mem (e : MemErr)
  | misalign
  deriving DecidableEq, Repr

/-- Values read, with the invalid results that reading them counts (R79, R84). -/
structure Vals where
  vals : List Num := []
  invalid : Nat := 0
  deriving DecidableEq, Repr

/-- The block that holds logical index j of a skein tensor, and the element's place in it (R83, R222). -/
def TD.blockOf (t : TD) (len j : Nat) : Nat × Nat :=
  (t.blockIndex len (j / t.d0) (j % t.d0 / len), j % t.d0 % len)

/-- Read elements of a skein tensor, each block's `TAG` checked before its header (R86, R156). A poisoned block counts one
invalid result (R84), with the part or group that reads its first element. -/
def readSkein (s : State) (v : Via) (t : Tensor) (js : List Nat) : Except UErr Vals × State :=
  let at_ := js.map (t.td.blockOf t.fmt.blockLen)
  let blocks := at_.foldl (fun l p => sinsert p.1 l) []
  match readMany s v false (blocks.map fun b => (t.td.base + 64 * b, 64)) with
  | (.error e, s1) => (.error (.mem e), s1)
  | (.ok bs, s1) =>
    let tab := blocks.zip bs
    if tab.any (fun p => blkByte p.2 1 != p.1 % 256) then (.error .misalign, s1)
    else
      let elem := fun (p : Nat × Nat) =>
        match tab.find? (fun q => q.1 == p.1) with
        | some q => blkValue t.fmt q.2 p.2
        | none => ({} : SkElem)
      let es := at_.map elem
      (.ok { vals := es.map (·.val)
             invalid := (tab.filter (fun p => blkKind t.fmt p.2 == .poisoned && at_.contains (p.1, 0))).length
               + (es.filter (·.badCode)).length }, s1)

/-- Read the elements of logical indices `js`. -/
def readElems (s : State) (v : Via) (t : Tensor) (js : List Nat) : Except UErr Vals × State :=
  if t.fmt.isSkein then readSkein s v t js
  else
    let addr := fun j =>
      let p := t.td.unflatten j
      (t.td.elemAddr t.fmt.bytes p.1 p.2.1 p.2.2, t.fmt.bytes)
    match readMany s v false (js.map addr) with
    | (.error e, s1) => (.error (.mem e), s1)
    | (.ok bs, s1) => (.ok { vals := bs.map fun b => readElem t.fmt t.bb t.z (leNat b) }, s1)

/-- Read the elements of a tensor that may be absent. -/
def readOpt (s : State) (v : Via) (t : Option Tensor) (js : List Nat) : Except UErr Vals × State :=
  match t with
  | none => (.ok {}, s)
  | some t => readElems s v t js

/-- The destination of a tensor, with the overflow choices of R95. -/
def OpRec.dest (o : OpRec) (y : Tensor) : Dest :=
  { fmt := y.fmt, bb := y.bb, z := y.z, e4m3Nan := o.e4m3Nan, e5m2Inf := o.e5m2Inf }

/-- The byte writes of element codes at their indices. -/
def codeWrites (y : Tensor) (out : List (Nat × Nat)) : List (Nat × List Byte) :=
  out.map fun p =>
    let i := y.td.unflatten p.1
    (y.td.elemAddr y.fmt.bytes i.1 i.2.1 i.2.2, leBytes y.fmt.bytes p.2)

/-- The counts of an output outside the engines: saturations, flushes and invalid results at the destination
(R93, R234; log 45). -/
def codedTally (c : Coded) (nan : Bool) : Tally :=
  { outSat := if c.charge == .sat then 1 else 0
    outFlush := if c.charge == .flush then 1 else 0
    invalid := if nan || c.charge == .inv then 1 else 0 }

/-! ### The vector functions (R233, R234) -/

/-- A value as an OL16 log without range limits: a linear one by R72 (R233). -/
def toLog : Num → Num
  | .lin neg m e => if m = 0 then .zero else .log neg (logNearest m e)
  | .zero => .zero
  | .nan => .nan
  | .inf n => .inf n
  | .log n l => .log n l

/-- l / 2, ties to even on the 1/256 grid (R233). -/
def halfEven (l : Int) : Int := if l % 2 = 0 then l / 2 else if l / 2 % 2 = 0 then l / 2 else l / 2 + 1

/-- The product of two logs (R111, R233). -/
def logMul (x w : Num) : Num :=
  match productClass x.ocls w.ocls (x.isNeg ^^ w.isNeg), x, w with
  | .finite, .log sx lx, .log sw lw => .log (sx ^^ sw) (lx + lw)
  | .pinf, _, _ => .inf false
  | .ninf, _, _ => .inf true
  | .inv, _, _ => .nan
  | .zero, _, _ => .zero
  | .finite, _, _ => .zero

/-- The sum of decoded values in the wide form (R118, R119, R121). -/
def wideSum (xs : List Num) : Num := (xs.foldl WAcc.addNum {}).num

/-- −x; zero stays +0. -/
def negNum : Num → Num
  | .log n l => .log (!n) l
  | .inf n => .inf (!n)
  | .lin n m e => .lin (!n) m e
  | .zero => .zero
  | .nan => .nan

/-- |x|. -/
def absNum : Num → Num
  | .log _ l => .log false l
  | .inf _ => .inf false
  | .lin _ m e => .lin false m e
  | .zero => .zero
  | .nan => .nan

/-- x ≤ y for values that are not NaN, by decoded value. -/
def numLe (x y : Num) : Bool :=
  match x, y with
  | .inf n, .inf k => n || !k
  | .inf n, _ => n
  | _, .inf k => !k
  | _, _ => Dy.le x.dy y.dy

/-- R234: x / w. -/
def logDiv (x w : Num) : Num :=
  match x, w with
  | .zero, .zero => .nan
  | .inf _, .inf _ => .nan
  | .inf n, w => .inf (n ^^ w.isNeg)
  | .zero, _ => .zero
  | x, .zero => .inf x.isNeg
  | _, .inf _ => .zero
  | .log sx lx, .log sw lw => .log (sx ^^ sw) (lx - lw)
  | _, _ => .nan

/-- 2^x (R233): beyond a log of ±2^20 every destination is past its range. -/
def exp2Num (x : Num) : Num :=
  match x with
  | .nan => .nan
  | .inf n => if n then .zero else .inf false
  | .zero => .log false 0
  | .log n l =>
    if l ≥ 20 * 256 then .log false (if n then -(2 ^ 20) else 2 ^ 20)
    else .log false (signed n (roundGrid none (decodedM l) (decodedE l + 8) 0))
  | .lin _ _ _ => .nan

/-- A vector operation on logs (R233, R234). -/
def vecFn (vop : Nat) (x w z const : Num) : Num :=
  match vop with
  | 1 => wideSum [x, w]
  | 2 => wideSum [x, negNum w]
  | 3 => logMul x w
  | 4 => if x == .nan || w == .nan then .nan else logDiv x w
  | 5 => match x with
    | .nan => .nan | .zero => .zero | .inf n => if n then .nan else .inf false
    | .log n l => if n then .nan else .log false (halfEven l) | .lin _ _ _ => .nan
  | 6 => match x with
    | .nan => .nan | .zero => .inf false | .inf n => if n then .nan else .zero
    | .log n l => if n then .nan else .log false (halfEven (-l)) | .lin _ _ _ => .nan
  | 7 => match x with
    | .nan => .nan | .zero => .inf false | .inf _ => .zero
    | .log n l => .log n (-l) | .lin _ _ _ => .nan
  | 8 => logMul x const
  | 9 => if x == .nan || w == .nan then .nan else if numLe w x then x else w
  | 10 => if x == .nan || w == .nan then .nan else if numLe x w then x else w
  | 11 => absNum x
  | 12 => negNum x
  | 13 => exp2Num x
  | 14 => match x with
    | .nan => .nan | .zero => .inf true | .inf n => if n then .nan else .inf false
    | .log n l => if n then .nan else numOfInt l (-8) | .lin _ _ _ => .nan
  | _ => wideSum [logMul x w, z]

/-- One rounding of a result into a destination (R89–R93); a log far past every range is cut back to ±2^20. -/
def intoDest (d : Dest) (mode : Mode) (r : Num) : Coded :=
  match r with
  | .log n l => d.convert mode (.log n (max (-(2 ^ 20)) (min (2 ^ 20) l)))
  | .zero => d.convert mode .zero
  | .nan => d.convert mode .nan
  | .inf n => d.convert mode (.inf n)
  | .lin n m e => d.convert mode (.lin n m e)

/-! ### Reductions (R235) -/

/-- The logical indices of X that reduce into output index j along an axis. -/
def reduceIdx (x y : TD) (axis j : Nat) : List Nat :=
  let p := y.unflatten j
  let at_ := fun i0 i1 i2 => i0 + x.d0 * (i1 + x.d1 * i2)
  match axis with
  | 0 => (List.range x.d0).map fun k => at_ k p.2.1 p.2.2
  | 1 => (List.range x.d1).map fun k => at_ p.1 k p.2.2
  | _ => (List.range x.d2).map fun k => at_ p.1 p.2.1 k

/-- The largest of a list of values; NaN for an empty list. -/
def maxOf : List Num → Num
  | [] => .nan
  | x :: r => r.foldl (fun a b => if numLe b a then a else b) x

/-- A reduction of the terms of one output; SUMSQ forms each square as the log 2lx, of a linear term through its log
(R233). -/
def reduceFn (rop : Nat) (xs : List Num) : Num :=
  match rop with
  | 0 => wideSum xs
  | 1 => wideSum (xs.map fun x => logMul (toLog x) (toLog x))
  | 2 => if xs.contains .nan then .nan else maxOf xs
  | 3 => if xs.contains .nan then .nan else negNum (maxOf (xs.map negNum))
  | _ => if xs.contains .nan then .nan else maxOf (xs.map absNum)

/-! ### Parts (R230) -/

/-- What a part or group writes, and what it counts. -/
structure PartOut where
  writes : List (Nat × List Byte) := []
  tally : Tally := {}
  deriving DecidableEq, Repr

/-- Results of indices `js`, each rounded once at site 0; NaN results count as invalid when `nanCounts`. -/
def roundAll (o : OpRec) (y : Tensor) (nanCounts : Bool) (mode : Bool) (inv : Nat) (rs : List (Nat × Num)) : PartOut :=
  let cs := rs.map fun r =>
    (r.1, intoDest (o.dest y) (if mode then siteMode (o.sites.getD 0 none) r.1 else none) r.2, r.2 == .nan)
  { writes := codeWrites y (cs.map fun c => (c.1, c.2.1.code))
    tally := (cs.map fun c => codedTally c.2.1 (nanCounts && c.2.2 && y.fmt != .int8)).foldl Tally.add { invalid := inv } }

/-- A part of a VEC operation. -/
def vecPart (s : State) (v : Via) (o : OpRec) (y : Tensor) (js : List Nat) : Except UErr PartOut × State :=
  let d := o.desc
  let vop := leField d 64 1
  let wjs := if bitOf (leField d 65 1) 0 then js.map (· % y.td.d0) else js
  match readOpt s v o.x js with
  | (.error e, s1) => (.error e, s1)
  | (.ok x, s1) =>
    match readOpt s1 v o.w wjs with
    | (.error e, s2) => (.error e, s2)
    | (.ok w, s2) =>
      match readOpt s2 v o.z js with
      | (.error e, s3) => (.error e, s3)
      | (.ok z, s3) =>
        let c := readOl16 (leField d 66 2)
        let val := fun (l : Vals) i => toLog (l.vals.getD i .zero)
        let rs := (List.range js.length).map fun i => (js.getD i 0, vecFn vop (val x i) (val w i) (val z i) c)
        (.ok (roundAll o y true true (x.invalid + w.invalid + z.invalid) rs), s3)

/-- Reduce the terms of several outputs, which have been read one output after the other. -/
def reduceEach (x y : TD) (axis rop : Nat) : List Nat → List Num → List (Nat × Num)
  | [], _ => []
  | j :: r, vs =>
    let n := (reduceIdx x y axis j).length
    (j, reduceFn rop (vs.take n)) :: reduceEach x y axis rop r (vs.drop n)

/-- Read the terms of a part's outputs and reduce them. -/
def reduceAll (s : State) (v : Via) (x : Tensor) (y : TD) (axis rop : Nat) (js : List Nat) :
    Except UErr (List (Nat × Num) × Nat) × State :=
  match readElems s v x (js.flatMap (reduceIdx x.td y axis)) with
  | (.error e, s1) => (.error e, s1)
  | (.ok vs, s1) => (.ok (reduceEach x.td y axis rop js vs.vals, vs.invalid), s1)

/-- A part of a REDUCE operation. -/
def reducePart (s : State) (v : Via) (o : OpRec) (y : Tensor) (js : List Nat) : Except UErr PartOut × State :=
  match o.x with
  | none => (.ok {}, s)
  | some x =>
    match reduceAll s v x y.td (leField o.desc 65 1) (leField o.desc 64 1) js with
    | (.error e, s1) => (.error e, s1)
    | (.ok (rs, n), s1) => (.ok (roundAll o y true true n rs), s1)

/-- A part of a CONVERT operation (R89–R93). -/
def convertPart (s : State) (v : Via) (o : OpRec) (y : Tensor) (js : List Nat) : Except UErr PartOut × State :=
  match readOpt s v o.x js with
  | (.error e, s1) => (.error e, s1)
  | (.ok x, s1) => (.ok (roundAll o y false true x.invalid (js.zip x.vals)), s1)

/-- A part of a FILL operation (R224). -/
def fillPart (o : OpRec) (y : Tensor) (js : List Nat) : PartOut :=
  roundAll o y false false 0 (js.map fun j => (j, readOl16 (leField o.desc 64 2)))

/-- The row numbers of an index table (R224). -/
def readIndex (s : State) (v : Via) (o : OpRec) : Except UErr (List Nat) × State :=
  let base := leField o.desc 64 8
  match readMany s v false ((List.range (leField o.desc 72 4)).map fun i => (base + 4 * i, 4)) with
  | (.error e, s1) => (.error (.mem e), s1)
  | (.ok bs, s1) => (.ok (bs.map leNat), s1)

/-- Copy elements from one tensor to another without conversion: pairs of source and destination index. -/
def copyPart (s : State) (v : Via) (x y : Tensor) (ps : List (Nat × Nat)) : Except UErr PartOut × State :=
  let addr := fun (t : Tensor) j =>
    let p := t.td.unflatten j
    t.td.elemAddr t.fmt.bytes p.1 p.2.1 p.2.2
  match readMany s v false (ps.map fun p => (addr x p.1, x.fmt.bytes)) with
  | (.error e, s1) => (.error (.mem e), s1)
  | (.ok bs, s1) => (.ok { writes := (ps.zip bs).map fun p => (addr y p.1.2, p.2) }, s1)

/-- GATHER and SCATTER (R232): an index beyond the indexed tensor fails the operation with MEMORY. -/
def gatherPart (s : State) (v : Via) (o : OpRec) (y : Tensor) (js : List Nat) : Except UErr PartOut × State :=
  match o.x, readIndex s v o with
  | none, (_, s1) => (.ok {}, s1)
  | some _, (.error e, s1) => (.error e, s1)
  | some x, (.ok idx, s1) =>
    if o.kind = .gather then
      if idx.any (fun r => decide (r ≥ x.td.d1)) then (.error (.mem .unmapped), s1)
      else
        copyPart s1 v x y (js.map fun j =>
          let p := y.td.unflatten j
          (p.1 + x.td.d0 * (idx.getD p.2.1 0 + x.td.d1 * p.2.2), j))
    else if idx.any (fun r => decide (r ≥ y.td.d1)) then (.error (.mem .unmapped), s1)
    else
      copyPart s1 v x y ((List.range idx.length).flatMap fun i => (List.range x.td.d2).flatMap fun i2 =>
        (List.range x.td.d0).map fun i0 =>
          (i0 + x.td.d0 * (i + x.td.d1 * i2), i0 + y.td.d0 * (idx.getD i 0 + y.td.d1 * i2)))

/-- What a part of an operation computes. -/
def computePart (s : State) (v : Via) (o : OpRec) (js : List Nat) : Except UErr PartOut × State :=
  match o.y with
  | none => (.ok {}, s)
  | some y =>
    match o.kind with
    | .vec => vecPart s v o y js
    | .reduce => reducePart s v o y js
    | .convert => convertPart s v o y js
    | .fill => (.ok (fillPart o y js), s)
    | .gather => gatherPart s v o y js
    | .scatter => gatherPart s v o y js
    | .matmul => (.ok {}, s)
    | .conv => (.ok {}, s)
    | .genSet => (.ok {}, s)
    | .remoteAcc => (.ok {}, s)
    | .update => (.ok {}, s)
    | .spin => (.ok {}, s)
    | .fold => (.ok {}, s)
    | .redScatter => (.ok {}, s)
    | .gatherAll => (.ok {}, s)

/-- The part of an operation that a unit holds. -/
def OpRec.partOf (o : OpRec) (u : Nat) : Option Part := o.parts.find? (fun p => p.unit == u)

/-- Replace the first part of a unit; none removes it. -/
def putFirst (u : Nat) (p : Option Part) : List Part → List Part
  | [] => []
  | q :: r => if q.unit = u then (match p with | some x => x :: r | none => r) else q :: putFirst u p r

/-- Replace the part that a unit works on; none removes it. -/
def OpRec.putPart (o : OpRec) (u : Nat) (p : Option Part) : OpRec := { o with parts := putFirst u p o.parts }

/-- The event of a second misalignment in a part or group (R156, R527), with the unit's field. -/
def misalignFail (s : State) (k : Nat) (o : OpRec) (field : Nat) (ev : State → Nat → State) : State :=
  ev (failOp s k 0x02) (tileEventData o 0 o.rung field)

/-- VECTOR_PART (R528): the vector unit of a core finishes its part of an operation. `hit` is a fault its
residue checks find. -/
def vectorPart (s0 : State) (k core : Nat) (hit : Option Mech) : State :=
  match getOp s0 k with
  | none => s0
  | some o =>
    match o.partOf core with
    | none => s0
    | some p =>
      if dUnit o.desc ≠ 0 || s0.flt.hubFault || !clusterAwake s0 (core / 8) || bitOf s0.rst.dieFence (core / 64) then s0
      else
        let v := opVia o (some (core / 64))
        match takeHit s0 1 core [.resCore, .memUe] hit with
        | (some (m, inj), s) =>
          let s1 := raiseFault s { mech := m, retry := !p.retried, inj := inj, utype := 1, unit := core, locA := 1 }
          if p.retried then failOp s1 k 0x01
          else setOp s1 k (some (o.putPart core (some { p with retried := true })))
        | (none, s) =>
          match computePart s v o ((List.range (p.hi - p.lo)).map (· + p.lo)) with
          | (.error (.mem .waits), _) => s0
          | (.error (.mem e), s1) => failOp s1 k (errCode e)
          | (.error .misalign, s1) =>
            let s2 := tallyOp s1 core o { misalign := 1 }
            if p.refetched then
              misalignFail s2 k o (0x8000 + core) fun st d => coreEvent st core 2 0x0107 2 0 d
            else setOp s2 k (some (o.putPart core (some { p with refetched := true })))
          | (.ok out, s1) =>
            match writesBlocked s1 v out.writes with
            | (true, s2) => s2
            | (false, _) =>
              match writeMany s1 v false out.writes with
              | (some e, s2) => failOp s2 k (errCode e)
              | (none, s2) =>
                let o1 := o.putPart core none
                setOp (tallyOp s2 core o out.tally) k (some
                  { o1 with
                    last := emberSource 1 core
                    invalid := o1.invalid || decide (out.tally.invalid ≠ 0)
                    finished := o1.parts.isEmpty })

end Sys2Proof.Machine
end

