-- ==== Sys2Proof/Machine/Hearth.lean ====
section
/-!
DEFINITION. The hearths' arithmetic: accumulators and remote accumulates (R294–R297), the update (R298–R301),
spin-down (R302), folding (R304), conversions and fills on hearths, and the group with its checks (R292),
with the atomics of R281.
-/

namespace Sys2Proof.Machine

/-! ### Atomics (R281, R282) -/

/-- What a target makes of an atomic (R281). -/
inductive AtomicTarget where
  | performed
  | refusedEvent
  | refused
  | ash
  | waits
  deriving DecidableEq, Repr

/-- The target of an atomic at a device address. -/
def atomicTarget (s : State) (v : Via) (a : Nat) : AtomicTarget :=
  match v.resolve s.mem a with
  | none => .refused
  | some l =>
    match accessStop s v (isCached s v false a l) l with
    | some .ash => .ash
    | some .waits => .waits
    | some .unmapped => .refused
    | some .poisoned => .refused
    | some .fenced => .refused
    | none =>
      match l with
      | .hearth _ _ => .performed
      | .hbm _ _ _ => if isCached s v false a l then .performed else .refusedEvent

/-- The hearth that owns a device address (R23). -/
def ownerOf (s : State) (v : Via) (a : Nat) : Option Nat := (v.resolve s.mem a).map Loc.owner

/-- Event 0x0304 of a refused atomic, sent by the hearth's die agent. -/
def atomicRefused (s : State) (h addr : Nat) : State :=
  { s with ev := { s.ev with evq := s.ev.evq ++
      [{ origin := 33 + dieOfStack h, source := 0x0304, kind := 2, data := atByte 16 addr }] } }

/-- The result of one atomic: the code of R228 and the value read. -/
structure AtomicResult where
  code : Nat := 0
  old : Nat := 0
  deriving DecidableEq, Repr

/-- An atomic on `n` bytes at an aligned device address: read, and write what `f` gives when it gives something.
None: it waits. -/
def atomicOp (s : State) (v : Via) (a n : Nat) (f : Nat → Option Nat) : Option AtomicResult × State :=
  match atomicTarget s v a with
  | .waits => (none, s)
  | .ash => (some { code := 0x05 }, s)
  | .refused => (some { code := 0x07 }, s)
  | .refusedEvent => (some { code := 0x07 }, atomicRefused s ((ownerOf s v a).getD 0) a)
  | .performed =>
    match devRead s v false a n with
    | (.error .waits, s1) => (none, s1)
    | (.error e, s1) => (some { code := errCode e }, s1)
    | (.ok b, s1) =>
      let old := leNat b
      match f old with
      | none => (some { old := old }, s1)
      | some w =>
        match devWrite s1 v false a (leBytes n w) with
        | (some .waits, s2) => (none, s2)
        | (some e, s2) => (some { code := errCode e }, s2)
        | (none, s2) => (some { old := old }, s2)

/-! ### Accumulators (R294, R295) -/

/-- An accumulator: contributions received and the wide accumulator. -/
structure Accum where
  cnt : Nat := 0
  wacc : WAcc := {}
  deriving DecidableEq, Repr

/-- R294: the 16 bytes of an accumulator. -/
def Accum.bytes (a : Accum) : List Byte :=
  leBytes 10 a.wacc.pack ++ leBytes 4 a.wacc.res ++ leBytes 2 a.cnt

/-- R294: the accumulator 16 bytes hold. -/
def Accum.ofBytes (b : List Byte) : Accum :=
  { cnt := leField b 14 2, wacc := { WAcc.unpack (leField b 0 10) with res := leField b 10 1 % 8 } }

/-- R295: add one contribution. -/
def Accum.add (a : Accum) (x : Num) : Accum :=
  { cnt := satAdd 0xFFFF a.cnt 1, wacc := a.wacc.addNum x }

/-- The accumulators that `n` × 16 bytes hold. -/
def accumsOf (b : List Byte) : (n : Nat) → List Accum
  | 0 => []
  | n + 1 => Accum.ofBytes (b.take 16) :: accumsOf (b.drop 16) n

/-- R134, R292: the lane of the first of `n` accumulators from an address whose stored residue disagrees with its `SIG`, so
that the residue checks of the group that promotes into it, or consumes it, fail. -/
def accResidueBad (s : State) (v : Via) (addr n : Nat) : Option Nat :=
  match (devRead s v false addr (16 * n)).1 with
  | .error _ => none
  | .ok b => ((List.range n).zip (accumsOf b n)).findSome? fun p => if p.2.wacc.residueOk then none else some (p.1 % 128)

/-- How a request ended: it waits, it ended with a code, or a residue check of it failed. -/
inductive RaEnd where
  | waits
  | ended (code : Nat)
  deriving DecidableEq, Repr

/-- Apply the contributions of a request to consecutive accumulators from `addr`, as one group (R292, R295,
R296, R297). `mode` 0 adds, 1 initialises, 2 sets. -/
def applyRa (s : State) (v : Via) (mode : Nat) (addr : Nat) (xs : List Num) : RaEnd × State :=
  let n := xs.length
  let atoms := (List.range ((addr % 64 + 16 * n + 63) / 64)).map fun i => addr / 64 * 64 + 64 * i
  let ts := atoms.map (atomicTarget s v)
  if ts.contains .waits then (.waits, s)
  else if ts.contains .ash then
    (.ended 0x05, dcount s (Key.hearthRaAsh + (ownerOf s v addr).getD 0))
  else if ts.contains .refusedEvent then (.ended 0x07, atomicRefused s ((ownerOf s v addr).getD 0) addr)
  else if ts.contains .refused then (.ended 0x07, s)
  else
    let count := fun (st : State) => dset st (Key.hearthRaCount + (ownerOf s v addr).getD 0)
      (satAdd (2 ^ 64 - 1) (dget st (Key.hearthRaCount + (ownerOf s v addr).getD 0)) n)
    let write := fun (st : State) (as : List Accum) =>
      match devWrite st v false addr (as.flatMap Accum.bytes) with
      | (some .waits, st1) => (RaEnd.waits, st1)
      | (some e, st1) => (RaEnd.ended (errCode e), st1)
      | (none, st1) => (RaEnd.ended 0, if mode = 1 then st1 else count st1)
    match mode with
    | 1 => write s (List.replicate n {})
    | 2 => write s (xs.map fun x => ({} : Accum).add x)
    | _ =>
      match devRead s v false addr (16 * n) with
      | (.error .waits, s1) => (.waits, s1)
      | (.error e, s1) => (.ended (errCode e), s1)
      | (.ok b, s1) => write s1 (List.zipWith Accum.add (accumsOf b n) xs)

/-- The contributions a request carries. -/
def RaReq.vals (r : RaReq) : List Num := r.codes.map (readElem r.fmt r.bb 0)

/-- An operation with no part left and no request in flight has finished. -/
def finishIfDone (s : State) (k : Nat) : State :=
  match getOp s k with
  | none => s
  | some o =>
    if o.parts.isEmpty && !s.raq.any (fun r => r.op == k) && !o.finished then
      setOp s k (some { o with finished := true, code := if o.discard then 0x04 else o.code })
    else s

/-! ### Lane faults and retirement (R376) -/

/-- Retired lanes of a hearth. -/
def retiredLanes (s : State) (h : Nat) : Nat := countBits (tget 0 s.flt.laneRetired h) 128

/-- Retire a lane of a hearth. -/
def retireLane (s : State) (h lane : Nat) : State :=
  { s with flt := { s.flt with
      laneRetired := tset 0 s.flt.laneRetired h (setBit (tget 0 s.flt.laneRetired h) lane true) } }

/-- R376: count a detected-dangerous fault of a lane. -/
def countLane (s : State) (h lane : Nat) (inj : Bool) : State :=
  if inj then s
  else
    let key := h * 128 + lane
    let n := tget 0 s.flt.laneFaults key + 1
    let s1 := { s with flt := { s.flt with laneFaults := tset 0 s.flt.laneFaults key n } }
    let lim := dget s Key.retireLimit
    if lim ≠ 0 ∧ n ≥ lim then retireLane s1 h lane else s1

/-- A fault of a hearth's lanes: its message and its count. -/
def laneFault (s : State) (h lane group : Nat) (retry inj : Bool) : State :=
  countLane (raiseFault s
    { mech := .resHearth, retry := retry, inj := inj, utype := 2, unit := h, locA := 0, locB := lane, locC := group })
    h lane inj

/-! ### Division among hearths (R293) -/

/-- Part i of u units among h hearths. -/
def hearthShare (u h i : Nat) : Nat × Nat := ((u * i + h - 1) / h, (u * (i + 1) + h - 1) / h)

/-- Units and elements per unit of the primary tensor of a kind, and its element count. -/
def OpRec.primary (o : OpRec) : Nat × Nat :=
  let n := fun (t : Option Tensor) => (t.map (·.td.count)).getD 0
  match o.kind with
  | .remoteAcc => (if leField o.desc 70 1 % 4 = 1 then leField o.desc 72 4 else n o.x, 32)
  | .spin => ((o.x.map (·.td.d1)).getD 0, 1)
  | .fold => ((o.x.map (·.td.d1)).getD 0, 1)
  | .update => (n o.y, 32)
  | .convert => (n o.y, 32)
  | .fill => (n o.y, 32)
  | .matmul => (0, 1) | .conv => (0, 1) | .vec => (0, 1) | .reduce => (0, 1) | .gather => (0, 1)
  | .scatter => (0, 1) | .genSet => (0, 1) | .redScatter => (0, 1) | .gatherAll => (0, 1)

/-- The parts of an operation on the hearths given, empty ones left out. -/
def OpRec.hearthParts (o : OpRec) (hs : List Nat) : List Part :=
  let (n, per) := o.primary
  let u := (n + per - 1) / per
  (List.range hs.length).filterMap fun i =>
    let sh := hearthShare u hs.length i
    let lo := sh.1 * per
    let hi := min n (sh.2 * per)
    if lo < hi then some { unit := hs.getD i 0, lo := lo, hi := hi } else none

/-! ### The update (R299) -/

/-- One rounding of a hearth result to OL16. -/
def toOl16At (mode : Mode) (x : Num) : Coded := intoDest { fmt := .ol16 } mode x

/-- What one parameter's update gives: the codes of master and moments, whether it was skipped, its charges. -/
structure ParamOut where
  w : Nat
  m : Nat
  v : Nat
  skipped : Bool := false
  tally : Tally := {}
  nan : Bool := false
  deriving DecidableEq, Repr

/-- R299: the value of an accumulator times the gradient scale, truncated beyond 62 bits. -/
def gradOf (a : WAcc) (gscale : Num) : Num :=
  let neg := gscale.isNeg
  match a.num with
  | .nan => .nan
  | .zero => .zero
  | .inf n => .inf (n ^^ neg)
  | .log n l => logMul (.log n l) gscale
  | .lin n m e =>
    match gscale with
    | .log _ l =>
      let p := (trunc62 ((Dy.mk (m : Int) e).mul ⟨decodedM l, decodedE l⟩)).1
      if p.m = 0 then .zero else .lin (n ^^ neg) p.m.natAbs p.e
    | .zero => .zero
    | .nan => .nan
    | .inf _ => .nan
    | .lin _ _ _ => .nan

/-- The log of a descriptor field. -/
def OpRec.fieldLog (o : OpRec) (off : Nat) : Num := readOl16 (leField o.desc off 2)

/-- R299: one parameter. The master that a negative second moment leaves is open: `Config.negativeMoment` of the operands,
the descriptor and the words of the rounding sites, which decide every result of an operation (R138; log 3). -/
def updateParam (o : OpRec) (j : Nat) (acc : Accum) (wc mc vc : Nat) : ParamOut :=
  let mom := leField o.desc 70 1 % 4 == 1
  let skip := bitOf (leField o.desc 70 1) 2
  let g := gradOf acc.wacc (o.fieldLog 102)
  if g.special && skip then { w := wc, m := mc, v := vc, skipped := true, tally := { invalid := 1 } }
  else
    let mode := fun i => siteMode (o.sites.getD i none) j
    let lg := toLog g
    let w := readOl16 wc
    let m1 := toOl16At (mode 1) (wideSum [logMul (o.fieldLog 90) (readOl16 mc), logMul (o.fieldLog 92) lg])
    let lm := readOl16 m1.code
    let v1 : Coded := if mom then ⟨vc, .none⟩
      else toOl16At (mode 2) (wideSum [logMul (o.fieldLog 94) (readOl16 vc), logMul (o.fieldLog 96) (logMul lg lg)])
    let step : Num :=
      if mom then logMul (o.fieldLog 88) lm
      else withSign lm.isNeg (logDivAll (logMul (o.fieldLog 88) lm)
        (toLog (wideSum [vecFn 5 (readOl16 v1.code) .zero .zero .zero, o.fieldLog 98])))
    let w1 := toOl16At (mode 0) (wideSum [w, negNum step, negNum (logMul (o.fieldLog 100) w)])
    let negV := match readOl16 v1.code with | .log n _ => n && !mom | .zero => false | .nan => false | .inf _ => false | .lin _ _ _ => false
    let open_ := Config.negativeMoment
      ([wc, mc, vc, leNat acc.bytes, leNat o.desc] ++ (List.range 3).map fun i => ((mode i).map (· + 1)).getD 0)
    let wOut := if negV then open_ % 2 ^ 16 else w1.code
    { w := wOut, m := m1.code, v := v1.code
      tally := ((codedTally m1 false).add (codedTally v1 false)).add (if negV then {} else codedTally w1 false)
      nan := (readOl16 wOut) == .nan || lm == .nan }
where
  /-- l − ld with NaN first. -/
  logDivAll (x w : Num) : Num := if x == .nan || w == .nan then .nan else logDiv x w
  /-- The step has the sign of m1, whatever the signs of `ETA` and of the denominator. -/
  withSign (n : Bool) : Num → Num
    | .log _ l => .log n l
    | .inf _ => .inf n
    | .lin _ m e => .lin n m e
    | .zero => .zero
    | .nan => .nan

/-- Split a byte list into codes of 2 bytes. -/
def codes2 (bs : List (List Byte)) : List Nat := bs.map leNat

/-- The addresses of elements of an OL16 tensor. -/
def elemAddrs (t : Tensor) (js : List Nat) : List (Nat × Nat) :=
  js.map fun j =>
    let p := t.td.unflatten j
    (t.td.elemAddr t.fmt.bytes p.1 p.2.1 p.2.2, t.fmt.bytes)

/-- Addresses of an optional tensor's elements. -/
def elemAddrsOpt (t : Option Tensor) (js : List Nat) : List (Nat × Nat) :=
  match t with
  | none => []
  | some t => elemAddrs t js

/-- What a hearth group computes: its writes, its counts, what its operation is told, and remote accumulate requests to
send. -/
structure GroupOut where
  writes : List (Nat × List Byte) := []
  tally : Tally := {}
  nan : Bool := false
  send : List RaReq := []
  deriving DecidableEq, Repr

/-- The code of an accumulator that holds nothing (R300). -/
def clearedAccum : List Byte := ({} : Accum).bytes

/-- A group of an UPDATE (R299–R301). -/
def updateGroup (s : State) (v : Via) (o : OpRec) (y : Tensor) (js : List Nat) : Except UErr GroupOut × State :=
  let base := leField o.desc 64 6
  let mom := leField o.desc 70 1 % 4 == 1
  let keep := bitOf (leField o.desc 70 1) 3
  let clears := if keep then [] else js.map fun j => (base + 16 * j, clearedAccum)
  if o.discard then (.ok { writes := clears }, s)
  else
    match readMany s v false (js.map fun j => (base + 16 * j, 16)) with
    | (.error e, s1) => (.error (.mem e), s1)
    | (.ok as, s1) =>
      match readMany s1 v false (elemAddrs y js ++ elemAddrsOpt o.z js ++ elemAddrsOpt (o.extra.headD none) js) with
      | (.error e, s2) => (.error (.mem e), s2)
      | (.ok bs, s2) =>
        let cs := codes2 bs
        let n := js.length
        let ps := (List.range n).map fun i =>
          (js.getD i 0, updateParam o (js.getD i 0) (Accum.ofBytes (as.getD i [])) (cs.getD i 0) (cs.getD (n + i) 0) (cs.getD (2 * n + i) 0))
        let live := ps.filter fun p => !p.2.skipped
        let wr := fun (t : Option Tensor) (f : ParamOut → Nat) =>
          match t with
          | none => []
          | some t => codeWrites t (live.map fun p => (p.1, f p.2))
        (.ok { writes := wr (some y) (·.w) ++ wr o.z (·.m) ++ (if mom then [] else wr (o.extra.headD none) (·.v)) ++ clears
               tally := ps.foldl (fun t p => t.add p.2.tally) {}
               nan := ps.any fun p => p.2.skipped || p.2.nan }, s2)

/-- R300: the first accumulator of a part whose `CNT` differs from `EXPECT`: its address and `CNT`. -/
def expectCheck (s : State) (v : Via) (o : OpRec) (p : Part) : Except UErr (Option (Nat × Nat)) × State :=
  let base := leField o.desc 64 6
  let want := leField o.desc 104 2
  if want = 0 then (.ok none, s)
  else
    let as := (List.range (p.hi - p.lo)).map fun i => base + 16 * (p.lo + i)
    match readMany s v false (as.map (·, 16)) with
    | (.error e, s1) => (.error (.mem e), s1)
    | (.ok bs, s1) =>
      (.ok (((as.zip bs).find? fun q => leField q.2 14 2 != want).map fun q => (q.1, leField q.2 14 2)), s1)

/-! ### Spin-down (R302) -/

/-- The elements of column n that the group `sub` of a SPIN takes, and the blocks that it completes: from and up to. -/
structure SpinSpan where
  lo : Nat
  hi : Nat
  first : Nat
  blocks : Nat
  /-- the element from which the rotation blocks it needs start -/
  start : Nat
  deriving DecidableEq, Repr

/-- The span of a SPIN's group: 128 elements of its column (log 46). -/
def spinSpan (y : Tensor) (sub : Nat) : SpinSpan :=
  let k := y.td.d0
  let len := y.fmt.blockLen
  let lo := 128 * sub
  let hi := min k (lo + 128)
  let first := lo / len
  { lo := lo, hi := hi, first := first, blocks := (if hi = k then (k + len - 1) / len else hi / len) - first
    start := first * len / 128 * 128 }

/-- A group of a SPIN: the blocks that its elements complete and what it charges; `xs` are the elements of the column from
the span's start. -/
def spinColumn (o : OpRec) (y : Tensor) (n : Nat) (w : SpinSpan) (xs : List Num) : List (Nat × List Byte) × Tally :=
  let k := y.td.d0
  let len := y.fmt.blockLen
  let b := rotSize y.td.rot
  let rc := if b = 0 then [] else rotateRuns b (k + 1) xs
  let vals := if b = 0 then xs else rc.map fun c => readOl16 c.code
  let blocks := ((List.range w.blocks).map (· + w.first)).map fun r =>
    let part := (vals.drop (r * len - w.start)).take len
    (y.td.blockAddr len n r,
      spinBlock y.fmt o.slubMargin (b != 0) (y.td.blockIndex len n r)
        (fun i => siteMode (o.sites.getD 0 none) (n * k + r * len + i))
        (part ++ List.replicate (len - part.length) .zero))
  (blocks.map fun p => (p.1, p.2.bytes),
   { feedSat := (blocks.map (·.2.sat)).sum + ((rc.drop (w.lo - w.start)).filter fun c => c.charge == .sat).length
     slubOvf := (blocks.map (·.2.slubOvf)).sum })

/-- A group of a SPIN: up to 128 elements of a column (log 46). -/
def spinGroup (s : State) (v : Via) (o : OpRec) (y : Tensor) (n sub : Nat) : Except UErr GroupOut × State :=
  if o.discard then (.ok {}, s)
  else
    let w := spinSpan y sub
    match readOpt s v o.x ((List.range (w.hi - w.start)).map (· + n * y.td.d0 + w.start)) with
    | (.error e, s1) => (.error e, s1)
    | (.ok x, s1) =>
      let r := spinColumn o y n w x.vals
      (.ok { writes := r.1, tally := r.2, nan := (x.vals.drop (w.lo - w.start)).any Num.special }, s1)

/-! ### Folding (R304) -/

/-- R304 for one index of dimension 1: the factor codes and the new residues. `q` is by rows i0 of r columns. -/
def foldColumn (o : OpRec) (r i1 : Nat) (g e : List Num) (q : Nat → Nat → Num) : List Coded × List Coded :=
  let a := List.zipWith (fun x y => wideSum [x, y]) g e
  let la := a.map toLog
  let n := a.length
  let p := (List.range r).map fun j =>
    toOl16At (siteMode (o.sites.getD 0 none) (j + r * i1))
      (wideSum ((List.range n).map fun i0 => logMul (la.getD i0 .zero) (q i0 j)))
  let e1 := (List.range n).map fun i0 =>
    let back := wideSum ((List.range r).map fun j => logMul (q i0 j) (readOl16 (p.getD j ⟨0x4000, .none⟩).code))
    toOl16At (siteMode (o.sites.getD 1 none) (i0 + n * i1)) (wideSum [a.getD i0 .zero, negNum back])
  (p, e1)

/-- The last group of a FOLD at one index of dimension 1: the sums over the index are complete, and its factors and residues
are written (log 46). -/
def foldGroup (s : State) (v : Via) (o : OpRec) (y : Tensor) (i1 : Nat) : Except UErr GroupOut × State :=
  match o.x, o.w, o.z with
  | some x, some w, some e =>
    let n := x.td.d0
    let r := leField o.desc 72 1
    let col := (List.range n).map (· + n * i1)
    match readElems s v x col with
    | (.error er, s1) => (.error er, s1)
    | (.ok g, s1) =>
      match readElems s1 v w (List.range (n * r)) with
      | (.error er, s2) => (.error er, s2)
      | (.ok q, s2) =>
        match if bitOf (leField o.desc 73 1) 0 then (.ok { vals := List.replicate n .zero }, s2) else readElems s2 v e col with
        | (.error er, s3) => (.error er, s3)
        | (.ok ev, s3) =>
          let f := foldColumn o r i1 g.vals ev.vals fun i0 j => q.vals.getD (i0 + n * j) .zero
          let pw := codeWrites y ((List.range r).map fun j => (j + r * i1, (f.1.getD j ⟨0x4000, .none⟩).code))
          let ew := codeWrites e ((List.range n).map fun i0 => (i0 + n * i1, (f.2.getD i0 ⟨0x4000, .none⟩).code))
          (.ok { writes := if o.discard then pw else pw ++ ew
                 tally := ((f.1 ++ f.2).map fun c => codedTally c false).foldl Tally.add {}
                 nan := (f.1 ++ f.2).any fun c => readOl16 c.code == .nan }, s3)
  | _, _, _ => (.ok {}, s)

/-! ### Remote accumulates (R296) -/

/-- Split consecutive elements into requests: a request holds elements of one atom of its source, at most 32. -/
def splitAtoms : (fuel : Nat) → List (Nat × Nat) → List (List (Nat × Nat))
  | 0, _ => []
  | fuel + 1, l =>
    match l with
    | [] => []
    | p :: _ =>
      let run := (l.takeWhile fun q => q.2 / 64 == p.2 / 64).take 32
      run :: splitAtoms fuel (l.drop run.length)

/-- A group of a REMOTE_ACC reads its elements and sends one request per atom of X. -/
def remoteAccGroup (s : State) (v : Via) (k h : Nat) (o : OpRec) (js : List Nat) : Except UErr GroupOut × State :=
  let base := leField o.desc 64 6
  let mode := leField o.desc 70 1 % 4
  match o.x with
  | none =>
    let chunks := splitAtoms (js.length + 1) (js.map fun j => (j, 0))
    (.ok { send := chunks.map fun c =>
        { op := k, sender := h, home := v.home, mode := mode, addr := base + 16 * (c.headD (0, 0)).1
          post := waveLatched s (emberSource 2 h), codes := c.map fun _ => 0x4000 } }, s)
  | some x =>
    let addrs := elemAddrs x js
    match readMany s v false addrs with
    | (.error e, s1) => (.error (.mem e), s1)
    | (.ok bs, s1) =>
      let code := fun j => leNat (bs.getD (j - js.headD 0) [])
      let chunks := splitAtoms (js.length + 1) (List.zipWith (fun j a => (j, a.1)) js addrs)
      (.ok { send := chunks.map fun c =>
          { op := k, sender := h, home := v.home, mode := mode, fmt := x.fmt, bb := x.bb
            post := waveLatched s (emberSource 2 h), addr := base + 16 * (c.headD (0, 0)).1, codes := c.map fun p => code p.1 } }, s1)

/-! ### The group (R292) -/

/-- A SPIN or FOLD, whose parts count columns. -/
def OpRec.columns (o : OpRec) : Bool := o.kind == .spin || o.kind == .fold

/-- Where the next group of a part ends: after up to 128 elements, or within or after a column of a SPIN or FOLD. -/
def OpRec.groupEnd (o : OpRec) (p : Part) : Nat := if o.columns then p.lo + 1 else min p.hi (p.lo + 128)

/-- Groups of 128 elements in a unit of a part: those of a column (log 46). -/
def OpRec.groupsPer (o : OpRec) : Nat :=
  if o.columns then max 1 ((((o.x.map (·.td.d0)).getD 0) + 127) / 128) else 1

/-- The next group of a part is the last of its column. -/
def OpRec.lastGroup (o : OpRec) (p : Part) : Bool := decide (p.sub + 1 ≥ o.groupsPer)

/-- The number of the next group of a part. -/
def OpRec.groupNo (o : OpRec) (p : Part) : Nat := if o.columns then p.lo * o.groupsPer + p.sub else p.lo / 128

/-- A part once its next group is written: none when that was its last. -/
def OpRec.afterGroup (o : OpRec) (p : Part) : Option Part :=
  let q := { p with retried := false, refetched := false, checked := true }
  if !o.lastGroup p then some { q with sub := p.sub + 1 }
  else if o.groupEnd p < p.hi then some { q with lo := o.groupEnd p, sub := 0 }
  else none

/-- What the next group of a part computes. -/
def computeGroup (s : State) (v : Via) (k h : Nat) (o : OpRec) (p : Part) : Except UErr GroupOut × State :=
  let js := (List.range (o.groupEnd p - p.lo)).map (· + p.lo)
  let plain := fun (r : Except UErr PartOut × State) =>
    match r with
    | (.error e, s1) => (Except.error e, s1)
    | (.ok out, s1) => (Except.ok { writes := out.writes, tally := out.tally, nan := decide (out.tally.invalid ≠ 0) }, s1)
  match o.kind, o.y with
  | .remoteAcc, _ => remoteAccGroup s v k h o js
  | .update, some y => updateGroup s v o y js
  | .spin, some y => spinGroup s v o y p.lo p.sub
  | .fold, some y => if o.lastGroup p then foldGroup s v o y p.lo else (.ok {}, s)
  | .convert, some _ => plain (computePart s v o js)
  | .fill, some _ => plain (computePart s v o js)
  | _, _ => (.ok {}, s)

/-- The count check of a part has failed (R300). -/
def expectFailed (s : State) (k h : Nat) (o : OpRec) (bad : Nat × Nat) : State :=
  let data := atByte 16 bad.1 + atByte 22 bad.2 + atByte 24 (leField o.desc 104 2) + atByte 26 h + atByte 28 o.tag
  dcount (localEvent (failOp s k 0x06) (32 + h / 5) (8 * (h % 5) + 3) 0x0303 2 0 data) (Key.hearthExpectFail + h)

/-- R183: a hearth's counts for the operation, kept for its die agent. -/
def OpRec.countAt (o : OpRec) (h : Nat) (d : Tally) : OpRec :=
  { o with tally := tset ({} : Tally) o.tally (h / 5) ((tget ({} : Tally) o.tally (h / 5)).add d) }

/-- Write a group and move its part on. -/
def commitGroup (s : State) (v : Via) (k h : Nat) (o : OpRec) (p : Part) (out : GroupOut) : State :=
  match writeMany s v false out.writes with
  | (some e, s1) => failOp s1 k (errCode e)
  | (none, s1) =>
    let o1 := { o.putPart h (o.afterGroup p) with last := emberSource 2 h }
    let g := tget 0 s1.flt.groups h
    let s2 := { setOp s1 k (some { o1.countAt h out.tally with invalid := o1.invalid || out.nan }) with
      raq := s1.raq ++ out.send
      flt := { s1.flt with groups := tset 0 s1.flt.groups h (g + 1) } }
    finishIfDone s2 k

/-- A proof test of the hearth is due (R377). -/
def hearthProofDue (s : State) (h : Nat) : Bool :=
  dget s Key.proofGroups != 0 && decide (tget 0 s.flt.groups h ≥ dget s Key.proofGroups)

/-- A hearth is held (R379, R403, R501). -/
def hearthHeld (s : State) (h : Nat) : Bool := bitOf s.pw.hearthHold h || s.snap.held.contains (1024 + h) || s.flt.hubFault

/-- The hearth works: it is not held, and its die is not fenced. -/
def hearthRuns (s : State) (h : Nat) : Bool := !hearthHeld s h && !bitOf s.rst.dieFence (h / 5)

/-- HEARTH_GROUP (R292): a hearth finishes the next group of its part of an operation. `hit` is a lane in which a
residue check fails. -/
def hearthGroup (s0 : State) (k h : Nat) (hit : Option Nat) : State :=
  match getOp s0 k with
  | none => s0
  | some o =>
    match o.partOf h with
    | none => s0
    | some p =>
      if dUnit o.desc ≠ 1 || !hearthRuns s0 h || hearthProofDue s0 h then s0
      else
        let v := opVia o (some (h / 5))
        let bad := if o.kind = .update then
            accResidueBad s0 v (leField o.desc 64 6 + 16 * p.lo) (o.groupEnd p - p.lo) else none
        let lane := (hit.or bad).getD 0 % 128
        let gno := o.groupNo p
        match takeHit s0 2 h [.resHearth] ((hit.or bad).map fun _ => .resHearth) with
        | (some (_, inj), s) =>
          let s1 := laneFault s h lane gno (!p.retried) inj
          if p.retried || decide (retiredLanes s1 h > 16) then failOp s1 k 0x01
          else dcount (setOp s1 k (some (o.putPart h (some { p with retried := true })))) (Key.hearthGroupRetry + h)
        | (none, s) =>
          let pre := if o.kind = .update && !p.checked then expectCheck s v o p else (.ok none, s)
          match pre with
          | (.error (.mem .waits), _) => s0
          | (.error (.mem e), s1) => failOp s1 k (errCode e)
          | (.error .misalign, s1) => s1
          | (.ok (some bad), s1) => expectFailed s1 k h o bad
          | (.ok none, s1) =>
            match computeGroup s1 v k h o p with
            | (.error (.mem .waits), _) => s0
            | (.error (.mem e), s2) => failOp s2 k (errCode e)
            | (.error .misalign, s2) =>
              if p.refetched then
                misalignFail s2 k o (0x8100 + h) fun st d =>
                  { st with ev := { st.ev with evq := st.ev.evq ++
                    [{ origin := 33 + h / 5, source := 0x0107, kind := 2, data := d }] } }
              else setOp s2 k (some ((o.putPart h (some { p with refetched := true })).countAt h { misalign := 1 }))
            | (.ok out, s2) =>
              match writesBlocked s2 v out.writes with
              | (true, s3) => s3
              | (false, _) => commitGroup s2 v k h o p out

end Sys2Proof.Machine
end

