-- ==== Sys2Proof/Machine/Sha.lean ====
section
/-!
DEFINITION. SHA-384 of FIPS 180-4, which R305, R438, R473 to R475 and R487 name (log 112).
-/

namespace Sys2Proof.Machine

/-- A word of SHA-384. -/
abbrev ShaWord := BitVec 64

/-- The eight words of the working state, a to h. -/
structure ShaState where
  a : ShaWord
  b : ShaWord
  c : ShaWord
  d : ShaWord
  e : ShaWord
  f : ShaWord
  g : ShaWord
  h : ShaWord
  deriving DecidableEq, Repr

/-- The round constants 0 to 39. -/
def shaK0 : List Nat :=
  [0x428a2f98d728ae22, 0x7137449123ef65cd, 0xb5c0fbcfec4d3b2f, 0xe9b5dba58189dbbc,
   0x3956c25bf348b538, 0x59f111f1b605d019, 0x923f82a4af194f9b, 0xab1c5ed5da6d8118,
   0xd807aa98a3030242, 0x12835b0145706fbe, 0x243185be4ee4b28c, 0x550c7dc3d5ffb4e2,
   0x72be5d74f27b896f, 0x80deb1fe3b1696b1, 0x9bdc06a725c71235, 0xc19bf174cf692694,
   0xe49b69c19ef14ad2, 0xefbe4786384f25e3, 0x0fc19dc68b8cd5b5, 0x240ca1cc77ac9c65,
   0x2de92c6f592b0275, 0x4a7484aa6ea6e483, 0x5cb0a9dcbd41fbd4, 0x76f988da831153b5,
   0x983e5152ee66dfab, 0xa831c66d2db43210, 0xb00327c898fb213f, 0xbf597fc7beef0ee4,
   0xc6e00bf33da88fc2, 0xd5a79147930aa725, 0x06ca6351e003826f, 0x142929670a0e6e70,
   0x27b70a8546d22ffc, 0x2e1b21385c26c926, 0x4d2c6dfc5ac42aed, 0x53380d139d95b3df,
   0x650a73548baf63de, 0x766a0abb3c77b2a8, 0x81c2c92e47edaee6, 0x92722c851482353b]

/-- The round constants 40 to 79. -/
def shaK1 : List Nat :=
  [0xa2bfe8a14cf10364, 0xa81a664bbc423001, 0xc24b8b70d0f89791, 0xc76c51a30654be30,
   0xd192e819d6ef5218, 0xd69906245565a910, 0xf40e35855771202a, 0x106aa07032bbd1b8,
   0x19a4c116b8d2d0c8, 0x1e376c085141ab53, 0x2748774cdf8eeb99, 0x34b0bcb5e19b48a8,
   0x391c0cb3c5c95a63, 0x4ed8aa4ae3418acb, 0x5b9cca4f7763e373, 0x682e6ff3d6b2b8a3,
   0x748f82ee5defb2fc, 0x78a5636f43172f60, 0x84c87814a1f0ab72, 0x8cc702081a6439ec,
   0x90befffa23631e28, 0xa4506cebde82bde9, 0xbef9a3f7b2c67915, 0xc67178f2e372532b,
   0xca273eceea26619c, 0xd186b8c721c0c207, 0xeada7dd6cde0eb1e, 0xf57d4f7fee6ed178,
   0x06f067aa72176fba, 0x0a637dc5a2c898a6, 0x113f9804bef90dae, 0x1b710b35131c471b,
   0x28db77f523047d84, 0x32caab7b40c72493, 0x3c9ebe0a15c9bebc, 0x431d67c49c100d4c,
   0x4cc5d4becb3e42b6, 0x597f299cfc657e2a, 0x5fcb6fab3ad6faec, 0x6c44198c4a475817]

/-- The initial hash value of SHA-384. -/
def shaInit : ShaState :=
  { a := 0xcbbb9d5dc1059ed8, b := 0x629a292a367cd507, c := 0x9159015a3070dd17, d := 0x152fecd8f70e5939,
    e := 0x67332667ffc00b31, f := 0x8eb44a8768581511, g := 0xdb0c2e0d64f98fa7, h := 0x47b5481dbefa4fa4 }

/-- Ch, Maj and the four functions of words. -/
def shaCh (x y z : ShaWord) : ShaWord := (x &&& y) ^^^ (~~~x &&& z)
/-- Maj. -/
def shaMaj (x y z : ShaWord) : ShaWord := (x &&& y) ^^^ (x &&& z) ^^^ (y &&& z)
/-- The upper-case sigma 0. -/
def shaSum0 (x : ShaWord) : ShaWord := x.rotateRight 28 ^^^ x.rotateRight 34 ^^^ x.rotateRight 39
/-- The upper-case sigma 1. -/
def shaSum1 (x : ShaWord) : ShaWord := x.rotateRight 14 ^^^ x.rotateRight 18 ^^^ x.rotateRight 41
/-- The lower-case sigma 0. -/
def shaSig0 (x : ShaWord) : ShaWord := x.rotateRight 1 ^^^ x.rotateRight 8 ^^^ (x >>> 7)
/-- The lower-case sigma 1. -/
def shaSig1 (x : ShaWord) : ShaWord := x.rotateRight 19 ^^^ x.rotateRight 61 ^^^ (x >>> 6)

/-- A round with its constant and schedule word. -/
def shaRound (s : ShaState) (k w : ShaWord) : ShaState :=
  let t1 := s.h + shaSum1 s.e + shaCh s.e s.f s.g + k + w
  let t2 := shaSum0 s.a + shaMaj s.a s.b s.c
  { a := t1 + t2, b := s.a, c := s.b, d := s.c, e := s.d + t1, f := s.e, g := s.f, h := s.g }

/-- The rounds over a list of constants; `w` holds the next sixteen schedule words. -/
def shaRounds : List Nat → List ShaWord → ShaState → ShaState
  | [], _, s => s
  | k :: ks, w, s =>
    let w0 := w.headD 0
    let nw := shaSig1 (w.getD 14 0) + w.getD 9 0 + shaSig0 (w.getD 1 0) + w0
    shaRounds ks (w.drop 1 ++ [nw]) (shaRound s (BitVec.ofNat 64 k) w0)

/-- A 1,024-bit block of sixteen words. -/
def shaBlock (s : ShaState) (w : List ShaWord) : ShaState :=
  let t := shaRounds (shaK0 ++ shaK1) w s
  { a := s.a + t.a, b := s.b + t.b, c := s.c + t.c, d := s.d + t.d, e := s.e + t.e, f := s.f + t.f, g := s.g + t.g, h := s.h + t.h }

/-- The message with its padding: 0x80, zeros, and the length in bits as 16 bytes, big-endian. -/
def shaPad (m : List Byte) : List Byte :=
  m ++ 0x80#8 :: List.replicate ((239 - m.length % 128) % 128) 0 ++ (List.range 16).map fun i => BitVec.ofNat 8 (8 * m.length / 256 ^ (15 - i))

/-- The blocks of a padded message. -/
def shaBlocks : Nat → List Byte → ShaState → ShaState
  | 0, _, s => s
  | n + 1, b, s => shaBlocks n (b.drop 128) (shaBlock s ((List.range 16).map fun i => BitVec.ofNat 64 (beField b (8 * i) 8)))

/-- SHA-384 of a byte string; the number's little-endian bytes are the digest in its order, as every field of the spec holds
it. -/
def sha384 (m : List Byte) : BitVec 384 :=
  let s := shaBlocks ((m.length + 17 + 127) / 128) (shaPad m) shaInit
  BitVec.ofNat 384 (leNat ([s.a, s.b, s.c, s.d, s.e, s.f].flatMap fun x => beBytes 8 x.toNat))

end Sys2Proof.Machine
end

