-- ==== Sys2Proof/Machine/Cord.lean ====
section
/-!
DEFINITION. The Cord's sender and its collectives: paths, channels, retransmission, posting, frames in owner
order, completion and aborts (R314–R332).
-/

namespace Sys2Proof.Machine

/-! ### Reading where frames come from -/

/-- The place of a physical address of HBM (R266). -/
def locOfPhys (a : Nat) : Loc :=
  if a < 640 * channelBytes then .hbm (a / channelBytes / 32) (a / channelBytes % 32) (a % channelBytes)
  else .hearth ((a - 640 * channelBytes) / hearthBytes) ((a - 640 * channelBytes) % hearthBytes)

/-- Read bytes at a physical address, one atom after another, without allocating a line (R280). -/
def physPieces (s : State) : List (Nat × Nat) → Except MemErr (List Byte)
  | [] => .ok []
  | (a, n) :: r =>
    match (atomRead s hubVia false (locOfPhys a) n).1 with
    | .error e => .error e
    | .ok b =>
      match physPieces s r with
      | .error e => .error e
      | .ok bs => .ok (b ++ bs)

/-- Read `n` bytes at a physical address. -/
def physRead (s : State) (a n : Nat) : Except MemErr (List Byte) := physPieces s (piecesOf a n)

/-- Write the pieces of a byte string at physical addresses, in the bypassing way. -/
def physWritePieces (s : State) : List (Nat × Nat) → List Byte → Option MemErr × State
  | [], _ => (none, s)
  | (a, n) :: r, b =>
    let (e1, s1) := atomWrite s hubVia false (locOfPhys a) (b.take n)
    let (e2, s2) := physWritePieces s1 r (b.drop n)
    (e1.or e2, s2)

/-- Write bytes at a physical address. -/
def physWrite (s : State) (a : Nat) (b : List Byte) : Option MemErr × State :=
  physWritePieces s (piecesOf a b.length) b

/-- The physical address of granule j of page p (R338). -/
def granulePhys (p j : Nat) : Nat := p / 1536 * channelBytes + p % 1536 * 2 ^ 21 + 4096 * j

/-- Set bits of a granule mask below j. -/
def maskRank (mask j : Nat) : Nat := countBits mask j

/-- One granule of a frozen page: from its first-touch copy once one exists (R342). -/
def granuleRead (s : State) (p j : Nat) : Except MemErr (List Byte) :=
  match tget none s.ck.pages p with
  | some q =>
    if q.phase = .copied then .ok ((q.copy.drop (4096 * maskRank q.mask j)).take 4096)
    else physRead s (granulePhys p j) 4096
  | none => physRead s (granulePhys p j) 4096

/-- Consecutive granules of a page. -/
def granulesRead (s : State) (p j : Nat) : (n : Nat) → Except MemErr (List Byte)
  | 0 => .ok []
  | n + 1 =>
    match granuleRead s p j with
    | .error e => .error e
    | .ok b =>
      match granulesRead s p (j + 1) n with
      | .error e => .error e
      | .ok bs => .ok (b ++ bs)

/-- The payload of a frame, read now (R319). -/
def readSrc (s : State) : TxSrc → Except MemErr (List Byte) × State
  | .none => (.ok [], s)
  | .elems x home lo n =>
    match readMany s { home := home } false (elemAddrs x ((List.range n).map (· + lo))) with
    | (.error e, s1) => (.error e, s1)
    | (.ok bs, s1) => (.ok bs.flatten, s1)
  | .mem home a n => devRead s { home := home } false a n
  | .page p j n => (granulesRead s p j n, s)
  | .phys a n => (physRead s a n, s)
  | .lit b => (.ok (b ++ List.replicate ((64 - b.length % 64) % 64) 0#8), s)

/-! ### Peers, paths and channels -/

/-- A peer record. -/
def getPeer (s : State) (p : Nat) : Peer := s.cord.peers.getD p {}

/-- The record exists and is `VALID`. -/
def peerValid (s : State) (p : Nat) : Bool := (getPeer s p).valid

/-- The key of a path. -/
def pathKey (peer port : Nat) : Nat := peer * 8 + port

/-- The path is up (R315). -/
def pathUp (s : State) (peer port : Nat) : Bool := s.cord.up.contains (pathKey peer port)

/-- Ports whose path to a peer is up, as a list from P0. -/
def livePorts (s : State) (peer : Nat) : List Nat := (List.range 8).filter (pathUp s peer)

/-- The key of a channel of a path. -/
def chanKey (peer port ch : Nat) : Nat := pathKey peer port * 16 + ch

/-- A channel. -/
def getChan (s : State) (k : Nat) : Chan := tget {} s.cord.chans k

/-- Replace a channel. -/
def setChan (s : State) (k : Nat) (c : Chan) : State :=
  { s with cord := { s.cord with chans := tset {} s.cord.chans k c } }

/-- The MAC address of a Cord port (R310). -/
def portMac (port : Nat) : Nat := Config.baseMac.toNat + port

/-- The TCI of sent frames: `CORD_VLAN` with `CORD_PCP`, none without a VLAN (R310). -/
def sentTag (s : State) : Option Nat :=
  if dget s Key.cordVlan = 0 then none else some (dget s Key.cordVlan + dget s Key.cordPcp * 2 ^ 13)

/-- A port whose transmitters are not idle, in a Cord that is started (R309, R333). -/
def portOpen (s : State) (port : Nat) : Bool := s.cord.started && dget s (Key.cordPortState + port) == 2

/-- The frame on the wire: addresses and tag of R310 and R314, the module's session (R317), `LEN` and CRC-32C (R311). -/
def wireFrame (s : State) (key : Nat) (f : TxFrame) (retx : Bool) (payload : List Byte) : CordFrame :=
  let port := key / 16 % 8
  sealFrame
    { dst := ((getPeer s (key / 128)).mac + port) % 2 ^ 48, src := portMac port, tag := sentTag s
      etherType := dget s Key.cordEthertype, chan := key % 16, retx := retx, job := f.job, srcRank := f.srcRank
      dstRank := f.dstRank, group := f.group, session := dget s Key.cordSession, seq := f.seq, arg := f.arg, elem := f.elem
      code := f.code, coll := f.coll, payload := payload } f.type

/-- Send a frame on a channel of a path. -/
def sendFrame (s : State) (key : Nat) (f : TxFrame) (retx : Bool) (payload : List Byte) : State :=
  let port := key / 16 % 8
  if !portOpen s port then s
  else
    let up := fun (t : Tab Nat) => tset 0 t port (tget 0 t port + 1)
    sendOut { s with cord := { s.cord with
      portTx := up s.cord.portTx, portRetx := if retx then up s.cord.portRetx else s.cord.portRetx } }
      (.cord (key / 128) port f.type (wireFrame s key f retx payload))

/-- Send an unsequenced frame. -/
def sendPlain (s : State) (peer port ch : Nat) (f : TxFrame) : State := sendFrame s (chanKey peer port ch) f false
  (match f.src with | .lit b => b | .none => [] | .elems _ _ _ _ => [] | .mem _ _ _ => [] | .page _ _ _ => [] | .phys _ _ => [])

/-- Queue a sequenced frame on a channel. -/
def enqueue (s : State) (key : Nat) (f : TxFrame) : State :=
  let c := getChan s key
  setChan s key { c with queue := c.queue ++ [f] }

/-- Send waiting frames of a channel while its window allows (R319); frames whose source cannot be read are
dropped and answered, each with its error. A source that waits stops the channel. -/
def drainChan (key : Nat) : (fuel : Nat) → State → State × List (TxFrame × MemErr)
  | 0, s => (s, [])
  | fuel + 1, s =>
    let c := getChan s key
    match c.queue with
    | [] => (s, [])
    | f :: rest =>
      if c.unacked.length ≥ dget s Key.cordWindow || c.rnr.isSome then (s, [])
      else
        match readSrc s f.src with
        | (.error .waits, _) => (s, [])
        | (.error e, s1) =>
          let (s2, bad) := drainChan key fuel (setChan s1 key { c with queue := rest })
          (s2, (f, e) :: bad)
        | (.ok b, s1) =>
          let g := { f with seq := c.nextSeq }
          let s2 := setChan s1 key
            { c with queue := rest, nextSeq := (c.nextSeq + 1) % 2 ^ 32, unacked := c.unacked ++ [g] }
          drainChan key fuel (sendFrame s2 key g false b)

/-- Drain every channel once. -/
def drainAll (s : State) : State × List (TxFrame × MemErr) :=
  (s.cord.chans.map (·.1)).foldl (fun acc k =>
    let (s1, bad) := drainChan k ((getChan acc.1 k).queue.length + 1) acc.1
    (s1, acc.2 ++ bad)) (s, [])

/-! ### Collectives -/

/-- Replace the collective of a posting number. -/
def setColl (s : State) (c : Coll) : State :=
  { s with cord := { s.cord with posted := s.cord.posted.map fun d => if d.post = c.post then c else d } }

/-- A collective by its posting number. -/
def getColl (s : State) (post : Nat) : Option Coll := s.cord.posted.find? (fun c => c.post == post)

/-- Take a collective off the posted table. -/
def dropColl (s : State) (post : Nat) : State :=
  { s with cord := { s.cord with posted := s.cord.posted.filter fun c => c.post != post } }

/-- The (group, collective) a received frame belongs to (R311, R313). -/
def collOf (s : State) (f : CordFrame) : Option Coll :=
  s.cord.posted.find? fun c => c.jobId == f.job && c.group == f.group && c.coll == f.coll && c.myRank == f.dstRank

/-- Bytes of one shard. -/
def Coll.bytes (c : Coll) : Nat := if c.gather then c.shard else c.shard * c.x.fmt.bytes

/-- The header fields a frame of a collective carries towards rank r. -/
def Coll.header (c : Coll) (type r : Nat) : TxFrame :=
  { type := type, job := c.jobId, srcRank := c.myRank, dstRank := r, group := c.group, coll := c.coll }

/-- The bytes of the payload limit (R335). -/
def payloadLimit (s : State) : Nat := if dget s Key.cordPayload = 0 then 4096 else 1408

/-- R324: the frames of the shard for rank r (for GATHER_ALL, of the module's own shard), each with its channel. -/
def collFrames (s : State) (c : Coll) (r : Nat) : List (Nat × TxFrame) :=
  let ports := (List.range 8).filter (bitOf (c.ports.getD r 0))
  let h := ports.length
  let lim := payloadLimit s
  let total := c.bytes
  (List.range ((total + 4095) / 4096)).flatMap fun g =>
    let size := min 4096 (total - 4096 * g)
    let port := ports.getD ((g + c.myRank) % h) 0
    (List.range ((size + lim - 1) / lim)).map fun i =>
      let o := 4096 * g + lim * i
      let n := min lim (size - lim * i)
      let f := if c.gather then
          { c.header 2 r with elem := o / 64, src := .mem c.home (c.x.td.base + o) n, post := some c.post }
        else
          { c.header 1 r with
            elem := o / c.x.fmt.bytes, code := c.x.fmt.code, post := some c.post
            src := .elems c.x c.home (r * c.shard + o / c.x.fmt.bytes) (n / c.x.fmt.bytes) }
      (chanKey (c.peers.getD r 0) port c.chan, f)

/-- The module's own contributions of a RED_SCATTER (R324 step 1) or its own copy of a GATHER_ALL (R326 step 1),
as far as memory lets it go; an error ends the collective. -/
def ownShard (post : Nat) : (fuel : Nat) → State → Except MemErr Unit × State
  | 0, s => (.ok (), s)
  | fuel + 1, s =>
    match getColl s post with
    | none => (.ok (), s)
    | some c =>
      if c.aborted.isSome || decide (c.ownNext ≥ c.shard) then (.ok (), s)
      else if c.gather then
        let n := min 4096 (c.shard - c.ownNext)
        let src := c.x.td.base + c.ownNext
        let dst := c.yBase + c.myRank * c.shard + c.ownNext
        if src = dst then (.ok (), setColl s { c with ownNext := c.shard })
        else
          match devRead s { home := c.home } false src n with
          | (.error .waits, _) => (.ok (), s)
          | (.error e, s1) => (.error e, s1)
          | (.ok b, s1) =>
            match devWrite s1 { home := c.home } false dst b with
            | (some .waits, s2) => (.ok (), s2)
            | (some e, s2) => (.error e, s2)
            | (none, s2) => ownShard post fuel (setColl s2 { c with ownNext := c.ownNext + n })
      else
        let n := min 128 (c.shard - c.ownNext)
        let js := (List.range n).map (· + c.myRank * c.shard + c.ownNext)
        let addrs := elemAddrs c.x js
        match readMany s { home := c.home } false addrs with
        | (.error .waits, _) => (.ok (), s)
        | (.error e, s1) => (.error e, s1)
        | (.ok bs, s1) =>
          let code := fun j => leNat (bs.getD (j - js.headD 0) [])
          let chunks := splitAtoms (n + 1) (List.zipWith (fun j a => (j, a.1)) js addrs)
          let reqs := chunks.map fun ch =>
            ({ op := c.op, sender := 1000, post := waveLatched s hubSource, home := c.home, fmt := c.x.fmt, bb := c.x.bb
               addr := c.accBase + 16 * ((ch.headD (0, 0)).1 - c.myRank * c.shard), codes := ch.map fun p => code p.1 } : RaReq)
          ownShard post fuel (setColl { s1 with raq := s1.raq ++ reqs } { c with ownNext := c.ownNext + n })

/-- Frames of a collective still waiting to be sent. -/
def collWaiting (s : State) (post : Nat) : Bool := s.cord.chans.any fun e => e.2.queue.any (fun f => f.post == some post)

/-- Frames of a collective sent and not acknowledged. -/
def collUnacked (s : State) (post : Nat) : Bool := s.cord.chans.any fun e => e.2.unacked.any (fun f => f.post == some post)

/-- Ranks other than the module's own. -/
def Coll.others (c : Coll) : List Nat := (List.range c.members).filter (· != c.myRank)

/-- R325, R326: everything is sent, acknowledged, applied and received. -/
def collDone (s : State) (c : Coll) : Bool :=
  c.aborted.isNone && decide (c.ownNext ≥ c.shard) && c.owners.isEmpty && !collWaiting s c.post && !collUnacked s c.post
    && !s.raq.any (fun r => r.op == c.op && r.sender == 1000)
    && c.others.all fun r => decide (tget 0 c.got r ≥ c.shard)

/-- Finish the operation of a collective that is done, and take it off the table (R325). -/
def collCheck (s : State) (post : Nat) : State :=
  match getColl s post with
  | none => s
  | some c =>
    if collDone s c then
      match getOp s c.op with
      | none => dropColl s post
      | some o => dropColl (setOp s c.op (some { o with finished := true })) post
    else s

/-- The `CODE` of an abort reason (R330). -/
def abortCode (reason : Nat) : Nat := if reason = 5 then 0x05 else if reason = 9 then 0x07 else 0x06

/-- COLLECTIVE_ABORT (R330): stop sending, send ABORT to the members unless one was received, raise the event with group,
`COLL`, reason and the rank concerned (the module's own unless another is given), and complete the operation with its code; a
host reset leaves that to the quench. -/
def collAbort (s : State) (post reason : Nat) (rank : Option Nat := none) : State :=
  match getColl s post with
  | none => s
  | some c =>
    if c.aborted.isSome then s
    else
      let stop := fun (ch : Chan) => { ch with queue := ch.queue.filter fun f => f.post != some post }
      let chans := (s.cord.chans.map fun e => (e.1, stop e.2)).filter fun e => e.2 != {}
      let s1 := setColl { s with cord := { s.cord with chans := chans } }
        { c with aborted := some reason, owners := [], queued := false, ownNext := c.shard }
      let s2 := if reason = 7 then s1
        else c.others.foldl (fun st r =>
          (livePorts st (c.peers.getD r 0)).foldl (fun st1 port =>
            sendPlain st1 (c.peers.getD r 0) port c.chan { c.header 0xC r with code := reason }) st) s1
      let s3 := dcount (hubNotice s2 0x0402 [c.group, c.coll, reason, rank.getD c.myRank]) Key.cordAborts
      if reason = 8 then s3 else failOp s3 c.op (abortCode reason)

/-- The abort reason of a source that cannot be read (R330). -/
def readReason (e : MemErr) : Nat := if e = .ash then 5 else 9

/-- The source of a frame cannot be read again: its collective aborts, or its stream is to answer (R330, R344, R357). -/
def sourceFailed (s : State) (f : TxFrame) (e : MemErr) : State :=
  match f.post with
  | some p => collAbort s p (readReason e)
  | none => { s with cord := { s.cord with broken := s.cord.broken ++ [f] } }

/-- Resend frames of a channel (R321). One whose source must wait stops the channel, which is taken up again as after a
NAK BUSY; one whose source cannot be read any more goes with no payload, so that the channel moves on (log 48). -/
def resendFrames (key : Nat) : List TxFrame → State → State
  | [], s => s
  | f :: rest, s =>
    let send := fun (st : State) b =>
      sendFrame (dset st Key.cordRetx (satAdd (2 ^ 64 - 1) (dget st Key.cordRetx) 1)) key f true b
    match readSrc s f.src with
    | (.error .waits, _) => setChan s key { getChan s key with rnr := some f.seq }
    | (.error e, s1) => resendFrames key rest (send (sourceFailed s1 f e) [])
    | (.ok b, s1) => resendFrames key rest (send s1 b)

/-- Resend the unacknowledged frames of a channel from a sequence onward (R321). -/
def resend (s : State) (key from_ : Nat) : State :=
  resendFrames key ((getChan s key).unacked.filter fun f => decide ((f.seq + 2 ^ 32 - from_ % 2 ^ 32) % 2 ^ 32 < 2 ^ 31)) s

/-- The next owner's frames are queued once every frame of the one before has been sent (R324). -/
def collStep (s : State) (post : Nat) : State :=
  match getColl s post with
  | none => s
  | some c =>
    if c.aborted.isSome || decide (c.ownNext < c.shard) || collWaiting s post then s
    else
      match c.owners with
      | [] => s
      | r :: rest =>
        if c.queued then setColl s { c with owners := rest, queued := false }
        else if c.ports.getD r 0 = 0 then collAbort s post 3 r
        else
          let s1 := (collFrames s c r).foldl (fun st p => enqueue st p.1 p.2) s
          setColl s1 { c with queued := true }

/-- One round: own shards, the next owners, and the channels. -/
def pumpOnce (s : State) : State :=
  let posts := s.cord.posted.map (·.post)
  let s1 := posts.foldl (fun st p =>
    match ownShard p (((getColl st p).map (·.shard)).getD 0 + 1) st with
    | (.ok _, st1) => collStep st1 p
    | (.error e, st1) => collAbort st1 p (readReason e)) s
  let (s2, bad) := drainAll s1
  bad.foldl (fun st f => sourceFailed st f.1 f.2) s2

/-- Rounds enough for every owner of every posted collective. -/
def pumpFuel (s : State) : Nat := 2 * (s.cord.posted.map fun c => c.owners.length).sum + 2

/-- Send all that may be sent now. -/
def pumpRounds : (fuel : Nat) → State → State
  | 0, s => s
  | fuel + 1, s => pumpRounds fuel (pumpOnce s)

/-- Every collective that is done completes. -/
def collCheckAll (s : State) : State := (s.cord.posted.map (·.post)).foldl collCheck s

/-- Post a collective at its ISSUE (R327). -/
def postColl (s : State) (c : Coll) : State :=
  { s with cord := { s.cord with posted := s.cord.posted ++ [{ c with post := s.cord.nextPost }]
                                 nextPost := s.cord.nextPost + 1 } }

/-- R324: the owner order of a rank. -/
def ownerOrder (members me : Nat) : List Nat := (List.range (members - 1)).map fun i => (me + 1 + i) % members

/-! ### Losing paths and peers (R315–R317) -/

/-- Forget the channels of a path (R317). -/
def clearPath (s : State) (peer port : Nat) : State :=
  { s with cord := { s.cord with chans := s.cord.chans.filter fun e => e.1 / 16 != pathKey peer port } }

/-- A channel of a path that is lost: its sequences and the frames not acknowledged stay as they are within the session
(R317, R318; log 126); its count of go-backs and its wait begin anew. -/
def idleChan (c : Chan) : Chan := { c with goBacks := 0, rnr := none, gapSent := false }

/-- The channels of a path that is lost; their frames are not moved to another (R334). -/
def idlePath (s : State) (peer port : Nat) : State :=
  { s with cord := { s.cord with chans :=
      (s.cord.chans.map fun e => (e.1, if e.1 / 16 = pathKey peer port then idleChan e.2 else e.2)).filter fun e => e.2 != {} } }

/-- R334: the frames pending toward a peer are dropped. -/
def dropPending (s : State) (peer : Nat) : State :=
  { s with cord := { s.cord with chans :=
      (s.cord.chans.map fun e =>
        (e.1, if e.1 / 128 = peer then { idleChan e.2 with queue := [], unacked := [] } else e.2)).filter fun e => e.2 != {} } }

/-- The collectives not yet aborted that include a peer. -/
def collsWith (s : State) (peer : Nat) : List Nat :=
  (s.cord.posted.filter fun c => c.aborted.isNone && c.others.any (fun r => c.peers.getD r 0 == peer)).map (·.post)

/-- The collectives that use a path (R316). -/
def collsOn (s : State) (peer port : Nat) : List Nat :=
  (s.cord.posted.filter fun c => c.aborted.isNone &&
    c.others.any (fun r => c.peers.getD r 0 == peer && bitOf (c.ports.getD r 0) port)).map (·.post)

/-- The rank of a peer in a collective. -/
def collRank (s : State) (post peer : Nat) : Option Nat :=
  (getColl s post).bind fun c => c.others.find? fun r => c.peers.getD r 0 == peer

/-- The event of a path or peer lost or up (R315). -/
def pathEvent (s : State) : State := hubEvent s 0x0400

/-- A path is lost (R315, R316); `reason` is the abort reason of the collectives that use it. -/
def losePath (s : State) (peer port reason : Nat) : State :=
  if !pathUp s peer port then s
  else
    let users := collsOn s peer port
    let s1 := { s with cord := { s.cord with up := sremove (pathKey peer port) s.cord.up } }
    let s2 := users.foldl (fun st p => collAbort st p reason (collRank st p peer)) s1
    let s3 := pathEvent (idlePath s2 peer port)
    if livePorts s3 peer = [] then
      let s4 := (collsWith s3 peer).foldl (fun st p => collAbort st p 3 (collRank st p peer)) s3
      pathEvent { s4 with cord := { s4.cord with peerHeat := sremove peer s4.cord.peerHeat } }
    else s3

/-- Every path of a peer is lost. -/
def losePeer (s : State) (peer reason : Nat) : State := (livePorts s peer).foldl (fun st p => losePath st peer p reason) s

/-- R317: a new session of a known peer: its channels are forgotten and its collectives abort. -/
def newSession (s : State) (peer session : Nat) : State :=
  let s1 := (collsWith s peer).foldl (fun st p => collAbort st p 6 (collRank st p peer)) s
  let s2 := (List.range 8).foldl (fun st p => clearPath st peer p) s1
  { s2 with cord := { s2.cord with
      oldSess := tset [] s2.cord.oldSess peer (tget 0 s2.cord.peerSess peer :: tget [] s2.cord.oldSess peer)
      peerSess := tset 0 s2.cord.peerSess peer session
      peerHeat := sremove peer s2.cord.peerHeat } }

/-! ### Remote accumulate requests (R295, R297) -/

/-- The owning hearth of a remote accumulate request. -/
def raOwner (s : State) (r : RaReq) : Nat := (ownerOf s r.via r.addr).getD (r.sender % 20)

/-- A request that has arrived earlier, or one of the same sender, must reach an atom of this one first (R30, R282). -/
def raBehind (s : State) (i : Nat) (r : RaReq) : Bool :=
  let atoms := atomsOf s.mem r.via r.addr (16 * r.codes.length)
  (s.raq.take i).any (fun q => (q.sender == r.sender || q.arrived) && q.touches s.mem atoms)
    || (!r.arrived && (s.mem.reqs.any (fun q => q.arrived && q.touches s.mem atoms)
      || s.mem.holdq.any (fun p => p.2.touches s.mem atoms)))

/-- The request at position i, when it may reach its owning hearth and the hearth runs (R30, R32, R282, R307). -/
def raReady (s : State) (i : Nat) : Option RaReq :=
  match s.raq[i]? with
  | none => none
  | some r =>
    if raBehind s i r || waveBehind s r.post (emberSource 2 (raOwner s r)) || hearthHeld s (raOwner s r) then none
    else some r

/-- A request has ended: its operation, or its collective, goes on, finishes or fails (R296, R297, R330). -/
def raEnded (s : State) (r : RaReq) (code : Nat) : State :=
  if r.sender = 1000 then
    match s.cord.posted.find? (fun c => c.op == r.op) with
    | none => s
    | some c => if code = 0 then collCheck s c.post else collAbort s c.post (if code = 0x05 then 5 else 9)
  else if code = 0 then finishIfDone s r.op
  else failOp s r.op code

/-- REMOTE_ACC_REQUEST (R295): the request at position i reaches its owning hearth. `hit` is a lane in which a
residue check fails. -/
def remoteAccRequest (s0 : State) (i : Nat) (hit : Option Nat) : State :=
  match raReady s0 i with
  | none => s0
  | some r =>
    let h := raOwner s0 r
    let lane := hit.or (if r.mode = 0 then accResidueBad s0 r.via r.addr r.codes.length else none)
    match takeHit s0 2 h [.resHearth] (lane.map fun _ => .resHearth) with
    | (some (_, inj), s) =>
      let s1 := laneFault s h (lane.getD 0 % 128) 0 (!r.retried) inj
      if r.retried || decide (retiredLanes s1 h > 16) then raEnded { s1 with raq := dropAt i s1.raq } r 0x01
      else dcount { s1 with raq := modAt (fun q => { q with retried := true }) i s1.raq } (Key.hearthGroupRetry + h)
    | (none, s) =>
      match applyRa s r.via r.mode r.addr r.vals with
      | (.waits, s1) => { s1 with raq := modAt (fun q => { q with arrived := true }) i s1.raq }
      | (.ended code, s1) => raEnded { s1 with raq := dropAt i s1.raq } r code

end Sys2Proof.Machine
end

