-- ==== Sys2Proof/Machine/Issue.lean ====
section
/-!
DEFINITION. ISSUE (R225, R226): fetching an operation's descriptors, validating them (R236), and issuing the
operation: reading its slot, tensors and generators (R37, R129, R188, R200), and giving its tiles, parts or
collective to their units (R230, R293, R327).
-/

namespace Sys2Proof.Machine

/-! ### Fetching (R225) -/

/-- Go on with what was read, or end with the error. -/
def readThen {α β : Type} (r : Except MemErr α × State) (f : α → State → Except MemErr β × State) :
    Except MemErr β × State :=
  match r with
  | (.error e, s) => (.error e, s)
  | (.ok a, s) => f a s

/-- R200, R220: the bias that a tensor takes from its slot, where the descriptor takes one as R236 allows. -/
def fetchObias (s : State) (v : Via) (d : JobDesc) (t : TD) : Except MemErr (Option Int) × State :=
  if t.biasFromSlot && t.fmt == 0x0A && decide (t.biasSlot < d.slotCount) then
    readThen (devRead s v false (d.slotTable + 64 * t.biasSlot) 64) fun b s1 => (.ok (some (slotObias b)), s1)
  else (.ok none, s)

/-- Fetch a tensor descriptor; a null or misaligned one is not read (log 49). -/
def fetchTD (s : State) (v : Via) (d : JobDesc) (addr : Nat) : Except MemErr TDRef × State :=
  if addr = 0 ∨ addr % 32 ≠ 0 then (.ok { addr := addr }, s)
  else
    readThen (devRead s v false addr 32) fun b s1 =>
      readThen (fetchObias s1 v d (parseTD b)) fun o s2 => (.ok { addr := addr, td := some (parseTD b), obias := o }, s2)

/-- Fetch several. -/
def fetchTDs (s : State) (v : Via) (d : JobDesc) : List Nat → Except MemErr (List TDRef) × State
  | [] => (.ok [], s)
  | a :: r =>
    readThen (fetchTD s v d a) fun t s1 => readThen (fetchTDs s1 v d r) fun ts s2 => (.ok (t :: ts), s2)

/-- The spun-copy table's addresses (R223). -/
def fetchSpun (s : State) (v : Via) (d : JobDesc) (addr : Nat) : Except MemErr (List TDRef) × State :=
  if addr = 0 ∨ addr % 64 ≠ 0 then (.ok [], s)
  else
    readThen (devRead s v false addr 48) fun b s1 => fetchTDs s1 v d ((List.range 6).map fun r => leField b (8 * r) 8)

/-- The slot an operation names, its default ladder written first when it has none (R186, R188). -/
def fetchSlot (s : State) (v : Via) (d : JobDesc) (desc : List Byte) : Except MemErr (Option (List Byte)) × State :=
  let n := leField desc 2 2
  if !dSlotValid desc || decide (n ≥ d.slotCount) then (.ok none, s)
  else
    let addr := d.slotTable + 64 * n
    readThen (devRead s v false addr 64) fun b s1 => readThen (fillSlot s1 addr b) fun b1 s2 => (.ok (some b1), s2)

/-- R322: the group a collective names; none when it is rejected with GROUP. -/
def fetchGroup (s : State) (d : JobDesc) (desc : List Byte) : Except MemErr (Option GroupInfo) × State :=
  let g := leField desc 64 2
  if g ≥ d.groupCount then (.ok none, s)
  else
    readThen (devRead s hubVia false (d.groupTable + 32 * g) 32) fun b s1 =>
      let m := leField b 4 2
      let me := leField b 6 2
      if me ≥ m then (.ok none, s1)
      else
        readThen (devRead s1 hubVia false (leField b 8 8) (2 * m)) fun l s2 =>
          let peers := (List.range m).map fun r => leField l (2 * r) 2
          let ok := (List.range m).all fun r => r == me || peerValid s2 (peers.getD r 0)
          (.ok (if ok then some { jobId := leField b 0 4, members := m, myRank := me, peers := peers } else none), s2)

/-- The address of the fourth tensor's descriptor. -/
def zAddr (k : Option Kind) (desc : List Byte) : Nat :=
  match k with
  | some .vec => leField desc 72 8
  | some .update => leField desc 72 8
  | some .fold => leField desc 64 8
  | _ => 0

/-- All that ISSUE fetches. -/
def fetchIssue (s : State) (v : Via) (d : JobDesc) (addr : Nat) : Except MemErr IssueIn × State :=
  readThen (devRead s v false addr 128) fun b s1 =>
    let k := Kind.ofCode (leField b 0 1)
    let m2 := if k = some .update then leField b 80 8 else 0
    readThen (fetchTDs s1 v d [leField b 16 8, leField b 24 8, leField b 32 8, zAddr k b, m2]) fun ts s2 =>
      readThen (fetchSpun s2 v d (leField b 48 8)) fun sp s3 =>
        readThen (fetchSlot s3 v d b) fun sl s4 =>
          readThen (if k = some .redScatter ∨ k = some .gatherAll then fetchGroup s4 d b else (.ok none, s4)) fun g s5 =>
            (.ok { addr := addr, desc := b, kind := k, x := ts.getD 0 {}, w := ts.getD 1 {}, y := ts.getD 2 {}
                   z := ts.getD 3 {}, m2 := ts.getD 4 {}, spunAddr := leField b 48 8, spun := sp, slotB := sl
                   group := g }, s5)

/-! ### Reading what the operation keeps -/

/-- A tensor as the operation uses it: bias or zero point of its descriptor, or the slot's `OBIAS` (R75, R200,
R220). -/
def TDRef.tensor (r : TDRef) : Option Tensor :=
  r.td.map fun t =>
    let fmt := t.format.getD .ol16
    { td := t, fmt := fmt
      bb := if fmt == .ol8 then r.obias.getD (signedOf 16 t.bias) else 0
      z := if t.zp then signedOf 8 t.bias else 0 }

/-- Who issues an operation: its sequencer, tag, queue entry, job, home and die, the number of its unit's
generators (core, or 256 + hearth), and whether the storm has reached it. -/
structure Issuer where
  seq : Nat
  tag : Nat
  queue : Nat := 0
  entry : Nat := 0
  evtSrc : Nat := 0x1000
  job : Nat
  home : Option Nat
  die : Option Nat
  unit : Nat
  storm : Bool
  deriving DecidableEq, Repr

/-- The kinds a storm's DISCARD keeps from writing (R197). -/
def Kind.discards : Kind → Bool
  | .update | .spin | .fold => true
  | .matmul | .conv | .vec | .reduce | .gather | .scatter | .convert | .fill | .genSet | .remoteAcc | .redScatter
  | .gatherAll => false

/-- Elements of rounding site j (R129): FOLD's second site is its error-feedback buffer. -/
def siteElems (k : Kind) (y z : Option Tensor) (j : Nat) : Nat :=
  (((if k = .fold && j == 1 then z else y).map (·.td.count))).getD 0

/-- The record of an operation, before its sites are read. A storm's DISCARD takes the updates and folds of every job
(log 138). -/
def opRecord (s : State) (w : Issuer) (i : IssueIn) (k : Kind) (ts sp : List (Option Tensor)) : OpRec :=
  let d := i.desc
  let sb := i.slotB.getD []
  let slot := if dSlotValid d then some (leField d 2 2) else none
  { seq := w.seq, tag := w.tag, queue := w.queue, entry := w.entry, evtSrc := w.evtSrc, kind := k, desc := d, job := w.job
    x := ts.getD 0 none, w := ts.getD 1 none, y := ts.getD 2 none, z := ts.getD 3 none
    extra := if k = .update then [ts.getD 4 none] else [], spun := sp
    slot := slot, slotBytes := sb, rung := if slot.isSome then slotRungNow sb w.storm else 0
    home := w.home, die := w.die
    e4m3Nan := dget s Key.e4m3OvfMode == 1, e5m2Inf := dget s Key.e5m2OvfMode == 1
    slubMargin := dget s Key.slubMargin, stopOnInvalid := dget s Key.stopOnInvalid == 1
    tolLog := dget s Key.chkTolLog, tolLin := dget s Key.chkTolLin
    fine := bitOf (leField d 1 1) 2 || (bitOf (leField d 1 1) 1 && bitOf (leField sb 14 1) 6)
    storm := w.storm, discard := s.storm.active && s.storm.discard && k.discards }

/-- R128, R129: read and advance the generators of an operation's sites. -/
def readSites (s : State) (unit : Nat) (o : OpRec) : List (Option Gen) × State :=
  if !dStoch o.desc then ([], s)
  else
    (List.range 4).foldl (fun acc j =>
      if dSiteValid o.desc j then
        let key := unit * 16 + dSite o.desc j % 16
        let g := tget ({} : Gen) acc.2.gens key
        (acc.1 ++ [some g],
          { acc.2 with gens := tset ({} : Gen) acc.2.gens key (g.advance (siteElems o.kind o.y o.z j)) })
      else (acc.1 ++ [none], acc.2)) ([], s)

/-- R378: the operation names a generator that failed its proof test. -/
def namesBadGen (s : State) (unit : Nat) (o : OpRec) : Bool :=
  (List.range 4).any fun j => dSiteValid o.desc j && s.flt.badGen.contains (unit * 16 + dSite o.desc j % 16)

/-! ### Giving the work to its units -/

/-- Engines of a cores range. -/
def OpRec.engines (o : OpRec) : List Nat := (List.range (dEngCount o.desc)).map (· + dEngBase o.desc)

/-- Cores that hold the range's engines (R230), rising. -/
def OpRec.cores (o : OpRec) : List Nat := o.engines.foldl (fun l e => if l.contains (e / 4) then l else l ++ [e / 4]) []

/-- Hearths of the mask. -/
def OpRec.hearths (o : OpRec) : List Nat := (List.range 20).filter (bitOf (dHearthMask o.desc))

/-- The core is quenched, or its die is (R459). -/
def coreQuenched (s : State) (c : Nat) : Bool := (getSeq s c).fenced || bitOf s.rst.dieFence (c / 64)

/-- R230, R376, R461: the engine a tile is given to. -/
def tileEngine (s : State) (o : OpRec) (t : Nat) : Option Nat :=
  let first := dEngBase o.desc + t % dEngCount o.desc
  if engLive s first then some first
  else
    let live := o.engines.filter (engLive s)
    live[t % live.length]?

/-- Give the tiles of a MATMUL or CONV to their engines. -/
def giveTiles (s : State) (k : Nat) (o : OpRec) : State :=
  (List.range o.tiles).foldl (fun st t =>
    match tileEngine st o t with
    | none => failOp st k (if o.engines.all (fun e => (getEng st e).retired) then 0x01 else 0x05)
    | some e => setEng st e { getEng st e with todo := (getEng st e).todo ++ [(k, t)] }) s

/-- R230: contiguous shares of Y among cores; a SCATTER runs on its first core. How the shares are cut is the
model's (log 50). -/
def coreParts (o : OpRec) (cs : List Nat) : List Part :=
  if o.kind = .scatter then (cs.take 1).map fun c => { unit := c, lo := 0, hi := 1 }
  else
    let n := (o.y.map (·.td.count)).getD 0
    (List.range cs.length).filterMap fun i =>
      let sh := hearthShare n cs.length i
      if sh.1 < sh.2 then some { unit := cs.getD i 0, lo := sh.1, hi := sh.2 } else none

/-- Set an operation's parts; without any it has finished. -/
def giveParts (s : State) (k : Nat) (o : OpRec) (ps : List Part) : State :=
  setOp s k (some { o with
    parts := ps, finished := ps.isEmpty, code := if ps.isEmpty && o.discard then 0x04 else o.code })

/-- GEN_SET (R232): load generators of each unit given from a table. -/
def loadGens (s : State) (mask : Nat) (tab : List Byte) (units : List Nat) : State :=
  let gs := (List.range 16).filter (bitOf mask)
  let gen := fun (i : Nat) => ({ key := leField tab (24 * i) 8, ctr := leField tab (24 * i + 8) 16 } : Gen)
  units.foldl (fun st u =>
    (List.range gs.length).foldl (fun st1 i =>
      { st1 with gens := tset ({} : Gen) st1.gens (u * 16 + gs.getD i 0) (gen i) }) st) s

/-- The units a GEN_SET names. -/
def OpRec.genUnits (o : OpRec) : List Nat := if dUnit o.desc = 0 then o.cores else o.hearths.map (· + 256)

/-- GEN_SET's effect; an error of its table ends the operation. None: the table must wait. -/
def genSetOp (s : State) (v : Via) (k : Nat) (o : OpRec) : Option State :=
  let mask := leField o.desc 72 2
  match devRead s v false (leField o.desc 64 8) (24 * countBits mask 16) with
  | (.error .waits, _) => none
  | (.error e, s1) => some (failOp s1 k (errCode e))
  | (.ok b, s1) => some (setOp (loadGens s1 mask b o.genUnits) k (some { o with finished := true }))

/-- The collective of an operation (R323, R326, R327), posted with the ports live now (R316). -/
def collRecord (s : State) (k : Nat) (o : OpRec) (g : GroupInfo) (x : Tensor) : Coll :=
  let d := o.desc
  { post := 0, op := k, home := o.home, job := o.job, jobId := g.jobId, group := leField d 64 2, coll := leField d 66 2
    gather := o.kind = .gatherAll, chan := leField d 68 1 % 16, members := g.members, myRank := g.myRank, peers := g.peers
    ports := (List.range g.members).map fun r =>
      (livePorts s (g.peers.getD r 0)).foldl (fun m p => m + 2 ^ p) 0
    x := x, yBase := (o.y.map (·.td.base)).getD 0, accBase := leField d 72 6
    shard := if o.kind = .gatherAll then x.td.bytes else leField d 80 4
    owners := ownerOrder g.members g.myRank }

/-- Give an issued operation to its units. None: it must wait. -/
def giveOp (s : State) (v : Via) (k : Nat) (o : OpRec) (unit : Nat) (g : Option GroupInfo) : Option State :=
  let s0 := setOp s k (some o)
  if namesBadGen s unit o then some (failOp s0 k 0x01)
  else match dUnit o.desc with
  | 0 =>
    if o.kind = .genSet then genSetOp s0 v k o
    else if o.kind = .matmul ∨ o.kind = .conv then
      some (giveTiles (setOp s0 k (some { o with tilesLeft := o.tiles, finished := o.tiles == 0 })) k o)
    else
      let cs := o.cores.filter fun c => !coreQuenched s c
      some (if cs.isEmpty then failOp s0 k 0x05 else giveParts s0 k o (coreParts o cs))
  | 1 =>
    let hs := o.hearths
    if hs.any (fun h => bitOf s.rst.dieFence (h / 5)) then some (failOp s0 k 0x05)
    else if hs.any (fun h => decide (retiredLanes s h > 16)) then some (failOp s0 k 0x01)
    else if o.kind = .genSet then genSetOp s0 v k o
    else some (giveParts s0 k o (o.hearthParts hs))
  | _ =>
    match g, o.x with
    | some g, some x => some (postColl s0 (collRecord s k o g x))
    | _, _ => some s0

/-- R184, R189, R527: a slot is named: on each core of the range, and among the job's active slots. -/
def nameOpSlot (s : State) (o : OpRec) : State :=
  match o.slot with
  | none => s
  | some sl =>
    let s1 := if dUnit o.desc = 0 then o.cores.foldl (fun st c => nameSlot st c o.job sl) s else s
    let j := getJob s1 o.job
    setJob s1 o.job { j with active := sinsert sl j.active, stepSeq := some (j.stepSeq.getD s1.ev.seq) }

/-- How an issue ends: it waits, it is rejected with an error word, a fetch fails, or it is issued. -/
inductive IssueEnd where
  | waits
  | rejected (error : Nat)
  | failed
  | issued
  deriving DecidableEq, Repr

/-- Issue a validated operation under the next operation number. -/
def issueOp (s : State) (v : Via) (w : Issuer) (i : IssueIn) (kind : Kind) : IssueEnd × State :=
  let ts := [i.x, i.w, i.y, i.z, i.m2].map (·.tensor)
  let o0 := opRecord s w i kind ts (i.spun.map (·.tensor))
  let (sites, s1) := readSites s w.unit o0
  let o := { o0 with sites := sites }
  let k := s1.nextOp
  match giveOp (nameOpSlot { s1 with nextOp := k + 1 } o) v k o w.unit i.group with
  | none => (.waits, s)
  | some s2 => (.issued, s2)

/-- Fetch, validate and issue the descriptor at an address. -/
def issueAt (s : State) (v : Via) (d : JobDesc) (w : Issuer) (addr : Nat) : IssueEnd × State :=
  if addr % 128 ≠ 0 then (.rejected (errorWord (3, 0, 0)), s)
  else
    match fetchIssue s v d addr with
    | (.error .waits, _) => (.waits, s)
    | (.error _, s1) => (.failed, s1)
    | (.ok i, s1) =>
      match validate s1 i d w.job v.home w.storm, i.kind with
      | some e, _ => (.rejected (errorWord e), s1)
      | none, none => (.rejected (errorWord (1, 0, 0)), s1)
      | none, some k =>
        if k.sites = 0 ∧ (k = .redScatter ∨ k = .gatherAll) ∧ s1.cord.posted.length ≥ 256 then (.waits, s)
        else issueOp s1 v w i k

/-- The tag after `t` (R225): tags skip 0. -/
def tagAfter (t : Nat) : Nat := if (t + 1) % 2 ^ 32 = 0 then 1 else (t + 1) % 2 ^ 32

/-- Tags of a strand in flight (R226). -/
def Strand.flights (st : Strand) : Nat := (st.tags.filter (·.inFlight)).length

/-- Who issues for a strand. -/
def strandIssuer (s : State) (q : Nat) (st : Strand) : Issuer :=
  { seq := q, tag := st.nextTag, queue := st.queue, entry := st.entry, evtSrc := st.evtSrc, job := st.job
    home := homeOfSeq s.mem q, die := some (seqDie q), unit := if q < 512 then seqCore q else 256 + (q - 512)
    storm := seqStorm s q }

/-- ISSUE (R225, R226): an update sequencer's ISSUE also waits while a freeze's cut is taken (R340). -/
def issueInstr (s : State) (q : Nat) (st : Strand) (addr : Word) (dst : Nat) : State :=
  if st.flights ≥ 16 || (decide (q ≥ 512) && s.ck.issueHold) then s
  else
    match issueAt s (seqVia s.mem q) (strandJob s st) (strandIssuer s q st) addr.toNat with
    | (.waits, _) => s
    | (.rejected e, s1) => endStrand s1 q 0x01 e
    | (.failed, s1) => endStrand s1 q 0x04
    | (.issued, s1) =>
      let st1 := { st with
        nextTag := tagAfter st.nextTag, tags := st.tags ++ [({ tag := st.nextTag } : TagSt)] }
      next s1 q (st1.setReg dst (BitVec.ofNat 64 st.nextTag))

end Sys2Proof.Machine
end

