-- ==== Sys2Proof/Machine/Wave.lean ====
section
/-!
DEFINITION. The marker wave (R32–R34, R495–R497): launching it, what a block latches (R502) and what a freeze's cut
keeps of it (R340, R341).
-/

namespace Sys2Proof.Machine

/-! ### Blocks (R370, R502) -/

/-- The key of a block: unit kind and unit. -/
def blockKey (ut u : Nat) : Nat := ut * 4096 + u

/-- Blocks of each unit kind. -/
def blockCount (ut : Nat) : Nat := [1024, 256, 20, 4, 8, 32, 1, 8].getD ut 0

/-- Every block. -/
def allBlocks : List Nat := (List.range 8).flatMap fun ut => (List.range (blockCount ut)).map (blockKey ut)

/-- The cluster a block belongs to. -/
def blockCluster (key : Nat) : Option Nat :=
  let u := key % 4096
  match key / 4096 with
  | 0 => some (u / 32)
  | 1 => some (u / 8)
  | 5 => some u
  | _ => none

/-- The die a block belongs to. -/
def blockDie (key : Nat) : Option Nat :=
  let u := key % 4096
  match key / 4096 with
  | 0 => some (u / 256)
  | 1 => some (u / 64)
  | 2 => some (u / 5)
  | 3 => some u
  | 5 => some (u / 8)
  | _ => none

/-- A block without power: of a cluster turned off (R393), or of a compute die or die link while the dies are off
(R22). -/
def blockOff (s : State) (key : Nat) : Bool :=
  (match blockCluster key with | some c => (getCluster s c).off || !s.q.qeReady | none => false)
    || ((s.pw.module != .run || decide (dget s Key.startupStage < 4)) && ((blockDie key).isSome || key / 4096 == 4))

/-- A block in quench (R34, R459). -/
def blockQuenched (s : State) (key : Nat) : Bool :=
  (match blockDie key with | some d => bitOf s.rst.dieFence d | none => false)
    || (match key / 4096 with
        | 0 => (getEng s (key % 4096)).fenced
        | 1 => (getSeq s (key % 4096)).fenced
        | 5 => (List.range 8).all fun k => (getSeq s (8 * (key % 4096) + k)).fenced
        | _ => false)

/-! ### Banks (R502) -/

/-- The header of a debug bank. -/
def bankHeader (cut status len key : Nat) : Nat :=
  cut % 2 ^ 16 * 2 ^ 48 + status * 2 ^ 32 + len * 2 ^ 16 + key / 4096 % 16 * 2 ^ 12 + key % 4096

/-- Little-endian 64-bit words of a byte list. -/
def wordsOf (b : List Byte) (n : Nat) : List Nat := (List.range n).map fun i => leField b (8 * i) 8

/-- A sequencer's state in the layout of R239; one that runs no strand holds its `SEQ` field alone (log 52). -/
def seqBytes (s : State) (q : Nat) : List Byte :=
  match getStrand s q with
  | some st => saveBytes s q st
  | none => List.replicate 276 0#8 ++ leBytes 4 (saveSeq q) ++ List.replicate 232 0#8

/-- The three words of a generator. -/
def genWords (g : Gen) : List Nat := [g.key, g.ctr % 2 ^ 64, g.ctr / 2 ^ 64]

/-- The core feeder's position: the lowest engine of the core at work (log 52). -/
def feederPos (s : State) (core : Nat) : Nat :=
  match (List.range 4).findSome? fun i => (getEng s (4 * core + i)).cur with
  | none => 0
  | some t => t.tile % 2 ^ 24 * 2 ^ 40 + (match t.cur with | some c => c.m0 + c.next | none => 0) % 2 ^ 24

/-- The slots of a core's 32 tally lines, four to a word; an unused line's number is a free value (log 52). -/
def tallyWords (s : State) (core free : Nat) : List Nat :=
  let ls := tget [] s.tlines core
  (List.range 8).map fun w => ((List.range 4).map fun i =>
    (match ls[4 * w + i]? with | some l => l.slot | none => free) % 2 ^ 16 * 2 ^ (16 * i)).sum

/-- R394: the condition of a cluster. -/
def clusterCond (s : State) (c : Nat) : Nat :=
  let p := getCluster s c
  if p.off || !s.q.qeReady then 3 else if p.damp != .none then 2 else if p.capHold || p.heatHold then 1 else 0

/-- Two 32-bit values a word. -/
def pairWords (f : Nat → Nat) (n : Nat) : List Nat := (List.range n).map fun i => f (2 * i) + f (2 * i + 1) * 2 ^ 32

/-- Pages of a stack with a first-touch copy under way. -/
def copiesPending (s : State) (h : Nat) : Nat :=
  (s.ck.pages.filter fun e => e.1 / 1536 / 32 == h && (match e.2 with | some q => q.phase == .copying | none => false)).length

/-- The words of a block after its header. `f` gives the counts the model does not keep (log 52). -/
def bankWords (s : State) (f : Nat → Nat) (key : Nat) : List Nat :=
  let u := key % 4096
  match key / 4096 with
  | 0 =>
    let e := getEng s u
    let o := e.cur.bind fun t => getOp s t.op
    [e.pos, InvCap.word e.invCap, (match o with | some o => o.tag % 2 ^ 32 + o.queue % 2 ^ 20 * 2 ^ 32 | none => 0),
     e.drag, f 0, e.seals, e.faults]
  | 1 =>
    wordsOf (seqBytes s u) 64 ++ wordsOf (seqBytes s (256 + u)) 64 ++ [feederPos s u] ++ tallyWords s u (f 0)
      ++ (List.range 16).flatMap fun g => genWords (tget ({} : Gen) s.gens (u * 16 + g))
  | 2 =>
    [(s.mem.holdq.filter (fun p => p.1 == u)).length, dget s (Key.hearthRaCount + u), f 0, tget 0 s.mem.scrubPos u,
     dirtyLines s.mem (fun a => a / stackAtoms == u), copiesPending s u] ++ wordsOf (seqBytes s (512 + u)) 64
  | 3 =>
    [dget s (Key.draughtLevel + u), dget s (Key.decMask + u), dget s (Key.decPend + u)]
      ++ pairWords (fun i => knotVal s u i) 2048
  | 4 => [f 0, f 1, tget 0 s.rst.linkResends u, f 2]
  | 5 =>
    [dget s (Key.cecMask + u), dget s (Key.cecPend + u), dget s (Key.clusterTemp + u), clusterCond s u]
      ++ (List.range 8).map f
  | 6 =>
    [s.ev.seq, s.q.doorbells, s.q.cache.length] ++ pairWords (fun r => dget s (Key.ringPi + r)) 32
      ++ [dget s Key.stormActive, dget s Key.freezeState, dget s Key.restoreState, s.cord.posted.length]
  | _ => [tget 0 s.cord.portTx u, tget 0 s.cord.portRx u, tget 0 s.cord.portRetx u] ++ List.replicate 16 0

/-- Latch a block's debug bank: `status` 1 latched, 2 null, 3 off. -/
def latchBank (s : State) (cut status key : Nat) : State :=
  let f := fun i => Config.freeNat (s.free + i) % 2 ^ 64
  let ws := if status = 1 then bankWords s f key else []
  { s with
    free := s.free + 8
    snap := { s.snap with banks := tset [] s.snap.banks key (bankHeader cut status (ws.length + 1) key :: ws) } }

/-! ### What a freeze keeps (R340, R341) -/

/-- The captured state of a table's keys in a range. -/
def captureRange {α : Type} [DecidableEq α] (d : α) (from_ acc : Tab α) (lo n : Nat) : Tab α :=
  (from_.filter fun e => decide (lo ≤ e.1) && decide (e.1 < lo + n)).foldl (fun t e => tset d t e.1 e.2) acc

/-- The bytes of a queue's context, the fields that the hub holds laid over those in memory. -/
def ctxBytes (s : State) (q : Nat) : Except MemErr (List Byte) :=
  match (devRead s hubVia false (qctxAddr s q) 64).1 with
  | .error e => .error e
  | .ok b =>
    .ok (match cachedCtx s q with
      | none => b
      | some c => (ctxWrites 0 c).foldl (fun b w => overlay b w.1 w.2) b)

/-- A context that a freeze takes must wait to be read. -/
def ctxsWait (s : State) : Bool :=
  s.q.live.any fun q => match ctxBytes s q with | .error e => e == .waits | .ok _ => false

/-- The contexts of the queues ENABLED or in ERROR (R341); the cached ones are written back (R340). -/
def captureCtxs (s : State) : List (Nat × List Byte) × State :=
  (s.q.live.map fun q => (q, match ctxBytes s q with | .ok b => b | .error _ => []),
   s.q.cache.foldl (fun st p => ctxWriteBack st p.1 p.2) s)

/-- What the freeze in progress keeps of a block that latches; a hearth sets its protection bits in the same act. -/
def latchFreeze (s : State) (fz : Freeze) (key : Nat) : State :=
  let u := key % 4096
  let put := fun (st : State) (g : Freeze) => { st with ck := { st.ck with fz := some g } }
  match key / 4096 with
  | 1 => put s { fz with
      gens := captureRange ({} : Gen) s.gens fz.gens (u * 16) 16
      seqs := tset [] (tset [] fz.seqs u (seqBytes s u)) (256 + u) (seqBytes s (256 + u)) }
  | 2 =>
    let s1 := (fz.pages.filter fun p => p.1 / 1536 / 32 == u).foldl (fun st p => setPage st p.1 (some { mask := p.2 })) s
    put s1 { fz with
      gens := captureRange ({} : Gen) s.gens fz.gens ((256 + u) * 16) 16
      seqs := tset [] fz.seqs (512 + u) (seqBytes s (512 + u)) }
  | 3 => put s { fz with knots := captureRange 0 s.knots fz.knots (u * 4096) 4096 }
  | 6 =>
    let (cs, s1) := captureCtxs s
    put s1 { fz with ctxs := cs, recSeq := s.ev.seq, unread := cs.any fun c => c.2.isEmpty }
  | _ => s

/-! ### The wave -/

/-- R496: launch a wave on every block that is powered. -/
def launchWave (s : State) (freeze : Bool) (number xnum xorigin : Nat) : State :=
  let off := allBlocks.filter (blockOff s)
  let s1 := if freeze then s else off.foldl (fun st k => latchBank st number 3 k) s
  let owed := allBlocks.filter fun k => !blockOff s k
  dset { s1 with snap := { s1.snap with
    cut := some { freeze := freeze, number := number % 2 ^ 16, owed := owed, xnum := xnum, xorigin := xorigin } } }
    Key.snapPending owed.length

/-- R501: a halted cut's hold on a block that has latched. -/
def haltBlock (s : State) (key : Nat) : State :=
  let u := key % 4096
  match key / 4096 with
  | 0 => { setEng s u { getEng s u with haltHold := true } with snap := { s.snap with held := sinsert u s.snap.held } }
  | 2 => { s with snap := { s.snap with held := sinsert (1024 + u) s.snap.held } }
  | _ => s

/-- A block owes nothing more: it has latched, or is null, and its acknowledgement is on its way. -/
def blockLatched (s : State) (c : Cut) (key : Nat) (null : Bool) : State :=
  sendEmber { s with snap := { s.snap with cut := some { c with owed := sremove key c.owed, acks := c.acks ++ [(key, null)] } } }
    key hubSource (.markerAck key null)

/-- R32: class 1–3 traffic that was accepted before the marker, and that the marker therefore stays behind, is still on its way
to the block (log 123). -/
def trafficAhead (s : State) (key : Nat) : Bool :=
  let u := key % 4096
  let reply := fun (p : Requester → Bool) => s.mem.replies.any fun r => !r.post && p r.who
  match key / 4096 with
  | 1 => reply fun w => match w with
    | .seq q => decide (q.val = u ∨ q.val = 256 + u) | .host => false | .bar2 => false | .agent _ => false | .completion .. => false
  | 2 => reply (fun w => match w with
      | .seq q => decide (q.val = 512 + u) | .host => false | .bar2 => false | .agent _ => false | .completion .. => false)
    || s.mem.reqs.any (fun r => !r.post && !r.arrived && ownerOf s (r.via s.mem) r.addr == some u)
    || s.raq.any (fun r => !r.post && !r.arrived && ownerOf s r.via r.addr == some u)
  | 3 => reply (fun w => match w with
      | .agent d => decide (d.val = u) | .seq _ => false | .host => false | .bar2 => false | .completion .. => false)
    || s.knotq.any (fun m => !m.ember && !m.post && m.die == u)
  | 6 => reply fun w => match w with
    | .seq _ => false | .agent _ => false | .host => true | .bar2 => true | .completion .. => true
  | _ => false

/-- No wave runs any more: what was sent behind its markers is no longer told apart. -/
def endWave (s : State) : State :=
  { s with
    snap := { s.snap with cut := none }
    mem := { s.mem with
      reqs := s.mem.reqs.map fun r => { r with post := false }
      holdq := s.mem.holdq.map fun p => (p.1, { p.2 with post := false })
      replies := s.mem.replies.map fun r => { r with post := false } }
    raq := s.raq.map fun r => { r with post := false }
    knotq := s.knotq.map fun m => { m with post := false } }

/-- MARKER_ARRIVAL (R32, R34, R497): a marker reaches a block, on the last of its inputs when `last`, and behind what was
accepted before it. -/
def markerArrival (s : State) (ut u : Nat) (last : Bool) : State :=
  match s.snap.cut with
  | none => s
  | some c =>
    let key := blockKey ut u
    if !last || !c.owed.contains key || trafficAhead s key || (c.freeze && key == hubSource && ctxsWait s) then s
    else if blockQuenched s key then
      blockLatched (if c.freeze then s else latchBank s c.number 2 key) c key true
    else if c.freeze then
      match s.ck.fz with
      | none => blockLatched s c key false
      | some fz => blockLatched (latchFreeze s fz key) c key false
    else
      let s1 := latchBank s c.number 1 key
      blockLatched (if dget s Key.snapHalt = 1 then haltBlock s1 key else s1) c key false

/-- R34: a unit is quenched while a wave runs: its block, still owed, is null. -/
def waveQuench (s : State) (key : Nat) : State :=
  match s.snap.cut with
  | none => s
  | some c =>
    if c.owed.contains key then blockLatched (if c.freeze then s else latchBank s c.number 2 key) c key true else s

/-- R505: a cluster is turned off while a wave runs: its blocks owe nothing. -/
def waveOff (s : State) (cluster : Nat) : State :=
  match s.snap.cut with
  | none => s
  | some c =>
    let gone := c.owed.filter fun k => blockCluster k == some cluster
    let s1 := if c.freeze then s else gone.foldl (fun st k => latchBank st c.number 3 k) s
    let owed := c.owed.filter fun k => blockCluster k != some cluster
    dset { s1 with snap := { s1.snap with cut := some { c with owed := owed } } } Key.snapPending (owed.length + c.acks.length)

end Sys2Proof.Machine
end

