-- ==== Sys2Proof/Machine/Freeze.lean ====
section
/-!
DEFINITION. Taking a freeze (R336–R344): the freeze set and its pages, the conditions at a boundary, the cut, the
schedule page, the streams, the digest list, completion and failure.
-/

namespace Sys2Proof.Machine

/-! ### The freeze set (R336–R338) -/

/-- An entry of a freeze set. -/
structure FzEnt where
  start : Nat
  valid : Bool
  spun : Bool
  len : Nat
  spin : Nat
  reservedOk : Bool
  deriving DecidableEq, Repr

/-- R336: entry i of a freeze set's bytes. -/
def fzEnt (b : List Byte) (i : Nat) : FzEnt :=
  let e := (b.drop (32 * i)).take 32
  { start := leField e 0 6, valid := bitOf (leField e 6 1) 0, spun := bitOf (leField e 6 1) 1, len := leField e 8 6
    spin := leField e 16 8
    reservedOk := decide (leField e 6 1 < 4) && decide (leField e 7 1 = 0) && decide (leField e 14 2 = 0)
      && decide (leField e 24 8 = 0) && (bitOf (leField e 6 1) 1 || decide (leField e 16 8 = 0)) }

/-- The used entries of a freeze set. -/
def fzEnts (b : List Byte) (count : Nat) : List FzEnt := ((List.range count).map (fzEnt b)).filter (·.valid)

/-- An aperture that a frozen range may lie in. -/
def freezable : Aperture → Bool
  | .package => true
  | .die _ => true
  | .explicit _ _ => true
  | .near _ => true
  | .nearHome => false
  | .hearth _ => false

/-- R336: the range of an entry lies in one aperture, outside every reservation. -/
def FzEnt.ok (s : State) (e : FzEnt) : Bool :=
  e.reservedOk && decide (e.start % 4096 = 0) && decide (e.len % 4096 = 0) && decide (e.len ≥ 4096)
    && (match apertureOf e.start, apertureOf (e.start + e.len - 1) with
        | some (a, o), some (b, p) =>
          a == b && freezable a && (resolveAt s.mem none a o).isSome && (resolveAt s.mem none a p).isSome
        | _, _ => false)

/-- Whole granules that cover a range. -/
def granuleAddrs (start len : Nat) : List Nat :=
  (List.range ((start % 4096 + len + 4095) / 4096)).map fun i => start / 4096 * 4096 + 4096 * i

/-- Add a granule to the masks of the frozen pages. -/
def addGranule (m : MemSys) (t : Tab Nat) (a : Nat) : Tab Nat :=
  match resolve m none a with
  | some (.hbm st c off) => tset 0 t (pageOf st c off) (setBit (tget 0 t (pageOf st c off)) (off % 2 ^ 21 / 4096) true)
  | some (.hearth _ _) => t
  | none => t

/-- R337, R338: the frozen pages with their granule masks, rising: the ranges that are not `SPUN`, the job
descriptor and the slot table. -/
def frozenPages (s : State) (ents : List FzEnt) (job : Nat) (d : JobDesc) : List (Nat × Nat) :=
  let ranges := (ents.filter (!·.spun)).map (fun e => (e.start, e.len)) ++ [(job, 64), (d.slotTable, 64 * d.slotCount)]
  (ranges.flatMap fun r => granuleAddrs r.1 r.2).foldl (addGranule s.mem) []

/-! ### Frames and notices -/

/-- Queue a CTRL frame to a peer on channel 15 of its first live path (R350; log 53). -/
def sendCtrl (s : State) (peer code gen elem : Nat) (payload : List Byte) : State :=
  match livePorts s peer with
  | [] => s
  | p :: _ => enqueue s (chanKey peer p 15)
      { type := 0xB, arg := gen, elem := elem, code := code, src := if payload.isEmpty then .none else .lit payload }

/-- A frame belongs to a stream: 0 a freeze's, 1 and 2 those of holder slots A and B. -/
def TxFrame.ofStream (f : TxFrame) (which : Nat) : Bool := match f.slot with | some (w, _) => w == which | none => false

/-- Forget the frames not yet sent of a stream; those sent are its no longer. -/
def dropStream (s : State) (which : Nat) : State :=
  let stop := fun (ch : Chan) =>
    { ch with
      queue := ch.queue.filter fun f => !f.ofStream which
      unacked := ch.unacked.map fun f => if f.ofStream which then { f with slot := none } else f }
  { s with cord := { s.cord with chans := (s.cord.chans.map fun e => (e.1, stop e.2)).filter fun e => e.2 != {} } }

/-- Set the freeze state: 0 IDLE, 1 CUT, 2 STREAM. -/
def setFreezeState (s : State) (v : Nat) : State := dset s Key.freezeState v

/-- Why a freeze fails (R344). -/
inductive FreezeCause where
  | quench | holder | memory | reset
  deriving DecidableEq, Repr

/-- A cause by its place in the order of R344. -/
def FreezeCause.code : FreezeCause → Nat
  | .quench => 1 | .holder => 2 | .memory => 3 | .reset => 4

/-- R344: the freeze in progress fails: every protection bit clears, the pool is freed and the writes that waited go on, the
partner is told, and the event is raised with the cause. -/
def freezeFail (s : State) (cause : FreezeCause) : State :=
  match s.ck.fz with
  | none => s
  | some fz =>
    let s1 := dropStream (releaseHold { s with
      ck := { s.ck with fz := none, pages := [], issueHold := false }
      snap := { s.snap with freezeWaits := false } }) 0
    let s2 := match fz.partner with
      | none => s1
      | some p => sendCtrl s1 p 10 fz.gen 0 []
    hubNotice (setFreezeState s2 0) 0x0502 [cause.code, fz.gen]

/-! ### The boundary (R339, R340) -/

/-- The pages of a freeze's digest list: 128 bytes a slot. -/
def listPages (slots : Nat) : Nat := (slots * 128 + 2 ^ 21 - 1) / 2 ^ 21

/-- The freeze set's bytes. -/
def readFreezeSet (s : State) : Except MemErr (List Byte) :=
  (devRead s hubVia false (dget s Key.freezeSetBase) (32 * dget s Key.freezeSetCount)).1

/-- The freeze set meets R336. -/
def freezeSetOk (s : State) (set : Option (List Byte)) : Bool :=
  let n := dget s Key.freezeSetCount
  match set with
  | none => false
  | some b => decide (1 ≤ n) && decide (n ≤ 1024) && (fzEnts b n).all (FzEnt.ok s)

/-- The paired partner. -/
def pairedWith (s : State) : Option Nat := if dget s Key.pairState = 2 then some (dget s Key.partnerHolder) else none

/-- R339: the conditions 1 to 5. -/
def freezeConds (s : State) (set : Option (List Byte)) (pages : Nat) : List Bool :=
  let slots := pages + 1
  [s.ck.fz.isNone, freezeSetOk s set, (pairedWith s).isSome || dget s Key.freezeHost == 2,
   ((pairedWith s).isNone || decide (slots ≤ s.ck.partnerSlots))
     && (dget s Key.freezeHost != 2 || decide (slots + listPages slots ≤ dget s Key.freezeHostPages)),
   decide (s.q.live.length ≤ 8192)]

/-- A mask of the conditions that failed. -/
def failedMask (l : List Bool) : Nat := ((List.range l.length).map fun i => if l.getD i true then 0 else 2 ^ i).sum

/-- The freeze-skipped event (R527). -/
def freezeSkipped (s : State) (conds : List Bool) (step : Nat) : State :=
  hubEvent s 0x0501 (((List.range 5).find? (fun i => !conds.getD i true)).getD 0 + 1)
    (atByte 16 (failedMask conds) + atByte 20 (step % 2 ^ 32))

/-- The restore is in FILL or VERIFY. -/
def restoring (s : State) : Bool := dget s Key.restoreState == 1 || dget s Key.restoreState == 2

/-- Launch the freeze's wave, or let it wait for a running wave or a halt (R499, R501). -/
def launchFreeze (s : State) (gen : Nat) : State :=
  if s.snap.cut.isSome || dget s Key.snapState == 2 then { s with snap := { s.snap with freezeWaits := true } }
  else launchWave { s with snap := { s.snap with freezeWaits := false } } true gen 0 0

/-- R340: start the cut of a freeze. -/
def startFreeze (s : State) (job : Nat) (j : Job) (set : List Byte) (pages : List (Nat × Nat)) : State :=
  let gen := (dget s Key.freezeGen + 1) % 2 ^ 32
  let fz : Freeze := { gen := gen, step := j.step, job := job, set := set, pages := pages, partner := pairedWith s
                       host := dget s Key.freezeHost, hostBase := dget s Key.freezeHostBase }
  let s0 := { s with mem := { s.mem with schedOpen := false }, ck := { s.ck with fz := some fz, issueHold := true } }
  let s1 := setFreezeState (dset s0 Key.freezeGen gen) 1
  let s2 := match fz.partner with
    | none => s1
    | some p => sendCtrl s1 p 4 gen 0 (leBytes 4 (pages.length + 1))
  launchFreeze s2 gen

/-- No freeze is to be taken at a boundary: the update sequencers go on, unless a cut holds them. -/
def issueGoesOn (s : State) : State :=
  { s with ck := { s.ck with issueHold := s.ck.fz.any fun fz => !fz.stream } }

/-- R339: a freeze is due at a job's boundary: the conditions are checked, and the freeze starts or is skipped. A module in
FILL or VERIFY skips it too (R357), with a code that is left open where none of the numbered conditions fails. While the freeze
set must wait to be read, so does the freeze. -/
def freezeDecide (s : State) (job : Nat) : State :=
  let j := getJob s job
  match readFreezeSet s with
  | .error .waits => { s with ck := { s.ck with due := some job, issueHold := true } }
  | r =>
    let set := match r with | .ok b => some b | .error _ => none
    let b := set.getD []
    let s1 := { s with ck := { s.ck with due := none } }
    let pages := frozenPages s1 (fzEnts b (dget s1 Key.freezeSetCount)) job j.desc
    let conds := freezeConds s1 set pages.length
    if !conds.all id then issueGoesOn (freezeSkipped s1 conds j.step)
    else if restoring s1 then issueGoesOn (hubNotice s1 0x0501 [j.step])
    else startFreeze s1 job j b pages

/-- FREEZE_CUT_START (R339, R340): the boundary of a job's training step has been handled. -/
def freezeBoundary (s : State) (job : Nat) : State :=
  let s1 := { s with ck := { s.ck with nowPast := sinsert job s.ck.nowPast } }
  if freezeDue s job (getJob s job).step then freezeDecide s1 job else issueGoesOn s1

/-! ### The schedule page (R341) -/

/-- Bytes cut or padded with zeros to a length. -/
def padTo (n : Nat) (b : List Byte) : List Byte := b.take n ++ List.replicate (n - b.length) 0#8

/-- The header: its fields packed in the order R341 lists them (log 53). -/
def schedHeader (s : State) (fz : Freeze) : List Byte :=
  leBytes 4 1 ++ leBytes 4 fz.gen ++ leBytes 8 fz.step ++ leBytes 4 Config.moduleId.toNat ++ leBytes 8 fz.recSeq
    ++ leBytes 4 fz.pages.length ++ leBytes 4 (dget s Key.freezeSetCount) ++ leBytes 4 fz.ctxs.length
    ++ leBytes 1 (dget s Key.feedAId) ++ leBytes 1 (dget s Key.feedBId) ++ leBytes 1 (dget s Key.pairCorrelated)
    ++ leBytes 8 fz.job
    ++ leBytes 4 s.mem.zNear ++ leBytes 4 s.mem.zExpl ++ leBytes 4 s.mem.zDie ++ leBytes 4 (zoneUnits s.mem .pkg)
    ++ (List.range 20).flatMap (fun h => leBytes 4 (liveMask s.mem h))
    ++ leBytes 4 ((List.range 20).foldl (fun m h => setBit m h (stackDropped s.mem h)) 0)
    ++ leBytes 1 (dget s Key.stormPolicy) ++ leBytes 4 (getJob s fz.job).activeCount

/-- A record of the peer table (R314). -/
def peerBytes (p : Peer) : List Byte :=
  leBytes 6 p.mac ++ leBytes 1 p.portMask ++ leBytes 1 (if p.valid then 1 else 0) ++ leBytes 4 p.moduleId ++ leBytes 4 0

/-- R341: the 270 granules of the schedule page. -/
def schedContent (s : State) (fz : Freeze) : List Byte :=
  padTo 0x1000 (schedHeader s fz) ++ padTo 0x8000 fz.set
    ++ (List.range 16384).flatMap (fun k => leBytes 4 (tget 0 fz.knots k))
    ++ (List.range 4416).flatMap (fun g =>
        let v := tget ({} : Gen) fz.gens g
        leBytes 8 v.key ++ leBytes 16 v.ctr)
    ++ padTo 0x200 []
    ++ (List.range 256).flatMap (fun c => padTo 512 (tget [] fz.seqs c) ++ padTo 512 (tget [] fz.seqs (256 + c)))
    ++ (List.range 20).flatMap (fun h => padTo 512 (tget [] fz.seqs (512 + h)))
    ++ padTo 0x800 []
    ++ padTo 0x10000 (s.cord.peers.flatMap peerBytes)
    ++ (List.range 8192).flatMap (fun i => leBytes 4 (match fz.ctxs[i]? with | some c => c.1 | none => 0xFFFF_FFFF))
    ++ padTo 0x80000 (fz.ctxs.flatMap (fun c => padTo 64 c.2))

/-- The schedule page must wait to be written (R288). -/
def schedWaits (s : State) : Bool :=
  (List.range 270).any fun j =>
    match schedLoc s.mem (4096 * j) with
    | none => false
    | some l => accessStop s hubVia false l == some .waits

/-- Write the schedule page, granule by granule; the first error. -/
def writeSched (s : State) (b : List Byte) : Option MemErr × State :=
  (List.range 270).foldl (fun acc j =>
    match schedLoc acc.2.mem (4096 * j) with
    | none => (acc.1.or (some .unmapped), acc.2)
    | some l =>
      let (e, s1) := physWrite acc.2 l.phys ((b.drop (4096 * j)).take 4096)
      (acc.1.or e, s1)) (none, s)

/-- With the cut complete the hub assembles the schedule page, once it can be written, and the stream begins (R340). -/
def assembleSched (s : State) : State :=
  match s.ck.fz with
  | none => s
  | some fz =>
    if !fz.cutDone || fz.stream || schedWaits s then s
    else
      match writeSched s (schedContent s fz) with
      | (some _, s1) => freezeFail s1 .memory
      | (none, s1) =>
        setFreezeState { s1 with ck := { s1.ck with issueHold := false, fz := some { fz with stream := true } } } 2

/-- The wave of that number is complete (R340, R344): a quenched block fails the freeze it belongs to, and so does a context
that could not be read. -/
def freezeCutDone (s : State) (number nulls : Nat) : State :=
  match s.ck.fz with
  | none => s
  | some fz =>
    if fz.stream || fz.cutDone || fz.gen % 2 ^ 16 ≠ number then s
    else if nulls ≠ 0 then freezeFail s .quench
    else if fz.unread then freezeFail s .memory
    else assembleSched { s with ck := { s.ck with fz := some { fz with cutDone := true } } }

/-! ### The streams (R342) -/

/-- The page number of the schedule page (R338). -/
def schedPageNo : Nat := 0xFFFFF

/-- The mask of the schedule page. -/
def schedMask : Nat := 2 ^ 270 - 1

/-- Granules of a mask. -/
def maskGranules (mask : Nat) : List Nat := (List.range 512).filter (bitOf mask)

/-- R338: the digest of a page's content. -/
def pageDigest (page mask : Nat) (content : List Byte) : Nat :=
  (sha384 (leBytes 4 page ++ leBytes 64 mask ++ content)).toNat

/-- R342: an entry of a digest list. -/
def listEntry (page slot mask digest : Nat) : List Byte :=
  leBytes 4 page ++ leBytes 4 slot ++ leBytes 64 mask ++ leBytes 48 digest ++ leBytes 8 0

/-- Page and mask of a slot of the freeze in progress. -/
def Freeze.slot (fz : Freeze) (k : Nat) : Nat × Nat := if k = 0 then (schedPageNo, schedMask) else fz.pages.getD (k - 1) (0, 0)

/-- Slots of a freeze. -/
def Freeze.slots (fz : Freeze) : Nat := fz.pages.length + 1

/-- Read the masked granules of a slot. -/
def readSlot (s : State) (fz : Freeze) (k : Nat) : Except MemErr (List Byte) :=
  let (page, mask) := fz.slot k
  (maskGranules mask).foldl (fun acc j =>
    match acc with
    | .error e => .error e
    | .ok b =>
      let r := if k = 0 then
          match schedLoc s.mem (4096 * j) with
          | some l => physRead s l.phys 4096
          | none => .error .unmapped
        else granuleRead s page j
      match r with
      | .error e => .error e
      | .ok g => .ok (b ++ g)) (.ok [])

/-- The PAGE frames of a slot: one granule each (R350; log 54). -/
def queuePage (s : State) (fz : Freeze) (peer k : Nat) : State :=
  let (page, mask) := fz.slot k
  let ports := livePorts s peer
  (maskGranules mask).foldl (fun st j =>
    let src := if k = 0 then
        match schedLoc st.mem (4096 * j) with
        | some l => TxSrc.phys l.phys 4096
        | none => .none
      else .page page j 1
    enqueue st (chanKey peer (ports.getD ((j + page) % ports.length) 0) 15)
      { type := 0xA, arg := fz.gen, elem := k + j * 2 ^ 20, code := 0, slot := some (0, k), src := src }) s

/-- R342: the writes of a page toward the host. -/
def hostPage (s : State) (fz : Freeze) (k : Nat) (b : List Byte) : State :=
  let js := maskGranules (fz.slot k).2
  (List.range js.length).foldl (fun st i =>
    toHost st (.hostWrite (fz.hostBase + 2 ^ 21 * k + 4096 * js.getD i 0) ((b.drop (4096 * i)).take 4096))) s

/-- The next slot that a unit streams: a hearth its own stack's pages in increasing number, those asked for first;
20 the hub's schedule page. -/
def nextSlot (s : State) (fz : Freeze) (unit : Nat) : Option Nat :=
  let unsent := fun k => (tget [] fz.entries k).isEmpty
  if unit ≥ 20 then (if unsent 0 then some 0 else none)
  else
    let mine := (List.range fz.slots).filter fun k => decide (k ≠ 0) && unsent k && (fz.slot k).1 / 1536 / 32 == unit
    let urgent := fun k => match tget none s.ck.pages (fz.slot k).1 with | some q => q.phase == .urgent | none => false
    (mine.find? urgent).or mine.head?

/-- PAGE_DIGEST_DONE in a freeze (R305, R342): the next page of a unit has been digested; it is sent to every holder. -/
def digestPage (s : State) (unit : Nat) : State :=
  match s.ck.fz with
  | none => s
  | some fz =>
    if !fz.stream then s
    else
      match nextSlot s fz unit with
      | none => s
      | some k =>
        match readSlot s fz k with
        | .error .waits => s
        | .error _ => freezeFail s .memory
        | .ok b =>
          let (page, mask) := fz.slot k
          let fz1 := { fz with entries := tset [] fz.entries k (listEntry page k mask (pageDigest page mask b)) }
          let s1 := { s with ck := { s.ck with fz := some fz1 } }
          let s2 := match fz.partner with
            | none => s1
            | some p => queuePage s1 fz1 p k
          if fz.host = 2 then hostPage s2 fz1 k b else s2

/-- Some frame of a slot of a stream is queued, or queued or unacknowledged. -/
def slotBusy (s : State) (which k : Nat) (unackedToo : Bool) : Bool :=
  s.cord.chans.any fun e =>
    e.2.queue.any (fun f => f.slot == some (which, k)) || (unackedToo && e.2.unacked.any (fun f => f.slot == some (which, k)))

/-- Some frame of a stream is queued, or queued or unacknowledged. -/
def streamBusy (s : State) (which : Nat) (unackedToo : Bool) : Bool :=
  s.cord.chans.any fun e => e.2.queue.any (·.ofStream which) || (unackedToo && e.2.unacked.any (·.ofStream which))

/-- A write toward the host within a range of its addresses has not been sent yet: D3hot holds it back (R244, R342). -/
def hostHeld (s : State) (base n : Nat) : Bool :=
  s.heldHost.any fun m => match m with
    | .hostWrite a _ => decide (base ≤ a ∧ a < base + n)
    | _ => false

/-- The digest list of a freeze, in slot order. -/
def Freeze.list (fz : Freeze) : List Byte := (List.range fz.slots).flatMap fun k => tget [] fz.entries k

/-- The SHA-384 of a whole list (R342). -/
def listDigest (b : List Byte) : Nat := (sha384 b).toNat

/-- The freeze is complete (R342, R344). Without a partner region there is no own-list area (R345). -/
def freezeComplete (s : State) (fz : Freeze) : State :=
  let s1 := releaseHold { s with ck := { s.ck with
    fz := none, pages := [], own := if s.mem.slotPages = 0 then [] else ((fz.gen, fz.list) :: s.ck.own).take 2 } }
  let s2 := dset (dset (setFreezeState s1 0) Key.freezeDoneGen fz.gen) Key.restoreUnverified 0
  hubNotice s2 0x0500 [fz.gen]

/-- DIGESTS frames of a list: as many whole entries a frame as its payload holds. -/
def sendList (s : State) (peer gen : Nat) (list : List Byte) : State :=
  let per := payloadLimit s / 128
  let n := list.length / 128
  let s1 := (List.range ((n + per - 1) / per)).foldl (fun st i =>
    sendCtrl st peer 6 gen (per * i) ((list.drop (128 * per * i)).take (128 * per))) s
  sendCtrl s1 peer 7 gen 0 (leBytes 4 n ++ leBytes 48 (listDigest list))

/-- PAGE_ACKNOWLEDGED (R342, R343): pages sent to every holder lose their protection and their pool page; with
every page sent the list and FREEZE_END follow; without a partner the freeze is then complete. -/
def freezeAdvance (s : State) : State :=
  match s.ck.fz with
  | none => s
  | some fz =>
    if !fz.stream then s
    else
      let sent := (List.range fz.slots).filter fun k => !(tget [] fz.entries k).isEmpty
      let held := fun (st : State) k => hostHeld st (fz.hostBase + 2 ^ 21 * k) (2 ^ 21)
      let s1 := releaseHold (sent.foldl (fun st k =>
        if slotBusy st 0 k true || held st k then st else setPage st (fz.slot k).1 none) s)
      if sent.length ≠ fz.slots || streamBusy s1 0 false then s1
      else if fz.ended then
        if fz.partner.isNone && !hostHeld s1 fz.hostBase (2 ^ 21 * fz.slots + 128 * fz.slots) then freezeComplete s1 fz else s1
      else
        let s2 := { s1 with ck := { s1.ck with fz := some { fz with ended := true } } }
        let s3 := if fz.host = 0 then s2
          else toHost s2 (.hostWrite (fz.hostBase + (if fz.host = 2 then 2 ^ 21 * fz.slots else 0)) fz.list)
        match fz.partner with
        | none =>
          if hostHeld s3 fz.hostBase (2 ^ 21 * fz.slots + 128 * fz.slots) then s3 else freezeComplete s3 fz
        | some p => sendList s3 p fz.gen fz.list

/-- R344: an uncorrectable error under a page that has not been sent fails the freeze. -/
def freezePoison (s : State) : State :=
  match s.ck.fz with
  | none => s
  | some fz =>
    let under := fun (atom : Nat) =>
      match tget none s.ck.pages (atom * 64 / 2 ^ 21) with
      | some q => q.phase != .copied && bitOf q.mask (atom * 64 % 2 ^ 21 / 4096)
      | none => false
    if fz.stream && s.mem.poison.any under then freezeFail s .memory else s

/-- What a freeze does as soon as it can: the decision at a boundary, the schedule page, the end of its pages. -/
def freezeStep (s : State) : State :=
  freezeAdvance (freezePoison (assembleSched (match s.ck.due with | none => s | some job => freezeDecide s job)))

/-- FIRST_TOUCH_COPY_DONE (R343): the copy of a page completes. -/
def firstTouchDone (s : State) (page : Nat) : State :=
  match tget none s.ck.pages page with
  | none => s
  | some q =>
    if q.phase ≠ .copying then s
    else
      let r := (maskGranules q.mask).foldl (fun (acc : Except MemErr (List Byte)) j =>
        match acc with
        | .error e => .error e
        | .ok b =>
          match physRead s (granulePhys page j) 4096 with
          | .error e => .error e
          | .ok g => .ok (b ++ g)) (.ok [])
      match r with
      | .error .waits => s
      | .error _ => freezeFail s .memory
      | .ok b => releaseHold (dcount (setPage s page (some { q with phase := .copied, copy := b })) Key.ftCopies)

end Sys2Proof.Machine
end

