-- ==== Sys2Proof/Machine/Holder.lean ====
section
/-!
DEFINITION. Holding another module's freezes (R345, R346), pairing (R348, R349) and serving restores (R350).
-/

namespace Sys2Proof.Machine

/-! ### Holder slots (R345, R346) -/

/-- Holder slot A (0) or B (1). -/
def holder (s : State) (i : Nat) : Holder := if i = 0 then s.ck.slotA else s.ck.slotB

/-- Replace a holder slot's record. -/
def setHolder (s : State) (i : Nat) (h : Holder) : State :=
  if i = 0 then { s with ck := { s.ck with slotA := h } } else { s with ck := { s.ck with slotB := h } }

/-- State of a holder slot: 0 EMPTY, 1 RECEIVING, 2 HELD, 3 SERVING. -/
def holderState (s : State) (i : Nat) : Nat := dget s (Key.holderSlotState + i)
/-- Generation of a holder slot. -/
def holderGen (s : State) (i : Nat) : Nat := dget s (Key.holderSlotGen + i)

/-- Put a holder slot into a state. -/
def putHolder (s : State) (i state gen : Nat) (h : Holder) : State :=
  setHolder (dset (dset s (Key.holderSlotState + i) state) (Key.holderSlotGen + i) gen) i h

/-- Discard a holder slot. -/
def emptyHolder (s : State) (i : Nat) : State := putHolder (dropStream s (1 + i)) i 0 0 {}

/-- The place of granule j of frame k of a holder slot: the partner region lies at the top of the PACKAGE aperture. -/
def frameLoc (m : MemSys) (i k j : Nat) : Option Loc :=
  let top := apertureBytes m (List.range 20) .pkg
  resolveIn m (List.range 20) .pkg top
    (top - partnerBytes m + i * ((m.slotPages + digestPages m.slotPages) * 2 ^ 21) + 2 ^ 21 * k + 4096 * j)

/-- R346: the slot that takes a new freeze: an empty one, or that of the older generation when it is only held; none
while one receives. -/
def slotFor (s : State) : Option Nat :=
  if holderState s 0 = 1 ∨ holderState s 1 = 1 then none
  else if holderState s 0 = 0 then some 0
  else if holderState s 1 = 0 then some 1
  else
    let old := if holderGen s 0 ≤ holderGen s 1 then 0 else 1
    if holderState s old = 2 then some old else none

/-- A REFUSE frame: reason 0 BUSY, 1 INCOMPLETE, 2 NO_GEN, 3 FILLING (log 53). -/
def refuse (s : State) (peer gen reason : Nat) : State := sendCtrl s peer 9 gen 0 (leBytes 1 reason)

/-- FREEZE_BEGIN (R346). -/
def freezeBegin (s : State) (peer gen count : Nat) : State :=
  if restoring s then refuse s peer gen 3
  else if peer ≠ dget s Key.partnerOf ∨ s.mem.slotPages = 0 then refuse s peer gen 0
  else
    match slotFor s with
    | none => refuse s peer gen 0
    | some i =>
      sendCtrl (putHolder s i 1 gen { peer := peer, count := count }) peer 5 gen 0 (leBytes 4 s.mem.slotPages)

/-- The slot that receives a generation from a peer. -/
def receivingSlot (s : State) (peer gen : Nat) : Option Nat :=
  (List.range 2).find? fun i => holderState s i == 1 && holderGen s i == gen && (holder s i).peer == peer

/-- The slot that holds a generation. -/
def heldSlot (s : State) (gen : Nat) : Option Nat :=
  (List.range 2).find? fun i => decide (holderState s i ≥ 2) && holderGen s i == gen

/-- How a PAGE frame ends at its receiver: it is applied, or its hearth holds it off. -/
inductive PageEnd where
  | applied
  | busy
  deriving DecidableEq, Repr

/-- PAGE of a freeze stream (R346): granule j of frame k is written. -/
def pageReceive (s : State) (peer gen k j : Nat) (b : List Byte) : PageEnd × State :=
  match receivingSlot s peer gen with
  | none => (.applied, s)
  | some i =>
    if k ≥ s.mem.slotPages then (.applied, s)
    else
      match frameLoc s.mem i k j with
      | none => (.applied, s)
      | some l =>
        match physWrite s l.phys (b.take 4096) with
        | (some .waits, _) => (.busy, s)
        | (some .fenced, s1) => (.applied, hubNotice (emptyHolder s1 i) 0x0503 [i, 0, gen])
        | (some _, _) => (.busy, s)
        | (none, s1) =>
          let h := holder s1 i
          (.applied, setHolder s1 i { h with got := tset 0 h.got k (setBit (tget 0 h.got k) j true) })

/-- Lay digest-list entries into a list from an index. -/
def layEntries (t : Tab (List Byte)) (first : Nat) (b : List Byte) : Tab (List Byte) :=
  (List.range (b.length / 128)).foldl (fun t i =>
    let e := (b.drop (128 * i)).take 128
    if e.all (fun x => x == 0#8) then t else tset [] t (first + i) e) t

/-- The bytes of the first `n` entries received. -/
def listBytes (t : Tab (List Byte)) (n : Nat) : List Byte := (List.range n).flatMap fun i => padTo 128 (tget [] t i)

/-- The page, mask and digest of an entry. -/
def entryPage (e : List Byte) : Nat := leField e 0 4
/-- The mask of an entry. -/
def entryMask (e : List Byte) : Nat := leField e 8 64
/-- The digest of an entry. -/
def entryDigest (e : List Byte) : Nat := leField e 72 48

/-- R345: the granules of frame k of a slot that its mask leaves out are undefined (log 139). -/
def undefineFrame (s : State) (i k mask : Nat) : State :=
  ((List.range 512).filter fun j => !bitOf mask j).foldl (fun st j =>
    match frameLoc st.mem i k j with
    | none => st
    | some l => (List.range 64).foldl (fun st1 a => undefineAt st1 (locOfPhys (l.phys + 64 * a)) 64) st) s

/-- FREEZE_END at a holder (R346). -/
def freezeEnd (s : State) (peer gen count digest : Nat) : State :=
  match receivingSlot s peer gen with
  | none => s
  | some i =>
    let h := holder s i
    let whole := (List.range count).all fun k =>
      let e := tget [] h.list k
      e.length == 128 && (maskGranules (entryMask e)).all (bitOf (tget 0 h.got k))
    if listDigest (listBytes h.list count) = digest ∧ whole then
      let s1 := (List.range count).foldl (fun st k => undefineFrame st i k (entryMask (tget [] h.list k))) s
      hubNotice (sendCtrl (putHolder s1 i 2 gen { h with count := count }) peer 8 gen 0 []) 0x0503 [i, 2, gen]
    else refuse (emptyHolder s i) peer gen 1

/-- ABANDON, or the originator is lost (R346). -/
def abandon (s : State) (peer : Nat) : State :=
  (List.range 2).foldl (fun st i =>
    if holderState st i = 1 ∧ (holder st i).peer = peer then emptyHolder st i else st) s

/-- Start serving a held slot to a target from a slot index (R346, R350). -/
def serve (s : State) (i target first : Nat) : State :=
  let h := holder s i
  let ports := livePorts s target
  let s1 := putHolder s i 3 (holderGen s i) { h with serving := some target }
  (List.range (h.count - first)).foldl (fun st n =>
    let k := first + n
    let e := tget [] h.list k
    (maskGranules (entryMask e)).foldl (fun st1 j =>
      enqueue st1 (chanKey target (ports.getD ((j + entryPage e) % ports.length) 0) 15)
        { type := 0xA, arg := holderGen s i, elem := k + j * 2 ^ 20, code := 1, slot := some (1 + i, k)
          src := match frameLoc st1.mem i k j with | some l => .phys l.phys 4096 | none => .none }) st) s1

/-- RESTORE_REQ (R346, R351). -/
def restoreReq (s : State) (peer gen origin first : Nat) : State :=
  if restoring s then refuse s peer gen 3
  else
    match heldSlot s gen with
    | none => refuse s peer gen 2
    | some i =>
      let h := holder s i
      if origin ≠ (getPeer s h.peer).moduleId then refuse s peer gen 2
      else if holderState s i = 2 then serve s i peer first
      else if h.waiting.length ≥ 8 then refuse s peer gen 0
      else setHolder s i { h with waiting := h.waiting ++ [(peer, first)] }

/-- DIGEST_REQ (R346): the digest list, closed as FREEZE_END closes it (log 53). -/
def digestReq (s : State) (peer gen origin : Nat) : State :=
  if restoring s then refuse s peer gen 3
  else
  match heldSlot s gen with
  | none => refuse s peer gen 2
  | some i =>
    let h := holder s i
    if origin ≠ (getPeer s h.peer).moduleId then refuse s peer gen 2 else sendList s peer gen (listBytes h.list h.count)

/-- A stream served to a target is over: the next request that waits begins (R346). -/
def serveNext (s : State) (i : Nat) : State :=
  let h := holder s i
  let s1 := putHolder s i 2 (holderGen s i) { h with serving := none }
  match h.waiting with
  | [] => s1
  | w :: rest => serve (setHolder s1 i { h with serving := none, waiting := rest }) i w.1 w.2

/-- Serving slots whose stream has been acknowledged are held again (R346). -/
def serveAdvance (s : State) : State :=
  (List.range 2).foldl (fun st i =>
    match (holder st i).serving with
    | none => st
    | some _ => if streamBusy st (1 + i) true then st else serveNext st i) s

/-- A page that holder slot i serves could not be read (R357): UNAVAILABLE for its slot. -/
def pageUnavailable (s : State) (i k : Nat) : State :=
  match (holder s i).serving with
  | none => s
  | some t => sendCtrl s t 13 (holderGen s i) 0 (leBytes 4 k)

/-- The target of a stream is lost (R346). -/
def targetLost (s : State) (peer : Nat) : State :=
  (List.range 2).foldl (fun st i =>
    let h := holder st i
    let s1 := setHolder st i { h with waiting := h.waiting.filter fun w => w.1 != peer }
    if h.serving = some peer then serveNext (dropStream s1 (1 + i)) i else s1) s

/-- A holder frame lies on a fenced channel: the slot is discarded, with its event (R346). -/
def holdersFenced (s : State) : State :=
  (List.range 2).foldl (fun st i =>
    let under := (holder st i).got.any fun e => (maskGranules e.2).any fun j =>
      match frameLoc st.mem i e.1 j with
      | some (.hbm a c _) => chanFenced st.mem a c
      | some (.hearth _ _) => false
      | none => false
    if holderState st i ≠ 0 ∧ under then hubNotice (emptyHolder st i) 0x0503 [i, 0, holderGen st i] else st) s

/-! ### Pairing (R348, R349) -/

/-- R348: two modules share a feed. -/
def shareFeed (a b c d : Nat) : Bool := a == c || a == d || b == c || b == d

/-- The module shares a feed with identities given. -/
def sharesFeed (s : State) (a b : Nat) : Bool := shareFeed (dget s Key.feedAId) (dget s Key.feedBId) a b

/-- `PAIR_CORRELATED`: one of the module's pairs, with its holder or with the module it holds for, shares a feed (R349). -/
def setCorrelated (s : State) (holder of_ : Bool) : State :=
  dset { s with ck := { s.ck with corrHolder := holder, corrOf := of_ } } Key.pairCorrelated (if holder || of_ then 1 else 0)

/-- Set the pair state with the holder, with its event when a pairing ends. -/
def pairEnd (s : State) (state : Nat) (correlated : Bool) : State :=
  hubNotice (setCorrelated (dset s Key.pairState state) correlated s.ck.corrOf) 0x0505 [state]

/-- Start pairing with the holder named (R349). -/
def startPairing (s : State) : State :=
  let p := dget s Key.partnerHolder
  if p = 0xFFFF then setCorrelated (dset s Key.pairState 0) false s.ck.corrOf
  else
    sendCtrl (dset s Key.pairState 1) p 1 0 0
      (leBytes 4 Config.moduleId.toNat ++ leBytes 1 (dget s Key.feedAId) ++ leBytes 1 (dget s Key.feedBId)
        ++ leBytes 1 (dget s Key.pairSameFeedOk))

/-- PARTNER_HOLDER_WRITE (R349): the status of R430. -/
def writePartnerHolder (s : State) (v : Nat) : State × Nat :=
  if dget s Key.freezeState ≠ 0 then (s, 3) else (startPairing (dset s Key.partnerHolder v), 0)

/-- PARTNER_OF_WRITE (R346). -/
def writePartnerOf (s : State) (v : Nat) : State := emptyHolder (emptyHolder (setCorrelated (dset s Key.partnerOf v) s.ck.corrHolder false) 0) 1

/-- PAIR_REQ (R349). -/
def pairReq (s : State) (peer a b over_ : Nat) : State :=
  let no := fun reason => sendCtrl s peer 3 0 0 (leBytes 1 reason)
  let share := sharesFeed s a b
  if peer ≠ dget s Key.partnerOf then no 1
  else if s.mem.slotPages = 0 then no 2
  else if restoring s then no 3
  else if share && !(dget s Key.pairSameFeedOk == 1 && over_ == 1) then no 0
  else
    let s1 := sendCtrl s peer 2 0 0
      (leBytes 1 (dget s Key.feedAId) ++ leBytes 1 (dget s Key.feedBId) ++ leBytes 4 s.mem.slotPages)
    setCorrelated s1 s1.ck.corrHolder share

/-- PAIR_ACK (R349). -/
def pairAck (s : State) (peer a b slots : Nat) : State :=
  if peer ≠ dget s Key.partnerHolder ∨ dget s Key.pairState ≠ 1 then s
  else
    let share := sharesFeed s a b
    if share && dget s Key.pairSameFeedOk != 1 then pairEnd s 3 false
    else pairEnd { s with ck := { s.ck with partnerSlots := slots } } 2 share

/-- PAIR_REFUSE (R349): reason 0 FEED, 1 NOT_OF, 2 NO_REGION, 3 FILLING (log 53). -/
def pairRefuse (s : State) (peer reason : Nat) : State :=
  if peer ≠ dget s Key.partnerHolder ∨ dget s Key.pairState ≠ 1 then s
  else pairEnd s (if reason = 0 then 3 else 4) false

end Sys2Proof.Machine
end

