-- ==== Sys2Proof/Machine/Restore.lean ====
section
/-!
DEFINITION. Restoring a freeze (R351–R357): starting, the two lists, filling and verifying pages, the layout check,
what VERIFY reinstates, the spun copies, and the effects of losing a peer.
-/

namespace Sys2Proof.Machine

/-! ### Results (R354, R360) -/

/-- The values of `RESTORE_RESULT`, numbered in the order R360 lists them (log 53). -/
inductive RestoreResult where
  | ok | singleSource | listMismatch | verifyMismatch | sourceLost | replicaLost | layout | spin | aborted | busy
  deriving DecidableEq, Repr

/-- The code of a result. -/
def RestoreResult.code : RestoreResult → Nat
  | .ok => 0 | .singleSource => 1 | .listMismatch => 2 | .verifyMismatch => 3 | .sourceLost => 4 | .replicaLost => 5
  | .layout => 6 | .spin => 7 | .aborted => 8 | .busy => 9

/-- Leave FILL or VERIFY with a result (R354). -/
def restoreExit (s : State) (r : RestoreResult) : State :=
  hubNotice (dset (dset { s with ck := { s.ck with rs := none } } Key.restoreResult r.code) Key.restoreState
    (if r = .ok then 3 else 0)) 0x0504 [r.code]

/-- Replace the restore's record. -/
def setRestore (s : State) (r : Restore) : State := { s with ck := { s.ck with rs := some r } }

/-! ### Addresses of the originator (R353) -/

/-- The memory layout a schedule page's header describes: zone sizes and live masks (R341, log 53). -/
def originLayout (b : List Byte) : MemSys :=
  { zNear := leField b 51 4, zExpl := leField b 55 4, zDie := leField b 59 4
    live := (List.range 20).foldl (fun t h => tset 0 t h (leField b (67 + 4 * h) 4)) [] }

/-- The device address a granule had in the originator: R273 taken backward. -/
def originAddr (m : MemSys) (st c off : Nat) : Option Nat :=
  let at_ := fun (z : Zone) (sts : List Nat) (base : Nat) =>
    let l := interleave m sts
    let i := l.idxOf (st, c)
    if i < l.length then some (base + ((off - zoneBase m z) / 4096 * l.length + i) * 4096 + off % 4096) else none
  if off < zoneBase m .die then at_ .pkg (List.range 20) 0
  else if off < zoneBase m .near then at_ .die (dieStacks (dieOfStack st)) (0x0200_0000_0000 + dieOfStack st * 2 ^ 39)
  else if off < zoneBase m .expl then at_ .near [st] (0x0800_0000_0000 + st * 2 ^ 37)
  else some (0x0400_0000_0000 + (32 * st + c) * 2 ^ 32 + (off - zoneBase m .expl))

/-- R353: every freeze-set range lies in the present apertures, on live channels that are not fenced. -/
def layoutOk (s : State) (sched : List Byte) : Bool :=
  (fzEnts (sched.drop 0x1000) (leField sched 32 4)).all fun e =>
    (granuleAddrs e.start e.len).all fun a =>
      match resolve s.mem none a with
      | some (.hbm st c _) => !chanFenced s.mem st c
      | some (.hearth _ _) => false
      | none => false

/-! ### VERIFY (R355) -/

/-- Knots of the job's range from the schedule page. -/
def restoreKnots (s : State) (b : List Byte) (d : JobDesc) : State :=
  let keys := (List.range 4).flatMap fun die => (List.range d.knotCount).map fun k => die * 4096 + d.knotBase + k
  { s with knots := keys.foldl (fun t k => tset 0 t k (leField b (0x9000 + 4 * k) 4)) s.knots }

/-- Every generator from the schedule page. -/
def restoreGens (s : State) (b : List Byte) : State :=
  { s with gens := (List.range 4416).foldl (fun t g =>
      tset ({} : Gen) t g { key := leField b (0x19000 + 24 * g) 8, ctr := leField b (0x19000 + 24 * g + 8) 16 }) s.gens }

/-- Every captured context, `STATE` DISABLED. -/
def restoreCtxs (s : State) (b : List Byte) : State :=
  (List.range (leField b 36 4)).foldl (fun st i =>
    let q := leField b (0x86000 + 4 * i) 4 % 2 ^ 20
    let c := (b.drop (0x8E000 + 64 * i)).take 64
    let st1 := dropCtx { st with q := { st.q with live := sremove q st.q.live } } q
    (hubWrite st1 false (qctxAddr st1 q) (putField c 25 1 0)).2) s

/-- The job as a restore leaves it with the ladder controller: no storm, no tallies, the active slot count. -/
def restoreJob (s : State) (b : List Byte) (d : JobDesc) : State :=
  let job := leField b 43 8
  let s1 := endStorm { s with tlines := [], tin := [], tout := [], swapJob := none, swapped := [], reports := [] }
  setJob s1 job { desc := d, step := leField b 8 8, activeBase := leField b 152 4 }

/-- The SPIN descriptors of the freeze set's spun ranges. -/
def spinDescs (b : List Byte) : List Nat :=
  ((fzEnts (b.drop 0x1000) (leField b 32 4)).filter (·.spun)).map (·.spin)

/-- R355: every slot is written: reinstate, and list the SPINs to issue. A job descriptor that must wait to be read holds this
up. -/
def restoreVerify (s : State) (r : Restore) : State :=
  let b := r.sched
  match readJob s (leField b 43 8) with
  | (.error .waits, _) => s
  | (.ok (some d), s1) =>
    let s2 := restoreJob (restoreCtxs (restoreGens (restoreKnots s1 b d) b) b) b d
    dset (setRestore s2 { r with spins := spinDescs b }) Key.restoreState 2
  | (_, s1) => dset (setRestore (restoreCtxs (restoreGens s1 b) b) { r with spins := spinDescs b }) Key.restoreState 2

/-- Who issues the SPINs of a restore: the hub; it has no generators of its own (log 55). -/
def restoreIssuer (job : Nat) : Issuer :=
  { seq := 1000, tag := 0, job := job, home := none, die := none, unit := 1000, storm := false }

/-- Issue the SPINs still to issue; a rejected one ends the restore. A descriptor that must wait leaves the rest. -/
def issueSpins : (fuel : Nat) → State → State
  | 0, s => s
  | fuel + 1, s =>
    match s.ck.rs with
    | none => s
    | some r =>
      match r.spins with
      | [] => s
      | a :: rest =>
        let job := leField r.sched 43 8
        match issueAt s hubVia (getJob s job).desc (restoreIssuer job) a with
        | (.waits, _) => s
        | (.issued, s1) =>
          issueSpins fuel (setRestore s1 { r with spins := rest, spinOps := r.spinOps ++ [s.nextOp] })
        | (.rejected _, s1) => restoreExit s1 .spin
        | (.failed, s1) => restoreExit s1 .spin

/-- The slots of the generation. -/
def Restore.count (r : Restore) : Nat :=
  match r.srcEnd with
  | some e => e.1
  | none => 0

/-- Every slot is written: VERIFY begins. -/
def verifyBegin (s : State) : State :=
  match s.ck.rs with
  | none => s
  | some r => if r.filling && dget s Key.restoreState == 1 && decide (r.next ≥ r.count) then restoreVerify s r else s

/-- VERIFY begins or goes on: SPINs are issued, and with the last of them complete the restore is READY. -/
def verifyStep (s0 : State) : State :=
  let s := verifyBegin s0
  if dget s Key.restoreState ≠ 2 then s
  else
    let s1 := issueSpins 1025 s
    match s1.ck.rs with
    | none => s1
    | some r => if r.spins.isEmpty && r.spinOps.isEmpty then restoreExit s1 .ok else s1

/-- An operation has completed: one of a restore's SPINs may have (R354). -/
def spinComplete (s : State) (k code : Nat) : State :=
  match s.ck.rs with
  | none => s
  | some r =>
    if r.spinOps.contains k then
      if code ≠ 0 then restoreExit s .spin
      else verifyStep (setRestore s { r with spinOps := sremove k r.spinOps })
    else s

/-! ### Filling (R354) -/

/-- The list the restore follows: the replica's, or without one the source's. -/
def Restore.list (r : Restore) : Tab (List Byte) := if r.replica = 0xFFFF then r.srcList else r.repList

/-- Write a page's granules at their device addresses (R353). -/
def writeGranules (s : State) (m : MemSys) (page mask : Nat) (b : List Byte) : State :=
  let js := maskGranules mask
  (List.range js.length).foldl (fun st i =>
    let off := page % 1536 * 2 ^ 21 + 4096 * js.getD i 0
    match originAddr m (page / 1536 / 32) (page / 1536 % 32) off with
    | none => st
    | some a => (hubWrite st true a ((b.drop (4096 * i)).take 4096)).2) s

/-- Ask the source peer for slots from an index (R350). -/
def askSource (s : State) (r : Restore) (first : Nat) : State :=
  if r.source ≥ 0xFFFD then s
  else sendCtrl s r.source 11 r.gen 0 (leBytes 4 r.origin ++ leBytes 4 first)

/-- A whole page of the next slot has arrived: it is checked, written, or fetched once more. -/
def takePage (s : State) (r : Restore) (b : List Byte) : State :=
  let k := r.next
  let e := tget [] r.list k
  let page := entryPage e
  let r1 := { r with buf := tset [] r.buf k [] }
  if r.replica ≠ 0xFFFF && pageDigest page (entryMask e) b != entryDigest e then
    if r.again.contains k then restoreExit s .verifyMismatch
    else askSource (setRestore s { r1 with again := k :: r.again }) r k
  else
    let s1 := dcount (setRestore s { r1 with next := k + 1, sched := if k = 0 then b else r.sched }) Key.restorePages
    if k = 0 then
      if layoutOk s1 b then
        let s2 := (writeSched s1 b).2
        dset { s2 with mem := { s2.mem with schedOpen := true } } Key.restoreSchedAddr (schedAddr s2.mem)
      else restoreExit s1 .layout
    else writeGranules s1 (originLayout r.sched) page (entryMask e) b

/-- The granules of the next slot, when all have arrived. -/
def Restore.ready (r : Restore) : Option (List Byte) :=
  let t := tget [] r.buf r.next
  let js := maskGranules (entryMask (tget [] r.list r.next))
  if js.isEmpty || js.any (fun j => (tget [] t j).isEmpty) then none else some (js.flatMap fun j => tget [] t j)

/-- Take the pages that have arrived, in increasing slot order; after the last comes VERIFY. -/
def fillStep : (fuel : Nat) → State → State
  | 0, s => s
  | fuel + 1, s =>
    match s.ck.rs with
    | none => s
    | some r =>
      if !r.filling || dget s Key.restoreState ≠ 1 then s
      else if r.next ≥ r.count then verifyStep s
      else r.ready.elim s fun b => fillStep fuel (takePage s r b)

/-- PAGE of a restore stream (R350): one granule. -/
def restorePage (s : State) (peer gen k j : Nat) (b : List Byte) : State :=
  match s.ck.rs with
  | none => s
  | some r =>
    if peer ≠ r.source ∨ gen ≠ r.gen ∨ k < r.next ∨ dget s Key.restoreState ≠ 1 then s
    else
      let r1 := { r with buf := tset [] r.buf k (tset [] (tget [] r.buf k) j (b.take 4096)) }
      fillStep (r1.count + 1) (setRestore s r1)

/-- A page of the host's copy has been read: the masked granules of the next slot (R351). -/
def hostPageRead (s : State) (b : List Byte) : State :=
  match s.ck.rs with
  | none => s
  | some r =>
    let n := (maskGranules (entryMask (tget [] r.list r.next))).length
    if r.source ≠ 0xFFFE ∨ !r.filling ∨ dget s Key.restoreState ≠ 1 ∨ b.length ≠ 4096 * n ∨ r.next ≥ r.count then s
    else fillStep 2 (takePage s r b)

/-- The lists have arrived: they are compared, and filling begins (R354). -/
def compareLists (s : State) : State :=
  match s.ck.rs with
  | none => s
  | some r =>
    if r.filling then s
    else
      let go := fun (_ : Unit) => askSource (setRestore s { r with filling := true }) r 0
      match r.srcEnd, r.repEnd with
      | some a, some b => if a == b then go () else restoreExit s .listMismatch
      | some _, none => if r.replica = 0xFFFF then go () else s
      | none, _ => s

/-- DIGESTS at a restoring module. -/
def restoreDigests (s : State) (peer gen first : Nat) (b : List Byte) : State :=
  match s.ck.rs with
  | none => s
  | some r =>
    if gen ≠ r.gen then s
    else
      let r1 := if peer = r.source then { r with srcList := layEntries r.srcList first b } else r
      setRestore s (if peer = r.replica then { r1 with repList := layEntries r1.repList first b } else r1)

/-- FREEZE_END that closes a list at a restoring module: the list it closes must have that digest. -/
def restoreListEnd (s : State) (peer gen count digest : Nat) : State :=
  match s.ck.rs with
  | none => s
  | some r =>
    if gen ≠ r.gen then s
    else
      let r1 := if peer = r.source then { r with srcEnd := some (count, digest) } else r
      let r2 := if peer = r.replica then
          { r1 with repEnd := some (count, listDigest (listBytes r1.repList count)) } else r1
      compareLists (setRestore s r2)

/-- The closing of a list held as bytes. -/
def listEnd (b : List Byte) : Nat × Nat := (b.length / 128, listDigest b)

/-- START is refused with SINGLE_SOURCE (R351): no replica, or the same holder twice; or a replica that R351 does not
permit. -/
def singleSource (s : State) : Bool :=
  let src := dget s Key.restoreSource
  let rep := dget s Key.restoreReplica
  (rep == 0xFFFD && dget s Key.restoreOrigin != Config.moduleId.toNat)
    || ((rep == 0xFFFF || rep == src) && dget s Key.allowUnverified != 1)

/-- START (R351, R352, R354). `hostList` is the digest list the host holds. -/
def restoreStart (s : State) (hostList : List Byte) : State :=
  if restoring s then dset s Key.restoreResult 9
  else if singleSource s then dset s Key.restoreResult 1
  else
    let src := dget s Key.restoreSource
    let rep0 := dget s Key.restoreReplica
    let rep := if rep0 = src then 0xFFFF else rep0
    let gen := dget s Key.restoreGen
    let origin := dget s Key.restoreOrigin
    let s1 := if origin = Config.moduleId.toNat then s else emptyHolder (emptyHolder s 0) 1
    let s2 := dset (dset (dset s1 Key.restoreState 1) Key.restorePages 0) Key.restoreUnverified
      (if rep = 0xFFFF then 1 else dget s Key.restoreUnverified)
    let own := (s.ck.own.find? (fun p => p.1 == gen)).map (·.2)
    let hostL := layEntries [] 0 hostList
    let r : Restore :=
      { source := src, replica := rep, origin := origin, gen := gen
        srcList := if src = 0xFFFE then hostL else []
        srcEnd := if src = 0xFFFE then some (listEnd hostList) else none
        repList := if rep = 0xFFFE then hostL else if rep = 0xFFFD then layEntries [] 0 (own.getD []) else []
        repEnd := if rep = 0xFFFE then some (listEnd hostList) else if rep = 0xFFFD then own.map listEnd else none }
    let s3 := setRestore s2 r
    if src ≥ 0xFFFD ∧ src ≠ 0xFFFE ∨ (src < 0xFFFD ∧ livePorts s src = []) then restoreExit s3 .sourceLost
    else if rep = 0xFFFD ∧ own.isNone then restoreExit s3 .listMismatch
    else if rep < 0xFFFD ∧ livePorts s rep = [] then restoreExit s3 .replicaLost
    else
      let ask := fun (st : State) p => if p ≥ 0xFFFD then st else sendCtrl st p 12 gen 0 (leBytes 4 origin)
      compareLists (ask (ask s3 rep) src)

/-- RESTORE_ABORT (R354). -/
def restoreAbort (s : State) : State := if restoring s then restoreExit s .aborted else s

/-- UNAVAILABLE from the source (R354). -/
def restoreUnavailable (s : State) (peer gen : Nat) : State :=
  match s.ck.rs with
  | none => s
  | some r => if peer = r.source ∧ gen = r.gen ∧ dget s Key.restoreState = 1 then restoreExit s .sourceLost else s

/-- REFUSE (R344, R354): from the partner it fails the freeze; from a holder asked it ends the request. -/
def refused (s : State) (peer gen : Nat) : State :=
  if s.ck.fz.any fun fz => fz.partner == some peer && fz.gen == gen then freezeFail s .holder
  else
    match s.ck.rs with
    | none => s
    | some r =>
      if dget s Key.restoreState ≠ 1 ∨ gen ≠ r.gen then s
      else if peer = r.source then restoreExit s .sourceLost
      else if peer = r.replica ∧ !r.filling then restoreExit s .listMismatch
      else s

/-- END_ACK (R342, R344). -/
def endAck (s : State) (peer gen : Nat) : State :=
  match s.ck.fz with
  | none => s
  | some fz => if fz.stream ∧ fz.ended ∧ fz.partner = some peer ∧ fz.gen = gen then freezeComplete s fz else s

/-- PAGE_DIGEST_DONE (R305): of the freeze in progress, or with the bytes of a host page, of a restore that reads the host's
copy. -/
def pageDigestDone (s : State) (unit : Nat) (host : List Byte) : State :=
  if host.isEmpty then digestPage s unit else hostPageRead s host

/-! ### Losing paths, peers and sessions -/

/-- A path of a peer is lost, or its session has changed (R344, R346, R354): the freeze with that partner, the fill
from it, and what the holder slots have of it. `gone`: no path is left, or the session is new. -/
def ckLost (s : State) (peer : Nat) (gone : Bool) : State :=
  let s1 := match s.ck.fz with
    | none => s
    | some fz => if fz.partner = some peer then freezeFail s .holder else s
  let s2 := match s1.ck.rs with
    | none => s1
    | some r =>
      if dget s1 Key.restoreState ≠ 1 then s1
      else if peer = r.source then restoreExit s1 .sourceLost
      else if peer = r.replica ∧ r.repEnd.isNone then restoreExit s1 .replicaLost
      else s1
  if gone then targetLost (abandon s2 peer) peer else s2

/-- A path is lost, with all that follows. -/
def pathLost (s : State) (peer port reason : Nat) : State :=
  if pathUp s peer port then
    let s1 := losePath s peer port reason
    ckLost s1 peer (livePorts s1 peer).isEmpty
  else s

/-- Every path of a peer is lost. -/
def peerLost (s : State) (peer reason : Nat) : State := (livePorts s peer).foldl (fun st p => pathLost st peer p reason) s

/-- A peer's session has changed (R317, R349): pairing is repeated. -/
def sessionChanged (s : State) (peer session : Nat) : State :=
  let s1 := ckLost (newSession s peer session) peer true
  if dget s1 Key.partnerHolder = peer then startPairing s1 else s1

/-- R354, R357: a channel has been fenced: a fill ends with LAYOUT, holder slots under it are discarded, and a freeze
with an unsent page on it fails. -/
def ckFenced (s : State) (st c : Nat) : State :=
  let s1 := if dget s Key.restoreState = 1 then restoreExit s .layout else s
  let s2 := holdersFenced s1
  match s2.ck.fz with
  | none => s2
  | some fz =>
    if fz.pages.any (fun p => p.1 / 1536 == 32 * st + c && (tget none s2.ck.pages p.1).isSome && fz.stream) then freezeFail s2 .memory
    else s2

/-! ### Sending all that can be sent -/

/-- Frames whose source cannot be read: the freeze fails, or the holder answers UNAVAILABLE. -/
def streamFailed (s : State) : State :=
  s.cord.broken.foldl (fun st f =>
    match f.slot with
    | some (0, _) => freezeFail st .memory
    | some (i, k) => pageUnavailable st (i - 1) k
    | none => st) { s with cord := { s.cord with broken := [] } }

/-- Send what may be sent, complete what is done. -/
def pumpTurn (s : State) : State :=
  serveAdvance (freezeStep (collCheckAll (streamFailed (pumpRounds (pumpFuel s) s))))

/-- Twice, so that a digest list queued by the first turn is sent. -/
def pump (s : State) : State := verifyStep (pumpTurn (pumpTurn s))

end Sys2Proof.Machine
end

