-- ==== Sys2Proof/Machine/Snapshot.lean ====
section
/-!
DEFINITION. Snapshot triggers, completion of a cut, halts, cross-module cuts and readout (R496–R505).
-/

namespace Sys2Proof.Machine

/-! ### Triggers (R498, R499, R503) -/

/-- R499: a trigger that cannot be served. -/
def snapMissed (s : State) : State := hubEvent (dcount s Key.snapMissed) 0x0801

/-- A wave is in flight, or the module is halted (R499). -/
def snapBusy (s : State) : Bool := s.snap.cut.isSome || dget s Key.snapState == 2

/-- A bit of `SNAP_SOURCES`. -/
def snapSource (s : State) (i : Nat) : Bool := bitOf (dget s Key.snapSources) i

/-- R503: MARKER frames on channels 0–15 of every path that is up. -/
def sendMarkers (s : State) (number origin : Nat) : State :=
  s.cord.up.foldl (fun st path =>
    (List.range 16).foldl (fun st1 ch => enqueue st1 (path * 16 + ch) { type := 9, arg := number, elem := origin }) st) s

/-- R503: join a cross-module cut and send its markers. -/
def joinCut (s : State) (origin number : Nat) : State :=
  let s1 := dset { s with snap := { s.snap with
    joined := ((origin, number) :: s.snap.joined).take 16, closed := [], xcount := [] } } Key.snapXcut number
  sendMarkers s1 number origin

/-- R496: launch a debug wave, of the cross-module identity given or of none. -/
def launchDebug (s : State) (xnum xorigin : Nat) : State :=
  launchWave (dset s Key.snapState 1) false ((dget s Key.snapCut + 1) % 2 ^ 16) xnum xorigin

/-- A local trigger (R498, R499): the module originates a cross-module cut when `SNAP_SOURCES` [3] says so. -/
def snapTrigger (s : State) : State :=
  if snapBusy s then snapMissed s
  else if snapSource s 3 then
    let n := (dget s Key.snapXcut + 1) % 2 ^ 32
    launchDebug (joinCut s Config.moduleId.toNat n) n Config.moduleId.toNat
  else launchDebug s 0 0

/-- A trigger of a source that acts only while armed. -/
def snapArmedTrigger (s : State) (source : Nat) : State :=
  if snapSource s source && dget s Key.snapArm == 1 then snapTrigger s else s

/-- SNAP_IN: an edge of the pin triggers in Run alone, after start-up (R513, R523). -/
def snapIn (s : State) : State := if s.pw.module = .run ∧ s.q.qeReady then snapArmedTrigger s 0 else s

/-- SNAP_TRIGGER: a write of the entry. -/
def writeSnapTrigger (s : State) (v : Nat) : State := if v = 1 then snapTrigger s else s

/-- The hub has accepted a record (R498). -/
def snapEvent (s : State) (source : Nat) : State :=
  if source = dget s Key.snapEvtSrc then snapArmedTrigger s 1 else s

/-- MARKER (R498, R503): a MARKER frame is applied on a channel. -/
def markerFrame (s : State) (key number origin : Nat) : State :=
  let id := (origin, number)
  let s1 :=
    if s.snap.joined.contains id then s
    else if snapSource s 2 && dget s Key.snapArm == 1 then
      if snapBusy s then snapMissed s else launchDebug (joinCut s origin number) number origin
    else s
  if s1.snap.joined.head? = some id then { s1 with snap := { s1.snap with closed := sinsert key s1.snap.closed } } else s1

/-- R502, R503: a frame received on a channel whose count is open. -/
def countCut (s : State) (key : Nat) : State :=
  if s.snap.joined.isEmpty || s.snap.closed.contains key then s
  else
    let k := key / 16 % 8 * 16 + key % 16
    { s with snap := { s.snap with xcount := tset 0 s.snap.xcount k (tget 0 s.snap.xcount k + 1) } }

/-! ### Completion (R496, R500) -/

/-- A freeze that waits for a wave or a halt launches (R499, R501). -/
def launchWaiting (s : State) : State :=
  match s.ck.fz with
  | none => s
  | some fz => if s.snap.freezeWaits && !snapBusy s then launchFreeze s fz.gen else s

/-- R500, R501: a debug cut is complete; the module is halted when it is to be, or when the cut has applied a hold. -/
def debugCutDone (s : State) (c : Cut) : State :=
  let s1 := dset (dset s Key.snapCut c.number) Key.snapArm 0
  let s2 := hubEvent s1 0x0800 0 (atByte 16 c.number + atByte 18 c.nulls + atByte 20 c.xnum + atByte 24 c.xorigin)
  dset { s2 with snap := { s2.snap with outHigh := true } } Key.snapState
    (if dget s2 Key.snapHalt = 1 ∨ s2.snap.held ≠ [] then 2 else 0)

/-- Complete the cut when nothing is owed any more. -/
def cutCheck (s : State) : State :=
  match s.snap.cut with
  | none => s
  | some c =>
    let s0 := dset s Key.snapPending (c.owed.length + c.acks.length)
    if c.owed.isEmpty && c.acks.isEmpty then
      let s1 := endWave s0
      launchWaiting (if c.freeze then freezeCutDone s1 c.number c.nulls else debugCutDone s1 c)
    else s0

/-- MARKER_ACK (R496): the hub receives the acknowledgement, or null record, of a block. -/
def markerAck (s : State) (ut u : Nat) : State :=
  match s.snap.cut with
  | none => s
  | some c =>
    match (c.acks.find? (fun a => a.1 == blockKey ut u)).bind (fun a => (emberArrival s (.markerAck a.1 a.2)).map (a, ·)) with
    | none => s
    | some (a, m) =>
      let s := takeEmber s m
      cutCheck { s with snap := { s.snap with cut := some { c with
        acks := c.acks.filter (fun b => b.1 != blockKey ut u), nulls := c.nulls + (if a.2 then 1 else 0) } } }

/-- SNAP_OUT_PULSE_END (R500). -/
def snapOutEnd (s : State) : State := { s with snap := { s.snap with outHigh := false } }

/-- SNAP_RESUME (R501): the holds of a halted cut are released. -/
def snapResume (s : State) (v : Nat) : State :=
  if v ≠ 1 ∨ dget s Key.snapState ≠ 2 then s
  else
    let s1 := (s.snap.held.filter (fun e => decide (e < 1024))).foldl
      (fun st e => setEng st e { getEng st e with haltHold := false }) s
    launchWaiting (dset { s1 with snap := { s1.snap with held := [] } } Key.snapState 0)

/-! ### Readout (R504) -/

/-- The words of a bank as software reads them: a Cord port's counts of the cut joined last go on until each
channel's marker (R502, R503). -/
def bankRead (s : State) (key : Nat) : List Nat :=
  let b := tget [] s.snap.banks key
  if key / 4096 = 7 && decide (b.length = 20) then
    b.take 4 ++ (List.range 16).map fun c => tget 0 s.snap.xcount (key % 4096 * 16 + c)
  else if b.isEmpty then [bankHeader 0 0 0 key] else b

/-- Twelve bytes of an accumulator bank's slot (R166). -/
def slotBytes12 (w : WAcc) : List Byte := leBytes 10 w.pack ++ leBytes 2 (w.res % 8)

/-- An engine's current accumulator bank (R166, R504): that of its tile in progress, else of the oldest tile it holds
pre-empted whose bank has not been spilled (R174), else of the tile that drains first. -/
def Engine.bankNow (g : Engine) : Tab WAcc :=
  match g.cur with
  | some t => t.bank
  | none =>
    match g.saved.find? (fun t => !t.spilled) with
    | some t => t.bank
    | none => (g.drains.head?.map (·.bank)).getD []

/-- The bytes of an engine's current accumulator bank from an offset. -/
def engineBank (s : State) (e off n : Nat) : List Byte :=
  let bank := (getEng s e).bankNow
  let first := off / 12
  let bytes := (List.range (n / 12 + 2)).flatMap fun i => slotBytes12 (tget {} bank (first + i))
  (bytes.drop (off % 12)).take n

/-- `SNAP_READ_STATUS` and the 1,024 bytes of `SNAP_DATA` (R504): 0 OK, 1 BUSY, 2 NO_BLOCK. -/
def snapRead (s : State) : Nat × List Byte :=
  let b := dget s Key.snapBlock
  let ut := b / 2 ^ 28
  let u := b / 2 ^ 16 % 2 ^ 12
  let off := dget s Key.snapOffset
  let zeros := List.replicate 1024 0#8
  if ut ≥ 8 ∨ u ≥ blockCount ut then (2, zeros)
  else if off ≥ 0x1_0000 then
    if ut ≠ 0 then (0, zeros)
    else if [0, 5, 6].contains (getEng s u).posState then (0, padTo 1024 (engineBank s u (off - 0x1_0000) 1024))
    else (1, zeros)
  else (0, padTo 1024 (((bankRead s (blockKey ut u)).flatMap (leBytes 8)).drop off))

end Sys2Proof.Machine
end

