-- ==== Sys2Proof/Machine/CordRx.lean ====
section
/-!
DEFINITION. Receiving Cord frames (R310–R321): sessions, sequences, acknowledgements and go-backs; what each frame
type does; heartbeats and paths, heat holds, timers, ports and the peer table.
-/

namespace Sys2Proof.Machine

/-! ### What every frame meets (R313–R317, R331) -/

/-- The path belongs to a valid peer and its port is not down. -/
def pathExists (s : State) (peer port : Nat) : Bool :=
  peerValid s peer && decide (port < 8) && bitOf (getPeer s peer).portMask port && s.cord.started

/-- A frame dropped by R310 or R313. -/
def cordDrop (s : State) : State := dcount s Key.cordDrops

/-- A code of R220. -/
def formatCode (c : Nat) : Bool := (Fmt.ofCode c).isSome

/-- What a port makes of a frame (R310–R313). -/
def portVerdict (s : State) (port type : Nat) (f : CordFrame) : Verdict :=
  frameVerdict (portMac port) (dget s Key.cordEthertype) (dget s Key.cordVlan) formatCode type f

/-- A frame reaches a port: it is counted when it is dropped (R310, R313), and goes on as `k` says when it is accepted. A port
that is not up receives nothing. -/
def rxCheck (s : State) (port type : Nat) (f : CordFrame) (k : State → CordFrame → State) : State :=
  if !portOpen s port then s
  else
    match portVerdict s port type f with
    | .accept => k s { f with payload := f.payload.take (64 * f.len) }
    | .ignore => s
    | .drop => cordDrop s
    | .crcDrop => dcount s Key.cordCrcDrops

/-- A frame has come in on a path: its counts, its session, and the end of a hold that it proves over (R317, R331,
R334). None: it carries an old session and is dropped. -/
def rxSession (s : State) (peer port : Nat) (f : CordFrame) (hold : Bool) : Option State :=
  let s0 := { s with cord := { s.cord with portRx := tset 0 s.cord.portRx port (tget 0 s.cord.portRx port + 1) } }
  let seen := tget 0 s0.cord.peerSess peer
  if (tget [] s0.cord.oldSess peer).contains f.session ∧ f.session ≠ seen then none
  else
    let s1 := if seen = 0 then
        { s0 with cord := { s0.cord with peerSess := tset 0 s0.cord.peerSess peer f.session } }
      else if f.session ≠ seen then sessionChanged s0 peer f.session else s0
    some (if hold then s1 else { s1 with cord := { s1.cord with peerHeat := sremove peer s1.cord.peerHeat } })

/-- A frame on a path that is up (log 57); others are dropped. -/
def rxFrame (s : State) (peer port : Nat) (f : CordFrame) (k : State → State) : State :=
  if !pathExists s peer port || !pathUp s peer port then s
  else
    match rxSession s peer port f false with
    | none => s
    | some s1 => pump (k (countCut s1 (chanKey peer port (f.chan % 16))))

/-- Some group of a started job has the identity, number and rank a frame names (R313): one with a collective posted, or one
of a job's group table. A table that must wait to be read tells against no frame. -/
def groupKnown (s : State) (f : CordFrame) : Bool :=
  (collOf s f).isSome || s.jobs.any fun p =>
    decide (f.group < p.2.desc.groupCount) &&
      (match (devRead s hubVia false (p.2.desc.groupTable + 32 * f.group) 32).1 with
       | .ok b => leField b 0 4 == f.job && leField b 6 2 == f.dstRank
       | .error e => e == .waits)

/-! ### Sequenced frames (R320) -/

/-- What a receiver makes of the expected frame. -/
inductive Taken where
  | done (s : State)
  /-- dropped and not taken: the sender goes back to it (R313, R321) -/
  | drop (s : State)
  | notPosted
  | busy

/-- Send an ACK of a channel. -/
def sendAck (s : State) (key : Nat) : State :=
  let c := getChan s key
  sendPlain (setChan s key { c with owed := 0 }) (key / 128) (key / 16 % 8) (key % 16)
    { type := 3, arg := (c.expected + 2 ^ 32 - 1) % 2 ^ 32 }

/-- Send a NAK: 0 GAP, 1 BUSY, 2 NOT_POSTED. -/
def sendNak (s : State) (key code : Nat) : State :=
  sendPlain s (key / 128) (key / 16 % 8) (key % 16) { type := 4, arg := (getChan s key).expected, code := code }

/-- R320: handle a sequenced frame. -/
def rxSeq (s : State) (key : Nat) (f : CordFrame) (take : State → Taken) : State :=
  let c := getChan s key
  if f.seq = c.expected then
    match take s with
    | .notPosted => sendNak (setChan s key { c with gapSent := false }) key 2
    | .busy => sendNak (setChan s key { c with gapSent := false }) key 1
    | .drop s1 => s1
    | .done s1 =>
      let c1 := getChan s1 key
      let s2 := setChan s1 key
        { c1 with expected := (c1.expected + 1) % 2 ^ 32, owed := c1.owed + 1, gapSent := false }
      if c1.owed + 1 ≥ 8 then sendAck s2 key else s2
  else if (f.seq + 2 ^ 32 - c.expected) % 2 ^ 32 < 2 ^ 31 then
    if c.gapSent then s else sendNak (setChan s key { c with gapSent := true }) key 0
  else sendAck s key

/-- A sequenced frame of a path. -/
def rxSequenced (s : State) (peer port : Nat) (f : CordFrame) (take : State → Taken) : State :=
  rxFrame s peer port f fun s1 => rxSeq s1 (chanKey peer port (f.chan % 16)) f take

/-! ### Collective frames (R324, R326, R330, R332) -/

/-- Split a payload into requests: contributions of one 64-byte atom, at most 32 (R295). -/
def frameChunks (eb : Nat) : (fuel : Nat) → List Byte → List (List Nat)
  | 0, _ => []
  | fuel + 1, b =>
    match b with
    | [] => []
    | _ =>
      let n := min 32 (64 / eb)
      ((List.range (min n (b.length / eb))).map fun i => leField b (eb * i) eb) :: frameChunks eb fuel (b.drop (n * eb))

/-- A residue check of the lanes fails in a request of a peer's frame (R292): `i` numbers the request in its frame, and
`again` says that the repeated request fails as well. -/
structure RaHit where
  i : Nat
  lane : Nat
  again : Bool
  deriving DecidableEq, Repr

/-- The residue checks of a request of a peer's frame at hearth h: whether it may be applied, once repeated or not (R292).
`bad` is the lane of an accumulator whose residue disagrees (R134), which fails again. -/
def frameRequestCheck (s : State) (h i : Nat) (bad : Option Nat) (hit : Option RaHit) : Bool × State :=
  let mine := (bad.map fun l => ({ i := i, lane := l, again := true } : RaHit)).or (hit.filter fun x => x.i == i)
  match takeHit s 2 h [.resHearth] (mine.map fun _ => .resHearth) with
  | (none, s1) => (true, s1)
  | (some (_, inj), s1) =>
    let lane := ((mine.map (·.lane)).getD 0) % 128
    let s2 := laneFault s1 h lane 0 true inj
    if retiredLanes s2 h > 16 then (false, s2)
    else
      let s3 := dcount s2 (Key.hearthGroupRetry + h)
      match takeHit s3 2 h [.resHearth] ((mine.filter (·.again)).map fun _ => .resHearth) with
      | (none, s4) => (true, s4)
      | (some (_, inj2), s4) => (false, laneFault s4 h lane 0 false inj2)

/-- How the requests of an RA frame ended: one waits (none), or the first code that is not 0, with the position in the frame of
the first element refused. -/
def applyChunks (s : State) (v : Via) (fmt : Fmt) (bb : Int) (addr i pos : Nat) (hit : Option RaHit) :
    List (List Nat) → Option (Nat × Nat) × State
  | [] => (some (0, pos), s)
  | c :: r =>
    let h := (ownerOf s v addr).getD 0
    if hearthHeld s h || raWaits s (atomsOf s.mem v addr (16 * c.length)) || heldBack s v addr (16 * c.length) then (none, s)
    else
      match frameRequestCheck s h i (accResidueBad s v addr c.length) hit with
      | (false, s1) => (some (0x01, pos), s1)
      | (true, s1) =>
        match applyRa s1 v 0 addr (c.map (readElem fmt bb 0)) with
        | (.waits, s2) => (none, s2)
        | (.ended 0, s2) => applyChunks s2 v fmt bb (addr + 16 * c.length) (i + 1) (pos + c.length) hit r
        | (.ended e, s2) => (some (e, pos), s2)

/-- Count what has been applied of a rank's shard. -/
def collGot (s : State) (c : Coll) (rank n : Nat) : State := setColl s { c with got := tset 0 c.got rank (tget 0 c.got rank + n) }

/-- RA (R320, R324, R328, R332). A frame that cannot belong to the collective is dropped (R322). -/
def takeRa (s : State) (peer port : Nat) (f : CordFrame) (hit : Option RaHit) : Taken :=
  match collOf s f with
  | none => .notPosted
  | some c =>
    if c.aborted.isSome then .done s
    else
      match Fmt.ofCode f.code with
      | none => .drop (cordDrop s)
      | some fmt =>
        let n := f.payload.length / fmt.bytes
        if c.gather || !fmt.accumulates || decide (f.elem + n > c.shard) || decide (f.srcRank ≥ c.members) then
          .drop (cordDrop s)
        else
          let chunks := frameChunks fmt.bytes (f.payload.length + 1) f.payload
          match applyChunks s { home := c.home } fmt c.x.bb (c.accBase + 16 * f.elem) 0 0 hit chunks with
          | (none, _) => .busy
          | (some (0, _), s1) => .done (collGot s1 c f.srcRank n)
          | (some (5, pos), s1) =>
            .done (collAbort (sendPlain s1 peer port f.chan
              { c.header 5 f.srcRank with arg := f.seq, elem := f.elem + pos }) c.post 5 f.srcRank)
          | (some _, s1) => .done (collAbort s1 c.post 9 f.srcRank)

/-- GATHER (R320, R326). -/
def takeGather (s : State) (f : CordFrame) : Taken :=
  match collOf s f with
  | none => .notPosted
  | some c =>
    if c.aborted.isSome then .done s
    else
      let n := f.payload.length
      if !c.gather || decide (64 * f.elem + n > c.shard) || decide (f.srcRank ≥ c.members) then .drop (cordDrop s)
      else
        match devWrite s { home := c.home } false (c.yBase + f.srcRank * c.shard + 64 * f.elem) f.payload with
        | (some .waits, _) => .busy
        | (some .fenced, s1) => .done (collGot s1 c f.srcRank n)
        | (some e, s1) => .done (collAbort s1 c.post (readReason e) f.srcRank)
        | (none, s1) => .done (collGot s1 c f.srcRank n)

/-- A frame that names a group: dropped and counted when none matches (R313). -/
def inGroup (s : State) (f : CordFrame) (k : State → State) : State := if groupKnown s f then k s else cordDrop s

/-- A sequenced frame that names a group. -/
def rxGroup (s : State) (peer port : Nat) (f : CordFrame) (take : State → Taken) : State :=
  inGroup s f fun s1 => rxSequenced s1 peer port f take

/-- ASH_NAK and ABORT: the collective that the frame names aborts (R330, R332). -/
def rxEnds (s : State) (peer port : Nat) (f : CordFrame) (reason : Nat) : State :=
  inGroup s f fun s0 => rxFrame s0 peer port f fun s1 =>
    match collOf s1 f with
    | none => s1
    | some c => collAbort s1 c.post reason f.srcRank

/-! ### ACK and NAK (R319–R321) -/

/-- ACK (R320): the window moves on. -/
def rxAck (s : State) (peer port : Nat) (f : CordFrame) : State :=
  rxFrame s peer port f fun s1 =>
    let key := chanKey peer port (f.chan % 16)
    let c := getChan s1 key
    let late := c.unacked.filter fun g => decide ((g.seq + 2 ^ 32 - f.arg % 2 ^ 32 - 1) % 2 ^ 32 < 2 ^ 31)
    if late.length = c.unacked.length then s1 else setChan s1 key { c with unacked := late, goBacks := 0, rnr := none }

/-- A go-back that counts (R321): past `CORD_RETRY_MAX` the path is lost. -/
def goBack (s : State) (key from_ : Nat) : State :=
  let c := getChan s key
  if c.goBacks + 1 > dget s Key.cordRetryMax then pathLost s (key / 128) (key / 16 % 8) 2
  else resend (setChan s key { c with goBacks := c.goBacks + 1 }) key from_

/-- NAK (R321): 0 GAP, 1 BUSY, 2 NOT_POSTED. -/
def rxNak (s : State) (peer port : Nat) (f : CordFrame) : State :=
  rxFrame s peer port f fun s1 =>
    let key := chanKey peer port (f.chan % 16)
    let c := getChan s1 key
    if c.unacked.isEmpty then s1
    else if f.code = 0 then goBack s1 key f.arg
    else setChan s1 key { c with rnr := some f.arg }

/-- A timer of a channel whose path is up. -/
def chanTimer (s : State) (peer port ch : Nat) (k : Nat → Chan → State) : State :=
  if pathUp s peer port then pump (k (chanKey peer port (ch % 16)) (getChan s (chanKey peer port (ch % 16)))) else s

/-- CORD_RTO_EXPIRY (R320, R321, R334): a NAK GAP may be sent again; the sender goes back, unless a wait after a NAK runs: then
the NAK governs. -/
def rtoExpiry (s : State) (peer port ch : Nat) : State :=
  chanTimer s peer port ch fun key c =>
    let s1 := setChan s key { c with gapSent := false }
    match c.unacked with
    | [] => s1
    | g :: _ => if c.rnr.isSome then s1 else goBack s1 key g.seq

/-- CORD_RNR_WAIT_EXPIRY (R321). -/
def rnrExpiry (s : State) (peer port ch : Nat) : State :=
  chanTimer s peer port ch fun key c =>
    match c.rnr with
    | none => s
    | some a => resend (setChan s key { c with rnr := none }) key a

/-- ACK_TIMER (R320). -/
def ackTimer (s : State) (peer port ch : Nat) : State :=
  chanTimer s peer port ch fun key c => if c.owed = 0 then s else sendAck s key

/-! ### Heartbeats and paths (R315–R317) -/

/-- HEARTBEAT (R315, R349): the path comes up when its identity matches. -/
def rxHeartbeat (s : State) (peer port : Nat) (f : CordFrame) : State :=
  if !pathExists s peer port || dget s (Key.cordPortState + port) != 2 then s
  else if leField f.payload 0 4 ≠ (getPeer s peer).moduleId then hubEvent s 0x0401
  else
    match rxSession s peer port f false with
    | none => s
    | some s1 =>
      if pathUp s1 peer port then s1
      else
        let first := (livePorts s1 peer).isEmpty
        let s2 := hubEvent { s1 with cord := { s1.cord with up := sinsert (pathKey peer port) s1.cord.up } } 0x0400
        if first && dget s2 Key.partnerHolder == peer && dget s2 Key.pairState != 2 then pump (startPairing s2) else s2

/-- HEARTBEAT_SEND (R315): on a path idle for 65,536 counts. -/
def heartbeatSend (s : State) (peer port : Nat) : State :=
  if pathExists s peer port && dget s (Key.cordPortState + port) == 2 then
    sendPlain s peer port 0 { type := 6, src := .lit (leBytes 64 Config.moduleId.toNat) }
  else s

/-- PATH_SILENCE_TIMEOUT (R315). -/
def pathSilent (s : State) (peer port : Nat) : State := pump (pathLost s peer port 2)

/-- GOING_DOWN (R315, R334): on any path of the peer, every path of the peer is lost and what is pending toward it dropped. -/
def rxGoingDown (s : State) (peer port : Nat) (f : CordFrame) : State :=
  if !pathExists s peer port then s
  else
    match rxSession s peer port f false with
    | none => s
    | some s1 => pump (dropPending (peerLost s1 peer 3) peer)

/-- PORT_STATE_CHANGE (R309, R315): a port trains up or goes down. -/
def portChange (s : State) (port : Nat) (up : Bool) : State :=
  if port ≥ 8 ∨ !s.cord.started then s
  else
    let enabled := bitOf (dget s Key.cordPortEnable) port
    let new := if !enabled then 3 else if up then 2 else 0
    if dget s (Key.cordPortState + port) = new then s
    else
      let s1 := hubEvent (dset s (Key.cordPortState + port) new) 0x0403
      if new = 2 then s1
      else pump ((s1.cord.up.filter fun k => k % 8 == port).foldl (fun st k => pathLost st (k / 8) port 2) s1)

/-- A write of `CORD_PORT_ENABLE` (R309): a port no longer enabled is idle; one enabled anew trains. -/
def portEnables (s : State) : State :=
  (List.range 8).foldl (fun st p =>
    if !bitOf (dget st Key.cordPortEnable) p then portChange st p false
    else if dget st (Key.cordPortState + p) = 3 ∧ st.cord.started then hubEvent (dset st (Key.cordPortState + p) 1) 0x0403
    else st) s

/-- CORD_PEER_COUNT_WRITE (R314): the hub reads the peer table; the status of R430. -/
def writePeerCount (s : State) (v : Nat) : State × Nat :=
  if v > 4096 then (s, 3)
  else
    match devRead s hubVia false (dget s Key.cordPeerTable) (16 * v) with
    | (.error _, s1) => (s1, 0x0B)
    | (.ok b, s1) =>
      let rec_ := fun i =>
        let e := (b.drop (16 * i)).take 16
        ({ mac := leField e 0 6, portMask := leField e 6 1, valid := bitOf (leField e 7 1) 0
           moduleId := leField e 8 4 } : Peer)
      let s2 := dset { s1 with cord := { s1.cord with peers := (List.range v).map rec_ } } Key.cordPeerCount v
      let gone := s2.cord.up.filter fun k => !pathExists s2 (k / 8) (k % 8)
      (pump (gone.foldl (fun st k => pathLost st (k / 8) (k % 8) 2) s2), 0)

/-- A type whose frames name a group (R312). -/
def namesGroup (type : Nat) : Bool := [1, 2, 5, 12].contains type

/-- CORD_FRAME_DROP (R310, R313): the bytes of a frame come in, and whether their FCS is right; a frame that fails a check is
dropped and counted. One that passes is for the command of its type. -/
def frameDrop (s : State) (port : Nat) (b : List Byte) (fcs : Bool) : State :=
  let (type, f) := parseFrame b
  rxCheck s port type { f with fcsOk := fcs } fun s1 g => if namesGroup type then inGroup s1 g fun s2 => s2 else s1

/-! ### Heat holds (R331) -/

/-- Held stacks (R288). -/
def heldStacks (s : State) : List Nat := (List.range 20).filter (stackHeld s)

/-- Peers with which a collective is posted, an aborted one until it has aged (R327). -/
def collPeers (s : State) : List Nat :=
  s.cord.posted.foldl (fun l c =>
    c.others.foldl (fun l r => sinsert (c.peers.getD r 0) l) l) []

/-- Send HEAT_HOLD on one live path to each such peer. -/
def sendHeat (s : State) (code : Nat) : State :=
  (collPeers s).foldl (fun st p =>
    match livePorts st p with
    | [] => st
    | port :: _ => sendPlain st p port 0 { type := 8, arg := if code = 1 then (heldStacks s).headD 0 else 0, code := code }) s

/-- R331: the notices when a hold of the module's stacks begins or ends. -/
def heatNotices (s : State) : State :=
  let held := !(heldStacks s).isEmpty
  if held == s.cord.heatSent then s
  else { sendHeat s (if held then 1 else 0) with cord := { s.cord with heatSent := held } }

/-- HEAT_HOLD_REPEAT (R331). -/
def heatRepeat (s : State) : State := if s.cord.heatSent then sendHeat s 1 else s

/-- HEAT_HOLD (R331). -/
def rxHeat (s : State) (peer port : Nat) (f : CordFrame) : State :=
  if !pathExists s peer port || !pathUp s peer port then s
  else
    match rxSession s peer port f (f.code == 1) with
    | none => s
    | some s1 =>
      { s1 with cord := { s1.cord with
          peerHeat := if f.code = 1 then sinsert peer s1.cord.peerHeat else sremove peer s1.cord.peerHeat } }

/-- The progress timer of a collective is suspended (R331). -/
def suspended (s : State) (c : Coll) : Bool :=
  decide (dget s Key.heatHoldLimit ≠ 0)
    && (s.cord.heatSent || c.others.any fun r => s.cord.peerHeat.contains (c.peers.getD r 0))

/-- COLL_TIMEOUT (R329). -/
def collTimeout (s : State) (post : Nat) : State :=
  match getColl s post with
  | none => s
  | some c => if c.aborted.isSome || suspended s c then s else pump (collAbort s post 1)

/-- HEAT_HOLD_LIMIT (R331). -/
def heatLimit (s : State) (post : Nat) : State :=
  match getColl s post with
  | none => s
  | some c => if c.aborted.isNone && suspended s c then pump (collAbort s post 4) else s

/-- ABORT_AGEING (R330). -/
def abortAgeing (s : State) (post : Nat) : State :=
  match getColl s post with
  | none => s
  | some c => if c.aborted.isSome then dropColl s post else s

/-! ### MARKER, PAGE and CTRL frames (R346, R349, R350, R503) -/

/-- MARKER. -/
def rxMarker (s : State) (peer port : Nat) (f : CordFrame) : State :=
  if !pathExists s peer port || !pathUp s peer port then s
  else
    match rxSession s peer port f false with
    | none => s
    | some s1 =>
      let key := chanKey peer port (f.chan % 16)
      pump (rxSeq s1 key f fun s2 => .done (markerFrame s2 key f.arg (f.elem % 2 ^ 32)))

/-- PAGE. -/
def rxPage (s : State) (peer port : Nat) (f : CordFrame) : State :=
  rxSequenced s peer port f fun s1 =>
    let k := f.elem % 2 ^ 20
    let j := f.elem / 2 ^ 20 % 2 ^ 20
    if f.payload.length ≠ 4096 then .drop (cordDrop s1)
    else if f.code = 1 then .done (restorePage s1 peer f.arg k j f.payload)
    else
      match pageReceive s1 peer f.arg k j f.payload with
      | (.busy, _) => .busy
      | (.applied, s2) => .done s2

/-- A CTRL frame of message `code` (R350), applied by `k`. -/
def rxCtrl (s : State) (peer port code : Nat) (f : CordFrame) (k : CordFrame → State → State) : State :=
  rxCheck s port 11 { f with code := code } fun s1 g => rxSequenced s1 peer port g fun s2 => .done (k g s2)

/-- FREEZE_END of a holder's slot, or the closing of a list at a restoring module. -/
def anyFreezeEnd (s : State) (peer : Nat) (f : CordFrame) : State :=
  let count := leField f.payload 0 4
  let digest := leField f.payload 4 48
  if (receivingSlot s peer f.arg).isSome then freezeEnd s peer f.arg count digest
  else restoreListEnd s peer f.arg count digest

/-- DIGESTS for a holder's slot, or at a restoring module. -/
def anyDigests (s : State) (peer : Nat) (f : CordFrame) : State :=
  match receivingSlot s peer f.arg with
  | some i =>
    let h := holder s i
    setHolder s i { h with list := layEntries h.list f.elem f.payload }
  | none => restoreDigests s peer f.arg f.elem f.payload

/-- BEGIN_ACK (R346): the holder's slot size. -/
def beginAck (s : State) (peer slots : Nat) : State :=
  if pairedWith s = some peer then { s with ck := { s.ck with partnerSlots := slots } } else s

end Sys2Proof.Machine
end

