-- ==== Sys2Proof/Machine/MemCmds.lean ====
section
/-!
DEFINITION. What hearths do with requests, atomics, errors, scrubbing, fences and heat (chapter "Memory
system", R267, R281–R288).
-/

namespace Sys2Proof.Machine

/-! ### Fencing a channel (R287) -/

/-- The channel of a physical atom number, as 32 × stack + channel; 640 or more for hearth memory. -/
def atomChannel (atom : Nat) : Nat := atom * 64 / channelBytes

/-- A request whose first byte lies on channel c of stack st. -/
def reqOnChannel (s : State) (st c : Nat) (r : MemReq) : Bool :=
  match (r.via s.mem).resolve s.mem r.addr with
  | some (.hbm st' c' _) => st' == st && c' == c
  | some (.hearth _ _) => false
  | none => false

/-- R287: fence a channel: its lines are dropped, requests waiting at its hearth are taken up again (and answered as
fenced), its `MAPOUT_REQ` bit is set, and the fault and the event are raised. A channel already fenced, or out of service,
is left as it is. -/
def fenceChannel (s : State) (st c : Nat) (inj : Bool := false) : State :=
  if chanFenced s.mem st c || !chanLive s.mem st c then s
  else
    let m := dropLines s.mem (fun a => atomChannel a == 32 * st + c)
    let back := s.mem.holdq.filter fun p => reqOnChannel s st c p.2
    let s1 := { s with mem := { m with
      fenced := tset 0 m.fenced st (setBit (tget 0 m.fenced st) c true)
      holdq := m.holdq.filter fun p => !reqOnChannel s st c p.2
      reqs := back.map (·.2) ++ m.reqs } }
    let s2 := { dset s1 (Key.mapoutReq + st) (setBit (dget s1 (Key.mapoutReq + st)) c true) with
      flash := { s1.flash with mapout := tset 0 s1.flash.mapout st (setBit (tget 0 s1.flash.mapout st) c true) } }
    let s3 := localEvent s2 (32 + dieOfStack st) (8 * (st % 5) + 6) 0x0302 2 0 0
    ckFenced (raiseFault s3 { mech := .fence, inj := inj, utype := 2, unit := st, locA := 4, locB := c }) st c

/-- Every live channel of a stack. -/
def fenceStack (s : State) (st : Nat) : State := (List.range 32).foldl (fun s1 c => fenceChannel s1 st c) s

/-! ### Errors (R284) -/

/-- The event of R285 is due: the channel's corrected errors of this pass have just reached the threshold. -/
def ceThresholdMet (s : State) (n : Nat) : Bool := decide (n = max 1 (dget s Key.ceEventThreshold))

/-- A corrected error of a hearth's memory, counted for the hearth (R284). -/
def hearthCorrected (s : State) (h : Nat) : State :=
  { s with mem := { s.mem with ceTotal := tset 0 s.mem.ceTotal (640 + h) (tget 0 s.mem.ceTotal (640 + h) + 1) } }

/-- A corrected error at a place: counted for its channel or hearth (R284); at the threshold of R285, its event. An atom
that the cache holds is read from hearth memory. -/
def correctedError (s : State) (l : Loc) : State :=
  match l with
  | .hearth h _ => hearthCorrected s h
  | .hbm st c _ =>
   if (cacheLine s.mem l.atom).isSome then hearthCorrected s st
   else
    let k := 32 * st + c
    let n := tget 0 s.mem.cePass k + 1
    let s1 := { s with mem := { s.mem with
      ceTotal := tset 0 s.mem.ceTotal k (tget 0 s.mem.ceTotal k + 1), cePass := tset 0 s.mem.cePass k n } }
    if ceThresholdMet s1 n then localEvent s1 (32 + dieOfStack st) (8 * (st % 5) + 5) 0x0301 2 0 0 else s1

/-- Distinct atoms poisoned on a channel since module reset. -/
def poisonedOn (s : State) (st c : Nat) : Nat := (s.mem.poisonSeen.filter fun a => atomChannel a == 32 * st + c).length

/-- An uncorrectable error at a place: the atom is poisoned, HBM_UE is reported, and the channel is fenced when
its count of distinct poisoned atoms is reached (R284, R287, R365). The error of an atom that the cache holds is one of
hearth memory, not of the channel; where in hearth memory the line stands is a free value (log 6). -/
def uncorrectable (s : State) (l : Loc) (inj : Bool) : State :=
  let s1 := { s with mem := poisonAtom s.mem l.atom }
  match l with
  | .hearth h off => raiseFault s1 { mech := .hbmUe, inj := inj, utype := 2, unit := h, locA := 3, locC := off / 64 }
  | .hbm st c off =>
   if (cacheLine s.mem l.atom).isSome then
    let (k, s2) := drawFree { s1 with mem := { s1.mem with poisonSeen := s.mem.poisonSeen } }
    raiseFault s2 { mech := .hbmUe, inj := inj, utype := 2, unit := st, locA := 3, locC := k % (hearthBytes / 64) }
   else
    let s2 := raiseFault s1 { mech := .hbmUe, inj := inj, utype := 2, unit := st, locA := 4, locB := c, locC := off / 64 }
    if poisonedOn s2 st c ≥ dget s2 Key.fenceUeCount then fenceChannel s2 st c else s2

/-- An atom is read from its memory and its code finds `err`; an injected HBM_UE of its hearth fires (R383). -/
def atomError (s : State) (l : Loc) (err : AtomErr) : State :=
  match takeHit s 2 l.owner [.hbmUe] (if err = .uncorrectable then some .hbmUe else none) with
  | (some (_, inj), s1) => if isPoisoned s1.mem l.atom then s1 else uncorrectable s1 l inj
  | (none, s1) => if err = .corrected then correctedError s1 l else s1

/-! ### Requests (R267, R280, R288) -/

/-- The requester whose order of issue R30 keeps: the hub's completions are the hub's. -/
def Requester.source : Requester → Requester
  | .completion _ _ _ _ => .host
  | .seq q => .seq q
  | .host => .host
  | .bar2 => .bar2
  | .agent d => .agent d

/-- Two requests meet in an atom. -/
def MemReq.meets (m : MemSys) (a b : MemReq) : Bool := a.touches m (atomsOf m (b.via m) b.addr b.len)

/-- Two requests of one requester and class that meet in an atom keep their order (R30). -/
def MemReq.before (m : MemSys) (a b : MemReq) : Bool := a.who.source == b.who.source && a.bulk == b.bulk && a.meets m b

/-- A request that has arrived at its hearth goes before a later one that meets it in an atom which one of them changes
(R282). -/
def MemReq.ahead (m : MemSys) (a b : MemReq) : Bool := (a.changes || b.changes) && a.meets m b

/-- A request must stay behind one of those given or behind one in a hold queue (R30, R282). -/
def behind (s : State) (earlier : List MemReq) (r : MemReq) : Bool :=
  earlier.any (fun q => q.before s.mem r || (q.arrived && q.ahead s.mem r))
    || s.mem.holdq.any (fun p => p.2.before s.mem r || p.2.ahead s.mem r)
    || raWaits s (atomsOf s.mem (r.via s.mem) r.addr r.len)

/-- A reply sets out for its requester (R458). -/
def sendReply (s : State) (r : MemReq) (a : MemAnswer) : State :=
  { s with mem := { s.mem with replies := s.mem.replies ++
      [{ who := r.who, epoch := r.epoch, ans := a, no := r.no, addr := r.addr, len := r.len, write := r.wdata.isSome
         post := waveLatched s (emberSource 2 ((ownerOf s (r.via s.mem) r.addr).getD 0)) }] } }

/-- Put a request that waits into its hearth's hold queue of 4,096; while that is full it stays where it was, at its
sender (R288). -/
def holdRequest (s : State) (h : Nat) (r : MemReq) : State :=
  if (s.mem.holdq.filter (fun p => p.1 == h)).length < 4096 then
    { s with mem := { s.mem with holdq := s.mem.holdq ++ [(h, { r with arrived := true })] } }
  else { s with mem := { s.mem with reqs := r :: s.mem.reqs } }

/-- Leave a request in flight, ahead of the later ones. -/
def keepRequest (s : State) (r : MemReq) : State := { s with mem := { s.mem with reqs := r :: s.mem.reqs } }

/-- The write of an atomic (R281). -/
def Amo.apply (a : Amo) (n old : Nat) : Option Nat :=
  match a with
  | .add v => some ((old + v) % 2 ^ (8 * n))
  | .swap e w => if old = e then some (w % 2 ^ (8 * n)) else none

/-- The stack of the first piece of a request that must wait, for heat or for the copy or send of its page. -/
def waitStack (s : State) (v : Via) (r : MemReq) : Option Nat :=
  (piecesOf r.addr r.len).findSome? fun p =>
    match v.resolve s.mem p.1 with
    | some (.hbm st c off) =>
      if (r.changes && pageBlocks s (.hbm st c off))
        || accessStop s v (isCached s v r.bulk p.1 (.hbm st c off)) (.hbm st c off) == some .waits then some st
      else none
    | some (.hearth _ _) => none
    | none => none

/-- A request waits in the hold queue of the stack that makes it wait (R288, R343). A write that meets a page which waits
for its send is counted as it comes. -/
def waitRequest (s : State) (v : Via) (r : MemReq) (counted : Bool) : State :=
  let s1 := if !r.arrived && counted then dcount s Key.ftWaits else s
  match waitStack s1 v r with
  | some st => holdRequest s1 st r
  | none => keepRequest s1 { r with arrived := true }

/-- The hearth serves a request (R267, R279–R284): an atomic, a write or a read, with its reply. -/
def serveRequest (s : State) (r : MemReq) : State :=
  let v := r.via s.mem
  let again := r.changes && sendAwaited s v r.addr r.len
  match r.amo with
  | some a =>
    match atomicOp s v r.addr r.len (a.apply r.len) with
    | (none, s1) => waitRequest s1 v r again
    | (some x, s1) => sendReply s1 r { code := x.code, bytes := leBytes r.len x.old }
  | none =>
    match r.wdata with
    | some b =>
      match devWrite s v r.bulk r.addr b with
      | (some .waits, s1) => waitRequest s1 v r again
      | (e, s1) => sendReply s1 r { err := e }
    | none =>
      if readBlocked s v r.bulk r.addr r.len then waitRequest s v r again
      else
        match devRead s v r.bulk r.addr r.len with
        | (.error e, s1) => sendReply s1 r { err := some e }
        | (.ok b, s1) => sendReply s1 r { bytes := b }

/-- The atoms that a request reads from their memory when it is served: those of a read, and those that a write or an atomic
changes in part (R267); none while some piece of it must wait or is answered unread. -/
def readsAtoms (s : State) (v : Via) (r : MemReq) : List Loc :=
  if (waitStack s v r).isSome then []
  else
    (piecesOf r.addr r.len).filterMap fun p =>
      if r.wdata.isSome && p.2 == 64 then none
      else
        match v.resolve s.mem p.1 with
        | none => none
        | some l => if (accessStop s v (isCached s v r.bulk p.1 l) l).isNone then some l else none

/-- The atoms that a request reads are checked in order; `errs` is what their codes find (R283, R284). -/
def readErrors : (s : State) → List Loc → List AtomErr → State
  | s, [], _ => s
  | s, l :: r, errs => readErrors (atomError s l (errs.headD .none)) r (errs.drop 1)

/-- The request meets a fence, or a link that is down, and is answered with an ash completion. -/
def requestAshed (s : State) (v : Via) (r : MemReq) : Bool :=
  match v.resolve s.mem r.addr with
  | some l => accessStop s v (isCached s v r.bulk r.addr l) l == some .ash
  | none => false

/-- A stack in idle self-refresh wakes on its next access (R393). -/
def wakeStack (s : State) (r : MemReq) : State :=
  match ownerOf s (r.via s.mem) r.addr with
  | some h => { s with mem := { s.mem with idleRefresh := setBit s.mem.idleRefresh h false } }
  | none => s

/-- A request reaches its hearth and is served. An ash completion is counted by the port that sends it (R459). -/
def reachHearth (s : State) (r : MemReq) (errs : List AtomErr) : State :=
  let s1 := wakeStack s r
  let v := r.via s1.mem
  let s2 := readErrors s1 (readsAtoms s1 v r) errs
  serveRequest (if requestAshed s2 v r then dcount s2 Key.ashSent else s2) r

/-- MEMORY_REQUEST (R267): the request at position i reaches its hearth. `errs` is what the codes of the atoms it reads
find, in the order of their addresses. -/
def memoryRequest (s : State) (i : Nat) (errs : List AtomErr) : State :=
  match s.mem.reqs[i]? with
  | none => s
  | some r =>
    if behind s (s.mem.reqs.take i) r || waveBehind s r.post (emberSource 2 ((ownerOf s (r.via s.mem) r.addr).getD 0)) then s
    else reachHearth { s with mem := { s.mem with reqs := dropAt i s.mem.reqs } } r errs

/-! ### Atomics (R281, R282) -/

/-- The request of an atomic of the hub or of a die agent. -/
def atomicReq (s : State) (die : Option DieId) (addr n : Nat) (a : Amo) : MemReq :=
  { who := match die with | none => .host | some d => .agent d
    epoch := s.rst.epochs, addr := addr, len := n, amo := some a, expl := dget s Key.cacheExplicit == 1
    post := waveLatched s (match die with | none => hubSource | some d => agentSource d.val) }

/-- An atomic of the hub or of a die agent reaches the hearth that owns its target, behind the requests that came before
it. -/
def atomicRequest (s : State) (die : Option DieId) (addr n : Nat) (a : Amo) : State :=
  let r := atomicReq s die addr n a
  if behind s s.mem.reqs r then { s with mem := { s.mem with reqs := s.mem.reqs ++ [r] } }
  else reachHearth s r []

/-- FETCH_ADD. -/
def fetchAdd (s : State) (die : Option DieId) (wide : Bool) (addr v : Nat) : State :=
  atomicRequest s die addr (if wide then 8 else 4) (.add v)

/-- COMPARE_SWAP. -/
def compareSwap (s : State) (die : Option DieId) (addr expected new : Nat) : State :=
  atomicRequest s die addr 8 (.swap expected new)

/-! ### Scrubbing (R285) -/

/-- Atoms of a channel. -/
def channelAtoms : Nat := channelBytes / 64

/-- The next place a hearth scrubs from position `p` of its pass: the atoms of its live channels that are not fenced, in
channel order, then its own memory. Channels out of service are passed over. -/
def scrubPlace (s : State) (h p : Nat) : Nat :=
  let c := p / channelAtoms
  if c < 32 then
    match (List.range 32).find? (fun d => decide (d ≥ c) && chanLive s.mem h d && !chanFenced s.mem h d) with
    | some d => if d = c then p else d * channelAtoms
    | none => 32 * channelAtoms
  else p

/-- The place at a position of the pass. -/
def scrubLoc (h p : Nat) : Loc :=
  if p < 32 * channelAtoms then .hbm h (p / channelAtoms) (p % channelAtoms * 64)
  else .hearth h ((p - 32 * channelAtoms) * 64)

/-- Positions of one pass: 32 channels and the hearth's memory. -/
def scrubEnd : Nat := 32 * channelAtoms + hearthBytes / 64

/-- Forget the corrected errors of a stack's finished pass. -/
def newPass (s : State) (h : Nat) : State :=
  { s with mem := { s.mem with cePass := s.mem.cePass.filter (fun e => e.1 / 32 != h) } }

/-- SCRUB_VISIT (R285): hearth h reads and checks the next atom. None takes place with `SCRUB_HOURS` at 0, while the
stack is held for heat, in self-refresh, or on a fenced die. -/
def scrubVisit (s : State) (h : Nat) (err : AtomErr) : State :=
  if dget s Key.scrubHours = 0 ∨ stackHeld s h ∨ bitOf s.mem.selfRefresh h ∨ bitOf s.rst.dieFence (h / 5) ∨ !s.q.memReady then s
  else
    let p := scrubPlace s h (tget 0 s.mem.scrubPos h)
    let l := scrubLoc h p
    let s0 := { s with mem := { s.mem with idleRefresh := setBit s.mem.idleRefresh h false } }
    let s1 := if isPoisoned s.mem l.atom then s0 else atomError s0 l err
    let q := if p + 1 ≥ scrubEnd then 0 else p + 1
    let s2 := { s1 with mem := { s1.mem with scrubPos := tset 0 s1.mem.scrubPos h q } }
    if q = 0 then newPass s2 h else s2

/-! ### Heat (R288) -/

/-- Temperature in 1/16 °C at which a level is entered, and below which it is left. -/
def stackEnter : Nat → Int
  | 1 => 85 * 16 | 2 => 95 * 16 | 3 => 105 * 16 | _ => 110 * 16
/-- The temperature below which a level is left. -/
def stackLeave : Nat → Int
  | 1 => 82 * 16 | 2 => 92 * 16 | _ => 100 * 16

/-- The highest level from `l` up that a temperature enters. -/
def riseTo (enter : Nat → Int) (top : Nat) (t : Int) : (fuel l : Nat) → Nat
  | 0, l => l
  | n + 1, l => if l < top ∧ t ≥ enter (l + 1) then riseTo enter top t n (l + 1) else l

/-- The level down from `l` that a temperature leaves the others for. -/
def fallTo (leave : Nat → Int) (t : Int) : (l : Nat) → Nat
  | 0 => 0
  | l + 1 => if t < leave (l + 1) then fallTo leave t l else l + 1

/-- The level a stack goes to; Critical is left only by a reset of the module. -/
def stackLevel (l : Nat) (t : Int) : Nat :=
  if l = 4 then 4
  else
    let r := riseTo stackEnter 4 t 4 l
    if r = 4 then 4 else fallTo stackLeave t r

/-- A signed entry's stored form. -/
def signed16 (t : Int) : Nat := (t % 65536).toNat

/-- STACK_THERMAL_LEVEL (R288): a reading of a stack in 1/16 °C; an unreadable sensor counts as 105 °C (R38). -/
def stackReading (s : State) (st : Nat) (reading : Option Int) : State :=
  if st ≥ 20 ∨ !s.q.memReady then s
  else
    let t := reading.getD (105 * 16)
    let s1 := dset s (Key.stackTemp + st) (match reading with | none => 0x7FFF | some x => signed16 x)
    let old := dget s1 (Key.stackThermal + st)
    let new := stackLevel old t
    if new = old then s1
    else
      let s2 := dset s1 (Key.stackThermal + st) new
      let s3 := localEvent { s2 with mem := { s2.mem with
        selfRefresh := setBit s2.mem.selfRefresh st (decide (new ≥ 3)) } } (32 + dieOfStack st) (8 * (st % 5) + 4) 0x0300 2 0 0
      let s4 := if new = 4 then fenceStack s3 st else s3
      pump (heatNotices (if decide (old ≥ 3) && decide (new < 3) then releaseHold s4 else s4))

end Sys2Proof.Machine
end

