-- ==== Sys2Proof/Machine/Integrity.lean ====
section
/-!
DEFINITION. Faults: the collector, credits, the hub's own faults, injection, retirement and proof tests
(chapter "Integrity and safety", R370–R384), and die-link errors.
-/

namespace Sys2Proof.Machine

/-! ### The collector (R371, R372) -/

/-- The message at position i may be accepted: no ember message of its source to the hub is ahead of it (R30). -/
def faultReady (s : State) (i : Nat) : Option FaultMsg :=
  match s.flt.faultq[i]? with
  | none => none
  | some m => if emberAhead s m.ember hubSource m.no then none else some m

/-- The counter of a fault class (R384). -/
def classCounter : Nat → Nat
  | 0 => Key.faultsSafe
  | 1 => Key.faultsDd
  | _ => Key.faultsLatent

/-- FAULT_MESSAGE (R372): the collector accepts the message at position i: record, count, copy, and `ALERT_N`; its credit
starts back. -/
def faultMessage (s : State) (i : Nat) : State :=
  match faultReady s i with
  | none => s
  | some m =>
    let s1 := hubEvent (emberCredit { s with flt := { s.flt with
        faultq := dropAt i s.flt.faultq
        alert := s.flt.alert || bitOf (dget s Key.alertClassMask) m.mech.cls } } m.ember) m.mech.code 0 m.bits 1
    dset (dcount s1 (classCounter m.mech.cls)) Key.lastFault m.bits

/-- The oldest message other than a fault that a source holds leaves, when a credit is free for it (R27): its number in the
order in which the source formed them. -/
def oldestHeld (s : State) (src : Nat) : Option Nat :=
  (s.knotq.filter (fun m => m.held && m.src == src)).map (·.no)
    ++ (s.flt.embers.filter (fun m => m.held && m.src == src)).map (·.no) |>.min?

/-- A source sends the oldest such message. -/
def sendHeld (s : State) (src : Nat) : State :=
  match (if s.flt.free src then oldestHeld s src else none) with
  | none => s
  | some n =>
    let f := { s.flt.take src with emberNo := s.flt.emberNo + 1 }
    { s with
      knotq := s.knotq.map fun m => if m.held && m.src == src && m.no == n then { m with held := false, no := s.flt.emberNo } else m
      flt := { f with embers := f.embers.map fun m =>
        if m.held && m.src == src && m.no == n then { m with held := false, no := s.flt.emberNo } else m } }

/-- EMBER_CREDIT_RETURN (R27, R371): a credit on its way reaches its source, an ember source numbered unit kind × 4,096 +
unit, which sends what it holds: a fault first, else the oldest other message (log 121). -/
def emberReturn (s : State) (src : Nat) : State :=
  let r := tget 0 s.flt.returning src
  if r = 0 then s
  else
    let f := { s.flt with
      returning := tset 0 s.flt.returning src (r - 1), inflight := tset 0 s.flt.inflight src (tget 0 s.flt.inflight src - 1) }
    match f.held.find? (fun m => m.ember == src) with
    | some m =>
      { s with flt := { f.take src with
          held := f.held.erase m, faultq := f.faultq ++ [{ m with no := f.emberNo }], emberNo := f.emberNo + 1 } }
    | none => sendHeld { s with flt := f } src

/-! ### Faults in the hub (R379) -/

/-- HUB_INTERNAL_FAULT: every unit is held, `ALERT_N` is asserted whatever the mask, AER is sent, and the message goes to
the collector unless that is among the parts lost. -/
def hubInternal (s : State) (sub : Nat) (lost inj : Bool) : State :=
  let s1 := { s with
    engines := s.engines.map fun p => (p.1, { p.2 with hubHold := true })
    flt := { s.flt with hubFault := true, alert := true } }
  let s2 := sendAer s1 .internalError
  if lost then s2 else raiseFault s2 { mech := .hubInternal, inj := inj, utype := 6, unit := sub }

/-! ### Die links (R54, R365) -/

/-- A die link is lost: traffic routed over it is answered with ash completions. -/
def linkLost (s : State) (l : Nat) (inj : Bool) : State :=
  raiseFault { s with rst := { s.rst with linkDown := setBit s.rst.linkDown l true } }
    { mech := .linkDown, inj := inj, utype := 4, unit := l }

/-- Unit kind and unit of such a place (R370). -/
def FlitPlace.unit : FlitPlace → Nat × Nat
  | .link l => (4, l.val)
  | .router r => (5, r.val)
  | .hub => (6, 0)

/-- DIE_LINK_CRC_ERROR (R365): a flit arrives with a CRC error and is resent, which a die link reports as LINK_RETRY; an
ember flit that fails twice on one hop is reported as EMBER_CRC. -/
def flitError (s : State) (p : FlitPlace) (twice : Bool) : State :=
  let (k, u) := p.unit
  if twice then raiseFault s { mech := .emberCrc, utype := k, unit := u }
  else
    match p with
    | .link l =>
      raiseFault { s with rst := { s.rst with
        linkResends := tset 0 s.rst.linkResends l.val (tget 0 s.rst.linkResends l.val + 1) } }
        { mech := .linkRetry, utype := 4, unit := l.val }
    | .router _ => s
    | .hub => s

/-! ### Injection (R383, R525) -/

/-- Units of a unit kind (R370). -/
def unitCount : Nat → Nat
  | 0 => 1024 | 1 => 256 | 2 => 20 | 3 => 4 | 4 => 8 | 5 => 32 | 6 => 4096 | 7 => 8 | _ => 0

/-- An injection into a mechanism that watches without a value of its own to wait for acts at once (log 58). -/
def injectNow (s : State) (m : Mech) (utype unit : Nat) : State :=
  match m with
  | .fence =>
    let live := (List.range 32).filter fun c => chanLive s.mem unit c && !chanFenced s.mem unit c
    let (k, s1) := drawFree s
    match live[k % max 1 live.length]? with
    | some c => fenceChannel s1 unit c true
    | none => raiseFault s1 { mech := .fence, inj := true, utype := 2, unit := unit, locA := 4 }
  | .hbmClock => fenceStack (raiseFault s { mech := .hbmClock, inj := true, utype := 2, unit := unit, locA := 4 }) unit
  | .linkDown => linkLost s unit true
  | .emberCrc => raiseFault s { mech := .emberCrc, inj := true, utype := utype, unit := unit }
  | .hubInternal => hubInternal s unit false true
  | .res3Cell | .res3Ply | .res3Feed | .res7Run | .res7Acc | .antilog | .chkCol | .chkRow | .parityStat
  | .resCore | .resHearth | .memUe | .hbmUe | .seqUe | .knotUe | .memCe | .linkRetry | .tallyParity | .proofFail =>
    { s with flt := { s.flt with armed := s.flt.armed ++ [(m, utype, unit)] } }

/-- A write of `FAULT_INJECT`; the status of R430. -/
def writeFaultInject (s : State) (v : Nat) : State × Nat :=
  let utype := bits v 23 20
  let unit := bits v 19 8
  match Mech.ofCode (bits v 31 24) with
  | none => (s, 3)
  | some m =>
    if v % 256 ≠ 0 ∨ m.cls ≠ 1 ∨ !m.kinds.contains utype ∨ unit ≥ unitCount utype then (s, 3)
    else (injectNow s m utype unit, 0)

/-- A write of `ALERT_ACK` releases `ALERT_N`, unless the hub's own fault holds it (R372, R379). -/
def writeAlertAck (s : State) (v : Nat) : State :=
  if v = 0 ∨ s.flt.hubFault then s else { s with flt := { s.flt with alert := false } }

/-- A write of `ENGINE_UNRETIRE` (R376, R384): the engine returns to service and its count restarts at 0. -/
def writeUnretire (s : State) (v : Nat) : State × Nat :=
  if v ≥ 1024 then (s, 3) else (setEng s v { getEng s v with retired := false, faults := 0 }, 0)

/-! ### Proof tests (R377, R378) -/

/-- A proof test failed: the latent fault and its count. -/
def proofFailed (s : State) (m : FaultMsg) : State := dcount (raiseFault s m) Key.proofFails

/-- R378: a core's proof test. -/
def coreProof (s : State) (core : Nat) (c : CoreProof) : State :=
  let msg := fun (a : Nat) => ({ mech := .proofFail, utype := 1, unit := core, locA := a } : FaultMsg)
  let s1 := if c.feeder then proofFailed s (msg 0) else s
  let s2 := if c.vector then proofFailed s1 (msg 1) else s1
  ((List.range 16).filter (bitOf c.gens)).foldl (fun st g =>
    let st1 := proofFailed st (msg 6)
    { st1 with flt := { st1.flt with badGen := sinsert (core * 16 + g) st1.flt.badGen } }) s2

/-- An engine's proof test, with the core's at its engine 0; which part of an engine a failure names is a free value. -/
def engineProof (s : State) (e : Nat) (fails : Bool) (c : CoreProof) : State :=
  let s1 := setEng s e { getEng s e with tiles := 0 }
  let s2 := if e % 4 = 0 then coreProof s1 (coreOfEng e) c else s1
  if fails then
    let (a, s3) := drawFree s2
    let s4 := proofFailed s3 { mech := .proofFail, utype := 0, unit := e, locA := a % 2 ^ 24 }
    if (getEng s4 e).retired then s4 else retireEngine s4 e
  else s2

/-- PROOF_TEST (R377): due after `PROOF_TILES` tiles, and run between two tiles. -/
def proofTest (s : State) (e : Nat) (fails : Bool) (c : CoreProof) : State :=
  if !proofDue s e || (getEng s e).cur.isSome || s.flt.hubFault then s else takeTile (engineProof s e fails c) e

/-- HEARTH_PROOF_TEST (R377): due after `PROOF_GROUPS` groups; a lane whose check fails is retired, and a failed hash lane
is remembered (R378). -/
def hearthProof (s : State) (h : Nat) (lane : Option Nat) (hash : Bool) : State :=
  if !hearthProofDue s h || s.flt.hubFault then s
  else
    let s1 := { s with flt := { s.flt with groups := tset 0 s.flt.groups h 0 } }
    let s2 := match lane with
      | none => s1
      | some l => retireLane (proofFailed s1 { mech := .proofFail, utype := 2, unit := h, locA := 0, locB := l % 128 }) h (l % 128)
    if hash then
      let s3 := proofFailed s2 { mech := .proofFail, utype := 2, unit := h, locA := 2 }
      { s3 with flt := { s3.flt with badHash := sinsert h s3.flt.badHash } }
    else s2

end Sys2Proof.Machine
end

