-- ==== Sys2Proof/Machine/Quench.lean ====
section
/-!
DEFINITION. The quench protocol and the reset of a core, a cluster or a compute die (R456–R463, R470), and the
reset values of class V entries (R469).
-/

namespace Sys2Proof.Machine

/-! ### Units of class V entries (R469, R524) -/

/-- The unit an entry belongs to: the hub, a die's uncore, HBM (of one stack, or of all), or clusters (one, or all). -/
inductive EUnit where
  | hub
  | die (d : Nat)
  | stack (st : Nat)
  | hbm
  | cluster (c : Nat)
  | clusters
  deriving DecidableEq, Repr

/-- The unit of an entry. -/
def entryUnit (key : Nat) : EUnit :=
  let i := key / 256
  let j := key % 256 - 1
  if i = 0x1020 then (if key = Key.clusterState then .clusters else .hub)
  else if i = 0x1030 ∨ i = 0x1031 ∨ i = 0x1101 ∨ i = 0x6600 ∨ i = 0x6601 then .cluster j
  else if i = 0x1040 then (if j < 4 then .die j else .hub)
  else if i = 0x1100 then .die j
  else if key = Key.stepMonCount then .clusters
  else if i = 0x3010 ∨ i = 0x3022 then .hbm
  else if i = 0x3011 ∨ i = 0x3021 ∨ i = 0x3040 ∨ i = 0x3041 then .stack j
  else if i = 0x3100 ∨ i = 0x3101 ∨ i = 0x3102 ∨ i = 0x3103 then .die (j / 5)
  else if i = 0x6610 ∨ i = 0x6611 ∨ i = 0x6612 ∨ i = 0x6613 then .die j
  else .hub

/-- The unit lies on die d. -/
def EUnit.onDie (d : Nat) : EUnit → Bool
  | .die d' => d' == d
  | .stack st => st / 5 == d
  | .cluster c => c / 8 == d
  | .hub => false
  | .hbm => false
  | .clusters => false

/-- R469: class V entries of the units chosen return to their defaults. -/
def resetV (s : State) (which : EUnit → Bool) : State :=
  { s with dict := s.dict.filter fun e => !(((findMeta e.1).map (·.cls)) == some ECls.v && which (entryUnit e.1)) }

/-! ### The units of a quench -/

/-- Cores of a core, cluster or die. -/
def quenchCores (kind unit : Nat) : List Nat :=
  if kind = 1 then [unit] else if kind = 5 then (List.range 8).map (· + 8 * unit) else (List.range 64).map (· + 64 * unit)

/-- Hearths of a die. -/
def quenchHearths (kind unit : Nat) : List Nat := if kind = 3 then dieStacks unit else []

/-- Sequencers of a core, cluster or die. -/
def quenchSeqs (kind unit : Nat) : List Nat :=
  (quenchCores kind unit).flatMap (fun c => [c, 256 + c]) ++ (quenchHearths kind unit).map (· + 512)

/-- Blocks of the marker wave that a unit holds (R34). -/
def quenchBlocks (kind unit : Nat) : List Nat :=
  (quenchCores kind unit).flatMap (fun c => (List.range 4).map (blockKey 0 <| 4 * c + ·) ++ [blockKey 1 c])
    ++ (if kind = 5 then [blockKey 5 unit] else [])
    ++ (if kind = 3 then (List.range 8).map (fun c => blockKey 5 (8 * unit + c))
          ++ (dieStacks unit).map (blockKey 2) ++ [blockKey 3 unit] else [])

/-- The quench covers a core. -/
def Quench.core (q : Quench) (c : Nat) : Bool := (quenchCores q.kind q.unit).contains c

/-! ### Work around a fence (R461) -/

/-- A strand's sequencer is quenched: the strand ends QUENCHED; no save record is written. -/
def quenchSeq (s : State) (q : Nat) : State :=
  let s1 := endStrand s q 0x09
  setSeq s1 q { getSeq s1 q with fenced := true }

/-- The tiles of a quenched engine go to other engines of their ranges without using a retry; draining tiles run again
as well. -/
def quenchEngine (s : State) (e : Nat) : State :=
  let g := getEng s e
  let s1 := setEng s e { g with fenced := true, todo := [], restarts := [], cur := none, saved := [], drains := [] }
  let s2 := (g.drains ++ g.tilesHeld).foldl (fun st t => reassignTile st e (t.op, t.tile) (some t)) s1
  g.todo.foldl (fun st kt => reassignTile st e kt none) s2

/-- X and Y of a VEC are one tensor in place. -/
def OpRec.inPlace (o : OpRec) : Bool :=
  o.kind == .vec && (match o.x, o.y with | some x, some y => x.td.base == y.td.base | _, _ => false)

/-- A part that a quenched core holds is computed again on another core of its range. -/
def movePart (s : State) (k core : Nat) : State :=
  match getOp s k with
  | none => s
  | some o =>
    match o.partOf core with
    | none => s
    | some p =>
      if dUnit o.desc ≠ 0 then s
      else if o.inPlace then failOp s k 0x05
      else
        match (o.cores.filter fun c => !coreQuenched s c)[core % max 1 (o.cores.filter fun c => !coreQuenched s c).length]? with
        | none => failOp s k 0x05
        | some c =>
          setOp s k (some { o with parts := putFirst core none o.parts ++ [{ p with unit := c, retried := false, refetched := false }] })

/-- R307: the operations with a hearth in their mask that is quenched end with ASH. -/
def ashHearthOps (s : State) (hs : List Nat) : State :=
  s.ops.foldl (fun st p =>
    match getOp st p.1 with
    | none => st
    | some o => if dUnit o.desc = 1 && !o.finished && hs.any (bitOf (dHearthMask o.desc)) then failOp st p.1 0x05 else st) s

/-- Parts of every operation on a core move. -/
def moveParts (s : State) (core : Nat) : State :=
  s.ops.foldl (fun st p => movePart (movePart st p.1 core) p.1 core) s

/-- The work of a unit stops: strands end, tiles and parts move, its blocks owe the wave nothing. -/
def fenceUnit (s : State) (kind unit : Nat) : State :=
  let cores := quenchCores kind unit
  let s1 := (quenchSeqs kind unit).foldl quenchSeq s
  let s2 := cores.foldl (fun st c => (List.range 4).foldl (fun st1 i => setEng st1 (4 * c + i) { getEng st1 (4 * c + i) with fenced := true }) st) s1
  let s3 := cores.foldl (fun st c => (List.range 4).foldl (fun st1 i => quenchEngine st1 (4 * c + i)) st) s2
  let s4 := ashHearthOps (cores.foldl moveParts s3) (quenchHearths kind unit)
  cutCheck ((quenchBlocks kind unit).foldl waveQuench s4)

/-! ### Internal state (R459, R463, R470) -/

/-- A core's state after its reset: its engines keep retirement and fault counts (R376, R470); stores, tally lines,
generators and debug banks are lost, and its sequencers' epochs rise. -/
def resetCore (s : State) (c : Nat) : State :=
  let cl := getCluster s (c / 8)
  let held := cl.capHold || cl.heatHold
  let eng := fun (st : State) (e : Nat) =>
    let g := getEng st e
    setEng st e { fenced := g.fenced, retired := g.retired, faults := g.faults, tiles := g.tiles, capHold := held
                  hubHold := g.hubHold }
  let s1 := (List.range 4).foldl (fun st i => eng st (4 * c + i)) s
  let seq := fun (st : State) (q : Nat) =>
    setSeq st q { epoch := ((getSeq st q).epoch + 1) % 16, fenced := (getSeq st q).fenced }
  let s2 := seq (seq s1 c) (256 + c)
  { s2 with
    tlines := tset [] s2.tlines c []
    gens := s2.gens.filter fun e => e.1 / 16 != c
    snap := { s2.snap with
      held := s2.snap.held.filter fun u => decide (u ≥ 1024) || u / 4 != c
      banks := s2.snap.banks.filter fun e => !(quenchBlocks 1 c).contains e.1 } }

/-- A cluster's own state: its event controller, its entries and its block. -/
def resetClusterUnit (s : State) (c : Nat) : State :=
  let s1 := resetV s (· == .cluster c)
  { s1 with
    ev := { s1.ev with latch := s1.ev.latch.filter fun e => e.1 / 64 != c, occq := s1.ev.occq.filter fun o => o.ctl != c }
    snap := { s1.snap with banks := s1.snap.banks.filter fun e => e.1 != blockKey 5 c } }

/-- R289, R297: what a hearth of a reset die does with its memory: dirty lines are written back, unless the hearth is
faulty and they are lost, with their event; the cache empties and the hearth's own memory is poisoned. -/
def resetHearthMem (s : State) (h : Nat) (faulty : Bool) : State :=
  let mine := fun (a : Nat) => a / stackAtoms == h
  let lost := dirtyLines s.mem mine
  let m0 := if faulty then s.mem else writeBackAll s.mem (· == h)
  let m1 := dropLines m0 mine
  let lo := 640 * channelBytes + h * hearthBytes
  let s1 := { s with mem := { m1 with
    cells := m1.cells.filter fun c => decide (c.1 < lo) || decide (c.1 ≥ lo + hearthBytes)
    hpoison := setBit m1.hpoison h true
    cured := m1.cured.filter fun a => atomHearth a != some h
    selfRefresh := setBit m1.selfRefresh h true } }
  if faulty then hubEvent s1 0x0305 0 (atByte 16 h + atByte 17 (h / 5) + atByte 20 lost) else s1

/-- A die's own state: knots, hearth generators and sequencers, tally tables, its agent's event controller and target, and
its entries (R423, R463). -/
def resetDieUnit (s : State) (d : Nat) : State :=
  let s1 := withdrawTarget (resetV s (·.onDie d)) (2050 + d)
  let seq := fun (st : State) (q : Nat) =>
    setSeq st q { epoch := ((getSeq st q).epoch + 1) % 16, fenced := (getSeq st q).fenced }
  let s2 := (dieStacks d).foldl (fun st h => seq st (512 + h)) s1
  let gone := fun (src : Nat) => sourceDie src == some d
  releaseHold { s2 with
    flt := { s2.flt with
      held := s2.flt.held.filter fun m => !gone m.ember, embers := s2.flt.embers.filter fun m => !(m.held && gone m.src) }
    knotq := s2.knotq.filter fun m => !(m.held && gone m.src)
    knots := s2.knots.filter fun e => e.1 / 4096 != d
    knotsLost := s2.knotsLost.filter fun k => k / 4096 != d
    gens := s2.gens.filter fun e => decide (e.1 / 16 < 256) || (e.1 / 16 - 256) / 5 != d
    tin := tset [] s2.tin d []
    tout := s2.tout.filter fun e => e.1 != d
    ev := { s2.ev with
      latch := s2.ev.latch.filter fun e => e.1 / 64 != 32 + d, occq := s2.ev.occq.filter fun o => o.ctl != 32 + d }
    rst := { s2.rst with tallyLost := setBit s2.rst.tallyLost d true }
    snap := { s2.snap with
      held := s2.snap.held.filter fun u => decide (u < 1024) || (u - 1024) / 5 != d
      banks := s2.snap.banks.filter fun e => !(quenchBlocks 3 d).contains e.1 } }

/-- The internal state of a unit is reset; `faulty` is a mask of a die's hearths. -/
def resetUnit (s : State) (kind unit faulty : Nat) : State :=
  let s1 := (quenchCores kind unit).foldl resetCore s
  if kind = 1 then s1
  else if kind = 5 then resetClusterUnit s1 unit
  else
    let s2 := (List.range 8).foldl (fun st c => resetClusterUnit st (8 * unit + c)) s1
    let s3 := (List.range 5).foldl (fun st i => resetHearthMem st (5 * unit + i) (bitOf faulty i)) s2
    resetDieUnit s3 unit

/-- Lift the fence of a unit. -/
def unfence (s : State) (kind unit : Nat) : State :=
  let s1 := (quenchSeqs kind unit).foldl (fun st q => setSeq st q { getSeq st q with fenced := false }) s
  let s2 := (quenchCores kind unit).foldl (fun st c =>
    (List.range 4).foldl (fun st1 i => setEng st1 (4 * c + i) { getEng st1 (4 * c + i) with fenced := false }) st) s1
  if kind = 3 then { s2 with rst := { s2.rst with dieFence := setBit s2.rst.dieFence unit false } } else s2

/-! ### Commands (R457) -/

/-- The initiator of a quench (R459): the hub for a die, the die agent for a cluster or core. -/
def quenchInitiator (kind unit : Nat) : Nat :=
  if kind = 3 then hubSource else agentSource (if kind = 1 then unit / 64 else unit / 8)

/-- The quench of a unit is ordered: its message leaves the initiator. -/
def orderQuench (s : State) (kind unit : Nat) (cmd : Bool) : State :=
  sendEmber { s with rst := { s.rst with quenches := s.rst.quenches ++ [{ kind := kind, unit := unit, cmd := cmd }] } }
    (quenchInitiator kind unit) (emberSource kind unit) (.quench kind unit)

/-- The module is in a state in which a die, cluster or core reset is refused with NOT_IDLE (R443, R457). -/
def resetNotIdle (s : State) : Bool := s.pw.module != .run || inHold s || !s.q.qeReady

/-- `RESET_CMD` DIE, CLUSTER or CORE with the target of `RESET_TARGET`; the status of R430. -/
def resetCommand (s : State) (kind limit : Nat) : State × Nat :=
  let t := dget s Key.resetTarget
  if t ≥ limit then (s, 3)
  else if dget s Key.resetState = 1 ∨
      (kind = 3 ∧ s.rst.quenches.any (fun q => decide ((if q.kind = 1 then q.unit / 64 else q.unit / 8) = t))) then (s, 0x0A)
  else if resetNotIdle s then (s, 6)
  else (orderQuench (dset s Key.resetState 1) kind t true, 0)

/-- The die agent resets a cluster that is off, once the cap allows it and it has cooled below 100 °C (R393, R398); while a
reset command runs it waits (R471). -/
def agentReset (s : State) (c : Nat) : State :=
  let p := getCluster s c
  if dget s Key.resetState = 1 ∨ !p.off ∨ p.capHold ∨ (p.tripped ∧ dget s (Key.clusterThermal + c) ≥ 3)
      ∨ s.rst.quenches.any (fun q => q.kind == 5 && q.unit == c) ∨ !s.q.qeReady then s
  else orderQuench s 5 c false

/-! ### The protocol (R459) -/

/-- Replace quench i. -/
def setQuench (s : State) (i : Nat) (q : Quench) : State :=
  { s with rst := { s.rst with quenches := modAt (fun _ => q) i s.rst.quenches } }

/-- The command behind a quench has completed. -/
def quenchOver (s : State) (i : Nat) (q : Quench) : State :=
  let s1 := { s with rst := { s.rst with quenches := dropAt i s.rst.quenches } }
  if q.cmd then dset s1 Key.resetState 2 else s1

/-- A freeze or restore meets the reset of a die (R358). -/
def dieCheckpoint (s : State) (d : Nat) : State :=
  let pageHere := fun (p : Nat) => p / 1536 / 32 / 5 == d
  let s1 := match s.ck.fz with
    | none => s
    | some fz =>
      if !fz.stream || fz.pages.any (fun p => pageHere p.1 && (tget none s.ck.pages p.1).isSome) then freezeFail s .quench else s
  let s2 := if restoring s1 then restoreExit s1 .layout else s1
  releaseHold { s2 with ck := { s2.ck with pages := s2.ck.pages.filter fun e => !pageHere e.1 } }

/-- A cluster that is damped or off wakes for its quench (R395, R471); a trip from then on keeps it off. -/
def wakeForQuench (s : State) (c : Nat) : State :=
  let p := getCluster s c
  setCluster s c { p with off := false, marked := false, tripped := false, damp := if p.damp = .idle then .none else p.damp }

/-- QUENCH: the unit receives the message. -/
def quenchArrive (s : State) (i : Nat) : State :=
  match s.rst.quenches[i]? with
  | none => s
  | some q =>
    match (if q.begun then none else emberArrival s (.quench q.kind q.unit)) with
    | none => s
    | some m =>
      let s1 := setQuench (takeEmber s m) i { q with begun := true }
      let s2 := if q.kind = 3 then dieCheckpoint { s1 with rst := { s1.rst with dieFence := setBit s1.rst.dieFence q.unit true } } q.unit
                else s1
      let s3 := if q.kind = 5 then wakeForQuench s2 q.unit else s2
      kickAll (fenceUnit s3 q.kind q.unit)

/-- A request belongs to a unit. -/
def Quench.owns (q : Quench) (r : MemReq) : Bool :=
  match r.who with
  | .seq x => (quenchSeqs q.kind q.unit).contains x.val
  | .agent d => q.kind == 3 && q.unit == d.val
  | .host | .bar2 | .completion _ _ _ _ => false

/-- QUENCH_NOTICE: hearth h discards the unit's requests that wait with it. -/
def quenchNotice (s : State) (i h : Nat) : State :=
  match s.rst.quenches[i]? with
  | none => s
  | some q =>
    if !q.begun || !q.owed.contains h then s
    else
      let here := fun (r : MemReq) => q.owns r && ownerOf s (r.via s.mem) r.addr == some h
      setQuench { s with mem := { s.mem with
        reqs := s.mem.reqs.filter fun r => !here r, holdq := s.mem.holdq.filter fun p => !(p.1 == h && q.owns p.2) } }
        i { q with owed := sremove h q.owed }

/-- QUENCH_ACK: the unit's internal state is reset and the acknowledgement reaches the initiator. -/
def quenchAck (s : State) (i faulty : Nat) : State :=
  match s.rst.quenches[i]? with
  | none => s
  | some q =>
    match (if !q.begun || q.acked then none else emberPass s (emberSource q.kind q.unit) (quenchInitiator q.kind q.unit)) with
    | none => s
    | some s1 => resetUnit (setQuench s1 i { q with acked := true }) q.kind q.unit faulty

/-- The unit's outstanding requests are gone: every hearth has had the notice, or lies on a fenced die. -/
def noticed (s : State) (q : Quench) : Bool := q.owed.all fun h => bitOf s.rst.dieFence (h / 5)

/-- QUENCH_RELEASE: the fence of a core or cluster is lifted. -/
def quenchRelease (s : State) (i : Nat) : State :=
  match s.rst.quenches[i]? with
  | none => s
  | some q =>
    match (if q.kind = 3 || !q.acked || !noticed s q then none
        else emberPass s (quenchInitiator q.kind q.unit) (emberSource q.kind q.unit)) with
    | none => s
    | some s =>
      quenchOver (unfence s q.kind q.unit) i q

/-- DIE_RESET_DONE: a reset die comes back (R463): its stacks leave self-refresh and its clusters run. -/
def dieResetDone (s : State) (d : Nat) : State :=
  match (List.range s.rst.quenches.length).find? (fun i =>
      match s.rst.quenches[i]? with | some q => q.kind == 3 && q.unit == d && q.acked | none => false) with
  | none => s
  | some i =>
    match s.rst.quenches[i]? with
    | none => s
    | some q =>
      match (if noticed s q then emberPass s hubSource (agentSource d) else none) with
      | none => s
      | some s =>
        let s1 := quenchOver (unfence s 3 d) i q
        let s2 := { s1 with
          mem := { s1.mem with selfRefresh := (dieStacks d).foldl (fun m h => setBit m h false) s1.mem.selfRefresh }
          pw := { s1.pw with clusters := s1.pw.clusters.filter fun e => e.1 / 8 != d } }
        kickAll s2

end Sys2Proof.Machine
end

