-- ==== Sys2Proof/Machine/Power.lean ====
section
/-!
DEFINITION. Feeds, the budget window, draught levels, holds, damping, heat, step monitors and the selection of
work items (chapter "Power, heat and the draught scheduler", R385–R404; R45–R49).
-/

namespace Sys2Proof.Machine

/-! ### Feeds (R385–R387) -/

/-- The magnitude of a feed of negative voltage; a reversed feed has none (R515). -/
def feedMag (volt : Int) : Nat := (-volt).toNat

/-- R386: the condition a magnitude leads to: 0 GOOD, 1 LOW, 2 UNDER, 3 OVER. -/
def feedNext (old mag : Nat) : Nat :=
  if mag > 5700 ∨ (old = 3 ∧ mag > 5650) then 3
  else if mag ≥ 4050 then 0
  else if old = 2 ∨ mag < 3800 then 2
  else 1

/-- The condition of feed f (0 A, 1 B). -/
def feedCond (s : State) (f : Nat) : Nat := dget s Key.feedCond / 4 ^ f % 4

/-- The feed is usable (R386). -/
def feedUsable (s : State) (f : Nat) : Bool := decide (feedCond s f ≤ 1)

/-- The magnitude last read of a feed. -/
def feedMagOf (s : State) (f : Nat) : Nat := if f = 0 then s.pw.feedA else s.pw.feedB

/-- R385: the feeds the module draws from. -/
def feedDraws (s : State) : Nat :=
  let a := s.pw.feedA
  let b := s.pw.feedB
  match feedUsable s 0, feedUsable s 1 with
  | false, false => 0
  | true, false => 1
  | false, true => 2
  | true, true => if a ≤ b + 50 ∧ b ≤ a + 50 then 3 else if a > b then 1 else 2

/-- The load moves between feeds, with its event (R385); a first draw is no transfer. -/
def feedTransfer (s : State) : State :=
  let d := feedDraws s
  let s1 := { s with pw := { s.pw with feedDraw := d } }
  if d = s.pw.feedDraw ∨ d = 0 ∨ s.pw.feedDraw = 0 then s1 else hubEvent s1 0x0201

/-- A reading of feed f: its entries, and its condition with the event on entry to LOW, UNDER or OVER. -/
def feedEntry (s : State) (f : Nat) (r : FeedReading) : State :=
  let old := feedCond s f
  let new := feedNext old (feedMag r.volt)
  let s1 := dset (dset s (Key.feedVolt + f) (signed16 r.volt)) (Key.feedCurr + f) (r.curr % 2 ^ 16)
  let s2 := dset s1 Key.feedCond (dget s1 Key.feedCond - old * 4 ^ f + new * 4 ^ f)
  let s3 := { s2 with pw := if f = 0 then { s2.pw with feedA := feedMag r.volt } else { s2.pw with feedB := feedMag r.volt } }
  if new ≠ old ∧ new ≠ 0 then hubEvent s3 0x0200 else s3

/-- FEED_CONDITION (R386): a reading of feed f, and where the load lies after it. -/
def feedRead (s : State) (f : Nat) (r : FeedReading) : State := feedTransfer (feedEntry s f r)

/-- Readings of both feeds, and where the load lies after them. -/
def feedsRead (s : State) (a b : FeedReading) : State := feedTransfer (feedEntry (feedEntry s 0 a) 1 b)

/-- R387: the effective cap in units of 0.1 mW, over the window's `POWER_CAP` (R390); before a usable feed has been read it is
that alone (log 59). -/
def effCap (s : State) : Nat :=
  let mag := max (if feedUsable s 0 then s.pw.feedA else 0) (if feedUsable s 1 then s.pw.feedB else 0)
  let cap := s.pw.capW * 10000
  if mag = 0 then cap else min cap (dget s Key.feedIlim * mag)

/-! ### Draught levels (R45, R391) -/

/-- The floor in mV. -/
def draughtFloor (s : State) : Nat := if dget s Key.lowVoltagePermit = 1 then 620 else 650

/-- A request for a level; one outside 0.62–0.85 V is rejected, with its event (R45). -/
def setLevel (s : State) (d v : Nat) : State :=
  if v < 620 ∨ v > 850 then localEvent s (32 + d) 57 0x0205 2 0 0 else dset s (Key.draughtLevel + d) v

/-- The thermal target of a die; it starts at the floor (R391). -/
def thermalTarget (s : State) (d : Nat) : Nat := tget 650 s.pw.vt d

/-- R391: the level a die should have. -/
def levelOf (s : State) (d : Nat) : Nat :=
  let fl := draughtFloor s
  let fixed := dget s (Key.draughtFixed + d)
  if fixed ≠ 0 then max fixed fl else min (max (min s.pw.vc (thermalTarget s d)) fl) (dget s Key.draughtMax)

/-- Set the level of every die. -/
def setLevels (s : State) : State := (List.range 4).foldl (fun st d => setLevel st d (levelOf st d)) s

/-- Vc and every Vt(d) start at the floor (R391). -/
def startLevels (s : State) : State :=
  let fl := draughtFloor s
  setLevels { s with pw := { s.pw with vc := fl, vt := (List.range 4).foldl (fun t d => tset 650 t d fl) s.pw.vt,
                                       capW := dget s Key.powerCap } }

/-- A write of `LOW_VOLTAGE_PERMIT` has taken effect: with FALSE a die below 0.65 V is raised before the write completes; with
TRUE a level below it may act again (R47, R391). -/
def permitWritten (s : State) : State := if s.q.qeReady then setLevels s else s

/-! ### Clusters (R392–R395, R398) -/

/-- Thermal level of a cluster (R398). -/
def clusterLevel (s : State) (c : Nat) : Nat := dget s (Key.clusterThermal + c)

/-- A change of a cluster's condition is reported (R419). -/
def condEvent (s : State) (c old : Nat) : State :=
  if clusterCond s c = old then s else localEvent s (32 + c / 8) (48 + c % 8) 0x0204 2 0 0

/-- Engines of a cluster. -/
def clusterEngines (c : Nat) : List Nat := (List.range 32).map (· + 32 * c)

/-- The hub sends a hard-cap hold or release to every engine of a cluster (R176). -/
def sendCaps (s : State) (c : Nat) (hold : Bool) : State :=
  (clusterEngines c).foldl (fun st e => sendEmber st hubSource (emberSource 0 e) (.cap e hold)) s

/-- The cluster is held, for the cap or for heat. -/
def ClusterPw.isHeld (p : ClusterPw) : Bool := p.capHold || p.heatHold

/-- Change a cluster's power condition, with its event, `CAP_HELD` and the messages to its engines, unless it is off. -/
def updCluster (s : State) (c : Nat) (f : ClusterPw → ClusterPw) : State :=
  let old := clusterCond s c
  let p := getCluster s c
  let s1 := setCluster s c (f p)
  let s2 := dset s1 Key.capHeld (setBit (dget s1 Key.capHeld) c (f p).capHold)
  let s3 := if (f p).off || p.isHeld == (f p).isHeld then s2 else sendCaps s2 c (f p).isHeld
  condEvent s3 c old

/-- The engine stands at a seal and starts no chunk: it holds. -/
def Engine.stands (g : Engine) : Bool :=
  g.drains.isEmpty && (match g.cur with
    | none => true
    | some t => t.cur.isNone && t.sealing.isNone && t.out.isNone && (g.capHold || g.heatHold))

/-- A cluster held for heat, or long enough for the cap, is damped once its engines hold (R392, R395, R398). -/
def dampCheck (s : State) (c : Nat) : State :=
  let p := getCluster s c
  if p.off || p.damp == .hold || !(p.heatHold || (p.capHold && decide (p.heldFor ≥ dget s Key.dampHoldWindows))) then s
  else if (clusterEngines c).all (fun e => (getEng s e).stands) then updCluster s c (fun p => { p with damp := .hold })
  else s

/-- HARD_CAP_HOLD of an engine or hearth (R176): the hub's message reaches it. While the hub holds every unit, after a
fault of its own (R379) or a power fail (R388), the messages are on their way whatever became of their credits (log 121). -/
def hardCapHold (s : State) (hearth : Bool) (u : Nat) : State :=
  if s.flt.hubFault || s.rst.off then
    (if hearth then { s with pw := { s.pw with hearthHold := setBit s.pw.hearthHold u true } }
     else dampCheck (capHoldEngine s u true) (clusterOfEng u))
  else if hearth then s
  else
    match emberArrival s (.cap u true) with
    | none => s
    | some m => dampCheck (capHoldEngine (takeEmber s m) u true) (clusterOfEng u)

/-- HARD_CAP_RELEASE (R176): the engine resumes once its cluster is held no more. -/
def hardCapRelease (s : State) (hearth : Bool) (u : Nat) : State :=
  if s.flt.hubFault || s.rst.off then s
  else if hearth then { s with pw := { s.pw with hearthHold := setBit s.pw.hearthHold u false } }
  else
    match emberArrival s (.cap u false) with
    | none => s
    | some m => takeTile (capHoldEngine (takeEmber s m) u false) u

/-- What runs on in a cluster that wakes: its waiting strands look again. -/
def clusterAwakens (s : State) (c : Nat) : State :=
  (List.range 8).foldl (fun st k =>
    let a := 8 * c + k
    sealOver (wakeSeq (sealOver (wakeSeq st a) a) (256 + a)) (256 + a)) s

/-- CLUSTER_WAKE (R395): a cluster damped for idle wakes on a request; one damped by a hold, once that is released. -/
def clusterWake (s : State) (c : Nat) : State :=
  let p := getCluster s c
  if p.damp = .idle ∨ (p.damp = .hold ∧ !p.capHold ∧ !p.heatHold) then
    clusterAwakens (updCluster s c (fun p => { p with damp := .none })) c
  else s

/-- The cluster runs no tile, vector part or strand instruction: every strand on it waits. -/
def clusterIdle (s : State) (c : Nat) : Bool :=
  (clusterEngines c).all (fun e =>
      let g := getEng s e
      g.cur.isNone && g.drains.isEmpty && g.todo.isEmpty && g.restarts.isEmpty)
    && (List.range 8).all (fun k =>
        !s.ops.any (fun p => match p.2 with
          | some o => dUnit o.desc == 0 && o.parts.any (fun q => q.unit == 8 * c + k)
          | none => false)
        && [8 * c + k, 256 + 8 * c + k].all (fun q => match getStrand s q with
          | none => true
          | some st => st.wait != .none || st.stopped || st.stormStop))

/-- DAMP_IDLE_EXPIRY (R395): an idle cluster is damped; never with `DAMP_IDLE` at 0. -/
def dampIdle (s : State) (c : Nat) : State :=
  if dget s Key.dampIdle = 0 ∨ clusterCond s c ≠ 0 ∨ !clusterIdle s c then s
  else updCluster s c (fun p => { p with damp := .idle })

/-- A cluster is turned off: it loses its state as a cluster reset does, and its blocks owe a running wave nothing (R393,
R505). -/
def turnOff (s : State) (c : Nat) : State :=
  let s1 := updCluster (resetUnit s 5 c 0) c (fun p => { p with off := true, marked := false })
  cutCheck (waveOff s1 c)

/-- TRIP (R398): the comparator removes a cluster's array supply: it is quenched and off until its die agent resets it. The
occurrences its quench raises still reach the event controllers (R213). -/
def trip (s : State) (c : Nat) : State :=
  let p := getCluster s c
  if p.tripped || !s.q.qeReady then s
  else
    let s1 := if clusterLevel s c = 4 then s
      else localEvent (dset s (Key.clusterThermal + c) 4) (32 + c / 8) (40 + c % 8) 0x0203 2 0 0
    let s2 := kickAll (fenceUnit s1 5 c)
    let lvl := fun (st : State) => dset (dset st (Key.clusterThermal + c) 4) (Key.clusterTemp + c) (dget s1 (Key.clusterTemp + c))
    let s3 := lvl (turnOff s2 c)
    updCluster { s3 with ev := { s3.ev with occq := s2.ev.occq } } c (fun p => { p with tripped := true, damp := .none })

/-- Temperature in 1/16 °C at which a level of R398 is entered. -/
def clusterEnter : Nat → Int
  | 1 => 90 * 16 | 2 => 100 * 16 | 3 => 105 * 16 | _ => 115 * 16
/-- The temperature below which it is left; Trip is left below 100 °C. -/
def clusterLeave : Nat → Int
  | 1 => 87 * 16 | 2 => 96 * 16 | _ => 100 * 16

/-- The level a reading leads to; Trip is left below 100 °C alone, and the level is then found afresh. -/
def clusterNext (l : Nat) (t : Int) : Nat :=
  if l = 4 then (if t ≥ 100 * 16 then 4 else riseTo clusterEnter 4 t 4 0)
  else
    let r := riseTo clusterEnter 4 t 4 l
    if r = 4 then 4 else fallTo clusterLeave t r

/-- CLUSTER_THERMAL_LEVEL (R398): a reading in 1/16 °C; an unreadable sensor counts as 105 °C (R38). -/
def clusterReading (s : State) (c : Nat) (reading : Option Int) : State :=
  if !s.q.qeReady then s
  else
    let t := reading.getD (105 * 16)
    let s1 := dset s (Key.clusterTemp + c) (match reading with | none => 0x7FFF | some x => signed16 x)
    let old := clusterLevel s1 c
    let new := clusterNext old t
    if new = 4 then trip s1 c
    else
      let s2 := if new = old then s1
        else localEvent (dset s1 (Key.clusterThermal + c) new) (32 + c / 8) (40 + c % 8) 0x0203 2 0 0
      let s3 := if (getCluster s2 c).heatHold != decide (new = 3) then updCluster s2 c (fun p => { p with heatHold := decide (new = 3) }) else s2
      dampCheck s3 c

/-! ### The budget window (R389–R393, R398, R403) -/

/-- Every cluster that counts as running (R392). -/
def runningClusters (s : State) : List Nat := (List.range 32).filter fun c => clusterCond s c == 0

/-- Insert by decreasing power, ties to the lower number. -/
def insPower (s : State) (c : Nat) : List Nat → List Nat
  | [] => [c]
  | d :: r => if (getCluster s c).power > (getCluster s d).power then c :: d :: r else d :: insPower s c r

/-- Clusters in decreasing order of their power in the last window. -/
def byPower (s : State) (l : List Nat) : List Nat := l.foldl (fun a c => insPower s c a) []

/-- Hold clusters in turn until the power left is at most the cap; powers in units of 0.1 mW. -/
def holdUntil (cap : Nat) : List Nat → Int → State → State
  | [], _, s => s
  | c :: r, left, s =>
    if left ≤ cap then s
    else
      let p := getCluster s c
      let s1 := updCluster s c (fun p => { p with capHold := true, heldFor := 0, heldPower := p.power
                                                  heldLevel := dget s (Key.draughtLevel + c / 8) })
      holdUntil cap r (left - p.power * 1000) s1

/-- Clusters held for the cap. -/
def capHeldClusters (s : State) : List Nat := (List.range 32).filter fun c => (getCluster s c).capHold

/-- The cluster held longest, ties to the lower number. -/
def heldLongest (s : State) : List Nat → Option Nat
  | [] => none
  | c :: r =>
    match heldLongest s r with
    | none => some c
    | some d => if (getCluster s d).heldFor > (getCluster s c).heldFor then some d else some c

/-- R392: the release of this window. -/
def capRelease (s : State) (p cap : Nat) : State :=
  match heldLongest s (capHeldClusters s) with
  | none => s
  | some c =>
    let k := getCluster s c
    let l := dget s (Key.draughtLevel + c / 8)
    let lh := max 1 k.heldLevel
    if (p * lh * lh + k.heldPower * 1000 * l * l) * 100 ≤ 97 * cap * lh * lh then
      updCluster s c (fun k => { k with capHold := false, marked := false })
    else s

/-- R391, R392, R404: the levels can be lowered no further: every die stands at its floor, or at a fixed level, which counts as
the lowest that die has, since R404 has R392 hold clusters then and R13 has every cap reached (log 134). -/
def levelsSpent (s : State) : Bool :=
  (List.range 4).all fun d => decide (dget s (Key.draughtLevel + d) ≤ draughtFloor s) || dget s (Key.draughtFixed + d) != 0

/-- R392: hold or release. -/
def hardCap (s : State) (p cap : Nat) : State :=
  if p * 100 > cap * (100 + dget s Key.hardCapPct) ∨ (p > cap ∧ levelsSpent s) then holdUntil cap (byPower s (runningClusters s)) p s
  else capRelease s p cap

/-- The windows a hold has lasted. -/
def countHeld (s : State) : State :=
  (capHeldClusters s).foldl (fun st c => setCluster st c { getCluster st c with heldFor := (getCluster st c).heldFor + 1 }) s

/-- R391: Vc at the end of a window, kept between the floor and `DRAUGHT_MAX` (log 60). -/
def nextVc (s : State) (p cap : Nat) : Nat :=
  let warm := (List.range 32).any fun c => decide (clusterLevel s c ≥ 1)
  let v : Nat :=
    if p > cap then s.pw.vc - 25
    else if !(capHeldClusters s).isEmpty then s.pw.vc - 5
    else if 100 * p < 97 * cap ∧ !warm then s.pw.vc + 5
    else s.pw.vc
  min (max v (draughtFloor s)) (dget s Key.draughtMax)

/-- R398: Vt(d) at the end of a window. -/
def nextVt (s : State) (d : Nat) : Nat :=
  let lv := (List.range 8).map fun c => clusterLevel s (8 * d + c)
  let v := thermalTarget s d
  let w := if lv.any (fun l => decide (l ≥ 2)) then v - 25 else if lv.all (· == 0) then v + 5 else v
  min (max w (draughtFloor s)) (dget s Key.draughtMax)

/-- None of the cluster's sequencers holds a strand, running or saved, and none of its engines a tile or bank (R393). -/
def clusterEmpty (s : State) (c : Nat) : Bool :=
  let mine := fun (q : Nat) => decide (q < 512) && q % 256 / 8 == c
  !s.seqs.any (fun p => mine p.1 && p.2.strand.isSome) && !s.saved.any (fun v => mine v.seq)
    && (clusterEngines c).all fun e =>
        let g := getEng s e
        g.cur.isNone && g.drains.isEmpty && g.saved.isEmpty && g.todo.isEmpty && g.restarts.isEmpty

/-- Clusters that step 3 of R393 may turn off: damped ones, those held longest first, then those damped for idle. -/
def offOrder (s : State) : List Nat :=
  let damped := (List.range 32).filter fun c => !(getCluster s c).off && (getCluster s c).damp != .none
  let rank := fun c => if (getCluster s c).capHold then (getCluster s c).heldFor + 1 else 0
  damped.foldl (fun acc c => acc.takeWhile (fun d => rank d ≥ rank c) ++ [c] ++ acc.dropWhile (fun d => rank d ≥ rank c)) []

/-- R393, steps 3 and 4: turn off one damped cluster, marking the others; with none to turn off, put idle stacks into
self-refresh. `quiet` is a mask of the stacks with no access in the last window. Whether a measure acted. -/
def lowCap (s : State) (quiet : Nat) : State × Bool :=
  let order := offOrder s
  let s1 := order.foldl (fun st c => setCluster st c { getCluster st c with marked := true }) s
  match order.find? (clusterEmpty s1) with
  | some c =>
    let s2 := turnOff s1 c
    let p := getCluster s2 c
    (if p.capHold then s2
     else updCluster s2 c (fun p => { p with capHold := true, heldFor := 0, heldPower := p.power
                                             heldLevel := dget s2 (Key.draughtLevel + c / 8) }), true)
  | none =>
    let sleep := (List.range 20).filter fun h => bitOf quiet h && !bitOf s1.mem.idleRefresh h && !stackDropped s1.mem h
      && dirtyLines s1.mem (fun a => a / stackAtoms == h) == 0
    ({ s1 with mem := { s1.mem with idleRefresh := sleep.foldl (fun m h => setBit m h true) s1.mem.idleRefresh } }, !sleep.isEmpty)

/-- R393: the measures after the first two, and `CAP_UNMET` with its event once per 1,000 windows. -/
def capMeasures (s : State) (p cap quiet : Nat) : State :=
  let spent := levelsSpent s && (runningClusters s).isEmpty
    && !(capHeldClusters s).any (fun c => (getCluster s c).damp == .none && !(getCluster s c).off)
  if p ≤ cap ∨ !spent then
    let s1 := if p ≤ cap then (List.range 32).foldl (fun st c =>
        if (getCluster st c).marked then setCluster st c { getCluster st c with marked := false } else st) s else s
    dset { s1 with pw := { s1.pw with unmetFor := 0 } } Key.capUnmet 0
  else
    match lowCap s quiet with
    | (s1, true) => dset { s1 with pw := { s1.pw with unmetFor := 0 } } Key.capUnmet 0
    | (s1, false) =>
      let n := s1.pw.unmetFor
      let s2 := dset { s1 with pw := { s1.pw with unmetFor := n + 1 } } Key.capUnmet 1
      if n % 1000 = 0 then hubEvent s2 0x0202 else s2

/-- Ages and waits rise with every window (R402, R403). -/
def ageWork (s : State) : State :=
  { s with
    q := { s.q with ready := s.q.ready.map fun w => { w with age := w.age + 1 } }
    saved := s.saved.map fun v => { v with age := v.age + 1 }
    seqs := s.seqs.map fun p => (p.1, { p.2 with strand := p.2.strand.map fun st =>
      match st.wait with
      | .knot _ _ | .seal _ _ _ => { st with waited := st.waited + 1 }
      | .none | .fetch _ | .load _ | .store | .ladr _ => st }) }

/-- The kind of a sequencer: 0 forward, 1 backward, 2 update. -/
def seqKind (q : Nat) : Nat := if q < 256 then 0 else if q < 512 then 1 else 2

/-- The sequencer a placed work item names (R254). -/
def WorkItem.seq (w : WorkItem) : Nat := if w.skind = 0 then w.place else if w.skind = 1 then 256 + w.place else 512 + w.place

/-- R239, R403: an aged work item that only sequencer `q` can run is ready: one placed on it, or a strand saved on it. -/
def agedFor (s : State) (q : Nat) : Bool :=
  let limit := dget s Key.ageLimit
  s.q.ready.any (fun w => !w.any && w.seq == q && decide (w.age ≥ limit))
    || s.saved.any (fun v => v.seq == q && savedReady s v && decide (v.age ≥ limit))

/-- R240, R403: the strand of a sequencer is pre-empted for an aged item that only it can run. -/
def preempt (s : State) (q : Nat) : State :=
  match getStrand s q with
  | none => s
  | some st =>
    if st.waited ≥ dget s Key.ageLimit ∧ agedFor s q then (saveStrand s q st).getD s
    else s

/-- BUDGET_WINDOW_END (R391): the readings of both feeds and of the 32 clusters (0.1 W; one that cannot be read counts as
`POWER_CAP`, R389), and the stacks with no access in the window. -/
def budgetWindow (s0 : State) (a b : FeedReading) (clusters : List (Option Nat)) (quiet : Nat) : State :=
  if !s0.q.qeReady ∨ s0.flt.hubFault then s0
  else
    let miss := dget s0 Key.powerCap * 10
    let s := feedsRead s0 a b
    let pw := min (2 ^ 16 - 1) (a.power.getD miss + b.power.getD miss)
    let p := (a.power.getD miss + b.power.getD miss) * 1000
    let s1 := (List.range 32).foldl (fun st c =>
      setCluster st c { getCluster st c with power := (clusters.getD c none).getD miss }) (dset s Key.modulePower pw)
    let idle := (List.range 20).foldl (fun m h => if bitOf quiet h then m else setBit m h false) s1.mem.idleRefresh
    let s2 := ageWork { s1 with pw := { s1.pw with committed := {} }, mem := { s1.mem with idleRefresh := idle } }
    let cap := effCap s2
    let vc := nextVc s2 p cap
    let vt := (List.range 4).foldl (fun t d => tset 650 t d (nextVt s2 d)) s2.pw.vt
    let s3 := countHeld (hardCap s2 p cap)
    let s4 := setLevels { s3 with pw := { s3.pw with vc := vc, vt := vt } }
    let s5 := (List.range 32).foldl dampCheck s4
    let s6 := capMeasures s5 p cap quiet
    let s7 := (s6.seqs.map (·.1)).foldl preempt s6
    { s7 with pw := { s7.pw with capW := dget s7 Key.powerCap } }

/-! ### Selection (R399, R400, R402) -/

/-- The hub's read of device bytes for the scheduler; none where they cannot be read. -/
def hubPeek (s : State) (a n : Nat) : Option (List Byte) :=
  match devRead s hubVia false a n with
  | (.error _, _) => none
  | (.ok b, _) => some b

/-- R400: the estimate of an energy slot in W; an unreadable slot counts as the cap (R38). -/
def estimate (s : State) (slot : Nat) : Frac :=
  let dflt : Frac := { num := dget s Key.energyDefaultW }
  if slot = 0 then dflt
  else
    match hubPeek s (dget s Key.energyTable + 16 * slot) 16 with
    | none => { num := dget s Key.powerCap }
    | some b => if leField b 12 2 = 0 then dflt else { num := leField b 0 4, den := max 1 (leField b 4 4) }

/-- Sum of fractions. -/
def Frac.add (a b : Frac) : Frac := { num := a.num * b.den + b.num * a.den, den := a.den * b.den }
/-- Order of fractions. -/
def Frac.le (a b : Frac) : Bool := decide (a.num * b.den ≤ b.num * a.den)
/-- Strict order of fractions. -/
def Frac.lt (a b : Frac) : Bool := decide (a.num * b.den < b.num * a.den)

/-- A candidate of the selection: a ready work item, or a saved strand on its sequencer (R239). -/
inductive Cand where
  | item (w : WorkItem)
  | saved (v : Saved)
  deriving DecidableEq, Repr

/-- Queue of a candidate. -/
def Cand.queue : Cand → Nat
  | .item w => w.queue
  | .saved v => v.strand.queue
/-- Energy slot of a candidate. -/
def Cand.slot : Cand → Nat
  | .item w => w.energySlot
  | .saved v => v.strand.energySlot
/-- Windows a candidate has been ready. -/
def Cand.age : Cand → Nat
  | .item w => w.age
  | .saved v => v.age
/-- Its place in the order of becoming ready. -/
def Cand.stamp : Cand → Nat
  | .item w => w.stamp
  | .saved v => v.stamp
/-- The candidate may run elsewhere. -/
def Cand.any : Cand → Bool
  | .item w => w.any
  | .saved _ => false

/-- `WEIGHT` of a candidate's queue. -/
def Cand.weight (s : State) : Cand → Nat
  | .item w => max 1 w.weight
  | .saved v =>
    match cachedCtx s v.strand.queue with
    | some c => max 1 c.weight
    | none =>
      match hubPeek s (qctxAddr s v.strand.queue) 64 with
      | some b => max 1 (QCtx.parse b).weight
      | none => 1

/-- The best of a list under a strict order, the first among equals. -/
def bestOf {α : Type} (lt : α → α → Bool) : List α → Option α
  | [] => none
  | x :: r =>
    match bestOf lt r with
    | none => some x
    | some y => if lt y x then some y else some x

/-- The fair order: lowest started / weight, then the lower queue number, then the earlier of one queue. -/
def fairLt (s : State) (a b : Cand) : Bool :=
  let fa : Frac := { num := tget 0 s.q.started a.queue, den := a.weight s }
  let fb : Frac := { num := tget 0 s.q.started b.queue, den := b.weight s }
  if fa.lt fb then true else if fb.lt fa then false
  else if a.queue ≠ b.queue then decide (a.queue < b.queue) else decide (a.stamp < b.stamp)

/-- Lowest estimate, ties by the fair order. -/
def cheapLt (s : State) (a b : Cand) : Bool :=
  let ea := estimate s a.slot
  let eb := estimate s b.slot
  if ea.lt eb then true else if eb.lt ea then false else fairLt s a b

/-- Ready longest. -/
def olderLt (a b : Cand) : Bool := decide (a.stamp < b.stamp)

/-- The stack whose level steers a sequencer: its home, or its hearth's own. -/
def seqStack (s : State) (q : Nat) : Option Nat := if q < 512 then homeOfCore s.mem (q % 256) else some (q - 512)

/-- A sequencer of the same kind elsewhere on the die is free (R399). -/
def freeElsewhere (s : State) (q : Nat) : Bool :=
  let lo := if q < 512 then q / 64 * 64 else 512 + (q - 512) / 5 * 5
  (List.range (if q < 512 then 64 else 5)).any fun i =>
    let r := lo + i
    (if q < 512 then decide (seqCore r / 8 ≠ seqCore q / 8) else decide (r ≠ q)) && (getStrand s r).isNone && !(getSeq s r).fenced

/-- The candidates of a sequencer. -/
def candidates (s : State) (q : Nat) : List Cand :=
  let items := (s.q.ready.filter fun w => w.skind == seqKind q && (w.any || w.seq == q)).map Cand.item
  let sv := (s.saved.filter fun v => v.seq == q && savedReady s v).map Cand.saved
  let lvl := match seqStack s q with | some st => dget s (Key.stackThermal + st) | none => 0
  let steer := decide (lvl ≥ 2) || (decide (q < 512) && decide (clusterLevel s (seqCore q / 8) ≥ 1))
  if steer && freeElsewhere s q then (items ++ sv).filter (fun c => !c.any) else items ++ sv

/-- The unit of a sequencer takes no work: held, damped by a hold, off, marked, or its stack held (R399, R402). -/
def takesNone (s : State) (q : Nat) : Bool :=
  let p := getCluster s (seqCore q / 8)
  (if q < 512 then p.off || p.capHold || p.heatHold || p.damp == .hold || p.marked || p.tripped else hearthHeld s (q - 512))
    || (match seqStack s q with | some st => stackHeld s st | none => false)

/-- R402: the choice of a free sequencer. -/
def selectFor (s : State) (q : Nat) : Option Cand :=
  if takesNone s q then none
  else
    let cands := candidates s q
    let p := dget s Key.modulePower * 1000
    let room := fun (c : Cand) =>
      let e := (estimate s c.slot).add s.pw.committed
      decide (e.num * 10000 + p * e.den ≤ effCap s * e.den)
    let fit := cands.filter room
    let aged := fit.filter fun c => decide (c.age ≥ dget s Key.ageLimit)
    if !aged.isEmpty then bestOf olderLt aged
    else if fit.isEmpty then
      if s.seqs.any (fun r => r.2.strand.isSome) then none else bestOf (cheapLt s) cands
    else if (List.range 32).any (fun c => decide (clusterLevel s c ≥ 1))
        || (List.range 20).any (fun h => decide (dget s (Key.stackThermal + h) ≥ 2)) then bestOf (cheapLt s) fit
    else bestOf (fairLt s) fit

/-- SEQUENCER_SELECT (R402): a free sequencer takes its next work item, or a saved strand; a cluster damped for idle wakes for
it. -/
def sequencerSelect (s : State) (q : Nat) : State :=
  if (getStrand s q).isSome || (getSeq s q).fenced || bitOf s.rst.dieFence (seqDie q)
      || s.flt.hubFault || !s.q.qeReady then s
  else
    match selectFor s q with
    | none => s
    | some c =>
      let s1 := if q < 512 then clusterWake s (seqCore q / 8) else s
      match c with
      | .item w =>
        let s2 := { s1 with
          q := { s1.q with
            ready := s1.q.ready.erase w, started := tset 0 s1.q.started w.queue (tget 0 s1.q.started w.queue + 1) }
          pw := { s1.pw with committed := s1.pw.committed.add (estimate s1 w.energySlot) } }
        kickAll (startOn s2 q w)
      | .saved v => resumeSaved s1 v

/-! ### Step monitors (R46–R49) -/

/-- STEP_MONITOR_WINDOW (R48): cycle counts of the 32 step monitors over a window of 2^n oscillator cycles. A damped or off
cluster reads 0. The window's length and the clusters' conditions are those at the window's end (log 136). -/
def stepMonitor (s : State) (counts : List Nat) : State :=
  if !s.q.qeReady then s
  else
    let n := dget s Key.stepMonWindow
    let rate := fun (c : Nat) => if clusterCond s c ≥ 2 then 0 else counts.getD c 0 * 156250000 / 2 ^ n / 1000 % 2 ^ 32
    let s1 := (List.range 32).foldl (fun st c => dset st (Key.clusterStepRate + c) (rate c)) s
    let dieRate := fun (d : Nat) =>
      let on := ((List.range 8).map (· + 8 * d)).filter fun c => decide (clusterCond s c ≤ 1)
      (on.map rate).foldl (fun m r => match m with | none => some r | some x => some (min x r)) (none : Option Nat)
    let s2 := (List.range 4).foldl (fun st d => dset st (Key.dieStepRate + d) ((dieRate d).getD 0)) s1
    dset s2 Key.stepMonCount ((dget s2 Key.stepMonCount + 1) % 2 ^ 32)

/-- COOLANT_INLET_READING (R405): inlet and outlet in 1/16 °C; an event when the inlet comes to exceed 50 °C. -/
def coolantReading (s : State) (inlet outlet : Option Int) : State :=
  let put := fun (st : State) (k : Nat) (t : Option Int) => dset st k (match t with | none => 0x7FFF | some x => signed16 x)
  let s1 := put (put s Key.coolantTemp inlet) (Key.coolantTemp + 1) outlet
  let hot := match inlet with | none => s.pw.coolantHot | some x => decide (x > 50 * 16)
  let s2 := { s1 with pw := { s1.pw with coolantHot := hot } }
  if hot && !s.pw.coolantHot then hubEvent s2 0x0206 else s2

end Sys2Proof.Machine
end

