-- ==== Sys2Proof/Machine/DictImage.lean ====
section
/-!
DEFINITION. Written values and the persistent image of the dictionary (R428, R444–R450): ranges, consistency, the
commit, the load at start-up and the hold state.
-/

namespace Sys2Proof.Machine

/-! ### Written values (R428) -/

/-- The written value of an entry; it differs from the acting one where a load of defaults met a unit that was not
idle (R451). -/
def wget (s : State) (key : Nat) : Nat := (tget none s.dsys.written key).getD (dget s key)

/-- An entry's value is written and acts. -/
def wset (s : State) (key v : Nat) : State :=
  let s1 := dset s key v
  { s1 with dsys := { s1.dsys with written := tset none s1.dsys.written key none } }

/-- A written value that acts at the next module reset (R451). -/
def wdefer (s : State) (key v : Nat) : State :=
  { s with dsys := { s.dsys with written := tset none s.dsys.written key (if v = dget s key then none else some v) } }

/-- A writable P entry. -/
def EMeta.stored (m : EMeta) : Bool := m.cls == .p && (m.acc == .rw || m.acc == .rwl)

/-- The entry of a key is a writable P entry. -/
def storedKey (key : Nat) : Bool := match findMeta key with | some m => m.stored | none => false

/-- The writable P entries whose written value differs from their default, rising (R444). -/
def storedValues (s : State) : Tab Nat :=
  let keys := s.dsys.written.foldl (fun l e => sinsert e.1 l) (s.dict.map (·.1))
  (keys.filter storedKey).filterMap fun k => if wget s k = dictDefault k then none else some (k, wget s k)

/-- `DICT_DIRTY` (R428). -/
def dictDirty (s : State) : Bool := storedValues s != s.dsys.base

/-- Entries whose values a range and step cannot say: 0xFF of a feed override (R348), 0 of `DRAUGHT_FIXED` (R391). -/
def specialValue (key v : Nat) : Bool :=
  ((key == Key.feedAOvr || key == Key.feedBOvr) && v == 0xFF)
    || (decide (Key.draughtFixed ≤ key) && decide (key < Key.draughtFixed + 4) && v == 0)

/-- A value lies in its entry's stated range. -/
def inRange (m : EMeta) (key v : Nat) : Bool :=
  specialValue key v
    || (decide (m.lo ≤ v) && decide (v ≤ m.hi) && decide (v % m.step = 0)
      && (if key = Key.feedAOvr ∨ key = Key.feedBOvr then decide (v ≤ 15)
          else if Key.draughtFixed ≤ key ∧ key < Key.draughtFixed + 4 then
            decide (620 ≤ v) && decide (v ≤ 850) && decide (v % 5 = 0)
          else true))

/-! ### The image (R444, R445) -/

/-- The code of a type (R426). -/
def ETy.code : ETy → Nat
  | .bool => 1 | .u8 => 2 | .u16 => 3 | .u32 => 4 | .u64 => 5 | .i16 => 6 | .i32 => 7 | .ol16 => 8 | .enum => 9
  | .str => 10 | .blob => 11

/-- The bytes of a numeric type (R426). -/
def ETy.bytes : ETy → Nat
  | .bool | .u8 | .enum => 1
  | .u16 | .i16 | .ol16 => 2
  | .u32 | .i32 => 4
  | .u64 => 8
  | .str | .blob => 0

/-- Zeros that fill a length to a multiple of 4. -/
def padding4 (n : Nat) : List Byte := List.replicate ((4 - n % 4) % 4) 0

/-- An item of a message (R431). -/
def itemBytes (key type istat : Nat) (data : List Byte) : List Byte :=
  leBytes 2 (key / 256) ++ leBytes 1 (key % 256) ++ leBytes 1 type ++ leBytes 2 data.length ++ leBytes 2 istat
    ++ data ++ padding4 data.length

/-- The bytes of an image (R444). -/
def DictImage.bytes (i : DictImage) : List Byte :=
  let body := i.recs.flatMap fun r =>
    let ty := ((findMeta r.1).map (·.ty)).getD .u8
    itemBytes r.1 ty.code 0 (leBytes ty.bytes r.2)
  let head := leBytes 4 0x5452414E ++ leBytes 2 1 ++ leBytes 2 0 ++ leBytes 4 i.gen ++ leBytes 4 body.length
    ++ leBytes 2 i.recs.length ++ leBytes 10 0
  head ++ leBytes 4 (crc32c (head ++ body)) ++ body

/-- A record names a writable P entry and its value lies in the entry's range, or it names none and is skipped
(R445). -/
def recordOk (r : Nat × Nat) : Bool :=
  match findMeta r.1 with
  | some m => !m.stored || inRange m r.1 r.2
  | none => true

/-- The written values that an image's records give, in the form in which `DICT_DIRTY` compares them (R428). -/
def imageValues (recs : Tab Nat) : Tab Nat :=
  recs.foldl (fun t r => if storedKey r.1 then tput (decide (r.2 = dictDefault r.1)) t r.1 r.2 else t) []

/-- A copy is valid (R445). -/
def validCopy (c : Option DictImage) : Option DictImage :=
  match c with
  | none => none
  | some i => if i.gen ≠ 0 ∧ (i.recs.map (·.1)).Nodup ∧ i.recs.all recordOk then some i else none

/-- R445: the copy chosen, with its number: 1 A, 2 B. -/
def chosenCopy (f : FlashSys) : Option (Nat × DictImage) :=
  match validCopy f.copyA, validCopy f.copyB with
  | none, none => none
  | some a, none => some (1, a)
  | none, some b => some (2, b)
  | some a, some b => if (a.gen + 2 ^ 32 - b.gen) % 2 ^ 32 < 2 ^ 31 then some (1, a) else some (2, b)

/-! ### Consistency (R446, R447) -/

/-- An effective feed identity (R348): its override, or the strap. -/
def feedIdentity (s : State) (f : Nat) : Nat :=
  let o := wget s (if f = 0 then Key.feedAOvr else Key.feedBOvr)
  if o ≤ 15 then o else Config.strap (1 + f) % 16

/-- R446: each rule judged on written values, with whether it holds, and the entries it binds. -/
def configRules (s : State) : List (Bool × List Nat) :=
  [(decide (wget s Key.zoneNearUnits + wget s Key.zoneExplUnits + wget s Key.zoneDieUnits ≤ 48),
      [Key.zoneNearUnits, Key.zoneExplUnits, Key.zoneDieUnits]),
   (decide (wget s Key.hearthScratchWays + (wget s Key.replayArenaMib + 14) / 15 ≤ 14),
      [Key.hearthScratchWays, Key.replayArenaMib]),
   (decide (200 * wget s Key.powerCap ≤ 81 * wget s Key.feedIlim), [Key.powerCap, Key.feedIlim]),
   (decide (feedIdentity s 0 ≠ feedIdentity s 1), [Key.feedAOvr, Key.feedBOvr]),
   ((List.range 4).all (fun d => decide (wget s (Key.draughtFixed + d) ≤ wget s Key.draughtMax)),
      Key.draughtMax :: (List.range 4).map (Key.draughtFixed + ·))]

/-- The configuration is consistent, the reservation rule apart (R446). -/
def consistent (s : State) : Bool := (configRules s).all (·.1)

/-- A rule that binds the entry is broken. -/
def breaksRule (s : State) (key : Nat) : Bool := (configRules s).any fun r => !r.1 && r.2.contains key

/-! ### Loading and the hold state (R449, R450) -/

/-- Values that act from a start: zones, ways, reservations and the BAR2 size (R272, R277, R276, R265), and the effective
feed identities. -/
def actAtStart (s : State) : State :=
  let s1 := dset (dset s Key.feedAId (feedIdentity s 0)) Key.feedBId (feedIdentity s 1)
  { s1 with
    mem := { s1.mem with
      zNear := wget s1 Key.zoneNearUnits, zExpl := wget s1 Key.zoneExplUnits, zDie := wget s1 Key.zoneDieUnits
      uWays := wget s1 Key.hearthScratchWays, aWays := (wget s1 Key.replayArenaMib + 14) / 15
      slotPages := wget s1 Key.partnerSlotPages, ftPoolMib := wget s1 Key.ftPoolMib } }

/-- The initial size of BAR2, which only a start of the module takes (R265). -/
def startBar2 (s : State) : State :=
  { s with q := { s.q with bar2Log2 := wget s Key.bar2InitLog2, bar2Init := wget s Key.bar2InitLog2 } }

/-- Enter the hold state (R449), with event 0x0601; `at_` is the stage at which start-up resumes. -/
def enterHold (s : State) (cause at_ : Nat) : State :=
  let s1 := dset (dset s Key.holdCause cause) Key.startupStage 2
  hubEvent { s1 with dsys := { s1.dsys with holdAt := at_ } } 0x0601 cause

/-- The hold ends: start-up resumes at the stage that entered it, and the values written in it act. -/
def leaveHold (s : State) : State :=
  actAtStart (dset (dset s Key.holdCause 0) Key.startupStage s.dsys.holdAt)

/-- Map-out bits set by fences come back with every load (R286). -/
def reloadMapout (s : State) : State :=
  (List.range 20).foldl (fun st h =>
    let k := Key.mapoutReq + h
    dset st k (Nat.lor (dget st k) (tget 0 st.flash.mapout h))) s

/-- DICT_LOAD (R449): written values from the chosen copy, the entries about the copies, and RUNNING or HOLD. -/
def dictLoad (s : State) : State :=
  let fail := (if (validCopy s.flash.copyA).isSome then 0 else 1) + (if (validCopy s.flash.copyB).isSome then 0 else 2)
  let s0 := dset s Key.dictImageFail fail
  match chosenCopy s.flash with
  | none =>
    enterHold (startBar2 <| actAtStart <| reloadMapout { s0 with dsys := { s0.dsys with base := [] } }) 1 3
  | some (n, img) =>
    let known := img.recs.filter fun r => storedKey r.1
    let s1 := known.foldl (fun st r => dset st r.1 r.2) s0
    let s2 := dset (dset (dset s1 Key.dictImageGen img.gen) Key.dictImageCopy n) Key.dictImageSkipped (img.recs.length - known.length)
    let s3 := startBar2 <| actAtStart <| reloadMapout { s2 with dsys := { s2.dsys with base := imageValues img.recs } }
    if consistent s3 then dset s3 Key.startupStage 3 else enterHold s3 2 3

/-! ### The commit (R448) -/

/-- The commit-failed event (R527). -/
def commitFailed (s : State) (code target gen : Nat) : State :=
  hubEvent (dset s Key.dictCommitState 3) 0x0605 code (atByte 16 target + atByte 20 gen)

/-- The target of the next commit and its generation (R448). With no copy valid the target is A (log 61). -/
def commitTarget (s : State) : Nat × Nat :=
  match dget s Key.dictImageCopy with
  | 0 => (1, 1)
  | 1 => (2, dget s Key.dictImageGen % 0xFFFFFFFF + 1)
  | _ => (1, dget s Key.dictImageGen % 0xFFFFFFFF + 1)

/-- Steps 1 to 3: the values are taken and the target sector is erased. -/
def beginCommit (s : State) : State :=
  let (t, g) := commitTarget s
  let s1 := dset s Key.dictCommitState 1
  { s1 with
    dsys := { s1.dsys with commit := some { target := t, gen := g, recs := storedValues s1 } }
    flash := if t = 1 then { s1.flash with copyA := none } else { s1.flash with copyB := none } }

/-- A write of `DICT_COMMIT`; the status of R430. In the hold state an inconsistent configuration is not committed. -/
def writeCommit (s : State) : State × Nat :=
  if s.dsys.commit.isSome then (s, 0x0A)
  else if inHold s && !consistent s then (commitFailed s 1 0 0, 0)
  else (beginCommit s, 0)

/-- COMMIT_COMPLETE (R448, R449). -/
def commitComplete (s : State) (e : FlashEnd) : State :=
  match s.dsys.commit with
  | none => s
  | some c =>
    let s0 := { s with dsys := { s.dsys with commit := none } }
    match e with
    | .writeFailed => commitFailed s0 2 c.target c.gen
    | .readBackFailed => commitFailed s0 3 c.target c.gen
    | .ok =>
      let img : DictImage := { gen := c.gen, recs := c.recs }
      let fl := { s0.flash with commits := satAdd (2 ^ 32 - 1) s0.flash.commits 1 }
      let s1 := { s0 with
        flash := if c.target = 1 then { fl with copyA := some img } else { fl with copyB := some img }
        dsys := { s0.dsys with base := c.recs } }
      let s2 := dset (dset (dset s1 Key.dictImageGen c.gen) Key.dictImageCopy c.target) Key.dictCommitState 2
      if inHold s2 && consistent s2 then leaveHold s2 else s2

end Sys2Proof.Machine
end

