-- ==== Sys2Proof/Machine/Security.lean ====
section
/-!
DEFINITION. Security: firmware staging (R468, R474–R478), device keys and enrolment (R479–R483), SPDM (R484–R487),
measurements and reports (R487–R489), and the service port (R490).
-/

namespace Sys2Proof.Machine

/-! ### Images (R468, R474, R475) -/

/-- Bytes `o` to `o + n − 1` of an image's data; a block that was not written reads as zeros. -/
def FwImage.bytesAt (f : FwImage) (o n : Nat) : List Byte :=
  (((padTo 1024 (tget [] f.data (o / 1024)))).drop (o % 1024)).take n

/-- The header's fields, all of which lie in the first 1,024 bytes. -/
def FwImage.field (f : FwImage) (o n : Nat) : Nat := leNat (f.bytesAt o n)

/-- Bytes of the body. -/
def FwImage.bodyLen (f : FwImage) : Nat := f.field 44 4

/-- The whole image from byte 0. -/
def FwImage.flat (f : FwImage) (n : Nat) : List Byte :=
  ((List.range ((n + 1023) / 1024)).flatMap fun i => padTo 1024 (tget [] f.data i)).take n

/-- R475: the first step an image fails: 0 none, 1 HEADER, 2 KEY, 3 DIGEST, 4 RSA, 5 SLH. `rsa` and `slh` are the verdicts
of the two signature checks. -/
def FwImage.failedStep (f : FwImage) (rsa slh : Bool) : Nat :=
  let head := f.field 0 4 == 0x524E5449 && f.field 4 2 == 1 && f.field 6 2 == 1 && leNat (f.bytesAt 528 496) == 0
    && leNat (((f.flat 18432).drop 17632)) == 0 && decide (18432 + f.bodyLen ≤ 16 * 2 ^ 20)
  if !head then 1
  else if sha384 (f.bytesAt 96 384) ≠ Config.imageKeyDigest false ∨ sha384 (f.bytesAt 480 48) ≠ Config.imageKeyDigest true then 2
  else if (sha384 ((f.flat (18432 + f.bodyLen)).drop 18432)).toNat ≠ f.field 48 48 then 3
  else if !rsa then 4
  else if !slh then 5
  else 0

/-- An image with what its header says of it. -/
def FwImage.named (f : FwImage) : FwImage :=
  { f with version := f.bytesAt 12 32, svn := f.field 8 4, digest := f.field 48 48 }

/-- The image a unit is delivered with. -/
def deliveredImage : FwImage :=
  { version := Config.imageVersion 0, svn := Config.imageSvn.toNat, digest := Config.imageDigest.toNat }

/-- The image in the active slot. -/
def activeImage (s : State) : FwImage := s.flash.active.getD deliveredImage

/-- The image in the staged slot. -/
def stagedImage (s : State) : FwImage := s.flash.staged

/-- The image that runs (R477). -/
def runningImage (s : State) : FwImage := if s.sec.runStaged then stagedImage s else activeImage s

/-- Set the staged slot's state (R472). -/
def setFwState (s : State) (v : Nat) : State := dset { s with flash := { s.flash with fwState := v } } Key.fwStageState v

/-- A verification of the staged image runs. -/
def verifying (s : State) : Bool := s.sec.work.contains .verify

/-- `FW_STAGE_CMD` BEGIN; the status of R430. -/
def fwBegin (s : State) : State × Nat :=
  if verifying s then (s, 0x0A)
  else if [0, 2, 4, 5].contains s.flash.fwState then
    (setFwState (dset { s with flash := { s.flash with staged := {} } } Key.fwStageOffset 0) 1, 0)
  else (s, 3)

/-- `FW_STAGE_DATA`: 1,024 bytes at the offset. -/
def fwData (s : State) (b : List Byte) : State × Nat :=
  let o := dget s Key.fwStageOffset
  if b.length ≠ 1024 then (s, 2)
  else if s.flash.fwState ≠ 1 ∨ o ≥ 16 * 2 ^ 20 then (s, 3)
  else
    let img := { s.flash.staged with data := tset [] s.flash.staged.data (o / 1024) b }
    (dset { s with flash := { s.flash with staged := img } } Key.fwStageOffset (o + 1024), 0)

/-- VERIFY: the security block takes the staged image up in turn (R486). -/
def fwVerify (s : State) : State × Nat :=
  if verifying s then (s, 0x0A)
  else if s.flash.fwState = 1 then ({ s with sec := { s.sec with work := s.sec.work ++ [.verify] } }, 0)
  else (s, 3)

/-- VERIFY_DONE. -/
def verifyDone (s : State) (rsa slh : Bool) : State :=
  match s.sec.work with
  | .verify :: r =>
    let s1 := { s with sec := { s.sec with work := r } }
    if s1.flash.fwState ≠ 1 then s1
    else if s1.flash.staged.failedStep rsa slh = 0 then
      setFwState { s1 with flash := { s1.flash with staged := s1.flash.staged.named } } 2
    else setFwState s1 4
  | _ => s

/-- A module reset is under way (R471). -/
def resetUnderWay (s : State) : Bool :=
  s.rst.mrst || (dget s Key.startupStage == 0 && dget s Key.bootResult != 3)

/-- ARM. -/
def fwArm (s : State) : State × Nat :=
  if verifying s then (s, 0x0A)
  else if s.flash.fwState ≠ 2 then (s, 3)
  else if resetUnderWay s then (s, 6)
  else (setFwState s 3, 0)

/-- CANCEL. -/
def fwCancel (s : State) : State × Nat :=
  if verifying s then (s, 0x0A)
  else if [1, 2, 3].contains s.flash.fwState then
    (setFwState { s with flash := { s.flash with staged := {} } } 0, 0)
  else (s, 3)

/-- `FW_STAGE_CMD`. -/
def writeFwCmd (s : State) (v : Nat) : State × Nat :=
  match v with
  | 1 => fwBegin s
  | 2 => fwVerify s
  | 3 => fwArm s
  | 4 => fwCancel s
  | _ => (s, 3)

/-! ### Random output and keys (R479–R481) -/

/-- Random output of the security block. -/
def drawRandom (s : State) : Nat × State :=
  let (v, s1) := drawFree s
  (v, { s1 with sec := { s1.sec with drbg := s1.sec.drbg + 1 } })

/-- The keys are formed: their values are the unit's secrets (log 3). -/
def formKeys (s : State) : State :=
  let (a, s1) := drawFree s
  let (b, s2) := drawFree s1
  let (c, s3) := drawFree s2
  { s3 with sec := { s3.sec with ks := tset 0 (tset 0 (tset 0 s3.sec.ks 1 (1 + a)) 2 (1 + b)) 3 (1 + c) } }

/-- KS0 to KS3 are zeroised. -/
def zeroKeys (s : State) : State := { s with sec := { s.sec with ks := s.sec.ks.filter fun e => e.1 == 4 } }

/-- The attestation state without keys: OPENED once the port has been opened, else UNENROLLED (R482). -/
def attBare (s : State) : Nat := if s.flash.openCount > 0 then 4 else 0

/-- R479: the device keys are rebuilt at stage 0; `ok` says whether the rebuild from the PUF succeeds. -/
def rebuildKeys (s : State) (ok : Bool) : State :=
  let (seed, s0) := drawFree s
  let s1 := { s0 with sec := { s0.sec with ks := tset 0 s0.sec.ks 4 (1 + seed) } }
  let s2 := dset s1 Key.openCount s1.flash.openCount
  if !s2.flash.helper then dset s2 Key.attState (attBare s2)
  else if !ok then dset (hubEvent s2 0x0704) Key.attState (if s2.flash.enrolled then 3 else attBare s2)
  else dset (formKeys s2) Key.attState (if s2.flash.enrolled then 2 else attBare s2)

/-- A health test of the entropy source fails (R481). -/
def entropyFail (s : State) : State := hubEvent (dset s Key.entropyFail 1) 0x0706

/-! ### Enrolment (R482, R483) -/

/-- ENROL GENERATE; the status of R430. -/
def enrolGenerate (s : State) : State × Nat :=
  if s.sec.enrolBusy then (s, 0x0A)
  else if [0, 3, 4].contains (dget s Key.attState) then
    (dset { s with sec := { s.sec with enrolBusy := true } } Key.enrolResult 1, 0)
  else (s, 3)

/-- ENROL_GENERATE_DONE: new helper data, keys and the two signed certificate requests, unless random output waits for the
entropy source (R481). -/
def enrolGenerated (s : State) : State :=
  if !s.sec.enrolBusy ∨ dget s Key.entropyFail = 1 then s
  else
    let (a, s1) := drawRandom (formKeys s)
    let (b, s2) := drawRandom s1
    let s3 := { s2 with
      flash := { s2.flash with helper := true, enrolled := false, chains := [] }
      sec := { s2.sec with enrolBusy := false, certReqs := tset 0 (tset 0 [] 0 a) 1 b, chainBuf := [] } }
    dset (dset s3 Key.attState 1) Key.enrolResult 0

/-- The bytes of chain `obj` among blocks of chains, up to the last block written. -/
def chainOf (t : Tab (List Byte)) (obj : Nat) : List Byte :=
  let mine := t.filter fun e => e.1 / 64 == obj
  (List.range (mine.foldl (fun n e => max n (e.1 % 64 + 1)) 0)).flatMap fun i => padTo 1024 (tget [] t (obj * 64 + i))

/-- R483: each certificate is signed by the next in the chain. -/
def chainSigned (slh : Bool) : List (List Byte) → Bool
  | c :: d :: r => Config.certSigned slh c d && chainSigned slh (d :: r)
  | _ => true

/-- R483: a chain, leaf first, is valid: each certificate is signed by the next, the last one's key is the enrolment root of
the ROM, and the leaf carries the module's new key, `MODULE_ID` and the present `OPEN_COUNT`. -/
def certsValid (s : State) (slh : Bool) (certs : List (List Byte)) : Bool :=
  match certs, certs.getLast? with
  | leaf :: _, some root =>
    chainSigned slh certs && sha384 (Config.certKey root) == Config.enrolRootDigest slh
      && Config.certKey leaf == Config.publicKey slh (tget 0 s.sec.ks (if slh then 2 else 3))
      && Config.certModuleId leaf == Config.moduleId && (Config.certOpenCount leaf).toNat == s.flash.openCount
  | _, _ => false

/-- The chain written for `ENROL_CHAIN` 0 (RSA) or 1 (SLH-DSA) is valid. -/
def chainValid (s : State) (slh : Bool) : Bool :=
  certsValid s slh (Config.certificates (chainOf s.sec.chainBuf (if slh then 1 else 0)))

/-- INSTALL: both chains that have been written must meet R483. -/
def enrolInstall (s : State) : State × Nat :=
  if s.sec.enrolBusy then (s, 0x0A)
  else if dget s Key.attState ≠ 1 then (s, 3)
  else if chainValid s false && chainValid s true then
    let s1 := { s with flash := { s.flash with enrolled := true, chains := s.sec.chainBuf }, sec := { s.sec with chainBuf := [] } }
    (hubEvent (dset (dset s1 Key.enrolResult 0) Key.attState 2) 0x0703, 0)
  else (hubEvent (dset s Key.enrolResult 2) 0x0703, 0)

/-- An enrolment is given up: its helper data and key store are erased. -/
def enrolDrop (s : State) : State :=
  let s1 := zeroKeys { s with flash := { s.flash with helper := false, enrolled := false, chains := [] }
                              sec := { s.sec with enrolBusy := false, certReqs := [], chainBuf := [] } }
  dset s1 Key.attState (attBare s1)

/-- ENROL CANCEL. -/
def enrolCancel (s : State) : State × Nat :=
  if s.sec.enrolBusy then (s, 0x0A)
  else if dget s Key.attState ≠ 1 then (s, 3)
  else (dset (enrolDrop s) Key.enrolResult 3, 0)

/-- `ENROL_CHAIN_DATA` is written in ENROLLING. -/
def writeChainData (s : State) (b : List Byte) : State × Nat :=
  if b.length ≠ 1024 then (s, 2)
  else if dget s Key.attState ≠ 1 then (s, 9)
  else
    let k := dget s Key.enrolChain * 64 + dget s Key.enrolOffset / 1024
    ({ s with sec := { s.sec with chainBuf := tset [] s.sec.chainBuf k b } }, 0)

/-- The bytes of an installed chain. -/
def chainBytes (s : State) (obj : Nat) : List Byte := chainOf s.flash.chains obj

/-- `ENROL_CHAIN_DATA` as read: the installed chain in ENROLLED, otherwise zeros (log 62). -/
def readChainData (s : State) : List Byte :=
  if dget s Key.attState = 2 then
    padTo 1024 (tget [] s.flash.chains (dget s Key.enrolChain * 64 + dget s Key.enrolOffset / 1024))
  else List.replicate 1024 0

/-- `ENROL_REQ_DATA`: 1,024 bytes of the certificate request addressed; its content is the security block's (log 3). -/
def readCertReq (s : State) : List Byte :=
  leBytes 1024 (tget 0 s.sec.certReqs (dget s Key.enrolChain) / 256 ^ dget s Key.enrolOffset)

/-! ### Measurements (R487, R488) -/

/-- `SEC_FLAGS` (R488). -/
def secFlags (s : State) : Nat :=
  (if s.flash.openCount > 0 then 1 else 0) + (if dget s Key.restoreUnverified = 1 then 2 else 0)
    + (if dget s Key.pairCorrelated = 1 then 4 else 0) + (if dget s Key.fwFallback = 1 then 8 else 0) + (if inHold s then 16 else 0)

/-- The image in the copy chosen at the last load or commit. -/
def presentImage (s : State) : Option DictImage :=
  match dget s Key.dictImageCopy with
  | 1 => s.flash.copyA
  | 2 => s.flash.copyB
  | _ => none

/-- The security record. -/
def securityRecord (s : State) : List Byte :=
  leBytes 4 (runningImage s).svn ++ leBytes 4 (secFlags s) ++ leBytes 2 s.flash.openCount ++ leBytes 1 (dget s Key.bootResult)
    ++ leBytes 1 (dget s Key.attState) ++ leBytes 4 (dget s Key.freezeDoneGen)
    ++ leBytes 4 (if dget s Key.restoreUnverified = 1 then dget s Key.restoreGen else 0) ++ leBytes 4 0
    ++ leBytes 48 (if [2, 3, 5].contains s.flash.fwState then (stagedImage s).digest else 0)

/-- A block in the SPDM measurement block format: index, specification DMTF, size, then type, size and value. -/
def measBlock (index type : Nat) (v : List Byte) : List Byte :=
  leBytes 1 index ++ leBytes 1 1 ++ leBytes 2 (3 + v.length) ++ leBytes 1 type ++ leBytes 2 v.length ++ v

/-- Blocks 1 to 5. -/
def measurements (s : State) : List Byte :=
  measBlock 1 0 (leBytes 48 Config.romDigest.toNat)
    ++ measBlock 2 1 (leBytes 48 (runningImage s).digest)
    ++ measBlock 3 2 (leBytes 48 Config.identityDigest.toNat)
    ++ measBlock 4 3 (match presentImage s with
        | some i => leBytes 48 (sha384 i.bytes).toNat
        | none => leBytes 48 0)
    ++ measBlock 5 0x84 (securityRecord s)

/-! ### Signed work (R486, R489) -/

/-- Hand a piece of signed work to the security block. -/
def signWork (s : State) (w : SecWork) : State := { s with sec := { s.sec with work := s.sec.work ++ [w] } }

/-- The private keys are held: the module is ENROLLED and has not zeroised them on its way to Banked (R480). -/
def canSign (s : State) : Bool := dget s Key.attState == 2 && tget 0 s.sec.ks 2 != 0 && tget 0 s.sec.ks 3 != 0

/-- `ATT_CMD` GENERATE; a module without its keys refuses the report (log 63). -/
def attGenerate (s : State) : State × Nat :=
  if dget s Key.attReportState = 1 then (s, 0x0A)
  else if !canSign s then (hubEvent (dset s Key.attReportState 3) 0x0705, 0)
  else (signWork (dset s Key.attReportState 1) .report, 0)

/-- A signature of `n` bytes: its value is the security block's (log 3). -/
def signature (s : State) (n : Nat) : Nat × State :=
  let (v, s1) := drawRandom s
  (v % 256 ^ n, s1)

/-- Send an SPDM response. -/
def spdmSend (s : State) (r : SpdmResp) : State := sendOut s (.spdm r)

/-- The report of R489. -/
def finishReport (s : State) : State :=
  let m := measurements s
  let body := leBytes 4 0x52544152 ++ leBytes 4 Config.moduleId.toNat ++ padTo 32 s.sec.nonce ++ leBytes 4 m.length ++ m
  let (a, s1) := signature s 384
  let (b, s2) := signature s1 16224
  let rep := body ++ leBytes 384 a ++ leBytes 16224 b
  dset (dset { s2 with sec := { s2.sec with report := rep } } Key.attReportState 2) Key.attReportLen rep.length

/-- An SPDM request that needs the keys of a module which is not ENROLLED is refused, with event 0x0705 (R484). -/
def spdmRefuse (s : State) : State := hubEvent (spdmSend s .unexpected) 0x0705

/-- The SLH-DSA signature of the response signed last (R485). -/
def sendPqSignature (s : State) : State :=
  let (v, s1) := signature s 16224
  spdmSend s1 (.pqSignature v)

/-- REPORT_READY (R486): the work in front is done, unless it waits for random output (R481). -/
def reportReady (s : State) : State :=
  match s.sec.work with
  | [] => s
  | w :: r =>
    if dget s Key.entropyFail = 1 then s
    else
      let s0 := { s with sec := { s.sec with work := r } }
      match w with
      | .verify => s
      | .report => finishReport s0
      | .challenge =>
        if !canSign s0 then spdmRefuse s0
        else
          let (n, s1) := drawRandom s0
          let (a, s2) := signature s1 384
          spdmSend { s2 with sec := { s2.sec with pqNext := true } } (.challengeAuth (n % 256 ^ 32) a)
      | .signedMeas b =>
        if !canSign s0 then spdmRefuse s0
        else
          let (n, s1) := drawRandom s0
          let (a, s2) := signature s1 384
          spdmSend { s2 with sec := { s2.sec with pqNext := true } } (.measurements b (n % 256 ^ 32) (some a))
      | .pqSignature => if !canSign s0 then spdmSend s0 .unexpected else sendPqSignature s0

/-- `ATT_REPORT_DATA`: 1,024 bytes from the offset, zero beyond the end. -/
def readReport (s : State) : List Byte := padTo 1024 (s.sec.report.drop (dget s Key.attReportOffset))

/-! ### SPDM (R484, R485) -/

/-- Host traffic reaches the module: the link is up and stage 0 has ended (R397, R465). -/
def hostUp (s : State) : Bool :=
  !s.rst.mrst && !s.rst.off && !s.q.perst && !s.q.linkLost && decide (dget s Key.startupStage ≥ 1)
    && s.pw.module != .banked && s.pw.module != .off

/-- An SPDM request other than GET_PQ_SIGNATURE arrives. -/
def spdmRequest (s : State) (f : State → State) : State :=
  if !hostUp s then s else f { s with sec := { s.sec with pqNext := false } }

/-- A request that the connection is not ready for is answered with ERROR UnexpectedRequest (log 64). -/
def spdmAfter (s : State) (stage : Nat) (f : State → State) : State :=
  spdmRequest s fun s1 => if s1.sec.spdm < stage then spdmSend s1 .unexpected else f s1

/-- GET_VERSION. -/
def spdmVersion (s : State) : State :=
  spdmRequest s fun s1 => spdmSend { s1 with sec := { s1.sec with spdm := 1 } } (.version 0x12)

/-- GET_CAPABILITIES. -/
def spdmCapabilities (s : State) : State :=
  spdmAfter s 1 fun s1 => spdmSend { s1 with sec := { s1.sec with spdm := max 2 s1.sec.spdm } } (.capabilities 19 true true true)

/-- NEGOTIATE_ALGORITHMS. -/
def spdmAlgorithms (s : State) : State :=
  spdmAfter s 2 fun s1 => spdmSend { s1 with sec := { s1.sec with spdm := 3 } } .algorithms

/-- A request that needs the keys: refused while `ATT_STATE` is not ENROLLED, with event 0x0705. -/
def spdmKeyed (s : State) (f : State → State) : State :=
  spdmRequest s fun s1 =>
    if dget s1 Key.attState ≠ 2 then spdmRefuse s1
    else if s1.sec.spdm < 3 then spdmSend s1 .unexpected
    else f s1

/-- GET_DIGESTS. -/
def spdmDigests (s : State) : State :=
  spdmKeyed s fun s1 => spdmSend s1 (.digests (sha384 (chainBytes s1 0)).toNat)

/-- GET_CERTIFICATE of slot 0: part of the RSA chain. -/
def spdmCertificate (s : State) (off len : Nat) : State :=
  spdmKeyed s fun s1 =>
    let c := (chainBytes s1 0).drop off
    spdmSend s1 (.certificate (c.take len) (c.length - len))

/-- CHALLENGE. -/
def spdmChallenge (s : State) : State := spdmKeyed s fun s1 => signWork s1 .challenge

/-- GET_MEASUREMENTS; unsigned ones are always answered. -/
def spdmMeasurements (s : State) (signed : Bool) : State :=
  if signed then spdmKeyed s fun s1 => signWork s1 (.signedMeas (measurements s1))
  else spdmRequest s fun s1 => spdmSend s1 (.measurements (measurements s1) 0 none)

/-- GET_PQ_SIGNATURE: the SLH-DSA signature of the response just signed; while random output waits it waits as signed work. -/
def spdmPqSignature (s : State) : State :=
  if !hostUp s then s
  else if !s.sec.pqNext || !canSign s then spdmSend s .unexpected
  else
    let s1 := { s with sec := { s.sec with pqNext := false } }
    if dget s Key.entropyFail = 1 then signWork s1 .pqSignature else sendPqSignature s1

/-- GET_PQ_CHAIN: part of the SLH-DSA chain. -/
def spdmPqChain (s : State) (off len : Nat) : State :=
  spdmRequest s fun s1 => spdmSend s1 (.pqChain (((chainBytes s1 1).drop off).take (min len 16384)))

/-- A DOE abort, a host reset and an FLR discard the connection and its work (R484). -/
def doeAbort (s : State) : State :=
  { s with sec := { s.sec with spdm := 0, pqNext := false, work := s.sec.work.filter fun w => w == .report || w == .verify } }

/-! ### The service port (R490) -/

/-- Steps 1 to 3 of the erase sequence. -/
def eraseSteps (s : State) : State :=
  let n := min 0xFFFF (s.flash.openCount + 1)
  let s1 := { s with
    sec := { s.sec with ks := [], enrolBusy := false, certReqs := [], chainBuf := [] }
    flash := { s.flash with helper := false, enrolled := false, chains := [], openMarker := false, openCount := n } }
  hubEvent (dset (dset (dset s1 Key.attState 4) Key.openCount n) Key.servicePortState 2) 0x0701

/-- An open request. -/
def openPort (s : State) : State :=
  if dget s Key.servicePortState ≠ 0 then s
  else if dget s Key.attState = 4 then dset s Key.servicePortState 2
  else if dget s Key.serviceOpenPermit = 1 ∨ dget s Key.attState = 0 then
    let s1 := { s with
      flash := { s.flash with openMarker := true }
      sec := { s.sec with work := s.sec.work.filter fun w => w != .report } }
    let s2 := if dget s1 Key.attReportState = 1 then dset s1 Key.attReportState 3 else s1
    dset (if dget s2 Key.attState = 1 ∨ s2.sec.enrolBusy then enrolDrop s2 else s2) Key.servicePortState 1
  else hubEvent s 0x0702

/-- OPEN_REQUEST: through the TAP with the 32 bits shifted in, or by a write of `SERVICE_OPEN_CMD`; accepted in every state
but Off. -/
def openRequest (s : State) (tap : Option Nat) : State :=
  if s.rst.off ∨ s.pw.module = .off then s
  else match tap with
    | some v => if v = Config.moduleId.toNat then openPort s else s
    | none => openPort s

/-- ERASE_DONE. -/
def eraseDone (s : State) : State := if dget s Key.servicePortState = 1 then eraseSteps s else s

end Sys2Proof.Machine
end

