-- ==== Sys2Proof/Machine/Reset.lean ====
section
/-!
DEFINITION. Start-up (R464–R468), the resets of the module and of the host (R456, R462), power states (R394–R397) and
the loss of an island's clock (R54).
-/

namespace Sys2Proof.Machine

/-! ### Starting the Cord (R317, R464) -/

/-- A new session differs from the previous one and is not 0 (R317). -/
def nextSession (old draw : Nat) : Nat :=
  let x := 1 + draw % 0xFFFF
  if x = old then 1 + x % 0xFFFF else x

/-- CORD_START (R317): the session is drawn, unless random output waits for the entropy source (R481); ports start to train, and
pairing starts. -/
def cordStart (s : State) : State :=
  if dget s Key.entropyFail = 1 then { s with sec := { s.sec with cordWaits := true } }
  else
    let (v, s1) := drawRandom s
    let n := nextSession s1.flash.lastSession v
    let s2 := { s1 with
      flash := { s1.flash with lastSession := n }
      sec := { s1.sec with cordWaits := false }
      cord := { started := true, peers := s1.cord.peers, nextPost := s1.cord.nextPost } }
    let s3 := (List.range 8).foldl (fun st p =>
      dset st (Key.cordPortState + p) (if bitOf (dget st Key.cordPortEnable) p then 1 else 3)) (dset s2 Key.cordSession n)
    startPairing (if dget s3 Key.startupStage = 6 then dset s3 Key.startupStage 7 else s3)

/-- DRBG_RESEED (R481): after 2^20 requests, or after a health test failed; `ok` says whether its tests pass. -/
def drbgReseed (s : State) (ok : Bool) : State :=
  if s.sec.drbg < 2 ^ 20 ∧ dget s Key.entropyFail = 0 then s
  else if !ok then entropyFail s
  else
    let (v, s1) := drawFree s
    let s2 := dset { s1 with sec := { s1.sec with drbg := 0, ks := tset 0 s1.sec.ks 4 (1 + v) } } Key.entropyFail 0
    if s2.sec.cordWaits then cordStart s2 else s2

/-- GOING_DOWN on every live path (R333). -/
def goingDown (s : State) (code : Nat) : State :=
  s.cord.up.foldl (fun st k => sendPlain st (k / 8) (k % 8) 0 { type := 7, code := code }) s

/-- The transmitters go idle (R333): every port is down and nothing of the streams is left. -/
def cordStop (s : State) : State :=
  let s1 := (List.range 8).foldl (fun st p =>
    if dget st (Key.cordPortState + p) = 3 then st else dset st (Key.cordPortState + p) 0) s
  { s1 with cord := { peers := s.cord.peers, nextPost := s.cord.nextPost, portTx := s.cord.portTx, portRx := s.cord.portRx
                      portRetx := s.cord.portRetx } }

/-! ### Flash and resets -/

/-- What flash holds after a reset of every unit (R448, R468, R482): a load in progress is lost, and an enrolment in progress
erased. The map-out bits of fences stand in it (R286). -/
def flashAfter (s : State) : FlashSys :=
  let f := s.flash
  let f2 := if f.fwState = 1 then { f with fwState := 0, staged := {} } else f
  if dget s Key.attState = 1 ∨ s.sec.enrolBusy then { f2 with helper := false, enrolled := false, chains := [] } else f2

/-- Every unit except flash is reset: start-up begins at stage 0 (R456, R464, R470). The sequence of what has left the module and
the model's own count of free values go on. -/
def wipe (s : State) (cause : Nat) : State :=
  let s1 : State := { pending := s.pending, free := s.free, out := s.out, flash := flashAfter s
                      rst := { mrst := s.rst.mrst }, q := { perst := s.q.perst } }
  let s2 := dset (dset s1 Key.resetCause cause) Key.fwStageState s1.flash.fwState
  dset (dset s2 Key.dictCommits s2.flash.commits) Key.openCount s2.flash.openCount

/-- The module's reset by a command (R456): its peers are told first. `RESET_STATE` reads BUSY until start-up is READY (R457). -/
def moduleReset (s : State) : State := dset (wipe (goingDown s 1) 2) Key.resetState 1

/-- MRST_N_ASSERT: the module is held in reset; in Off the pin is only remembered. -/
def mrstAssert (s : State) : State :=
  if s.rst.mrst then s
  else if s.rst.off then { s with rst := { s.rst with mrst := true } }
  else wipe { s with rst := { s.rst with mrst := true } } 1

/-- MRST_N_RELEASE: start-up may begin. -/
def mrstRelease (s : State) : State := { s with rst := { s.rst with mrst := false } }

/-- POWER_FAIL (R388): the module is Off, and nothing but flash is kept. -/
def powerFail (s : State) : State :=
  if s.rst.off then s
  else
    let s1 := wipe s 0
    { s1 with rst := { s1.rst with off := true }, pw := { s1.pw with module := .off } }

/-- COLD_START (R388, R464). -/
def coldStart (s : State) : State := if s.rst.off then wipe s 0 else s

/-! ### Host reset (R462) -/

/-- The V entries of the host interface, of the queue engine and `TCTL` (R469). -/
def hostEntry (key : Nat) : Bool :=
  key / 256 == 0x0400 || key / 256 == 0x0401 || (decide (0x6400 ≤ key / 256) && decide (key / 256 ≤ 0x6410))

/-- The next host epoch (R258). -/
def nextEpoch (e : Nat) : Nat := if e ≥ 0xFFFF then 1 else e + 1

/-- R258: `STATE` of every context becomes DISABLED when the epoch wraps. -/
def disableAll (s : State) : State :=
  (List.range (2 ^ 20)).foldl (fun st q => (hubWrite st false (qctxAddr st q + 25) [0]).2) s

/-- The host interface returns to its reset values (R462, R467). -/
def hostInterfaceReset (s : State) : State :=
  let s1 := doeAbort s
  let dict := s1.dict.filter fun e => !(hostEntry e.1 && ((findMeta e.1).map (·.cls)) == some ECls.v)
  { s1 with
    dict := dict
    q := { s1.q with winBase := 0, bar2Log2 := s1.q.bar2Init, cmdResult := 0, late := [], hostEpoch := nextEpoch s1.q.hostEpoch }
    ev := { s1.ev with
      tstack := [], intIrq := [], msixEnable := false, msixFuncMask := false, vecOpen := [], vecMsg := [], pba := [] }
    dsys := { s1.dsys with mbxDone := false, mbxResp := [], mbxQuiet := s1.dsys.mbxBusy }
    d3 := false, heldHost := [] }

/-- What an engine keeps when its work is abandoned. -/
def Engine.idle (g : Engine) : Engine :=
  { capHold := g.capHold, heatHold := g.heatHold, haltHold := g.haltHold, hubHold := g.hubHold, fenced := g.fenced
    retired := g.retired, faults := g.faults, tiles := g.tiles, seals := g.seals, drag := g.drag
    invCap := g.invCap, invOp := g.invOp, invSticky := g.invSticky, invTag := g.invTag }

/-- The address and length of everything that an operation writes: the elements of Y, of the moments of an UPDATE and of the residues of
a FOLD, and the accumulators of an UPDATE or REMOTE_ACC. -/
def OpRec.dests (o : OpRec) : List (Nat × Nat) :=
  let more := if o.kind == .update then o.z.toList ++ o.extra.filterMap id else if o.kind == .fold then o.z.toList else []
  (o.y.toList ++ more).flatMap (·.td.places)
    ++ (if o.kind == .update || o.kind == .remoteAcc then
        (List.range o.primary.1).map fun i => (leField o.desc 64 6 + 16 * i, 16) else [])

/-- R462: the destinations of an abandoned operation hold undefined contents (log 139). -/
def undefineDests (s : State) (o : OpRec) : State :=
  if o.finished then s
  else
    (o.dests.flatMap fun p => piecesOf p.1 p.2).foldl (fun st p =>
      match (opVia o none).resolve st.mem p.1 with
      | none => st
      | some l => undefineAt st l p.2) s

/-- Every strand and operation of the module is quenched, without fences on memory (R462, R470): accesses in flight complete,
the remote accumulates of the operations among them (R289). -/
def quenchAll (s : State) : State :=
  let s1 := restoreAbort (freezeFail s .reset)
  let s2 := s1.cord.posted.foldl (fun st c => collAbort st c.post 8) s1
  let s3 := s2.q.cache.foldl (fun st p => ctxWriteBack st p.1 p.2) s2
  let s4 := (s3.ops.filterMap (·.2)).foldl undefineDests (dset s3 Key.stormActive 0)
  { s4 with
    engines := s4.engines.filterMap fun e => let g := e.2.idle; if g = {} then none else some (e.1, g)
    seqs := s4.seqs.filterMap fun e => let r : Seqr := { e.2 with strand := none }; if r = {} then none else some (e.1, r)
    saved := [], ops := [], reports := [], storm := {}, tlines := [], tin := [], tout := []
    swapJob := none, swapped := []
    knotq := s4.knotq.map fun m => { m with ent := none }
    jobs := s4.jobs.map fun j => (j.1, { j.2 with updated := [], respun := [], stepSeq := none })
    q := { s4.q with cache := [], ents := [], ready := [], live := [], owed := [] }
    pw := { s4.pw with committed := {} }
    rst := { s4.rst with epochs := s4.rst.epochs + 1 } }

/-- A host reset or FLR (R456, R462, R467): in start-up and in Smoulder it acts on the host interface alone; in Banked and Off
there is no link. -/
def hostReset (s : State) : State :=
  if s.rst.off || s.rst.mrst || s.pw.module == .banked then s
  else
    let wraps := decide (s.q.hostEpoch ≥ 0xFFFF)
    let s1 := if s.q.qeReady then quenchAll s else s
    hostInterfaceReset (if wraps && s1.q.memReady then disableAll s1 else s1)

/-- PERST_ASSERT: PERST# or a hot reset. -/
def perstAssert (s : State) : State :=
  if s.q.perst then s
  else
    let s1 := hostReset s
    { s1 with q := { s1.q with perst := true } }

/-- FLR. -/
def flr (s : State) : State := if hostUp s then hostReset s else s

/-- PERST_DEASSERT: after an assertion it also starts the module from Banked (R397). -/
def perstDeassert (s : State) : State :=
  if !s.q.perst then s
  else
    let s1 := { s with q := { s.q with perst := false } }
    if s1.pw.module = .banked then wipe s1 3 else s1

/-! ### Power states (R396, R397) -/

/-- R396: the conditions of a command Smoulder or Banked. A saved strand counts as one that runs (log 65). -/
def mayRest (s : State) : Bool :=
  s.q.live.isEmpty && s.seqs.all (fun e => e.2.strand.isNone) && s.saved.isEmpty && dget s Key.freezeState == 0
    && !restoring s && s.q.qeReady

/-- The compute dies go off: what they hold is lost, apart from retirement (R470). -/
def diesOff (s : State) : State :=
  let s1 := resetV s (fun u => u != .hub)
  let mem := dropLines (writeBackAll s1.mem (fun _ => true)) (fun _ => true)
  let keep := fun (k : Nat) => decide (k / 4096 ≥ 6)
  let s2 := { s1 with
    mem := { mem with
      cells := mem.cells.filter fun c => decide (c.1 < 640 * channelBytes), hpoison := 0, cured := []
      selfRefresh := 2 ^ 20 - 1, idleRefresh := 0, reqs := [], holdq := [], replies := [] }
    engines := s1.engines.filterMap fun e =>
      let g : Engine := { retired := e.2.retired }; if g = {} then none else some (e.1, g)
    seqs := [], saved := [], ops := [], raq := [], reports := [], storm := {}, knotq := [], knots := [], knotsLost := []
    gens := [], tlines := [], tin := [], tout := [], swapJob := none, swapped := [], jobs := []
    ev := { s1.ev with occq := [], latch := [] }
    flt := { s1.flt with
      badGen := [], badHash := [], groups := [], laneFaults := [], embers := [], held := s1.flt.held.filter fun m => m.utype == 6
      inflight := tset 0 [] hubSource (s1.flt.faultq.filter fun m => m.utype == 6).length, returning := [] }
    q := { s1.q with cache := [], ents := [], ready := [], owed := [], qeReady := false, memReady := false, late := [] }
    pw := { s1.pw with clusters := [], hearthHold := 0, committed := {} }
    snap := { s1.snap with
      banks := s1.snap.banks.filter fun e => keep e.1, held := s1.snap.held.filter (fun _ => false)
      cut := s1.snap.cut.map fun c => { c with owed := c.owed.filter keep } }
    rst := { s1.rst with quenches := [], dieFence := 0, tallyLost := 0 } }
  let s3 := cutCheck (dset s2 Key.stormActive 0)
  { s3 with snap := { s3.snap with outHigh := false } }

/-- Contexts are written back before the memory rests (R396: every queue is DISABLED). -/
def flushContexts (s : State) : State := s.q.cache.foldl (fun st p => ctxWriteBack st p.1 p.2) s

/-- The command Smoulder; the status of R430. -/
def powerSmoulder (s : State) : State × Nat :=
  if s.pw.module = .smoulder then (s, 0)
  else if s.pw.module ≠ .run ∨ !mayRest s then (s, 6)
  else
    let s1 := cordStop (diesOff (flushContexts (goingDown (dset s Key.pairState 0) 2)))
    (dset { s1 with pw := { s1.pw with module := .smoulder } } Key.powerState 1, 0)

/-- What the security block keeps in Banked: no key, no enrolment or report in progress, and no connection (R480). -/
def restSec (c : SecSys) : SecSys :=
  { c with
    ks := [], cordWaits := false, work := c.work.filter (· == .verify), spdm := 0, pqNext := false, certReqs := [], chainBuf := []
    enrolBusy := false }

/-- What is left in Banked: the dictionary with the retired engines and lanes (W), the field network and flash; the keys are zeroised (R470, R480). `ALERT_N` is released
unless the hub's own fault holds it (R379, R514). -/
def bankedState (s : State) : State :=
  let fl := { flashAfter s with fwState := s.flash.fwState, staged := s.flash.staged }
  let s1 : State := { pending := s.pending, free := s.free, out := s.out, dict := s.dict, dsys := s.dsys, flash := fl
                      sec := restSec s.sec
                      rst := { mrst := s.rst.mrst }, q := { perst := s.q.perst }, pw := { module := .banked }
                      engines := s.engines
                      flt := { hubFault := s.flt.hubFault, alert := s.flt.hubFault, laneRetired := s.flt.laneRetired } }
  let s2 := if dget s1 Key.attState = 1 then dset s1 Key.attState (attBare s1) else s1
  let s3 := if dget s2 Key.attReportState = 1 then dset s2 Key.attReportState 3 else s2
  let s4 := if dget s3 Key.enrolResult = 1 then dset s3 Key.enrolResult 3 else s3
  let lost := [Key.holderSlotState, Key.holderSlotState + 1, Key.holderSlotGen, Key.holderSlotGen + 1, Key.pairState,
    Key.pairCorrelated, Key.freezeState, Key.restoreState]
  dset (lost.foldl (fun st k => dset st k 0) s4) Key.powerState 2

/-- The command Banked. -/
def powerBanked (s : State) : State × Nat :=
  if s.pw.module = .banked then (s, 0)
  else if s.pw.module = .smoulder then (bankedState s, 0)
  else if s.pw.module ≠ .run ∨ !mayRest s then (s, 6)
  else (bankedState (cordStop (diesOff (flushContexts (goingDown s 3)))), 0)

/-- The command Run: from Smoulder the dies come back with their ways assigned again; from Banked the module starts. -/
def powerRun (s : State) : State × Nat :=
  match s.pw.module with
  | .run => (s, 0)
  | .off => (s, 6)
  | .banked => (wipe s 3, 0)
  | .smoulder =>
    let s1 := dset { s with
      pw := { s.pw with module := .run }
      mem := { s.mem with
        selfRefresh := 0, uWays := wget s Key.hearthScratchWays, aWays := (wget s Key.replayArenaMib + 14) / 15 }
      q := { s.q with memReady := true, qeReady := true } } Key.powerState 0
    (cordStart (startLevels s1), 0)

/-- A write of `POWER_STATE_CMD`. -/
def writePowerState (s : State) (v : Nat) : State × Nat :=
  match v with
  | 0 => powerRun s
  | 1 => powerSmoulder s
  | 2 => powerBanked s
  | _ => (s, 3)

/-! ### Start-up (R464–R466, R477) -/

/-- Start-up stands in stage n. -/
def inStage (s : State) (n : Nat) : Bool :=
  !s.rst.mrst && !s.rst.off && s.pw.module == .run && dget s Key.startupStage == n

/-- Boot refusal (R477). -/
def bootRefuse (s : State) : State :=
  let s1 := hubEvent (dset s Key.bootResult 3) 0x0700
  { s1 with flt := { s1.flt with alert := true } }

/-- Stage 0 ends: the keys are rebuilt, and stage 1 loads the dictionary. -/
def bootEnd (s : State) (puf : Bool) : State :=
  let s1 := rebuildKeys (dset { s with sec := { s.sec with trial := false } } Key.activeSvn (runningImage s).svn) puf
  dictLoad (dset s1 Key.nodeId (Config.strap 0 % 32))

/-- The image chosen by stage 0 starts, with event 0x0700 when the result is not ACTIVE. -/
def bootImage (s : State) (result : Nat) : State :=
  let s1 := dset s Key.bootResult result
  if result = 0 then s1 else hubEvent s1 0x0700

/-- The active and the staged image change places (R468). -/
def swapImages (s : State) : State :=
  { s with flash := { s.flash with active := some (stagedImage s), staged := activeImage s } }

/-- BOOT (R464 stages 0 and 1, R468, R477): stage 0 chooses an image. A newly armed image is started and enters stage 1 with
the next BOOT, unless WATCHDOG_FALLBACK comes first (log 66). `puf` says whether the keys can be rebuilt. -/
def boot (s0 : State) (b : BootFinds) (puf : Bool) : State :=
  if !inStage s0 0 ∨ dget s0 Key.bootResult = 3 then s0
  else if s0.sec.trial then bootEnd s0 puf
  else
    let s := dset (if s0.flash.openMarker then eraseSteps s0 else s0) Key.bootFail (b.activeStep % 6)
    let staged := decide ((stagedImage s).failedStep b.stagedRsa b.stagedSlh = 0)
    let armed := decide (s.flash.fwState = 3)
    if !b.identity then bootRefuse s
    else if armed ∧ staged then
      let s1 := setFwState (swapImages s) 5
      bootImage (dset { s1 with sec := { s1.sec with trial := true, earlierOk := b.activeStep % 6 == 0 } } Key.fwActivated 1) 1
    else
      let s1 := if armed then dset (setFwState s 4) Key.fwFallback 1 else s
      if b.activeStep % 6 = 0 then bootEnd (bootImage s1 0) puf
      else if (s1.flash.fwState = 5 ∨ s1.flash.fwState = 2) ∧ staged then
        bootEnd (bootImage (dset { s1 with sec := { s1.sec with runStaged := true } } Key.fwFallback 1) 2) puf
      else bootRefuse s1

/-- WATCHDOG_FALLBACK (R468): the earlier image becomes the active one again. Its `BOOT_RESULT` is FALLBACK (log 66). -/
def watchdogFallback (s : State) (puf : Bool) : State :=
  if !s.sec.trial ∨ !inStage s 0 then s
  else
    let s1 := dset (dset (setFwState (swapImages { s with sec := { s.sec with trial := false } }) 4) Key.fwActivated 0) Key.fwFallback 1
    if s.sec.earlierOk then bootEnd (bootImage s1 2) puf else bootRefuse s1

/-- DIES (R464 stage 3, R466): `failed` is a mask of the dies that fail twice. -/
def diesStage (s : State) (failed : Nat) : State :=
  if !inStage s 3 ∨ dget s Key.startupFault ≠ 0 then s
  else if failed % 16 = 0 then dset s Key.startupStage 4
  else dset s Key.startupFault (failed % 16)

/-- The live channels of a stack after map-out (R286). -/
def liveAfter (s : State) (h fails : Nat) : Nat :=
  let out := Nat.lor (fails % 2 ^ 32) (dget s (Key.mapoutReq + h))
  if countBits out 32 ≥ 4 then 0 else (List.range 32).foldl (fun m c => setBit m c (!bitOf out c)) 0

/-- MEMORY (R286, R464 stage 4): `fails` gives, per stack, a mask of the channels that fail training or the pattern test. The
reservation check may enter the hold state. -/
def memoryStage (s : State) (fails : List Nat) : State :=
  if !inStage s 4 then s
  else
    let live := (List.range 20).foldl (fun t h => tset 0 t h (liveAfter s h (fails.getD h 0))) []
    let s1 := { s with mem := { s.mem with live := live, fenced := [], cells := [], cache := [], poison := [], poisonSeen := [] } }
    if !reservationsFit s1.mem then enterHold s1 2 4
    else dset { s1 with q := { s1.q with memReady := true } } Key.startupStage 5

/-- COMPUTE (R464 stage 5): the rails rise, every engine runs its proof test, `QE_READY` becomes 1 and the Cord starts. `bad`
names the engines that fail, `cores` what the core tests find wrong. -/
def computeStage (s : State) (bad : List Nat) (cores : List (Nat × CoreProof)) : State :=
  if !inStage s 5 then s
  else
    let s1 := startLevels { s with knots := [], knotsLost := [], tlines := [], tin := [], tout := [] }
    let s2 := cores.foldl (fun st c => coreProof st (c.1 % 256) c.2) s1
    let fail := fun (st : State) (e : Nat) =>
      if (getEng st e).retired then st
      else
        let (a, st1) := drawFree st
        retireEngine (proofFailed st1 { mech := .proofFail, utype := 0, unit := e, locA := a % 2 ^ 24 }) e
    let s3 := (bad.map (· % 1024)).foldl fail s2
    let s4 := dset { s3 with q := { s3.q with qeReady := true } } Key.startupStage 6
    let s5 := if dget s4 Key.resetState = 1 then dset s4 Key.resetState 2 else s4
    cordStart s5

/-! ### Island clocks (R54) -/

/-- The PCIe link is down until it is trained again. -/
def linkDown (s : State) : State := { s with q := { s.q with linkLost := true } }

/-- The field network's link is down: duplicate address detection stops with it, and a conflict found stands (R436). -/
def fieldLost (s : State) : State :=
  if dget s Key.fieldLinkState = 2 then s
  else { (dset s Key.fieldLinkState 0) with dsys := { s.dsys with dad := false } }

/-- ISLAND_CLOCK_LOSS (R54). -/
def islandLost (s : State) (i : Island) : State :=
  match i with
  | .hbm h =>
    if !s.q.memReady then s
    else fenceStack (raiseFault s { mech := .hbmClock, utype := 2, unit := h.val, locA := 4 }) h.val
  | .dieLink l => if s.q.qeReady then linkLost s l.val false else s
  | .pcie => if s.rst.off || s.rst.mrst || s.pw.module == .banked then s else linkDown (hostReset s)
  | .cord p =>
    if dget s (Key.cordPortState + p.val) = 0 ∨ dget s (Key.cordPortState + p.val) = 3 then s
    else hubEvent (dset s (Key.cordPortState + p.val) 0) 0x0403
  | .field => fieldLost s

end Sys2Proof.Machine
end

