-- ==== Sys2Proof/Machine/Tranan.lean ====
section
/-!
DEFINITION. The object dictionary as software reaches it (R425–R443, R451, R524): reading and writing an entry, messages, the mirror's
direct map and mailbox, and the field network.
-/

namespace Sys2Proof.Machine

/-! ### Units that are off (R443, R524) -/

/-- The unit of a class V entry has started and is powered. -/
def unitOn (s : State) (u : EUnit) : Bool :=
  let stage := dget s Key.startupStage
  match u with
  | .hub => true
  | .die _ => s.pw.module == .run && (decide (stage ≥ 4) || (stage == 2 && s.dsys.holdAt == 4))
  | .stack _ | .hbm => s.q.memReady || s.pw.module == .smoulder
  | .cluster _ | .clusters => s.pw.module == .run && s.q.qeReady

/-- The dictionary is served: a refused boot serves a few entries (R477). -/
def dictServed (s : State) : Bool :=
  !s.rst.mrst && !s.rst.off && (decide (dget s Key.startupStage ≥ 1) || dget s Key.bootResult == 3)

/-- The entries a refused boot serves over the field network. -/
def servedRefused (key : Nat) : Bool :=
  key == Key.bootResult || key == Key.bootFail || key / 256 == 0x0510

/-- The entry may be reached: in a refused boot only those above. -/
def entryServed (s : State) (key : Nat) : Bool :=
  decide (dget s Key.startupStage ≥ 1) || servedRefused key

/-! ### Reading -/

/-- ASCII bytes of a text. -/
def ascii (t : String) : List Byte := t.toList.map fun c => BitVec.ofNat 8 c.toNat

/-- A text without the zeros that fill its field. -/
def trimZeros (b : List Byte) : List Byte := (b.reverse.dropWhile (· == 0)).reverse

/-- A mask of the units a predicate holds for, as a number. -/
def maskOf (n : Nat) (p : Nat → Bool) : Nat := (List.range n).foldl (fun m i => if p i then m + 2 ^ i else m) 0

/-- The value of a numeric entry as read now: entries the module computes, and stored ones. -/
def entryValue (s : State) (key : Nat) : Nat :=
  if key = Key.serialNumber then Config.serialNumber.toNat
  else if key = Key.moduleId then Config.moduleId.toNat
  else if key = Key.baseMac then Config.baseMac.toNat
  else if key = Key.dictDirty then (if dictDirty s then 1 else 0)
  else if key = Key.dictCommits then s.flash.commits
  else if key = Key.zonePkgUnits then 48 - (s.mem.zNear + s.mem.zExpl + s.mem.zDie)
  else if key = Key.pkgBytes then pkgBytes s.mem
  else if Key.dieBytes ≤ key ∧ key < Key.dieBytes + 4 then dieBytes s.mem (key - Key.dieBytes)
  else if Key.nearBytes ≤ key ∧ key < Key.nearBytes + 20 then nearBytes s.mem (key - Key.nearBytes)
  else if Key.liveMask ≤ key ∧ key < Key.liveMask + 20 then liveMask s.mem (key - Key.liveMask)
  else if key = Key.stackDropped then maskOf 20 (stackDropped s.mem)
  else if key = Key.partnerRegionBytes then partnerBytes s.mem
  else if key = Key.recordSeq then s.ev.seq
  else if key = Key.secFlags then secFlags s
  else if key = Key.openCount then s.flash.openCount
  else if key = Key.snapReadStatus then (snapRead s).1
  else wget s key

/-- The bytes of a STR or BLOB entry. -/
def entryBytes (s : State) (key : Nat) : List Byte :=
  if key = Key.partNumber then ascii "RTN-2096-LQ48"
  else if key = Key.fwVersion then trimZeros (runningImage s).version
  else if key = Key.fwStageVersion then trimZeros (stagedImage s).version
  else if key = Key.clusterState then (List.range 32).map fun c => BitVec.ofNat 8 (clusterCond s c)
  else if key = Key.lastFault then leBytes 16 (dget s Key.lastFault)
  else if key = Key.engineRetired then leBytes 128 (maskOf 1024 fun e => (getEng s e).retired)
  else if key = Key.laneRetired then (List.range 20).flatMap fun h => leBytes 16 (tget 0 s.flt.laneRetired h)
  else if key = Key.attReportData then readReport s
  else if key = Key.enrolReqData then readCertReq s
  else if key = Key.enrolChainData then readChainData s
  else if key = Key.snapData then (snapRead s).2
  else []

/-- The highest sub-index defined at an index; none where the index has no entries (R425). -/
def highestSub (i : Nat) : Option Nat :=
  entryRows.foldl (fun a m =>
    if m.i0 ≤ i ∧ i ≤ m.i1 then
      let top := if i = m.i1 then m.s1 else 0x80
      some (max top (a.getD 0))
    else a) none

/-- What reading an entry gives: status of R430, type code, bytes. -/
structure ReadOut where
  status : Nat
  type : Nat := 0
  bytes : List Byte := []
  deriving DecidableEq, Repr

/-- Read an entry (R425–R430, R443). -/
def entryRead (s : State) (key : Nat) : ReadOut :=
  if !entryServed s key then { status := 0x0B }
  else if key % 256 = 0 then
    match highestSub (key / 256) with
    | some n => { status := 0, type := 2, bytes := leBytes 1 n }
    | none => { status := 1 }
  else
    match findMeta key with
    | none => { status := 1 }
    | some m =>
      if m.acc = .wo then { status := 5, type := m.ty.code }
      else if m.cls = .v ∧ !unitOn s (entryUnit key) then { status := 0x0B, type := m.ty.code }
      else if m.ty = .str ∨ m.ty = .blob then { status := 0, type := m.ty.code, bytes := entryBytes s key }
      else { status := 0, type := m.ty.code, bytes := leBytes m.ty.bytes (entryValue s key) }

/-! ### Writing -/

/-- No operation is in flight in an engine, a core or a hearth (R95); the hub's own (`UNIT` 2) do not count. -/
def noOperation (s : State) : Bool :=
  s.ops.all fun e => match e.2 with | some o => o.finished || dUnit o.desc == 2 | none => true

/-- No collective is posted, and no PAGE or CTRL stream runs in either direction (R335). -/
def cordIdle (s : State) : Bool :=
  s.cord.posted.isEmpty && dget s Key.freezeState != 2 && dget s Key.restoreState != 1
    && (List.range 2).all (fun i => holderState s i != 1 && holderState s i != 3)
    && s.cord.chans.all (fun e => decide (e.1 % 16 ≠ 15) || (e.2.queue.isEmpty && e.2.unacked.isEmpty))

/-- An RWL entry's unit is idle (R95, R265, R335, R405). -/
def unitIdle (s : State) (key : Nat) : Bool :=
  let i := key / 256
  if i = 0x4000 ∨ i = 0x4010 ∨ i = 0x4020 then cordIdle s
  else if i = 0x0400 ∨ i = 0x1050 then s.q.live.isEmpty
  else noOperation s

/-- Which entry of a run a key is. -/
def runIndex (key first n : Nat) : Option Nat := if first ≤ key ∧ key < first + n then some (key - first) else none

/-- An entry that may be written at once: an RWL entry whose unit is idle, a `RING_BASE`, `RING_CFG` or `RING_MOD` whose ring is not
enabled (R424), or any other. -/
def entryIdle (s : State) (m : EMeta) (key : Nat) : Bool :=
  if m.acc = .rwl then unitIdle s key
  else match runIndex key Key.ringBase 64, runIndex key Key.ringCfg 64, runIndex key Key.ringMod 64 with
    | some r, _, _ | none, some r, _ | none, none, some r => dget s (Key.ringEnable + r) == 0
    | none, none, none => true

/-- What a write must meet before its effect: the entry exists, its type and length, its access, its range, and an idle or powered
unit (R426–R430, R443); 0 when it does. -/
def writeStatus (s : State) (path : DictPath) (key type : Nat) (b : List Byte) : Nat :=
  if path = .field ∧ (dget s Key.fieldAccess = 1 ∨ key = Key.serviceOpenPermit) then 9
  else if !entryServed s key then 6
  else if key / 256 ≥ 0xF000 then (if dget s Key.servicePortState = 2 then 1 else 9)
  else if key % 256 = 0 then (if (highestSub (key / 256)).isSome then 4 else 1)
  else
    match findMeta key with
    | none => 1
    | some m =>
      let size := if m.ty = .str ∨ m.ty = .blob then m.len else m.ty.bytes
      if m.acc = .ro then 4
      else if type ≠ m.ty.code ∨ b.length ≠ size then 2
      else if m.ty ≠ .blob ∧ !inRange m key (leNat b) then 3
      else if !entryIdle s m key then 6
      else if m.cls = .v ∧ !unitOn s (entryUnit key) then 6
      else 0

/-- A value that `RING_CFG` or `RING_BASE` may take (R424). A `RING_CFG` with reserved bits set is refused (log 23). -/
def ringWordOk (s : State) (key v : Nat) : Bool :=
  match runIndex key Key.ringCfg 64, runIndex key Key.ringBase 64 with
  | some _, _ => decide (4 ≤ v % 32) && decide (v % 32 ≤ 20) && decide (v / 32 % 2 ^ 15 = 0) && decide (v < 2 ^ 27)
  | none, some r => decide (v % (32 * 2 ^ (dget s (Key.ringCfg + r) % 32)) = 0)
  | none, none => true

/-- `SRC_CFG` of a source (R424). -/
def isSrcCfg (key : Nat) : Bool := decide (0x6100 ≤ key / 256) && decide (key / 256 ≤ 0x62FF)

/-- A plain write, with the effects the entry's chapter gives it at once. -/
def plainWrite (s : State) (key v : Nat) : State × Nat :=
  if isSrcCfg key then (wset s key (Nat.land v 0x003F800F), 0)
  else if key = Key.snapBlock then (wset s key (v / 2 ^ 16 * 2 ^ 16), 0)
  else if (runIndex key Key.decMask 4).isSome then (wset s key (Nat.land v decBits), 0)
  else if !ringWordOk s key v then (s, 3)
  else
    let s1 := wset s key v
    match runIndex key Key.ringEnable 64 with
    | some r => (if v = 1 then dset s1 Key.evtRingErr (setBit (dget s1 Key.evtRingErr) r false) else s1, 0)
    | none =>
      if key = Key.feedAOvr ∨ key = Key.feedBOvr then
        (dset (dset s1 Key.feedAId (feedIdentity s1 0)) Key.feedBId (feedIdentity s1 1), 0)
      else if key = Key.lowVoltagePermit then (permitWritten s1, 0)
      else if (runIndex key Key.draughtFixed 4).isSome ∨ key = Key.draughtMax then (permitWritten s1, 0)
      else if key = Key.cordPortEnable then
        (portEnables s1, 0)
      else match runIndex key Key.mapoutReq 20 with
        | some h =>
          ({ s1 with
              flash := { s1.flash with mapout := tset 0 s1.flash.mapout h (Nat.land (tget 0 s1.flash.mapout h) v) }
              mem := s1.mem }, 0)
        | none => (s1, 0)

/-- `RESET_CMD`. -/
def writeResetCmd (s : State) (v : Nat) : State × Nat :=
  match v with
  | 1 => (moduleReset s, 0)
  | 2 => resetCommand s 3 4
  | 3 => resetCommand s 5 32
  | 4 => resetCommand s 1 256
  | _ => (s, 3)

/-- `ENROL_CMD`. -/
def writeEnrolCmd (s : State) (v : Nat) : State × Nat :=
  match v with
  | 1 => enrolGenerate s
  | 2 => enrolInstall s
  | 3 => enrolCancel s
  | _ => (s, 3)

/-- `RESTORE_CMD`. -/
def writeRestoreCmd (s : State) (v : Nat) (hostList : List Byte) : State × Nat :=
  match v with
  | 1 => (restoreStart s hostList, 0)
  | 2 => (restoreAbort s, 0)
  | _ => (s, 3)

/-- The effect of a numeric write of a command entry that no table of runs holds; none for an entry without one. -/
def commandWrite (s : State) (key v : Nat) (x : Outside) : Option (State × Nat) :=
  if key = Key.resetCmd then some (writeResetCmd s v)
  else if key = Key.fwStageCmd then some (writeFwCmd s v)
  else if key = Key.powerStateCmd then some (writePowerState s v)
  else if key = Key.stormRelease then some (writeStormRelease s v)
  else if key = Key.faultInject then some (writeFaultInject s v)
  else if key = Key.alertAck then some (writeAlertAck s v, 0)
  else if key = Key.engineUnretire then some (writeUnretire s v)
  else if key = Key.cordPeerCount then some (writePeerCount s v)
  else if key = Key.partnerHolder then some (writePartnerHolder s v)
  else if key = Key.partnerOf then some (writePartnerOf s v, 0)
  else if key = Key.freezeNow then some (if v = 1 then { s with ck := { s.ck with now := true, nowPast := [] } } else s, 0)
  else if key = Key.restoreCmd then some (writeRestoreCmd s v x.hostList)
  else if key = Key.dictCommit then some (if v = 1 then writeCommit s else (s, 0))
  else if key = Key.evtHold then some (writeEvtHold s (v == 1), 0)
  else if key = Key.snapTrigger then some (writeSnapTrigger s v, 0)
  else if key = Key.snapResume then some (snapResume s v, 0)
  else if key = Key.serviceOpenCmd then some (if v = 1 then openRequest s none else s, 0)
  else if key = Key.attCmd then some (attGenerate s)
  else if key = Key.enrolCmd then some (writeEnrolCmd s v)
  else if key = Key.attReportOffset then some (if v < dget s Key.attReportLen then (wset s key v, 0) else (s, 3))
  else none

/-- The effect of a write of an entry of a run: ring, target, group and event-controller words. -/
def runWrite (s : State) (key v : Nat) : Option (State × Nat) :=
  match runIndex key Key.ringCi 64, runIndex key Key.groupDef 64 with
  | some r, _ => some (writeRingCi s r v)
  | none, some g => some (writeGroupDef s g v)
  | none, none =>
    if 0x6400 ≤ key / 256 ∧ key / 256 ≤ 0x6410 then some (writeTctl s ((key / 256 - 0x6400) * 128 + key % 256 - 1) v, 0)
    else match runIndex key Key.cecPend 32, runIndex key Key.decPend 4, runIndex key Key.ecLock 4 with
      | some c, _, _ => some (writePend s c v, 0)
      | none, some d, _ => some (writePend s (32 + d) v, 0)
      | none, none, some d => some (writeEcLock s d v)
      | none, none, none => none

/-- The effect of a write that has met `writeStatus`, apart from a load of defaults. -/
def writeEffect (s : State) (key : Nat) (b : List Byte) (x : Outside) : State × Nat :=
  let v := leNat b
  if key = Key.fwStageData then fwData s b
  else if key = Key.attNonce then ({ s with sec := { s.sec with nonce := b } }, 0)
  else if key = Key.enrolChainData then writeChainData s b
  else match commandWrite s key v x, runWrite s key v with
    | some r, _ => ({ r.1 with dsys := { r.1.dsys with written := tset none r.1.dsys.written key none } }, r.2)
    | none, some r => ({ r.1 with dsys := { r.1.dsys with written := tset none r.1.dsys.written key none } }, r.2)
    | none, none => plainWrite s key v

/-- One write of an entry whose status so far is 0: its effect, unless it would leave the configuration inconsistent outside the
hold state (R447). -/
def entryStore (s : State) (key : Nat) (b : List Byte) (x : Outside) : State × Nat :=
  match writeEffect s key b x with
  | (s1, 0) => if !inHold s && breaksRule s1 key then (s, 7) else (s1, 0)
  | (_, st) => (s, st)

/-! ### Load of defaults (R451) -/

/-- Set one writable P or W entry to its default: as if it were written, or, where a running unit would refuse that, as a written
value that acts at the next module reset. -/
def defaultEntry (s : State) (key : Nat) : State :=
  match findMeta key with
  | none => s
  | some m =>
    if m.cls = .v ∨ !(m.acc = .rw ∨ m.acc = .rwl) then s
    else
      let d := dictDefault key
      if inHold s then wset s key d
      else if !entryIdle s m key then wdefer s key d
      else match writeEffect s key (leBytes (max 1 m.ty.bytes) d) {} with
        | (s1, 0) => s1
        | _ => wdefer s key d

/-- The keys whose written value may differ from a default. -/
def touchedKeys (s : State) : List Nat := s.dsys.written.foldl (fun l e => sinsert e.1 l) (s.dict.map (·.1))

/-- `DICT_LOAD_DEFAULTS`; the status of R430. -/
def loadDefaults (s : State) (v : Nat) : State × Nat :=
  if s.dsys.commit.isSome then (s, 0x0A)
  else if !inHold s ∧ Config.strap 1 % 16 = Config.strap 2 % 16 then (s, 7)
  else
    let s1 := (touchedKeys s).foldl defaultEntry s
    let s2 := { s1 with flash := { s1.flash with mapout := [] } }
    if v = 2 then (beginCommit s2, 0) else (s2, 0)

/-- A write of an entry: every path comes here. The state and the status of R430. -/
def entryWrite (s : State) (path : DictPath) (key type : Nat) (b : List Byte) (x : Outside) : State × Nat :=
  let st := writeStatus s path key type b
  if st ≠ 0 then (s, st)
  else if key = Key.dictLoadDefaults then loadDefaults s (leNat b)
  else entryStore s key b x

/-- A write with its report: a refused one raises event 0x0600 (R429). -/
def reportedWrite (s : State) (path : DictPath) (key type : Nat) (b : List Byte) (x : Outside) : State × Nat :=
  match entryWrite s path key type b x with
  | (s1, 0) => (s1, 0)
  | (_, st) => (writeRejected s key st, st)

/-- A numeric write with the entry's own type, as the rows with an entry of their own make it: through the mirror, or through
another path. -/
def ownWrite (s : State) (key v : Nat) (x : Outside := {}) (path : DictPath := .mirror) : State :=
  if !dictServed s then s
  else
    let ty := ((findMeta key).map (·.ty)).getD .u8
    (reportedWrite s path key ty.code (leBytes ty.bytes v) x).1

/-- A byte-string write through the mirror. -/
def ownBlob (s : State) (key : Nat) (b : List Byte) : State :=
  if !dictServed s then s else (reportedWrite s .mirror key ETy.blob.code b {}).1

/-! ### Messages (R431–R434) -/

/-- An item of a message. -/
structure Item where
  key : Nat
  type : Nat
  istat : Nat
  data : List Byte
  deriving DecidableEq, Repr

/-- Parse `n` items; none when their framing does not match the length. -/
def parseItems : (n : Nat) → List Byte → Option (List Item)
  | 0, b => if b.isEmpty then some [] else none
  | n + 1, b =>
    let len := leField b 4 2
    let pad := (4 - len % 4) % 4
    if b.length < 8 + len + pad ∨ leNat ((b.drop (8 + len)).take pad) ≠ 0 then none
    else
      match parseItems n (b.drop (8 + len + pad)) with
      | none => none
      | some r =>
        some ({ key := leField b 0 2 * 256 + leField b 2 1, type := leField b 3 1, istat := leField b 6 2
                data := (b.drop 8).take len } :: r)

/-- The `OP` of a message. -/
def msgOp (b : List Byte) : Nat := leField b 1 1 % 128
/-- The `REQ_ID` of a message. -/
def msgId (b : List Byte) : Nat := leField b 4 4

/-- A response (R431). -/
def response (op flags id status : Nat) (items : List Byte) (n : Nat) : List Byte :=
  leBytes 1 1 ++ leBytes 1 (128 + op) ++ leBytes 2 n ++ leBytes 4 id ++ leBytes 2 flags ++ leBytes 2 status ++ items

/-- The header and framing of a request: its items, or the request status (R430, R432). A header that breaks R431 in any other way counts
as MALFORMED (log 67). -/
def checkMsg (b : List Byte) : Except Nat (List Item) :=
  if b.length < 12 then .error 0x102
  else if leField b 0 1 ≠ 1 then .error 0x101
  else if leField b 2 2 > 255 ∨ leField b 1 1 ≥ 128 ∨ leField b 8 2 > 1 ∨ leField b 10 2 ≠ 0
      ∨ (leField b 8 2 = 1 ∧ msgOp b ≠ 2) then .error 0x102
  else
    match parseItems (leField b 2 2) (b.drop 12) with
    | none => .error 0x102
    | some l => if l.any (fun i => i.istat != 0 || (msgOp b == 1 && (i.type != 0 || !i.data.isEmpty))) then .error 0x102 else .ok l

/-- The items of a READ response. -/
def readItems (s : State) (l : List Item) : List Byte :=
  l.flatMap fun i => let r := entryRead s i.key; itemBytes i.key r.type r.status r.bytes

/-- Apply a WRITE's items in order: the state and each item's status. -/
def writeItems (s : State) (path : DictPath) (x : Outside) : List Item → State × List Nat
  | [] => (s, [])
  | i :: r =>
    let (s1, st) := reportedWrite s path i.key i.type i.data x
    let (s2, sts) := writeItems s1 path x r
    (s2, st :: sts)

/-- Carry out every item of an ALL_OR_NONE request without judging consistency on the way (R433). -/
def tryItems (s : State) (path : DictPath) : List Item → State × List Nat
  | [] => (s, [])
  | i :: r =>
    let st := if ((findMeta i.key).map (·.acc)) = some .wo then 2 else writeStatus s path i.key i.type i.data
    let (s1, st1) := if st ≠ 0 then (s, st) else
      (match writeEffect s i.key i.data {} with
      | (t, 0) => (t, 0)
      | (_, e) => (s, e))
    let (s2, sts) := tryItems s1 path r
    (s2, st1 :: sts)

/-- An ALL_OR_NONE request: all items, or none with NOT_DONE for those that were not refused themselves. -/
def writeAllOrNone (s : State) (path : DictPath) (l : List Item) : State × List Nat :=
  let (s1, sts) := tryItems s path l
  let judged := (l.zip sts).map fun p =>
    if p.2 = 0 ∧ !inHold s ∧ breaksRule s1 p.1.key then 7 else p.2
  if judged.all (· == 0) then (s1, judged)
  else
    ((l.zip judged).foldl (fun st p => if p.2 = 0 then st else writeRejected st p.1.key p.2) s,
      judged.map fun st => if st = 0 then 8 else st)

/-- The answer of a DISCOVER (R438). -/
def discoverAnswer (s : State) (id : Nat) : List Byte :=
  let keys := [Key.moduleId, Key.partNumber, Key.serialNumber, Key.nodeId, Key.powerState, Key.holdCause]
  let item := fun (k : Nat) =>
    let ty : ETy := ((findMeta k).map (·.ty)).getD .u8
    itemBytes k ty.code 0 (if ty = .str then entryBytes s k else leBytes ty.bytes (entryValue s k))
  response 3 0 id 0 (keys.flatMap item) 6

/-- Serve a READ or WRITE request: the response, and the state. `limit` is the longest response of the path. -/
def serveMsg (s : State) (path : DictPath) (limit : Nat) (b : List Byte) (x : Outside) : State × List Byte :=
  let op := msgOp b
  let fail := fun (e : Nat) => (s, response op 0 (msgId b) e [] 0)
  match checkMsg b with
  | .error e => fail e
  | .ok l =>
    if op = 1 then
      let items := readItems s l
      if 12 + items.length > limit then fail 0x103 else (s, response 1 0 (msgId b) 0 items l.length)
    else if op = 2 then
      if 12 + 8 * l.length > limit then fail 0x103
      else
        let (s1, sts) := if leField b 8 2 = 1 then writeAllOrNone s path l else writeItems s path x l
        (s1, response 2 (leField b 8 2) (msgId b) 0 ((l.zip sts).flatMap fun p => itemBytes p.1.key p.1.type p.2 []) l.length)
    else fail 0x102

/-! ### The mailbox and the direct map (R440–R442) -/

/-- A BAR0 write that is discarded (R246): counted, reported. -/
def mirrorDrop (s : State) : State := bar0Drop s

/-- MBX_DOORBELL: `buf` is what the host has written into the request buffer. -/
def mbxDoorbell (s : State) (v : Nat) (buf : List Byte) : State :=
  if !hostUp s then s
  else if s.dsys.mbxBusy ∨ v < 12 ∨ v > 4096 then mirrorDrop s
  else { s with dsys := { s.dsys with mbxBusy := true, mbxReq := padTo v buf, mbxDone := false, mbxQuiet := false } }

/-- `MBX_STATUS` (R442). -/
def mbxStatus (s : State) : Nat :=
  (if s.dsys.mbxBusy then 2 ^ 63 else 0)
    + (if s.dsys.mbxDone then 2 ^ 62 + msgId s.dsys.mbxResp * 2 ^ 13 + s.dsys.mbxResp.length else 0)

/-- The mailbox's request is served, and its response stands unless the request itself reset the module; a host reset in between hides the response (R452). DISCOVER is MALFORMED there. -/
def mbxServe (s : State) (x : Outside) : State :=
  let (s1, resp) := serveMsg s .mirror 4096 s.dsys.mbxReq x
  if !s1.dsys.mbxBusy then s1
  else if s1.dsys.mbxQuiet then { s1 with dsys := { s1.dsys with mbxBusy := false, mbxQuiet := false } }
  else { s1 with dsys := { s1.dsys with mbxBusy := false, mbxDone := true, mbxResp := resp } }

/-- The value of an entry as the direct map holds it (R441); 0 where the access is refused. -/
def directRead (s : State) (key : Nat) : Nat :=
  let r := entryRead s key
  let signed := ((findMeta key).map (·.ty)) = some .i16 ∨ ((findMeta key).map (·.ty)) = some .i32
  let v := leNat r.bytes
  let w := 8 * r.bytes.length
  if r.status ≠ 0 ∨ r.bytes.length > 8 then 0
  else if signed ∧ w > 0 ∧ v ≥ 2 ^ (w - 1) then v + 2 ^ 64 - 2 ^ w
  else v

/-- DIRECT_MAP_WRITE (R441): a write at an offset of the direct map, 64 bits in one TLP when `whole`. Upper bytes that are no extension
of the value, and any other form, are refused with TYPE (log 67). -/
def directWrite (s : State) (off v : Nat) (whole : Bool) : State :=
  if !hostUp s then s
  else
    let key := off / 64 % 2 ^ 16 * 256 + off / 8 % 8
    let refuse := fun (st : Nat) => writeRejected (dcount s Key.hifDrops) key st
    match findMeta key with
    | none => refuse (writeStatus s .mirror key 2 [0])
    | some m =>
      let n := m.ty.bytes
      if n = 0 then refuse 1
      else if !whole ∨ off % 8 ≠ 0 then refuse 2
      else if v ≥ 256 ^ n ∧ !((m.ty = .i16 ∨ m.ty = .i32) ∧ v + 256 ^ n ≥ 2 ^ 64 + 256 ^ n / 2) then refuse 2
      else
        match entryWrite s .mirror key m.ty.code (leBytes n (v % 256 ^ n)) {} with
        | (s1, 0) => s1
        | (_, st) => refuse st

/-! ### The field network (R435–R439) -/

/-- The field network takes requests. -/
def fieldUp (s : State) : Bool := dictServed s && dget s Key.fieldLinkState == 1 && !s.dsys.dad

/-- Keep a response for a resent request, and send it (R437). -/
def keepSend (s : State) (src port id : Nat) (resp : List Byte) : State :=
  let k : KeptResp := { src := src, port := port, reqId := id, resp := resp }
  sendOut { s with dsys := { s.dsys with kept := (k :: s.dsys.kept).take 16 } } (.udp src port resp)

/-- The response kept for a request (R437). -/
def keptFor (s : State) (src port id : Nat) : Option KeptResp :=
  s.dsys.kept.find? fun k => k.src == src && k.port == port && k.reqId == id

/-- Answer a request whose response depends on nothing it changes: with the response kept for it, else with the one given, which is
kept (R437). -/
def answerOnce (s : State) (src port id : Nat) (resp : List Byte) : State :=
  match keptFor s src port id with
  | some k => sendOut s (.udp src port k.resp)
  | none => keepSend s src port id resp

/-- The answer to a datagram that finds the queue of requests full (R437); it is not kept (log 30). -/
def overload (s : State) (d : Datagram) : State :=
  sendOut s (.udp d.src d.port (response (msgOp d.payload) 0 (msgId d.payload) 0x104 [] 0))

/-- A datagram that breaks R436 is dropped and counted; DISCOVER alone is accepted at ff02::1. -/
def acceptable (d : Datagram) : Bool :=
  d.ok && decide (d.payload.length ≤ 1452) && (!d.multicast || msgOp d.payload == 3)

/-- Serve a datagram's READ or WRITE (R437). -/
def fieldServe (s : State) (d : Datagram) (x : Outside) : State :=
  if !fieldUp s then s
  else if !acceptable d then dcount s Key.trananDrops
  else
    match keptFor s d.src d.port (msgId d.payload) with
    | some k => sendOut s (.udp d.src d.port k.resp)
    | none =>
      if d.full then overload s d
      else
        let (s1, resp) := serveMsg s .field 1452 d.payload x
        if dictServed s1 then keepSend s1 d.src d.port (msgId d.payload) resp else s1

/-- READ: a request that is no WRITE and no DISCOVER; one with a reserved `OP` is answered here as MALFORMED (log 67). -/
def trananRead (s : State) (t : Tranan) : State :=
  match t with
  | .mailbox => if s.dsys.mbxBusy ∧ msgOp s.dsys.mbxReq ≠ 2 ∧ dictServed s then mbxServe s {} else s
  | .field d => if msgOp d.payload = 2 ∨ msgOp d.payload = 3 then s else fieldServe s d {}

/-- WRITE. -/
def trananWrite (s : State) (t : Tranan) (x : Outside) : State :=
  match t with
  | .mailbox => if s.dsys.mbxBusy ∧ msgOp s.dsys.mbxReq = 2 ∧ dictServed s then mbxServe s x else s
  | .field d => if msgOp d.payload = 2 then fieldServe s d x else s

/-- DISCOVER (R438): answered at once when sent to the module's own address, after `NODE_ID` ms when multicast. -/
def trananDiscover (s : State) (d : Datagram) : State :=
  let id := msgId d.payload
  if !fieldUp s ∨ msgOp d.payload ≠ 3 then s
  else if !acceptable d then dcount s Key.trananDrops
  else if d.full && (keptFor s d.src d.port id).isNone then overload s d
  else
    match checkMsg d.payload with
    | .error e => answerOnce s d.src d.port id (response 3 0 id e [] 0)
    | .ok l =>
      if !l.isEmpty then answerOnce s d.src d.port id (response 3 0 id 0x102 [] 0)
      else if d.multicast then { s with dsys := { s.dsys with discover := s.dsys.discover ++ [(d.src, d.port, id)] } }
      else answerOnce s d.src d.port id (discoverAnswer s id)

/-- DISCOVER_DELAY_EXPIRY: the oldest answer that waits is sent. -/
def discoverDelay (s : State) : State :=
  match s.dsys.discover with
  | [] => s
  | (a, p, id) :: r =>
    let s1 := { s with dsys := { s.dsys with discover := r } }
    if fieldUp s1 then answerOnce s1 a p id (discoverAnswer s1 id) else s1

/-- FIELD_LINK_STATE_CHANGE (R436, R454): at the port's start the PLCA settings act and Duplicate Address Detection runs; after a conflict
the port stays out of service until the next module reset. -/
def fieldLink (s : State) (up : Bool) : State :=
  if !dictServed s ∨ dget s Key.fieldLinkState = 2 then s
  else if !up then fieldLost s
  else if dget s Key.fieldLinkState = 1 then s
  else
    sendOut { (dset s Key.fieldLinkState 1) with
      dsys := { s.dsys with dad := true, plcaNodes := wget s Key.plcaNodeCount, plcaTimer := wget s Key.plcaToTimer } } .neighborProbe

/-- DUPLICATE_ADDRESS_DETECTION completes. -/
def dadDone (s : State) (conflict : Bool) : State :=
  if !s.dsys.dad then s
  else
    let s1 := { s with dsys := { s.dsys with dad := false } }
    if conflict then dset s1 Key.fieldLinkState 2 else s1

/-- The port answers neighbours: its link is up, and its address is its own (R436). -/
def fieldAnswers (s : State) : Bool := dictServed s && dget s Key.fieldLinkState == 1 && !s.dsys.dad

/-- NEIGHBOR_SOLICITATION. -/
def neighborSolicited (s : State) (src : Nat) : State := if fieldAnswers s then sendOut s (.neighborAdvert src) else s

/-- ECHO_REQUEST. -/
def echoRequested (s : State) (src : Nat) (b : List Byte) : State := if fieldAnswers s then sendOut s (.echoReply src b) else s

end Sys2Proof.Machine
end

