-- ==== Sys2Proof/Machine/Bar.lean ====
section
/-!
DEFINITION. The PCIe function (chapter "Work queues and the host interface"): BAR0 writes in their order after BAR2
writes, the BAR2 window, power-management states, resizing, link training and MSI-X enabling.
-/

namespace Sys2Proof.Machine

/-! ### BAR0 (R246, R248, R259, R260) -/

/-- A write through BAR2 that its hearth has not yet acknowledged. -/
def bar2WriteOpen (s : State) : Bool :=
  s.mem.reqs.any (fun r => r.who == .bar2 && r.wdata.isSome) || s.mem.holdq.any (fun p => p.2.who == .bar2 && p.2.wdata.isSome)
    || s.mem.replies.any (fun r => r.who == .bar2 && r.write)

/-- The queue of a doorbell or command. -/
def Bar0Act.queue : Bar0Act → Nat
  | .doorbell v => v % 2 ^ 20
  | .command _ _ _ q => q

/-- ENABLE, which reads the context again even when it is cached (R261). -/
def Bar0Act.rereads : Bar0Act → Bool
  | .doorbell _ => false
  | .command strand cmd _ _ => !strand && cmd == 1

/-- The doorbell or command must wait for its context in memory, whose stack is held for heat (R288). -/
def ctxBlocked (s : State) (a : Bar0Act) : Bool :=
  s.q.qeReady && (a.rereads || (cachedCtx s a.queue).isNone) && readBlocked s hubVia false (qctxAddr s a.queue) 64

/-- The effect of a doorbell or command (R253, R261, R262); a reserved `CMD` is answered with BAD_COMMAND. -/
def bar0Effect (s : State) : Bar0Act → State
  | .doorbell v => doorbell s v
  | .command false 1 _ q => enableQueue s q
  | .command false 2 _ q => disableQueue s q
  | .command false 3 _ q => flushQueue s q
  | .command true 1 e q => resumeStrand s q e
  | .command true 2 e q => endCommand s q e
  | .command st c e q => if s.q.qeReady then setResult s st 1 c e q else bar0Drop s

/-- Carry out the BAR0 writes that wait, in order, as far as each may go. -/
def runLate : (fuel : Nat) → State → State
  | 0, s => s
  | n + 1, s =>
    match s.q.late with
    | [] => s
    | a :: r =>
      if bar2WriteOpen s || ctxBlocked s a then s
      else runLate n (bar0Effect { s with q := { s.q with late := r } } a)

/-- Look again at the BAR0 writes that wait. -/
def lateAll (s : State) : State := runLate s.q.late.length s

/-- `BUSY` of `HIF_CMD_RESULT`: a command waits. -/
def cmdBusy (s : State) : Bool :=
  s.q.late.any fun a => match a with | .command _ _ _ _ => true | .doorbell _ => false

/-- The value of `HIF_CMD_RESULT`, `BUSY` included (R260). -/
def hifCmdResult (s : State) : Nat := (if cmdBusy s then 2 ^ 63 else 0) + s.q.cmdResult

/-- What waited for memory goes on: completions, and the BAR0 writes behind them (R248, R256). -/
def memoryAgain (s : State) : State := lateAll (payOwed s)

/-- R246: the 64 bits that an RO or RW register of BAR0 holds; 0 for a WO register and an offset that no register has. -/
def bar0Register (s : State) (off : Nat) : Nat :=
  match off with
  | 0x0000 => hifStatus s
  | 0x0010 => s.q.winBase
  | 0x1018 => hifCmdResult s
  | _ => 0

/-- R246: what a read of 4 or 8 bytes of BAR0 returns below the dictionary mirror; 4 bytes at an odd multiple of 4 are the
upper half of the register. -/
def bar0Value (s : State) (off len : Nat) : Nat :=
  if len = 8 then bar0Register s off
  else bar0Register s (off / 8 * 8) / 2 ^ (8 * (off % 8)) % 2 ^ 32

/-- R246: the offsets below the dictionary mirror at which BAR0 has a register. -/
def bar0Listed (off : Nat) : Bool := [0x0000, 0x0010, 0x1000, 0x1008, 0x1010, 0x1018].contains (off / 8 * 8)

/-- R264: the effect of a BAR0 read: an unlisted offset is logged as an Unsupported Request. -/
def bar0ReadEffect (s : State) (off : Nat) : State :=
  if bar0Listed off ∨ off ≥ 0x800000 then s else sendAer s .unsupportedRequest

/-- A write of `HIF_DOORBELL`. -/
def writeDoorbell (s : State) (v : Nat) : State :=
  if !hostUp s then s else lateAll { s with q := { s.q with late := s.q.late ++ [.doorbell v] } }

/-- A write of `HIF_QUEUE_CMD` or `HIF_STRAND_CMD`; while a command is busy it is discarded (R260). -/
def writeCommand (s : State) (strand : Bool) (cmd entry q : Nat) : State :=
  if !hostUp s then s
  else if cmdBusy s ∨ !s.q.qeReady then bar0Drop s
  else lateAll { s with q := { s.q with late := s.q.late ++ [.command strand cmd entry q] } }

/-- A command word with a reserved `CMD` value or a reserved bit set is answered with BAD_COMMAND (R260); `cmd`, `entry` and `q` are
its fields as written. -/
def badCommand (s : State) (strand : Bool) (cmd entry q : Nat) : State :=
  if !hostUp s then s
  else if cmdBusy s ∨ !s.q.qeReady then bar0Drop s
  else setResult s strand 1 cmd entry q

/-- A write of `HIF_WIN_BASE` (R246, R249); `whole` says that it is a 64-bit write in one TLP. -/
def writeWinBase (s : State) (v : Nat) (whole : Bool) : State :=
  if !hostUp s then s
  else
    let b := v % 2 ^ 48
    if !whole ∨ b % 2 ^ s.q.bar2Log2 ≠ 0 then bar0Drop s
    else { s with q := { s.q with winBase := b } }

/-- A BAR0 write of a wrong form, or to an offset that R246 does not list (R246, R264). -/
def bar0Discarded (s : State) (unlisted : Bool) : State :=
  if !hostUp s then s
  else if unlisted then sendAer (bar0Drop s) .unsupportedRequest else bar0Drop s

/-! ### BAR2 (R248) -/

/-- The code of event 0x0604. -/
def bar2Code : MemErr → Nat
  | .fenced => 1
  | .ash => 2
  | .poisoned | .unmapped | .waits => 0

/-- How a BAR2 access ends: a read is completed; a write that met no error ends in silence. -/
def bar2End (s : State) (write : Bool) (addr len : Nat) (a : MemAnswer) : State :=
  match a.err with
  | none => if write then s else toHost s (.completion 0 a.bytes)
  | some .unmapped => if write then sendAer s .unsupportedRequest else sendAer (toHost s (.completion 1 [])) .unsupportedRequest
  | some e =>
    if write then hubEvent s 0x0604 (bar2Code e) (atByte 16 (addr % 2 ^ 48) + atByte 22 (len % 2 ^ 16))
    else toHost s (.completion 2 [])

/-- A BAR2 access must stay behind an earlier request (R30, R282). -/
def bar2Behind (s : State) (r : MemReq) : Bool := behind s s.mem.reqs r

/-- A BAR2 access that waits becomes a request that MEMORY_REQUEST serves and REQUEST_REPLY finishes (log 41). A write that
meets a page which waits for its send is counted (R343). -/
def bar2Queue (s : State) (r : MemReq) (counted : Bool) : State :=
  let s1 := if counted then dcount s Key.ftWaits else s
  { s1 with mem := { s1.mem with reqs := s1.mem.reqs ++ [{ r with arrived := true, post := waveLatched s1 hubSource }] } }

/-- BAR2_READ: `len` bytes at offset `off` of the window. -/
def bar2Read (s : State) (off len : Nat) : State :=
  if !hostUp s ∨ off + len > 2 ^ s.q.bar2Log2 then s
  else
    let addr := s.q.winBase + off
    let r : MemReq := { who := .bar2, epoch := s.rst.epochs, bulk := true, addr := addr, len := len
                        expl := dget s Key.cacheExplicit == 1 }
    if !s.q.memReady then bar2End s false addr len { err := some .unmapped }
    else if bar2Behind s r || readBlocked s hubVia true addr len then bar2Queue s r false
    else
      match devRead s hubVia true addr len with
      | (.error e, s1) => bar2End s1 false addr len { err := some e }
      | (.ok b, s1) => bar2End s1 false addr len { bytes := b }

/-- BAR2_WRITE: bytes at offset `off` of the window. -/
def bar2Write (s : State) (off : Nat) (b : List Byte) : State :=
  if !hostUp s ∨ off + b.length > 2 ^ s.q.bar2Log2 then s
  else
    let addr := s.q.winBase + off
    let r : MemReq := { who := .bar2, epoch := s.rst.epochs, bulk := true, addr := addr, len := b.length, wdata := some b
                        expl := dget s Key.cacheExplicit == 1 }
    if !s.q.memReady then bar2End s true addr b.length { err := some .unmapped }
    else if bar2Behind s r then bar2Queue s r (sendAwaited s hubVia addr b.length)
    else
      match devWrite s hubVia true addr b with
      | (some .waits, s1) => bar2Queue s1 r (sendAwaited s hubVia addr b.length)
      | (e, s1) => bar2End s1 true addr b.length { err := e }

/-- REQUEST_REPLY of any requester: a BAR2 access that waited ends here, and the BAR0 writes behind it may go on. One from
before a host reset is stale (R458). -/
def anyReply (s : State) (i : Nat) : State :=
  match s.mem.replies[i]? with
  | none => s
  | some r =>
    if r.who ≠ .bar2 then requestReply s i
    else
      let s1 := { s with mem := { s.mem with replies := dropAt i s.mem.replies } }
      if r.epoch ≠ s1.rst.epochs then dcount s1 Key.quenchDrops
      else lateAll (bar2End s1 r.write r.addr r.len r.ans)

/-! ### The function (R242–R244, R249, R410–R412) -/

/-- D3HOT_ENTRY. -/
def d3hotEntry (s : State) : State := if !hostUp s then s else { s with d3 := true }

/-- D0_RETURN: the held writes and messages go out in their order, and queues go on. -/
def d0Return (s : State) : State :=
  if !s.d3 then s else kickAll { s with d3 := false, out := s.out ++ s.heldHost, heldHost := [] }

/-- BAR2_RESIZE to 2^n bytes; sizes the capability does not offer cannot be written. -/
def bar2Resize (s : State) (n : Nat) : State :=
  if !hostUp s ∨ n < 28 ∨ n > 41 then s else { s with q := { s.q with bar2Log2 := n, winBase := 0 } }

/-- PCIE_LINK_TRAINING: rate 3 (8 GT/s), 4 or 5 (32 GT/s) as `PCIE_MAX_RATE` permits, and a width. -/
def linkTraining (s : State) (rate width : Nat) : State :=
  if rate < 3 ∨ rate > dget s Key.pcieMaxRate ∨ !([1, 2, 4, 8, 16].contains width) ∨ s.rst.off ∨ s.pw.module = .banked then s
  else { s with q := { s.q with linkRate := rate, linkWidth := width, linkDegraded := !(rate == 5 && width == 16), linkLost := false } }

/-- MSI_X_ENABLE: the control word of the capability is written, with the Function Mask. With Enable going to 1, pending
interrupts are evaluated again; with the Function Mask going to 0, vectors pending in the PBA are sent. -/
def msixControl (s : State) (enable funcMask : Bool) : State :=
  if !hostUp s then s
  else
    let s1 := { s with ev := { s.ev with msixEnable := enable, msixFuncMask := funcMask } }
    let go := if funcMask then [] else s1.ev.pba.filter (fun v => s1.ev.vecOpen.contains v)
    let s2 := go.foldl (fun st v => unmaskVector st v) s1
    if enable ∧ !s.ev.msixEnable then checkModerated (retryRings s2 (fun _ => true)) (fun _ => true) else s2

/-- VECTOR_UNMASK: the vector's table entry has the address and data given, and its mask bit goes to 0. -/
def vectorUnmask (s : State) (v addr data : Nat) : State :=
  if !hostUp s then s
  else unmaskVector { s with ev := { s.ev with vecMsg := tset (0, 0) s.ev.vecMsg v (addr, data) } } v

end Sys2Proof.Machine
end

