-- ==== Sys2Proof/Machine/ArrayCmds.lean ====
section
/-!
DEFINITION. Commands of the engine array and of re-spins: each is an event of an engine, its core, its die agent or
the ladder controller.
-/

namespace Sys2Proof.Machine

/-- The engine's cluster is powered and not damped, and neither the engine nor its die is fenced. -/
def engineOn (s : State) (e : Nat) : Bool :=
  clusterAwake s (e / 32) && !bitOf s.rst.dieFence (e / 256) && !(getEng s e).fenced

/-- An event of an engine: it can occur while the engine is on, and a cluster held long enough may be damped after it
(R392, R395, R398). -/
def engineAct (s : State) (e : Nat) (f : State → State) : State :=
  if engineOn s e then dampCheck (f s) (e / 32) else s


/-- ARRAY_STEP (R43). Engine `e` starts its next loaded chunk when none streams, and streams one row. `hit` is a fault
of the hardware that its checks find, with row and column (R365). -/
def execArrayStep (e : EngineId) (hit : Option (Mech × Nat × Nat)) (s : State) : Result :=
  .next (engineAct s e.val fun st => arrayStep st e.val hit)

/-- STATIONARY_LOAD_DONE (R151). The stationary feeder of engine `e` finishes a slice; `hit` is a fault its checks
find. -/
def execStationaryLoadDone (e : EngineId) (hit : Option Mech) (s : State) : Result :=
  .next (engineAct s e.val fun st => stationaryLoad st e.val hit)

/-- CHECKSUM_ROW_PASS (R162). The checksum-row pass of a chunk of engine `e` completes. -/
def execChecksumRowPass (e : EngineId) (hit : Option Mech) (s : State) : Result :=
  .next (engineAct s e.val fun st => checksumRowPass st e.val hit)

/-- TILE_ROUND_DONE (R171). The output stage of engine `e` has rounded its tile. -/
def execTileRoundDone (e : EngineId) (hit : Option Mech) (s : State) : Result :=
  .next (engineAct s e.val fun st => tileRoundDone st e.val hit)

/-- DRAIN_DONE (R171). The oldest draining tile of engine `e` has been written and acknowledged. -/
def execDrainDone (e : EngineId) (s : State) : Result :=
  .next (engineAct s e.val fun st => drainDone st e.val)

/-- RESPIN_REQUEST (R193). Engine `e`'s re-spin request reaches its die agent. -/
def execRespinRequest (e : EngineId) (s : State) : Result :=
  .next (engineAct s e.val fun st => respinRequest st e.val)

/-- REPLAY_STAGING_DONE (R193). The core feeder has filled the replay allocation of the tile of engine `e`. -/
def execReplayStagingDone (e : EngineId) (s : State) : Result :=
  .next (engineAct s e.val fun st => replayStagingDone st e.val)

/-- RESPIN_REPORT (R196). The report at position `pos` of those in flight reaches the ladder controller. -/
def execRespinReport (pos : Nat) (s : State) : Result :=
  .next (respinReport s pos)

/-- STORM_NOTICE (R197). Core `u` below 256, or hearth `u` − 256, receives the storm declaration. -/
def execStormNotice (u : Fin 276) (s : State) : Result :=
  .next (stormNotice s u.val)

/-- STORM_RELEASE (R197). The host writes `STORM_RELEASE`: 0 DISCARD, 1 APPLY. -/
def execStormRelease (v : Byte) (s : State) : Result :=
  .next (ownWrite s Key.stormRelease v.toNat)

/-- PREEMPTION_REQUEST (R174). Engine `e` receives a pre-emption request. -/
def execPreemptionRequest (e : EngineId) (s : State) : Result :=
  .next (engineAct s e.val fun st => preemptRequest st e.val)

/-- HARD_CAP_HOLD (R176). A hard-cap hold reaches an engine or hearth. -/
def execHardCapHold (u : CapUnit) (s : State) : Result :=
  match u with
  | .engine e => .next (hardCapHold s false e.val)
  | .hearth h => .next (hardCapHold s true h.val)

/-- HARD_CAP_RELEASE (R176). A hard-cap release reaches an engine or hearth. -/
def execHardCapRelease (u : CapUnit) (s : State) : Result :=
  match u with
  | .engine e => .next (hardCapRelease s false e.val)
  | .hearth h => .next (hardCapRelease s true h.val)

/-- PROOF_TEST (R377). Engine `e` runs its proof test, and its core's when `e` is engine 0 of the core; `fails` and
`core` say what the tests find. -/
def execProofTest (e : EngineId) (fails : Bool) (core : CoreProof) (s : State) : Result :=
  .next (engineAct s e.val fun st => proofTest st e.val fails core)

/-- HEARTH_PROOF_TEST (R377). Hearth `h` runs its proof test; a lane whose check fails, and whether the hash lane
fails. -/
def execHearthProofTest (h : HearthId) (lane : Option (Fin 128)) (hash : Bool) (s : State) : Result :=
  .next (hearthProof s h.val (lane.map (·.val)) hash)

end Sys2Proof.Machine
end

