-- ==== Sys2Proof/Machine/CheckpointCmds.lean ====
section
/-!
DEFINITION. Commands of freezes, partners, holders and restores.
-/

namespace Sys2Proof.Machine


/-- PAGE (R346). A PAGE frame is received. -/
def execPage (peer : Nat) (port : Fin 8) (f : CordFrame) (s : State) : Result :=
  .next (rxCheck s port.val 10 f fun s1 g => rxPage s1 peer port.val g)

/-- PAIR_REQ (R349). A PAIR_REQ is received: MODULE_ID, feed identities, override (log 53). -/
def execPairReq (peer : Nat) (port : Fin 8) (f : CordFrame) (s : State) : Result :=
  .next (rxCtrl s peer port.val 1 f fun g s1 =>
    pairReq s1 peer (leField g.payload 4 1) (leField g.payload 5 1) (leField g.payload 6 1))

/-- PAIR_ACK (R349). A PAIR_ACK is received: feed identities and S. -/
def execPairAck (peer : Nat) (port : Fin 8) (f : CordFrame) (s : State) : Result :=
  .next (rxCtrl s peer port.val 2 f fun g s1 =>
    pairAck s1 peer (leField g.payload 0 1) (leField g.payload 1 1) (leField g.payload 2 4))

/-- PAIR_REFUSE (R349). A PAIR_REFUSE is received. -/
def execPairRefuse (peer : Nat) (port : Fin 8) (f : CordFrame) (s : State) : Result :=
  .next (rxCtrl s peer port.val 3 f fun g s1 => pairRefuse s1 peer (leField g.payload 0 1))

/-- FREEZE_BEGIN (R346). A FREEZE_BEGIN is received. -/
def execFreezeBegin (peer : Nat) (port : Fin 8) (f : CordFrame) (s : State) : Result :=
  .next (rxCtrl s peer port.val 4 f fun g s1 => freezeBegin s1 peer g.arg (leField g.payload 0 4))

/-- BEGIN_ACK (R346). A BEGIN_ACK is received. -/
def execBeginAck (peer : Nat) (port : Fin 8) (f : CordFrame) (s : State) : Result :=
  .next (rxCtrl s peer port.val 5 f fun g s1 => beginAck s1 peer (leField g.payload 0 4))

/-- DIGESTS (R346). A DIGESTS frame is received. -/
def execDigests (peer : Nat) (port : Fin 8) (f : CordFrame) (s : State) : Result :=
  .next (rxCtrl s peer port.val 6 f fun g s1 => anyDigests s1 peer g)

/-- FREEZE_END (R346). A FREEZE_END is received. -/
def execFreezeEnd (peer : Nat) (port : Fin 8) (f : CordFrame) (s : State) : Result :=
  .next (rxCtrl s peer port.val 7 f fun g s1 => anyFreezeEnd s1 peer g)

/-- END_ACK (R344). An END_ACK is received. -/
def execEndAck (peer : Nat) (port : Fin 8) (f : CordFrame) (s : State) : Result :=
  .next (rxCtrl s peer port.val 8 f fun g s1 => endAck s1 peer g.arg)

/-- REFUSE (R344). A REFUSE is received. -/
def execRefuse (peer : Nat) (port : Fin 8) (f : CordFrame) (s : State) : Result :=
  .next (rxCtrl s peer port.val 9 f fun g s1 => refused s1 peer g.arg)

/-- ABANDON (R346). An ABANDON is received. -/
def execAbandon (peer : Nat) (port : Fin 8) (f : CordFrame) (s : State) : Result :=
  .next (rxCtrl s peer port.val 10 f fun _ s1 => abandon s1 peer)

/-- RESTORE_REQ (R346). A RESTORE_REQ is received: origin and first slot. -/
def execRestoreReq (peer : Nat) (port : Fin 8) (f : CordFrame) (s : State) : Result :=
  .next (rxCtrl s peer port.val 11 f fun g s1 => restoreReq s1 peer g.arg (leField g.payload 0 4) (leField g.payload 4 4))

/-- DIGEST_REQ (R346). A DIGEST_REQ is received: origin. -/
def execDigestReq (peer : Nat) (port : Fin 8) (f : CordFrame) (s : State) : Result :=
  .next (rxCtrl s peer port.val 12 f fun g s1 => digestReq s1 peer g.arg (leField g.payload 0 4))

/-- UNAVAILABLE (R354). An UNAVAILABLE is received. -/
def execUnavailable (peer : Nat) (port : Fin 8) (f : CordFrame) (s : State) : Result :=
  .next (rxCtrl s peer port.val 13 f fun g s1 => restoreUnavailable s1 peer g.arg)

/-- FREEZE_NOW (R339). `FREEZE_NOW` is written. -/
def execFreezeNow (v : Byte) (s : State) : Result :=
  .next (pump (ownWrite s Key.freezeNow v.toNat))

/-- PARTNER_HOLDER_WRITE (R349). `PARTNER_HOLDER` is written. -/
def execPartnerHolderWrite (v : BitVec 16) (s : State) : Result :=
  .next (pump (ownWrite s Key.partnerHolder v.toNat))

/-- PARTNER_OF_WRITE (R346). `PARTNER_OF` is written. -/
def execPartnerOfWrite (v : BitVec 16) (s : State) : Result :=
  .next (pump (ownWrite s Key.partnerOf v.toNat))

/-- START (R354). `RESTORE_CMD` is written with START; `hostList` is the digest list that host memory delivers. -/
def execRestoreStart (hostList : List Byte) (s : State) : Result :=
  .next (pump (ownWrite s Key.restoreCmd 1 { hostList := hostList }))

/-- RESTORE_ABORT (R354). `RESTORE_CMD` is written with ABORT. -/
def execRestoreAbort (s : State) : Result :=
  .next (pump (ownWrite s Key.restoreCmd 2))

end Sys2Proof.Machine
end

