-- ==== Sys2Proof/Machine/CordCmds.lean ====
section
/-!
DEFINITION. Commands of the Cord: frames received from a peer on a port, timers, ports and the peer table.
-/

namespace Sys2Proof.Machine


/-- RA (R324). An RA frame is received, with what its residue checks find (R292). -/
def execRa (peer : Nat) (port : Fin 8) (f : RaFrame) (s : State) : Result :=
  .next (rxCheck s port.val 1 f.frame fun s1 g => rxGroup s1 peer port.val g fun s2 =>
    takeRa s2 peer port.val g (f.hit.map fun x => { i := x.1, lane := x.2.1, again := x.2.2 }))

/-- GATHER (R326). A GATHER frame is received. -/
def execGather (peer : Nat) (port : Fin 8) (f : CordFrame) (s : State) : Result :=
  .next (rxCheck s port.val 2 f fun s1 g => rxGroup s1 peer port.val g fun s2 => takeGather s2 g)

/-- ACK (R320). An ACK is received. -/
def execAck (peer : Nat) (port : Fin 8) (f : CordFrame) (s : State) : Result :=
  .next (rxCheck s port.val 3 f fun s1 g => rxAck s1 peer port.val g)

/-- NAK (R321). A NAK is received; `code` is 0 GAP, 1 BUSY, 2 NOT_POSTED. -/
def execNak (peer : Nat) (port : Fin 8) (f : CordFrame) (s : State) : Result :=
  .next (rxCheck s port.val 4 f fun s1 g => rxNak s1 peer port.val g)

/-- ASH_NAK (R332). An ASH_NAK is received. -/
def execAshNak (peer : Nat) (port : Fin 8) (f : CordFrame) (s : State) : Result :=
  .next (rxCheck s port.val 5 f fun s1 g => rxEnds s1 peer port.val g 5)

/-- HEARTBEAT (R315). A HEARTBEAT is received. -/
def execHeartbeat (peer : Nat) (port : Fin 8) (f : CordFrame) (s : State) : Result :=
  .next (rxCheck s port.val 6 f fun s1 g => rxHeartbeat s1 peer port.val g)

/-- GOING_DOWN (R315). A GOING_DOWN frame is received. -/
def execGoingDown (peer : Nat) (port : Fin 8) (f : CordFrame) (s : State) : Result :=
  .next (rxCheck s port.val 7 f fun s1 g => rxGoingDown s1 peer port.val g)

/-- HEAT_HOLD (R331). A HEAT_HOLD notice is received. -/
def execHeatHold (peer : Nat) (port : Fin 8) (f : CordFrame) (s : State) : Result :=
  .next (rxCheck s port.val 8 f fun s1 g => rxHeat s1 peer port.val g)

/-- MARKER (R503). A MARKER frame is received. -/
def execMarker (peer : Nat) (port : Fin 8) (f : CordFrame) (s : State) : Result :=
  .next (rxCheck s port.val 9 f fun s1 g => rxMarker s1 peer port.val g)

/-- ABORT (R330). An ABORT frame is received. -/
def execAbort (peer : Nat) (port : Fin 8) (f : CordFrame) (s : State) : Result :=
  .next (rxCheck s port.val 12 f fun s1 g => rxEnds s1 peer port.val g 7)

/-- CORD_FRAME_DROP (R313). A frame comes in at a port: its bytes up to the FCS, and whether the FCS is right. -/
def execCordFrameDrop (f : RxBytes) (s : State) : Result :=
  .next (frameDrop s f.port.val f.bytes f.fcs)

/-- HEARTBEAT_SEND (R315). A path has been idle for 65,536 counts. -/
def execHeartbeatSend (peer : Nat) (port : Fin 8) (s : State) : Result :=
  .next (heartbeatSend s peer port.val)

/-- PATH_SILENCE_TIMEOUT (R315). A path has been silent for 4 × 65,536 counts. -/
def execPathSilenceTimeout (peer : Nat) (port : Fin 8) (s : State) : Result :=
  .next (pathSilent s peer port.val)

/-- CORD_RTO_EXPIRY (R321). A channel has made no progress for `CORD_RTO` counts. -/
def execCordRtoExpiry (peer : Nat) (port : Fin 8) (ch : Fin 16) (s : State) : Result :=
  .next (rtoExpiry s peer port.val ch.val)

/-- CORD_RNR_WAIT_EXPIRY (R321). The wait after a NAK BUSY or NOT_POSTED ends. -/
def execCordRnrWaitExpiry (peer : Nat) (port : Fin 8) (ch : Fin 16) (s : State) : Result :=
  .next (rnrExpiry s peer port.val ch.val)

/-- ACK_TIMER (R320). A frame has been applied for 4 counts without an ACK. -/
def execAckTimer (peer : Nat) (port : Fin 8) (ch : Fin 16) (s : State) : Result :=
  .next (ackTimer s peer port.val ch.val)

/-- COLL_TIMEOUT (R329). The collective of a posting number has made no progress for `COLL_TIMEOUT` counts. -/
def execCollTimeout (post : Nat) (s : State) : Result :=
  .next (collTimeout s post)

/-- HEAT_HOLD_REPEAT (R331). A heat-hold notice is due again. -/
def execHeatHoldRepeat (s : State) : Result :=
  .next (heatRepeat s)

/-- HEAT_HOLD_LIMIT (R331). The suspension of a collective reaches its limit. -/
def execHeatHoldLimit (post : Nat) (s : State) : Result :=
  .next (heatLimit s post)

/-- ABORT_AGEING (R330). An aborted collective has stood for `COLL_TIMEOUT` counts. -/
def execAbortAgeing (post : Nat) (s : State) : Result :=
  .next (abortAgeing s post)

/-- PORT_STATE_CHANGE (R309). A Cord port trains up or goes down. -/
def execPortStateChange (port : Fin 8) (up : Bool) (s : State) : Result :=
  .next (portChange s port.val up)

/-- CORD_PEER_COUNT_WRITE (R314). `CORD_PEER_COUNT` is written. -/
def execCordPeerCountWrite (v : BitVec 16) (s : State) : Result :=
  .next (pump (ownWrite s Key.cordPeerCount v.toNat))

end Sys2Proof.Machine
end

