-- ==== Sys2Proof/Machine/DictionaryCmds.lean ====
section
/-!
DEFINITION. Commands of the Tranan dictionary, the mailbox, the mirror and the field network.
-/

namespace Sys2Proof.Machine


/-- READ (R431). A READ request of the mailbox or field network is served. -/
def execRead (t : Tranan) (s : State) : Result :=
  .next (trananRead s t)

/-- WRITE (R433). A WRITE request of the mailbox or field network is served. -/
def execWrite (t : Tranan) (x : Outside) (s : State) : Result :=
  .next (pump (trananWrite s t x))

/-- DISCOVER (R438). A DISCOVER request is received. -/
def execDiscover (d : Datagram) (s : State) : Result :=
  .next (trananDiscover s d)

/-- DISCOVER_DELAY_EXPIRY (R438). The delay of the oldest DISCOVER answer passes. -/
def execDiscoverDelayExpiry (s : State) : Result :=
  .next (discoverDelay s)

/-- DUPLICATE_ADDRESS_DETECTION (R436). Duplicate Address Detection completes. -/
def execDuplicateAddressDetection (conflict : Bool) (s : State) : Result :=
  .next (dadDone s conflict)

/-- NEIGHBOR_SOLICITATION (R436). A Neighbor Solicitation for the module comes from an address. -/
def execNeighborSolicitation (src : Nat) (s : State) : Result :=
  .next (neighborSolicited s src)

/-- ECHO_REQUEST (R436). An ICMPv6 Echo Request comes from an address. -/
def execEchoRequest (src : Nat) (data : List Byte) (s : State) : Result :=
  .next (echoRequested s src data)

/-- FIELD_LINK_STATE_CHANGE (R454). The 10BASE-T1S link comes up or goes down. -/
def execFieldLinkStateChange (up : Bool) (s : State) : Result :=
  .next (fieldLink s up)

/-- MBX_DOORBELL (R442). `MBX_DOORBELL` is written; `buf` is what the host has put into the request buffer. -/
def execMbxDoorbell (v : Word) (buf : List Byte) (s : State) : Result :=
  .next (mbxDoorbell s v.toNat buf)

/-- DIRECT_MAP_WRITE (R441). A write at an offset of the direct map, 64 bits in one TLP when `whole`. -/
def execDirectMapWrite (off : Nat) (v : Word) (whole : Bool) (s : State) : Result :=
  .next (pump (directWrite s off v.toNat whole))

/-- ENTRY_WRITE (R429). A write of an entry by its index and sub-index, through the field network or the mirror. -/
def execEntryWrite (field : Bool) (key : BitVec 24) (type : Byte) (data : List Byte) (s : State) : Result :=
  .next (pump (if dictServed s then (reportedWrite s (if field then .field else .mirror) key.toNat type.toNat data {}).1 else s))

/-- DICT_COMMIT (R448). `DICT_COMMIT` is written. -/
def execDictCommit (v : Byte) (s : State) : Result :=
  .next (ownWrite s Key.dictCommit v.toNat)

/-- COMMIT_COMPLETE (R448). The flash write and read-back of a commit end. -/
def execCommitComplete (e : FlashEnd) (s : State) : Result :=
  .next (commitComplete s e)

/-- DICT_LOAD_DEFAULTS (R451). `DICT_LOAD_DEFAULTS` is written with 1. -/
def execDictLoadDefaults (s : State) : Result :=
  .next (ownWrite s Key.dictLoadDefaults 1)

/-- DICT_LOAD_DEFAULTS_COMMIT (R451). `DICT_LOAD_DEFAULTS` is written with 2. -/
def execDictLoadDefaultsCommit (s : State) : Result :=
  .next (ownWrite s Key.dictLoadDefaults 2)

end Sys2Proof.Machine
end

