-- ==== Sys2Proof/Machine/EventCmds.lean ====
section
/-!
DEFINITION. Commands of events and interrupt delivery.
-/

namespace Sys2Proof.Machine

/-- The hub, its event controller and its flash run: the module is powered and not held in reset. -/
def hubRuns (s : State) : Bool := !s.rst.mrst && !s.rst.off && s.pw.module != .banked

/-- EVENT_RECORD_ACCEPT: the record at position `i` is accepted; the acceptance of a storm's declaration ends the hold that
waits for it (R197), and an accepted record may trigger a debug cut (R498). -/
def acceptAt (s : State) (i : Nat) (ringFails : Bool) : State :=
  if !hubRuns s then s
  else
    match nextOfOrigin s.ev.evq i with
    | none => s
    | some e =>
      match acceptRecord { s with ev := { s.ev with evq := dropAt i s.ev.evq } } e ringFails with
      | none => s
      | some s1 => snapEvent (if e.source = 0x0101 ∧ e.code = 0 then stormRecorded s1 else s1) e.source

/-- HOLDOFF_EXPIRY: a ring that waits for moderation raises its interrupt (R416). -/
def holdoffOver (s : State) (r : Nat) : State := if s.ev.ringMod.contains r then raiseRing s r else s

/-- LOCAL_OCCURRENCE: the occurrence at position `i` of those in flight reaches its controller (R420). -/
def occurAt (s : State) (i : Nat) : State :=
  match s.ev.occq[i]? with
  | none => s
  | some o => localOccur { s with ev := { s.ev with occq := dropAt i s.ev.occq } } o


/-- EVENT_RECORD_ACCEPT (R414). The package event controller accepts the record at position `pos` of those in flight;
`ringFails` says that a PCIe write of its host ring fails (R418). -/
def execEventRecordAccept (pos : Nat) (ringFails : Bool) (s : State) : Result :=
  .next (acceptAt s pos ringFails)

/-- HOLDOFF_EXPIRY (R416). A ring's moderation holdoff passes. -/
def execHoldoffExpiry (r : Fin 64) (s : State) : Result :=
  .next (holdoffOver s r.val)

/-- RING_CI_WRITE (R415). `RING_CI` of a ring is written. -/
def execRingCiWrite (r : Fin 64) (v : BitVec 32) (s : State) : Result :=
  .next (ownWrite s (Key.ringCi + r.val) v.toNat)

/-- TCTL_WRITE (R409). `TCTL` of a target is written with `EOI` 0. -/
def execTctlWrite (t : Fin 2054) (v : BitVec 31) (s : State) : Result :=
  .next (ownWrite s (tctlKey t.val) v.toNat)

/-- EOI (R412). `TCTL` of a target is written with `EOI` 1; `v` holds its other bits. -/
def execEoi (t : Fin 2054) (v : BitVec 31) (s : State) : Result :=
  .next (ownWrite s (tctlKey t.val) (2 ^ 31 + v.toNat))

/-- EVT_HOLD_WRITE (R417). `EVT_HOLD` is written. -/
def execEvtHoldWrite (v : Byte) (s : State) : Result :=
  .next (ownWrite s Key.evtHold v.toNat)

/-- GROUP_DEF_WRITE (R411). A target group definition is written. -/
def execGroupDefWrite (g : Fin 64) (v : BitVec 32) (s : State) : Result :=
  .next (ownWrite s (Key.groupDef + g.val) v.toNat)

/-- LOCAL_OCCURRENCE (R420). The occurrence at position `pos` of those in flight reaches its cluster or die
controller. -/
def execLocalOccurrence (pos : Nat) (s : State) : Result :=
  .next (occurAt s pos)

/-- EC_FORWARD (R420). Controller `ctl` (clusters 0–31, die agents 32–35) has waited its holdoff. -/
def execEcForward (ctl : Fin 36) (s : State) : Result :=
  .next (forwardAll s ctl.val)

/-- MASK_WRITE (R421). `MASK` of a controller is written. -/
def execMaskWrite (ctl : Fin 36) (v : Word) (s : State) : Result :=
  .next (ownWrite s (maskKey ctl.val) v.toNat)

/-- PEND_WRITE (R420). `PEND` of a controller is written. -/
def execPendWrite (ctl : Fin 36) (v : Word) (s : State) : Result :=
  .next (ownWrite s (pendKey ctl.val) v.toNat)

/-- EC_LOCK_WRITE (R422). `EC_LOCK` of a die is written. -/
def execEcLockWrite (d : DieId) (v : Byte) (s : State) : Result :=
  .next (ownWrite s (Key.ecLock + d.val) v.toNat)

end Sys2Proof.Machine
end

