-- ==== Sys2Proof/Machine/IntegrityCmds.lean ====
section
/-!
DEFINITION. Commands of fault reporting and injection.
-/

namespace Sys2Proof.Machine


/-- FAULT_MESSAGE (R372). The fault collector accepts the message at position `pos` of those in flight. -/
def execFaultMessage (pos : Nat) (s : State) : Result :=
  .next (faultMessage s pos)

/-- EMBER_CREDIT_RETURN (R371). A credit reaches an ember source, unit kind × 4,096 + unit. -/
def execEmberCreditReturn (src : Nat) (s : State) : Result :=
  .next (emberReturn s src)

/-- HUB_INTERNAL_FAULT (R379). The hub's own logic suffers an uncorrectable fault; `lost` says that the report's path
is lost with it. -/
def execHubInternalFault (sub : Fin 4096) (lost : Bool) (s : State) : Result :=
  .next (hubInternal s sub.val lost false)

/-- FAULT_INJECT (R383). `FAULT_INJECT` is written. -/
def execFaultInject (v : BitVec 32) (s : State) : Result :=
  .next (ownWrite s Key.faultInject v.toNat)

/-- ALERT_ACK (R372). `ALERT_ACK` is written. -/
def execAlertAck (v : Byte) (s : State) : Result :=
  .next (ownWrite s Key.alertAck v.toNat)

/-- ENGINE_UNRETIRE (R376). `ENGINE_UNRETIRE` is written. -/
def execEngineUnretire (v : BitVec 16) (s : State) : Result :=
  .next (ownWrite s Key.engineUnretire v.toNat)

/-- DIE_LINK_CRC_ERROR (R365). A flit fails its CRC on a die link or ember lane; `twice` says that its resend failed
too. -/
def execDieLinkCrcError (p : FlitPlace) (twice : Bool) (s : State) : Result :=
  .next (flitError s p twice)

end Sys2Proof.Machine
end

