-- ==== Sys2Proof/Machine/MemoryCmds.lean ====
section
/-!
DEFINITION. Commands of the memory system, of hearth and vector units, and of page digests.
-/

namespace Sys2Proof.Machine


/-- MEMORY_REQUEST (R267). The request at position `pos` of those in flight reaches its hearth; `errs` is what the
codes of the atoms it reads find. What waited for memory goes on (log 41). -/
def execMemoryRequest (pos : Nat) (errs : List AtomErr) (s : State) : Result :=
  .next (memoryAgain (memoryRequest s pos errs))

/-- FIRST_TOUCH_COPY_DONE (R343). The first-touch copy of a page completes. -/
def execFirstTouchCopyDone (page : Nat) (s : State) : Result :=
  .next (memoryAgain (firstTouchDone s page))

/-- FETCH_ADD (R281). A fetch-add of the hub, or of a die agent: 64-bit when `wide`, else 32-bit. -/
def execFetchAdd (die : Option DieId) (wide : Bool) (addr v : Nat) (s : State) : Result :=
  .next (fetchAdd s die wide addr v)

/-- COMPARE_SWAP (R281). A 64-bit compare-swap of the hub, or of a die agent. -/
def execCompareSwap (die : Option DieId) (addr expected new : Nat) (s : State) : Result :=
  .next (compareSwap s die addr expected new)

/-- REMOTE_ACC_REQUEST (R295). The remote accumulate request at position `pos` reaches its hearth; `hit` is a lane
whose residue check fails. -/
def execRemoteAccRequest (pos : Nat) (hit : Option (Fin 128)) (s : State) : Result :=
  .next (pump (remoteAccRequest s pos (hit.map (·.val))))

/-- HEARTH_GROUP (R292). Hearth `h` finishes the next group of operation `op`; `hit` is a lane whose residue check
fails. -/
def execHearthGroup (op : Nat) (h : HearthId) (hit : Option (Fin 128)) (s : State) : Result :=
  .next (hearthGroup s op h.val (hit.map (·.val)))

/-- VECTOR_PART (R528). The vector unit of a core finishes its part of operation `op`; `hit` is a fault its checks
find. -/
def execVectorPart (op : Nat) (core : CoreId) (hit : Option Mech) (s : State) : Result :=
  .next (vectorPart s op core.val hit)

/-- PAGE_DIGEST_DONE (R305). The hash lane of hearth `u`, or 20 for the hub's schedule page, finishes a page's digest;
`host` is what a restore's host read delivers. -/
def execPageDigestDone (u : Fin 21) (host : List Byte) (s : State) : Result :=
  .next (pump (pageDigestDone s u.val host))

/-- CHANNEL_FENCE (R287). Hearth `h` fences its channel `c`. -/
def execChannelFence (h : HearthId) (c : Fin 32) (s : State) : Result :=
  .next (fenceChannel s h.val c.val)

/-- SCRUB_VISIT (R285). Hearth `h` scrubs its next atom. -/
def execScrubVisit (h : HearthId) (err : AtomErr) (s : State) : Result :=
  .next (scrubVisit s h.val err)

/-- STACK_THERMAL_LEVEL (R288). A temperature reading of a stack in 1/16 °C, none when its sensor cannot be read. -/
def execStackThermalLevel (h : HearthId) (reading : Option Int) (s : State) : Result :=
  .next (memoryAgain (stackReading s h.val reading))

/-- ISLAND_CLOCK_LOSS (R54). The clock of a synchronous island stops or leaves its tolerance. -/
def execIslandClockLoss (isl : Island) (s : State) : Result :=
  .next (islandLost s isl)

end Sys2Proof.Machine
end

