-- ==== Sys2Proof/Machine/PowerCmds.lean ====
section
/-!
DEFINITION. Commands of feeds, power states, heat, draught levels and step monitors.
-/

namespace Sys2Proof.Machine


/-- FEED_CONDITION (R386). A reading of feed A (0) or B (1). -/
def execFeedCondition (f : Fin 2) (r : FeedReading) (s : State) : Result :=
  .next (feedRead s f.val r)

/-- FEED_VOLTAGE_CROSSOVER (R385). Readings of both feeds whose magnitudes cross or come within 0.5 V. -/
def execFeedVoltageCrossover (a b : FeedReading) (s : State) : Result :=
  .next (feedsRead s a b)

/-- POWER_FAIL (R388). No feed has been usable for 50 µs. -/
def execPowerFail (s : State) : Result :=
  .next (powerFail s)

/-- COLD_START (R388). A feed has been GOOD for 100 ms after Off. -/
def execColdStart (s : State) : Result :=
  .next (coldStart s)

/-- BUDGET_WINDOW_END (R391). A budget window ends, with the readings of feeds and clusters (0.1 W) and the stacks
that were idle in it. -/
def execBudgetWindowEnd (a b : FeedReading) (clusters : List (Option Nat)) (quiet : BitVec 20) (s : State) : Result :=
  .next (budgetWindow s a b clusters quiet.toNat)

/-- DAMP_IDLE_EXPIRY (R395). A cluster has been idle for `DAMP_IDLE` counts. -/
def execDampIdleExpiry (c : ClusterId) (s : State) : Result :=
  .next (dampIdle s c.val)

/-- CLUSTER_WAKE (R395). A request is addressed to a damped cluster. -/
def execClusterWake (c : ClusterId) (s : State) : Result :=
  .next (clusterWake s c.val)

/-- SMOULDER (R397). `POWER_STATE_CMD` is written with SMOULDER. -/
def execPowerSmoulder (s : State) : Result :=
  .next (ownWrite s Key.powerStateCmd 1)

/-- BANKED (R397). `POWER_STATE_CMD` is written with BANKED. -/
def execPowerBanked (s : State) : Result :=
  .next (ownWrite s Key.powerStateCmd 2)

/-- RUN (R397). `POWER_STATE_CMD` is written with RUN. -/
def execPowerRun (s : State) : Result :=
  .next (ownWrite s Key.powerStateCmd 0)

/-- CLUSTER_THERMAL_LEVEL (R398). A temperature reading of a cluster in 1/16 °C, none when its sensor cannot be read.
-/
def execClusterThermalLevel (c : ClusterId) (reading : Option Int) (s : State) : Result :=
  .next (clusterReading s c.val reading)

/-- TRIP (R398). The comparator of a cluster trips at 115 °C. -/
def execTrip (c : ClusterId) (s : State) : Result :=
  .next (trip s c.val)

/-- LOW_VOLTAGE_PERMIT_WRITE (R47). `LOW_VOLTAGE_PERMIT` is written. -/
def execLowVoltagePermitWrite (v : Byte) (s : State) : Result :=
  .next (ownWrite s Key.lowVoltagePermit v.toNat)

/-- STEP_MONITOR_WINDOW (R48). A step-monitor window ends with the counts of the 32 monitors. -/
def execStepMonitorWindow (counts : List Nat) (s : State) : Result :=
  .next (stepMonitor s counts)

/-- COOLANT_INLET_READING (R405). Readings of the coolant in 1/16 °C. -/
def execCoolantInletReading (inlet outlet : Option Int) (s : State) : Result :=
  .next (coolantReading s inlet outlet)

end Sys2Proof.Machine
end

