-- ==== Sys2Proof/Machine/QueueCmds.lean ====
section
/-!
DEFINITION. Commands of the queue engine and of the PCIe function.
-/

namespace Sys2Proof.Machine


/-- DOORBELL (R253). A 64-bit write of `HIF_DOORBELL`. -/
def execDoorbell (v : Word) (s : State) : Result :=
  .next (writeDoorbell s v.toNat)

/-- ENTRY_FETCH_RETURN (R255). A fetch of a queue returns; `host` is what a host ring delivers, none for a poisoned or
aborted completion. -/
def execEntryFetchReturn (queue : Fin 1048576) (host : Option (List Byte)) (s : State) : Result :=
  .next (entryFetchReturn s queue.val host)

/-- COPY_COMPLETE (R255). The last write of a COPY entry is acknowledged; `host` is what host memory delivers, none for
a poisoned completion. -/
def execCopyComplete (queue : Fin 1048576) (entry : BitVec 16) (host : Option (List Byte)) (s : State) : Result :=
  .next (copyComplete s queue.val entry.toNat host)

/-- ENABLE (R261). A write of `HIF_QUEUE_CMD` with ENABLE. -/
def execEnable (queue : Fin 1048576) (s : State) : Result :=
  .next (writeCommand s false 1 0 queue.val)

/-- DISABLE (R261). A write of `HIF_QUEUE_CMD` with DISABLE. -/
def execDisable (queue : Fin 1048576) (s : State) : Result :=
  .next (writeCommand s false 2 0 queue.val)

/-- FLUSH (R261). A write of `HIF_QUEUE_CMD` with FLUSH. -/
def execFlush (queue : Fin 1048576) (s : State) : Result :=
  .next (writeCommand s false 3 0 queue.val)

/-- RESUME (R237). A write of `HIF_STRAND_CMD` with RESUME. -/
def execResume (queue : Fin 1048576) (entry : BitVec 16) (s : State) : Result :=
  .next (writeCommand s true 1 entry.toNat queue.val)

/-- END (R262). A write of `HIF_STRAND_CMD` with END. -/
def execEndStrand (queue : Fin 1048576) (entry : BitVec 16) (s : State) : Result :=
  .next (writeCommand s true 2 entry.toNat queue.val)

/-- BAD_COMMAND (R260). A queue or strand command with a reserved `CMD` value or a reserved bit set. -/
def execBadCommand (strand : Bool) (cmd : Fin 16) (entry : BitVec 16) (queue : Fin 1048576) (s : State) : Result :=
  .next (badCommand s strand cmd.val entry.toNat queue.val)

/-- HIF_WIN_BASE_WRITE (R249). A write of `HIF_WIN_BASE`; `whole` says that it is 64 bits in one TLP. -/
def execHifWinBaseWrite (v : Word) (whole : Bool) (s : State) : Result :=
  .next (writeWinBase s v.toNat whole)

/-- BAR0_DISCARDED_WRITE (R246). A BAR0 write of a wrong form, or to an unlisted offset. -/
def execBar0DiscardedWrite (unlisted : Bool) (s : State) : Result :=
  .next (bar0Discarded s unlisted)

/-- BAR2_READ (R248). A host read of `len` bytes at offset `off` of BAR2. -/
def execBar2Read (off len : Nat) (s : State) : Result :=
  .next (bar2Read s off len)

/-- BAR2_WRITE (R248). A host write at offset `off` of BAR2. -/
def execBar2Write (off : Nat) (data : List Byte) (s : State) : Result :=
  .next (bar2Write s off data)

/-- BAR2_RESIZE (R249). The host resizes BAR2 to 2^`n` bytes. -/
def execBar2Resize (n : Nat) (s : State) : Result :=
  .next (bar2Resize s n)

/-- D3HOT_ENTRY (R244). The function enters D3hot. -/
def execD3hotEntry (s : State) : Result :=
  .next (d3hotEntry s)

/-- D0_RETURN (R244). The function returns to D0. -/
def execD0Return (s : State) : Result :=
  .next (d0Return s)

/-- PCIE_COMPLETION_TIMEOUT (R264). A host read gets no completion in time: that of a ring fetch, or of the COPY entry
given. -/
def execPcieCompletionTimeout (queue : Fin 1048576) (copy : Option (BitVec 16)) (s : State) : Result :=
  .next (pcieTimeout s queue.val (copy.map (·.toNat)))

/-- PCIE_LINK_TRAINING (R242). The PCIe link trains at rate 3, 4 or 5 (8, 16 or 32 GT/s) and a width. -/
def execPcieLinkTraining (rate width : Nat) (s : State) : Result :=
  .next (linkTraining s rate width)

/-- MSI_X_ENABLE (R410). The MSI-X Enable and Function Mask bits are written. -/
def execMsiXEnable (enable funcMask : Bool) (s : State) : Result :=
  .next (msixControl s enable funcMask)

/-- VECTOR_UNMASK (R412). A vector is unmasked in the MSI-X table, where the host has put the address and data of
its message. -/
def execVectorUnmask (v : VecEntry) (s : State) : Result :=
  .next (vectorUnmask s v.vec.val v.addr.toNat v.data.toNat)

end Sys2Proof.Machine
end

