-- ==== Sys2Proof/Machine/ResetCmds.lean ====
section
/-!
DEFINITION. Commands of resets and start-up.
-/

namespace Sys2Proof.Machine


/-- MRST_N_ASSERT (R456). `MRST_N` is asserted. -/
def execMrstNAssert (s : State) : Result :=
  .next (mrstAssert s)

/-- MRST_N_RELEASE (R464). `MRST_N` is released. -/
def execMrstNRelease (s : State) : Result :=
  .next (mrstRelease s)

/-- PERST_ASSERT (R462). PERST# is asserted, or a PCIe hot reset comes. -/
def execPerstAssert (s : State) : Result :=
  .next (perstAssert s)

/-- PERST_DEASSERT (R397). PERST# is deasserted. -/
def execPerstDeassert (s : State) : Result :=
  .next (perstDeassert s)

/-- FLR (R462). A function-level reset. -/
def execFlr (s : State) : Result :=
  .next (flr s)

/-- MODULE (R456). `RESET_CMD` is written with MODULE. -/
def execResetModule (s : State) : Result :=
  .next (ownWrite s Key.resetCmd 1)

/-- DIE (R463). `RESET_CMD` is written with DIE. -/
def execResetDie (s : State) : Result :=
  .next (ownWrite s Key.resetCmd 2)

/-- CLUSTER (R459). `RESET_CMD` is written with CLUSTER, or a die agent resets a cluster that is off. -/
def execResetCluster (agent : Option ClusterId) (s : State) : Result :=
  match agent with
  | none => .next (ownWrite s Key.resetCmd 3)
  | some c => .next (agentReset s c.val)

/-- CORE (R459). `RESET_CMD` is written with CORE. -/
def execResetCore (s : State) : Result :=
  .next (ownWrite s Key.resetCmd 4)

/-- QUENCH (R459). The quench message of quench `pos` reaches its unit. -/
def execQuench (pos : Nat) (s : State) : Result :=
  .next (quenchArrive s pos)

/-- QUENCH_NOTICE (R459). The notice of quench `pos` reaches a hearth. -/
def execQuenchNotice (pos : Nat) (h : HearthId) (s : State) : Result :=
  .next (quenchNotice s pos h.val)

/-- QUENCH_ACK (R459). The acknowledgement of quench `pos` reaches its initiator; `faulty` marks hearths that cannot
write back. -/
def execQuenchAck (pos : Nat) (faulty : BitVec 20) (s : State) : Result :=
  .next (quenchAck s pos faulty.toNat)

/-- QUENCH_RELEASE (R459). The release of quench `pos` reaches its unit. -/
def execQuenchRelease (pos : Nat) (s : State) : Result :=
  .next (quenchRelease s pos)

/-- DIE_RESET_DONE (R463). A reset die comes back. -/
def execDieResetDone (d : DieId) (s : State) : Result :=
  .next (pump (dieResetDone s d.val))

/-- BOOT (R477). Stage 0 has verified; `b` is what it found and `puf` whether the device keys can be rebuilt. -/
def execBoot (b : BootFinds) (puf : Bool) (s : State) : Result :=
  .next (boot s b puf)

/-- DIES (R464). Stage 3 brings up the dies; `failed` marks those that fail twice. -/
def execStartDies (failed : BitVec 4) (s : State) : Result :=
  .next (diesStage s failed.toNat)

/-- MEMORY (R286). Stage 4 trains and tests HBM; `fails` marks, per stack, the channels that fail. -/
def execStartMemory (fails : List (BitVec 32)) (s : State) : Result :=
  .next (memoryStage s (fails.map (·.toNat)))

/-- COMPUTE (R464). Stage 5; engines whose proof test fails, and what the proof tests of cores find. -/
def execStartCompute (bad : List EngineId) (cores : List (CoreId × CoreProof)) (s : State) : Result :=
  .next (computeStage s (bad.map (·.val)) (cores.map fun p => (p.1.val, p.2)))

end Sys2Proof.Machine
end

