-- ==== Sys2Proof/Machine/SecurityCmds.lean ====
section
/-!
DEFINITION. Commands of hub images, enrolment, attestation, the service port and the entropy source.
-/

namespace Sys2Proof.Machine


/-- BEGIN (R468). `FW_STAGE_CMD` is written with BEGIN. -/
def execFwBegin (s : State) : Result :=
  .next (ownWrite s Key.fwStageCmd 1)

/-- FW_STAGE_DATA (R468). `FW_STAGE_DATA` is written. -/
def execFwStageData (data : List Byte) (s : State) : Result :=
  .next (ownBlob s Key.fwStageData data)

/-- VERIFY (R468). `FW_STAGE_CMD` is written with VERIFY. -/
def execFwVerify (s : State) : Result :=
  .next (ownWrite s Key.fwStageCmd 2)

/-- VERIFY_DONE (R468). The verification of the staged image ends with the verdicts of both signatures. -/
def execFwVerifyDone (rsa slh : Bool) (s : State) : Result :=
  .next (verifyDone s rsa slh)

/-- ARM (R468). `FW_STAGE_CMD` is written with ARM. -/
def execFwArm (s : State) : Result :=
  .next (ownWrite s Key.fwStageCmd 3)

/-- CANCEL (R468). `FW_STAGE_CMD` is written with CANCEL. -/
def execFwCancel (s : State) : Result :=
  .next (ownWrite s Key.fwStageCmd 4)

/-- WATCHDOG_FALLBACK (R468). A new image has not reached stage 1 within 150 ms. -/
def execWatchdogFallback (puf : Bool) (s : State) : Result :=
  .next (watchdogFallback s puf)

/-- ENROL_GENERATE (R482). `ENROL_CMD` is written with GENERATE. -/
def execEnrolGenerate (s : State) : Result :=
  .next (ownWrite s Key.enrolCmd 1)

/-- ENROL_GENERATE_DONE (R482). Key generation completes. -/
def execEnrolGenerateDone (s : State) : Result :=
  .next (enrolGenerated s)

/-- INSTALL (R483). `ENROL_CMD` is written with INSTALL, through the mirror or from the field network (R443). -/
def execEnrolInstall (path : DictPath) (s : State) : Result :=
  .next (ownWrite s Key.enrolCmd 2 {} path)

/-- ENROL_CANCEL (R482). `ENROL_CMD` is written with CANCEL. -/
def execEnrolCancel (s : State) : Result :=
  .next (ownWrite s Key.enrolCmd 3)

/-- ATT_GENERATE (R489). `ATT_CMD` is written with GENERATE. -/
def execAttGenerate (s : State) : Result :=
  .next (ownWrite s Key.attCmd 1)

/-- REPORT_READY (R486). The security block finishes the signed work in front. -/
def execReportReady (s : State) : Result :=
  .next (reportReady s)

/-- GET_VERSION (R484). An SPDM GET_VERSION request. -/
def execGetVersion (s : State) : Result :=
  .next (spdmVersion s)

/-- GET_CAPABILITIES (R484). An SPDM GET_CAPABILITIES request. -/
def execGetCapabilities (s : State) : Result :=
  .next (spdmCapabilities s)

/-- NEGOTIATE_ALGORITHMS (R484). An SPDM NEGOTIATE_ALGORITHMS request. -/
def execNegotiateAlgorithms (s : State) : Result :=
  .next (spdmAlgorithms s)

/-- GET_DIGESTS (R484). An SPDM GET_DIGESTS request. -/
def execGetDigests (s : State) : Result :=
  .next (spdmDigests s)

/-- GET_CERTIFICATE (R484). An SPDM GET_CERTIFICATE request for part of the chain. -/
def execGetCertificate (off len : Nat) (s : State) : Result :=
  .next (spdmCertificate s off len)

/-- CHALLENGE (R484). An SPDM CHALLENGE request. -/
def execChallenge (s : State) : Result :=
  .next (spdmChallenge s)

/-- GET_MEASUREMENTS (R487). An SPDM GET_MEASUREMENTS request. -/
def execGetMeasurements (signed : Bool) (s : State) : Result :=
  .next (spdmMeasurements s signed)

/-- GET_PQ_SIGNATURE (R485). A GET_PQ_SIGNATURE request. -/
def execGetPqSignature (s : State) : Result :=
  .next (spdmPqSignature s)

/-- GET_PQ_CHAIN (R485). A GET_PQ_CHAIN request for part of the chain. -/
def execGetPqChain (off len : Nat) (s : State) : Result :=
  .next (spdmPqChain s off len)

/-- DOE_ABORT (R484). A DOE abort. -/
def execDoeAbort (s : State) : Result :=
  .next (doeAbort s)

/-- OPEN_REQUEST (R490). An open request through the TAP with the bits shifted in, or by a write of
`SERVICE_OPEN_CMD`. -/
def execOpenRequest (tap : Option (BitVec 32)) (s : State) : Result :=
  match tap with
  | none => .next (ownWrite s Key.serviceOpenCmd 1)
  | some v => .next (openRequest s (some v.toNat))

/-- ERASE_DONE (R490). The erase of the service port finishes. -/
def execEraseDone (s : State) : Result :=
  .next (eraseDone s)

/-- ENTROPY_FAIL (R481). A health test of the entropy source fails. -/
def execEntropyFail (s : State) : Result :=
  .next (entropyFail s)

/-- DRBG_RESEED (R481). The DRBG reseeds; `ok` says whether the health tests pass. -/
def execDrbgReseed (ok : Bool) (s : State) : Result :=
  .next (drbgReseed s ok)

end Sys2Proof.Machine
end

