-- ==== Sys2Proof/Machine/SnapshotCmds.lean ====
section
/-!
DEFINITION. Commands of marker waves, snapshots and debug cuts.
-/

namespace Sys2Proof.Machine


/-- MARKER_ARRIVAL (R32). A marker reaches an input of block `u` of unit kind `ut`, the last of its inputs when
`last`. -/
def execMarkerArrival (ut : Fin 8) (u : Fin 1024) (last : Bool) (s : State) : Result :=
  .next (cutCheck (markerArrival s ut.val u.val last))

/-- MARKER_ACK (R496). The hub receives the acknowledgement or null record of a block. -/
def execMarkerAck (ut : Fin 8) (u : Fin 1024) (s : State) : Result :=
  .next (markerAck s ut.val u.val)

/-- SNAP_TRIGGER (R498). `SNAP_TRIGGER` is written. -/
def execSnapTrigger (v : Byte) (s : State) : Result :=
  .next (ownWrite s Key.snapTrigger v.toNat)

/-- SNAP_IN (R498). A rising edge on SNAP_IN. -/
def execSnapIn (s : State) : Result :=
  .next (snapIn s)

/-- SNAP_OUT_PULSE_END (R500). The SNAP_OUT pulse ends. -/
def execSnapOutPulseEnd (s : State) : Result :=
  .next (snapOutEnd s)

/-- SNAP_RESUME (R501). `SNAP_RESUME` is written. -/
def execSnapResume (v : Byte) (s : State) : Result :=
  .next (ownWrite s Key.snapResume v.toNat)

end Sys2Proof.Machine
end

