-- ==== Sys2Proof/Machine/StrandCmds.lean ====
section
/-!
DEFINITION. Strand instructions (R209–R239): a sequencer executes the instruction at its PC. Each acts when the word
at the PC of the sequencer's strand is that instruction (log 43).
-/

namespace Sys2Proof.Machine

/-- LOOP: the register counts down, and the strand branches while it then holds something other than 0 (R210); s0 always
holds 0 (R206). -/
def loopInstr (s : State) (q : Nat) (st : Strand) (dst : Nat) (imm : BitVec 32) : State :=
  let st1 := st.setReg dst (st.reg dst - 1)
  if st1.reg dst ≠ 0 then goTo s q st1 (brTarget st.pc imm) else next s q st1

/-- KRD: the value of a knot of the strand's own die; that of a lost knot is a free value, and the strand is then held
(R365). A hold stops a strand before TIE, KSET and WAIT alone (R237). -/
def krdInstr (s : State) (q : Nat) (st : Strand) (n : Word) (dst : Nat) : State :=
  match knotOf s st n true with
  | none => endStrand s q 0x05
  | some (_, k) =>
    if knotLost s (seqDie q) k then
      let (x, s1) := drawFree s
      next s1 q { st.setReg dst (BitVec.ofNat 64 (x % 2 ^ 32)) with hold := some (st.hold.getD 1) }
    else next s q (st.setReg dst (BitVec.ofNat 64 (knotVal s (seqDie q) k)))

/-- SETI (R210). Sequencer `q` executes SETI. -/
def execSeti (q : SeqId) (dst : Fin 32) (imm : BitVec 32) (s : State) : Result :=
  .next (execWord s q.val (encWord 1 dst.val 0 0 0 imm.toNat) fun s1 st =>
    next s1 q.val (st.setReg dst.val (sextImm imm)))

/-- SETH (R210). Sequencer `q` executes SETH. -/
def execSeth (q : SeqId) (dst : Fin 32) (imm : BitVec 32) (s : State) : Result :=
  .next (execWord s q.val (encWord 2 dst.val 0 0 0 imm.toNat) fun s1 st =>
    next s1 q.val (st.setReg dst.val (BitVec.ofNat 64 (imm.toNat * 2 ^ 32 + (st.reg dst.val).toNat % 2 ^ 32))))

/-- ALU (R211). Sequencer `q` executes ALU with `FN` `fn`. -/
def execAlu (q : SeqId) (fn : Fin 14) (dst : Fin 32) (a : Fin 32) (b : Fin 32) (s : State) : Result :=
  .next (execWord s q.val (encWord 3 dst.val a.val b.val fn.val 0) fun s1 st =>
    next s1 q.val (st.setReg dst.val (aluOp fn.val (st.reg a.val) (st.reg b.val))))

/-- ALUI (R211). Sequencer `q` executes ALUI with `FN` `fn`. -/
def execAlui (q : SeqId) (fn : Fin 14) (dst : Fin 32) (a : Fin 32) (imm : BitVec 32) (s : State) : Result :=
  .next (execWord s q.val (encWord 4 dst.val a.val 0 fn.val imm.toNat) fun s1 st =>
    next s1 q.val (st.setReg dst.val (aluOp fn.val (st.reg a.val) (sextImm imm))))

/-- LD (R210). Sequencer `q` executes LD. -/
def execLd (q : SeqId) (dst : Fin 32) (a : Fin 32) (imm : BitVec 32) (s : State) : Result :=
  .next (execWord s q.val (encWord 5 dst.val a.val 0 0 imm.toNat) fun s1 st =>
    loadInstr s1 q.val st (st.reg a.val + sextImm imm) dst.val)

/-- ST (R210). Sequencer `q` executes ST. -/
def execSt (q : SeqId) (a : Fin 32) (b : Fin 32) (imm : BitVec 32) (s : State) : Result :=
  .next (execWord s q.val (encWord 6 0 a.val b.val 0 imm.toNat) fun s1 st =>
    storeInstr s1 q.val st (st.reg a.val + sextImm imm) (st.reg b.val))

/-- BR (R212). Sequencer `q` executes BR with condition `cond` (R212). -/
def execBr (q : SeqId) (cond : Fin 7) (a : Fin 32) (b : Fin 32) (imm : BitVec 32) (s : State) : Result :=
  .next (execWord s q.val (encWord 8 0 a.val b.val cond.val imm.toNat) fun s1 st =>
    if brCond cond.val (st.reg a.val) (st.reg b.val) then goTo s1 q.val st (brTarget st.pc imm) else next s1 q.val st)

/-- LOOP (R210). Sequencer `q` executes LOOP. -/
def execLoop (q : SeqId) (dst : Fin 32) (imm : BitVec 32) (s : State) : Result :=
  .next (execWord s q.val (encWord 9 dst.val 0 0 0 imm.toNat) fun s1 st => loopInstr s1 q.val st dst.val imm)

/-- JAL (R210). Sequencer `q` executes JAL. -/
def execJal (q : SeqId) (dst : Fin 32) (imm : BitVec 32) (s : State) : Result :=
  .next (execWord s q.val (encWord 10 dst.val 0 0 0 imm.toNat) fun s1 st =>
    goTo s1 q.val (st.setReg dst.val (st.pc + 8)) (brTarget st.pc imm))

/-- JR (R210). Sequencer `q` executes JR. -/
def execJr (q : SeqId) (a : Fin 32) (s : State) : Result :=
  .next (execWord s q.val (encWord 11 0 a.val 0 0 0) fun s1 st => goTo s1 q.val st (st.reg a.val))

/-- ISSUE (R225). Sequencer `q` executes ISSUE. -/
def execIssue (q : SeqId) (dst : Fin 32) (a : Fin 32) (imm : BitVec 32) (s : State) : Result :=
  .next (pump (execWord s q.val (encWord 16 dst.val a.val 0 0 imm.toNat) fun s1 st =>
    issueInstr s1 q.val st (st.reg a.val + sextImm imm) dst.val))

/-- SEALW_TAG (R228). Sequencer `q` executes SEALW with `FN`[0] = 0. -/
def execSealwTag (q : SeqId) (dst : Fin 32) (a : Fin 32) (s : State) : Result :=
  .next (execWord s q.val (encWord 17 dst.val a.val 0 0 0) fun s1 st =>
    sealTag s1 q.val st ((st.reg a.val).toNat % 2 ^ 32) dst.val)

/-- SEALW_ALL (R228). Sequencer `q` executes SEALW with `FN`[0] = 1. -/
def execSealwAll (q : SeqId) (dst : Fin 32) (a : Fin 32) (s : State) : Result :=
  .next (execWord s q.val (encWord 17 dst.val a.val 0 1 0) fun s1 st => sealAll s1 q.val st dst.val)

/-- TIE (R216). Sequencer `q` executes TIE; `FN`[9:0] is the increment, and 0 of it stands for srcb[31:0]; `FN`[10] is
`BCAST`. -/
def execTie (q : SeqId) (fn : Fin 2048) (a : Fin 32) (b : Fin 32) (imm : BitVec 32) (s : State) : Result :=
  .next (execWord s q.val (encWord 24 0 a.val b.val fn.val imm.toNat) fun s1 st =>
    knotInstr s1 q.val st (st.reg a.val + sextImm imm) (bitOf fn.val 10) false (if fn.val % 1024 = 0 then (st.reg b.val).toNat else fn.val % 1024))

/-- KSET (R216). Sequencer `q` executes KSET. -/
def execKset (q : SeqId) (bcast : Bool) (a : Fin 32) (b : Fin 32) (imm : BitVec 32) (s : State) : Result :=
  .next (execWord s q.val (encWord 27 0 a.val b.val (if bcast then 1024 else 0) imm.toNat) fun s1 st =>
    knotInstr s1 q.val st (st.reg a.val + sextImm imm) bcast true (st.reg b.val).toNat)

/-- WAIT (R215). Sequencer `q` executes WAIT. -/
def execWait (q : SeqId) (a : Fin 32) (b : Fin 32) (imm : BitVec 32) (s : State) : Result :=
  .next (execWord s q.val (encWord 25 0 a.val b.val 0 imm.toNat) fun s1 st =>
    waitInstr s1 q.val st (st.reg a.val + sextImm imm) ((st.reg b.val).toNat % 2 ^ 32))

/-- KRD (R210). Sequencer `q` executes KRD. -/
def execKrd (q : SeqId) (dst : Fin 32) (a : Fin 32) (imm : BitVec 32) (s : State) : Result :=
  .next (execWord s q.val (encWord 26 dst.val a.val 0 0 imm.toNat) fun s1 st =>
    krdInstr s1 q.val st (st.reg a.val + sextImm imm) dst.val)

/-- LADR (R210). Sequencer `q` executes LADR with `FN` `fn`. -/
def execLadr (q : SeqId) (fn : Fin 10) (dst : Fin 32) (a : Fin 32) (imm : BitVec 32) (s : State) : Result :=
  .next (execWord s q.val (encWord 32 dst.val a.val 0 fn.val imm.toNat) fun s1 st =>
    ladrInstr s1 q.val st (st.reg a.val + sextImm imm) fn.val dst.val)

/-- EVT (R210). Sequencer `q` executes EVT with code `code`. -/
def execEvt (q : SeqId) (a : Fin 32) (code : BitVec 16) (s : State) : Result :=
  .next (execWord s q.val (encWord 40 0 a.val 0 0 code.toNat) fun s1 st =>
    next (seqEvent s1 q.val st 0 code.toNat (st.reg a.val).toNat) q.val st)

/-- YIELD (R239). Sequencer `q` executes YIELD with `FN` 0. -/
def execYield (q : SeqId) (s : State) : Result :=
  .next (execWord s q.val (encWord 48 0 0 0 0 0) fun s1 st => yieldInstr s1 q.val st)

/-- YIELD_DONE (R213). Sequencer `q` executes YIELD with `FN` 1. -/
def execYieldDone (q : SeqId) (s : State) : Result :=
  .next (execWord s q.val (encWord 48 0 0 0 1 0) fun s1 _ => endStrand s1 q.val 0)

/-- YIELD with `FN` 2: the strand ends with ERROR; the sequencer keeps the code srca[15:0] that the end carries (log 68). -/
def yieldError (s : State) (q : Nat) (st : Strand) (a : Nat) : State :=
  let s1 := endStrand s q 0x07
  setSeq s1 q { getSeq s1 q with yieldCode := (st.reg a).toNat % 2 ^ 16 }

/-- YIELD_ERROR (R213). Sequencer `q` executes YIELD with `FN` 2. -/
def execYieldError (q : SeqId) (a : Fin 32) (s : State) : Result :=
  .next (execWord s q.val (encWord 48 0 a.val 0 2 0) fun s1 st => yieldError s1 q.val st a.val)

end Sys2Proof.Machine
end

