-- ==== Sys2Proof/Machine/WorkCmds.lean ====
section
/-!
DEFINITION. Commands of knots, boundaries, replies, operations and the selection of work.
-/

namespace Sys2Proof.Machine

/-- OPERATION_COMPLETE: the operation completes, and a restore may wait for it (R228, R354). -/
def completeOp (s : State) (k : Nat) : State :=
  match getOp s k with
  | none => s
  | some o =>
    if !o.finished then s
    else
      let s1 := operationComplete s k
      if s1.ck.rs.isSome then pump (spinComplete s1 k o.code) else s1

/-- LADDER_CONTROLLER_PASS: after a die reset since the last boundary every slot's records are lost (R463); a pass that is
made may start a freeze (R36 step 3), and a boundary that another job reached meanwhile comes next. -/
def controllerPass (s : State) (lost : List Nat) : State :=
  match s.swapJob with
  | none => s
  | some job =>
    match ladderPass s (if s.rst.tallyLost = 0 then lost else (getJob s job).active) with
    | (s1, false) => s1
    | (s1, true) => checkBoundary (pump (freezeBoundary { s1 with rst := { s1.rst with tallyLost := 0 } } job))


/-- KNOT_TIE (R215). The knot increment at position `pos` of those in flight arrives. -/
def execKnotTie (pos : Nat) (s : State) : Result :=
  .next (knotArrive s pos false)

/-- KNOT_SET (R215). The knot set at position `pos` of those in flight arrives. -/
def execKnotSet (pos : Nat) (s : State) : Result :=
  .next (knotArrive s pos true)

/-- TALLY_TABLE_SWAP (R184). The agent of die `d` swaps its tally tables. -/
def execTallyTableSwap (d : DieId) (s : State) : Result :=
  .next (tallySwap s d.val)

/-- LADDER_CONTROLLER_PASS (R199). The ladder controller processes the slots; `lost` names slots whose records cannot
be read (R180). -/
def execLadderControllerPass (lost : List Nat) (s : State) : Result :=
  .next (controllerPass s lost)

/-- REQUEST_REPLY (R458). The reply at position `pos` of those in flight reaches its requester. -/
def execRequestReply (pos : Nat) (s : State) : Result :=
  .next (anyReply s pos)

/-- OPERATION_COMPLETE (R228). The operation of number `op` completes. -/
def execOperationComplete (op : Nat) (s : State) : Result :=
  .next (completeOp s op)

/-- SEQUENCER_SELECT (R402). The free sequencer `q` chooses. -/
def execSequencerSelect (q : SeqId) (s : State) : Result :=
  .next (sequencerSelect s q.val)

end Sys2Proof.Machine
end

