-- ==== Sys2Proof/Machine/Dispatch.lean ====
section
/-!
DEFINITION. The dispatch: one arm per command, in the order of the table.
-/

namespace Sys2Proof.Machine

/-- The effect of a command on everything but the queue of pending commands. -/
def exec (i : Instr) (s : State) : Host.Outcome State Fault Refusal :=
  match i with
  | .arrayStep e hit => Sys2Proof.Machine.execArrayStep e hit s
  | .stationaryLoadDone e hit => Sys2Proof.Machine.execStationaryLoadDone e hit s
  | .checksumRowPass e hit => Sys2Proof.Machine.execChecksumRowPass e hit s
  | .tileRoundDone e hit => Sys2Proof.Machine.execTileRoundDone e hit s
  | .drainDone e => Sys2Proof.Machine.execDrainDone e s
  | .respinRequest e => Sys2Proof.Machine.execRespinRequest e s
  | .replayStagingDone e => Sys2Proof.Machine.execReplayStagingDone e s
  | .respinReport pos => Sys2Proof.Machine.execRespinReport pos s
  | .stormNotice u => Sys2Proof.Machine.execStormNotice u s
  | .stormRelease v => Sys2Proof.Machine.execStormRelease v s
  | .preemptionRequest e => Sys2Proof.Machine.execPreemptionRequest e s
  | .hardCapHold u => Sys2Proof.Machine.execHardCapHold u s
  | .hardCapRelease u => Sys2Proof.Machine.execHardCapRelease u s
  | .proofTest e fails core => Sys2Proof.Machine.execProofTest e fails core s
  | .hearthProofTest h lane hash => Sys2Proof.Machine.execHearthProofTest h lane hash s
  | .seti q dst imm => Sys2Proof.Machine.execSeti q dst imm s
  | .seth q dst imm => Sys2Proof.Machine.execSeth q dst imm s
  | .alu q fn dst a b => Sys2Proof.Machine.execAlu q fn dst a b s
  | .alui q fn dst a imm => Sys2Proof.Machine.execAlui q fn dst a imm s
  | .ld q dst a imm => Sys2Proof.Machine.execLd q dst a imm s
  | .st q a b imm => Sys2Proof.Machine.execSt q a b imm s
  | .br q cond a b imm => Sys2Proof.Machine.execBr q cond a b imm s
  | .loop q dst imm => Sys2Proof.Machine.execLoop q dst imm s
  | .jal q dst imm => Sys2Proof.Machine.execJal q dst imm s
  | .jr q a => Sys2Proof.Machine.execJr q a s
  | .issue q dst a imm => Sys2Proof.Machine.execIssue q dst a imm s
  | .sealwTag q dst a => Sys2Proof.Machine.execSealwTag q dst a s
  | .sealwAll q dst a => Sys2Proof.Machine.execSealwAll q dst a s
  | .tie q fn a b imm => Sys2Proof.Machine.execTie q fn a b imm s
  | .kset q bcast a b imm => Sys2Proof.Machine.execKset q bcast a b imm s
  | .wait q a b imm => Sys2Proof.Machine.execWait q a b imm s
  | .krd q dst a imm => Sys2Proof.Machine.execKrd q dst a imm s
  | .ladr q fn dst a imm => Sys2Proof.Machine.execLadr q fn dst a imm s
  | .evt q a code => Sys2Proof.Machine.execEvt q a code s
  | .yield q => Sys2Proof.Machine.execYield q s
  | .yieldDone q => Sys2Proof.Machine.execYieldDone q s
  | .yieldError q a => Sys2Proof.Machine.execYieldError q a s
  | .knotTie pos => Sys2Proof.Machine.execKnotTie pos s
  | .knotSet pos => Sys2Proof.Machine.execKnotSet pos s
  | .tallyTableSwap d => Sys2Proof.Machine.execTallyTableSwap d s
  | .ladderControllerPass lost => Sys2Proof.Machine.execLadderControllerPass lost s
  | .requestReply pos => Sys2Proof.Machine.execRequestReply pos s
  | .operationComplete op => Sys2Proof.Machine.execOperationComplete op s
  | .sequencerSelect q => Sys2Proof.Machine.execSequencerSelect q s
  | .doorbell v => Sys2Proof.Machine.execDoorbell v s
  | .entryFetchReturn queue host => Sys2Proof.Machine.execEntryFetchReturn queue host s
  | .copyComplete queue entry host => Sys2Proof.Machine.execCopyComplete queue entry host s
  | .enable queue => Sys2Proof.Machine.execEnable queue s
  | .disable queue => Sys2Proof.Machine.execDisable queue s
  | .flush queue => Sys2Proof.Machine.execFlush queue s
  | .resume queue entry => Sys2Proof.Machine.execResume queue entry s
  | .endStrand queue entry => Sys2Proof.Machine.execEndStrand queue entry s
  | .hifWinBaseWrite v whole => Sys2Proof.Machine.execHifWinBaseWrite v whole s
  | .bar0DiscardedWrite unlisted => Sys2Proof.Machine.execBar0DiscardedWrite unlisted s
  | .bar2Read off len => Sys2Proof.Machine.execBar2Read off len s
  | .bar2Write off data => Sys2Proof.Machine.execBar2Write off data s
  | .d3hotEntry => Sys2Proof.Machine.execD3hotEntry s
  | .d0Return => Sys2Proof.Machine.execD0Return s
  | .memoryRequest pos errs => Sys2Proof.Machine.execMemoryRequest pos errs s
  | .firstTouchCopyDone page => Sys2Proof.Machine.execFirstTouchCopyDone page s
  | .fetchAdd die wide addr v => Sys2Proof.Machine.execFetchAdd die wide addr v s
  | .compareSwap die addr expected new => Sys2Proof.Machine.execCompareSwap die addr expected new s
  | .remoteAccRequest pos hit => Sys2Proof.Machine.execRemoteAccRequest pos hit s
  | .hearthGroup op h hit => Sys2Proof.Machine.execHearthGroup op h hit s
  | .pageDigestDone u host => Sys2Proof.Machine.execPageDigestDone u host s
  | .channelFence h c => Sys2Proof.Machine.execChannelFence h c s
  | .islandClockLoss isl => Sys2Proof.Machine.execIslandClockLoss isl s
  | .scrubVisit h err => Sys2Proof.Machine.execScrubVisit h err s
  | .stackThermalLevel h reading => Sys2Proof.Machine.execStackThermalLevel h reading s
  | .feedCondition f r => Sys2Proof.Machine.execFeedCondition f r s
  | .powerFail => Sys2Proof.Machine.execPowerFail s
  | .coldStart => Sys2Proof.Machine.execColdStart s
  | .budgetWindowEnd a b clusters quiet => Sys2Proof.Machine.execBudgetWindowEnd a b clusters quiet s
  | .dampIdleExpiry c => Sys2Proof.Machine.execDampIdleExpiry c s
  | .clusterWake c => Sys2Proof.Machine.execClusterWake c s
  | .powerSmoulder => Sys2Proof.Machine.execPowerSmoulder s
  | .powerBanked => Sys2Proof.Machine.execPowerBanked s
  | .powerRun => Sys2Proof.Machine.execPowerRun s
  | .clusterThermalLevel c reading => Sys2Proof.Machine.execClusterThermalLevel c reading s
  | .trip c => Sys2Proof.Machine.execTrip c s
  | .lowVoltagePermitWrite v => Sys2Proof.Machine.execLowVoltagePermitWrite v s
  | .stepMonitorWindow counts => Sys2Proof.Machine.execStepMonitorWindow counts s
  | .eventRecordAccept pos ringFails => Sys2Proof.Machine.execEventRecordAccept pos ringFails s
  | .holdoffExpiry r => Sys2Proof.Machine.execHoldoffExpiry r s
  | .ringCiWrite r v => Sys2Proof.Machine.execRingCiWrite r v s
  | .tctlWrite t v => Sys2Proof.Machine.execTctlWrite t v s
  | .eoi t v => Sys2Proof.Machine.execEoi t v s
  | .evtHoldWrite v => Sys2Proof.Machine.execEvtHoldWrite v s
  | .groupDefWrite g v => Sys2Proof.Machine.execGroupDefWrite g v s
  | .msiXEnable enable funcMask => Sys2Proof.Machine.execMsiXEnable enable funcMask s
  | .vectorUnmask v => Sys2Proof.Machine.execVectorUnmask v s
  | .localOccurrence pos => Sys2Proof.Machine.execLocalOccurrence pos s
  | .ecForward ctl => Sys2Proof.Machine.execEcForward ctl s
  | .maskWrite ctl v => Sys2Proof.Machine.execMaskWrite ctl v s
  | .pendWrite ctl v => Sys2Proof.Machine.execPendWrite ctl v s
  | .ecLockWrite d v => Sys2Proof.Machine.execEcLockWrite d v s
  | .ra peer port f => Sys2Proof.Machine.execRa peer port f s
  | .gather peer port f => Sys2Proof.Machine.execGather peer port f s
  | .ack peer port f => Sys2Proof.Machine.execAck peer port f s
  | .nak peer port f => Sys2Proof.Machine.execNak peer port f s
  | .ashNak peer port f => Sys2Proof.Machine.execAshNak peer port f s
  | .heartbeat peer port f => Sys2Proof.Machine.execHeartbeat peer port f s
  | .goingDown peer port f => Sys2Proof.Machine.execGoingDown peer port f s
  | .heatHold peer port f => Sys2Proof.Machine.execHeatHold peer port f s
  | .marker peer port f => Sys2Proof.Machine.execMarker peer port f s
  | .page peer port f => Sys2Proof.Machine.execPage peer port f s
  | .pairReq peer port f => Sys2Proof.Machine.execPairReq peer port f s
  | .pairAck peer port f => Sys2Proof.Machine.execPairAck peer port f s
  | .pairRefuse peer port f => Sys2Proof.Machine.execPairRefuse peer port f s
  | .freezeBegin peer port f => Sys2Proof.Machine.execFreezeBegin peer port f s
  | .beginAck peer port f => Sys2Proof.Machine.execBeginAck peer port f s
  | .digests peer port f => Sys2Proof.Machine.execDigests peer port f s
  | .freezeEnd peer port f => Sys2Proof.Machine.execFreezeEnd peer port f s
  | .endAck peer port f => Sys2Proof.Machine.execEndAck peer port f s
  | .refuse peer port f => Sys2Proof.Machine.execRefuse peer port f s
  | .abandon peer port f => Sys2Proof.Machine.execAbandon peer port f s
  | .restoreReq peer port f => Sys2Proof.Machine.execRestoreReq peer port f s
  | .digestReq peer port f => Sys2Proof.Machine.execDigestReq peer port f s
  | .unavailable peer port f => Sys2Proof.Machine.execUnavailable peer port f s
  | .abort peer port f => Sys2Proof.Machine.execAbort peer port f s
  | .heartbeatSend peer port => Sys2Proof.Machine.execHeartbeatSend peer port s
  | .pathSilenceTimeout peer port => Sys2Proof.Machine.execPathSilenceTimeout peer port s
  | .cordRtoExpiry peer port ch => Sys2Proof.Machine.execCordRtoExpiry peer port ch s
  | .cordRnrWaitExpiry peer port ch => Sys2Proof.Machine.execCordRnrWaitExpiry peer port ch s
  | .ackTimer peer port ch => Sys2Proof.Machine.execAckTimer peer port ch s
  | .collTimeout post => Sys2Proof.Machine.execCollTimeout post s
  | .heatHoldRepeat => Sys2Proof.Machine.execHeatHoldRepeat s
  | .heatHoldLimit post => Sys2Proof.Machine.execHeatHoldLimit post s
  | .abortAgeing post => Sys2Proof.Machine.execAbortAgeing post s
  | .portStateChange port up => Sys2Proof.Machine.execPortStateChange port up s
  | .cordPeerCountWrite v => Sys2Proof.Machine.execCordPeerCountWrite v s
  | .markerArrival ut u last => Sys2Proof.Machine.execMarkerArrival ut u last s
  | .markerAck ut u => Sys2Proof.Machine.execMarkerAck ut u s
  | .freezeNow v => Sys2Proof.Machine.execFreezeNow v s
  | .partnerHolderWrite v => Sys2Proof.Machine.execPartnerHolderWrite v s
  | .partnerOfWrite v => Sys2Proof.Machine.execPartnerOfWrite v s
  | .restoreStart hostList => Sys2Proof.Machine.execRestoreStart hostList s
  | .restoreAbort => Sys2Proof.Machine.execRestoreAbort s
  | .faultMessage pos => Sys2Proof.Machine.execFaultMessage pos s
  | .emberCreditReturn src => Sys2Proof.Machine.execEmberCreditReturn src s
  | .hubInternalFault sub lost => Sys2Proof.Machine.execHubInternalFault sub lost s
  | .faultInject v => Sys2Proof.Machine.execFaultInject v s
  | .alertAck v => Sys2Proof.Machine.execAlertAck v s
  | .engineUnretire v => Sys2Proof.Machine.execEngineUnretire v s
  | .read t => Sys2Proof.Machine.execRead t s
  | .write t x => Sys2Proof.Machine.execWrite t x s
  | .discover d => Sys2Proof.Machine.execDiscover d s
  | .discoverDelayExpiry => Sys2Proof.Machine.execDiscoverDelayExpiry s
  | .duplicateAddressDetection conflict => Sys2Proof.Machine.execDuplicateAddressDetection conflict s
  | .mbxDoorbell v buf => Sys2Proof.Machine.execMbxDoorbell v buf s
  | .directMapWrite off v whole => Sys2Proof.Machine.execDirectMapWrite off v whole s
  | .entryWrite field key type data => Sys2Proof.Machine.execEntryWrite field key type data s
  | .dictCommit v => Sys2Proof.Machine.execDictCommit v s
  | .commitComplete e => Sys2Proof.Machine.execCommitComplete e s
  | .dictLoadDefaults => Sys2Proof.Machine.execDictLoadDefaults s
  | .dictLoadDefaultsCommit => Sys2Proof.Machine.execDictLoadDefaultsCommit s
  | .mrstNAssert => Sys2Proof.Machine.execMrstNAssert s
  | .mrstNRelease => Sys2Proof.Machine.execMrstNRelease s
  | .perstAssert => Sys2Proof.Machine.execPerstAssert s
  | .perstDeassert => Sys2Proof.Machine.execPerstDeassert s
  | .flr => Sys2Proof.Machine.execFlr s
  | .resetModule => Sys2Proof.Machine.execResetModule s
  | .resetDie => Sys2Proof.Machine.execResetDie s
  | .resetCluster agent => Sys2Proof.Machine.execResetCluster agent s
  | .resetCore => Sys2Proof.Machine.execResetCore s
  | .quench pos => Sys2Proof.Machine.execQuench pos s
  | .quenchNotice pos h => Sys2Proof.Machine.execQuenchNotice pos h s
  | .quenchAck pos faulty => Sys2Proof.Machine.execQuenchAck pos faulty s
  | .quenchRelease pos => Sys2Proof.Machine.execQuenchRelease pos s
  | .dieResetDone d => Sys2Proof.Machine.execDieResetDone d s
  | .boot b puf => Sys2Proof.Machine.execBoot b puf s
  | .startDies failed => Sys2Proof.Machine.execStartDies failed s
  | .startMemory fails => Sys2Proof.Machine.execStartMemory fails s
  | .startCompute bad cores => Sys2Proof.Machine.execStartCompute bad cores s
  | .fwBegin => Sys2Proof.Machine.execFwBegin s
  | .fwStageData data => Sys2Proof.Machine.execFwStageData data s
  | .fwVerify => Sys2Proof.Machine.execFwVerify s
  | .fwVerifyDone rsa slh => Sys2Proof.Machine.execFwVerifyDone rsa slh s
  | .fwArm => Sys2Proof.Machine.execFwArm s
  | .fwCancel => Sys2Proof.Machine.execFwCancel s
  | .watchdogFallback puf => Sys2Proof.Machine.execWatchdogFallback puf s
  | .enrolGenerate => Sys2Proof.Machine.execEnrolGenerate s
  | .enrolGenerateDone => Sys2Proof.Machine.execEnrolGenerateDone s
  | .enrolInstall path => Sys2Proof.Machine.execEnrolInstall path s
  | .enrolCancel => Sys2Proof.Machine.execEnrolCancel s
  | .attGenerate => Sys2Proof.Machine.execAttGenerate s
  | .reportReady => Sys2Proof.Machine.execReportReady s
  | .getVersion => Sys2Proof.Machine.execGetVersion s
  | .getCapabilities => Sys2Proof.Machine.execGetCapabilities s
  | .negotiateAlgorithms => Sys2Proof.Machine.execNegotiateAlgorithms s
  | .getDigests => Sys2Proof.Machine.execGetDigests s
  | .getCertificate off len => Sys2Proof.Machine.execGetCertificate off len s
  | .challenge => Sys2Proof.Machine.execChallenge s
  | .getMeasurements signed => Sys2Proof.Machine.execGetMeasurements signed s
  | .getPqSignature => Sys2Proof.Machine.execGetPqSignature s
  | .getPqChain off len => Sys2Proof.Machine.execGetPqChain off len s
  | .doeAbort => Sys2Proof.Machine.execDoeAbort s
  | .openRequest tap => Sys2Proof.Machine.execOpenRequest tap s
  | .eraseDone => Sys2Proof.Machine.execEraseDone s
  | .entropyFail => Sys2Proof.Machine.execEntropyFail s
  | .drbgReseed ok => Sys2Proof.Machine.execDrbgReseed ok s
  | .snapTrigger v => Sys2Proof.Machine.execSnapTrigger v s
  | .snapIn => Sys2Proof.Machine.execSnapIn s
  | .snapOutPulseEnd => Sys2Proof.Machine.execSnapOutPulseEnd s
  | .snapResume v => Sys2Proof.Machine.execSnapResume v s
  | .vectorPart op core hit => Sys2Proof.Machine.execVectorPart op core hit s
  | .bar2Resize n => Sys2Proof.Machine.execBar2Resize n s
  | .pcieCompletionTimeout queue copy => Sys2Proof.Machine.execPcieCompletionTimeout queue copy s
  | .pcieLinkTraining rate width => Sys2Proof.Machine.execPcieLinkTraining rate width s
  | .badCommand strand cmd entry queue => Sys2Proof.Machine.execBadCommand strand cmd entry queue s
  | .cordFrameDrop f => Sys2Proof.Machine.execCordFrameDrop f s
  | .neighborSolicitation src => Sys2Proof.Machine.execNeighborSolicitation src s
  | .echoRequest src data => Sys2Proof.Machine.execEchoRequest src data s
  | .fieldLinkStateChange up => Sys2Proof.Machine.execFieldLinkStateChange up s
  | .dieLinkCrcError p twice => Sys2Proof.Machine.execDieLinkCrcError p twice s
  | .coolantInletReading inlet outlet => Sys2Proof.Machine.execCoolantInletReading inlet outlet s
  | .feedVoltageCrossover a b => Sys2Proof.Machine.execFeedVoltageCrossover a b s

end Sys2Proof.Machine
end

