-- ==== Sys2Proof/Safety.lean ====
section
/-!
DEFINITION. What holds of every run of the block, in the terms that claims use.
-/

namespace Sys2Proof.Machine

/-- Memory is in its canonical form: addresses strictly rising, no cell that holds what an unlisted byte reads as. -/
abbrev State.memOk (s : State) : Prop := Memory.wf s.mem.cells = true

/-- Keys strictly rising from at least `lo`, and no entry listed that is at its default. -/
def dictWfFrom : Nat → Tab Nat → Bool
  | _, [] => true
  | lo, (k, v) :: r => decide (lo ≤ k) && decide (v ≠ dictDefault k) && dictWfFrom (k + 1) r

/-- The dictionary is in its canonical form. -/
abbrev State.dictOk (s : State) : Prop := dictWfFrom 0 s.dict = true

/-- The counts of the identity block's wear record are within their entries' widths: commits U32, openings U16 (R454,
R490). -/
abbrev State.wearOk (s : State) : Prop := s.flash.commits < 2 ^ 32 ∧ s.flash.openCount < 2 ^ 16

/-- A write of a value through the mirror to an entry of its own meets every condition that R426–R430 and R443 set before the
write has its effect. -/
def mayWrite (s : State) (key v : Nat) : Prop :=
  dictServed s = true ∧
    writeStatus s .mirror key (((findMeta key).map EMeta.ty).getD ETy.u8).code
      (leBytes (((findMeta key).map EMeta.ty).getD ETy.u8).bytes v) = 0

/-- A command answers a next state, this one. -/
abbrev Completes (i : Instr) (s t : State) : Prop := exec i s = .next t

/-- Every byte of memory reads as before. -/
def sameMemory (s t : State) : Prop := ∀ a, peek t.mem a = peek s.mem a

end Sys2Proof.Machine
end

