-- ==== Sys2Proof/Certificates/Slice0/Obligations.lean ====
section
/-!
DEFINITION. The statements for the provers: rules of the spec and whole-machine properties, over every state and
operands that meet the hypotheses written out.
-/

open Sys2Proof Sys2Proof.Machine

/-! ### The machine as a whole -/

/-- A step takes the command at the front of the queue and carries it out with the queue's rest; with no command pending the
block idles (the model's choice, log 1). -/
def Obligations.StepRunsFrontCommand : Prop :=
  (∀ (c : Instr) (r : List Instr) (s : State), s.pending = c :: r → step s = exec c { s with pending := r }) ∧
  ∀ s : State, s.pending = [] → step s = .next s

/-- Every command in every state leaves a next state: no command is refused or stops the block. No command changes the queue of
waiting commands. -/
def Obligations.CommandsAnswerAndLeaveTheQueue : Prop :=
  (∀ (c : Instr) (s : State), ∃ t, exec c s = .next t) ∧
  (∀ (c : Instr) (s t : State), exec c s = .next t → t.pending = s.pending)

/-- Every step keeps memory in its canonical form: addresses strictly rising, and no cell listed that holds what an
unlisted byte reads as. -/
def Obligations.StepKeepsMemoryCanonical : Prop :=
  ∀ s t : State, s.memOk → step s = .next t → t.memOk

/-- Every step keeps the dictionary in its canonical form: keys strictly rising, and no entry listed at its default. -/
def Obligations.StepKeepsDictionaryCanonical : Prop :=
  ∀ s t : State, s.dictOk → step s = .next t → t.dictOk

/-- The counts of the identity block's wear record, commits (`DICT_COMMITS`) and openings of the service port (`OPEN_COUNT`),
stay within their widths and never go back, whatever the command: no reset, power fail or erase lowers them. -/
def Obligations.WearCountsNeverFall : Prop :=
  ∀ s t : State, s.wearOk → step s = .next t →
    t.wearOk ∧ s.flash.commits ≤ t.flash.commits ∧ s.flash.openCount ≤ t.flash.openCount

/-- The state after reset has what every step keeps. -/
def Obligations.ResetIsCanonical : Prop :=
  State.reset.memOk ∧ State.reset.dictOk ∧ State.reset.wearOk ∧ State.reset.pending = []

/-! ### The engine array -/

/-- No fault finds the engine, and nothing asks it to stop: no injection is armed, and no pre-emption is in force. -/
def Sys2Proof.Machine.engineQuiet (s : State) (e : EngineId) : Prop :=
  engineOn s e.val = true ∧ s.flt.armed = [] ∧ (getEng s e.val).preempt = false

/-- ARRAY_STEP streams the next row of the chunk in progress (R43), STATIONARY_LOAD_DONE loads the next slice into the idle
buffer and moves on to the slice after it (R151), and CHECKSUM_ROW_PASS seals the chunk whose row check passes (R162, R172):
each in an engine that is on, with no fault found. -/
def Obligations.ChunkCommandsComplete : Prop :=
  (∀ (s s2 : State) (e : EngineId) (t t1 : TileRun) (o : OpRec) (c : Chunk) (x : Feed) (outs : List ColOut), engineQuiet s e →
    (getEng s e.val).cur = some t → getOp s t.op = some o → t.cur = some c → c.next < c.rows →
    feedX s o t (dieOfEng e.val) ((o.box t.tile).m0 + (c.m0 + c.next)) (192 * c.buf.slice) c.buf.rows.length =
      (.ok (x, t1), s2) →
    x.misaligned = false →
    outs = (List.range (passBox (o.box t.tile) (o.formats t.rung) c.buf.pass).2.2.2).map
      (columnOut (o.formats t.rung) o.fine c.buf x) →
    rowChecks o t1 c x outs (streamRow o t1 c x outs).1.bank = none →
    ∃ u t2 c1 drag, Completes (.arrayStep e none) s u ∧ streamRow o t1 c x outs = (t2, c1, drag) ∧
      c1.next = c.next + 1 ∧ (getEng u e.val).cur = some (t2.putChunk c1)) ∧
  (∀ (s s2 : State) (e : EngineId) (t t1 : TileRun) (o : OpRec) (fs : List Feed), engineQuiet s e →
    (getEng s e.val).cur = some t → getOp s t.op = some o → t.phase = .running → t.loadPass < tilePassCount o t →
    o.gemm.slices ≠ 0 → t.buffers < 2 →
    feedCols s o t (dieOfEng e.val) (sliceLines o t).1 (sliceLines o t).2.1 (sliceLines o t).2.2 = (.ok (fs, t1), s2) →
    fs.any (·.misaligned) = false →
    ∃ u t2 b, Completes (.stationaryLoadDone e none) s u ∧ (getEng u e.val).cur = some t2 ∧ t2.bufs = t.bufs ++ [b] ∧
      b.pass = t.loadPass ∧ b.slice = t.loadSlice ∧ t2.staged = t1.staged ∧
      (t2.loadPass, t2.loadSlice) = nextSlice o.gemm.slices t.loadPass t.loadSlice) ∧
  (∀ (s : State) (e : EngineId) (t : TileRun) (o : OpRec) (c : Chunk), engineQuiet s e →
    (getEng s e.val).cur = some t → t.sealing = some c → getOp s t.op = some o → c.cap = none → o.gemm.slices ≠ 0 →
    c.buf.parityOk = true → rowCheck c (o.tol (o.formats t.rung)) = true →
    ∃ u t1, Completes (.checksumRowPass e none) s u ∧ (getEng u e.val).cur = some t1 ∧ t1.sealed = t.sealed + 1 ∧
      (getEng u e.val).seals = (getEng s e.val).seals + (if lastChunk o t c then 0 else 1))

/-- TILE_ROUND_DONE rounds a tile all of whose chunks are done and, when no check asks for a re-spin, sends it to its drain
with the rounded outputs (R170, R171); DRAIN_DONE writes the oldest draining tile to memory, and the engine has one tile
more to its count (R171, R377). -/
def Obligations.TileCommandsComplete : Prop :=
  (∀ (s : State) (e : EngineId) (t : TileRun) (o : OpRec) (y : Tensor), engineQuiet s e →
    (getEng s e.val).cur = some t → getOp s t.op = some o → t.phase = .running → t.chunksDone o = true →
    outputResidues o t = true → o.gemm.slices ≠ 0 → o.y = some y → respinAsk o t (numericChecks o t) (stormTold s (coreOfEng e.val)) = .drain →
    ∃ u d, Completes (.tileRoundDone e none) s u ∧ (getEng u e.val).cur = none ∧
      (getEng u e.val).drains = (getEng s e.val).drains ++ [d] ∧ d.out = some (roundTile o t y).1 ∧ d.tile = t.tile ∧
      d.failed = numericChecks o t) ∧
  (∀ (s s1 : State) (e : EngineId) (t : TileRun) (r : List TileRun) (o : OpRec) (y : Tensor) (out : List (Nat × Nat)),
    engineOn s e.val = true → (getEng s e.val).drains = t :: r → getOp s t.op = some o → o.y = some y → t.out = some out →
    writeMany s (opVia o (some (dieOfEng e.val))) false (drainWrites y out) = (none, s1) →
    ∃ u, Completes (.drainDone e) s u ∧ u.mem = s1.mem ∧ (getEng u e.val).drains = r ∧
      (getEng u e.val).tiles = (getEng s e.val).tiles + 1)

/-- Re-spins (R193): a request with room for its replay allocation is staged and reported; staging that is no scale refresh holds
both operands in the format of the target rung, and starts the tile again there. A re-spin request in a storm, or with no room, is turned away: the tile drains as it is
(R192, R193, R194). -/
def Obligations.RespinCommandsComplete : Prop :=
  (∀ (s : State) (e : EngineId) (t : TileRun) (o : OpRec), engineOn s e.val = true → (getEng s e.val).cur = some t →
    getOp s t.op = some o → t.phase = .respinWait → s.storm.active = false →
    replayUsed s (dieOfEng e.val) + (replaySize o t t.target - t.replay) ≤ replayArena s → dget s Key.replayArenaMib ≠ 0 →
    ∃ u t1, Completes (.respinRequest e) s u ∧
      u.reports = s.reports ++ [{ job := o.job, slot := slotField o, noFit := false }] ∧
      (getEng u e.val).cur = some t1 ∧ t1.phase = .staging ∧ t1.replay = t.replay + (replaySize o t t.target - t.replay)) ∧
  (∀ (s s1 : State) (e : EngineId) (t r : TileRun) (o : OpRec) (gs : List Staged), engineOn s e.val = true →
    (getEng s e.val).cur = some t → getOp s t.op = some o → t.phase = .staging → t.refresh = false →
    r = { t.restart with rung := t.target, respun := decide (t.target > o.rung) } →
    stageLines s o r (dieOfEng e.val) (tileLines o r) = (.ok gs, s1) →
    ∃ u t1, Completes (.replayStagingDone e) s u ∧ (getEng u e.val).cur = some t1 ∧ t1.phase = .running ∧
      t1.rung = t.target ∧ t1.staged = gs ∧ t1.loadPass = 0 ∧ t1.loadSlice = 0 ∧ t1.bufs = [] ∧ t1.bank = []) ∧
  (∀ (s : State) (e : EngineId) (t : TileRun) (o : OpRec), engineOn s e.val = true → (getEng s e.val).cur = some t →
      getOp s t.op = some o → t.phase = .respinWait →
      (s.storm.active = true ∨ replayArena s < replayUsed s (dieOfEng e.val) + (replaySize o t t.target - t.replay) ∨
        dget s Key.replayArenaMib = 0) →
      ∃ u d, Completes (.respinRequest e) s u ∧ (getEng u e.val).cur = none ∧
        (getEng u e.val).drains = (getEng s e.val).drains ++ [d] ∧ d.out = t.out ∧ d.tile = t.tile)

/-- Storms (R196, R197): a report of an allocation that did not fit declares a storm for its job, with `STORM_ACTIVE` set; a
report of a slot is counted in its training step; a notice tells its core; and the host's release ends the hold that waits
for it, by DISCARD (0) or APPLY (1). -/
def Obligations.StormCommandsComplete : Prop :=
  (∀ (s : State) (pos : Nat) (r : Report), s.dictOk → s.reports[pos]? = some r → r.noFit = true → s.storm.active = false →
    ∃ u, Completes (.respinReport pos) s u ∧ u.reports = dropAt pos s.reports ∧ u.storm.active = true ∧
      u.storm.job = r.job ∧ dget u Key.stormActive = 1) ∧
  (∀ (s : State) (pos : Nat) (r : Report), s.reports[pos]? = some r → r.noFit = false → s.storm.active = true →
    ∃ u, Completes (.respinReport pos) s u ∧ u.reports = dropAt pos s.reports ∧ u.storm = s.storm ∧
      (getJob u r.job).respun = sinsert r.slot (getJob s r.job).respun) ∧
  (∀ (s : State) (k : Fin 276), s.storm.active = true →
    Completes (.stormNotice k) s { s with storm := { s.storm with told := sinsert k.val s.storm.told } }) ∧
  (∀ (s : State) (v : Byte), mayWrite s Key.stormRelease v.toNat → stormWaits s = true → v.toNat ≤ 1 →
    ∃ u, Completes (.stormRelease v) s u ∧ u.storm = { s.storm with hold := .none, discard := v.toNat == 0 })

/-- A pre-emption request stands until no chunk streams or awaits its seal, and then puts the tile aside (R174); hard-cap holds
and releases set and clear the hold of an engine or hearth (R176). Proof tests (R377, R378): due after `PROOF_TILES` tiles or
`PROOF_GROUPS` groups, a test that passes starts the count again; one that fails is a latent fault: an engine is retired, a
lane is retired, a failed hash lane is remembered. -/
def Obligations.HoldsAndProofTestsComplete : Prop :=
  (∀ (s : State) (e : EngineId) (t : TileRun) (o : OpRec), engineOn s e.val = true → (getEng s e.val).cur = some t →
    getOp s t.op = some o → (t.cur.isSome = true ∨ t.sealing.isSome = true) →
    ∃ u, Completes (.preemptionRequest e) s u ∧ (getEng u e.val).preempt = true ∧ (getEng u e.val).cur = some t) ∧
  (∀ (s : State) (e : EngineId) (t : TileRun) (o : OpRec), engineOn s e.val = true → (getEng s e.val).cur = some t →
    getOp s t.op = some o → t.cur = none → t.sealing = none → t.chunksDone o = false →
    ∃ u, Completes (.preemptionRequest e) s u ∧ (getEng u e.val).preempt = false ∧ (getEng u e.val).cur = none ∧
      (getEng u e.val).saved.map (fun v : TileRun => { v with spilled := false }) =
        ((getEng s e.val).saved ++ [{ t.rewind with order := nextOrder s (e.val / 4) }]).map
          fun v : TileRun => { v with spilled := false }) ∧
  (∀ (s : State) (e : EngineId) (m : EmberMsg), s.flt.hubFault = false → s.rst.off = false →
    emberArrival s (.cap e.val true) = some m →
    ∃ u, Completes (.hardCapHold (.engine e)) s u ∧ (getEng u e.val).capHold = true) ∧
  (∀ (s : State) (e : EngineId), s.flt.hubFault = true ∨ s.rst.off = true →
    ∃ u, Completes (.hardCapHold (.engine e)) s u ∧ (getEng u e.val).capHold = true) ∧
  (∀ (s : State) (h : HearthId), s.flt.hubFault = true →
    Completes (.hardCapHold (.hearth h)) s { s with pw := { s.pw with hearthHold := setBit s.pw.hearthHold h.val true } }) ∧
  (∀ (s : State) (e : EngineId) (m : EmberMsg), s.flt.hubFault = false → s.rst.off = false →
    emberArrival s (.cap e.val false) = some m →
    Completes (.hardCapRelease (.engine e)) s (takeTile (capHoldEngine (takeEmber s m) e.val false) e.val)) ∧
  (∀ (s : State) (h : HearthId), s.flt.hubFault = false → s.rst.off = false →
    Completes (.hardCapRelease (.hearth h)) s { s with pw := { s.pw with hearthHold := setBit s.pw.hearthHold h.val false } }) ∧
  (∀ (s : State) (e : EngineId), engineOn s e.val = true → proofDue s e.val = true → (getEng s e.val).cur = none →
    s.flt.hubFault = false → (getEng s e.val).todo = [] → e.val % 4 ≠ 0 → (getEng s e.val).retired = false →
    ∃ u, Completes (.proofTest e true {}) s u ∧ (getEng u e.val).retired = true ∧
      dget u Key.proofFails = satAdd (2 ^ 32 - 1) (dget s Key.proofFails) 1) ∧
  (∀ (s : State) (h : HearthId), hearthProofDue s h.val = true → s.flt.hubFault = false →
    Completes (.hearthProofTest h none false) s { s with flt := { s.flt with groups := tset 0 s.flt.groups h.val 0 } }) ∧
  (∀ (s : State) (h : HearthId), hearthProofDue s h.val = true → s.flt.hubFault = false →
    ∃ u, Completes (.hearthProofTest h none true) s u ∧ h.val ∈ u.flt.badHash)


/-- The frame of the engine commands (R43, R151, R162, R171, R174, R193, R377): whatever the engine does, strands, knots, queues, the
Cord, generators, resets, flash, security, the dictionary's paths and snapshots stay as they are, and nothing leaves the module. -/
def Obligations.EngineCommandsFrame : Prop :=
  ∀ (s t : State) (i : Instr) (e : EngineId) (h : Option (Mech × Nat × Nat)) (m : Option Mech) (b : Bool) (c : CoreProof),
    i ∈ [.arrayStep e h, .stationaryLoadDone e m, .checksumRowPass e m, .tileRoundDone e m, .drainDone e, .respinRequest e,
      .replayStagingDone e, .preemptionRequest e, .proofTest e b c] → exec i s = .next t →
    t.seqs = s.seqs ∧ t.saved = s.saved ∧ t.knots = s.knots ∧ t.knotq = s.knotq ∧ t.q = s.q ∧ t.cord = s.cord ∧ t.gens = s.gens ∧
      t.raq = s.raq ∧ t.rst = s.rst ∧ t.flash = s.flash ∧ t.sec = s.sec ∧ t.dsys = s.dsys ∧ t.snap = s.snap ∧ t.out = s.out ∧
      t.heldHost = s.heldHost

/-! ### Strands -/

/-- The strand of sequencer `q` stands at the instruction word `w` and can execute it: its unit runs, it waits for nothing, it
is not stopped, and no injected fault waits for anyone. -/
def Sys2Proof.Machine.atWord (s : State) (q : SeqId) (st : Strand) (w : Nat) : Prop :=
  getStrand s q.val = some st ∧ seqRuns s q.val = true ∧ st.wait = .none ∧ st.stopped = false ∧ st.word = some w ∧
    s.flt.armed = []

/-- R206: a work item's strand starts with its program's address as PC, the entry's arguments in s1–s4, the job descriptor's
address in s31, and 0 in every other register; s0 reads as 0 and a write to it is discarded. -/
def Obligations.StrandStarts : Prop :=
  (∀ (s : State) (q : SeqId) (w : WorkItem), w.program < 2 ^ 64 →
    ∃ st : Strand, startOn s q.val w = arrive (setStrand s q.val (some st)) q.val ∧ st.pc.toNat = w.program ∧
      st.tags = [] ∧ st.wait = .none ∧ st.job = w.job ∧ st.queue = w.queue ∧ st.entry = w.entry ∧ ∀ r, r < 32 →
        st.reg r = if 1 ≤ r ∧ r ≤ 4 then BitVec.ofNat 64 (w.args.getD (r - 1) 0)
          else if r = 31 then BitVec.ofNat 64 w.job else 0) ∧
  (∀ (st : Strand) (v : Word) (r : Nat), st.reg 0 = 0 ∧ (st.setReg 0 v).reg r = st.reg r) ∧
  (∀ (st : Strand) (v : Word) (r k : Nat), r ≠ 0 → v ≠ 0 →
    (st.setReg r v).reg r = v ∧ (k ≠ r → (st.setReg r v).reg k = st.reg k))

/-- A strand that reaches a PC: at a misaligned one it ends with ALIGN, at an illegal word with ILLEGAL; at a legal word in its
buffer it stands there, the buffer's atoms the same; else it asks for the 64-byte atom and waits (R207, R209, R213). -/
def Obligations.StrandReachesPc : Prop :=
  (∀ (s : State) (q : SeqId) (st : Strand), getStrand s q.val = some st → st.pc.toNat % 8 ≠ 0 →
    arrive s q.val = endStrand s q.val 0x03) ∧
  (∀ (s : State) (q : SeqId) (st : Strand) (w : Nat), getStrand s q.val = some st → st.pc.toNat % 8 = 0 →
    st.word = some w → legalWord w = false → arrive s q.val = endStrand s q.val 0x02) ∧
  (∀ (s : State) (q : SeqId) (st : Strand) (w : Nat), getStrand s q.val = some st → st.pc.toNat % 8 = 0 →
    st.word = some w → legalWord w = true →
    ∃ l, l.length = st.ibuf.length ∧ (∀ p, p ∈ l ↔ p ∈ st.ibuf) ∧
      arrive s q.val = setStrand s q.val (some { st with ibuf := l })) ∧
  (∀ (s : State) (q : SeqId) (st : Strand), getStrand s q.val = some st → st.pc.toNat % 8 = 0 → st.word = none →
    arrive s q.val = seqRequest (setStrand s q.val (some { st with wait := .fetch (st.pc.toNat / 64) })) q.val
      (st.pc.toNat / 64 * 64) 64 none)

/-- R212: the conditions of BR, and condition 7 is illegal. -/
def Obligations.BranchConditions : Prop :=
  ∀ a b : Word,
    brCond 0 a b = true ∧ (brCond 1 a b = true ↔ a = b) ∧ (brCond 2 a b = true ↔ a ≠ b) ∧
    (brCond 3 a b = true ↔ a.toInt < b.toInt) ∧ (brCond 4 a b = true ↔ b.toInt ≤ a.toInt) ∧
    (brCond 5 a b = true ↔ a.toNat < b.toNat) ∧ (brCond 6 a b = true ↔ b.toNat ≤ a.toNat) ∧
    ∀ (x y : Fin 32) (imm : BitVec 32), legalWord (encWord 0x08 0 x.val y.val 7 imm.toNat) = false

/-- SETI, SETH, ALU and ALUI write their one register and go on; BR, LOOP, JAL and JR go where R210 sends them, LOOP and JAL
with their register written. -/
def Obligations.ScalarInstructionsComplete : Prop :=
  (∀ (s : State) (q : SeqId) (st : Strand) (dst : Fin 32) (imm : BitVec 32),
    atWord s q st (encWord 0x01 dst.val 0 0 0 imm.toNat) →
    Completes (.seti q dst imm) s (goTo s q.val (st.setReg dst.val (imm.signExtend 64)) (st.pc + 8))) ∧
  (∀ (s : State) (q : SeqId) (st : Strand) (dst : Fin 32) (imm : BitVec 32),
    atWord s q st (encWord 0x02 dst.val 0 0 0 imm.toNat) →
    ∃ v : Word, v.toNat / 2 ^ 32 = imm.toNat ∧ v.toNat % 2 ^ 32 = (st.reg dst.val).toNat % 2 ^ 32 ∧
      Completes (.seth q dst imm) s (goTo s q.val (st.setReg dst.val v) (st.pc + 8))) ∧
  (∀ (s : State) (q : SeqId) (st : Strand) (fn : Fin 14) (dst a b : Fin 32),
    atWord s q st (encWord 0x03 dst.val a.val b.val fn.val 0) →
    Completes (.alu q fn dst a b) s
      (goTo s q.val (st.setReg dst.val (aluOp fn.val (st.reg a.val) (st.reg b.val))) (st.pc + 8))) ∧
  (∀ (s : State) (q : SeqId) (st : Strand) (fn : Fin 14) (dst a : Fin 32) (imm : BitVec 32),
    atWord s q st (encWord 0x04 dst.val a.val 0 fn.val imm.toNat) →
    Completes (.alui q fn dst a imm) s
      (goTo s q.val (st.setReg dst.val (aluOp fn.val (st.reg a.val) (imm.signExtend 64))) (st.pc + 8))) ∧
  (∀ (s : State) (q : SeqId) (st : Strand) (cond : Fin 7) (a b : Fin 32) (imm : BitVec 32),
    atWord s q st (encWord 0x08 0 a.val b.val cond.val imm.toNat) →
    Completes (.br q cond a b imm) s (goTo s q.val st
      (if brCond cond.val (st.reg a.val) (st.reg b.val) = true then st.pc + 8 * imm.signExtend 64 else st.pc + 8))) ∧
  (∀ (s : State) (q : SeqId) (st : Strand) (dst : Fin 32) (imm : BitVec 32), dst ≠ 0 →
    atWord s q st (encWord 0x09 dst.val 0 0 0 imm.toNat) → st.reg dst.val ≠ 1 →
    Completes (.loop q dst imm) s
      (goTo s q.val (st.setReg dst.val (st.reg dst.val - 1)) (st.pc + 8 * imm.signExtend 64))) ∧
  (∀ (s : State) (q : SeqId) (st : Strand) (dst : Fin 32) (imm : BitVec 32), dst = 0 →
    atWord s q st (encWord 0x09 dst.val 0 0 0 imm.toNat) → Completes (.loop q dst imm) s (goTo s q.val st (st.pc + 8))) ∧
  (∀ (s : State) (q : SeqId) (st : Strand) (dst : Fin 32) (imm : BitVec 32),
    atWord s q st (encWord 0x0A dst.val 0 0 0 imm.toNat) →
    Completes (.jal q dst imm) s (goTo s q.val (st.setReg dst.val (st.pc + 8)) (st.pc + 8 * imm.signExtend 64))) ∧
  (∀ (s : State) (q : SeqId) (st : Strand) (a : Fin 32), atWord s q st (encWord 0x0B 0 a.val 0 0 0) →
    Completes (.jr q a) s (goTo s q.val st (st.reg a.val)))

/-- LD and ST with an aligned address send their request and wait for its reply, and end the strand with ALIGN at any other;
LADR of a slot of the job reads a word of its descriptor, its present rung, or whether a storm is active (R210). -/
def Obligations.MemoryInstructionsComplete : Prop :=
  (∀ (s : State) (q : SeqId) (st : Strand) (dst a : Fin 32) (imm : BitVec 32),
    atWord s q st (encWord 0x05 dst.val a.val 0 0 imm.toNat) → (st.reg a.val + imm.signExtend 64).toNat % 8 = 0 →
    Completes (.ld q dst a imm) s (seqRequest (setStrand s q.val (some { st with wait := .load dst.val })) q.val
      (st.reg a.val + imm.signExtend 64).toNat 8 none)) ∧
  (∀ (s : State) (q : SeqId) (st : Strand) (a b : Fin 32) (imm : BitVec 32),
    atWord s q st (encWord 0x06 0 a.val b.val 0 imm.toNat) → (st.reg a.val + imm.signExtend 64).toNat % 8 = 0 →
    Completes (.st q a b imm) s (seqRequest (setStrand s q.val (some { st with wait := .store })) q.val
      (st.reg a.val + imm.signExtend 64).toNat 8 (some (leBytes 8 (st.reg b.val).toNat)))) ∧
  (∀ (s : State) (q : SeqId) (st : Strand) (dst a b : Fin 32) (imm : BitVec 32),
    (st.reg a.val + imm.signExtend 64).toNat % 8 ≠ 0 →
    (atWord s q st (encWord 0x05 dst.val a.val 0 0 imm.toNat) → Completes (.ld q dst a imm) s (endStrand s q.val 0x03)) ∧
    (atWord s q st (encWord 0x06 0 a.val b.val 0 imm.toNat) → Completes (.st q a b imm) s (endStrand s q.val 0x03))) ∧
  (∀ (s : State) (q : SeqId) (st : Strand) (fn : Fin 10) (dst a : Fin 32) (imm : BitVec 32) (bs : List Byte) (s1 : State),
    atWord s q st (encWord 0x20 dst.val a.val 0 fn.val imm.toNat) → fn.val ≤ 7 →
    (st.reg a.val + imm.signExtend 64).toNat < (strandJob s st).slotCount →
    devRead s (seqVia s.mem q.val) false
      ((strandJob s st).slotTable + 64 * (st.reg a.val + imm.signExtend 64).toNat) 64 = (.ok bs, s1) →
    Completes (.ladr q fn dst a imm) s
      (goTo s1 q.val (st.setReg dst.val (BitVec.ofNat 64 (leField bs (8 * fn.val) 8))) (st.pc + 8))) ∧
  (∀ (s : State) (q : SeqId) (st : Strand) (fn : Fin 10) (dst a : Fin 32) (imm : BitVec 32) (bs : List Byte) (s1 : State),
    atWord s q st (encWord 0x20 dst.val a.val 0 fn.val imm.toNat) → fn.val = 8 →
    (st.reg a.val + imm.signExtend 64).toNat < (strandJob s st).slotCount →
    devRead s (seqVia s.mem q.val) false
      ((strandJob s st).slotTable + 64 * (st.reg a.val + imm.signExtend 64).toNat) 64 = (.ok bs, s1) →
    Completes (.ladr q fn dst a imm) s (goTo s1 q.val (st.setReg dst.val (ladrRung bs (seqStorm s1 q.val))) (st.pc + 8))) ∧
  (∀ (s : State) (q : SeqId) (st : Strand) (fn : Fin 10) (dst a : Fin 32) (imm : BitVec 32),
    atWord s q st (encWord 0x20 dst.val a.val 0 fn.val imm.toNat) → fn.val = 9 →
    (st.reg a.val + imm.signExtend 64).toNat < (strandJob s st).slotCount →
    Completes (.ladr q fn dst a imm) s
      (goTo s q.val (st.setReg dst.val (if s.storm.active = true then 1 else 0)) (st.pc + 8)))

/-- TIE and KSET of a strand that is not held send their update to the knot's die, or to every die with `BCAST`, and go on (R215,
R216); WAIT goes on at a knot that has reached its target and else waits; KRD reads a knot of its own die, whether the strand
is held or not. A number outside the job's knots, or of another die in WAIT and KRD, ends the strand with KNOT (R213, R214). A
held strand stops before TIE, KSET and WAIT, with its event, and none of them has its effect (R237); the storm's hold stops
an update strand before WAIT (R238). A knot whose value was lost gives KRD a free value (log 3), and neither lets a WAIT go
on; the strand is then held (R365). -/
def Obligations.KnotInstructionsComplete : Prop :=
  (∀ (s : State) (q : SeqId) (st : Strand) (fn : Fin 2048) (a b : Fin 32) (imm : BitVec 32) (n : Nat),
    atWord s q st (encWord 0x18 0 a.val b.val fn.val imm.toNat) → st.hold = none →
    (st.reg a.val + imm.signExtend 64).toNat = n →
    (n < 2 ^ 14 → n % 4096 < (strandJob s st).knotCount → Completes (.tie q fn a b imm) s (goTo
      (knotUpdate s (seqSource q.val) (if fn.val < 1024 then n / 4096 else 0) ((strandJob s st).knotBase + n % 4096)
        (1024 ≤ fn.val) false (if fn.val % 1024 = 0 then (st.reg b.val).toNat % 2 ^ 32 else fn.val % 1024) none
        (some (st.queue, st.entry))) q.val st (st.pc + 8))) ∧
    (2 ^ 14 ≤ n ∨ (strandJob s st).knotCount ≤ n % 4096 → Completes (.tie q fn a b imm) s (endStrand s q.val 0x05))) ∧
  (∀ (s : State) (q : SeqId) (st : Strand) (bc : Bool) (a b : Fin 32) (imm : BitVec 32) (n : Nat),
    atWord s q st (encWord 0x1B 0 a.val b.val (if bc then 1024 else 0) imm.toNat) → st.hold = none →
    (st.reg a.val + imm.signExtend 64).toNat = n →
    (n < 2 ^ 14 → n % 4096 < (strandJob s st).knotCount → Completes (.kset q bc a b imm) s (goTo
      (knotUpdate s (seqSource q.val) (if bc then 0 else n / 4096) ((strandJob s st).knotBase + n % 4096) bc true
        ((st.reg b.val).toNat % 2 ^ 32) none (some (st.queue, st.entry))) q.val st (st.pc + 8))) ∧
    (2 ^ 14 ≤ n ∨ (strandJob s st).knotCount ≤ n % 4096 → Completes (.kset q bc a b imm) s (endStrand s q.val 0x05))) ∧
  (∀ (s : State) (q : SeqId) (st : Strand) (a b : Fin 32) (imm : BitVec 32) (n k : Nat),
    atWord s q st (encWord 0x19 0 a.val b.val 0 imm.toNat) → st.hold = none → stormHolds s q.val = false →
    (st.reg a.val + imm.signExtend 64).toNat = n → n < 4096 → n < (strandJob s st).knotCount →
    k = (strandJob s st).knotBase + n → knotLost s (seqDie q.val) k = false →
    reached (knotVal s (seqDie q.val) k) ((st.reg b.val).toNat % 2 ^ 32) = true →
    Completes (.wait q a b imm) s (goTo s q.val { st with stormStop := false } (st.pc + 8))) ∧
  (∀ (s : State) (q : SeqId) (st : Strand) (a b : Fin 32) (imm : BitVec 32) (n k : Nat),
    atWord s q st (encWord 0x19 0 a.val b.val 0 imm.toNat) → st.hold = none → stormHolds s q.val = false →
    (st.reg a.val + imm.signExtend 64).toNat = n → n < 4096 → n < (strandJob s st).knotCount →
    k = (strandJob s st).knotBase + n → knotLost s (seqDie q.val) k = false →
    reached (knotVal s (seqDie q.val) k) ((st.reg b.val).toNat % 2 ^ 32) = false →
    Completes (.wait q a b imm) s
      (setStrand s q.val (some { st with stormStop := false, wait := .knot k ((st.reg b.val).toNat % 2 ^ 32) }))) ∧
  (∀ (s : State) (q : SeqId) (st : Strand) (a b : Fin 32) (imm : BitVec 32) (n k : Nat),
    atWord s q st (encWord 0x19 0 a.val b.val 0 imm.toNat) → st.hold = none → stormHolds s q.val = false →
    (st.reg a.val + imm.signExtend 64).toNat = n →
    (n < 4096 → n < (strandJob s st).knotCount → k = (strandJob s st).knotBase + n → knotLost s (seqDie q.val) k = true →
      Completes (.wait q a b imm) s (setStrand s q.val (some
        { st with stormStop := false, wait := .knot k ((st.reg b.val).toNat % 2 ^ 32), hold := some 1 }))) ∧
    (4096 ≤ n ∨ (strandJob s st).knotCount ≤ n → Completes (.wait q a b imm) s (endStrand s q.val 0x05))) ∧
  (∀ (s : State) (q : SeqId) (st : Strand) (a b : Fin 32) (imm : BitVec 32),
    atWord s q st (encWord 0x19 0 a.val b.val 0 imm.toNat) → st.hold = none → stormHolds s q.val = true →
    (st.stormStop = false → Completes (.wait q a b imm) s
      (seqEvent (setStrand s q.val (some { st with stormStop := true })) q.val st 2 2 st.pc.toNat)) ∧
    (st.stormStop = true → Completes (.wait q a b imm) s s)) ∧
  (∀ (s : State) (q : SeqId) (st : Strand) (dst a : Fin 32) (imm : BitVec 32) (n k : Nat),
    atWord s q st (encWord 0x1A dst.val a.val 0 0 imm.toNat) →
    (st.reg a.val + imm.signExtend 64).toNat = n →
    (n < 4096 → n < (strandJob s st).knotCount → k = (strandJob s st).knotBase + n →
      (knotLost s (seqDie q.val) k = false → Completes (.krd q dst a imm) s
        (goTo s q.val (st.setReg dst.val (BitVec.ofNat 64 (knotVal s (seqDie q.val) k))) (st.pc + 8))) ∧
      (knotLost s (seqDie q.val) k = true → ∃ x, x < 2 ^ 32 ∧ Completes (.krd q dst a imm) s
        (goTo { s with free := s.free + 1 } q.val
          { st.setReg dst.val (BitVec.ofNat 64 x) with hold := some (st.hold.getD 1) } (st.pc + 8)))) ∧
    (4096 ≤ n ∨ (strandJob s st).knotCount ≤ n → Completes (.krd q dst a imm) s (endStrand s q.val 0x05))) ∧
  (∀ (s : State) (q : SeqId) (st : Strand) (c : Nat) (a b : Fin 32) (fn : Fin 2048) (bc : Bool) (imm : BitVec 32),
      st.hold = some c →
      (atWord s q st (encWord 0x18 0 a.val b.val fn.val imm.toNat) → Completes (.tie q fn a b imm) s
        (seqEvent (setStrand s q.val (some { st with stopped := true })) q.val st 2 c st.pc.toNat)) ∧
      (atWord s q st (encWord 0x1B 0 a.val b.val (if bc then 1024 else 0) imm.toNat) → Completes (.kset q bc a b imm) s
        (seqEvent (setStrand s q.val (some { st with stopped := true })) q.val st 2 c st.pc.toNat)) ∧
      (atWord s q st (encWord 0x19 0 a.val b.val 0 imm.toNat) → Completes (.wait q a b imm) s
        (seqEvent (setStrand s q.val (some { st with stopped := true })) q.val st 2 c st.pc.toNat)))

/-- ISSUE of a descriptor that is fetched and found valid gives the operation the strand's next tag (R225); SEALW returns at once
for tags that are not in flight: the kept status, or STALE for a tag the sequencer does not keep (R226, R228). EVT raises its
strand event and goes on; YIELD saves the strand at the instruction after it, or does nothing when no save record is free;
YIELD_DONE ends the strand with DONE and YIELD_ERROR with ERROR (R210, R213, R239). -/
def Obligations.OperationAndEventInstructionsComplete : Prop :=
  (∀ (s s1 : State) (q : SeqId) (st : Strand) (dst a : Fin 32) (imm : BitVec 32),
    atWord s q st (encWord 0x10 dst.val a.val 0 0 imm.toNat) → st.flights < 16 → (q.val < 512 ∨ s.ck.issueHold = false) →
    issueAt s (seqVia s.mem q.val) (strandJob s st) (strandIssuer s q.val st)
      (st.reg a.val + imm.signExtend 64).toNat = (.issued, s1) →
    Completes (.issue q dst a imm) s (pump (goTo s1 q.val
      (({ st with nextTag := tagAfter st.nextTag, tags := st.tags ++ [{ tag := st.nextTag }] } : Strand).setReg dst.val
        (BitVec.ofNat 64 st.nextTag)) (st.pc + 8)))) ∧
  (∀ (s : State) (q : SeqId) (st : Strand) (dst a : Fin 32), atWord s q st (encWord 0x11 dst.val a.val 0 0 0) →
    st.tag ((st.reg a.val).toNat % 2 ^ 32) = none →
    Completes (.sealwTag q dst a) s (goTo s q.val
      (st.setReg dst.val (BitVec.ofNat 64 (statusWord ((st.reg a.val).toNat % 2 ^ 32) 0x0F))) (st.pc + 8))) ∧
  (∀ (s : State) (q : SeqId) (st : Strand) (dst a : Fin 32) (k : TagSt), atWord s q st (encWord 0x11 dst.val a.val 0 0 0) →
    st.tag ((st.reg a.val).toNat % 2 ^ 32) = some k → k.inFlight = false →
    ∃ u st1, Completes (.sealwTag q dst a) s u ∧ u = goTo (setStrand s q.val (some st1)) q.val
      (st1.setReg dst.val (BitVec.ofNat 64 (statusWord ((st.reg a.val).toNat % 2 ^ 32) (combineStatus 0 k.status))))
      (st.pc + 8) ∧ st1.regs = st.regs ∧ st1.tags = st.tags) ∧
  (∀ (s : State) (q : SeqId) (st : Strand) (dst a : Fin 32), atWord s q st (encWord 0x11 dst.val a.val 0 1 0) →
    st.flights = 0 →
    ∃ u st1, Completes (.sealwAll q dst a) s u ∧ u = goTo (setStrand s q.val (some st1)) q.val
      (st1.setReg dst.val 0) (st.pc + 8) ∧ st1.regs = st.regs ∧ st1.tags = st.tags) ∧
  (∀ (s : State) (q : SeqId) (st : Strand) (a : Fin 32) (code : BitVec 16),
    atWord s q st (encWord 0x28 0 a.val 0 0 code.toNat) →
    Completes (.evt q a code) s
      (goTo (seqEvent s q.val st 0 code.toNat (st.reg a.val).toNat) q.val st (st.pc + 8))) ∧
  (∀ (s s1 : State) (q : SeqId) (st : Strand) (r : Nat), twf ({} : Seqr) s.seqs = true →
    atWord s q st (encWord 0x30 0 0 0 0 0) →
    freeRecord s st.job (strandJob s st).saveCount = some r →
    devWrite s (seqVia s.mem q.val) false ((strandJob s st).saveBase + 512 * r)
      (saveBytes s q.val { st with pc := st.pc + 8 }) = (none, s1) →
    ∃ u v, Completes (.yield q) s u ∧ getStrand u q.val = none ∧ u.saved = s.saved ++ [v] ∧ v.seq = q.val ∧
      v.record = r ∧ v.strand.pc = st.pc + 8 ∧ v.strand.regs = st.regs ∧ u.mem = s1.mem) ∧
  (∀ (s : State) (q : SeqId) (st : Strand), atWord s q st (encWord 0x30 0 0 0 0 0) →
    freeRecord s st.job (strandJob s st).saveCount = none →
    Completes (.yield q) s (goTo s q.val st (st.pc + 8))) ∧
  (∀ (s : State) (q : SeqId) (st : Strand), atWord s q st (encWord 0x30 0 0 0 1 0) →
    Completes (.yieldDone q) s (reportEnd (setStrand s q.val none) q.val st 0x00 st.pc.toNat 0)) ∧
  (∀ (s : State) (q : SeqId) (st : Strand) (a : Fin 32), atWord s q st (encWord 0x30 0 a.val 0 2 0) →
    ∃ u, u = reportEnd (setStrand s q.val none) q.val st 0x07 st.pc.toNat 0 ∧
      Completes (.yieldError q a) s (setSeq u q.val { getSeq u q.val with yieldCode := (st.reg a.val).toNat % 2 ^ 16 }))

/-- The frame of the scalar, branch and jump instructions: as long as the strand runs on, nothing of the machine changes but
its own sequencer and the requests in flight, and of its registers none but the destination. -/
def Obligations.ScalarFrame : Prop :=
  ∀ (s t : State) (q : SeqId) (dst a b : Fin 32) (fn : Fin 14) (cond : Fin 7) (imm : BitVec 32) (i : Instr)
    (st st2 : Strand),
    i ∈ [.seti q dst imm, .seth q dst imm, .alu q fn dst a b, .alui q fn dst a imm, .br q cond a b imm, .loop q dst imm,
      .jal q dst imm, .jr q a] →
    twf ({} : Seqr) s.seqs = true → twf (0 : Word) st.regs = true → exec i s = .next t →
    getStrand s q.val = some st → getStrand t q.val = some st2 →
    (∀ r, r ≠ q.val → getSeq t r = getSeq s r) ∧ (∀ r, r ≠ dst.val → st2.reg r = st.reg r) ∧
      (∀ r, i = .br q cond a b imm ∨ i = .jr q a → st2.reg r = st.reg r) ∧
      ∃ l, t = { s with seqs := t.seqs, mem := { s.mem with reqs := s.mem.reqs ++ l } }

/-! ### Knots, boundaries, replies and the selection of work -/

/-- A knot update that may arrive, at a die that is reached and not fenced, sets or raises its knot (R214–R216), and a set
makes a lost knot whole again (R365). -/
def Obligations.KnotUpdatesComplete : Prop :=
  ∀ (s : State) (pos : Nat) (m : KnotMsg), knotReady s pos = some m → s.flt.armed = [] →
    bitOf s.rst.dieFence m.die = false → knotCut s m = false →
    (m.isSet = false → s.knotsLost.contains (m.die * 4096 + m.knot) = false →
      ∃ u, Completes (.knotTie pos) s u ∧ u.knotsLost = s.knotsLost ∧
        u.knots = tset 0 s.knots (m.die * 4096 + m.knot) ((tget 0 s.knots (m.die * 4096 + m.knot) + m.val) % 2 ^ 32)) ∧
    (m.isSet = true →
      ∃ u, Completes (.knotSet pos) s u ∧ u.knotsLost = sremove (m.die * 4096 + m.knot) s.knotsLost ∧
        u.knots = tset 0 s.knots (m.die * 4096 + m.knot) m.val)

/-- A training-step boundary: each die hands over its records of the job once (R184); when all four have, the ladder
controller writes every active slot's new content, ties the rung knot on every die and ends the training step (R36, R199). -/
def Obligations.BoundaryCommandsComplete : Prop :=
  (∀ (s : State) (d : DieId) (job : Nat), s.swapJob = some job → s.swapped.contains d.val = false →
    ∃ u, Completes (.tallyTableSwap d) s u ∧ u.swapped = sinsert d.val s.swapped ∧ u.tin = tset [] s.tin d.val [] ∧
      u.tout = tset [] s.tout d.val
        ((((((List.range 64).map (· + 64 * d.val)).flatMap fun c => tget [] s.tlines c)
          ++ tget [] s.tin d.val).map TLine.settled).foldl tableAdd []) ∧
      u = { s with tlines := u.tlines, tin := u.tin, tout := u.tout, swapped := u.swapped }) ∧
  (∀ (s s1 : State) (job : Nat) (lost : List Nat) (done : List SlotDone), s.swapJob = some job →
    (∀ d, d < 4 → s.swapped.contains d = true) → s.rst.tallyLost = 0 →
    processSlots s (getJob s job) job lost (s.storm.active && s.storm.job == job) (getJob s job).active = (some done, s1) →
    (writesBlocked s1 hubVia (done.map fun x => (x.addr, x.bytes))).1 = false →
    ∃ s2, Completes (.ladderControllerPass lost) s
        (checkBoundary (pump (freezeBoundary { s2 with rst := { s2.rst with tallyLost := 0 } } job))) ∧
      s2.mem.cells = (writeMany s1 hubVia false (done.map fun x => (x.addr, x.bytes))).2.mem.cells ∧
      (getJob s2 job).step = (getJob s job).step + 1 ∧ s2.swapJob = none ∧ s2.swapped = [] ∧
      ∀ d, d < 4 → ∃ m ∈ s2.knotq, m.src = hubSource ∧ m.die = d ∧ m.isSet = false ∧ m.val = 1 ∧
        m.knot = (getJob s job).desc.knotBase + (getJob s job).desc.rungKnot)

/-- Replies (R458): one of the requester's present epoch continues the strand that waits for it, with a load's value in its
register; an error in it ends the strand with MEMORY; one of an earlier epoch is counted in `QUENCH_DROPS` and dropped. A
finished operation completes: its status is kept with its tag by the strand that issued it, and with code OK its done knot is
tied at once when the strand is not held (R226, R228, R229). A free sequencer takes what the draught scheduler's choice gives
it, a cluster damped for idle waking first (R395, R402): a work item leaves the ready list, its queue has one more item
started, and its strand starts there; a saved strand resumes. -/
def Obligations.RepliesAndOperationsComplete : Prop :=
  (∀ (s : State) (pos : Nat) (r : ReplyMsg) (q : SeqId) (st : Strand), s.mem.replies[pos]? = some r → r.who = .seq q →
      waveBehind s r.post (seqSource q.val) = false →
      (getStrand s q.val = some st → (getSeq s q.val).fenced = false → r.epoch = seqEpoch s q.val →
        r.no = (getSeq s q.val).reqNo →
        (∀ dst, st.wait = .load dst → r.ans.err = none → Completes (.requestReply pos) s
          (goTo { s with mem := { s.mem with replies := dropAt pos s.mem.replies } } q.val
            (st.setReg dst (BitVec.ofNat 64 (leNat r.ans.bytes))) (st.pc + 8))) ∧
        (st.wait = .store → r.ans.err = none ∨ r.ans.err = some .fenced → Completes (.requestReply pos) s
          (goTo { s with mem := { s.mem with replies := dropAt pos s.mem.replies } } q.val st (st.pc + 8))) ∧
        (st.wait = .store → r.ans.err.isSome = true → r.ans.err ≠ some .fenced → Completes (.requestReply pos) s
          (endStrand { s with mem := { s.mem with replies := dropAt pos s.mem.replies } } q.val 0x04))) ∧
      (r.epoch ≠ seqEpoch s q.val → Completes (.requestReply pos) s
        (dcount { s with mem := { s.mem with replies := dropAt pos s.mem.replies } } Key.quenchDrops))) ∧
  (∀ (s : State) (k : Nat) (o : OpRec) (st : Strand), getOp s k = some o → o.finished = true → o.code = 0 →
      s.ck.rs = none → ownerRuns s o = some st → st.wait = .none → st.hold = none →
      ∃ u st1, Completes (.operationComplete k) s u ∧ getStrand u o.seq = some st1 ∧
        st1.tag o.tag = some { tag := o.tag, status := o.status, inFlight := false } ∧ st1.regs = st.regs ∧ st1.pc = st.pc ∧
        (dDoneValid o.desc = true → ∃ m ∈ u.knotq, m.isSet = false ∧ m.val = dKnotInc o.desc ∧
          m.knot = (getJob s o.job).desc.knotBase + dKnot o.desc % 4096) ∧
        (dDoneValid o.desc = false → u.knotq = s.knotq)) ∧
  (∀ (s s0 : State) (q : SeqId), getStrand s q.val = none → (getSeq s q.val).fenced = false →
      bitOf s.rst.dieFence (seqDie q.val) = false → s.flt.hubFault = false →
      s.q.qeReady = true →
      (s0 = if q.val < 512 ∧ (getCluster s (seqCore q.val / 8)).damp = .idle then clusterWake s (seqCore q.val / 8) else s) →
      (∀ w, selectFor s q.val = some (.item w) →
        ∃ s1, Completes (.sequencerSelect q) s (kickAll (startOn s1 q.val w)) ∧ s1.q.ready = s0.q.ready.erase w ∧
          s1.q.started = tset 0 s0.q.started w.queue (tget 0 s0.q.started w.queue + 1) ∧ s1.seqs = s0.seqs ∧
          s1.mem = s0.mem) ∧
      (∀ v, selectFor s q.val = some (.saved v) → Completes (.sequencerSelect q) s (resumeSaved s0 v)))


/-! ### Work queues and the host interface -/

/-- The queue engine is up and nothing waits before the BAR0 write `a`: no earlier BAR0 write, no BAR2 write still to be
acknowledged, and its queue's context can be read. -/
def Sys2Proof.Machine.bar0Ready (s : State) (a : Bar0Act) : Prop :=
  hostUp s = true ∧ s.q.qeReady = true ∧ s.q.late = [] ∧ bar2WriteOpen s = false ∧ ctxBlocked s a = false

/-- R253: a doorbell by the first row that applies, with the new producer index `pi` and d(x) = (x − `DONE`) mod 2^16. -/
def Obligations.DoorbellsByTheTable : Prop :=
  ∀ (s : State) (v : Word) (q pi : Nat), v.toNat % 2 ^ 20 = q → v.toNat / 2 ^ 20 % 2 ^ 16 = pi → hostUp s = true →
    s.q.late = [] → bar2WriteOpen s = false → ctxBlocked s (.doorbell v.toNat) = false →
    (v.toNat / 2 ^ 36 ≠ 0 ∨ s.q.qeReady = false →
      Completes (.doorbell v) s (hubEvent (dcount s Key.doorbellDrops) 0x0603)) ∧
    (∀ c s1, v.toNat / 2 ^ 36 = 0 → s.q.qeReady = true → loadCtx s q = (.ok c, s1) →
      (ctxState s1 c ≠ 1 → Completes (.doorbell v) s (dcount s1 Key.doorbellDrops)) ∧
      (ctxState s1 c = 1 → 2 ^ c.ringLog2 < (pi + 2 ^ 16 - c.done) % 2 ^ 16 →
        Completes (.doorbell v) s (queueError s1 q 2 pi)) ∧
      (ctxState s1 c = 1 → (pi + 2 ^ 16 - c.done) % 2 ^ 16 ≤ 2 ^ c.ringLog2 →
        ((pi + 2 ^ 16 - c.done) % 2 ^ 16 < (c.pi + 2 ^ 16 - c.done) % 2 ^ 16 →
          Completes (.doorbell v) s (dcount s1 Key.doorbellDrops)) ∧
        ((pi + 2 ^ 16 - c.done) % 2 ^ 16 = (c.pi + 2 ^ 16 - c.done) % 2 ^ 16 → Completes (.doorbell v) s s1) ∧
        ((c.pi + 2 ^ 16 - c.done) % 2 ^ 16 < (pi + 2 ^ 16 - c.done) % 2 ^ 16 →
          ∃ u, Completes (.doorbell v) s u ∧ cachedCtx u q = some { c with pi := pi } ∧
            u.q.doorbells = s.q.doorbells + 1 ∧ u.q.ents = s.q.ents ∧ u.seqs = s.seqs)))

/-- The queue commands in the states where R261 gives them their action: ENABLE of a disabled queue with a valid context caches
it enabled in this host epoch and starts what can start; DISABLE writes its context back as DISABLED and holds it no more; FLUSH
writes its context back. A command of a reserved kind is answered with BAD_COMMAND (R259–R261). -/
def Obligations.QueueCommandsComplete : Prop :=
  (∀ (s s1 s2 : State) (q : Fin 1048576) (old : QCtx) (b : List Byte), bar0Ready s (.command false 1 0 q.val) →
    loadCtx s q.val = (.ok old, s1) → ctxState s1 old = 0 →
    devRead s1 hubVia false (qctxAddr s1 q.val) 64 = (.ok b, s2) → ctxValid s (QCtx.parse b) = true →
    ∃ s3, Completes (.enable q) s (kickQueue (setResult s3 false 0 1 0 q.val) q.val) ∧
      cachedCtx s3 q.val = some { QCtx.parse b with state := 1, errCode := 0, epoch := s.q.hostEpoch } ∧
      q.val ∈ s3.q.live ∧ s3.q.started = tset 0 s.q.started q.val 0 ∧ s3.q.ents = s.q.ents ∧ s3.seqs = s.seqs) ∧
  (∀ (s s1 : State) (q : Fin 1048576) (c : QCtx), bar0Ready s (.command false 2 0 q.val) → loadCtx s q.val = (.ok c, s1) →
    ctxState s1 c ≠ 0 → twf [] s.q.ents = true →
    ∃ u s3 c2, Completes (.disable q) s u ∧ c2.state = 0 ∧ u.mem = (ctxWriteBack s3 q.val c2).mem ∧
      ((queueEnts s q.val).any (fun e => e.phase == .fetched) = false → c2 = { c with state := 0 } ∧ s3.mem = s1.mem) ∧
      (queueEnts u q.val).any (fun e => e.phase == .fetched) = false ∧ cachedCtx u q.val = none ∧
      u.q.cmdResult = cmdResultWord false 0 2 0 q.val ∧ u.q.live = sremove q.val s.q.live ∧ u.seqs = s.seqs) ∧
  (∀ (s s1 : State) (q : Fin 1048576) (c : QCtx), bar0Ready s (.command false 3 0 q.val) → loadCtx s q.val = (.ok c, s1) →
    ctxState s1 c ≠ 0 →
    Completes (.flush q) s (setResult (hubWrites s1 false (ctxWrites (qctxAddr s1 q.val) c)).2 false 0 3 0 q.val)) ∧
  (∀ (s : State) (strand : Bool) (cmd : Fin 16) (e : BitVec 16) (q : Fin 1048576), hostUp s = true → s.q.qeReady = true →
    cmdBusy s = false →
    Completes (.badCommand strand cmd e q) s { s with q := { s.q with
      cmdResult := cmdResultWord strand 1 cmd.val e.toNat q.val } })

/-- RESUME ties what a held strand's hold withheld and lets it run on; END ends the strand with HOST_END (R237, R238, R262).
Commands that find the queue engine not ready are discarded, counted and reported (R246, R260); a strand command for an entry
with no strand is answered with NO_STRAND (R262). -/
def Obligations.StrandCommandsComplete : Prop :=
  (∀ (s : State) (q : Fin 1048576) (e : BitVec 16) (r : Nat) (st : Strand) (c : Nat),
    bar0Ready s (.command true 1 e.toNat q.val) → runnerOf s q.val e.toNat = some r → getStrand s r = some st → st.hold = some c →
    Completes (.resume q e) s (setResult (setStrand (tieWithheld s st) r
      (some { st with hold := none, stopped := false, withheld := [] })) true 0 1 e.toNat q.val)) ∧
  (∀ (s : State) (q : Fin 1048576) (e : BitVec 16) (r : Nat) (st : Strand), bar0Ready s (.command true 2 e.toNat q.val) →
    runnerOf s q.val e.toNat = some r → getStrand s r = some st →
    Completes (.endStrand q e) s
      (setResult (reportEnd (setStrand s r none) r st 0x08 st.pc.toNat 0) true 0 2 e.toNat q.val)) ∧
  (∀ (s : State) (q : Fin 1048576) (e : BitVec 16) (v : Saved), bar0Ready s (.command true 1 e.toNat q.val) →
    bar0Ready s (.command true 2 e.toNat q.val) → runnerOf s q.val e.toNat = none →
    s.saved.find? (fun v => v.strand.queue == q.val && v.strand.entry == e.toNat) = some v →
    (∃ u, Completes (.endStrand q e) s u ∧
      u.saved = s.saved.filter (fun w => !(w.strand.queue == q.val && w.strand.entry == e.toNat)) ∧
      u.q.cmdResult = cmdResultWord true 0 2 e.toNat q.val) ∧
    (v.strand.hold = none → Completes (.resume q e) s (setResult s true 3 1 e.toNat q.val))) ∧
  (∀ (s : State) (q : Fin 1048576) (e : BitVec 16) (i : Instr), hostUp s = true →
    i ∈ [.enable q, .disable q, .flush q, .resume q e, .endStrand q e] → (cmdBusy s = true ∨ s.q.qeReady = false) →
    Completes i s (hubEvent (dcount s Key.hifDrops) 0x0602)) ∧
  (∀ (s : State) (q : Fin 1048576) (e : BitVec 16), bar0Ready s (.command true 1 e.toNat q.val) →
    bar0Ready s (.command true 2 e.toNat q.val) → runnerOf s q.val e.toNat = none →
    s.saved.find? (fun v => v.strand.queue == q.val && v.strand.entry == e.toNat) = none →
    Completes (.resume q e) s (setResult s true 4 1 e.toNat q.val) ∧
    Completes (.endStrand q e) s (setResult s true 4 2 e.toNat q.val))

/-- A returning fetch appends its entries to the queue's, in ring order, and moves `CI` past them, from a device ring or a host
ring; a copy that goes well completes after all its bytes, whichever side host memory is on; a fetch with no completion in time
ends its queue with RING_READ, a copy ends with MEMORY (R255, R257, R264). -/
def Obligations.EntriesAndCopiesComplete : Prop :=
  (∀ (s s0 s1 : State) (q : Fin 1048576) (c : QCtx) (n : Nat) (b : List Byte) (host : Option (List Byte)),
    canFetch s q.val = some (c, n, s0) → (c.ringDev = false ∧ host = some b ∧ 64 * n ≤ b.length ∧ s1 = s0 ∨
      c.ringDev = true ∧ devRead s0 hubVia false (c.ringBase + 64 * (c.ci % 2 ^ c.ringLog2)) (64 * n) = (.ok b, s1)) →
    ∃ s2, Completes (.entryFetchReturn q host) s (kickQueue s2 q.val) ∧
      queueEnts s2 q.val = queueEnts s q.val ++ appendEnts c.ci n b ∧
      cachedCtx s2 q.val = some { c with ci := (c.ci + n) % 2 ^ 16 } ∧ s2.seqs = s.seqs) ∧
  (∀ (s s0 s1 : State) (q : Fin 1048576) (i : BitVec 16) (e : QEnt) (c : QCtx) (host : Option (List Byte)) (b : List Byte)
      (len w : Nat),
    copyEntry s q.val i.toNat = some e → loadCtx s q.val = (.ok c, s0) → leField e.bytes 24 8 = len →
    (bitOf (leField e.bytes 1 1) 0 = true → s0.d3 = false → host = some b → b.length = len →
      copyIn (!c.class2) (len / 64) s0 (leField e.bytes 16 8) b 0 = (none, w, s1) →
      Completes (.copyComplete q i host) s (finishCopy s1 q.val c e none w)) ∧
    (bitOf (leField e.bytes 1 1) 0 = false → bitOf (leField e.bytes 1 1) 1 = true → s0.d3 = false →
      devRead s0 hubVia (!c.class2) (leField e.bytes 8 8) len = (.ok b, s1) →
      Completes (.copyComplete q i host) s
        (finishCopy (toHost s1 (.hostWrite (leField e.bytes 16 8) b)) q.val c e none len)) ∧
    (bitOf (leField e.bytes 1 1) 0 = false → bitOf (leField e.bytes 1 1) 1 = false →
      copyDev (!c.class2) (len / 64) s0 (leField e.bytes 8 8) (leField e.bytes 16 8) 0 = (none, w, s1) →
      Completes (.copyComplete q i host) s (finishCopy s1 q.val c e none w))) ∧
  (∀ (s s0 : State) (q : Fin 1048576) (c : QCtx) (n : Nat), canFetch s q.val = some (c, n, s0) → c.ringDev = false →
    Completes (.pcieCompletionTimeout q none) s (queueError (sendAer s0 .completionTimeout) q.val 4 c.ci)) ∧
  (∀ (s s0 : State) (q : Fin 1048576) (i : BitVec 16) (e : QEnt) (c : QCtx), copyEntry s q.val i.toNat = some e →
    loadCtx s q.val = (.ok c, s0) → bitOf (leField e.bytes 1 1) 0 = true →
    Completes (.pcieCompletionTimeout q (some i)) s
      (finishCopy (sendAer s0 .completionTimeout) q.val c e (some .poisoned) 0))

/-- BAR0 and BAR2: an aligned window base is taken, a wrong write is discarded and reported, a resize clears the window base, and
an access through the window that need not wait reads or writes the device address behind it (R246, R248, R249, R264). The
PCIe function: D3hot holds what goes towards the host and the return to D0 sends it in its order (R244); link training sets
the rate, the width and `LINK_DEGRADED` (R242); MSI-X control and unmasking (R410, R412). -/
def Obligations.FunctionCommandsComplete : Prop :=
  (∀ (s : State) (v : Word), hostUp s = true → v.toNat % 2 ^ 48 % 2 ^ s.q.bar2Log2 = 0 →
    Completes (.hifWinBaseWrite v true) s { s with q := { s.q with winBase := v.toNat % 2 ^ 48 } }) ∧
  (∀ (s : State) (v : Word) (whole : Bool), hostUp s = true → (whole = false ∨ v.toNat % 2 ^ 48 % 2 ^ s.q.bar2Log2 ≠ 0) →
    Completes (.hifWinBaseWrite v whole) s (hubEvent (dcount s Key.hifDrops) 0x0602)) ∧
  (∀ s : State, hostUp s = true →
    Completes (.bar0DiscardedWrite false) s (hubEvent (dcount s Key.hifDrops) 0x0602) ∧
    Completes (.bar0DiscardedWrite true) s (sendAer (hubEvent (dcount s Key.hifDrops) 0x0602) .unsupportedRequest)) ∧
  (∀ (s : State) (n : Nat), hostUp s = true → 28 ≤ n → n ≤ 41 →
    Completes (.bar2Resize n) s { s with q := { s.q with bar2Log2 := n, winBase := 0 } }) ∧
  (∀ (s s1 : State) (off len : Nat) (b : List Byte), hostUp s = true → off + len ≤ 2 ^ s.q.bar2Log2 → s.q.memReady = true →
    bar2Behind s { who := .bar2, epoch := s.rst.epochs, bulk := true, addr := s.q.winBase + off, len := len
                   expl := dget s Key.cacheExplicit == 1 } = false →
    readBlocked s hubVia true (s.q.winBase + off) len = false →
    devRead s hubVia true (s.q.winBase + off) len = (.ok b, s1) →
    Completes (.bar2Read off len) s (toHost s1 (.completion 0 b))) ∧
  (∀ (s s1 : State) (off : Nat) (b : List Byte), hostUp s = true → off + b.length ≤ 2 ^ s.q.bar2Log2 → s.q.memReady = true →
    bar2Behind s { who := .bar2, epoch := s.rst.epochs, bulk := true, addr := s.q.winBase + off, len := b.length,
                   wdata := some b, expl := dget s Key.cacheExplicit == 1 } = false →
    (devWrite s hubVia true (s.q.winBase + off) b = (none, s1) → Completes (.bar2Write off b) s s1) ∧
    (devWrite s hubVia true (s.q.winBase + off) b = (some .poisoned, s1) → Completes (.bar2Write off b) s
      (hubEvent s1 0x0604 0 (atByte 16 ((s.q.winBase + off) % 2 ^ 48) + atByte 22 (b.length % 2 ^ 16))))) ∧
  (∀ s : State, hostUp s = true → Completes .d3hotEntry s { s with d3 := true }) ∧
  (∀ (s : State) (m : OutMsg), s.d3 = true → toHost s m = { s with heldHost := s.heldHost ++ [m] }) ∧
  (∀ s : State, s.d3 = true →
    Completes .d0Return s (kickAll { s with d3 := false, out := s.out ++ s.heldHost, heldHost := [] })) ∧
  (∀ (s : State) (rate width : Nat), 3 ≤ rate → rate ≤ dget s Key.pcieMaxRate → width ∈ [1, 2, 4, 8, 16] →
    s.rst.off = false → s.pw.module ≠ .banked →
    Completes (.pcieLinkTraining rate width) s { s with q := { s.q with
      linkRate := rate, linkWidth := width, linkDegraded := !(rate == 5 && width == 16), linkLost := false } }) ∧
  (∀ (s : State) (enable mask : Bool), hostUp s = true →
    ∃ u, Completes (.msiXEnable enable mask) s u ∧ u.ev.msixEnable = enable ∧ u.ev.msixFuncMask = mask ∧
      u.q = s.q ∧ u.mem = s.mem) ∧
  (∀ (s : State) (v : Fin 2048) (a : Word) (d : BitVec 32), hostUp s = true → s.d3 = false →
    s.ev.msixFuncMask = false → s.ev.pba.contains v.val = true → (a.toNat, d.toNat) ≠ (0, 0) →
    ∃ u, Completes (.vectorUnmask ⟨v, a, d⟩) s u ∧ u.out = s.out ++ [.msix v.val a.toNat d.toNat] ∧ u.ev.pba = sremove v.val s.ev.pba) ∧
  (∀ (s : State) (v : Fin 2048) (a : Word) (d : BitVec 32), hostUp s = true →
    (s.ev.msixFuncMask = true ∨ s.ev.pba.contains v.val = false) →
    Completes (.vectorUnmask ⟨v, a, d⟩) s { s with ev := { s.ev with
      vecOpen := sinsert v.val s.ev.vecOpen, vecMsg := tset (0, 0) s.ev.vecMsg v.val (a.toNat, d.toNat) } })


/-! ### Memory, hearths and vector units -/

/-- Two offsets of an interleaved aperture never meet: each resolves to a place of its own (R273, R274). -/
def Obligations.PlacesNeverMeet : Prop :=
  ∀ (m : MemSys) (sts : List Nat) (z : Zone) (usable a b : Nat) (l : Loc), sts.Nodup →
    resolveIn m sts z usable a = some l → resolveIn m sts z usable b = some l → a = b

/-- What a write of up to one atom stores is what a read of the same class then finds there, and it changes no other byte of
memory: not in its own atom, and not in the line it displaces from the cache. A byte whose line is in the cache and clean is
taken to agree with the memory behind it. -/
def Obligations.StoresReadBackAndTouchNothingElse : Prop :=
  ∀ (s s1 : State) (v : Via) (bulk : Bool) (a : Nat) (l : Loc) (b : List Byte), s.memOk → twf none s.mem.cache = true →
    resolve s.mem v.home a = some l → b ≠ [] → a % 64 + b.length ≤ 64 → devWrite s v bulk a b = (none, s1) →
    (∀ k ln, cacheLine s.mem k = some ln → ln.data.length = 64) →
    (∃ s2, devRead s1 v bulk a b.length = (.ok b, s2)) ∧
    ∀ p, (p < l.phys ∨ l.phys + b.length ≤ p) →
      (∀ ln, cacheLine s.mem (p / 64) = some ln → ln.dirty = false →
        ln.data.getD (p % 64) 0#8 = cellGet s.mem.cells p) →
      peek s1.mem p = peek s.mem p

/-- The request in flight at a position, taken from those in flight; its stack wakes if it was in idle self-refresh. -/
def Sys2Proof.Machine.requestTaken (s : State) (pos : Nat) (r : MemReq) : State :=
  wakeStack { s with mem := { s.mem with reqs := dropAt pos s.mem.reqs } } r

/-- A request that no earlier one must precede, and that nothing holds, is served and answered (R30, R32, R267, R282): a read
with its bytes, a write with its end. Atomics on a target that performs them (R281): a fetch-add leaves the sum in its width
and answers with the value before; a compare-swap writes when the value is the expected one, and answers with the value before
either way. -/
def Obligations.RequestsComplete : Prop :=
  (∀ (s s1 s2 : State) (pos : Nat) (r : MemReq), s.mem.reqs[pos]? = some r → behind s (s.mem.reqs.take pos) r = false →
      waveBehind s r.post (emberSource 2 ((ownerOf s (r.via s.mem) r.addr).getD 0)) = false → r.amo = none → s.flt.armed = [] →
      requestTaken s pos r = s1 → requestAshed s1 (r.via s1.mem) r = false →
      (∀ b, r.wdata = none → readBlocked s1 (r.via s1.mem) r.bulk r.addr r.len = false →
        devRead s1 (r.via s1.mem) r.bulk r.addr r.len = (.ok b, s2) →
        Completes (.memoryRequest pos []) s (memoryAgain (sendReply s2 r { bytes := b }))) ∧
      (∀ b, r.wdata = some b → devWrite s1 (r.via s1.mem) r.bulk r.addr b = (none, s2) →
        Completes (.memoryRequest pos []) s (memoryAgain (sendReply s2 r {})))) ∧
  (∀ (s s1 s2 s3 : State) (die : Option DieId) (wide : Bool) (a v n : Nat) (r : MemReq) (b : List Byte),
    n = (if wide then 8 else 4) → r = atomicReq s die a n (.add v) → behind s s.mem.reqs r = false → s.flt.armed = [] →
    s1 = wakeStack s r → atomicTarget s1 (r.via s1.mem) a = .performed →
    devRead s1 (r.via s1.mem) false a n = (.ok b, s2) →
    devWrite s2 (r.via s1.mem) false a (leBytes n ((leNat b + v) % 2 ^ (8 * n))) = (none, s3) →
    Completes (.fetchAdd die wide a v) s (sendReply s3 r { bytes := leBytes n (leNat b) })) ∧
  (∀ (s s1 s2 s3 : State) (die : Option DieId) (a e v : Nat) (r : MemReq) (b : List Byte),
    r = atomicReq s die a 8 (.swap e v) → behind s s.mem.reqs r = false → s.flt.armed = [] →
    s1 = wakeStack s r → atomicTarget s1 (r.via s1.mem) a = .performed →
    devRead s1 (r.via s1.mem) false a 8 = (.ok b, s2) →
    (leNat b = e ∧ devWrite s2 (r.via s1.mem) false a (leBytes 8 (v % 2 ^ 64)) = (none, s3) ∨ leNat b ≠ e ∧ s3 = s2) →
    Completes (.compareSwap die a e v) s (sendReply s3 r { bytes := leBytes 8 (leNat b) }))

/-- A hearth's next group and a core's vector part, computed with no error and free to be written, are written; the part moves on,
or is done, and with its last part the operation has finished (R292, R528). A remote accumulate that is applied leaves its
sender's requests, and its operation or collective looks whether it is done (R295, R296). Upkeep of memory: a finished
first-touch copy is kept for the page and counted (R343); a page's digest enters the freeze's list (R305, R342); a fenced channel
stays fenced, asks to be mapped out and is reported (R287); a scrub visit moves the hearth to its next atom and changes no
byte (R285). -/
def Obligations.UnitsAndUpkeepComplete : Prop :=
  (∀ (s s1 s2 s3 : State) (k : Nat) (h : HearthId) (o : OpRec) (p : Part) (out : GroupOut), getOp s k = some o →
    o.partOf h.val = some p → dUnit o.desc = 1 → hearthRuns s h.val = true → hearthProofDue s h.val = false →
    s.flt.armed = [] →
    (o.kind = .update → accResidueBad s (opVia o (some (h.val / 5))) (leField o.desc 64 6 + 16 * p.lo)
      (o.groupEnd p - p.lo) = none) →
    (if (o.kind = .update && !p.checked) = true then expectCheck s (opVia o (some (h.val / 5))) o p else (.ok none, s))
      = (.ok none, s1) →
    computeGroup s1 (opVia o (some (h.val / 5))) k h.val o p = (.ok out, s2) →
    (writesBlocked s2 (opVia o (some (h.val / 5))) out.writes).1 = false →
    writeMany s2 (opVia o (some (h.val / 5))) false out.writes = (none, s3) →
    ∃ u o1, Completes (.hearthGroup k h none) s u ∧ u.mem = s3.mem ∧ u.raq = s.raq ++ out.send ∧
      u.flt.groups = tset 0 s.flt.groups h.val (tget 0 s.flt.groups h.val + 1) ∧ getOp u k = some o1 ∧
      o1.parts = (o.putPart h.val (o.afterGroup p)).parts ∧ o1.tally = (o.countAt h.val out.tally).tally) ∧
  (∀ (s s1 s2 : State) (k : Nat) (c : CoreId) (o : OpRec) (p : Part) (out : PartOut), getOp s k = some o →
    o.partOf c.val = some p → dUnit o.desc = 0 → s.flt.hubFault = false → clusterAwake s (c.val / 8) = true →
    bitOf s.rst.dieFence (c.val / 64) = false → s.flt.armed = [] →
    computePart s (opVia o (some (c.val / 64))) o ((List.range (p.hi - p.lo)).map (· + p.lo)) = (.ok out, s1) →
    (writesBlocked s1 (opVia o (some (c.val / 64))) out.writes).1 = false →
    writeMany s1 (opVia o (some (c.val / 64))) false out.writes = (none, s2) →
    ∃ u o1, Completes (.vectorPart k c none) s u ∧ u.mem = s2.mem ∧ getOp u k = some o1 ∧
      o1.parts = (o.putPart c.val none).parts ∧ o1.finished = o1.parts.isEmpty) ∧
  (∀ (s s1 : State) (pos : Nat) (r : RaReq), raReady s pos = some r → s.flt.armed = [] →
    (r.mode = 0 → accResidueBad s r.via r.addr r.codes.length = none) → applyRa s r.via r.mode r.addr r.vals = (.ended 0, s1) →
    (r.sender ≠ 1000 → Completes (.remoteAccRequest pos none) s
      (pump (finishIfDone { s1 with raq := dropAt pos s1.raq } r.op))) ∧
    (∀ c, r.sender = 1000 → s1.cord.posted.find? (fun c => c.op == r.op) = some c →
      Completes (.remoteAccRequest pos none) s (pump (collCheck { s1 with raq := dropAt pos s1.raq } c.post)))) ∧
  (∀ (s : State) (page : Nat) (q : PageSt), tget none s.ck.pages page = some q → q.phase = .copying →
    (∀ j ∈ maskGranules q.mask, ∃ g, physRead s (granulePhys page j) 4096 = .ok g) →
    ∃ u b, Completes (.firstTouchCopyDone page) s (memoryAgain (releaseHold u)) ∧
      u.ck.pages = tset none s.ck.pages page (some { q with phase := .copied, copy := b }) ∧
      u = { s with dict := u.dict, ck := { s.ck with pages := u.ck.pages } } ∧ u.dict = (dcount s Key.ftCopies).dict ∧
      b = (maskGranules q.mask).flatMap fun j =>
        match physRead s (granulePhys page j) 4096 with | .ok g => g | .error _ => []) ∧
  (∀ (s : State) (n : Fin 21) (fz : Freeze) (k : Nat) (b : List Byte), s.ck.fz = some fz → fz.stream = true →
    nextSlot s fz n.val = some k → readSlot s fz k = .ok b →
    ∃ s1 fz1, Completes (.pageDigestDone n []) s (pump s1) ∧ s1.ck.fz = some fz1 ∧
      fz1.entries = tset [] fz.entries k
        (listEntry (fz.slot k).1 k (fz.slot k).2 (pageDigest (fz.slot k).1 (fz.slot k).2 b)) ∧ s1.mem = s.mem) ∧
  (∀ (s : State) (h : HearthId) (c : Fin 32), s.dictOk → chanLive s.mem h.val c.val = true →
    chanFenced s.mem h.val c.val = false →
    ∃ s1, Completes (.channelFence h c) s (ckFenced s1 h.val c.val) ∧ chanFenced s1.mem h.val c.val = true ∧
      bitOf (dget s1 (Key.mapoutReq + h.val)) c.val = true ∧ s1.mem.cells = s.mem.cells ∧
      (∀ p ∈ s1.mem.cache, atomChannel p.1 ≠ 32 * h.val + c.val) ∧
      (∃ o ∈ s1.ev.occq, o.ctl = 32 + dieOfStack h.val ∧ o.ev.source = 0x0302) ∧
      ∃ f, (f ∈ s1.flt.faultq ∨ f ∈ s1.flt.held) ∧ f.mech = .fence ∧ f.src = 2 * 4096 + h.val) ∧
  (∀ (s : State) (h : HearthId), dget s Key.scrubHours ≠ 0 → stackHeld s h.val = false →
    bitOf s.mem.selfRefresh h.val = false → bitOf s.rst.dieFence (h.val / 5) = false → s.q.memReady = true →
    s.flt.armed = [] →
    ∃ u, Completes (.scrubVisit h .none) s u ∧ u.mem.cells = s.mem.cells ∧ u.mem.cache = s.mem.cache ∧ u.dict = s.dict ∧
      u.flt = s.flt ∧ u.mem.scrubPos = tset 0 s.mem.scrubPos h.val
        (if scrubEnd ≤ scrubPlace s h.val (tget 0 s.mem.scrubPos h.val) + 1 then 0
         else scrubPlace s h.val (tget 0 s.mem.scrubPos h.val) + 1))

/-- Temperatures of stacks (R288): a reading is shown, and moves the stack to the level its thresholds give; from level 3 the
stack is in self-refresh, at level 4 its channels are fenced. Clocks of islands (R54). The level of a stack by its thresholds
(R288): entered at 85, 95, 105 and 110 °C, left below 82, 92 and 100 °C, and Critical never left. Temperatures in 1/16 °C. -/
def Obligations.StackHeatAndClocksComplete : Prop :=
  (∀ (s : State) (h : HearthId) (t : Option Int), s.dictOk → s.q.memReady = true →
    (stackLevel (dget s (Key.stackThermal + h.val)) (t.getD 1680) = dget s (Key.stackThermal + h.val) →
      Completes (.stackThermalLevel h t) s (memoryAgain
        (dset s (Key.stackTemp + h.val) (match t with | none => 0x7FFF | some x => signed16 x)))) ∧
    (∀ n, stackLevel (dget s (Key.stackThermal + h.val)) (t.getD 1680) = n → n ≠ dget s (Key.stackThermal + h.val) → n < 4 →
      ∃ s1, Completes (.stackThermalLevel h t) s (memoryAgain (pump (heatNotices s1))) ∧
        dget s1 (Key.stackThermal + h.val) = n ∧ bitOf s1.mem.selfRefresh h.val = decide (3 ≤ n) ∧
        s1.mem.cells = s.mem.cells ∧ (n < 3 → ∀ p ∈ s1.mem.holdq, p.1 ≠ h.val ∨ dget s (Key.stackThermal + h.val) < 3)) ∧
    (stackLevel (dget s (Key.stackThermal + h.val)) (t.getD 1680) = 4 → dget s (Key.stackThermal + h.val) ≠ 4 →
      ∃ s1, Completes (.stackThermalLevel h t) s (memoryAgain (pump (heatNotices (fenceStack s1 h.val)))) ∧
        dget s1 (Key.stackThermal + h.val) = 4 ∧ bitOf s1.mem.selfRefresh h.val = true)) ∧
  (∀ (s : State) (h : HearthId), s.q.memReady = true → Completes (.islandClockLoss (.hbm h)) s
    (fenceStack (raiseFault s { mech := .hbmClock, utype := 2, unit := h.val, locA := 4 }) h.val)) ∧
  (∀ (s : State) (l : Fin 8), s.q.qeReady = true →
    Completes (.islandClockLoss (.dieLink l)) s (linkLost s l.val false)) ∧
  (∀ s : State, s.rst.off = false → s.rst.mrst = false → s.pw.module ≠ .banked →
    Completes (.islandClockLoss .pcie) s (linkDown (hostReset s))) ∧
  (∀ (s : State) (p : Fin 8), dget s (Key.cordPortState + p.val) ≠ 0 → dget s (Key.cordPortState + p.val) ≠ 3 →
    Completes (.islandClockLoss (.cord p)) s (hubEvent (dset s (Key.cordPortState + p.val) 0) 0x0403)) ∧
  (∀ s : State, (dget s Key.fieldLinkState ≠ 2 → Completes (.islandClockLoss .field) s
      { (dset s Key.fieldLinkState 0) with dsys := { s.dsys with dad := false } }) ∧
    (dget s Key.fieldLinkState = 2 → Completes (.islandClockLoss .field) s s)) ∧
  (∀ t : Int,
      (∀ l, l < 4 → 110 * 16 ≤ t → stackLevel l t = 4) ∧ (∀ l, l < 4 → 105 * 16 ≤ t → t < 110 * 16 → stackLevel l t = 3) ∧
      (95 * 16 ≤ t → t < 100 * 16 → stackLevel 0 t = 2 ∧ stackLevel 1 t = 2 ∧ stackLevel 2 t = 2 ∧ stackLevel 3 t = 2) ∧
      (100 * 16 ≤ t → t < 105 * 16 → stackLevel 0 t = 2 ∧ stackLevel 1 t = 2 ∧ stackLevel 2 t = 2 ∧ stackLevel 3 t = 3) ∧
      (92 * 16 ≤ t → t < 95 * 16 → stackLevel 0 t = 1 ∧ stackLevel 1 t = 1 ∧ stackLevel 2 t = 2 ∧ stackLevel 3 t = 2) ∧
      (85 * 16 ≤ t → t < 92 * 16 → ∀ l, l < 4 → stackLevel l t = 1) ∧
      (82 * 16 ≤ t → t < 85 * 16 → stackLevel 0 t = 0 ∧ ∀ l, 0 < l → l < 4 → stackLevel l t = 1) ∧
      (t < 82 * 16 → ∀ l, l < 4 → stackLevel l t = 0) ∧ stackLevel 4 t = 4)


/-! ### Power, heat and the draught scheduler -/

/-- What is left after a written command entry has had its effect: the value written is forgotten, since the entry acts when it is
written and keeps nothing. -/
def Sys2Proof.Machine.writtenGone (s : State) (key : Nat) : State :=
  { s with dsys := { s.dsys with written := tset none s.dsys.written key none } }

/-- R386: a reading puts a feed into the condition of the table by its magnitude (in 0.01 V), with an event when it comes to be LOW,
UNDER or OVER; a feed is usable in GOOD and LOW and is isolated in UNDER and OVER, which leaves the module drawing from the other
one or from none. -/
def Obligations.FeedsFollowTheTable : Prop :=
  (∀ old mag : Nat,
    (5700 < mag → feedNext old mag = 3) ∧
    (5650 < mag → mag ≤ 5700 → feedNext 3 mag = 3 ∧ (old ≠ 3 → feedNext old mag = 0)) ∧
    (4050 ≤ mag → mag ≤ 5650 → feedNext old mag = 0) ∧
    (3800 ≤ mag → mag < 4050 → feedNext 2 mag = 2 ∧ (old ≠ 2 → feedNext old mag = 1)) ∧
    (mag < 3800 → feedNext old mag = 2)) ∧
  (∀ (s : State) (f : Nat), feedUsable s f = true ↔ feedCond s f = 0 ∨ feedCond s f = 1) ∧
  (∀ s : State, (feedUsable s 0 = false → feedDraws s = 0 ∨ feedDraws s = 2) ∧
    (feedUsable s 1 = false → feedDraws s = 0 ∨ feedDraws s = 1)) ∧
  (∀ (s : State) (f : Fin 2) (r : FeedReading), s.dictOk →
    ∃ u, Completes (.feedCondition f r) s u ∧ feedCond u f.val = feedNext (feedCond s f.val) (-r.volt).toNat ∧
      feedCond u (1 - f.val) = feedCond s (1 - f.val) ∧ u.pw.feedDraw = feedDraws u ∧
      (feedCond u f.val ≠ feedCond s f.val → feedCond u f.val ≠ 0 → ∃ e ∈ u.ev.evq, e.source = 0x0200))

/-- Readings of both feeds that cross, and the loss and return of every feed (R385, R388): the load lies where the magnitudes put
it; a power fail leaves the module Off with nothing but flash; a cold start begins start-up at stage 0. The budget window
moves Vc by the table of R391 under the cap of its own window, and every ready item grows older by a window (R402); an idle
cluster is damped, and a damped one wakes (R395). -/
def Obligations.FeedsWindowsAndDampingComplete : Prop :=
  (∀ (s : State) (a b : FeedReading), s.dictOk →
    ∃ u, Completes (.feedVoltageCrossover a b) s u ∧ u.pw.feedA = (-a.volt).toNat ∧ u.pw.feedB = (-b.volt).toNat ∧
      feedCond u 0 = feedNext (feedCond s 0) (-a.volt).toNat ∧ feedCond u 1 = feedNext (feedCond s 1) (-b.volt).toNat ∧
      u.pw.feedDraw = feedDraws u ∧ u.mem = s.mem ∧ u.seqs = s.seqs) ∧
  (∀ s : State, s.rst.off = false →
    ∃ u, Completes .powerFail s u ∧ u.rst.off = true ∧ u.pw.module = .off ∧ u.flash = flashAfter s ∧ u.mem = {} ∧
      u.seqs = [] ∧ u.engines = [] ∧ u.ops = [] ∧ u.knots = [] ∧ u.q.qeReady = false ∧ u.rst.mrst = s.rst.mrst) ∧
  (∀ s : State, s.rst.off = true →
    ∃ u, Completes .coldStart s u ∧ u.rst.off = false ∧ dget u Key.startupStage = 0 ∧ dget u Key.resetCause = 0 ∧
      u.flash = flashAfter s ∧ u.mem = {} ∧ u.rst.mrst = s.rst.mrst) ∧
  (∀ (s : State) (a b : FeedReading) (cl : List (Option Nat)) (quiet : BitVec 20) (p : Nat), s.q.qeReady = true →
    s.flt.hubFault = false →
    p = (a.power.getD (dget s Key.powerCap * 10) + b.power.getD (dget s Key.powerCap * 10)) * 1000 →
    ∃ u s1, Completes (.budgetWindowEnd a b cl quiet) s u ∧ u.pw.vc = nextVc s1 p (effCap s1) ∧
      u.q.ready = s.q.ready.map (fun w => { w with age := w.age + 1 }) ∧ s1.pw.vc = s.pw.vc ∧ s1.pw.committed = {} ∧
      s1.pw.feedA = (-a.volt).toNat ∧ s1.pw.feedB = (-b.volt).toNat ∧ s1.pw.capW = s.pw.capW ∧
      u.pw.capW = dget u Key.powerCap ∧ s1.engines = s.engines) ∧
  (∀ (s : State) (p cap : Nat), s.pw.vc ≤ dget s Key.draughtMax → draughtFloor s ≤ s.pw.vc →
    (cap < p → nextVc s p cap = max (s.pw.vc - 25) (draughtFloor s)) ∧
    (p ≤ cap → capHeldClusters s ≠ [] → nextVc s p cap = max (s.pw.vc - 5) (draughtFloor s)) ∧
    (p ≤ cap → capHeldClusters s = [] →
      (100 * p < 97 * cap → (∀ c, c < 32 → clusterLevel s c = 0) →
        nextVc s p cap = min (s.pw.vc + 5) (dget s Key.draughtMax)) ∧
      (97 * cap ≤ 100 * p → nextVc s p cap = s.pw.vc) ∧
      ((∃ c, c < 32 ∧ 1 ≤ clusterLevel s c) → nextVc s p cap = s.pw.vc))) ∧
  (∀ (s : State) (c : ClusterId), dget s Key.dampIdle ≠ 0 → clusterCond s c.val = 0 → clusterIdle s c.val = true →
    ∃ u, Completes (.dampIdleExpiry c) s u ∧ (getCluster u c.val).damp = .idle ∧ u.mem = s.mem ∧ u.seqs = s.seqs) ∧
  (∀ (s : State) (c : ClusterId), ((getCluster s c.val).damp = .idle ∨
      (getCluster s c.val).damp = .hold ∧ (getCluster s c.val).capHold = false ∧ (getCluster s c.val).heatHold = false) →
    Completes (.clusterWake c) s
      (clusterAwakens (updCluster s c.val (fun p => { p with damp := .none })) c.val))

/-- The power states (R396, R397): Smoulder from Run when nothing forbids it, Banked from Smoulder, and Run from either. Clusters'
heat (R398): a reading is shown and moves the cluster to the level of its thresholds, Held holding it; at Trip, by a reading
or by its comparator, the cluster is off until it is reset. -/
def Obligations.PowerStatesAndHeatComplete : Prop :=
  (∀ s : State, mayWrite s Key.powerStateCmd 1 → s.pw.module = .run → mayRest s = true →
    ∃ u, Completes .powerSmoulder s u ∧ u.pw.module = .smoulder ∧ u.seqs = [] ∧ u.ops = [] ∧ u.knots = [] ∧
      u.q.qeReady = false ∧ u.q.memReady = false ∧ u.cord.up = [] ∧ u.mem.selfRefresh = 2 ^ 20 - 1) ∧
  (∀ s : State, mayWrite s Key.powerStateCmd 2 → s.pw.module = .smoulder →
    Completes .powerBanked s (writtenGone (bankedState s) Key.powerStateCmd) ∧ (bankedState s).mem = {} ∧
      (bankedState s).flash = { flashAfter s with fwState := s.flash.fwState, staged := s.flash.staged } ∧ (bankedState s).pw.module = .banked ∧ (bankedState s).q.hostEpoch = 1) ∧
  (∀ s : State, mayWrite s Key.powerStateCmd 0 →
    (s.pw.module = .smoulder →
      ∃ s1, Completes .powerRun s (writtenGone (cordStart (startLevels s1)) Key.powerStateCmd) ∧ s1.pw.module = .run ∧
        s1.q.qeReady = true ∧ s1.q.memReady = true ∧ s1.mem.cells = s.mem.cells ∧ s1.mem.selfRefresh = 0) ∧
    (s.pw.module = .banked → Completes .powerRun s (writtenGone (wipe s 3) Key.powerStateCmd))) ∧
  (∀ (s : State) (c : ClusterId) (t : Option Int) (n : Nat), s.dictOk → twf ({} : ClusterPw) s.pw.clusters = true →
    s.q.qeReady = true → clusterNext (clusterLevel s c.val) (t.getD 1680) = n → n ≠ 4 →
    ∃ u, Completes (.clusterThermalLevel c t) s u ∧ clusterLevel u c.val = n ∧
      dget u (Key.clusterTemp + c.val) = (match t with | none => 0x7FFF | some x => signed16 x) ∧
      (getCluster u c.val).heatHold = decide (n = 3) ∧ u.mem = s.mem ∧ u.seqs = s.seqs) ∧
  (∀ (s : State) (c : ClusterId), s.dictOk → s.q.qeReady = true → (getCluster s c.val).tripped = false →
    ∃ u, Completes (.trip c) s u ∧ (getCluster u c.val).tripped = true ∧ (getCluster u c.val).off = true ∧
      clusterLevel u c.val = 4) ∧
  (∀ t : Int,
    (∀ l, l < 4 → 115 * 16 ≤ t → clusterNext l t = 4) ∧ (∀ l, l < 4 → 105 * 16 ≤ t → t < 115 * 16 → clusterNext l t = 3) ∧
    (100 * 16 ≤ t → t < 105 * 16 →
      clusterNext 0 t = 2 ∧ clusterNext 1 t = 2 ∧ clusterNext 2 t = 2 ∧ clusterNext 3 t = 3 ∧ clusterNext 4 t = 4) ∧
    (96 * 16 ≤ t → t < 100 * 16 →
      clusterNext 0 t = 1 ∧ clusterNext 1 t = 1 ∧ clusterNext 2 t = 2 ∧ clusterNext 3 t = 2 ∧ clusterNext 4 t = 1) ∧
    (90 * 16 ≤ t → t < 96 * 16 → ∀ l, l ≤ 4 → clusterNext l t = 1) ∧
    (87 * 16 ≤ t → t < 90 * 16 → clusterNext 0 t = 0 ∧ clusterNext 4 t = 0 ∧ ∀ l, 0 < l → l < 4 → clusterNext l t = 1) ∧
    (t < 87 * 16 → ∀ l, l ≤ 4 → clusterNext l t = 0) ∧ (105 * 16 ≤ t → clusterNext 4 t = 4))

/-- `LOW_VOLTAGE_PERMIT` is written and the levels follow it (R47); a step-monitor window sets the rates of clusters and the window
count (R48); the coolant readings are shown, with an event when the inlet comes to exceed 50 °C (R405). -/
def Obligations.MonitorsComplete : Prop :=
  (∀ (s : State) (v : Byte), mayWrite s Key.lowVoltagePermit v.toNat → s.dictOk →
    ∃ u, Completes (.lowVoltagePermitWrite v) s u ∧ dget u Key.lowVoltagePermit = v.toNat ∧
      (s.q.qeReady = true → ∀ d, d < 4 → draughtFloor u ≤ dget s Key.draughtMax →
        dget s (Key.draughtFixed + d) = 0 → draughtFloor u ≤ dget u (Key.draughtLevel + d) ∨ 850 < levelOf u d)) ∧
  (∀ (s : State) (counts : List Nat), s.dictOk → s.q.qeReady = true →
    ∃ u, Completes (.stepMonitorWindow counts) s u ∧
      (∀ c, c < 32 → dget u (Key.clusterStepRate + c) = if 2 ≤ clusterCond s c then 0
        else counts.getD c 0 * 156250000 / 2 ^ dget s Key.stepMonWindow / 1000 % 2 ^ 32) ∧
      dget u Key.stepMonCount = (dget s Key.stepMonCount + 1) % 2 ^ 32 ∧ u = { s with dict := u.dict }) ∧
  (∀ (s : State) (i o : Option Int), s.dictOk →
    ∃ u, Completes (.coolantInletReading i o) s u ∧
      dget u Key.coolantTemp = (match i with | none => 0x7FFF | some x => signed16 x) ∧
      dget u (Key.coolantTemp + 1) = (match o with | none => 0x7FFF | some x => signed16 x) ∧
      (∀ x, i = some x → u.pw.coolantHot = decide (800 < x)) ∧ (i = none → u.pw.coolantHot = s.pw.coolantHot) ∧
      u.ev.evq = s.ev.evq ++
        (if u.pw.coolantHot = true ∧ s.pw.coolantHot = false then [{ source := 0x0206, kind := 2 }] else []))

/-! ### Events and interrupt delivery -/

/-- The hub accepts a record that is the next of its origin (R414): it takes the next sequence value; an unrouted one is counted
(R407); one for a full ring is counted and the ring remembers it; any other is written to its host ring at the producer index,
which moves on. The acceptance may release a storm's hold (R197) or trigger a cut (R498). -/
def Obligations.RecordsAreAccepted : Prop :=
  ∀ (s sa : State) (pos : Nat) (e : EvRec) (cfg r size idx : Nat), s.dictOk → hubRuns s = true →
    nextOfOrigin s.ev.evq pos = some e → dget s (srcCfgKey e.source) = cfg → bits cfg 21 16 = r →
    2 ^ bits (dget s (Key.ringCfg + r)) 4 0 = size → dget s (Key.ringPi + r) = idx →
    sa = { s with ev := { s.ev with evq := dropAt pos s.ev.evq, seq := (s.ev.seq + 1) % 2 ^ 64 } } →
    ((bitOf cfg 15 = false ∨ dget s (Key.ringEnable + r) = 0) → Completes (.eventRecordAccept pos false) s (snapEvent
      (if e.source = 0x0101 ∧ e.code = 0 then stormRecorded (dcount sa Key.evtUnrouted) else dcount sa Key.evtUnrouted)
      e.source)) ∧
    (bitOf cfg 15 = true → dget s (Key.ringEnable + r) ≠ 0 →
      (ringCount s r = size →
        ∃ s1, Completes (.eventRecordAccept pos false) s
            (snapEvent (if e.source = 0x0101 ∧ e.code = 0 then stormRecorded s1 else s1) e.source) ∧
          s1.ev.seq = sa.ev.seq ∧ s1.ev.evq = sa.ev.evq ∧ r ∈ s1.ev.ringDropped ∧ s1.out = s.out ∧ s1.mem = s.mem ∧
          dget s1 (Key.ringOvf + r) = satAdd (2 ^ 32 - 1) (dget s (Key.ringOvf + r)) 1) ∧
      (ringCount s r ≠ size → bitOf (dget s (Key.ringCfg + r)) 20 = true → s.d3 = false →
        ∃ s1, Completes (.eventRecordAccept pos false) s
            (snapEvent (if e.source = 0x0101 ∧ e.code = 0 then stormRecorded s1 else s1) e.source) ∧
          s1.ev.seq = sa.ev.seq ∧ s1.ev.evq = sa.ev.evq ∧ s1.mem = s.mem ∧ dget s1 (Key.ringPi + r) = (idx + 1) % 2 ^ 32 ∧
          .hostWrite (dget s (Key.ringBase + r) + 32 * (idx % size))
            (recordBytes e s.ev.seq (bits cfg 3 0) (idx / size % 2 == 0) (s.ev.ringDropped.contains r)) ∈ s1.out) ∧
      (∀ sb, ringCount s r ≠ size → bitOf (dget s (Key.ringCfg + r)) 20 = false →
        devWrite sa hubVia false (dget s (Key.ringBase + r) + 32 * (idx % size))
          (recordBytes e s.ev.seq (bits cfg 3 0) (idx / size % 2 == 0) (s.ev.ringDropped.contains r)) = (none, sb) →
        ∃ s1, Completes (.eventRecordAccept pos false) s
            (snapEvent (if e.source = 0x0101 ∧ e.code = 0 then stormRecorded s1 else s1) e.source) ∧
          s1.ev.seq = sa.ev.seq ∧ s1.ev.evq = sa.ev.evq ∧ s1.mem = sb.mem ∧
          dget s1 (Key.ringPi + r) = (dget sb (Key.ringPi + r) + 1) % 2 ^ 32))

/-- Rings, targets, groups and the hold (R408–R417): a holdoff raises its ring; a consumer index within the ring's records is taken,
and an emptied ring has no priority and nothing pending; a target's word sets its threshold and idle flag, and with `EOI` its
running priority comes back from its stack; a group definition in range is taken; `EVT_HOLD` is taken. -/
def Obligations.RingAndTargetCommandsComplete : Prop :=
  (∀ (s : State) (r : Fin 64), s.ev.ringMod.contains r.val = true → Completes (.holdoffExpiry r) s (raiseRing s r.val)) ∧
  (∀ (s : State) (r : Fin 64) (v : BitVec 32), mayWrite s (Key.ringCi + r.val) v.toNat → s.dictOk →
    (v.toNat + 2 ^ 32 - dget s (Key.ringCi + r.val)) % 2 ^ 32 ≤ ringCount s r.val →
    ∃ u, Completes (.ringCiWrite r v) s u ∧ dget u (Key.ringCi + r.val) = v.toNat ∧
      (dget s (Key.ringPi + r.val) = v.toNat → dget u (Key.ringPpri + r.val) = 0 ∧
        u.ev.ringPend = sremove r.val s.ev.ringPend ∧ u.ev.ringMod = sremove r.val s.ev.ringMod ∧
        u.ev.ringRaised = sremove r.val s.ev.ringRaised ∧ u.out = s.out)) ∧
  (∀ (s : State) (t : Fin 2054) (v : BitVec 31), mayWrite s (tctlKey t.val) v.toNat → s.dictOk →
    ∃ s2, Completes (.tctlWrite t v) s (writtenGone (checkModerated
        (retryRings s2 (fun r => (groupTargets s2 (ringGroup s2 r)).contains t.val))
        (fun r => (groupTargets s2 (ringGroup s2 r)).contains t.val)) (tctlKey t.val)) ∧
      tThresh s2 t.val = v.toNat % 16 ∧ tIdle s2 t.val = bitOf v.toNat 8 ∧ tRunpri s2 t.val = tRunpri s t.val) ∧
  (∀ (s : State) (t : Fin 2054) (v : BitVec 31) (p : Nat) (rest : List Nat), mayWrite s (tctlKey t.val) (2 ^ 31 + v.toNat) →
    s.dictOk → twf [] s.ev.tstack = true → tStack s t.val = p :: rest → p < 16 →
    ∃ s2, Completes (.eoi t v) s (writtenGone (checkModerated
        (retryRings s2 (fun r => (groupTargets s2 (ringGroup s2 r)).contains t.val))
        (fun r => (groupTargets s2 (ringGroup s2 r)).contains t.val)) (tctlKey t.val)) ∧
      tThresh s2 t.val = v.toNat % 16 ∧ tIdle s2 t.val = bitOf v.toNat 8 ∧ tRunpri s2 t.val = p ∧ tStack s2 t.val = rest) ∧
  (∀ (s : State) (v : Byte), mayWrite s Key.evtHold v.toNat →
    (v = 1 → Completes (.evtHoldWrite v) s (writtenGone (dset s Key.evtHold 1) Key.evtHold)) ∧
    (v = 0 → Completes (.evtHoldWrite v) s (writtenGone (writeEvtHold s false) Key.evtHold))) ∧
  (∀ (s : State) (g : Fin 64) (v : BitVec 32), mayWrite s (Key.groupDef + g.val) v.toNat → v.toNat < 2 ^ 19 →
    1 ≤ bits v.toNat 18 12 → bits v.toNat 18 12 ≤ 64 → bits v.toNat 11 0 + bits v.toNat 18 12 ≤ 2054 →
    ∃ s1, s1 = dset s (Key.groupDef + g.val) v.toNat ∧ Completes (.groupDefWrite g v) s
      (writtenGone (retryRings s1 (fun r => ringGroup s1 r == g.val)) (Key.groupDef + g.val)))

/-- The cluster and die event controllers (R420–R422): an occurrence fills its source's latch and sets its pending bit, or is counted
in it; a controller forwards every pending bit that is not masked, in increasing order, and clears it; `MASK`, `PEND` and
`EC_LOCK` are written. -/
def Obligations.LocalControllersComplete : Prop :=
  (∀ (s : State) (pos : Nat) (o : LocalOcc), s.dictOk → s.ev.occq[pos]? = some o →
    ∃ u, Completes (.localOccurrence pos) s u ∧ u.ev.occq = dropAt pos s.ev.occq ∧
      (bitOf (dget s (pendKey o.ctl)) o.bit = false →
        bitOf (dget u (pendKey o.ctl)) o.bit = true ∧ ecLatch u o.ctl o.bit = some { o.ev with count := 1 }) ∧
      (∀ e, bitOf (dget s (pendKey o.ctl)) o.bit = true → ecLatch s o.ctl o.bit = some e →
        ecLatch u o.ctl o.bit = some { e with count := min 0xFFFF (e.count + 1) } ∧ u.dict = s.dict)) ∧
  (∀ (s : State) (ctl : Fin 36), s.dictOk →
    ∃ u, Completes (.ecForward ctl) s u ∧
      (∀ b, b < 64 → bitOf (dget u (pendKey ctl.val)) b =
        (bitOf (dget s (pendKey ctl.val)) b && bitOf (dget s (maskKey ctl.val)) b)) ∧
      u.ev.evq = s.ev.evq ++ ((List.range 64).filter fun b =>
        bitOf (dget s (pendKey ctl.val)) b && !bitOf (dget s (maskKey ctl.val)) b).map fun b =>
          (ecLatch s ctl.val b).getD (softRecord ctl.val b)) ∧
  (∀ (s : State) (ctl : Fin 36) (v : Word), mayWrite s (maskKey ctl.val) v.toNat →
    Completes (.maskWrite ctl v) s (wset s (maskKey ctl.val) (ctlWord ctl.val v.toNat))) ∧
  (∀ (s : State) (ctl : Fin 36) (v : Word), mayWrite s (pendKey ctl.val) v.toNat → s.dictOk →
    ∃ u, Completes (.pendWrite ctl v) s u ∧ dget u (pendKey ctl.val) = ctlWord ctl.val v.toNat ∧ u.ev.evq = s.ev.evq ∧
      ∀ b, b < 64 → bitOf (ctlWord ctl.val v.toNat) b = true → bitOf (dget s (pendKey ctl.val)) b = false →
        ∃ e, ecLatch u ctl.val b = some e ∧ e.soft = true ∧ e.count = 0) ∧
  (∀ (s : State) (d : DieId) (v : Byte), mayWrite s (Key.ecLock + d.val) v.toNat →
    ((dget s (Key.ecLock + d.val) = 0 ∨ dget s (Key.ecLock + d.val) = v.toNat ∨ v = 0) →
      Completes (.ecLockWrite d v) s (writtenGone (dset s (Key.ecLock + d.val) v.toNat) (Key.ecLock + d.val))) ∧
    (dget s (Key.ecLock + d.val) ≠ 0 → dget s (Key.ecLock + d.val) ≠ v.toNat → v ≠ 0 →
      Completes (.ecLockWrite d v) s (writeRejected s (Key.ecLock + d.val) 3)))

/-! ### The Cord -/

/-- A sequenced frame has been applied on a channel (R320): the channel expects the next one and owes an acknowledgement, which goes
out once eight frames are owed. -/
def Sys2Proof.Machine.frameApplied (s : State) (key : Nat) : State :=
  let c := getChan s key
  let s1 := setChan s key { c with expected := (c.expected + 1) % 2 ^ 32, owed := c.owed + 1, gapSent := false }
  if c.owed + 1 ≥ 8 then sendAck s1 key else s1

/-- A frame that reaches a port is accepted (R310–R313): the port is up, every check passes, and `g` is the frame with the payload
that its `LEN` covers. -/
def Sys2Proof.Machine.accepted (s : State) (port type : Nat) (f g : CordFrame) : Prop :=
  portOpen s port = true ∧ portVerdict s port type f = .accept ∧ g = { f with payload := f.payload.take (64 * f.len) }

/-- A frame is accepted on a path that is up, with a session that is not an old one: `s2` is the state that `g` is handled in. -/
def Sys2Proof.Machine.frameIn (s s2 : State) (peer port type : Nat) (f g : CordFrame) : Prop :=
  accepted s port type f g ∧ pathExists s peer port = true ∧ pathUp s peer port = true ∧
    ∃ s1, rxSession s peer port g false = some s1 ∧ s2 = countCut s1 (chanKey peer port (g.chan % 16))

/-- The commands of sequenced frames of a channel (R311, R320), each with its `TYPE` and the frame as it arrives, whose `CODE` is the
message's for a CTRL frame (R350). -/
def Sys2Proof.Machine.sequencedCmds (peer : Nat) (port : Fin 8) (f : CordFrame) (hit : Option (Nat × Nat × Bool)) :
    List (Nat × CordFrame × Instr) :=
  let ctrl := fun (code : Nat) (i : Instr) => (11, { f with code := code }, i)
  [(1, f, .ra peer port ⟨f, hit⟩), (2, f, .gather peer port f), (10, f, .page peer port f), ctrl 1 (.pairReq peer port f),
    ctrl 2 (.pairAck peer port f), ctrl 3 (.pairRefuse peer port f), ctrl 4 (.freezeBegin peer port f),
    ctrl 5 (.beginAck peer port f), ctrl 6 (.digests peer port f), ctrl 7 (.freezeEnd peer port f), ctrl 8 (.endAck peer port f),
    ctrl 9 (.refuse peer port f), ctrl 10 (.abandon peer port f), ctrl 11 (.restoreReq peer port f),
    ctrl 12 (.digestReq peer port f), ctrl 13 (.unavailable peer port f)]

/-- The expected RA frame of a posted collective adds its contributions to the accumulators of the shard, the expected GATHER frame
writes its bytes at the sender's shard; both are counted and acknowledged (R320, R324, R326). A frame of a collective that is not
posted is answered with NAK NOT_POSTED, and one that names no group of a started job is dropped and counted (R313). -/
def Obligations.CollectiveFramesComplete : Prop :=
  (∀ (s : State) (key : Nat), twf {} s.cord.chans = true →
    (getChan (frameApplied s key) key).expected = ((getChan s key).expected + 1) % 2 ^ 32 ∧
      (getChan (frameApplied s key) key).owed = (if (getChan s key).owed < 7 then (getChan s key).owed + 1 else 0) ∧
      (∀ k, k ≠ key → getChan (frameApplied s key) k = getChan s k) ∧
      (frameApplied s key).mem = s.mem ∧ (frameApplied s key).cord.posted = s.cord.posted) ∧
  (∀ (s s2 s3 : State) (peer : Nat) (port : Fin 8) (f g : CordFrame) (hit : Option (Nat × Nat × Bool)) (c : Coll) (fmt : Fmt)
      (n : Nat), frameIn s s2 peer port.val 1 f g →
    groupKnown s g = true → g.seq = (getChan s2 (chanKey peer port.val (g.chan % 16))).expected → collOf s2 g = some c →
    c.aborted = none → c.gather = false → Fmt.ofCode g.code = some fmt → fmt.accumulates = true →
    g.elem + g.payload.length / fmt.bytes ≤ c.shard → g.srcRank < c.members →
    applyChunks s2 { home := c.home } fmt c.x.bb (c.accBase + 16 * g.elem) 0 0
      (hit.map fun x => { i := x.1, lane := x.2.1, again := x.2.2 })
      (frameChunks fmt.bytes (g.payload.length + 1) g.payload) = (some (0, n), s3) →
    Completes (.ra peer port ⟨f, hit⟩) s (pump (frameApplied (collGot s3 c g.srcRank (g.payload.length / fmt.bytes))
      (chanKey peer port.val (g.chan % 16))))) ∧
  (∀ (s s2 s3 : State) (peer : Nat) (port : Fin 8) (f g : CordFrame) (c : Coll), frameIn s s2 peer port.val 2 f g →
    groupKnown s g = true → g.seq = (getChan s2 (chanKey peer port.val (g.chan % 16))).expected → collOf s2 g = some c →
    c.aborted = none → c.gather = true → 64 * g.elem + g.payload.length ≤ c.shard → g.srcRank < c.members →
    devWrite s2 { home := c.home } false (c.yBase + g.srcRank * c.shard + 64 * g.elem) g.payload = (none, s3) →
    Completes (.gather peer port f) s (pump (frameApplied (collGot s3 c g.srcRank g.payload.length)
      (chanKey peer port.val (g.chan % 16))))) ∧
  (∀ (s s2 : State) (peer : Nat) (port : Fin 8) (f g : CordFrame) (hit : Option (Nat × Nat × Bool)) (key : Nat),
    ∀ x ∈ (sequencedCmds peer port f hit).take 2, key = chanKey peer port.val (g.chan % 16) →
    (accepted s port.val x.1 x.2.1 g → groupKnown s g = false → Completes x.2.2 s (cordDrop s)) ∧
    (frameIn s s2 peer port.val x.1 x.2.1 g → groupKnown s g = true → g.seq = (getChan s2 key).expected →
      collOf s2 g = none →
      Completes x.2.2 s (pump (sendNak (setChan s2 key { getChan s2 key with gapSent := false }) key 2))))

/-- R320: a sequenced frame behind the expected one has no effect but another ACK; one ahead of it none but one NAK GAP until the
expected frame comes. A frame on a path that is not up has no effect. -/
def Obligations.FramesOutOfOrderHaveNoEffect : Prop :=
  ∀ (s : State) (peer : Nat) (port : Fin 8) (f g : CordFrame) (hit : Option (Nat × Nat × Bool)),
    ∀ x ∈ sequencedCmds peer port f hit, (x.1 = 1 ∨ x.1 = 2 → groupKnown s g = true) →
    (accepted s port.val x.1 x.2.1 g → pathUp s peer port.val = false → Completes x.2.2 s s) ∧
    (∀ (s2 : State) (key : Nat) (c : Chan), frameIn s s2 peer port.val x.1 x.2.1 g →
      key = chanKey peer port.val (g.chan % 16) → c = getChan s2 key →
      (2 ^ 31 ≤ (g.seq + 2 ^ 32 - c.expected) % 2 ^ 32 → Completes x.2.2 s (pump (sendAck s2 key))) ∧
      (g.seq ≠ c.expected → (g.seq + 2 ^ 32 - c.expected) % 2 ^ 32 < 2 ^ 31 →
        Completes x.2.2 s (pump (if c.gapSent then s2 else sendNak (setChan s2 key { c with gapSent := true }) key 0))))

/-- ACK, NAK and the channel timers (R320, R321): an ACK moves the window past what it covers and ends counted go-backs and a wait; a
NAK GAP or an expired RTO goes back, and past `CORD_RETRY_MAX` the path is lost; the RTO also lets a NAK GAP be sent again (log 117);
a NAK BUSY or NOT_POSTED waits and its expiry resends; an owed ACK goes out when its timer ends. -/
def Obligations.AcknowledgementsComplete : Prop :=
  (∀ (s s2 : State) (peer : Nat) (port : Fin 8) (f g : CordFrame) (key : Nat) (c : Chan) (late : List TxFrame),
    frameIn s s2 peer port.val 3 f g → key = chanKey peer port.val (g.chan % 16) → c = getChan s2 key →
    late = c.unacked.filter (fun x => decide ((x.seq + 2 ^ 32 - g.arg % 2 ^ 32 - 1) % 2 ^ 32 < 2 ^ 31)) →
    Completes (.ack peer port f) s (pump (if late.length = c.unacked.length then s2
      else setChan s2 key { c with unacked := late, goBacks := 0, rnr := none }))) ∧
  (∀ (s s2 : State) (peer : Nat) (port : Fin 8) (f g : CordFrame) (key : Nat) (c : Chan),
    frameIn s s2 peer port.val 4 f g → key = chanKey peer port.val (g.chan % 16) → c = getChan s2 key → c.unacked ≠ [] →
    (g.code = 0 → c.goBacks < dget s2 Key.cordRetryMax →
      Completes (.nak peer port f) s (pump (resend (setChan s2 key { c with goBacks := c.goBacks + 1 }) key g.arg))) ∧
    (g.code = 0 → dget s2 Key.cordRetryMax ≤ c.goBacks → Completes (.nak peer port f) s (pump (pathLost s2 peer port.val 2))) ∧
    (g.code ≠ 0 → Completes (.nak peer port f) s (pump (setChan s2 key { c with rnr := some g.arg })))) ∧
  (∀ (s : State) (peer : Nat) (port : Fin 8) (ch : Fin 16) (key : Nat) (c : Chan), pathUp s peer port.val = true →
    key = chanKey peer port.val ch.val → c = getChan s key →
    (∀ (s1 : State) (c1 : Chan), s1 = setChan s key { c with gapSent := false } → c1 = getChan s1 key →
      (c.unacked = [] ∨ c.rnr.isSome = true → Completes (.cordRtoExpiry peer port ch) s (pump s1)) ∧
      (∀ x rest, c.unacked = x :: rest → c.rnr = none →
        (c1.goBacks < dget s Key.cordRetryMax → Completes (.cordRtoExpiry peer port ch) s
          (pump (resend (setChan s1 key { c1 with goBacks := c1.goBacks + 1 }) key x.seq))) ∧
        (dget s Key.cordRetryMax ≤ c1.goBacks →
          Completes (.cordRtoExpiry peer port ch) s (pump (pathLost s1 peer port.val 2))))) ∧
    (∀ a, c.rnr = some a → Completes (.cordRnrWaitExpiry peer port ch) s
      (pump (resend (setChan s key { c with rnr := none }) key a))) ∧
    (c.owed ≠ 0 → Completes (.ackTimer peer port ch) s (pump (sendAck s key))))

/-- Paths, ports and the peer table (R309, R313–R317): a HEARTBEAT of the peer named in the table brings its path up with an event,
and begins pairing when it is the partner's first; heartbeats are sent on idle paths; a silent path, a peer that goes down and a
port that goes down lose their paths; a dropped frame is counted; a written peer table is taken from device memory. -/
def Obligations.PathsAndPortsComplete : Prop :=
  (∀ (s s1 s2 : State) (peer : Nat) (port : Fin 8) (f g : CordFrame), accepted s port.val 6 f g →
    pathExists s peer port.val = true → leField g.payload 0 4 = (getPeer s peer).moduleId →
    rxSession s peer port.val g false = some s1 →
    s2 = hubEvent { s1 with cord := { s1.cord with up := sinsert (pathKey peer port.val) s1.cord.up } } 0x0400 →
    (pathUp s1 peer port.val = true → Completes (.heartbeat peer port f) s s1) ∧
    (pathUp s1 peer port.val = false →
      ((livePorts s1 peer ≠ [] ∨ dget s2 Key.partnerHolder ≠ peer) → Completes (.heartbeat peer port f) s s2) ∧
      (livePorts s1 peer = [] → dget s2 Key.partnerHolder = peer → dget s2 Key.pairState ≠ 2 →
        Completes (.heartbeat peer port f) s (pump (startPairing s2))))) ∧
  (∀ (s : State) (peer : Nat) (port : Fin 8), pathExists s peer port.val = true → dget s (Key.cordPortState + port.val) = 2 →
    ∃ u, Completes (.heartbeatSend peer port) s u ∧
      u = { s with cord := u.cord, out := u.out } ∧ u.cord.posted = s.cord.posted ∧ u.cord.chans = s.cord.chans ∧
      ∃ f, u.out = s.out ++ [.cord peer port.val 6 f] ∧ leField f.payload 0 4 = Config.moduleId.toNat ∧
        f.session = dget s Key.cordSession ∧ f.dst = ((getPeer s peer).mac + port.val) % 2 ^ 48 ∧ f.src = portMac port.val ∧
        f.etherType = dget s Key.cordEthertype ∧ f.tag = sentTag s ∧ f.len = 1 ∧ f.crc = frameSum f 6) ∧
  (∀ (s : State) (peer : Nat) (port : Fin 8),
    Completes (.pathSilenceTimeout peer port) s (pump (pathLost s peer port.val 2))) ∧
  (∀ (s s1 : State) (peer : Nat) (port : Fin 8) (f g : CordFrame), accepted s port.val 7 f g →
    pathExists s peer port.val = true → rxSession s peer port.val g false = some s1 →
    Completes (.goingDown peer port f) s (pump (dropPending (peerLost s1 peer 3) peer))) ∧
  (∀ (s : State) (port : Fin 8), s.cord.started = true → bitOf (dget s Key.cordPortEnable) port.val = true →
    (dget s (Key.cordPortState + port.val) ≠ 2 → Completes (.portStateChange port true) s
      (hubEvent (dset s (Key.cordPortState + port.val) 2) 0x0403)) ∧
    (dget s (Key.cordPortState + port.val) ≠ 0 →
      ∃ s1, s1 = hubEvent (dset s (Key.cordPortState + port.val) 0) 0x0403 ∧ Completes (.portStateChange port false) s
        (pump ((s1.cord.up.filter fun k => k % 8 == port.val).foldl (fun st k => pathLost st (k / 8) port.val 2) s1)))) ∧
  (∀ (s : State) (port : Fin 8) (b : List Byte) (fcs : Bool) (type : Nat) (f : CordFrame), parseFrame b = (type, f) →
    portOpen s port.val = true →
    (fcs = false → Completes (.cordFrameDrop ⟨port, b, fcs⟩) s (dcount s Key.cordCrcDrops)) ∧
    (fcs = true → f.etherType ≠ 0x8808 →
      (f.dst ≠ portMac port.val ∨ f.etherType ≠ dget s Key.cordEthertype ∨ f.tag.any (fun t => t % 4096 != dget s Key.cordVlan) ∨
          4158 < frameLength f ∨ f.payload.length < 64 * f.len →
        Completes (.cordFrameDrop ⟨port, b, fcs⟩) s (dcount s Key.cordDrops)) ∧
      (f.dst = portMac port.val → f.etherType = dget s Key.cordEthertype → f.tag = none → frameLength f ≤ 4158 →
        64 * f.len ≤ f.payload.length →
        (f.crc ≠ frameSum f type → Completes (.cordFrameDrop ⟨port, b, fcs⟩) s (dcount s Key.cordCrcDrops)) ∧
        (f.crc = frameSum f type → f.ver ≠ 1 ∨ f.rsvd ≠ 0 ∨ codeListed formatCode type f.code = false →
          Completes (.cordFrameDrop ⟨port, b, fcs⟩) s (dcount s Key.cordDrops)))))  ∧
  (∀ (s s1 : State) (v : BitVec 16) (b : List Byte), mayWrite s Key.cordPeerCount v.toNat → v.toNat ≤ 4096 →
    devRead s hubVia false (dget s Key.cordPeerTable) (16 * v.toNat) = (.ok b, s1) →
    ∃ s2, Completes (.cordPeerCountWrite v) s (pump (writtenGone (pump ((s2.cord.up.filter fun k =>
        !pathExists s2 (k / 8) (k % 8)).foldl (fun st k => pathLost st (k / 8) (k % 8) 2) s2)) Key.cordPeerCount)) ∧
      s2.cord.peers.length = v.toNat ∧ s2.cord.up = s1.cord.up ∧ s2.mem = s1.mem ∧
      (∀ i, i < v.toNat → (getPeer s2 i).mac = leField ((b.drop (16 * i)).take 16) 0 6 ∧
        (getPeer s2 i).portMask = leField ((b.drop (16 * i)).take 16) 6 1 ∧
        (getPeer s2 i).moduleId = leField ((b.drop (16 * i)).take 16) 8 4))

/-- Collectives that end before their time, and heat holds (R329–R332): ASH_NAK and ABORT abort the collective they name, a timeout
that no hold suspends and a suspension past its limit abort theirs, an aged one leaves the table; a HEAT_HOLD notice is
remembered or forgotten by its code, and the module's own is repeated while it stands. -/
def Obligations.HoldsAndAbortsComplete : Prop :=
  (∀ (s s2 : State) (peer : Nat) (port : Fin 8) (f g : CordFrame) (c : Coll), groupKnown s g = true → collOf s2 g = some c →
    (frameIn s s2 peer port.val 5 f g → Completes (.ashNak peer port f) s (pump (collAbort s2 c.post 5 g.srcRank))) ∧
    (frameIn s s2 peer port.val 12 f g → Completes (.abort peer port f) s (pump (collAbort s2 c.post 7 g.srcRank)))) ∧
  (∀ (s s1 : State) (peer : Nat) (port : Fin 8) (f g : CordFrame), accepted s port.val 8 f g →
    pathExists s peer port.val = true → pathUp s peer port.val = true → rxSession s peer port.val g (g.code == 1) = some s1 →
    Completes (.heatHold peer port f) s { s1 with cord := { s1.cord with
      peerHeat := if g.code = 1 then sinsert peer s1.cord.peerHeat else sremove peer s1.cord.peerHeat } }) ∧
  (∀ s : State, s.cord.heatSent = true → Completes .heatHoldRepeat s (sendHeat s 1)) ∧
  (∀ (s : State) (post : Nat) (c : Coll), getColl s post = some c →
    (c.aborted = none → suspended s c = false → Completes (.collTimeout post) s (pump (collAbort s post 1))) ∧
    (c.aborted = none → suspended s c = true → Completes (.collTimeout post) s s ∧
      Completes (.heatHoldLimit post) s (pump (collAbort s post 4))) ∧
    (c.aborted ≠ none → Completes (.abortAgeing post) s (dropColl s post))) ∧
  (∀ (s : State) (post reason : Nat) (c : Coll), getColl s post = some c → c.aborted = none → c.post = post →
    ∃ d, getColl (collAbort s post reason) post = some d ∧ d.aborted = some reason ∧ d.owners = [])

/-! ### Freezes, partners, holders and restores -/

/-- The expected sequenced frame of a channel is accepted on a path that is up: `s2` is the state its effect begins from. -/
def Sys2Proof.Machine.expectedIn (s s2 : State) (peer port type : Nat) (f g : CordFrame) : Prop :=
  frameIn s s2 peer port type f g ∧ g.seq = (getChan s2 (chanKey peer port (g.chan % 16))).expected ∧ s2.dictOk

/-- So is a CTRL frame of message `code` (R350). -/
def Sys2Proof.Machine.ctrlIn (s s2 : State) (peer port code : Nat) (f g : CordFrame) : Prop :=
  expectedIn s s2 peer port 11 { f with code := code } g

/-- What follows the effect of an applied frame: the frame is counted and acknowledged, and what may be sent goes out. -/
def Sys2Proof.Machine.afterFrame (s3 : State) (peer port : Nat) (f : CordFrame) : State :=
  pump (frameApplied s3 (chanKey peer port (f.chan % 16)))

/-- Pairing frames (R348, R349) and BEGIN_ACK (R346): a request of the module named in `PARTNER_OF` is answered with the region's
slot size, or refused with FEED where the two share a feed and no override stands; an answer pairs, or a refusal ends the
request, with the state and event of its reason. How a freeze or a restore ends by a frame (R342, R344, R354): the partner's
END_ACK completes the freeze and its REFUSE fails it; an UNAVAILABLE of the source ends the filling with SOURCE_LOST. -/
def Obligations.PairingAndEndingFramesComplete : Prop :=
  (∀ (s s2 : State) (peer : Nat) (port : Fin 8) (f g : CordFrame),
      (ctrlIn s s2 peer port.val 1 f g → peer = dget s2 Key.partnerOf → s2.mem.slotPages ≠ 0 → restoring s2 = false →
        (sharesFeed s2 (leField g.payload 4 1) (leField g.payload 5 1) = false →
          ∃ s3, s3 = sendCtrl s2 peer 2 0 0 (leBytes 1 (dget s2 Key.feedAId) ++
              leBytes 1 (dget s2 Key.feedBId) ++ leBytes 4 s2.mem.slotPages) ∧
            Completes (.pairReq peer port f) s (afterFrame (setCorrelated s3 s3.ck.corrHolder false) peer port.val g)) ∧
        (sharesFeed s2 (leField g.payload 4 1) (leField g.payload 5 1) = true → dget s2 Key.pairSameFeedOk ≠ 1 →
          Completes (.pairReq peer port f) s (afterFrame (sendCtrl s2 peer 3 0 0 (leBytes 1 0)) peer port.val g))) ∧
      (peer = dget s2 Key.partnerHolder → dget s2 Key.pairState = 1 →
        (ctrlIn s s2 peer port.val 2 f g → sharesFeed s2 (leField g.payload 0 1) (leField g.payload 1 1) = false →
          ∃ s3, Completes (.pairAck peer port f) s (afterFrame s3 peer port.val g) ∧ dget s3 Key.pairState = 2 ∧
            dget s3 Key.pairCorrelated = (if s2.ck.corrOf = true then 1 else 0) ∧
            s3.ck.partnerSlots = leField g.payload 2 4 ∧ s3.cord = s2.cord ∧ ∃ e ∈ s3.ev.evq, e.source = 0x0505) ∧
        (ctrlIn s s2 peer port.val 3 f g →
          ∃ s3, Completes (.pairRefuse peer port f) s (afterFrame s3 peer port.val g) ∧
          dget s3 Key.pairState = (if leField g.payload 0 1 = 0 then 3 else 4) ∧ s3.cord = s2.cord ∧
          s3.ck = { s2.ck with corrHolder := false } ∧ ∃ e ∈ s3.ev.evq, e.source = 0x0505)) ∧
      (ctrlIn s s2 peer port.val 5 f g → pairedWith s2 = some peer → Completes (.beginAck peer port f) s
        (afterFrame { s2 with ck := { s2.ck with partnerSlots := leField g.payload 0 4 } } peer port.val g))) ∧
  (∀ (s s2 : State) (peer : Nat) (port : Fin 8) (f g : CordFrame),
      (∀ fz, s2.ck.fz = some fz → fz.partner = some peer → fz.gen = g.arg →
        (ctrlIn s s2 peer port.val 8 f g → fz.stream = true → fz.ended = true →
          ∃ s3, Completes (.endAck peer port f) s (afterFrame s3 peer port.val g) ∧ s3.ck.fz = none ∧ s3.ck.pages = [] ∧
            dget s3 Key.freezeState = 0 ∧ dget s3 Key.freezeDoneGen = fz.gen ∧ dget s3 Key.restoreUnverified = 0 ∧
            s3.ck.own.head? = (if s2.mem.slotPages = 0 then none else some (fz.gen, fz.list)) ∧ s3.cord = s2.cord ∧
            s3.mem.cells = s2.mem.cells ∧ ∃ e ∈ s3.ev.evq, e.source = 0x0500) ∧
        (ctrlIn s s2 peer port.val 9 f g →
          ∃ s3, Completes (.refuse peer port f) s (afterFrame s3 peer port.val g) ∧ s3.ck.fz = none ∧ s3.ck.pages = [] ∧
          s3.ck.issueHold = false ∧ dget s3 Key.freezeState = 0 ∧ s3.mem.cells = s2.mem.cells ∧ s3.ck.own = s2.ck.own ∧
          ∃ e ∈ s3.ev.evq, e.source = 0x0502)) ∧
      (∀ r, ctrlIn s s2 peer port.val 13 f g → s2.ck.rs = some r → peer = r.source → g.arg = r.gen →
        dget s2 Key.restoreState = 1 →
        ∃ s3, Completes (.unavailable peer port f) s (afterFrame s3 peer port.val g) ∧ s3.ck.rs = none ∧
          dget s3 Key.restoreState = 0 ∧ dget s3 Key.restoreResult = 4 ∧ s3.mem = s2.mem))

/-- A holder's frames (R345, R346): a FREEZE_BEGIN takes the slot `slotFor` gives; DIGESTS entries are laid into the slot's list; a
PAGE granule is written to its frame and marked; a FREEZE_END with the right digest and every granule makes the slot HELD, any
other discards it; ABANDON discards a receiving slot; a RESTORE_REQ of a held freeze is served, and a DIGEST_REQ answered with
its list. -/
def Obligations.HolderFramesComplete : Prop :=
  ∀ (s s2 : State) (peer : Nat) (port : Fin 8) (f g : CordFrame),
    (∀ i, ctrlIn s s2 peer port.val 4 f g → restoring s2 = false → peer = dget s2 Key.partnerOf → s2.mem.slotPages ≠ 0 →
      slotFor s2 = some i →
      ∃ s3, Completes (.freezeBegin peer port f) s (afterFrame s3 peer port.val g) ∧ holderState s3 i = 1 ∧
        holderGen s3 i = g.arg ∧ holder s3 i = { peer := peer, count := leField g.payload 0 4 } ∧ s3.mem = s2.mem) ∧
    (∀ i, receivingSlot s2 peer g.arg = some i →
      (ctrlIn s s2 peer port.val 6 f g → Completes (.digests peer port f) s (afterFrame (setHolder s2 i { holder s2 i with
        list := layEntries (holder s2 i).list g.elem g.payload }) peer port.val g)) ∧
      (∀ l s3, expectedIn s s2 peer port.val 10 f g → g.code ≠ 1 → g.payload.length = 4096 →
        g.elem % 2 ^ 20 < s2.mem.slotPages →
        frameLoc s2.mem i (g.elem % 2 ^ 20) (g.elem / 2 ^ 20 % 2 ^ 20) = some l →
        physWrite s2 l.phys (g.payload.take 4096) = (none, s3) →
        ∃ s4, Completes (.page peer port f) s (afterFrame s4 peer port.val g) ∧ s4.mem = s3.mem ∧
          bitOf (tget 0 (holder s4 i).got (g.elem % 2 ^ 20)) (g.elem / 2 ^ 20 % 2 ^ 20) = true) ∧
      (∀ count, ctrlIn s s2 peer port.val 7 f g → count = leField g.payload 0 4 →
        (listDigest (listBytes (holder s2 i).list count) = leField g.payload 4 48 →
          ((List.range count).all fun k => (tget [] (holder s2 i).list k).length == 128 &&
            (maskGranules (entryMask (tget [] (holder s2 i).list k))).all (bitOf (tget 0 (holder s2 i).got k))) = true →
          ∃ s3, Completes (.freezeEnd peer port f) s (afterFrame s3 peer port.val g) ∧ holderState s3 i = 2 ∧
            holderGen s3 i = g.arg ∧ (holder s3 i).count = count ∧ ∃ e ∈ s3.ev.evq, e.source = 0x0503) ∧
        (listDigest (listBytes (holder s2 i).list count) ≠ leField g.payload 4 48 →
          ∃ s3, Completes (.freezeEnd peer port f) s (afterFrame s3 peer port.val g) ∧ holderState s3 i = 0 ∧
            holder s3 i = {})) ∧
      (ctrlIn s s2 peer port.val 10 f g →
        ∃ s3, Completes (.abandon peer port f) s (afterFrame s3 peer port.val g) ∧ holderState s3 i = 0 ∧ holder s3 i = {})) ∧
    (∀ i, heldSlot s2 g.arg = some i → restoring s2 = false →
      leField g.payload 0 4 = (getPeer s2 (holder s2 i).peer).moduleId →
      (ctrlIn s s2 peer port.val 11 f g → holderState s2 i = 2 →
        ∃ s3, Completes (.restoreReq peer port f) s (afterFrame s3 peer port.val g) ∧ holderState s3 i = 3 ∧
          (holder s3 i).serving = some peer ∧ (holder s3 i).list = (holder s2 i).list) ∧
      (ctrlIn s s2 peer port.val 12 f g → Completes (.digestReq peer port f) s
        (afterFrame (sendList s2 peer g.arg (listBytes (holder s2 i).list (holder s2 i).count)) peer port.val g))) ∧
    (heldSlot s2 g.arg = none → restoring s2 = false →
      (ctrlIn s s2 peer port.val 11 f g →
        Completes (.restoreReq peer port f) s (afterFrame (sendCtrl s2 peer 9 g.arg 0 (leBytes 1 2)) peer port.val g)) ∧
      (ctrlIn s s2 peer port.val 12 f g →
        Completes (.digestReq peer port f) s (afterFrame (sendCtrl s2 peer 9 g.arg 0 (leBytes 1 2)) peer port.val g))) ∧
    (restoring s2 = true →
      (ctrlIn s s2 peer port.val 11 f g →
        Completes (.restoreReq peer port f) s (afterFrame (sendCtrl s2 peer 9 g.arg 0 (leBytes 1 3)) peer port.val g)) ∧
      (ctrlIn s s2 peer port.val 12 f g →
        Completes (.digestReq peer port f) s (afterFrame (sendCtrl s2 peer 9 g.arg 0 (leBytes 1 3)) peer port.val g)))

/-- The written commands of this chapter (R339, R346, R349, R351, R354): `FREEZE_NOW` marks the next boundaries; a partner is named
and asked, unless a freeze runs; naming a module to hold for discards both slots; START begins to fill or is refused, and ABORT
ends a restore. -/
def Obligations.CheckpointCommandsComplete : Prop :=
  (∀ (s : State) (v : Byte), mayWrite s Key.freezeNow v.toNat → v = 1 →
    Completes (.freezeNow v) s
      (pump (writtenGone { s with ck := { s.ck with now := true, nowPast := [] } } Key.freezeNow))) ∧
  (∀ (s : State) (v : BitVec 16), mayWrite s Key.partnerHolder v.toNat → s.dictOk →
    (dget s Key.freezeState = 0 →
      ∃ s1, Completes (.partnerHolderWrite v) s (pump (writtenGone s1 Key.partnerHolder)) ∧
        dget s1 Key.partnerHolder = v.toNat ∧ dget s1 Key.pairState = (if v.toNat = 0xFFFF then 0 else 1) ∧
        s1.mem = s.mem ∧ s1.ck = { s.ck with corrHolder := if v.toNat = 0xFFFF then false else s.ck.corrHolder }) ∧
    (dget s Key.freezeState ≠ 0 →
      Completes (.partnerHolderWrite v) s (pump (writeRejected s Key.partnerHolder 3)))) ∧
  (∀ (s : State) (v : BitVec 16), mayWrite s Key.partnerOf v.toNat → s.dictOk →
    ∃ s1, Completes (.partnerOfWrite v) s (pump (writtenGone s1 Key.partnerOf)) ∧ dget s1 Key.partnerOf = v.toNat ∧
      holderState s1 0 = 0 ∧ holderState s1 1 = 0 ∧ s1.ck.slotA = {} ∧ s1.ck.slotB = {} ∧ s1.mem = s.mem) ∧
  (∀ (s : State) (l : List Byte) (src rep : Nat), mayWrite s Key.restoreCmd 1 → s.dictOk →
    src = dget s Key.restoreSource → rep = dget s Key.restoreReplica →
    (restoring s = true →
      Completes (.restoreStart l) s (pump (writtenGone (dset s Key.restoreResult 9) Key.restoreCmd))) ∧
    (restoring s = false → singleSource s = true →
      Completes (.restoreStart l) s (pump (writtenGone (dset s Key.restoreResult 1) Key.restoreCmd))) ∧
    (restoring s = false → singleSource s = false → src < 0xFFFD → livePorts s src ≠ [] → rep ≠ src →
      (rep = 0xFFFE ∨ rep = 0xFFFF ∨ rep < 0xFFFD ∧ livePorts s rep ≠ []) →
      ∃ s1 r, Completes (.restoreStart l) s (pump (writtenGone s1 Key.restoreCmd)) ∧ dget s1 Key.restoreState = 1 ∧
        dget s1 Key.restorePages = 0 ∧ s1.ck.rs = some r ∧ r.source = src ∧ r.replica = rep ∧
        r.gen = dget s Key.restoreGen ∧ r.filling = false ∧ s1.mem = s.mem)) ∧
  (∀ s : State, mayWrite s Key.restoreCmd 2 → s.dictOk → restoring s = true →
    ∃ s1, Completes .restoreAbort s (pump (writtenGone s1 Key.restoreCmd)) ∧ dget s1 Key.restoreState = 0 ∧
      dget s1 Key.restoreResult = 8 ∧ s1.ck.rs = none ∧ s1.mem = s.mem)

/-! ### Faults, injection and credits -/

/-- R365, R370–R372, R376, R379, R383: the collector records a message, counts it in its class, copies it to `LAST_FAULT`, asserts
`ALERT_N` by the mask and sends the credit back; a returned credit is free again, or sends what its source holds; a fault of
the hub holds every unit; an injection is armed, or refused where R383 does not allow it; `ALERT_ACK` releases the pin, and an
engine is taken back into service; a flit resent on a die link is counted and reported. -/
def Obligations.FaultCommandsComplete : Prop :=
  (∀ (s : State) (i : Nat) (m : FaultMsg), faultReady s i = some m → s.dictOk →
    ∃ u, Completes (.faultMessage i) s u ∧ u.flt.faultq = dropAt i s.flt.faultq ∧
      tget 0 u.flt.returning m.ember = tget 0 s.flt.returning m.ember + 1 ∧
      u.flt.alert = (s.flt.alert || bitOf (dget s Key.alertClassMask) m.mech.cls) ∧ dget u Key.lastFault = m.bits ∧
      dget u (classCounter m.mech.cls) = satAdd (2 ^ 32 - 1) (dget s (classCounter m.mech.cls)) 1 ∧
      u.ev.evq = s.ev.evq ++ [{ source := m.mech.code, kind := 1, data := m.bits }] ∧
      u = { s with flt := u.flt, ev := u.ev, dict := u.dict }) ∧
  (∀ (s : State) (src : Nat), tget 0 s.flt.returning src ≠ 0 → twf 0 s.flt.returning = true → twf 0 s.flt.inflight = true →
    ∃ u, Completes (.emberCreditReturn src) s u ∧ tget 0 u.flt.returning src = tget 0 s.flt.returning src - 1 ∧
      (s.flt.held.find? (fun m => m.ember == src) = none →
        u.flt.faultq = s.flt.faultq ∧
        (oldestHeld s src = none → tget 0 u.flt.inflight src = tget 0 s.flt.inflight src - 1 ∧ u.knotq = s.knotq ∧
          u.flt.embers = s.flt.embers) ∧
        (∀ n, oldestHeld s src = some n → tget 0 s.flt.inflight src ≤ 3 →
          (∀ m ∈ s.knotq, m.held = true → m.src = src → m.no = n →
            { m with held := false, no := s.flt.emberNo } ∈ u.knotq) ∧
          (∀ m ∈ s.flt.embers, m.held = true → m.src = src → m.no = n →
            { m with held := false, no := s.flt.emberNo } ∈ u.flt.embers))) ∧
      (∀ m, s.flt.held.find? (fun m => m.ember == src) = some m →
        u.flt.faultq = s.flt.faultq ++ [{ m with no := s.flt.emberNo }] ∧ u.flt.held = s.flt.held.erase m) ∧
      u = { s with flt := u.flt, knotq := u.knotq }) ∧
  (∀ (s : State) (sub : Fin 4096) (lost : Bool),
    ∃ u, Completes (.hubInternalFault sub lost) s u ∧ u.flt.hubFault = true ∧ u.flt.alert = true ∧
      u.engines = s.engines.map (fun p => (p.1, { p.2 with hubHold := true })) ∧
      (s.d3 = false → u.out = s.out ++ [.aer .internalError]) ∧ (lost = true → u.flt.faultq = s.flt.faultq) ∧
      (lost = false → tget 0 s.flt.inflight hubSource < 4 →
        ∃ m, u.flt.faultq = s.flt.faultq ++ [m] ∧ m.mech = .hubInternal ∧ m.unit = sub.val) ∧ u.mem = s.mem) ∧
  (∀ (s : State) (v : BitVec 32) (m : Mech), mayWrite s Key.faultInject v.toNat → Mech.ofCode (bits v.toNat 31 24) = some m →
    ((v.toNat % 256 ≠ 0 ∨ m.cls ≠ 1 ∨ m.kinds.contains (bits v.toNat 23 20) = false ∨
        unitCount (bits v.toNat 23 20) ≤ bits v.toNat 19 8) →
      Completes (.faultInject v) s (writeRejected s Key.faultInject 3)) ∧
    (v.toNat % 256 = 0 → m.cls = 1 → m.kinds.contains (bits v.toNat 23 20) = true →
      bits v.toNat 19 8 < unitCount (bits v.toNat 23 20) →
      m ∉ [.fence, .hbmClock, .linkDown, .emberCrc, .hubInternal] → Completes (.faultInject v) s
        (writtenGone { s with flt := { s.flt with
          armed := s.flt.armed ++ [(m, bits v.toNat 23 20, bits v.toNat 19 8)] } } Key.faultInject))) ∧
  (∀ (s : State) (v : Byte), mayWrite s Key.alertAck v.toNat → v ≠ 0 →
    (s.flt.hubFault = true → Completes (.alertAck v) s (writtenGone s Key.alertAck)) ∧
    (s.flt.hubFault = false →
      Completes (.alertAck v) s (writtenGone { s with flt := { s.flt with alert := false } } Key.alertAck))) ∧
  (∀ (s : State) (v : BitVec 16), mayWrite s Key.engineUnretire v.toNat →
    (1024 ≤ v.toNat → Completes (.engineUnretire v) s (writeRejected s Key.engineUnretire 3)) ∧
    (v.toNat < 1024 → Completes (.engineUnretire v) s (writtenGone
      (setEng s v.toNat { getEng s v.toNat with retired := false, faults := 0 }) Key.engineUnretire))) ∧
  (∀ (s : State) (p : FlitPlace) (twice : Bool), ∃ u, Completes (.dieLinkCrcError p twice) s u ∧
    u = { s with flt := u.flt, rst := u.rst } ∧
    (∀ l, p = .link l → twice = false →
      tget 0 u.rst.linkResends l.val = tget 0 s.rst.linkResends l.val + 1 ∧
      (tget 0 s.flt.inflight (4 * 4096 + l.val) < 4 →
        ∃ m, u.flt.faultq = s.flt.faultq ++ [m] ∧ m.mech = .linkRetry ∧ m.unit = l.val)) ∧
    ((∀ l, p ≠ .link l) → twice = false → u = s) ∧
    (twice = true → tget 0 s.flt.inflight (emberSource p.unit.1 p.unit.2) < 4 →
      ∃ m, u.flt.faultq = s.flt.faultq ++ [m] ∧ m.mech = .emberCrc ∧ m.src = p.unit.1 * 4096 + p.unit.2))

/-! ### The dictionary, the mailbox and the field network -/

/-- The commands that write an entry of their own, with the entry and the value each writes. -/
def Sys2Proof.Machine.ownRows : List (Instr × Nat × Nat) :=
  [(.powerRun, Key.powerStateCmd, 0), (.powerSmoulder, Key.powerStateCmd, 1), (.powerBanked, Key.powerStateCmd, 2),
    (.resetModule, Key.resetCmd, 1), (.resetDie, Key.resetCmd, 2), (.resetCluster none, Key.resetCmd, 3),
    (.resetCore, Key.resetCmd, 4), (.fwBegin, Key.fwStageCmd, 1), (.fwVerify, Key.fwStageCmd, 2), (.fwArm, Key.fwStageCmd, 3),
    (.fwCancel, Key.fwStageCmd, 4), (.enrolGenerate, Key.enrolCmd, 1), (.enrolInstall .mirror, Key.enrolCmd, 2),
    (.enrolCancel, Key.enrolCmd, 3),
    (.attGenerate, Key.attCmd, 1), (.openRequest none, Key.serviceOpenCmd, 1), (.dictLoadDefaults, Key.dictLoadDefaults, 1),
    (.dictLoadDefaultsCommit, Key.dictLoadDefaults, 2)]

/-- R429, R430, R443: a write that does not meet its conditions has no effect but the write-rejected event with its status; while the
dictionary is not served it has none at all. -/
def Obligations.RefusedWritesOnlyReport : Prop :=
  (∀ (s : State) (i : Instr) (key v st : Nat) (ty : ETy), (i, key, v) ∈ ownRows →
    (dictServed s = false → Completes i s s) ∧
    (dictServed s = true → ty = ((findMeta key).map EMeta.ty).getD ETy.u8 →
      writeStatus s .mirror key ty.code (leBytes ty.bytes v) = st → st ≠ 0 → Completes i s (writeRejected s key st))) ∧
  (∀ (s : State) (field : Bool) (key : BitVec 24) (type : Byte) (b : List Byte) (path : DictPath) (st : Nat),
    path = (if field then .field else .mirror) → dictServed s = true →
    writeStatus s path key.toNat type.toNat b = st → st ≠ 0 →
    Completes (.entryWrite field key type b) s (pump (writeRejected s key.toNat st)))

/-- Entries through the mirror (R425–R430, R441, R447): a write of an entry without an effect of its own stores the value, through
ENTRY_WRITE and through the direct map, unless the configuration would come to break a rule that binds it. The persistent
image (R444–R451): a commit takes the written values and erases its target; it ends with the other copy chosen and its
generation, or with its failure reported; defaults are loaded, and committed, only where R451 lets them be. -/
def Obligations.EntryWritesAndCommitsComplete : Prop :=
  (∀ (s : State) (key : BitVec 24) (m : EMeta) (b : List Byte) (s1 : State), dictServed s = true → findMeta key.toNat = some m →
    writeStatus s .mirror key.toNat m.ty.code b = 0 → key.toNat ≠ Key.dictLoadDefaults →
    writeEffect s key.toNat b {} = (s1, 0) →
    (inHold s = true ∨ breaksRule s1 key.toNat = false →
      Completes (.entryWrite false key (BitVec.ofNat 8 m.ty.code) b) s (pump s1)) ∧
    (inHold s = false → breaksRule s1 key.toNat = true →
      Completes (.entryWrite false key (BitVec.ofNat 8 m.ty.code) b) s (pump (writeRejected s key.toNat 7)))) ∧
  (∀ (s s1 : State) (off : Nat) (v : Word) (key : Nat) (m : EMeta), hostUp s = true → off % 8 = 0 →
    key = off / 64 % 2 ^ 16 * 256 + off / 8 % 8 → findMeta key = some m → m.ty.bytes ≠ 0 → v.toNat < 256 ^ m.ty.bytes →
    (entryWrite s .mirror key m.ty.code (leBytes m.ty.bytes v.toNat) {} = (s1, 0) →
      Completes (.directMapWrite off v true) s (pump s1)) ∧
    Completes (.directMapWrite off v false) s (pump (writeRejected (dcount s Key.hifDrops) key 2))) ∧
  (∀ (s : State) (key v : Nat), key ∈ [Key.stepMonWindow, Key.dampIdle, Key.heatHoldLimit, Key.cordRetryMax, Key.freezeEvery,
      Key.freezeJob, Key.snapHalt, Key.snapSources] → mayWrite s key v → ∃ ty, (findMeta key).map EMeta.ty = some ty ∧
    Completes (.entryWrite false (BitVec.ofNat 24 key) (BitVec.ofNat 8 ty.code) (leBytes ty.bytes v)) s
      (pump (wset s key (v % 256 ^ ty.bytes)))) ∧
  (∀ (s : State) (v : Byte), mayWrite s Key.dictCommit v.toNat → v = 1 → s.dsys.commit = none →
    (inHold s = false ∨ consistent s = true) →
    ∃ s1 c, Completes (.dictCommit v) s (writtenGone s1 Key.dictCommit) ∧ s1.dsys.commit = some c ∧
      (c.target, c.gen) = commitTarget s ∧ c.recs = storedValues (dset s Key.dictCommitState 1) ∧
      (c.target = 1 → s1.flash.copyA = none ∧ s1.flash.copyB = s.flash.copyB) ∧
      (c.target ≠ 1 → s1.flash.copyB = none ∧ s1.flash.copyA = s.flash.copyA) ∧ s1.mem = s.mem) ∧
  (∀ (s : State) (c : Commit), s.dsys.commit = some c → s.dictOk →
    (∃ u, Completes (.commitComplete .ok) s u ∧ u.dsys.commit = none ∧ u.dsys.base = c.recs ∧
      (c.target = 1 → u.flash.copyA = some { gen := c.gen, recs := c.recs }) ∧
      (c.target ≠ 1 → u.flash.copyB = some { gen := c.gen, recs := c.recs }) ∧
      u.flash.commits = satAdd (2 ^ 32 - 1) s.flash.commits 1 ∧
      (inHold s = false → dget u Key.dictCommitState = 2 ∧ dget u Key.dictImageGen = c.gen ∧
        dget u Key.dictImageCopy = c.target)) ∧
    (∀ e, e ≠ .ok → ∃ u, Completes (.commitComplete e) s u ∧ u.dsys.commit = none ∧ u.flash = s.flash ∧
      dget u Key.dictCommitState = 3 ∧ ∃ r ∈ u.ev.evq, r.source = 0x0605)) ∧
  (∀ s : State, mayWrite s Key.dictLoadDefaults 1 → mayWrite s Key.dictLoadDefaults 2 →
    (s.dsys.commit ≠ none → Completes .dictLoadDefaults s (writeRejected s Key.dictLoadDefaults 0x0A) ∧
      Completes .dictLoadDefaultsCommit s (writeRejected s Key.dictLoadDefaults 0x0A)) ∧
    (s.dsys.commit = none → inHold s = true →
      ∃ s1, s1 = (touchedKeys s).foldl defaultEntry s ∧
        Completes .dictLoadDefaults s { s1 with flash := { s1.flash with mapout := [] } } ∧
        Completes .dictLoadDefaultsCommit s (beginCommit { s1 with flash := { s1.flash with mapout := [] } })))

/-- Requests (R431–R438, R442): a mailbox doorbell with a length of 12 to 4,096 takes the request; READ and WRITE serve it and
hold the response; a datagram's request is served once and its response kept for a resend; a full queue answers BUSY; DISCOVER
is answered at once or after its delay. The field port (R436, R454):
a link that comes up starts Duplicate Address Detection with the PLCA settings written; without a conflict the port answers
neighbours and echoes, and a conflict takes it out of service. -/
def Obligations.RequestsAreServed : Prop :=
  (∀ (s : State) (v : Word) (buf : List Byte), hostUp s = true → s.dsys.mbxBusy = false → 12 ≤ v.toNat → v.toNat ≤ 4096 →
    Completes (.mbxDoorbell v buf) s { s with dsys := { s.dsys with
      mbxBusy := true, mbxReq := padTo v.toNat buf, mbxDone := false, mbxQuiet := false } }) ∧
  (∀ s : State, s.dsys.mbxBusy = true → s.dsys.mbxQuiet = false → dictServed s = true → msgOp s.dsys.mbxReq ≠ 2 →
    Completes (.read .mailbox) s { s with dsys := { s.dsys with
      mbxBusy := false, mbxDone := true, mbxResp := (serveMsg s .mirror 4096 s.dsys.mbxReq {}).2 } }) ∧
  (∀ (s s1 : State) (x : Outside) (resp : List Byte), s.dsys.mbxBusy = true → dictServed s = true → msgOp s.dsys.mbxReq = 2 →
    serveMsg s .mirror 4096 s.dsys.mbxReq x = (s1, resp) → s1.dsys.mbxBusy = true → s1.dsys.mbxQuiet = false →
    Completes (.write .mailbox x) s
      (pump { s1 with dsys := { s1.dsys with mbxBusy := false, mbxDone := true, mbxResp := resp } })) ∧
  (∀ (s : State) (d : Datagram), fieldUp s = true → acceptable d = true → msgOp d.payload ≠ 2 → msgOp d.payload ≠ 3 →
    (∀ k, keptFor s d.src d.port (msgId d.payload) = some k →
      Completes (.read (.field d)) s (sendOut s (.udp d.src d.port k.resp))) ∧
    (keptFor s d.src d.port (msgId d.payload) = none →
      (d.full = false → Completes (.read (.field d)) s
        (keepSend s d.src d.port (msgId d.payload) (serveMsg s .field 1452 d.payload {}).2)) ∧
      (d.full = true → Completes (.read (.field d)) s
        (sendOut s (.udp d.src d.port (response (msgOp d.payload) 0 (msgId d.payload) 0x104 [] 0)))))) ∧
  (∀ (s s1 : State) (d : Datagram) (x : Outside) (resp : List Byte), fieldUp s = true → acceptable d = true →
    msgOp d.payload = 2 → serveMsg s .field 1452 d.payload x = (s1, resp) → dictServed s1 = true → d.full = false →
    keptFor s d.src d.port (msgId d.payload) = none →
    Completes (.write (.field d) x) s (pump (keepSend s1 d.src d.port (msgId d.payload) resp))) ∧
  (∀ (s : State) (d : Datagram), fieldUp s = true → acceptable d = true → msgOp d.payload = 3 → checkMsg d.payload = .ok [] →
    (∀ k, keptFor s d.src d.port (msgId d.payload) = some k → d.multicast = false →
      Completes (.discover d) s (sendOut s (.udp d.src d.port k.resp))) ∧
    (keptFor s d.src d.port (msgId d.payload) = none → d.full = false → d.multicast = false →
      Completes (.discover d) s (keepSend s d.src d.port (msgId d.payload) (discoverAnswer s (msgId d.payload)))) ∧
    (keptFor s d.src d.port (msgId d.payload) = none → d.full = true →
      Completes (.discover d) s (sendOut s (.udp d.src d.port (response 3 0 (msgId d.payload) 0x104 [] 0)))) ∧
    (d.full = false → d.multicast = true → Completes (.discover d) s { s with dsys := { s.dsys with
      discover := s.dsys.discover ++ [(d.src, d.port, msgId d.payload)] } })) ∧
  (∀ (s : State) (a p id : Nat) (rest : List (Nat × Nat × Nat)), fieldUp s = true → s.dsys.discover = (a, p, id) :: rest →
    keptFor s a p id = none →
    ∃ u b, Completes .discoverDelayExpiry s u ∧ u.out = s.out ++ [.udp a p b] ∧ msgId b = id % 2 ^ 32 ∧
      u.dsys.kept = ({ src := a, port := p, reqId := id, resp := b } :: s.dsys.kept).take 16 ∧
      u = { s with dsys := { s.dsys with discover := rest, kept := u.dsys.kept }, out := u.out }) ∧
  (∀ s : State, dictServed s = true → dget s Key.fieldLinkState = 0 → s.dictOk →
    ∃ u, Completes (.fieldLinkStateChange true) s u ∧ dget u Key.fieldLinkState = 1 ∧ u.dsys.dad = true ∧
      u.dsys.plcaNodes = wget s Key.plcaNodeCount ∧ u.dsys.plcaTimer = wget s Key.plcaToTimer ∧
      u.out = s.out ++ [.neighborProbe] ∧ fieldUp u = false) ∧
  (∀ s : State, dictServed s = true → dget s Key.fieldLinkState = 1 → s.dictOk →
    ∃ u, Completes (.fieldLinkStateChange false) s u ∧ dget u Key.fieldLinkState = 0 ∧ u.dsys.dad = false ∧ u.out = s.out) ∧
  (∀ s : State, s.dsys.dad = true → s.dictOk →
    Completes (.duplicateAddressDetection false) s { s with dsys := { s.dsys with dad := false } } ∧
    ∃ u, Completes (.duplicateAddressDetection true) s u ∧ u.dsys.dad = false ∧ dget u Key.fieldLinkState = 2 ∧
      u.mem = s.mem ∧ u.out = s.out) ∧
  (∀ (s : State) (src : Nat) (b : List Byte), dictServed s = true → dget s Key.fieldLinkState = 1 → s.dsys.dad = false →
    Completes (.neighborSolicitation src) s (sendOut s (.neighborAdvert src)) ∧
    Completes (.echoRequest src b) s (sendOut s (.echoReply src b)))


/-! ### Resets and start-up -/

/-- What a host reset leaves (R462): no work of the host and the host interface at its reset values, in a new host epoch. -/
def Sys2Proof.Machine.hostResetDone (s u : State) : Prop :=
  u.q.winBase = 0 ∧ u.q.late = [] ∧ u.q.cmdResult = 0 ∧ u.q.hostEpoch = nextEpoch s.q.hostEpoch ∧ u.ev.msixEnable = false ∧
    u.ev.vecOpen = [] ∧ u.ev.pba = [] ∧ u.d3 = false ∧ u.heldHost = [] ∧ u.dsys.mbxDone = false ∧
    (s.q.qeReady = true → u.ops = [] ∧ u.saved = [] ∧ u.q.cache = [] ∧ u.q.ents = [] ∧ u.q.live = [] ∧
      u.rst.epochs = s.rst.epochs + 1 ∧ ∀ e ∈ u.seqs, e.2.strand = none)

/-- Resets of the module and of the host (R456, R462, R464): `MRST_N` and the command MODULE wipe everything but flash and begin at
stage 0; PERST# and FLR quench the host's work and reset the host interface; PERST# released starts a banked module. -/
def Obligations.ModuleAndHostResetsComplete : Prop :=
  (∀ s : State, s.rst.mrst = false → s.rst.off = false →
    ∃ u, Completes .mrstNAssert s u ∧ u.rst.mrst = true ∧ u.flash = flashAfter s ∧ u.mem = {} ∧ u.seqs = [] ∧ u.cord = {} ∧
      u.q.qeReady = false ∧ dget u Key.startupStage = 0 ∧ dget u Key.resetCause = 1 ∧ u.out = s.out) ∧
  (∀ s : State, Completes .mrstNRelease s { s with rst := { s.rst with mrst := false } }) ∧
  (∀ s : State, mayWrite s Key.resetCmd 1 →
    ∃ u, Completes .resetModule s (writtenGone u Key.resetCmd) ∧ u.flash = flashAfter s ∧ u.mem = {} ∧ u.seqs = [] ∧
      u.q.qeReady = false ∧ dget u Key.startupStage = 0 ∧ dget u Key.resetCause = 2 ∧ dget u Key.resetState = 1 ∧
      ((∀ k ∈ s.cord.up, portOpen s (k % 8) = true) → u.out.length = s.out.length + s.cord.up.length)) ∧
  (∀ s : State, s.q.perst = false →
    ∃ u, Completes .perstAssert s u ∧ u.q.perst = true ∧
      (s.rst.off = false → s.rst.mrst = false → s.pw.module ≠ .banked → hostResetDone s u)) ∧
  (∀ s : State, (hostUp s = true → ∃ u, Completes .flr s u ∧ hostResetDone s u ∧ u.q.perst = false) ∧
    (hostUp s = false → Completes .flr s s)) ∧
  (∀ s : State, s.q.perst = true →
    (s.pw.module ≠ .banked → Completes .perstDeassert s { s with q := { s.q with perst := false } }) ∧
    (s.pw.module = .banked →
      ∃ u, Completes .perstDeassert s u ∧ u.q.perst = false ∧ u.pw.module = .run ∧ dget u Key.startupStage = 0 ∧
        dget u Key.resetCause = 3 ∧ u.flash = flashAfter s))

/-- The reset of a die, cluster or core (R456–R463, R471): a command orders the quench of the unit in `RESET_TARGET`, or is refused by
its range, by one that runs, or by a module that is not idle; a die agent resets a cluster that is off and cool; the message
stops the unit's work, each hearth drops its requests, the acknowledgement resets its state, and the release brings it back. -/
def Obligations.UnitResetsComplete : Prop :=
  (∀ (s : State) (i : Instr) (v kind limit : Nat),
    (i, v, kind, limit) ∈ [(.resetDie, 2, 3, 4), (.resetCluster none, 3, 5, 32), (.resetCore, 4, 1, 256)] →
    mayWrite s Key.resetCmd v →
    (limit ≤ dget s Key.resetTarget → Completes i s (writeRejected s Key.resetCmd 3)) ∧
    (dget s Key.resetTarget < limit → dget s Key.resetState = 1 → Completes i s (writeRejected s Key.resetCmd 0x0A)) ∧
    (dget s Key.resetTarget < limit → dget s Key.resetState ≠ 1 → s.rst.quenches = [] →
      (resetNotIdle s = true → Completes i s (writeRejected s Key.resetCmd 6)) ∧
      (resetNotIdle s = false → Completes i s (writtenGone
        (orderQuench (dset s Key.resetState 1) kind (dget s Key.resetTarget) true) Key.resetCmd)))) ∧
  (∀ (s : State) (c : ClusterId), dget s Key.resetState ≠ 1 → (getCluster s c.val).off = true →
    (getCluster s c.val).capHold = false → dget s (Key.clusterThermal + c.val) < 3 → s.rst.quenches = [] →
    s.q.qeReady = true → Completes (.resetCluster (some c)) s (orderQuench s 5 c.val false)) ∧
  (∀ (s : State) (i : Nat) (q : Quench), s.rst.quenches[i]? = some q →
    (∀ m, q.begun = false → emberArrival s (.quench q.kind q.unit) = some m →
      (q.kind = 1 → Completes (.quench i) s
        (kickAll (fenceUnit (setQuench (takeEmber s m) i { q with begun := true }) 1 q.unit))) ∧
      (q.kind = 5 → ∃ s1, Completes (.quench i) s (kickAll (fenceUnit s1 5 q.unit)) ∧
        s1 = { setQuench (takeEmber s m) i { q with begun := true } with pw := s1.pw } ∧
        (s.dictOk → twf ({} : ClusterPw) s.pw.clusters = true →
          (getCluster s1 q.unit).off = false ∧ (getCluster s1 q.unit).tripped = false ∧ (getCluster s1 q.unit).damp ≠ .idle))) ∧
    (q.begun = false → q.kind = 3 → emberArrival s (.quench q.kind q.unit) ≠ none → ∃ s1, Completes (.quench i) s (kickAll (fenceUnit s1 3 q.unit)) ∧
      bitOf s1.rst.dieFence q.unit = true ∧ s1.seqs = s.seqs ∧ s1.engines = s.engines) ∧
    (∀ h : HearthId, q.begun = true → q.owed.contains h.val = true →
      ∃ u, Completes (.quenchNotice i h) s u ∧ (∀ r ∈ u.mem.reqs, q.owns r = true → ownerOf s (r.via s.mem) r.addr ≠ some h.val) ∧
        u.rst.quenches[i]? = some { q with owed := sremove h.val q.owed } ∧ u.mem.cells = s.mem.cells ∧
        u = { s with mem := u.mem, rst := u.rst }) ∧
    (∀ faulty : BitVec 20, q.begun = true → q.acked = false →
      emberPass s (emberSource q.kind q.unit) (quenchInitiator q.kind q.unit) ≠ none →
      ∃ u, Completes (.quenchAck i faulty) s u ∧
        (q.kind = 1 → (∀ e ∈ u.gens, e.1 / 16 ≠ q.unit) ∧ u.knots = s.knots ∧ u.mem = s.mem) ∧
        (q.kind = 3 → (∀ e ∈ u.knots, e.1 / 4096 ≠ q.unit) ∧ bitOf u.rst.tallyLost q.unit = true)) ∧
    (q.kind ≠ 3 → q.acked = true → noticed s q = true →
      emberPass s (quenchInitiator q.kind q.unit) (emberSource q.kind q.unit) ≠ none → s.dictOk → twf ({} : ClusterPw) s.pw.clusters = true →
      ∃ u, Completes (.quenchRelease i) s u ∧ u.rst.quenches = dropAt i s.rst.quenches ∧
        (q.cmd = true → dget u Key.resetState = 2) ∧ u.pw = s.pw ∧ u.mem = s.mem) ∧
    (∀ d : DieId, q.kind = 3 → q.unit = d.val → q.acked = true → noticed s q = true → s.rst.quenches = [q] →
      emberPass s hubSource (agentSource d.val) ≠ none →
      ∃ s1, Completes (.dieResetDone d) s (pump (kickAll s1)) ∧ s1.rst.quenches = [] ∧ bitOf s1.rst.dieFence d.val = false ∧
        (∀ st ∈ dieStacks d.val, bitOf s1.mem.selfRefresh st = false) ∧ s1.mem.cells = s.mem.cells))

/-- Start-up (R317, R464–R466, R468, R477): stage 0 starts the image it verified and loads the dictionary, or refuses to boot; the
dies come up or the fault is shown; memory is trained and holds nothing; compute makes the queue engine ready and starts the
Cord under a new session. -/
def Obligations.StartupStagesComplete : Prop :=
  (∀ (s : State) (b : BootFinds) (puf : Bool), inStage s 0 = true → dget s Key.bootResult ≠ 3 → s.sec.trial = false →
    s.flash.openMarker = false → s.dictOk →
    (b.identity = false → ∃ u, Completes (.boot b puf) s u ∧ dget u Key.bootResult = 3 ∧ u.flt.alert = true ∧
      dget u Key.startupStage = 0 ∧ u.mem = s.mem) ∧
    (b.identity = true → b.activeStep % 6 = 0 → s.flash.fwState ≠ 3 → ∃ u, Completes (.boot b puf) s u ∧
      dget u Key.bootResult = 0 ∧ (dget u Key.startupStage = 2 ∨ dget u Key.startupStage = 3) ∧ u.flash = s.flash ∧
      u.mem.cells = s.mem.cells)) ∧
  (∀ (s : State) (failed : BitVec 4), inStage s 3 = true → dget s Key.startupFault = 0 →
    (failed = 0 → Completes (.startDies failed) s (dset s Key.startupStage 4)) ∧
    (failed ≠ 0 → Completes (.startDies failed) s (dset s Key.startupFault failed.toNat))) ∧
  (∀ (s : State) (fails : List (BitVec 32)), inStage s 4 = true → s.dictOk →
    ∃ u, Completes (.startMemory fails) s u ∧ u.mem.cells = [] ∧ u.mem.cache = [] ∧ u.mem.fenced = [] ∧
      (∀ h, h < 20 → tget 0 u.mem.live h = liveAfter s h ((fails.map (·.toNat)).getD h 0)) ∧
      (reservationsFit u.mem = true → u.q.memReady = true ∧ dget u Key.startupStage = 5) ∧
      (reservationsFit u.mem = false → u.q.memReady = s.q.memReady ∧ dget u Key.startupStage = 2 ∧
        dget u Key.holdCause = 2)) ∧
  (∀ (s : State) (bad : List EngineId) (cores : List (CoreId × CoreProof)), inStage s 5 = true → s.dictOk →
    ∃ s1, Completes (.startCompute bad cores) s (cordStart s1) ∧ s1.q.qeReady = true ∧ s1.knots = [] ∧
      dget s1 Key.startupStage = 6) ∧
  (∀ s : State, dget s Key.entropyFail ≠ 1 → s.dictOk →
    (cordStart s).cord.started = true ∧ dget (cordStart s) Key.cordSession ≠ 0 ∧
      dget (cordStart s) Key.cordSession ≠ s.flash.lastSession ∧
      (cordStart s).flash.lastSession = dget (cordStart s) Key.cordSession ∧
      (dget s Key.startupStage = 6 → dget (cordStart s) Key.startupStage = 7))

/-! ### Security -/

/-- Staging a hub image (R468, R475): BEGIN empties the slot, data fill it block by block, VERIFY hands it to the security block and
its end makes it VALID or FAILED, ARM and CANCEL move it on; a command that the slot's state does not allow is refused with
RANGE. A new image that does not reach stage 1 gives way to the earlier one. -/
def Obligations.ImageStagingComplete : Prop :=
  (∀ s : State, s.dictOk → (∀ v, 1 ≤ v → v ≤ 4 → mayWrite s Key.fwStageCmd v) → verifying s = false →
    (s.flash.fwState ∈ [0, 2, 4, 5] → ∃ u, Completes .fwBegin s (writtenGone u Key.fwStageCmd) ∧ u.flash.fwState = 1 ∧
      u.flash.staged = {} ∧ dget u Key.fwStageState = 1 ∧ dget u Key.fwStageOffset = 0 ∧ u.flash.active = s.flash.active ∧
      u.mem = s.mem) ∧
    (s.flash.fwState = 1 → Completes .fwBegin s (writeRejected s Key.fwStageCmd 3) ∧
      Completes .fwVerify s (writtenGone { s with sec := { s.sec with work := s.sec.work ++ [.verify] } } Key.fwStageCmd)) ∧
    (s.flash.fwState = 2 → resetUnderWay s = false → Completes .fwArm s (writtenGone (setFwState s 3) Key.fwStageCmd)) ∧
    (s.flash.fwState ≠ 2 → Completes .fwArm s (writeRejected s Key.fwStageCmd 3)) ∧
    (s.flash.fwState ∈ [1, 2, 3] → Completes .fwCancel s
      (writtenGone (setFwState { s with flash := { s.flash with staged := {} } } 0) Key.fwStageCmd))) ∧
  (∀ (s : State) (b : List Byte) (o : Nat), dictServed s = true → writeStatus s .mirror Key.fwStageData ETy.blob.code b = 0 →
    s.dictOk → b.length = 1024 → s.flash.fwState = 1 → o = dget s Key.fwStageOffset → o < 16 * 2 ^ 20 →
    ∃ u, Completes (.fwStageData b) s u ∧ tget [] u.flash.staged.data (o / 1024) = b ∧
      dget u Key.fwStageOffset = o + 1024 ∧ u.flash.fwState = 1 ∧ u.flash.active = s.flash.active) ∧
  (∀ (s : State) (rsa slh : Bool) (r : List SecWork), s.sec.work = .verify :: r → s.flash.fwState = 1 →
    ∃ u, Completes (.fwVerifyDone rsa slh) s u ∧ u.sec.work = r ∧
      u.flash.fwState = (if s.flash.staged.failedStep rsa slh = 0 then 2 else 4) ∧
      (rsa = false ∨ slh = false → u.flash.fwState = 4) ∧ u.flash.active = s.flash.active) ∧
  (∀ (s : State) (puf : Bool), s.sec.trial = true → inStage s 0 = true → s.dictOk →
    ∃ u, Completes (.watchdogFallback puf) s u ∧ u.sec.trial = false ∧ u.flash.fwState = 4 ∧
      u.flash.active = some s.flash.staged ∧ dget u Key.fwFallback = 1 ∧
      (s.sec.earlierOk = true → dget u Key.bootResult = 2) ∧ (s.sec.earlierOk = false → dget u Key.bootResult = 3))

/-- Device keys, enrolment and the entropy source (R479–R483): GENERATE runs from UNENROLLED, KEYLESS and OPENED and ends with
new keys in ENROLLING; INSTALL ends in ENROLLED exactly where both written chains are valid, and from the field network is the same
where that path may write, and denied elsewhere; CANCEL erases; a failed health test stops random output until
a reseed passes. The service port (R490): an open request, by its entry or through the TAP with the module's identity, starts
to erase where it is permitted, opens at once what has been opened before, and is refused with its event elsewhere; the erase
removes every key and counts. -/
def Obligations.EnrolmentAndServicePortComplete : Prop :=
  (∀ s : State, s.dictOk → mayWrite s Key.enrolCmd 1 → s.sec.enrolBusy = false →
    (dget s Key.attState ∈ [0, 3, 4] → Completes .enrolGenerate s (writtenGone
      (dset { s with sec := { s.sec with enrolBusy := true } } Key.enrolResult 1) Key.enrolCmd)) ∧
    (dget s Key.attState ∉ [0, 3, 4] → Completes .enrolGenerate s (writeRejected s Key.enrolCmd 3))) ∧
  (∀ s : State, s.dictOk → s.sec.enrolBusy = true → dget s Key.entropyFail ≠ 1 →
    ∃ u, Completes .enrolGenerateDone s u ∧ dget u Key.attState = 1 ∧ dget u Key.enrolResult = 0 ∧ u.flash.helper = true ∧
      u.flash.enrolled = false ∧ u.sec.enrolBusy = false ∧ tget 0 u.sec.ks 1 ≠ 0 ∧ tget 0 u.sec.ks 2 ≠ 0 ∧
      tget 0 u.sec.ks 3 ≠ 0 ∧ u.mem = s.mem) ∧
  (∀ s : State, s.dictOk → mayWrite s Key.enrolCmd 2 → mayWrite s Key.enrolCmd 3 → s.sec.enrolBusy = false →
    (dget s Key.attState ≠ 1 → Completes .enrolCancel s (writeRejected s Key.enrolCmd 3) ∧
      Completes (.enrolInstall .mirror) s (writeRejected s Key.enrolCmd 3)) ∧
    (dget s Key.fieldAccess = 1 → Completes (.enrolInstall .field) s (writeRejected s Key.enrolCmd 9)) ∧
    (dget s Key.fieldAccess ≠ 1 → exec (.enrolInstall .field) s = exec (.enrolInstall .mirror) s) ∧
    (dget s Key.attState = 1 →
      (∃ u, Completes (.enrolInstall .mirror) s (writtenGone u Key.enrolCmd) ∧ u.sec.ks = s.sec.ks ∧
        if chainValid s false = true ∧ chainValid s true = true then
          dget u Key.attState = 2 ∧ dget u Key.enrolResult = 0 ∧ u.flash.enrolled = true ∧ u.flash.chains = s.sec.chainBuf
        else dget u Key.attState = 1 ∧ dget u Key.enrolResult = 2 ∧ u.flash = s.flash) ∧
      (∃ u, Completes .enrolCancel s (writtenGone u Key.enrolCmd) ∧ dget u Key.attState = attBare s ∧
        dget u Key.enrolResult = 3 ∧ u.flash.helper = false ∧ (∀ e ∈ u.sec.ks, e.1 = 4)))) ∧
  (∀ s : State, s.dictOk → ∃ u, Completes .entropyFail s u ∧ dget u Key.entropyFail = 1 ∧
    u.ev.evq = s.ev.evq ++ [{ source := 0x0706, kind := 2 }] ∧ u = { s with dict := u.dict, ev := u.ev }) ∧
  (∀ s : State, s.dictOk → dget s Key.entropyFail = 1 →
    Completes (.drbgReseed false) s (entropyFail s) ∧
    (s.sec.cordWaits = false → ∃ u, Completes (.drbgReseed true) s u ∧ dget u Key.entropyFail = 0 ∧ u.sec.drbg = 0 ∧
      tget 0 u.sec.ks 4 ≠ 0 ∧ u.cord = s.cord) ∧
    (s.sec.cordWaits = true → ∃ s1, Completes (.drbgReseed true) s (cordStart s1) ∧ dget s1 Key.entropyFail = 0 ∧
      s1.cord = s.cord)) ∧
  (∀ (s : State) (v : BitVec 32), s.dictOk → s.rst.off = false → s.pw.module ≠ .off → dget s Key.servicePortState = 0 →
    (v ≠ Config.moduleId → Completes (.openRequest (some v)) s s) ∧
    (v = Config.moduleId →
      (dget s Key.attState = 4 → Completes (.openRequest (some v)) s (dset s Key.servicePortState 2)) ∧
      (dget s Key.attState ≠ 4 → dget s Key.serviceOpenPermit ≠ 1 → dget s Key.attState ≠ 0 →
        Completes (.openRequest (some v)) s (hubEvent s 0x0702)) ∧
      (dget s Key.attState ≠ 4 → (dget s Key.serviceOpenPermit = 1 ∨ dget s Key.attState = 0) →
        ∃ u, Completes (.openRequest (some v)) s u ∧ dget u Key.servicePortState = 1 ∧ u.flash.openMarker = true ∧
          u.flash.openCount = s.flash.openCount ∧ .report ∉ u.sec.work ∧ u.mem = s.mem))) ∧
  (∀ s : State, mayWrite s Key.serviceOpenCmd 1 → s.pw.module ≠ .off →
    Completes (.openRequest none) s (writtenGone (openPort s) Key.serviceOpenCmd)) ∧
  (∀ s : State, s.dictOk → dget s Key.servicePortState = 1 →
    ∃ u, Completes .eraseDone s u ∧ dget u Key.servicePortState = 2 ∧ dget u Key.attState = 4 ∧ u.sec.ks = [] ∧
      u.flash.helper = false ∧ u.flash.openMarker = false ∧ u.flash.openCount = min 0xFFFF (s.flash.openCount + 1) ∧
      dget u Key.openCount = u.flash.openCount ∧ ∃ e ∈ u.ev.evq, e.source = 0x0701)

/-- SPDM and reports (R484–R489): the connection advances by its three requests; a request out of order is answered with an error, and
one that needs keys the module does not have raises event 0x0705; the answers follow, those that are signed when the security
block has done its work in front; a DOE abort ends the connection. -/
def Obligations.AttestationComplete : Prop :=
  (∀ (s : State) (off len : Nat), hostUp s = true →
    (∃ u, Completes .getVersion s u ∧ u.sec.spdm = 1 ∧ u.out = s.out ++ [.spdm (.version 0x12)] ∧
      u = { s with sec := u.sec, out := u.out }) ∧
    (1 ≤ s.sec.spdm → ∃ u, Completes .getCapabilities s u ∧ u.sec.spdm = max 2 s.sec.spdm ∧
      u.out = s.out ++ [.spdm (.capabilities 19 true true true)] ∧ u = { s with sec := u.sec, out := u.out }) ∧
    (2 ≤ s.sec.spdm → ∃ u, Completes .negotiateAlgorithms s u ∧ u.sec.spdm = 3 ∧ u.out = s.out ++ [.spdm .algorithms] ∧
      u = { s with sec := u.sec, out := u.out }) ∧
    (∀ i ∈ [Instr.getDigests, .getCertificate off len, .challenge, .getMeasurements true],
      (s.sec.spdm < 3 → dget s Key.attState = 2 → ∃ u, Completes i s u ∧ u.out = s.out ++ [.spdm .unexpected] ∧
        u.sec.work = s.sec.work ∧ u = { s with sec := u.sec, out := u.out }) ∧
      (dget s Key.attState ≠ 2 → ∃ u, Completes i s u ∧ u.out = s.out ++ [.spdm .unexpected] ∧
        u.ev.evq = s.ev.evq ++ [{ source := 0x0705, kind := 2 }] ∧ u = { s with sec := u.sec, out := u.out, ev := u.ev })) ∧
    (3 ≤ s.sec.spdm → dget s Key.attState = 2 →
      (∃ u n, Completes .getDigests s u ∧ u.out = s.out ++ [.spdm (.digests n)] ∧ n = (sha384 (chainBytes s 0)).toNat) ∧
      (∃ u c, c = (chainBytes s 0).drop off ∧ Completes (.getCertificate off len) s u ∧
        u.out = s.out ++ [.spdm (.certificate (c.take len) (c.length - len))]) ∧
      (∃ u, Completes .challenge s u ∧ u.sec.work = s.sec.work ++ [.challenge] ∧ u.out = s.out) ∧
      (∃ u, Completes (.getMeasurements true) s u ∧ u.sec.work = s.sec.work ++ [.signedMeas (measurements s)] ∧
        u.out = s.out)) ∧
    (∃ u, Completes (.getMeasurements false) s u ∧ u.out = s.out ++ [.spdm (.measurements (measurements s) 0 none)] ∧
      u = { s with sec := u.sec, out := u.out }) ∧
    (∃ u, Completes (.getPqChain off len) s u ∧
      u.out = s.out ++ [.spdm (.pqChain (((chainBytes s 1).drop off).take (min len 16384)))]) ∧
    (s.sec.pqNext = true → canSign s = true →
      (dget s Key.entropyFail ≠ 1 → ∃ u v, Completes .getPqSignature s u ∧ u.out = s.out ++ [.spdm (.pqSignature v)] ∧
        u.sec.pqNext = false) ∧
      (dget s Key.entropyFail = 1 → ∃ u, Completes .getPqSignature s u ∧ u.sec.work = s.sec.work ++ [.pqSignature] ∧
        u.sec.pqNext = false ∧ u.out = s.out)) ∧
    (s.sec.pqNext = false → Completes .getPqSignature s (spdmSend s .unexpected))) ∧
  (∀ s : State, mayWrite s Key.attCmd 1 → s.dictOk → dget s Key.attReportState ≠ 1 →
    (canSign s = true → ∃ u, Completes .attGenerate s (writtenGone u Key.attCmd) ∧ dget u Key.attReportState = 1 ∧
      u.sec.work = s.sec.work ++ [.report]) ∧
    (canSign s = false → ∃ u, Completes .attGenerate s (writtenGone u Key.attCmd) ∧ dget u Key.attReportState = 3 ∧
      u.sec = s.sec ∧ ∃ e ∈ u.ev.evq, e.source = 0x0705)) ∧
  (∀ (s : State) (r : List SecWork), dget s Key.entropyFail ≠ 1 → s.dictOk →
    (s.sec.work = .report :: r → ∃ u, Completes .reportReady s u ∧ u.sec.work = r ∧ dget u Key.attReportState = 2 ∧
      dget u Key.attReportLen = u.sec.report.length ∧ u.out = s.out) ∧
    (s.sec.work = .challenge :: r → canSign s = true → ∃ u n a, Completes .reportReady s u ∧ u.sec.work = r ∧ u.sec.pqNext = true ∧
      u.out = s.out ++ [.spdm (.challengeAuth n a)]) ∧
    (∀ b, s.sec.work = .signedMeas b :: r → canSign s = true → ∃ u n a, Completes .reportReady s u ∧ u.sec.work = r ∧
      u.sec.pqNext = true ∧ u.out = s.out ++ [.spdm (.measurements b n (some a))]) ∧
    (s.sec.work = .pqSignature :: r → canSign s = true → ∃ u a, Completes .reportReady s u ∧ u.sec.work = r ∧
      u.out = s.out ++ [.spdm (.pqSignature a)])) ∧
  (∀ s : State, ∃ u, Completes .doeAbort s u ∧ u.sec.spdm = 0 ∧ u.sec.pqNext = false ∧
    (∀ w ∈ u.sec.work, w = .report ∨ w = .verify) ∧ u = { s with sec := u.sec })


/-! ### Marker waves and snapshots -/

/-- Marker waves (R32–R34, R495–R503): a trigger that finds no wave and no halt launches a debug cut that every powered block owes,
and one that cannot be served is counted; the last marker of a block latches it behind the traffic accepted before the marker, and its
acknowledgement goes to the hub; a
MARKER frame of a cut not yet joined launches it here; a halted cut is released by SNAP_RESUME. -/
def Obligations.MarkerWavesComplete : Prop :=
  (∀ s : State, s.dictOk → snapBusy s = false → snapSource s 3 = false →
    (∃ c, (snapTrigger s).snap.cut = some c ∧ c.freeze = false ∧ c.acks = [] ∧
      c.number = (dget s Key.snapCut + 1) % 2 ^ 16 ∧ dget (snapTrigger s) Key.snapState = 1 ∧
      (∀ k ∈ c.owed, blockOff s k = false) ∧ (snapTrigger s).mem = s.mem) ∧
    (mayWrite s Key.snapTrigger 1 → Completes (.snapTrigger 1) s (writtenGone (snapTrigger s) Key.snapTrigger)) ∧
    (s.pw.module = .run → s.q.qeReady = true → snapSource s 0 = true → dget s Key.snapArm = 1 →
      Completes .snapIn s (snapTrigger s))) ∧
  (∀ s : State, snapBusy s = true →
    (mayWrite s Key.snapTrigger 1 → Completes (.snapTrigger 1) s (writtenGone (snapMissed s) Key.snapTrigger)) ∧
    (s.pw.module = .run → s.q.qeReady = true → snapSource s 0 = true → dget s Key.snapArm = 1 →
      Completes .snapIn s (snapMissed s))) ∧
  (∀ s : State, (snapSource s 0 = false ∨ dget s Key.snapArm ≠ 1 ∨ s.pw.module ≠ .run ∨ s.q.qeReady = false) → Completes .snapIn s s) ∧
  (∀ (s : State) (ut : Fin 8) (u : Fin 1024) (c : Cut) (key : Nat), key = blockKey ut.val u.val → s.snap.cut = some c →
    c.freeze = false → c.owed.contains key = true → trafficAhead s key = false → blockQuenched s key = false →
    dget s Key.snapHalt ≠ 1 →
    ∃ s1, Completes (.markerArrival ut u true) s (cutCheck s1) ∧
      s1.snap.cut = some { c with owed := sremove key c.owed, acks := c.acks ++ [(key, false)] } ∧
      (∃ w ws, tget [] s1.snap.banks key = w :: ws ∧ w / 2 ^ 32 % 2 ^ 16 = 1 ∧ w / 2 ^ 48 = c.number % 2 ^ 16) ∧
      s1.mem = s.mem ∧ s1.engines = s.engines) ∧
  (∀ (s : State) (ut : Fin 8) (u : Fin 1024) (c : Cut) (last : Bool), s.snap.cut = some c →
    trafficAhead s (blockKey ut.val u.val) = true → c.owed ≠ [] →
    ∃ t, Completes (.markerArrival ut u last) s t ∧ t.snap = s.snap) ∧
  (∀ (s s1 : State) (ut : Fin 8) (u : Fin 1024) (c : Cut) (null : Bool) (m : EmberMsg), s.snap.cut = some c →
    c.acks.find? (fun a => a.1 == blockKey ut.val u.val) = some (blockKey ut.val u.val, null) →
    emberArrival s (.markerAck (blockKey ut.val u.val) null) = some m → s1 = takeEmber s m →
    Completes (.markerAck ut u) s (cutCheck { s1 with snap := { s1.snap with cut := some { c with
      acks := c.acks.filter (fun b => b.1 != blockKey ut.val u.val), nulls := c.nulls + (if null then 1 else 0) } } })) ∧
  (∀ (s : State) (c : Cut), s.snap.cut = some c → c.owed = [] → c.acks = [] → c.freeze = false → s.ck.fz = none → s.dictOk →
    (cutCheck s).snap.cut = none ∧ dget (cutCheck s) Key.snapCut = c.number ∧ dget (cutCheck s) Key.snapArm = 0 ∧
      dget (cutCheck s) Key.snapState = (if dget s Key.snapHalt = 1 ∨ s.snap.held ≠ [] then 2 else 0) ∧
      (cutCheck s).snap.outHigh = true) ∧
  (∀ (s s1 s2 : State) (peer : Nat) (port : Fin 8) (f g : CordFrame) (key : Nat), accepted s port.val 9 f g →
    pathExists s peer port.val = true → pathUp s peer port.val = true → rxSession s peer port.val g false = some s1 →
    key = chanKey peer port.val (g.chan % 16) → g.seq = (getChan s1 key).expected →
    s2 = markerFrame s1 key g.arg (g.elem % 2 ^ 32) →
    Completes (.marker peer port f) s (pump (frameApplied s2 key)) ∧
      ((g.elem % 2 ^ 32, g.arg) ∉ s1.snap.joined → snapSource s1 2 = true → dget s1 Key.snapArm = 1 → snapBusy s1 = false →
        s2.snap.joined.head? = some (g.elem % 2 ^ 32, g.arg) ∧ s2.snap.cut ≠ none) ∧
      (snapSource s1 2 = false → s2.snap.cut = s1.snap.cut)) ∧
  (∀ s : State, Completes .snapOutPulseEnd s { s with snap := { s.snap with outHigh := false } }) ∧
  (∀ s : State, mayWrite s Key.snapResume 1 → s.dictOk → dget s Key.snapState = 2 → s.ck.fz = none →
    twf ({} : Engine) s.engines = true →
    ∃ u, Completes (.snapResume 1) s (writtenGone u Key.snapResume) ∧ u.snap.held = [] ∧ dget u Key.snapState = 0 ∧
      u.mem = s.mem ∧ ∀ e, e < 1024 → e ∈ s.snap.held → (getEng u e).haltHold = false)

/-! ### Frames of families -/

/-- The frames of four families, whatever their operands and whether or not the command has an effect. Commands of the security
block and of attestation change nothing but the security block's state, flash, the dictionary, the event queues, what leaves the
module, and free values. Commands of the event controllers change nothing but events, the dictionary and interrupts on their way.
Readings of feeds, coolant and step monitors, a permit and damping change nothing but the power system, the dictionary and events.
Requests of the field network and mailbox that write nothing change nothing but the two paths' own state, the dictionary, events
and answers. So none of them changes memory, a strand, a knot, a queue, an operation or the Cord. -/
def Obligations.FamiliesKeepToTheirState : Prop :=
  (∀ (s t : State) (data : List Byte) (a b : Bool) (off len : Nat) (tap : Option (BitVec 32)) (path : DictPath)
      (i : Instr), i ∈ [.fwBegin, .fwStageData data, .fwVerify, .fwVerifyDone a b, .fwArm, .fwCancel, .enrolGenerate, .enrolGenerateDone,
      .enrolInstall path, .enrolCancel, .attGenerate, .reportReady, .getVersion, .getCapabilities, .negotiateAlgorithms, .getDigests,
      .getCertificate off len, .challenge, .getMeasurements a, .getPqSignature, .getPqChain off len, .doeAbort, .openRequest tap,
      .eraseDone, .entropyFail] → exec i s = .next t →
    t = { s with sec := t.sec, flash := t.flash, dict := t.dict, dsys := t.dsys, ev := t.ev, out := t.out, free := t.free }) ∧
  (∀ (s t : State) (pos : Nat) (r g : Fin 64) (tgt : Fin 2054) (vec : VecEntry) (ctl : Fin 36) (d : DieId) (w : Word)
      (v : BitVec 32) (x : BitVec 31) (y : Byte) (a b : Bool) (i : Instr),
    i ∈ [.holdoffExpiry r, .ringCiWrite r v, .tctlWrite tgt x, .eoi tgt x, .evtHoldWrite y, .groupDefWrite g v, .localOccurrence pos,
      .ecForward ctl, .maskWrite ctl w, .pendWrite ctl w, .ecLockWrite d y, .msiXEnable a b, .vectorUnmask vec] → exec i s = .next t →
    t = { s with ev := t.ev, dict := t.dict, dsys := t.dsys, out := t.out, heldHost := t.heldHost }) ∧
  (∀ (s t : State) (f : Fin 2) (a b : FeedReading) (counts : List Nat) (c : ClusterId) (y : Byte) (x z : Option Int) (i : Instr),
    i ∈ [.feedCondition f a, .feedVoltageCrossover a b, .coolantInletReading x z, .stepMonitorWindow counts, .dampIdleExpiry c,
      .lowVoltagePermitWrite y] → exec i s = .next t →
    t = { s with pw := t.pw, dict := t.dict, dsys := t.dsys, ev := t.ev }) ∧
  (∀ (s t : State) (r : Tranan) (d : Datagram) (w : Word) (buf : List Byte) (src : Nat) (a : Bool) (i : Instr),
    i ∈ [.read r, .discover d, .discoverDelayExpiry, .duplicateAddressDetection a, .neighborSolicitation src, .echoRequest src buf,
      .fieldLinkStateChange a, .mbxDoorbell w buf] → exec i s = .next t →
    t = { s with dsys := t.dsys, dict := t.dict, ev := t.ev, out := t.out })
end

