-- ==== Sys2Proof/Laws/Bytes.lean ====
section
/-!
SUPPORT. Little-endian byte strings: a number laid out in enough bytes reads back.
-/

namespace Sys2Proof.Machine

@[simp] theorem leBytes_length (n v : Nat) : (leBytes n v).length = n := by
  induction n generalizing v with
  | zero => rfl
  | succ n ih => simp [leBytes, ih]

@[simp] theorem leNat_leBytes (n v : Nat) : leNat (leBytes n v) = v % 256 ^ n := by
  induction n generalizing v with
  | zero => simp [leBytes, leNat, Nat.mod_one]
  | succ n ih =>
    simp only [leBytes, leNat, ih, BitVec.toNat_ofNat]
    rw [Nat.pow_succ (m := n) (n := 256), Nat.mul_comm (256 ^ n) 256, Nat.mod_mul]

theorem leField_leBytes (n v : Nat) : leField (leBytes n v) 0 n = v % 256 ^ n := by
  have h : (leBytes n v).take n = leBytes n v := List.take_of_length_le (by simp)
  simp [leField, h]

theorem toNat_lt_bytes (k : Nat) (b : BitVec (8 * k)) : b.toNat < 256 ^ k :=
  Nat.lt_of_lt_of_eq b.isLt (Nat.pow_mul 2 8 k)

end Sys2Proof.Machine
end

