-- ==== Sys2Proof/Laws/Memory.lean ====
section
/-!
SUPPORT. Laws of the sparse tables and of the canonical cell list: a read after a write, and that every operation over
memory keeps the canonical form.
-/

namespace Sys2Proof.Machine

variable {α : Type} [DecidableEq α]

theorem tget_of_lt (d : α) (t : Tab α) (lo k : Nat) (h : twfFrom d lo t = true) (hk : k < lo) : tget d t k = d := by
  induction t generalizing lo with
  | nil => rfl
  | cons p r ih =>
    obtain ⟨j, v⟩ := p
    simp only [twfFrom, Bool.and_eq_true, decide_eq_true_eq] at h
    have h1 : j ≠ k := by omega
    have h2 : k < j := by omega
    simp [tget, h1, h2]

theorem twfFrom_mono (d : α) (t : Tab α) (lo lo' : Nat) (h : twfFrom d lo t = true) (hl : lo' ≤ lo) :
    twfFrom d lo' t = true := by
  cases t with
  | nil => rfl
  | cons p r =>
    simp only [twfFrom, Bool.and_eq_true, decide_eq_true_eq] at h ⊢
    exact ⟨⟨by omega, h.1.2⟩, h.2⟩

theorem tput_wfFrom (d v : α) (t : Tab α) (lo k : Nat) (h : twfFrom d lo t = true) (hk : lo ≤ k) :
    twfFrom d lo (tput (decide (v = d)) t k v) = true := by
  induction t generalizing lo with
  | nil =>
    by_cases hv : v = d <;> simp [tput, twfFrom, hv, hk]
  | cons p r ih =>
    obtain ⟨j, w⟩ := p
    simp only [twfFrom, Bool.and_eq_true, decide_eq_true_eq] at h
    obtain ⟨⟨h1, h2⟩, h3⟩ := h
    by_cases hj : j = k
    · subst hj
      by_cases hv : v = d
      · simpa [tput, hv] using twfFrom_mono d r (j + 1) lo h3 (by omega)
      · simp [tput, hv, twfFrom, h1, h3]
    · by_cases hlt : k < j
      · by_cases hv : v = d
        · simp [tput, hj, hlt, hv, twfFrom, h1, h2, h3]
        · simp [tput, hj, hlt, hv, twfFrom, hk, h2, h3, show k + 1 ≤ j from hlt]
      · have := ih (j + 1) h3 (by omega)
        simp [tput, hj, hlt, twfFrom, h1, h2, this]

/-- A write keeps a table's canonical form. -/
theorem tset_wf (d v : α) (t : Tab α) (k : Nat) (h : twf d t = true) : twf d (tset d t k v) = true :=
  tput_wfFrom d v t 0 k h (Nat.zero_le k)

theorem tget_tput (d v : α) (t : Tab α) (lo k j : Nat) (h : twfFrom d lo t = true) :
    tget d (tput (decide (v = d)) t k v) j = if j = k then v else tget d t j := by
  induction t generalizing lo with
  | nil =>
    by_cases hv : v = d
    · simp [tput, tget, hv]
    · by_cases hj : j = k
      · simp [tput, tget, hv, hj]
      · have : k ≠ j := Ne.symm hj
        simp [tput, tget, hv, hj, this]
  | cons p r ih =>
    obtain ⟨i, w⟩ := p
    have h' := h
    simp only [twfFrom, Bool.and_eq_true, decide_eq_true_eq] at h
    obtain ⟨⟨h1, h2⟩, h3⟩ := h
    have hr : ∀ x, x < i + 1 → tget d r x = d := fun x hx => tget_of_lt d r (i + 1) x h3 hx
    by_cases hi : i = k
    · subst hi
      by_cases hv : v = d
      · by_cases hj : j = i
        · subst hj; simp [tput, hv, hr j (by omega)]
        · by_cases hlt : j < i
          · simp [tput, hv, tget, hj, Ne.symm hj, hlt, hr j (by omega)]
          · simp [tput, hv, tget, hj, Ne.symm hj, hlt]
      · by_cases hj : j = i
        · simp [tput, hv, tget, hj]
        · simp [tput, hv, tget, hj, Ne.symm hj]
    · by_cases hlt : k < i
      · by_cases hv : v = d
        · by_cases hj : j = k
          · subst hj; simp [tput, hi, hlt, hv, tget]
          · simp [tput, hi, hlt, hv, hj]
        · by_cases hj : j = k
          · subst hj; simp [tput, hi, hlt, hv, tget]
          · by_cases hjk : j < k
            · have a1 : i ≠ j := by omega
              have a2 : j < i := by omega
              simp [tput, hi, hlt, hv, tget, hj, Ne.symm hj, hjk, a1, a2]
            · simp [tput, hi, hlt, hv, tget, hj, Ne.symm hj, hjk]
      · have := ih (i + 1) h3
        by_cases hj : j = k
        · subst hj
          have a1 : i ≠ j := hi
          simp [tput, hi, hlt, tget, this]
        · simp only [tput, hi, hlt, if_false, tget]
          rw [this]; simp [hj]

/-- A read after a write: the value written at its key, every other key as before. -/
theorem tget_tset (d v : α) (t : Tab α) (k j : Nat) (h : twf d t = true) :
    tget d (tset d t k v) j = if j = k then v else tget d t j := tget_tput d v t 0 k j h

theorem twfFrom_filter (d : α) (p : Nat × α → Bool) (t : Tab α) (lo : Nat) (h : twfFrom d lo t = true) :
    twfFrom d lo (t.filter p) = true := by
  induction t generalizing lo with
  | nil => rfl
  | cons q r ih =>
    obtain ⟨j, v⟩ := q
    simp only [twfFrom, Bool.and_eq_true, decide_eq_true_eq] at h
    obtain ⟨⟨h1, h2⟩, h3⟩ := h
    by_cases hp : p (j, v)
    · simp [hp, twfFrom, h1, h2, ih (j + 1) h3]
    · simpa [List.filter_cons, hp] using twfFrom_mono d _ (j + 1) lo (ih (j + 1) h3) (by omega)

/-- Dropping entries keeps a table's canonical form. -/
theorem twf_filter (d : α) (p : Nat × α → Bool) (t : Tab α) (h : twf d t = true) : twf d (t.filter p) = true :=
  twfFrom_filter d p t 0 h

/-! ### The cell list -/

theorem cellSet_wf (l : List Host.Cell) (a : Nat) (b : Byte) (h : Memory.wf l = true) : Memory.wf (cellSet l a b) = true :=
  tset_wf (α := Byte) 0#8 b l a h

theorem cellGet_cellSet (l : List Host.Cell) (a x : Nat) (b : Byte) (h : Memory.wf l = true) :
    cellGet (cellSet l a b) x = if x = a then b else cellGet l x :=
  tget_tset (α := Byte) 0#8 b l a x h

theorem cellWrite_wf (b : List Byte) (l : List Host.Cell) (a : Nat) (h : Memory.wf l = true) :
    Memory.wf (cellWrite l a b) = true := by
  induction b generalizing l a with
  | nil => exact h
  | cons x r ih => exact ih _ _ (cellSet_wf l a x h)

/-- A write of bytes leaves every byte outside them alone. -/
theorem cellGet_cellWrite_out (b : List Byte) (l : List Host.Cell) (a x : Nat) (h : Memory.wf l = true)
    (hx : x < a ∨ a + b.length ≤ x) : cellGet (cellWrite l a b) x = cellGet l x := by
  induction b generalizing l a with
  | nil => rfl
  | cons y r ih =>
    simp only [List.length_cons] at hx
    have h1 : x ≠ a := by omega
    rw [cellWrite, ih _ _ (cellSet_wf l a y h) (by omega), cellGet_cellSet l a x y h]
    simp [h1]

/-- A read of the bytes just written gives them. -/
theorem cellRead_cellWrite (b : List Byte) (l : List Host.Cell) (a : Nat) (h : Memory.wf l = true) :
    cellRead (cellWrite l a b) a b.length = b := by
  induction b generalizing l a with
  | nil => rfl
  | cons y r ih =>
    simp only [List.length_cons, cellRead, cellWrite]
    have h1 := cellGet_cellWrite_out r (cellSet l a y) (a + 1) a (cellSet_wf l a y h) (by omega)
    rw [h1, cellGet_cellSet l a a y h, ih _ _ (cellSet_wf l a y h)]
    simp

theorem filter_cells_wf (p : Host.Cell → Bool) (l : List Host.Cell) (h : Memory.wf l = true) :
    Memory.wf (l.filter p) = true :=
  twf_filter (α := Byte) 0#8 p l h

/-! ### Operations over the memory system -/

theorem putLine_cells (m : MemSys) (a : Nat) (l : CLine) : (putLine m a l).cells = m.cells := rfl
theorem dropLines_cells (m : MemSys) (w : Nat → Bool) : (dropLines m w).cells = m.cells := rfl
theorem poisonAtom_cells (m : MemSys) (a : Nat) : (poisonAtom m a).cells = m.cells := rfl
theorem cureAtom_cells (m : MemSys) (a : Nat) : (cureAtom m a).cells = m.cells := rfl

theorem evictLine_wf (m : MemSys) (a : Nat) (h : Memory.wf m.cells = true) : Memory.wf (evictLine m a).cells = true := by
  unfold evictLine
  split
  · exact h
  · dsimp only
    split
    · exact cellWrite_wf _ _ _ h
    · exact h

theorem writeBackAll_wf (m : MemSys) (w : Nat → Bool) (h : Memory.wf m.cells = true) :
    Memory.wf (writeBackAll m w).cells = true := by
  unfold writeBackAll
  dsimp only
  generalize m.cache = c
  generalize m.cells = l at h
  induction c generalizing l with
  | nil => exact h
  | cons p r ih =>
    simp only [List.foldl_cons]
    apply ih
    split
    · split
      · exact cellWrite_wf _ _ _ h
      · exact h
    · exact h

end Sys2Proof.Machine
end

