-- ==== Sys2Proof/Laws/State.lean ====
section
/-!
SUPPORT. What each named update of State leaves as it was, one lemma a field, and what reading gives after it.
-/

namespace Sys2Proof.Machine


section dset

variable {s : State} {k x : Nat}

@[simp] theorem dset_pending : (dset s k x).pending = s.pending := rfl
@[simp] theorem dset_free : (dset s k x).free = s.free := rfl
@[simp] theorem dset_mem : (dset s k x).mem = s.mem := rfl
@[simp] theorem dset_ev : (dset s k x).ev = s.ev := rfl
@[simp] theorem dset_flt : (dset s k x).flt = s.flt := rfl
@[simp] theorem dset_knotq : (dset s k x).knotq = s.knotq := rfl
@[simp] theorem dset_knots : (dset s k x).knots = s.knots := rfl
@[simp] theorem dset_knotsLost : (dset s k x).knotsLost = s.knotsLost := rfl
@[simp] theorem dset_engines : (dset s k x).engines = s.engines := rfl
@[simp] theorem dset_ops : (dset s k x).ops = s.ops := rfl
@[simp] theorem dset_nextOp : (dset s k x).nextOp = s.nextOp := rfl
@[simp] theorem dset_jobs : (dset s k x).jobs = s.jobs := rfl
@[simp] theorem dset_raq : (dset s k x).raq = s.raq := rfl
@[simp] theorem dset_storm : (dset s k x).storm = s.storm := rfl
@[simp] theorem dset_reports : (dset s k x).reports = s.reports := rfl
@[simp] theorem dset_gens : (dset s k x).gens = s.gens := rfl
@[simp] theorem dset_tlines : (dset s k x).tlines = s.tlines := rfl
@[simp] theorem dset_tin : (dset s k x).tin = s.tin := rfl
@[simp] theorem dset_tout : (dset s k x).tout = s.tout := rfl
@[simp] theorem dset_swapJob : (dset s k x).swapJob = s.swapJob := rfl
@[simp] theorem dset_swapped : (dset s k x).swapped = s.swapped := rfl
@[simp] theorem dset_seqs : (dset s k x).seqs = s.seqs := rfl
@[simp] theorem dset_saved : (dset s k x).saved = s.saved := rfl
@[simp] theorem dset_q : (dset s k x).q = s.q := rfl
@[simp] theorem dset_pw : (dset s k x).pw = s.pw := rfl
@[simp] theorem dset_cord : (dset s k x).cord = s.cord := rfl
@[simp] theorem dset_ck : (dset s k x).ck = s.ck := rfl
@[simp] theorem dset_snap : (dset s k x).snap = s.snap := rfl
@[simp] theorem dset_rst : (dset s k x).rst = s.rst := rfl
@[simp] theorem dset_flash : (dset s k x).flash = s.flash := rfl
@[simp] theorem dset_dsys : (dset s k x).dsys = s.dsys := rfl
@[simp] theorem dset_sec : (dset s k x).sec = s.sec := rfl
@[simp] theorem dset_d3 : (dset s k x).d3 = s.d3 := rfl
@[simp] theorem dset_pcie : (dset s k x).pcie = s.pcie := rfl
@[simp] theorem dset_heldHost : (dset s k x).heldHost = s.heldHost := rfl
@[simp] theorem dset_out : (dset s k x).out = s.out := rfl

end dset

section dcount

variable {s : State} {k n : Nat}

@[simp] theorem dcount_pending : (dcount s k n).pending = s.pending := rfl
@[simp] theorem dcount_free : (dcount s k n).free = s.free := rfl
@[simp] theorem dcount_mem : (dcount s k n).mem = s.mem := rfl
@[simp] theorem dcount_ev : (dcount s k n).ev = s.ev := rfl
@[simp] theorem dcount_flt : (dcount s k n).flt = s.flt := rfl
@[simp] theorem dcount_knotq : (dcount s k n).knotq = s.knotq := rfl
@[simp] theorem dcount_knots : (dcount s k n).knots = s.knots := rfl
@[simp] theorem dcount_knotsLost : (dcount s k n).knotsLost = s.knotsLost := rfl
@[simp] theorem dcount_engines : (dcount s k n).engines = s.engines := rfl
@[simp] theorem dcount_ops : (dcount s k n).ops = s.ops := rfl
@[simp] theorem dcount_nextOp : (dcount s k n).nextOp = s.nextOp := rfl
@[simp] theorem dcount_jobs : (dcount s k n).jobs = s.jobs := rfl
@[simp] theorem dcount_raq : (dcount s k n).raq = s.raq := rfl
@[simp] theorem dcount_storm : (dcount s k n).storm = s.storm := rfl
@[simp] theorem dcount_reports : (dcount s k n).reports = s.reports := rfl
@[simp] theorem dcount_gens : (dcount s k n).gens = s.gens := rfl
@[simp] theorem dcount_tlines : (dcount s k n).tlines = s.tlines := rfl
@[simp] theorem dcount_tin : (dcount s k n).tin = s.tin := rfl
@[simp] theorem dcount_tout : (dcount s k n).tout = s.tout := rfl
@[simp] theorem dcount_swapJob : (dcount s k n).swapJob = s.swapJob := rfl
@[simp] theorem dcount_swapped : (dcount s k n).swapped = s.swapped := rfl
@[simp] theorem dcount_seqs : (dcount s k n).seqs = s.seqs := rfl
@[simp] theorem dcount_saved : (dcount s k n).saved = s.saved := rfl
@[simp] theorem dcount_q : (dcount s k n).q = s.q := rfl
@[simp] theorem dcount_pw : (dcount s k n).pw = s.pw := rfl
@[simp] theorem dcount_cord : (dcount s k n).cord = s.cord := rfl
@[simp] theorem dcount_ck : (dcount s k n).ck = s.ck := rfl
@[simp] theorem dcount_snap : (dcount s k n).snap = s.snap := rfl
@[simp] theorem dcount_rst : (dcount s k n).rst = s.rst := rfl
@[simp] theorem dcount_flash : (dcount s k n).flash = s.flash := rfl
@[simp] theorem dcount_dsys : (dcount s k n).dsys = s.dsys := rfl
@[simp] theorem dcount_sec : (dcount s k n).sec = s.sec := rfl
@[simp] theorem dcount_d3 : (dcount s k n).d3 = s.d3 := rfl
@[simp] theorem dcount_pcie : (dcount s k n).pcie = s.pcie := rfl
@[simp] theorem dcount_heldHost : (dcount s k n).heldHost = s.heldHost := rfl
@[simp] theorem dcount_out : (dcount s k n).out = s.out := rfl

end dcount

section sendOut

variable {s : State} {m : OutMsg}

@[simp] theorem sendOut_pending : (sendOut s m).pending = s.pending := rfl
@[simp] theorem sendOut_free : (sendOut s m).free = s.free := rfl
@[simp] theorem sendOut_dict : (sendOut s m).dict = s.dict := rfl
@[simp] theorem sendOut_mem : (sendOut s m).mem = s.mem := rfl
@[simp] theorem sendOut_ev : (sendOut s m).ev = s.ev := rfl
@[simp] theorem sendOut_flt : (sendOut s m).flt = s.flt := rfl
@[simp] theorem sendOut_knotq : (sendOut s m).knotq = s.knotq := rfl
@[simp] theorem sendOut_knots : (sendOut s m).knots = s.knots := rfl
@[simp] theorem sendOut_knotsLost : (sendOut s m).knotsLost = s.knotsLost := rfl
@[simp] theorem sendOut_engines : (sendOut s m).engines = s.engines := rfl
@[simp] theorem sendOut_ops : (sendOut s m).ops = s.ops := rfl
@[simp] theorem sendOut_nextOp : (sendOut s m).nextOp = s.nextOp := rfl
@[simp] theorem sendOut_jobs : (sendOut s m).jobs = s.jobs := rfl
@[simp] theorem sendOut_raq : (sendOut s m).raq = s.raq := rfl
@[simp] theorem sendOut_storm : (sendOut s m).storm = s.storm := rfl
@[simp] theorem sendOut_reports : (sendOut s m).reports = s.reports := rfl
@[simp] theorem sendOut_gens : (sendOut s m).gens = s.gens := rfl
@[simp] theorem sendOut_tlines : (sendOut s m).tlines = s.tlines := rfl
@[simp] theorem sendOut_tin : (sendOut s m).tin = s.tin := rfl
@[simp] theorem sendOut_tout : (sendOut s m).tout = s.tout := rfl
@[simp] theorem sendOut_swapJob : (sendOut s m).swapJob = s.swapJob := rfl
@[simp] theorem sendOut_swapped : (sendOut s m).swapped = s.swapped := rfl
@[simp] theorem sendOut_seqs : (sendOut s m).seqs = s.seqs := rfl
@[simp] theorem sendOut_saved : (sendOut s m).saved = s.saved := rfl
@[simp] theorem sendOut_q : (sendOut s m).q = s.q := rfl
@[simp] theorem sendOut_pw : (sendOut s m).pw = s.pw := rfl
@[simp] theorem sendOut_cord : (sendOut s m).cord = s.cord := rfl
@[simp] theorem sendOut_ck : (sendOut s m).ck = s.ck := rfl
@[simp] theorem sendOut_snap : (sendOut s m).snap = s.snap := rfl
@[simp] theorem sendOut_rst : (sendOut s m).rst = s.rst := rfl
@[simp] theorem sendOut_flash : (sendOut s m).flash = s.flash := rfl
@[simp] theorem sendOut_dsys : (sendOut s m).dsys = s.dsys := rfl
@[simp] theorem sendOut_sec : (sendOut s m).sec = s.sec := rfl
@[simp] theorem sendOut_d3 : (sendOut s m).d3 = s.d3 := rfl
@[simp] theorem sendOut_pcie : (sendOut s m).pcie = s.pcie := rfl
@[simp] theorem sendOut_heldHost : (sendOut s m).heldHost = s.heldHost := rfl

end sendOut

section hubEvent

variable {s : State} {a b c k : Nat}

@[simp] theorem hubEvent_pending : (hubEvent s a b c k).pending = s.pending := rfl
@[simp] theorem hubEvent_free : (hubEvent s a b c k).free = s.free := rfl
@[simp] theorem hubEvent_dict : (hubEvent s a b c k).dict = s.dict := rfl
@[simp] theorem hubEvent_mem : (hubEvent s a b c k).mem = s.mem := rfl
@[simp] theorem hubEvent_flt : (hubEvent s a b c k).flt = s.flt := rfl
@[simp] theorem hubEvent_knotq : (hubEvent s a b c k).knotq = s.knotq := rfl
@[simp] theorem hubEvent_knots : (hubEvent s a b c k).knots = s.knots := rfl
@[simp] theorem hubEvent_knotsLost : (hubEvent s a b c k).knotsLost = s.knotsLost := rfl
@[simp] theorem hubEvent_engines : (hubEvent s a b c k).engines = s.engines := rfl
@[simp] theorem hubEvent_ops : (hubEvent s a b c k).ops = s.ops := rfl
@[simp] theorem hubEvent_nextOp : (hubEvent s a b c k).nextOp = s.nextOp := rfl
@[simp] theorem hubEvent_jobs : (hubEvent s a b c k).jobs = s.jobs := rfl
@[simp] theorem hubEvent_raq : (hubEvent s a b c k).raq = s.raq := rfl
@[simp] theorem hubEvent_storm : (hubEvent s a b c k).storm = s.storm := rfl
@[simp] theorem hubEvent_reports : (hubEvent s a b c k).reports = s.reports := rfl
@[simp] theorem hubEvent_gens : (hubEvent s a b c k).gens = s.gens := rfl
@[simp] theorem hubEvent_tlines : (hubEvent s a b c k).tlines = s.tlines := rfl
@[simp] theorem hubEvent_tin : (hubEvent s a b c k).tin = s.tin := rfl
@[simp] theorem hubEvent_tout : (hubEvent s a b c k).tout = s.tout := rfl
@[simp] theorem hubEvent_swapJob : (hubEvent s a b c k).swapJob = s.swapJob := rfl
@[simp] theorem hubEvent_swapped : (hubEvent s a b c k).swapped = s.swapped := rfl
@[simp] theorem hubEvent_seqs : (hubEvent s a b c k).seqs = s.seqs := rfl
@[simp] theorem hubEvent_saved : (hubEvent s a b c k).saved = s.saved := rfl
@[simp] theorem hubEvent_q : (hubEvent s a b c k).q = s.q := rfl
@[simp] theorem hubEvent_pw : (hubEvent s a b c k).pw = s.pw := rfl
@[simp] theorem hubEvent_cord : (hubEvent s a b c k).cord = s.cord := rfl
@[simp] theorem hubEvent_ck : (hubEvent s a b c k).ck = s.ck := rfl
@[simp] theorem hubEvent_snap : (hubEvent s a b c k).snap = s.snap := rfl
@[simp] theorem hubEvent_rst : (hubEvent s a b c k).rst = s.rst := rfl
@[simp] theorem hubEvent_flash : (hubEvent s a b c k).flash = s.flash := rfl
@[simp] theorem hubEvent_dsys : (hubEvent s a b c k).dsys = s.dsys := rfl
@[simp] theorem hubEvent_sec : (hubEvent s a b c k).sec = s.sec := rfl
@[simp] theorem hubEvent_d3 : (hubEvent s a b c k).d3 = s.d3 := rfl
@[simp] theorem hubEvent_pcie : (hubEvent s a b c k).pcie = s.pcie := rfl
@[simp] theorem hubEvent_heldHost : (hubEvent s a b c k).heldHost = s.heldHost := rfl
@[simp] theorem hubEvent_out : (hubEvent s a b c k).out = s.out := rfl

end hubEvent

section localEvent

variable {s : State} {a b c k x y : Nat}

@[simp] theorem localEvent_pending : (localEvent s a b c k x y).pending = s.pending := rfl
@[simp] theorem localEvent_free : (localEvent s a b c k x y).free = s.free := rfl
@[simp] theorem localEvent_dict : (localEvent s a b c k x y).dict = s.dict := rfl
@[simp] theorem localEvent_mem : (localEvent s a b c k x y).mem = s.mem := rfl
@[simp] theorem localEvent_flt : (localEvent s a b c k x y).flt = s.flt := rfl
@[simp] theorem localEvent_knotq : (localEvent s a b c k x y).knotq = s.knotq := rfl
@[simp] theorem localEvent_knots : (localEvent s a b c k x y).knots = s.knots := rfl
@[simp] theorem localEvent_knotsLost : (localEvent s a b c k x y).knotsLost = s.knotsLost := rfl
@[simp] theorem localEvent_engines : (localEvent s a b c k x y).engines = s.engines := rfl
@[simp] theorem localEvent_ops : (localEvent s a b c k x y).ops = s.ops := rfl
@[simp] theorem localEvent_nextOp : (localEvent s a b c k x y).nextOp = s.nextOp := rfl
@[simp] theorem localEvent_jobs : (localEvent s a b c k x y).jobs = s.jobs := rfl
@[simp] theorem localEvent_raq : (localEvent s a b c k x y).raq = s.raq := rfl
@[simp] theorem localEvent_storm : (localEvent s a b c k x y).storm = s.storm := rfl
@[simp] theorem localEvent_reports : (localEvent s a b c k x y).reports = s.reports := rfl
@[simp] theorem localEvent_gens : (localEvent s a b c k x y).gens = s.gens := rfl
@[simp] theorem localEvent_tlines : (localEvent s a b c k x y).tlines = s.tlines := rfl
@[simp] theorem localEvent_tin : (localEvent s a b c k x y).tin = s.tin := rfl
@[simp] theorem localEvent_tout : (localEvent s a b c k x y).tout = s.tout := rfl
@[simp] theorem localEvent_swapJob : (localEvent s a b c k x y).swapJob = s.swapJob := rfl
@[simp] theorem localEvent_swapped : (localEvent s a b c k x y).swapped = s.swapped := rfl
@[simp] theorem localEvent_seqs : (localEvent s a b c k x y).seqs = s.seqs := rfl
@[simp] theorem localEvent_saved : (localEvent s a b c k x y).saved = s.saved := rfl
@[simp] theorem localEvent_q : (localEvent s a b c k x y).q = s.q := rfl
@[simp] theorem localEvent_pw : (localEvent s a b c k x y).pw = s.pw := rfl
@[simp] theorem localEvent_cord : (localEvent s a b c k x y).cord = s.cord := rfl
@[simp] theorem localEvent_ck : (localEvent s a b c k x y).ck = s.ck := rfl
@[simp] theorem localEvent_snap : (localEvent s a b c k x y).snap = s.snap := rfl
@[simp] theorem localEvent_rst : (localEvent s a b c k x y).rst = s.rst := rfl
@[simp] theorem localEvent_flash : (localEvent s a b c k x y).flash = s.flash := rfl
@[simp] theorem localEvent_dsys : (localEvent s a b c k x y).dsys = s.dsys := rfl
@[simp] theorem localEvent_sec : (localEvent s a b c k x y).sec = s.sec := rfl
@[simp] theorem localEvent_d3 : (localEvent s a b c k x y).d3 = s.d3 := rfl
@[simp] theorem localEvent_pcie : (localEvent s a b c k x y).pcie = s.pcie := rfl
@[simp] theorem localEvent_heldHost : (localEvent s a b c k x y).heldHost = s.heldHost := rfl
@[simp] theorem localEvent_out : (localEvent s a b c k x y).out = s.out := rfl

end localEvent

section raiseFault

variable {s : State} {m : FaultMsg}

@[simp] theorem raiseFault_pending : (raiseFault s m).pending = s.pending := rfl
@[simp] theorem raiseFault_free : (raiseFault s m).free = s.free := rfl
@[simp] theorem raiseFault_dict : (raiseFault s m).dict = s.dict := rfl
@[simp] theorem raiseFault_mem : (raiseFault s m).mem = s.mem := rfl
@[simp] theorem raiseFault_ev : (raiseFault s m).ev = s.ev := rfl
@[simp] theorem raiseFault_knotq : (raiseFault s m).knotq = s.knotq := rfl
@[simp] theorem raiseFault_knots : (raiseFault s m).knots = s.knots := rfl
@[simp] theorem raiseFault_knotsLost : (raiseFault s m).knotsLost = s.knotsLost := rfl
@[simp] theorem raiseFault_engines : (raiseFault s m).engines = s.engines := rfl
@[simp] theorem raiseFault_ops : (raiseFault s m).ops = s.ops := rfl
@[simp] theorem raiseFault_nextOp : (raiseFault s m).nextOp = s.nextOp := rfl
@[simp] theorem raiseFault_jobs : (raiseFault s m).jobs = s.jobs := rfl
@[simp] theorem raiseFault_raq : (raiseFault s m).raq = s.raq := rfl
@[simp] theorem raiseFault_storm : (raiseFault s m).storm = s.storm := rfl
@[simp] theorem raiseFault_reports : (raiseFault s m).reports = s.reports := rfl
@[simp] theorem raiseFault_gens : (raiseFault s m).gens = s.gens := rfl
@[simp] theorem raiseFault_tlines : (raiseFault s m).tlines = s.tlines := rfl
@[simp] theorem raiseFault_tin : (raiseFault s m).tin = s.tin := rfl
@[simp] theorem raiseFault_tout : (raiseFault s m).tout = s.tout := rfl
@[simp] theorem raiseFault_swapJob : (raiseFault s m).swapJob = s.swapJob := rfl
@[simp] theorem raiseFault_swapped : (raiseFault s m).swapped = s.swapped := rfl
@[simp] theorem raiseFault_seqs : (raiseFault s m).seqs = s.seqs := rfl
@[simp] theorem raiseFault_saved : (raiseFault s m).saved = s.saved := rfl
@[simp] theorem raiseFault_q : (raiseFault s m).q = s.q := rfl
@[simp] theorem raiseFault_pw : (raiseFault s m).pw = s.pw := rfl
@[simp] theorem raiseFault_cord : (raiseFault s m).cord = s.cord := rfl
@[simp] theorem raiseFault_ck : (raiseFault s m).ck = s.ck := rfl
@[simp] theorem raiseFault_snap : (raiseFault s m).snap = s.snap := rfl
@[simp] theorem raiseFault_rst : (raiseFault s m).rst = s.rst := rfl
@[simp] theorem raiseFault_flash : (raiseFault s m).flash = s.flash := rfl
@[simp] theorem raiseFault_dsys : (raiseFault s m).dsys = s.dsys := rfl
@[simp] theorem raiseFault_sec : (raiseFault s m).sec = s.sec := rfl
@[simp] theorem raiseFault_d3 : (raiseFault s m).d3 = s.d3 := rfl
@[simp] theorem raiseFault_pcie : (raiseFault s m).pcie = s.pcie := rfl
@[simp] theorem raiseFault_heldHost : (raiseFault s m).heldHost = s.heldHost := rfl
@[simp] theorem raiseFault_out : (raiseFault s m).out = s.out := rfl

end raiseFault

section setEng

variable {s : State} {e : Nat} {g : Engine}

@[simp] theorem setEng_pending : (setEng s e g).pending = s.pending := rfl
@[simp] theorem setEng_free : (setEng s e g).free = s.free := rfl
@[simp] theorem setEng_dict : (setEng s e g).dict = s.dict := rfl
@[simp] theorem setEng_mem : (setEng s e g).mem = s.mem := rfl
@[simp] theorem setEng_ev : (setEng s e g).ev = s.ev := rfl
@[simp] theorem setEng_flt : (setEng s e g).flt = s.flt := rfl
@[simp] theorem setEng_knotq : (setEng s e g).knotq = s.knotq := rfl
@[simp] theorem setEng_knots : (setEng s e g).knots = s.knots := rfl
@[simp] theorem setEng_knotsLost : (setEng s e g).knotsLost = s.knotsLost := rfl
@[simp] theorem setEng_ops : (setEng s e g).ops = s.ops := rfl
@[simp] theorem setEng_nextOp : (setEng s e g).nextOp = s.nextOp := rfl
@[simp] theorem setEng_jobs : (setEng s e g).jobs = s.jobs := rfl
@[simp] theorem setEng_raq : (setEng s e g).raq = s.raq := rfl
@[simp] theorem setEng_storm : (setEng s e g).storm = s.storm := rfl
@[simp] theorem setEng_reports : (setEng s e g).reports = s.reports := rfl
@[simp] theorem setEng_gens : (setEng s e g).gens = s.gens := rfl
@[simp] theorem setEng_tlines : (setEng s e g).tlines = s.tlines := rfl
@[simp] theorem setEng_tin : (setEng s e g).tin = s.tin := rfl
@[simp] theorem setEng_tout : (setEng s e g).tout = s.tout := rfl
@[simp] theorem setEng_swapJob : (setEng s e g).swapJob = s.swapJob := rfl
@[simp] theorem setEng_swapped : (setEng s e g).swapped = s.swapped := rfl
@[simp] theorem setEng_seqs : (setEng s e g).seqs = s.seqs := rfl
@[simp] theorem setEng_saved : (setEng s e g).saved = s.saved := rfl
@[simp] theorem setEng_q : (setEng s e g).q = s.q := rfl
@[simp] theorem setEng_pw : (setEng s e g).pw = s.pw := rfl
@[simp] theorem setEng_cord : (setEng s e g).cord = s.cord := rfl
@[simp] theorem setEng_ck : (setEng s e g).ck = s.ck := rfl
@[simp] theorem setEng_snap : (setEng s e g).snap = s.snap := rfl
@[simp] theorem setEng_rst : (setEng s e g).rst = s.rst := rfl
@[simp] theorem setEng_flash : (setEng s e g).flash = s.flash := rfl
@[simp] theorem setEng_dsys : (setEng s e g).dsys = s.dsys := rfl
@[simp] theorem setEng_sec : (setEng s e g).sec = s.sec := rfl
@[simp] theorem setEng_d3 : (setEng s e g).d3 = s.d3 := rfl
@[simp] theorem setEng_pcie : (setEng s e g).pcie = s.pcie := rfl
@[simp] theorem setEng_heldHost : (setEng s e g).heldHost = s.heldHost := rfl
@[simp] theorem setEng_out : (setEng s e g).out = s.out := rfl

end setEng

section setOp

variable {s : State} {k : Nat} {o : Option OpRec}

@[simp] theorem setOp_pending : (setOp s k o).pending = s.pending := rfl
@[simp] theorem setOp_free : (setOp s k o).free = s.free := rfl
@[simp] theorem setOp_dict : (setOp s k o).dict = s.dict := rfl
@[simp] theorem setOp_mem : (setOp s k o).mem = s.mem := rfl
@[simp] theorem setOp_ev : (setOp s k o).ev = s.ev := rfl
@[simp] theorem setOp_flt : (setOp s k o).flt = s.flt := rfl
@[simp] theorem setOp_knotq : (setOp s k o).knotq = s.knotq := rfl
@[simp] theorem setOp_knots : (setOp s k o).knots = s.knots := rfl
@[simp] theorem setOp_knotsLost : (setOp s k o).knotsLost = s.knotsLost := rfl
@[simp] theorem setOp_engines : (setOp s k o).engines = s.engines := rfl
@[simp] theorem setOp_nextOp : (setOp s k o).nextOp = s.nextOp := rfl
@[simp] theorem setOp_jobs : (setOp s k o).jobs = s.jobs := rfl
@[simp] theorem setOp_raq : (setOp s k o).raq = s.raq := rfl
@[simp] theorem setOp_storm : (setOp s k o).storm = s.storm := rfl
@[simp] theorem setOp_reports : (setOp s k o).reports = s.reports := rfl
@[simp] theorem setOp_gens : (setOp s k o).gens = s.gens := rfl
@[simp] theorem setOp_tlines : (setOp s k o).tlines = s.tlines := rfl
@[simp] theorem setOp_tin : (setOp s k o).tin = s.tin := rfl
@[simp] theorem setOp_tout : (setOp s k o).tout = s.tout := rfl
@[simp] theorem setOp_swapJob : (setOp s k o).swapJob = s.swapJob := rfl
@[simp] theorem setOp_swapped : (setOp s k o).swapped = s.swapped := rfl
@[simp] theorem setOp_seqs : (setOp s k o).seqs = s.seqs := rfl
@[simp] theorem setOp_saved : (setOp s k o).saved = s.saved := rfl
@[simp] theorem setOp_q : (setOp s k o).q = s.q := rfl
@[simp] theorem setOp_pw : (setOp s k o).pw = s.pw := rfl
@[simp] theorem setOp_cord : (setOp s k o).cord = s.cord := rfl
@[simp] theorem setOp_ck : (setOp s k o).ck = s.ck := rfl
@[simp] theorem setOp_snap : (setOp s k o).snap = s.snap := rfl
@[simp] theorem setOp_rst : (setOp s k o).rst = s.rst := rfl
@[simp] theorem setOp_flash : (setOp s k o).flash = s.flash := rfl
@[simp] theorem setOp_dsys : (setOp s k o).dsys = s.dsys := rfl
@[simp] theorem setOp_sec : (setOp s k o).sec = s.sec := rfl
@[simp] theorem setOp_d3 : (setOp s k o).d3 = s.d3 := rfl
@[simp] theorem setOp_pcie : (setOp s k o).pcie = s.pcie := rfl
@[simp] theorem setOp_heldHost : (setOp s k o).heldHost = s.heldHost := rfl
@[simp] theorem setOp_out : (setOp s k o).out = s.out := rfl

end setOp

section setJob

variable {s : State} {k : Nat} {j : Job}

@[simp] theorem setJob_pending : (setJob s k j).pending = s.pending := rfl
@[simp] theorem setJob_free : (setJob s k j).free = s.free := rfl
@[simp] theorem setJob_dict : (setJob s k j).dict = s.dict := rfl
@[simp] theorem setJob_mem : (setJob s k j).mem = s.mem := rfl
@[simp] theorem setJob_ev : (setJob s k j).ev = s.ev := rfl
@[simp] theorem setJob_flt : (setJob s k j).flt = s.flt := rfl
@[simp] theorem setJob_knotq : (setJob s k j).knotq = s.knotq := rfl
@[simp] theorem setJob_knots : (setJob s k j).knots = s.knots := rfl
@[simp] theorem setJob_knotsLost : (setJob s k j).knotsLost = s.knotsLost := rfl
@[simp] theorem setJob_engines : (setJob s k j).engines = s.engines := rfl
@[simp] theorem setJob_ops : (setJob s k j).ops = s.ops := rfl
@[simp] theorem setJob_nextOp : (setJob s k j).nextOp = s.nextOp := rfl
@[simp] theorem setJob_raq : (setJob s k j).raq = s.raq := rfl
@[simp] theorem setJob_storm : (setJob s k j).storm = s.storm := rfl
@[simp] theorem setJob_reports : (setJob s k j).reports = s.reports := rfl
@[simp] theorem setJob_gens : (setJob s k j).gens = s.gens := rfl
@[simp] theorem setJob_tlines : (setJob s k j).tlines = s.tlines := rfl
@[simp] theorem setJob_tin : (setJob s k j).tin = s.tin := rfl
@[simp] theorem setJob_tout : (setJob s k j).tout = s.tout := rfl
@[simp] theorem setJob_swapJob : (setJob s k j).swapJob = s.swapJob := rfl
@[simp] theorem setJob_swapped : (setJob s k j).swapped = s.swapped := rfl
@[simp] theorem setJob_seqs : (setJob s k j).seqs = s.seqs := rfl
@[simp] theorem setJob_saved : (setJob s k j).saved = s.saved := rfl
@[simp] theorem setJob_q : (setJob s k j).q = s.q := rfl
@[simp] theorem setJob_pw : (setJob s k j).pw = s.pw := rfl
@[simp] theorem setJob_cord : (setJob s k j).cord = s.cord := rfl
@[simp] theorem setJob_ck : (setJob s k j).ck = s.ck := rfl
@[simp] theorem setJob_snap : (setJob s k j).snap = s.snap := rfl
@[simp] theorem setJob_rst : (setJob s k j).rst = s.rst := rfl
@[simp] theorem setJob_flash : (setJob s k j).flash = s.flash := rfl
@[simp] theorem setJob_dsys : (setJob s k j).dsys = s.dsys := rfl
@[simp] theorem setJob_sec : (setJob s k j).sec = s.sec := rfl
@[simp] theorem setJob_d3 : (setJob s k j).d3 = s.d3 := rfl
@[simp] theorem setJob_pcie : (setJob s k j).pcie = s.pcie := rfl
@[simp] theorem setJob_heldHost : (setJob s k j).heldHost = s.heldHost := rfl
@[simp] theorem setJob_out : (setJob s k j).out = s.out := rfl

end setJob

section setSeq

variable {s : State} {q : Nat} {x : Seqr}

@[simp] theorem setSeq_pending : (setSeq s q x).pending = s.pending := rfl
@[simp] theorem setSeq_free : (setSeq s q x).free = s.free := rfl
@[simp] theorem setSeq_dict : (setSeq s q x).dict = s.dict := rfl
@[simp] theorem setSeq_mem : (setSeq s q x).mem = s.mem := rfl
@[simp] theorem setSeq_ev : (setSeq s q x).ev = s.ev := rfl
@[simp] theorem setSeq_flt : (setSeq s q x).flt = s.flt := rfl
@[simp] theorem setSeq_knotq : (setSeq s q x).knotq = s.knotq := rfl
@[simp] theorem setSeq_knots : (setSeq s q x).knots = s.knots := rfl
@[simp] theorem setSeq_knotsLost : (setSeq s q x).knotsLost = s.knotsLost := rfl
@[simp] theorem setSeq_engines : (setSeq s q x).engines = s.engines := rfl
@[simp] theorem setSeq_ops : (setSeq s q x).ops = s.ops := rfl
@[simp] theorem setSeq_nextOp : (setSeq s q x).nextOp = s.nextOp := rfl
@[simp] theorem setSeq_jobs : (setSeq s q x).jobs = s.jobs := rfl
@[simp] theorem setSeq_raq : (setSeq s q x).raq = s.raq := rfl
@[simp] theorem setSeq_storm : (setSeq s q x).storm = s.storm := rfl
@[simp] theorem setSeq_reports : (setSeq s q x).reports = s.reports := rfl
@[simp] theorem setSeq_gens : (setSeq s q x).gens = s.gens := rfl
@[simp] theorem setSeq_tlines : (setSeq s q x).tlines = s.tlines := rfl
@[simp] theorem setSeq_tin : (setSeq s q x).tin = s.tin := rfl
@[simp] theorem setSeq_tout : (setSeq s q x).tout = s.tout := rfl
@[simp] theorem setSeq_swapJob : (setSeq s q x).swapJob = s.swapJob := rfl
@[simp] theorem setSeq_swapped : (setSeq s q x).swapped = s.swapped := rfl
@[simp] theorem setSeq_saved : (setSeq s q x).saved = s.saved := rfl
@[simp] theorem setSeq_q : (setSeq s q x).q = s.q := rfl
@[simp] theorem setSeq_pw : (setSeq s q x).pw = s.pw := rfl
@[simp] theorem setSeq_cord : (setSeq s q x).cord = s.cord := rfl
@[simp] theorem setSeq_ck : (setSeq s q x).ck = s.ck := rfl
@[simp] theorem setSeq_snap : (setSeq s q x).snap = s.snap := rfl
@[simp] theorem setSeq_rst : (setSeq s q x).rst = s.rst := rfl
@[simp] theorem setSeq_flash : (setSeq s q x).flash = s.flash := rfl
@[simp] theorem setSeq_dsys : (setSeq s q x).dsys = s.dsys := rfl
@[simp] theorem setSeq_sec : (setSeq s q x).sec = s.sec := rfl
@[simp] theorem setSeq_d3 : (setSeq s q x).d3 = s.d3 := rfl
@[simp] theorem setSeq_pcie : (setSeq s q x).pcie = s.pcie := rfl
@[simp] theorem setSeq_heldHost : (setSeq s q x).heldHost = s.heldHost := rfl
@[simp] theorem setSeq_out : (setSeq s q x).out = s.out := rfl

end setSeq

section setChan

variable {s : State} {k : Nat} {c : Chan}

@[simp] theorem setChan_pending : (setChan s k c).pending = s.pending := rfl
@[simp] theorem setChan_free : (setChan s k c).free = s.free := rfl
@[simp] theorem setChan_dict : (setChan s k c).dict = s.dict := rfl
@[simp] theorem setChan_mem : (setChan s k c).mem = s.mem := rfl
@[simp] theorem setChan_ev : (setChan s k c).ev = s.ev := rfl
@[simp] theorem setChan_flt : (setChan s k c).flt = s.flt := rfl
@[simp] theorem setChan_knotq : (setChan s k c).knotq = s.knotq := rfl
@[simp] theorem setChan_knots : (setChan s k c).knots = s.knots := rfl
@[simp] theorem setChan_knotsLost : (setChan s k c).knotsLost = s.knotsLost := rfl
@[simp] theorem setChan_engines : (setChan s k c).engines = s.engines := rfl
@[simp] theorem setChan_ops : (setChan s k c).ops = s.ops := rfl
@[simp] theorem setChan_nextOp : (setChan s k c).nextOp = s.nextOp := rfl
@[simp] theorem setChan_jobs : (setChan s k c).jobs = s.jobs := rfl
@[simp] theorem setChan_raq : (setChan s k c).raq = s.raq := rfl
@[simp] theorem setChan_storm : (setChan s k c).storm = s.storm := rfl
@[simp] theorem setChan_reports : (setChan s k c).reports = s.reports := rfl
@[simp] theorem setChan_gens : (setChan s k c).gens = s.gens := rfl
@[simp] theorem setChan_tlines : (setChan s k c).tlines = s.tlines := rfl
@[simp] theorem setChan_tin : (setChan s k c).tin = s.tin := rfl
@[simp] theorem setChan_tout : (setChan s k c).tout = s.tout := rfl
@[simp] theorem setChan_swapJob : (setChan s k c).swapJob = s.swapJob := rfl
@[simp] theorem setChan_swapped : (setChan s k c).swapped = s.swapped := rfl
@[simp] theorem setChan_seqs : (setChan s k c).seqs = s.seqs := rfl
@[simp] theorem setChan_saved : (setChan s k c).saved = s.saved := rfl
@[simp] theorem setChan_q : (setChan s k c).q = s.q := rfl
@[simp] theorem setChan_pw : (setChan s k c).pw = s.pw := rfl
@[simp] theorem setChan_ck : (setChan s k c).ck = s.ck := rfl
@[simp] theorem setChan_snap : (setChan s k c).snap = s.snap := rfl
@[simp] theorem setChan_rst : (setChan s k c).rst = s.rst := rfl
@[simp] theorem setChan_flash : (setChan s k c).flash = s.flash := rfl
@[simp] theorem setChan_dsys : (setChan s k c).dsys = s.dsys := rfl
@[simp] theorem setChan_sec : (setChan s k c).sec = s.sec := rfl
@[simp] theorem setChan_d3 : (setChan s k c).d3 = s.d3 := rfl
@[simp] theorem setChan_pcie : (setChan s k c).pcie = s.pcie := rfl
@[simp] theorem setChan_heldHost : (setChan s k c).heldHost = s.heldHost := rfl
@[simp] theorem setChan_out : (setChan s k c).out = s.out := rfl

end setChan

section wset

variable {s : State} {k x : Nat}

@[simp] theorem wset_pending : (wset s k x).pending = s.pending := rfl
@[simp] theorem wset_free : (wset s k x).free = s.free := rfl
@[simp] theorem wset_mem : (wset s k x).mem = s.mem := rfl
@[simp] theorem wset_ev : (wset s k x).ev = s.ev := rfl
@[simp] theorem wset_flt : (wset s k x).flt = s.flt := rfl
@[simp] theorem wset_knotq : (wset s k x).knotq = s.knotq := rfl
@[simp] theorem wset_knots : (wset s k x).knots = s.knots := rfl
@[simp] theorem wset_knotsLost : (wset s k x).knotsLost = s.knotsLost := rfl
@[simp] theorem wset_engines : (wset s k x).engines = s.engines := rfl
@[simp] theorem wset_ops : (wset s k x).ops = s.ops := rfl
@[simp] theorem wset_nextOp : (wset s k x).nextOp = s.nextOp := rfl
@[simp] theorem wset_jobs : (wset s k x).jobs = s.jobs := rfl
@[simp] theorem wset_raq : (wset s k x).raq = s.raq := rfl
@[simp] theorem wset_storm : (wset s k x).storm = s.storm := rfl
@[simp] theorem wset_reports : (wset s k x).reports = s.reports := rfl
@[simp] theorem wset_gens : (wset s k x).gens = s.gens := rfl
@[simp] theorem wset_tlines : (wset s k x).tlines = s.tlines := rfl
@[simp] theorem wset_tin : (wset s k x).tin = s.tin := rfl
@[simp] theorem wset_tout : (wset s k x).tout = s.tout := rfl
@[simp] theorem wset_swapJob : (wset s k x).swapJob = s.swapJob := rfl
@[simp] theorem wset_swapped : (wset s k x).swapped = s.swapped := rfl
@[simp] theorem wset_seqs : (wset s k x).seqs = s.seqs := rfl
@[simp] theorem wset_saved : (wset s k x).saved = s.saved := rfl
@[simp] theorem wset_q : (wset s k x).q = s.q := rfl
@[simp] theorem wset_pw : (wset s k x).pw = s.pw := rfl
@[simp] theorem wset_cord : (wset s k x).cord = s.cord := rfl
@[simp] theorem wset_ck : (wset s k x).ck = s.ck := rfl
@[simp] theorem wset_snap : (wset s k x).snap = s.snap := rfl
@[simp] theorem wset_rst : (wset s k x).rst = s.rst := rfl
@[simp] theorem wset_flash : (wset s k x).flash = s.flash := rfl
@[simp] theorem wset_sec : (wset s k x).sec = s.sec := rfl
@[simp] theorem wset_d3 : (wset s k x).d3 = s.d3 := rfl
@[simp] theorem wset_pcie : (wset s k x).pcie = s.pcie := rfl
@[simp] theorem wset_heldHost : (wset s k x).heldHost = s.heldHost := rfl
@[simp] theorem wset_out : (wset s k x).out = s.out := rfl

end wset

section setEnts

variable {s : State} {q : Nat} {l : List QEnt}

@[simp] theorem setEnts_pending : (setEnts s q l).pending = s.pending := rfl
@[simp] theorem setEnts_free : (setEnts s q l).free = s.free := rfl
@[simp] theorem setEnts_dict : (setEnts s q l).dict = s.dict := rfl
@[simp] theorem setEnts_mem : (setEnts s q l).mem = s.mem := rfl
@[simp] theorem setEnts_ev : (setEnts s q l).ev = s.ev := rfl
@[simp] theorem setEnts_flt : (setEnts s q l).flt = s.flt := rfl
@[simp] theorem setEnts_knotq : (setEnts s q l).knotq = s.knotq := rfl
@[simp] theorem setEnts_knots : (setEnts s q l).knots = s.knots := rfl
@[simp] theorem setEnts_knotsLost : (setEnts s q l).knotsLost = s.knotsLost := rfl
@[simp] theorem setEnts_engines : (setEnts s q l).engines = s.engines := rfl
@[simp] theorem setEnts_ops : (setEnts s q l).ops = s.ops := rfl
@[simp] theorem setEnts_nextOp : (setEnts s q l).nextOp = s.nextOp := rfl
@[simp] theorem setEnts_jobs : (setEnts s q l).jobs = s.jobs := rfl
@[simp] theorem setEnts_raq : (setEnts s q l).raq = s.raq := rfl
@[simp] theorem setEnts_storm : (setEnts s q l).storm = s.storm := rfl
@[simp] theorem setEnts_reports : (setEnts s q l).reports = s.reports := rfl
@[simp] theorem setEnts_gens : (setEnts s q l).gens = s.gens := rfl
@[simp] theorem setEnts_tlines : (setEnts s q l).tlines = s.tlines := rfl
@[simp] theorem setEnts_tin : (setEnts s q l).tin = s.tin := rfl
@[simp] theorem setEnts_tout : (setEnts s q l).tout = s.tout := rfl
@[simp] theorem setEnts_swapJob : (setEnts s q l).swapJob = s.swapJob := rfl
@[simp] theorem setEnts_swapped : (setEnts s q l).swapped = s.swapped := rfl
@[simp] theorem setEnts_seqs : (setEnts s q l).seqs = s.seqs := rfl
@[simp] theorem setEnts_saved : (setEnts s q l).saved = s.saved := rfl
@[simp] theorem setEnts_pw : (setEnts s q l).pw = s.pw := rfl
@[simp] theorem setEnts_cord : (setEnts s q l).cord = s.cord := rfl
@[simp] theorem setEnts_ck : (setEnts s q l).ck = s.ck := rfl
@[simp] theorem setEnts_snap : (setEnts s q l).snap = s.snap := rfl
@[simp] theorem setEnts_rst : (setEnts s q l).rst = s.rst := rfl
@[simp] theorem setEnts_flash : (setEnts s q l).flash = s.flash := rfl
@[simp] theorem setEnts_dsys : (setEnts s q l).dsys = s.dsys := rfl
@[simp] theorem setEnts_sec : (setEnts s q l).sec = s.sec := rfl
@[simp] theorem setEnts_d3 : (setEnts s q l).d3 = s.d3 := rfl
@[simp] theorem setEnts_pcie : (setEnts s q l).pcie = s.pcie := rfl
@[simp] theorem setEnts_heldHost : (setEnts s q l).heldHost = s.heldHost := rfl
@[simp] theorem setEnts_out : (setEnts s q l).out = s.out := rfl

end setEnts

section setRestore

variable {s : State} {r : Restore}

@[simp] theorem setRestore_pending : (setRestore s r).pending = s.pending := rfl
@[simp] theorem setRestore_free : (setRestore s r).free = s.free := rfl
@[simp] theorem setRestore_dict : (setRestore s r).dict = s.dict := rfl
@[simp] theorem setRestore_mem : (setRestore s r).mem = s.mem := rfl
@[simp] theorem setRestore_ev : (setRestore s r).ev = s.ev := rfl
@[simp] theorem setRestore_flt : (setRestore s r).flt = s.flt := rfl
@[simp] theorem setRestore_knotq : (setRestore s r).knotq = s.knotq := rfl
@[simp] theorem setRestore_knots : (setRestore s r).knots = s.knots := rfl
@[simp] theorem setRestore_knotsLost : (setRestore s r).knotsLost = s.knotsLost := rfl
@[simp] theorem setRestore_engines : (setRestore s r).engines = s.engines := rfl
@[simp] theorem setRestore_ops : (setRestore s r).ops = s.ops := rfl
@[simp] theorem setRestore_nextOp : (setRestore s r).nextOp = s.nextOp := rfl
@[simp] theorem setRestore_jobs : (setRestore s r).jobs = s.jobs := rfl
@[simp] theorem setRestore_raq : (setRestore s r).raq = s.raq := rfl
@[simp] theorem setRestore_storm : (setRestore s r).storm = s.storm := rfl
@[simp] theorem setRestore_reports : (setRestore s r).reports = s.reports := rfl
@[simp] theorem setRestore_gens : (setRestore s r).gens = s.gens := rfl
@[simp] theorem setRestore_tlines : (setRestore s r).tlines = s.tlines := rfl
@[simp] theorem setRestore_tin : (setRestore s r).tin = s.tin := rfl
@[simp] theorem setRestore_tout : (setRestore s r).tout = s.tout := rfl
@[simp] theorem setRestore_swapJob : (setRestore s r).swapJob = s.swapJob := rfl
@[simp] theorem setRestore_swapped : (setRestore s r).swapped = s.swapped := rfl
@[simp] theorem setRestore_seqs : (setRestore s r).seqs = s.seqs := rfl
@[simp] theorem setRestore_saved : (setRestore s r).saved = s.saved := rfl
@[simp] theorem setRestore_q : (setRestore s r).q = s.q := rfl
@[simp] theorem setRestore_pw : (setRestore s r).pw = s.pw := rfl
@[simp] theorem setRestore_cord : (setRestore s r).cord = s.cord := rfl
@[simp] theorem setRestore_snap : (setRestore s r).snap = s.snap := rfl
@[simp] theorem setRestore_rst : (setRestore s r).rst = s.rst := rfl
@[simp] theorem setRestore_flash : (setRestore s r).flash = s.flash := rfl
@[simp] theorem setRestore_dsys : (setRestore s r).dsys = s.dsys := rfl
@[simp] theorem setRestore_sec : (setRestore s r).sec = s.sec := rfl
@[simp] theorem setRestore_d3 : (setRestore s r).d3 = s.d3 := rfl
@[simp] theorem setRestore_pcie : (setRestore s r).pcie = s.pcie := rfl
@[simp] theorem setRestore_heldHost : (setRestore s r).heldHost = s.heldHost := rfl
@[simp] theorem setRestore_out : (setRestore s r).out = s.out := rfl

end setRestore

section setQuench

variable {s : State} {i : Nat} {q : Quench}

@[simp] theorem setQuench_pending : (setQuench s i q).pending = s.pending := rfl
@[simp] theorem setQuench_free : (setQuench s i q).free = s.free := rfl
@[simp] theorem setQuench_dict : (setQuench s i q).dict = s.dict := rfl
@[simp] theorem setQuench_mem : (setQuench s i q).mem = s.mem := rfl
@[simp] theorem setQuench_ev : (setQuench s i q).ev = s.ev := rfl
@[simp] theorem setQuench_flt : (setQuench s i q).flt = s.flt := rfl
@[simp] theorem setQuench_knotq : (setQuench s i q).knotq = s.knotq := rfl
@[simp] theorem setQuench_knots : (setQuench s i q).knots = s.knots := rfl
@[simp] theorem setQuench_knotsLost : (setQuench s i q).knotsLost = s.knotsLost := rfl
@[simp] theorem setQuench_engines : (setQuench s i q).engines = s.engines := rfl
@[simp] theorem setQuench_ops : (setQuench s i q).ops = s.ops := rfl
@[simp] theorem setQuench_nextOp : (setQuench s i q).nextOp = s.nextOp := rfl
@[simp] theorem setQuench_jobs : (setQuench s i q).jobs = s.jobs := rfl
@[simp] theorem setQuench_raq : (setQuench s i q).raq = s.raq := rfl
@[simp] theorem setQuench_storm : (setQuench s i q).storm = s.storm := rfl
@[simp] theorem setQuench_reports : (setQuench s i q).reports = s.reports := rfl
@[simp] theorem setQuench_gens : (setQuench s i q).gens = s.gens := rfl
@[simp] theorem setQuench_tlines : (setQuench s i q).tlines = s.tlines := rfl
@[simp] theorem setQuench_tin : (setQuench s i q).tin = s.tin := rfl
@[simp] theorem setQuench_tout : (setQuench s i q).tout = s.tout := rfl
@[simp] theorem setQuench_swapJob : (setQuench s i q).swapJob = s.swapJob := rfl
@[simp] theorem setQuench_swapped : (setQuench s i q).swapped = s.swapped := rfl
@[simp] theorem setQuench_seqs : (setQuench s i q).seqs = s.seqs := rfl
@[simp] theorem setQuench_saved : (setQuench s i q).saved = s.saved := rfl
@[simp] theorem setQuench_q : (setQuench s i q).q = s.q := rfl
@[simp] theorem setQuench_pw : (setQuench s i q).pw = s.pw := rfl
@[simp] theorem setQuench_cord : (setQuench s i q).cord = s.cord := rfl
@[simp] theorem setQuench_ck : (setQuench s i q).ck = s.ck := rfl
@[simp] theorem setQuench_snap : (setQuench s i q).snap = s.snap := rfl
@[simp] theorem setQuench_flash : (setQuench s i q).flash = s.flash := rfl
@[simp] theorem setQuench_dsys : (setQuench s i q).dsys = s.dsys := rfl
@[simp] theorem setQuench_sec : (setQuench s i q).sec = s.sec := rfl
@[simp] theorem setQuench_d3 : (setQuench s i q).d3 = s.d3 := rfl
@[simp] theorem setQuench_pcie : (setQuench s i q).pcie = s.pcie := rfl
@[simp] theorem setQuench_heldHost : (setQuench s i q).heldHost = s.heldHost := rfl
@[simp] theorem setQuench_out : (setQuench s i q).out = s.out := rfl

end setQuench

/-! ### Reading after writing -/

/-- A read after a write of a value that is not the default, in any table. -/
theorem tget_tset_new {α : Type} [DecidableEq α] {d v : α} {t : Tab α} {k j : Nat} (hv : v ≠ d) :
    tget d (tset d t k v) j = if j = k then v else tget d t j := by
  have hv' : decide (v = d) = false := by simp [hv]
  unfold tset
  rw [hv']
  induction t with
  | nil =>
    by_cases hj : j = k
    · simp [tput, tget, hj]
    · simp [tput, tget, hj, Ne.symm hj]
  | cons p r ih =>
    obtain ⟨i, w⟩ := p
    by_cases hi : i = k
    · subst hi
      by_cases hj : j = i
      · simp [tput, tget, hj]
      · simp [tput, tget, hj, Ne.symm hj]
    · by_cases hlt : k < i
      · by_cases hj : j = k
        · simp [tput, tget, hi, hlt, hj]
        · by_cases hjk : j < k
          · have a1 : i ≠ j := by omega
            have a2 : j < i := by omega
            simp [tput, tget, hi, hlt, hj, Ne.symm hj, hjk, a1, a2]
          · simp [tput, tget, hi, hlt, hj, Ne.symm hj, hjk]
      · by_cases hj : j = k
        · subst hj
          simp [tput, tget, hi, hlt, ih]
        · simp only [tput, tget, hi, hlt, if_false]
          rw [ih]
          simp [hj]

theorem tget_tset_ne {α : Type} [DecidableEq α] {d v : α} {t : Tab α} {k j : Nat} (h : twf d t = true) (hj : j ≠ k) :
    tget d (tset d t k v) j = tget d t j := by rw [tget_tset d v t k j h]; simp [hj]

theorem dictWfFrom_mono (d : Tab Nat) (lo lo' : Nat) (h : dictWfFrom lo d = true) (hl : lo' ≤ lo) :
    dictWfFrom lo' d = true := by
  cases d with
  | nil => rfl
  | cons p r =>
    simp only [dictWfFrom, Bool.and_eq_true, decide_eq_true_eq] at h ⊢
    exact ⟨⟨by omega, h.1.2⟩, h.2⟩

theorem dictWfFrom_filter (p : Nat × Nat → Bool) (d : Tab Nat) (lo : Nat) (h : dictWfFrom lo d = true) :
    dictWfFrom lo (d.filter p) = true := by
  induction d generalizing lo with
  | nil => rfl
  | cons q r ih =>
    obtain ⟨j, x⟩ := q
    simp only [dictWfFrom, Bool.and_eq_true, decide_eq_true_eq] at h
    obtain ⟨⟨h1, h2⟩, h3⟩ := h
    by_cases hp : p (j, x)
    · simp [hp, dictWfFrom, h1, h2, ih (j + 1) h3]
    · simpa [hp] using dictWfFrom_mono _ (j + 1) lo (ih (j + 1) h3) (by omega)

theorem dictWfFrom_tput (d : Tab Nat) (lo k x : Nat) (h : dictWfFrom lo d = true) (hk : lo ≤ k) :
    dictWfFrom lo (tput (decide (x = dictDefault k)) d k x) = true := by
  induction d generalizing lo with
  | nil => by_cases hv : x = dictDefault k <;> simp [tput, dictWfFrom, hv, hk]
  | cons p r ih =>
    obtain ⟨j, w⟩ := p
    simp only [dictWfFrom, Bool.and_eq_true, decide_eq_true_eq] at h
    obtain ⟨⟨h1, h2⟩, h3⟩ := h
    by_cases hj : j = k
    · subst hj
      by_cases hv : x = dictDefault j
      · simpa [tput, hv] using dictWfFrom_mono r (j + 1) lo h3 (by omega)
      · simp [tput, hv, dictWfFrom, h1, h3]
    · by_cases hlt : k < j
      · by_cases hv : x = dictDefault k
        · simp [tput, hj, hlt, hv, dictWfFrom, h1, h2, h3]
        · simp [tput, hj, hlt, hv, dictWfFrom, hk, h2, h3, show k + 1 ≤ j from hlt]
      · have := ih (j + 1) h3 (by omega)
        simp [tput, hj, hlt, dictWfFrom, h1, h2, this]

theorem dset_dictOk {s : State} {k v : Nat} (h : s.dictOk) : (dset s k v).dictOk :=
  dictWfFrom_tput s.dict 0 k v h (Nat.zero_le k)

theorem dictWfFrom_lt (t : Tab Nat) (lo k d : Nat) (h : dictWfFrom lo t = true) (hk : k < lo) : tget d t k = d := by
  cases t with
  | nil => rfl
  | cons p r =>
    obtain ⟨j, v⟩ := p
    simp only [dictWfFrom, Bool.and_eq_true, decide_eq_true_eq] at h
    have h1 : j ≠ k := by omega
    have h2 : k < j := by omega
    simp [tget, h1, h2]

theorem tget_tput_dict (t : Tab Nat) (lo k j v d : Nat) (h : dictWfFrom lo t = true) (hd : j = k → d = dictDefault k) :
    tget d (tput (decide (v = dictDefault k)) t k v) j = if j = k then v else tget d t j := by
  induction t generalizing lo with
  | nil =>
    by_cases hv : v = dictDefault k <;> by_cases hj : j = k
    · simp [tput, tget, hv, hj, hd hj]
    · simp [tput, tget, hv, hj]
    · simp [tput, tget, hv, hj]
    · simp [tput, tget, hv, hj, Ne.symm hj]
  | cons p r ih =>
    obtain ⟨i, w⟩ := p
    simp only [dictWfFrom, Bool.and_eq_true, decide_eq_true_eq] at h
    obtain ⟨⟨h1, h2⟩, h3⟩ := h
    have hr : ∀ x, x < i + 1 → tget d r x = d := fun x hx => dictWfFrom_lt r (i + 1) x d h3 hx
    by_cases hi : i = k
    · subst hi
      by_cases hv : v = dictDefault i
      · by_cases hj : j = i
        · subst hj
          have e := hr j (by omega)
          rw [hd rfl] at e
          simp [tput, hv, hd rfl, e]
        · by_cases hlt : j < i
          · simp [tput, hv, tget, hj, Ne.symm hj, hlt, hr j (by omega)]
          · simp [tput, hv, tget, hj, Ne.symm hj, hlt]
      · by_cases hj : j = i
        · simp [tput, hv, tget, hj]
        · simp [tput, hv, tget, hj, Ne.symm hj]
    · by_cases hlt : k < i
      · by_cases hv : v = dictDefault k
        · by_cases hj : j = k
          · subst hj; simp [tput, hi, hlt, hv, tget, hd rfl]
          · simp [tput, hi, hlt, hv, hj]
        · by_cases hj : j = k
          · subst hj; simp [tput, hi, hlt, hv, tget]
          · by_cases hjk : j < k
            · have a1 : i ≠ j := by omega
              have a2 : j < i := by omega
              simp [tput, hi, hlt, hv, tget, hj, Ne.symm hj, hjk, a1, a2]
            · simp [tput, hi, hlt, hv, tget, hj, Ne.symm hj, hjk]
      · have := ih (i + 1) h3
        by_cases hj : j = k
        · subst hj
          have a1 : i ≠ j := hi
          simp [tput, hi, hlt, tget, this]
        · simp only [tput, hi, hlt, if_false, tget]
          rw [this]; simp [hj]

/-- An entry reads what was written, and every other entry as before. -/
theorem dget_dset {s : State} {k j v : Nat} (h : s.dictOk) : dget (dset s k v) j = if j = k then v else dget s j := by
  unfold dget dset tset
  exact tget_tput_dict s.dict 0 k j v _ h (fun e => by rw [e])

theorem dget_dset_same {s : State} {k v : Nat} (h : s.dictOk) : dget (dset s k v) k = v := by simp [dget_dset h]

theorem dget_dset_ne {s : State} {k j v : Nat} (h : s.dictOk) (hj : j ≠ k) : dget (dset s k v) j = dget s j := by
  simp [dget_dset h, hj]

theorem getEng_setEng {s : State} {e j : Nat} {g : Engine} (hg : g ≠ {}) :
    getEng (setEng s e g) j = if j = e then g else getEng s j := tget_tset_new hg

theorem getOp_setOp {s : State} {k j : Nat} {o : OpRec} :
    getOp (setOp s k (some o)) j = if j = k then some o else getOp s j := tget_tset_new (by simp)

end Sys2Proof.Machine
end

