-- ==== Sys2Proof/Laws/Keep.lean ====
section
/-!
SUPPORT. What every operation of the block keeps: the queue of pending commands, the canonical form of memory, and the
counts of the identity block, which never go back. `Kept v s` says it of a state against a view `v` taken before; a
lemma `f_kept` says that the shared operation `f` keeps it.
-/

namespace Sys2Proof.Machine

/-- What is taken of a state before an operation. -/
structure View where
  queue : List Instr
  memOk : Prop
  dictOk : Prop
  wearOk : Prop
  commits : Nat
  opens : Nat

/-- The view of a state. -/
def State.view (s : State) : View :=
  { queue := s.pending, memOk := s.memOk, dictOk := s.dictOk, wearOk := s.wearOk
    commits := s.flash.commits, opens := s.flash.openCount }

/-- The parts of `Kept`, apart from a state. -/
def KeptC (v : View) (q : List Instr) (d : Tab Nat) (cells : List Host.Cell) (c o : Nat) : Prop :=
  q = v.queue ∧ (v.dictOk → dictWfFrom 0 d = true) ∧ (v.memOk → Memory.wf cells = true)
    ∧ (v.wearOk → v.commits ≤ c ∧ c < 2 ^ 32) ∧ (v.wearOk → v.opens ≤ o ∧ o < 2 ^ 16)

/-- The queue is that of the view; memory and the dictionary are in their canonical forms if they were; and the counts are
no lower and within their widths, if they were within them. -/
def Kept (v : View) (s : State) : Prop := KeptC v s.pending s.dict s.mem.cells s.flash.commits s.flash.openCount

/-- Of an outcome that may be none. -/
def KeptO (v : View) (o : Option State) : Prop := ∀ t, o = some t → Kept v t
/-- Of an outcome with a number that may be none. -/
def KeptON (v : View) (o : Option (State × Nat)) : Prop := ∀ t, o = some t → Kept v t.1

variable {v : View}

theorem Kept.c {s : State} (h : Kept v s) : KeptC v s.pending s.dict s.mem.cells s.flash.commits s.flash.openCount := h

theorem Kept.view (s : State) : Kept s.view s :=
  ⟨rfl, id, id, fun h => ⟨Nat.le_refl _, h.1⟩, fun h => ⟨Nat.le_refl _, h.2⟩⟩

theorem Kept.snd {α : Type} {r : α × State} {x : α} {t : State} (e : r = (x, t)) (h : Kept v r.2) : Kept v t := by
  subst e; exact h

theorem Kept.fst {α : Type} {r : State × α} {x : α} {t : State} (e : r = (t, x)) (h : Kept v r.1) : Kept v t := by
  subst e; exact h

theorem Kept.trd {α β : Type} {r : α × β × State} {x : α} {y : β} {t : State} (e : r = (x, y, t)) (h : Kept v r.2.2) :
    Kept v t := by
  subst e; exact h

theorem KeptO.use {o : Option State} {t : State} (e : o = some t) (h : KeptO v o) : Kept v t := h t e

theorem KeptON.use {o : Option (State × Nat)} {t : State} {n : Nat} (e : o = some (t, n)) (h : KeptON v o) : Kept v t :=
  h (t, n) e

theorem KeptON.use' {o : Option (State × Nat)} {t : State × Nat} (e : o = some t) (h : KeptON v o) : Kept v t.1 :=
  h t e

theorem KeptO.none : KeptO v none := fun _ e => nomatch e
theorem KeptO.some {t : State} (h : Kept v t) : KeptO v (some t) := fun _ e => by cases e; exact h
theorem KeptO.getD {o : Option State} {s : State} (h : KeptO v o) (h' : Kept v s) : Kept v (o.getD s) := by
  cases o with
  | none => exact h'
  | some t => exact h t rfl

theorem KeptON.none : KeptON v none := fun _ e => nomatch e
theorem KeptON.some {t : State × Nat} (h : Kept v t.1) : KeptON v (some t) := fun _ e => by cases e; exact h

theorem KeptON.ite {c : Prop} [Decidable c] {a b : Option (State × Nat)} (ha : KeptON v a) (hb : KeptON v b) :
    KeptON v (if c then a else b) := by split <;> assumption

theorem Kept.foldl {α : Type} {f : State → α → State} {l : List α} {s : State} (hf : ∀ t x, Kept v t → Kept v (f t x))
    (h : Kept v s) : Kept v (l.foldl f s) := by
  induction l generalizing s with
  | nil => exact h
  | cons x r ih => exact ih (hf s x h)

theorem Kept.foldlFst {α β : Type} {f : State × β → α → State × β} {l : List α} {s : State × β}
    (hf : ∀ t x, Kept v t.1 → Kept v (f t x).1) (h : Kept v s.1) : Kept v (l.foldl f s).1 := by
  induction l generalizing s with
  | nil => exact h
  | cons x r ih => exact ih (hf s x h)

theorem Kept.foldlSnd {α β : Type} {f : β × State → α → β × State} {l : List α} {s : β × State}
    (hf : ∀ t x, Kept v t.2 → Kept v (f t x).2) (h : Kept v s.2) : Kept v (l.foldl f s).2 := by
  induction l generalizing s with
  | nil => exact h
  | cons x r ih => exact ih (hf s x h)

/-- As `Kept.foldlSnd`, the step's outcome under a name of its own. -/
theorem Kept.foldlSndEq {α β : Type} {f : β × State → α → β × State} {l : List α} {s : β × State}
    (hf : ∀ t x r, f t x = r → Kept v t.2 → Kept v r.2) (h : Kept v s.2) : Kept v (l.foldl f s).2 :=
  Kept.foldlSnd (fun t x => hf t x _ rfl) h

theorem KeptC.mix {s t : State} (h : Kept v s) (h' : Kept v t) :
    KeptC v t.pending t.dict s.mem.cells t.flash.commits t.flash.openCount := ⟨h'.1, h'.2.1, h.2.2.1, h'.2.2.2⟩

theorem KeptC.commit {q : List Instr} {d : Tab Nat} {l : List Host.Cell} {c o : Nat} (h : KeptC v q d l c o) :
    KeptC v q d l (satAdd (2 ^ 32 - 1) c 1) o := by
  refine ⟨h.1, h.2.1, h.2.2.1, fun hw => ?_, h.2.2.2.2⟩
  have := h.2.2.2.1 hw
  simp only [satAdd]
  omega

theorem KeptC.opened {q : List Instr} {d : Tab Nat} {l : List Host.Cell} {c o : Nat} (h : KeptC v q d l c o) :
    KeptC v q d l c (min 0xFFFF (o + 1)) := by
  refine ⟨h.1, h.2.1, h.2.2.1, h.2.2.2.1, fun hw => ?_⟩
  have := h.2.2.2.2 hw
  omega

theorem KeptC.evict {q : List Instr} {d : Tab Nat} {m : MemSys} {a c o : Nat} (h : KeptC v q d m.cells c o) :
    KeptC v q d (evictLine m a).cells c o := ⟨h.1, h.2.1, fun hw => evictLine_wf m a (h.2.2.1 hw), h.2.2.2⟩

theorem KeptC.writeBack {q : List Instr} {d : Tab Nat} {m : MemSys} {w : Nat → Bool} {c o : Nat} (h : KeptC v q d m.cells c o) :
    KeptC v q d (writeBackAll m w).cells c o := ⟨h.1, h.2.1, fun hw => writeBackAll_wf m w (h.2.2.1 hw), h.2.2.2⟩

theorem KeptC.write {q : List Instr} {d : Tab Nat} {l : List Host.Cell} {a c o : Nat} {b : List Byte} (h : KeptC v q d l c o) :
    KeptC v q d (cellWrite l a b) c o := ⟨h.1, h.2.1, fun hw => cellWrite_wf b l a (h.2.2.1 hw), h.2.2.2⟩

theorem KeptC.filter {q : List Instr} {d : Tab Nat} {l : List Host.Cell} {p : Host.Cell → Bool} {c o : Nat} (h : KeptC v q d l c o) :
    KeptC v q d (l.filter p) c o := ⟨h.1, h.2.1, fun hw => filter_cells_wf p l (h.2.2.1 hw), h.2.2.2⟩

theorem KeptC.empty {q : List Instr} {d : Tab Nat} {l : List Host.Cell} {c o : Nat} (h : KeptC v q d l c o) :
    KeptC v q d [] c o := ⟨h.1, h.2.1, fun _ => rfl, h.2.2.2⟩

theorem KeptC.dset {q : List Instr} {d : Tab Nat} {l : List Host.Cell} {c o k x : Nat} (h : KeptC v q d l c o) :
    KeptC v q (tset (dictDefault k) d k x) l c o := 
  ⟨h.1, fun hw => dictWfFrom_tput d 0 k x (h.2.1 hw) (Nat.zero_le k), h.2.2⟩

theorem KeptC.dfilter {q : List Instr} {d : Tab Nat} {l : List Host.Cell} {c o : Nat} {p : Nat × Nat → Bool}
    (h : KeptC v q d l c o) : KeptC v q (d.filter p) l c o := 
  ⟨h.1, fun hw => dictWfFrom_filter p d 0 (h.2.1 hw), h.2.2⟩

theorem KeptC.dnone {q : List Instr} {d : Tab Nat} {l : List Host.Cell} {c o : Nat} (h : KeptC v q d l c o) :
    KeptC v q [] l c o := ⟨h.1, fun _ => rfl, h.2.2⟩

/-- A record of a state keeps what its four fields keep. -/
theorem Kept.mk_iff x_pending x_free (x_dict) (x_mem : MemSys) (x_ev) (x_flt) (x_knotq) (x_knots) (x_knotsLost)
    (x_engines) (x_ops) (x_nextOp) (x_jobs) (x_raq) (x_storm) (x_reports) (x_gens) (x_tlines) (x_tin) (x_tout)
    (x_swapJob) (x_swapped) (x_seqs) (x_saved) (x_q) (x_pcie) (x_pw) (x_cord) (x_ck) (x_snap) (x_rst) (x_flash : FlashSys)
    (x_dsys) (x_sec) (x_d3) (x_heldHost) (x_out) :
        Kept v (State.mk x_pending x_free x_dict x_mem x_ev x_flt x_knotq x_knots x_knotsLost x_engines x_ops
    x_nextOp x_jobs x_raq x_storm x_reports x_gens x_tlines x_tin x_tout x_swapJob x_swapped x_seqs x_saved x_q x_pcie x_pw
    x_cord x_ck x_snap x_rst x_flash x_dsys x_sec x_d3 x_heldHost x_out) = KeptC v x_pending x_dict x_mem.cells
    x_flash.commits x_flash.openCount := Eq.trans rfl rfl

end Sys2Proof.Machine
end

