-- ==== Sys2Proof/Laws/KeepOps.lean ====
section
/-!
SUPPORT. What the operations of Machine/Ops.lean keep (Laws/Keep.lean).
-/

namespace Sys2Proof.Machine

set_option linter.unusedSimpArgs false

variable {v : View}

theorem dset_kept {s : State} {key : Nat} {a2 : Nat} (h : Kept v s) :
    Kept v (dset s key a2) := by
  unfold dset
  repeat' first
    | (with_reducible first | assumption | intro _ | apply Kept.c | apply KeptC.dset)
    | (simp only [Kept.mk_iff])
    | split

theorem dcount_kept {s : State} {key : Nat} {n : Nat} (h : Kept v s) :
    Kept v (dcount s key n) := by
  unfold dcount
  repeat' first
    | (with_reducible first | assumption | intro _ | apply dset_kept | apply Kept.c)
    | (simp only [Kept.mk_iff])
    | split

theorem drawFree_kept {s : State} (h : Kept v s) :
    Kept v (drawFree s).2 := by
  unfold drawFree
  repeat' first
    | (with_reducible first | assumption | intro _ | apply Kept.c)
    | (simp only [Kept.mk_iff])
    | split

theorem toHost_kept {s : State} {m : OutMsg} (h : Kept v s) :
    Kept v (toHost s m) := by
  unfold toHost
  repeat' first
    | (with_reducible first | assumption | intro _ | apply Kept.c)
    | (simp only [Kept.mk_iff])
    | split

theorem sendAer_kept {s : State} {e : Aer} (h : Kept v s) :
    Kept v (sendAer s e) := by
  unfold sendAer
  repeat' first
    | (with_reducible first | assumption | intro _ | apply toHost_kept | apply Kept.c)
    | (simp only [Kept.mk_iff])
    | split

theorem sendOut_kept {s : State} {m : OutMsg} (h : Kept v s) :
    Kept v (sendOut s m) := by
  unfold sendOut
  repeat' first
    | (with_reducible first | assumption | intro _ | apply Kept.c)
    | (simp only [Kept.mk_iff])
    | split

theorem hubEvent_kept {s : State} {source : Nat} {code : Nat} {data : Nat} {kind : Nat} (h : Kept v s) :
    Kept v (hubEvent s source code data kind) := by
  unfold hubEvent
  repeat' first
    | (with_reducible first | assumption | intro _ | apply Kept.c)
    | (simp only [Kept.mk_iff])
    | split

theorem localEvent_kept {s : State} {ctl : Nat} {bit : Nat} {source : Nat} {kind : Nat} {code : Nat} {data : Nat} (h : Kept v s) :
    Kept v (localEvent s ctl bit source kind code data) := by
  unfold localEvent
  repeat' first
    | (with_reducible first | assumption | intro _ | apply Kept.c)
    | (simp only [Kept.mk_iff])
    | split

theorem hubNotice_kept {s : State} {source : Nat} {what : List Nat} (h : Kept v s) :
    Kept v (hubNotice s source what) := by
  unfold hubNotice
  repeat' first
    | (with_reducible first | assumption | intro _ | apply hubEvent_kept | apply Kept.c)
    | (simp only [Kept.mk_iff])
    | split

theorem writeRejected_kept {s : State} {key : Nat} {status : Nat} (h : Kept v s) :
    Kept v (writeRejected s key status) := by
  unfold writeRejected
  repeat' first
    | (with_reducible first | assumption | intro _ | apply hubEvent_kept | apply Kept.c)
    | (simp only [Kept.mk_iff])
    | split

theorem emberCredit_kept {s : State} {src : Nat} (h : Kept v s) :
    Kept v (emberCredit s src) := by
  unfold emberCredit
  repeat' first
    | (with_reducible first | assumption | intro _ | apply Kept.c)
    | (simp only [Kept.mk_iff])
    | split

theorem sendEmber_kept {s : State} {src : Nat} {dst : Nat} {w : EmberWhat} (h : Kept v s) :
    Kept v (sendEmber s src dst w) := by
  unfold sendEmber
  repeat' first
    | (with_reducible first | assumption | intro _ | apply Kept.c)
    | (simp only [Kept.mk_iff])
    | split

theorem takeEmber_kept {s : State} {m : EmberMsg} (h : Kept v s) :
    Kept v (takeEmber s m) := by
  unfold takeEmber
  repeat' first
    | (with_reducible first | assumption | intro _ | apply emberCredit_kept | apply Kept.c)
    | (simp only [Kept.mk_iff])
    | split

theorem emberPass_kept {s : State} {src : Nat} {dst : Nat} (h : Kept v s) :
    KeptO v (emberPass s src dst) := by
  unfold emberPass
  repeat' first
    | (with_reducible first | assumption | intro _ | exact KeptO.none | apply KeptO.some)
    | (with_reducible first | apply emberCredit_kept | apply Kept.c)
    | (simp only [Kept.mk_iff])
    | split

theorem raiseFault_kept {s : State} {m : FaultMsg} (h : Kept v s) :
    Kept v (raiseFault s m) := by
  unfold raiseFault
  repeat' first
    | (with_reducible first | assumption | intro _ | apply Kept.c)
    | (simp only [Kept.mk_iff])
    | split

theorem takeArmed_kept {s : State} {utype : Nat} {unit : Nat} {mechs : List Mech} (h : Kept v s) :
    Kept v (takeArmed s utype unit mechs).2 := by
  unfold takeArmed
  repeat' first
    | (with_reducible first | assumption | intro _ | apply Kept.c)
    | (simp only [Kept.mk_iff])
    | split

theorem takeHit_kept {s : State} {utype : Nat} {unit : Nat} {mechs : List Mech} {hit : Option Mech} {loc : Nat × Nat}
    (h : Kept v s) : Kept v (takeHit s utype unit mechs hit loc).2 := by
  unfold takeHit safeFault
  repeat' first
    | (with_reducible first | assumption | apply takeArmed_kept | apply raiseFault_kept | intro _)
    | (simp only [Kept.mk_iff])
    | split

theorem sendKnot_kept {s : State} {m : KnotMsg} (h : Kept v s) :
    Kept v (sendKnot s m) := by
  unfold sendKnot
  repeat' first
    | (with_reducible first | assumption | intro _ | apply Kept.c)
    | (simp only [Kept.mk_iff])
    | split

theorem knotUpdate_kept {s : State} {src : Nat} {die : Nat} {knot : Nat} {bcast : Bool} {isSet : Bool} {val : Nat} {ent : Option Nat} {owner : Option (Nat × Nat)} (h : Kept v s) :
    Kept v (knotUpdate s src die knot bcast isSet val ent owner) := by
  unfold knotUpdate
  repeat' first
    | (with_reducible first | assumption | intro _ | apply sendKnot_kept | apply Kept.c)
    | (simp only [Kept.mk_iff])
    | split

end Sys2Proof.Machine
end

