-- ==== Sys2Proof/Laws/KeepMemory.lean ====
section
/-!
SUPPORT. What the operations of Machine/Memory.lean keep (Laws/Keep.lean).
-/

namespace Sys2Proof.Machine

set_option linter.unusedSimpArgs false

variable {v : View}

theorem allocLine_kept {s : State} {atom : Nat} {l : CLine} (h : Kept v s) :
    Kept v (allocLine s atom l) := by
  unfold allocLine
  repeat' first
    | (with_reducible first | assumption | intro _ | apply drawFree_kept | apply Kept.c | apply KeptC.evict)
    | (with_reducible refine Kept.snd (by assumption) ?_)
    | (simp only [Kept.mk_iff, putLine_cells])
    | split

theorem atomFill_kept {s : State} {cached : Bool} {l : Loc} (h : Kept v s) :
    Kept v (atomFill s cached l).2 := by
  unfold atomFill
  repeat' first
    | (with_reducible first | assumption | intro _ | apply allocLine_kept | apply Kept.c)
    | (simp only [Kept.mk_iff])
    | split

theorem atomRead_kept {s : State} {a1 : Via} {cached : Bool} {l : Loc} {n : Nat} (h : Kept v s) :
    Kept v (atomRead s a1 cached l n).2 := by
  unfold atomRead
  repeat' first
    | (with_reducible first | assumption | intro _ | apply atomFill_kept | apply Kept.c)
    | (with_reducible refine Kept.snd (by assumption) ?_)
    | (simp only [Kept.mk_iff])
    | split

theorem atomWrite_kept {s : State} {a1 : Via} {cached : Bool} {l : Loc} {b : List Byte} (h : Kept v s) :
    Kept v (atomWrite s a1 cached l b).2 := by
  unfold atomWrite
  repeat' first
    | (with_reducible first | assumption | intro _ | apply allocLine_kept | apply Kept.c | apply KeptC.write)
    | (simp only [Kept.mk_iff, putLine_cells, cureAtom_cells])
    | split

theorem undefineAt_kept {s : State} {l : Loc} {n : Nat} (h : Kept v s) : Kept v (undefineAt s l n) := by
  unfold undefineAt
  dsimp only
  repeat' first
    | (with_reducible first | assumption | intro _ | apply Kept.c | apply KeptC.write)
    | (simp only [Kept.mk_iff, putLine_cells])
    | split

theorem readPieces_kept {s : State} {a1 : Via} {bulk : Bool} {a3 : List (Nat × Nat)} (h : Kept v s) :
    Kept v (readPieces s a1 bulk a3).2 := by
  induction a3 generalizing s a1 bulk with
  | nil =>
    unfold readPieces
    repeat' first
      | (with_reducible first | assumption | intro _ | apply atomRead_kept | apply Kept.c)
      | (with_reducible refine Kept.snd (by assumption) ?_)
      | (simp only [Kept.mk_iff])
      | split
  | cons x r ih =>
    unfold readPieces
    repeat' first
      | (with_reducible first | assumption | intro _ | apply atomRead_kept | apply ih | apply Kept.c)
      | (with_reducible refine Kept.snd (by assumption) ?_)
      | (simp only [Kept.mk_iff])
      | split

theorem devRead_kept {s : State} {a1 : Via} {bulk : Bool} {a : Nat} {n : Nat} (h : Kept v s) :
    Kept v (devRead s a1 bulk a n).2 := by
  unfold devRead
  repeat' first
    | (with_reducible first | assumption | intro _ | apply readPieces_kept | apply Kept.c)
    | (with_reducible refine Kept.snd (by assumption) ?_)
    | (simp only [Kept.mk_iff])
    | split

theorem setPage_kept {s : State} {p : Nat} {pg : Option PageSt} (h : Kept v s) :
    Kept v (setPage s p pg) := by
  unfold setPage
  repeat' first
    | (with_reducible first | assumption | intro _ | apply Kept.c)
    | (simp only [Kept.mk_iff])
    | split

theorem touchPage_kept {s : State} {p : Nat} {pg : PageSt} (h : Kept v s) :
    Kept v (touchPage s p pg) := by
  unfold touchPage
  repeat' first
    | (with_reducible first | assumption | intro _ | apply dcount_kept | apply setPage_kept | apply Kept.c)
    | (simp only [Kept.mk_iff])
    | split

theorem writeBlocked_kept {s : State} {a1 : Via} {bulk : Bool} {a3 : List (Nat × Nat)} (h : Kept v s) :
    Kept v (writeBlocked s a1 bulk a3).2 := by
  induction a3 generalizing s a1 bulk with
  | nil =>
    unfold writeBlocked
    repeat' first
      | (with_reducible first | assumption | intro _ | apply touchPage_kept | apply Kept.c)
      | (simp only [Kept.mk_iff])
      | split
  | cons x r ih =>
    unfold writeBlocked
    repeat' first
      | (with_reducible first | assumption | intro _ | apply touchPage_kept | apply ih | apply Kept.c)
      | (with_reducible refine Kept.snd (by assumption) ?_)
      | (simp only [Kept.mk_iff])
      | split

theorem writePieces_kept {s : State} {a1 : Via} {bulk : Bool} {a3 : List (Nat × Nat)} {a4 : List Byte} (h : Kept v s) :
    Kept v (writePieces s a1 bulk a3 a4).2 := by
  induction a3 generalizing s a1 bulk a4 with
  | nil =>
    unfold writePieces
    repeat' first
      | (with_reducible first | apply KeptO.getD)
      | (with_reducible first | assumption | intro _ | apply atomWrite_kept | apply Kept.c)
      | (with_reducible refine Kept.snd (by assumption) ?_)
      | (simp only [Kept.mk_iff])
      | split
  | cons x r ih =>
    unfold writePieces
    repeat' first
      | (with_reducible first | apply KeptO.getD)
      | (with_reducible first | assumption | intro _ | apply atomWrite_kept | apply ih | apply Kept.c)
      | (with_reducible refine Kept.snd (by assumption) ?_)
      | (simp only [Kept.mk_iff])
      | split

theorem devWrite_kept {s : State} {a1 : Via} {bulk : Bool} {a : Nat} {b : List Byte} (h : Kept v s) :
    Kept v (devWrite s a1 bulk a b).2 := by
  unfold devWrite
  repeat' first
    | (with_reducible first | assumption | intro _ | apply writePieces_kept | apply writeBlocked_kept)
    | (with_reducible first | apply Kept.c)
    | (with_reducible refine Kept.snd (by assumption) ?_)
    | (simp only [Kept.mk_iff])
    | split

theorem releaseHold_kept {s : State} (h : Kept v s) :
    Kept v (releaseHold s) := by
  unfold releaseHold
  repeat' first
    | (with_reducible first | assumption | intro _ | apply Kept.c)
    | (simp only [Kept.mk_iff])
    | split

end Sys2Proof.Machine
end

