-- ==== Sys2Proof/Laws/KeepEvents.lean ====
section
/-!
SUPPORT. What the operations of Machine/Events.lean keep (Laws/Keep.lean).
-/

namespace Sys2Proof.Machine

set_option linter.unusedSimpArgs false

variable {v : View}

theorem putTctl_kept {s : State} {t : Nat} {idle : Bool} {runpri : Nat} {thresh : Nat} {stack : List Nat} (h : Kept v s) :
    Kept v (putTctl s t idle runpri thresh stack) := by
  unfold putTctl
  repeat' first
    | (with_reducible first | assumption | intro _ | apply dset_kept | apply Kept.c)
    | (simp only [Kept.mk_iff])
    | split

theorem deliverAt_kept {s : State} {r : Nat} {p : Nat} {t : Nat} (h : Kept v s) :
    Kept v (deliverAt s r p t) := by
  unfold deliverAt
  repeat' first
    | (with_reducible first | assumption | intro _ | apply toHost_kept | apply sendOut_kept | apply putTctl_kept)
    | (with_reducible first | apply Kept.c)
    | (simp only [Kept.mk_iff])
    | split

theorem deliverRing_kept {s : State} {r : Nat} (h : Kept v s) :
    Kept v (deliverRing s r) := by
  unfold deliverRing
  repeat' first
    | (with_reducible first | assumption | intro _ | apply deliverAt_kept | apply Kept.c)
    | (simp only [Kept.mk_iff])
    | split

theorem raiseRing_kept {s : State} {r : Nat} (h : Kept v s) :
    Kept v (raiseRing s r) := by
  unfold raiseRing
  repeat' first
    | (with_reducible first | assumption | intro _ | apply deliverRing_kept | apply Kept.c)
    | (simp only [Kept.mk_iff])
    | split

theorem retryRings_kept {s : State} {which : Nat → Bool} (h : Kept v s) :
    Kept v (retryRings s which) := by
  unfold retryRings
  repeat' first
    | (with_reducible first | assumption | intro _ | apply Kept.foldl | apply Kept.foldlFst)
    | (with_reducible first | apply Kept.foldlSnd | apply deliverRing_kept | apply Kept.c)
    | (simp only [Kept.mk_iff])
    | split

theorem checkModerated_kept {s : State} {which : Nat → Bool} (h : Kept v s) :
    Kept v (checkModerated s which) := by
  unfold checkModerated
  repeat' first
    | (with_reducible first | assumption | intro _ | apply Kept.foldl | apply Kept.foldlFst)
    | (with_reducible first | apply Kept.foldlSnd | apply raiseRing_kept | apply Kept.c)
    | (simp only [Kept.mk_iff])
    | split

theorem unrouted_kept {s : State} (h : Kept v s) :
    Kept v (unrouted s) := by
  unfold unrouted
  repeat' first
    | (with_reducible first | assumption | intro _ | apply dcount_kept | apply Kept.c)
    | (simp only [Kept.mk_iff])
    | split

theorem ringWriteFailed_kept {s : State} {r : Nat} (h : Kept v s) :
    Kept v (ringWriteFailed s r) := by
  unfold ringWriteFailed
  repeat' first
    | (with_reducible first | assumption | intro _ | apply dset_kept | apply Kept.c)
    | (simp only [Kept.mk_iff])
    | split

theorem ringWritten_kept {s : State} {r : Nat} {prio : Nat} (h : Kept v s) :
    Kept v (ringWritten s r prio) := by
  unfold ringWritten
  repeat' first
    | (with_reducible first | assumption | intro _ | apply retryRings_kept | apply dset_kept)
    | (with_reducible first | apply raiseRing_kept | apply Kept.c)
    | (simp only [Kept.mk_iff])
    | split

theorem ringStore_kept {s : State} {r : Nat} {prio : Nat} {e : EvRec} {seq : Nat} {hostFails : Bool} (h : Kept v s) :
    KeptO v (ringStore s r prio e seq hostFails) := by
  unfold ringStore
  repeat' first
    | (with_reducible first | assumption | intro _ | exact KeptO.none | apply KeptO.some | apply unrouted_kept)
    | (with_reducible first | apply ringWriteFailed_kept | apply toHost_kept | apply ringWritten_kept)
    | (with_reducible first | apply devWrite_kept | apply Kept.c)
    | (with_reducible refine Kept.snd (by assumption) ?_)
    | (simp only [Kept.mk_iff])
    | split

theorem routeRecord_kept {s : State} {e : EvRec} {seq : Nat} {hostFails : Bool} (h : Kept v s) :
    KeptO v (routeRecord s e seq hostFails) := by
  unfold routeRecord
  repeat' first
    | (with_reducible first | assumption | intro _ | exact KeptO.none | apply KeptO.some | apply unrouted_kept)
    | (with_reducible first | apply dcount_kept | apply ringStore_kept | apply Kept.c)
    | (with_reducible refine KeptO.use (by assumption) ?_)
    | (simp only [Kept.mk_iff])
    | split

theorem acceptRecord_kept {s : State} {e : EvRec} {hostFails : Bool} (h : Kept v s) :
    KeptO v (acceptRecord s e hostFails) := by
  unfold acceptRecord
  repeat' first
    | (with_reducible first | assumption | intro _ | exact KeptO.none | apply KeptO.some)
    | (with_reducible first | apply routeRecord_kept | apply Kept.c)
    | (with_reducible refine KeptO.use (by assumption) ?_)
    | (simp only [Kept.mk_iff])
    | split

theorem acceptEvent_kept {s : State} {i : Nat} {hostFails : Bool} (h : Kept v s) :
    Kept v (acceptEvent s i hostFails) := by
  unfold acceptEvent
  repeat' first
    | (with_reducible first | assumption | intro _ | apply acceptRecord_kept | apply Kept.c)
    | (with_reducible refine KeptO.use (by assumption) ?_)
    | (simp only [Kept.mk_iff])
    | split

theorem writeRingCi_kept {s : State} {r : Nat} {a2 : Nat} (h : Kept v s) :
    Kept v (writeRingCi s r a2).1 := by
  unfold writeRingCi
  repeat' first
    | (with_reducible first | assumption | intro _ | apply dset_kept | apply raiseRing_kept | apply Kept.c)
    | (simp only [Kept.mk_iff])
    | split

theorem endOfInterrupt_kept {s : State} {t : Nat} (h : Kept v s) :
    Kept v (endOfInterrupt s t) := by
  unfold endOfInterrupt
  repeat' first
    | (with_reducible first | assumption | intro _ | apply dcount_kept | apply putTctl_kept | apply Kept.c)
    | (simp only [Kept.mk_iff])
    | split

theorem writeTctl_kept {s : State} {t : Nat} {a2 : Nat} (h : Kept v s) :
    Kept v (writeTctl s t a2) := by
  unfold writeTctl
  repeat' first
    | (with_reducible first | assumption | intro _ | apply retryRings_kept | apply checkModerated_kept)
    | (with_reducible first | apply putTctl_kept | apply endOfInterrupt_kept | apply Kept.c)
    | (simp only [Kept.mk_iff])
    | split

theorem writeEvtHold_kept {s : State} {hold : Bool} (h : Kept v s) :
    Kept v (writeEvtHold s hold) := by
  unfold writeEvtHold
  repeat' first
    | (with_reducible first | assumption | intro _ | apply Kept.foldl | apply Kept.foldlFst)
    | (with_reducible first | apply Kept.foldlSnd | apply retryRings_kept | apply dset_kept)
    | (with_reducible first | apply raiseRing_kept | apply Kept.c)
    | (simp only [Kept.mk_iff])
    | split

theorem writeGroupDef_kept {s : State} {g : Nat} {a2 : Nat} (h : Kept v s) :
    Kept v (writeGroupDef s g a2).1 := by
  unfold writeGroupDef
  repeat' first
    | (with_reducible first | assumption | intro _ | apply checkModerated_kept | apply retryRings_kept | apply dset_kept | apply Kept.c)
    | (simp only [Kept.mk_iff])
    | split

theorem unmaskVector_kept {s : State} {a1 : Nat} (h : Kept v s) :
    Kept v (unmaskVector s a1) := by
  unfold unmaskVector
  repeat' first
    | (with_reducible first | assumption | intro _ | apply toHost_kept | apply Kept.c)
    | (simp only [Kept.mk_iff])
    | split

theorem setLatch_kept {s : State} {ctl : Nat} {bit : Nat} {e : EvRec} (h : Kept v s) :
    Kept v (setLatch s ctl bit e) := by
  unfold setLatch
  repeat' first
    | (with_reducible first | assumption | intro _ | apply Kept.c)
    | (simp only [Kept.mk_iff])
    | split

theorem localOccur_kept {s : State} {o : LocalOcc} (h : Kept v s) :
    Kept v (localOccur s o) := by
  unfold localOccur
  repeat' first
    | (with_reducible first | assumption | intro _ | apply setLatch_kept | apply dset_kept | apply Kept.c)
    | (simp only [Kept.mk_iff])
    | split

theorem forwardBit_kept {ctl : Nat} {s : State} {bit : Nat} (h : Kept v s) :
    Kept v (forwardBit ctl s bit) := by
  unfold forwardBit
  repeat' first
    | (with_reducible first | assumption | intro _ | apply setLatch_kept | apply dset_kept | apply Kept.c)
    | (simp only [Kept.mk_iff])
    | split

theorem forwardAll_kept {s : State} {ctl : Nat} (h : Kept v s) :
    Kept v (forwardAll s ctl) := by
  unfold forwardAll
  repeat' first
    | (with_reducible first | assumption | intro _ | apply Kept.foldl | apply Kept.foldlFst)
    | (with_reducible first | apply Kept.foldlSnd | apply forwardBit_kept | apply Kept.c)
    | (simp only [Kept.mk_iff])
    | split

theorem writePend_kept {s : State} {ctl : Nat} {v0 : Nat} (h : Kept v s) :
    Kept v (writePend s ctl v0) := by
  unfold writePend
  repeat' first
    | (with_reducible first | assumption | intro _ | apply Kept.foldl | apply Kept.foldlFst)
    | (with_reducible first | apply Kept.foldlSnd | apply dset_kept | apply setLatch_kept | apply KeptO.getD)
    | (with_reducible first | apply Kept.c)
    | (simp only [Kept.mk_iff])
    | split

theorem writeEcLock_kept {s : State} {die : Nat} {a2 : Nat} (h : Kept v s) :
    Kept v (writeEcLock s die a2).1 := by
  unfold writeEcLock
  repeat' first
    | (with_reducible first | assumption | intro _ | apply dset_kept | apply Kept.c)
    | (simp only [Kept.mk_iff])
    | split

theorem withdrawTarget_kept {s : State} {t : Nat} (h : Kept v s) :
    Kept v (withdrawTarget s t) := by
  unfold withdrawTarget
  repeat' first
    | (with_reducible first | assumption | intro _ | apply Kept.foldl | apply Kept.foldlFst)
    | (with_reducible first | apply Kept.foldlSnd | apply putTctl_kept | apply raiseRing_kept | apply Kept.c)
    | (simp only [Kept.mk_iff])
    | split

end Sys2Proof.Machine
end

