-- ==== Sys2Proof/Laws/KeepOperands.lean ====
section
/-!
SUPPORT. What the operations of Machine/Operands.lean keep (Laws/Keep.lean).
-/

namespace Sys2Proof.Machine

set_option linter.unusedSimpArgs false

variable {v : View}

theorem readMany_kept {s : State} {a1 : Via} {bulk : Bool} {a3 : List (Nat × Nat)} (h : Kept v s) :
    Kept v (readMany s a1 bulk a3).2 := by
  induction a3 generalizing s a1 bulk with
  | nil =>
    unfold readMany
    repeat' first
      | (with_reducible first | assumption | intro _ | apply devRead_kept | apply Kept.c)
      | (with_reducible refine Kept.snd (by assumption) ?_)
      | (simp only [Kept.mk_iff])
      | split
  | cons x r ih =>
    unfold readMany
    repeat' first
      | (with_reducible first | assumption | intro _ | apply devRead_kept | apply ih | apply Kept.c)
      | (with_reducible refine Kept.snd (by assumption) ?_)
      | (simp only [Kept.mk_iff])
      | split

theorem writeRuns_kept {s : State} {a1 : Via} {bulk : Bool} {a3 : List (Nat × List Byte)} (h : Kept v s) :
    Kept v (writeRuns s a1 bulk a3).2 := by
  induction a3 generalizing s a1 bulk with
  | nil =>
    unfold writeRuns
    repeat' first
      | (with_reducible first | assumption | intro _ | apply devWrite_kept | apply Kept.c)
      | (with_reducible refine Kept.snd (by assumption) ?_)
      | (simp only [Kept.mk_iff])
      | split
  | cons x r ih =>
    unfold writeRuns
    repeat' first
      | (with_reducible first | assumption | intro _ | apply devWrite_kept | apply ih | apply Kept.c)
      | (with_reducible refine Kept.snd (by assumption) ?_)
      | (simp only [Kept.mk_iff])
      | split

theorem writeMany_kept {s : State} {a1 : Via} {bulk : Bool} {l : List (Nat × List Byte)} (h : Kept v s) :
    Kept v (writeMany s a1 bulk l).2 := by
  unfold writeMany
  repeat' first
    | (with_reducible first | assumption | intro _ | apply writeRuns_kept | apply Kept.c)
    | (with_reducible refine Kept.snd (by assumption) ?_)
    | (simp only [Kept.mk_iff])
    | split

theorem writesBlocked_kept {s : State} {a1 : Via} {l : List (Nat × List Byte)} (h : Kept v s) :
    Kept v (writesBlocked s a1 l).2 := by
  unfold writesBlocked
  repeat' first
    | (with_reducible first | assumption | intro _ | apply Kept.foldl | apply Kept.foldlFst)
    | (with_reducible first | apply Kept.foldlSnd | apply writeBlocked_kept | apply Kept.c)
    | (with_reducible refine Kept.snd (by assumption) ?_)
    | (simp only [Kept.mk_iff])
    | split

end Sys2Proof.Machine
end

