-- ==== Sys2Proof/Laws/KeepFlags.lean ====
section
/-!
SUPPORT. What the operations of Machine/Flags.lean keep (Laws/Keep.lean).
-/

namespace Sys2Proof.Machine

set_option linter.unusedSimpArgs false

variable {v : View}

theorem nameSlot_kept {s : State} {core : Nat} {job : Nat} {slot : Nat} (h : Kept v s) :
    Kept v (nameSlot s core job slot) := by
  unfold nameSlot
  repeat' first
    | (with_reducible first | assumption | intro _ | apply Kept.c)
    | (simp only [Kept.mk_iff])
    | split

theorem onLine_kept {s : State} {core : Nat} {job : Nat} {slot : Nat} {f : TLine → TLine} (h : Kept v s) :
    Kept v (onLine s core job slot f) := by
  unfold onLine
  repeat' first
    | (with_reducible first | assumption | intro _ | apply nameSlot_kept | apply Kept.c)
    | (simp only [Kept.mk_iff])
    | split

theorem tallyCore_kept {s : State} {core : Nat} {job : Nat} {slot : Nat} {d : Tally} (h : Kept v s) :
    Kept v (tallyCore s core job slot d) := by
  unfold tallyCore
  repeat' first
    | (with_reducible first | apply onLine_kept)
    | (with_reducible first | assumption | intro _ | apply nameSlot_kept | apply Kept.c)
    | (simp only [Kept.mk_iff])
    | split

theorem tallyDie_kept {s : State} {die : Nat} {job : Nat} {slot : Nat} {d : Tally} (h : Kept v s) :
    Kept v (tallyDie s die job slot d) := by
  unfold tallyDie
  repeat' first
    | (with_reducible first | assumption | intro _ | apply Kept.c)
    | (simp only [Kept.mk_iff])
    | split

theorem tallyOp_kept {s : State} {core : Nat} {o : OpRec} {d : Tally} (h : Kept v s) :
    Kept v (tallyOp s core o d) := by
  unfold tallyOp
  repeat' first
    | (with_reducible first | assumption | intro _ | apply tallyCore_kept | apply Kept.c)
    | (simp only [Kept.mk_iff])
    | split

theorem tallyHold_kept {s : State} {core : Nat} {o : OpRec} {op : Nat} {tile : Nat} {d : Tally} (h : Kept v s) :
    Kept v (tallyHold s core o op tile d) := by
  unfold tallyHold
  repeat' first
    | (with_reducible first | assumption | intro _ | apply onLine_kept | apply Kept.c)
    | (simp only [Kept.mk_iff])
    | split

theorem onTallies_kept {s : State} {f : TLine → TLine} (h : Kept v s) :
    Kept v (onTallies s f) := by
  unfold onTallies
  repeat' first
    | (with_reducible first | assumption | intro _ | apply Kept.c)
    | (simp only [Kept.mk_iff])
    | split

theorem tallyDrop_kept {s : State} {op : Nat} {tile : Nat} (h : Kept v s) :
    Kept v (tallyDrop s op tile) := by
  unfold tallyDrop
  repeat' first
    | (with_reducible first | assumption | intro _ | apply onTallies_kept | apply Kept.c)
    | (simp only [Kept.mk_iff])
    | split

theorem tallyDropOp_kept {s : State} {op : Nat} (h : Kept v s) :
    Kept v (tallyDropOp s op) := by
  unfold tallyDropOp
  repeat' first
    | (with_reducible first | assumption | intro _ | apply onTallies_kept | apply Kept.c)
    | (simp only [Kept.mk_iff])
    | split

theorem tallyKeep_kept {s : State} {op : Nat} {tile : Nat} (h : Kept v s) :
    Kept v (tallyKeep s op tile) := by
  unfold tallyKeep
  repeat' first
    | (with_reducible first | assumption | intro _ | apply Kept.foldl | apply Kept.foldlFst)
    | (with_reducible first | apply Kept.foldlSnd | apply onTallies_kept | apply Kept.c)
    | (simp only [Kept.mk_iff])
    | split

end Sys2Proof.Machine
end

