-- ==== Sys2Proof/Laws/KeepEngine.lean ====
section
/-!
SUPPORT. What the operations of Machine/Engine.lean keep (Laws/Keep.lean).
-/

namespace Sys2Proof.Machine

set_option linter.unusedSimpArgs false

variable {v : View}

theorem setEng_kept {s : State} {e : Nat} {g : Engine} (h : Kept v s) :
    Kept v (setEng s e g) := by
  unfold setEng
  repeat' first
    | (with_reducible first | assumption | intro _ | apply Kept.c)
    | (simp only [Kept.mk_iff])
    | split

theorem setCur_kept {s : State} {e : Nat} {t : Option TileRun} (h : Kept v s) :
    Kept v (setCur s e t) := by
  unfold setCur
  repeat' first
    | (with_reducible first | assumption | intro _ | apply setEng_kept | apply Kept.c)
    | (simp only [Kept.mk_iff])
    | split

theorem setOp_kept {s : State} {k : Nat} {o : Option OpRec} (h : Kept v s) :
    Kept v (setOp s k o) := by
  unfold setOp
  repeat' first
    | (with_reducible first | assumption | intro _ | apply Kept.c)
    | (simp only [Kept.mk_iff])
    | split

theorem coreEvent_kept {s : State} {core : Nat} {j : Nat} {source : Nat} {kind : Nat} {code : Nat} {data : Nat} (h : Kept v s) :
    Kept v (coreEvent s core j source kind code data) := by
  unfold coreEvent
  repeat' first
    | (with_reducible first | assumption | intro _ | apply localEvent_kept | apply Kept.c)
    | (simp only [Kept.mk_iff])
    | split

theorem dropTiles_kept {s : State} {k : Nat} (h : Kept v s) :
    Kept v (dropTiles s k) := by
  unfold dropTiles
  repeat' first
    | (with_reducible first | apply tallyDropOp_kept)
    | (with_reducible first | assumption | intro _ | apply Kept.c)
    | (simp only [Kept.mk_iff])
    | split

theorem failOp_kept {s : State} {k : Nat} {code : Nat} (h : Kept v s) :
    Kept v (failOp s k code) := by
  unfold failOp
  repeat' first
    | (with_reducible first | assumption | intro _ | apply setOp_kept | apply dropTiles_kept | apply Kept.c)
    | (simp only [Kept.mk_iff])
    | split

theorem readCodes_kept {s : State} {a1 : Via} {eb : Nat} {addrs : List (Option Nat)} (h : Kept v s) :
    Kept v (readCodes s a1 eb addrs).2 := by
  unfold readCodes
  repeat' first
    | (with_reducible first | assumption | intro _ | apply readMany_kept | apply Kept.c)
    | (with_reducible refine Kept.snd (by assumption) ?_)
    | (simp only [Kept.mk_iff])
    | split

theorem stageBlocks_kept {s : State} {a1 : Via} {t : Tensor} {g : Staged} (h : Kept v s) :
    Kept v (stageBlocks s a1 t g).2 := by
  unfold stageBlocks
  repeat' first
    | (with_reducible first | assumption | intro _ | apply readMany_kept | apply Kept.c)
    | (with_reducible refine Kept.snd (by assumption) ?_)
    | (simp only [Kept.mk_iff])
    | split

theorem stageX_kept {s : State} {o : OpRec} {t : TileRun} {die : Nat} {m : Nat} {k0 : Nat} {cnt : Nat} (h : Kept v s) :
    Kept v (stageX s o t die m k0 cnt).2 := by
  unfold stageX
  repeat' first
    | (with_reducible first | assumption | intro _ | apply readCodes_kept | apply stageBlocks_kept)
    | (with_reducible first | apply Kept.c)
    | (with_reducible refine Kept.snd (by assumption) ?_)
    | (simp only [Kept.mk_iff])
    | split

theorem stageW_kept {s : State} {o : OpRec} {t : TileRun} {die : Nat} {n : Nat} {k0 : Nat} {cnt : Nat} (h : Kept v s) :
    Kept v (stageW s o t die n k0 cnt).2 := by
  unfold stageW
  repeat' first
    | (with_reducible first | assumption | intro _ | apply readCodes_kept | apply stageBlocks_kept)
    | (with_reducible first | apply KeptO.getD | apply Kept.c)
    | (with_reducible refine Kept.snd (by assumption) ?_)
    | (simp only [Kept.mk_iff])
    | split

theorem feedX_kept {s : State} {o : OpRec} {t : TileRun} {die : Nat} {m : Nat} {k0 : Nat} {cnt : Nat} (h : Kept v s) :
    Kept v (feedX s o t die m k0 cnt).2 := by
  unfold feedX
  repeat' first
    | (with_reducible first | assumption | intro _ | apply stageX_kept | apply Kept.c)
    | (with_reducible refine Kept.snd (by assumption) ?_)
    | (simp only [Kept.mk_iff])
    | split

theorem feedW_kept {s : State} {o : OpRec} {t : TileRun} {die : Nat} {n : Nat} {k0 : Nat} {cnt : Nat} (h : Kept v s) :
    Kept v (feedW s o t die n k0 cnt).2 := by
  unfold feedW
  repeat' first
    | (with_reducible first | assumption | intro _ | apply stageW_kept | apply Kept.c)
    | (with_reducible refine Kept.snd (by assumption) ?_)
    | (simp only [Kept.mk_iff])
    | split

theorem feedCols_kept {s : State} {o : OpRec} {t : TileRun} {die : Nat} {k0 : Nat} {cnt : Nat} {a6 : List Nat} (h : Kept v s) :
    Kept v (feedCols s o t die k0 cnt a6).2 := by
  induction a6 generalizing s o t die k0 cnt with
  | nil =>
    unfold feedCols
    repeat' first
      | (with_reducible first | assumption | intro _ | apply feedW_kept | apply Kept.c)
      | (with_reducible refine Kept.snd (by assumption) ?_)
      | (simp only [Kept.mk_iff])
      | split
  | cons x r ih =>
    unfold feedCols
    repeat' first
      | (with_reducible first | assumption | intro _ | apply feedW_kept | apply ih | apply Kept.c)
      | (with_reducible refine Kept.snd (by assumption) ?_)
      | (simp only [Kept.mk_iff])
      | split

theorem takeSaved_kept {s : State} {e : Nat} (h : Kept v s) :
    Kept v (takeSaved s e) := by
  unfold takeSaved
  repeat' first
    | (with_reducible first | assumption | intro _ | apply setCur_kept | apply setEng_kept | apply Kept.c)
    | (simp only [Kept.mk_iff])
    | split

theorem takeTile_kept {s : State} {e : Nat} (h : Kept v s) :
    Kept v (takeTile s e) := by
  unfold takeTile
  repeat' first
    | (with_reducible first | apply takeSaved_kept)
    | (with_reducible first | assumption | intro _ | apply setEng_kept | apply setCur_kept | apply Kept.c)
    | (simp only [Kept.mk_iff])
    | split

theorem restartTile_kept {s : State} {e : Nat} {t : TileRun} (h : Kept v s) :
    Kept v (restartTile s e t) := by
  unfold restartTile
  repeat' first
    | (with_reducible first | assumption | intro _ | apply setCur_kept | apply tallyDrop_kept | apply Kept.c)
    | (simp only [Kept.mk_iff])
    | split

theorem spillOldest_kept {s : State} {core : Nat} (h : Kept v s) :
    Kept v (spillOldest s core) := by
  unfold spillOldest
  repeat' first
    | (with_reducible first | assumption | intro _ | apply Kept.foldl | apply Kept.foldlFst)
    | (with_reducible first | apply Kept.foldlSnd | apply setEng_kept | apply Kept.c)
    | (simp only [Kept.mk_iff])
    | split

theorem settle_kept {s : State} {e : Nat} (h : Kept v s) :
    Kept v (settle s e) := by
  unfold settle
  repeat' first
    | (with_reducible first | assumption | intro _ | apply preempt_kept | apply setEng_kept)
    | (with_reducible first | apply spillOldest_kept | apply Kept.c)
    | (simp only [Kept.mk_iff])
    | split

theorem misalignEvent_kept {s : State} {e : Nat} {o : OpRec} {t : TileRun} (h : Kept v s) :
    Kept v (misalignEvent s e o t) := by
  unfold misalignEvent
  repeat' first
    | (with_reducible first | assumption | intro _ | apply coreEvent_kept | apply failOp_kept | apply Kept.c)
    | (simp only [Kept.mk_iff])
    | split

theorem misalign_kept {s : State} {e : Nat} {o : OpRec} {t : TileRun} (h : Kept v s) :
    Kept v (misalign s e o t) := by
  unfold misalign
  repeat' first
    | (with_reducible first | assumption | intro _ | apply tallyOp_kept | apply coreEvent_kept)
    | (with_reducible first | apply misalignEvent_kept | apply restartTile_kept)
    | (with_reducible first | apply settle_kept)
    | (with_reducible first | apply failOp_kept | apply setCur_kept | apply Kept.c)
    | (simp only [Kept.mk_iff])
    | split

theorem reassignTile_kept {s : State} {e : Nat} {kt : Nat × Nat} {t : Option TileRun} (h : Kept v s) :
    Kept v (reassignTile s e kt t) := by
  unfold reassignTile
  repeat' first
    | (with_reducible first | assumption | intro _ | apply failOp_kept | apply setEng_kept)
    | (with_reducible first | apply tallyDrop_kept | apply Kept.c)
    | (simp only [Kept.mk_iff])
    | split

theorem retireEngine_kept {s : State} {e : Nat} (h : Kept v s) :
    Kept v (retireEngine s e) := by
  unfold retireEngine
  repeat' first
    | (with_reducible first | assumption | intro _ | apply Kept.foldl | apply Kept.foldlFst)
    | (with_reducible first | apply Kept.foldlSnd | apply setEng_kept | apply coreEvent_kept)
    | (with_reducible first | apply reassignTile_kept | apply Kept.c)
    | (simp only [Kept.mk_iff])
    | split

theorem engineFaultIn_kept {s : State} {e : Nat} {m : Mech} {inj : Bool} {slice : Nat} {row : Nat} {k : Nat} {n : Nat} (h : Kept v s) :
    Kept v (engineFaultIn s e m inj slice row k n) := by
  unfold engineFaultIn
  repeat' first
    | (with_reducible first | assumption | intro _ | apply failOp_kept | apply raiseFault_kept)
    | (with_reducible first | apply restartTile_kept | apply retireEngine_kept | apply setEng_kept)
    | (with_reducible first | apply KeptO.getD | apply Kept.c)
    | (simp only [Kept.mk_iff])
    | split

theorem engineFault_kept {s : State} {e : Nat} {m : Mech} {inj : Bool} {slice : Nat} {row : Nat} {k : Nat} {n : Nat} (h : Kept v s) :
    Kept v (engineFault s e m inj slice row k n) := by
  unfold engineFault
  repeat' first
    | (with_reducible first | assumption | intro _ | apply retireEngine_kept | apply raiseFault_kept)
    | (with_reducible first | apply engineFaultIn_kept | apply settle_kept)
    | (with_reducible first | apply setEng_kept | apply failOp_kept | apply setCur_kept | apply Kept.c)
    | (simp only [Kept.mk_iff])
    | split

theorem alsoMisaligned_kept {s : State} {e : Nat} {o : OpRec} {t : TileRun} (h : Kept v s) :
    Kept v (alsoMisaligned s e o t) := by
  unfold alsoMisaligned
  repeat' first
    | (with_reducible first | assumption | intro _ | apply misalign_kept | apply misalignEvent_kept)
    | (with_reducible first | apply tallyOp_kept | apply Kept.c)
    | (simp only [Kept.mk_iff])
    | split

theorem loadSlice_kept {s : State} {e : Nat} {o : OpRec} {t : TileRun} (h : Kept v s) :
    Kept v (loadSlice s e o t) := by
  unfold loadSlice
  repeat' first
    | (with_reducible first | assumption | intro _ | apply misalign_kept | apply feedCols_kept)
    | (with_reducible first | apply failOp_kept | apply setCur_kept | apply Kept.c)
    | (with_reducible refine Kept.snd (by assumption) ?_)
    | (simp only [Kept.mk_iff])
    | split

theorem stationaryLoad_kept {s0 : State} {e : Nat} {hit : Option Mech} (h : Kept v s0) :
    Kept v (stationaryLoad s0 e hit) := by
  unfold stationaryLoad
  repeat' first
    | (with_reducible first | assumption | intro _ | apply loadSlice_kept | apply takeHit_kept)
    | (with_reducible first | apply alsoMisaligned_kept)
    | (with_reducible first | apply takeTile_kept | apply engineFault_kept | apply setCur_kept | apply Kept.c)
    | (with_reducible refine Kept.snd (by assumption) ?_)
    | (simp only [Kept.mk_iff])
    | split

theorem readRescale_kept {s : State} {o : OpRec} {t : TileRun} {die : Nat} (h : Kept v s) :
    Kept v (readRescale s o t die).2 := by
  unfold readRescale
  repeat' first
    | (with_reducible first | assumption | intro _ | apply readMany_kept | apply Kept.c)
    | (with_reducible refine Kept.snd (by assumption) ?_)
    | (simp only [Kept.mk_iff])
    | split

theorem beginChunk_kept {s : State} {e : Nat} {o : OpRec} {t : TileRun} (h : Kept v s) :
    Kept v (beginChunk s e o t) := by
  unfold beginChunk
  repeat' first
    | (with_reducible first | assumption | intro _ | apply setEng_kept | apply readRescale_kept)
    | (with_reducible first | apply failOp_kept | apply setCur_kept | apply Kept.c)
    | (with_reducible refine Kept.snd (by assumption) ?_)
    | (simp only [Kept.mk_iff])
    | split

theorem stepChunk_kept {s : State} {e : Nat} {o : OpRec} {t : TileRun} {c : Chunk} {hit : Option (Mech × Nat × Nat)} (h : Kept v s) :
    Kept v (stepChunk s e o t c hit) := by
  unfold stepChunk
  repeat' first
    | (with_reducible first | assumption | intro _ | apply tallyOp_kept | apply setEng_kept)
    | (with_reducible first | apply misalign_kept | apply takeHit_kept | apply feedX_kept)
    | (with_reducible first | apply alsoMisaligned_kept | apply KeptO.getD)
    | (with_reducible first | apply engineFault_kept | apply failOp_kept | apply Kept.c)
    | (with_reducible refine Kept.snd (by assumption) ?_)
    | (simp only [Kept.mk_iff])
    | split

theorem arrayStep_kept {s : State} {e : Nat} {hit : Option (Mech × Nat × Nat)} (h : Kept v s) :
    Kept v (arrayStep s e hit) := by
  unfold arrayStep
  repeat' first
    | (with_reducible first | assumption | intro _ | apply beginChunk_kept | apply stepChunk_kept)
    | (with_reducible first | apply setCur_kept | apply Kept.c)
    | (simp only [Kept.mk_iff])
    | split

end Sys2Proof.Machine
end

