-- ==== Sys2Proof/Laws/KeepTile.lean ====
section
/-!
SUPPORT. What the operations of Machine/Tile.lean keep (Laws/Keep.lean).
-/

namespace Sys2Proof.Machine

set_option linter.unusedSimpArgs false

variable {v : View}

theorem enterCapture_kept {s : State} {e : Nat} {c : Option InvCap} (h : Kept v s) :
    Kept v (enterCapture s e c) := by
  unfold enterCapture
  repeat' first
    | (with_reducible first | assumption | intro _ | apply setEng_kept | apply coreEvent_kept | apply Kept.c)
    | (simp only [Kept.mk_iff])
    | split

theorem markOp_kept {s : State} {k : Nat} {f : OpRec → OpRec} (h : Kept v s) :
    Kept v (markOp s k f) := by
  unfold markOp
  repeat' first
    | (with_reducible first | assumption | intro _ | apply setOp_kept | apply Kept.c)
    | (simp only [Kept.mk_iff])
    | split

theorem sealChunk_kept {s : State} {e : Nat} {t : TileRun} {o : OpRec} {d : Tally} {cap : Option InvCap} (h : Kept v s) :
    Kept v (sealChunk s e t o d cap) := by
  unfold sealChunk
  repeat' first
    | (with_reducible first | assumption | intro _ | apply tallyOp_kept | apply setEng_kept)
    | (with_reducible first | apply tallyHold_kept)
    | (with_reducible first | apply enterCapture_kept | apply markOp_kept | apply Kept.c)
    | (simp only [Kept.mk_iff])
    | split

theorem checksumRowPass_kept {s : State} {e : Nat} {hit : Option Mech} (h : Kept v s) :
    Kept v (checksumRowPass s e hit) := by
  unfold checksumRowPass
  repeat' first
    | (with_reducible first | assumption | intro _ | apply settle_kept | apply sealChunk_kept)
    | (with_reducible first | apply takeHit_kept | apply enterCapture_kept | apply engineFault_kept)
    | (with_reducible first | apply failOp_kept | apply markOp_kept | apply setCur_kept | apply Kept.c)
    | (with_reducible refine Kept.snd (by assumption) ?_)
    | (simp only [Kept.mk_iff])
    | split

theorem acceptTile_kept {s : State} {e : Nat} {o : OpRec} {t : TileRun} (h : Kept v s) :
    Kept v (acceptTile s e o t) := by
  unfold acceptTile
  repeat' first
    | (with_reducible first | assumption | intro _ | apply setEng_kept | apply sealChunk_kept | apply Kept.c)
    | (simp only [Kept.mk_iff])
    | split

theorem judgeTile_kept {s : State} {e : Nat} {o : OpRec} {t : TileRun} {y : Tensor} (h : Kept v s) :
    Kept v (judgeTile s e o t y) := by
  unfold judgeTile
  repeat' first
    | (with_reducible first | assumption | intro _ | apply acceptTile_kept | apply setCur_kept | apply Kept.c)
    | (simp only [Kept.mk_iff])
    | split

theorem tileRoundDone_kept {s0 : State} {e : Nat} {hit : Option Mech} (h : Kept v s0) :
    Kept v (tileRoundDone s0 e hit) := by
  unfold tileRoundDone
  repeat' first
    | (with_reducible first | assumption | intro _ | apply settle_kept | apply takeHit_kept)
    | (with_reducible first | apply judgeTile_kept | apply takeTile_kept | apply readRescale_kept)
    | (with_reducible first | apply engineFault_kept | apply failOp_kept | apply setCur_kept | apply Kept.c)
    | (with_reducible refine Kept.snd (by assumption) ?_)
    | (simp only [Kept.mk_iff])
    | split

theorem drainDone_kept {s : State} {e : Nat} (h : Kept v s) :
    Kept v (drainDone s e) := by
  unfold drainDone
  repeat' first
    | (with_reducible first | assumption | intro _ | apply tallyOp_kept | apply setEng_kept | apply setOp_kept)
    | (with_reducible first | apply tallyKeep_kept | apply KeptO.getD)
    | (with_reducible first | apply coreEvent_kept | apply failOp_kept | apply writeMany_kept | apply Kept.c)
    | (with_reducible refine Kept.snd (by assumption) ?_)
    | (simp only [Kept.mk_iff])
    | split

theorem respinRequest_kept {s : State} {e : Nat} (h : Kept v s) :
    Kept v (respinRequest s e) := by
  unfold respinRequest
  repeat' first
    | (with_reducible first | assumption | intro _ | apply tallyOp_kept | apply acceptTile_kept)
    | (with_reducible first | apply tallyDrop_kept)
    | (with_reducible first | apply markOp_kept | apply setCur_kept | apply Kept.c)
    | (simp only [Kept.mk_iff])
    | split

theorem maxOfRows_kept {s : State} {o : OpRec} {x : Tensor} {b : TileBox} {die : Nat} {a5 : List Nat} (h : Kept v s) :
    Kept v (maxOfRows s o x b die a5).2 := by
  induction a5 generalizing s o x b die with
  | nil =>
    unfold maxOfRows
    repeat' first
      | (with_reducible first | assumption | intro _ | apply readCodes_kept | apply Kept.c)
      | (with_reducible refine Kept.snd (by assumption) ?_)
      | (simp only [Kept.mk_iff])
      | split
  | cons x r ih =>
    unfold maxOfRows
    repeat' first
      | (with_reducible first | assumption | intro _ | apply readCodes_kept | apply ih | apply Kept.c)
      | (with_reducible refine Kept.snd (by assumption) ?_)
      | (simp only [Kept.mk_iff])
      | split

theorem maxOfCols_kept {s : State} {o : OpRec} {w : Tensor} {b : TileBox} {die : Nat} {a5 : List Nat} (h : Kept v s) :
    Kept v (maxOfCols s o w b die a5).2 := by
  induction a5 generalizing s o w b die with
  | nil =>
    unfold maxOfCols
    repeat' first
      | (with_reducible first | assumption | intro _ | apply readCodes_kept | apply Kept.c)
      | (with_reducible refine Kept.snd (by assumption) ?_)
      | (simp only [Kept.mk_iff])
      | split
  | cons x r ih =>
    unfold maxOfCols
    repeat' first
      | (with_reducible first | assumption | intro _ | apply readCodes_kept | apply ih | apply Kept.c)
      | (with_reducible refine Kept.snd (by assumption) ?_)
      | (simp only [Kept.mk_iff])
      | split

theorem prePass_kept {s : State} {o : OpRec} {t : TileRun} {die : Nat} (h : Kept v s) :
    Kept v (prePass s o t die).2 := by
  unfold prePass
  repeat' first
    | (with_reducible first | assumption | intro _ | apply maxOfRows_kept | apply maxOfCols_kept | apply Kept.c)
    | (with_reducible refine Kept.snd (by assumption) ?_)
    | (simp only [Kept.mk_iff])
    | split

theorem stageLines_kept {s : State} {o : OpRec} {t : TileRun} {die : Nat} {a4 : List (Bool × Nat × Nat)} (h : Kept v s) :
    Kept v (stageLines s o t die a4).2 := by
  induction a4 generalizing s o t die with
  | nil =>
    unfold stageLines
    repeat' first
      | (with_reducible first | assumption | intro _ | apply stageW_kept | apply stageX_kept | apply Kept.c)
      | (with_reducible refine Kept.snd (by assumption) ?_)
      | (simp only [Kept.mk_iff])
      | split
  | cons x r ih =>
    unfold stageLines
    repeat' first
      | (with_reducible first | assumption | intro _ | apply stageW_kept | apply stageX_kept | apply ih)
      | (with_reducible first | apply Kept.c)
      | (with_reducible refine Kept.snd (by assumption) ?_)
      | (simp only [Kept.mk_iff])
      | split

theorem stageReplay_kept {s : State} {e : Nat} {o : OpRec} {t : TileRun} (h : Kept v s) :
    Kept v (stageReplay s e o t) := by
  unfold stageReplay
  repeat' first
    | (with_reducible first | assumption | intro _ | apply failOp_kept | apply setCur_kept)
    | (with_reducible first | apply stageLines_kept | apply Kept.c)
    | (with_reducible refine Kept.snd (by assumption) ?_)
    | (simp only [Kept.mk_iff])
    | split

theorem replayStagingDone_kept {s : State} {e : Nat} (h : Kept v s) :
    Kept v (replayStagingDone s e) := by
  unfold replayStagingDone
  repeat' first
    | (with_reducible first | assumption | intro _ | apply prePass_kept | apply failOp_kept | apply setCur_kept)
    | (with_reducible first | apply stageReplay_kept)
    | (with_reducible first | apply Kept.c)
    | (with_reducible refine Kept.snd (by assumption) ?_)
    | (simp only [Kept.mk_iff])
    | split

theorem declareStorm_kept {s : State} {job : Nat} {slot : Nat} {cause : Nat} (h : Kept v s) :
    Kept v (declareStorm s job slot cause) := by
  unfold declareStorm
  repeat' first
    | (with_reducible first | assumption | intro _ | apply Kept.foldl | apply Kept.foldlFst)
    | (with_reducible first | apply Kept.foldlSnd | apply hubEvent_kept | apply dset_kept | apply Kept.c)
    | (simp only [Kept.mk_iff])
    | split

theorem respinReport_kept {s : State} {i : Nat} (h : Kept v s) :
    Kept v (respinReport s i) := by
  unfold respinReport
  repeat' first
    | (with_reducible first | assumption | intro _ | apply declareStorm_kept | apply Kept.c)
    | (simp only [Kept.mk_iff])
    | split

theorem stormNotice_kept {s : State} {u : Nat} (h : Kept v s) :
    Kept v (stormNotice s u) := by
  unfold stormNotice
  repeat' first
    | (with_reducible first | assumption | intro _ | apply Kept.c)
    | (simp only [Kept.mk_iff])
    | split

theorem preemptRequest_kept {s : State} {e : Nat} (h : Kept v s) :
    Kept v (preemptRequest s e) := by
  unfold preemptRequest
  repeat' first
    | (with_reducible first | assumption | intro _ | apply settle_kept | apply setEng_kept | apply Kept.c)
    | (simp only [Kept.mk_iff])
    | split

theorem capHoldEngine_kept {s : State} {e : Nat} {hold : Bool} (h : Kept v s) :
    Kept v (capHoldEngine s e hold) := by
  unfold capHoldEngine
  repeat' first
    | (with_reducible first | assumption | intro _ | apply setEng_kept | apply Kept.c)
    | (simp only [Kept.mk_iff])
    | split

end Sys2Proof.Machine
end

