-- ==== Sys2Proof/Laws/KeepLadder.lean ====
section
/-!
SUPPORT. What the operations of Machine/Ladder.lean keep (Laws/Keep.lean).
-/

namespace Sys2Proof.Machine

set_option linter.unusedSimpArgs false

variable {v : View}

theorem setJob_kept {s : State} {job : Nat} {j : Job} (h : Kept v s) :
    Kept v (setJob s job j) := by
  unfold setJob
  repeat' first
    | (with_reducible first | assumption | intro _ | apply Kept.c)
    | (simp only [Kept.mk_iff])
    | split

theorem checkBoundary_kept {s : State} (h : Kept v s) :
    Kept v (checkBoundary s) := by
  unfold checkBoundary
  repeat' first
    | (with_reducible first | assumption | intro _ | apply Kept.c)
    | (simp only [Kept.mk_iff])
    | split

theorem tallySwap_kept {s : State} {die : Nat} (h : Kept v s) :
    Kept v (tallySwap s die) := by
  unfold tallySwap
  repeat' first
    | (with_reducible first | assumption | intro _ | apply Kept.foldl | apply Kept.foldlFst)
    | (with_reducible first | apply Kept.foldlSnd | apply Kept.c)
    | (simp only [Kept.mk_iff])
    | split

theorem processSlots_kept {s : State} {j : Job} {job : Nat} {lost : List Nat} {storm : Bool} {a5 : List Nat} (h : Kept v s) :
    Kept v (processSlots s j job lost storm a5).2 := by
  induction a5 generalizing s j job lost storm with
  | nil =>
    unfold processSlots
    repeat' first
      | (with_reducible first | assumption | intro _ | apply devRead_kept | apply Kept.c)
      | (with_reducible refine Kept.snd (by assumption) ?_)
      | (simp only [Kept.mk_iff])
      | split
  | cons x r ih =>
    unfold processSlots
    repeat' first
      | (with_reducible first | assumption | intro _ | apply devRead_kept | apply ih | apply Kept.c)
      | (with_reducible refine Kept.snd (by assumption) ?_)
      | (simp only [Kept.mk_iff])
      | split

theorem endStorm_kept {s : State} (h : Kept v s) :
    Kept v (endStorm s) := by
  unfold endStorm
  repeat' first
    | (with_reducible first | assumption | intro _ | apply dset_kept | apply Kept.c)
    | (simp only [Kept.mk_iff])
    | split

theorem ladderPass_kept {s : State} {lost : List Nat} (h : Kept v s) :
    Kept v (ladderPass s lost).1 := by
  unfold ladderPass
  repeat' first
    | (with_reducible first | assumption | intro _ | apply Kept.foldl | apply Kept.foldlFst)
    | (with_reducible first | apply Kept.foldlSnd | apply writesBlocked_kept | apply hubEvent_kept)
    | (with_reducible first | apply setJob_kept | apply knotUpdate_kept | apply processSlots_kept)
    | (with_reducible first | apply writeMany_kept | apply endStorm_kept | apply Kept.c)
    | (with_reducible refine Kept.snd (by assumption) ?_)
    | (simp only [Kept.mk_iff])
    | split

theorem releaseStorm_kept {s : State} {discard : Bool} (h : Kept v s) :
    Kept v (releaseStorm s discard) := by
  unfold releaseStorm
  repeat' first
    | (with_reducible first | assumption | intro _ | apply Kept.c)
    | (simp only [Kept.mk_iff])
    | split

theorem stormRecorded_kept {s : State} (h : Kept v s) :
    Kept v (stormRecorded s) := by
  unfold stormRecorded
  repeat' first
    | (with_reducible first | assumption | intro _ | apply releaseStorm_kept | apply Kept.c)
    | (simp only [Kept.mk_iff])
    | split

theorem writeStormRelease_kept {s : State} {a1 : Nat} (h : Kept v s) :
    Kept v (writeStormRelease s a1).1 := by
  unfold writeStormRelease
  repeat' first
    | (with_reducible first | assumption | intro _ | apply releaseStorm_kept | apply Kept.c)
    | (simp only [Kept.mk_iff])
    | split

theorem fillSlot_kept {s : State} {addr : Nat} {b : List Byte} (h : Kept v s) :
    Kept v (fillSlot s addr b).2 := by
  unfold fillSlot
  repeat' first
    | (with_reducible first | assumption | intro _ | apply devWrite_kept | apply Kept.c)
    | (with_reducible refine Kept.snd (by assumption) ?_)
    | (simp only [Kept.mk_iff])
    | split

end Sys2Proof.Machine
end

