-- ==== Sys2Proof/Laws/KeepQueueEngine.lean ====
section
/-!
SUPPORT. What the operations of Machine/QueueEngine.lean keep (Laws/Keep.lean).
-/

namespace Sys2Proof.Machine

set_option linter.unusedSimpArgs false

variable {v : View}

theorem hubWriteFor_kept {s : State} {who : Requester} {bulk : Bool} {a : Nat} {b : List Byte} (h : Kept v s) :
    Kept v (hubWriteFor s who bulk a b).2 := by
  unfold hubWriteFor
  repeat' first
    | (with_reducible first | assumption | intro _ | apply dcount_kept | apply devWrite_kept | apply Kept.c)
    | (with_reducible refine Kept.snd (by assumption) ?_)
    | (simp only [Kept.mk_iff])
    | split

theorem hubWrite_kept {s : State} {bulk : Bool} {a : Nat} {b : List Byte} (h : Kept v s) :
    Kept v (hubWrite s bulk a b).2 := by
  unfold hubWrite
  repeat' first
    | (with_reducible first | apply hubWriteFor_kept)
    | (with_reducible first | assumption | intro _ | apply devWrite_kept | apply Kept.c)
    | (with_reducible refine Kept.snd (by assumption) ?_)
    | (simp only [Kept.mk_iff])
    | split

theorem hubWrites_kept {s : State} {bulk : Bool} {a2 : List (Nat × List Byte)} (h : Kept v s) :
    Kept v (hubWrites s bulk a2).2 := by
  induction a2 generalizing s bulk with
  | nil =>
    unfold hubWrites
    repeat' first
      | (with_reducible first | assumption | intro _ | apply hubWrite_kept | apply Kept.c)
      | (with_reducible refine Kept.snd (by assumption) ?_)
      | (simp only [Kept.mk_iff])
      | split
  | cons x r ih =>
    unfold hubWrites
    repeat' first
      | (with_reducible first | assumption | intro _ | apply hubWrite_kept | apply ih | apply Kept.c)
      | (with_reducible refine Kept.snd (by assumption) ?_)
      | (simp only [Kept.mk_iff])
      | split

theorem ctxWriteBack_kept {s : State} {q : Nat} {c : QCtx} (h : Kept v s) :
    Kept v (ctxWriteBack s q c) := by
  unfold ctxWriteBack
  repeat' first
    | (with_reducible first | assumption | intro _ | apply hubWrites_kept | apply Kept.c)
    | (with_reducible refine Kept.snd (by assumption) ?_)
    | (simp only [Kept.mk_iff])
    | split

theorem putCtx_kept {s : State} {q : Nat} {c : QCtx} (h : Kept v s) :
    Kept v (putCtx s q c) := by
  unfold putCtx
  repeat' first
    | (with_reducible first | assumption | intro _ | apply ctxWriteBack_kept | apply Kept.c)
    | (simp only [Kept.mk_iff])
    | split

theorem dropCtx_kept {s : State} {q : Nat} (h : Kept v s) :
    Kept v (dropCtx s q) := by
  unfold dropCtx
  repeat' first
    | (with_reducible first | assumption | intro _ | apply Kept.c)
    | (simp only [Kept.mk_iff])
    | split

theorem loadCtx_kept {s : State} {q : Nat} (h : Kept v s) :
    Kept v (loadCtx s q).2 := by
  unfold loadCtx
  repeat' first
    | (with_reducible first | assumption | intro _ | apply putCtx_kept | apply devRead_kept | apply Kept.c)
    | (with_reducible refine Kept.snd (by assumption) ?_)
    | (simp only [Kept.mk_iff])
    | split

theorem setEnts_kept {s : State} {q : Nat} {l : List QEnt} (h : Kept v s) :
    Kept v (setEnts s q l) := by
  unfold setEnts
  repeat' first
    | (with_reducible first | assumption | intro _ | apply Kept.c)
    | (simp only [Kept.mk_iff])
    | split

theorem queueError_kept {s : State} {q : Nat} {code : Nat} {entry : Nat} (h : Kept v s) :
    Kept v (queueError s q code entry) := by
  unfold queueError
  repeat' first
    | (with_reducible first | apply loadCtx_kept)
    | (with_reducible first | assumption | intro _ | apply hubEvent_kept | apply putCtx_kept | apply Kept.c)
    | (with_reducible refine Kept.snd (by assumption) ?_)
    | (simp only [Kept.mk_iff])
    | split

theorem completionEvent_kept {s : State} {src : Nat} {q : Nat} {idx : Nat} {code : Nat} (h : Kept v s) :
    Kept v (completionEvent s src q idx code) := by
  unfold completionEvent
  repeat' first
    | (with_reducible first | assumption | intro _ | apply hubEvent_kept | apply Kept.c)
    | (simp only [Kept.mk_iff])
    | split

theorem completionWritten_kept {s : State} {q : Nat} {idx : Nat} {code : Nat} {src : Nat} {evt : Bool} {err : Option MemErr} (h : Kept v s) :
    Kept v (completionWritten s q idx code src evt err) := by
  unfold completionWritten
  repeat' first
    | (with_reducible first | assumption | intro _ | apply completionEvent_kept | apply queueError_kept)
    | (with_reducible first | apply Kept.c)
    | (simp only [Kept.mk_iff])
    | split

theorem putDone_kept {s : State} {q : Nat} {c : QCtx} {done : Nat} {ents : List QEnt} (h : Kept v s) :
    Kept v (putDone s q c done ents) := by
  unfold putDone
  repeat' first
    | (with_reducible first | assumption | intro _ | apply hubWrite_kept | apply putCtx_kept)
    | (with_reducible first | apply setEnts_kept | apply Kept.c)
    | (with_reducible refine Kept.snd (by assumption) ?_)
    | (simp only [Kept.mk_iff])
    | split

theorem completeEntry_kept {s : State} {q : Nat} {idx : Nat} {code : Nat} {info : Nat} {error : Nat} (h : Kept v s) :
    Kept v (completeEntry s q idx code info error) := by
  unfold completeEntry
  repeat' first
    | (with_reducible first | assumption | intro _ | apply hubEvent_kept | apply loadCtx_kept)
    | (with_reducible first | apply putCtx_kept | apply queueError_kept | apply toHost_kept)
    | (with_reducible first | apply completionWritten_kept | apply hubWriteFor_kept)
    | (with_reducible first | apply putDone_kept)
    | (with_reducible first | apply hubWrite_kept | apply setEnts_kept | apply Kept.c)
    | (with_reducible refine Kept.snd (by assumption) ?_)
    | (simp only [Kept.mk_iff])
    | split

theorem payOwed_kept {s : State} (h : Kept v s) :
    Kept v (payOwed s) := by
  unfold payOwed
  repeat' first
    | (with_reducible first | assumption | intro _ | apply Kept.foldl | apply Kept.foldlFst)
    | (with_reducible first | apply Kept.foldlSnd | apply completeEntry_kept | apply Kept.c)
    | (simp only [Kept.mk_iff])
    | split

theorem completionReply_kept {s : State} {q : Nat} {idx : Nat} {code : Nat} {evt : Bool} {err : Option MemErr} (h : Kept v s) :
    Kept v (completionReply s q idx code evt err) := by
  unfold completionReply
  repeat' first
    | (with_reducible first | assumption | intro _ | apply completionWritten_kept | apply loadCtx_kept)
    | (with_reducible first | apply Kept.c)
    | (with_reducible refine Kept.snd (by assumption) ?_)
    | (simp only [Kept.mk_iff])
    | split

theorem readJob_kept {s : State} {job : Nat} (h : Kept v s) :
    Kept v (readJob s job).2 := by
  unfold readJob
  repeat' first
    | (with_reducible first | assumption | intro _ | apply devRead_kept | apply Kept.c)
    | (with_reducible refine Kept.snd (by assumption) ?_)
    | (simp only [Kept.mk_iff])
    | split

theorem startJob_kept {s : State} {job : Nat} {d : JobDesc} (h : Kept v s) :
    Kept v (startJob s job d) := by
  unfold startJob
  repeat' first
    | (with_reducible first | assumption | intro _ | apply setJob_kept | apply Kept.c)
    | (simp only [Kept.mk_iff])
    | split

theorem setPhase_kept {s : State} {q : Nat} {idx : Nat} {p : EntPhase} (h : Kept v s) :
    Kept v (setPhase s q idx p) := by
  unfold setPhase
  repeat' first
    | (with_reducible first | assumption | intro _ | apply setEnts_kept | apply Kept.c)
    | (simp only [Kept.mk_iff])
    | split

theorem strandEvent_kept {s : State} {q : Nat} {src : Nat} {queue : Nat} {entry : Nat} {j : Nat} {code : Nat} {val : Nat} (h : Kept v s) :
    Kept v (strandEvent s q src queue entry j code val) := by
  unfold strandEvent
  repeat' first
    | (with_reducible first | assumption | intro _ | apply localEvent_kept | apply Kept.c)
    | (simp only [Kept.mk_iff])
    | split

theorem alignEvent_kept {s : State} {q : Nat} {c : QCtx} {e : QEnt} (h : Kept v s) :
    Kept v (alignEvent s q c e) := by
  unfold alignEvent
  repeat' first
    | (with_reducible first | assumption | intro _ | apply drawFree_kept | apply hubEvent_kept)
    | (with_reducible first | apply strandEvent_kept | apply Kept.c)
    | (with_reducible refine Kept.snd (by assumption) ?_)
    | (simp only [Kept.mk_iff])
    | split

theorem startStrand_kept {s : State} {q : Nat} {c : QCtx} {e : QEnt} (h : Kept v s) :
    Kept v (startStrand s q c e) := by
  unfold startStrand
  repeat' first
    | (with_reducible first | assumption | intro _ | apply setPhase_kept | apply completeEntry_kept)
    | (with_reducible first | apply alignEvent_kept)
    | (with_reducible first | apply Kept.c)
    | (simp only [Kept.mk_iff])
    | split

theorem sendKnotEntry_kept {s : State} {q : Nat} {d : JobDesc} {e : QEnt} (h : Kept v s) :
    Kept v (sendKnotEntry s q d e) := by
  unfold sendKnotEntry
  repeat' first
    | (with_reducible first | assumption | intro _ | apply knotUpdate_kept | apply setEnts_kept | apply Kept.c)
    | (simp only [Kept.mk_iff])
    | split

theorem sendKnotEntries_go_kept {q : Nat} {d : JobDesc} {s : State} {l : List QEnt} (h : Kept v s) :
    Kept v (sendKnotEntries.go q d s l) := by
  induction l generalizing s with
  | nil => exact h
  | cons x r ih =>
    unfold sendKnotEntries.go
    repeat' first
      | (with_reducible first | assumption | intro _ | apply ih | apply sendKnotEntry_kept)
      | (simp only [Kept.mk_iff])
      | split

theorem sendKnotEntries_kept {s : State} {q : Nat} {d : JobDesc} (h : Kept v s) :
    Kept v (sendKnotEntries s q d) := by
  unfold sendKnotEntries
  exact sendKnotEntries_go_kept h

theorem startNext_kept {s : State} {q : Nat} (h : Kept v s) :
    KeptO v (startNext s q) := by
  unfold startNext
  repeat' first
    | (with_reducible first | assumption | intro _ | exact KeptO.none | apply KeptO.some)
    | (with_reducible first | apply sendKnotEntries_kept | apply startStrand_kept | apply readJob_kept)
    | (with_reducible first | apply queueError_kept | apply setPhase_kept | apply completeEntry_kept)
    | (with_reducible first | apply loadCtx_kept)
    | (with_reducible first | apply startJob_kept | apply Kept.c)
    | (with_reducible refine Kept.snd (by assumption) ?_)
    | (simp only [Kept.mk_iff])
    | split

theorem kickFuel_kept {q : Nat} {fuel : Nat} {a2 : State} (h : Kept v a2) :
    Kept v (kickFuel q fuel a2) := by
  induction fuel generalizing q a2 with
  | zero =>
    unfold kickFuel
    repeat' first
      | (with_reducible first | assumption | intro _ | apply startNext_kept | apply Kept.c)
      | (with_reducible refine KeptO.use (by assumption) ?_)
      | (simp only [Kept.mk_iff])
      | split
  | succ n ih =>
    unfold kickFuel
    repeat' first
      | (with_reducible first | assumption | intro _ | apply startNext_kept | apply ih | apply Kept.c)
      | (with_reducible refine KeptO.use (by assumption) ?_)
      | (simp only [Kept.mk_iff])
      | split

theorem kickQueue_kept {s : State} {q : Nat} (h : Kept v s) :
    Kept v (kickQueue s q) := by
  unfold kickQueue
  repeat' first
    | (with_reducible first | assumption | intro _ | apply sendKnotEntries_kept | apply readJob_kept)
    | (with_reducible first | apply loadCtx_kept)
    | (with_reducible first | apply kickFuel_kept | apply Kept.c)
    | (with_reducible refine Kept.snd (by assumption) ?_)
    | (simp only [Kept.mk_iff])
    | split

theorem kickAll_kept {s : State} (h : Kept v s) :
    Kept v (kickAll s) := by
  unfold kickAll
  repeat' first
    | (with_reducible first | assumption | intro _ | apply Kept.foldl | apply Kept.foldlFst)
    | (with_reducible first | apply Kept.foldlSnd | apply kickQueue_kept | apply Kept.c)
    | (simp only [Kept.mk_iff])
    | split

theorem bar0Drop_kept {s : State} (h : Kept v s) :
    Kept v (bar0Drop s) := by
  unfold bar0Drop
  repeat' first
    | (with_reducible first | assumption | intro _ | apply hubEvent_kept | apply dcount_kept | apply Kept.c)
    | (simp only [Kept.mk_iff])
    | split

theorem setResult_kept {s : State} {strand : Bool} {result : Nat} {cmd : Nat} {entry : Nat} {q : Nat} (h : Kept v s) :
    Kept v (setResult s strand result cmd entry q) := by
  unfold setResult
  repeat' first
    | (with_reducible first | assumption | intro _ | apply Kept.c)
    | (simp only [Kept.mk_iff])
    | split

theorem doorbell_kept {s : State} {a1 : Nat} (h : Kept v s) :
    Kept v (doorbell s a1) := by
  unfold doorbell
  repeat' first
    | (with_reducible first | assumption | intro _ | apply hubEvent_kept | apply loadCtx_kept)
    | (with_reducible first | apply putCtx_kept | apply dcount_kept | apply queueError_kept | apply Kept.c)
    | (with_reducible refine Kept.snd (by assumption) ?_)
    | (simp only [Kept.mk_iff])
    | split

theorem enableQueue_kept {s : State} {q : Nat} (h : Kept v s) :
    Kept v (enableQueue s q) := by
  unfold enableQueue
  repeat' first
    | (with_reducible first | assumption | intro _ | apply setResult_kept | apply kickQueue_kept)
    | (with_reducible first | apply loadCtx_kept | apply putCtx_kept | apply queueError_kept)
    | (with_reducible first | apply devRead_kept | apply bar0Drop_kept | apply Kept.c)
    | (with_reducible refine Kept.snd (by assumption) ?_)
    | (simp only [Kept.mk_iff])
    | split

theorem cancelEntries_kept {s : State} {q : Nat} {a2 : List Nat} (h : Kept v s) :
    Kept v (cancelEntries s q a2) := by
  induction a2 generalizing s q with
  | nil =>
    unfold cancelEntries
    repeat' first
      | (with_reducible first | assumption | intro _ | apply completeEntry_kept | apply Kept.c)
      | (simp only [Kept.mk_iff])
      | split
  | cons x r ih =>
    unfold cancelEntries
    repeat' first
      | (with_reducible first | assumption | intro _ | apply completeEntry_kept | apply ih | apply Kept.c)
      | (simp only [Kept.mk_iff])
      | split

theorem disableQueue_kept {s : State} {q : Nat} (h : Kept v s) :
    Kept v (disableQueue s q) := by
  unfold disableQueue
  repeat' first
    | (with_reducible first | assumption | intro _ | apply setResult_kept | apply loadCtx_kept)
    | (with_reducible first | apply putCtx_kept | apply cancelEntries_kept | apply ctxWriteBack_kept)
    | (with_reducible first | apply dropCtx_kept)
    | (with_reducible first | apply setEnts_kept | apply bar0Drop_kept | apply Kept.c)
    | (with_reducible refine Kept.snd (by assumption) ?_)
    | (simp only [Kept.mk_iff])
    | split

theorem flushQueue_kept {s : State} {q : Nat} (h : Kept v s) :
    Kept v (flushQueue s q) := by
  unfold flushQueue
  repeat' first
    | (with_reducible first | assumption | intro _ | apply setResult_kept | apply loadCtx_kept)
    | (with_reducible first | apply ctxWriteBack_kept | apply bar0Drop_kept | apply Kept.c)
    | (with_reducible refine Kept.snd (by assumption) ?_)
    | (simp only [Kept.mk_iff])
    | split

/-- Where a queue may fetch, loading its context has kept what it keeps. -/
theorem canFetch_kept {s t : State} {q n : Nat} {c : QCtx} (e : canFetch s q = some (c, n, t)) (h : Kept v s) : Kept v t := by
  unfold canFetch at e
  split at e
  · cases e
  · next s1 he =>
    split at e
    · cases e
    · cases e
      exact Kept.snd he (loadCtx_kept h)

theorem entryFetchReturn_kept {s : State} {q : Nat} {host : Option (List Byte)} (h : Kept v s) :
    Kept v (entryFetchReturn s q host) := by
  unfold entryFetchReturn
  repeat' first
    | (with_reducible first | assumption | intro _ | apply kickQueue_kept | apply putCtx_kept)
    | (with_reducible first | apply queueError_kept | apply toHost_kept | apply setEnts_kept)
    | (with_reducible first | apply sendAer_kept)
    | (with_reducible first | apply devRead_kept | apply Kept.c)
    | (with_reducible refine Kept.snd (by assumption) ?_)
    | (with_reducible refine canFetch_kept (by assumption) ?_)
    | (simp only [Kept.mk_iff])
    | split

theorem copyDev_kept {bulk : Bool} {atoms : Nat} {a2 : State} {a3 : Nat} {a4 : Nat} {a5 : Nat} (h : Kept v a2) :
    Kept v (copyDev bulk atoms a2 a3 a4 a5).2.2 := by
  induction atoms generalizing bulk a2 a3 a4 a5 with
  | zero =>
    unfold copyDev
    repeat' first
      | (with_reducible first | assumption | intro _ | apply devRead_kept | apply devWrite_kept | apply Kept.c)
      | (with_reducible refine Kept.snd (by assumption) ?_)
      | (simp only [Kept.mk_iff])
      | split
  | succ n ih =>
    unfold copyDev
    repeat' first
      | (with_reducible first | assumption | intro _ | apply devRead_kept | apply devWrite_kept | apply ih | apply Kept.c)
      | (with_reducible refine Kept.snd (by assumption) ?_)
      | (simp only [Kept.mk_iff])
      | split

theorem copyIn_kept {bulk : Bool} {atoms : Nat} {a2 : State} {a3 : Nat} {a4 : List Byte} {a5 : Nat} (h : Kept v a2) :
    Kept v (copyIn bulk atoms a2 a3 a4 a5).2.2 := by
  induction atoms generalizing bulk a2 a3 a4 a5 with
  | zero =>
    unfold copyIn
    repeat' first
      | (with_reducible first | assumption | intro _ | apply devWrite_kept | apply Kept.c)
      | (with_reducible refine Kept.snd (by assumption) ?_)
      | (simp only [Kept.mk_iff])
      | split
  | succ n ih =>
    unfold copyIn
    repeat' first
      | (with_reducible first | assumption | intro _ | apply devWrite_kept | apply ih | apply Kept.c)
      | (with_reducible refine Kept.snd (by assumption) ?_)
      | (simp only [Kept.mk_iff])
      | split

theorem finishCopy_kept {s : State} {q : Nat} {c : QCtx} {e : QEnt} {err : Option MemErr} {written : Nat} (h : Kept v s) :
    Kept v (finishCopy s q c e err written) := by
  unfold finishCopy
  repeat' first
    | (with_reducible first | assumption | intro _ | apply completeEntry_kept | apply kickQueue_kept)
    | (with_reducible first | apply knotUpdate_kept | apply Kept.c)
    | (simp only [Kept.mk_iff])
    | split

theorem copyComplete_kept {s : State} {q : Nat} {idx : Nat} {host : Option (List Byte)} (h : Kept v s) :
    Kept v (copyComplete s q idx host) := by
  unfold copyComplete
  repeat' first
    | (with_reducible first | assumption | intro _ | apply copyDev_kept | apply copyIn_kept)
    | (with_reducible first | apply devRead_kept | apply finishCopy_kept | apply loadCtx_kept)
    | (with_reducible first | apply sendAer_kept | apply toHost_kept | apply Kept.c)
    | (with_reducible refine KeptC.mix ?_ (Kept.trd (by assumption) ?_))
    | (with_reducible refine Kept.snd (by assumption) ?_)
    | (with_reducible refine Kept.trd (by assumption) ?_)
    | (simp only [Kept.mk_iff])
    | split

theorem pcieTimeout_kept {s : State} {q : Nat} {copy : Option Nat} (h : Kept v s) :
    Kept v (pcieTimeout s q copy) := by
  unfold pcieTimeout
  repeat' first
    | (with_reducible first | assumption | intro _ | apply finishCopy_kept | apply queueError_kept)
    | (with_reducible first | apply loadCtx_kept | apply sendAer_kept)
    | (with_reducible first | apply toHost_kept | apply Kept.c)
    | (with_reducible refine Kept.snd (by assumption) ?_)
    | (with_reducible refine canFetch_kept (by assumption) ?_)
    | (simp only [Kept.mk_iff])
    | split

end Sys2Proof.Machine
end

