-- ==== Sys2Proof/Laws/KeepStrand.lean ====
section
/-!
SUPPORT. What the operations of Machine/Strand.lean keep (Laws/Keep.lean).
-/

namespace Sys2Proof.Machine

set_option linter.unusedSimpArgs false

variable {v : View}

theorem setSeq_kept {s : State} {q : Nat} {r : Seqr} (h : Kept v s) :
    Kept v (setSeq s q r) := by
  unfold setSeq
  repeat' first
    | (with_reducible first | assumption | intro _ | apply Kept.c)
    | (simp only [Kept.mk_iff])
    | split

theorem setStrand_kept {s : State} {q : Nat} {st : Option Strand} (h : Kept v s) :
    Kept v (setStrand s q st) := by
  unfold setStrand
  repeat' first
    | (with_reducible first | assumption | intro _ | apply setSeq_kept | apply Kept.c)
    | (simp only [Kept.mk_iff])
    | split

theorem setCluster_kept {s : State} {c : Nat} {p : ClusterPw} (h : Kept v s) :
    Kept v (setCluster s c p) := by
  unfold setCluster
  repeat' first
    | (with_reducible first | assumption | intro _ | apply Kept.c)
    | (simp only [Kept.mk_iff])
    | split

theorem seqEvent_kept {s : State} {q : Nat} {st : Strand} {j : Nat} {code : Nat} {val : Nat} (h : Kept v s) :
    Kept v (seqEvent s q st j code val) := by
  unfold seqEvent
  repeat' first
    | (with_reducible first | apply strandEvent_kept)
    | (with_reducible first | assumption | intro _ | apply localEvent_kept | apply Kept.c)
    | (simp only [Kept.mk_iff])
    | split

theorem seqRequest_kept {s : State} {q : Nat} {addr : Nat} {len : Nat} {w : Option (List Byte)} (h : Kept v s) :
    Kept v (seqRequest s q addr len w) := by
  unfold seqRequest
  repeat' first
    | (with_reducible first | apply setSeq_kept)
    | (with_reducible first | assumption | intro _ | apply Kept.c)
    | (simp only [Kept.mk_iff])
    | split

theorem writeEnergy_kept {s : State} {slot : Nat} (h : Kept v s) :
    Kept v (writeEnergy s slot) := by
  unfold writeEnergy
  repeat' first
    | (with_reducible first | assumption | intro _ | apply hubWrite_kept | apply devRead_kept)
    | (with_reducible first | apply drawFree_kept | apply Kept.c)
    | (with_reducible refine Kept.snd (by assumption) ?_)
    | (simp only [Kept.mk_iff])
    | split

theorem reportEnd_kept {s : State} {q : Nat} {st : Strand} {code : Nat} {info : Nat} {error : Nat} (h : Kept v s) :
    Kept v (reportEnd s q st code info error) := by
  unfold reportEnd
  repeat' first
    | (with_reducible first | assumption | intro _ | apply seqEvent_kept | apply kickQueue_kept)
    | (with_reducible first | apply writeEnergy_kept | apply completeEntry_kept | apply Kept.c)
    | (simp only [Kept.mk_iff])
    | split

theorem endStrand_kept {s : State} {q : Nat} {code : Nat} {error : Nat} (h : Kept v s) :
    Kept v (endStrand s q code error) := by
  unfold endStrand
  repeat' first
    | (with_reducible first | assumption | intro _ | apply reportEnd_kept | apply setStrand_kept | apply Kept.c)
    | (simp only [Kept.mk_iff])
    | split

theorem arrive_kept {s : State} {q : Nat} (h : Kept v s) :
    Kept v (arrive s q) := by
  unfold arrive
  repeat' first
    | (with_reducible first | assumption | intro _ | apply seqRequest_kept | apply endStrand_kept)
    | (with_reducible first | apply setStrand_kept | apply Kept.c)
    | (simp only [Kept.mk_iff])
    | split

theorem goTo_kept {s : State} {q : Nat} {st : Strand} {pc : Word} (h : Kept v s) :
    Kept v (goTo s q st pc) := by
  unfold goTo
  repeat' first
    | (with_reducible first | assumption | intro _ | apply arrive_kept | apply setStrand_kept | apply Kept.c)
    | (simp only [Kept.mk_iff])
    | split

theorem next_kept {s : State} {q : Nat} {st : Strand} (h : Kept v s) :
    Kept v (next s q st) := by
  unfold next
  repeat' first
    | (with_reducible first | assumption | intro _ | apply goTo_kept | apply Kept.c)
    | (simp only [Kept.mk_iff])
    | split

theorem seqFault_kept {s : State} {q : Nat} {inj : Bool} (h : Kept v s) :
    Kept v (seqFault s q inj) := by
  unfold seqFault
  repeat' first
    | (with_reducible first | assumption | intro _ | apply raiseFault_kept | apply Kept.c)
    | (simp only [Kept.mk_iff])
    | split

theorem execWord_kept {s : State} {q : Nat} {w : Nat} {f : State → Strand → State} (h : Kept v s) (hf : ∀ t x, Kept v t → Kept v (f t x)) :
    Kept v (execWord s q w f) := by
  unfold execWord
  repeat' first
    | (with_reducible first | assumption | intro _ | apply endStrand_kept | apply takeHit_kept)
    | (with_reducible first | apply seqFault_kept | apply hf | apply Kept.c)
    | (with_reducible refine Kept.snd (by assumption) ?_)
    | (simp only [Kept.mk_iff])
    | split

theorem stopHeld_kept {s : State} {q : Nat} {st : Strand} (h : Kept v s) :
    KeptO v (stopHeld s q st) := by
  unfold stopHeld
  repeat' first
    | (with_reducible first | assumption | intro _ | exact KeptO.none | apply KeptO.some | apply seqEvent_kept)
    | (with_reducible first | apply setStrand_kept | apply Kept.c)
    | (simp only [Kept.mk_iff])
    | split

theorem knotInstr_kept {s : State} {q : Nat} {st : Strand} {n : Word} {bcast : Bool} {isSet : Bool} {val : Nat} (h : Kept v s) :
    Kept v (knotInstr s q st n bcast isSet val) := by
  unfold knotInstr
  repeat' first
    | (with_reducible first | assumption | intro _ | apply endStrand_kept | apply knotUpdate_kept)
    | (with_reducible first | apply next_kept | apply stopHeld_kept | apply Kept.c)
    | (with_reducible refine KeptO.use (by assumption) ?_)
    | (simp only [Kept.mk_iff])
    | split

theorem waitInstr_kept {s : State} {q : Nat} {st : Strand} {n : Word} {target : Nat} (h : Kept v s) :
    Kept v (waitInstr s q st n target) := by
  unfold waitInstr
  repeat' first
    | (with_reducible first | assumption | intro _ | apply seqEvent_kept | apply endStrand_kept)
    | (with_reducible first | apply next_kept | apply setStrand_kept | apply stopHeld_kept | apply Kept.c)
    | (with_reducible refine KeptO.use (by assumption) ?_)
    | (simp only [Kept.mk_iff])
    | split

theorem wakeSeq_kept {s : State} {q : Nat} (h : Kept v s) :
    Kept v (wakeSeq s q) := by
  unfold wakeSeq
  repeat' first
    | (with_reducible first | assumption | intro _ | apply next_kept | apply Kept.c)
    | (simp only [Kept.mk_iff])
    | split

theorem wakeAll_kept {s : State} (h : Kept v s) :
    Kept v (wakeAll s) := by
  unfold wakeAll
  repeat' first
    | (with_reducible first | assumption | intro _ | apply Kept.foldl | apply Kept.foldlFst)
    | (with_reducible first | apply Kept.foldlSnd | apply wakeSeq_kept | apply Kept.c)
    | (simp only [Kept.mk_iff])
    | split

theorem holdStrand_kept {s : State} {q : Nat} {cause : Nat} (h : Kept v s) :
    Kept v (holdStrand s q cause) := by
  unfold holdStrand
  repeat' first
    | (with_reducible first | assumption | intro _ | apply setStrand_kept | apply Kept.c)
    | (simp only [Kept.mk_iff])
    | split

theorem holdOwner_kept {s : State} {q : Nat} {entry : Nat} {cause : Nat} (h : Kept v s) :
    Kept v (holdOwner s q entry cause) := by
  unfold holdOwner
  repeat' first
    | (with_reducible first | assumption | intro _ | apply holdStrand_kept | apply Kept.c)
    | (simp only [Kept.mk_iff])
    | split

theorem entryApplied_kept {s : State} {ent : Option Nat} (h : Kept v s) :
    Kept v (entryApplied s ent) := by
  unfold entryApplied
  repeat' first
    | (with_reducible first | assumption | intro _ | apply completeEntry_kept | apply Kept.c)
    | (simp only [Kept.mk_iff])
    | split

theorem knotCredit_kept {s : State} {m : KnotMsg} (h : Kept v s) :
    Kept v (knotCredit s m) := by
  unfold knotCredit
  repeat' first
    | (with_reducible first | apply emberCredit_kept)
    | (with_reducible first | assumption | intro _ | apply Kept.c)
    | (simp only [Kept.mk_iff])
    | split

theorem tieHeld_kept {s : State} {m : KnotMsg} (h : Kept v s) :
    Kept v (tieHeld s m) := by
  unfold tieHeld
  repeat' first
    | (with_reducible first | apply holdOwner_kept)
    | (with_reducible first | assumption | intro _ | apply holdStrand_kept | apply Kept.c)
    | (simp only [Kept.mk_iff])
    | split

theorem knotAsh_kept {s : State} {m : KnotMsg} (h : Kept v s) :
    Kept v (knotAsh s m) := by
  unfold knotAsh
  repeat' first
    | (with_reducible first | assumption | intro _ | apply holdStrand_kept | apply dcount_kept)
    | (with_reducible first | apply tieHeld_kept)
    | (with_reducible first | apply localEvent_kept | apply setEnts_kept | apply Kept.c)
    | (simp only [Kept.mk_iff])
    | split

theorem knotPoisoned_kept {s : State} {m : KnotMsg} (h : Kept v s) :
    Kept v (knotPoisoned s m) := by
  unfold knotPoisoned
  repeat' first
    | (with_reducible first | assumption | intro _ | apply Kept.foldl | apply Kept.foldlFst)
    | (with_reducible first | apply Kept.foldlSnd | apply raiseFault_kept | apply holdStrand_kept)
    | (with_reducible first | apply tieHeld_kept | apply localEvent_kept | apply Kept.c)
    | (simp only [Kept.mk_iff])
    | split

theorem knotArrive_kept {s : State} {i : Nat} {isSet : Bool} (h : Kept v s) :
    Kept v (knotArrive s i isSet) := by
  unfold knotArrive
  repeat' first
    | (with_reducible first | assumption | intro _ | apply entryApplied_kept | apply wakeAll_kept)
    | (with_reducible first | apply tieHeld_kept | apply knotAsh_kept | apply knotPoisoned_kept)
    | (with_reducible first | apply takeHit_kept | apply checkBoundary_kept | apply kickAll_kept)
    | (with_reducible first | apply knotCredit_kept | apply Kept.c)
    | (with_reducible refine Kept.snd (by assumption) ?_)
    | (simp only [Kept.mk_iff])
    | split

theorem loadInstr_kept {s : State} {q : Nat} {st : Strand} {addr : Word} {dst : Nat} (h : Kept v s) :
    Kept v (loadInstr s q st addr dst) := by
  unfold loadInstr
  repeat' first
    | (with_reducible first | assumption | intro _ | apply seqRequest_kept | apply endStrand_kept)
    | (with_reducible first | apply setStrand_kept | apply Kept.c)
    | (simp only [Kept.mk_iff])
    | split

theorem storeInstr_kept {s : State} {q : Nat} {st : Strand} {addr : Word} {a4 : Word} (h : Kept v s) :
    Kept v (storeInstr s q st addr a4) := by
  unfold storeInstr
  repeat' first
    | (with_reducible first | assumption | intro _ | apply seqRequest_kept | apply endStrand_kept)
    | (with_reducible first | apply setStrand_kept | apply Kept.c)
    | (simp only [Kept.mk_iff])
    | split

theorem seqReply_kept {s : State} {q : Nat} {no : Nat} {a : MemAnswer} (h : Kept v s) :
    Kept v (seqReply s q no a) := by
  unfold seqReply
  repeat' first
    | (with_reducible first | assumption | intro _ | apply arrive_kept | apply endStrand_kept)
    | (with_reducible first | apply next_kept | apply setStrand_kept | apply Kept.c)
    | (simp only [Kept.mk_iff])
    | split

theorem requestReply_kept {s : State} {i : Nat} (h : Kept v s) :
    Kept v (requestReply s i) := by
  unfold requestReply
  repeat' first
    | (with_reducible first | apply completionReply_kept)
    | (with_reducible first | assumption | intro _ | apply dcount_kept | apply seqReply_kept | apply Kept.c)
    | (simp only [Kept.mk_iff])
    | split

theorem ladrInstr_kept {s : State} {q : Nat} {st : Strand} {slot : Word} {fn : Nat} {dst : Nat} (h : Kept v s) :
    Kept v (ladrInstr s q st slot fn dst) := by
  unfold ladrInstr
  repeat' first
    | (with_reducible first | assumption | intro _ | apply endStrand_kept | apply next_kept | apply devRead_kept)
    | (with_reducible first | apply Kept.c)
    | (with_reducible refine Kept.snd (by assumption) ?_)
    | (simp only [Kept.mk_iff])
    | split

theorem sealOver_kept {s : State} {q : Nat} (h : Kept v s) :
    Kept v (sealOver s q) := by
  unfold sealOver
  repeat' first
    | (with_reducible first | assumption | intro _ | apply next_kept | apply Kept.c)
    | (simp only [Kept.mk_iff])
    | split

theorem sealTag_kept {s : State} {q : Nat} {st : Strand} {t : Nat} {dst : Nat} (h : Kept v s) :
    Kept v (sealTag s q st t dst) := by
  unfold sealTag
  repeat' first
    | (with_reducible first | assumption | intro _ | apply next_kept | apply setStrand_kept)
    | (with_reducible first | apply sealOver_kept | apply Kept.c)
    | (simp only [Kept.mk_iff])
    | split

theorem sealAll_kept {s : State} {q : Nat} {st : Strand} {dst : Nat} (h : Kept v s) :
    Kept v (sealAll s q st dst) := by
  unfold sealAll
  repeat' first
    | (with_reducible first | assumption | intro _ | apply setStrand_kept | apply sealOver_kept | apply Kept.c)
    | (simp only [Kept.mk_iff])
    | split

theorem writeRecord_kept {s : State} {q : Nat} {a : Nat} {b : List Byte} (h : Kept v s) :
    Kept v (writeRecord s q a b) := by
  unfold writeRecord
  repeat' first
    | (with_reducible first | assumption | intro _ | apply devWrite_kept | apply Kept.c)
    | (with_reducible refine Kept.snd (by assumption) ?_)
    | (simp only [Kept.mk_iff])
    | split

theorem saveStrand_kept {s : State} {q : Nat} {st : Strand} (h : Kept v s) :
    KeptO v (saveStrand s q st) := by
  unfold saveStrand
  repeat' first
    | (with_reducible first | assumption | intro _ | exact KeptO.none | apply KeptO.some | apply setStrand_kept)
    | (with_reducible first | apply writeRecord_kept)
    | (with_reducible first | apply devWrite_kept | apply Kept.c)
    | (with_reducible refine Kept.snd (by assumption) ?_)
    | (simp only [Kept.mk_iff])
    | split

theorem yieldInstr_kept {s : State} {q : Nat} {st : Strand} (h : Kept v s) :
    Kept v (yieldInstr s q st) := by
  unfold yieldInstr
  repeat' first
    | (with_reducible first | assumption | intro _ | apply saveStrand_kept | apply next_kept | apply Kept.c)
    | (with_reducible refine KeptO.use (by assumption) ?_)
    | (simp only [Kept.mk_iff])
    | split

theorem resumeSaved_kept {s : State} {a1 : Saved} (h : Kept v s) :
    Kept v (resumeSaved s a1) := by
  unfold resumeSaved
  repeat' first
    | (with_reducible first | assumption | intro _ | apply Kept.foldl | apply Kept.foldlFst)
    | (with_reducible first | apply Kept.foldlSnd | apply arrive_kept | apply wakeSeq_kept)
    | (with_reducible first | apply endStrand_kept | apply devRead_kept | apply setStrand_kept)
    | (with_reducible first | apply sealOver_kept | apply Kept.c)
    | (with_reducible refine Kept.snd (by assumption) ?_)
    | (simp only [Kept.mk_iff])
    | split

theorem startOn_kept {s : State} {q : Nat} {w : WorkItem} (h : Kept v s) :
    Kept v (startOn s q w) := by
  unfold startOn
  repeat' first
    | (with_reducible first | assumption | intro _ | apply arrive_kept | apply setStrand_kept | apply Kept.c)
    | (simp only [Kept.mk_iff])
    | split

theorem tieDone_kept {s : State} {o : OpRec} {d : JobDesc} (h : Kept v s) :
    Kept v (tieDone s o d) := by
  unfold tieDone
  repeat' first
    | (with_reducible first | assumption | intro _ | apply knotUpdate_kept | apply Kept.c)
    | (simp only [Kept.mk_iff])
    | split

theorem opCommit_kept {s : State} {o : OpRec} (h : Kept v s) :
    Kept v (opCommit s o) := by
  unfold opCommit
  repeat' first
    | (with_reducible first | apply Kept.foldl | apply Kept.foldlFst)
    | (with_reducible first | apply Kept.foldlSnd)
    | (with_reducible first | assumption | intro _ | apply setJob_kept | apply tallyDie_kept | apply Kept.c)
    | (simp only [Kept.mk_iff])
    | split

theorem failureEvent_kept {s : State} {o : OpRec} (h : Kept v s) :
    Kept v (failureEvent s o) := by
  unfold failureEvent
  repeat' first
    | (with_reducible first | assumption | intro _ | apply drawFree_kept | apply strandEvent_kept)
    | (with_reducible first | apply Kept.c)
    | (with_reducible refine Kept.snd (by assumption) ?_)
    | (simp only [Kept.mk_iff])
    | split

theorem operationComplete_kept {s : State} {k : Nat} (h : Kept v s) :
    Kept v (operationComplete s k) := by
  unfold operationComplete
  repeat' first
    | (with_reducible first | assumption | intro _ | apply setOp_kept | apply tieDone_kept)
    | (with_reducible first | apply failureEvent_kept)
    | (with_reducible first | apply setStrand_kept | apply opCommit_kept | apply sealOver_kept | apply Kept.c)
    | (simp only [Kept.mk_iff])
    | split

theorem tieWithheld_kept {s : State} {st : Strand} (h : Kept v s) :
    Kept v (tieWithheld s st) := by
  unfold tieWithheld
  repeat' first
    | (with_reducible first | assumption | intro _ | apply Kept.foldl | apply Kept.foldlFst)
    | (with_reducible first | apply Kept.foldlSnd | apply knotUpdate_kept | apply Kept.c)
    | (simp only [Kept.mk_iff])
    | split

theorem resumeStrand_kept {s : State} {q : Nat} {entry : Nat} (h : Kept v s) :
    Kept v (resumeStrand s q entry) := by
  unfold resumeStrand
  repeat' first
    | (with_reducible first | assumption | intro _ | apply setResult_kept | apply setStrand_kept)
    | (with_reducible first | apply bar0Drop_kept | apply tieWithheld_kept | apply Kept.c)
    | (simp only [Kept.mk_iff])
    | split

theorem endCommand_kept {s : State} {q : Nat} {entry : Nat} (h : Kept v s) :
    Kept v (endCommand s q entry) := by
  unfold endCommand
  repeat' first
    | (with_reducible first | assumption | intro _ | apply reportEnd_kept | apply setResult_kept)
    | (with_reducible first | apply endStrand_kept | apply bar0Drop_kept | apply Kept.c)
    | (simp only [Kept.mk_iff])
    | split

end Sys2Proof.Machine
end

