-- ==== Sys2Proof/Laws/KeepVector.lean ====
section
/-!
SUPPORT. What the operations of Machine/Vector.lean keep (Laws/Keep.lean).
-/

namespace Sys2Proof.Machine

set_option linter.unusedSimpArgs false

variable {v : View}

theorem readSkein_kept {s : State} {a1 : Via} {t : Tensor} {js : List Nat} (h : Kept v s) :
    Kept v (readSkein s a1 t js).2 := by
  unfold readSkein
  repeat' first
    | (with_reducible first | assumption | intro _ | apply Kept.foldl | apply Kept.foldlFst)
    | (with_reducible first | apply misalign_kept)
    | (with_reducible first | apply Kept.foldlSnd | apply readMany_kept | apply Kept.c)
    | (with_reducible refine Kept.snd (by assumption) ?_)
    | (simp only [Kept.mk_iff])
    | split

theorem readElems_kept {s : State} {a1 : Via} {t : Tensor} {js : List Nat} (h : Kept v s) :
    Kept v (readElems s a1 t js).2 := by
  unfold readElems
  repeat' first
    | (with_reducible first | assumption | intro _ | apply readSkein_kept | apply readMany_kept | apply Kept.c)
    | (with_reducible refine Kept.snd (by assumption) ?_)
    | (simp only [Kept.mk_iff])
    | split

theorem readOpt_kept {s : State} {a1 : Via} {t : Option Tensor} {js : List Nat} (h : Kept v s) :
    Kept v (readOpt s a1 t js).2 := by
  unfold readOpt
  repeat' first
    | (with_reducible first | assumption | intro _ | apply readElems_kept | apply Kept.c)
    | (with_reducible refine Kept.snd (by assumption) ?_)
    | (simp only [Kept.mk_iff])
    | split

theorem vecPart_kept {s : State} {a1 : Via} {o : OpRec} {y : Tensor} {js : List Nat} (h : Kept v s) :
    Kept v (vecPart s a1 o y js).2 := by
  unfold vecPart
  repeat' first
    | (with_reducible first | assumption | intro _ | apply readOpt_kept | apply Kept.c)
    | (with_reducible refine Kept.snd (by assumption) ?_)
    | (simp only [Kept.mk_iff])
    | split

theorem reduceAll_kept {s : State} {a1 : Via} {x : Tensor} {y : TD} {axis : Nat} {rop : Nat} {js : List Nat} (h : Kept v s) :
    Kept v (reduceAll s a1 x y axis rop js).2 := by
  unfold reduceAll
  repeat' first
    | (with_reducible first | assumption | intro _ | apply readElems_kept | apply Kept.c)
    | (with_reducible refine Kept.snd (by assumption) ?_)
    | (simp only [Kept.mk_iff])
    | split

theorem reducePart_kept {s : State} {a1 : Via} {o : OpRec} {y : Tensor} {js : List Nat} (h : Kept v s) :
    Kept v (reducePart s a1 o y js).2 := by
  unfold reducePart
  repeat' first
    | (with_reducible first | assumption | intro _ | apply reduceAll_kept | apply Kept.c)
    | (with_reducible refine Kept.snd (by assumption) ?_)
    | (simp only [Kept.mk_iff])
    | split

theorem convertPart_kept {s : State} {a1 : Via} {o : OpRec} {y : Tensor} {js : List Nat} (h : Kept v s) :
    Kept v (convertPart s a1 o y js).2 := by
  unfold convertPart
  repeat' first
    | (with_reducible first | assumption | intro _ | apply readOpt_kept | apply Kept.c)
    | (with_reducible refine Kept.snd (by assumption) ?_)
    | (simp only [Kept.mk_iff])
    | split

theorem readIndex_kept {s : State} {a1 : Via} {o : OpRec} (h : Kept v s) :
    Kept v (readIndex s a1 o).2 := by
  unfold readIndex
  repeat' first
    | (with_reducible first | assumption | intro _ | apply readMany_kept | apply Kept.c)
    | (with_reducible refine Kept.snd (by assumption) ?_)
    | (simp only [Kept.mk_iff])
    | split

theorem copyPart_kept {s : State} {a1 : Via} {x : Tensor} {y : Tensor} {ps : List (Nat × Nat)} (h : Kept v s) :
    Kept v (copyPart s a1 x y ps).2 := by
  unfold copyPart
  repeat' first
    | (with_reducible first | assumption | intro _ | apply readMany_kept | apply Kept.c)
    | (with_reducible refine Kept.snd (by assumption) ?_)
    | (simp only [Kept.mk_iff])
    | split

theorem gatherPart_kept {s : State} {a1 : Via} {o : OpRec} {y : Tensor} {js : List Nat} (h : Kept v s) :
    Kept v (gatherPart s a1 o y js).2 := by
  unfold gatherPart
  repeat' first
    | (with_reducible first | assumption | intro _ | apply copyPart_kept | apply readIndex_kept | apply Kept.c)
    | (with_reducible refine Kept.snd (by assumption) ?_)
    | (simp only [Kept.mk_iff])
    | split

theorem computePart_kept {s : State} {a1 : Via} {o : OpRec} {js : List Nat} (h : Kept v s) :
    Kept v (computePart s a1 o js).2 := by
  unfold computePart
  repeat' first
    | (with_reducible first | assumption | intro _ | apply vecPart_kept | apply convertPart_kept)
    | (with_reducible first | apply reducePart_kept | apply gatherPart_kept | apply Kept.c)
    | (with_reducible refine Kept.snd (by assumption) ?_)
    | (simp only [Kept.mk_iff])
    | split

theorem misalignFail_kept {s : State} {k : Nat} {o : OpRec} {field : Nat} {ev : State → Nat → State} (h : Kept v s) (hev : ∀ t x, Kept v t → Kept v (ev t x)) :
    Kept v (misalignFail s k o field ev) := by
  unfold misalignFail
  repeat' first
    | (with_reducible first | assumption | intro _ | apply failOp_kept | apply hev | apply Kept.c)
    | (simp only [Kept.mk_iff])
    | split

theorem vectorPart_kept {s0 : State} {k : Nat} {core : Nat} {hit : Option Mech} (h : Kept v s0) :
    Kept v (vectorPart s0 k core hit) := by
  unfold vectorPart
  repeat' first
    | (with_reducible first | assumption | intro _ | apply tallyOp_kept | apply writesBlocked_kept)
    | (with_reducible first | apply raiseFault_kept | apply setOp_kept | apply takeHit_kept)
    | (with_reducible first | apply coreEvent_kept | apply misalignFail_kept | apply computePart_kept)
    | (with_reducible first | apply misalign_kept)
    | (with_reducible first | apply failOp_kept | apply writeMany_kept | apply Kept.c)
    | (with_reducible refine Kept.snd (by assumption) ?_)
    | (simp only [Kept.mk_iff])
    | split

end Sys2Proof.Machine
end

