-- ==== Sys2Proof/Laws/KeepHearth.lean ====
section
/-!
SUPPORT. What the operations of Machine/Hearth.lean keep (Laws/Keep.lean).
-/

namespace Sys2Proof.Machine

set_option linter.unusedSimpArgs false

variable {v : View}

theorem atomicRefused_kept {s : State} {a1 : Nat} {addr : Nat} (h : Kept v s) :
    Kept v (atomicRefused s a1 addr) := by
  unfold atomicRefused
  repeat' first
    | (with_reducible first | assumption | intro _ | apply Kept.c)
    | (simp only [Kept.mk_iff])
    | split

theorem atomicOp_kept {s : State} {a1 : Via} {a : Nat} {n : Nat} {f : Nat → Option Nat} (h : Kept v s) :
    Kept v (atomicOp s a1 a n f).2 := by
  unfold atomicOp
  repeat' first
    | (with_reducible first | assumption | intro _ | apply atomicRefused_kept | apply devRead_kept)
    | (with_reducible first | apply devWrite_kept | apply Kept.c)
    | (with_reducible refine Kept.snd (by assumption) ?_)
    | (simp only [Kept.mk_iff])
    | split

theorem applyRa_kept {s : State} {a1 : Via} {mode : Nat} {addr : Nat} {xs : List Num} (h : Kept v s) :
    Kept v (applyRa s a1 mode addr xs).2 := by
  unfold applyRa
  repeat' first
    | (with_reducible first | assumption | intro _ | apply atomicRefused_kept | apply dcount_kept)
    | (with_reducible first | apply dset_kept | apply devRead_kept | apply devWrite_kept | apply Kept.c)
    | (with_reducible refine Kept.snd (by assumption) ?_)
    | (simp only [Kept.mk_iff])
    | split

theorem finishIfDone_kept {s : State} {k : Nat} (h : Kept v s) :
    Kept v (finishIfDone s k) := by
  unfold finishIfDone
  repeat' first
    | (with_reducible first | assumption | intro _ | apply setOp_kept | apply Kept.c)
    | (simp only [Kept.mk_iff])
    | split

theorem retireLane_kept {s : State} {a1 : Nat} {lane : Nat} (h : Kept v s) :
    Kept v (retireLane s a1 lane) := by
  unfold retireLane
  repeat' first
    | (with_reducible first | assumption | intro _ | apply Kept.c)
    | (simp only [Kept.mk_iff])
    | split

theorem countLane_kept {s : State} {a1 : Nat} {lane : Nat} {inj : Bool} (h : Kept v s) :
    Kept v (countLane s a1 lane inj) := by
  unfold countLane
  repeat' first
    | (with_reducible first | assumption | intro _ | apply retireLane_kept | apply Kept.c)
    | (simp only [Kept.mk_iff])
    | split

theorem laneFault_kept {s : State} {a1 : Nat} {lane : Nat} {group : Nat} {retry : Bool} {inj : Bool} (h : Kept v s) :
    Kept v (laneFault s a1 lane group retry inj) := by
  unfold laneFault
  repeat' first
    | (with_reducible first | assumption | intro _ | apply countLane_kept | apply raiseFault_kept | apply Kept.c)
    | (simp only [Kept.mk_iff])
    | split

theorem updateGroup_kept {s : State} {a1 : Via} {o : OpRec} {y : Tensor} {js : List Nat} (h : Kept v s) :
    Kept v (updateGroup s a1 o y js).2 := by
  unfold updateGroup
  repeat' first
    | (with_reducible first | assumption | intro _ | apply Kept.foldl | apply Kept.foldlFst)
    | (with_reducible first | apply KeptO.getD)
    | (with_reducible first | apply Kept.foldlSnd | apply readMany_kept | apply Kept.c)
    | (with_reducible refine Kept.snd (by assumption) ?_)
    | (simp only [Kept.mk_iff])
    | split

theorem expectCheck_kept {s : State} {a1 : Via} {o : OpRec} {p : Part} (h : Kept v s) :
    Kept v (expectCheck s a1 o p).2 := by
  unfold expectCheck
  repeat' first
    | (with_reducible first | assumption | intro _ | apply readMany_kept | apply Kept.c)
    | (with_reducible refine Kept.snd (by assumption) ?_)
    | (simp only [Kept.mk_iff])
    | split

theorem spinGroup_kept {s : State} {a1 : Via} {o : OpRec} {y : Tensor} {n : Nat} {sub : Nat} (h : Kept v s) :
    Kept v (spinGroup s a1 o y n sub).2 := by
  unfold spinGroup
  repeat' first
    | (with_reducible first | assumption | intro _ | apply readOpt_kept | apply Kept.c)
    | (with_reducible refine Kept.snd (by assumption) ?_)
    | (simp only [Kept.mk_iff])
    | split

theorem foldGroup_kept {s : State} {a1 : Via} {o : OpRec} {y : Tensor} {i1 : Nat} (h : Kept v s) :
    Kept v (foldGroup s a1 o y i1).2 := by
  unfold foldGroup
  repeat' first
    | (with_reducible first | assumption | intro _ | apply Kept.foldl | apply Kept.foldlFst)
    | (with_reducible first | apply Kept.foldlSnd | apply readElems_kept | apply Kept.c)
    | (with_reducible refine Kept.snd (by assumption) ?_)
    | (simp only [Kept.mk_iff])
    | split

theorem remoteAccGroup_kept {s : State} {a1 : Via} {k : Nat} {a3 : Nat} {o : OpRec} {js : List Nat} (h : Kept v s) :
    Kept v (remoteAccGroup s a1 k a3 o js).2 := by
  unfold remoteAccGroup
  repeat' first
    | (with_reducible first | apply KeptO.getD)
    | (with_reducible first | assumption | intro _ | apply readMany_kept | apply Kept.c)
    | (with_reducible refine Kept.snd (by assumption) ?_)
    | (simp only [Kept.mk_iff])
    | split

theorem computeGroup_kept {s : State} {a1 : Via} {k : Nat} {a3 : Nat} {o : OpRec} {p : Part} (h : Kept v s) :
    Kept v (computeGroup s a1 k a3 o p).2 := by
  unfold computeGroup
  repeat' first
    | (with_reducible first | assumption | intro _ | apply updateGroup_kept | apply foldGroup_kept)
    | (with_reducible first | apply computePart_kept | apply spinGroup_kept | apply remoteAccGroup_kept)
    | (with_reducible first | apply Kept.c)
    | (with_reducible refine Kept.snd (by assumption) ?_)
    | (simp only [Kept.mk_iff])
    | split

theorem expectFailed_kept {s : State} {k : Nat} {a2 : Nat} {o : OpRec} {bad : Nat × Nat} (h : Kept v s) :
    Kept v (expectFailed s k a2 o bad) := by
  unfold expectFailed
  repeat' first
    | (with_reducible first | assumption | intro _ | apply dcount_kept | apply localEvent_kept)
    | (with_reducible first | apply failOp_kept | apply Kept.c)
    | (simp only [Kept.mk_iff])
    | split

theorem commitGroup_kept {s : State} {a1 : Via} {k : Nat} {a3 : Nat} {o : OpRec} {p : Part} {out : GroupOut} (h : Kept v s) :
    Kept v (commitGroup s a1 k a3 o p out) := by
  unfold commitGroup
  repeat' first
    | (with_reducible first | assumption | intro _ | apply finishIfDone_kept | apply setOp_kept)
    | (with_reducible first | apply failOp_kept | apply writeMany_kept | apply Kept.c)
    | (with_reducible refine Kept.snd (by assumption) ?_)
    | (simp only [Kept.mk_iff])
    | split

theorem hearthGroup_kept {s0 : State} {k : Nat} {a2 : Nat} {hit : Option Nat} (h : Kept v s0) :
    Kept v (hearthGroup s0 k a2 hit) := by
  unfold hearthGroup
  repeat' first
    | (with_reducible first | assumption | intro _ | apply computeGroup_kept | apply expectFailed_kept)
    | (with_reducible first | apply writesBlocked_kept | apply commitGroup_kept | apply laneFault_kept)
    | (with_reducible first | apply setOp_kept | apply dcount_kept | apply expectCheck_kept | apply takeHit_kept)
    | (with_reducible first | apply misalign_kept | apply KeptO.getD)
    | (with_reducible first | apply misalignFail_kept | apply failOp_kept | apply Kept.c)
    | (with_reducible refine Kept.snd (by assumption) ?_)
    | (simp only [Kept.mk_iff])
    | split

end Sys2Proof.Machine
end

