-- ==== Sys2Proof/Laws/KeepCord.lean ====
section
/-!
SUPPORT. What the operations of Machine/Cord.lean keep (Laws/Keep.lean).
-/

namespace Sys2Proof.Machine

set_option linter.unusedSimpArgs false

variable {v : View}

theorem physWritePieces_kept {s : State} {a1 : List (Nat × Nat)} {a2 : List Byte} (h : Kept v s) :
    Kept v (physWritePieces s a1 a2).2 := by
  induction a1 generalizing s a2 with
  | nil =>
    unfold physWritePieces
    repeat' first
      | (with_reducible first | assumption | intro _ | apply atomWrite_kept | apply Kept.c)
      | (with_reducible refine Kept.snd (by assumption) ?_)
      | (simp only [Kept.mk_iff])
      | split
  | cons x r ih =>
    unfold physWritePieces
    repeat' first
      | (with_reducible first | assumption | intro _ | apply atomWrite_kept | apply ih | apply Kept.c)
      | (with_reducible refine Kept.snd (by assumption) ?_)
      | (simp only [Kept.mk_iff])
      | split

theorem physWrite_kept {s : State} {a : Nat} {b : List Byte} (h : Kept v s) :
    Kept v (physWrite s a b).2 := by
  unfold physWrite
  repeat' first
    | (with_reducible first | assumption | intro _ | apply physWritePieces_kept | apply Kept.c)
    | (with_reducible refine Kept.snd (by assumption) ?_)
    | (simp only [Kept.mk_iff])
    | split

theorem readSrc_kept {s : State} {a1 : TxSrc} (h : Kept v s) :
    Kept v (readSrc s a1).2 := by
  unfold readSrc
  repeat' first
    | (with_reducible first | assumption | intro _ | apply readMany_kept | apply devRead_kept | apply Kept.c)
    | (with_reducible refine Kept.snd (by assumption) ?_)
    | (simp only [Kept.mk_iff])
    | split

theorem setChan_kept {s : State} {k : Nat} {c : Chan} (h : Kept v s) :
    Kept v (setChan s k c) := by
  unfold setChan
  repeat' first
    | (with_reducible first | assumption | intro _ | apply Kept.c)
    | (simp only [Kept.mk_iff])
    | split

theorem sendFrame_kept {s : State} {key : Nat} {f : TxFrame} {retx : Bool} {payload : List Byte} (h : Kept v s) :
    Kept v (sendFrame s key f retx payload) := by
  unfold sendFrame
  repeat' first
    | (with_reducible first | assumption | intro _ | apply sendOut_kept | apply Kept.c)
    | (simp only [Kept.mk_iff])
    | split

theorem sendPlain_kept {s : State} {peer : Nat} {port : Nat} {ch : Nat} {f : TxFrame} (h : Kept v s) :
    Kept v (sendPlain s peer port ch f) := by
  unfold sendPlain
  repeat' first
    | (with_reducible first | assumption | intro _ | apply sendFrame_kept | apply Kept.c)
    | (simp only [Kept.mk_iff])
    | split

theorem enqueue_kept {s : State} {key : Nat} {f : TxFrame} (h : Kept v s) :
    Kept v (enqueue s key f) := by
  unfold enqueue
  repeat' first
    | (with_reducible first | assumption | intro _ | apply setChan_kept | apply Kept.c)
    | (simp only [Kept.mk_iff])
    | split

theorem drainChan_kept {key : Nat} {a1 : Nat} {a2 : State} (h : Kept v a2) :
    Kept v (drainChan key a1 a2).1 := by
  induction a1 generalizing key a2 with
  | zero =>
    unfold drainChan
    repeat' first
      | (with_reducible first | assumption | intro _ | apply readSrc_kept | apply sendFrame_kept)
      | (with_reducible first | apply setChan_kept | apply Kept.c)
      | (with_reducible refine Kept.snd (by assumption) ?_)
      | (simp only [Kept.mk_iff])
      | split
  | succ n ih =>
    unfold drainChan
    repeat' first
      | (with_reducible first | assumption | intro _ | apply readSrc_kept | apply sendFrame_kept)
      | (with_reducible first | apply setChan_kept | apply ih | apply Kept.c)
      | (with_reducible refine Kept.snd (by assumption) ?_)
      | (with_reducible refine Kept.fst (by assumption) ?_)
      | (simp only [Kept.mk_iff])
      | split

theorem drainAll_kept {s : State} (h : Kept v s) :
    Kept v (drainAll s).1 := by
  unfold drainAll
  repeat' first
    | (with_reducible first | assumption | intro _ | apply Kept.foldl | apply Kept.foldlFst)
    | (with_reducible first | apply Kept.foldlSnd | apply drainChan_kept | apply Kept.c)
    | (with_reducible refine Kept.fst (by assumption) ?_)
    | (simp only [Kept.mk_iff])
    | split

theorem setColl_kept {s : State} {c : Coll} (h : Kept v s) :
    Kept v (setColl s c) := by
  unfold setColl
  repeat' first
    | (with_reducible first | assumption | intro _ | apply Kept.c)
    | (simp only [Kept.mk_iff])
    | split

theorem dropColl_kept {s : State} {post : Nat} (h : Kept v s) :
    Kept v (dropColl s post) := by
  unfold dropColl
  repeat' first
    | (with_reducible first | assumption | intro _ | apply Kept.c)
    | (simp only [Kept.mk_iff])
    | split

theorem ownShard_kept {post : Nat} {fuel : Nat} {a2 : State} (h : Kept v a2) :
    Kept v (ownShard post fuel a2).2 := by
  induction fuel generalizing post a2 with
  | zero =>
    unfold ownShard
    repeat' first
      | (with_reducible first | assumption | intro _ | apply readMany_kept | apply setColl_kept)
      | (with_reducible first | apply KeptO.getD)
      | (with_reducible first | apply devRead_kept | apply devWrite_kept | apply Kept.c)
      | (with_reducible refine Kept.snd (by assumption) ?_)
      | (simp only [Kept.mk_iff])
      | split
  | succ n ih =>
    unfold ownShard
    repeat' first
      | (with_reducible first | assumption | intro _ | apply readMany_kept | apply setColl_kept)
      | (with_reducible first | apply KeptO.getD)
      | (with_reducible first | apply devRead_kept | apply devWrite_kept | apply ih | apply Kept.c)
      | (with_reducible refine Kept.snd (by assumption) ?_)
      | (simp only [Kept.mk_iff])
      | split

theorem collCheck_kept {s : State} {post : Nat} (h : Kept v s) :
    Kept v (collCheck s post) := by
  unfold collCheck
  repeat' first
    | (with_reducible first | assumption | intro _ | apply setOp_kept | apply dropColl_kept | apply Kept.c)
    | (simp only [Kept.mk_iff])
    | split

theorem collAbort_kept {s : State} {post : Nat} {reason : Nat} {rank : Option Nat} (h : Kept v s) :
    Kept v (collAbort s post reason rank) := by
  unfold collAbort
  repeat' first
    | (with_reducible first | assumption | intro _ | apply Kept.foldl | apply Kept.foldlFst)
    | (with_reducible first | apply Kept.foldlSnd | apply dcount_kept | apply failOp_kept)
    | (with_reducible first | apply hubNotice_kept | apply sendPlain_kept | apply setColl_kept)
    | (with_reducible first | apply KeptO.getD | apply Kept.c)
    | (simp only [Kept.mk_iff])
    | split

theorem sourceFailed_kept {s : State} {f : TxFrame} {e : MemErr} (h : Kept v s) :
    Kept v (sourceFailed s f e) := by
  unfold sourceFailed
  repeat' first
    | (with_reducible first | assumption | intro _ | apply collAbort_kept | apply Kept.c)
    | (simp only [Kept.mk_iff])
    | split

theorem resendFrames_kept {key : Nat} {a1 : List TxFrame} {a2 : State} (h : Kept v a2) :
    Kept v (resendFrames key a1 a2) := by
  induction a1 generalizing key a2 with
  | nil =>
    unfold resendFrames
    repeat' first
      | (with_reducible first | assumption | intro _ | apply dset_kept | apply readSrc_kept)
      | (with_reducible first | apply sendFrame_kept | apply setChan_kept | apply sourceFailed_kept)
      | (with_reducible first | apply Kept.c)
      | (with_reducible refine Kept.snd (by assumption) ?_)
      | (simp only [Kept.mk_iff])
      | split
  | cons x r ih =>
    unfold resendFrames
    repeat' first
      | (with_reducible first | assumption | intro _ | apply dset_kept | apply readSrc_kept)
      | (with_reducible first | apply sendFrame_kept | apply setChan_kept | apply sourceFailed_kept)
      | (with_reducible first | apply ih | apply Kept.c)
      | (with_reducible refine Kept.snd (by assumption) ?_)
      | (simp only [Kept.mk_iff])
      | split

theorem resend_kept {s : State} {key : Nat} {from_ : Nat} (h : Kept v s) :
    Kept v (resend s key from_) := by
  unfold resend
  repeat' first
    | (with_reducible first | assumption | intro _ | apply Kept.foldl | apply Kept.foldlFst)
    | (with_reducible first | apply Kept.foldlSnd | apply sendFrame_kept | apply dset_kept | apply readSrc_kept)
    | (with_reducible first | apply resendFrames_kept)
    | (with_reducible first | apply Kept.c)
    | (with_reducible refine Kept.snd (by assumption) ?_)
    | (simp only [Kept.mk_iff])
    | split

theorem collStep_kept {s : State} {post : Nat} (h : Kept v s) :
    Kept v (collStep s post) := by
  unfold collStep
  repeat' first
    | (with_reducible first | assumption | intro _ | apply Kept.foldl | apply Kept.foldlFst)
    | (with_reducible first | apply Kept.foldlSnd | apply collAbort_kept | apply enqueue_kept)
    | (with_reducible first | apply KeptO.getD)
    | (with_reducible first | apply setColl_kept | apply Kept.c)
    | (simp only [Kept.mk_iff])
    | split

theorem pumpOnce_kept {s : State} (h : Kept v s) :
    Kept v (pumpOnce s) := by
  unfold pumpOnce
  repeat' first
    | (with_reducible first | assumption | intro _ | apply Kept.foldl | apply Kept.foldlFst)
    | (with_reducible first | apply Kept.foldlSnd | apply collAbort_kept | apply collStep_kept)
    | (with_reducible first | apply drainAll_kept | apply ownShard_kept | apply sourceFailed_kept)
    | (with_reducible first | apply KeptO.getD | apply Kept.c)
    | (with_reducible refine Kept.snd (by assumption) ?_)
    | (with_reducible refine Kept.fst (by assumption) ?_)
    | (simp only [Kept.mk_iff])
    | split

theorem pumpRounds_kept {a0 : Nat} {a1 : State} (h : Kept v a1) :
    Kept v (pumpRounds a0 a1) := by
  induction a0 generalizing a1 with
  | zero =>
    unfold pumpRounds
    repeat' first
      | (with_reducible first | assumption | intro _ | apply pumpOnce_kept | apply Kept.c)
      | (simp only [Kept.mk_iff])
      | split
  | succ n ih =>
    unfold pumpRounds
    repeat' first
      | (with_reducible first | assumption | intro _ | apply pumpOnce_kept | apply ih | apply Kept.c)
      | (simp only [Kept.mk_iff])
      | split

theorem collCheckAll_kept {s : State} (h : Kept v s) :
    Kept v (collCheckAll s) := by
  unfold collCheckAll
  repeat' first
    | (with_reducible first | assumption | intro _ | apply Kept.foldl | apply Kept.foldlFst)
    | (with_reducible first | apply Kept.foldlSnd | apply collCheck_kept | apply Kept.c)
    | (simp only [Kept.mk_iff])
    | split

theorem postColl_kept {s : State} {c : Coll} (h : Kept v s) :
    Kept v (postColl s c) := by
  unfold postColl
  repeat' first
    | (with_reducible first | assumption | intro _ | apply Kept.c)
    | (simp only [Kept.mk_iff])
    | split

theorem clearPath_kept {s : State} {peer : Nat} {port : Nat} (h : Kept v s) :
    Kept v (clearPath s peer port) := by
  unfold clearPath
  repeat' first
    | (with_reducible first | assumption | intro _ | apply Kept.c)
    | (simp only [Kept.mk_iff])
    | split

theorem idlePath_kept {s : State} {peer : Nat} {port : Nat} (h : Kept v s) :
    Kept v (idlePath s peer port) := by
  unfold idlePath
  repeat' first
    | (with_reducible first | assumption | intro _ | apply Kept.c)
    | (simp only [Kept.mk_iff])
    | split

theorem dropPending_kept {s : State} {peer : Nat} (h : Kept v s) :
    Kept v (dropPending s peer) := by
  unfold dropPending
  repeat' first
    | (with_reducible first | assumption | intro _ | apply Kept.c)
    | (simp only [Kept.mk_iff])
    | split

theorem pathEvent_kept {s : State} (h : Kept v s) :
    Kept v (pathEvent s) := by
  unfold pathEvent
  repeat' first
    | (with_reducible first | assumption | intro _ | apply hubEvent_kept | apply Kept.c)
    | (simp only [Kept.mk_iff])
    | split

theorem losePath_kept {s : State} {peer : Nat} {port : Nat} {reason : Nat} (h : Kept v s) :
    Kept v (losePath s peer port reason) := by
  unfold losePath
  repeat' first
    | (with_reducible first | assumption | intro _ | apply Kept.foldl | apply Kept.foldlFst)
    | (with_reducible first | apply Kept.foldlSnd | apply clearPath_kept | apply pathEvent_kept)
    | (with_reducible first | apply idlePath_kept)
    | (with_reducible first | apply collAbort_kept | apply Kept.c)
    | (simp only [Kept.mk_iff])
    | split

theorem losePeer_kept {s : State} {peer : Nat} {reason : Nat} (h : Kept v s) :
    Kept v (losePeer s peer reason) := by
  unfold losePeer
  repeat' first
    | (with_reducible first | assumption | intro _ | apply Kept.foldl | apply Kept.foldlFst)
    | (with_reducible first | apply Kept.foldlSnd | apply losePath_kept | apply Kept.c)
    | (simp only [Kept.mk_iff])
    | split

theorem newSession_kept {s : State} {peer : Nat} {session : Nat} (h : Kept v s) :
    Kept v (newSession s peer session) := by
  unfold newSession
  repeat' first
    | (with_reducible first | assumption | intro _ | apply Kept.foldl | apply Kept.foldlFst)
    | (with_reducible first | apply Kept.foldlSnd | apply clearPath_kept | apply collAbort_kept | apply Kept.c)
    | (simp only [Kept.mk_iff])
    | split

theorem raEnded_kept {s : State} {r : RaReq} {code : Nat} (h : Kept v s) :
    Kept v (raEnded s r code) := by
  unfold raEnded
  repeat' first
    | (with_reducible first | assumption | intro _ | apply finishIfDone_kept | apply collAbort_kept)
    | (with_reducible first | apply collCheck_kept | apply failOp_kept | apply Kept.c)
    | (simp only [Kept.mk_iff])
    | split

theorem remoteAccRequest_kept {s0 : State} {i : Nat} {hit : Option Nat} (h : Kept v s0) :
    Kept v (remoteAccRequest s0 i hit) := by
  unfold remoteAccRequest
  repeat' first
    | (with_reducible first | assumption | intro _ | apply raEnded_kept | apply laneFault_kept)
    | (with_reducible first | apply KeptO.getD)
    | (with_reducible first | apply dcount_kept | apply applyRa_kept | apply takeHit_kept | apply Kept.c)
    | (with_reducible refine Kept.snd (by assumption) ?_)
    | (simp only [Kept.mk_iff])
    | split

end Sys2Proof.Machine
end

