-- ==== Sys2Proof/Laws/KeepIssue.lean ====
section
/-!
SUPPORT. What the operations of Machine/Issue.lean keep (Laws/Keep.lean).
-/

namespace Sys2Proof.Machine

set_option linter.unusedSimpArgs false

variable {v : View}

theorem readThen_kept {α β : Type} {r : Except MemErr α × State} {f : α → State → Except MemErr β × State}
    (h : Kept v r.2) (hf : ∀ a t, Kept v t → Kept v (f a t).2) : Kept v (readThen r f).2 := by
  unfold readThen
  split
  · exact h
  · exact hf _ _ h

theorem fetchObias_kept {s : State} {a1 : Via} {d : JobDesc} {t : TD} (h : Kept v s) :
    Kept v (fetchObias s a1 d t).2 := by
  unfold fetchObias
  repeat' first
    | (with_reducible first | assumption | intro _ | apply devRead_kept | apply readThen_kept | apply Kept.c)
    | (with_reducible refine Kept.snd (by assumption) ?_)
    | (simp only [Kept.mk_iff])
    | split

theorem fetchTD_kept {s : State} {a1 : Via} {d : JobDesc} {addr : Nat} (h : Kept v s) :
    Kept v (fetchTD s a1 d addr).2 := by
  unfold fetchTD
  repeat' first
    | (with_reducible first | assumption | intro _ | apply devRead_kept | apply fetchObias_kept)
    | (with_reducible first | apply readThen_kept | apply Kept.c)
    | (with_reducible refine Kept.snd (by assumption) ?_)
    | (simp only [Kept.mk_iff])
    | split

theorem fetchTDs_kept {s : State} {a1 : Via} {d : JobDesc} {a3 : List Nat} (h : Kept v s) :
    Kept v (fetchTDs s a1 d a3).2 := by
  induction a3 generalizing s a1 d with
  | nil =>
    unfold fetchTDs
    repeat' first
      | (with_reducible first | assumption | intro _ | apply fetchTD_kept | apply readThen_kept)
      | (with_reducible first | apply Kept.c)
      | (with_reducible refine Kept.snd (by assumption) ?_)
      | (simp only [Kept.mk_iff])
      | split
  | cons x r ih =>
    unfold fetchTDs
    repeat' first
      | (with_reducible first | assumption | intro _ | apply fetchTD_kept | apply readThen_kept | apply ih)
      | (with_reducible first | apply Kept.c)
      | (with_reducible refine Kept.snd (by assumption) ?_)
      | (simp only [Kept.mk_iff])
      | split

theorem fetchSpun_kept {s : State} {a1 : Via} {d : JobDesc} {addr : Nat} (h : Kept v s) :
    Kept v (fetchSpun s a1 d addr).2 := by
  unfold fetchSpun
  repeat' first
    | (with_reducible first | assumption | intro _ | apply devRead_kept | apply fetchTDs_kept)
    | (with_reducible first | apply readThen_kept | apply Kept.c)
    | (with_reducible refine Kept.snd (by assumption) ?_)
    | (simp only [Kept.mk_iff])
    | split

theorem fetchSlot_kept {s : State} {a1 : Via} {d : JobDesc} {desc : List Byte} (h : Kept v s) :
    Kept v (fetchSlot s a1 d desc).2 := by
  unfold fetchSlot
  repeat' first
    | (with_reducible first | assumption | intro _ | apply fillSlot_kept | apply readThen_kept)
    | (with_reducible first | apply devRead_kept | apply Kept.c)
    | (with_reducible refine Kept.snd (by assumption) ?_)
    | (simp only [Kept.mk_iff])
    | split

theorem fetchGroup_kept {s : State} {d : JobDesc} {desc : List Byte} (h : Kept v s) :
    Kept v (fetchGroup s d desc).2 := by
  unfold fetchGroup
  repeat' first
    | (with_reducible first | assumption | intro _ | apply readThen_kept | apply devRead_kept | apply Kept.c)
    | (with_reducible refine Kept.snd (by assumption) ?_)
    | (simp only [Kept.mk_iff])
    | split

theorem fetchIssue_kept {s : State} {a1 : Via} {d : JobDesc} {addr : Nat} (h : Kept v s) :
    Kept v (fetchIssue s a1 d addr).2 := by
  unfold fetchIssue
  repeat' first
    | (with_reducible first | assumption | intro _ | apply fetchTDs_kept | apply fetchGroup_kept)
    | (with_reducible first | apply fetchSpun_kept | apply readThen_kept | apply fetchSlot_kept)
    | (with_reducible first | apply KeptO.getD)
    | (with_reducible first | apply devRead_kept | apply Kept.c)
    | (with_reducible refine Kept.snd (by assumption) ?_)
    | (simp only [Kept.mk_iff])
    | split

theorem readSites_kept {s : State} {unit : Nat} {o : OpRec} (h : Kept v s) :
    Kept v (readSites s unit o).2 := by
  unfold readSites
  repeat' first
    | (with_reducible first | assumption | intro _ | apply Kept.foldl | apply Kept.foldlFst)
    | (with_reducible first | apply Kept.foldlSnd | apply Kept.c)
    | (simp only [Kept.mk_iff])
    | split

theorem giveTiles_kept {s : State} {k : Nat} {o : OpRec} (h : Kept v s) :
    Kept v (giveTiles s k o) := by
  unfold giveTiles
  repeat' first
    | (with_reducible first | assumption | intro _ | apply Kept.foldl | apply Kept.foldlFst)
    | (with_reducible first | apply Kept.foldlSnd | apply setEng_kept | apply failOp_kept | apply Kept.c)
    | (simp only [Kept.mk_iff])
    | split

theorem giveParts_kept {s : State} {k : Nat} {o : OpRec} {ps : List Part} (h : Kept v s) :
    Kept v (giveParts s k o ps) := by
  unfold giveParts
  repeat' first
    | (with_reducible first | assumption | intro _ | apply setOp_kept | apply Kept.c)
    | (simp only [Kept.mk_iff])
    | split

theorem loadGens_kept {s : State} {mask : Nat} {tab : List Byte} {units : List Nat} (h : Kept v s) :
    Kept v (loadGens s mask tab units) := by
  unfold loadGens
  repeat' first
    | (with_reducible first | assumption | intro _ | apply Kept.foldl | apply Kept.foldlFst)
    | (with_reducible first | apply Kept.foldlSnd | apply Kept.c)
    | (simp only [Kept.mk_iff])
    | split

theorem genSetOp_kept {s : State} {a1 : Via} {k : Nat} {o : OpRec} (h : Kept v s) :
    KeptO v (genSetOp s a1 k o) := by
  unfold genSetOp
  repeat' first
    | (with_reducible first | assumption | intro _ | exact KeptO.none | apply KeptO.some | apply setOp_kept)
    | (with_reducible first | apply loadGens_kept | apply failOp_kept | apply devRead_kept | apply Kept.c)
    | (with_reducible refine Kept.snd (by assumption) ?_)
    | (simp only [Kept.mk_iff])
    | split

theorem giveOp_kept {s : State} {a1 : Via} {k : Nat} {o : OpRec} {unit : Nat} {g : Option GroupInfo} (h : Kept v s) :
    KeptO v (giveOp s a1 k o unit g) := by
  unfold giveOp
  repeat' first
    | (with_reducible first | assumption | intro _ | exact KeptO.none | apply KeptO.some | apply giveParts_kept)
    | (with_reducible first | apply setOp_kept | apply genSetOp_kept | apply postColl_kept)
    | (with_reducible first | apply giveTiles_kept | apply failOp_kept | apply Kept.c)
    | (with_reducible refine KeptO.use (by assumption) ?_)
    | (simp only [Kept.mk_iff])
    | split

theorem nameOpSlot_kept {s : State} {o : OpRec} (h : Kept v s) :
    Kept v (nameOpSlot s o) := by
  unfold nameOpSlot
  repeat' first
    | (with_reducible first | assumption | intro _ | apply Kept.foldl | apply Kept.foldlFst)
    | (with_reducible first | apply Kept.foldlSnd | apply nameSlot_kept | apply setJob_kept | apply Kept.c)
    | (with_reducible first | apply KeptO.getD)
    | (simp only [Kept.mk_iff])
    | split

theorem issueOp_kept {s : State} {a1 : Via} {w : Issuer} {i : IssueIn} {kind : Kind} (h : Kept v s) :
    Kept v (issueOp s a1 w i kind).2 := by
  unfold issueOp
  repeat' first
    | (with_reducible first | assumption | intro _ | apply giveOp_kept | apply nameOpSlot_kept)
    | (with_reducible first | apply readSites_kept | apply Kept.c)
    | (with_reducible refine Kept.snd (by assumption) ?_)
    | (with_reducible refine KeptO.use (by assumption) ?_)
    | (simp only [Kept.mk_iff])
    | split

theorem issueAt_kept {s : State} {a1 : Via} {d : JobDesc} {w : Issuer} {addr : Nat} (h : Kept v s) :
    Kept v (issueAt s a1 d w addr).2 := by
  unfold issueAt
  repeat' first
    | (with_reducible first | assumption | intro _ | apply fetchIssue_kept | apply issueOp_kept | apply Kept.c)
    | (with_reducible refine Kept.snd (by assumption) ?_)
    | (simp only [Kept.mk_iff])
    | split

theorem issueInstr_kept {s : State} {q : Nat} {st : Strand} {addr : Word} {dst : Nat} (h : Kept v s) :
    Kept v (issueInstr s q st addr dst) := by
  unfold issueInstr
  repeat' first
    | (with_reducible first | assumption | intro _ | apply endStrand_kept | apply next_kept | apply issueAt_kept)
    | (with_reducible first | apply Kept.c)
    | (with_reducible refine Kept.snd (by assumption) ?_)
    | (simp only [Kept.mk_iff])
    | split

end Sys2Proof.Machine
end

