-- ==== Sys2Proof/Laws/KeepWave.lean ====
section
/-!
SUPPORT. What the operations of Machine/Wave.lean keep (Laws/Keep.lean).
-/

namespace Sys2Proof.Machine

set_option linter.unusedSimpArgs false

variable {v : View}

theorem latchBank_kept {s : State} {cut : Nat} {status : Nat} {key : Nat} (h : Kept v s) :
    Kept v (latchBank s cut status key) := by
  unfold latchBank
  repeat' first
    | (with_reducible first | assumption | intro _ | apply Kept.c)
    | (simp only [Kept.mk_iff])
    | split

theorem captureCtxs_kept {s : State} (h : Kept v s) :
    Kept v (captureCtxs s).2 := by
  unfold captureCtxs
  repeat' first
    | (with_reducible first | assumption | intro _ | apply Kept.foldl | apply Kept.foldlFst)
    | (with_reducible first | apply Kept.foldlSnd | apply ctxWriteBack_kept | apply devRead_kept | apply Kept.c)
    | (with_reducible refine Kept.snd (by assumption) ?_)
    | (simp only [Kept.mk_iff])
    | split

theorem latchFreeze_kept {s : State} {fz : Freeze} {key : Nat} (h : Kept v s) :
    Kept v (latchFreeze s fz key) := by
  unfold latchFreeze
  repeat' first
    | (with_reducible first | assumption | intro _ | apply Kept.foldl | apply Kept.foldlFst)
    | (with_reducible first | apply Kept.foldlSnd | apply captureCtxs_kept | apply setPage_kept | apply Kept.c)
    | (with_reducible refine Kept.snd (by assumption) ?_)
    | (simp only [Kept.mk_iff])
    | split

theorem launchWave_kept {s : State} {freeze : Bool} {number : Nat} {xnum : Nat} {xorigin : Nat} (h : Kept v s) :
    Kept v (launchWave s freeze number xnum xorigin) := by
  unfold launchWave
  repeat' first
    | (with_reducible first | assumption | intro _ | apply Kept.foldl | apply Kept.foldlFst)
    | (with_reducible first | apply Kept.foldlSnd | apply dset_kept | apply latchBank_kept | apply Kept.c)
    | (simp only [Kept.mk_iff])
    | split

theorem haltBlock_kept {s : State} {key : Nat} (h : Kept v s) :
    Kept v (haltBlock s key) := by
  unfold haltBlock
  repeat' first
    | (with_reducible first | assumption | intro _ | apply setEng_kept | apply Kept.c)
    | (simp only [Kept.mk_iff])
    | split

theorem blockLatched_kept {s : State} {c : Cut} {key : Nat} {null : Bool} (h : Kept v s) :
    Kept v (blockLatched s c key null) := by
  unfold blockLatched
  repeat' first
    | (with_reducible first | apply markerAck_kept | apply sendEmber_kept)
    | (with_reducible first | assumption | intro _ | apply Kept.c)
    | (simp only [Kept.mk_iff])
    | split

theorem endWave_kept {s : State} (h : Kept v s) :
    Kept v (endWave s) := by
  unfold endWave
  repeat' first
    | (with_reducible first | assumption | intro _ | apply Kept.c)
    | (simp only [Kept.mk_iff])
    | split

theorem markerArrival_kept {s : State} {ut : Nat} {u : Nat} {last : Bool} (h : Kept v s) :
    Kept v (markerArrival s ut u last) := by
  unfold markerArrival
  repeat' first
    | (with_reducible first | assumption | intro _ | apply latchFreeze_kept | apply haltBlock_kept)
    | (with_reducible first | apply blockLatched_kept | apply latchBank_kept | apply Kept.c)
    | (simp only [Kept.mk_iff])
    | split

theorem waveQuench_kept {s : State} {key : Nat} (h : Kept v s) :
    Kept v (waveQuench s key) := by
  unfold waveQuench
  repeat' first
    | (with_reducible first | assumption | intro _ | apply blockLatched_kept | apply latchBank_kept)
    | (with_reducible first | apply Kept.c)
    | (simp only [Kept.mk_iff])
    | split

theorem waveOff_kept {s : State} {cluster : Nat} (h : Kept v s) :
    Kept v (waveOff s cluster) := by
  unfold waveOff
  repeat' first
    | (with_reducible first | assumption | intro _ | apply Kept.foldl | apply Kept.foldlFst)
    | (with_reducible first | apply Kept.foldlSnd | apply dset_kept | apply latchBank_kept | apply Kept.c)
    | (simp only [Kept.mk_iff])
    | split

end Sys2Proof.Machine
end

