-- ==== Sys2Proof/Laws/KeepFreeze.lean ====
section
/-!
SUPPORT. What the operations of Machine/Freeze.lean keep (Laws/Keep.lean).
-/

namespace Sys2Proof.Machine

set_option linter.unusedSimpArgs false

variable {v : View}

theorem sendCtrl_kept {s : State} {peer : Nat} {code : Nat} {gen : Nat} {elem : Nat} {payload : List Byte} (h : Kept v s) :
    Kept v (sendCtrl s peer code gen elem payload) := by
  unfold sendCtrl
  repeat' first
    | (with_reducible first | assumption | intro _ | apply enqueue_kept | apply Kept.c)
    | (simp only [Kept.mk_iff])
    | split

theorem dropStream_kept {s : State} {which : Nat} (h : Kept v s) :
    Kept v (dropStream s which) := by
  unfold dropStream
  repeat' first
    | (with_reducible first | assumption | intro _ | apply Kept.c)
    | (simp only [Kept.mk_iff])
    | split

theorem setFreezeState_kept {s : State} {a1 : Nat} (h : Kept v s) :
    Kept v (setFreezeState s a1) := by
  unfold setFreezeState
  repeat' first
    | (with_reducible first | assumption | intro _ | apply dset_kept | apply Kept.c)
    | (simp only [Kept.mk_iff])
    | split

theorem freezeFail_kept {s : State} {cause : FreezeCause} (h : Kept v s) :
    Kept v (freezeFail s cause) := by
  unfold freezeFail
  repeat' first
    | (with_reducible first | assumption | intro _ | apply dropStream_kept | apply hubNotice_kept)
    | (with_reducible first | apply releaseHold_kept | apply sendCtrl_kept | apply setFreezeState_kept)
    | (with_reducible first | apply Kept.c)
    | (simp only [Kept.mk_iff])
    | split

theorem freezeSkipped_kept {s : State} {conds : List Bool} {step : Nat} (h : Kept v s) :
    Kept v (freezeSkipped s conds step) := by
  unfold freezeSkipped
  repeat' first
    | (with_reducible first | assumption | intro _ | apply hubEvent_kept | apply Kept.c)
    | (simp only [Kept.mk_iff])
    | split

theorem launchFreeze_kept {s : State} {gen : Nat} (h : Kept v s) :
    Kept v (launchFreeze s gen) := by
  unfold launchFreeze
  repeat' first
    | (with_reducible first | assumption | intro _ | apply launchWave_kept | apply Kept.c)
    | (simp only [Kept.mk_iff])
    | split

theorem startFreeze_kept {s : State} {job : Nat} {j : Job} {set : List Byte} {pages : List (Nat × Nat)} (h : Kept v s) :
    Kept v (startFreeze s job j set pages) := by
  unfold startFreeze
  repeat' first
    | (with_reducible first | assumption | intro _ | apply setFreezeState_kept | apply launchFreeze_kept)
    | (with_reducible first | apply sendCtrl_kept | apply dset_kept | apply Kept.c)
    | (simp only [Kept.mk_iff])
    | split

theorem issueGoesOn_kept {s : State} (h : Kept v s) :
    Kept v (issueGoesOn s) := by
  unfold issueGoesOn
  repeat' first
    | (with_reducible first | assumption | intro _ | apply Kept.c)
    | (simp only [Kept.mk_iff])
    | split

theorem freezeDecide_kept {s : State} {job : Nat} (h : Kept v s) :
    Kept v (freezeDecide s job) := by
  unfold freezeDecide
  repeat' first
    | (with_reducible first | assumption | intro _ | apply freezeSkipped_kept | apply hubNotice_kept)
    | (with_reducible first | apply issueGoesOn_kept | apply startFreeze_kept | apply KeptO.getD)
    | (with_reducible first | apply Kept.c)
    | (simp only [Kept.mk_iff])
    | split

theorem freezeBoundary_kept {s : State} {job : Nat} (h : Kept v s) :
    Kept v (freezeBoundary s job) := by
  unfold freezeBoundary
  repeat' first
    | (with_reducible first | assumption | intro _ | apply startFreeze_kept | apply hubNotice_kept)
    | (with_reducible first | apply freezeDecide_kept | apply issueGoesOn_kept)
    | (with_reducible first | apply freezeSkipped_kept | apply Kept.c)
    | (simp only [Kept.mk_iff])
    | split

theorem writeSched_kept {s : State} {b : List Byte} (h : Kept v s) :
    Kept v (writeSched s b).2 := by
  unfold writeSched
  refine Kept.foldlSndEq ?_ h
  intro t x r e ht
  revert e
  generalize schedLoc t.2.mem (4096 * x) = o
  intro e
  subst e
  cases o with
  | none => exact ht
  | some l => exact physWrite_kept (b := (b.drop (4096 * x)).take 4096) (a := l.phys) ht

theorem assembleSched_kept {s : State} (h : Kept v s) :
    Kept v (assembleSched s) := by
  unfold assembleSched
  split
  · exact h
  · next fz _ =>
    split
    · exact h
    · have hw := writeSched_kept (b := schedContent s fz) h
      revert hw
      generalize writeSched s (schedContent s fz) = r
      intro hw
      obtain ⟨e, t⟩ := r
      cases e with
      | some _ => exact freezeFail_kept hw
      | none => exact setFreezeState_kept hw.c

theorem freezeCutDone_kept {s : State} {number : Nat} {nulls : Nat} (h : Kept v s) :
    Kept v (freezeCutDone s number nulls) := by
  unfold freezeCutDone
  repeat' first
    | (with_reducible first | assumption | intro _ | apply assembleSched_kept | apply freezeFail_kept)
    | (with_reducible first | apply Kept.c)
    | (simp only [Kept.mk_iff])
    | split

theorem queuePage_kept {s : State} {fz : Freeze} {peer : Nat} {k : Nat} (h : Kept v s) :
    Kept v (queuePage s fz peer k) := by
  unfold queuePage
  repeat' first
    | (with_reducible first | assumption | intro _ | apply Kept.foldl | apply Kept.foldlFst)
    | (with_reducible first | apply Kept.foldlSnd | apply enqueue_kept | apply Kept.c)
    | (simp only [Kept.mk_iff])
    | split

theorem hostPage_kept {s : State} {fz : Freeze} {k : Nat} {b : List Byte} (h : Kept v s) :
    Kept v (hostPage s fz k b) := by
  unfold hostPage
  repeat' first
    | (with_reducible first | assumption | intro _ | apply Kept.foldl | apply Kept.foldlFst)
    | (with_reducible first | apply Kept.foldlSnd | apply toHost_kept | apply Kept.c)
    | (simp only [Kept.mk_iff])
    | split

theorem digestPage_kept {s : State} {unit : Nat} (h : Kept v s) :
    Kept v (digestPage s unit) := by
  unfold digestPage
  repeat' first
    | (with_reducible first | assumption | intro _ | apply hostPage_kept | apply queuePage_kept)
    | (with_reducible first | apply freezeFail_kept | apply Kept.c)
    | (simp only [Kept.mk_iff])
    | split

theorem freezeComplete_kept {s : State} {fz : Freeze} (h : Kept v s) :
    Kept v (freezeComplete s fz) := by
  unfold freezeComplete
  repeat' first
    | (with_reducible first | assumption | intro _ | apply setFreezeState_kept | apply hubNotice_kept)
    | (with_reducible first | apply releaseHold_kept)
    | (with_reducible first | apply dset_kept | apply Kept.c)
    | (simp only [Kept.mk_iff])
    | split

theorem sendList_kept {s : State} {peer : Nat} {gen : Nat} {list : List Byte} (h : Kept v s) :
    Kept v (sendList s peer gen list) := by
  unfold sendList
  repeat' first
    | (with_reducible first | assumption | intro _ | apply Kept.foldl | apply Kept.foldlFst)
    | (with_reducible first | apply Kept.foldlSnd | apply sendCtrl_kept | apply Kept.c)
    | (simp only [Kept.mk_iff])
    | split

theorem freezeAdvance_kept {s : State} (h : Kept v s) :
    Kept v (freezeAdvance s) := by
  unfold freezeAdvance
  repeat' first
    | (with_reducible first | assumption | intro _ | apply Kept.foldl | apply Kept.foldlFst)
    | (with_reducible first | apply Kept.foldlSnd | apply sendList_kept | apply toHost_kept)
    | (with_reducible first | apply releaseHold_kept)
    | (with_reducible first | apply freezeComplete_kept | apply setPage_kept | apply Kept.c)
    | (simp only [Kept.mk_iff])
    | split

theorem freezePoison_kept {s : State} (h : Kept v s) :
    Kept v (freezePoison s) := by
  unfold freezePoison
  repeat' first
    | (with_reducible first | assumption | intro _ | apply freezeFail_kept | apply Kept.c)
    | (simp only [Kept.mk_iff])
    | split

theorem freezeStep_kept {s : State} (h : Kept v s) :
    Kept v (freezeStep s) := by
  unfold freezeStep
  repeat' first
    | (with_reducible first | assumption | intro _ | apply assembleSched_kept | apply freezeAdvance_kept)
    | (with_reducible first | apply freezeDecide_kept | apply freezePoison_kept | apply Kept.c)
    | (simp only [Kept.mk_iff])
    | split

theorem firstTouchDone_kept {s : State} {page : Nat} (h : Kept v s) :
    Kept v (firstTouchDone s page) := by
  unfold firstTouchDone
  repeat' first
    | (with_reducible first | assumption | intro _ | apply Kept.foldl | apply Kept.foldlFst)
    | (with_reducible first | apply Kept.foldlSnd | apply dcount_kept | apply freezeFail_kept)
    | (with_reducible first | apply releaseHold_kept)
    | (with_reducible first | apply setPage_kept | apply Kept.c)
    | (simp only [Kept.mk_iff])
    | split

end Sys2Proof.Machine
end

