-- ==== Sys2Proof/Laws/KeepHolder.lean ====
section
/-!
SUPPORT. What the operations of Machine/Holder.lean keep (Laws/Keep.lean).
-/

namespace Sys2Proof.Machine

set_option linter.unusedSimpArgs false

variable {v : View}

theorem setHolder_kept {s : State} {i : Nat} {a2 : Holder} (h : Kept v s) :
    Kept v (setHolder s i a2) := by
  unfold setHolder
  repeat' first
    | (with_reducible first | assumption | intro _ | apply Kept.c)
    | (simp only [Kept.mk_iff])
    | split

theorem putHolder_kept {s : State} {i : Nat} {state : Nat} {gen : Nat} {a4 : Holder} (h : Kept v s) :
    Kept v (putHolder s i state gen a4) := by
  unfold putHolder
  repeat' first
    | (with_reducible first | assumption | intro _ | apply setHolder_kept | apply dset_kept | apply Kept.c)
    | (simp only [Kept.mk_iff])
    | split

theorem emptyHolder_kept {s : State} {i : Nat} (h : Kept v s) :
    Kept v (emptyHolder s i) := by
  unfold emptyHolder
  repeat' first
    | (with_reducible first | assumption | intro _ | apply putHolder_kept | apply dropStream_kept | apply Kept.c)
    | (simp only [Kept.mk_iff])
    | split

theorem refuse_kept {s : State} {peer : Nat} {gen : Nat} {reason : Nat} (h : Kept v s) :
    Kept v (refuse s peer gen reason) := by
  unfold refuse
  repeat' first
    | (with_reducible first | assumption | intro _ | apply sendCtrl_kept | apply Kept.c)
    | (simp only [Kept.mk_iff])
    | split

theorem freezeBegin_kept {s : State} {peer : Nat} {gen : Nat} {count : Nat} (h : Kept v s) :
    Kept v (freezeBegin s peer gen count) := by
  unfold freezeBegin
  repeat' first
    | (with_reducible first | assumption | intro _ | apply putHolder_kept | apply sendCtrl_kept)
    | (with_reducible first | apply refuse_kept | apply Kept.c)
    | (simp only [Kept.mk_iff])
    | split

theorem pageReceive_kept {s : State} {peer : Nat} {gen : Nat} {k : Nat} {j : Nat} {b : List Byte} (h : Kept v s) :
    Kept v (pageReceive s peer gen k j b).2 := by
  generalize hr : pageReceive s peer gen k j b = r
  unfold pageReceive at hr
  generalize frameLoc s.mem = fl at hr
  split at hr
  · subst hr; exact h
  · split at hr
    · subst hr; exact h
    · split at hr
      · subst hr; exact h
      · split at hr
        · subst hr; exact h
        · rename_i s1 e
          subst hr
          exact hubNotice_kept (emptyHolder_kept (Kept.snd e (physWrite_kept h)))
        · subst hr; exact h
        · rename_i s1 hw
          subst hr
          exact setHolder_kept (Kept.snd hw (physWrite_kept h))

theorem undefineFrame_kept {s : State} {i k mask : Nat} (h : Kept v s) : Kept v (undefineFrame s i k mask) := by
  unfold undefineFrame
  refine Kept.foldl (fun st _ hst => ?_) h
  split
  · exact hst
  · exact Kept.foldl (fun _ _ h1 => undefineAt_kept h1) hst

theorem freezeEnd_kept {s : State} {peer : Nat} {gen : Nat} {count : Nat} {digest : Nat} (h : Kept v s) :
    Kept v (freezeEnd s peer gen count digest) := by
  unfold freezeEnd
  repeat' first
    | (with_reducible first | assumption | intro _ | apply putHolder_kept | apply hubNotice_kept)
    | (with_reducible first | apply emptyHolder_kept | apply sendCtrl_kept | apply refuse_kept | apply Kept.foldl)
    | (with_reducible first | apply undefineFrame_kept | apply Kept.c)
    | (simp only [Kept.mk_iff])
    | split

theorem abandon_kept {s : State} {peer : Nat} (h : Kept v s) :
    Kept v (abandon s peer) := by
  unfold abandon
  repeat' first
    | (with_reducible first | assumption | intro _ | apply Kept.foldl | apply Kept.foldlFst)
    | (with_reducible first | apply Kept.foldlSnd | apply emptyHolder_kept | apply Kept.c)
    | (simp only [Kept.mk_iff])
    | split

theorem serve_kept {s : State} {i : Nat} {target : Nat} {first : Nat} (h : Kept v s) :
    Kept v (serve s i target first) := by
  unfold serve
  repeat' first
    | (with_reducible first | assumption | intro _ | apply Kept.foldl | apply Kept.foldlFst)
    | (with_reducible first | apply KeptO.getD)
    | (with_reducible first | apply Kept.foldlSnd | apply putHolder_kept | apply enqueue_kept | apply Kept.c)
    | (simp only [Kept.mk_iff])
    | split

theorem restoreReq_kept {s : State} {peer : Nat} {gen : Nat} {origin : Nat} {first : Nat} (h : Kept v s) :
    Kept v (restoreReq s peer gen origin first) := by
  unfold restoreReq
  repeat' first
    | (with_reducible first | assumption | intro _ | apply setHolder_kept | apply serve_kept | apply refuse_kept)
    | (with_reducible first | apply Kept.c)
    | (simp only [Kept.mk_iff])
    | split

theorem digestReq_kept {s : State} {peer : Nat} {gen : Nat} {origin : Nat} (h : Kept v s) :
    Kept v (digestReq s peer gen origin) := by
  unfold digestReq
  repeat' first
    | (with_reducible first | assumption | intro _ | apply sendList_kept | apply refuse_kept | apply Kept.c)
    | (simp only [Kept.mk_iff])
    | split

theorem serveNext_kept {s : State} {i : Nat} (h : Kept v s) :
    Kept v (serveNext s i) := by
  unfold serveNext
  repeat' first
    | (with_reducible first | assumption | intro _ | apply putHolder_kept | apply setHolder_kept)
    | (with_reducible first | apply serve_kept | apply Kept.c)
    | (simp only [Kept.mk_iff])
    | split

theorem serveAdvance_kept {s : State} (h : Kept v s) :
    Kept v (serveAdvance s) := by
  unfold serveAdvance
  repeat' first
    | (with_reducible first | assumption | intro _ | apply Kept.foldl | apply Kept.foldlFst)
    | (with_reducible first | apply Kept.foldlSnd | apply serveNext_kept | apply Kept.c)
    | (simp only [Kept.mk_iff])
    | split

theorem pageUnavailable_kept {s : State} {i : Nat} {k : Nat} (h : Kept v s) :
    Kept v (pageUnavailable s i k) := by
  unfold pageUnavailable
  repeat' first
    | (with_reducible first | assumption | intro _ | apply sendCtrl_kept | apply Kept.c)
    | (simp only [Kept.mk_iff])
    | split

theorem targetLost_kept {s : State} {peer : Nat} (h : Kept v s) :
    Kept v (targetLost s peer) := by
  unfold targetLost
  repeat' first
    | (with_reducible first | assumption | intro _ | apply Kept.foldl | apply Kept.foldlFst)
    | (with_reducible first | apply Kept.foldlSnd | apply serveNext_kept | apply setHolder_kept)
    | (with_reducible first | apply dropStream_kept | apply Kept.c)
    | (simp only [Kept.mk_iff])
    | split

theorem holdersFenced_kept {s : State} (h : Kept v s) :
    Kept v (holdersFenced s) := by
  unfold holdersFenced
  repeat' first
    | (with_reducible first | assumption | intro _ | apply Kept.foldl | apply Kept.foldlFst)
    | (with_reducible first | apply Kept.foldlSnd | apply hubNotice_kept | apply emptyHolder_kept | apply Kept.c)
    | (simp only [Kept.mk_iff])
    | split

theorem setCorrelated_kept {s : State} {holder : Bool} {of_ : Bool} (h : Kept v s) :
    Kept v (setCorrelated s holder of_) := by
  unfold setCorrelated
  repeat' first
    | (with_reducible first | assumption | intro _ | apply dset_kept | apply Kept.c)
    | (simp only [Kept.mk_iff])
    | split

theorem pairEnd_kept {s : State} {state : Nat} {correlated : Bool} (h : Kept v s) :
    Kept v (pairEnd s state correlated) := by
  unfold pairEnd
  repeat' first
    | (with_reducible first | apply setCorrelated_kept)
    | (with_reducible first | assumption | intro _ | apply hubNotice_kept | apply dset_kept | apply Kept.c)
    | (simp only [Kept.mk_iff])
    | split

theorem startPairing_kept {s : State} (h : Kept v s) :
    Kept v (startPairing s) := by
  unfold startPairing
  repeat' first
    | (with_reducible first | apply setCorrelated_kept)
    | (with_reducible first | assumption | intro _ | apply sendCtrl_kept | apply dset_kept | apply Kept.c)
    | (simp only [Kept.mk_iff])
    | split

theorem writePartnerHolder_kept {s : State} {a1 : Nat} (h : Kept v s) :
    Kept v (writePartnerHolder s a1).1 := by
  unfold writePartnerHolder
  repeat' first
    | (with_reducible first | assumption | intro _ | apply startPairing_kept | apply dset_kept | apply Kept.c)
    | (simp only [Kept.mk_iff])
    | split

theorem writePartnerOf_kept {s : State} {a1 : Nat} (h : Kept v s) :
    Kept v (writePartnerOf s a1) := by
  unfold writePartnerOf
  repeat' first
    | (with_reducible first | apply setCorrelated_kept)
    | (with_reducible first | assumption | intro _ | apply emptyHolder_kept | apply dset_kept | apply Kept.c)
    | (simp only [Kept.mk_iff])
    | split

theorem pairReq_kept {s : State} {peer : Nat} {a : Nat} {b : Nat} {over_ : Nat} (h : Kept v s) :
    Kept v (pairReq s peer a b over_) := by
  unfold pairReq
  repeat' first
    | (with_reducible first | apply setCorrelated_kept)
    | (with_reducible first | assumption | intro _ | apply sendCtrl_kept | apply dset_kept | apply Kept.c)
    | (simp only [Kept.mk_iff])
    | split

theorem pairAck_kept {s : State} {peer : Nat} {a : Nat} {b : Nat} {slots : Nat} (h : Kept v s) :
    Kept v (pairAck s peer a b slots) := by
  unfold pairAck
  repeat' first
    | (with_reducible first | assumption | intro _ | apply pairEnd_kept | apply Kept.c)
    | (simp only [Kept.mk_iff])
    | split

theorem pairRefuse_kept {s : State} {peer : Nat} {reason : Nat} (h : Kept v s) :
    Kept v (pairRefuse s peer reason) := by
  unfold pairRefuse
  repeat' first
    | (with_reducible first | assumption | intro _ | apply pairEnd_kept | apply Kept.c)
    | (simp only [Kept.mk_iff])
    | split

end Sys2Proof.Machine
end

