-- ==== Sys2Proof/Laws/KeepRestore.lean ====
section
/-!
SUPPORT. What the operations of Machine/Restore.lean keep (Laws/Keep.lean).
-/

namespace Sys2Proof.Machine

set_option linter.unusedSimpArgs false

variable {v : View}

theorem restoreExit_kept {s : State} {r : RestoreResult} (h : Kept v s) :
    Kept v (restoreExit s r) := by
  unfold restoreExit
  repeat' first
    | (with_reducible first | assumption | intro _ | apply hubNotice_kept | apply dset_kept | apply Kept.c)
    | (simp only [Kept.mk_iff])
    | split

theorem setRestore_kept {s : State} {r : Restore} (h : Kept v s) :
    Kept v (setRestore s r) := by
  unfold setRestore
  repeat' first
    | (with_reducible first | assumption | intro _ | apply Kept.c)
    | (simp only [Kept.mk_iff])
    | split

theorem restoreKnots_kept {s : State} {b : List Byte} {d : JobDesc} (h : Kept v s) :
    Kept v (restoreKnots s b d) := by
  unfold restoreKnots
  repeat' first
    | (with_reducible first | assumption | intro _ | apply Kept.foldl | apply Kept.foldlFst)
    | (with_reducible first | apply Kept.foldlSnd | apply Kept.c)
    | (simp only [Kept.mk_iff])
    | split

theorem restoreGens_kept {s : State} {b : List Byte} (h : Kept v s) :
    Kept v (restoreGens s b) := by
  unfold restoreGens
  repeat' first
    | (with_reducible first | assumption | intro _ | apply Kept.foldl | apply Kept.foldlFst)
    | (with_reducible first | apply Kept.foldlSnd | apply Kept.c)
    | (simp only [Kept.mk_iff])
    | split

theorem restoreCtxs_kept {s : State} {b : List Byte} (h : Kept v s) :
    Kept v (restoreCtxs s b) := by
  unfold restoreCtxs
  repeat' first
    | (with_reducible first | assumption | intro _ | apply Kept.foldl | apply Kept.foldlFst)
    | (with_reducible first | apply Kept.foldlSnd | apply dropCtx_kept | apply hubWrite_kept | apply Kept.c)
    | (with_reducible refine Kept.snd (by assumption) ?_)
    | (simp only [Kept.mk_iff])
    | split

theorem restoreJob_kept {s : State} {b : List Byte} {d : JobDesc} (h : Kept v s) :
    Kept v (restoreJob s b d) := by
  unfold restoreJob
  repeat' first
    | (with_reducible first | assumption | intro _ | apply setJob_kept | apply endStorm_kept | apply Kept.c)
    | (simp only [Kept.mk_iff])
    | split

theorem restoreVerify_kept {s : State} {r : Restore} (h : Kept v s) :
    Kept v (restoreVerify s r) := by
  unfold restoreVerify
  repeat' first
    | (with_reducible first | assumption | intro _ | apply readJob_kept | apply restoreGens_kept)
    | (with_reducible first | apply restoreCtxs_kept | apply restoreJob_kept | apply setRestore_kept)
    | (with_reducible first | apply restoreKnots_kept | apply dset_kept | apply Kept.c)
    | (with_reducible refine Kept.snd (by assumption) ?_)
    | (simp only [Kept.mk_iff])
    | split

theorem issueSpins_kept {fuel : Nat} {a1 : State} (h : Kept v a1) :
    Kept v (issueSpins fuel a1) := by
  induction fuel generalizing a1 with
  | zero =>
    unfold issueSpins
    repeat' first
      | (with_reducible first | assumption | intro _ | apply setRestore_kept | apply issueAt_kept)
      | (with_reducible first | apply restoreExit_kept | apply Kept.c)
      | (with_reducible refine Kept.snd (by assumption) ?_)
      | (simp only [Kept.mk_iff])
      | split
  | succ n ih =>
    unfold issueSpins
    repeat' first
      | (with_reducible first | assumption | intro _ | apply setRestore_kept | apply issueAt_kept)
      | (with_reducible first | apply restoreExit_kept | apply ih | apply Kept.c)
      | (with_reducible refine Kept.snd (by assumption) ?_)
      | (simp only [Kept.mk_iff])
      | split

theorem verifyBegin_kept {s : State} (h : Kept v s) :
    Kept v (verifyBegin s) := by
  unfold verifyBegin
  repeat' first
    | (with_reducible first | assumption | intro _ | apply restoreVerify_kept | apply Kept.c)
    | (simp only [Kept.mk_iff])
    | split

theorem verifyStep_kept {s0 : State} (h : Kept v s0) :
    Kept v (verifyStep s0) := by
  unfold verifyStep
  repeat' first
    | (with_reducible first | assumption | intro _ | apply issueSpins_kept | apply restoreExit_kept)
    | (with_reducible first | apply verifyBegin_kept | apply Kept.c)
    | (simp only [Kept.mk_iff])
    | split

theorem spinComplete_kept {s : State} {k : Nat} {code : Nat} (h : Kept v s) :
    Kept v (spinComplete s k code) := by
  unfold spinComplete
  repeat' first
    | (with_reducible first | assumption | intro _ | apply verifyStep_kept | apply setRestore_kept)
    | (with_reducible first | apply restoreExit_kept | apply Kept.c)
    | (simp only [Kept.mk_iff])
    | split

theorem writeGranules_kept {s : State} {m : MemSys} {page : Nat} {mask : Nat} {b : List Byte} (h : Kept v s) :
    Kept v (writeGranules s m page mask b) := by
  unfold writeGranules
  repeat' first
    | (with_reducible first | assumption | intro _ | apply Kept.foldl | apply Kept.foldlFst)
    | (with_reducible first | apply Kept.foldlSnd | apply hubWrite_kept | apply Kept.c)
    | (with_reducible refine Kept.snd (by assumption) ?_)
    | (simp only [Kept.mk_iff])
    | split

theorem askSource_kept {s : State} {r : Restore} {first : Nat} (h : Kept v s) :
    Kept v (askSource s r first) := by
  unfold askSource
  repeat' first
    | (with_reducible first | assumption | intro _ | apply sendCtrl_kept | apply Kept.c)
    | (simp only [Kept.mk_iff])
    | split

theorem Kept.schedOpen {w : State} (h : Kept v w) : Kept v { w with mem := { w.mem with schedOpen := true } } := Kept.c h

theorem takePage_kept {s : State} {r : Restore} {b : List Byte} (h : Kept v s) :
    Kept v (takePage s r b) := by
  have hws : ∀ (t : State) (c : List Byte), Kept v t → Kept v (writeSched t c).2 := fun _ _ ht => writeSched_kept ht
  unfold takePage
  revert hws
  generalize writeSched = ws
  generalize schedAddr = sa
  intro hws
  dsimp only
  split
  · split
    · exact restoreExit_kept h
    · exact askSource_kept (setRestore_kept h)
  · split
    · split
      · apply dset_kept
        apply Kept.schedOpen
        apply hws
        exact dcount_kept (setRestore_kept h)
      · exact restoreExit_kept (dcount_kept (setRestore_kept h))
    · exact writeGranules_kept (dcount_kept (setRestore_kept h))

theorem fillStep_kept {fuel : Nat} {a1 : State} (h : Kept v a1) :
    Kept v (fillStep fuel a1) := by
  induction fuel generalizing a1 with
  | zero => exact h
  | succ n ih =>
    unfold fillStep
    split
    · exact h
    · rename_i r _
      split
      · exact h
      · split
        · exact verifyStep_kept h
        · generalize r.ready = o
          cases o with
          | none => exact h
          | some b => exact ih (takePage_kept h)

theorem restorePage_kept {s : State} {peer : Nat} {gen : Nat} {k : Nat} {j : Nat} {b : List Byte} (h : Kept v s) :
    Kept v (restorePage s peer gen k j b) := by
  unfold restorePage
  repeat' first
    | (with_reducible first | assumption | intro _ | apply setRestore_kept | apply fillStep_kept | apply Kept.c)
    | (simp only [Kept.mk_iff])
    | split

theorem hostPageRead_kept {s : State} {b : List Byte} (h : Kept v s) :
    Kept v (hostPageRead s b) := by
  unfold hostPageRead
  repeat' first
    | (with_reducible first | assumption | intro _ | apply takePage_kept | apply fillStep_kept | apply Kept.c)
    | (simp only [Kept.mk_iff])
    | split

theorem compareLists_kept {s : State} (h : Kept v s) :
    Kept v (compareLists s) := by
  unfold compareLists
  repeat' first
    | (with_reducible first | assumption | intro _ | apply askSource_kept | apply setRestore_kept)
    | (with_reducible first | apply restoreExit_kept | apply Kept.c)
    | (simp only [Kept.mk_iff])
    | split

theorem restoreDigests_kept {s : State} {peer : Nat} {gen : Nat} {first : Nat} {b : List Byte} (h : Kept v s) :
    Kept v (restoreDigests s peer gen first b) := by
  unfold restoreDigests
  repeat' first
    | (with_reducible first | assumption | intro _ | apply setRestore_kept | apply Kept.c)
    | (simp only [Kept.mk_iff])
    | split

theorem restoreListEnd_kept {s : State} {peer : Nat} {gen : Nat} {count : Nat} {digest : Nat} (h : Kept v s) :
    Kept v (restoreListEnd s peer gen count digest) := by
  unfold restoreListEnd
  repeat' first
    | (with_reducible first | assumption | intro _ | apply compareLists_kept | apply setRestore_kept)
    | (with_reducible first | apply Kept.c)
    | (simp only [Kept.mk_iff])
    | split

theorem restoreStart_kept {s : State} {hostList : List Byte} (h : Kept v s) :
    Kept v (restoreStart s hostList) := by
  unfold restoreStart
  split
  · exact dset_kept h
  · split
    · exact dset_kept h
    · extract_lets src rep0 rep gen origin s1 s2 own hostL r s3 ask
      have h1 : Kept v s1 := by
        show Kept v (if _ then _ else _)
        split
        · exact h
        · exact emptyHolder_kept (emptyHolder_kept h)
      have h3 : Kept v s3 := setRestore_kept (dset_kept (dset_kept (dset_kept h1)))
      have ha : ∀ t p, Kept v t → Kept v (ask t p) := by
        intro t p ht
        show Kept v (if _ then _ else _)
        split
        · exact ht
        · exact sendCtrl_kept ht
      split
      · exact restoreExit_kept h3
      · split
        · exact restoreExit_kept h3
        · split
          · exact restoreExit_kept h3
          · exact compareLists_kept (ha _ _ (ha _ _ h3))

theorem restoreAbort_kept {s : State} (h : Kept v s) :
    Kept v (restoreAbort s) := by
  unfold restoreAbort
  repeat' first
    | (with_reducible first | assumption | intro _ | apply restoreExit_kept | apply Kept.c)
    | (simp only [Kept.mk_iff])
    | split

theorem restoreUnavailable_kept {s : State} {peer : Nat} {gen : Nat} (h : Kept v s) :
    Kept v (restoreUnavailable s peer gen) := by
  unfold restoreUnavailable
  repeat' first
    | (with_reducible first | assumption | intro _ | apply restoreExit_kept | apply Kept.c)
    | (simp only [Kept.mk_iff])
    | split

theorem refused_kept {s : State} {peer : Nat} {gen : Nat} (h : Kept v s) :
    Kept v (refused s peer gen) := by
  unfold refused
  repeat' first
    | (with_reducible first | assumption | intro _ | apply freezeFail_kept | apply restoreExit_kept)
    | (with_reducible first | apply Kept.c)
    | (simp only [Kept.mk_iff])
    | split

theorem endAck_kept {s : State} {peer : Nat} {gen : Nat} (h : Kept v s) :
    Kept v (endAck s peer gen) := by
  unfold endAck
  repeat' first
    | (with_reducible first | assumption | intro _ | apply freezeComplete_kept | apply Kept.c)
    | (simp only [Kept.mk_iff])
    | split

theorem pageDigestDone_kept {s : State} {unit : Nat} {host : List Byte} (h : Kept v s) :
    Kept v (pageDigestDone s unit host) := by
  unfold pageDigestDone
  repeat' first
    | (with_reducible first | assumption | intro _ | apply digestPage_kept | apply hostPageRead_kept)
    | (with_reducible first | apply Kept.c)
    | (simp only [Kept.mk_iff])
    | split

theorem ckLost_kept {s : State} {peer : Nat} {gone : Bool} (h : Kept v s) :
    Kept v (ckLost s peer gone) := by
  unfold ckLost
  repeat' first
    | (with_reducible first | assumption | intro _ | apply abandon_kept | apply targetLost_kept)
    | (with_reducible first | apply freezeFail_kept | apply restoreExit_kept | apply Kept.c)
    | (simp only [Kept.mk_iff])
    | split

theorem pathLost_kept {s : State} {peer : Nat} {port : Nat} {reason : Nat} (h : Kept v s) :
    Kept v (pathLost s peer port reason) := by
  unfold pathLost
  repeat' first
    | (with_reducible first | assumption | intro _ | apply losePath_kept | apply ckLost_kept | apply Kept.c)
    | (simp only [Kept.mk_iff])
    | split

theorem peerLost_kept {s : State} {peer : Nat} {reason : Nat} (h : Kept v s) :
    Kept v (peerLost s peer reason) := by
  unfold peerLost
  repeat' first
    | (with_reducible first | assumption | intro _ | apply Kept.foldl | apply Kept.foldlFst)
    | (with_reducible first | apply Kept.foldlSnd | apply pathLost_kept | apply Kept.c)
    | (simp only [Kept.mk_iff])
    | split

theorem sessionChanged_kept {s : State} {peer : Nat} {session : Nat} (h : Kept v s) :
    Kept v (sessionChanged s peer session) := by
  unfold sessionChanged
  repeat' first
    | (with_reducible first | assumption | intro _ | apply newSession_kept | apply ckLost_kept)
    | (with_reducible first | apply startPairing_kept | apply Kept.c)
    | (simp only [Kept.mk_iff])
    | split

theorem ckFenced_kept {s : State} {st : Nat} {c : Nat} (h : Kept v s) :
    Kept v (ckFenced s st c) := by
  unfold ckFenced
  repeat' first
    | (with_reducible first | assumption | intro _ | apply holdersFenced_kept | apply freezeFail_kept)
    | (with_reducible first | apply restoreExit_kept | apply Kept.c)
    | (simp only [Kept.mk_iff])
    | split

theorem streamFailed_kept {s : State} (h : Kept v s) :
    Kept v (streamFailed s) := by
  unfold streamFailed
  repeat' first
    | (with_reducible first | assumption | intro _ | apply Kept.foldl | apply Kept.foldlFst)
    | (with_reducible first | apply Kept.foldlSnd | apply freezeFail_kept | apply pageUnavailable_kept)
    | (with_reducible first | apply Kept.c)
    | (simp only [Kept.mk_iff])
    | split

theorem pumpTurn_kept {s : State} (h : Kept v s) :
    Kept v (pumpTurn s) := by
  unfold pumpTurn
  repeat' first
    | (with_reducible first | assumption | intro _ | apply pumpRounds_kept | apply serveAdvance_kept)
    | (with_reducible first | apply streamFailed_kept | apply collCheckAll_kept | apply freezeAdvance_kept)
    | (with_reducible first | apply freezeStep_kept)
    | (with_reducible first | apply Kept.c)
    | (with_reducible refine Kept.fst (by assumption) ?_)
    | (simp only [Kept.mk_iff])
    | split

theorem pump_kept {s : State} (h : Kept v s) :
    Kept v (pump s) := by
  unfold pump
  repeat' first
    | (with_reducible first | assumption | intro _ | apply verifyStep_kept | apply pumpTurn_kept | apply Kept.c)
    | (simp only [Kept.mk_iff])
    | split

end Sys2Proof.Machine
end

