-- ==== Sys2Proof/Laws/KeepSnapshot.lean ====
section
/-!
SUPPORT. What the operations of Machine/Snapshot.lean keep (Laws/Keep.lean).
-/

namespace Sys2Proof.Machine

set_option linter.unusedSimpArgs false

variable {v : View}

theorem snapMissed_kept {s : State} (h : Kept v s) :
    Kept v (snapMissed s) := by
  unfold snapMissed
  repeat' first
    | (with_reducible first | assumption | intro _ | apply hubEvent_kept | apply dcount_kept | apply Kept.c)
    | (simp only [Kept.mk_iff])
    | split

theorem sendMarkers_kept {s : State} {number : Nat} {origin : Nat} (h : Kept v s) :
    Kept v (sendMarkers s number origin) := by
  unfold sendMarkers
  repeat' first
    | (with_reducible first | assumption | intro _ | apply Kept.foldl | apply Kept.foldlFst)
    | (with_reducible first | apply Kept.foldlSnd | apply enqueue_kept | apply Kept.c)
    | (simp only [Kept.mk_iff])
    | split

theorem joinCut_kept {s : State} {origin : Nat} {number : Nat} (h : Kept v s) :
    Kept v (joinCut s origin number) := by
  unfold joinCut
  repeat' first
    | (with_reducible first | assumption | intro _ | apply dset_kept | apply sendMarkers_kept | apply Kept.c)
    | (simp only [Kept.mk_iff])
    | split

theorem launchDebug_kept {s : State} {xnum : Nat} {xorigin : Nat} (h : Kept v s) :
    Kept v (launchDebug s xnum xorigin) := by
  unfold launchDebug
  repeat' first
    | (with_reducible first | assumption | intro _ | apply launchWave_kept | apply dset_kept | apply Kept.c)
    | (simp only [Kept.mk_iff])
    | split

theorem snapTrigger_kept {s : State} (h : Kept v s) :
    Kept v (snapTrigger s) := by
  unfold snapTrigger
  repeat' first
    | (with_reducible first | assumption | intro _ | apply launchDebug_kept | apply snapMissed_kept)
    | (with_reducible first | apply joinCut_kept | apply Kept.c)
    | (simp only [Kept.mk_iff])
    | split

theorem snapArmedTrigger_kept {s : State} {source : Nat} (h : Kept v s) :
    Kept v (snapArmedTrigger s source) := by
  unfold snapArmedTrigger
  repeat' first
    | (with_reducible first | assumption | intro _ | apply snapTrigger_kept | apply Kept.c)
    | (simp only [Kept.mk_iff])
    | split

theorem writeSnapTrigger_kept {s : State} {a1 : Nat} (h : Kept v s) :
    Kept v (writeSnapTrigger s a1) := by
  unfold writeSnapTrigger
  repeat' first
    | (with_reducible first | assumption | intro _ | apply snapTrigger_kept | apply Kept.c)
    | (simp only [Kept.mk_iff])
    | split

theorem snapEvent_kept {s : State} {source : Nat} (h : Kept v s) :
    Kept v (snapEvent s source) := by
  unfold snapEvent
  repeat' first
    | (with_reducible first | assumption | intro _ | apply snapArmedTrigger_kept | apply Kept.c)
    | (simp only [Kept.mk_iff])
    | split

theorem markerFrame_kept {s : State} {key : Nat} {number : Nat} {origin : Nat} (h : Kept v s) :
    Kept v (markerFrame s key number origin) := by
  unfold markerFrame
  repeat' first
    | (with_reducible first | assumption | intro _ | apply launchDebug_kept | apply snapMissed_kept)
    | (with_reducible first | apply joinCut_kept | apply Kept.c)
    | (simp only [Kept.mk_iff])
    | split

theorem countCut_kept {s : State} {key : Nat} (h : Kept v s) :
    Kept v (countCut s key) := by
  unfold countCut
  repeat' first
    | (with_reducible first | assumption | intro _ | apply Kept.c)
    | (simp only [Kept.mk_iff])
    | split

theorem launchWaiting_kept {s : State} (h : Kept v s) :
    Kept v (launchWaiting s) := by
  unfold launchWaiting
  repeat' first
    | (with_reducible first | assumption | intro _ | apply launchFreeze_kept | apply Kept.c)
    | (simp only [Kept.mk_iff])
    | split

theorem snapIn_kept {s : State} (h : Kept v s) :
    Kept v (snapIn s) := by
  unfold snapIn
  split
  · exact snapArmedTrigger_kept h
  · exact h

theorem debugCutDone_kept {s : State} {c : Cut} (h : Kept v s) :
    Kept v (debugCutDone s c) := by
  unfold debugCutDone
  repeat' first
    | (with_reducible first | assumption | intro _ | apply hubEvent_kept | apply dset_kept | apply Kept.c)
    | (simp only [Kept.mk_iff])
    | split

theorem cutCheck_kept {s : State} (h : Kept v s) :
    Kept v (cutCheck s) := by
  unfold cutCheck
  repeat' first
    | (with_reducible first | assumption | intro _ | apply freezeCutDone_kept | apply debugCutDone_kept)
    | (with_reducible first | apply endWave_kept)
    | (with_reducible first | apply launchWaiting_kept | apply dset_kept | apply Kept.c)
    | (simp only [Kept.mk_iff])
    | split

theorem markerAck_kept {s : State} {ut : Nat} {u : Nat} (h : Kept v s) :
    Kept v (markerAck s ut u) := by
  unfold markerAck
  repeat' first
    | (with_reducible first | apply takeEmber_kept)
    | (with_reducible first | assumption | intro _ | apply cutCheck_kept | apply Kept.c)
    | (simp only [Kept.mk_iff])
    | split

theorem snapOutEnd_kept {s : State} (h : Kept v s) :
    Kept v (snapOutEnd s) := by
  unfold snapOutEnd
  repeat' first
    | (with_reducible first | assumption | intro _ | apply Kept.c)
    | (simp only [Kept.mk_iff])
    | split

theorem snapResume_kept {s : State} {a1 : Nat} (h : Kept v s) :
    Kept v (snapResume s a1) := by
  unfold snapResume
  repeat' first
    | (with_reducible first | assumption | intro _ | apply Kept.foldl | apply Kept.foldlFst)
    | (with_reducible first | apply Kept.foldlSnd | apply setEng_kept | apply launchWaiting_kept)
    | (with_reducible first | apply dset_kept | apply Kept.c)
    | (simp only [Kept.mk_iff])
    | split

end Sys2Proof.Machine
end

