-- ==== Sys2Proof/Laws/KeepCordRx.lean ====
section
/-!
SUPPORT. What the operations of Machine/CordRx.lean keep (Laws/Keep.lean).
-/

namespace Sys2Proof.Machine

set_option linter.unusedSimpArgs false

variable {v : View}

theorem cordDrop_kept {s : State} (h : Kept v s) :
    Kept v (cordDrop s) := by
  unfold cordDrop
  repeat' first
    | (with_reducible first | assumption | intro _ | apply dcount_kept | exact KeptT.busy)
    | (with_reducible first | exact KeptT.notPosted | apply KeptT.done | apply KeptT.drop | apply takeRa_kept)
    | (with_reducible first | apply takeGather_kept | apply Kept.c)
    | (with_reducible refine KeptT.use (by assumption) ?_)
    | (with_reducible refine KeptT.useDrop (by assumption) ?_)
    | (simp only [Kept.mk_iff])
    | split

theorem rxCheck_kept {s : State} {port : Nat} {type : Nat} {f : CordFrame} {k : State → CordFrame → State} (h : Kept v s)
    (hk : ∀ t g, Kept v t → Kept v (k t g)) :
    Kept v (rxCheck s port type f k) := by
  unfold rxCheck
  repeat' first
    | (with_reducible first | assumption | intro _ | apply cordDrop_kept | apply dcount_kept | apply hk | apply Kept.c)
    | (simp only [Kept.mk_iff])
    | split

theorem rxSession_kept {s : State} {peer : Nat} {port : Nat} {f : CordFrame} {hold : Bool} (h : Kept v s) :
    KeptO v (rxSession s peer port f hold) := by
  unfold rxSession
  repeat' first
    | (with_reducible first | assumption | intro _ | exact KeptO.none | apply KeptO.some)
    | (with_reducible first | apply sessionChanged_kept | exact KeptT.busy | exact KeptT.notPosted)
    | (with_reducible first | apply KeptT.done | apply KeptT.drop | apply takeRa_kept | apply takeGather_kept | apply Kept.c)
    | (with_reducible refine KeptT.use (by assumption) ?_)
    | (with_reducible refine KeptT.useDrop (by assumption) ?_)
    | (simp only [Kept.mk_iff])
    | split

theorem rxFrame_kept {s : State} {peer : Nat} {port : Nat} {f : CordFrame} {k : State → State} (h : Kept v s) (hk : ∀ t, Kept v t → Kept v (k t)) :
    Kept v (rxFrame s peer port f k) := by
  unfold rxFrame
  repeat' first
    | (with_reducible first | assumption | intro _ | apply countCut_kept | apply rxSession_kept)
    | (with_reducible first | apply pump_kept | apply hk | exact KeptT.busy | exact KeptT.notPosted)
    | (with_reducible first | apply KeptT.done | apply KeptT.drop | apply takeRa_kept | apply takeGather_kept | apply Kept.c)
    | (with_reducible refine KeptO.use (by assumption) ?_)
    | (with_reducible refine KeptT.use (by assumption) ?_)
    | (with_reducible refine KeptT.useDrop (by assumption) ?_)
    | (simp only [Kept.mk_iff])
    | split

/-- Of what a receiver makes of a frame. -/
def KeptT (v : View) : Taken → Prop
  | .done s | .drop s => Kept v s
  | .notPosted | .busy => True

theorem KeptT.done {s : State} (h : Kept v s) : KeptT v (.done s) := h
theorem KeptT.drop {s : State} (h : Kept v s) : KeptT v (.drop s) := h
theorem KeptT.busy : KeptT v .busy := trivial
theorem KeptT.notPosted : KeptT v .notPosted := trivial
theorem KeptT.use {x : Taken} {s : State} (e : x = .done s) (h : KeptT v x) : Kept v s := by subst e; exact h
theorem KeptT.useDrop {x : Taken} {s : State} (e : x = .drop s) (h : KeptT v x) : Kept v s := by subst e; exact h

theorem sendAck_kept {s : State} {key : Nat} (h : Kept v s) :
    Kept v (sendAck s key) := by
  unfold sendAck
  repeat' first
    | (with_reducible first | assumption | intro _ | apply setChan_kept | apply sendPlain_kept)
    | (with_reducible first | exact KeptT.busy | exact KeptT.notPosted | apply KeptT.done | apply KeptT.drop | apply takeRa_kept)
    | (with_reducible first | apply takeGather_kept | apply Kept.c)
    | (with_reducible refine KeptT.use (by assumption) ?_)
    | (with_reducible refine KeptT.useDrop (by assumption) ?_)
    | (simp only [Kept.mk_iff])
    | split

theorem sendNak_kept {s : State} {key : Nat} {code : Nat} (h : Kept v s) :
    Kept v (sendNak s key code) := by
  unfold sendNak
  repeat' first
    | (with_reducible first | assumption | intro _ | apply sendPlain_kept | exact KeptT.busy)
    | (with_reducible first | exact KeptT.notPosted | apply KeptT.done | apply KeptT.drop | apply takeRa_kept)
    | (with_reducible first | apply takeGather_kept | apply Kept.c)
    | (with_reducible refine KeptT.use (by assumption) ?_)
    | (with_reducible refine KeptT.useDrop (by assumption) ?_)
    | (simp only [Kept.mk_iff])
    | split

theorem rxSeq_kept {s : State} {key : Nat} {f : CordFrame} {take : State → Taken} (h : Kept v s) (htake : ∀ t, Kept v t → KeptT v (take t)) :
    Kept v (rxSeq s key f take) := by
  unfold rxSeq
  repeat' first
    | (with_reducible first | assumption | intro _ | apply sendNak_kept | apply sendAck_kept)
    | (with_reducible first | apply setChan_kept | apply htake | exact KeptT.busy | exact KeptT.notPosted)
    | (with_reducible first | apply KeptT.done | apply KeptT.drop | apply takeRa_kept | apply takeGather_kept | apply Kept.c)
    | (with_reducible refine KeptT.use (by assumption) ?_)
    | (with_reducible refine KeptT.useDrop (by assumption) ?_)
    | (simp only [Kept.mk_iff])
    | split

theorem rxSequenced_kept {s : State} {peer : Nat} {port : Nat} {f : CordFrame} {take : State → Taken} (h : Kept v s) (htake : ∀ t, Kept v t → KeptT v (take t)) :
    Kept v (rxSequenced s peer port f take) := by
  unfold rxSequenced
  repeat' first
    | (with_reducible first | assumption | intro _ | apply rxSeq_kept | apply rxFrame_kept | apply htake)
    | (with_reducible first | exact KeptT.busy | exact KeptT.notPosted | apply KeptT.done | apply KeptT.drop | apply takeRa_kept)
    | (with_reducible first | apply takeGather_kept | apply Kept.c)
    | (with_reducible refine KeptT.use (by assumption) ?_)
    | (with_reducible refine KeptT.useDrop (by assumption) ?_)
    | (simp only [Kept.mk_iff])
    | split

theorem frameRequestCheck_kept {s : State} {a1 : Nat} {i : Nat} {bad : Option Nat} {hit : Option RaHit} (h : Kept v s) :
    Kept v (frameRequestCheck s a1 i bad hit).2 := by
  unfold frameRequestCheck
  repeat' first
    | (with_reducible first | assumption | intro _ | apply dcount_kept | apply laneFault_kept)
    | (with_reducible first | apply takeHit_kept | apply KeptO.getD | apply Kept.c)
    | (with_reducible refine Kept.snd (by assumption) ?_)
    | (simp only [Kept.mk_iff])
    | split

theorem applyChunks_kept {s : State} {a1 : Via} {fmt : Fmt} {bb : Int} {addr : Nat} {i : Nat} {pos : Nat} {hit : Option RaHit} {a8 : List (List Nat)} (h : Kept v s) :
    Kept v (applyChunks s a1 fmt bb addr i pos hit a8).2 := by
  induction a8 generalizing s a1 fmt bb addr i pos hit with
  | nil =>
    unfold applyChunks
    repeat' first
      | (with_reducible first | assumption | intro _ | apply applyRa_kept | apply frameRequestCheck_kept)
      | (with_reducible first | apply KeptO.getD | apply Kept.c)
      | (with_reducible refine Kept.snd (by assumption) ?_)
      | (simp only [Kept.mk_iff])
      | split
  | cons x r ih =>
    unfold applyChunks
    repeat' first
      | (with_reducible first | assumption | intro _ | apply applyRa_kept | apply frameRequestCheck_kept)
      | (with_reducible first | apply KeptO.getD | apply ih | apply Kept.c)
      | (with_reducible refine Kept.snd (by assumption) ?_)
      | (simp only [Kept.mk_iff])
      | split

theorem collGot_kept {s : State} {c : Coll} {rank : Nat} {n : Nat} (h : Kept v s) :
    Kept v (collGot s c rank n) := by
  unfold collGot
  repeat' first
    | (with_reducible first | assumption | intro _ | apply setColl_kept | exact KeptT.busy)
    | (with_reducible first | exact KeptT.notPosted | apply KeptT.done | apply KeptT.drop | apply takeRa_kept)
    | (with_reducible first | apply takeGather_kept | apply Kept.c)
    | (with_reducible refine KeptT.use (by assumption) ?_)
    | (with_reducible refine KeptT.useDrop (by assumption) ?_)
    | (simp only [Kept.mk_iff])
    | split

theorem takeRa_kept {s : State} {peer : Nat} {port : Nat} {f : CordFrame} {hit : Option RaHit} (h : Kept v s) :
    KeptT v (takeRa s peer port f hit) := by
  unfold takeRa
  repeat' first
    | (with_reducible first | assumption | intro _ | exact KeptT.busy | exact KeptT.notPosted)
    | (with_reducible first | apply KeptT.done | apply KeptT.drop | apply applyChunks_kept | apply collAbort_kept)
    | (with_reducible first | apply collGot_kept | apply cordDrop_kept | apply sendPlain_kept | apply Kept.c)
    | (with_reducible refine Kept.snd (by assumption) ?_)
    | (simp only [Kept.mk_iff])
    | split

theorem takeGather_kept {s : State} {f : CordFrame} (h : Kept v s) :
    KeptT v (takeGather s f) := by
  unfold takeGather
  repeat' first
    | (with_reducible first | assumption | intro _ | apply cordDrop_kept | apply devWrite_kept)
    | (with_reducible first | apply collGot_kept | apply collAbort_kept | apply sendPlain_kept)
    | (with_reducible first | exact KeptT.busy | exact KeptT.notPosted | apply KeptT.done | apply KeptT.drop | apply takeRa_kept)
    | (with_reducible first | apply Kept.c)
    | (with_reducible refine Kept.snd (by assumption) ?_)
    | (with_reducible refine KeptT.use (by assumption) ?_)
    | (with_reducible refine KeptT.useDrop (by assumption) ?_)
    | (simp only [Kept.mk_iff])
    | split

theorem inGroup_kept {s : State} {f : CordFrame} {k : State → State} (h : Kept v s) (hk : ∀ t, Kept v t → Kept v (k t)) :
    Kept v (inGroup s f k) := by
  unfold inGroup
  repeat' first
    | (with_reducible first | assumption | intro _ | apply cordDrop_kept | apply hk | apply Kept.c)
    | (simp only [Kept.mk_iff])
    | split

theorem rxGroup_kept {s : State} {peer : Nat} {port : Nat} {f : CordFrame} {take : State → Taken} (h : Kept v s) (htake : ∀ t, Kept v t → KeptT v (take t)) :
    Kept v (rxGroup s peer port f take) := by
  unfold rxGroup
  repeat' first
    | (with_reducible first | assumption | intro _ | apply cordDrop_kept | apply rxSequenced_kept | apply htake)
    | (with_reducible first | exact KeptT.busy | exact KeptT.notPosted | apply KeptT.done | apply KeptT.drop | apply takeRa_kept)
    | (with_reducible first | apply inGroup_kept)
    | (with_reducible first | apply takeGather_kept | apply Kept.c)
    | (with_reducible refine KeptT.use (by assumption) ?_)
    | (with_reducible refine KeptT.useDrop (by assumption) ?_)
    | (simp only [Kept.mk_iff])
    | split

theorem rxEnds_kept {s : State} {peer : Nat} {port : Nat} {f : CordFrame} {reason : Nat} (h : Kept v s) :
    Kept v (rxEnds s peer port f reason) := by
  unfold rxEnds
  repeat' first
    | (with_reducible first | assumption | intro _ | apply collAbort_kept | apply inGroup_kept)
    | (with_reducible first | apply rxFrame_kept | apply Kept.c)
    | (simp only [Kept.mk_iff])
    | split

theorem rxAck_kept {s : State} {peer : Nat} {port : Nat} {f : CordFrame} (h : Kept v s) :
    Kept v (rxAck s peer port f) := by
  unfold rxAck
  repeat' first
    | (with_reducible first | assumption | intro _ | apply setChan_kept | apply rxFrame_kept | exact KeptT.busy)
    | (with_reducible first | exact KeptT.notPosted | apply KeptT.done | apply KeptT.drop | apply takeRa_kept)
    | (with_reducible first | apply takeGather_kept | apply Kept.c)
    | (with_reducible refine KeptT.use (by assumption) ?_)
    | (with_reducible refine KeptT.useDrop (by assumption) ?_)
    | (simp only [Kept.mk_iff])
    | split

theorem goBack_kept {s : State} {key : Nat} {from_ : Nat} (h : Kept v s) :
    Kept v (goBack s key from_) := by
  unfold goBack
  repeat' first
    | (with_reducible first | assumption | intro _ | apply pathLost_kept | apply resend_kept)
    | (with_reducible first | apply setChan_kept | exact KeptT.busy | exact KeptT.notPosted | apply KeptT.done | apply KeptT.drop)
    | (with_reducible first | apply takeRa_kept | apply takeGather_kept | apply Kept.c)
    | (with_reducible refine KeptT.use (by assumption) ?_)
    | (with_reducible refine KeptT.useDrop (by assumption) ?_)
    | (simp only [Kept.mk_iff])
    | split

theorem rxNak_kept {s : State} {peer : Nat} {port : Nat} {f : CordFrame} (h : Kept v s) :
    Kept v (rxNak s peer port f) := by
  unfold rxNak
  repeat' first
    | (with_reducible first | assumption | intro _ | apply goBack_kept | apply setChan_kept | apply rxFrame_kept)
    | (with_reducible first | exact KeptT.busy | exact KeptT.notPosted | apply KeptT.done | apply KeptT.drop | apply takeRa_kept)
    | (with_reducible first | apply takeGather_kept | apply Kept.c)
    | (with_reducible refine KeptT.use (by assumption) ?_)
    | (with_reducible refine KeptT.useDrop (by assumption) ?_)
    | (simp only [Kept.mk_iff])
    | split

theorem chanTimer_kept {s : State} {peer : Nat} {port : Nat} {ch : Nat} {k : Nat → Chan → State} (h : Kept v s) (hk : ∀ x c, Kept v (k x c)) :
    Kept v (chanTimer s peer port ch k) := by
  unfold chanTimer
  repeat' first
    | (with_reducible first | assumption | intro _ | apply pump_kept | apply hk | exact KeptT.busy)
    | (with_reducible first | exact KeptT.notPosted | apply KeptT.done | apply KeptT.drop | apply takeRa_kept)
    | (with_reducible first | apply takeGather_kept | apply Kept.c)
    | (with_reducible refine KeptT.use (by assumption) ?_)
    | (with_reducible refine KeptT.useDrop (by assumption) ?_)
    | (simp only [Kept.mk_iff])
    | split

theorem rtoExpiry_kept {s : State} {peer : Nat} {port : Nat} {ch : Nat} (h : Kept v s) :
    Kept v (rtoExpiry s peer port ch) := by
  unfold rtoExpiry
  repeat' first
    | (with_reducible first | assumption | intro _ | apply goBack_kept | apply setChan_kept | apply chanTimer_kept | exact KeptT.busy)
    | (with_reducible first | exact KeptT.notPosted | apply KeptT.done | apply KeptT.drop | apply takeRa_kept)
    | (with_reducible first | apply takeGather_kept | apply Kept.c)
    | (with_reducible refine KeptT.use (by assumption) ?_)
    | (with_reducible refine KeptT.useDrop (by assumption) ?_)
    | (simp only [Kept.mk_iff])
    | split

theorem rnrExpiry_kept {s : State} {peer : Nat} {port : Nat} {ch : Nat} (h : Kept v s) :
    Kept v (rnrExpiry s peer port ch) := by
  unfold rnrExpiry
  repeat' first
    | (with_reducible first | assumption | intro _ | apply resend_kept | apply setChan_kept)
    | (with_reducible first | apply chanTimer_kept | exact KeptT.busy | exact KeptT.notPosted | apply KeptT.done | apply KeptT.drop)
    | (with_reducible first | apply takeRa_kept | apply takeGather_kept | apply Kept.c)
    | (with_reducible refine KeptT.use (by assumption) ?_)
    | (with_reducible refine KeptT.useDrop (by assumption) ?_)
    | (simp only [Kept.mk_iff])
    | split

theorem ackTimer_kept {s : State} {peer : Nat} {port : Nat} {ch : Nat} (h : Kept v s) :
    Kept v (ackTimer s peer port ch) := by
  unfold ackTimer
  repeat' first
    | (with_reducible first | assumption | intro _ | apply sendAck_kept | apply chanTimer_kept)
    | (with_reducible first | exact KeptT.busy | exact KeptT.notPosted | apply KeptT.done | apply KeptT.drop | apply takeRa_kept)
    | (with_reducible first | apply takeGather_kept | apply Kept.c)
    | (with_reducible refine KeptT.use (by assumption) ?_)
    | (with_reducible refine KeptT.useDrop (by assumption) ?_)
    | (simp only [Kept.mk_iff])
    | split

theorem rxHeartbeat_kept {s : State} {peer : Nat} {port : Nat} {f : CordFrame} (h : Kept v s) :
    Kept v (rxHeartbeat s peer port f) := by
  unfold rxHeartbeat
  repeat' first
    | (with_reducible first | assumption | intro _ | apply rxSession_kept | apply hubEvent_kept)
    | (with_reducible first | apply pump_kept | apply startPairing_kept | exact KeptT.busy)
    | (with_reducible first | exact KeptT.notPosted | apply KeptT.done | apply KeptT.drop | apply takeRa_kept)
    | (with_reducible first | apply takeGather_kept | apply Kept.c)
    | (with_reducible refine KeptO.use (by assumption) ?_)
    | (with_reducible refine KeptT.use (by assumption) ?_)
    | (with_reducible refine KeptT.useDrop (by assumption) ?_)
    | (simp only [Kept.mk_iff])
    | split

theorem heartbeatSend_kept {s : State} {peer : Nat} {port : Nat} (h : Kept v s) :
    Kept v (heartbeatSend s peer port) := by
  unfold heartbeatSend
  repeat' first
    | (with_reducible first | assumption | intro _ | apply sendPlain_kept | exact KeptT.busy)
    | (with_reducible first | exact KeptT.notPosted | apply KeptT.done | apply KeptT.drop | apply takeRa_kept)
    | (with_reducible first | apply takeGather_kept | apply Kept.c)
    | (with_reducible refine KeptT.use (by assumption) ?_)
    | (with_reducible refine KeptT.useDrop (by assumption) ?_)
    | (simp only [Kept.mk_iff])
    | split

theorem pathSilent_kept {s : State} {peer : Nat} {port : Nat} (h : Kept v s) :
    Kept v (pathSilent s peer port) := by
  unfold pathSilent
  repeat' first
    | (with_reducible first | assumption | intro _ | apply pathLost_kept | apply pump_kept | exact KeptT.busy)
    | (with_reducible first | exact KeptT.notPosted | apply KeptT.done | apply KeptT.drop | apply takeRa_kept)
    | (with_reducible first | apply takeGather_kept | apply Kept.c)
    | (with_reducible refine KeptT.use (by assumption) ?_)
    | (with_reducible refine KeptT.useDrop (by assumption) ?_)
    | (simp only [Kept.mk_iff])
    | split

theorem rxGoingDown_kept {s : State} {peer : Nat} {port : Nat} {f : CordFrame} (h : Kept v s) :
    Kept v (rxGoingDown s peer port f) := by
  unfold rxGoingDown
  repeat' first
    | (with_reducible first | assumption | intro _ | apply rxFrame_kept | apply peerLost_kept | exact KeptT.busy)
    | (with_reducible first | exact KeptT.notPosted | apply KeptT.done | apply KeptT.drop | apply takeRa_kept)
    | (with_reducible first | apply dropPending_kept | apply pump_kept)
    | (with_reducible first | apply rxSession_kept)
    | (with_reducible first | apply takeGather_kept | apply Kept.c)
    | (with_reducible refine KeptT.use (by assumption) ?_)
    | (with_reducible refine KeptT.useDrop (by assumption) ?_)
    | (with_reducible refine KeptO.use (by assumption) ?_)
    | (simp only [Kept.mk_iff])
    | split

theorem portChange_kept {s : State} {port : Nat} {up : Bool} (h : Kept v s) :
    Kept v (portChange s port up) := by
  unfold portChange
  repeat' first
    | (with_reducible first | assumption | intro _ | apply Kept.foldl | apply Kept.foldlFst)
    | (with_reducible first | apply Kept.foldlSnd | apply pathLost_kept | apply hubEvent_kept | apply pump_kept)
    | (with_reducible first | apply dset_kept | exact KeptT.busy | exact KeptT.notPosted | apply KeptT.done | apply KeptT.drop)
    | (with_reducible first | apply takeRa_kept | apply takeGather_kept | apply Kept.c)
    | (with_reducible refine KeptT.use (by assumption) ?_)
    | (with_reducible refine KeptT.useDrop (by assumption) ?_)
    | (simp only [Kept.mk_iff])
    | split

theorem portEnables_kept {s : State} (h : Kept v s) :
    Kept v (portEnables s) := by
  unfold portEnables
  repeat' first
    | (with_reducible first | assumption | intro _ | apply Kept.foldl | apply Kept.foldlFst)
    | (with_reducible first | apply Kept.foldlSnd | apply dset_kept | apply hubEvent_kept)
    | (with_reducible first | apply portChange_kept | apply Kept.c)
    | (simp only [Kept.mk_iff])
    | split

theorem writePeerCount_kept {s : State} {a1 : Nat} (h : Kept v s) :
    Kept v (writePeerCount s a1).1 := by
  unfold writePeerCount
  repeat' first
    | (with_reducible first | assumption | intro _ | apply Kept.foldl | apply Kept.foldlFst)
    | (with_reducible first | apply Kept.foldlSnd | apply pathLost_kept | apply pump_kept | apply dset_kept)
    | (with_reducible first | apply devRead_kept | exact KeptT.busy | exact KeptT.notPosted | apply KeptT.done | apply KeptT.drop)
    | (with_reducible first | apply takeRa_kept | apply takeGather_kept | apply Kept.c)
    | (with_reducible refine Kept.snd (by assumption) ?_)
    | (with_reducible refine KeptT.use (by assumption) ?_)
    | (with_reducible refine KeptT.useDrop (by assumption) ?_)
    | (simp only [Kept.mk_iff])
    | split

theorem frameDrop_kept {s : State} {port : Nat} {b : List Byte} {fcs : Bool} (h : Kept v s) :
    Kept v (frameDrop s port b fcs) := by
  unfold frameDrop
  repeat' first
    | (with_reducible first | assumption | intro _ | apply inGroup_kept | apply rxCheck_kept | apply Kept.c)
    | (simp only [Kept.mk_iff])
    | split

theorem sendHeat_kept {s : State} {code : Nat} (h : Kept v s) :
    Kept v (sendHeat s code) := by
  unfold sendHeat
  repeat' first
    | (with_reducible first | assumption | intro _ | apply Kept.foldl | apply Kept.foldlFst)
    | (with_reducible first | apply Kept.foldlSnd | apply sendPlain_kept | exact KeptT.busy)
    | (with_reducible first | exact KeptT.notPosted | apply KeptT.done | apply KeptT.drop | apply takeRa_kept)
    | (with_reducible first | apply takeGather_kept | apply Kept.c)
    | (with_reducible refine KeptT.use (by assumption) ?_)
    | (with_reducible refine KeptT.useDrop (by assumption) ?_)
    | (simp only [Kept.mk_iff])
    | split

theorem heatNotices_kept {s : State} (h : Kept v s) :
    Kept v (heatNotices s) := by
  unfold heatNotices
  repeat' first
    | (with_reducible first | assumption | intro _ | apply sendHeat_kept | exact KeptT.busy)
    | (with_reducible first | exact KeptT.notPosted | apply KeptT.done | apply KeptT.drop | apply takeRa_kept)
    | (with_reducible first | apply takeGather_kept | apply Kept.c)
    | (with_reducible refine KeptT.use (by assumption) ?_)
    | (with_reducible refine KeptT.useDrop (by assumption) ?_)
    | (simp only [Kept.mk_iff])
    | split

theorem heatRepeat_kept {s : State} (h : Kept v s) :
    Kept v (heatRepeat s) := by
  unfold heatRepeat
  repeat' first
    | (with_reducible first | assumption | intro _ | apply sendHeat_kept | exact KeptT.busy)
    | (with_reducible first | exact KeptT.notPosted | apply KeptT.done | apply KeptT.drop | apply takeRa_kept)
    | (with_reducible first | apply takeGather_kept | apply Kept.c)
    | (with_reducible refine KeptT.use (by assumption) ?_)
    | (with_reducible refine KeptT.useDrop (by assumption) ?_)
    | (simp only [Kept.mk_iff])
    | split

theorem rxHeat_kept {s : State} {peer : Nat} {port : Nat} {f : CordFrame} (h : Kept v s) :
    Kept v (rxHeat s peer port f) := by
  unfold rxHeat
  repeat' first
    | (with_reducible first | assumption | intro _ | apply rxSession_kept | exact KeptT.busy)
    | (with_reducible first | exact KeptT.notPosted | apply KeptT.done | apply KeptT.drop | apply takeRa_kept)
    | (with_reducible first | apply takeGather_kept | apply Kept.c)
    | (with_reducible refine KeptO.use (by assumption) ?_)
    | (with_reducible refine KeptT.use (by assumption) ?_)
    | (with_reducible refine KeptT.useDrop (by assumption) ?_)
    | (simp only [Kept.mk_iff])
    | split

theorem collTimeout_kept {s : State} {post : Nat} (h : Kept v s) :
    Kept v (collTimeout s post) := by
  unfold collTimeout
  repeat' first
    | (with_reducible first | assumption | intro _ | apply collAbort_kept | apply pump_kept | exact KeptT.busy)
    | (with_reducible first | exact KeptT.notPosted | apply KeptT.done | apply KeptT.drop | apply takeRa_kept)
    | (with_reducible first | apply takeGather_kept | apply Kept.c)
    | (with_reducible refine KeptT.use (by assumption) ?_)
    | (with_reducible refine KeptT.useDrop (by assumption) ?_)
    | (simp only [Kept.mk_iff])
    | split

theorem heatLimit_kept {s : State} {post : Nat} (h : Kept v s) :
    Kept v (heatLimit s post) := by
  unfold heatLimit
  repeat' first
    | (with_reducible first | assumption | intro _ | apply collAbort_kept | apply pump_kept | exact KeptT.busy)
    | (with_reducible first | exact KeptT.notPosted | apply KeptT.done | apply KeptT.drop | apply takeRa_kept)
    | (with_reducible first | apply takeGather_kept | apply Kept.c)
    | (with_reducible refine KeptT.use (by assumption) ?_)
    | (with_reducible refine KeptT.useDrop (by assumption) ?_)
    | (simp only [Kept.mk_iff])
    | split

theorem abortAgeing_kept {s : State} {post : Nat} (h : Kept v s) :
    Kept v (abortAgeing s post) := by
  unfold abortAgeing
  repeat' first
    | (with_reducible first | assumption | intro _ | apply dropColl_kept | exact KeptT.busy)
    | (with_reducible first | exact KeptT.notPosted | apply KeptT.done | apply KeptT.drop | apply takeRa_kept)
    | (with_reducible first | apply takeGather_kept | apply Kept.c)
    | (with_reducible refine KeptT.use (by assumption) ?_)
    | (with_reducible refine KeptT.useDrop (by assumption) ?_)
    | (simp only [Kept.mk_iff])
    | split

theorem rxMarker_kept {s : State} {peer : Nat} {port : Nat} {f : CordFrame} (h : Kept v s) :
    Kept v (rxMarker s peer port f) := by
  unfold rxMarker
  repeat' first
    | (with_reducible first | assumption | intro _ | apply markerFrame_kept | apply rxSeq_kept)
    | (with_reducible first | apply rxSession_kept | apply pump_kept | exact KeptT.busy | exact KeptT.notPosted)
    | (with_reducible first | apply KeptT.done | apply KeptT.drop | apply takeRa_kept | apply takeGather_kept | apply Kept.c)
    | (with_reducible refine KeptO.use (by assumption) ?_)
    | (with_reducible refine KeptT.use (by assumption) ?_)
    | (with_reducible refine KeptT.useDrop (by assumption) ?_)
    | (simp only [Kept.mk_iff])
    | split

theorem rxPage_kept {s : State} {peer : Nat} {port : Nat} {f : CordFrame} (h : Kept v s) :
    Kept v (rxPage s peer port f) := by
  unfold rxPage
  repeat' first
    | (with_reducible first | assumption | intro _ | apply restorePage_kept | apply rxSequenced_kept)
    | (with_reducible first | apply pageReceive_kept | exact KeptT.busy | exact KeptT.notPosted)
    | (with_reducible first | apply cordDrop_kept)
    | (with_reducible first | apply KeptT.done | apply KeptT.drop | apply takeRa_kept | apply takeGather_kept | apply Kept.c)
    | (with_reducible refine Kept.snd (by assumption) ?_)
    | (with_reducible refine KeptT.use (by assumption) ?_)
    | (with_reducible refine KeptT.useDrop (by assumption) ?_)
    | (simp only [Kept.mk_iff])
    | split

theorem rxCtrl_kept {s : State} {peer : Nat} {port : Nat} {code : Nat} {f : CordFrame} {k : CordFrame → State → State}
    (h : Kept v s) (hk : ∀ g t, Kept v t → Kept v (k g t)) :
    Kept v (rxCtrl s peer port code f k) := by
  unfold rxCtrl
  exact rxCheck_kept h fun t g ht => rxSequenced_kept ht fun u hu => KeptT.done (hk g u hu)

theorem anyFreezeEnd_kept {s : State} {peer : Nat} {f : CordFrame} (h : Kept v s) :
    Kept v (anyFreezeEnd s peer f) := by
  unfold anyFreezeEnd
  repeat' first
    | (with_reducible first | assumption | intro _ | apply freezeEnd_kept | apply restoreListEnd_kept)
    | (with_reducible first | exact KeptT.busy | exact KeptT.notPosted | apply KeptT.done | apply KeptT.drop | apply takeRa_kept)
    | (with_reducible first | apply takeGather_kept | apply Kept.c)
    | (with_reducible refine KeptT.use (by assumption) ?_)
    | (with_reducible refine KeptT.useDrop (by assumption) ?_)
    | (simp only [Kept.mk_iff])
    | split

theorem anyDigests_kept {s : State} {peer : Nat} {f : CordFrame} (h : Kept v s) :
    Kept v (anyDigests s peer f) := by
  unfold anyDigests
  repeat' first
    | (with_reducible first | assumption | intro _ | apply restoreDigests_kept | apply setHolder_kept)
    | (with_reducible first | exact KeptT.busy | exact KeptT.notPosted | apply KeptT.done | apply KeptT.drop | apply takeRa_kept)
    | (with_reducible first | apply takeGather_kept | apply Kept.c)
    | (with_reducible refine KeptT.use (by assumption) ?_)
    | (with_reducible refine KeptT.useDrop (by assumption) ?_)
    | (simp only [Kept.mk_iff])
    | split

theorem beginAck_kept {s : State} {peer : Nat} {slots : Nat} (h : Kept v s) :
    Kept v (beginAck s peer slots) := by
  unfold beginAck
  repeat' first
    | (with_reducible first | assumption | intro _ | exact KeptT.busy | exact KeptT.notPosted | apply KeptT.done | apply KeptT.drop)
    | (with_reducible first | apply takeRa_kept | apply takeGather_kept | apply Kept.c)
    | (with_reducible refine KeptT.use (by assumption) ?_)
    | (with_reducible refine KeptT.useDrop (by assumption) ?_)
    | (simp only [Kept.mk_iff])
    | split

end Sys2Proof.Machine
end

