-- ==== Sys2Proof/Laws/KeepMemCmds.lean ====
section
/-!
SUPPORT. What the operations of Machine/MemCmds.lean keep (Laws/Keep.lean).
-/

namespace Sys2Proof.Machine

set_option linter.unusedSimpArgs false

variable {v : View}

theorem Kept.mapout {w : State} {x : Tab Nat} (h : Kept v w) :
    Kept v { w with flash := { w.flash with mapout := x } } := Kept.c h

theorem fenceChannel_kept {s : State} {st : Nat} {c : Nat} {inj : Bool} (h : Kept v s) :
    Kept v (fenceChannel s st c inj) := by
  unfold fenceChannel
  split
  · exact h
  · refine ckFenced_kept (raiseFault_kept (localEvent_kept (Kept.mapout (dset_kept ?_))))
    simp only [Kept.mk_iff, dropLines_cells]
    exact h.c

theorem fenceStack_kept {s : State} {st : Nat} (h : Kept v s) :
    Kept v (fenceStack s st) := by
  unfold fenceStack
  repeat' first
    | (with_reducible first | assumption | intro _ | apply Kept.foldl | apply Kept.foldlFst)
    | (with_reducible first | apply Kept.foldlSnd | apply fenceChannel_kept | apply Kept.c)
    | (simp only [Kept.mk_iff])
    | split

theorem hearthCorrected_kept {s : State} {a1 : Nat} (h : Kept v s) :
    Kept v (hearthCorrected s a1) := by
  unfold hearthCorrected
  repeat' first
    | (with_reducible first | assumption | intro _ | apply Kept.c)
    | (simp only [Kept.mk_iff])
    | split

theorem correctedError_kept {s : State} {l : Loc} (h : Kept v s) :
    Kept v (correctedError s l) := by
  unfold correctedError
  repeat' first
    | (with_reducible first | apply hearthCorrected_kept)
    | (with_reducible first | assumption | intro _ | apply localEvent_kept | apply Kept.c)
    | (simp only [Kept.mk_iff])
    | split

theorem uncorrectable_kept {s : State} {l : Loc} {inj : Bool} (h : Kept v s) :
    Kept v (uncorrectable s l inj) := by
  unfold uncorrectable
  repeat' first
    | (with_reducible first | assumption | intro _ | apply raiseFault_kept | apply fenceChannel_kept)
    | (with_reducible first | apply drawFree_kept)
    | (with_reducible first | apply Kept.c)
    | (with_reducible refine Kept.snd (by assumption) ?_)
    | (simp only [Kept.mk_iff, poisonAtom_cells])
    | split

theorem atomError_kept {s : State} {l : Loc} {err : AtomErr} (h : Kept v s) :
    Kept v (atomError s l err) := by
  unfold atomError
  repeat' first
    | (with_reducible first | assumption | intro _ | apply takeHit_kept | apply uncorrectable_kept)
    | (with_reducible first | apply correctedError_kept | apply Kept.c)
    | (with_reducible refine Kept.snd (by assumption) ?_)
    | (simp only [Kept.mk_iff])
    | split

theorem sendReply_kept {s : State} {r : MemReq} {a : MemAnswer} (h : Kept v s) :
    Kept v (sendReply s r a) := by
  unfold sendReply
  repeat' first
    | (with_reducible first | apply KeptO.getD)
    | (with_reducible first | assumption | intro _ | apply Kept.c)
    | (simp only [Kept.mk_iff])
    | split

theorem holdRequest_kept {s : State} {a1 : Nat} {r : MemReq} (h : Kept v s) :
    Kept v (holdRequest s a1 r) := by
  unfold holdRequest
  repeat' first
    | (with_reducible first | assumption | intro _ | apply Kept.c)
    | (simp only [Kept.mk_iff])
    | split

theorem keepRequest_kept {s : State} {r : MemReq} (h : Kept v s) :
    Kept v (keepRequest s r) := by
  unfold keepRequest
  repeat' first
    | (with_reducible first | assumption | intro _ | apply Kept.c)
    | (simp only [Kept.mk_iff])
    | split

theorem waitRequest_kept {s : State} {a1 : Via} {r : MemReq} {counted : Bool} (h : Kept v s) :
    Kept v (waitRequest s a1 r counted) := by
  unfold waitRequest
  repeat' first
    | (with_reducible first | assumption | intro _ | apply dcount_kept | apply holdRequest_kept)
    | (with_reducible first | apply keepRequest_kept | apply Kept.c)
    | (simp only [Kept.mk_iff])
    | split

theorem serveRequest_kept {s : State} {r : MemReq} (h : Kept v s) :
    Kept v (serveRequest s r) := by
  unfold serveRequest
  repeat' first
    | (with_reducible first | assumption | intro _ | apply sendReply_kept | apply atomicOp_kept)
    | (with_reducible first | apply waitRequest_kept | apply devRead_kept | apply devWrite_kept | apply Kept.c)
    | (with_reducible refine Kept.snd (by assumption) ?_)
    | (simp only [Kept.mk_iff])
    | split

theorem readErrors_kept {a0 : State} {a1 : List Loc} {a2 : List AtomErr} (h : Kept v a0) :
    Kept v (readErrors a0 a1 a2) := by
  induction a1 generalizing a0 a2 with
  | nil =>
    unfold readErrors
    repeat' first
      | (with_reducible first | assumption | intro _ | apply atomError_kept | apply Kept.c)
      | (simp only [Kept.mk_iff])
      | split
  | cons x r ih =>
    unfold readErrors
    repeat' first
      | (with_reducible first | assumption | intro _ | apply atomError_kept | apply ih | apply Kept.c)
      | (simp only [Kept.mk_iff])
      | split

theorem wakeStack_kept {s : State} {r : MemReq} (h : Kept v s) :
    Kept v (wakeStack s r) := by
  unfold wakeStack
  repeat' first
    | (with_reducible first | assumption | intro _ | apply Kept.c)
    | (simp only [Kept.mk_iff])
    | split

theorem reachHearth_kept {s : State} {r : MemReq} {errs : List AtomErr} (h : Kept v s) :
    Kept v (reachHearth s r errs) := by
  unfold reachHearth
  repeat' first
    | (with_reducible first | assumption | intro _ | apply dcount_kept | apply readErrors_kept)
    | (with_reducible first | apply serveRequest_kept | apply wakeStack_kept | apply Kept.c)
    | (simp only [Kept.mk_iff])
    | split

theorem memoryRequest_kept {s : State} {i : Nat} {errs : List AtomErr} (h : Kept v s) :
    Kept v (memoryRequest s i errs) := by
  unfold memoryRequest
  repeat' first
    | (with_reducible first | assumption | intro _ | apply reachHearth_kept | apply KeptO.getD)
    | (with_reducible first | apply Kept.c)
    | (simp only [Kept.mk_iff])
    | split

theorem atomicRequest_kept {s : State} {die : Option DieId} {addr : Nat} {n : Nat} {a : Amo} (h : Kept v s) :
    Kept v (atomicRequest s die addr n a) := by
  unfold atomicRequest
  repeat' first
    | (with_reducible first | assumption | intro _ | apply reachHearth_kept | apply Kept.c)
    | (simp only [Kept.mk_iff])
    | split

theorem fetchAdd_kept {s : State} {die : Option DieId} {wide : Bool} {addr : Nat} {a4 : Nat} (h : Kept v s) :
    Kept v (fetchAdd s die wide addr a4) := by
  unfold fetchAdd
  repeat' first
    | (with_reducible first | assumption | intro _ | apply atomicRequest_kept | apply Kept.c)
    | (simp only [Kept.mk_iff])
    | split

theorem compareSwap_kept {s : State} {die : Option DieId} {addr : Nat} {expected : Nat} {new : Nat} (h : Kept v s) :
    Kept v (compareSwap s die addr expected new) := by
  unfold compareSwap
  repeat' first
    | (with_reducible first | assumption | intro _ | apply atomicRequest_kept | apply Kept.c)
    | (simp only [Kept.mk_iff])
    | split

theorem newPass_kept {s : State} {a1 : Nat} (h : Kept v s) :
    Kept v (newPass s a1) := by
  unfold newPass
  repeat' first
    | (with_reducible first | assumption | intro _ | apply Kept.c)
    | (simp only [Kept.mk_iff])
    | split

theorem scrubVisit_kept {s : State} {a1 : Nat} {err : AtomErr} (h : Kept v s) :
    Kept v (scrubVisit s a1 err) := by
  unfold scrubVisit
  repeat' first
    | (with_reducible first | assumption | intro _ | apply newPass_kept | apply atomError_kept | apply Kept.c)
    | (simp only [Kept.mk_iff])
    | split

theorem stackReading_kept {s : State} {st : Nat} {reading : Option Int} (h : Kept v s) :
    Kept v (stackReading s st reading) := by
  unfold stackReading
  repeat' first
    | (with_reducible first | assumption | intro _ | apply heatNotices_kept | apply localEvent_kept)
    | (with_reducible first | apply releaseHold_kept | apply KeptO.getD)
    | (with_reducible first | apply pump_kept | apply dset_kept | apply fenceStack_kept | apply Kept.c)
    | (simp only [Kept.mk_iff])
    | split

end Sys2Proof.Machine
end

