-- ==== Sys2Proof/Laws/KeepIntegrity.lean ====
section
/-!
SUPPORT. What the operations of Machine/Integrity.lean keep (Laws/Keep.lean).
-/

namespace Sys2Proof.Machine

set_option linter.unusedSimpArgs false

variable {v : View}

theorem faultMessage_kept {s : State} {i : Nat} (h : Kept v s) :
    Kept v (faultMessage s i) := by
  unfold faultMessage
  repeat' first
    | (with_reducible first | assumption | intro _ | apply hubEvent_kept | apply dcount_kept | apply dset_kept)
    | (with_reducible first | apply emberCredit_kept)
    | (with_reducible first | apply Kept.c)
    | (simp only [Kept.mk_iff])
    | split

theorem sendHeld_kept {s : State} {src : Nat} (h : Kept v s) :
    Kept v (sendHeld s src) := by
  unfold sendHeld
  repeat' first
    | (with_reducible first | assumption | intro _ | apply Kept.c)
    | (simp only [Kept.mk_iff])
    | split

theorem emberReturn_kept {s : State} {src : Nat} (h : Kept v s) :
    Kept v (emberReturn s src) := by
  unfold emberReturn
  repeat' first
    | (with_reducible first | apply sendHeld_kept)
    | (with_reducible first | assumption | intro _ | apply Kept.c)
    | (simp only [Kept.mk_iff])
    | split

theorem hubInternal_kept {s : State} {sub : Nat} {lost : Bool} {inj : Bool} (h : Kept v s) :
    Kept v (hubInternal s sub lost inj) := by
  unfold hubInternal
  repeat' first
    | (with_reducible first | apply sendAer_kept)
    | (with_reducible first | assumption | intro _ | apply raiseFault_kept | apply toHost_kept | apply Kept.c)
    | (simp only [Kept.mk_iff])
    | split

theorem linkLost_kept {s : State} {l : Nat} {inj : Bool} (h : Kept v s) :
    Kept v (linkLost s l inj) := by
  unfold linkLost
  repeat' first
    | (with_reducible first | assumption | intro _ | apply raiseFault_kept | apply Kept.c)
    | (simp only [Kept.mk_iff])
    | split

theorem flitError_kept {s : State} {p : FlitPlace} {twice : Bool} (h : Kept v s) :
    Kept v (flitError s p twice) := by
  unfold flitError
  repeat' first
    | (with_reducible first | assumption | intro _ | apply raiseFault_kept | apply Kept.c)
    | (simp only [Kept.mk_iff])
    | split

theorem injectNow_kept {s : State} {m : Mech} {utype : Nat} {unit : Nat} (h : Kept v s) :
    Kept v (injectNow s m utype unit) := by
  unfold injectNow
  repeat' first
    | (with_reducible first | assumption | intro _ | apply raiseFault_kept | apply fenceChannel_kept)
    | (with_reducible first | apply hubInternal_kept | apply fenceStack_kept | apply linkLost_kept)
    | (with_reducible first | apply drawFree_kept | apply Kept.c)
    | (with_reducible refine Kept.snd (by assumption) ?_)
    | (simp only [Kept.mk_iff])
    | split

theorem writeFaultInject_kept {s : State} {a1 : Nat} (h : Kept v s) :
    Kept v (writeFaultInject s a1).1 := by
  unfold writeFaultInject
  repeat' first
    | (with_reducible first | assumption | intro _ | apply injectNow_kept | apply Kept.c)
    | (simp only [Kept.mk_iff])
    | split

theorem writeAlertAck_kept {s : State} {a1 : Nat} (h : Kept v s) :
    Kept v (writeAlertAck s a1) := by
  unfold writeAlertAck
  repeat' first
    | (with_reducible first | assumption | intro _ | apply Kept.c)
    | (simp only [Kept.mk_iff])
    | split

theorem writeUnretire_kept {s : State} {a1 : Nat} (h : Kept v s) :
    Kept v (writeUnretire s a1).1 := by
  unfold writeUnretire
  repeat' first
    | (with_reducible first | assumption | intro _ | apply setEng_kept | apply Kept.c)
    | (simp only [Kept.mk_iff])
    | split

theorem proofFailed_kept {s : State} {m : FaultMsg} (h : Kept v s) :
    Kept v (proofFailed s m) := by
  unfold proofFailed
  repeat' first
    | (with_reducible first | assumption | intro _ | apply raiseFault_kept | apply dcount_kept | apply Kept.c)
    | (simp only [Kept.mk_iff])
    | split

theorem coreProof_kept {s : State} {core : Nat} {c : CoreProof} (h : Kept v s) :
    Kept v (coreProof s core c) := by
  unfold coreProof
  repeat' first
    | (with_reducible first | assumption | intro _ | apply Kept.foldl | apply Kept.foldlFst)
    | (with_reducible first | apply Kept.foldlSnd | apply proofFailed_kept | apply Kept.c)
    | (simp only [Kept.mk_iff])
    | split

theorem engineProof_kept {s : State} {e : Nat} {fails : Bool} {c : CoreProof} (h : Kept v s) :
    Kept v (engineProof s e fails c) := by
  unfold engineProof
  repeat' first
    | (with_reducible first | assumption | intro _ | apply retireEngine_kept | apply proofFailed_kept)
    | (with_reducible first | apply setEng_kept | apply coreProof_kept | apply drawFree_kept | apply Kept.c)
    | (with_reducible refine Kept.snd (by assumption) ?_)
    | (simp only [Kept.mk_iff])
    | split

theorem proofTest_kept {s : State} {e : Nat} {fails : Bool} {c : CoreProof} (h : Kept v s) :
    Kept v (proofTest s e fails c) := by
  unfold proofTest
  repeat' first
    | (with_reducible first | assumption | intro _ | apply engineProof_kept | apply takeTile_kept | apply Kept.c)
    | (simp only [Kept.mk_iff])
    | split

theorem hearthProof_kept {s : State} {a1 : Nat} {lane : Option Nat} {hash : Bool} (h : Kept v s) :
    Kept v (hearthProof s a1 lane hash) := by
  unfold hearthProof
  repeat' first
    | (with_reducible first | assumption | intro _ | apply retireLane_kept | apply proofFailed_kept)
    | (with_reducible first | apply Kept.c)
    | (simp only [Kept.mk_iff])
    | split

end Sys2Proof.Machine
end

