-- ==== Sys2Proof/Laws/KeepQuench.lean ====
section
/-!
SUPPORT. What the operations of Machine/Quench.lean keep (Laws/Keep.lean).
-/

namespace Sys2Proof.Machine

set_option linter.unusedSimpArgs false

variable {v : View}

theorem resetV_kept {s : State} {which : EUnit → Bool} (h : Kept v s) :
    Kept v (resetV s which) := by
  unfold resetV
  repeat' first
    | (with_reducible first | assumption | intro _ | apply Kept.c | apply KeptC.dfilter)
    | (simp only [Kept.mk_iff])
    | split

theorem quenchSeq_kept {s : State} {q : Nat} (h : Kept v s) :
    Kept v (quenchSeq s q) := by
  unfold quenchSeq
  repeat' first
    | (with_reducible first | assumption | intro _ | apply endStrand_kept | apply setSeq_kept | apply Kept.c)
    | (simp only [Kept.mk_iff])
    | split

theorem quenchEngine_kept {s : State} {e : Nat} (h : Kept v s) :
    Kept v (quenchEngine s e) := by
  unfold quenchEngine
  repeat' first
    | (with_reducible first | assumption | intro _ | apply Kept.foldl | apply Kept.foldlFst)
    | (with_reducible first | apply Kept.foldlSnd | apply setEng_kept | apply reassignTile_kept | apply Kept.c)
    | (simp only [Kept.mk_iff])
    | split

theorem movePart_kept {s : State} {k : Nat} {core : Nat} (h : Kept v s) :
    Kept v (movePart s k core) := by
  unfold movePart
  repeat' first
    | (with_reducible first | assumption | intro _ | apply setOp_kept | apply failOp_kept | apply Kept.c)
    | (simp only [Kept.mk_iff])
    | split

theorem ashHearthOps_kept {s : State} {hs : List Nat} (h : Kept v s) :
    Kept v (ashHearthOps s hs) := by
  unfold ashHearthOps
  repeat' first
    | (with_reducible first | assumption | intro _ | apply Kept.foldl | apply Kept.foldlFst)
    | (with_reducible first | apply Kept.foldlSnd | apply failOp_kept | apply Kept.c)
    | (simp only [Kept.mk_iff])
    | split

theorem moveParts_kept {s : State} {core : Nat} (h : Kept v s) :
    Kept v (moveParts s core) := by
  unfold moveParts
  repeat' first
    | (with_reducible first | assumption | intro _ | apply Kept.foldl | apply Kept.foldlFst)
    | (with_reducible first | apply Kept.foldlSnd | apply movePart_kept | apply Kept.c)
    | (simp only [Kept.mk_iff])
    | split

theorem fenceUnit_kept {s : State} {kind : Nat} {unit : Nat} (h : Kept v s) :
    Kept v (fenceUnit s kind unit) := by
  unfold fenceUnit
  repeat' first
    | (with_reducible first | assumption | intro _ | apply Kept.foldl | apply Kept.foldlFst)
    | (with_reducible first | apply Kept.foldlSnd | apply quenchSeq_kept | apply setEng_kept)
    | (with_reducible first | apply ashHearthOps_kept | apply cutCheck_kept | apply quenchEngine_kept)
    | (with_reducible first | apply waveQuench_kept | apply moveParts_kept | apply Kept.c)
    | (simp only [Kept.mk_iff])
    | split

theorem resetCore_kept {s : State} {c : Nat} (h : Kept v s) :
    Kept v (resetCore s c) := by
  unfold resetCore
  repeat' first
    | (with_reducible first | assumption | intro _ | apply Kept.foldl | apply Kept.foldlFst)
    | (with_reducible first | apply Kept.foldlSnd | apply setEng_kept | apply setSeq_kept | apply Kept.c)
    | (simp only [Kept.mk_iff])
    | split

theorem resetClusterUnit_kept {s : State} {c : Nat} (h : Kept v s) :
    Kept v (resetClusterUnit s c) := by
  unfold resetClusterUnit
  repeat' first
    | (with_reducible first | assumption | intro _ | apply resetV_kept | apply Kept.c)
    | (simp only [Kept.mk_iff])
    | split

theorem resetHearthMem_kept {s : State} {a1 : Nat} {faulty : Bool} (h : Kept v s) :
    Kept v (resetHearthMem s a1 faulty) := by
  unfold resetHearthMem
  repeat' first
    | (with_reducible first | assumption | intro _ | apply hubEvent_kept | apply Kept.c | apply KeptC.writeBack)
    | (with_reducible first | apply KeptC.filter)
    | (simp only [Kept.mk_iff, dropLines_cells])
    | split

theorem resetDieUnit_kept {s : State} {d : Nat} (h : Kept v s) :
    Kept v (resetDieUnit s d) := by
  unfold resetDieUnit
  repeat' first
    | (with_reducible first | assumption | intro _ | apply Kept.foldl | apply Kept.foldlFst)
    | (with_reducible first | apply Kept.foldlSnd | apply withdrawTarget_kept | apply setSeq_kept)
    | (with_reducible first | apply releaseHold_kept)
    | (with_reducible first | apply resetV_kept | apply Kept.c)
    | (simp only [Kept.mk_iff])
    | split

theorem resetUnit_kept {s : State} {kind : Nat} {unit : Nat} {faulty : Nat} (h : Kept v s) :
    Kept v (resetUnit s kind unit faulty) := by
  unfold resetUnit
  repeat' first
    | (with_reducible first | assumption | intro _ | apply Kept.foldl | apply Kept.foldlFst)
    | (with_reducible first | apply Kept.foldlSnd | apply resetClusterUnit_kept | apply resetDieUnit_kept)
    | (with_reducible first | apply resetHearthMem_kept | apply resetCore_kept | apply Kept.c)
    | (simp only [Kept.mk_iff])
    | split

theorem unfence_kept {s : State} {kind : Nat} {unit : Nat} (h : Kept v s) :
    Kept v (unfence s kind unit) := by
  unfold unfence
  repeat' first
    | (with_reducible first | assumption | intro _ | apply Kept.foldl | apply Kept.foldlFst)
    | (with_reducible first | apply Kept.foldlSnd | apply setEng_kept | apply setSeq_kept | apply Kept.c)
    | (simp only [Kept.mk_iff])
    | split

theorem orderQuench_kept {s : State} {kind : Nat} {unit : Nat} {cmd : Bool} (h : Kept v s) :
    Kept v (orderQuench s kind unit cmd) := by
  unfold orderQuench
  repeat' first
    | (with_reducible first | apply sendEmber_kept)
    | (with_reducible first | assumption | intro _ | apply Kept.c)
    | (simp only [Kept.mk_iff])
    | split

theorem resetCommand_kept {s : State} {kind : Nat} {limit : Nat} (h : Kept v s) :
    Kept v (resetCommand s kind limit).1 := by
  unfold resetCommand
  repeat' first
    | (with_reducible first | assumption | intro _ | apply orderQuench_kept | apply dset_kept | apply Kept.c)
    | (simp only [Kept.mk_iff])
    | split

theorem agentReset_kept {s : State} {c : Nat} (h : Kept v s) :
    Kept v (agentReset s c) := by
  unfold agentReset
  repeat' first
    | (with_reducible first | assumption | intro _ | apply orderQuench_kept | apply Kept.c)
    | (simp only [Kept.mk_iff])
    | split

theorem setQuench_kept {s : State} {i : Nat} {q : Quench} (h : Kept v s) :
    Kept v (setQuench s i q) := by
  unfold setQuench
  repeat' first
    | (with_reducible first | assumption | intro _ | apply Kept.c)
    | (simp only [Kept.mk_iff])
    | split

theorem quenchOver_kept {s : State} {i : Nat} {q : Quench} (h : Kept v s) :
    Kept v (quenchOver s i q) := by
  unfold quenchOver
  repeat' first
    | (with_reducible first | assumption | intro _ | apply dset_kept | apply Kept.c)
    | (simp only [Kept.mk_iff])
    | split

theorem dieCheckpoint_kept {s : State} {d : Nat} (h : Kept v s) :
    Kept v (dieCheckpoint s d) := by
  unfold dieCheckpoint
  repeat' first
    | (with_reducible first | assumption | intro _ | apply freezeFail_kept | apply restoreExit_kept)
    | (with_reducible first | apply releaseHold_kept)
    | (with_reducible first | apply Kept.c)
    | (simp only [Kept.mk_iff])
    | split

theorem wakeForQuench_kept {s : State} {c : Nat} (h : Kept v s) :
    Kept v (wakeForQuench s c) := by
  unfold wakeForQuench
  repeat' first
    | (with_reducible first | assumption | intro _ | apply setCluster_kept | apply Kept.c)
    | (simp only [Kept.mk_iff])
    | split

theorem quenchArrive_kept {s : State} {i : Nat} (h : Kept v s) :
    Kept v (quenchArrive s i) := by
  unfold quenchArrive
  repeat' first
    | (with_reducible first | assumption | intro _ | apply fenceUnit_kept | apply setQuench_kept)
    | (with_reducible first | apply takeEmber_kept | apply wakeForQuench_kept)
    | (with_reducible first | apply dieCheckpoint_kept | apply kickAll_kept | apply Kept.c)
    | (simp only [Kept.mk_iff])
    | split

theorem quenchNotice_kept {s : State} {i : Nat} {a2 : Nat} (h : Kept v s) :
    Kept v (quenchNotice s i a2) := by
  unfold quenchNotice
  repeat' first
    | (with_reducible first | assumption | intro _ | apply setQuench_kept | apply Kept.c)
    | (simp only [Kept.mk_iff])
    | split

theorem quenchAck_kept {s : State} {i : Nat} {faulty : Nat} (h : Kept v s) :
    Kept v (quenchAck s i faulty) := by
  unfold quenchAck
  repeat' first
    | (with_reducible first | apply emberPass_kept)
    | (with_reducible first | assumption | intro _ | exact KeptO.none | apply resetUnit_kept | apply setQuench_kept | apply Kept.c)
    | (with_reducible refine KeptO.use (by assumption) ?_)
    | (simp only [Kept.mk_iff])
    | split

theorem quenchRelease_kept {s : State} {i : Nat} (h : Kept v s) :
    Kept v (quenchRelease s i) := by
  unfold quenchRelease
  repeat' first
    | (with_reducible first | assumption | intro _ | exact KeptO.none | apply quenchOver_kept)
    | (with_reducible first | apply emberPass_kept)
    | (with_reducible first | apply unfence_kept | apply Kept.c)
    | (with_reducible refine KeptO.use (by assumption) ?_)
    | (simp only [Kept.mk_iff])
    | split

theorem dieResetDone_kept {s : State} {d : Nat} (h : Kept v s) :
    Kept v (dieResetDone s d) := by
  unfold dieResetDone
  repeat' first
    | (with_reducible first | assumption | intro _ | exact KeptO.none | apply Kept.foldl | apply Kept.foldlFst)
    | (with_reducible first | apply Kept.foldlSnd | apply quenchOver_kept | apply unfence_kept)
    | (with_reducible first | apply emberPass_kept)
    | (with_reducible first | apply kickAll_kept | apply Kept.c)
    | (with_reducible refine KeptO.use (by assumption) ?_)
    | (simp only [Kept.mk_iff])
    | split

end Sys2Proof.Machine
end

