-- ==== Sys2Proof/Laws/KeepPower.lean ====
section
/-!
SUPPORT. What the operations of Machine/Power.lean keep (Laws/Keep.lean).
-/

namespace Sys2Proof.Machine

set_option linter.unusedSimpArgs false

variable {v : View}

theorem feedTransfer_kept {s : State} (h : Kept v s) :
    Kept v (feedTransfer s) := by
  unfold feedTransfer
  repeat' first
    | (with_reducible first | assumption | intro _ | apply hubEvent_kept | apply Kept.c)
    | (simp only [Kept.mk_iff])
    | split

theorem feedEntry_kept {s : State} {f : Nat} {r : FeedReading} (h : Kept v s) :
    Kept v (feedEntry s f r) := by
  unfold feedEntry
  repeat' first
    | (with_reducible first | assumption | intro _ | apply hubEvent_kept | apply dset_kept | apply Kept.c)
    | (simp only [Kept.mk_iff])
    | split

theorem feedRead_kept {s : State} {f : Nat} {r : FeedReading} (h : Kept v s) :
    Kept v (feedRead s f r) := by
  unfold feedRead
  repeat' first
    | (with_reducible first | assumption | intro _ | apply feedTransfer_kept | apply feedEntry_kept)
    | (with_reducible first | apply Kept.c)
    | (simp only [Kept.mk_iff])
    | split

theorem feedsRead_kept {s : State} {a : FeedReading} {b : FeedReading} (h : Kept v s) :
    Kept v (feedsRead s a b) := by
  unfold feedsRead
  repeat' first
    | (with_reducible first | assumption | intro _ | apply feedTransfer_kept | apply feedEntry_kept)
    | (with_reducible first | apply Kept.c)
    | (simp only [Kept.mk_iff])
    | split

theorem setLevel_kept {s : State} {d : Nat} {a2 : Nat} (h : Kept v s) :
    Kept v (setLevel s d a2) := by
  unfold setLevel
  repeat' first
    | (with_reducible first | assumption | intro _ | apply localEvent_kept | apply dset_kept | apply Kept.c)
    | (simp only [Kept.mk_iff])
    | split

theorem setLevels_kept {s : State} (h : Kept v s) :
    Kept v (setLevels s) := by
  unfold setLevels
  repeat' first
    | (with_reducible first | assumption | intro _ | apply Kept.foldl | apply Kept.foldlFst)
    | (with_reducible first | apply Kept.foldlSnd | apply setLevel_kept | apply Kept.c)
    | (simp only [Kept.mk_iff])
    | split

theorem startLevels_kept {s : State} (h : Kept v s) :
    Kept v (startLevels s) := by
  unfold startLevels
  repeat' first
    | (with_reducible first | assumption | intro _ | apply Kept.foldl | apply Kept.foldlFst)
    | (with_reducible first | apply Kept.foldlSnd | apply setLevels_kept | apply Kept.c)
    | (simp only [Kept.mk_iff])
    | split

theorem permitWritten_kept {s : State} (h : Kept v s) :
    Kept v (permitWritten s) := by
  unfold permitWritten
  repeat' first
    | (with_reducible first | assumption | intro _ | apply setLevels_kept | apply Kept.c)
    | (simp only [Kept.mk_iff])
    | split

theorem condEvent_kept {s : State} {c : Nat} {old : Nat} (h : Kept v s) :
    Kept v (condEvent s c old) := by
  unfold condEvent
  repeat' first
    | (with_reducible first | assumption | intro _ | apply localEvent_kept | apply Kept.c)
    | (simp only [Kept.mk_iff])
    | split

theorem sendCaps_kept {s : State} {c : Nat} {hold : Bool} (h : Kept v s) :
    Kept v (sendCaps s c hold) := by
  unfold sendCaps
  repeat' first
    | (with_reducible first | assumption | intro _ | apply Kept.foldl | apply Kept.foldlFst)
    | (with_reducible first | apply Kept.foldlSnd | apply sendEmber_kept | apply Kept.c)
    | (simp only [Kept.mk_iff])
    | split

theorem updCluster_kept {s : State} {c : Nat} {f : ClusterPw → ClusterPw} (h : Kept v s) :
    Kept v (updCluster s c f) := by
  unfold updCluster
  repeat' first
    | (with_reducible first | assumption | intro _ | apply condEvent_kept | apply dset_kept)
    | (with_reducible first | apply sendCaps_kept)
    | (with_reducible first | apply setCluster_kept | apply Kept.c)
    | (simp only [Kept.mk_iff])
    | split

theorem dampCheck_kept {s : State} {c : Nat} (h : Kept v s) :
    Kept v (dampCheck s c) := by
  unfold dampCheck
  repeat' first
    | (with_reducible first | assumption | intro _ | apply updCluster_kept | apply Kept.c)
    | (simp only [Kept.mk_iff])
    | split

theorem hardCapHold_kept {s : State} {hearth : Bool} {u : Nat} (h : Kept v s) :
    Kept v (hardCapHold s hearth u) := by
  unfold hardCapHold
  repeat' first
    | (with_reducible first | assumption | intro _ | apply capHoldEngine_kept | apply dampCheck_kept)
    | (with_reducible first | apply takeEmber_kept)
    | (with_reducible first | apply Kept.c)
    | (simp only [Kept.mk_iff])
    | split

theorem hardCapRelease_kept {s : State} {hearth : Bool} {u : Nat} (h : Kept v s) :
    Kept v (hardCapRelease s hearth u) := by
  unfold hardCapRelease
  repeat' first
    | (with_reducible first | assumption | intro _ | apply takeTile_kept | apply capHoldEngine_kept)
    | (with_reducible first | apply takeEmber_kept)
    | (with_reducible first | apply Kept.c)
    | (simp only [Kept.mk_iff])
    | split

theorem clusterAwakens_kept {s : State} {c : Nat} (h : Kept v s) :
    Kept v (clusterAwakens s c) := by
  unfold clusterAwakens
  repeat' first
    | (with_reducible first | assumption | intro _ | apply Kept.foldl | apply Kept.foldlFst)
    | (with_reducible first | apply Kept.foldlSnd | apply wakeSeq_kept | apply sealOver_kept | apply Kept.c)
    | (simp only [Kept.mk_iff])
    | split

theorem clusterWake_kept {s : State} {c : Nat} (h : Kept v s) :
    Kept v (clusterWake s c) := by
  unfold clusterWake
  repeat' first
    | (with_reducible first | assumption | intro _ | apply clusterAwakens_kept | apply updCluster_kept)
    | (with_reducible first | apply Kept.c)
    | (simp only [Kept.mk_iff])
    | split

theorem dampIdle_kept {s : State} {c : Nat} (h : Kept v s) :
    Kept v (dampIdle s c) := by
  unfold dampIdle
  repeat' first
    | (with_reducible first | assumption | intro _ | apply updCluster_kept | apply Kept.c)
    | (simp only [Kept.mk_iff])
    | split

theorem turnOff_kept {s : State} {c : Nat} (h : Kept v s) :
    Kept v (turnOff s c) := by
  unfold turnOff
  repeat' first
    | (with_reducible first | assumption | intro _ | apply resetUnit_kept | apply updCluster_kept)
    | (with_reducible first | apply cutCheck_kept | apply waveOff_kept | apply Kept.c)
    | (simp only [Kept.mk_iff])
    | split

theorem trip_kept {s : State} {c : Nat} (h : Kept v s) :
    Kept v (trip s c) := by
  unfold trip
  repeat' first
    | (with_reducible first | assumption | intro _ | apply turnOff_kept | apply fenceUnit_kept)
    | (with_reducible first | apply updCluster_kept | apply localEvent_kept | apply kickAll_kept)
    | (with_reducible first | apply dset_kept | apply Kept.c)
    | (simp only [Kept.mk_iff])
    | split

theorem clusterReading_kept {s : State} {c : Nat} {reading : Option Int} (h : Kept v s) :
    Kept v (clusterReading s c reading) := by
  unfold clusterReading
  repeat' first
    | (with_reducible first | assumption | intro _ | apply updCluster_kept | apply localEvent_kept)
    | (with_reducible first | apply dset_kept | apply dampCheck_kept | apply trip_kept | apply Kept.c)
    | (simp only [Kept.mk_iff])
    | split

theorem holdUntil_kept {cap : Nat} {a1 : List Nat} {a2 : Int} {a3 : State} (h : Kept v a3) :
    Kept v (holdUntil cap a1 a2 a3) := by
  induction a1 generalizing cap a2 a3 with
  | nil =>
    unfold holdUntil
    repeat' first
      | (with_reducible first | assumption | intro _ | apply updCluster_kept | apply Kept.c)
      | (simp only [Kept.mk_iff])
      | split
  | cons x r ih =>
    unfold holdUntil
    repeat' first
      | (with_reducible first | assumption | intro _ | apply updCluster_kept | apply ih | apply Kept.c)
      | (simp only [Kept.mk_iff])
      | split

theorem capRelease_kept {s : State} {p : Nat} {cap : Nat} (h : Kept v s) :
    Kept v (capRelease s p cap) := by
  unfold capRelease
  repeat' first
    | (with_reducible first | assumption | intro _ | apply updCluster_kept | apply Kept.c)
    | (simp only [Kept.mk_iff])
    | split

theorem hardCap_kept {s : State} {p : Nat} {cap : Nat} (h : Kept v s) :
    Kept v (hardCap s p cap) := by
  unfold hardCap
  repeat' first
    | (with_reducible first | assumption | intro _ | apply holdUntil_kept | apply capRelease_kept | apply Kept.c)
    | (simp only [Kept.mk_iff])
    | split

theorem countHeld_kept {s : State} (h : Kept v s) :
    Kept v (countHeld s) := by
  unfold countHeld
  repeat' first
    | (with_reducible first | assumption | intro _ | apply Kept.foldl | apply Kept.foldlFst)
    | (with_reducible first | apply Kept.foldlSnd | apply setCluster_kept | apply Kept.c)
    | (simp only [Kept.mk_iff])
    | split

theorem lowCap_kept {s : State} {quiet : Nat} (h : Kept v s) :
    Kept v (lowCap s quiet).1 := by
  unfold lowCap
  repeat' first
    | (with_reducible first | assumption | intro _ | apply Kept.foldl | apply Kept.foldlFst)
    | (with_reducible first | apply Kept.foldlSnd | apply turnOff_kept | apply updCluster_kept)
    | (with_reducible first | apply setCluster_kept | apply Kept.c)
    | (simp only [Kept.mk_iff])
    | split

theorem capMeasures_kept {s : State} {p : Nat} {cap : Nat} {quiet : Nat} (h : Kept v s) :
    Kept v (capMeasures s p cap quiet) := by
  unfold capMeasures
  repeat' first
    | (with_reducible first | assumption | intro _ | apply Kept.foldl | apply Kept.foldlFst)
    | (with_reducible first | apply Kept.foldlSnd | apply lowCap_kept | apply hubEvent_kept | apply dset_kept)
    | (with_reducible first | apply setCluster_kept | apply Kept.c)
    | (with_reducible refine Kept.fst (by assumption) ?_)
    | (simp only [Kept.mk_iff])
    | split

theorem ageWork_kept {s : State} (h : Kept v s) :
    Kept v (ageWork s) := by
  unfold ageWork
  repeat' first
    | (with_reducible first | assumption | intro _ | apply Kept.c)
    | (simp only [Kept.mk_iff])
    | split

theorem preempt_kept {s : State} {q : Nat} (h : Kept v s) :
    Kept v (preempt s q) := by
  unfold preempt
  repeat' first
    | (with_reducible first | assumption | intro _ | apply saveStrand_kept | apply Kept.c | apply KeptO.getD)
    | (with_reducible refine KeptO.use (by assumption) ?_)
    | (simp only [Kept.mk_iff])
    | split

theorem budgetWindow_kept {s0 : State} {a : FeedReading} {b : FeedReading} {clusters : List (Option Nat)} {quiet : Nat} (h : Kept v s0) :
    Kept v (budgetWindow s0 a b clusters quiet) := by
  unfold budgetWindow
  repeat' first
    | (with_reducible first | assumption | intro _ | apply Kept.foldl | apply Kept.foldlFst)
    | (with_reducible first | apply Kept.foldlSnd | apply setLevels_kept | apply countHeld_kept)
    | (with_reducible first | apply feedsRead_kept | apply preempt_kept | apply dset_kept | apply ageWork_kept)
    | (with_reducible first | apply dampCheck_kept | apply setCluster_kept | apply hardCap_kept)
    | (with_reducible first | apply capMeasures_kept | apply Kept.c)
    | (simp only [Kept.mk_iff])
    | split

theorem sequencerSelect_kept {s : State} {q : Nat} (h : Kept v s) :
    Kept v (sequencerSelect s q) := by
  unfold sequencerSelect
  repeat' first
    | (with_reducible first | assumption | intro _ | apply resumeSaved_kept | apply kickAll_kept)
    | (with_reducible first | apply startOn_kept | apply clusterWake_kept | apply Kept.c)
    | (simp only [Kept.mk_iff])
    | split

theorem stepMonitor_kept {s : State} {counts : List Nat} (h : Kept v s) :
    Kept v (stepMonitor s counts) := by
  unfold stepMonitor
  repeat' first
    | (with_reducible first | assumption | intro _ | apply Kept.foldl | apply Kept.foldlFst)
    | (with_reducible first | apply Kept.foldlSnd | apply dset_kept | apply Kept.c)
    | (simp only [Kept.mk_iff])
    | split

theorem coolantReading_kept {s : State} {inlet : Option Int} {outlet : Option Int} (h : Kept v s) :
    Kept v (coolantReading s inlet outlet) := by
  unfold coolantReading
  repeat' first
    | (with_reducible first | assumption | intro _ | apply hubEvent_kept | apply dset_kept | apply Kept.c)
    | (simp only [Kept.mk_iff])
    | split

end Sys2Proof.Machine
end

