-- ==== Sys2Proof/Laws/KeepDictImage.lean ====
section
/-!
SUPPORT. What the operations of Machine/DictImage.lean keep (Laws/Keep.lean).
-/

namespace Sys2Proof.Machine

set_option linter.unusedSimpArgs false

variable {v : View}

theorem wset_kept {s : State} {key : Nat} {a2 : Nat} (h : Kept v s) :
    Kept v (wset s key a2) := by
  unfold wset
  repeat' first
    | (with_reducible first | assumption | intro _ | apply dset_kept | apply Kept.c)
    | (simp only [Kept.mk_iff])
    | split

theorem wdefer_kept {s : State} {key : Nat} {a2 : Nat} (h : Kept v s) :
    Kept v (wdefer s key a2) := by
  unfold wdefer
  repeat' first
    | (with_reducible first | assumption | intro _ | apply Kept.c)
    | (simp only [Kept.mk_iff])
    | split

theorem actAtStart_kept {s : State} (h : Kept v s) :
    Kept v (actAtStart s) := by
  unfold actAtStart
  repeat' first
    | (with_reducible first | assumption | intro _ | apply dset_kept | apply Kept.c)
    | (simp only [Kept.mk_iff])
    | split

theorem startBar2_kept {s : State} (h : Kept v s) :
    Kept v (startBar2 s) := by
  unfold startBar2
  repeat' first
    | (with_reducible first | assumption | intro _ | apply Kept.c)
    | (simp only [Kept.mk_iff])
    | split

theorem enterHold_kept {s : State} {cause : Nat} {at_ : Nat} (h : Kept v s) :
    Kept v (enterHold s cause at_) := by
  unfold enterHold
  repeat' first
    | (with_reducible first | assumption | intro _ | apply hubEvent_kept | apply dset_kept | apply Kept.c)
    | (simp only [Kept.mk_iff])
    | split

theorem leaveHold_kept {s : State} (h : Kept v s) :
    Kept v (leaveHold s) := by
  unfold leaveHold
  repeat' first
    | (with_reducible first | assumption | intro _ | apply actAtStart_kept | apply dset_kept | apply Kept.c)
    | (simp only [Kept.mk_iff])
    | split

theorem reloadMapout_kept {s : State} (h : Kept v s) :
    Kept v (reloadMapout s) := by
  unfold reloadMapout
  repeat' first
    | (with_reducible first | assumption | intro _ | apply Kept.foldl | apply Kept.foldlFst)
    | (with_reducible first | apply Kept.foldlSnd | apply dset_kept | apply Kept.c)
    | (simp only [Kept.mk_iff])
    | split

theorem dictLoad_kept {s : State} (h : Kept v s) :
    Kept v (dictLoad s) := by
  unfold dictLoad
  repeat' first
    | (with_reducible first | assumption | intro _ | apply Kept.foldl | apply Kept.foldlFst)
    | (with_reducible first | apply Kept.foldlSnd | apply enterHold_kept | apply actAtStart_kept)
    | (with_reducible first | apply startBar2_kept)
    | (with_reducible first | apply reloadMapout_kept | apply dset_kept | apply Kept.c)
    | (simp only [Kept.mk_iff])
    | split

theorem commitFailed_kept {s : State} {code : Nat} {target : Nat} {gen : Nat} (h : Kept v s) :
    Kept v (commitFailed s code target gen) := by
  unfold commitFailed
  repeat' first
    | (with_reducible first | assumption | intro _ | apply hubEvent_kept | apply dset_kept | apply Kept.c)
    | (simp only [Kept.mk_iff])
    | split

theorem beginCommit_kept {s : State} (h : Kept v s) :
    Kept v (beginCommit s) := by
  unfold beginCommit
  repeat' first
    | (with_reducible first | assumption | intro _ | apply dset_kept | apply Kept.c)
    | (simp only [Kept.mk_iff])
    | split

theorem writeCommit_kept {s : State} (h : Kept v s) :
    Kept v (writeCommit s).1 := by
  unfold writeCommit
  repeat' first
    | (with_reducible first | assumption | intro _ | apply commitFailed_kept | apply beginCommit_kept)
    | (with_reducible first | apply Kept.c)
    | (simp only [Kept.mk_iff])
    | split

theorem commitComplete_kept {s : State} {e : FlashEnd} (h : Kept v s) :
    Kept v (commitComplete s e) := by
  unfold commitComplete
  split
  · exact h
  · rename_i c _
    split
    · exact commitFailed_kept (Kept.c h)
    · exact commitFailed_kept (Kept.c h)
    · extract_lets _ s0 img _ fl _ s1 s2
      have h1 : Kept v s1 := by
        show KeptC v s.pending s.dict s.mem.cells (if c.target = 1 then _ else _ : FlashSys).commits
          (if c.target = 1 then _ else _ : FlashSys).openCount
        split <;> exact KeptC.commit (Kept.c h)
      have h2 : Kept v s2 := dset_kept (dset_kept (dset_kept h1))
      split
      · exact leaveHold_kept h2
      · exact h2

end Sys2Proof.Machine
end

