-- ==== Sys2Proof/Laws/KeepSecurity.lean ====
section
/-!
SUPPORT. What the operations of Machine/Security.lean keep (Laws/Keep.lean).
-/

namespace Sys2Proof.Machine

set_option linter.unusedSimpArgs false

variable {v : View}

theorem setFwState_kept {s : State} {a1 : Nat} (h : Kept v s) :
    Kept v (setFwState s a1) := by
  unfold setFwState
  repeat' first
    | (with_reducible first | assumption | intro _ | apply dset_kept | apply Kept.c)
    | (simp only [Kept.mk_iff])
    | split

theorem fwBegin_kept {s : State} (h : Kept v s) :
    Kept v (fwBegin s).1 := by
  unfold fwBegin
  repeat' first
    | (with_reducible first | assumption | intro _ | apply setFwState_kept | apply dset_kept | apply Kept.c)
    | (simp only [Kept.mk_iff])
    | split

theorem fwData_kept {s : State} {b : List Byte} (h : Kept v s) :
    Kept v (fwData s b).1 := by
  unfold fwData
  repeat' first
    | (with_reducible first | assumption | intro _ | apply dset_kept | apply Kept.c)
    | (simp only [Kept.mk_iff])
    | split

theorem fwVerify_kept {s : State} (h : Kept v s) :
    Kept v (fwVerify s).1 := by
  unfold fwVerify
  repeat' first
    | (with_reducible first | assumption | intro _ | apply Kept.c)
    | (simp only [Kept.mk_iff])
    | split

theorem verifyDone_kept {s : State} {rsa : Bool} {slh : Bool} (h : Kept v s) :
    Kept v (verifyDone s rsa slh) := by
  unfold verifyDone
  repeat' first
    | (with_reducible first | assumption | intro _ | apply setFwState_kept | apply Kept.c)
    | (simp only [Kept.mk_iff])
    | split

theorem fwArm_kept {s : State} (h : Kept v s) :
    Kept v (fwArm s).1 := by
  unfold fwArm
  repeat' first
    | (with_reducible first | assumption | intro _ | apply setFwState_kept | apply Kept.c)
    | (simp only [Kept.mk_iff])
    | split

theorem fwCancel_kept {s : State} (h : Kept v s) :
    Kept v (fwCancel s).1 := by
  unfold fwCancel
  repeat' first
    | (with_reducible first | assumption | intro _ | apply setFwState_kept | apply Kept.c)
    | (simp only [Kept.mk_iff])
    | split

theorem writeFwCmd_kept {s : State} {a1 : Nat} (h : Kept v s) :
    Kept v (writeFwCmd s a1).1 := by
  unfold writeFwCmd
  repeat' first
    | (with_reducible first | assumption | intro _ | apply fwVerify_kept | apply fwCancel_kept)
    | (with_reducible first | apply fwBegin_kept | apply fwArm_kept | apply Kept.c)
    | (with_reducible refine Kept.fst (by assumption) ?_)
    | (simp only [Kept.mk_iff])
    | split

theorem drawRandom_kept {s : State} (h : Kept v s) :
    Kept v (drawRandom s).2 := by
  unfold drawRandom
  repeat' first
    | (with_reducible first | assumption | intro _ | apply drawFree_kept | apply Kept.c)
    | (with_reducible refine Kept.snd (by assumption) ?_)
    | (simp only [Kept.mk_iff])
    | split

theorem formKeys_kept {s : State} (h : Kept v s) :
    Kept v (formKeys s) := by
  unfold formKeys
  repeat' first
    | (with_reducible first | assumption | intro _ | apply drawFree_kept | apply Kept.c)
    | (with_reducible refine Kept.snd (by assumption) ?_)
    | (simp only [Kept.mk_iff])
    | split

theorem zeroKeys_kept {s : State} (h : Kept v s) :
    Kept v (zeroKeys s) := by
  unfold zeroKeys
  repeat' first
    | (with_reducible first | assumption | intro _ | apply Kept.c)
    | (simp only [Kept.mk_iff])
    | split

theorem rebuildKeys_kept {s : State} {ok : Bool} (h : Kept v s) :
    Kept v (rebuildKeys s ok) := by
  unfold rebuildKeys
  repeat' first
    | (with_reducible first | assumption | intro _ | apply formKeys_kept | apply hubEvent_kept | apply dset_kept)
    | (with_reducible first | apply drawFree_kept | apply Kept.c)
    | (with_reducible refine Kept.snd (by assumption) ?_)
    | (simp only [Kept.mk_iff])
    | split

theorem entropyFail_kept {s : State} (h : Kept v s) :
    Kept v (entropyFail s) := by
  unfold entropyFail
  repeat' first
    | (with_reducible first | assumption | intro _ | apply hubEvent_kept | apply dset_kept | apply Kept.c)
    | (simp only [Kept.mk_iff])
    | split

theorem enrolGenerate_kept {s : State} (h : Kept v s) :
    Kept v (enrolGenerate s).1 := by
  unfold enrolGenerate
  repeat' first
    | (with_reducible first | assumption | intro _ | apply dset_kept | apply Kept.c)
    | (simp only [Kept.mk_iff])
    | split

theorem enrolGenerated_kept {s : State} (h : Kept v s) :
    Kept v (enrolGenerated s) := by
  unfold enrolGenerated
  repeat' first
    | (with_reducible first | assumption | intro _ | apply formKeys_kept | apply dset_kept | apply drawRandom_kept)
    | (with_reducible first | apply Kept.c)
    | (with_reducible refine Kept.snd (by assumption) ?_)
    | (simp only [Kept.mk_iff])
    | split

theorem enrolInstall_kept {s : State} (h : Kept v s) :
    Kept v (enrolInstall s).1 := by
  unfold enrolInstall
  repeat' first
    | (with_reducible first | assumption | intro _ | apply dset_kept | apply hubEvent_kept | apply Kept.c)
    | (simp only [Kept.mk_iff])
    | split

theorem enrolDrop_kept {s : State} (h : Kept v s) :
    Kept v (enrolDrop s) := by
  unfold enrolDrop
  repeat' first
    | (with_reducible first | assumption | intro _ | apply zeroKeys_kept | apply dset_kept | apply Kept.c)
    | (simp only [Kept.mk_iff])
    | split

theorem enrolCancel_kept {s : State} (h : Kept v s) :
    Kept v (enrolCancel s).1 := by
  unfold enrolCancel
  repeat' first
    | (with_reducible first | assumption | intro _ | apply enrolDrop_kept | apply dset_kept | apply Kept.c)
    | (simp only [Kept.mk_iff])
    | split

theorem writeChainData_kept {s : State} {b : List Byte} (h : Kept v s) :
    Kept v (writeChainData s b).1 := by
  unfold writeChainData
  repeat' first
    | (with_reducible first | assumption | intro _ | apply Kept.c)
    | (simp only [Kept.mk_iff])
    | split

theorem signWork_kept {s : State} {w : SecWork} (h : Kept v s) :
    Kept v (signWork s w) := by
  unfold signWork
  repeat' first
    | (with_reducible first | assumption | intro _ | apply Kept.c)
    | (simp only [Kept.mk_iff])
    | split

theorem attGenerate_kept {s : State} (h : Kept v s) :
    Kept v (attGenerate s).1 := by
  unfold attGenerate
  repeat' first
    | (with_reducible first | assumption | intro _ | apply signWork_kept | apply hubEvent_kept | apply dset_kept)
    | (with_reducible first | apply Kept.c)
    | (simp only [Kept.mk_iff])
    | split

theorem signature_kept {s : State} {n : Nat} (h : Kept v s) :
    Kept v (signature s n).2 := by
  unfold signature
  repeat' first
    | (with_reducible first | assumption | intro _ | apply drawRandom_kept | apply Kept.c)
    | (with_reducible refine Kept.snd (by assumption) ?_)
    | (simp only [Kept.mk_iff])
    | split

theorem spdmSend_kept {s : State} {r : SpdmResp} (h : Kept v s) :
    Kept v (spdmSend s r) := by
  unfold spdmSend
  repeat' first
    | (with_reducible first | assumption | intro _ | apply sendOut_kept | apply Kept.c)
    | (simp only [Kept.mk_iff])
    | split

theorem finishReport_kept {s : State} (h : Kept v s) :
    Kept v (finishReport s) := by
  unfold finishReport
  repeat' first
    | (with_reducible first | assumption | intro _ | apply signature_kept | apply dset_kept | apply Kept.c)
    | (with_reducible refine Kept.snd (by assumption) ?_)
    | (simp only [Kept.mk_iff])
    | split

theorem spdmRefuse_kept {s : State} (h : Kept v s) : Kept v (spdmRefuse s) := hubEvent_kept (spdmSend_kept h)

theorem sendPqSignature_kept {s : State} (h : Kept v s) : Kept v (sendPqSignature s) := spdmSend_kept (signature_kept (n := 16224) h)

theorem reportReady_kept {s : State} (h : Kept v s) :
    Kept v (reportReady s) := by
  unfold reportReady
  repeat' first
    | (with_reducible first | assumption | intro _ | apply drawRandom_kept | apply signature_kept)
    | (with_reducible first | apply finishReport_kept | apply spdmSend_kept | apply spdmRefuse_kept)
    | (with_reducible first | apply sendPqSignature_kept | apply Kept.c)
    | (with_reducible refine Kept.snd (by assumption) ?_)
    | (simp only [Kept.mk_iff])
    | split

theorem spdmRequest_kept {s : State} {f : State → State} (h : Kept v s) (hf : ∀ t, Kept v t → Kept v (f t)) :
    Kept v (spdmRequest s f) := by
  unfold spdmRequest
  repeat' first
    | (with_reducible first | assumption | intro _ | apply hf | apply Kept.c)
    | (simp only [Kept.mk_iff])
    | split

theorem spdmAfter_kept {s : State} {stage : Nat} {f : State → State} (h : Kept v s) (hf : ∀ t, Kept v t → Kept v (f t)) :
    Kept v (spdmAfter s stage f) := by
  unfold spdmAfter
  repeat' first
    | (with_reducible first | assumption | intro _ | apply spdmRequest_kept | apply spdmSend_kept | apply hf)
    | (with_reducible first | apply Kept.c)
    | (simp only [Kept.mk_iff])
    | split

theorem spdmVersion_kept {s : State} (h : Kept v s) :
    Kept v (spdmVersion s) := by
  unfold spdmVersion
  repeat' first
    | (with_reducible first | assumption | intro _ | apply spdmRequest_kept | apply spdmSend_kept | apply Kept.c)
    | (simp only [Kept.mk_iff])
    | split

theorem spdmCapabilities_kept {s : State} (h : Kept v s) :
    Kept v (spdmCapabilities s) := by
  unfold spdmCapabilities
  repeat' first
    | (with_reducible first | assumption | intro _ | apply spdmAfter_kept | apply spdmSend_kept | apply Kept.c)
    | (simp only [Kept.mk_iff])
    | split

theorem spdmAlgorithms_kept {s : State} (h : Kept v s) :
    Kept v (spdmAlgorithms s) := by
  unfold spdmAlgorithms
  repeat' first
    | (with_reducible first | assumption | intro _ | apply spdmAfter_kept | apply spdmSend_kept | apply Kept.c)
    | (simp only [Kept.mk_iff])
    | split

theorem spdmKeyed_kept {s : State} {f : State → State} (h : Kept v s) (hf : ∀ t, Kept v t → Kept v (f t)) :
    Kept v (spdmKeyed s f) := by
  unfold spdmKeyed
  repeat' first
    | (with_reducible first | assumption | intro _ | apply spdmRefuse_kept | apply spdmRequest_kept)
    | (with_reducible first | apply spdmSend_kept | apply hf | apply Kept.c)
    | (simp only [Kept.mk_iff])
    | split

theorem spdmDigests_kept {s : State} (h : Kept v s) :
    Kept v (spdmDigests s) := by
  unfold spdmDigests
  repeat' first
    | (with_reducible first | assumption | intro _ | apply spdmKeyed_kept | apply spdmSend_kept | apply Kept.c)
    | (simp only [Kept.mk_iff])
    | split

theorem spdmCertificate_kept {s : State} {off : Nat} {len : Nat} (h : Kept v s) :
    Kept v (spdmCertificate s off len) := by
  unfold spdmCertificate
  repeat' first
    | (with_reducible first | assumption | intro _ | apply spdmKeyed_kept | apply spdmSend_kept | apply Kept.c)
    | (simp only [Kept.mk_iff])
    | split

theorem spdmChallenge_kept {s : State} (h : Kept v s) :
    Kept v (spdmChallenge s) := by
  unfold spdmChallenge
  repeat' first
    | (with_reducible first | assumption | intro _ | apply signWork_kept | apply spdmKeyed_kept | apply Kept.c)
    | (simp only [Kept.mk_iff])
    | split

theorem spdmMeasurements_kept {s : State} {signed : Bool} (h : Kept v s) :
    Kept v (spdmMeasurements s signed) := by
  unfold spdmMeasurements
  repeat' first
    | (with_reducible first | assumption | intro _ | apply signWork_kept | apply spdmKeyed_kept)
    | (with_reducible first | apply spdmRequest_kept | apply spdmSend_kept | apply Kept.c)
    | (simp only [Kept.mk_iff])
    | split

theorem spdmPqSignature_kept {s : State} (h : Kept v s) :
    Kept v (spdmPqSignature s) := by
  unfold spdmPqSignature
  repeat' first
    | (with_reducible first | assumption | intro _ | apply sendPqSignature_kept | apply signWork_kept | apply spdmSend_kept | apply Kept.c)
    | (simp only [Kept.mk_iff])
    | split

theorem spdmPqChain_kept {s : State} {off : Nat} {len : Nat} (h : Kept v s) :
    Kept v (spdmPqChain s off len) := by
  unfold spdmPqChain
  repeat' first
    | (with_reducible first | assumption | intro _ | apply spdmRequest_kept | apply spdmSend_kept | apply Kept.c)
    | (simp only [Kept.mk_iff])
    | split

theorem doeAbort_kept {s : State} (h : Kept v s) :
    Kept v (doeAbort s) := by
  unfold doeAbort
  repeat' first
    | (with_reducible first | assumption | intro _ | apply Kept.c)
    | (simp only [Kept.mk_iff])
    | split

theorem eraseSteps_kept {s : State} (h : Kept v s) :
    Kept v (eraseSteps s) := by
  unfold eraseSteps
  repeat' first
    | (with_reducible first | assumption | intro _ | apply hubEvent_kept | apply dset_kept | apply Kept.c)
    | (with_reducible first | apply KeptC.opened)
    | (simp only [Kept.mk_iff])
    | split

theorem openPort_kept {s : State} (h : Kept v s) :
    Kept v (openPort s) := by
  unfold openPort
  repeat' first
    | (with_reducible first | assumption | intro _ | apply hubEvent_kept | apply enrolDrop_kept)
    | (with_reducible first | apply dset_kept | apply Kept.c)
    | (simp only [Kept.mk_iff])
    | split

theorem openRequest_kept {s : State} {tap : Option Nat} (h : Kept v s) :
    Kept v (openRequest s tap) := by
  unfold openRequest
  repeat' first
    | (with_reducible first | assumption | intro _ | apply openPort_kept | apply Kept.c)
    | (simp only [Kept.mk_iff])
    | split

theorem eraseDone_kept {s : State} (h : Kept v s) :
    Kept v (eraseDone s) := by
  unfold eraseDone
  repeat' first
    | (with_reducible first | assumption | intro _ | apply eraseSteps_kept | apply Kept.c)
    | (simp only [Kept.mk_iff])
    | split

end Sys2Proof.Machine
end

