-- ==== Sys2Proof/Laws/KeepReset.lean ====
section
/-!
SUPPORT. What the operations of Machine/Reset.lean keep (Laws/Keep.lean).
-/

namespace Sys2Proof.Machine

set_option linter.unusedSimpArgs false

variable {v : View}

theorem cordStart_kept {s : State} (h : Kept v s) :
    Kept v (cordStart s) := by
  unfold cordStart
  repeat' first
    | (with_reducible first | assumption | intro _ | apply Kept.foldl | apply Kept.foldlFst)
    | (with_reducible first | apply Kept.foldlSnd | apply drawRandom_kept | apply startPairing_kept)
    | (with_reducible first | apply dset_kept | apply KeptC.after | apply KeptC.none | apply KeptC.dfilter)
    | (with_reducible first | apply Kept.c)
    | (with_reducible refine Kept.snd (by assumption) ?_)
    | (simp only [Kept.mk_iff])
    | split

theorem drbgReseed_kept {s : State} {ok : Bool} (h : Kept v s) :
    Kept v (drbgReseed s ok) := by
  unfold drbgReseed
  repeat' first
    | (with_reducible first | assumption | intro _ | apply cordStart_kept | apply entropyFail_kept)
    | (with_reducible first | apply dset_kept | apply drawFree_kept | apply KeptC.after | apply KeptC.none)
    | (with_reducible first | apply KeptC.dfilter | apply Kept.c)
    | (with_reducible refine Kept.snd (by assumption) ?_)
    | (simp only [Kept.mk_iff])
    | split

theorem goingDown_kept {s : State} {code : Nat} (h : Kept v s) :
    Kept v (goingDown s code) := by
  unfold goingDown
  repeat' first
    | (with_reducible first | assumption | intro _ | apply Kept.foldl | apply Kept.foldlFst)
    | (with_reducible first | apply Kept.foldlSnd | apply sendPlain_kept | apply KeptC.after | apply KeptC.none)
    | (with_reducible first | apply KeptC.dfilter | apply Kept.c)
    | (simp only [Kept.mk_iff])
    | split

theorem cordStop_kept {s : State} (h : Kept v s) :
    Kept v (cordStop s) := by
  unfold cordStop
  repeat' first
    | (with_reducible first | assumption | intro _ | apply Kept.foldl | apply Kept.foldlFst)
    | (with_reducible first | apply Kept.foldlSnd | apply dset_kept | apply KeptC.after | apply KeptC.none)
    | (with_reducible first | apply KeptC.dfilter | apply Kept.c)
    | (simp only [Kept.mk_iff])
    | split

theorem flashAfter_counts (s : State) :
    (flashAfter s).commits = s.flash.commits ∧ (flashAfter s).openCount = s.flash.openCount := by
  unfold flashAfter
  extract_lets f f2
  have h2 : f2.commits = s.flash.commits ∧ f2.openCount = s.flash.openCount := by
    show (if f.fwState = 1 then _ else _ : FlashSys).commits = _ ∧ (if f.fwState = 1 then _ else _ : FlashSys).openCount = _
    split <;> exact ⟨rfl, rfl⟩
  split <;> exact h2

theorem KeptC.after {s : State} (h : Kept v s) :
    KeptC v s.pending s.dict [] (flashAfter s).commits (flashAfter s).openCount := by
  rw [(flashAfter_counts s).1, (flashAfter_counts s).2]
  exact KeptC.empty (Kept.c h)

theorem KeptC.none {s : State} (h : Kept v s) : KeptC v s.pending s.dict [] s.flash.commits s.flash.openCount :=
  KeptC.empty (Kept.c h)

theorem wipe_kept {s : State} {cause : Nat} (h : Kept v s) :
    Kept v (wipe s cause) := by
  unfold wipe
  exact dset_kept (dset_kept (dset_kept (dset_kept (KeptC.dnone (KeptC.after h)))))

theorem moduleReset_kept {s : State} (h : Kept v s) :
    Kept v (moduleReset s) := by
  unfold moduleReset
  repeat' first
    | (with_reducible first | assumption | intro _ | apply wipe_kept | apply goingDown_kept | apply dset_kept)
    | (with_reducible first | apply KeptC.after | apply KeptC.none | apply KeptC.dfilter | apply Kept.c)
    | (simp only [Kept.mk_iff])
    | split

theorem mrstAssert_kept {s : State} (h : Kept v s) :
    Kept v (mrstAssert s) := by
  unfold mrstAssert
  repeat' first
    | (with_reducible first | assumption | intro _ | apply wipe_kept | apply KeptC.after | apply KeptC.none)
    | (with_reducible first | apply KeptC.dfilter | apply Kept.c)
    | (simp only [Kept.mk_iff])
    | split

theorem mrstRelease_kept {s : State} (h : Kept v s) :
    Kept v (mrstRelease s) := by
  unfold mrstRelease
  repeat' first
    | (with_reducible first | assumption | intro _ | apply KeptC.after | apply KeptC.none | apply KeptC.dfilter)
    | (with_reducible first | apply Kept.c)
    | (simp only [Kept.mk_iff])
    | split

theorem powerFail_kept {s : State} (h : Kept v s) :
    Kept v (powerFail s) := by
  unfold powerFail
  repeat' first
    | (with_reducible first | assumption | intro _ | apply wipe_kept | apply KeptC.after | apply KeptC.none)
    | (with_reducible first | apply KeptC.dfilter | apply Kept.c)
    | (simp only [Kept.mk_iff])
    | split

theorem coldStart_kept {s : State} (h : Kept v s) :
    Kept v (coldStart s) := by
  unfold coldStart
  repeat' first
    | (with_reducible first | assumption | intro _ | apply wipe_kept | apply KeptC.after | apply KeptC.none)
    | (with_reducible first | apply KeptC.dfilter | apply Kept.c)
    | (simp only [Kept.mk_iff])
    | split

theorem disableAll_kept {s : State} (h : Kept v s) :
    Kept v (disableAll s) := by
  unfold disableAll
  repeat' first
    | (with_reducible first | assumption | intro _ | apply Kept.foldl | apply Kept.foldlFst)
    | (with_reducible first | apply Kept.foldlSnd | apply hubWrite_kept | apply KeptC.after | apply KeptC.none)
    | (with_reducible first | apply KeptC.dfilter | apply Kept.c)
    | (with_reducible refine Kept.snd (by assumption) ?_)
    | (simp only [Kept.mk_iff])
    | split

theorem hostInterfaceReset_kept {s : State} (h : Kept v s) :
    Kept v (hostInterfaceReset s) := by
  unfold hostInterfaceReset
  repeat' first
    | (with_reducible first | assumption | intro _ | apply doeAbort_kept | apply KeptC.after | apply KeptC.none)
    | (with_reducible first | apply KeptC.dfilter | apply Kept.c)
    | (simp only [Kept.mk_iff])
    | split

theorem undefineDests_kept {s : State} {o : OpRec} (h : Kept v s) : Kept v (undefineDests s o) := by
  unfold undefineDests
  split
  · exact h
  · refine Kept.foldl (fun st _ hst => ?_) h
    split
    · exact hst
    · exact undefineAt_kept hst

theorem quenchAll_kept {s : State} (h : Kept v s) :
    Kept v (quenchAll s) := by
  unfold quenchAll
  repeat' first
    | (with_reducible first | assumption | intro _ | apply Kept.foldl | apply Kept.foldlFst)
    | (with_reducible first | apply Kept.foldlSnd | apply collAbort_kept | apply restoreAbort_kept)
    | (with_reducible first | apply ctxWriteBack_kept | apply dset_kept | apply freezeFail_kept | apply undefineDests_kept)
    | (with_reducible first | apply KeptC.after | apply KeptC.none | apply KeptC.dfilter | apply Kept.c)
    | (simp only [Kept.mk_iff])
    | split

theorem hostReset_kept {s : State} (h : Kept v s) :
    Kept v (hostReset s) := by
  unfold hostReset
  repeat' first
    | (with_reducible first | assumption | intro _ | apply quenchAll_kept | apply hostInterfaceReset_kept)
    | (with_reducible first | apply disableAll_kept | apply KeptC.after | apply KeptC.none | apply KeptC.dfilter)
    | (with_reducible first | apply Kept.c | apply KeptC.dfilter)
    | (simp only [Kept.mk_iff])
    | split

theorem perstAssert_kept {s : State} (h : Kept v s) :
    Kept v (perstAssert s) := by
  unfold perstAssert
  repeat' first
    | (with_reducible first | assumption | intro _ | apply hostReset_kept | apply KeptC.after | apply KeptC.none)
    | (with_reducible first | apply KeptC.dfilter | apply Kept.c)
    | (simp only [Kept.mk_iff])
    | split

theorem flr_kept {s : State} (h : Kept v s) :
    Kept v (flr s) := by
  unfold flr
  repeat' first
    | (with_reducible first | assumption | intro _ | apply hostReset_kept | apply KeptC.after | apply KeptC.none)
    | (with_reducible first | apply KeptC.dfilter | apply Kept.c)
    | (simp only [Kept.mk_iff])
    | split

theorem perstDeassert_kept {s : State} (h : Kept v s) :
    Kept v (perstDeassert s) := by
  unfold perstDeassert
  repeat' first
    | (with_reducible first | assumption | intro _ | apply wipe_kept | apply KeptC.after | apply KeptC.none)
    | (with_reducible first | apply KeptC.dfilter | apply Kept.c)
    | (simp only [Kept.mk_iff])
    | split

theorem diesOff_kept {s : State} (h : Kept v s) :
    Kept v (diesOff s) := by
  unfold diesOff
  repeat' first
    | (with_reducible first | assumption | intro _ | apply cutCheck_kept | apply resetV_kept | apply dset_kept)
    | (with_reducible first | apply KeptC.after | apply KeptC.none | apply KeptC.dfilter | apply Kept.c)
    | (with_reducible first | apply KeptC.writeBack | apply KeptC.filter)
    | (simp only [Kept.mk_iff, dropLines_cells])
    | split

theorem flushContexts_kept {s : State} (h : Kept v s) :
    Kept v (flushContexts s) := by
  unfold flushContexts
  repeat' first
    | (with_reducible first | assumption | intro _ | apply Kept.foldl | apply Kept.foldlFst)
    | (with_reducible first | apply Kept.foldlSnd | apply ctxWriteBack_kept | apply KeptC.after)
    | (with_reducible first | apply KeptC.none | apply KeptC.dfilter | apply Kept.c)
    | (simp only [Kept.mk_iff])
    | split

theorem powerSmoulder_kept {s : State} (h : Kept v s) :
    Kept v (powerSmoulder s).1 := by
  unfold powerSmoulder
  repeat' first
    | (with_reducible first | assumption | intro _ | apply diesOff_kept | apply goingDown_kept)
    | (with_reducible first | apply cordStop_kept | apply flushContexts_kept | apply dset_kept)
    | (with_reducible first | apply KeptC.after | apply KeptC.none | apply KeptC.dfilter | apply Kept.c)
    | (simp only [Kept.mk_iff])
    | split

theorem bankedState_kept {s : State} (h : Kept v s) :
    Kept v (bankedState s) := by
  unfold bankedState
  have ite : ∀ {t : State} {c : Prop} [Decidable c] {k n : Nat}, Kept v t → Kept v (if c then dset t k n else t) := by
    intro t c _ k n ht
    split
    · exact dset_kept ht
    · exact ht
  exact dset_kept (Kept.foldl (fun _ _ ht => dset_kept ht) (ite (ite (ite (KeptC.after h)))))

theorem powerBanked_kept {s : State} (h : Kept v s) :
    Kept v (powerBanked s).1 := by
  unfold powerBanked
  repeat' first
    | (with_reducible first | assumption | intro _ | apply diesOff_kept | apply goingDown_kept)
    | (with_reducible first | apply cordStop_kept | apply flushContexts_kept | apply bankedState_kept)
    | (with_reducible first | apply KeptC.after | apply KeptC.none | apply KeptC.dfilter | apply Kept.c)
    | (simp only [Kept.mk_iff])
    | split

theorem powerRun_kept {s : State} (h : Kept v s) :
    Kept v (powerRun s).1 := by
  unfold powerRun
  repeat' first
    | (with_reducible first | assumption | intro _ | apply cordStart_kept | apply wipe_kept)
    | (with_reducible first | apply startLevels_kept | apply dset_kept | apply KeptC.after | apply KeptC.none)
    | (with_reducible first | apply KeptC.dfilter | apply Kept.c)
    | (simp only [Kept.mk_iff])
    | split

theorem writePowerState_kept {s : State} {a1 : Nat} (h : Kept v s) :
    Kept v (writePowerState s a1).1 := by
  unfold writePowerState
  repeat' first
    | (with_reducible first | assumption | intro _ | apply powerBanked_kept | apply powerSmoulder_kept)
    | (with_reducible first | apply powerRun_kept | apply KeptC.after | apply KeptC.none | apply KeptC.dfilter)
    | (with_reducible first | apply Kept.c)
    | (with_reducible refine Kept.fst (by assumption) ?_)
    | (simp only [Kept.mk_iff])
    | split

theorem bootRefuse_kept {s : State} (h : Kept v s) :
    Kept v (bootRefuse s) := by
  unfold bootRefuse
  repeat' first
    | (with_reducible first | assumption | intro _ | apply hubEvent_kept | apply dset_kept | apply KeptC.after)
    | (with_reducible first | apply KeptC.none | apply KeptC.dfilter | apply Kept.c)
    | (simp only [Kept.mk_iff])
    | split

theorem bootEnd_kept {s : State} {puf : Bool} (h : Kept v s) :
    Kept v (bootEnd s puf) := by
  unfold bootEnd
  repeat' first
    | (with_reducible first | assumption | intro _ | apply dictLoad_kept | apply dset_kept)
    | (with_reducible first | apply rebuildKeys_kept | apply KeptC.after | apply KeptC.none)
    | (with_reducible first | apply KeptC.dfilter | apply Kept.c)
    | (simp only [Kept.mk_iff])
    | split

theorem bootImage_kept {s : State} {result : Nat} (h : Kept v s) :
    Kept v (bootImage s result) := by
  unfold bootImage
  repeat' first
    | (with_reducible first | assumption | intro _ | apply hubEvent_kept | apply dset_kept | apply KeptC.after)
    | (with_reducible first | apply KeptC.none | apply KeptC.dfilter | apply Kept.c)
    | (simp only [Kept.mk_iff])
    | split

theorem swapImages_kept {s : State} (h : Kept v s) :
    Kept v (swapImages s) := by
  unfold swapImages
  repeat' first
    | (with_reducible first | assumption | intro _ | apply KeptC.after | apply KeptC.none | apply KeptC.dfilter)
    | (with_reducible first | apply Kept.c)
    | (simp only [Kept.mk_iff])
    | split

theorem boot_kept {s0 : State} {b : BootFinds} {puf : Bool} (h : Kept v s0) :
    Kept v (boot s0 b puf) := by
  unfold boot
  repeat' first
    | (with_reducible first | assumption | intro _ | apply bootImage_kept | apply bootRefuse_kept)
    | (with_reducible first | apply setFwState_kept | apply eraseSteps_kept | apply swapImages_kept)
    | (with_reducible first | apply dset_kept | apply bootEnd_kept | apply KeptC.after | apply KeptC.none)
    | (with_reducible first | apply KeptC.dfilter | apply Kept.c)
    | (simp only [Kept.mk_iff])
    | split

theorem watchdogFallback_kept {s : State} {puf : Bool} (h : Kept v s) :
    Kept v (watchdogFallback s puf) := by
  unfold watchdogFallback
  repeat' first
    | (with_reducible first | assumption | intro _ | apply bootImage_kept | apply bootRefuse_kept)
    | (with_reducible first | apply setFwState_kept | apply swapImages_kept | apply dset_kept)
    | (with_reducible first | apply bootEnd_kept | apply KeptC.after | apply KeptC.none | apply KeptC.dfilter)
    | (with_reducible first | apply Kept.c)
    | (simp only [Kept.mk_iff])
    | split

theorem diesStage_kept {s : State} {failed : Nat} (h : Kept v s) :
    Kept v (diesStage s failed) := by
  unfold diesStage
  repeat' first
    | (with_reducible first | assumption | intro _ | apply dset_kept | apply KeptC.after | apply KeptC.none)
    | (with_reducible first | apply KeptC.dfilter | apply Kept.c)
    | (simp only [Kept.mk_iff])
    | split

theorem memoryStage_kept {s : State} {fails : List Nat} (h : Kept v s) :
    Kept v (memoryStage s fails) := by
  unfold memoryStage
  repeat' first
    | (with_reducible first | assumption | intro _ | apply Kept.foldl | apply Kept.foldlFst)
    | (with_reducible first | apply Kept.foldlSnd | apply enterHold_kept | apply dset_kept | apply KeptC.after)
    | (with_reducible first | apply KeptC.none | apply KeptC.dfilter | apply Kept.c)
    | (simp only [Kept.mk_iff])
    | split

theorem computeStage_kept {s : State} {bad : List Nat} {cores : List (Nat × CoreProof)} (h : Kept v s) :
    Kept v (computeStage s bad cores) := by
  unfold computeStage
  repeat' first
    | (with_reducible first | assumption | intro _ | apply Kept.foldl | apply Kept.foldlFst)
    | (with_reducible first | apply Kept.foldlSnd | apply cordStart_kept | apply retireEngine_kept)
    | (with_reducible first | apply proofFailed_kept | apply coreProof_kept | apply startLevels_kept)
    | (with_reducible first | apply dset_kept | apply drawFree_kept | apply KeptC.after | apply KeptC.none)
    | (with_reducible first | apply KeptC.dfilter | apply Kept.c)
    | (with_reducible refine Kept.snd (by assumption) ?_)
    | (simp only [Kept.mk_iff])
    | split

theorem linkDown_kept {s : State} (h : Kept v s) :
    Kept v (linkDown s) := by
  unfold linkDown
  repeat' first
    | (with_reducible first | assumption | intro _ | apply linkLost_kept | apply Kept.c)
    | (simp only [Kept.mk_iff])
    | split

theorem fieldLost_kept {s : State} (h : Kept v s) :
    Kept v (fieldLost s) := by
  unfold fieldLost
  repeat' first
    | (with_reducible first | assumption | intro _ | apply dset_kept | apply Kept.c)
    | (simp only [Kept.mk_iff])
    | split

theorem islandLost_kept {s : State} {i : Island} (h : Kept v s) :
    Kept v (islandLost s i) := by
  unfold islandLost
  repeat' first
    | (with_reducible first | assumption | intro _ | apply raiseFault_kept | apply hubEvent_kept)
    | (with_reducible first | apply hostReset_kept | apply dset_kept | apply fenceStack_kept)
    | (with_reducible first | apply linkLost_kept | apply KeptC.after | apply KeptC.none | apply KeptC.dfilter)
    | (with_reducible first | apply fieldLost_kept | apply linkDown_kept)
    | (with_reducible first | apply Kept.c)
    | (simp only [Kept.mk_iff])
    | split

end Sys2Proof.Machine
end

