-- ==== Sys2Proof/Laws/KeepTranan.lean ====
section
/-!
SUPPORT. What the operations of Machine/Tranan.lean keep (Laws/Keep.lean).
-/

namespace Sys2Proof.Machine

set_option linter.unusedSimpArgs false

variable {v : View}

theorem plainWrite_kept {s : State} {key : Nat} {a2 : Nat} (h : Kept v s) :
    Kept v (plainWrite s key a2).1 := by
  unfold plainWrite
  repeat' first
    | (with_reducible first | assumption | intro _ | apply Kept.foldl | apply Kept.foldlFst)
    | (with_reducible first | apply Kept.foldlSnd | apply portChange_kept | apply wset_kept | apply dset_kept)
    | (with_reducible first | apply portEnables_kept)
    | (with_reducible first | apply permitWritten_kept | apply Kept.c)
    | (simp only [Kept.mk_iff])
    | split

theorem writeResetCmd_kept {s : State} {a1 : Nat} (h : Kept v s) :
    Kept v (writeResetCmd s a1).1 := by
  unfold writeResetCmd
  repeat' first
    | (with_reducible first | assumption | intro _ | apply moduleReset_kept | apply resetCommand_kept)
    | (with_reducible first | apply Kept.c)
    | (with_reducible refine Kept.fst (by assumption) ?_)
    | (simp only [Kept.mk_iff])
    | split

theorem writeEnrolCmd_kept {s : State} {a1 : Nat} (h : Kept v s) :
    Kept v (writeEnrolCmd s a1).1 := by
  unfold writeEnrolCmd
  repeat' first
    | (with_reducible first | assumption | intro _ | apply enrolCancel_kept | apply enrolGenerate_kept)
    | (with_reducible first | apply enrolInstall_kept | apply Kept.c)
    | (with_reducible refine Kept.fst (by assumption) ?_)
    | (simp only [Kept.mk_iff])
    | split

theorem writeRestoreCmd_kept {s : State} {a1 : Nat} {hostList : List Byte} (h : Kept v s) :
    Kept v (writeRestoreCmd s a1 hostList).1 := by
  unfold writeRestoreCmd
  repeat' first
    | (with_reducible first | assumption | intro _ | apply restoreAbort_kept | apply restoreStart_kept)
    | (with_reducible first | apply Kept.c)
    | (simp only [Kept.mk_iff])
    | split

theorem commandWrite_kept {s : State} {key : Nat} {a2 : Nat} {x : Outside} (h : Kept v s) :
    KeptON v (commandWrite s key a2 x) := by
  unfold commandWrite
  repeat' first
    | (with_reducible first | assumption | intro _ | exact KeptON.none | apply KeptON.some)
    | (with_reducible first | apply writeFaultInject_kept | apply writeFwCmd_kept | apply writeRestoreCmd_kept)
    | (with_reducible first | apply writeStormRelease_kept | apply writeEvtHold_kept | apply attGenerate_kept)
    | (with_reducible first | apply writePowerState_kept | apply writeUnretire_kept | apply writeResetCmd_kept)
    | (with_reducible first | apply writeEnrolCmd_kept | apply openRequest_kept | apply writeCommit_kept)
    | (with_reducible first | apply writePartnerHolder_kept | apply snapResume_kept | apply writeAlertAck_kept)
    | (with_reducible first | apply writeSnapTrigger_kept | apply wset_kept | apply writePartnerOf_kept)
    | (with_reducible first | apply writePeerCount_kept | apply Kept.c | apply KeptON.ite)
    | (with_reducible refine Kept.fst (by assumption) ?_)
    | (simp only [Kept.mk_iff])
    | split

theorem runWrite_kept {s : State} {key : Nat} {a2 : Nat} (h : Kept v s) :
    KeptON v (runWrite s key a2) := by
  unfold runWrite
  repeat' first
    | (with_reducible first | assumption | intro _ | exact KeptON.none | apply KeptON.some)
    | (with_reducible first | apply writeEcLock_kept | apply writeRingCi_kept | apply writeGroupDef_kept)
    | (with_reducible first | apply writeTctl_kept | apply writePend_kept | apply Kept.c | apply KeptON.ite)
    | (with_reducible refine Kept.fst (by assumption) ?_)
    | (simp only [Kept.mk_iff])
    | split

theorem writeEffect_kept {s : State} {key : Nat} {b : List Byte} {x : Outside} (h : Kept v s) :
    Kept v (writeEffect s key b x).1 := by
  unfold writeEffect
  repeat' first
    | (with_reducible first | assumption | intro _ | apply fwData_kept | apply commandWrite_kept)
    | (with_reducible first | apply writeChainData_kept | apply plainWrite_kept | apply runWrite_kept)
    | (with_reducible first | apply Kept.c)
    | (with_reducible refine Kept.fst (by assumption) ?_)
    | (with_reducible refine KeptON.use (by assumption) ?_)
    | (with_reducible refine KeptON.use' (by assumption) ?_)
    | (simp only [Kept.mk_iff])
    | split

theorem entryStore_kept {s : State} {key : Nat} {b : List Byte} {x : Outside} (h : Kept v s) :
    Kept v (entryStore s key b x).1 := by
  unfold entryStore
  repeat' first
    | (with_reducible first | assumption | intro _ | apply writeEffect_kept | apply Kept.c)
    | (with_reducible refine Kept.fst (by assumption) ?_)
    | (simp only [Kept.mk_iff])
    | split

theorem defaultEntry_kept {s : State} {key : Nat} (h : Kept v s) :
    Kept v (defaultEntry s key) := by
  unfold defaultEntry
  repeat' first
    | (with_reducible first | assumption | intro _ | apply writeEffect_kept | apply wdefer_kept)
    | (with_reducible first | apply wset_kept | apply Kept.c)
    | (with_reducible refine Kept.fst (by assumption) ?_)
    | (simp only [Kept.mk_iff])
    | split

theorem loadDefaults_kept {s : State} {a1 : Nat} (h : Kept v s) :
    Kept v (loadDefaults s a1).1 := by
  unfold loadDefaults
  repeat' first
    | (with_reducible first | assumption | intro _ | apply Kept.foldl | apply Kept.foldlFst)
    | (with_reducible first | apply Kept.foldlSnd | apply defaultEntry_kept | apply beginCommit_kept)
    | (with_reducible first | apply Kept.c)
    | (simp only [Kept.mk_iff])
    | split

theorem entryWrite_kept {s : State} {path : DictPath} {key : Nat} {type : Nat} {b : List Byte} {x : Outside} (h : Kept v s) :
    Kept v (entryWrite s path key type b x).1 := by
  unfold entryWrite
  repeat' first
    | (with_reducible first | assumption | intro _ | apply loadDefaults_kept | apply entryStore_kept)
    | (with_reducible first | apply Kept.c)
    | (with_reducible refine Kept.fst (by assumption) ?_)
    | (simp only [Kept.mk_iff])
    | split

theorem reportedWrite_kept {s : State} {path : DictPath} {key : Nat} {type : Nat} {b : List Byte} {x : Outside} (h : Kept v s) :
    Kept v (reportedWrite s path key type b x).1 := by
  unfold reportedWrite
  repeat' first
    | (with_reducible first | assumption | intro _ | apply entryWrite_kept | apply writeRejected_kept)
    | (with_reducible first | apply Kept.c)
    | (with_reducible refine Kept.fst (by assumption) ?_)
    | (simp only [Kept.mk_iff])
    | split

theorem ownWrite_kept {s : State} {key : Nat} {a2 : Nat} {x : Outside} {p : DictPath} (h : Kept v s) :
    Kept v (ownWrite s key a2 x p) := by
  unfold ownWrite
  repeat' first
    | (with_reducible first | assumption | intro _ | apply reportedWrite_kept | apply Kept.c)
    | (with_reducible refine Kept.fst (by assumption) ?_)
    | (simp only [Kept.mk_iff])
    | split

theorem ownBlob_kept {s : State} {key : Nat} {b : List Byte} (h : Kept v s) :
    Kept v (ownBlob s key b) := by
  unfold ownBlob
  repeat' first
    | (with_reducible first | assumption | intro _ | apply reportedWrite_kept | apply Kept.c)
    | (with_reducible refine Kept.fst (by assumption) ?_)
    | (simp only [Kept.mk_iff])
    | split

theorem writeItems_kept {s : State} {path : DictPath} {x : Outside} {a3 : List Item} (h : Kept v s) :
    Kept v (writeItems s path x a3).1 := by
  induction a3 generalizing s path x with
  | nil =>
    unfold writeItems
    repeat' first
      | (with_reducible first | assumption | intro _ | apply reportedWrite_kept | apply Kept.c)
      | (with_reducible refine Kept.fst (by assumption) ?_)
      | (simp only [Kept.mk_iff])
      | split
  | cons x r ih =>
    unfold writeItems
    repeat' first
      | (with_reducible first | assumption | intro _ | apply reportedWrite_kept | apply ih | apply Kept.c)
      | (with_reducible refine Kept.fst (by assumption) ?_)
      | (simp only [Kept.mk_iff])
      | split

theorem tryItems_kept {s : State} {path : DictPath} {a2 : List Item} (h : Kept v s) :
    Kept v (tryItems s path a2).1 := by
  induction a2 generalizing s path with
  | nil =>
    unfold tryItems
    repeat' first
      | (with_reducible first | assumption | intro _ | apply writeEffect_kept | apply Kept.c)
      | (with_reducible refine Kept.fst (by assumption) ?_)
      | (simp only [Kept.mk_iff])
      | split
  | cons x r ih =>
    unfold tryItems
    repeat' first
      | (with_reducible first | assumption | intro _ | apply writeEffect_kept | apply ih | apply Kept.c)
      | (with_reducible refine Kept.fst (by assumption) ?_)
      | (simp only [Kept.mk_iff])
      | split

theorem writeAllOrNone_kept {s : State} {path : DictPath} {l : List Item} (h : Kept v s) :
    Kept v (writeAllOrNone s path l).1 := by
  unfold writeAllOrNone
  repeat' first
    | (with_reducible first | assumption | intro _ | apply Kept.foldl | apply Kept.foldlFst)
    | (with_reducible first | apply Kept.foldlSnd | apply writeRejected_kept | apply tryItems_kept)
    | (with_reducible first | apply Kept.c)
    | (with_reducible refine Kept.fst (by assumption) ?_)
    | (simp only [Kept.mk_iff])
    | split

theorem serveMsg_kept {s : State} {path : DictPath} {limit : Nat} {b : List Byte} {x : Outside} (h : Kept v s) :
    Kept v (serveMsg s path limit b x).1 := by
  unfold serveMsg
  repeat' first
    | (with_reducible first | assumption | intro _ | apply writeAllOrNone_kept | apply writeItems_kept)
    | (with_reducible first | apply Kept.c)
    | (with_reducible refine Kept.fst (by assumption) ?_)
    | (simp only [Kept.mk_iff])
    | split

theorem mirrorDrop_kept {s : State} (h : Kept v s) :
    Kept v (mirrorDrop s) := by
  unfold mirrorDrop
  repeat' first
    | (with_reducible first | assumption | intro _ | apply bar0Drop_kept | apply Kept.c)
    | (simp only [Kept.mk_iff])
    | split

theorem mbxDoorbell_kept {s : State} {a1 : Nat} {buf : List Byte} (h : Kept v s) :
    Kept v (mbxDoorbell s a1 buf) := by
  unfold mbxDoorbell
  repeat' first
    | (with_reducible first | assumption | intro _ | apply mirrorDrop_kept | apply Kept.c)
    | (simp only [Kept.mk_iff])
    | split

theorem mbxServe_kept {s : State} {x : Outside} (h : Kept v s) :
    Kept v (mbxServe s x) := by
  unfold mbxServe
  repeat' first
    | (with_reducible first | assumption | intro _ | apply serveMsg_kept | apply Kept.c)
    | (with_reducible refine Kept.fst (by assumption) ?_)
    | (simp only [Kept.mk_iff])
    | split

theorem directWrite_kept {s : State} {off : Nat} {a2 : Nat} {whole : Bool} (h : Kept v s) :
    Kept v (directWrite s off a2 whole) := by
  unfold directWrite
  repeat' first
    | (with_reducible first | assumption | intro _ | apply entryWrite_kept | apply dcount_kept)
    | (with_reducible first | apply writeRejected_kept | apply Kept.c)
    | (with_reducible refine Kept.fst (by assumption) ?_)
    | (simp only [Kept.mk_iff])
    | split

theorem keepSend_kept {s : State} {src port id : Nat} {resp : List Byte} (h : Kept v s) :
    Kept v (keepSend s src port id resp) := by
  unfold keepSend
  repeat' first
    | (with_reducible first | assumption | intro _ | apply sendOut_kept | apply Kept.c)
    | (simp only [Kept.mk_iff])
    | split

theorem answerOnce_kept {s : State} {src port id : Nat} {resp : List Byte} (h : Kept v s) :
    Kept v (answerOnce s src port id resp) := by
  unfold answerOnce
  repeat' first
    | (with_reducible first | assumption | intro _ | apply sendOut_kept | apply keepSend_kept)
    | split

theorem overload_kept {s : State} {d : Datagram} (h : Kept v s) : Kept v (overload s d) := sendOut_kept h

theorem fieldServe_kept {s : State} {d : Datagram} {x : Outside} (h : Kept v s) :
    Kept v (fieldServe s d x) := by
  unfold fieldServe
  repeat' first
    | (with_reducible first | assumption | intro _ | apply dcount_kept | apply sendOut_kept | apply overload_kept)
    | (with_reducible first | apply keepSend_kept | apply serveMsg_kept | apply Kept.c)
    | (with_reducible refine Kept.fst (by assumption) ?_)
    | (simp only [Kept.mk_iff])
    | split

theorem trananRead_kept {s : State} {t : Tranan} (h : Kept v s) :
    Kept v (trananRead s t) := by
  unfold trananRead
  repeat' first
    | (with_reducible first | assumption | intro _ | apply fieldServe_kept | apply mbxServe_kept | apply Kept.c)
    | (simp only [Kept.mk_iff])
    | split

theorem trananWrite_kept {s : State} {t : Tranan} {x : Outside} (h : Kept v s) :
    Kept v (trananWrite s t x) := by
  unfold trananWrite
  repeat' first
    | (with_reducible first | assumption | intro _ | apply fieldServe_kept | apply mbxServe_kept | apply Kept.c)
    | (simp only [Kept.mk_iff])
    | split

theorem trananDiscover_kept {s : State} {d : Datagram} (h : Kept v s) :
    Kept v (trananDiscover s d) := by
  unfold trananDiscover
  dsimp only
  repeat' first
    | (with_reducible first | assumption | intro _ | apply dcount_kept | apply answerOnce_kept | apply overload_kept)
    | (with_reducible first | apply Kept.c)
    | (simp only [Kept.mk_iff])
    | split

theorem discoverDelay_kept {s : State} (h : Kept v s) :
    Kept v (discoverDelay s) := by
  unfold discoverDelay
  repeat' first
    | (with_reducible first | assumption | intro _ | apply answerOnce_kept | apply Kept.c)
    | (simp only [Kept.mk_iff])
    | split

theorem fieldLink_kept {s : State} {up : Bool} (h : Kept v s) :
    Kept v (fieldLink s up) := by
  unfold fieldLink
  repeat' first
    | (with_reducible first | apply fieldLost_kept)
    | (with_reducible first | assumption | intro _ | apply sendOut_kept | apply dset_kept | apply Kept.c)
    | (simp only [Kept.mk_iff])
    | split

theorem dadDone_kept {s : State} {conflict : Bool} (h : Kept v s) :
    Kept v (dadDone s conflict) := by
  unfold dadDone
  repeat' first
    | (with_reducible first | assumption | intro _ | apply dset_kept | apply Kept.c)
    | (simp only [Kept.mk_iff])
    | split

theorem neighborSolicited_kept {s : State} {src : Nat} (h : Kept v s) :
    Kept v (neighborSolicited s src) := by
  unfold neighborSolicited
  repeat' first
    | (with_reducible first | assumption | intro _ | apply sendOut_kept | apply Kept.c)
    | (simp only [Kept.mk_iff])
    | split

theorem echoRequested_kept {s : State} {src : Nat} {b : List Byte} (h : Kept v s) :
    Kept v (echoRequested s src b) := by
  unfold echoRequested
  repeat' first
    | (with_reducible first | assumption | intro _ | apply sendOut_kept | apply Kept.c)
    | (simp only [Kept.mk_iff])
    | split

end Sys2Proof.Machine
end

