-- ==== Sys2Proof/Laws/KeepBar.lean ====
section
/-!
SUPPORT. What the operations of Machine/Bar.lean keep (Laws/Keep.lean).
-/

namespace Sys2Proof.Machine

set_option linter.unusedSimpArgs false

variable {v : View}

theorem bar0Effect_kept {s : State} {a1 : Bar0Act} (h : Kept v s) :
    Kept v (bar0Effect s a1) := by
  unfold bar0Effect
  repeat' first
    | (with_reducible first | assumption | intro _ | apply setResult_kept | apply enableQueue_kept)
    | (with_reducible first | apply flushQueue_kept | apply resumeStrand_kept | apply doorbell_kept)
    | (with_reducible first | apply disableQueue_kept | apply bar0Drop_kept | apply endCommand_kept)
    | (with_reducible first | apply Kept.c)
    | (simp only [Kept.mk_iff])
    | split

theorem runLate_kept {fuel : Nat} {a1 : State} (h : Kept v a1) :
    Kept v (runLate fuel a1) := by
  induction fuel generalizing a1 with
  | zero =>
    unfold runLate
    repeat' first
      | (with_reducible first | assumption | intro _ | apply bar0Effect_kept | apply Kept.c)
      | (simp only [Kept.mk_iff])
      | split
  | succ n ih =>
    unfold runLate
    repeat' first
      | (with_reducible first | assumption | intro _ | apply bar0Effect_kept | apply ih | apply Kept.c)
      | (simp only [Kept.mk_iff])
      | split

theorem lateAll_kept {s : State} (h : Kept v s) :
    Kept v (lateAll s) := by
  unfold lateAll
  repeat' first
    | (with_reducible first | assumption | intro _ | apply runLate_kept | apply Kept.c)
    | (simp only [Kept.mk_iff])
    | split

theorem memoryAgain_kept {s : State} (h : Kept v s) :
    Kept v (memoryAgain s) := by
  unfold memoryAgain
  repeat' first
    | (with_reducible first | assumption | intro _ | apply lateAll_kept | apply payOwed_kept | apply Kept.c)
    | (simp only [Kept.mk_iff])
    | split

theorem bar0ReadEffect_kept {s : State} {off : Nat} (h : Kept v s) :
    Kept v (bar0ReadEffect s off) := by
  unfold bar0ReadEffect
  repeat' first
    | (with_reducible first | assumption | intro _ | apply sendAer_kept | apply Kept.c)
    | (simp only [Kept.mk_iff])
    | split

theorem writeDoorbell_kept {s : State} {a1 : Nat} (h : Kept v s) :
    Kept v (writeDoorbell s a1) := by
  unfold writeDoorbell
  repeat' first
    | (with_reducible first | assumption | intro _ | apply lateAll_kept | apply Kept.c)
    | (simp only [Kept.mk_iff])
    | split

theorem writeCommand_kept {s : State} {strand : Bool} {cmd : Nat} {entry : Nat} {q : Nat} (h : Kept v s) :
    Kept v (writeCommand s strand cmd entry q) := by
  unfold writeCommand
  repeat' first
    | (with_reducible first | assumption | intro _ | apply lateAll_kept | apply bar0Drop_kept | apply Kept.c)
    | (simp only [Kept.mk_iff])
    | split

theorem badCommand_kept {s : State} {strand : Bool} {cmd : Nat} {entry : Nat} {q : Nat} (h : Kept v s) :
    Kept v (badCommand s strand cmd entry q) := by
  unfold badCommand
  repeat' first
    | (with_reducible first | assumption | intro _ | apply setResult_kept | apply bar0Drop_kept | apply Kept.c)
    | (simp only [Kept.mk_iff])
    | split

theorem writeWinBase_kept {s : State} {a1 : Nat} {whole : Bool} (h : Kept v s) :
    Kept v (writeWinBase s a1 whole) := by
  unfold writeWinBase
  repeat' first
    | (with_reducible first | assumption | intro _ | apply bar0Drop_kept | apply Kept.c)
    | (simp only [Kept.mk_iff])
    | split

theorem bar0Discarded_kept {s : State} {unlisted : Bool} (h : Kept v s) :
    Kept v (bar0Discarded s unlisted) := by
  unfold bar0Discarded
  repeat' first
    | (with_reducible first | apply sendAer_kept)
    | (with_reducible first | assumption | intro _ | apply toHost_kept | apply bar0Drop_kept | apply Kept.c)
    | (simp only [Kept.mk_iff])
    | split

theorem bar2End_kept {s : State} {write : Bool} {addr : Nat} {len : Nat} {a : MemAnswer} (h : Kept v s) :
    Kept v (bar2End s write addr len a) := by
  unfold bar2End
  repeat' first
    | (with_reducible first | apply sendAer_kept)
    | (with_reducible first | assumption | intro _ | apply hubEvent_kept | apply toHost_kept | apply Kept.c)
    | (simp only [Kept.mk_iff])
    | split

theorem bar2Queue_kept {s : State} {r : MemReq} {counted : Bool} (h : Kept v s) :
    Kept v (bar2Queue s r counted) := by
  unfold bar2Queue
  repeat' first
    | (with_reducible first | assumption | intro _ | apply dcount_kept | apply Kept.c)
    | (simp only [Kept.mk_iff])
    | split

theorem bar2Read_kept {s : State} {off : Nat} {len : Nat} (h : Kept v s) :
    Kept v (bar2Read s off len) := by
  unfold bar2Read
  repeat' first
    | (with_reducible first | assumption | intro _ | apply bar2End_kept | apply bar2Queue_kept)
    | (with_reducible first | apply devRead_kept | apply Kept.c)
    | (with_reducible refine Kept.snd (by assumption) ?_)
    | (simp only [Kept.mk_iff])
    | split

theorem bar2Write_kept {s : State} {off : Nat} {b : List Byte} (h : Kept v s) :
    Kept v (bar2Write s off b) := by
  unfold bar2Write
  repeat' first
    | (with_reducible first | assumption | intro _ | apply bar2End_kept | apply bar2Queue_kept)
    | (with_reducible first | apply devWrite_kept | apply Kept.c)
    | (with_reducible refine Kept.snd (by assumption) ?_)
    | (simp only [Kept.mk_iff])
    | split

theorem anyReply_kept {s : State} {i : Nat} (h : Kept v s) :
    Kept v (anyReply s i) := by
  unfold anyReply
  repeat' first
    | (with_reducible first | assumption | intro _ | apply bar2End_kept | apply lateAll_kept | apply dcount_kept)
    | (with_reducible first | apply requestReply_kept | apply Kept.c)
    | (simp only [Kept.mk_iff])
    | split

theorem d3hotEntry_kept {s : State} (h : Kept v s) :
    Kept v (d3hotEntry s) := by
  unfold d3hotEntry
  repeat' first
    | (with_reducible first | assumption | intro _ | apply Kept.c)
    | (simp only [Kept.mk_iff])
    | split

theorem d0Return_kept {s : State} (h : Kept v s) :
    Kept v (d0Return s) := by
  unfold d0Return
  repeat' first
    | (with_reducible first | assumption | intro _ | apply kickAll_kept | apply Kept.c)
    | (simp only [Kept.mk_iff])
    | split

theorem bar2Resize_kept {s : State} {n : Nat} (h : Kept v s) :
    Kept v (bar2Resize s n) := by
  unfold bar2Resize
  repeat' first
    | (with_reducible first | assumption | intro _ | apply Kept.c)
    | (simp only [Kept.mk_iff])
    | split

theorem linkTraining_kept {s : State} {rate : Nat} {width : Nat} (h : Kept v s) :
    Kept v (linkTraining s rate width) := by
  unfold linkTraining
  repeat' first
    | (with_reducible first | apply linkLost_kept)
    | (with_reducible first | assumption | intro _ | apply Kept.c)
    | (simp only [Kept.mk_iff])
    | split

theorem msixControl_kept {s : State} {enable : Bool} {funcMask : Bool} (h : Kept v s) :
    Kept v (msixControl s enable funcMask) := by
  unfold msixControl
  repeat' first
    | (with_reducible first | assumption | intro _ | apply Kept.foldl | apply Kept.foldlFst)
    | (with_reducible first | apply Kept.foldlSnd | apply unmaskVector_kept | apply retryRings_kept | apply checkModerated_kept)
    | (with_reducible first | apply Kept.c)
    | (simp only [Kept.mk_iff])
    | split

theorem vectorUnmask_kept {s : State} {a1 : Nat} {addr : Nat} {data : Nat} (h : Kept v s) :
    Kept v (vectorUnmask s a1 addr data) := by
  unfold vectorUnmask
  repeat' first
    | (with_reducible first | assumption | intro _ | apply unmaskVector_kept | apply Kept.c)
    | (simp only [Kept.mk_iff])
    | split

end Sys2Proof.Machine
end

