-- ==== Sys2Proof/Laws/KeepCmds.lean ====
section
/-!
SUPPORT. What the operations beside the commands keep (Laws/Keep.lean).
-/

namespace Sys2Proof.Machine

set_option linter.unusedSimpArgs false

variable {v : View}

theorem engineAct_kept {s : State} {e : Nat} {f : State → State} (h : Kept v s) (hf : ∀ t, Kept v t → Kept v (f t)) :
    Kept v (engineAct s e f) := by
  unfold engineAct
  repeat' first
    | (with_reducible first | assumption | intro _ | apply dampCheck_kept | apply hf | apply Kept.c)
    | (simp only [Kept.mk_iff])
    | split

theorem loopInstr_kept {s : State} {q : Nat} {st : Strand} {dst : Nat} {imm : BitVec 32} (h : Kept v s) :
    Kept v (loopInstr s q st dst imm) := by
  unfold loopInstr
  repeat' first
    | (with_reducible first | assumption | intro _ | apply goTo_kept | apply next_kept | apply Kept.c)
    | (simp only [Kept.mk_iff])
    | split

theorem krdInstr_kept {s : State} {q : Nat} {st : Strand} {n : Word} {dst : Nat} (h : Kept v s) :
    Kept v (krdInstr s q st n dst) := by
  unfold krdInstr
  repeat' first
    | (with_reducible first | assumption | intro _ | apply endStrand_kept | apply next_kept)
    | (with_reducible first | apply drawFree_kept | apply stopHeld_kept | apply Kept.c)
    | (with_reducible refine Kept.snd (by assumption) ?_)
    | (with_reducible refine KeptO.use (by assumption) ?_)
    | (simp only [Kept.mk_iff])
    | split

theorem completeOp_kept {s : State} {k : Nat} (h : Kept v s) :
    Kept v (completeOp s k) := by
  unfold completeOp
  repeat' first
    | (with_reducible first | assumption | intro _ | apply spinComplete_kept | apply operationComplete_kept)
    | (with_reducible first | apply pump_kept | apply Kept.c)
    | (simp only [Kept.mk_iff])
    | split

theorem controllerPass_kept {s : State} {lost : List Nat} (h : Kept v s) :
    Kept v (controllerPass s lost) := by
  unfold controllerPass
  repeat' first
    | (with_reducible first | assumption | intro _ | apply pump_kept | apply ladderPass_kept)
    | (with_reducible first | apply freezeBoundary_kept | apply checkBoundary_kept | apply Kept.c)
    | (with_reducible refine Kept.fst (by assumption) ?_)
    | (simp only [Kept.mk_iff])
    | split

theorem acceptAt_kept {s : State} {i : Nat} {ringFails : Bool} (h : Kept v s) :
    Kept v (acceptAt s i ringFails) := by
  unfold acceptAt
  repeat' first
    | (with_reducible first | assumption | intro _ | apply acceptRecord_kept | apply snapEvent_kept)
    | (with_reducible first | apply stormRecorded_kept | apply Kept.c)
    | (with_reducible refine KeptO.use (by assumption) ?_)
    | (simp only [Kept.mk_iff])
    | split

theorem holdoffOver_kept {s : State} {r : Nat} (h : Kept v s) :
    Kept v (holdoffOver s r) := by
  unfold holdoffOver
  repeat' first
    | (with_reducible first | assumption | intro _ | apply raiseRing_kept | apply Kept.c)
    | (simp only [Kept.mk_iff])
    | split

theorem occurAt_kept {s : State} {i : Nat} (h : Kept v s) :
    Kept v (occurAt s i) := by
  unfold occurAt
  repeat' first
    | (with_reducible first | assumption | intro _ | apply localOccur_kept | apply Kept.c)
    | (simp only [Kept.mk_iff])
    | split

end Sys2Proof.Machine
end

