-- ==== Sys2Proof/Laws/MemOnly.lean ====
section
/-!
SUPPORT. What reading and writing memory can change: memory itself, the free values drawn, the frozen pages that a
    write touches
and their counter. `MemOnly u t` says that `t` is `u` in all else; a lemma `f_memOnly` says it of the operation `f`.
-/

namespace Sys2Proof.Machine

set_option linter.unusedSimpArgs false

/-- A state without what an access to memory can change. -/
def State.outside (s : State) : State := { s with mem := {}, free := 0, ck := {}, dict := [] }

/-- All but memory, free values, frozen pages and the dictionary is as in `u`. -/
def MemOnly (u t : State) : Prop := t.outside = u.outside

variable {v : State}

/-- `MemOnly` of a state's fields. -/
def MemOnlyC (v : State) (x_pending : List Instr) (x_ev : EvSys) (x_flt : FltSys) (x_knotq : List KnotMsg) (x_knots
    : Tab Nat) (x_knotsLost : List Nat) (x_engines : Tab Engine) (x_ops : Tab (Option OpRec)) (x_nextOp : Nat)
    (x_jobs : Tab Job) (x_raq : List RaReq) (x_storm : Storm) (x_reports : List Report) (x_gens : Tab Gen) (x_tlines
    : Tab (List TLine)) (x_tin : Tab (List TLine)) (x_tout : Tab (List TLine)) (x_swapJob : Option Nat) (x_swapped :
    List Nat) (x_seqs : Tab Seqr) (x_saved : List Saved) (x_q : QSys) (x_pcie : PcieFn) (x_pw : PwSys) (x_cord : CordSys) (x_snap :
    SnapSys) (x_rst : RstSys) (x_flash : FlashSys) (x_dsys : DictSys) (x_sec : SecSys) (x_d3 : Bool) (x_heldHost :
    List OutMsg) (x_out : List OutMsg) : Prop :=
  State.mk x_pending 0 [] {} x_ev x_flt x_knotq x_knots x_knotsLost x_engines x_ops x_nextOp x_jobs x_raq x_storm
    x_reports x_gens x_tlines x_tin x_tout x_swapJob x_swapped x_seqs x_saved x_q x_pcie x_pw x_cord {} x_snap x_rst
    x_flash x_dsys x_sec x_d3 x_heldHost x_out = v.outside

theorem MemOnly.mk_iff x_pending x_free x_dict x_mem x_ev x_flt x_knotq x_knots x_knotsLost x_engines x_ops x_nextOp
    x_jobs x_raq x_storm x_reports x_gens x_tlines x_tin x_tout x_swapJob x_swapped x_seqs x_saved x_q x_pcie x_pw x_cord
    x_ck x_snap x_rst x_flash x_dsys x_sec x_d3 x_heldHost x_out :
    MemOnly v (State.mk x_pending x_free x_dict x_mem x_ev x_flt x_knotq x_knots x_knotsLost x_engines x_ops
    x_nextOp x_jobs x_raq x_storm x_reports x_gens x_tlines x_tin x_tout x_swapJob x_swapped x_seqs x_saved x_q x_pcie x_pw
    x_cord x_ck x_snap x_rst x_flash x_dsys x_sec x_d3 x_heldHost x_out) = MemOnlyC v x_pending x_ev x_flt x_knotq
    x_knots x_knotsLost x_engines x_ops x_nextOp x_jobs x_raq x_storm x_reports x_gens x_tlines x_tin x_tout
    x_swapJob x_swapped x_seqs x_saved x_q x_pcie x_pw x_cord x_snap x_rst x_flash x_dsys x_sec x_d3 x_heldHost x_out :=
    Eq.trans rfl rfl

theorem MemOnly.c {s : State} (h : MemOnly v s) : MemOnlyC v s.pending s.ev s.flt s.knotq s.knots s.knotsLost
    s.engines s.ops s.nextOp s.jobs s.raq s.storm s.reports s.gens s.tlines s.tin s.tout s.swapJob s.swapped s.seqs
    s.saved s.q s.pcie s.pw s.cord s.snap s.rst s.flash s.dsys s.sec s.d3 s.heldHost s.out := h

theorem MemOnly.refl (s : State) : MemOnly s s := rfl

theorem MemOnly.trans {s t u : State} (h : MemOnly s t) (h' : MemOnly t u) : MemOnly s u := Eq.trans h' h

theorem MemOnly.snd {α : Type} {r : α × State} {x : α} {t : State} (e : r = (x, t)) (h : MemOnly v r.2) : MemOnly v
    t := by
  subst e; exact h

theorem MemOnly.foldl {α : Type} {f : State → α → State} {l : List α} {s : State}
    (hf : ∀ t x, MemOnly v t → MemOnly v (f t x)) (h : MemOnly v s) : MemOnly v (l.foldl f s) := by
  induction l generalizing s with
  | nil => exact h
  | cons x r ih => exact ih (hf s x h)

theorem MemOnly.foldlFst {α β : Type} {f : State × β → α → State × β} {l : List α} {s : State × β}
    (hf : ∀ t x, MemOnly v t.1 → MemOnly v (f t x).1) (h : MemOnly v s.1) : MemOnly v (l.foldl f s).1 := by
  induction l generalizing s with
  | nil => exact h
  | cons x r ih => exact ih (hf s x h)

theorem MemOnly.foldlSnd {α β : Type} {f : β × State → α → β × State} {l : List α} {s : β × State}
    (hf : ∀ t x, MemOnly v t.2 → MemOnly v (f t x).2) (h : MemOnly v s.2) : MemOnly v (l.foldl f s).2 := by
  induction l generalizing s with
  | nil => exact h
  | cons x r ih => exact ih (hf s x h)

theorem MemOnly.pending {s t : State} (h : MemOnly s t) : t.pending = s.pending :=
  (congrArg State.pending h : t.outside.pending = s.outside.pending)
theorem MemOnly.ev {s t : State} (h : MemOnly s t) : t.ev = s.ev :=
  (congrArg State.ev h : t.outside.ev = s.outside.ev)
theorem MemOnly.flt {s t : State} (h : MemOnly s t) : t.flt = s.flt :=
  (congrArg State.flt h : t.outside.flt = s.outside.flt)
theorem MemOnly.knotq {s t : State} (h : MemOnly s t) : t.knotq = s.knotq :=
  (congrArg State.knotq h : t.outside.knotq = s.outside.knotq)
theorem MemOnly.knots {s t : State} (h : MemOnly s t) : t.knots = s.knots :=
  (congrArg State.knots h : t.outside.knots = s.outside.knots)
theorem MemOnly.knotsLost {s t : State} (h : MemOnly s t) : t.knotsLost = s.knotsLost :=
  (congrArg State.knotsLost h : t.outside.knotsLost = s.outside.knotsLost)
theorem MemOnly.engines {s t : State} (h : MemOnly s t) : t.engines = s.engines :=
  (congrArg State.engines h : t.outside.engines = s.outside.engines)
theorem MemOnly.ops {s t : State} (h : MemOnly s t) : t.ops = s.ops :=
  (congrArg State.ops h : t.outside.ops = s.outside.ops)
theorem MemOnly.nextOp {s t : State} (h : MemOnly s t) : t.nextOp = s.nextOp :=
  (congrArg State.nextOp h : t.outside.nextOp = s.outside.nextOp)
theorem MemOnly.jobs {s t : State} (h : MemOnly s t) : t.jobs = s.jobs :=
  (congrArg State.jobs h : t.outside.jobs = s.outside.jobs)
theorem MemOnly.raq {s t : State} (h : MemOnly s t) : t.raq = s.raq :=
  (congrArg State.raq h : t.outside.raq = s.outside.raq)
theorem MemOnly.storm {s t : State} (h : MemOnly s t) : t.storm = s.storm :=
  (congrArg State.storm h : t.outside.storm = s.outside.storm)
theorem MemOnly.reports {s t : State} (h : MemOnly s t) : t.reports = s.reports :=
  (congrArg State.reports h : t.outside.reports = s.outside.reports)
theorem MemOnly.gens {s t : State} (h : MemOnly s t) : t.gens = s.gens :=
  (congrArg State.gens h : t.outside.gens = s.outside.gens)
theorem MemOnly.tlines {s t : State} (h : MemOnly s t) : t.tlines = s.tlines :=
  (congrArg State.tlines h : t.outside.tlines = s.outside.tlines)
theorem MemOnly.tin {s t : State} (h : MemOnly s t) : t.tin = s.tin :=
  (congrArg State.tin h : t.outside.tin = s.outside.tin)
theorem MemOnly.tout {s t : State} (h : MemOnly s t) : t.tout = s.tout :=
  (congrArg State.tout h : t.outside.tout = s.outside.tout)
theorem MemOnly.swapJob {s t : State} (h : MemOnly s t) : t.swapJob = s.swapJob :=
  (congrArg State.swapJob h : t.outside.swapJob = s.outside.swapJob)
theorem MemOnly.swapped {s t : State} (h : MemOnly s t) : t.swapped = s.swapped :=
  (congrArg State.swapped h : t.outside.swapped = s.outside.swapped)
theorem MemOnly.seqs {s t : State} (h : MemOnly s t) : t.seqs = s.seqs :=
  (congrArg State.seqs h : t.outside.seqs = s.outside.seqs)
theorem MemOnly.saved {s t : State} (h : MemOnly s t) : t.saved = s.saved :=
  (congrArg State.saved h : t.outside.saved = s.outside.saved)
theorem MemOnly.q {s t : State} (h : MemOnly s t) : t.q = s.q :=
  (congrArg State.q h : t.outside.q = s.outside.q)
theorem MemOnly.pw {s t : State} (h : MemOnly s t) : t.pw = s.pw :=
  (congrArg State.pw h : t.outside.pw = s.outside.pw)
theorem MemOnly.cord {s t : State} (h : MemOnly s t) : t.cord = s.cord :=
  (congrArg State.cord h : t.outside.cord = s.outside.cord)
theorem MemOnly.snap {s t : State} (h : MemOnly s t) : t.snap = s.snap :=
  (congrArg State.snap h : t.outside.snap = s.outside.snap)
theorem MemOnly.rst {s t : State} (h : MemOnly s t) : t.rst = s.rst :=
  (congrArg State.rst h : t.outside.rst = s.outside.rst)
theorem MemOnly.flash {s t : State} (h : MemOnly s t) : t.flash = s.flash :=
  (congrArg State.flash h : t.outside.flash = s.outside.flash)
theorem MemOnly.dsys {s t : State} (h : MemOnly s t) : t.dsys = s.dsys :=
  (congrArg State.dsys h : t.outside.dsys = s.outside.dsys)
theorem MemOnly.sec {s t : State} (h : MemOnly s t) : t.sec = s.sec :=
  (congrArg State.sec h : t.outside.sec = s.outside.sec)
theorem MemOnly.d3 {s t : State} (h : MemOnly s t) : t.d3 = s.d3 :=
  (congrArg State.d3 h : t.outside.d3 = s.outside.d3)
theorem MemOnly.heldHost {s t : State} (h : MemOnly s t) : t.heldHost = s.heldHost :=
  (congrArg State.heldHost h : t.outside.heldHost = s.outside.heldHost)
theorem MemOnly.out {s t : State} (h : MemOnly s t) : t.out = s.out :=
  (congrArg State.out h : t.outside.out = s.outside.out)

theorem dset_memOnly {s : State} {key : Nat} {a2 : Nat} (h : MemOnly v s) :
    MemOnly v (dset s key a2) := by
  unfold dset
  repeat' first
    | (with_reducible first | assumption | intro _ | apply MemOnly.c)
    | (simp only [MemOnly.mk_iff])
    | split

theorem dcount_memOnly {s : State} {key : Nat} {n : Nat} (h : MemOnly v s) :
    MemOnly v (dcount s key n) := by
  unfold dcount
  repeat' first
    | (with_reducible first | assumption | intro _ | apply dset_memOnly | apply MemOnly.c)
    | (simp only [MemOnly.mk_iff])
    | split

theorem drawFree_memOnly {s : State} (h : MemOnly v s) :
    MemOnly v (drawFree s).2 := by
  unfold drawFree
  repeat' first
    | (with_reducible first | assumption | intro _ | apply MemOnly.c)
    | (simp only [MemOnly.mk_iff])
    | split

theorem allocLine_memOnly {s : State} {atom : Nat} {l : CLine} (h : MemOnly v s) :
    MemOnly v (allocLine s atom l) := by
  unfold allocLine
  repeat' first
    | (with_reducible first | assumption | intro _ | apply drawFree_memOnly | apply MemOnly.c)
    | (with_reducible refine MemOnly.snd (by assumption) ?_)
    | (simp only [MemOnly.mk_iff, putLine_cells])
    | split

theorem atomFill_memOnly {s : State} {cached : Bool} {l : Loc} (h : MemOnly v s) :
    MemOnly v (atomFill s cached l).2 := by
  unfold atomFill
  repeat' first
    | (with_reducible first | assumption | intro _ | apply allocLine_memOnly | apply MemOnly.c)
    | (simp only [MemOnly.mk_iff])
    | split

theorem atomRead_memOnly {s : State} {a1 : Via} {cached : Bool} {l : Loc} {n : Nat} (h : MemOnly v s) :
    MemOnly v (atomRead s a1 cached l n).2 := by
  unfold atomRead
  repeat' first
    | (with_reducible first | assumption | intro _ | apply atomFill_memOnly | apply MemOnly.c)
    | (with_reducible refine MemOnly.snd (by assumption) ?_)
    | (simp only [MemOnly.mk_iff])
    | split

theorem atomWrite_memOnly {s : State} {a1 : Via} {cached : Bool} {l : Loc} {b : List Byte} (h : MemOnly v s) :
    MemOnly v (atomWrite s a1 cached l b).2 := by
  unfold atomWrite
  repeat' first
    | (with_reducible first | assumption | intro _ | apply allocLine_memOnly | apply MemOnly.c)
    | (simp only [MemOnly.mk_iff, putLine_cells, cureAtom_cells])
    | split

theorem readPieces_memOnly {s : State} {a1 : Via} {bulk : Bool} {a3 : List (Nat × Nat)} (h : MemOnly v s) :
    MemOnly v (readPieces s a1 bulk a3).2 := by
  induction a3 generalizing s a1 bulk with
  | nil =>
    unfold readPieces
    repeat' first
      | (with_reducible first | assumption | intro _ | apply atomRead_memOnly | apply MemOnly.c)
      | (with_reducible refine MemOnly.snd (by assumption) ?_)
      | (simp only [MemOnly.mk_iff])
      | split
  | cons x r ih =>
    unfold readPieces
    repeat' first
      | (with_reducible first | assumption | intro _ | apply atomRead_memOnly | apply ih | apply MemOnly.c)
      | (with_reducible refine MemOnly.snd (by assumption) ?_)
      | (simp only [MemOnly.mk_iff])
      | split

theorem devRead_memOnly {s : State} {a1 : Via} {bulk : Bool} {a : Nat} {n : Nat} (h : MemOnly v s) :
    MemOnly v (devRead s a1 bulk a n).2 := by
  unfold devRead
  repeat' first
    | (with_reducible first | assumption | intro _ | apply readPieces_memOnly | apply MemOnly.c)
    | (with_reducible refine MemOnly.snd (by assumption) ?_)
    | (simp only [MemOnly.mk_iff])
    | split

theorem setPage_memOnly {s : State} {p : Nat} {pg : Option PageSt} (h : MemOnly v s) :
    MemOnly v (setPage s p pg) := by
  unfold setPage
  repeat' first
    | (with_reducible first | assumption | intro _ | apply MemOnly.c)
    | (simp only [MemOnly.mk_iff])
    | split

theorem touchPage_memOnly {s : State} {p : Nat} {pg : PageSt} (h : MemOnly v s) :
    MemOnly v (touchPage s p pg) := by
  unfold touchPage
  repeat' first
    | (with_reducible first | assumption | intro _ | apply dcount_memOnly | apply setPage_memOnly | apply MemOnly.c)
    | (simp only [MemOnly.mk_iff])
    | split

theorem writeBlocked_memOnly {s : State} {a1 : Via} {bulk : Bool} {a3 : List (Nat × Nat)} (h : MemOnly v s) :
    MemOnly v (writeBlocked s a1 bulk a3).2 := by
  induction a3 generalizing s a1 bulk with
  | nil =>
    unfold writeBlocked
    repeat' first
      | (with_reducible first | assumption | intro _ | apply touchPage_memOnly | apply MemOnly.c)
      | (simp only [MemOnly.mk_iff])
      | split
  | cons x r ih =>
    unfold writeBlocked
    repeat' first
      | (with_reducible first | assumption | intro _ | apply touchPage_memOnly | apply ih | apply MemOnly.c)
      | (with_reducible refine MemOnly.snd (by assumption) ?_)
      | (simp only [MemOnly.mk_iff])
      | split

theorem writePieces_memOnly {s : State} {a1 : Via} {bulk : Bool} {a3 : List (Nat × Nat)} {a4 : List Byte} (h :
    MemOnly v s) :
    MemOnly v (writePieces s a1 bulk a3 a4).2 := by
  induction a3 generalizing s a1 bulk a4 with
  | nil =>
    unfold writePieces
    repeat' first
      | (with_reducible first | assumption | intro _ | apply atomWrite_memOnly | apply MemOnly.c)
      | (with_reducible refine MemOnly.snd (by assumption) ?_)
      | (simp only [MemOnly.mk_iff])
      | split
  | cons x r ih =>
    unfold writePieces
    repeat' first
      | (with_reducible first | assumption | intro _ | apply atomWrite_memOnly | apply ih | apply MemOnly.c)
      | (with_reducible refine MemOnly.snd (by assumption) ?_)
      | (simp only [MemOnly.mk_iff])
      | split

theorem devWrite_memOnly {s : State} {a1 : Via} {bulk : Bool} {a : Nat} {b : List Byte} (h : MemOnly v s) :
    MemOnly v (devWrite s a1 bulk a b).2 := by
  unfold devWrite
  repeat' first
    | (with_reducible first | assumption | intro _ | apply writePieces_memOnly | apply writeBlocked_memOnly)
    | (with_reducible first | apply MemOnly.c)
    | (with_reducible refine MemOnly.snd (by assumption) ?_)
    | (simp only [MemOnly.mk_iff])
    | split

theorem readMany_memOnly {s : State} {a1 : Via} {bulk : Bool} {a3 : List (Nat × Nat)} (h : MemOnly v s) :
    MemOnly v (readMany s a1 bulk a3).2 := by
  induction a3 generalizing s a1 bulk with
  | nil =>
    unfold readMany
    repeat' first
      | (with_reducible first | assumption | intro _ | apply devRead_memOnly | apply MemOnly.c)
      | (with_reducible refine MemOnly.snd (by assumption) ?_)
      | (simp only [MemOnly.mk_iff])
      | split
  | cons x r ih =>
    unfold readMany
    repeat' first
      | (with_reducible first | assumption | intro _ | apply devRead_memOnly | apply ih | apply MemOnly.c)
      | (with_reducible refine MemOnly.snd (by assumption) ?_)
      | (simp only [MemOnly.mk_iff])
      | split

theorem writeRuns_memOnly {s : State} {a1 : Via} {bulk : Bool} {a3 : List (Nat × List Byte)} (h : MemOnly v s) :
    MemOnly v (writeRuns s a1 bulk a3).2 := by
  induction a3 generalizing s a1 bulk with
  | nil =>
    unfold writeRuns
    repeat' first
      | (with_reducible first | assumption | intro _ | apply devWrite_memOnly | apply MemOnly.c)
      | (with_reducible refine MemOnly.snd (by assumption) ?_)
      | (simp only [MemOnly.mk_iff])
      | split
  | cons x r ih =>
    unfold writeRuns
    repeat' first
      | (with_reducible first | assumption | intro _ | apply devWrite_memOnly | apply ih | apply MemOnly.c)
      | (with_reducible refine MemOnly.snd (by assumption) ?_)
      | (simp only [MemOnly.mk_iff])
      | split

theorem writeMany_memOnly {s : State} {a1 : Via} {bulk : Bool} {l : List (Nat × List Byte)} (h : MemOnly v s) :
    MemOnly v (writeMany s a1 bulk l).2 := by
  unfold writeMany
  repeat' first
    | (with_reducible first | assumption | intro _ | apply writeRuns_memOnly | apply MemOnly.c)
    | (with_reducible refine MemOnly.snd (by assumption) ?_)
    | (simp only [MemOnly.mk_iff])
    | split

theorem writesBlocked_memOnly {s : State} {a1 : Via} {l : List (Nat × List Byte)} (h : MemOnly v s) :
    MemOnly v (writesBlocked s a1 l).2 := by
  unfold writesBlocked
  repeat' first
    | (with_reducible first | assumption | intro _ | apply MemOnly.foldl | apply MemOnly.foldlFst)
    | (with_reducible first | apply MemOnly.foldlSnd | apply writeBlocked_memOnly | apply MemOnly.c)
    | (with_reducible refine MemOnly.snd (by assumption) ?_)
    | (simp only [MemOnly.mk_iff])
    | split

theorem readCodes_memOnly {s : State} {a1 : Via} {eb : Nat} {addrs : List (Option Nat)} (h : MemOnly v s) :
    MemOnly v (readCodes s a1 eb addrs).2 := by
  unfold readCodes
  repeat' first
    | (with_reducible first | assumption | intro _ | apply readMany_memOnly | apply MemOnly.c)
    | (with_reducible refine MemOnly.snd (by assumption) ?_)
    | (simp only [MemOnly.mk_iff])
    | split

theorem stageBlocks_memOnly {s : State} {a1 : Via} {t : Tensor} {g : Staged} (h : MemOnly v s) :
    MemOnly v (stageBlocks s a1 t g).2 := by
  unfold stageBlocks
  repeat' first
    | (with_reducible first | assumption | intro _ | apply readMany_memOnly | apply MemOnly.c)
    | (with_reducible refine MemOnly.snd (by assumption) ?_)
    | (simp only [MemOnly.mk_iff])
    | split

theorem stageX_memOnly {s : State} {o : OpRec} {t : TileRun} {die : Nat} {m : Nat} {k0 : Nat} {cnt : Nat} (h : MemOnly v s) :
    MemOnly v (stageX s o t die m k0 cnt).2 := by
  unfold stageX
  repeat' first
    | (with_reducible first | assumption | intro _ | apply readCodes_memOnly | apply stageBlocks_memOnly)
    | (with_reducible first | apply MemOnly.c)
    | (with_reducible refine MemOnly.snd (by assumption) ?_)
    | (simp only [MemOnly.mk_iff])
    | split

theorem stageW_memOnly {s : State} {o : OpRec} {t : TileRun} {die : Nat} {n : Nat} {k0 : Nat} {cnt : Nat} (h : MemOnly v s) :
    MemOnly v (stageW s o t die n k0 cnt).2 := by
  unfold stageW
  repeat' first
    | (with_reducible first | assumption | intro _ | apply readCodes_memOnly | apply stageBlocks_memOnly)
    | (with_reducible first | apply XO.getD | apply MemOnly.c)
    | (with_reducible refine MemOnly.snd (by assumption) ?_)
    | (simp only [MemOnly.mk_iff])
    | split

theorem feedX_memOnly {s : State} {o : OpRec} {t : TileRun} {die : Nat} {m : Nat} {k0 : Nat} {cnt : Nat} (h : MemOnly v s) :
    MemOnly v (feedX s o t die m k0 cnt).2 := by
  unfold feedX
  repeat' first
    | (with_reducible first | assumption | intro _ | apply stageX_memOnly | apply MemOnly.c)
    | (with_reducible refine MemOnly.snd (by assumption) ?_)
    | (simp only [MemOnly.mk_iff])
    | split

theorem feedW_memOnly {s : State} {o : OpRec} {t : TileRun} {die : Nat} {n : Nat} {k0 : Nat} {cnt : Nat} (h : MemOnly v s) :
    MemOnly v (feedW s o t die n k0 cnt).2 := by
  unfold feedW
  repeat' first
    | (with_reducible first | assumption | intro _ | apply stageW_memOnly | apply MemOnly.c)
    | (with_reducible refine MemOnly.snd (by assumption) ?_)
    | (simp only [MemOnly.mk_iff])
    | split

theorem feedCols_memOnly {s : State} {o : OpRec} {t : TileRun} {die : Nat} {k0 : Nat} {cnt : Nat} {a6 : List Nat} (h : MemOnly v s) :
    MemOnly v (feedCols s o t die k0 cnt a6).2 := by
  induction a6 generalizing s o t die k0 cnt with
  | nil =>
    unfold feedCols
    repeat' first
      | (with_reducible first | assumption | intro _ | apply feedW_memOnly | apply MemOnly.c)
      | (with_reducible refine MemOnly.snd (by assumption) ?_)
      | (simp only [MemOnly.mk_iff])
      | split
  | cons x r ih =>
    unfold feedCols
    repeat' first
      | (with_reducible first | assumption | intro _ | apply feedW_memOnly | apply ih | apply MemOnly.c)
      | (with_reducible refine MemOnly.snd (by assumption) ?_)
      | (simp only [MemOnly.mk_iff])
      | split

theorem readRescale_memOnly {s : State} {o : OpRec} {t : TileRun} {die : Nat} (h : MemOnly v s) :
    MemOnly v (readRescale s o t die).2 := by
  unfold readRescale
  repeat' first
    | (with_reducible first | assumption | intro _ | apply readMany_memOnly | apply MemOnly.c)
    | (with_reducible refine MemOnly.snd (by assumption) ?_)
    | (simp only [MemOnly.mk_iff])
    | split

theorem maxOfRows_memOnly {s : State} {o : OpRec} {x : Tensor} {b : TileBox} {die : Nat} {a5 : List Nat} (h :
    MemOnly v s) :
    MemOnly v (maxOfRows s o x b die a5).2 := by
  induction a5 generalizing s o x b die with
  | nil =>
    unfold maxOfRows
    repeat' first
      | (with_reducible first | assumption | intro _ | apply readCodes_memOnly | apply MemOnly.c)
      | (with_reducible refine MemOnly.snd (by assumption) ?_)
      | (simp only [MemOnly.mk_iff])
      | split
  | cons x r ih =>
    unfold maxOfRows
    repeat' first
      | (with_reducible first | assumption | intro _ | apply readCodes_memOnly | apply ih | apply MemOnly.c)
      | (with_reducible refine MemOnly.snd (by assumption) ?_)
      | (simp only [MemOnly.mk_iff])
      | split

theorem maxOfCols_memOnly {s : State} {o : OpRec} {w : Tensor} {b : TileBox} {die : Nat} {a5 : List Nat} (h :
    MemOnly v s) :
    MemOnly v (maxOfCols s o w b die a5).2 := by
  induction a5 generalizing s o w b die with
  | nil =>
    unfold maxOfCols
    repeat' first
      | (with_reducible first | assumption | intro _ | apply readCodes_memOnly | apply MemOnly.c)
      | (with_reducible refine MemOnly.snd (by assumption) ?_)
      | (simp only [MemOnly.mk_iff])
      | split
  | cons x r ih =>
    unfold maxOfCols
    repeat' first
      | (with_reducible first | assumption | intro _ | apply readCodes_memOnly | apply ih | apply MemOnly.c)
      | (with_reducible refine MemOnly.snd (by assumption) ?_)
      | (simp only [MemOnly.mk_iff])
      | split

theorem prePass_memOnly {s : State} {o : OpRec} {t : TileRun} {die : Nat} (h : MemOnly v s) :
    MemOnly v (prePass s o t die).2 := by
  unfold prePass
  repeat' first
    | (with_reducible first | assumption | intro _ | apply maxOfRows_memOnly | apply maxOfCols_memOnly | apply
    MemOnly.c)
    | (with_reducible refine MemOnly.snd (by assumption) ?_)
    | (simp only [MemOnly.mk_iff])
    | split

end Sys2Proof.Machine
end

