-- ==== Sys2Proof/WellFormed.lean ====
section
/-!
DEFINITION. Well-formed commands: operands that no sender and no event of the hardware can have are ruled out. Unit, register
and field numbers are bounded by their types; the checks here bound the rest.
-/

namespace Sys2Proof

open Machine

/-- The fields of a Cord frame fit their places on the wire (R310, R311); what a port accepts of it is R310's and R313's to
say. -/
def Machine.frameOk (f : CordFrame) : Bool :=
  decide (f.chan < 16) && decide (f.job < 2 ^ 32) && decide (f.srcRank < 2 ^ 16) && decide (f.dstRank < 2 ^ 16)
    && decide (f.group < 2 ^ 16) && decide (f.session < 2 ^ 16) && decide (f.seq < 2 ^ 32) && decide (f.arg < 2 ^ 32)
    && decide (f.elem < 2 ^ 40) && decide (f.code < 256) && decide (f.coll < 2 ^ 16)
    && decide (f.dst < 2 ^ 48) && decide (f.src < 2 ^ 48) && decide (f.tag.getD 0 < 2 ^ 16) && decide (f.etherType < 2 ^ 16)
    && decide (f.ver < 16) && decide (f.rsvd < 8) && decide (f.len < 2 ^ 16) && decide (f.crc < 2 ^ 32)
    && decide (f.payload.length < 2 ^ 16)

/-- A peer index of the peer table (R314). -/
def Machine.peerOk (peer : Nat) : Bool := decide (peer < 4096)

/-- A reading of a feed fits its entries (R405). -/
def Machine.feedOk (r : FeedReading) : Bool :=
  decide (-32768 ≤ r.volt) && decide (r.volt < 32768) && decide (r.curr < 65536)

/-- A signed reading in 1/16 °C fits its entry. -/
def Machine.tempOk (t : Option Int) : Bool :=
  match t with
  | none => true
  | some x => decide (-32768 ≤ x) && decide (x < 32768)

/-- A datagram's addresses and length (R436). -/
def Machine.datagramOk (d : Datagram) : Bool :=
  decide (d.src < 2 ^ 128) && decide (d.port < 65536) && decide (d.payload.length ≤ 1452)

/-- Well-formed commands. -/
def Instr.wf : Instr → Bool
  | .arrayStep _ (some (_, k, n)) => decide (k < 192) && decide (n < 64)
  | .proofTest _ _ c => decide (c.gens < 65536)
  | .entryFetchReturn _ (some b) => decide (b.length ≤ 512)
  | .bar2Read _ len => decide (1 ≤ len) && decide (len ≤ 4096)
  | .bar2Write _ b => decide (1 ≤ b.length) && decide (b.length ≤ 4096)
  | .bar2Resize n => decide (28 ≤ n) && decide (n ≤ 41)
  | .pcieLinkTraining r w => decide (3 ≤ r) && decide (r ≤ 5) && [1, 2, 4, 8, 16].contains w
  | .fetchAdd _ wide a v => decide (a < 2 ^ 48) && decide (v < 2 ^ (if wide then 64 else 32))
  | .compareSwap _ a e n => decide (a < 2 ^ 48) && decide (e < 2 ^ 64) && decide (n < 2 ^ 64)
  | .stackThermalLevel _ t => tempOk t
  | .clusterThermalLevel _ t => tempOk t
  | .coolantInletReading i o => tempOk i && tempOk o
  | .feedCondition _ r => feedOk r
  | .feedVoltageCrossover a b => feedOk a && feedOk b
  | .budgetWindowEnd a b cs _ => feedOk a && feedOk b && decide (cs.length = 32)
  | .stepMonitorWindow cs => decide (cs.length = 32)
  | .ra p _ f => peerOk p && frameOk f.frame
  | .gather p _ f | .ack p _ f | .nak p _ f | .ashNak p _ f | .heartbeat p _ f | .goingDown p _ f
  | .heatHold p _ f | .marker p _ f | .abort p _ f | .page p _ f | .pairReq p _ f | .pairAck p _ f | .pairRefuse p _ f
  | .freezeBegin p _ f | .beginAck p _ f | .digests p _ f | .freezeEnd p _ f | .endAck p _ f | .refuse p _ f
  | .abandon p _ f | .restoreReq p _ f | .digestReq p _ f | .unavailable p _ f => peerOk p && frameOk f
  | .heartbeatSend p _ | .pathSilenceTimeout p _ => peerOk p
  | .cordRtoExpiry p _ _ | .cordRnrWaitExpiry p _ _ | .ackTimer p _ _ => peerOk p
  | .read (.field d) | .write (.field d) _ | .discover d => datagramOk d
  | .neighborSolicitation a => decide (a < 2 ^ 128)
  | .echoRequest a b => decide (a < 2 ^ 128) && decide (b.length ≤ 1452)
  | .mbxDoorbell _ b => decide (b.length ≤ 4096)
  | .directMapWrite off _ _ => decide (off < 2 ^ 22)
  | .boot b _ => decide (b.activeStep ≤ 5)
  | .startMemory l => decide (l.length = 20)
  | .fwStageData b => decide (b.length = 1024)
  | _ => true

end Sys2Proof
end

