-- ==== Sys2Proof/Tests/Slice0.lean ====
section
/-!
SUPPORT. The model's own tests: ill-formed commands that the checks refuse, witnesses that the hypotheses of the statements can be
met, and single steps held beside the spec.
-/

namespace Sys2Proof.Tests

open Sys2Proof.Machine

set_option Elab.async false

/-! ### States -/

/-- Every channel of every stack is live. -/
def allLive : Tab Nat := (List.range 20).map fun h => (h, 2 ^ 32 - 1)

/-- A module in Run whose start-up has ended. -/
def up : State :=
  dset { State.reset with q := { qeReady := true, memReady := true }, mem := { live := allLive } } Key.startupStage 7

/-! ### Well-formed commands -/

/-- A reading out of its entry's range. -/
def farReading : FeedReading := { volt := 40000 }

theorem test_wf_engine : Instr.wf (.arrayStep 0 (some (.res3Cell, 192, 0))) = false := by decide
theorem test_wf_core : Instr.wf (.proofTest 0 false { gens := 65536 }) = false := by decide
theorem test_wf_fetch : Instr.wf (.entryFetchReturn 0 (some (List.replicate 513 0))) = false := by decide +kernel
theorem test_wf_bar2 : Instr.wf (.bar2Read 0 0) = false ∧ Instr.wf (.bar2Write 0 []) = false := by decide
theorem test_wf_resize : Instr.wf (.bar2Resize 27) = false ∧ Instr.wf (.bar2Resize 42) = false := by decide
theorem test_wf_link : Instr.wf (.pcieLinkTraining 5 3) = false ∧ Instr.wf (.pcieLinkTraining 2 16) = false := by decide
theorem test_wf_atomic : Instr.wf (.fetchAdd none false 0 (2 ^ 32)) = false ∧
    Instr.wf (.compareSwap none (2 ^ 48) 0 0) = false := by decide
theorem test_wf_temps : Instr.wf (.stackThermalLevel 0 (some 32768)) = false ∧
    Instr.wf (.clusterThermalLevel 0 (some 32768)) = false ∧
    Instr.wf (.coolantInletReading none (some 32768)) = false := by decide
theorem test_wf_feeds : Instr.wf (.feedCondition 0 farReading) = false ∧
    Instr.wf (.feedVoltageCrossover {} farReading) = false ∧ Instr.wf (.budgetWindowEnd {} {} [] 0) = false ∧
    Instr.wf (.stepMonitorWindow []) = false := by decide
theorem test_wf_frames : Instr.wf (.ra 4096 0 ⟨{}, none⟩) = false ∧ Instr.wf (.ack 0 0 { chan := 16 }) = false ∧
    Instr.wf (.page 0 0 { ver := 16 }) = false ∧ Instr.wf (.heartbeatSend 4096 0) = false ∧
    Instr.wf (.ackTimer 4096 0 0) = false := by decide
theorem test_wf_datagrams : Instr.wf (.discover { src := 0, port := 65536, payload := [] }) = false ∧
    Instr.wf (.neighborSolicitation (2 ^ 128)) = false ∧ Instr.wf (.echoRequest (2 ^ 128) []) = false := by decide
theorem test_wf_mailbox : Instr.wf (.mbxDoorbell 12 (List.replicate 4097 0)) = false := by decide +kernel
theorem test_wf_map : Instr.wf (.directMapWrite (2 ^ 22) 0 true) = false := by decide
theorem test_wf_boot : Instr.wf (.boot { identity := true, stagedRsa := true, stagedSlh := true, activeStep := 6 } true) = false ∧
    Instr.wf (.startMemory []) = false ∧ Instr.wf (.fwStageData []) = false := by decide

/-! ### Witnesses: the machine as a whole -/

theorem test_witness_queue : { State.reset with pending := [.powerFail] }.pending = .powerFail :: [] ∧
    State.reset.pending = [] := by decide

theorem test_witness_step : State.reset.memOk ∧ State.reset.dictOk ∧ State.reset.wearOk ∧
    step { State.reset with pending := [.mrstNRelease] } = .next State.reset := by
  refine ⟨by decide, by decide, by decide, rfl⟩

/-! ### Witnesses: the engine array -/

/-- An output of one element in OL16. -/
def oneOut : Tensor := { td := { base := 0x1000, d0 := 1, d1 := 1, d2 := 1 }, fmt := .ol16 }

/-- A matrix product of one element by one element. -/
def oneOp : OpRec :=
  { seq := 0, tag := 1, kind := .matmul, desc := List.replicate 128 1, x := some oneOut, w := some oneOut, y := some oneOut
    tilesLeft := 1 }

/-- Engine 0 with a tile of that operation. -/
def tileUp (t : TileRun) (o : OpRec := oneOp) : State := setOp (setCur up 0 (some t)) 1 (some o)

/-- An empty buffer, a chunk of one row of it, and a tile. -/
def noBuf : Buf := { pass := 0, slice := 0, fmt := .ol16 }
def oneRow : Chunk := { buf := noBuf, m0 := 0, rows := 1 }
def oneTile : TileRun := { op := 1, tile := 0, rung := 0 }

/-- The columns of the pass of a chunk. -/
def passCols : List Nat := List.range (passBox (oneOp.box 0) (oneOp.formats 0) 0).2.2.2

/-- A read that ends well, with what is asked of its data. -/
def okWith {α : Type} (r : Except MemErr α × State) (p : α → Bool) : Bool := match r.1 with | .ok x => p x | .error _ => false

theorem test_witness_array_step : engineQuiet (tileUp { oneTile with cur := some oneRow }) 0 ∧ oneRow.next < oneRow.rows ∧
    okWith (feedX (tileUp { oneTile with cur := some oneRow }) oneOp { oneTile with cur := some oneRow } 0 0 0 0) (fun x =>
      !x.1.misaligned && rowChecks oneOp x.2 oneRow x.1 (passCols.map (columnOut (oneOp.formats 0) oneOp.fine noBuf x.1))
        (streamRow oneOp x.2 oneRow x.1 (passCols.map (columnOut (oneOp.formats 0) oneOp.fine noBuf x.1))).1.bank == none) = true := by
  refine ⟨⟨by decide +kernel, rfl, by decide +kernel⟩, by decide, by decide +kernel⟩

theorem test_witness_slice_load : engineQuiet (tileUp oneTile) 0 ∧ oneTile.loadPass < tilePassCount oneOp oneTile ∧
    oneOp.gemm.slices ≠ 0 ∧ oneTile.buffers < 2 ∧
    okWith (feedCols (tileUp oneTile) oneOp oneTile 0 (sliceLines oneOp oneTile).1 (sliceLines oneOp oneTile).2.1
      (sliceLines oneOp oneTile).2.2) (fun r => !r.1.any (·.misaligned)) = true := by
  refine ⟨⟨by decide +kernel, rfl, by decide +kernel⟩, by decide +kernel, by decide +kernel, by decide +kernel,
    by decide +kernel⟩

theorem test_witness_seal : engineQuiet (tileUp { oneTile with sealing := some oneRow }) 0 ∧ oneRow.cap = none ∧
    noBuf.parityOk = true ∧ rowCheck oneRow (oneOp.tol (oneOp.formats 0)) = true := by
  refine ⟨⟨by decide +kernel, rfl, by decide +kernel⟩, rfl, by decide +kernel, by decide +kernel⟩

/-- A tile whose chunks are all done. -/
def doneTile : TileRun := { oneTile with loadPass := 1, sealed := 1 }

theorem test_witness_round : engineQuiet (tileUp doneTile) 0 ∧ doneTile.chunksDone oneOp = true ∧ oneOp.gemm.slices ≠ 0 ∧
    outputResidues oneOp doneTile = true ∧ respinAsk oneOp doneTile (numericChecks oneOp doneTile) (stormTold (tileUp doneTile) 0) = .drain := by
  refine ⟨⟨by decide +kernel, rfl, by decide +kernel⟩, by decide +kernel, by decide +kernel, by decide +kernel,
    by decide +kernel⟩

/-- Engine 0 with a draining tile whose output is one code. -/
def drainUp : State := setEng (tileUp oneTile) 0 { drains := [{ oneTile with out := some [(0, 0x4000)] }] }

theorem test_witness_drain : engineOn drainUp 0 = true ∧
    (writeMany drainUp (opVia oneOp (some 0)) false (drainWrites oneOut [(0, 0x4000)])).1 = none := by
  refine ⟨by decide +kernel, by decide +kernel⟩

/-- Engine 0 with a tile that asks for a re-spin. -/
def askUp : State := tileUp { oneTile with phase := .respinWait }

theorem test_witness_respin : engineOn askUp 0 = true ∧ askUp.storm.active = false ∧
    replayUsed askUp 0 + (replaySize oneOp oneTile 0 - 0) ≤ replayArena askUp ∧ dget askUp Key.replayArenaMib ≠ 0 ∧
    engineOn (tileUp { oneTile with phase := .staging }) 0 = true ∧
    okWith (stageLines (tileUp { oneTile with phase := .staging }) oneOp { oneTile.restart with rung := 0 } 0
      (tileLines oneOp { oneTile.restart with rung := 0 })) (fun gs => gs.length == 2) = true ∧
    replayArena { askUp with mem := { askUp.mem with aWays := 0 } } <
      replayUsed askUp 0 + (replaySize oneOp oneTile 0 - 0) := by decide +kernel

theorem test_witness_storm : (let r : Report := { job := 1, slot := 2, noFit := true }
    { up with reports := [r] }.reports[0]? = some r ∧ up.dictOk) ∧
    stormWaits { up with storm := { active := true, hold := .host } } = true ∧ mayWrite up Key.stormRelease 1 := by
  refine ⟨by decide +kernel, by decide +kernel, by decide +kernel, by decide +kernel⟩

/-- Cluster 0 held for the cap. -/
def capUp : State := updCluster up 0 fun p => { p with capHold := true }

theorem test_witness_holds : engineOn (tileUp { oneTile with cur := some oneRow }) 0 = true ∧
    oneTile.chunksDone oneOp = false ∧ capUp.flt.hubFault = false ∧ capUp.rst.off = false ∧
    (emberArrival capUp (.cap 0 true)).isSome = true ∧ (emberArrival (updCluster { capUp with flt := up.flt } 0 fun p =>
      { p with capHold := false }) (.cap 0 false)).isSome = true ∧
    { up.flt with hubFault := true }.hubFault = true := by
  decide +kernel

/-- Engine 1 due for its proof test, and hearth 0. -/
def proofUp : State :=
  setEng { (dset up Key.proofGroups 1) with flt := { up.flt with groups := [(0, 1)] } } 1 { tiles := 2 ^ 40 }

theorem test_witness_proof : engineOn proofUp 1 = true ∧ proofDue proofUp 1 = true ∧ hearthProofDue proofUp 0 = true := by
  decide +kernel

theorem test_witness_engine_frame : exec (.arrayStep 0 none) up = .next up := by
  have h : engineAct up 0 (fun st => arrayStep st 0 none) = up := by decide +kernel
  exact congrArg Host.Outcome.next h

/-! ### Witnesses: strands -/

/-- A strand whose PC, 0, holds the instruction word given; YIELD_DONE follows it. -/
def strandAt (w : Nat) : Strand :=
  { ibuf := [(0, leBytes 8 w ++ leBytes 8 (encWord 0x30 0 0 0 1 0) ++ List.replicate 48 0)] }
/-- Sequencer 0 with a strand. -/
def seqUp (st : Strand) : State := setStrand up 0 (some st)
/-- Sequencer 0 with a strand at an instruction word. -/
def wordUp (w : Nat) : State := seqUp (strandAt w)

theorem atWord_of (w : Nat) (h : getStrand (wordUp w) 0 = some (strandAt w) ∧ seqRuns (wordUp w) 0 = true ∧
    (strandAt w).word = some w) : atWord (wordUp w) 0 (strandAt w) w := ⟨h.1, h.2.1, rfl, rfl, h.2.2, rfl⟩

theorem test_witness_arrive : getStrand (seqUp { pc := 4 }) 0 = some { pc := 4 } ∧
    getStrand (wordUp 0) 0 = some (strandAt 0) ∧ (strandAt 0).word = some 0 ∧ legalWord 0 = false ∧
    (strandAt (encWord 0x30 0 0 0 1 0)).word = some (encWord 0x30 0 0 0 1 0) ∧ legalWord (encWord 0x30 0 0 0 1 0) = true ∧
    getStrand (seqUp {}) 0 = some {} ∧ ({} : Strand).word = none := by decide +kernel

/-- The instruction words of the statements, with operands at the ends of their ranges. -/
def wordsAt : List Nat :=
  [encWord 0x01 31 0 0 0 0xFFFFFFFF, encWord 0x02 31 0 0 0 0xFFFFFFFF, encWord 0x03 1 2 3 13 0, encWord 0x04 1 2 0 13 0x80000000,
    encWord 0x08 0 1 2 6 0xFFFFFFFF, encWord 0x09 31 0 0 0 1, encWord 0x09 0 0 0 0 1, encWord 0x0A 1 0 0 0 1,
    encWord 0x0B 0 31 0 0 0, encWord 0x05 31 0 0 0 8, encWord 0x06 0 0 31 0 8, encWord 0x05 31 0 0 0 4, encWord 0x06 0 0 31 0 4,
    encWord 0x20 1 0 0 7 0, encWord 0x20 1 0 0 8 0, encWord 0x20 1 0 0 9 0, encWord 0x18 0 0 0 2047 0, encWord 0x1B 0 0 0 1024 0,
    encWord 0x19 0 0 0 0 0, encWord 0x1A 1 0 0 0 0, encWord 0x10 1 0 0 0 0x80, encWord 0x11 1 0 0 0 0, encWord 0x11 1 0 0 1 0,
    encWord 0x28 0 0 0 0 0xFFFF, encWord 0x30 0 0 0 0 0, encWord 0x30 0 0 0 1 0, encWord 0x30 0 31 0 2 0]

theorem test_words_at : wordsAt.all (fun w => getStrand (wordUp w) 0 == some (strandAt w) && seqRuns (wordUp w) 0 &&
    (strandAt w).word == some w && legalWord w) = true := by decide +kernel

theorem test_witness_at_word : ∀ w ∈ wordsAt, atWord (wordUp w) 0 (strandAt w) w := by
  intro w hw
  have h := List.all_eq_true.mp test_words_at w hw
  simp only [Bool.and_eq_true, beq_iff_eq] at h
  exact atWord_of w ⟨h.1.1.1, h.1.1.2, h.1.2⟩

/-- The job 0 of such a strand, with one slot, one knot and one save record. -/
def jobUp (w : Nat) (st : Strand) : State :=
  setJob (setStrand (wordUp w) 0 (some st)) 0 { desc := { slotTable := 0x1000, slotCount := 1, knotCount := 1, saveBase := 0x2000
                                                          saveCount := 1 } }

theorem test_witness_job (w : Nat) (st : Strand) : strandJob (jobUp w { st with job := 0 }) { st with job := 0 } =
    { slotTable := 0x1000, slotCount := 1, knotCount := 1, saveBase := 0x2000, saveCount := 1 } := by
  rfl

theorem test_witness_slots : okWith (devRead (jobUp 0 {}) (seqVia (jobUp 0 {}).mem 0) false 0x1000 64) (fun _ => true) = true ∧
    freeRecord (jobUp 0 {}) 0 1 = some 0 ∧ freeRecord { jobUp 0 {} with saved := [{ seq := 0, record := 0, strand := {} }] } 0 1 = none ∧
    (devWrite (jobUp 0 {}) (seqVia (jobUp 0 {}).mem 0) false 0x2000 (saveBytes (jobUp 0 {}) 0 {})).1 = none ∧
    knotLost (jobUp 0 {}) 0 0 = false ∧ reached (knotVal (jobUp 0 {}) 0 0) 0 = true ∧ reached (knotVal (jobUp 0 {}) 0 0) 1 = false ∧
    ({ hold := some 1 } : Strand).hold = some 1 ∧ ({ tags := [{ tag := 0, inFlight := false }] } : Strand).tag 0 ≠ none ∧
    ({} : Strand).flights = 0 := by decide +kernel

/-- Sequencer `q` with a strand at an instruction word, in job 0 with one knot; `edit` changes the strand. -/
def knotAt (q w : Nat) (edit : Strand → Strand := id) : State :=
  setJob (setStrand up q (some (edit (strandAt w)))) 0 { desc := { knotCount := 1 } }

theorem atWord_knotAt (q : SeqId) (w : Nat) (edit : Strand → Strand)
    (h : (getStrand (knotAt q.val w edit) q.val == some (edit (strandAt w)) && seqRuns (knotAt q.val w edit) q.val &&
      (edit (strandAt w)).wait == .none && !(edit (strandAt w)).stopped && (edit (strandAt w)).word == some w) = true) :
    atWord (knotAt q.val w edit) q (edit (strandAt w)) w := by
  simp only [Bool.and_eq_true, beq_iff_eq, Bool.not_eq_true'] at h
  exact ⟨h.1.1.1.1, h.1.1.1.2, h.1.1.2, h.1.2, h.2, rfl⟩

/-- TIE, KSET, WAIT and KRD at a knot of the job, and at one past its knots. -/
def knotWords : List Nat :=
  [0, 0xFFFFFFFF].flatMap fun imm => [encWord 0x18 0 0 0 2047 imm, encWord 0x18 0 0 0 0 imm, encWord 0x1B 0 0 0 1024 imm,
    encWord 0x1B 0 0 0 0 imm, encWord 0x19 0 0 0 0 imm, encWord 0x19 0 0 1 0 imm, encWord 0x1A 31 0 0 0 imm]

/-- The strands of the statement: one that runs on, one that is held, one that the storm has stopped. -/
def knotEdits : List (Strand → Strand) := [id, fun st => { st with hold := some 2 }, fun st => { st with stormStop := true }]

theorem test_knot_words : ([0, 512] : List Nat).all (fun q => knotWords.all fun w => knotEdits.all fun ed =>
    getStrand (knotAt q w ed) q == some (ed (strandAt w)) && seqRuns (knotAt q w ed) q &&
      (ed (strandAt w)).wait == .none && !(ed (strandAt w)).stopped && (ed (strandAt w)).word == some w) = true := by
  decide +kernel

theorem test_witness_knot_words : ∀ q ∈ ([0, 512] : List SeqId), ∀ w ∈ knotWords, ∀ ed ∈ knotEdits,
    atWord (knotAt q.val w ed) q (ed (strandAt w)) w := by
  intro q hq w hw ed he
  refine atWord_knotAt q w ed ?_
  have h := test_knot_words
  simp only [List.all_eq_true] at h
  refine h q.val ?_ w hw ed he
  simp only [List.mem_cons, List.not_mem_nil, or_false] at hq
  obtain rfl | rfl := hq <;> decide

/-- The storm's hold, and the loss of the knot, in such a state. -/
def storming (s : State) : State := { s with storm := { active := true, hold := .host } }
def knotGone (s : State) : State := { s with knotsLost := [0] }

theorem test_witness_knots : (let st := strandAt (encWord 0x19 0 0 1 0 0)
    let s := knotAt 512 (encWord 0x19 0 0 1 0 0)
    (strandJob s st).knotCount = 1 ∧ (strandJob s st).knotBase = 0 ∧ (st.reg 0 + (0 : BitVec 32).signExtend 64).toNat = 0 ∧
    2 ^ 14 ≤ (st.reg 0 + (0xFFFFFFFF : BitVec 32).signExtend 64).toNat ∧ stormHolds s 512 = false ∧
    stormHolds (storming s) 512 = true ∧ knotLost s 2 0 = false ∧ seqDie 512 = 0 ∧ knotLost (knotGone s) 0 0 = true ∧
    reached (knotVal s 0 0) 0 = true ∧ reached (knotVal s 0 0) 1 = false ∧
    ({ st with regs := [(1, 1)] } : Strand).reg 1 = 1) := by decide +kernel

/-- Memory with a GEN_SET descriptor at 0x80. -/
def genSetUp : State := (devWrite (jobUp (encWord 0x10 1 0 0 0 0x80) (strandAt (encWord 0x10 1 0 0 0 0x80))) hubVia true 0x80
  [9, 0, 0, 0, 0, 0, 0, 0, 0, 0x10]).2

theorem test_witness_issue : (issueAt genSetUp (seqVia genSetUp.mem 0) {} (strandIssuer genSetUp 0 {}) 0x80).1 = .issued := by
  decide +kernel

theorem test_witness_scalar_frame : twf ({} : Seqr) (wordUp (encWord 0x01 1 0 0 0 5)).seqs = true ∧
    (match execSeti 0 1 5 (wordUp (encWord 0x01 1 0 0 0 5)) with
      | .next t => (getStrand t 0).any fun st => st.reg 1 == 5
      | .fault _ | .refused _ => false) = true := by
  decide +kernel

/-! ### Witnesses: knots, boundaries, replies, the selection of work -/

/-- A knot update on its way. -/
def tieMsg (isSet : Bool) : KnotMsg := { src := 1000, die := 1, knot := 4095, isSet := isSet, val := 2 ^ 32 - 1, ember := false }
def knotUp (isSet : Bool) : State := { up with knotq := [tieMsg isSet] }

theorem test_witness_knot : ∀ b, knotReady (knotUp b) 0 = some (tieMsg b) ∧ (knotUp b).flt.armed = [] ∧
    bitOf (knotUp b).rst.dieFence (tieMsg b).die = false ∧ knotCut (knotUp b) (tieMsg b) = false ∧
    (knotUp b).knotsLost.contains ((tieMsg b).die * 4096 + (tieMsg b).knot) = false := by decide +kernel

/-- A boundary of job 5 with slot 0 active, whose tables are handed over. -/
def boundaryUp (swapped : List Nat) : State :=
  setJob { up with swapJob := some 5, swapped := swapped } 5
    { desc := { slotTable := 0x4000, slotCount := 1, knotCount := 1 }, active := [0] }

theorem test_witness_boundary : (boundaryUp []).swapJob = some 5 ∧ (boundaryUp [0, 1, 2]).swapped.contains 3 = false ∧
    (∀ d, d < 4 → (boundaryUp [0, 1, 2, 3]).swapped.contains d = true) ∧ (boundaryUp []).rst.tallyLost = 0 ∧
    (match processSlots (boundaryUp [0, 1, 2, 3]) (getJob (boundaryUp [0, 1, 2, 3]) 5) 5 []
        ((boundaryUp [0, 1, 2, 3]).storm.active && (boundaryUp [0, 1, 2, 3]).storm.job == 5)
        (getJob (boundaryUp [0, 1, 2, 3]) 5).active with
      | (some done, s1) => done.length == 1 && !(writesBlocked s1 hubVia (done.map fun x => (x.addr, x.bytes))).1
      | (none, _) => false) = true := by decide +kernel

/-- A reply to sequencer 0. -/
def replyMsg (epoch : Nat) (e : Option MemErr) : ReplyMsg :=
  { who := .seq (0 : SeqId), epoch := epoch, ans := { err := e, bytes := List.replicate 8 1 } }
def replyUp (w : SeqWait) (epoch : Nat) (e : Option MemErr) : State :=
  let s := seqUp { wait := w }
  { s with mem := { s.mem with replies := [replyMsg epoch e] } }

theorem test_witness_reply : (replyUp (.load 31) 0 none).mem.replies[0]? = some (replyMsg 0 none) ∧
    getStrand (replyUp (.load 31) 0 none) 0 = some { wait := .load 31 } ∧
    getStrand (replyUp .store 0 none) 0 = some { wait := .store } ∧
    getStrand (replyUp .store 0 (some .ash)) 0 = some { wait := .store } ∧
    (getSeq (replyUp (.load 31) 0 none) 0).fenced = false ∧ (replyMsg 0 none).epoch = seqEpoch (replyUp .store 0 none) 0 ∧
    (replyMsg 1 none).epoch ≠ seqEpoch (replyUp .store 1 none) 0 := by decide +kernel

/-- A finished operation of sequencer 0. -/
def endedUp (done : Bool) : State :=
  setOp (seqUp { tags := [{ tag := 1 }] }) 1
    (some { oneOp with finished := true, desc := if done then List.replicate 128 255 else List.replicate 128 0 })

theorem test_witness_complete : ∀ b, (match getOp (endedUp b) 1 with
    | some o => o.finished && o.code == 0 && ownerRuns (endedUp b) o == some { tags := [{ tag := 1 }] } && dDoneValid o.desc == b
    | none => false) = true ∧ (endedUp b).ck.rs = none := by decide +kernel

/-- A ready work item, and a saved strand that is ready. -/
def item : WorkItem :=
  { queue := 0, entry := 0, weight := 1, skind := 0, place := 0, any := true, energySlot := 0, program := 0x1000, args := []
    job := 0, evtSrc := 0x1000 }
def readyUp : State := { up with q := { up.q with ready := [item] } }
def savedUp : State := { up with saved := [{ seq := 0, record := 0, strand := {} }] }

theorem test_witness_select : getStrand readyUp 0 = none ∧ (getSeq readyUp 0).fenced = false ∧
    bitOf readyUp.rst.dieFence (seqDie 0) = false ∧ readyUp.flt.hubFault = false ∧ readyUp.q.qeReady = true ∧
    selectFor readyUp 0 = some (.item item) ∧
    selectFor savedUp 0 = some (.saved { seq := 0, record := 0, strand := {} }) ∧ getStrand savedUp 0 = none := by decide +kernel

/-! ### Witnesses: work queues and the host interface -/

/-- A context of an enabled queue with a ring of two entries in host memory, and queue 7 with it. -/
def liveCtx : QCtx := { state := 1, epoch := 1, ringLog2 := 1 }
def queueUp (c : QCtx) (l : List QEnt := []) : State :=
  { up with q := { up.q with cache := [(7, c)], ents := [(7, l)], live := [7] } }

theorem test_witness_doorbell : hostUp (queueUp liveCtx) = true ∧ (queueUp liveCtx).q.late = [] ∧
    bar2WriteOpen (queueUp liveCtx) = false ∧ ctxBlocked (queueUp liveCtx) (.doorbell 7) = false ∧ ctxBlocked up (.doorbell 7) = false ∧
    (match loadCtx (queueUp liveCtx) 7 with | (.ok c, s1) => ctxState s1 c == 1 && c == liveCtx | _ => false) = true ∧
    (match loadCtx up 7 with | (.ok c, s1) => ctxState s1 c == 0 | _ => false) = true ∧
    (match loadCtx (queueUp { liveCtx with pi := 1 }) 7 with | (.ok c, s1) => ctxState s1 c == 1 && c.pi == 1 | _ => false)
      = true := by decide +kernel

/-- Queue 7, disabled, with a valid context in memory. -/
def disabledUp : State := (devWrite up hubVia true (qctxAddr up 7 + 24) [1]).2

theorem test_witness_commands : bar0Ready disabledUp (.command false 1 0 7) ∧ (∀ c ∈ [2, 3], bar0Ready (queueUp liveCtx) (.command false c 0 7)) ∧
    (match loadCtx disabledUp 7 with
      | (.ok old, s1) => ctxState s1 old == 0 && okWith (devRead s1 hubVia false (qctxAddr s1 7) 64) (fun b =>
          ctxValid disabledUp (QCtx.parse b))
      | _ => false) = true ∧
    cmdBusy up = false ∧ twf [] (queueUp liveCtx [{ idx := 0, bytes := [] }]).q.ents = true ∧
    bar0Ready (queueUp liveCtx [{ idx := 0, bytes := [] }]) (.command false 2 0 7) := by
  unfold bar0Ready; decide +kernel

/-- A held strand of queue 7's entry 3 on sequencer 0, and saved. -/
def heldStrand : Strand := { queue := 7, entry := 3, hold := some 0 }
def busyUp : State := { (queueUp liveCtx) with q := { (queueUp liveCtx).q with late := [.command false 1 0 0] } }

theorem test_witness_strands : (∀ c ∈ [1, 2], bar0Ready (seqUp heldStrand) (.command true c 3 7)) ∧ runnerOf (seqUp heldStrand) 7 3 = some 0 ∧
    getStrand (seqUp heldStrand) 0 = some heldStrand ∧
    (∀ c ∈ [1, 2], bar0Ready { up with saved := [{ seq := 0, record := 0, strand := { heldStrand with hold := none } }] }
      (.command true c 3 7)) ∧
    runnerOf { up with saved := [{ seq := 0, record := 0, strand := heldStrand }] } 7 3 = none ∧
    ({ up with saved := [{ seq := 0, record := 0, strand := heldStrand }] }.saved.find? fun (v : Saved) =>
      v.strand.queue == 7 && v.strand.entry == 3).isSome = true ∧
    hostUp busyUp = true ∧ cmdBusy busyUp = true ∧ State.reset.q.qeReady = false ∧
    (∀ c ∈ [1, 2], bar0Ready up (.command true c 3 7)) ∧ runnerOf up 7 3 = none ∧ up.saved.find? (fun v => v.strand.queue == 7 && v.strand.entry == 3) = none := by
  unfold bar0Ready; decide +kernel

/-- A started COPY entry of 64 bytes; `flags` says which ends are in host memory. -/
def copyEnt (flags : Nat) : QEnt :=
  { idx := 3, bytes := [2, BitVec.ofNat 8 flags] ++ List.replicate 6 0 ++ leBytes 8 0x1000 ++ leBytes 8 0x2000 ++ leBytes 8 64
      ++ List.replicate 32 0, phase := .started }
def copyUp (flags : Nat) : State := queueUp liveCtx [copyEnt flags]

theorem test_witness_fetch : (∀ b, canFetch (queueUp { liveCtx with pi := 2, ringDev := b }) 7 =
      some ({ liveCtx with pi := 2, ringDev := b }, 2, queueUp { liveCtx with pi := 2, ringDev := b })) ∧
    okWith (devRead (queueUp { liveCtx with pi := 2, ringDev := true }) hubVia false 0 128) (fun _ => true) = true := by
  decide +kernel

theorem test_witness_copy : (∀ f, f < 3 → copyEntry (copyUp f) 7 3 = some (copyEnt f) ∧
      (match loadCtx (copyUp f) 7 with | (.ok c, s0) => c == liveCtx && s0 == copyUp f | _ => false) = true ∧ leField (copyEnt f).bytes 24 8 = 64 ∧ (copyUp f).d3 = false ∧
      bitOf (leField (copyEnt f).bytes 1 1) 0 = (f == 1) ∧ bitOf (leField (copyEnt f).bytes 1 1) 1 = (f == 2)) ∧
    (copyIn true 1 (copyUp 1) 0x2000 (List.replicate 64 5) 0).1 = none ∧
    okWith (devRead (copyUp 2) hubVia true 0x1000 64) (fun _ => true) = true ∧
    (copyDev true 1 (copyUp 0) 0x1000 0x2000 0).1 = none := by decide +kernel

theorem test_witness_function : hostUp up = true ∧ 2 ^ 28 % 2 ^ 48 % 2 ^ up.q.bar2Log2 = 0 ∧ 1 % 2 ^ 48 % 2 ^ up.q.bar2Log2 ≠ 0 ∧
    (2 ^ 28 - 64) + 64 ≤ 2 ^ up.q.bar2Log2 ∧ up.q.memReady = true ∧
    bar2Behind up { who := .bar2, epoch := up.rst.epochs, bulk := true, addr := up.q.winBase + 64, len := 64 } = false ∧
    readBlocked up hubVia true (up.q.winBase + 64) 64 = false ∧
    okWith (devRead up hubVia true (up.q.winBase + 64) 64) (fun _ => true) = true ∧
    (devWrite up hubVia true (up.q.winBase + 64) (List.replicate 64 1)).1 = none ∧
    (devWrite { up with mem := { up.mem with poison := [((resolve up.mem none 64).map Loc.atom).getD 0] } } hubVia true
      (up.q.winBase + 64) [1]).1 = some .poisoned ∧
    3 ≤ dget up Key.pcieMaxRate ∧ up.rst.off = false ∧ up.pw.module ≠ .banked := by decide +kernel

theorem test_witness_vector : hostUp { up with ev := { up.ev with pba := [2047] } } = true ∧ up.d3 = false ∧
    { up.ev with pba := [2047] }.msixFuncMask = false ∧ { up.ev with pba := [2047] }.pba.contains 2047 = true ∧
    up.ev.pba.contains 2047 = false ∧ { up with d3 := true }.d3 = true := by decide +kernel

/-! ### Witnesses: memory, hearths, vector units -/

theorem test_witness_places : (List.range 20).Nodup ∧ (resolve up.mem none 0x1000).isSome = true ∧
    (match resolve up.mem none 0xFC0 with | some l => !isPoisoned up.mem l.atom | none => false) = true ∧
    twf none up.mem.cache = true ∧ (devWrite up hubVia false 0xFC0 (List.replicate 64 7)).1 = none := by decide +kernel

theorem test_witness_memOk : up.memOk := by decide +kernel

/-- A read and a write request in flight. -/
def readReq : MemReq := { who := .host, addr := 0x1000, len := 64 }
def writeReq : MemReq := { who := .host, addr := 0x1000, len := 8, wdata := some (List.replicate 8 9) }
def reqUp : State := { up with mem := { up.mem with reqs := [readReq, writeReq] } }
def reqUp1 : State := { up with mem := { up.mem with reqs := [writeReq] } }

theorem test_witness_request : reqUp.mem.reqs[0]? = some readReq ∧ behind reqUp (reqUp.mem.reqs.take 0) readReq = false ∧
    waveBehind reqUp readReq.post (emberSource 2 ((ownerOf reqUp (readReq.via up.mem) readReq.addr).getD 0)) = false ∧ reqUp.flt.armed = [] ∧ requestAshed (requestTaken reqUp 0 readReq) (readReq.via up.mem) readReq = false ∧
    readBlocked (requestTaken reqUp 0 readReq) (readReq.via up.mem) readReq.bulk 0x1000 64 = false ∧
    okWith (devRead (requestTaken reqUp 0 readReq) (readReq.via up.mem) false 0x1000 64) (fun _ => true) = true ∧
    reqUp1.mem.reqs[0]? = some writeReq ∧ behind reqUp1 (reqUp1.mem.reqs.take 0) writeReq = false ∧
    (devWrite (requestTaken reqUp1 0 writeReq) (writeReq.via up.mem) false 0x1000 (List.replicate 8 9)).1 = none ∧
    requestAshed (requestTaken reqUp1 0 writeReq) (writeReq.via up.mem) writeReq = false := by decide +kernel

theorem test_witness_atomic : (∀ d ∈ [none, some (3 : DieId)], behind up up.mem.reqs (atomicReq up d 0x1000 8 (.add 1)) = false ∧
      atomicTarget (wakeStack up (atomicReq up d 0x1000 8 (.add 1))) ((atomicReq up d 0x1000 8 (.add 1)).via up.mem) 0x1000 = .performed) ∧
    okWith (devRead up {} false 0x1000 8) (fun b => leNat b == 0) = true ∧
    (devWrite (devRead up {} false 0x1000 8).2 {} false 0x1000 (leBytes 8 (2 ^ 64 - 1))).1 = none := by decide +kernel

/-- A FILL of one element with a part on hearth 0, or on core 0. -/
def fillOp (unit : Nat) : OpRec :=
  { seq := 0, tag := 1, kind := .fill, desc := [8, 0, 0, 0, 0, BitVec.ofNat 8 (4 * unit)] ++ List.replicate 122 0, y := some oneOut
    parts := [{ unit := 0, lo := 0, hi := 1 }] }
def fillUp (unit : Nat) : State := setOp up 1 (some (fillOp unit))

theorem test_witness_group : getOp (fillUp 1) 1 = some (fillOp 1) ∧ dUnit (fillOp 1).desc = 1 ∧
    hearthRuns (fillUp 1) 0 = true ∧ hearthProofDue (fillUp 1) 0 = false ∧ (fillUp 1).flt.armed = [] ∧
    (match computeGroup (fillUp 1) (opVia (fillOp 1) (some 0)) 1 0 (fillOp 1) { unit := 0, lo := 0, hi := 1 } with
      | (.ok out, s2) => out.writes.length == 1 && !(writesBlocked s2 (opVia (fillOp 1) (some 0)) out.writes).1
          && (writeMany s2 (opVia (fillOp 1) (some 0)) false out.writes).1.isNone
      | (.error _, _) => false) = true := by decide +kernel

theorem test_witness_part : getOp (fillUp 0) 1 = some (fillOp 0) ∧ dUnit (fillOp 0).desc = 0 ∧
    (fillUp 0).flt.hubFault = false ∧ clusterAwake (fillUp 0) 0 = true ∧ bitOf (fillUp 0).rst.dieFence 0 = false ∧
    (match computePart (fillUp 0) (opVia (fillOp 0) (some 0)) (fillOp 0) [0] with
      | (.ok out, s1) => out.writes.length == 1 && !(writesBlocked s1 (opVia (fillOp 0) (some 0)) out.writes).1
          && (writeMany s1 (opVia (fillOp 0) (some 0)) false out.writes).1.isNone
      | (.error _, _) => false) = true := by decide +kernel

/-- A remote accumulate request of a hearth, or of the hub for a posted collective. -/
def raReq (sender : Nat) : RaReq := { op := 1, sender := sender, addr := 0x2000, codes := [0x4000] }
def aColl : Coll :=
  { post := 1, op := 1, job := 0, jobId := 0, group := 0, coll := 3, gather := false, chan := 0, members := 2, myRank := 0
    peers := [0xFFFF, 4], ports := [0, 1], x := oneOut, accBase := 0x2000, shard := 4 }
def raUp (sender : Nat) : State := { up with raq := [raReq sender], cord := { up.cord with posted := [aColl] } }

theorem test_witness_remote : ∀ n ∈ [0, 1000], raReady (raUp n) 0 = some (raReq n) ∧ (raUp n).flt.armed = [] ∧
    (match applyRa (raUp n) (raReq n).via 0 0x2000 (raReq n).vals with
      | (.ended 0, s1) => s1.cord.posted.find? (fun c => c.op == 1) == some aColl
      | _ => false) = true := by decide +kernel

/-- Page 3 being copied, and a freeze that streams it. -/
def freezing : Freeze := { gen := 1, step := 0, job := 0, stream := true, pages := [(3, 1)] }
def copyingUp : State :=
  { up with ck := { up.ck with pages := [(3, some { mask := 1, phase := .copying })], fz := some freezing } }

theorem test_witness_page : tget none copyingUp.ck.pages 3 = some { mask := 1, phase := .copying } ∧
    (maskGranules 1).all (fun j => match physRead copyingUp (granulePhys 3 j) 4096 with | .ok _ => true | _ => false) = true ∧
    nextSlot copyingUp freezing 0 = some 1 ∧ (match readSlot copyingUp freezing 1 with | .ok _ => true | _ => false) = true := by
  decide +kernel

theorem test_witness_upkeep : up.dictOk ∧ chanLive up.mem 0 31 = true ∧ chanFenced up.mem 0 31 = false ∧
    dget up Key.scrubHours ≠ 0 ∧ stackHeld up 0 = false ∧ bitOf up.mem.selfRefresh 0 = false ∧
    bitOf up.rst.dieFence 0 = false ∧ up.q.memReady = true := by
  refine ⟨by decide +kernel, ?_, ?_, ?_, ?_, ?_, ?_, ?_⟩ <;> decide +kernel

theorem test_witness_heat : stackLevel (dget up (Key.stackThermal + 19)) 0 = dget up (Key.stackThermal + 19) ∧
    stackLevel (dget up Key.stackThermal) (105 * 16) = 3 ∧ 3 ≠ dget up Key.stackThermal ∧
    stackLevel (dget up Key.stackThermal) (110 * 16) = 4 ∧ dget up Key.stackThermal ≠ 4 ∧
    dget (dset up Key.cordPortState 2) Key.cordPortState ≠ 0 ∧ dget (dset up Key.cordPortState 2) Key.cordPortState ≠ 3 := by
  decide +kernel

theorem test_levels : [81, 82, 85, 92, 95, 100, 105, 110].map (fun t => stackLevel 2 (16 * t)) = [0, 1, 1, 2, 2, 2, 3, 4] := by decide

/-! ### Witnesses: power, heat, the draught scheduler -/

theorem test_witness_feeds : up.dictOk ∧ feedNext 0 5701 = 3 ∧ feedNext 3 5651 = 3 ∧ feedNext 2 5651 = 0 ∧ feedNext 1 4050 = 0 ∧
    feedNext 2 3800 = 2 ∧ feedNext 0 3800 = 1 ∧ feedNext 0 3799 = 2 ∧ feedUsable up 0 = true ∧
    (feedUsable (dset up Key.feedCond 3) 0) = false := by
  refine ⟨by decide +kernel, ?_, ?_, ?_, ?_, ?_, ?_, ?_, ?_, ?_⟩ <;> decide +kernel

theorem test_witness_windows : up.rst.off = false ∧ { up with rst := { up.rst with off := true } }.rst.off = true ∧
    up.q.qeReady = true ∧ up.flt.hubFault = false ∧ up.pw.vc ≤ dget up Key.draughtMax ∧ draughtFloor up ≤ up.pw.vc ∧
    capHeldClusters up = [] ∧ capHeldClusters capUp ≠ [] ∧ (∀ c, c < 32 → clusterLevel up c = 0) ∧
    (∃ c, c < 32 ∧ 1 ≤ clusterLevel (dset up (Key.clusterThermal + 31) 1) c) ∧
    dget up Key.dampIdle ≠ 0 ∧ clusterCond up 31 = 0 ∧ clusterIdle up 31 = true ∧
    (getCluster (updCluster up 0 fun p => { p with damp := .idle }) 0).damp = .idle := by
  refine ⟨?_, ?_, ?_, ?_, ?_, ?_, ?_, ?_, ?_, ⟨31, ?_, ?_⟩, ?_, ?_, ?_, ?_⟩ <;> decide +kernel

theorem test_witness_states : mayWrite up Key.powerStateCmd 1 ∧ up.pw.module = .run ∧ mayRest up = true ∧
    mayWrite { up with pw := { up.pw with module := .smoulder } } Key.powerStateCmd 2 ∧
    mayWrite { up with pw := { up.pw with module := .banked } } Key.powerStateCmd 0 ∧
    twf ({} : ClusterPw) up.pw.clusters = true ∧ clusterNext (clusterLevel up 31) 1680 = 3 ∧
    (getCluster up 31).tripped = false := by
  unfold mayWrite; decide +kernel

theorem test_witness_monitors : mayWrite up Key.lowVoltagePermit 1 ∧ clusterCond up 0 < 2 ∧
    2 ≤ clusterCond (updCluster up 0 fun p => { p with off := true }) 0 := by
  unfold mayWrite; decide +kernel

/-! ### Witnesses: events and interrupt delivery -/

/-- A record of the hub on its way, and ring 1, whose records of two bytes' worth of source 0x0400 go to host memory or to device
memory. -/
def rec1 : EvRec := { source := 0x0400, kind := 2 }
def ringUp (cfg ring : Nat) : State :=
  let s := { up with ev := { up.ev with evq := [rec1] } }
  dset (dset (dset s (srcCfgKey 0x0400) cfg) (Key.ringEnable + 1) 1) (Key.ringCfg + 1) ring
/-- The source configuration that routes to ring 1. -/
def routed : Nat := 2 ^ 15 + 2 ^ 16

theorem test_witness_accept : (ringUp routed 0).dictOk ∧ hubRuns (ringUp routed 0) = true ∧
    nextOfOrigin (ringUp routed 0).ev.evq 0 = some rec1 ∧ dget (ringUp routed 0) (srcCfgKey 0x0400) = routed ∧
    bits routed 21 16 = 1 ∧ bitOf routed 15 = true ∧ bitOf 0 15 = false ∧ dget (ringUp routed 0) (Key.ringEnable + 1) ≠ 0 ∧
    ringCount (ringUp routed 4) 1 ≠ 2 ^ bits (dget (ringUp routed 4) (Key.ringCfg + 1)) 4 0 ∧
    ringCount (dset (ringUp routed 4) (Key.ringPi + 1) 16) 1 =
      2 ^ bits (dget (dset (ringUp routed 4) (Key.ringPi + 1) 16) (Key.ringCfg + 1)) 4 0 ∧
    bitOf (dget (ringUp routed (4 + 2 ^ 20)) (Key.ringCfg + 1)) 20 = true ∧ (ringUp routed 4).d3 = false ∧
    (devWrite (ringUp routed 4) hubVia false (dget (ringUp routed 4) (Key.ringBase + 1)) (recordBytes rec1 1 0 true false)).1
      = none := by
  refine ⟨by decide +kernel, ?_, ?_, ?_, ?_, ?_, ?_, ?_, ?_, ?_, ?_, ?_, ?_⟩ <;> decide +kernel

/-- Target 3 has taken a priority above another. -/
def stackUp : State := { up with ev := { up.ev with tstack := [(3, [15, 2])], ringMod := [63] } }

theorem test_witness_targets : stackUp.ev.ringMod.contains 63 = true ∧ mayWrite up (Key.ringCi + 63) 0 ∧
    (0 + 2 ^ 32 - dget up (Key.ringCi + 63)) % 2 ^ 32 ≤ ringCount up 63 ∧ dget up (Key.ringPi + 63) = 0 ∧
    mayWrite up (tctlKey 2053) 271 ∧ mayWrite stackUp (tctlKey 3) (2 ^ 31 + 271) ∧ twf [] stackUp.ev.tstack = true ∧
    tStack stackUp 3 = 15 :: [2] ∧ mayWrite up Key.evtHold 1 ∧ mayWrite up Key.evtHold 0 ∧
    mayWrite up (Key.groupDef + 63) (2 ^ 18 + 1990) ∧ 2 ^ 18 + 1990 < 2 ^ 19 ∧ 1 ≤ bits (2 ^ 18 + 1990) 18 12 ∧
    bits (2 ^ 18 + 1990) 18 12 ≤ 64 ∧ bits (2 ^ 18 + 1990) 11 0 + bits (2 ^ 18 + 1990) 18 12 ≤ 2054 := by
  unfold mayWrite; decide +kernel

/-- An occurrence on its way to die controller 3, whose pending bit is set or not. -/
def occ : LocalOcc := { ctl := 35, bit := 63, ev := { origin := 36, source := 0x0109, kind := 2 } }
def occUp : State := { up with ev := { up.ev with occq := [occ, occ] } }
def occSet : State := setLatch (dset occUp (pendKey 35) (2 ^ 63)) 35 63 occ.ev

theorem test_witness_local : occUp.ev.occq[1]? = some occ ∧ bitOf (dget occUp (pendKey 35)) 63 = false ∧
    bitOf (dget occSet (pendKey 35)) 63 = true ∧ ecLatch occSet 35 63 = some occ.ev ∧ mayWrite up (maskKey 35) (2 ^ 64 - 1) ∧
    mayWrite up (pendKey 35) (2 ^ 64 - 1) ∧ mayWrite up (Key.ecLock + 3) 255 ∧ dget up (Key.ecLock + 3) = 0 ∧
    dget (dset up (Key.ecLock + 3) 1) (Key.ecLock + 3) ≠ 0 ∧ mayWrite (dset up (Key.ecLock + 3) 1) (Key.ecLock + 3) 255 := by
  unfold mayWrite; decide +kernel

/-! ### Witnesses: the Cord -/

/-- Peer 1 on port 0, with the port and its path up, and job 0 with a group of identity 0 and rank 0. -/
def cordUp : State :=
  let s := dset up Key.cordPortState 2
  { s with
    jobs := [(0, { desc := { groupCount := 1, knotCount := 1 } })]
    cord := { s.cord with started := true, peers := [{}, { portMask := 1, valid := true, moduleId := 9 }], up := [8], peerSess := [(1, 7)] } }

/-- A frame to port 0, of the session, with its `LEN` and CRC. -/
def frame (type seq : Nat) (code : Nat := 0) (payload : List Byte := []) : CordFrame :=
  sealFrame { dst := portMac 0, job := 0, srcRank := 1, dstRank := 0, group := 0, session := 7, seq := seq, coll := 3, code := code
              payload := payload } type

/-- The state in which such a frame is handled. -/
def inFrame (s : State) (f : CordFrame) : State := countCut ((rxSession s 1 0 f false).getD s) (chanKey 1 0 (f.chan % 16))

/-- Such a frame is accepted by an open port: its payload is whole 64-byte atoms, and its code is listed. -/
theorem accepted_frame (s : State) (type seq code : Nat) (payload : List Byte)
    (h : (portOpen s 0 && dget s Key.cordEthertype == 0x88B5 && payload.length % 64 == 0 && decide (payload.length ≤ 4096) &&
      codeListed formatCode type code) = true) :
    accepted s 0 type (frame type seq code payload) (frame type seq code payload) := by
  simp only [Bool.and_eq_true, beq_iff_eq, decide_eq_true_eq] at h
  obtain ⟨⟨⟨⟨hp, he⟩, hm⟩, hl⟩, hc⟩ := h
  have hn : 64 * (payload.length / 64) = payload.length := by omega
  have ht : (frame type seq code payload).payload.take (64 * (frame type seq code payload).len) = payload := by
    show payload.take (64 * (payload.length / 64)) = payload
    rw [hn]; exact List.take_length
  refine ⟨hp, ?_, ?_⟩
  · have hs : (frame type seq code payload).crc = frameSum (frame type seq code payload) type := rfl
    have hx : frameLength (frame type seq code payload) = 54 + payload.length := by
      show 14 + 0 + 32 + payload.length + 8 = _; omega
    have hb : ¬ (64 * (frame type seq code payload).len > (frame type seq code payload).payload.length) := by
      show ¬ (64 * (payload.length / 64) > payload.length); omega
    have hd : (frame type seq code payload).dst = portMac 0 := rfl
    have hy : (frame type seq code payload).etherType = 0x88B5 := rfl
    have hg : (frame type seq code payload).tag = none := rfl
    have hf : (frame type seq code payload).fcsOk = true := rfl
    have hv : (frame type seq code payload).ver = 1 := rfl
    have hr : (frame type seq code payload).rsvd = 0 := rfl
    have hk : (frame type seq code payload).code = code := rfl
    unfold portVerdict frameVerdict
    rw [hx, hd, hy, hg, hf, hv, hr, hk, he, hc, ← hs]
    have h2 : ¬ (54 + payload.length > 4158) := by omega
    simp [hb, h2]
  · rw [ht]; rfl

theorem frameIn_of (s : State) (type seq code : Nat) (payload : List Byte)
    (h : (portOpen s 0 && dget s Key.cordEthertype == 0x88B5 && payload.length % 64 == 0 && decide (payload.length ≤ 4096) &&
      codeListed formatCode type code) = true)
    (hp : pathExists s 1 0 = true ∧ pathUp s 1 0 = true ∧ (rxSession s 1 0 (frame type seq code payload) false).isSome = true) :
    frameIn s (inFrame s (frame type seq code payload)) 1 0 type (frame type seq code payload) (frame type seq code payload) := by
  obtain ⟨s1, e⟩ := Option.isSome_iff_exists.mp hp.2.2
  exact ⟨accepted_frame s type seq code payload h, hp.1, hp.2.1, s1, e, by rw [inFrame, e]; rfl⟩

theorem expectedIn_of (s : State) (type seq code : Nat) (payload : List Byte)
    (h : (portOpen s 0 && dget s Key.cordEthertype == 0x88B5 && payload.length % 64 == 0 && decide (payload.length ≤ 4096) &&
      codeListed formatCode type code) = true)
    (hp : pathExists s 1 0 = true ∧ pathUp s 1 0 = true ∧ (rxSession s 1 0 (frame type seq code payload) false).isSome = true)
    (e : seq = (getChan (inFrame s (frame type seq code payload)) (chanKey 1 0 0)).expected)
    (d : (inFrame s (frame type seq code payload)).dictOk) :
    expectedIn s (inFrame s (frame type seq code payload)) 1 0 type (frame type seq code payload) (frame type seq code payload) :=
  ⟨frameIn_of s type seq code payload h hp, e, d⟩

/-- The module with a posted collective. -/
def collUp (gather : Bool) : State :=
  { cordUp with cord := { cordUp.cord with posted := [{ aColl with gather := gather, shard := 64 }] } }

/-- Thirty-two elements of OL16, and an atom of a shard. -/
def raPayload : List Byte := (List.replicate 32 [0, 64]).flatten
def atom1 : List Byte := List.replicate 64 1

theorem test_witness_frames : ∀ q ∈ [0, 1, 2], frameIn cordUp (inFrame cordUp (frame 1 q 11 raPayload)) 1 0 1 (frame 1 q 11 raPayload)
    (frame 1 q 11 raPayload) := by
  intro q hq
  refine frameIn_of _ _ _ _ _ (by decide +kernel) ?_
  simp only [List.mem_cons, List.not_mem_nil, or_false] at hq
  obtain rfl | rfl | rfl := hq <;> decide +kernel

theorem test_witness_ra : frameIn (collUp false) (inFrame (collUp false) (frame 1 1 11 raPayload)) 1 0 1 (frame 1 1 11 raPayload)
      (frame 1 1 11 raPayload) ∧
    groupKnown (collUp false) (frame 1 1 11 raPayload) = true ∧
    (getChan (inFrame (collUp false) (frame 1 1 11 raPayload)) 128).expected = 1 ∧
    (collOf (inFrame (collUp false) (frame 1 1 11 raPayload)) (frame 1 1)).isSome = true ∧
    Fmt.ofCode 11 = some .ol16 ∧ Fmt.ol16.accumulates = true ∧ Fmt.ol16.bytes = 2 ∧ 0 + 64 / 2 ≤ 64 ∧ 1 < aColl.members ∧
    ((applyChunks (inFrame (collUp false) (frame 1 1 11 raPayload)) {} .ol16 0 0x2000 0 0 none (frameChunks 2 65 raPayload)).1.map
      Prod.fst) = some 0 := by
  refine ⟨frameIn_of _ _ _ _ _ (by decide +kernel) (by decide +kernel), ?_⟩; decide +kernel

theorem test_witness_gather : frameIn (collUp true) (inFrame (collUp true) (frame 2 1 0 atom1)) 1 0 2 (frame 2 1 0 atom1)
      (frame 2 1 0 atom1) ∧
    groupKnown (collUp true) (frame 2 1 0 atom1) = true ∧ 64 * 0 + 64 ≤ 64 ∧
    (collOf (inFrame (collUp true) (frame 2 1 0 atom1)) (frame 2 1)).map (·.gather) = some true ∧
    (devWrite (inFrame (collUp true) (frame 2 1 0 atom1)) { home := none } false 64 atom1).1 = none := by
  refine ⟨frameIn_of _ _ _ _ _ (by decide +kernel) (by decide +kernel), ?_⟩; decide +kernel

theorem test_witness_orders : groupKnown cordUp { frame 1 1 with group := 1 } = false ∧ groupKnown cordUp (frame 1 1) = true ∧
    collOf (inFrame cordUp (frame 1 1)) (frame 1 1) = none ∧ pathUp { cordUp with cord := { cordUp.cord with up := [] } } 1 0 = false ∧
    portOpen { cordUp with cord := { cordUp.cord with up := [] } } 0 = true ∧
    (getChan (inFrame cordUp (frame 1 0)) 128).expected = 1 ∧ 2 ^ 31 ≤ (0 + 2 ^ 32 - 1) % 2 ^ 32 ∧
    (2 + 2 ^ 32 - 1) % 2 ^ 32 < 2 ^ 31 ∧ twf {} cordUp.cord.chans = true := by decide +kernel

/-- Channel 0 of the path with a frame not acknowledged, an acknowledgement owed, and so many go-backs. -/
def sentUp (n : Nat) (wait : Option Nat) : State :=
  setChan cordUp 128 { nextSeq := 2, unacked := [{ type := 6, seq := 1 }], goBacks := n, rnr := wait, owed := 1 }

theorem test_witness_acks : (∀ t ∈ [3, 4], frameIn (sentUp 0 none) (inFrame (sentUp 0 none) (frame t 0)) 1 0 t (frame t 0) (frame t 0) ∧
      frameIn (sentUp 255 none) (inFrame (sentUp 255 none) (frame t 0)) 1 0 t (frame t 0) (frame t 0)) ∧
    (getChan (inFrame (sentUp 0 none) (frame 4 0)) 128).unacked ≠ [] ∧ 0 < dget (inFrame (sentUp 0 none) (frame 4 0)) Key.cordRetryMax ∧
    dget (inFrame (sentUp 255 none) (frame 4 0)) Key.cordRetryMax ≤ 255 ∧ pathUp (sentUp 0 none) 1 0 = true ∧
    (getChan (sentUp 0 none) 128).unacked = { type := 6, seq := 1 } :: [] ∧ (getChan (sentUp 0 none) 128).rnr = none ∧
    (∀ n ∈ [0, 255], (getChan (setChan (sentUp n none) 128 { getChan (sentUp n none) 128 with gapSent := false }) 128).goBacks = n) ∧
    (getChan (sentUp 0 (some 1)) 128).rnr = some 1 ∧ (getChan (sentUp 0 none) 128).owed ≠ 0 := by
  refine ⟨fun t ht => ?_, ?_⟩
  · simp only [List.mem_cons, List.not_mem_nil, or_false] at ht
    obtain rfl | rfl := ht <;>
      exact ⟨frameIn_of _ _ _ _ _ (by decide +kernel) (by decide +kernel), frameIn_of _ _ _ _ _ (by decide +kernel) (by decide +kernel)⟩
  · decide +kernel

/-- The module with the path of peer 1 up or down. -/
def portUp (up : Bool) (holder : Nat) : State :=
  dset { cordUp with cord := { cordUp.cord with up := if up then [8] else [] } } Key.partnerHolder holder

/-- A HEARTBEAT of peer 1, and a GOING_DOWN. -/
def beat : CordFrame := frame 6 0 0 (9 :: List.replicate 63 0)
def bye : CordFrame := frame 7 0 2

theorem test_witness_beats : ∀ b ∈ [true, false], ∀ p ∈ [1, 0xFFFF], accepted (portUp b p) 0 6 beat beat ∧
    accepted (portUp b p) 0 7 bye bye ∧ pathExists (portUp b p) 1 0 = true ∧
    dget (portUp b p) Key.cordPortState = 2 ∧ leField beat.payload 0 4 = (getPeer (portUp b p) 1).moduleId ∧
    (match rxSession (portUp b p) 1 0 beat false with
      | some s1 => pathUp s1 1 0 == b && (b || livePorts s1 1 == []) && dget s1 Key.partnerHolder == p && dget s1 Key.pairState != 2
      | none => false) = true := by
  intro b hb p hp
  simp only [List.mem_cons, List.not_mem_nil, or_false] at hb hp
  obtain rfl | rfl := hb <;> obtain rfl | rfl := hp <;>
    refine ⟨accepted_frame _ _ _ _ _ (by decide +kernel), accepted_frame _ _ _ _ _ (by decide +kernel), ?_⟩ <;> decide +kernel

/-- A frame as it arrives, with a wrong CRC, and a tag that is not the port's. -/
theorem test_witness_drops : portOpen cordUp 0 = true ∧ (parseFrame (frameBytes { frame 3 0 with dst := 0 } 3)).1 = 3 ∧
    (parseFrame (frameBytes { frame 3 0 with dst := 0 } 3)).2.crc = frameSum (parseFrame (frameBytes { frame 3 0 with dst := 0 } 3)).2 3 ∧
    (parseFrame (frameBytes { frame 3 0 with dst := 0, crc := 0 } 3)).2.crc ≠ frameSum (frame 3 0) 3 ∧
    (parseFrame (frameBytes { frame 3 0 with dst := 0, tag := some 5 } 3)).2.tag.any (fun t => t % 4096 != dget cordUp Key.cordVlan) = true
    := by decide +kernel

theorem test_witness_ports : cordUp.cord.started = true ∧ bitOf (dget cordUp Key.cordPortEnable) 7 = true ∧
    dget cordUp (Key.cordPortState + 7) ≠ 2 ∧ dget (portUp true 1) Key.cordPortState ≠ 0 ∧
    mayWrite up Key.cordPeerCount 4096 ∧
    okWith (devRead up hubVia false (dget up Key.cordPeerTable) 16) (fun _ => true) = true ∧ mayWrite up Key.cordPeerCount 1 := by
  unfold mayWrite; decide +kernel

/-- The module under its own heat hold, with a collective. -/
def heldUp (ab : Option Nat) (heat : Bool) : State :=
  { cordUp with cord := { cordUp.cord with posted := [{ aColl with aborted := ab }], heatSent := heat } }

theorem test_witness_holds_coll : (∀ p ∈ [(5, 0), (12, 1)], frameIn (collUp true) (inFrame (collUp true) (frame p.1 1 p.2)) 1 0 p.1
      (frame p.1 1 p.2) (frame p.1 1 p.2)) ∧
    (∀ c ∈ [0, 1], accepted cordUp 0 8 (frame 8 0 c) (frame 8 0 c)) ∧
    groupKnown (collUp true) (frame 5 1) = true ∧
    (collOf (inFrame (collUp true) (frame 5 1)) (frame 5 1)).isSome = true ∧ (rxSession cordUp 1 0 (frame 8 0 1) true).isSome = true ∧
    (heldUp none true).cord.heatSent = true ∧ getColl (heldUp none true) 1 = some aColl ∧ aColl.aborted = none ∧
    suspended (dset (heldUp none true) Key.heatHoldLimit 1) aColl = true ∧ suspended (heldUp none false) aColl = false ∧
    getColl (heldUp (some 1) true) 1 = some { aColl with aborted := some 1 } := by
  refine ⟨fun p hp => ?_, fun c hc => ?_, ?_⟩
  · simp only [List.mem_cons, List.not_mem_nil, or_false] at hp
    obtain rfl | rfl := hp <;> exact frameIn_of _ _ _ _ _ (by decide +kernel) (by decide +kernel)
  · simp only [List.mem_cons, List.not_mem_nil, or_false] at hc
    obtain rfl | rfl := hc <;> exact accepted_frame _ _ _ _ _ (by decide +kernel)
  · decide +kernel

/-! ### Witnesses: freezes, partners, holders and restores -/

/-- A CTRL frame of a message, with 64 bytes of payload. -/
def ctrl (code : Nat) (b : List Byte := []) : CordFrame := frame 11 1 code (padTo 64 b)

/-- Peer 1 as both partners, with feeds 1 and 2, in a pair state. -/
def pairUp (state : Nat) : State :=
  [(Key.partnerOf, 1), (Key.partnerHolder, 1), (Key.pairState, state), (Key.feedAId, 1), (Key.feedBId, 2),
    (Key.pairSameFeedOk, 0)].foldl (fun s p => dset s p.1 p.2) cordUp

/-- What a PAIR_REQ, a PAIR_ACK and a PAIR_REFUSE carry, feeds shared and not. -/
def pairMsgs : List (Nat × List Byte) := [(1, [9, 0, 0, 0, 3, 4]), (1, [9, 0, 0, 0, 2, 4]), (2, [3, 4, 8, 0, 0, 0]), (3, [0]), (5, [8, 0, 0, 0])]

/-- What makes a CTRL frame of peer 1 the expected one: everything a statement asks of it that a machine can compute. -/
def ctrlFits (s : State) (code : Nat) (b : List Byte) : Bool :=
  portOpen s 0 && dget s Key.cordEthertype == 0x88B5 && codeListed formatCode 11 code && pathExists s 1 0 && pathUp s 1 0
    && (rxSession s 1 0 (ctrl code b) false).isSome && (getChan (inFrame s (ctrl code b)) (chanKey 1 0 0)).expected == 1
    && decide (inFrame s (ctrl code b)).dictOk

theorem length_padTo (b : List Byte) : (padTo 64 b).length = 64 := by simp [padTo]; omega

theorem ctrlIn_of (s : State) (code : Nat) (b : List Byte) (h : ctrlFits s code b = true) :
    ctrlIn s (inFrame s (ctrl code b)) 1 0 code (ctrl code b) (ctrl code b) := by
  simp only [ctrlFits, Bool.and_eq_true, beq_iff_eq, decide_eq_true_eq] at h
  obtain ⟨⟨⟨⟨⟨⟨⟨hp, he⟩, hc⟩, hx⟩, hu⟩, hr⟩, hs⟩, hd⟩ := h
  exact expectedIn_of s 11 1 code (padTo 64 b) (by simp [hp, he, hc, length_padTo]) ⟨hx, hu, hr⟩ hs.symm hd

theorem test_witness_pairs : ∀ n ∈ [1, 2], ∀ m ∈ pairMsgs, ctrlFits (pairUp n) m.1 m.2 = true := by decide +kernel

theorem test_witness_pairing : dget (inFrame (pairUp 1) (ctrl 1)) Key.partnerOf = 1 ∧ (inFrame (pairUp 1) (ctrl 1)).mem.slotPages ≠ 0 ∧
    restoring (inFrame (pairUp 1) (ctrl 1)) = false ∧
    (pairMsgs.take 2).map (fun m => sharesFeed (inFrame (pairUp 1) (ctrl m.1 m.2)) (leField (ctrl m.1 m.2).payload 4 1)
      (leField (ctrl m.1 m.2).payload 5 1)) = [false, true] ∧ dget (inFrame (pairUp 1) (ctrl 1)) Key.pairSameFeedOk ≠ 1 ∧
    dget (inFrame (pairUp 1) (ctrl 1)) Key.pairState = 1 ∧ pairedWith (inFrame (pairUp 2) (ctrl 5)) = some 1 ∧
    sharesFeed (inFrame (pairUp 1) (ctrl 2 [3, 4])) 3 4 = false := by decide +kernel

/-- A freeze of generation 0 whose partner is peer 1 and whose list has been sent, and a restore from peer 1. -/
def endingUp : State :=
  let s := dset (pairUp 2) Key.restoreState 1
  { s with ck := { s.ck with fz := some { freezing with gen := 0, partner := some 1, ended := true }
                             rs := some { source := 1, replica := 0xFFFF, origin := 0, gen := 0 } } }

theorem test_witness_ending : ([8, 9, 13] : List Nat).all (ctrlFits endingUp · []) = true ∧
    (inFrame endingUp (ctrl 8)).ck.fz = some { freezing with gen := 0, partner := some 1, ended := true } ∧
    (inFrame endingUp (ctrl 13)).ck.rs = some { source := 1, replica := 0xFFFF, origin := 0, gen := 0 } ∧
    dget (inFrame endingUp (ctrl 13)) Key.restoreState = 1 := by decide +kernel

/-- Holder slot 0 receiving from peer 1, or holding what it has received. -/
def holderUp (state : Nat) : State :=
  let s := dset (pairUp 2) Key.holderSlotState state
  { s with ck := { s.ck with slotA := { peer := 1 } } }

theorem test_witness_holders : ([0, 1, 2] : List Nat).all (fun n => ([4, 6, 7, 10, 11, 12] : List Nat).all fun c =>
    ctrlFits (holderUp n) c [9, 0, 0, 0]) = true := by decide +kernel

/-- A PAGE frame with a whole granule. -/
def granule : List Byte := List.replicate 4096 7

theorem test_witness_granule : expectedIn (holderUp 1) (inFrame (holderUp 1) (frame 10 1 0 granule)) 1 0 10 (frame 10 1 0 granule)
    (frame 10 1 0 granule) ∧ (frame 10 1 0 granule).payload.length = 4096 ∧
    receivingSlot (inFrame (holderUp 1) (frame 10 1 0 granule)) 1 0 = some 0 ∧
    (match frameLoc (inFrame (holderUp 1) (frame 10 1 0 granule)).mem 0 0 0 with
      | some l => (physWrite (inFrame (holderUp 1) (frame 10 1 0 granule)) l.phys granule).1.isNone
      | none => false) = true ∧ 0 < (inFrame (holderUp 1) (frame 10 1 0 granule)).mem.slotPages := by
  refine ⟨expectedIn_of _ _ _ _ _ (by decide +kernel) (by decide +kernel) (by decide +kernel) (by decide +kernel), ?_⟩
  decide +kernel

theorem test_witness_slots_held : slotFor (inFrame (holderUp 0) (ctrl 4)) = some 0 ∧
    receivingSlot (inFrame (holderUp 1) (ctrl 6)) 1 0 = some 0 ∧
    (frameLoc (inFrame (holderUp 1) (ctrl 6)).mem 0 8191 511).isSome = true ∧ (inFrame (holderUp 1) (ctrl 6)).mem.slotPages = 8192 ∧
    heldSlot (inFrame (holderUp 2) (ctrl 11)) 0 = some 0 ∧ holderState (inFrame (holderUp 2) (ctrl 11)) 0 = 2 ∧
    (getPeer (inFrame (holderUp 2) (ctrl 11)) (holder (inFrame (holderUp 2) (ctrl 11)) 0).peer).moduleId =
      leField (ctrl 11 [9, 0, 0, 0]).payload 0 4 ∧
    heldSlot (inFrame (holderUp 0) (ctrl 11)) 5 = none ∧ heldSlot (inFrame (holderUp 0) (ctrl 11)) 0 = none ∧
    restoring (inFrame (holderUp 0) (ctrl 11)) = false ∧
    restoring (inFrame (dset (holderUp 0) Key.restoreState 1) (ctrl 11)) = true ∧ ctrlFits (dset (holderUp 0) Key.restoreState 1) 11 [] = true
    := by decide +kernel

/-- A FREEZE_END of an empty list: its count and its digest. -/
def endBody : List Byte := leBytes 4 0 ++ leBytes 48 (listDigest (listBytes (holder (holderUp 1) 0).list 0))

theorem test_witness_list : ctrlFits (holderUp 1) 7 endBody = true ∧ leField (ctrl 7 endBody).payload 0 4 = 0 ∧
    listDigest (listBytes (holder (inFrame (holderUp 1) (ctrl 7 endBody)) 0).list 0) = leField (ctrl 7 endBody).payload 4 48 ∧
    listDigest (listBytes (holder (inFrame (holderUp 1) (ctrl 7)) 0).list 0) ≠ leField (ctrl 7).payload 4 48 := by decide +kernel

/-- The module with restore commands: its source and replica, whether an unverified restore is allowed, and its state. -/
def restoreUp (rep allow state : Nat) : State :=
  [(Key.restoreSource, 1), (Key.restoreReplica, rep), (Key.allowUnverified, allow), (Key.restoreState, state)].foldl
    (fun s p => dset s p.1 p.2) (pairUp 2)

theorem test_witness_written : mayWrite cordUp Key.freezeNow 1 ∧ mayWrite cordUp Key.partnerHolder 0xFFFF ∧
    mayWrite cordUp Key.partnerHolder 4095 ∧ dget cordUp Key.freezeState = 0 ∧ dget (dset cordUp Key.freezeState 1) Key.freezeState ≠ 0 ∧
    mayWrite (dset cordUp Key.freezeState 1) Key.partnerHolder 1 ∧ mayWrite cordUp Key.partnerOf 1 ∧
    mayWrite (restoreUp 0xFFFF 1 0) Key.restoreCmd 1 ∧ restoring (restoreUp 0xFFFF 1 0) = false ∧
    singleSource (restoreUp 0xFFFF 1 0) = false ∧ singleSource (restoreUp 0xFFFF 0 0) = true ∧
    mayWrite (restoreUp 0xFFFF 1 1) Key.restoreCmd 1 ∧ mayWrite (restoreUp 0xFFFF 1 1) Key.restoreCmd 2 ∧
    restoring (restoreUp 0xFFFF 1 1) = true ∧ livePorts (restoreUp 0xFFFE 0 0) 1 ≠ [] ∧
    singleSource (restoreUp 0xFFFE 0 0) = false := by
  unfold mayWrite; decide +kernel

/-! ### Witnesses: faults, injection and credits -/

/-- A message on its way to the collector, another held at its source, and credits on their way back. -/
def msg1 : FaultMsg := { mech := .fence, utype := 2, unit := 19 }
def msgUp : State :=
  { up with flt := { up.flt with faultq := [msg1], held := [{ msg1 with unit := 3 }], returning := [(5, 1), (2 * 4096 + 3, 2)] } }
/-- Hard-cap messages for two clusters: the hub holds all but three for want of credits. -/
def creditUp : State := { capUp with flt := { capUp.flt with returning := [(hubSource, 1)] } }

theorem test_witness_credits : (oldestHeld creditUp hubSource).isSome = true ∧ tget 0 creditUp.flt.inflight hubSource ≤ 3 ∧
    creditUp.flt.embers.any (fun m => m.held && m.src == hubSource && some m.no == oldestHeld creditUp hubSource) = true ∧
    creditUp.flt.held.find? (fun m => m.ember == hubSource) = none ∧ tget 0 creditUp.flt.returning hubSource ≠ 0 := by decide +kernel

/-- The word that injects a mechanism in unit 0 of a kind. -/
def injWord (m : Mech) (kind : Nat) : Nat := m.code * 2 ^ 24 + kind * 2 ^ 20

theorem test_witness_faults : faultReady msgUp 0 = some msg1 ∧ msgUp.dictOk ∧
    tget 0 msgUp.flt.returning (2 * 4096 + 3) ≠ 0 ∧ tget 0 msgUp.flt.returning 5 ≠ 0 ∧ twf 0 msgUp.flt.returning = true ∧
    twf 0 msgUp.flt.inflight = true ∧ msgUp.flt.held.find? (fun m => m.ember == 5) = none ∧ oldestHeld msgUp 5 = none ∧
    msgUp.flt.held.find? (fun m => m.ember == 2 * 4096 + 3) = some { msg1 with unit := 3 } ∧ up.d3 = false ∧
    tget 0 up.flt.inflight (6 * 4096 + 4095) < 4 := by
  refine ⟨by decide +kernel, by decide +kernel, ?_⟩; decide +kernel

theorem test_witness_injections : mayWrite up Key.faultInject (injWord .hbmUe 2) ∧
    Mech.ofCode (bits (injWord .hbmUe 2) 31 24) = some .hbmUe ∧ injWord .hbmUe 2 % 256 = 0 ∧ Mech.hbmUe.cls = 1 ∧
    Mech.hbmUe.kinds.contains (bits (injWord .hbmUe 2) 23 20) = true ∧
    bits (injWord .hbmUe 2) 19 8 < unitCount (bits (injWord .hbmUe 2) 23 20) ∧
    mayWrite up Key.faultInject (injWord .memCe 2) ∧ Mech.ofCode (bits (injWord .memCe 2) 31 24) = some .memCe ∧
    Mech.memCe.cls ≠ 1 := by
  unfold mayWrite; decide +kernel

theorem test_witness_unretire : mayWrite up Key.alertAck 1 ∧ up.flt.hubFault = false ∧
    mayWrite { up with flt := { up.flt with hubFault := true } } Key.alertAck 1 ∧ mayWrite up Key.engineUnretire 1023 ∧
    mayWrite up Key.engineUnretire 1024 := by
  unfold mayWrite; decide +kernel

/-! ### Witnesses: the dictionary, the mailbox and the field network -/

/-- A boot that was refused, where R466 serves few entries. -/
def refusedUp : State := dset State.reset Key.bootResult 3
/-- The type of an entry. -/
def tyOf (key : Nat) : ETy := ((findMeta key).map EMeta.ty).getD ETy.u8

theorem test_witness_refused : dictServed State.reset = false ∧ dictServed refusedUp = true ∧
    ownRows.all (fun r => r.2.1 == Key.fwStageCmd || writeStatus refusedUp .mirror r.2.1 (tyOf r.2.1).code (leBytes (tyOf r.2.1).bytes r.2.2) == 6) = true ∧
    dictServed up = true ∧ writeStatus up .field 0xFFFFFF 2 [0] = 9 ∧ writeStatus up .mirror 0xEFFF01 2 [0] ≠ 0 := by decide +kernel

/-- The module with its feeds' identities overridden. -/
def feedsUp : State := dset (dset up Key.feedAOvr 1) Key.feedBOvr 2

theorem test_witness_entry : dictServed feedsUp = true ∧ inHold feedsUp = false ∧ inHold (dset feedsUp Key.holdCause 1) = true ∧
    [(1000, true), (7000, false)].all (fun p =>
      writeStatus feedsUp .mirror Key.feedIlim ETy.u16.code (leBytes 2 p.1) == 0
        && (writeEffect feedsUp Key.feedIlim (leBytes 2 p.1) {}).2 == 0
        && breaksRule (writeEffect feedsUp Key.feedIlim (leBytes 2 p.1) {}).1 Key.feedIlim == p.2) = true ∧
    (findMeta Key.feedIlim).map (·.ty) = some .u16 ∧
    Key.feedIlim = (Key.feedIlim / 256 * 64 + 8) / 64 % 2 ^ 16 * 256 + (Key.feedIlim / 256 * 64 + 8) / 8 % 8 ∧
    (entryWrite feedsUp .mirror Key.feedIlim ETy.u16.code (leBytes 2 7000) {}).2 = 0 ∧
    [Key.stepMonWindow, Key.dampIdle, Key.heatHoldLimit, Key.cordRetryMax, Key.freezeEvery, Key.freezeJob, Key.snapHalt,
      Key.snapSources].all (fun k => writeStatus up .mirror k (tyOf k).code (leBytes (tyOf k).bytes (if k = Key.stepMonWindow then 20
        else 1)) == 0) = true := by decide +kernel

/-- A commit under way. -/
def commitUp (target : Nat) : State := { up with dsys := { up.dsys with commit := some { target := target, gen := 1, recs := [] } } }

theorem test_witness_commit : mayWrite up Key.dictCommit 1 ∧ up.dsys.commit = none ∧ inHold up = false ∧
    (commitUp 1).dsys.commit = some { target := 1, gen := 1, recs := [] } ∧ (commitUp 1).dictOk ∧
    mayWrite (commitUp 2) Key.dictLoadDefaults 1 ∧ mayWrite (commitUp 2) Key.dictLoadDefaults 2 ∧
    inHold (dset up Key.holdCause 1) = true ∧ mayWrite (dset up Key.holdCause 1) Key.dictLoadDefaults 1 ∧
    mayWrite (dset up Key.holdCause 1) Key.dictLoadDefaults 2 := by
  unfold mayWrite; decide +kernel

/-- A Tranan message without items, in the mailbox, and in a datagram with the field port in service. -/
def msgBytes (op : Nat) : List Byte := response 0 0 0 0 [] 0 |>.set 1 (BitVec.ofNat 8 op)
def boxUp (op : Nat) : State := { up with dsys := { up.dsys with mbxBusy := true, mbxReq := msgBytes op } }
def gram (op : Nat) (m : Bool) : Datagram := { src := 1, port := 2, multicast := m, payload := msgBytes op }
def netUp : State := dset up Key.fieldLinkState 1

theorem test_witness_mailbox : hostUp up = true ∧ up.dsys.mbxBusy = false ∧ (boxUp 1).dsys.mbxBusy = true ∧
    (boxUp 1).dsys.mbxQuiet = false ∧ dictServed (boxUp 1) = true ∧ msgOp (boxUp 1).dsys.mbxReq ≠ 2 ∧
    msgOp (boxUp 2).dsys.mbxReq = 2 ∧ (serveMsg (boxUp 2) .mirror 4096 (boxUp 2).dsys.mbxReq {}).1.dsys.mbxBusy = true ∧
    (serveMsg (boxUp 2) .mirror 4096 (boxUp 2).dsys.mbxReq {}).1.dsys.mbxQuiet = false := by decide +kernel

/-- The module with a response kept, and with a DISCOVER that waits. -/
def keptUp : State := { netUp with dsys := { netUp.dsys with kept := [{ src := 1, port := 2, reqId := 0, resp := [] }], discover := [(1, 2, 3)] } }

theorem test_witness_datagrams : fieldUp netUp = true ∧ acceptable (gram 1 false) = true ∧ msgOp (msgBytes 1) = 1 ∧
    msgOp (msgBytes 2) = 2 ∧ msgOp (msgBytes 3) = 3 ∧
    (keptFor keptUp 1 2 (msgId (msgBytes 1))).isSome = true ∧ keptFor netUp 1 2 (msgId (msgBytes 1)) = none ∧
    keptFor keptUp 1 2 3 = none ∧ (gram 1 false).full = false ∧ { gram 1 false with full := true }.full = true ∧
    dictServed (serveMsg netUp .field 1452 (msgBytes 2) {}).1 = true ∧ acceptable (gram 3 true) = true ∧
    (match checkMsg (msgBytes 3) with | .ok [] => true | _ => false) = true ∧ keptUp.dsys.discover = (1, 2, 3) :: [] ∧
    fieldUp keptUp = true := by decide +kernel

theorem test_witness_port : dictServed up = true ∧ dget up Key.fieldLinkState = 0 ∧ dget netUp Key.fieldLinkState = 1 ∧ netUp.dictOk ∧
    { up with dsys := { up.dsys with dad := true } }.dsys.dad = true ∧ netUp.dsys.dad = false := by decide +kernel

/-! ### Witnesses: resets and start-up -/

theorem test_witness_module : up.rst.mrst = false ∧ up.rst.off = false ∧ mayWrite up Key.resetCmd 1 ∧ up.q.perst = false ∧
    up.pw.module ≠ .banked ∧ hostUp up = true ∧ hostUp State.reset = false ∧ { up with q := { up.q with perst := true } }.q.perst = true ∧
    { up with pw := { up.pw with module := .banked } }.pw.module = .banked := by
  unfold mayWrite; decide +kernel

/-- Quenches in their places: ordered, begun, and acknowledged with every notice given. -/
def ordered (kind : Nat) : Quench := { kind := kind, unit := 3, cmd := true }
def begun (kind : Nat) : Quench := { ordered kind with begun := true }
def noticedQ (kind : Nat) : Quench := { begun kind with acked := true, owed := [] }
def quenchUp (q : Quench) : State := { up with rst := { up.rst with quenches := [q] } }
theorem test_witness_units : mayWrite up Key.resetCmd 2 ∧ mayWrite up Key.resetCmd 3 ∧ mayWrite up Key.resetCmd 4 ∧
    4 ≤ dget (dset up Key.resetTarget 4) Key.resetTarget ∧ dget up Key.resetTarget < 4 ∧
    dget (dset up Key.resetState 1) Key.resetState = 1 ∧ dget up Key.resetState ≠ 1 ∧ up.rst.quenches = [] ∧
    resetNotIdle up = false ∧ resetNotIdle (dset up Key.holdCause 1) = true ∧ mayWrite (dset up Key.holdCause 1) Key.resetCmd 3 ∧
    (getCluster (updCluster up 31 fun p => { p with off := true }) 31).off = true ∧
    (getCluster (updCluster up 31 fun p => { p with off := true }) 31).capHold = false ∧
    dget up (Key.clusterThermal + 31) < 3 := by
  unfold mayWrite; decide +kernel

theorem test_witness_quench : (quenchUp (ordered 5)).rst.quenches[0]? = some (ordered 5) ∧ (ordered 5).begun = false ∧
    (∀ k ∈ [1, 3, 5], (emberArrival (orderQuench up k 3 true) (.quench k 3)).isSome = true ∧
      (orderQuench up k 3 true).rst.quenches[0]? = some (ordered k) ∧
      (emberPass (quenchUp (begun k)) (emberSource k 3) (quenchInitiator k 3)).isSome = true ∧
      (emberPass (quenchUp (noticedQ k)) (quenchInitiator k 3) (emberSource k 3)).isSome = true) ∧
    (emberPass (quenchUp (noticedQ 3)) hubSource (agentSource 3)).isSome = true ∧ (begun 3).owed.contains 19 = true ∧ (begun 3).acked = false ∧ noticed (quenchUp (noticedQ 5)) (noticedQ 5) = true ∧
    (quenchUp (noticedQ 5)).dictOk ∧ twf ({} : ClusterPw) (quenchUp (noticedQ 5)).pw.clusters = true ∧
    noticed (quenchUp (noticedQ 3)) (noticedQ 3) = true ∧ (quenchUp (noticedQ 3)).rst.quenches = [noticedQ 3] := by
  decide +kernel

/-- Start-up at a stage. -/
def stageUp (n : Nat) : State := dset State.reset Key.startupStage n

theorem test_witness_stages : inStage State.reset 0 = true ∧ dget State.reset Key.bootResult ≠ 3 ∧ State.reset.sec.trial = false ∧
    State.reset.flash.openMarker = false ∧ State.reset.dictOk ∧ State.reset.flash.fwState ≠ 3 ∧ inStage (stageUp 3) 3 = true ∧
    dget (stageUp 3) Key.startupFault = 0 ∧ inStage (stageUp 4) 4 = true ∧ (stageUp 4).dictOk ∧ inStage (stageUp 5) 5 = true ∧
    (stageUp 5).dictOk ∧ dget (stageUp 6) Key.entropyFail ≠ 1 ∧ dget (stageUp 6) Key.startupStage = 6 := by
  refine ⟨?_, ?_, ?_, ?_, ?_, ?_, ?_, ?_, ?_, ?_, ?_, ?_, ?_, ?_⟩ <;> decide +kernel

/-! ### Witnesses: security -/

/-- The staged slot's state. -/
def fwUp (n : Nat) : State := { up with flash := { up.flash with fwState := n } }

theorem test_witness_staging : (∀ v, 1 ≤ v → v ≤ 4 → mayWrite up Key.fwStageCmd v) ∧ verifying up = false ∧
    resetUnderWay (fwUp 2) = false ∧ (fwUp 3).flash.fwState ∈ [1, 2, 3] := by
  refine ⟨fun v a b => ?_, ?_, ?_, ?_⟩
  · have : v = 1 ∨ v = 2 ∨ v = 3 ∨ v = 4 := by omega
    obtain rfl | rfl | rfl | rfl := this <;> exact ⟨by decide +kernel, by decide +kernel⟩
  all_goals decide +kernel

/-- A trial that did not reach stage 1. -/
def trialUp (ok : Bool) : State := { State.reset with sec := { State.reset.sec with trial := true, earlierOk := ok } }

theorem test_witness_staged : dictServed (fwUp 1) = true ∧
    writeStatus (fwUp 1) .mirror Key.fwStageData ETy.blob.code (List.replicate 1024 1) = 0 ∧ (fwUp 1).dictOk ∧
    dget (dset (fwUp 1) Key.fwStageOffset (2 ^ 24 - 1024)) Key.fwStageOffset < 16 * 2 ^ 20 ∧
    { (fwUp 1).sec with work := [.verify] }.work = .verify :: [] ∧ (trialUp true).sec.trial = true ∧
    inStage (trialUp true) 0 = true ∧ (trialUp true).dictOk := by
  refine ⟨?_, ?_, ?_, ?_, ?_, ?_, ?_, ?_⟩ <;> decide +kernel

/-- The keys' state. -/
def attUp (n : Nat) : State := dset up Key.attState n

theorem test_witness_enrol : (attUp 4).dictOk ∧ mayWrite (attUp 4) Key.enrolCmd 1 ∧ (attUp 4).sec.enrolBusy = false ∧
    dget (attUp 4) Key.attState ∈ [0, 3, 4] ∧ dget (attUp 2) Key.attState ∉ [0, 3, 4] ∧ mayWrite (attUp 1) Key.enrolCmd 2 ∧
    mayWrite (attUp 1) Key.enrolCmd 3 ∧ dget (attUp 1) Key.attState = 1 ∧
    dget (dset up Key.entropyFail 1) Key.entropyFail = 1 ∧ up.sec.cordWaits = false := by
  unfold mayWrite; decide +kernel

theorem test_witness_open : up.rst.off = false ∧ up.pw.module ≠ .off ∧ dget up Key.servicePortState = 0 ∧
    dget (attUp 4) Key.attState = 4 ∧ dget (attUp 2) Key.attState ≠ 4 ∧ dget (attUp 2) Key.serviceOpenPermit ≠ 1 ∧
    dget (dset (attUp 2) Key.serviceOpenPermit 1) Key.serviceOpenPermit = 1 ∧ mayWrite up Key.serviceOpenCmd 1 ∧
    dget (dset up Key.servicePortState 1) Key.servicePortState = 1 ∧ Config.moduleId + 1 ≠ Config.moduleId := by
  unfold mayWrite
  refine ⟨?_, ?_, ?_, ?_, ?_, ?_, ?_, ?_, ?_, fun h => absurd h ?_⟩
  case refine_10 =>
    generalize Config.moduleId = v
    bv_omega
  all_goals decide +kernel

/-- A connection that has come so far, and work of the security block. -/
def spdmUp (n att : Nat) : State :=
  { attUp att with sec := { (attUp att).sec with spdm := n, pqNext := true, ks := tset 0 (tset 0 [] 2 7) 3 8 } }

theorem test_witness_spdm : hostUp (spdmUp 3 2) = true ∧ (spdmUp 3 2).sec.spdm = 3 ∧ dget (spdmUp 3 2) Key.attState = 2 ∧
    dget (spdmUp 3 0) Key.attState ≠ 2 ∧ (spdmUp 2 2).sec.spdm < 3 ∧ (spdmUp 3 2).sec.pqNext = true ∧ up.sec.pqNext = false ∧
    canSign (spdmUp 3 2) = true ∧ canSign (dset (spdmUp 3 2) Key.entropyFail 1) = true ∧ canSign (attUp 2) = false ∧
    mayWrite (spdmUp 3 2) Key.attCmd 1 ∧ dget (spdmUp 3 2) Key.attReportState ≠ 1 ∧ dget up Key.entropyFail ≠ 1 ∧
    { up.sec with work := [.signedMeas []] }.work = .signedMeas [] :: [] := by
  unfold mayWrite; decide +kernel

/-! ### Witnesses: marker waves -/

/-- A cut that waits for engine 0's marker, and one that waits for its acknowledgement. -/
def aCut : Cut := { freeze := false, number := 5, owed := [0] }
def cutUp (c : Cut) : State := { up with snap := { up.snap with cut := some c } }
/-- `SNAP_IN` and marker frames trigger. -/
def armedUp : State := dset (dset cordUp Key.snapArm 1) Key.snapSources 5

theorem test_witness_waves : up.dictOk ∧ snapBusy up = false ∧ snapSource up 3 = false ∧ mayWrite up Key.snapTrigger 1 ∧
    snapSource armedUp 0 = true ∧ dget armedUp Key.snapArm = 1 ∧ armedUp.pw.module = .run ∧ armedUp.q.qeReady = true ∧
    snapBusy (cutUp aCut) = true ∧ snapBusy { armedUp with snap := (cutUp aCut).snap } = true ∧
    mayWrite (cutUp aCut) Key.snapTrigger 1 ∧ dget up Key.snapArm ≠ 1 ∧ aCut.owed.contains (blockKey 0 0) = true ∧
    blockQuenched (cutUp aCut) (blockKey 0 0) = false ∧ trafficAhead (cutUp aCut) (blockKey 0 0) = false ∧
    trafficAhead { cutUp { aCut with owed := [blockKey 1 0] } with mem := (replyUp .store 0 none).mem } (blockKey 1 0) = true ∧
    (emberArrival (blockLatched (cutUp aCut) aCut 0 true) (.markerAck 0 true)).isSome = true ∧
    (blockLatched (cutUp aCut) aCut 0 true).snap.cut = some { aCut with owed := [], acks := [(0, true)] } ∧ dget (cutUp aCut) Key.snapHalt ≠ 1 ∧
    { aCut with acks := [(0, true)] }.acks.find? (fun a => a.1 == blockKey 0 0) = some (blockKey 0 0, true) ∧
    (cutUp aCut).ck.fz = none := by
  unfold mayWrite; decide +kernel

theorem test_witness_marker : portOpen armedUp 0 = true ∧ dget armedUp Key.cordEthertype = 0x88B5 ∧ pathExists armedUp 1 0 = true ∧ pathUp armedUp 1 0 = true ∧
    (match rxSession armedUp 1 0 (frame 9 1) false with
      | some s1 => (getChan s1 (chanKey 1 0 0)).expected == 1 && !s1.snap.joined.contains (0, 0) && snapSource s1 2
          && dget s1 Key.snapArm == 1 && !snapBusy s1
      | none => false) = true ∧ snapSource up 2 = false ∧
    mayWrite (dset up Key.snapState 2) Key.snapResume 1 ∧ dget (dset up Key.snapState 2) Key.snapState = 2 ∧
    twf ({} : Engine) up.engines = true := by
  unfold mayWrite; decide +kernel

/-! ### Witnesses: the frames of families -/

theorem test_witness_families : exec .getVersion up = .next (spdmVersion up) ∧ exec (.ecForward 35) occSet = .next (forwardAll occSet 35) ∧
    exec (.stepMonitorWindow []) up = .next (stepMonitor up []) ∧ exec (.echoRequest 1 []) netUp = .next (echoRequested netUp 1 []) :=
  ⟨rfl, rfl, rfl, rfl⟩

/-! ### The spec's worked examples -/

/-- Chapter "Number formats", Encoded examples: 3.0, 448 and −2.0 from BF16 to OL16, OL8, E4M3 and FP16. -/
theorem test_encoded_examples : [0x4040, 0x43E0, 0xC000].map (fun c => [Fmt.ol16, .ol8, .e4m3, .fp16].map fun f =>
    (intoDest { fmt := f } none (readElem .bf16 0 0 c)).code) =
      [[0x0196, 0x0D, 0x44, 0x4200], [0x08CF, 0x3E, 0x7E, 0x5F00], [0x8100, 0x88, 0xC0, 0xC000]] := by decide +kernel

/-- The same chapter: OL16 0x0196 to FP16 and BF16; 0.3 into OL8 with bias −512. -/
theorem test_ol16_to_fp16 : [Fmt.fp16, .bf16].map (fun f => (intoDest { fmt := f } none (readElem .ol16 0 0 0x0196)).code) =
    [0x4201, 0x4040] ∧ ol8OfLog none (-512) (-445) = 2 := by decide +kernel

/-- Chapter "Arithmetic", output rounding: 2,031,344 × 2^−18 to OL16, nearest and with the word 0xD0A13C77. -/
theorem test_output_rounding : (toOl16At none (.lin false 2031344 (-18))).code = 0x02F4 ∧
    (toOl16At (some 0xD0A13C77) (.lin false 2031344 (-18))).code = 0x02F5 := by decide +kernel

/-- Chapter "Strands": ISSUE s7, s6, 0x80 and TIE knot 42, increment 1, BCAST. -/
theorem test_instruction_words : encWord 0x10 7 6 0 0 0x80 = 0x40E6000000000080 ∧ encWord 0x18 0 0 0 0x401 0x2A = 0x600004010000002A ∧
    legalWord 0x40E6000000000080 = true ∧ legalWord 0x600004010000002A = true := by decide +kernel

/-- The example of FIPS 180-4 for SHA-384: the digest of "abc" begins with the bytes CB 00 75 3F (R305). -/
theorem test_sha384_abc : leBytes 4 (sha384 [0x61, 0x62, 0x63]).toNat = [0xCB, 0x00, 0x75, 0x3F] := by decide +kernel

/-- The check value of CRC-32C, of the bytes "123456789" (R311; log 125). -/
theorem test_crc32c : crc32c ((List.range 9).map fun i => BitVec.ofNat 8 (0x31 + i)) = 0xE306_9283 := by decide +kernel

/-- `HIF_QUEUE_CMD` with FLUSH of queue 7 and with a reserved bit, and `HIF_STRAND_CMD` with END of its entry 3 (R259). -/
theorem test_command_words : queueCommandWord 0x03000007 = .flush 7 ∧ queueCommandWord 0x13000007 = .badCommand false 3 0 7 ∧
    strandCommandWord (2 * 2 ^ 36 + 3 * 2 ^ 20 + 7) = .endStrand 7 3 := by decide +kernel

/-- R48's worked example: 9,529,459 cycles in a window of 2^20 read 1,420,000 kHz. -/
theorem test_step_monitor : (match exec (.stepMonitorWindow (List.replicate 32 9529459)) (dset up Key.stepMonWindow 20) with
    | .next t => dget t Key.clusterStepRate == 1420000 && dget t (Key.dieStepRate + 3) == 1420000
    | .fault _ | .refused _ => false) = true := by decide +kernel

/-- Chapter "Work queues", worked example: a doorbell with `PI` 0x0123 is accepted, one with 0x01F1 is an OVERRUN. -/
theorem test_doorbell :
    (let s := { up with q := { up.q with cache := [(0x42A17, { state := 1, epoch := 1, ringLog2 := 8, done := 0xF0, pi := 0x110
                                                               ci := 0x110 })] } }
     [0x12342A17, 0x1F1 * 2 ^ 20 + 0x42A17].map fun v =>
       match exec (.doorbell (BitVec.ofNat 64 v)) s with
       | .next t => (cachedCtx t 0x42A17).map fun c => (c.pi, c.state, c.errCode, c.errEntry)
       | .fault _ | .refused _ => none) = [some (0x123, 1, 0, 0), some (0x110, 2, 2, 0x1F1)] := by decide +kernel

/-- R277's worked example: the user scratchpad of hearth 5 ends at 12 MiB of its aperture. -/
theorem test_scratchpad : (resolve up.mem none 0x0C0014BFFFFF).map Loc.owner = some 5 ∧ resolve up.mem none 0x0C0014C00000 = none := by
  decide +kernel

/-- SETI and ADDI write their register and move the PC on (R208, R209). -/
theorem test_seti : (match exec (.seti 0 31 0xFFFFFFFF) (wordUp (encWord 0x01 31 0 0 0 0xFFFFFFFF)) with
    | .next t => (getStrand t 0).any fun st => st.reg 31 == BitVec.allOnes 64 && st.pc == 8
    | .fault _ | .refused _ => false) = true := by decide +kernel

/-- A stack at 95 °C is at level 2, one at 105 °C in self-refresh (R288). -/
theorem test_stack_heat : [(95 * 16, 2, false), (105 * 16, 3, true)].all (fun p =>
    match exec (.stackThermalLevel 7 (some p.1)) up with
    | .next t => dget t (Key.stackThermal + 7) == p.2.1 && bitOf t.mem.selfRefresh 7 == p.2.2
    | .fault _ | .refused _ => false) = true := by decide +kernel

/-- A write of an address pair through BAR2 reads back. -/
theorem test_bar2 : (match exec (.bar2Write 0x40 [1, 2, 3, 4]) up with
    | .next t => (match exec (.bar2Read 0x40 4) t with
      | .next u => u.out == [.completion 0 [1, 2, 3, 4]]
      | .fault _ | .refused _ => false)
    | .fault _ | .refused _ => false) = true := by decide +kernel

end Sys2Proof.Tests
end

