-- ==== Sys2Proof/Proofs/Strands.lean ====
section
/-!
PROOF. The registers of a strand and the state it starts in (R206), the fields of an instruction word (R209) and the
branch conditions (R212).
-/

namespace Sys2Proof.Machine

/-! ### Reading a register after a write -/

/-- The canonical form of a strand's register table: registers in rising order, none listed that holds 0. -/
def Strand.RegsWf (st : Strand) : Prop := twf (α := Word) 0 st.regs = true

@[simp] theorem Strand.reg_zero (st : Strand) : st.reg 0 = 0 := rfl

@[simp] theorem Strand.setReg_zero (st : Strand) (v : Word) : st.setReg 0 v = st := rfl

theorem Strand.setReg_regs (st : Strand) {r : Nat} (hr : r ≠ 0) (v : Word) :
    (st.setReg r v).regs = tset (α := Word) 0 st.regs r v := by
  simp [Strand.setReg, hr]

theorem Strand.reg_of_ne_zero (st : Strand) {r : Nat} (hr : r ≠ 0) : st.reg r = tget (α := Word) 0 st.regs r := by
  simp [Strand.reg, hr]

theorem Strand.RegsWf.setReg {st : Strand} (h : st.RegsWf) (r : Nat) (v : Word) : (st.setReg r v).RegsWf := by
  by_cases hr : r = 0
  · subst hr; exact h
  · unfold Strand.RegsWf
    rw [Strand.setReg_regs st hr]
    exact tset_wf _ v _ r h

/-- What a write to a register does to all registers follows from what it does to the register table. -/
theorem Strand.reg_setReg_of_tget {st : Strand} {r k : Nat} {v : Word} (hr : r ≠ 0)
    (h : tget (α := Word) 0 (tset (α := Word) 0 st.regs r v) k = if k = r then v else tget (α := Word) 0 st.regs k) :
    (st.setReg r v).reg k = if k = r then v else st.reg k := by
  by_cases hk : k = 0
  · subst hk
    simp [Ne.symm hr]
  · rw [Strand.reg_of_ne_zero _ hk, Strand.reg_of_ne_zero _ hk, Strand.setReg_regs st hr, h]

/-- A write of any value, 0 too, to a register of a strand in canonical form. -/
theorem Strand.RegsWf.reg_setReg {st : Strand} (h : st.RegsWf) {r : Nat} (hr : r ≠ 0) (v : Word) (k : Nat) :
    (st.setReg r v).reg k = if k = r then v else st.reg k :=
  Strand.reg_setReg_of_tget hr (tget_tset _ v st.regs r k h)

/-- A write of a value other than 0 needs no canonical form. -/
theorem Strand.reg_setReg_of_ne_zero (st : Strand) {r : Nat} (hr : r ≠ 0) {v : Word} (hv : v ≠ 0) (k : Nat) :
    (st.setReg r v).reg k = if k = r then v else st.reg k :=
  Strand.reg_setReg_of_tget hr (tget_tset_new hv)

/-! ### The strand that a work item starts -/

/-- The strand of a work item before its registers are loaded: `startOn`'s first strand. -/
def blankStrand (w : WorkItem) : Strand :=
  { pc := BitVec.ofNat 64 w.program, job := w.job, queue := w.queue, entry := w.entry, evtSrc := w.evtSrc
    energySlot := w.energySlot }

/-- Argument word `i` of a work item. -/
def WorkItem.arg (w : WorkItem) (i : Nat) : Word := BitVec.ofNat 64 (w.args.getD i 0)

/-- The strand of a work item with its registers loaded (R206). -/
def loadedStrand (w : WorkItem) : Strand :=
  (((((blankStrand w).setReg 1 (w.arg 0)).setReg 2 (w.arg 1)).setReg 3 (w.arg 2)).setReg 4 (w.arg 3)).setReg 31
    (BitVec.ofNat 64 w.job)

theorem startOn_eq (s : State) (q : Nat) (w : WorkItem) :
    startOn s q w = arrive (setStrand s q (some (loadedStrand w))) q := rfl

theorem blankStrand_regsWf (w : WorkItem) : (blankStrand w).RegsWf := rfl

theorem blankStrand_reg (w : WorkItem) (r : Nat) : (blankStrand w).reg r = 0 := by
  simp [Strand.reg, blankStrand, tget]

theorem loadedStrand_pc {w : WorkItem} (h : w.program < 2 ^ 64) : (loadedStrand w).pc.toNat = w.program :=
  (BitVec.toNat_ofNat w.program 64).trans (Nat.mod_eq_of_lt h)

/-- The five writes of the start, read back: the last one to a register decides. -/
theorem loadedStrand_reg_writes (w : WorkItem) (r : Nat) :
    (loadedStrand w).reg r = if r = 31 then BitVec.ofNat 64 w.job else if r = 4 then w.arg 3 else if r = 3 then w.arg 2
      else if r = 2 then w.arg 1 else if r = 1 then w.arg 0 else 0 := by
  have h0 := blankStrand_regsWf w
  have h1 := h0.setReg 1 (w.arg 0)
  have h2 := h1.setReg 2 (w.arg 1)
  have h3 := h2.setReg 3 (w.arg 2)
  have h4 := h3.setReg 4 (w.arg 3)
  rw [loadedStrand, h4.reg_setReg (by decide), h3.reg_setReg (by decide), h2.reg_setReg (by decide),
    h1.reg_setReg (by decide), h0.reg_setReg (by decide), blankStrand_reg]

theorem loadedStrand_reg (w : WorkItem) (r : Nat) :
    (loadedStrand w).reg r = if 1 ≤ r ∧ r ≤ 4 then w.arg (r - 1) else if r = 31 then BitVec.ofNat 64 w.job else 0 := by
  rw [loadedStrand_reg_writes]
  by_cases hr : 1 ≤ r ∧ r ≤ 4
  · obtain rfl | rfl | rfl | rfl : r = 1 ∨ r = 2 ∨ r = 3 ∨ r = 4 := by omega
    all_goals rfl
  · have hne : r ≠ 1 ∧ r ≠ 2 ∧ r ≠ 3 ∧ r ≠ 4 := by omega
    simp [hr, hne]

/-- Settles O13: the start is the five writes of `loadedStrand`, each read back by the rule of a register write. -/
theorem strandStarts : Obligations.StrandStarts := by
  unfold Obligations.StrandStarts
  refine ⟨fun s q w hp => ?_, fun st v r => ⟨st.reg_zero, by rw [Strand.setReg_zero]⟩, fun st v r k hr hv => ?_⟩
  · exact ⟨loadedStrand w, startOn_eq s q.val w, loadedStrand_pc hp, rfl, rfl, rfl, rfl, rfl,
      fun r _ => loadedStrand_reg w r⟩
  · have hreg := st.reg_setReg_of_ne_zero hr hv
    exact ⟨(hreg r).trans (if_pos rfl), fun hk => (hreg k).trans (if_neg hk)⟩

/-! ### The fields of an instruction word, and the branch conditions -/

section fields

variable {opc dst a b fn imm : Nat}

theorem wOpc_encWord (ho : opc < 2 ^ 6) (hd : dst < 2 ^ 5) (ha : a < 2 ^ 5) (hb : b < 2 ^ 5) (hf : fn < 2 ^ 11)
    (hi : imm < 2 ^ 32) : wOpc (encWord opc dst a b fn imm) = opc := by
  unfold wOpc bits encWord
  omega

theorem wDst_encWord (hd : dst < 2 ^ 5) (ha : a < 2 ^ 5) (hb : b < 2 ^ 5) (hf : fn < 2 ^ 11) (hi : imm < 2 ^ 32) :
    wDst (encWord opc dst a b fn imm) = dst := by
  unfold wDst bits encWord
  omega

theorem wFn_encWord (hf : fn < 2 ^ 11) (hi : imm < 2 ^ 32) : wFn (encWord opc dst a b fn imm) = fn := by
  unfold wFn bits encWord
  omega

/-- A BR word is legal when its unused `DST` is 0 and its condition is one of the seven of R212. -/
theorem legalWord_br (hd : dst < 2 ^ 5) (ha : a < 2 ^ 5) (hb : b < 2 ^ 5) (hf : fn < 2 ^ 11) (hi : imm < 2 ^ 32) :
    legalWord (encWord 0x08 dst a b fn imm) = (dst == 0 && decide (fn ≤ 6)) := by
  unfold legalWord
  simp only [wOpc_encWord (opc := 0x08) (by decide) hd ha hb hf hi, wDst_encWord hd ha hb hf hi, wFn_encWord hf hi]

end fields

/-- Settles O15: the seven conditions are the tests of `brCond`, and a BR word with condition 7 breaks `legalWord_br`. -/
theorem branchConditions : Obligations.BranchConditions := by
  unfold Obligations.BranchConditions
  intro a b
  refine ⟨rfl, beq_iff_eq, bne_iff_ne, decide_eq_true_iff, decide_eq_true_iff, decide_eq_true_iff, decide_eq_true_iff,
    fun x y imm => ?_⟩
  exact legalWord_br (by decide) x.isLt y.isLt (by decide) imm.isLt

end Sys2Proof.Machine
end

