-- ==== Sys2Proof/Proofs/Feeds.lean ====
section
/-!
PROOF. The conditions of the feeds and where the load lies after a reading (R385, R386).
-/

namespace Sys2Proof.Machine

/-! ### The table of R386, row by row -/

section feedNext

variable {old mag : Nat}

theorem feedNext_of_above_over (h : 5700 < mag) : feedNext old mag = 3 := if_pos (.inl h)

/-- OVER is left only at 56.5 V. -/
theorem feedNext_of_over (h : 5650 < mag) : feedNext 3 mag = 3 := if_pos (.inr ⟨rfl, h⟩)

/-- From 40.5 V a feed is GOOD, unless it is above the range or in OVER and not yet at 56.5 V. -/
theorem feedNext_of_good (hlo : 4050 ≤ mag) (hhi : mag ≤ 5700) (hov : old ≠ 3 ∨ mag ≤ 5650) : feedNext old mag = 0 := by
  have hnot : ¬(mag > 5700 ∨ (old = 3 ∧ mag > 5650)) := by omega
  rw [feedNext, if_neg hnot, if_pos hlo]

theorem feedNext_of_below_good (h : mag < 4050) : feedNext old mag = if old = 2 ∨ mag < 3800 then 2 else 1 := by
  have hnot : ¬(mag > 5700 ∨ (old = 3 ∧ mag > 5650)) := by omega
  rw [feedNext, if_neg hnot, if_neg (Nat.not_le.mpr h)]

/-- UNDER is left only at 40.5 V. -/
theorem feedNext_of_under (h : mag < 4050) : feedNext 2 mag = 2 := (feedNext_of_below_good h).trans (if_pos (.inl rfl))

theorem feedNext_of_low (hlo : 3800 ≤ mag) (hhi : mag < 4050) (hold : old ≠ 2) : feedNext old mag = 1 :=
  (feedNext_of_below_good hhi).trans (if_neg (by omega))

theorem feedNext_of_below_low (h : mag < 3800) : feedNext old mag = 2 :=
  (feedNext_of_below_good (by omega)).trans (if_pos (.inr h))

/-- A condition fits the two bits it has in `FEED_COND`. -/
theorem feedNext_lt_four (old mag : Nat) : feedNext old mag < 4 := by
  unfold feedNext
  repeat' split
  all_goals decide

end feedNext

/-! ### Usable feeds, and the feeds drawn from -/

theorem feedUsable_iff (s : State) (f : Nat) : feedUsable s f = true ↔ feedCond s f = 0 ∨ feedCond s f = 1 := by
  rw [feedUsable, decide_eq_true_iff, Nat.le_one_iff_eq_zero_or_eq_one]

theorem feedDraws_of_a_isolated {s : State} (ha : feedUsable s 0 = false) : feedDraws s = 0 ∨ feedDraws s = 2 := by
  cases hb : feedUsable s 1 <;> simp [feedDraws, ha, hb]

theorem feedDraws_of_b_isolated {s : State} (hb : feedUsable s 1 = false) : feedDraws s = 0 ∨ feedDraws s = 1 := by
  cases ha : feedUsable s 0 <;> simp [feedDraws, ha, hb]

/-! ### The conditions in `FEED_COND` after a reading -/

theorem feedCond_of_dict {s t : State} (h : s.dict = t.dict) (f : Nat) : feedCond s f = feedCond t f := by
  simp only [feedCond, dget, h]

/-- Writing the two bits of one feed leaves those of the other. -/
theorem condBits_put {d n f g : Nat} (hf : f < 2) (hg : g < 2) (hn : n < 4) :
    (d - d / 4 ^ f % 4 * 4 ^ f + n * 4 ^ f) / 4 ^ g % 4 = if g = f then n else d / 4 ^ g % 4 := by
  obtain rfl | rfl : f = 0 ∨ f = 1 := by omega
  all_goals obtain rfl | rfl : g = 0 ∨ g = 1 := by omega
  all_goals simp; omega

/-- The first two writes of a reading: the feed's voltage and current, as their entries show them. -/
def feedShown (s : State) (f : Nat) (r : FeedReading) : State :=
  dset (dset s (Key.feedVolt + f) (signed16 r.volt)) (Key.feedCurr + f) (r.curr % 2 ^ 16)

theorem feedShown_dictOk {s : State} (h : s.dictOk) (f : Nat) (r : FeedReading) : (feedShown s f r).dictOk :=
  dset_dictOk (dset_dictOk h)

theorem dget_feedCond_feedShown {s : State} {f : Nat} (h : s.dictOk) (hf : f < 2) (r : FeedReading) :
    dget (feedShown s f r) Key.feedCond = dget s Key.feedCond := by
  have hv : Key.feedCond ≠ Key.feedVolt + f := by unfold Key.feedCond Key.feedVolt; omega
  have hc : Key.feedCond ≠ Key.feedCurr + f := by unfold Key.feedCond Key.feedCurr; omega
  rw [feedShown, dget_dset_ne (dset_dictOk h) hc, dget_dset_ne h hv]

/-- The third write of a reading puts the new condition into the feed's two bits; the event changes no entry. -/
theorem feedEntry_dict (s : State) (f : Nat) (r : FeedReading) :
    (feedEntry s f r).dict = (dset (feedShown s f r) Key.feedCond (dget (feedShown s f r) Key.feedCond
      - feedCond s f * 4 ^ f + feedNext (feedCond s f) (feedMag r.volt) * 4 ^ f)).dict := by
  unfold feedEntry
  dsimp only
  split <;> rfl

theorem dget_feedCond_feedEntry {s : State} {f : Nat} (h : s.dictOk) (hf : f < 2) (r : FeedReading) :
    dget (feedEntry s f r) Key.feedCond =
      dget s Key.feedCond - feedCond s f * 4 ^ f + feedNext (feedCond s f) (feedMag r.volt) * 4 ^ f := by
  rw [dget, feedEntry_dict, ← dget, dget_dset_same (feedShown_dictOk h f r), dget_feedCond_feedShown h hf]

/-- A reading moves its own feed by the table, and leaves the condition of the other. -/
theorem feedCond_feedEntry {s : State} {f g : Nat} (h : s.dictOk) (hf : f < 2) (hg : g < 2) (r : FeedReading) :
    feedCond (feedEntry s f r) g = if g = f then feedNext (feedCond s f) (feedMag r.volt) else feedCond s g := by
  rw [feedCond, dget_feedCond_feedEntry h hf]
  exact condBits_put hf hg (feedNext_lt_four _ _)

/-- The event on entry to LOW, UNDER or OVER. -/
theorem feedEntry_event {s : State} {f : Nat} {r : FeedReading}
    (hne : feedNext (feedCond s f) (feedMag r.volt) ≠ feedCond s f) (h0 : feedNext (feedCond s f) (feedMag r.volt) ≠ 0) :
    ∃ e ∈ (feedEntry s f r).ev.evq, e.source = 0x0200 := by
  unfold feedEntry
  rw [if_pos ⟨hne, h0⟩]
  exact ⟨_, List.mem_append_right _ (List.mem_singleton_self _), rfl⟩

/-! ### What moving the load does, and what it leaves -/

theorem feedTransfer_cases (s : State) :
    feedTransfer s = { s with pw := { s.pw with feedDraw := feedDraws s } } ∨
      feedTransfer s = hubEvent { s with pw := { s.pw with feedDraw := feedDraws s } } 0x0201 := by
  unfold feedTransfer
  dsimp only
  split
  · exact .inl rfl
  · exact .inr rfl

@[simp] theorem feedTransfer_dict (s : State) : (feedTransfer s).dict = s.dict := by
  obtain h | h := feedTransfer_cases s <;> simp [h]

/-- Moving the load writes the feeds that the conditions and magnitudes choose, and does not change that choice. -/
theorem feedTransfer_feedDraw (s : State) : (feedTransfer s).pw.feedDraw = feedDraws (feedTransfer s) := by
  obtain h | h := feedTransfer_cases s <;> (rw [h]; rfl)

theorem mem_evq_feedTransfer {s : State} {e : EvRec} (h : e ∈ s.ev.evq) : e ∈ (feedTransfer s).ev.evq := by
  obtain ht | ht := feedTransfer_cases s <;> rw [ht]
  · exact h
  · exact List.mem_append_left _ h

theorem feedCond_feedRead {s : State} {f g : Nat} (h : s.dictOk) (hf : f < 2) (hg : g < 2) (r : FeedReading) :
    feedCond (feedRead s f r) g = if g = f then feedNext (feedCond s f) (feedMag r.volt) else feedCond s g :=
  (feedCond_of_dict (feedTransfer_dict _) g).trans (feedCond_feedEntry h hf hg r)

/-- Settles O34: the rows of the table are the lemmas on `feedNext`, and a reading is `feedEntry`, which moves its feed by
the table, then `feedTransfer`, which keeps the conditions. -/
theorem feedsFollowTheTable : Obligations.FeedsFollowTheTable := by
  unfold Obligations.FeedsFollowTheTable
  refine ⟨fun old mag => ⟨feedNext_of_above_over, fun hlo hhi => ⟨feedNext_of_over hlo, fun ho => ?_⟩,
      fun hlo hhi => feedNext_of_good hlo (by omega) (.inr hhi),
      fun hlo hhi => ⟨feedNext_of_under hhi, feedNext_of_low hlo hhi⟩, feedNext_of_below_low⟩,
    feedUsable_iff, fun s => ⟨feedDraws_of_a_isolated, feedDraws_of_b_isolated⟩, fun s f r hs => ?_⟩
  · exact feedNext_of_good (by omega) hhi (.inl ho)
  · have hother : 1 - f.val ≠ f.val := by omega
    have hself : feedCond (feedRead s f.val r) f.val = feedNext (feedCond s f.val) (feedMag r.volt) :=
      (feedCond_feedRead hs f.isLt f.isLt r).trans (if_pos rfl)
    refine ⟨feedRead s f.val r, rfl, hself, (feedCond_feedRead hs f.isLt (by omega) r).trans (if_neg hother),
      feedTransfer_feedDraw _, fun hne h0 => ?_⟩
    rw [hself] at hne h0
    obtain ⟨e, he, hsrc⟩ := feedEntry_event hne h0
    exact ⟨e, mem_evq_feedTransfer he, hsrc⟩

end Sys2Proof.Machine
end

