-- ==== Sys2Proof/Proofs/Invariants.lean ====
section
/-!
PROOF. What every command keeps: the queue of waiting commands, the canonical forms of memory and of the dictionary, and the
counts of the wear record.
-/

namespace Sys2Proof.Machine

variable {v : View}

theorem Kept.ite {c : Prop} [Decidable c] {a b : State} (ha : Kept v a) (hb : Kept v b) : Kept v (if c then a else b) := by
  split <;> assumption

theorem yieldError_kept {s : State} {q a : Nat} {st : Strand} (h : Kept v s) : Kept v (yieldError s q st a) :=
  setSeq_kept (endStrand_kept h)

/-- Every command answers a next state, which keeps what the operation behind the command keeps. -/
theorem exec_kept {s : State} (c : Instr) (h : Kept v s) : ∃ t, exec c s = .next t ∧ Kept v t := by
  cases c with
  | arrayStep => exact ⟨_, rfl, engineAct_kept h fun _ ht => arrayStep_kept ht⟩
  | stationaryLoadDone => exact ⟨_, rfl, engineAct_kept h fun _ ht => stationaryLoad_kept ht⟩
  | checksumRowPass => exact ⟨_, rfl, engineAct_kept h fun _ ht => checksumRowPass_kept ht⟩
  | tileRoundDone => exact ⟨_, rfl, engineAct_kept h fun _ ht => tileRoundDone_kept ht⟩
  | drainDone => exact ⟨_, rfl, engineAct_kept h fun _ ht => drainDone_kept ht⟩
  | respinRequest => exact ⟨_, rfl, engineAct_kept h fun _ ht => respinRequest_kept ht⟩
  | replayStagingDone => exact ⟨_, rfl, engineAct_kept h fun _ ht => replayStagingDone_kept ht⟩
  | respinReport => exact ⟨_, rfl, respinReport_kept h⟩
  | stormNotice => exact ⟨_, rfl, stormNotice_kept h⟩
  | stormRelease | powerSmoulder | powerBanked | powerRun | lowVoltagePermitWrite | ringCiWrite | tctlWrite | eoi |
      evtHoldWrite | groupDefWrite | maskWrite | pendWrite | ecLockWrite | faultInject | alertAck | engineUnretire |
      dictCommit | dictLoadDefaults | dictLoadDefaultsCommit | resetModule | resetDie | resetCore | fwBegin | fwVerify
      | fwArm | fwCancel | enrolGenerate | enrolInstall | enrolCancel | attGenerate | snapTrigger | snapResume =>
      exact ⟨_, rfl, ownWrite_kept h⟩
  | preemptionRequest => exact ⟨_, rfl, engineAct_kept h fun _ ht => preemptRequest_kept ht⟩
  | hardCapHold u => cases u <;> exact ⟨_, rfl, hardCapHold_kept h⟩
  | hardCapRelease u => cases u <;> exact ⟨_, rfl, hardCapRelease_kept h⟩
  | proofTest => exact ⟨_, rfl, engineAct_kept h fun _ ht => proofTest_kept ht⟩
  | hearthProofTest => exact ⟨_, rfl, hearthProof_kept h⟩
  | evt => exact ⟨_, rfl, execWord_kept h fun _ _ ht => next_kept (seqEvent_kept ht)⟩
  | seti | seth | alu | alui => exact ⟨_, rfl, execWord_kept h fun _ _ ht => next_kept ht⟩
  | ld => exact ⟨_, rfl, execWord_kept h fun _ _ ht => loadInstr_kept ht⟩
  | st => exact ⟨_, rfl, execWord_kept h fun _ _ ht => storeInstr_kept ht⟩
  | br => exact ⟨_, rfl, execWord_kept h fun _ _ ht => Kept.ite (goTo_kept ht) (next_kept ht)⟩
  | loop => exact ⟨_, rfl, execWord_kept h fun _ _ ht => loopInstr_kept ht⟩
  | jal | jr => exact ⟨_, rfl, execWord_kept h fun _ _ ht => goTo_kept ht⟩
  | issue => exact ⟨_, rfl, pump_kept (execWord_kept h fun _ _ ht => issueInstr_kept ht)⟩
  | sealwTag => exact ⟨_, rfl, execWord_kept h fun _ _ ht => sealTag_kept ht⟩
  | sealwAll => exact ⟨_, rfl, execWord_kept h fun _ _ ht => sealAll_kept ht⟩
  | tie | kset => exact ⟨_, rfl, execWord_kept h fun _ _ ht => knotInstr_kept ht⟩
  | wait => exact ⟨_, rfl, execWord_kept h fun _ _ ht => waitInstr_kept ht⟩
  | krd => exact ⟨_, rfl, execWord_kept h fun _ _ ht => krdInstr_kept ht⟩
  | ladr => exact ⟨_, rfl, execWord_kept h fun _ _ ht => ladrInstr_kept ht⟩
  | yield => exact ⟨_, rfl, execWord_kept h fun _ _ ht => yieldInstr_kept ht⟩
  | yieldDone => exact ⟨_, rfl, execWord_kept h fun _ _ ht => endStrand_kept ht⟩
  | yieldError => exact ⟨_, rfl, execWord_kept h fun _ _ ht => yieldError_kept ht⟩
  | knotTie | knotSet => exact ⟨_, rfl, knotArrive_kept h⟩
  | tallyTableSwap => exact ⟨_, rfl, tallySwap_kept h⟩
  | ladderControllerPass => exact ⟨_, rfl, controllerPass_kept h⟩
  | requestReply => exact ⟨_, rfl, anyReply_kept h⟩
  | operationComplete => exact ⟨_, rfl, completeOp_kept h⟩
  | sequencerSelect => exact ⟨_, rfl, sequencerSelect_kept h⟩
  | doorbell => exact ⟨_, rfl, writeDoorbell_kept h⟩
  | entryFetchReturn => exact ⟨_, rfl, entryFetchReturn_kept h⟩
  | copyComplete => exact ⟨_, rfl, copyComplete_kept h⟩
  | enable | disable | flush | resume | endStrand => exact ⟨_, rfl, writeCommand_kept h⟩
  | hifWinBaseWrite => exact ⟨_, rfl, writeWinBase_kept h⟩
  | bar0DiscardedWrite => exact ⟨_, rfl, bar0Discarded_kept h⟩
  | bar2Read => exact ⟨_, rfl, bar2Read_kept h⟩
  | bar2Write => exact ⟨_, rfl, bar2Write_kept h⟩
  | d3hotEntry => exact ⟨_, rfl, d3hotEntry_kept h⟩
  | d0Return => exact ⟨_, rfl, d0Return_kept h⟩
  | memoryRequest => exact ⟨_, rfl, memoryAgain_kept (memoryRequest_kept h)⟩
  | firstTouchCopyDone => exact ⟨_, rfl, memoryAgain_kept (firstTouchDone_kept h)⟩
  | fetchAdd => exact ⟨_, rfl, fetchAdd_kept h⟩
  | compareSwap => exact ⟨_, rfl, compareSwap_kept h⟩
  | remoteAccRequest => exact ⟨_, rfl, pump_kept (remoteAccRequest_kept h)⟩
  | hearthGroup => exact ⟨_, rfl, hearthGroup_kept h⟩
  | pageDigestDone => exact ⟨_, rfl, pump_kept (pageDigestDone_kept h)⟩
  | channelFence => exact ⟨_, rfl, fenceChannel_kept h⟩
  | islandClockLoss => exact ⟨_, rfl, islandLost_kept h⟩
  | scrubVisit => exact ⟨_, rfl, scrubVisit_kept h⟩
  | stackThermalLevel => exact ⟨_, rfl, memoryAgain_kept (stackReading_kept h)⟩
  | feedCondition => exact ⟨_, rfl, feedRead_kept h⟩
  | powerFail => exact ⟨_, rfl, powerFail_kept h⟩
  | coldStart => exact ⟨_, rfl, coldStart_kept h⟩
  | budgetWindowEnd => exact ⟨_, rfl, budgetWindow_kept h⟩
  | dampIdleExpiry => exact ⟨_, rfl, dampIdle_kept h⟩
  | clusterWake => exact ⟨_, rfl, clusterWake_kept h⟩
  | clusterThermalLevel => exact ⟨_, rfl, clusterReading_kept h⟩
  | trip => exact ⟨_, rfl, trip_kept h⟩
  | stepMonitorWindow => exact ⟨_, rfl, stepMonitor_kept h⟩
  | eventRecordAccept => exact ⟨_, rfl, acceptAt_kept h⟩
  | holdoffExpiry => exact ⟨_, rfl, holdoffOver_kept h⟩
  | msiXEnable => exact ⟨_, rfl, msixControl_kept h⟩
  | vectorUnmask => exact ⟨_, rfl, vectorUnmask_kept h⟩
  | localOccurrence => exact ⟨_, rfl, occurAt_kept h⟩
  | ecForward => exact ⟨_, rfl, forwardAll_kept h⟩
  | ra => exact ⟨_, rfl, rxCheck_kept h fun _ _ ht => rxGroup_kept ht fun _ hu => takeRa_kept hu⟩
  | gather => exact ⟨_, rfl, rxCheck_kept h fun _ _ ht => rxGroup_kept ht fun _ hu => takeGather_kept hu⟩
  | ack => exact ⟨_, rfl, rxCheck_kept h fun _ _ ht => rxAck_kept ht⟩
  | nak => exact ⟨_, rfl, rxCheck_kept h fun _ _ ht => rxNak_kept ht⟩
  | ashNak | abort => exact ⟨_, rfl, rxCheck_kept h fun _ _ ht => rxEnds_kept ht⟩
  | heartbeat => exact ⟨_, rfl, rxCheck_kept h fun _ _ ht => rxHeartbeat_kept ht⟩
  | goingDown => exact ⟨_, rfl, rxCheck_kept h fun _ _ ht => rxGoingDown_kept ht⟩
  | heatHold => exact ⟨_, rfl, rxCheck_kept h fun _ _ ht => rxHeat_kept ht⟩
  | marker => exact ⟨_, rfl, rxCheck_kept h fun _ _ ht => rxMarker_kept ht⟩
  | page => exact ⟨_, rfl, rxCheck_kept h fun _ _ ht => rxPage_kept ht⟩
  | pairReq => exact ⟨_, rfl, rxCtrl_kept h fun _ _ ht => pairReq_kept ht⟩
  | pairAck => exact ⟨_, rfl, rxCtrl_kept h fun _ _ ht => pairAck_kept ht⟩
  | pairRefuse => exact ⟨_, rfl, rxCtrl_kept h fun _ _ ht => pairRefuse_kept ht⟩
  | freezeBegin => exact ⟨_, rfl, rxCtrl_kept h fun _ _ ht => freezeBegin_kept ht⟩
  | beginAck => exact ⟨_, rfl, rxCtrl_kept h fun _ _ ht => beginAck_kept ht⟩
  | digests => exact ⟨_, rfl, rxCtrl_kept h fun _ _ ht => anyDigests_kept ht⟩
  | freezeEnd => exact ⟨_, rfl, rxCtrl_kept h fun _ _ ht => anyFreezeEnd_kept ht⟩
  | endAck => exact ⟨_, rfl, rxCtrl_kept h fun _ _ ht => endAck_kept ht⟩
  | refuse => exact ⟨_, rfl, rxCtrl_kept h fun _ _ ht => refused_kept ht⟩
  | abandon => exact ⟨_, rfl, rxCtrl_kept h fun _ _ ht => abandon_kept ht⟩
  | restoreReq => exact ⟨_, rfl, rxCtrl_kept h fun _ _ ht => restoreReq_kept ht⟩
  | digestReq => exact ⟨_, rfl, rxCtrl_kept h fun _ _ ht => digestReq_kept ht⟩
  | unavailable => exact ⟨_, rfl, rxCtrl_kept h fun _ _ ht => restoreUnavailable_kept ht⟩
  | heartbeatSend => exact ⟨_, rfl, heartbeatSend_kept h⟩
  | pathSilenceTimeout => exact ⟨_, rfl, pathSilent_kept h⟩
  | cordRtoExpiry => exact ⟨_, rfl, rtoExpiry_kept h⟩
  | cordRnrWaitExpiry => exact ⟨_, rfl, rnrExpiry_kept h⟩
  | ackTimer => exact ⟨_, rfl, ackTimer_kept h⟩
  | collTimeout => exact ⟨_, rfl, collTimeout_kept h⟩
  | heatHoldRepeat => exact ⟨_, rfl, heatRepeat_kept h⟩
  | heatHoldLimit => exact ⟨_, rfl, heatLimit_kept h⟩
  | abortAgeing => exact ⟨_, rfl, abortAgeing_kept h⟩
  | portStateChange => exact ⟨_, rfl, portChange_kept h⟩
  | cordPeerCountWrite | freezeNow | partnerHolderWrite | partnerOfWrite | restoreStart | restoreAbort => exact ⟨_,
      rfl, pump_kept (ownWrite_kept h)⟩
  | markerArrival => exact ⟨_, rfl, cutCheck_kept (markerArrival_kept h)⟩
  | markerAck => exact ⟨_, rfl, markerAck_kept h⟩
  | faultMessage => exact ⟨_, rfl, faultMessage_kept h⟩
  | emberCreditReturn => exact ⟨_, rfl, emberReturn_kept h⟩
  | hubInternalFault => exact ⟨_, rfl, hubInternal_kept h⟩
  | read => exact ⟨_, rfl, trananRead_kept h⟩
  | write => exact ⟨_, rfl, pump_kept (trananWrite_kept h)⟩
  | discover => exact ⟨_, rfl, trananDiscover_kept h⟩
  | discoverDelayExpiry => exact ⟨_, rfl, discoverDelay_kept h⟩
  | duplicateAddressDetection => exact ⟨_, rfl, dadDone_kept h⟩
  | mbxDoorbell => exact ⟨_, rfl, mbxDoorbell_kept h⟩
  | directMapWrite => exact ⟨_, rfl, pump_kept (directWrite_kept h)⟩
  | entryWrite => exact ⟨_, rfl, pump_kept (Kept.ite (reportedWrite_kept h) h)⟩
  | commitComplete => exact ⟨_, rfl, commitComplete_kept h⟩
  | mrstNAssert => exact ⟨_, rfl, mrstAssert_kept h⟩
  | mrstNRelease => exact ⟨_, rfl, mrstRelease_kept h⟩
  | perstAssert => exact ⟨_, rfl, perstAssert_kept h⟩
  | perstDeassert => exact ⟨_, rfl, perstDeassert_kept h⟩
  | flr => exact ⟨_, rfl, flr_kept h⟩
  | resetCluster agent =>
    cases agent with
    | none => exact ⟨_, rfl, ownWrite_kept h⟩
    | some c => exact ⟨_, rfl, agentReset_kept h⟩
  | quench => exact ⟨_, rfl, quenchArrive_kept h⟩
  | quenchNotice => exact ⟨_, rfl, quenchNotice_kept h⟩
  | quenchAck => exact ⟨_, rfl, quenchAck_kept h⟩
  | quenchRelease => exact ⟨_, rfl, quenchRelease_kept h⟩
  | dieResetDone => exact ⟨_, rfl, pump_kept (dieResetDone_kept h)⟩
  | boot => exact ⟨_, rfl, boot_kept h⟩
  | startDies => exact ⟨_, rfl, diesStage_kept h⟩
  | startMemory => exact ⟨_, rfl, memoryStage_kept h⟩
  | startCompute => exact ⟨_, rfl, computeStage_kept h⟩
  | fwStageData => exact ⟨_, rfl, ownBlob_kept h⟩
  | fwVerifyDone => exact ⟨_, rfl, verifyDone_kept h⟩
  | watchdogFallback => exact ⟨_, rfl, watchdogFallback_kept h⟩
  | enrolGenerateDone => exact ⟨_, rfl, enrolGenerated_kept h⟩
  | reportReady => exact ⟨_, rfl, reportReady_kept h⟩
  | getVersion => exact ⟨_, rfl, spdmVersion_kept h⟩
  | getCapabilities => exact ⟨_, rfl, spdmCapabilities_kept h⟩
  | negotiateAlgorithms => exact ⟨_, rfl, spdmAlgorithms_kept h⟩
  | getDigests => exact ⟨_, rfl, spdmDigests_kept h⟩
  | getCertificate => exact ⟨_, rfl, spdmCertificate_kept h⟩
  | challenge => exact ⟨_, rfl, spdmChallenge_kept h⟩
  | getMeasurements => exact ⟨_, rfl, spdmMeasurements_kept h⟩
  | getPqSignature => exact ⟨_, rfl, spdmPqSignature_kept h⟩
  | getPqChain => exact ⟨_, rfl, spdmPqChain_kept h⟩
  | doeAbort => exact ⟨_, rfl, doeAbort_kept h⟩
  | openRequest tap =>
    cases tap with
    | none => exact ⟨_, rfl, ownWrite_kept h⟩
    | some v => exact ⟨_, rfl, openRequest_kept h⟩
  | eraseDone => exact ⟨_, rfl, eraseDone_kept h⟩
  | entropyFail => exact ⟨_, rfl, entropyFail_kept h⟩
  | drbgReseed => exact ⟨_, rfl, drbgReseed_kept h⟩
  | snapIn => exact ⟨_, rfl, snapIn_kept h⟩
  | snapOutPulseEnd => exact ⟨_, rfl, snapOutEnd_kept h⟩
  | vectorPart => exact ⟨_, rfl, vectorPart_kept h⟩
  | bar2Resize => exact ⟨_, rfl, bar2Resize_kept h⟩
  | pcieCompletionTimeout => exact ⟨_, rfl, pcieTimeout_kept h⟩
  | pcieLinkTraining => exact ⟨_, rfl, linkTraining_kept h⟩
  | badCommand => exact ⟨_, rfl, badCommand_kept h⟩
  | cordFrameDrop => exact ⟨_, rfl, frameDrop_kept h⟩
  | neighborSolicitation => exact ⟨_, rfl, neighborSolicited_kept h⟩
  | echoRequest => exact ⟨_, rfl, echoRequested_kept h⟩
  | fieldLinkStateChange => exact ⟨_, rfl, fieldLink_kept h⟩
  | dieLinkCrcError => exact ⟨_, rfl, flitError_kept h⟩
  | coolantInletReading => exact ⟨_, rfl, coolantReading_kept h⟩
  | feedVoltageCrossover => exact ⟨_, rfl, feedsRead_kept h⟩

/-- A command completes in what its operation leaves. -/
theorem completes_of {i : Instr} {s t u : State} (hi : exec i s = .next u) (h : u = t) : Completes i s t :=
  h ▸ hi

theorem kept_of_exec {s t : State} {c : Instr} (h : Kept v s) (ht : exec c s = .next t) : Kept v t := by
  obtain ⟨u, hu, hk⟩ := exec_kept c h
  cases hu.symm.trans ht
  exact hk

theorem kept_of_step {s t : State} (ht : step s = .next t) :
    Kept { s.view with queue := s.pending.tail } t := by
  unfold step at ht
  have hv := Kept.view s
  split at ht
  next hp => 
    cases ht
    exact ⟨by simp [hp], hv.2⟩
  next i r hp => exact kept_of_exec (s := { s with pending := r }) ⟨by simp [hp], hv.2⟩ ht

/-- Settles O2: each arm of the dispatch is `.next` of an operation that keeps the queue. -/
theorem commandsAnswerAndLeaveTheQueue : Obligations.CommandsAnswerAndLeaveTheQueue := by
  unfold Obligations.CommandsAnswerAndLeaveTheQueue
  refine ⟨fun c s => ?_, fun c s t ht => (kept_of_exec (Kept.view s) ht).1⟩
  obtain ⟨t, ht, -⟩ := exec_kept c (Kept.view s)
  exact ⟨t, ht⟩

/-- Settles O3: the canonical form of memory is part of what a step keeps. -/
theorem stepKeepsMemoryCanonical : Obligations.StepKeepsMemoryCanonical := by
  unfold Obligations.StepKeepsMemoryCanonical
  intro s t hs ht
  obtain ⟨-, -, hmem, -⟩ := kept_of_step ht
  exact hmem hs

/-- Settles O4: the canonical form of the dictionary is part of what a step keeps. -/
theorem stepKeepsDictionaryCanonical : Obligations.StepKeepsDictionaryCanonical := by
  unfold Obligations.StepKeepsDictionaryCanonical
  intro s t hs ht
  obtain ⟨-, hdict, -⟩ := kept_of_step ht
  exact hdict hs

/-- Settles O5: the counts of the wear record are part of what a step keeps. -/
theorem wearCountsNeverFall : Obligations.WearCountsNeverFall := by
  unfold Obligations.WearCountsNeverFall
  intro s t hs ht
  obtain ⟨-, -, -, hcommits, hopens⟩ := kept_of_step ht
  obtain ⟨hc, hc'⟩ := hcommits hs
  obtain ⟨ho, ho'⟩ := hopens hs
  exact ⟨⟨hc', ho'⟩, hc, ho⟩

/-- Settles O1: the two cases of `step`. -/
theorem stepRunsFrontCommand : Obligations.StepRunsFrontCommand := by
  unfold Obligations.StepRunsFrontCommand
  refine ⟨fun c r s hp => ?_, fun s hp => ?_⟩ <;> unfold step <;> rw [hp]

/-- Settles O6: the state after reset lists no byte and no entry, and has counted nothing. -/
theorem resetIsCanonical : Obligations.ResetIsCanonical := by
  unfold Obligations.ResetIsCanonical State.dictOk
  exact ⟨rfl, by decide, by decide, rfl⟩

end Sys2Proof.Machine
end

