-- ==== Sys2Proof/Proofs/Instructions.lean ====
section
/-!
PROOF. What a strand does at its PC (R207, R209), and its instructions (R210–R216, R225–R228, R237–R239): a strand that stands
at a word executes it, and each instruction is then its own operation.
-/

namespace Sys2Proof.Machine

/-! ### The sequencer table -/

theorem getSeq_setStrand_some (s : State) (q r : Nat) (st : Strand) :
    getSeq (setStrand s q (some st)) r = if r = q then { getSeq s q with strand := some st } else getSeq s r :=
  tget_tset_new fun h => nomatch congrArg Seqr.strand h

theorem getStrand_setStrand_some (s : State) (q : Nat) (st : Strand) : getStrand (setStrand s q (some st)) q = some st := by
  simp [getStrand, getSeq_setStrand_some]

/-- A unit runs or not whatever strand its sequencer holds. -/
theorem seqRuns_setStrand_some (s : State) (q : Nat) (st : Strand) :
    seqRuns (setStrand s q (some st)) q = seqRuns s q := by
  have hf : (getSeq (setStrand s q (some st)) q).fenced = (getSeq s q).fenced := by simp [getSeq_setStrand_some]
  simp only [seqRuns, hf]
  rfl

/-! ### A strand at its PC -/

section arrive

variable {s : State} {q : Nat} {st : Strand}

theorem arrive_misaligned (h : getStrand s q = some st) (hpc : st.pc.toNat % 8 ≠ 0) : arrive s q = endStrand s q 0x03 := by
  simp [arrive, h, hpc]

theorem arrive_illegal {w : Nat} (h : getStrand s q = some st) (hpc : st.pc.toNat % 8 = 0) (hw : st.word = some w)
    (hl : legalWord w = false) : arrive s q = endStrand s q 0x02 := by
  simp [arrive, h, hpc, hw, hl]

/-- The buffer with the atom at the PC moved to its front. -/
def Strand.touched (st : Strand) : List (Nat × List Byte) :=
  st.ibuf.filter (fun p => p.1 == st.pc.toNat / 64) ++ st.ibuf.filter (fun p => p.1 != st.pc.toNat / 64)

theorem Strand.touched_perm (st : Strand) : st.touched.Perm st.ibuf := List.filter_append_perm _ _

theorem arrive_legal {w : Nat} (h : getStrand s q = some st) (hpc : st.pc.toNat % 8 = 0) (hw : st.word = some w)
    (hl : legalWord w = true) : arrive s q = setStrand s q (some { st with ibuf := st.touched }) := by
  simp [arrive, h, hpc, hw, hl, Strand.touched]

theorem arrive_fetch (h : getStrand s q = some st) (hpc : st.pc.toNat % 8 = 0) (hw : st.word = none) :
    arrive s q = seqRequest (setStrand s q (some { st with wait := .fetch (st.pc.toNat / 64) })) q
      (st.pc.toNat / 64 * 64) 64 none := by
  simp [arrive, h, hpc, hw]

end arrive

/-- Settles O14: the four cases of `arrive`. -/
theorem strandReachesPc : Obligations.StrandReachesPc := by
  unfold Obligations.StrandReachesPc
  refine ⟨fun s q st h => arrive_misaligned h, fun s q st w h => arrive_illegal h, fun s q st w h hpc hw hl => ?_,
    fun s q st h => arrive_fetch h⟩
  exact ⟨st.touched, st.touched_perm.length_eq, fun p => st.touched_perm.mem_iff, arrive_legal h hpc hw hl⟩

/-! ### Executing the word at the PC -/

theorem takeHit_unarmed {s : State} (h : s.flt.armed = []) (utype unit : Nat) (mechs : List Mech)
    (loc : Nat × Nat := (0, 0)) : takeHit s utype unit mechs none loc = (none, s) := by
  simp [takeHit, takeArmed, h]

/-- A strand that stands at the word executes it. -/
theorem execWord_at {s : State} {q : SeqId} {st : Strand} {w : Nat} (h : atWord s q st w) (f : State → Strand → State) :
    execWord s q.val w f = f s st := by
  obtain ⟨hst, hruns, hwait, hstop, hword, harmed⟩ := h
  simp [execWord, hst, hruns, hwait, hstop, hword, takeHit_unarmed harmed]

/-- A command whose operation is `execWord` completes in what the instruction does. -/
theorem completes_at {s t : State} {q : SeqId} {st : Strand} {w : Nat} {i : Instr} (h : atWord s q st w)
    (f : State → Strand → State) (hi : exec i s = .next (execWord s q.val w f)) (ht : f s st = t) : Completes i s t := by
  rw [execWord_at h, ht] at hi
  exact hi

/-! ### Scalar instructions -/

@[simp] theorem Strand.setReg_pc (st : Strand) (r : Nat) (v : Word) : (st.setReg r v).pc = st.pc := by
  unfold Strand.setReg
  split <;> rfl

theorem next_setReg (s : State) (q : Nat) (st : Strand) (r : Nat) (v : Word) :
    next s q (st.setReg r v) = goTo s q (st.setReg r v) (st.pc + 8) := by
  rw [next, Strand.setReg_pc]

theorem toNat_seth (imm : BitVec 32) (r : Word) :
    (BitVec.ofNat 64 (imm.toNat * 2 ^ 32 + r.toNat % 2 ^ 32)).toNat = imm.toNat * 2 ^ 32 + r.toNat % 2 ^ 32 := by
  have := imm.isLt
  rw [BitVec.toNat_ofNat]
  omega

theorem loopInstr_taken {s : State} {q dst : Nat} {st : Strand} {imm : BitVec 32} (hd : dst ≠ 0) (hr : st.reg dst ≠ 1) :
    loopInstr s q st dst imm = goTo s q (st.setReg dst (st.reg dst - 1)) (brTarget st.pc imm) := by
  have hne : st.reg dst - 1 ≠ 0 := fun h => hr (by bv_omega)
  have hreg : (st.setReg dst (st.reg dst - 1)).reg dst = st.reg dst - 1 :=
    (st.reg_setReg_of_ne_zero hd hne dst).trans (if_pos rfl)
  exact if_pos fun h => hne (hreg.symm.trans h)

/-- Settles O16: each instruction writes its register and goes where R210 sends it. -/
theorem scalarInstructionsComplete : Obligations.ScalarInstructionsComplete := by
  unfold Obligations.ScalarInstructionsComplete
  refine ⟨fun s q st dst imm h => completes_at h _ rfl (next_setReg ..), fun s q st dst imm h => ?_,
    fun s q st fn dst a b h => completes_at h _ rfl (next_setReg ..),
    fun s q st fn dst a imm h => completes_at h _ rfl (next_setReg ..),
    fun s q st cond a b imm h => completes_at h _ rfl (apply_ite (goTo s q.val st) _ _ _).symm, 
    fun s q st dst imm hd h hr => completes_at h _ rfl (loopInstr_taken (fun h0 => hd (Fin.ext h0)) hr),
    fun s q st dst imm hd h => ?_,
    fun s q st dst imm h => completes_at h _ rfl rfl, fun s q st a h => completes_at h _ rfl rfl⟩
  · have hv := toNat_seth imm (st.reg dst.val)
    refine ⟨_, ?_, ?_, completes_at h _ rfl (next_setReg ..)⟩ <;> omega
  · subst hd
    exact completes_at h _ rfl rfl

/-! ### Loads, stores and ladder reads -/

theorem ladrInstr_read {s s1 : State} {q fn dst : Nat} {st : Strand} {slot : Word} {b : List Byte}
    (hs : slot.toNat < (strandJob s st).slotCount) (hf : fn ≠ 9)
    (hr : devRead s (seqVia s.mem q) false ((strandJob s st).slotTable + 64 * slot.toNat) 64 = (.ok b, s1)) :
    ladrInstr s q st slot fn dst =
      goTo s1 q (st.setReg dst (if fn = 8 then ladrRung b (seqStorm s1 q) else BitVec.ofNat 64 (leField b (8 * fn) 8)))
        (st.pc + 8) := by
  simp [ladrInstr, Nat.not_le.mpr hs, hf, hr, next_setReg]

theorem ladrInstr_storm {s : State} {q dst : Nat} {st : Strand} {slot : Word} (hs : slot.toNat < (strandJob s st).slotCount) :
    ladrInstr s q st slot 9 dst = goTo s q (st.setReg dst (if s.storm.active then 1 else 0)) (st.pc + 8) := by
  simp [ladrInstr, Nat.not_le.mpr hs, next_setReg]

/-- Settles O17: an access goes out at an aligned address and ends the strand at any other; LADR is `ladrInstr_read`. -/
theorem memoryInstructionsComplete : Obligations.MemoryInstructionsComplete := by
  unfold Obligations.MemoryInstructionsComplete
  refine ⟨fun s q st dst a imm h ha => completes_at h _ rfl (if_neg (not_not_intro ha)),
    fun s q st a b imm h ha => completes_at h _ rfl (if_neg (not_not_intro ha)),
    fun s q st dst a b imm ha => ⟨fun h => completes_at h _ rfl (if_pos ha), fun h => completes_at h _ rfl (if_pos ha)⟩,
    fun s q st fn dst a imm bs s1 h hf hs hr => ?_, fun s q st fn dst a imm bs s1 h hf hs hr => ?_,
    fun s q st fn dst a imm h hf hs => completes_at h _ rfl ?_⟩
  · refine completes_at h _ rfl ((ladrInstr_read hs (by omega) hr).trans ?_)
    rw [if_neg (by omega)]
  · refine completes_at h _ rfl ((ladrInstr_read hs (by omega) hr).trans ?_)
    rw [if_pos hf]
  · rw [hf]
    exact ladrInstr_storm hs

/-! ### Knots -/

section knots

variable {s : State} {q : Nat} {st : Strand} {n : Word}

/-- The knot that a number of the job names, for an instruction that takes any die. -/
theorem knotOf_any (hn : n.toNat < 2 ^ 14) (hk : n.toNat % 4096 < (strandJob s st).knotCount) :
    knotOf s st n false = some (n.toNat / 4096, (strandJob s st).knotBase + n.toNat % 4096) := by
  have hlt : ¬ n.toNat ≥ 2 ^ 14 := Nat.not_le.mpr hn
  simp only [knotOf, knotInJob, hlt, hk, decide_true, if_false, Bool.not_true, Bool.false_and, Bool.false_eq_true]

theorem knotOf_own (hn : n.toNat < 4096) (hk : n.toNat < (strandJob s st).knotCount) :
    knotOf s st n true = some (0, (strandJob s st).knotBase + n.toNat) := by
  have hlt : ¬ 2 ^ 14 ≤ n.toNat := by omega
  simp only [knotOf, knotInJob, ge_iff_le, hlt, Nat.mod_eq_of_lt hn, Nat.div_eq_of_lt hn, hk, Nat.not_le.mpr hn, decide_true,
    decide_false, if_false, Bool.not_true, Bool.and_false, Bool.false_eq_true]

/-- A number outside the job's knots names none. -/
theorem knotOf_outside (own : Bool) (hn : 2 ^ 14 ≤ n.toNat ∨ (strandJob s st).knotCount ≤ n.toNat % 4096) :
    knotOf s st n own = none := by
  obtain hn | hn := hn
  · exact if_pos hn
  · simp [knotOf, knotInJob, Nat.not_lt.mpr hn]

/-- Neither does one of another die, for WAIT and KRD. -/
theorem knotOf_own_outside (hn : 4096 ≤ n.toNat ∨ (strandJob s st).knotCount ≤ n.toNat) : knotOf s st n true = none := by
  by_cases h : 4096 ≤ n.toNat
  · simp [knotOf, h]
  · exact knotOf_outside true (.inr (by omega))

theorem toNat_knotNumber (n : Word) : (n &&& 0xFFF).toNat = n.toNat % 4096 := by
  rw [BitVec.toNat_and]
  exact Nat.and_two_pow_sub_one_eq_mod n.toNat 12

theorem stopHeld_none (hh : st.hold = none) : stopHeld s q st = none := by
  simp [stopHeld, hh]

theorem stopHeld_some {c : Nat} (hh : st.hold = some c) :
    stopHeld s q st = some (seqEvent (setStrand s q (some { st with stopped := true })) q st 2 c st.pc.toNat) := by
  simp [stopHeld, hh]

/-- TIE and KSET of a strand that is not held, at a knot of the job. -/
theorem knotInstr_sent {bc isSet : Bool} {v : Nat} (hh : st.hold = none) (hn : n.toNat < 2 ^ 14)
    (hk : n.toNat % 4096 < (strandJob s st).knotCount) :
    knotInstr s q st n bc isSet v =
      goTo (knotUpdate s (seqSource q) (if bc then 0 else n.toNat / 4096) ((strandJob s st).knotBase + n.toNat % 4096) bc
        isSet (v % 2 ^ 32) none (some (st.queue, st.entry))) q st (st.pc + 8) := by
  cases bc
  case false => simp [knotInstr, stopHeld_none hh, knotOf_any hn hk, next]
  case true =>
    have hlow : (n &&& 0xFFF).toNat % 4096 = n.toNat % 4096 := by rw [toNat_knotNumber]; omega
    have hdie : (n &&& 0xFFF).toNat / 4096 = 0 := by rw [toNat_knotNumber]; omega
    have hknot : knotOf s st (n &&& 0xFFF) false = some (0, (strandJob s st).knotBase + n.toNat % 4096) := by
      rw [knotOf_any (by rw [toNat_knotNumber]; omega) (by rwa [hlow]), hlow, hdie]
    simp only [knotInstr, stopHeld_none hh, hn, decide_true, Bool.and_self, if_true, hknot, next]

theorem knotInstr_outside {bc isSet : Bool} {v : Nat} (hh : st.hold = none)
    (hn : 2 ^ 14 ≤ n.toNat ∨ (strandJob s st).knotCount ≤ n.toNat % 4096) :
    knotInstr s q st n bc isSet v = endStrand s q 0x05 := by
  have hnone : knotOf s st (if bc && decide (n.toNat < 2 ^ 14) then n &&& 0xFFF else n) false = none := by
    split
    next hb =>
      have hlow : (n &&& 0xFFF).toNat % 4096 = n.toNat % 4096 := by rw [toNat_knotNumber]; omega
      simp only [Bool.and_eq_true, decide_eq_true_eq] at hb
      exact knotOf_outside false (.inr (by omega))
    next => exact knotOf_outside false hn
  simp only [knotInstr, stopHeld_none hh, hnone]

theorem knotInstr_held {bc isSet : Bool} {v c : Nat} (hh : st.hold = some c) :
    knotInstr s q st n bc isSet v = seqEvent (setStrand s q (some { st with stopped := true })) q st 2 c st.pc.toNat := by
  simp only [knotInstr, stopHeld_some hh]

theorem waitInstr_held {t c : Nat} (hh : st.hold = some c) :
    waitInstr s q st n t = seqEvent (setStrand s q (some { st with stopped := true })) q st 2 c st.pc.toNat := by
  simp only [waitInstr, stopHeld_some hh]

theorem waitInstr_storm {t : Nat} (hh : st.hold = none) (hs : stormHolds s q = true) :
    waitInstr s q st n t = if st.stormStop then s
      else seqEvent (setStrand s q (some { st with stormStop := true })) q st 2 2 st.pc.toNat := by
  simp only [waitInstr, stopHeld_none hh, hs, if_true]

theorem waitInstr_outside {t : Nat} (hh : st.hold = none) (hs : stormHolds s q = false)
    (hn : 4096 ≤ n.toNat ∨ (strandJob s st).knotCount ≤ n.toNat) : waitInstr s q st n t = endStrand s q 0x05 := by
  simp [waitInstr, stopHeld_none hh, hs, knotOf_own_outside hn]

/-- WAIT of a strand that is not held, at a knot of its own die. -/
theorem waitInstr_knot {t k : Nat} (hh : st.hold = none) (hs : stormHolds s q = false) (hn : n.toNat < 4096)
    (hc : n.toNat < (strandJob s st).knotCount) (hk : k = (strandJob s st).knotBase + n.toNat) :
    waitInstr s q st n (t % 2 ^ 32) =
      if knotLost s (seqDie q) k then
        setStrand s q (some { st with stormStop := false, wait := .knot k (t % 2 ^ 32), hold := some 1 })
      else if reached (knotVal s (seqDie q) k) (t % 2 ^ 32) then goTo s q { st with stormStop := false } (st.pc + 8)
      else setStrand s q (some { st with stormStop := false, wait := .knot k (t % 2 ^ 32) }) := by
  subst hk
  simp only [waitInstr, stopHeld_none hh, hs, knotOf_own hn hc, hh, Nat.mod_mod, Option.getD_none, next]
  cases knotLost s (seqDie q) ((strandJob s st).knotBase + n.toNat) <;> simp

theorem krdInstr_outside {dst : Nat} (hn : 4096 ≤ n.toNat ∨ (strandJob s st).knotCount ≤ n.toNat) :
    krdInstr s q st n dst = endStrand s q 0x05 := by
  simp [krdInstr, knotOf_own_outside hn]

theorem krdInstr_knot {dst k : Nat} (hn : n.toNat < 4096) (hc : n.toNat < (strandJob s st).knotCount)
    (hk : k = (strandJob s st).knotBase + n.toNat) :
    krdInstr s q st n dst =
      if knotLost s (seqDie q) k then
        goTo { s with free := s.free + 1 } q
          { st.setReg dst (BitVec.ofNat 64 (Config.freeNat s.free % 2 ^ 32)) with hold := some (st.hold.getD 1) } (st.pc + 8)
      else goTo s q (st.setReg dst (BitVec.ofNat 64 (knotVal s (seqDie q) k))) (st.pc + 8) := by
  subst hk
  simp only [krdInstr, knotOf_own hn hc, next_setReg]
  simp only [next, Strand.setReg_pc]
  rfl

end knots

theorem bitOf_bcast (fn : Fin 2048) : bitOf fn.val 10 = decide (1024 ≤ fn.val) := by
  have := fn.isLt
  rw [Bool.eq_iff_iff, bitOf, beq_iff_eq, decide_eq_true_iff]
  omega

/-- Settles O18: held strands by `stopHeld`, numbers by `knotOf`, and the value of the knot decides the rest. -/
theorem knotInstructionsComplete : Obligations.KnotInstructionsComplete := by
  unfold Obligations.KnotInstructionsComplete
  refine ⟨fun s q st fn a b imm n h hh hn => ⟨fun h14 hc => completes_at h _ rfl ?_, fun ho => ?_⟩,
    fun s q st bc a b imm n h hh hn => ⟨fun h14 hc => completes_at h _ rfl ?_, fun ho => ?_⟩,
    fun s q st a b imm n k h hh hs hn h12 hc hk hl hr => completes_at h _ rfl ?_,
    fun s q st a b imm n k h hh hs hn h12 hc hk hl hr => completes_at h _ rfl ?_,
    fun s q st a b imm n k h hh hs hn => ⟨fun h12 hc hk hl => completes_at h _ rfl ?_, fun ho => ?_⟩,
    fun s q st a b imm h hh hs => ⟨fun hst => completes_at h _ rfl ?_, fun hst => completes_at h _ rfl ?_⟩,
    fun s q st dst a imm n k h hn => ⟨fun h12 hc hk => ⟨fun hl => completes_at h _ rfl ?_, fun hl => ?_⟩, fun ho => ?_⟩,
    fun s q st c a b fn bc imm hh => ⟨fun h => ?_, fun h => ?_, fun h => ?_⟩⟩
  · subst hn
    refine (knotInstr_sent hh h14 hc).trans ?_
    have hval : (if fn.val % 1024 = 0 then (st.reg b.val).toNat else fn.val % 1024) % 2 ^ 32
        = if fn.val % 1024 = 0 then (st.reg b.val).toNat % 2 ^ 32 else fn.val % 1024 := by split <;> omega
    rw [hval, bitOf_bcast]
    by_cases hf : 1024 ≤ fn.val
    · simp [hf, Nat.not_lt.mpr hf]
    · simp [hf, Nat.not_le.mp hf]
  · exact completes_at h _ rfl (knotInstr_outside hh (hn ▸ ho))
  · subst hn
    exact knotInstr_sent hh h14 hc
  · exact completes_at h _ rfl (knotInstr_outside hh (hn ▸ ho))
  · subst hn
    refine (waitInstr_knot hh hs h12 hc hk).trans ?_
    rw [if_neg (by simp [hl]), if_pos hr]
  · subst hn
    refine (waitInstr_knot hh hs h12 hc hk).trans ?_
    rw [if_neg (by simp [hl]), hr, if_neg Bool.false_ne_true]
  · subst hn
    exact (waitInstr_knot hh hs h12 hc hk).trans (if_pos hl)
  · exact completes_at h _ rfl (waitInstr_outside hh hs (hn ▸ ho))
  · exact (waitInstr_storm hh hs).trans (if_neg (by simp [hst]))
  · exact (waitInstr_storm hh hs).trans (if_pos hst)
  · subst hn
    exact (krdInstr_knot h12 hc hk).trans (if_neg (by simp [hl]))
  · subst hn
    exact ⟨_, Nat.mod_lt _ (by decide), completes_at h _ rfl ((krdInstr_knot h12 hc hk).trans (if_pos hl))⟩
  · exact completes_at h _ rfl (krdInstr_outside (hn ▸ ho))
  · exact completes_at h _ rfl (knotInstr_held hh)
  · exact completes_at h _ rfl (knotInstr_held hh)
  · exact completes_at h _ rfl (waitInstr_held hh)

/-! ### Operations, seal waits, events and yields -/

section issue

variable {s : State} {q : Nat} {st : Strand}

theorem issueInstr_issued {s1 : State} {addr : Word} {dst : Nat} (hf : st.flights < 16)
    (hq : q < 512 ∨ s.ck.issueHold = false)
    (hi : issueAt s (seqVia s.mem q) (strandJob s st) (strandIssuer s q st) addr.toNat = (.issued, s1)) :
    issueInstr s q st addr dst = goTo s1 q
      (({ st with nextTag := tagAfter st.nextTag, tags := st.tags ++ [{ tag := st.nextTag }] } : Strand).setReg dst
        (BitVec.ofNat 64 st.nextTag)) (st.pc + 8) := by
  have hhold : (decide (q ≥ 512) && s.ck.issueHold) = false := by
    obtain hq | hq := hq
    · simp [Nat.not_le.mpr hq]
    · simp [hq]
  simp [issueInstr, Nat.not_le.mpr hf, hhold, hi, next_setReg]

/-- A seal wait that waits for nothing in flight is over at once. -/
theorem sealOver_of_done {l : List Nat} {all : Bool} {dst : Nat} (hr : seqRuns s q = true) (hw : st.wait = .seal l all dst)
    (hl : ∀ t ∈ l, ∀ k, st.tag t = some k → k.inFlight = false) :
    sealOver (setStrand s q (some st)) q = goTo (setStrand s q (some st)) q
      (st.setReg dst (BitVec.ofNat 64 (statusWord (if all then 0 else l.headD 0) (st.combined l)))) (st.pc + 8) := by
  have hany : l.any (fun t => match st.tag t with | some k => k.inFlight | none => false) = false := by
    rw [List.any_eq_false]
    intro t ht
    cases hk : st.tag t with
    | none => simp
    | some k => simp [hl t ht k hk]
  simp only [sealOver, getStrand_setStrand_some, hw, seqRuns_setStrand_some, hr, next_setReg, Bool.not_true, Bool.false_or]
  exact if_neg (ne_true_of_eq_false hany)

theorem sealTag_stale {t dst : Nat} (ht : st.tag t = none) :
    sealTag s q st t dst = goTo s q (st.setReg dst (BitVec.ofNat 64 (statusWord t 0x0F))) (st.pc + 8) := by
  simp [sealTag, ht, next_setReg, staleStatus]

theorem sealTag_done {t dst : Nat} {k : TagSt} (hr : seqRuns s q = true) (ht : st.tag t = some k) (hk : k.inFlight = false) :
    sealTag s q st t dst = goTo (setStrand s q (some { st with wait := .seal [t] false dst })) q
      (({ st with wait := .seal [t] false dst } : Strand).setReg dst
        (BitVec.ofNat 64 (statusWord t (combineStatus 0 k.status)))) (st.pc + 8) := by
  have hdone : ∀ u ∈ [t], ∀ j, ({ st with wait := .seal [t] false dst } : Strand).tag u = some j → j.inFlight = false := by
    intro u hu j hj
    rw [List.mem_singleton.mp hu] at hj
    exact Option.some.inj (ht.symm.trans hj) ▸ hk
  have hcomb : ({ st with wait := .seal [t] false dst } : Strand).combined [t] = combineStatus 0 k.status := by
    have ht' : ({ st with wait := .seal [t] false dst } : Strand).tag t = some k := ht
    simp [Strand.combined, ht']
  simp only [sealTag, ht]
  rw [sealOver_of_done hr rfl hdone, hcomb]
  rfl

theorem sealAll_idle {dst : Nat} (hr : seqRuns s q = true) (hf : st.flights = 0) :
    sealAll s q st dst = goTo (setStrand s q (some { st with wait := .seal [] true dst })) q
      (({ st with wait := .seal [] true dst } : Strand).setReg dst 0) (st.pc + 8) := by
  have hnil : (st.tags.filter (·.inFlight)).map (·.tag) = [] := by
    rw [List.eq_nil_of_length_eq_zero hf]
    rfl
  simp only [sealAll, hnil]
  rw [sealOver_of_done hr rfl (fun t ht => absurd ht List.not_mem_nil)]
  rfl

theorem endStrand_running {code : Nat} (h : getStrand s q = some st) :
    endStrand s q code = reportEnd (setStrand s q none) q st code st.pc.toNat 0 := by
  simp [endStrand, h]

theorem getStrand_setStrand_none (h : twf ({} : Seqr) s.seqs = true) : getStrand (setStrand s q none) q = none := by
  have hget : getSeq (setStrand s q none) q = { getSeq s q with strand := none } := by
    refine (tget_tset _ _ _ _ _ h).trans (if_pos rfl)
  rw [getStrand, hget]

theorem yieldInstr_full (hr : freeRecord s st.job (strandJob s st).saveCount = none) :
    yieldInstr s q st = goTo s q st (st.pc + 8) := by
  have hsave : saveStrand s q { st with pc := st.pc + 8 } = none := by
    have hr' : freeRecord s st.job (strandJob s { st with pc := st.pc + 8 }).saveCount = none := hr
    simp only [saveStrand, hr']
  simp only [yieldInstr, hsave, next]

/-- YIELD with a free record whose write is served at once. -/
theorem yieldInstr_saved {s1 : State} {r : Nat} (hr : freeRecord s st.job (strandJob s st).saveCount = some r)
    (hw : devWrite s (seqVia s.mem q) false ((strandJob s st).saveBase + 512 * r)
      (saveBytes s q { st with pc := st.pc + 8 }) = (none, s1)) :
    yieldInstr s q st = { setStrand s1 q none with
      saved := s1.saved ++ [{ seq := q, record := r, strand := { st with pc := st.pc + 8, ibuf := [], waited := 0 },
                              stamp := s1.q.stamp }]
      q := { s1.q with stamp := s1.q.stamp + 1 } } := by
  have hrec : writeRecord s q ((strandJob s { st with pc := st.pc + 8 }).saveBase + 512 * r)
      (saveBytes s q { st with pc := st.pc + 8 }) = s1 := by
    have hw' : devWrite s (seqVia s.mem q) false ((strandJob s { st with pc := st.pc + 8 }).saveBase + 512 * r)
        (saveBytes s q { st with pc := st.pc + 8 }) = (none, s1) := hw
    unfold writeRecord
    rw [hw']
  have hr' : freeRecord s st.job (strandJob s { st with pc := st.pc + 8 }).saveCount = some r := hr
  simp only [yieldInstr, saveStrand, hr', hrec]

end issue

/-- Settles O19: each instruction is its lemma above; a save changes no table but that of the sequencers (`MemOnly`). -/
theorem operationAndEventInstructionsComplete : Obligations.OperationAndEventInstructionsComplete := by
  unfold Obligations.OperationAndEventInstructionsComplete
  refine ⟨fun s s1 q st dst a imm h hf hq hi => ?_, fun s q st dst a h ht => completes_at h _ rfl (sealTag_stale ht),
    fun s q st dst a k h ht hk => ?_, fun s q st dst a h hf => ?_, fun s q st a code h => completes_at h _ rfl rfl,
    fun s s1 q st r hseqs h hr hw => ?_, fun s q st h hr => completes_at h _ rfl (yieldInstr_full hr),
    fun s q st h => completes_at h _ rfl (endStrand_running h.1), fun s q st a h => ⟨_, rfl, completes_at h _ rfl ?_⟩⟩
  · refine congrArg (fun t => Host.Outcome.next (pump t)) ?_
    rw [execWord_at h]
    exact issueInstr_issued hf hq hi
  · have hruns := h.2.1
    exact ⟨_, _, completes_at h _ rfl (sealTag_done hruns ht hk), rfl, rfl, rfl⟩
  · have hruns := h.2.1
    exact ⟨_, _, completes_at h _ rfl (sealAll_idle hruns hf), rfl, rfl, rfl⟩
  · have hmem : MemOnly s s1 := .snd hw (devWrite_memOnly (.refl s))
    refine ⟨_, _, completes_at h _ rfl (yieldInstr_saved hr hw), ?_, by rw [hmem.saved], rfl, rfl, rfl, rfl, rfl⟩
    exact getStrand_setStrand_none (by rw [hmem.seqs]; exact hseqs)
  · rw [yieldError, endStrand_running h.1]

end Sys2Proof.Machine
end

