-- ==== Sys2Proof/Proofs/HostSide.lean ====
section
/-!
PROOF. What the queue engine's work changes: memory, free values, the dictionary, events, ember messages, knot updates, jobs, the
queues, and what goes to the host. `HostSide u t` says that `t` is `u` in all else; a lemma `f_hostSide` says it of `f`.
-/

namespace Sys2Proof.Machine

set_option linter.unusedSimpArgs false

/-- A state without what the queue engine changes. -/
def State.hostless (s : State) : State :=
  { s with free := 0, dict := [], mem := {}, ev := {}, flt := {}, knotq := [], jobs := [], q := {}, ck := {}, heldHost
    := [], out := [] }

/-- All but what the queue engine changes is as in `u`. -/
def HostSide (u t : State) : Prop := t.hostless = u.hostless

variable {v : State}

/-- `HostSide` of a state's fields. -/
def HostSideC (v : State) (x_pending : List Instr) (x_knots : Tab Nat) (x_knotsLost : List Nat) (x_engines : Tab
    Engine) (x_ops : Tab (Option OpRec)) (x_nextOp : Nat) (x_raq : List RaReq) (x_storm : Storm) (x_reports : List
    Report) (x_gens : Tab Gen) (x_tlines : Tab (List TLine)) (x_tin : Tab (List TLine)) (x_tout : Tab (List TLine))
    (x_swapJob : Option Nat) (x_swapped : List Nat) (x_seqs : Tab Seqr) (x_saved : List Saved) (x_pcie : PcieFn) (x_pw
    : PwSys) (x_cord : CordSys) (x_snap : SnapSys) (x_rst : RstSys) (x_flash : FlashSys) (x_dsys : DictSys) (x_sec :
    SecSys) (x_d3 : Bool) : Prop :=
  State.mk x_pending 0 [] {} {} {} [] x_knots x_knotsLost x_engines x_ops x_nextOp [] x_raq x_storm x_reports x_gens
    x_tlines x_tin x_tout x_swapJob x_swapped x_seqs x_saved {} x_pcie x_pw x_cord {} x_snap x_rst x_flash x_dsys
    x_sec x_d3 [] [] = v.hostless

theorem HostSide.mk_iff x_pending x_free x_dict x_mem x_ev x_flt x_knotq x_knots x_knotsLost x_engines x_ops x_nextOp
    x_jobs x_raq x_storm x_reports x_gens x_tlines x_tin x_tout x_swapJob x_swapped x_seqs x_saved x_q x_pcie x_pw
    x_cord x_ck x_snap x_rst x_flash x_dsys x_sec x_d3 x_heldHost x_out :
    HostSide v (State.mk x_pending x_free x_dict x_mem x_ev x_flt x_knotq x_knots x_knotsLost x_engines x_ops x_nextOp
      x_jobs x_raq x_storm x_reports x_gens x_tlines x_tin x_tout x_swapJob x_swapped x_seqs x_saved x_q x_pcie x_pw
      x_cord x_ck x_snap x_rst x_flash x_dsys x_sec x_d3 x_heldHost x_out) =
      HostSideC v x_pending x_knots x_knotsLost x_engines x_ops x_nextOp x_raq x_storm x_reports x_gens x_tlines x_tin
      x_tout x_swapJob x_swapped x_seqs x_saved x_pcie x_pw x_cord x_snap x_rst x_flash x_dsys x_sec x_d3 :=
  Eq.trans rfl rfl

theorem HostSide.c {s : State} (h : HostSide v s) : HostSideC v s.pending s.knots s.knotsLost s.engines s.ops s.nextOp
    s.raq s.storm s.reports s.gens s.tlines s.tin s.tout s.swapJob s.swapped s.seqs s.saved s.pcie s.pw s.cord s.snap
    s.rst s.flash s.dsys s.sec s.d3 := h

theorem HostSide.refl (s : State) : HostSide s s := rfl

theorem HostSide.trans {s t u : State} (h : HostSide s t) (h' : HostSide t u) : HostSide s u := Eq.trans h' h

/-- Reading and writing memory is within it. -/
theorem MemOnly.hostSide {s t : State} (h : MemOnly s t) : HostSide s t :=
  (congrArg State.hostless h : t.outside.hostless = s.outside.hostless)

theorem HostSide.snd {α : Type} {r : α × State} {x : α} {t : State} (e : r = (x, t)) (h : HostSide v r.2) : HostSide v t := by
  subst e; exact h

theorem HostSide.fst {α : Type} {r : State × α} {x : α} {t : State} (e : r = (t, x)) (h : HostSide v r.1) : HostSide v t := by
  subst e; exact h

theorem HostSide.foldl {α : Type} {f : State → α → State} {l : List α} {s : State}
    (hf : ∀ t x, HostSide v t → HostSide v (f t x)) (h : HostSide v s) : HostSide v (l.foldl f s) := by
  induction l generalizing s with
  | nil => exact h
  | cons x r ih => exact ih (hf s x h)

/-- Of an outcome that may be none. -/
def HostSideO (v : State) (o : Option State) : Prop := ∀ t, o = some t → HostSide v t

theorem HostSideO.use {o : Option State} {t : State} (e : o = some t) (h : HostSideO v o) : HostSide v t := h t e
theorem HostSideO.none : HostSideO v none := fun _ e => nomatch e
theorem HostSideO.some {t : State} (h : HostSide v t) : HostSideO v (some t) := fun _ e => by cases e; exact h

theorem HostSide.seqs {s t : State} (h : HostSide s t) : t.seqs = s.seqs :=
  (congrArg State.seqs h : t.hostless.seqs = s.hostless.seqs)

theorem HostSide.saved {s t : State} (h : HostSide s t) : t.saved = s.saved :=
  (congrArg State.saved h : t.hostless.saved = s.hostless.saved)

theorem HostSide.knots {s t : State} (h : HostSide s t) : t.knots = s.knots :=
  (congrArg State.knots h : t.hostless.knots = s.hostless.knots)

theorem HostSide.engines {s t : State} (h : HostSide s t) : t.engines = s.engines :=
  (congrArg State.engines h : t.hostless.engines = s.hostless.engines)

theorem HostSide.ops {s t : State} (h : HostSide s t) : t.ops = s.ops :=
  (congrArg State.ops h : t.hostless.ops = s.hostless.ops)

theorem HostSide.storm {s t : State} (h : HostSide s t) : t.storm = s.storm :=
  (congrArg State.storm h : t.hostless.storm = s.hostless.storm)

theorem HostSide.d3 {s t : State} (h : HostSide s t) : t.d3 = s.d3 :=
  (congrArg State.d3 h : t.hostless.d3 = s.hostless.d3)

theorem HostSide.pw {s t : State} (h : HostSide s t) : t.pw = s.pw :=
  (congrArg State.pw h : t.hostless.pw = s.hostless.pw)

theorem HostSide.rst {s t : State} (h : HostSide s t) : t.rst = s.rst :=
  (congrArg State.rst h : t.hostless.rst = s.hostless.rst)

theorem HostSide.cord {s t : State} (h : HostSide s t) : t.cord = s.cord :=
  (congrArg State.cord h : t.hostless.cord = s.hostless.cord)

theorem HostSide.snap {s t : State} (h : HostSide s t) : t.snap = s.snap :=
  (congrArg State.snap h : t.hostless.snap = s.hostless.snap)

theorem devRead_hostSide {s : State} {a1 : Via} {bulk : Bool} {a : Nat} {n : Nat} (h : HostSide v s) : HostSide v
    (devRead s a1 bulk a n).2 :=
  h.trans (MemOnly.hostSide (devRead_memOnly (.refl s)))

theorem devWrite_hostSide {s : State} {a1 : Via} {bulk : Bool} {a : Nat} {b : List Byte} (h : HostSide v s) : HostSide
    v (devWrite s a1 bulk a b).2 :=
  h.trans (MemOnly.hostSide (devWrite_memOnly (.refl s)))

theorem dset_hostSide {s : State} {key : Nat} {a2 : Nat} (h : HostSide v s) :
    HostSide v (dset s key a2) := by
  unfold dset
  repeat' first
    | (with_reducible first | assumption | intro _ | apply HostSide.c)
    | (simp only [HostSide.mk_iff])
    | split

theorem dcount_hostSide {s : State} {key : Nat} {n : Nat} (h : HostSide v s) :
    HostSide v (dcount s key n) := by
  unfold dcount
  repeat' first
    | (with_reducible first | assumption | intro _ | apply dset_hostSide | apply HostSide.c)
    | (simp only [HostSide.mk_iff])
    | split

theorem drawFree_hostSide {s : State} (h : HostSide v s) :
    HostSide v (drawFree s).2 := by
  unfold drawFree
  repeat' first
    | (with_reducible first | assumption | intro _ | apply HostSide.c)
    | (simp only [HostSide.mk_iff])
    | split

theorem toHost_hostSide {s : State} {m : OutMsg} (h : HostSide v s) :
    HostSide v (toHost s m) := by
  unfold toHost
  repeat' first
    | (with_reducible first | assumption | intro _ | apply HostSide.c)
    | (simp only [HostSide.mk_iff])
    | split

theorem hubEvent_hostSide {s : State} {source : Nat} {code : Nat} {data : Nat} {kind : Nat} (h : HostSide v s) :
    HostSide v (hubEvent s source code data kind) := by
  unfold hubEvent
  repeat' first
    | (with_reducible first | assumption | intro _ | apply HostSide.c)
    | (simp only [HostSide.mk_iff])
    | split

theorem localEvent_hostSide {s : State} {ctl : Nat} {bit : Nat} {source : Nat} {kind : Nat} {code : Nat} {data : Nat}
    (h : HostSide v s) :
    HostSide v (localEvent s ctl bit source kind code data) := by
  unfold localEvent
  repeat' first
    | (with_reducible first | assumption | intro _ | apply HostSide.c)
    | (simp only [HostSide.mk_iff])
    | split

theorem sendKnot_hostSide {s : State} {m : KnotMsg} (h : HostSide v s) :
    HostSide v (sendKnot s m) := by
  unfold sendKnot
  repeat' first
    | (with_reducible first | assumption | intro _ | apply HostSide.c)
    | (simp only [HostSide.mk_iff])
    | split

theorem knotUpdate_hostSide {s : State} {src : Nat} {die : Nat} {knot : Nat} {bcast : Bool} {isSet : Bool} {val : Nat}
    {ent : Option Nat} {owner : Option (Nat × Nat)} (h : HostSide v s) :
    HostSide v (knotUpdate s src die knot bcast isSet val ent owner) := by
  unfold knotUpdate
  repeat' first
    | (with_reducible first | assumption | intro _ | apply sendKnot_hostSide | apply HostSide.c)
    | (simp only [HostSide.mk_iff])
    | split

theorem hubWriteFor_hostSide {s : State} {who : Requester} {bulk : Bool} {a : Nat} {b : List Byte} (h : HostSide v s)
    :
    HostSide v (hubWriteFor s who bulk a b).2 := by
  unfold hubWriteFor
  repeat' first
    | (with_reducible first | assumption | intro _ | apply dcount_hostSide | apply devWrite_hostSide | apply HostSide.c)
    | (with_reducible refine HostSide.snd (by assumption) ?_)
    | (simp only [HostSide.mk_iff])
    | split

theorem hubWrite_hostSide {s : State} {bulk : Bool} {a : Nat} {b : List Byte} (h : HostSide v s) :
    HostSide v (hubWrite s bulk a b).2 := by
  unfold hubWrite
  repeat' first
    | (with_reducible first | apply hubWriteFor_hostSide)
    | (with_reducible first | assumption | intro _ | apply devWrite_hostSide | apply HostSide.c)
    | (with_reducible refine HostSide.snd (by assumption) ?_)
    | (simp only [HostSide.mk_iff])
    | split

theorem hubWrites_hostSide {s : State} {bulk : Bool} {a2 : List (Nat × List Byte)} (h : HostSide v s) :
    HostSide v (hubWrites s bulk a2).2 := by
  induction a2 generalizing s bulk with
  | nil =>
    unfold hubWrites
    repeat' first
      | (with_reducible first | assumption | intro _ | apply hubWrite_hostSide | apply HostSide.c)
      | (with_reducible refine HostSide.snd (by assumption) ?_)
      | (simp only [HostSide.mk_iff])
      | split
  | cons x r ih =>
    unfold hubWrites
    repeat' first
      | (with_reducible first | assumption | intro _ | apply hubWrite_hostSide | apply ih | apply HostSide.c)
      | (with_reducible refine HostSide.snd (by assumption) ?_)
      | (simp only [HostSide.mk_iff])
      | split

theorem ctxWriteBack_hostSide {s : State} {q : Nat} {c : QCtx} (h : HostSide v s) :
    HostSide v (ctxWriteBack s q c) := by
  unfold ctxWriteBack
  repeat' first
    | (with_reducible first | assumption | intro _ | apply hubWrites_hostSide | apply HostSide.c)
    | (with_reducible refine HostSide.snd (by assumption) ?_)
    | (simp only [HostSide.mk_iff])
    | split

theorem putCtx_hostSide {s : State} {q : Nat} {c : QCtx} (h : HostSide v s) :
    HostSide v (putCtx s q c) := by
  unfold putCtx
  repeat' first
    | (with_reducible first | assumption | intro _ | apply ctxWriteBack_hostSide | apply HostSide.c)
    | (simp only [HostSide.mk_iff])
    | split

theorem loadCtx_hostSide {s : State} {q : Nat} (h : HostSide v s) :
    HostSide v (loadCtx s q).2 := by
  unfold loadCtx
  repeat' first
    | (with_reducible first | assumption | intro _ | apply putCtx_hostSide | apply devRead_hostSide | apply HostSide.c)
    | (with_reducible refine HostSide.snd (by assumption) ?_)
    | (simp only [HostSide.mk_iff])
    | split

theorem setEnts_hostSide {s : State} {q : Nat} {l : List QEnt} (h : HostSide v s) :
    HostSide v (setEnts s q l) := by
  unfold setEnts
  repeat' first
    | (with_reducible first | assumption | intro _ | apply HostSide.c)
    | (simp only [HostSide.mk_iff])
    | split

theorem queueError_hostSide {s : State} {q : Nat} {code : Nat} {entry : Nat} (h : HostSide v s) :
    HostSide v (queueError s q code entry) := by
  unfold queueError
  repeat' first
    | (with_reducible first | apply loadCtx_hostSide)
    | (with_reducible first | assumption | intro _ | apply hubEvent_hostSide | apply putCtx_hostSide | apply HostSide.c)
    | (with_reducible refine HostSide.snd (by assumption) ?_)
    | (simp only [HostSide.mk_iff])
    | split

theorem completionEvent_hostSide {s : State} {src : Nat} {q : Nat} {idx : Nat} {code : Nat} (h : HostSide v s) :
    HostSide v (completionEvent s src q idx code) := by
  unfold completionEvent
  repeat' first
    | (with_reducible first | assumption | intro _ | apply hubEvent_hostSide | apply HostSide.c)
    | (simp only [HostSide.mk_iff])
    | split

theorem completionWritten_hostSide {s : State} {q : Nat} {idx : Nat} {code : Nat} {src : Nat} {evt : Bool} {err :
    Option MemErr} (h : HostSide v s) :
    HostSide v (completionWritten s q idx code src evt err) := by
  unfold completionWritten
  repeat' first
    | (with_reducible first | assumption | intro _ | apply completionEvent_hostSide | apply queueError_hostSide)
    | (with_reducible first | apply HostSide.c)
    | (simp only [HostSide.mk_iff])
    | split

theorem putDone_hostSide {s : State} {q : Nat} {c : QCtx} {done : Nat} {ents : List QEnt} (h : HostSide v s) :
    HostSide v (putDone s q c done ents) := by
  unfold putDone
  repeat' first
    | (with_reducible first | assumption | intro _ | apply hubWrite_hostSide | apply putCtx_hostSide)
    | (with_reducible first | apply setEnts_hostSide | apply HostSide.c)
    | (with_reducible refine HostSide.snd (by assumption) ?_)
    | (simp only [HostSide.mk_iff])
    | split

theorem completeEntry_hostSide {s : State} {q : Nat} {idx : Nat} {code : Nat} {info : Nat} {error : Nat} (h : HostSide
    v s) :
    HostSide v (completeEntry s q idx code info error) := by
  unfold completeEntry
  repeat' first
    | (with_reducible first | assumption | intro _ | apply hubEvent_hostSide | apply loadCtx_hostSide)
    | (with_reducible first | apply putCtx_hostSide | apply queueError_hostSide | apply toHost_hostSide)
    | (with_reducible first | apply completionWritten_hostSide | apply hubWriteFor_hostSide)
    | (with_reducible first | apply putDone_hostSide)
    | (with_reducible first | apply hubWrite_hostSide | apply setEnts_hostSide | apply HostSide.c)
    | (with_reducible refine HostSide.snd (by assumption) ?_)
    | (simp only [HostSide.mk_iff])
    | split

theorem readJob_hostSide {s : State} {job : Nat} (h : HostSide v s) :
    HostSide v (readJob s job).2 := by
  unfold readJob
  repeat' first
    | (with_reducible first | assumption | intro _ | apply devRead_hostSide | apply HostSide.c)
    | (with_reducible refine HostSide.snd (by assumption) ?_)
    | (simp only [HostSide.mk_iff])
    | split

theorem setJob_hostSide {s : State} {job : Nat} {j : Job} (h : HostSide v s) :
    HostSide v (setJob s job j) := by
  unfold setJob
  repeat' first
    | (with_reducible first | assumption | intro _ | apply HostSide.c)
    | (simp only [HostSide.mk_iff])
    | split

theorem startJob_hostSide {s : State} {job : Nat} {d : JobDesc} (h : HostSide v s) :
    HostSide v (startJob s job d) := by
  unfold startJob
  repeat' first
    | (with_reducible first | assumption | intro _ | apply setJob_hostSide | apply HostSide.c)
    | (simp only [HostSide.mk_iff])
    | split

theorem setPhase_hostSide {s : State} {q : Nat} {idx : Nat} {p : EntPhase} (h : HostSide v s) :
    HostSide v (setPhase s q idx p) := by
  unfold setPhase
  repeat' first
    | (with_reducible first | assumption | intro _ | apply setEnts_hostSide | apply HostSide.c)
    | (simp only [HostSide.mk_iff])
    | split

theorem strandEvent_hostSide {s : State} {q : Nat} {src : Nat} {queue : Nat} {entry : Nat} {j : Nat} {code : Nat} {val
    : Nat} (h : HostSide v s) :
    HostSide v (strandEvent s q src queue entry j code val) := by
  unfold strandEvent
  repeat' first
    | (with_reducible first | assumption | intro _ | apply localEvent_hostSide | apply HostSide.c)
    | (simp only [HostSide.mk_iff])
    | split

theorem alignEvent_hostSide {s : State} {q : Nat} {c : QCtx} {e : QEnt} (h : HostSide v s) :
    HostSide v (alignEvent s q c e) := by
  unfold alignEvent
  repeat' first
    | (with_reducible first | assumption | intro _ | apply drawFree_hostSide | apply hubEvent_hostSide)
    | (with_reducible first | apply strandEvent_hostSide | apply HostSide.c)
    | (with_reducible refine HostSide.snd (by assumption) ?_)
    | (simp only [HostSide.mk_iff])
    | split

theorem startStrand_hostSide {s : State} {q : Nat} {c : QCtx} {e : QEnt} (h : HostSide v s) :
    HostSide v (startStrand s q c e) := by
  unfold startStrand
  repeat' first
    | (with_reducible first | assumption | intro _ | apply setPhase_hostSide | apply completeEntry_hostSide)
    | (with_reducible first | apply alignEvent_hostSide)
    | (with_reducible first | apply HostSide.c)
    | (simp only [HostSide.mk_iff])
    | split

theorem sendKnotEntry_hostSide {s : State} {q : Nat} {d : JobDesc} {e : QEnt} (h : HostSide v s) :
    HostSide v (sendKnotEntry s q d e) := by
  unfold sendKnotEntry
  repeat' first
    | (with_reducible first | assumption | intro _ | apply knotUpdate_hostSide | apply setEnts_hostSide | apply HostSide.c)
    | (simp only [HostSide.mk_iff])
    | split

theorem sendKnotEntries_go_hostSide {q : Nat} {d : JobDesc} {s : State} {l : List QEnt} (h : HostSide v s) :
    HostSide v (sendKnotEntries.go q d s l) := by
  induction l generalizing s with
  | nil => exact h
  | cons x r ih =>
    unfold sendKnotEntries.go
    repeat' first
      | (with_reducible first | assumption | intro _ | apply ih | apply sendKnotEntry_hostSide)
      | (simp only [HostSide.mk_iff])
      | split

theorem sendKnotEntries_hostSide {s : State} {q : Nat} {d : JobDesc} (h : HostSide v s) :
    HostSide v (sendKnotEntries s q d) := by
  unfold sendKnotEntries
  exact sendKnotEntries_go_hostSide h

theorem startNext_hostSide {s : State} {q : Nat} (h : HostSide v s) :
    HostSideO v (startNext s q) := by
  unfold startNext
  repeat' first
    | (with_reducible first | assumption | intro _ | exact HostSideO.none | apply HostSideO.some)
    | (with_reducible first | apply sendKnotEntries_hostSide | apply startStrand_hostSide | apply readJob_hostSide)
    | (with_reducible first | apply queueError_hostSide | apply setPhase_hostSide | apply completeEntry_hostSide)
    | (with_reducible first | apply loadCtx_hostSide)
    | (with_reducible first | apply startJob_hostSide | apply HostSide.c)
    | (with_reducible refine HostSide.snd (by assumption) ?_)
    | (simp only [HostSide.mk_iff])
    | split

theorem kickFuel_hostSide {q : Nat} {fuel : Nat} {a2 : State} (h : HostSide v a2) :
    HostSide v (kickFuel q fuel a2) := by
  induction fuel generalizing q a2 with
  | zero =>
    unfold kickFuel
    repeat' first
      | (with_reducible first | assumption | intro _ | apply startNext_hostSide | apply HostSide.c)
      | (with_reducible refine HostSideO.use (by assumption) ?_)
      | (simp only [HostSide.mk_iff])
      | split
  | succ n ih =>
    unfold kickFuel
    repeat' first
      | (with_reducible first | assumption | intro _ | apply startNext_hostSide | apply ih | apply HostSide.c)
      | (with_reducible refine HostSideO.use (by assumption) ?_)
      | (simp only [HostSide.mk_iff])
      | split

theorem kickQueue_hostSide {s : State} {q : Nat} (h : HostSide v s) :
    HostSide v (kickQueue s q) := by
  unfold kickQueue
  repeat' first
    | (with_reducible first | assumption | intro _ | apply sendKnotEntries_hostSide | apply readJob_hostSide)
    | (with_reducible first | apply loadCtx_hostSide)
    | (with_reducible first | apply kickFuel_hostSide | apply HostSide.c)
    | (with_reducible refine HostSide.snd (by assumption) ?_)
    | (simp only [HostSide.mk_iff])
    | split

theorem kickAll_hostSide {s : State} (h : HostSide v s) :
    HostSide v (kickAll s) := by
  unfold kickAll
  repeat' first
    | (with_reducible first | assumption | intro _ | apply HostSide.foldl | apply HostSide.foldlFst)
    | (with_reducible first | apply HostSide.foldlSnd | apply kickQueue_hostSide | apply HostSide.c)
    | (simp only [HostSide.mk_iff])
    | split

theorem seqEvent_hostSide {s : State} {q : Nat} {st : Strand} {j : Nat} {code : Nat} {val : Nat} (h : HostSide v s) :
    HostSide v (seqEvent s q st j code val) := by
  unfold seqEvent
  repeat' first
    | (with_reducible first | apply strandEvent_hostSide)
    | (with_reducible first | assumption | intro _ | apply localEvent_hostSide | apply HostSide.c)
    | (simp only [HostSide.mk_iff])
    | split

theorem writeEnergy_hostSide {s : State} {slot : Nat} (h : HostSide v s) :
    HostSide v (writeEnergy s slot) := by
  unfold writeEnergy
  repeat' first
    | (with_reducible first | assumption | intro _ | apply hubWrite_hostSide | apply devRead_hostSide)
    | (with_reducible first | apply drawFree_hostSide | apply HostSide.c)
    | (with_reducible refine HostSide.snd (by assumption) ?_)
    | (simp only [HostSide.mk_iff])
    | split

theorem reportEnd_hostSide {s : State} {q : Nat} {st : Strand} {code : Nat} {info : Nat} {error : Nat} (h : HostSide v
    s) :
    HostSide v (reportEnd s q st code info error) := by
  unfold reportEnd
  repeat' first
    | (with_reducible first | assumption | intro _ | apply seqEvent_hostSide | apply kickQueue_hostSide)
    | (with_reducible first | apply writeEnergy_hostSide | apply completeEntry_hostSide | apply HostSide.c)
    | (simp only [HostSide.mk_iff])
    | split

end Sys2Proof.Machine
end

