-- ==== Sys2Proof/Proofs/ScalarFrame.lean ====
section
/-!
PROOF. The frame of the scalar, branch and jump instructions (R209–R212): a strand that runs on has touched its own sequencer and
the requests in flight.
-/

namespace Sys2Proof.Machine

theorem getSeq_setSeq {s : State} (h : twf ({} : Seqr) s.seqs = true) (q : Nat) (x : Seqr) (r : Nat) :
    getSeq (setSeq s q x) r = if r = q then x else getSeq s r := tget_tset _ _ _ _ _ h

theorem setSeq_seqsWf {s : State} (h : twf ({} : Seqr) s.seqs = true) (q : Nat) (x : Seqr) :
    twf ({} : Seqr) (setSeq s q x).seqs = true := tset_wf _ _ _ _ h

/-- A strand that ends leaves its sequencer free, whatever the queue engine then does. -/
theorem getStrand_endStrand {s : State} (h : twf ({} : Seqr) s.seqs = true) (q code error : Nat) :
    getStrand (endStrand s q code error) q = none := by
  unfold endStrand
  split
  next hn => exact hn
  next st hst =>
    have hseqs := HostSide.seqs (reportEnd_hostSide (q := q) (st := st) (code := code) (info := st.pc.toNat) (error := error)
      (.refl (setStrand s q none)))
    rw [getStrand, getSeq, hseqs]
    exact getStrand_setStrand_none h

/-- From `s` to `t` nothing has changed but sequencer `q` and the requests in flight. -/
def OnlySeq (q : Nat) (s t : State) : Prop :=
  (∀ r, r ≠ q → getSeq t r = getSeq s r) ∧ ∃ l, t = { s with seqs := t.seqs, mem := { s.mem with reqs := s.mem.reqs ++ l } }

theorem OnlySeq.refl (q : Nat) (s : State) : OnlySeq q s s := ⟨fun _ _ => rfl, [], by rw [List.append_nil]⟩

theorem OnlySeq.trans {q : Nat} {s t u : State} (h : OnlySeq q s t) (h' : OnlySeq q t u) : OnlySeq q s u := by
  obtain ⟨hseq, l, hl⟩ := h
  obtain ⟨hseq', l', hl'⟩ := h'
  refine ⟨fun r hr => (hseq' r hr).trans (hseq r hr), l ++ l', hl'.trans ?_⟩
  rw [hl, ← List.append_assoc]

theorem onlySeq_setSeq {s : State} (h : twf ({} : Seqr) s.seqs = true) (q : Nat) (x : Seqr) : OnlySeq q s (setSeq s q x) :=
  ⟨fun r hr => (getSeq_setSeq h q x r).trans (if_neg hr), [], by rw [List.append_nil]; rfl⟩

theorem onlySeq_seqRequest {s : State} (h : twf ({} : Seqr) s.seqs = true) (q a n : Nat) (w : Option (List Byte)) :
    OnlySeq q s (seqRequest s q a n w) :=
  (onlySeq_setSeq h q _).trans ⟨fun _ _ => rfl, _, rfl⟩

theorem getStrand_seqRequest {s : State} (h : twf ({} : Seqr) s.seqs = true) (q a n : Nat) (w : Option (List Byte)) :
    getStrand (seqRequest s q a n w) q = getStrand s q := by
  have hget : getSeq (seqRequest s q a n w) q = { getSeq s q with reqNo := (getSeq s q).reqNo + 1 } :=
    (getSeq_setSeq h q _ q).trans (if_pos rfl)
  rw [getStrand, hget, getStrand]

/-- A strand that runs on has kept its registers and touched nothing but its sequencer and the requests. -/
def RunsOn (q : Nat) (st : Strand) (s t : State) : Prop :=
  ∀ st2, getStrand t q = some st2 → OnlySeq q s t ∧ st2.regs = st.regs

theorem runsOn_of_ended {q : Nat} {st : Strand} {s t : State} (h : getStrand t q = none) : RunsOn q st s t :=
  fun _ h2 => nomatch h.symm.trans h2

theorem arrive_runsOn {s : State} {q : Nat} {st : Strand} (h : twf ({} : Seqr) s.seqs = true) (hst : getStrand s q = some st) :
    RunsOn q st s (arrive s q) := by
  by_cases hpc : st.pc.toNat % 8 = 0
  · cases hw : st.word with
    | none =>
      rw [arrive_fetch hst hpc hw]
      intro st2 h2
      have hset : twf ({} : Seqr) (setStrand s q (some { st with wait := .fetch (st.pc.toNat / 64) })).seqs = true :=
        setSeq_seqsWf h q _
      rw [getStrand_seqRequest hset, getStrand_setStrand_some] at h2
      refine ⟨(onlySeq_setSeq h q _).trans (onlySeq_seqRequest hset _ _ _ _), ?_⟩
      rw [← Option.some.inj h2]
    | some w =>
      cases hl : legalWord w with
      | false =>
        rw [arrive_illegal hst hpc hw hl]
        exact runsOn_of_ended (getStrand_endStrand h q _ _)
      | true =>
        rw [arrive_legal hst hpc hw hl]
        intro st2 h2
        rw [getStrand_setStrand_some] at h2
        refine ⟨onlySeq_setSeq h q _, ?_⟩
        rw [← Option.some.inj h2]
  · rw [arrive_misaligned hst hpc]
    exact runsOn_of_ended (getStrand_endStrand h q _ _)

theorem goTo_runsOn {s : State} (h : twf ({} : Seqr) s.seqs = true) (q : Nat) (st : Strand) (pc : Word) :
    RunsOn q st s (goTo s q st pc) := by
  intro st2 h2
  obtain ⟨honly, hregs⟩ := arrive_runsOn (setSeq_seqsWf h q _) (getStrand_setStrand_some s q _) st2 h2
  exact ⟨(onlySeq_setSeq h q _).trans honly, hregs⟩

/-- A word that is executed, or finds its strand unable to, or ends it with an injected fault. -/
theorem execWord_runsOn {s : State} {q : Nat} {st : Strand} (h : twf ({} : Seqr) s.seqs = true) (hst : getStrand s q = some st)
    {w : Nat} {f : State → Strand → State} {st' : Strand} (hf : RunsOn q st' s (f s st)) :
    ∀ st2, getStrand (execWord s q w f) q = some st2 →
      OnlySeq q s (execWord s q w f) ∧ (st2.regs = st.regs ∨ st2.regs = st'.regs) := by
  unfold execWord
  rw [hst]
  dsimp only
  split
  · split
    next _ s1 hhit =>
      intro st2 h2
      have hseqs : s1.seqs = s.seqs := by
        have := congrArg (fun r => r.2.seqs) hhit
        simp only [takeHit, takeArmed] at this
        split at this <;> exact this.symm
      exact absurd (h2.symm.trans (getStrand_endStrand (hseqs.symm ▸ h) q _ _)) nofun
    · intro st2 h2
      obtain ⟨honly, hregs⟩ := hf st2 h2
      exact ⟨honly, .inr hregs⟩
  · intro st2 h2
    have he : st2 = st := Option.some.inj (h2.symm.trans hst)
    exact ⟨.refl q s, .inl (he ▸ rfl)⟩

theorem Strand.reg_congr {st st2 : Strand} (h : st2.regs = st.regs) (r : Nat) : st2.reg r = st.reg r := by
  simp [Strand.reg, h]

/-- A write to one register leaves the others. -/
theorem Strand.reg_setReg_ne {st : Strand} (h : twf (0 : Word) st.regs = true) {r k : Nat} (hk : k ≠ r) (v : Word) :
    (st.setReg r v).reg k = st.reg k := by
  by_cases hr : r = 0
  · rw [hr, Strand.setReg_zero]
  · exact (Strand.RegsWf.reg_setReg h hr v k).trans (if_neg hk)

/-- Settles O20: each instruction is `execWord` of a jump of the strand, with its destination written or as it is. -/
theorem scalarFrame : Obligations.ScalarFrame := by
  unfold Obligations.ScalarFrame
  intro s t q dst a b fn cond imm i st st2 hi hseqs hregs ht hst hst2
  have hjump : ∀ (w : Nat) (f : State → Strand → State) (st' : Strand), exec i s = .next (execWord s q.val w f) →
      RunsOn q.val st' s (f s st) → OnlySeq q.val s t ∧ (st2.regs = st.regs ∨ st2.regs = st'.regs) := by
    intro w f st' hexec hf
    cases hexec.symm.trans ht
    exact execWord_runsOn hseqs hst hf st2 hst2
  have hkept : ∀ (st' : Strand), OnlySeq q.val s t ∧ (st2.regs = st.regs ∨ st2.regs = st'.regs) →
      (∀ r, r ≠ dst.val → st'.reg r = st.reg r) → (∀ r, i = .br q cond a b imm ∨ i = .jr q a → st'.reg r = st.reg r) →
      (∀ r, r ≠ q.val → getSeq t r = getSeq s r) ∧ (∀ r, r ≠ dst.val → st2.reg r = st.reg r) ∧
        (∀ r, i = .br q cond a b imm ∨ i = .jr q a → st2.reg r = st.reg r) ∧
        ∃ l, t = { s with seqs := t.seqs, mem := { s.mem with reqs := s.mem.reqs ++ l } } := by
    rintro st' ⟨⟨hseq, hl⟩, hor⟩ hdst hjmp
    obtain he | he := hor
    · exact ⟨hseq, fun r _ => Strand.reg_congr he r, fun r _ => Strand.reg_congr he r, hl⟩
    · exact ⟨hseq, fun r hr => (Strand.reg_congr he r).trans (hdst r hr), fun r hi => (Strand.reg_congr he r).trans (hjmp r hi), hl⟩
  have hwrite : ∀ v r, r ≠ dst.val → (st.setReg dst.val v).reg r = st.reg r := fun v r hr => Strand.reg_setReg_ne hregs hr v
  simp only [List.mem_cons, List.not_mem_nil, or_false] at hi
  obtain rfl | rfl | rfl | rfl | rfl | rfl | rfl | rfl := hi
  · exact hkept _ (hjump _ _ _ rfl (goTo_runsOn hseqs _ _ _)) (hwrite _) (by simp)
  · exact hkept _ (hjump _ _ _ rfl (goTo_runsOn hseqs _ _ _)) (hwrite _) (by simp)
  · exact hkept _ (hjump _ _ _ rfl (goTo_runsOn hseqs _ _ _)) (hwrite _) (by simp)
  · exact hkept _ (hjump _ _ _ rfl (goTo_runsOn hseqs _ _ _)) (hwrite _) (by simp)
  · refine hkept st (hjump _ _ _ rfl ?_) (fun _ _ => rfl) (fun _ _ => rfl)
    split <;> exact goTo_runsOn hseqs _ _ _
  · refine hkept (st.setReg dst.val (st.reg dst.val - 1)) (hjump _ _ _ rfl ?_) (hwrite _) (by simp)
    unfold loopInstr
    dsimp only
    split <;> exact goTo_runsOn hseqs _ _ _
  · exact hkept _ (hjump _ _ _ rfl (goTo_runsOn hseqs _ _ _)) (hwrite _) (by simp)
  · exact hkept _ (hjump _ _ _ rfl (goTo_runsOn hseqs _ _ _)) (fun _ _ => rfl) (fun _ _ => rfl)

end Sys2Proof.Machine
end

