-- ==== Sys2Proof/Proofs/Work.lean ====
section
/-!
PROOF. Knot updates that arrive (R214–R216), the training-step boundary (R36, R184, R199), replies (R458), finished operations
(R226–R229) and the choice of work (R402).
-/

namespace Sys2Proof.Machine

/-! ### Sending a knot update -/

/-- `m` says what an update of `src` to a die says. -/
def KnotMsg.says (m : KnotMsg) (src die knot : Nat) (isSet : Bool) (val : Nat) : Prop :=
  m.src = src ∧ m.die = die ∧ m.knot = knot ∧ m.isSet = isSet ∧ m.val = val

theorem sendKnot_knotq (s : State) (m : KnotMsg) :
    ∃ m', (sendKnot s m).knotq = s.knotq ++ [m'] ∧ m'.says m.src m.die m.knot m.isSet m.val := by
  unfold sendKnot
  split
  · exact ⟨_, rfl, rfl, rfl, rfl, rfl, rfl⟩
  · dsimp only
    split <;> exact ⟨_, rfl, rfl, rfl, rfl, rfl, rfl⟩

/-- An update in flight stays there when another is sent. -/
theorem mem_knotq_sendKnot {s : State} {m' : KnotMsg} (h : m' ∈ s.knotq) (m : KnotMsg) : m' ∈ (sendKnot s m).knotq := by
  obtain ⟨x, hx, -⟩ := sendKnot_knotq s m
  rw [hx]
  exact List.mem_append_left _ h

theorem exists_sendKnot (s : State) (m : KnotMsg) :
    ∃ m' ∈ (sendKnot s m).knotq, m'.says m.src m.die m.knot m.isSet m.val := by
  obtain ⟨x, hx, hs⟩ := sendKnot_knotq s m
  exact ⟨x, by rw [hx]; simp, hs⟩

/-- An update goes to its die. -/
theorem exists_knotUpdate (s : State) (src die knot : Nat) (isSet : Bool) (val : Nat) (ent : Option Nat)
    (owner : Option (Nat × Nat)) :
    ∃ m ∈ (knotUpdate s src die knot false isSet val ent owner).knotq, m.says src die knot isSet val :=
  exists_sendKnot s _

/-- A broadcast one goes to every die. -/
theorem exists_knotUpdate_bcast (s : State) (src die knot : Nat) (isSet : Bool) (val : Nat) (ent : Option Nat)
    (owner : Option (Nat × Nat)) {d : Nat} (hd : d < 4) :
    ∃ m ∈ (knotUpdate s src die knot true isSet val ent owner).knotq, m.says src d knot isSet val := by
  unfold knotUpdate
  rw [if_pos rfl]
  obtain rfl | rfl | rfl | rfl : d = 0 ∨ d = 1 ∨ d = 2 ∨ d = 3 := by omega
  · obtain ⟨m, hm, hs⟩ := exists_sendKnot s
      { src := src, die := 0, knot := knot, isSet := isSet, val := val, ember := sourceDie src != some 0, ent := ent, owner := owner }
    exact ⟨m, mem_knotq_sendKnot (mem_knotq_sendKnot (mem_knotq_sendKnot hm _) _) _, hs⟩
  · obtain ⟨m, hm, hs⟩ := exists_sendKnot _
      { src := src, die := 1, knot := knot, isSet := isSet, val := val, ember := sourceDie src != some 1, ent := ent, owner := owner }
    exact ⟨m, mem_knotq_sendKnot (mem_knotq_sendKnot hm _) _, hs⟩
  · obtain ⟨m, hm, hs⟩ := exists_sendKnot _
      { src := src, die := 2, knot := knot, isSet := isSet, val := val, ember := sourceDie src != some 2, ent := ent, owner := owner }
    exact ⟨m, mem_knotq_sendKnot hm _, hs⟩
  · exact exists_sendKnot _ _

/-! ### Knots after an update has arrived -/

/-- The knots, and which of them are lost, are as they were. -/
def SameKnots (s t : State) : Prop := t.knots = s.knots ∧ t.knotsLost = s.knotsLost

theorem SameKnots.refl (s : State) : SameKnots s s := ⟨rfl, rfl⟩

theorem SameKnots.trans {s t u : State} (h : SameKnots s t) (h' : SameKnots t u) : SameKnots s u :=
  ⟨h'.1.trans h.1, h'.2.trans h.2⟩

theorem HostSide.sameKnots {s t : State} (h : HostSide s t) : SameKnots s t :=
  ⟨h.knots, (congrArg State.knotsLost h : t.hostless.knotsLost = s.hostless.knotsLost)⟩

theorem endStrand_sameKnots (s : State) (q code error : Nat) : SameKnots s (endStrand s q code error) := by
  unfold endStrand
  split
  · exact .refl s
  · exact HostSide.sameKnots (s := setStrand s q none) (reportEnd_hostSide (.refl _))

theorem arrive_sameKnots (s : State) (q : Nat) : SameKnots s (arrive s q) := by
  unfold arrive
  split
  · exact .refl s
  · split
    · exact endStrand_sameKnots s q _ _
    · split
      · split
        · exact endStrand_sameKnots s q _ _
        · exact ⟨rfl, rfl⟩
      · exact ⟨rfl, rfl⟩

theorem wakeSeq_sameKnots (s : State) (q : Nat) : SameKnots s (wakeSeq s q) := by
  unfold wakeSeq
  split
  · exact .refl s
  · split
    · split
      · exact SameKnots.trans ⟨rfl, rfl⟩ (arrive_sameKnots _ q)
      · exact .refl s
    all_goals exact .refl s

theorem foldl_sameKnots {α : Type} {f : State → α → State} (hf : ∀ t x, SameKnots t (f t x)) (l : List α) (s : State) :
    SameKnots s (l.foldl f s) := by
  induction l generalizing s with
  | nil => exact .refl s
  | cons x r ih => exact (hf s x).trans (ih _)

theorem wakeAll_sameKnots (s : State) : SameKnots s (wakeAll s) := foldl_sameKnots wakeSeq_sameKnots _ s

theorem entryApplied_sameKnots (s : State) (ent : Option Nat) : SameKnots s (entryApplied s ent) := by
  unfold entryApplied
  split
  · exact .refl s
  · split
    · exact .refl s
    · exact HostSide.sameKnots (completeEntry_hostSide (.refl s))

theorem checkBoundary_sameKnots (s : State) : SameKnots s (checkBoundary s) := by
  unfold checkBoundary
  split
  · exact .refl s
  · split <;> exact ⟨rfl, rfl⟩

/-- What all who wait do once a knot has changed leaves the knots as they are. -/
theorem knotSettled_sameKnots (s : State) (ent : Option Nat) :
    SameKnots s (checkBoundary (kickAll (wakeAll (entryApplied s ent)))) :=
  (entryApplied_sameKnots s ent).trans <| (wakeAll_sameKnots _).trans <|
    (HostSide.sameKnots (kickAll_hostSide (.refl _))).trans (checkBoundary_sameKnots _)

theorem knotCredit_eq (s : State) (m : KnotMsg) : ∃ f : FltSys, knotCredit s m = { s with flt := f } ∧ f.armed = s.flt.armed := by
  unfold knotCredit
  split
  · exact ⟨_, rfl, rfl⟩
  · exact ⟨s.flt, rfl, rfl⟩

/-- An update that may arrive, at a die that is reached and not fenced, and not an increment of a lost knot. -/
theorem knotArrive_applied {s : State} {pos : Nat} {m : KnotMsg} (h : knotReady s pos = some m) (ha : s.flt.armed = [])
    (hd : bitOf s.rst.dieFence m.die = false) (hc : knotCut s m = false)
    (hl : m.isSet = true ∨ s.knotsLost.contains (m.die * 4096 + m.knot) = false) :
    ∃ u, knotArrive s pos m.isSet = u ∧
      u.knots = tset 0 s.knots (m.die * 4096 + m.knot)
        (if m.isSet then m.val else (tget 0 s.knots (m.die * 4096 + m.knot) + m.val) % 2 ^ 32) ∧
      u.knotsLost = if m.isSet then sremove (m.die * 4096 + m.knot) s.knotsLost else s.knotsLost := by
  obtain ⟨f, hf, hfa⟩ := knotCredit_eq { s with knotq := dropAt pos s.knotq } m
  have hc' : knotCut { s with knotq := dropAt pos s.knotq, flt := f } m = false := hc
  have hhit : takeHit { s with knotq := dropAt pos s.knotq, flt := f } 3 m.die [.knotUe] none
      = (none, { s with knotq := dropAt pos s.knotq, flt := f }) := takeHit_unarmed (hfa.trans ha) _ _ _
  have hlost : (!m.isSet && s.knotsLost.contains (m.die * 4096 + m.knot)) = false := by
    obtain hl | hl := hl
    · rw [hl]; rfl
    · rw [hl, Bool.and_false]
  refine ⟨_, rfl, ?_⟩
  simp only [knotArrive, h, bne_self_eq_false, Bool.false_eq_true, if_false, hf, hd, hc', Bool.or_self, hhit, hlost]
  exact knotSettled_sameKnots _ m.ent

/-- Settles O21: `knotArrive_applied`, for an increment and for a set. -/
theorem knotUpdatesComplete : Obligations.KnotUpdatesComplete := by
  unfold Obligations.KnotUpdatesComplete
  refine fun s pos m h ha hd hc => ⟨fun hs hl => ?_, fun hs => ?_⟩
  · obtain ⟨u, hu, hk, hkl⟩ := knotArrive_applied h ha hd hc (.inr hl)
    rw [hs] at hu hk hkl
    exact ⟨u, completes_of rfl hu, hkl, hk⟩
  · obtain ⟨u, hu, hk, hkl⟩ := knotArrive_applied h ha hd hc (.inl hs)
    rw [hs] at hu hk hkl
    exact ⟨u, completes_of rfl hu, hkl, hk⟩

/-! ### The boundary of a training step -/

theorem foldl_hubEvent (l : List (Nat × Nat)) (s : State) :
    ∃ ev, l.foldl (fun st e => hubEvent st e.1 0 e.2) s = { s with ev := ev } := by
  induction l generalizing s with
  | nil => exact ⟨s.ev, rfl⟩
  | cons x r ih =>
    obtain ⟨ev, hev⟩ := ih (hubEvent s x.1 0 x.2)
    exact ⟨ev, hev⟩

theorem sendKnot_mem (s : State) (m : KnotMsg) : (sendKnot s m).mem = s.mem := by
  unfold sendKnot
  split
  · rfl
  · dsimp only
    split <;> rfl

theorem knotUpdate_mem (s : State) (src die knot : Nat) (bcast isSet : Bool) (val : Nat) (ent : Option Nat)
    (owner : Option (Nat × Nat)) : (knotUpdate s src die knot bcast isSet val ent owner).mem = s.mem := by
  unfold knotUpdate
  split <;> simp only [sendKnot_mem]

theorem getJob_setJob_stepped (s : State) (job step seq : Nat) (j : Job) :
    getJob (setJob s job { j with step := step, updated := [], respun := [], stepSeq := some seq }) job =
      { j with step := step, updated := [], respun := [], stepSeq := some seq } :=
  (tget_tset_new fun h => Option.some_ne_none seq (congrArg Job.stepSeq h)).trans (if_pos rfl)

/-- A pass that is made: the slots' contents are written, the rung knot is tied on every die and the training step ends. -/
theorem ladderPass_made {s s1 : State} {job : Nat} {lost : List Nat} {done : List SlotDone} (hj : s.swapJob = some job)
    (hd : ∀ d, d < 4 → s.swapped.contains d = true)
    (hp : processSlots s (getJob s job) job lost (s.storm.active && s.storm.job == job) (getJob s job).active = (some done, s1))
    (hw : (writesBlocked s1 hubVia (done.map fun x => (x.addr, x.bytes))).1 = false) :
    ∃ s2, ladderPass s lost = (s2, true) ∧
      s2.mem = (writeMany s1 hubVia false (done.map fun x => (x.addr, x.bytes))).2.mem ∧
      (getJob s2 job).step = (getJob s job).step + 1 ∧ s2.swapJob = none ∧ s2.swapped = [] ∧
      ∀ d, d < 4 → ∃ m ∈ s2.knotq, m.says hubSource d ((getJob s job).desc.knotBase + (getJob s job).desc.rungKnot) false 1 := by
  have hall : ((List.range 4).any fun d => !s.swapped.contains d) = false := by
    rw [List.any_eq_false]
    intro d hr
    rw [hd d (List.mem_range.mp hr)]
    decide
  obtain ⟨b, s2, hb⟩ : ∃ b s2, writesBlocked s1 hubVia (done.map fun x => (x.addr, x.bytes)) = (b, s2) := ⟨_, _, rfl⟩
  rw [hb] at hw
  dsimp only at hw
  subst hw
  obtain ⟨ev, hev⟩ := foldl_hubEvent (done.flatMap (·.events))
    (writeMany s1 hubVia false (done.map fun x => (x.addr, x.bytes))).2
  have hmem := knotUpdate_mem { (writeMany s1 hubVia false (done.map fun x => (x.addr, x.bytes))).2 with ev := ev }
    hubSource 0 ((getJob s job).desc.knotBase + (getJob s job).desc.rungKnot) true false 1 none none
  have hsent := fun d (hd4 : d < 4) => exists_knotUpdate_bcast
    { (writeMany s1 hubVia false (done.map fun x => (x.addr, x.bytes))).2 with ev := ev } hubSource 0
    ((getJob s job).desc.knotBase + (getJob s job).desc.rungKnot) false 1 none none hd4
  simp only [ladderPass, hj, hall, Bool.false_eq_true, if_false, hp, hb, hev]
  generalize knotUpdate _ hubSource 0 _ true false 1 = s4 at hmem hsent ⊢
  obtain ⟨s5, hs5, hmem5, hknot5⟩ : ∃ s5, (if (s.storm.active && s.storm.job == job) = true then endStorm s4 else s4) = s5 ∧
      s5.mem = s4.mem ∧ s5.knotq = s4.knotq := by
    split <;> exact ⟨_, rfl, rfl, rfl⟩
  rw [hs5]
  refine ⟨_, rfl, hmem5.trans hmem, congrArg Job.step (getJob_setJob_stepped ..), rfl, rfl, fun d hd4 => ?_⟩
  rw [setJob_knotq]
  exact hknot5 ▸ hsent d hd4

/-- Settles O22: a swap hands over a die's table, and the controller's pass is `ladderPass_made`. -/
theorem boundaryCommandsComplete : Obligations.BoundaryCommandsComplete := by
  unfold Obligations.BoundaryCommandsComplete
  refine ⟨fun s d job hj hs => ?_, fun s s1 job lost done hj hd ht hp hw => ?_⟩
  · have hswap : tallySwap s d.val = { s with
        tlines := ((List.range 64).map (· + 64 * d.val)).foldl (fun t c => tset [] t c []) s.tlines
        tin := tset [] s.tin d.val []
        tout := tset [] s.tout d.val
          ((((((List.range 64).map (· + 64 * d.val)).flatMap fun c => tget [] s.tlines c)
            ++ tget [] s.tin d.val).map TLine.settled).foldl tableAdd [])
        swapped := sinsert d.val s.swapped } := by
      simp only [tallySwap, hj, hs, Bool.false_eq_true, if_false]
    exact ⟨tallySwap s d.val, rfl, by rw [hswap], by rw [hswap], by rw [hswap], by rw [hswap]⟩
  · obtain ⟨s2, hpass, hmem, hstep, hsj, hsw, hknot⟩ := ladderPass_made hj hd hp hw
    refine ⟨s2, completes_of rfl ?_, by rw [hmem], hstep, hsj, hsw, fun d hd4 => ?_⟩
    · simp only [controllerPass, hj, ht, if_true, hpass]
    · obtain ⟨m, hm, hsrc, hdie, hkn, hset, hval⟩ := hknot d hd4
      exact ⟨m, hm, hsrc, hdie, hset, hval, hkn⟩

/-! ### Replies -/

/-- The reply at a position, taken from those on their way. -/
def replyTaken (s : State) (pos : Nat) : State := { s with mem := { s.mem with replies := dropAt pos s.mem.replies } }

section replies

variable {s : State} {pos : Nat} {r : ReplyMsg} {q : SeqId} {st : Strand}

theorem anyReply_stale (hr : s.mem.replies[pos]? = some r) (hq : r.who = .seq q)
    (hw : waveBehind s r.post (seqSource q.val) = false) (he : r.epoch ≠ seqEpoch s q.val) :
    anyReply s pos = dcount (replyTaken s pos) Key.quenchDrops := by
  have hcond : (decide (r.epoch ≠ seqEpoch (replyTaken s pos) q.val) || (getSeq s q.val).fenced) = true := by
    exact Bool.or_eq_true_iff.mpr (.inl (decide_eq_true he))
  unfold replyTaken at hcond ⊢
  simp only [anyReply, requestReply, hr, hq, hw, ne_eq, reduceCtorEq, not_false_eq_true, if_true, Bool.false_eq_true, if_false]
  exact if_pos hcond

theorem anyReply_present (hr : s.mem.replies[pos]? = some r) (hq : r.who = .seq q)
    (hw : waveBehind s r.post (seqSource q.val) = false) (hf : (getSeq s q.val).fenced = false)
    (he : r.epoch = seqEpoch s q.val) : anyReply s pos = seqReply (replyTaken s pos) q.val r.no r.ans := by
  have hcond : (decide (r.epoch ≠ seqEpoch (replyTaken s pos) q.val) || (getSeq s q.val).fenced) = false := by
    rw [hf, he, Bool.or_false]
    exact decide_eq_false (not_not_intro rfl)
  unfold replyTaken at hcond ⊢
  simp only [anyReply, requestReply, hr, hq, hw, ne_eq, reduceCtorEq, not_false_eq_true, if_true, Bool.false_eq_true, if_false]
  exact if_neg (ne_true_of_eq_false hcond)

theorem seqReply_load {s : State} {q no dst : Nat} {a : MemAnswer} (hno : no = (getSeq s q).reqNo)
    (hst : getStrand s q = some st) (hw : st.wait = .load dst) (ha : a.err = none) :
    seqReply s q no a = goTo s q (st.setReg dst (BitVec.ofNat 64 (leNat a.bytes))) (st.pc + 8) := by
  simp only [seqReply, hno, if_true, hst, hw, ha, Option.isSome_none, Bool.false_eq_true, if_false, next_setReg]

theorem seqReply_store {s : State} {q no : Nat} {a : MemAnswer} (hno : no = (getSeq s q).reqNo)
    (hst : getStrand s q = some st) (hw : st.wait = .store) :
    seqReply s q no a = if a.err.isSome ∧ a.err ≠ some .fenced then endStrand s q 0x04 else goTo s q st (st.pc + 8) := by
  simp only [seqReply, hno, if_true, hst, hw, next]

end replies

/-! ### Operations that complete -/

theorem opCommit_eq (s : State) (o : OpRec) : ∃ tin jobs, opCommit s o = { s with tin := tin, jobs := jobs } := by
  have hfold : ∀ (sl : Nat) (l : List (Nat × Tally)) (t : State),
      ∃ tin, l.foldl (fun st p => tallyDie st p.1 o.job sl p.2) t = { t with tin := tin } := by
    intro sl l
    induction l with
    | nil => exact fun t => ⟨t.tin, rfl⟩
    | cons p l ih => 
      intro t
      obtain ⟨tin, h⟩ := ih (tallyDie t p.1 o.job sl p.2)
      exact ⟨tin, h⟩
  unfold opCommit
  split
  · exact ⟨s.tin, s.jobs, rfl⟩
  next sl _ =>
    obtain ⟨tin, h⟩ := hfold sl o.tally s
    dsimp only
    rw [h]
    split
    · exact ⟨tin, _, rfl⟩
    · exact ⟨tin, s.jobs, rfl⟩

/-- The newest status kept is that of the tag that has just completed. -/
theorem Strand.tag_tagDone (st : Strand) (t status : Nat) :
    (st.tagDone t status).tag t = some { tag := t, status := status, inFlight := false } := by
  have hothers : ∀ (l : List TagSt), (∀ k ∈ l, k.tag ≠ t) → l.find? (fun k => k.tag == t) = none := by
    intro l hl
    rw [List.find?_eq_none]
    exact fun k hk => by simpa using hl k hk
  have hne : ∀ k ∈ st.tags.filter (fun k => k.tag != t), k.tag ≠ t := fun k hk => by simpa using (List.mem_filter.mp hk).2
  simp only [Strand.tag, Strand.tagDone]
  rw [List.drop_append_of_le_length (by simp), List.find?_append, List.find?_append]
  rw [hothers _ fun k hk => hne k (List.mem_filter.1 hk).1,
    hothers _ fun k hk => hne k (List.mem_filter.1 (List.mem_of_mem_drop hk)).1]
  simp

theorem knotUpdate_of_knots (s : State) (src die knot : Nat) (bcast isSet : Bool) (val : Nat) (ent : Option Nat)
    (owner : Option (Nat × Nat)) :
    ∃ k f, knotUpdate s src die knot bcast isSet val ent owner = { s with knotq := k, flt := f } := by
  have hone : ∀ (t : State) (m : KnotMsg), ∃ k f, sendKnot t m = { t with knotq := k, flt := f } := by
    intro t m
    unfold sendKnot
    split
    · exact ⟨_, t.flt, rfl⟩
    · dsimp only
      split <;> exact ⟨_, _, rfl⟩
  unfold knotUpdate
  split
  · dsimp only
    obtain ⟨k1, f1, h1⟩ := hone s _
    rw [h1]
    obtain ⟨k2, f2, h2⟩ := hone { s with knotq := k1, flt := f1 } _
    rw [h2]
    obtain ⟨k3, f3, h3⟩ := hone { s with knotq := k2, flt := f2 } _
    rw [h3]
    obtain ⟨k4, f4, h4⟩ := hone { s with knotq := k3, flt := f3 } _
    exact ⟨k4, f4, h4⟩
  · exact hone s _

theorem tieDone_eq (s : State) (o : OpRec) (d : JobDesc) : ∃ k f, tieDone s o d = { s with knotq := k, flt := f } :=
  knotUpdate_of_knots ..

theorem exists_tieDone (s : State) (o : OpRec) (d : JobDesc) :
    ∃ m ∈ (tieDone s o d).knotq, m.isSet = false ∧ m.val = dKnotInc o.desc ∧ m.knot = d.knotBase + dKnot o.desc % 4096 := by
  unfold tieDone
  dsimp only
  cases dKnotBcast o.desc with
  | false =>
    obtain ⟨m, hm, -, -, hk, hs, hv⟩ := exists_knotUpdate s o.last (dKnot o.desc / 4096) (d.knotBase + dKnot o.desc % 4096)
      false (dKnotInc o.desc) none none
    exact ⟨m, hm, hs, hv, hk⟩
  | true =>
    obtain ⟨m, hm, -, -, hk, hs, hv⟩ := exists_knotUpdate_bcast s o.last (dKnot o.desc / 4096)
      (d.knotBase + dKnot o.desc % 4096) false (dKnotInc o.desc) none none (show 0 < 4 by decide)
    exact ⟨m, hm, hs, hv, hk⟩

/-- An operation that went well completes at a strand that runs and is not held. -/
theorem operationComplete_ok {s : State} {k : Nat} {o : OpRec} {st : Strand} (ho : getOp s k = some o)
    (hf : o.finished = true) (hc : o.code = 0) (hown : ownerRuns s o = some st) (hw : st.wait = .none) (hh : st.hold = none) :
    ∃ s1, s1.knotq = s.knotq ∧ s1.ck = s.ck ∧ getStrand s1 o.seq = some (st.tagDone o.tag o.status) ∧
      operationComplete s k = if dDoneValid o.desc then tieDone s1 o (getJob s o.job).desc else s1 := by
  obtain ⟨tin, jobs, hcom⟩ := opCommit_eq (setOp s k none) o
  have hown' : ownerRuns { setOp s k none with tin := tin, jobs := jobs } o = some st := hown
  have hdone : ∀ b, strandOpDone st o b = st.tagDone o.tag o.status := by
    intro b
    have h0 : (st.tagDone o.tag o.status).hold = none := hh
    simp [strandOpDone, hc, holdingCode, h0]
  refine ⟨setStrand { setOp s k none with tin := tin, jobs := jobs } o.seq (some (st.tagDone o.tag o.status)), rfl, rfl,
    getStrand_setStrand_some _ _ _, ?_⟩
  have hseal : ∀ t : State, getStrand t o.seq = some (st.tagDone o.tag o.status) → sealOver t o.seq = t := by
    intro t ht
    have hwait : (st.tagDone o.tag o.status).wait = .none := hw
    simp only [sealOver, ht, hwait]
  have hhold : (st.tagDone o.tag o.status).hold.isNone = true := by
    show st.hold.isNone = true
    rw [hh]; rfl
  simp only [operationComplete, ho, hf, Bool.not_true, Bool.false_eq_true, if_false, hcom, hown', hdone, hc, hhold, Bool.and_true,
    beq_self_eq_true, Bool.true_or]
  cases dDoneValid o.desc with
  | false => exact hseal _ (getStrand_setStrand_some _ _ _)
  | true =>
    obtain ⟨kq, f, htie⟩ := tieDone_eq (setStrand { setOp s k none with tin := tin, jobs := jobs } o.seq
      (some (st.tagDone o.tag o.status))) o (getJob s o.job).desc
    simp only [if_true, htie]
    exact hseal _ (getStrand_setStrand_some _ _ _)

/-! ### The choice of work -/

/-- The state in which a sequencer takes its work: its cluster woken if it was damped for idle. -/
def wokenFor (s : State) (q : Nat) : State :=
  if q < 512 ∧ (getCluster s (seqCore q / 8)).damp = .idle then clusterWake s (seqCore q / 8) else s

/-- A sequencer that finds work is in no cluster damped by a hold, so that only one damped for idle wakes for it. -/
theorem woken_of_select {s : State} {q : Nat} {c : Cand} (h : selectFor s q = some c) :
    (if q < 512 then clusterWake s (seqCore q / 8) else s) = wokenFor s q := by
  have htakes : takesNone s q = false := by
    refine Bool.eq_false_iff.2 fun hn => ?_
    simp [selectFor, hn] at h
  unfold wokenFor
  by_cases hq : q < 512
  · have hhold : (getCluster s (seqCore q / 8)).damp ≠ .hold := by
      intro hd
      simp [takesNone, hq, hd] at htakes
    by_cases hi : (getCluster s (seqCore q / 8)).damp = .idle
    · rw [if_pos hq, if_pos ⟨hq, hi⟩]
    · rw [if_pos hq, if_neg (fun h => hi h.2), clusterWake]
      exact if_neg (by simp [hi, hhold])
  · rw [if_neg hq, if_neg (fun h => hq h.1)]

theorem sequencerSelect_chosen {s : State} {q : Nat} {c : Cand} (hst : getStrand s q = none)
    (hf : (getSeq s q).fenced = false) (hd : bitOf s.rst.dieFence (seqDie q) = false) (hh : s.flt.hubFault = false)
    (hq : s.q.qeReady = true) (hc : selectFor s q = some c) :
    sequencerSelect s q = match c with
      | .item w => kickAll (startOn { wokenFor s q with
          q := { (wokenFor s q).q with
            ready := (wokenFor s q).q.ready.erase w
            started := tset 0 (wokenFor s q).q.started w.queue (tget 0 (wokenFor s q).q.started w.queue + 1) }
          pw := { (wokenFor s q).pw with
            committed := (wokenFor s q).pw.committed.add (estimate (wokenFor s q) w.energySlot) } } q w)
      | .saved v => resumeSaved (wokenFor s q) v := by
  rw [← woken_of_select hc]
  simp only [sequencerSelect, hst, hf, hd, hh, hq, hc, Option.isSome_none, Bool.or_self, Bool.not_true, Bool.false_eq_true,
    if_false]
  cases c <;> rfl

/-- Settles O23: replies by `anyReply_present` and `anyReply_stale`, operations by `operationComplete_ok`, the choice by
`sequencerSelect_chosen`. -/
theorem repliesAndOperationsComplete : Obligations.RepliesAndOperationsComplete := by
  unfold Obligations.RepliesAndOperationsComplete
  refine ⟨fun s pos r q st hr hq hw => ⟨fun hst hf he hno => ?_, fun he => completes_of rfl (anyReply_stale hr hq hw he)⟩,
    fun s k o st ho hf hc hrs hown hw hh => ?_, fun s s0 q hst hf hd hh hq hs0 => ?_⟩
  · have hreply := anyReply_present hr hq hw hf he
    refine ⟨fun dst hwt ha => ?_, fun hwt ha => ?_, fun hwt ha hnf => ?_⟩
    · exact completes_of rfl (hreply.trans (seqReply_load (s := replyTaken s pos) hno hst hwt ha))
    · refine completes_of rfl (hreply.trans ((seqReply_store (s := replyTaken s pos) hno hst hwt).trans (if_neg ?_)))
      rintro ⟨hs, hn⟩
      obtain ha | ha := ha
      · rw [ha] at hs
        exact nomatch hs
      · exact hn ha
    · exact congrArg Host.Outcome.next
        (hreply.trans ((seqReply_store (s := replyTaken s pos) hno hst hwt).trans (if_pos ⟨ha, hnf⟩)))
  · obtain ⟨s1, hkq, hck, hst1, hop⟩ := operationComplete_ok ho hf hc hown hw hh
    have hcomplete : ∀ u, operationComplete s k = u → u.ck = s.ck → completeOp s k = u := by
      intro u hu hck
      simp only [completeOp, ho, hf, Bool.not_true, Bool.false_eq_true, if_false, hu, hck, hrs, Option.isSome_none]
    cases hv : dDoneValid o.desc with
    | false =>
      rw [hv, if_neg Bool.false_ne_true] at hop
      exact ⟨s1, _, completes_of rfl (hcomplete s1 hop hck), hst1, Strand.tag_tagDone .., rfl, rfl, nofun, fun _ => hkq⟩
    | true =>
      rw [hv, if_pos rfl] at hop
      obtain ⟨kq, f, htie⟩ := tieDone_eq s1 o (getJob s o.job).desc
      obtain ⟨m, hm, hset, hval, hknot⟩ := exists_tieDone s1 o (getJob s o.job).desc
      refine ⟨_, _, completes_of rfl (hcomplete _ hop (by rw [htie]; exact hck)), ?_, Strand.tag_tagDone .., rfl, rfl,
        fun _ => ⟨m, hm, hset, hval, hknot⟩, nofun⟩
      rw [htie]
      exact hst1
  · have hs0' : s0 = wokenFor s q.val := hs0
    subst hs0'
    exact ⟨fun w hc => ⟨_, completes_of rfl (sequencerSelect_chosen hst hf hd hh hq hc), rfl, rfl, rfl, rfl⟩,
      fun v hc => completes_of rfl (sequencerSelect_chosen hst hf hd hh hq hc)⟩

end Sys2Proof.Machine
end

