-- ==== Sys2Proof/Proofs/EngineSide.lean ====
section
/-!
PROOF. What the commands of an engine change: memory, free values, the dictionary, events, faults, engines, operations, tallies, re-spin
reports and the power of clusters. `EngineSide u t` says that `t` is `u` in all else; a lemma `f_engineSide` says it of `f`.
-/

namespace Sys2Proof.Machine

set_option linter.unusedSimpArgs false

/-- A state without what the commands of an engine change. -/
def State.engineless (s : State) : State :=
  { s with free := 0, dict := [], mem := {}, ev := {}, flt := {}, engines := [], ops := [], reports := [],
           tlines := [], tin := [], pw := {}, ck := {} }

/-- All but what the commands of an engine change is as in `u`. -/
def EngineSide (u t : State) : Prop := t.engineless = u.engineless

variable {v : State}

/-- `EngineSide` of a state's fields. -/
def EngineSideC (v : State) (x_pending : List Instr) (x_knotq : List KnotMsg) (x_knots : Tab Nat) (x_knotsLost : List
    Nat) (x_nextOp : Nat) (x_jobs : Tab Job) (x_raq : List RaReq) (x_storm : Storm) (x_gens : Tab Gen) (x_tout : Tab
    (List TLine)) (x_swapJob : Option Nat) (x_swapped : List Nat) (x_seqs : Tab Seqr) (x_saved : List Saved) (x_q :
    QSys) (x_pcie : PcieFn) (x_cord : CordSys) (x_snap : SnapSys) (x_rst : RstSys) (x_flash : FlashSys) (x_dsys :
    DictSys) (x_sec : SecSys) (x_d3 : Bool) (x_heldHost : List OutMsg) (x_out : List OutMsg) : Prop :=
  State.mk x_pending 0 [] {} {} {} x_knotq x_knots x_knotsLost [] [] x_nextOp x_jobs x_raq x_storm [] x_gens [] []
    x_tout x_swapJob x_swapped x_seqs x_saved x_q x_pcie {} x_cord {} x_snap x_rst x_flash x_dsys x_sec x_d3
    x_heldHost x_out = v.engineless

theorem EngineSide.mk_iff x_pending x_free x_dict x_mem x_ev x_flt x_knotq x_knots x_knotsLost x_engines x_ops
    x_nextOp x_jobs x_raq x_storm x_reports x_gens x_tlines x_tin x_tout x_swapJob x_swapped x_seqs x_saved x_q x_pcie
    x_pw x_cord x_ck x_snap x_rst x_flash x_dsys x_sec x_d3 x_heldHost x_out :
    EngineSide v (State.mk x_pending x_free x_dict x_mem x_ev x_flt x_knotq x_knots x_knotsLost x_engines x_ops
      x_nextOp x_jobs x_raq x_storm x_reports x_gens x_tlines x_tin x_tout x_swapJob x_swapped x_seqs x_saved x_q
      x_pcie x_pw x_cord x_ck x_snap x_rst x_flash x_dsys x_sec x_d3 x_heldHost x_out) =
      EngineSideC v x_pending x_knotq x_knots x_knotsLost x_nextOp x_jobs x_raq x_storm x_gens x_tout x_swapJob
      x_swapped x_seqs x_saved x_q x_pcie x_cord x_snap x_rst x_flash x_dsys x_sec x_d3 x_heldHost x_out :=
  Eq.trans rfl rfl

theorem EngineSide.c {s : State} (h : EngineSide v s) : EngineSideC v s.pending s.knotq s.knots s.knotsLost s.nextOp
    s.jobs s.raq s.storm s.gens s.tout s.swapJob s.swapped s.seqs s.saved s.q s.pcie s.cord s.snap s.rst s.flash
    s.dsys s.sec s.d3 s.heldHost s.out := h

theorem EngineSide.refl (s : State) : EngineSide s s := rfl

theorem EngineSide.trans {s t u : State} (h : EngineSide s t) (h' : EngineSide t u) : EngineSide s u := Eq.trans h' h

/-- Reading and writing memory is within it. -/
theorem MemOnly.engineSide {s t : State} (h : MemOnly s t) : EngineSide s t :=
  (congrArg State.engineless h : t.outside.engineless = s.outside.engineless)

theorem EngineSide.snd {α : Type} {r : α × State} {x : α} {t : State} (e : r = (x, t)) (h : EngineSide v r.2) : EngineSide v t := by
  subst e; exact h

theorem EngineSide.fst {α : Type} {r : State × α} {x : α} {t : State} (e : r = (t, x)) (h : EngineSide v r.1) : EngineSide v t := by
  subst e; exact h

theorem EngineSide.foldl {α : Type} {f : State → α → State} {l : List α} {s : State}
    (hf : ∀ t x, EngineSide v t → EngineSide v (f t x)) (h : EngineSide v s) : EngineSide v (l.foldl f s) := by
  induction l generalizing s with
  | nil => exact h
  | cons x r ih => exact ih (hf s x h)

theorem EngineSide.foldlFst {α β : Type} {f : State × β → α → State × β} {l : List α} {s : State × β}
    (hf : ∀ t x, EngineSide v t.1 → EngineSide v (f t x).1) (h : EngineSide v s.1) : EngineSide v (l.foldl f s).1 := by
  induction l generalizing s with
  | nil => exact h
  | cons x r ih => exact ih (hf s x h)

theorem EngineSide.foldlSnd {α β : Type} {f : β × State → α → β × State} {l : List α} {s : β × State}
    (hf : ∀ t x, EngineSide v t.2 → EngineSide v (f t x).2) (h : EngineSide v s.2) : EngineSide v (l.foldl f s).2 := by
  induction l generalizing s with
  | nil => exact h
  | cons x r ih => exact ih (hf s x h)

/-- Of an outcome that may be none. -/
def EngineSideO (v : State) (o : Option State) : Prop := ∀ t, o = some t → EngineSide v t

theorem EngineSideO.use {o : Option State} {t : State} (e : o = some t) (h : EngineSideO v o) : EngineSide v t := h t e
theorem EngineSideO.none : EngineSideO v none := fun _ e => nomatch e
theorem EngineSideO.some {t : State} (h : EngineSide v t) : EngineSideO v (some t) := fun _ e => by cases e; exact h

theorem EngineSide.seqs {s t : State} (h : EngineSide s t) : t.seqs = s.seqs :=
  (congrArg State.seqs h : t.engineless.seqs = s.engineless.seqs)

theorem EngineSide.saved {s t : State} (h : EngineSide s t) : t.saved = s.saved :=
  (congrArg State.saved h : t.engineless.saved = s.engineless.saved)

theorem EngineSide.knots {s t : State} (h : EngineSide s t) : t.knots = s.knots :=
  (congrArg State.knots h : t.engineless.knots = s.engineless.knots)

theorem EngineSide.knotq {s t : State} (h : EngineSide s t) : t.knotq = s.knotq :=
  (congrArg State.knotq h : t.engineless.knotq = s.engineless.knotq)

theorem EngineSide.q {s t : State} (h : EngineSide s t) : t.q = s.q :=
  (congrArg State.q h : t.engineless.q = s.engineless.q)

theorem EngineSide.cord {s t : State} (h : EngineSide s t) : t.cord = s.cord :=
  (congrArg State.cord h : t.engineless.cord = s.engineless.cord)

theorem EngineSide.gens {s t : State} (h : EngineSide s t) : t.gens = s.gens :=
  (congrArg State.gens h : t.engineless.gens = s.engineless.gens)

theorem EngineSide.raq {s t : State} (h : EngineSide s t) : t.raq = s.raq :=
  (congrArg State.raq h : t.engineless.raq = s.engineless.raq)

theorem EngineSide.rst {s t : State} (h : EngineSide s t) : t.rst = s.rst :=
  (congrArg State.rst h : t.engineless.rst = s.engineless.rst)

theorem EngineSide.flash {s t : State} (h : EngineSide s t) : t.flash = s.flash :=
  (congrArg State.flash h : t.engineless.flash = s.engineless.flash)

theorem EngineSide.sec {s t : State} (h : EngineSide s t) : t.sec = s.sec :=
  (congrArg State.sec h : t.engineless.sec = s.engineless.sec)

theorem EngineSide.dsys {s t : State} (h : EngineSide s t) : t.dsys = s.dsys :=
  (congrArg State.dsys h : t.engineless.dsys = s.engineless.dsys)

theorem EngineSide.snap {s t : State} (h : EngineSide s t) : t.snap = s.snap :=
  (congrArg State.snap h : t.engineless.snap = s.engineless.snap)

theorem EngineSide.out {s t : State} (h : EngineSide s t) : t.out = s.out :=
  (congrArg State.out h : t.engineless.out = s.engineless.out)

theorem EngineSide.heldHost {s t : State} (h : EngineSide s t) : t.heldHost = s.heldHost :=
  (congrArg State.heldHost h : t.engineless.heldHost = s.engineless.heldHost)

theorem EngineSide.storm {s t : State} (h : EngineSide s t) : t.storm = s.storm :=
  (congrArg State.storm h : t.engineless.storm = s.engineless.storm)

theorem EngineSide.jobs {s t : State} (h : EngineSide s t) : t.jobs = s.jobs :=
  (congrArg State.jobs h : t.engineless.jobs = s.engineless.jobs)

theorem writeMany_engineSide {s : State} {a1 : Via} {bulk : Bool} {l : List (Nat × List Byte)} (h : EngineSide v s) :
    EngineSide v (writeMany s a1 bulk l).2 :=
  h.trans (MemOnly.engineSide (writeMany_memOnly (.refl s)))

theorem feedX_engineSide {s : State} {o : OpRec} {t : TileRun} {die : Nat} {m : Nat} {k0 : Nat} {cnt : Nat} (h :
    EngineSide v s) : EngineSide v (feedX s o t die m k0 cnt).2 :=
  h.trans (MemOnly.engineSide (feedX_memOnly (.refl s)))

theorem feedCols_engineSide {s : State} {o : OpRec} {t : TileRun} {die : Nat} {k0 : Nat} {cnt : Nat} {a6 : List Nat}
    (h : EngineSide v s) : EngineSide v (feedCols s o t die k0 cnt a6).2 :=
  h.trans (MemOnly.engineSide (feedCols_memOnly (.refl s)))

theorem readRescale_engineSide {s : State} {o : OpRec} {t : TileRun} {die : Nat} (h : EngineSide v s) : EngineSide v
    (readRescale s o t die).2 :=
  h.trans (MemOnly.engineSide (readRescale_memOnly (.refl s)))

theorem prePass_engineSide {s : State} {o : OpRec} {t : TileRun} {die : Nat} (h : EngineSide v s) : EngineSide v
    (prePass s o t die).2 :=
  h.trans (MemOnly.engineSide (prePass_memOnly (.refl s)))

theorem stageX_engineSide {s : State} {o : OpRec} {t : TileRun} {die : Nat} {m : Nat} {k0 : Nat} {cnt : Nat} (h :
    EngineSide v s) : EngineSide v (stageX s o t die m k0 cnt).2 :=
  h.trans (MemOnly.engineSide (stageX_memOnly (.refl s)))

theorem stageW_engineSide {s : State} {o : OpRec} {t : TileRun} {die : Nat} {n : Nat} {k0 : Nat} {cnt : Nat} (h :
    EngineSide v s) : EngineSide v (stageW s o t die n k0 cnt).2 :=
  h.trans (MemOnly.engineSide (stageW_memOnly (.refl s)))

theorem dset_engineSide {s : State} {key : Nat} {a2 : Nat} (h : EngineSide v s) :
    EngineSide v (dset s key a2) := by
  unfold dset
  repeat' first
    | (with_reducible first | assumption | intro _ | apply EngineSide.c)
    | (simp only [EngineSide.mk_iff])
    | split

theorem dcount_engineSide {s : State} {key : Nat} {n : Nat} (h : EngineSide v s) :
    EngineSide v (dcount s key n) := by
  unfold dcount
  repeat' first
    | (with_reducible first | assumption | intro _ | apply dset_engineSide | apply EngineSide.c)
    | (simp only [EngineSide.mk_iff])
    | split

theorem drawFree_engineSide {s : State} (h : EngineSide v s) :
    EngineSide v (drawFree s).2 := by
  unfold drawFree
  repeat' first
    | (with_reducible first | assumption | intro _ | apply EngineSide.c)
    | (simp only [EngineSide.mk_iff])
    | split

theorem localEvent_engineSide {s : State} {ctl : Nat} {bit : Nat} {source : Nat} {kind : Nat} {code : Nat} {data :
    Nat} (h : EngineSide v s) :
    EngineSide v (localEvent s ctl bit source kind code data) := by
  unfold localEvent
  repeat' first
    | (with_reducible first | assumption | intro _ | apply EngineSide.c)
    | (simp only [EngineSide.mk_iff])
    | split

theorem raiseFault_engineSide {s : State} {m : FaultMsg} (h : EngineSide v s) :
    EngineSide v (raiseFault s m) := by
  unfold raiseFault
  repeat' first
    | (with_reducible first | assumption | intro _ | apply EngineSide.c)
    | (simp only [EngineSide.mk_iff])
    | split

theorem takeArmed_engineSide {s : State} {utype : Nat} {unit : Nat} {mechs : List Mech} (h : EngineSide v s) :
    EngineSide v (takeArmed s utype unit mechs).2 := by
  unfold takeArmed
  repeat' first
    | (with_reducible first | assumption | intro _ | apply EngineSide.c)
    | (simp only [EngineSide.mk_iff])
    | split

theorem takeHit_engineSide {s : State} {utype : Nat} {unit : Nat} {mechs : List Mech} {hit : Option Mech} {loc : Nat ×
    Nat}
    (h : EngineSide v s) : EngineSide v (takeHit s utype unit mechs hit loc).2 := by
  unfold takeHit safeFault
  repeat' first
    | (with_reducible first | assumption | apply takeArmed_engineSide | apply raiseFault_engineSide | intro _)
    | (simp only [EngineSide.mk_iff])
    | split

theorem sendEmber_engineSide {s : State} {src : Nat} {dst : Nat} {w : EmberWhat} (h : EngineSide v s) :
    EngineSide v (sendEmber s src dst w) := by
  unfold sendEmber
  repeat' first
    | (with_reducible first | assumption | intro _ | apply EngineSide.c)
    | (simp only [EngineSide.mk_iff])
    | split

theorem nameSlot_engineSide {s : State} {core : Nat} {job : Nat} {slot : Nat} (h : EngineSide v s) :
    EngineSide v (nameSlot s core job slot) := by
  unfold nameSlot
  repeat' first
    | (with_reducible first | assumption | intro _ | apply EngineSide.c)
    | (simp only [EngineSide.mk_iff])
    | split

theorem onLine_engineSide {s : State} {core : Nat} {job : Nat} {slot : Nat} {f : TLine → TLine} (h : EngineSide v s) :
    EngineSide v (onLine s core job slot f) := by
  unfold onLine
  repeat' first
    | (with_reducible first | assumption | intro _ | apply nameSlot_engineSide | apply EngineSide.c)
    | (simp only [EngineSide.mk_iff])
    | split

theorem tallyCore_engineSide {s : State} {core : Nat} {job : Nat} {slot : Nat} {d : Tally} (h : EngineSide v s) :
    EngineSide v (tallyCore s core job slot d) := by
  unfold tallyCore
  repeat' first
    | (with_reducible first | apply onLine_engineSide)
    | (with_reducible first | assumption | intro _ | apply nameSlot_engineSide | apply EngineSide.c)
    | (simp only [EngineSide.mk_iff])
    | split

theorem tallyOp_engineSide {s : State} {core : Nat} {o : OpRec} {d : Tally} (h : EngineSide v s) :
    EngineSide v (tallyOp s core o d) := by
  unfold tallyOp
  repeat' first
    | (with_reducible first | assumption | intro _ | apply tallyCore_engineSide | apply EngineSide.c)
    | (simp only [EngineSide.mk_iff])
    | split

theorem tallyHold_engineSide {s : State} {core : Nat} {o : OpRec} {op : Nat} {tile : Nat} {d : Tally} (h : EngineSide
    v s) :
    EngineSide v (tallyHold s core o op tile d) := by
  unfold tallyHold
  repeat' first
    | (with_reducible first | assumption | intro _ | apply onLine_engineSide | apply EngineSide.c)
    | (simp only [EngineSide.mk_iff])
    | split

theorem onTallies_engineSide {s : State} {f : TLine → TLine} (h : EngineSide v s) :
    EngineSide v (onTallies s f) := by
  unfold onTallies
  repeat' first
    | (with_reducible first | assumption | intro _ | apply EngineSide.c)
    | (simp only [EngineSide.mk_iff])
    | split

theorem tallyDrop_engineSide {s : State} {op : Nat} {tile : Nat} (h : EngineSide v s) :
    EngineSide v (tallyDrop s op tile) := by
  unfold tallyDrop
  repeat' first
    | (with_reducible first | assumption | intro _ | apply onTallies_engineSide | apply EngineSide.c)
    | (simp only [EngineSide.mk_iff])
    | split

theorem tallyDropOp_engineSide {s : State} {op : Nat} (h : EngineSide v s) :
    EngineSide v (tallyDropOp s op) := by
  unfold tallyDropOp
  repeat' first
    | (with_reducible first | assumption | intro _ | apply onTallies_engineSide | apply EngineSide.c)
    | (simp only [EngineSide.mk_iff])
    | split

theorem tallyKeep_engineSide {s : State} {op : Nat} {tile : Nat} (h : EngineSide v s) :
    EngineSide v (tallyKeep s op tile) := by
  unfold tallyKeep
  repeat' first
    | (with_reducible first | assumption | intro _ | apply EngineSide.foldl | apply EngineSide.foldlFst)
    | (with_reducible first | apply EngineSide.foldlSnd | apply onTallies_engineSide | apply EngineSide.c)
    | (simp only [EngineSide.mk_iff])
    | split

theorem setEng_engineSide {s : State} {e : Nat} {g : Engine} (h : EngineSide v s) :
    EngineSide v (setEng s e g) := by
  unfold setEng
  repeat' first
    | (with_reducible first | assumption | intro _ | apply EngineSide.c)
    | (simp only [EngineSide.mk_iff])
    | split

theorem setCur_engineSide {s : State} {e : Nat} {t : Option TileRun} (h : EngineSide v s) :
    EngineSide v (setCur s e t) := by
  unfold setCur
  repeat' first
    | (with_reducible first | assumption | intro _ | apply setEng_engineSide | apply EngineSide.c)
    | (simp only [EngineSide.mk_iff])
    | split

theorem setOp_engineSide {s : State} {k : Nat} {o : Option OpRec} (h : EngineSide v s) :
    EngineSide v (setOp s k o) := by
  unfold setOp
  repeat' first
    | (with_reducible first | assumption | intro _ | apply EngineSide.c)
    | (simp only [EngineSide.mk_iff])
    | split

theorem coreEvent_engineSide {s : State} {core : Nat} {j : Nat} {source : Nat} {kind : Nat} {code : Nat} {data : Nat}
    (h : EngineSide v s) :
    EngineSide v (coreEvent s core j source kind code data) := by
  unfold coreEvent
  repeat' first
    | (with_reducible first | assumption | intro _ | apply localEvent_engineSide | apply EngineSide.c)
    | (simp only [EngineSide.mk_iff])
    | split

theorem dropTiles_engineSide {s : State} {k : Nat} (h : EngineSide v s) :
    EngineSide v (dropTiles s k) := by
  unfold dropTiles
  repeat' first
    | (with_reducible first | apply tallyDropOp_engineSide)
    | (with_reducible first | assumption | intro _ | apply EngineSide.c)
    | (simp only [EngineSide.mk_iff])
    | split

theorem failOp_engineSide {s : State} {k : Nat} {code : Nat} (h : EngineSide v s) :
    EngineSide v (failOp s k code) := by
  unfold failOp
  repeat' first
    | (with_reducible first | assumption | intro _ | apply setOp_engineSide | apply dropTiles_engineSide | apply EngineSide.c)
    | (simp only [EngineSide.mk_iff])
    | split

theorem takeSaved_engineSide {s : State} {e : Nat} (h : EngineSide v s) :
    EngineSide v (takeSaved s e) := by
  unfold takeSaved
  repeat' first
    | (with_reducible first | assumption | intro _ | apply setCur_engineSide | apply setEng_engineSide | apply EngineSide.c)
    | (simp only [EngineSide.mk_iff])
    | split

theorem takeTile_engineSide {s : State} {e : Nat} (h : EngineSide v s) :
    EngineSide v (takeTile s e) := by
  unfold takeTile
  repeat' first
    | (with_reducible first | apply takeSaved_engineSide)
    | (with_reducible first | assumption | intro _ | apply setEng_engineSide | apply setCur_engineSide | apply EngineSide.c)
    | (simp only [EngineSide.mk_iff])
    | split

theorem restartTile_engineSide {s : State} {e : Nat} {t : TileRun} (h : EngineSide v s) :
    EngineSide v (restartTile s e t) := by
  unfold restartTile
  repeat' first
    | (with_reducible first | assumption | intro _ | apply setCur_engineSide | apply tallyDrop_engineSide | apply EngineSide.c)
    | (simp only [EngineSide.mk_iff])
    | split

theorem spillOldest_engineSide {s : State} {core : Nat} (h : EngineSide v s) :
    EngineSide v (spillOldest s core) := by
  unfold spillOldest
  repeat' first
    | (with_reducible first | assumption | intro _ | apply EngineSide.foldl | apply EngineSide.foldlFst)
    | (with_reducible first | apply EngineSide.foldlSnd | apply setEng_engineSide | apply EngineSide.c)
    | (simp only [EngineSide.mk_iff])
    | split

theorem settle_engineSide {s : State} {e : Nat} (h : EngineSide v s) :
    EngineSide v (settle s e) := by
  unfold settle
  repeat' first
    | (with_reducible first | assumption | intro _ | apply setEng_engineSide)
    | (with_reducible first | apply spillOldest_engineSide | apply EngineSide.c)
    | (simp only [EngineSide.mk_iff])
    | split

theorem misalignEvent_engineSide {s : State} {e : Nat} {o : OpRec} {t : TileRun} (h : EngineSide v s) :
    EngineSide v (misalignEvent s e o t) := by
  unfold misalignEvent
  repeat' first
    | (with_reducible first | assumption | intro _ | apply coreEvent_engineSide | apply failOp_engineSide | apply EngineSide.c)
    | (simp only [EngineSide.mk_iff])
    | split

theorem misalign_engineSide {s : State} {e : Nat} {o : OpRec} {t : TileRun} (h : EngineSide v s) :
    EngineSide v (misalign s e o t) := by
  unfold misalign
  repeat' first
    | (with_reducible first | assumption | intro _ | apply tallyOp_engineSide | apply coreEvent_engineSide)
    | (with_reducible first | apply misalignEvent_engineSide | apply restartTile_engineSide)
    | (with_reducible first | apply settle_engineSide)
    | (with_reducible first | apply failOp_engineSide | apply setCur_engineSide | apply EngineSide.c)
    | (simp only [EngineSide.mk_iff])
    | split

theorem reassignTile_engineSide {s : State} {e : Nat} {kt : Nat × Nat} {t : Option TileRun} (h : EngineSide v s) :
    EngineSide v (reassignTile s e kt t) := by
  unfold reassignTile
  repeat' first
    | (with_reducible first | assumption | intro _ | apply failOp_engineSide | apply setEng_engineSide)
    | (with_reducible first | apply tallyDrop_engineSide | apply EngineSide.c)
    | (simp only [EngineSide.mk_iff])
    | split

theorem retireEngine_engineSide {s : State} {e : Nat} (h : EngineSide v s) :
    EngineSide v (retireEngine s e) := by
  unfold retireEngine
  repeat' first
    | (with_reducible first | assumption | intro _ | apply EngineSide.foldl | apply EngineSide.foldlFst)
    | (with_reducible first | apply EngineSide.foldlSnd | apply setEng_engineSide | apply coreEvent_engineSide)
    | (with_reducible first | apply reassignTile_engineSide | apply EngineSide.c)
    | (simp only [EngineSide.mk_iff])
    | split

theorem engineFaultIn_engineSide {s : State} {e : Nat} {m : Mech} {inj : Bool} {slice : Nat} {row : Nat} {k : Nat} {n
    : Nat} (h : EngineSide v s) :
    EngineSide v (engineFaultIn s e m inj slice row k n) := by
  unfold engineFaultIn
  repeat' first
    | (with_reducible first | assumption | intro _ | apply failOp_engineSide | apply raiseFault_engineSide)
    | (with_reducible first | apply restartTile_engineSide | apply retireEngine_engineSide | apply setEng_engineSide)
    | (with_reducible first | apply EngineSideO.getD | apply EngineSide.c)
    | (simp only [EngineSide.mk_iff])
    | split

theorem engineFault_engineSide {s : State} {e : Nat} {m : Mech} {inj : Bool} {slice : Nat} {row : Nat} {k : Nat} {n :
    Nat} (h : EngineSide v s) :
    EngineSide v (engineFault s e m inj slice row k n) := by
  unfold engineFault
  repeat' first
    | (with_reducible first | assumption | intro _ | apply retireEngine_engineSide | apply raiseFault_engineSide)
    | (with_reducible first | apply engineFaultIn_engineSide | apply settle_engineSide)
    | (with_reducible first | apply setEng_engineSide | apply failOp_engineSide | apply setCur_engineSide | apply EngineSide.c)
    | (simp only [EngineSide.mk_iff])
    | split

theorem alsoMisaligned_engineSide {s : State} {e : Nat} {o : OpRec} {t : TileRun} (h : EngineSide v s) :
    EngineSide v (alsoMisaligned s e o t) := by
  unfold alsoMisaligned
  repeat' first
    | (with_reducible first | assumption | intro _ | apply misalign_engineSide | apply misalignEvent_engineSide)
    | (with_reducible first | apply tallyOp_engineSide | apply EngineSide.c)
    | (simp only [EngineSide.mk_iff])
    | split

theorem loadSlice_engineSide {s : State} {e : Nat} {o : OpRec} {t : TileRun} (h : EngineSide v s) :
    EngineSide v (loadSlice s e o t) := by
  unfold loadSlice
  repeat' first
    | (with_reducible first | assumption | intro _ | apply misalign_engineSide | apply feedCols_engineSide)
    | (with_reducible first | apply failOp_engineSide | apply setCur_engineSide | apply EngineSide.c)
    | (with_reducible refine EngineSide.snd (by assumption) ?_)
    | (simp only [EngineSide.mk_iff])
    | split

theorem stationaryLoad_engineSide {s0 : State} {e : Nat} {hit : Option Mech} (h : EngineSide v s0) :
    EngineSide v (stationaryLoad s0 e hit) := by
  unfold stationaryLoad
  repeat' first
    | (with_reducible first | assumption | intro _ | apply loadSlice_engineSide | apply takeHit_engineSide)
    | (with_reducible first | apply alsoMisaligned_engineSide)
    | (with_reducible first | apply takeTile_engineSide | apply engineFault_engineSide | apply setCur_engineSide | apply EngineSide.c)
    | (with_reducible refine EngineSide.snd (by assumption) ?_)
    | (simp only [EngineSide.mk_iff])
    | split

theorem beginChunk_engineSide {s : State} {e : Nat} {o : OpRec} {t : TileRun} (h : EngineSide v s) :
    EngineSide v (beginChunk s e o t) := by
  unfold beginChunk
  repeat' first
    | (with_reducible first | assumption | intro _ | apply setEng_engineSide | apply readRescale_engineSide)
    | (with_reducible first | apply failOp_engineSide | apply setCur_engineSide | apply EngineSide.c)
    | (with_reducible refine EngineSide.snd (by assumption) ?_)
    | (simp only [EngineSide.mk_iff])
    | split

theorem stepChunk_engineSide {s : State} {e : Nat} {o : OpRec} {t : TileRun} {c : Chunk} {hit : Option (Mech × Nat ×
    Nat)} (h : EngineSide v s) :
    EngineSide v (stepChunk s e o t c hit) := by
  unfold stepChunk
  repeat' first
    | (with_reducible first | assumption | intro _ | apply tallyOp_engineSide | apply setEng_engineSide)
    | (with_reducible first | apply misalign_engineSide | apply takeHit_engineSide | apply feedX_engineSide)
    | (with_reducible first | apply alsoMisaligned_engineSide | apply EngineSideO.getD)
    | (with_reducible first | apply engineFault_engineSide | apply failOp_engineSide | apply EngineSide.c)
    | (with_reducible refine EngineSide.snd (by assumption) ?_)
    | (simp only [EngineSide.mk_iff])
    | split

theorem arrayStep_engineSide {s : State} {e : Nat} {hit : Option (Mech × Nat × Nat)} (h : EngineSide v s) :
    EngineSide v (arrayStep s e hit) := by
  unfold arrayStep
  repeat' first
    | (with_reducible first | assumption | intro _ | apply beginChunk_engineSide | apply stepChunk_engineSide)
    | (with_reducible first | apply setCur_engineSide | apply EngineSide.c)
    | (simp only [EngineSide.mk_iff])
    | split

theorem enterCapture_engineSide {s : State} {e : Nat} {c : Option InvCap} (h : EngineSide v s) :
    EngineSide v (enterCapture s e c) := by
  unfold enterCapture
  repeat' first
    | (with_reducible first | assumption | intro _ | apply setEng_engineSide | apply coreEvent_engineSide | apply EngineSide.c)
    | (simp only [EngineSide.mk_iff])
    | split

theorem markOp_engineSide {s : State} {k : Nat} {f : OpRec → OpRec} (h : EngineSide v s) :
    EngineSide v (markOp s k f) := by
  unfold markOp
  repeat' first
    | (with_reducible first | assumption | intro _ | apply setOp_engineSide | apply EngineSide.c)
    | (simp only [EngineSide.mk_iff])
    | split

theorem sealChunk_engineSide {s : State} {e : Nat} {t : TileRun} {o : OpRec} {d : Tally} {cap : Option InvCap} (h :
    EngineSide v s) :
    EngineSide v (sealChunk s e t o d cap) := by
  unfold sealChunk
  repeat' first
    | (with_reducible first | assumption | intro _ | apply tallyOp_engineSide | apply setEng_engineSide)
    | (with_reducible first | apply tallyHold_engineSide)
    | (with_reducible first | apply enterCapture_engineSide | apply markOp_engineSide | apply EngineSide.c)
    | (simp only [EngineSide.mk_iff])
    | split

theorem checksumRowPass_engineSide {s : State} {e : Nat} {hit : Option Mech} (h : EngineSide v s) :
    EngineSide v (checksumRowPass s e hit) := by
  unfold checksumRowPass
  repeat' first
    | (with_reducible first | assumption | intro _ | apply settle_engineSide | apply sealChunk_engineSide)
    | (with_reducible first | apply takeHit_engineSide | apply enterCapture_engineSide | apply engineFault_engineSide)
    | (with_reducible first | apply failOp_engineSide | apply markOp_engineSide | apply setCur_engineSide | apply EngineSide.c)
    | (with_reducible refine EngineSide.snd (by assumption) ?_)
    | (simp only [EngineSide.mk_iff])
    | split

theorem acceptTile_engineSide {s : State} {e : Nat} {o : OpRec} {t : TileRun} (h : EngineSide v s) :
    EngineSide v (acceptTile s e o t) := by
  unfold acceptTile
  repeat' first
    | (with_reducible first | assumption | intro _ | apply setEng_engineSide | apply sealChunk_engineSide | apply EngineSide.c)
    | (simp only [EngineSide.mk_iff])
    | split

theorem judgeTile_engineSide {s : State} {e : Nat} {o : OpRec} {t : TileRun} {y : Tensor} (h : EngineSide v s) :
    EngineSide v (judgeTile s e o t y) := by
  unfold judgeTile
  repeat' first
    | (with_reducible first | assumption | intro _ | apply acceptTile_engineSide | apply setCur_engineSide | apply EngineSide.c)
    | (simp only [EngineSide.mk_iff])
    | split

theorem tileRoundDone_engineSide {s0 : State} {e : Nat} {hit : Option Mech} (h : EngineSide v s0) :
    EngineSide v (tileRoundDone s0 e hit) := by
  unfold tileRoundDone
  repeat' first
    | (with_reducible first | assumption | intro _ | apply settle_engineSide | apply takeHit_engineSide)
    | (with_reducible first | apply judgeTile_engineSide | apply takeTile_engineSide | apply readRescale_engineSide)
    | (with_reducible first | apply engineFault_engineSide | apply failOp_engineSide | apply setCur_engineSide | apply EngineSide.c)
    | (with_reducible refine EngineSide.snd (by assumption) ?_)
    | (simp only [EngineSide.mk_iff])
    | split

theorem drainDone_engineSide {s : State} {e : Nat} (h : EngineSide v s) :
    EngineSide v (drainDone s e) := by
  unfold drainDone
  repeat' first
    | (with_reducible first | assumption | intro _ | apply tallyOp_engineSide | apply setEng_engineSide | apply setOp_engineSide)
    | (with_reducible first | apply tallyKeep_engineSide | apply EngineSideO.getD)
    | (with_reducible first | apply coreEvent_engineSide | apply failOp_engineSide | apply writeMany_engineSide | apply EngineSide.c)
    | (with_reducible refine EngineSide.snd (by assumption) ?_)
    | (simp only [EngineSide.mk_iff])
    | split

theorem respinRequest_engineSide {s : State} {e : Nat} (h : EngineSide v s) :
    EngineSide v (respinRequest s e) := by
  unfold respinRequest
  repeat' first
    | (with_reducible first | assumption | intro _ | apply tallyOp_engineSide | apply acceptTile_engineSide)
    | (with_reducible first | apply tallyDrop_engineSide)
    | (with_reducible first | apply markOp_engineSide | apply setCur_engineSide | apply EngineSide.c)
    | (simp only [EngineSide.mk_iff])
    | split

theorem stageLines_engineSide {s : State} {o : OpRec} {t : TileRun} {die : Nat} {a4 : List (Bool × Nat × Nat)} (h :
    EngineSide v s) :
    EngineSide v (stageLines s o t die a4).2 := by
  induction a4 generalizing s o t die with
  | nil =>
    unfold stageLines
    repeat' first
      | (with_reducible first | assumption | intro _ | apply stageW_engineSide | apply stageX_engineSide | apply EngineSide.c)
      | (with_reducible refine EngineSide.snd (by assumption) ?_)
      | (simp only [EngineSide.mk_iff])
      | split
  | cons x r ih =>
    unfold stageLines
    repeat' first
      | (with_reducible first | assumption | intro _ | apply stageW_engineSide | apply stageX_engineSide | apply ih)
      | (with_reducible first | apply EngineSide.c)
      | (with_reducible refine EngineSide.snd (by assumption) ?_)
      | (simp only [EngineSide.mk_iff])
      | split

theorem stageReplay_engineSide {s : State} {e : Nat} {o : OpRec} {t : TileRun} (h : EngineSide v s) :
    EngineSide v (stageReplay s e o t) := by
  unfold stageReplay
  repeat' first
    | (with_reducible first | assumption | intro _ | apply failOp_engineSide | apply setCur_engineSide)
    | (with_reducible first | apply stageLines_engineSide | apply EngineSide.c)
    | (with_reducible refine EngineSide.snd (by assumption) ?_)
    | (simp only [EngineSide.mk_iff])
    | split

theorem replayStagingDone_engineSide {s : State} {e : Nat} (h : EngineSide v s) :
    EngineSide v (replayStagingDone s e) := by
  unfold replayStagingDone
  repeat' first
    | (with_reducible first | assumption | intro _ | apply prePass_engineSide | apply failOp_engineSide | apply setCur_engineSide)
    | (with_reducible first | apply stageReplay_engineSide)
    | (with_reducible first | apply EngineSide.c)
    | (with_reducible refine EngineSide.snd (by assumption) ?_)
    | (simp only [EngineSide.mk_iff])
    | split

theorem preemptRequest_engineSide {s : State} {e : Nat} (h : EngineSide v s) :
    EngineSide v (preemptRequest s e) := by
  unfold preemptRequest
  repeat' first
    | (with_reducible first | assumption | intro _ | apply settle_engineSide | apply setEng_engineSide | apply EngineSide.c)
    | (simp only [EngineSide.mk_iff])
    | split

theorem proofFailed_engineSide {s : State} {m : FaultMsg} (h : EngineSide v s) :
    EngineSide v (proofFailed s m) := by
  unfold proofFailed
  repeat' first
    | (with_reducible first | assumption | intro _ | apply raiseFault_engineSide | apply dcount_engineSide | apply EngineSide.c)
    | (simp only [EngineSide.mk_iff])
    | split

theorem coreProof_engineSide {s : State} {core : Nat} {c : CoreProof} (h : EngineSide v s) :
    EngineSide v (coreProof s core c) := by
  unfold coreProof
  repeat' first
    | (with_reducible first | assumption | intro _ | apply EngineSide.foldl | apply EngineSide.foldlFst)
    | (with_reducible first | apply EngineSide.foldlSnd | apply proofFailed_engineSide | apply EngineSide.c)
    | (simp only [EngineSide.mk_iff])
    | split

theorem engineProof_engineSide {s : State} {e : Nat} {fails : Bool} {c : CoreProof} (h : EngineSide v s) :
    EngineSide v (engineProof s e fails c) := by
  unfold engineProof
  repeat' first
    | (with_reducible first | assumption | intro _ | apply retireEngine_engineSide | apply proofFailed_engineSide)
    | (with_reducible first | apply setEng_engineSide | apply coreProof_engineSide | apply drawFree_engineSide | apply EngineSide.c)
    | (with_reducible refine EngineSide.snd (by assumption) ?_)
    | (simp only [EngineSide.mk_iff])
    | split

theorem proofTest_engineSide {s : State} {e : Nat} {fails : Bool} {c : CoreProof} (h : EngineSide v s) :
    EngineSide v (proofTest s e fails c) := by
  unfold proofTest
  repeat' first
    | (with_reducible first | assumption | intro _ | apply engineProof_engineSide | apply takeTile_engineSide | apply EngineSide.c)
    | (simp only [EngineSide.mk_iff])
    | split

theorem setCluster_engineSide {s : State} {c : Nat} {p : ClusterPw} (h : EngineSide v s) :
    EngineSide v (setCluster s c p) := by
  unfold setCluster
  repeat' first
    | (with_reducible first | assumption | intro _ | apply EngineSide.c)
    | (simp only [EngineSide.mk_iff])
    | split

theorem condEvent_engineSide {s : State} {c : Nat} {old : Nat} (h : EngineSide v s) :
    EngineSide v (condEvent s c old) := by
  unfold condEvent
  repeat' first
    | (with_reducible first | assumption | intro _ | apply localEvent_engineSide | apply EngineSide.c)
    | (simp only [EngineSide.mk_iff])
    | split

theorem sendCaps_engineSide {s : State} {c : Nat} {hold : Bool} (h : EngineSide v s) :
    EngineSide v (sendCaps s c hold) := by
  unfold sendCaps
  repeat' first
    | (with_reducible first | assumption | intro _ | apply EngineSide.foldl | apply EngineSide.foldlFst)
    | (with_reducible first | apply EngineSide.foldlSnd | apply sendEmber_engineSide | apply EngineSide.c)
    | (simp only [EngineSide.mk_iff])
    | split

theorem updCluster_engineSide {s : State} {c : Nat} {f : ClusterPw → ClusterPw} (h : EngineSide v s) :
    EngineSide v (updCluster s c f) := by
  unfold updCluster
  repeat' first
    | (with_reducible first | assumption | intro _ | apply condEvent_engineSide | apply dset_engineSide)
    | (with_reducible first | apply sendCaps_engineSide)
    | (with_reducible first | apply setCluster_engineSide | apply EngineSide.c)
    | (simp only [EngineSide.mk_iff])
    | split

theorem dampCheck_engineSide {s : State} {c : Nat} (h : EngineSide v s) :
    EngineSide v (dampCheck s c) := by
  unfold dampCheck
  repeat' first
    | (with_reducible first | assumption | intro _ | apply updCluster_engineSide | apply EngineSide.c)
    | (simp only [EngineSide.mk_iff])
    | split

/-- What an engine does is no more than what it does to its own side. -/
theorem engineAct_engineSide {s : State} {e : Nat} {f : State → State} (hf : EngineSide s (f s)) :
    EngineSide s (engineAct s e f) := by
  unfold engineAct
  split
  · exact dampCheck_engineSide hf
  · exact .refl s

end Sys2Proof.Machine
end

