-- ==== Sys2Proof/Proofs/BookSide.lean ====
section
/-!
PROOF. The bookkeeping beside an engine's work: tallies, operation flags, events, faults, ember messages, and the power of clusters.
`BookSide u t` says that `t` is `u` in all else, so engines, memory, reports and storms stay.
-/

namespace Sys2Proof.Machine

set_option linter.unusedSimpArgs false

/-- A state without the books kept beside an engine's work. -/
def State.bookless (s : State) : State :=
  { s with free := 0, dict := [], ev := {}, flt := {}, ops := [], tlines := [], tin := [], pw := {} }

/-- All but the books kept beside an engine's work is as in `u`. -/
def BookSide (u t : State) : Prop := t.bookless = u.bookless

variable {v : State}

/-- `BookSide` of a state's fields. -/
def BookSideC (v : State) (x_pending : List Instr) (x_mem : MemSys) (x_knotq : List KnotMsg) (x_knots : Tab Nat)
    (x_knotsLost : List Nat) (x_engines : Tab Engine) (x_nextOp : Nat) (x_jobs : Tab Job) (x_raq : List RaReq)
    (x_storm : Storm) (x_reports : List Report) (x_gens : Tab Gen) (x_tout : Tab (List TLine)) (x_swapJob : Option
    Nat) (x_swapped : List Nat) (x_seqs : Tab Seqr) (x_saved : List Saved) (x_q : QSys) (x_pcie : PcieFn) (x_cord :
    CordSys) (x_ck : CkSys) (x_snap : SnapSys) (x_rst : RstSys) (x_flash : FlashSys) (x_dsys : DictSys) (x_sec :
    SecSys) (x_d3 : Bool) (x_heldHost : List OutMsg) (x_out : List OutMsg) : Prop :=
  State.mk x_pending 0 [] x_mem {} {} x_knotq x_knots x_knotsLost x_engines [] x_nextOp x_jobs x_raq x_storm x_reports
    x_gens [] [] x_tout x_swapJob x_swapped x_seqs x_saved x_q x_pcie {} x_cord x_ck x_snap x_rst x_flash x_dsys x_sec
    x_d3 x_heldHost x_out = v.bookless

theorem BookSide.mk_iff x_pending x_free x_dict x_mem x_ev x_flt x_knotq x_knots x_knotsLost x_engines x_ops x_nextOp
    x_jobs x_raq x_storm x_reports x_gens x_tlines x_tin x_tout x_swapJob x_swapped x_seqs x_saved x_q x_pcie x_pw
    x_cord x_ck x_snap x_rst x_flash x_dsys x_sec x_d3 x_heldHost x_out :
    BookSide v (State.mk x_pending x_free x_dict x_mem x_ev x_flt x_knotq x_knots x_knotsLost x_engines x_ops x_nextOp
      x_jobs x_raq x_storm x_reports x_gens x_tlines x_tin x_tout x_swapJob x_swapped x_seqs x_saved x_q x_pcie x_pw
      x_cord x_ck x_snap x_rst x_flash x_dsys x_sec x_d3 x_heldHost x_out) =
      BookSideC v x_pending x_mem x_knotq x_knots x_knotsLost x_engines x_nextOp x_jobs x_raq x_storm x_reports x_gens
      x_tout x_swapJob x_swapped x_seqs x_saved x_q x_pcie x_cord x_ck x_snap x_rst x_flash x_dsys x_sec x_d3
      x_heldHost x_out :=
  Eq.trans rfl rfl

theorem BookSide.c {s : State} (h : BookSide v s) : BookSideC v s.pending s.mem s.knotq s.knots s.knotsLost s.engines
    s.nextOp s.jobs s.raq s.storm s.reports s.gens s.tout s.swapJob s.swapped s.seqs s.saved s.q s.pcie s.cord s.ck
    s.snap s.rst s.flash s.dsys s.sec s.d3 s.heldHost s.out := h

theorem BookSide.refl (s : State) : BookSide s s := rfl

theorem BookSide.trans {s t u : State} (h : BookSide s t) (h' : BookSide t u) : BookSide s u := Eq.trans h' h

theorem BookSide.snd {α : Type} {r : α × State} {x : α} {t : State} (e : r = (x, t)) (h : BookSide v r.2) : BookSide v t := by
  subst e; exact h

theorem BookSide.foldl {α : Type} {f : State → α → State} {l : List α} {s : State}
    (hf : ∀ t x, BookSide v t → BookSide v (f t x)) (h : BookSide v s) : BookSide v (l.foldl f s) := by
  induction l generalizing s with
  | nil => exact h
  | cons x r ih => exact ih (hf s x h)

theorem BookSide.engines {s t : State} (h : BookSide s t) : t.engines = s.engines :=
  (congrArg State.engines h : t.bookless.engines = s.bookless.engines)

theorem BookSide.mem {s t : State} (h : BookSide s t) : t.mem = s.mem :=
  (congrArg State.mem h : t.bookless.mem = s.bookless.mem)

theorem BookSide.reports {s t : State} (h : BookSide s t) : t.reports = s.reports :=
  (congrArg State.reports h : t.bookless.reports = s.bookless.reports)

theorem BookSide.storm {s t : State} (h : BookSide s t) : t.storm = s.storm :=
  (congrArg State.storm h : t.bookless.storm = s.bookless.storm)

theorem BookSide.jobs {s t : State} (h : BookSide s t) : t.jobs = s.jobs :=
  (congrArg State.jobs h : t.bookless.jobs = s.bookless.jobs)

theorem dset_bookSide {s : State} {key : Nat} {a2 : Nat} (h : BookSide v s) :
    BookSide v (dset s key a2) := by
  unfold dset
  repeat' first
    | (with_reducible first | assumption | intro _ | apply BookSide.c)
    | (simp only [BookSide.mk_iff])
    | split

theorem dcount_bookSide {s : State} {key : Nat} {n : Nat} (h : BookSide v s) :
    BookSide v (dcount s key n) := by
  unfold dcount
  repeat' first
    | (with_reducible first | assumption | intro _ | apply dset_bookSide | apply BookSide.c)
    | (simp only [BookSide.mk_iff])
    | split

theorem localEvent_bookSide {s : State} {ctl : Nat} {bit : Nat} {source : Nat} {kind : Nat} {code : Nat} {data : Nat}
    (h : BookSide v s) :
    BookSide v (localEvent s ctl bit source kind code data) := by
  unfold localEvent
  repeat' first
    | (with_reducible first | assumption | intro _ | apply BookSide.c)
    | (simp only [BookSide.mk_iff])
    | split

theorem emberCredit_bookSide {s : State} {src : Nat} (h : BookSide v s) :
    BookSide v (emberCredit s src) := by
  unfold emberCredit
  repeat' first
    | (with_reducible first | assumption | intro _ | apply BookSide.c)
    | (simp only [BookSide.mk_iff])
    | split

theorem sendEmber_bookSide {s : State} {src : Nat} {dst : Nat} {w : EmberWhat} (h : BookSide v s) :
    BookSide v (sendEmber s src dst w) := by
  unfold sendEmber
  repeat' first
    | (with_reducible first | assumption | intro _ | apply BookSide.c)
    | (simp only [BookSide.mk_iff])
    | split

theorem raiseFault_bookSide {s : State} {m : FaultMsg} (h : BookSide v s) :
    BookSide v (raiseFault s m) := by
  unfold raiseFault
  repeat' first
    | (with_reducible first | assumption | intro _ | apply BookSide.c)
    | (simp only [BookSide.mk_iff])
    | split

theorem takeArmed_bookSide {s : State} {utype : Nat} {unit : Nat} {mechs : List Mech} (h : BookSide v s) :
    BookSide v (takeArmed s utype unit mechs).2 := by
  unfold takeArmed
  repeat' first
    | (with_reducible first | assumption | intro _ | apply BookSide.c)
    | (simp only [BookSide.mk_iff])
    | split

theorem nameSlot_bookSide {s : State} {core : Nat} {job : Nat} {slot : Nat} (h : BookSide v s) :
    BookSide v (nameSlot s core job slot) := by
  unfold nameSlot
  repeat' first
    | (with_reducible first | assumption | intro _ | apply BookSide.c)
    | (simp only [BookSide.mk_iff])
    | split

theorem onLine_bookSide {s : State} {core : Nat} {job : Nat} {slot : Nat} {f : TLine → TLine} (h : BookSide v s) :
    BookSide v (onLine s core job slot f) := by
  unfold onLine
  repeat' first
    | (with_reducible first | assumption | intro _ | apply nameSlot_bookSide | apply BookSide.c)
    | (simp only [BookSide.mk_iff])
    | split

theorem tallyCore_bookSide {s : State} {core : Nat} {job : Nat} {slot : Nat} {d : Tally} (h : BookSide v s) :
    BookSide v (tallyCore s core job slot d) := by
  unfold tallyCore
  repeat' first
    | (with_reducible first | apply onLine_bookSide)
    | (with_reducible first | assumption | intro _ | apply nameSlot_bookSide | apply BookSide.c)
    | (simp only [BookSide.mk_iff])
    | split

theorem tallyOp_bookSide {s : State} {core : Nat} {o : OpRec} {d : Tally} (h : BookSide v s) :
    BookSide v (tallyOp s core o d) := by
  unfold tallyOp
  repeat' first
    | (with_reducible first | assumption | intro _ | apply tallyCore_bookSide | apply BookSide.c)
    | (simp only [BookSide.mk_iff])
    | split

theorem tallyHold_bookSide {s : State} {core : Nat} {o : OpRec} {op : Nat} {tile : Nat} {d : Tally} (h : BookSide v s)
    :
    BookSide v (tallyHold s core o op tile d) := by
  unfold tallyHold
  repeat' first
    | (with_reducible first | assumption | intro _ | apply onLine_bookSide | apply BookSide.c)
    | (simp only [BookSide.mk_iff])
    | split

theorem onTallies_bookSide {s : State} {f : TLine → TLine} (h : BookSide v s) :
    BookSide v (onTallies s f) := by
  unfold onTallies
  repeat' first
    | (with_reducible first | assumption | intro _ | apply BookSide.c)
    | (simp only [BookSide.mk_iff])
    | split

theorem tallyDrop_bookSide {s : State} {op : Nat} {tile : Nat} (h : BookSide v s) :
    BookSide v (tallyDrop s op tile) := by
  unfold tallyDrop
  repeat' first
    | (with_reducible first | assumption | intro _ | apply onTallies_bookSide | apply BookSide.c)
    | (simp only [BookSide.mk_iff])
    | split

theorem tallyKeep_bookSide {s : State} {op : Nat} {tile : Nat} (h : BookSide v s) :
    BookSide v (tallyKeep s op tile) := by
  unfold tallyKeep
  repeat' first
    | (with_reducible first | assumption | intro _ | apply BookSide.foldl | apply BookSide.foldlFst)
    | (with_reducible first | apply BookSide.foldlSnd | apply onTallies_bookSide | apply BookSide.c)
    | (simp only [BookSide.mk_iff])
    | split

theorem setOp_bookSide {s : State} {k : Nat} {o : Option OpRec} (h : BookSide v s) :
    BookSide v (setOp s k o) := by
  unfold setOp
  repeat' first
    | (with_reducible first | assumption | intro _ | apply BookSide.c)
    | (simp only [BookSide.mk_iff])
    | split

theorem coreEvent_bookSide {s : State} {core : Nat} {j : Nat} {source : Nat} {kind : Nat} {code : Nat} {data : Nat} (h
    : BookSide v s) :
    BookSide v (coreEvent s core j source kind code data) := by
  unfold coreEvent
  repeat' first
    | (with_reducible first | assumption | intro _ | apply localEvent_bookSide | apply BookSide.c)
    | (simp only [BookSide.mk_iff])
    | split

theorem markOp_bookSide {s : State} {k : Nat} {f : OpRec → OpRec} (h : BookSide v s) :
    BookSide v (markOp s k f) := by
  unfold markOp
  repeat' first
    | (with_reducible first | assumption | intro _ | apply setOp_bookSide | apply BookSide.c)
    | (simp only [BookSide.mk_iff])
    | split

theorem setCluster_bookSide {s : State} {c : Nat} {p : ClusterPw} (h : BookSide v s) :
    BookSide v (setCluster s c p) := by
  unfold setCluster
  repeat' first
    | (with_reducible first | assumption | intro _ | apply BookSide.c)
    | (simp only [BookSide.mk_iff])
    | split

theorem condEvent_bookSide {s : State} {c : Nat} {old : Nat} (h : BookSide v s) :
    BookSide v (condEvent s c old) := by
  unfold condEvent
  repeat' first
    | (with_reducible first | assumption | intro _ | apply localEvent_bookSide | apply BookSide.c)
    | (simp only [BookSide.mk_iff])
    | split

theorem sendCaps_bookSide {s : State} {c : Nat} {hold : Bool} (h : BookSide v s) :
    BookSide v (sendCaps s c hold) := by
  unfold sendCaps
  repeat' first
    | (with_reducible first | assumption | intro _ | apply BookSide.foldl | apply BookSide.foldlFst)
    | (with_reducible first | apply BookSide.foldlSnd | apply sendEmber_bookSide | apply BookSide.c)
    | (simp only [BookSide.mk_iff])
    | split

theorem updCluster_bookSide {s : State} {c : Nat} {f : ClusterPw → ClusterPw} (h : BookSide v s) :
    BookSide v (updCluster s c f) := by
  unfold updCluster
  repeat' first
    | (with_reducible first | assumption | intro _ | apply condEvent_bookSide | apply dset_bookSide)
    | (with_reducible first | apply sendCaps_bookSide)
    | (with_reducible first | apply setCluster_bookSide | apply BookSide.c)
    | (simp only [BookSide.mk_iff])
    | split

theorem dampCheck_bookSide {s : State} {c : Nat} (h : BookSide v s) :
    BookSide v (dampCheck s c) := by
  unfold dampCheck
  repeat' first
    | (with_reducible first | assumption | intro _ | apply updCluster_bookSide | apply BookSide.c)
    | (simp only [BookSide.mk_iff])
    | split

theorem getEng_of_bookSide {s t : State} {e : Nat} (h : BookSide s t) : getEng t e = getEng s e :=
  by unfold getEng; rw [h.engines]

theorem getEng_of_memOnly {s t : State} {e : Nat} (h : MemOnly s t) : getEng t e = getEng s e :=
  by unfold getEng; rw [h.engines]

end Sys2Proof.Machine
end

