-- ==== Sys2Proof/Proofs/Writes.lean ====
section
/-!
PROOF. What a written entry comes to: a write that may be made carries out its effect, and the entry's written value is no longer apart
from the acting one (R428–R430, R447).
-/

namespace Sys2Proof.Machine

/-- The entries that a rule of the configuration binds (R446). -/
def boundKeys : List Nat :=
  [Key.zoneNearUnits, Key.zoneExplUnits, Key.zoneDieUnits, Key.hearthScratchWays, Key.replayArenaMib, Key.powerCap, Key.feedIlim,
    Key.feedAOvr, Key.feedBOvr, Key.draughtMax, Key.draughtFixed, Key.draughtFixed + 1, Key.draughtFixed + 2, Key.draughtFixed + 3]

/-- The entries whose write is none of the commands and of the plain writes. -/
def blockKeys : List Nat := [Key.dictLoadDefaults, Key.fwStageData, Key.attNonce, Key.enrolChainData]

/-- No rule binds an entry that is not in the list. -/
theorem breaksRule_of_unbound {s : State} {key : Nat} (h : key ∉ boundKeys) : breaksRule s key = false := by
  simp only [boundKeys, List.mem_cons, List.not_mem_nil, or_false, not_or] at h
  obtain ⟨h1, h2, h3, h4, h5, h6, h7, h8, h9, h10, h11, h12, h13, h14⟩ := h
  simp only [breaksRule, configRules, List.any_cons, List.any_nil, List.contains_eq_mem, List.mem_cons, List.not_mem_nil, or_false,
    List.map_cons, List.map_nil, show List.range 4 = [0, 1, 2, 3] from rfl, Nat.add_zero, decide_false, Bool.and_false, Bool.or_false, *]

/-- The bytes of an entry. -/
def keyBytes (key : Nat) : Nat := (((findMeta key).map EMeta.ty).getD ETy.u8).bytes

theorem ownWrite_of_effect {s t : State} {key v : Nat} {x : Outside} (h : mayWrite s key v) (hk : key ∉ blockKeys)
    (he : writeEffect s key (leBytes (keyBytes key) v) x = (t, 0)) (hb : inHold s = true ∨ breaksRule t key = false) :
    ownWrite s key v x = t := by
  obtain ⟨hserved, hstatus⟩ := h
  have hd : key ≠ Key.dictLoadDefaults := fun e => hk (by simp [blockKeys, e])
  have hrule : (!inHold s && breaksRule t key) = false := by
    obtain hb | hb := hb <;> simp [hb]
  have hstore : entryStore s key (leBytes (keyBytes key) v) x = (t, 0) := by
    unfold entryStore
    rw [he]
    exact if_neg (ne_true_of_eq_false hrule)
  have hentry : entryWrite s .mirror key (((findMeta key).map EMeta.ty).getD ETy.u8).code (leBytes (keyBytes key) v) x = (t, 0) := by
    unfold entryWrite
    dsimp only
    rw [if_neg (fun hn => hn hstatus), if_neg hd, hstore]
  have hreported : reportedWrite s .mirror key (((findMeta key).map EMeta.ty).getD ETy.u8).code (leBytes (keyBytes key) v) x =
      (t, 0) := by
    unfold reportedWrite
    rw [hentry]
    rfl
  unfold ownWrite
  rw [if_neg (by rw [hserved]; decide)]
  exact congrArg Prod.fst hreported

theorem writeEffect_of_command {s t : State} {key st : Nat} {b : List Byte} {x : Outside} (hk : key ∉ blockKeys)
    (hc : commandWrite s key (leNat b) x = some (t, st)) : writeEffect s key b x = (writtenGone t key, st) := by
  simp only [blockKeys, List.mem_cons, List.not_mem_nil, or_false, not_or] at hk
  obtain ⟨-, h1, h2, h3⟩ := hk
  unfold writeEffect
  dsimp only
  rw [if_neg h1, if_neg h2, if_neg h3, hc]
  rfl

/-- A command entry's write has the command's effect. -/
theorem ownWrite_of_command {s t : State} {key v : Nat} {x : Outside} (h : mayWrite s key v) (hk : key ∉ blockKeys ++ boundKeys)
    (hv : v < 256 ^ keyBytes key) (hc : commandWrite s key v x = some (t, 0)) : ownWrite s key v x = writtenGone t key := by
  rw [List.mem_append, not_or] at hk
  refine ownWrite_of_effect h hk.1 (writeEffect_of_command hk.1 ?_) (.inr (breaksRule_of_unbound hk.2))
  rw [leNat_leBytes, Nat.mod_eq_of_lt hv, hc]

/-! ### Entries of runs, plain writes and refused writes -/

/-- The entries of `commandWrite`. -/
def commandKeys : List Nat :=
  [Key.resetCmd, Key.fwStageCmd, Key.powerStateCmd, Key.stormRelease, Key.faultInject, Key.alertAck, Key.engineUnretire,
    Key.cordPeerCount, Key.partnerHolder, Key.partnerOf, Key.freezeNow, Key.restoreCmd, Key.dictCommit, Key.evtHold, Key.snapTrigger,
    Key.snapResume, Key.serviceOpenCmd, Key.attCmd, Key.enrolCmd, Key.attReportOffset]

theorem commandWrite_none {s : State} {key v : Nat} {x : Outside} (h : key ∉ commandKeys) : commandWrite s key v x = none := by
  simp only [commandKeys, List.mem_cons, List.not_mem_nil, or_false, not_or] at h
  obtain ⟨h1, h2, h3, h4, h5, h6, h7, h8, h9, h10, h11, h12, h13, h14, h15, h16, h17, h18, h19, h20⟩ := h
  unfold commandWrite
  rw [if_neg h1, if_neg h2, if_neg h3, if_neg h4, if_neg h5, if_neg h6, if_neg h7, if_neg h8, if_neg h9, if_neg h10, if_neg h11,
    if_neg h12, if_neg h13, if_neg h14, if_neg h15, if_neg h16, if_neg h17, if_neg h18, if_neg h19, if_neg h20]

/-- The entries whose write is no command, no block and not bound by a rule. -/
def namedKeys : List Nat := blockKeys ++ (boundKeys ++ commandKeys)

theorem not_mem_namedKeys {key : Nat} (h : key ∉ namedKeys) : key ∉ blockKeys ∧ key ∉ boundKeys ∧ key ∉ commandKeys := by
  simpa only [namedKeys, List.mem_append, not_or] using h

theorem writeEffect_of_run {s t : State} {key st : Nat} {b : List Byte} {x : Outside} (hk : key ∉ namedKeys)
    (hr : runWrite s key (leNat b) = some (t, st)) : writeEffect s key b x = (writtenGone t key, st) := by
  obtain ⟨hb, -, hc⟩ := not_mem_namedKeys hk
  simp only [blockKeys, List.mem_cons, List.not_mem_nil, or_false, not_or] at hb
  obtain ⟨-, h1, h2, h3⟩ := hb
  unfold writeEffect
  dsimp only
  rw [if_neg h1, if_neg h2, if_neg h3, commandWrite_none hc, hr]
  rfl

theorem writeEffect_of_plain {s : State} {key : Nat} {b : List Byte} {x : Outside} (hk : key ∉ namedKeys)
    (hr : runWrite s key (leNat b) = none) : writeEffect s key b x = plainWrite s key (leNat b) := by
  obtain ⟨hb, -, hc⟩ := not_mem_namedKeys hk
  simp only [blockKeys, List.mem_cons, List.not_mem_nil, or_false, not_or] at hb
  obtain ⟨-, h1, h2, h3⟩ := hb
  unfold writeEffect
  dsimp only
  rw [if_neg h1, if_neg h2, if_neg h3, commandWrite_none hc, hr]

theorem leNat_keyBytes {key v : Nat} (hv : v < 256 ^ keyBytes key) : leNat (leBytes (keyBytes key) v) = v := by
  rw [leNat_leBytes, Nat.mod_eq_of_lt hv]

/-- A write of an entry of a run has the run's effect. -/
theorem ownWrite_of_run {s t : State} {key v : Nat} {x : Outside} (h : mayWrite s key v) (hk : key ∉ namedKeys)
    (hv : v < 256 ^ keyBytes key) (hr : runWrite s key v = some (t, 0)) : ownWrite s key v x = writtenGone t key :=
  ownWrite_of_effect h (not_mem_namedKeys hk).1 (writeEffect_of_run hk (by rw [leNat_keyBytes hv, hr]))
    (.inr (breaksRule_of_unbound (not_mem_namedKeys hk).2.1))

/-- A plain write stores its value. -/
theorem ownWrite_of_plain {s t : State} {key v : Nat} {x : Outside} (h : mayWrite s key v) (hk : key ∉ namedKeys)
    (hv : v < 256 ^ keyBytes key) (hr : runWrite s key v = none) (hp : plainWrite s key v = (t, 0)) : ownWrite s key v x = t :=
  ownWrite_of_effect h (not_mem_namedKeys hk).1 (by rw [writeEffect_of_plain hk (by rw [leNat_keyBytes hv, hr]), leNat_keyBytes hv, hp])
    (.inr (breaksRule_of_unbound (not_mem_namedKeys hk).2.1))

/-- A write whose effect is refused is reported, and changes nothing else. -/
theorem ownWrite_refused {s t : State} {key v st : Nat} {x : Outside} (h : mayWrite s key v) (hk : key ∉ blockKeys)
    (he : writeEffect s key (leBytes (keyBytes key) v) x = (t, st)) (hst : st ≠ 0) : ownWrite s key v x = writeRejected s key st := by
  obtain ⟨hserved, hstatus⟩ := h
  have hd : key ≠ Key.dictLoadDefaults := fun e => hk (by simp [blockKeys, e])
  have hstore : entryStore s key (leBytes (keyBytes key) v) x = (s, st) := by
    unfold entryStore
    rw [he]
    split
    · next heq => cases heq; exact absurd rfl hst
    · next heq => cases heq; rfl
  have hentry : entryWrite s .mirror key (((findMeta key).map EMeta.ty).getD ETy.u8).code (leBytes (keyBytes key) v) x = (s, st) := by
    unfold entryWrite
    dsimp only
    rw [if_neg (fun hn => hn hstatus), if_neg hd, hstore]
  have hreported : reportedWrite s .mirror key (((findMeta key).map EMeta.ty).getD ETy.u8).code (leBytes (keyBytes key) v) x =
      (writeRejected s key st, st) := by
    unfold reportedWrite
    rw [hentry]
    split
    · next heq => cases heq; exact absurd rfl hst
    · next heq => cases heq; rfl
  unfold ownWrite
  rw [if_neg (by rw [hserved]; decide)]
  exact congrArg Prod.fst hreported

/-- A command entry's write that its command refuses. -/
theorem ownWrite_of_refused_command {s t : State} {key v st : Nat} {x : Outside} (h : mayWrite s key v) (hk : key ∉ blockKeys)
    (hv : v < 256 ^ keyBytes key) (hc : commandWrite s key v x = some (t, st)) (hst : st ≠ 0) :
    ownWrite s key v x = writeRejected s key st :=
  ownWrite_refused h hk (writeEffect_of_command hk (by rw [leNat_keyBytes hv, hc])) hst

end Sys2Proof.Machine
end

