-- ==== Sys2Proof/Proofs/Engine.lean ====
section
/-!
PROOF. The commands of the engine array: streaming, loading, sealing, rounding, draining, re-spins, storms, pre-emption, holds and proof
tests (R43, R151, R162, R171–R177, R193–R197, R377).
-/

namespace Sys2Proof.Machine

variable {s : State} {e : Nat} {t : TileRun} {o : OpRec}

/-! ### An engine that is on -/

theorem engineAct_on {f : State → State} (hon : engineOn s e = true) : engineAct s e f = dampCheck (f s) (e / 32) := if_pos hon

/-- Damping changes no engine, no memory, no report and no storm. -/
theorem dampCheck_bookSide_refl (s : State) (c : Nat) : BookSide s (dampCheck s c) := dampCheck_bookSide (.refl s)

/-- An event of an engine that is on: what it leaves is known up to the books beside it. -/
theorem completes_engineAct {i : Instr} {f : State → State} (hi : exec i s = .next (engineAct s e f)) (hon : engineOn s e = true) :
    Completes i s (dampCheck (f s) (e / 32)) := completes_of hi (engineAct_on hon)

theorem getEng_dampCheck {c j : Nat} : getEng (dampCheck s c) j = getEng s j := getEng_of_bookSide (dampCheck_bookSide_refl s c)

theorem takeTile_of_cur (hc : (getEng s e).cur = some t) : takeTile s e = s := by
  unfold takeTile
  dsimp only
  exact if_pos (by rw [hc]; rfl)

theorem settle_of_no_preempt (hp : (getEng s e).preempt = false) : settle s e = s := by
  unfold settle
  dsimp only
  exact if_pos (by rw [hp]; rfl)

/-- An engine with a tile in progress, or one that drains, is not the engine that an unlisted key reads as. -/
theorem engine_ne_of_cur {g : Engine} (h : g.cur ≠ none) : g ≠ {} := fun hg => h (congrArg Engine.cur hg)

theorem engine_ne_of_drains {g : Engine} (h : g.drains ≠ []) : g ≠ {} := fun hg => h (congrArg Engine.drains hg)

theorem getEng_setEng_same {g : Engine} (hg : g ≠ {}) : getEng (setEng s e g) e = g := by
  rw [getEng_setEng hg, if_pos rfl]

theorem getEng_setCur_some : getEng (setCur s e (some t)) e = { getEng s e with cur := some t } :=
  getEng_setEng_same (engine_ne_of_cur (Option.some_ne_none _))

/-! ### Streaming, loading and sealing -/

theorem beginChunk_of_streaming {c : Chunk} (hc : t.cur = some c) : beginChunk s e o t = s := by
  unfold beginChunk
  rw [hc]

theorem arrayStep_streams {c : Chunk} {hit : Option (Mech × Nat × Nat)} (hcur : (getEng s e).cur = some t)
    (ho : getOp s t.op = some o) (hc : t.cur = some c) (hn : c.next < c.rows) : arrayStep s e hit = stepChunk s e o t c hit := by
  unfold arrayStep
  rw [hcur]
  dsimp only
  rw [ho]
  dsimp only
  rw [beginChunk_of_streaming hc, hcur]
  dsimp only
  rw [hc]
  exact if_neg (Nat.not_le.mpr hn)

theorem streamRow_next {c : Chunk} {x : Feed} {outs : List ColOut} : (streamRow o t c x outs).2.1.next = c.next + 1 := rfl

/-- A row whose feed and checks find nothing wrong is streamed: the chunk goes back into its tile. -/
theorem stepChunk_streams {s2 : State} {t1 : TileRun} {c : Chunk} {x : Feed} {outs : List ColOut} (hq : s.flt.armed = [])
    (hrow : feedX s o t (dieOfEng e) ((o.box t.tile).m0 + (c.m0 + c.next)) (192 * c.buf.slice) c.buf.rows.length =
      (.ok (x, t1), s2))
    (hx : x.misaligned = false)
    (hout : outs = (List.range (passBox (o.box t.tile) (o.formats t.rung) c.buf.pass).2.2.2).map
      (columnOut (o.formats t.rung) o.fine c.buf x))
    (hck : rowChecks o t1 c x outs (streamRow o t1 c x outs).1.bank = none) :
    (getEng (stepChunk s e o t c none) e).cur = some ((streamRow o t1 c x outs).1.putChunk (streamRow o t1 c x outs).2.1) := by
  unfold stepChunk
  dsimp only [Option.map_none]
  rw [takeHit_unarmed hq _ _ _ _]
  dsimp only
  rw [hrow]
  dsimp only
  rw [if_neg (ne_true_of_eq_false hx), ← hout, hck]
  dsimp only
  rw [getEng_setEng_same (engine_ne_of_cur (Option.some_ne_none _))]

theorem stationaryLoad_loads (hcur : (getEng s e).cur = some t) (ho : getOp s t.op = some o) (hph : t.phase = .running)
    (hpass : t.loadPass < tilePassCount o t) (hsl : o.gemm.slices ≠ 0) (hbuf : t.buffers < 2) (hq : s.flt.armed = []) :
    stationaryLoad s e none = loadSlice s e o t := by
  unfold stationaryLoad
  rw [takeTile_of_cur hcur]
  dsimp only
  rw [hcur]
  dsimp only
  rw [ho]
  dsimp only
  rw [if_neg (not_or.2 ⟨not_not_intro hph, not_or.2 ⟨Nat.not_le_of_lt hpass, not_or.2 ⟨hsl, Nat.not_le_of_lt hbuf⟩⟩⟩), takeHit_unarmed hq _ _ _ _]

/-- A tile whose next slice has been loaded from the columns fed (R151). -/
def loadedTile (o : OpRec) (t t1 : TileRun) (fs : List Feed) : TileRun :=
  { t1 with
    bufs := t1.bufs ++ [loadBuf (o.formats t.rung) t.loadPass t.loadSlice (sliceLines o t).2.1 (countsW o t t.loadPass) fs]
    loadPass := (nextSlice o.gemm.slices t.loadPass t.loadSlice).1
    loadSlice := (nextSlice o.gemm.slices t.loadPass t.loadSlice).2 }

theorem loadSlice_ok {s2 : State} {t1 : TileRun} {fs : List Feed}
    (hfs : feedCols s o t (dieOfEng e) (sliceLines o t).1 (sliceLines o t).2.1 (sliceLines o t).2.2 = (.ok (fs, t1), s2))
    (hmis : fs.any (·.misaligned) = false) :
    loadSlice s e o t = setCur s2 e (some (loadedTile o t t1 fs)) := by
  unfold loadSlice
  dsimp only
  rw [hfs]
  exact if_neg (ne_true_of_eq_false hmis)

/-- Staging a line changes nothing of the tile but what is staged. -/
theorem feedW_bufs {s1 : State} {die n k0 cnt : Nat} {f : Feed} {t1 : TileRun}
    (h : feedW s o t die n k0 cnt = (.ok (f, t1), s1)) : t1.bufs = t.bufs := by
  unfold feedW at h
  split at h
  · cases h; rfl
  · split at h <;> cases h
    rfl

theorem feedCols_bufs {s1 : State} {die k0 cnt : Nat} {l : List Nat} {fs : List Feed} {t1 : TileRun}
    (h : feedCols s o t die k0 cnt l = (.ok (fs, t1), s1)) : t1.bufs = t.bufs := by
  induction l generalizing s t fs t1 s1 with
  | nil => cases h; rfl
  | cons n r ih =>
    unfold feedCols at h
    split at h
    · cases h
    · next hw =>
      split at h
      · cases h
      · next hr =>
        cases h
        exact (ih hr).trans (feedW_bufs hw)

theorem advance_sealed : t.advance.sealed = t.sealed := by
  unfold TileRun.advance TileRun.putChunk
  split
  · split <;> rfl
  · rfl

/-- A seal with no capture changes nothing of its engine but the count of its seals. -/
theorem getEng_sealChunk {d : Tally} {cap : Option InvCap} (hg : (getEng s e).cur ≠ none) :
    ∃ n, getEng (sealChunk s e t o d cap) e =
      { getEng s e with invCap := n, seals := (getEng s e).seals + (if o.gemm.slices = 0 then 0 else 1) } := by
  have hhold : getEng (tallyHold s (coreOfEng e) o t.op t.tile d) e = getEng s e :=
    getEng_of_bookSide (tallyHold_bookSide (.refl s))
  have hcap : ∃ n, getEng (enterCapture (tallyHold s (coreOfEng e) o t.op t.tile d) e cap) e = { getEng s e with invCap := n } := by
    unfold enterCapture
    dsimp only
    split
    · exact ⟨(getEng s e).invCap, hhold⟩
    · refine ⟨lowerCap (getEng (tallyHold s (coreOfEng e) o t.op t.tile d) e).invCap cap, ?_⟩
      rw [getEng_of_bookSide (coreEvent_bookSide (.refl _)), hhold]
      exact getEng_setEng_same (engine_ne_of_cur hg)
  obtain ⟨n, hn⟩ := hcap
  refine ⟨n, ?_⟩
  unfold sealChunk
  dsimp only
  generalize enterCapture (tallyHold s (coreOfEng e) o t.op t.tile d) e cap = s0 at hn
  have hset : getEng (setEng s0 e { getEng s0 e with
      seals := (getEng s0 e).seals + (if o.gemm.slices = 0 then 0 else 1) }) e =
      { getEng s e with invCap := n, seals := (getEng s e).seals + (if o.gemm.slices = 0 then 0 else 1) } := by
    rw [hn]
    exact getEng_setEng_same (engine_ne_of_cur hg)
  split
  · exact (getEng_of_bookSide (markOp_bookSide (.refl _))).trans hset
  · exact hset

/-- Settles O7: in a quiet engine nothing is armed and no pre-emption waits, so each command takes the branch that does its work. -/
theorem chunkCommandsComplete : Obligations.ChunkCommandsComplete := by
  unfold Obligations.ChunkCommandsComplete
  refine ⟨?_, ?_, ?_⟩
  · intro s s2 e t t1 o c x outs ⟨hon, hq, _⟩ hcur ho hc hn hrow hx hout hck
    refine ⟨_, _, _, _, completes_engineAct rfl hon, rfl, streamRow_next, ?_⟩
    rw [getEng_dampCheck, arrayStep_streams hcur ho hc hn]
    exact stepChunk_streams hq hrow hx hout hck
  · intro s s2 e t t1 o fs ⟨hon, hq, _⟩ hcur ho hph hpass hsl hbuf hfs hmis
    have hload : (getEng (dampCheck (stationaryLoad s e.val none) (e.val / 32)) e.val).cur =
        some (loadedTile o t t1 fs) := by
      rw [getEng_dampCheck, stationaryLoad_loads hcur ho hph hpass hsl hbuf hq, loadSlice_ok hfs hmis, getEng_setCur_some]
    exact ⟨_, _, _, completes_engineAct rfl hon, hload, by rw [← feedCols_bufs hfs]; rfl, rfl, rfl, rfl, rfl⟩
  · intro s e t o c ⟨hon, hq, hp⟩ hcur hsealing ho hcap hsl hpar hck
    have hpass : checksumRowPass s e.val none =
        if lastChunk o t c then
          setCur s e.val (some { t with sealing := none, sealed := t.sealed + 1, lastTally := c.tally, lastCap := c.cap }.advance)
        else
          settle (sealChunk (setCur s e.val (some { t with sealing := none, sealed := t.sealed + 1 }.advance)) e.val t o c.tally
            c.cap) e.val := by
      unfold checksumRowPass
      rw [hcur]
      dsimp only
      rw [hsealing, ho]
      dsimp only
      rw [takeHit_unarmed hq _ _ _ _]
      dsimp only
      rw [if_neg (by rw [hpar]; decide), if_neg (by rw [hck]; decide), if_neg (by rw [hcap]; exact Bool.false_ne_true)]
      split
      · exact settle_of_no_preempt (by rw [getEng_setCur_some]; exact hp)
      · rfl
    suffices h : ∃ t1, (getEng (checksumRowPass s e.val none) e.val).cur = some t1 ∧ t1.sealed = t.sealed + 1 ∧
        (getEng (checksumRowPass s e.val none) e.val).seals = (getEng s e.val).seals + (if lastChunk o t c then 0 else 1) by
      obtain ⟨t1, h⟩ := h
      exact ⟨_, t1, completes_engineAct rfl hon, by rw [getEng_dampCheck]; exact h⟩
    rw [hpass]
    by_cases hlast : lastChunk o t c = true
    · rw [if_pos hlast, if_pos hlast, getEng_setCur_some]
      exact ⟨_, rfl, advance_sealed, rfl⟩
    · rw [if_neg hlast, if_neg hlast]
      obtain ⟨n, hn⟩ := getEng_sealChunk (s := setCur s e.val (some { t with sealing := none, sealed := t.sealed + 1 }.advance))
        (e := e.val) (t := t) (o := o) (d := c.tally) (cap := c.cap) (by rw [getEng_setCur_some]; exact Option.some_ne_none _)
      rw [getEng_setCur_some, if_neg hsl] at hn
      rw [settle_of_no_preempt (by rw [hn]; exact hp), hn]
      exact ⟨_, rfl, advance_sealed, rfl⟩

/-! ### Rounding and draining -/

/-- An accepted tile leaves its engine and drains, on its own bank. -/
theorem acceptTile_drains {t' : TileRun} (hg : (getEng s e).cur ≠ none) :
    (getEng (acceptTile s e o t') e).cur = none ∧ (getEng (acceptTile s e o t') e).preempt = (getEng s e).preempt ∧
      (getEng (acceptTile s e o t') e).drains = (getEng s e).drains ++ [{ t' with phase := .running }] := by
  obtain ⟨n, hn⟩ := getEng_sealChunk (s := s) (e := e) (t := t') (o := o) (d := sealTally o t') (cap := t'.lastCap) hg
  unfold acceptTile
  dsimp only
  rw [getEng_setEng_same (engine_ne_of_drains (List.append_ne_nil_of_right_ne_nil _ (List.cons_ne_nil _ _))), hn]
  exact ⟨rfl, rfl, rfl⟩

/-- The tile with its outputs rounded and its checks evaluated (R170, R190). -/
def judgedTile (o : OpRec) (t : TileRun) (y : Tensor) : TileRun :=
  { t with out := some (roundTile o t y).1, outTally := (roundTile o t y).2, failed := numericChecks o t }

theorem tileRoundDone_accepts {y : Tensor} (hcur : (getEng s e).cur = some t) (ho : getOp s t.op = some o)
    (hph : t.phase = .running) (hdone : t.chunksDone o = true) (hres : outputResidues o t = true) (hsl : o.gemm.slices ≠ 0)
    (hy : o.y = some y) (hask : respinAsk o t (numericChecks o t) (stormTold s (coreOfEng e)) = .drain) (hq : s.flt.armed = []) :
    tileRoundDone s e none = settle (acceptTile s e o (judgedTile o t y)) e := by
  have hjudge : judgeTile s e o t y = acceptTile s e o (judgedTile o t y) := by
    unfold judgeTile
    dsimp only
    rw [hask]
    rfl
  unfold tileRoundDone
  rw [takeTile_of_cur hcur]
  dsimp only
  rw [hcur]
  dsimp only
  rw [ho]
  dsimp only
  rw [if_neg (by rintro (h | h); exact h hph; simp [hdone] at h), takeHit_unarmed hq _ _ _ _]
  dsimp only
  rw [if_neg (by rw [hres]; decide), hy]
  dsimp only
  rw [if_neg hsl, hjudge]

/-- What a tile leaves when all its outputs have been written. -/
def drainedState (s1 : State) (e : Nat) (t : TileRun) (r : List TileRun) (o : OpRec) : State :=
  setOp (tallyKeep (tallyOp (setEng s1 e { getEng s1 e with drains := r, tiles := (getEng s1 e).tiles + 1 }) (coreOfEng e) o
    (drainTally t)) t.op t.tile) t.op (some (o.tileDone t (coreOfEng e)))

theorem drainDone_bookSide {s1 : State} {r : List TileRun} {y : Tensor} {out : List (Nat × Nat)}
    (hdr : (getEng s e).drains = t :: r) (ho : getOp s t.op = some o) (hy : o.y = some y) (hout : t.out = some out)
    (hw : writeMany s (opVia o (some (dieOfEng e))) false (drainWrites y out) = (none, s1)) :
    BookSide (drainedState s1 e t r o) (drainDone s e) := by
  unfold drainDone
  dsimp only
  rw [hdr]
  dsimp only
  rw [ho]
  dsimp only
  rw [hy, hout]
  dsimp only
  rw [hw]
  dsimp only
  split
  · exact coreEvent_bookSide (.refl _)
  · exact .refl _

theorem drainedState_bookSide (s1 : State) (e : Nat) (t : TileRun) (r : List TileRun) (o : OpRec) :
    BookSide (setEng s1 e { getEng s1 e with drains := r, tiles := (getEng s1 e).tiles + 1 }) (drainedState s1 e t r o) :=
  setOp_bookSide (tallyKeep_bookSide (tallyOp_bookSide (.refl _)))

/-- Settles O8: the tile is accepted with its outputs, and the drained one has left its engine with one tile more counted. -/
theorem tileCommandsComplete : Obligations.TileCommandsComplete := by
  unfold Obligations.TileCommandsComplete
  refine ⟨?_, ?_⟩
  · intro s e t o y ⟨hon, hq, hp⟩ hcur ho hph hdone hres hsl hy hask
    obtain ⟨hnone, hpre, hdrains⟩ := acceptTile_drains (s := s) (e := e.val) (o := o) (t' := judgedTile o t y)
      (by rw [hcur]; exact Option.some_ne_none t)
    refine ⟨_, { judgedTile o t y with phase := .running }, completes_engineAct rfl hon, ?_⟩
    rw [getEng_dampCheck, tileRoundDone_accepts hcur ho hph hdone hres hsl hy hask hq, settle_of_no_preempt (hpre.trans hp)]
    exact ⟨hnone, hdrains, rfl, rfl, rfl⟩
  · intro s s1 e t r o y out hon hdr ho hy hout hw
    have hs1 : getEng s1 e.val = getEng s e.val := by
      have hmem := writeMany_memOnly (v := s) (a1 := opVia o (some (dieOfEng e.val))) (bulk := false) (l := drainWrites y out) (.refl s)
      rw [hw] at hmem
      exact getEng_of_memOnly hmem
    have hside := (drainedState_bookSide s1 e.val t r o).trans (drainDone_bookSide hdr ho hy hout hw)
    have hne : ({ getEng s1 e.val with drains := r, tiles := (getEng s1 e.val).tiles + 1 } : Engine) ≠ {} :=
      fun h => Nat.succ_ne_zero _ (congrArg Engine.tiles h)
    refine ⟨_, completes_engineAct rfl hon, (dampCheck_bookSide hside).mem, ?_⟩
    rw [getEng_dampCheck, getEng_of_bookSide hside, getEng_setEng_same hne, hs1]
    exact ⟨rfl, rfl⟩

end Sys2Proof.Machine
end

