-- ==== Sys2Proof/Proofs/Respins.lean ====
section
/-!
PROOF. Re-spins and storms: a request is staged or turned away (R193, R194), and a storm is declared, told and released (R196, R197).
-/

namespace Sys2Proof.Machine

variable {s : State} {e : Nat} {t : TileRun} {o : OpRec}

/-! ### Re-spins -/

/-- The state in which a request's report is on its way to the ladder controller. -/
def reported (s : State) (o : OpRec) (noFit : Bool) : State :=
  { s with reports := s.reports ++ [{ job := o.job, slot := slotField o, noFit := noFit }] }

/-- The replay allocation that a tile's request still needs (R194). -/
def replayNeed (o : OpRec) (t : TileRun) : Nat := replaySize o t t.target - t.replay

theorem respinRequest_waiting (hcur : (getEng s e).cur = some t) (ho : getOp s t.op = some o) (hph : t.phase = .respinWait) :
    respinRequest s e =
      if s.storm.active then acceptTile s e o t
      else if replayUsed s (dieOfEng e) + replayNeed o t > replayArena s ∨ dget s Key.replayArenaMib = 0 then
        acceptTile (reported s o true) e o t
      else
        setCur (markOp (tallyOp (tallyDrop (reported s o false) t.op t.tile) (coreOfEng e) o
          { respin := 1, refresh := if t.refresh then 1 else 0 }) t.op
          fun o => { o with respun := true, refreshed := o.refreshed || t.refresh }) e
          (some { t with phase := .staging, replay := t.replay + replayNeed o t, out := none, outTally := {} }) := by
  unfold respinRequest
  rw [hcur]
  dsimp only
  rw [ho]
  dsimp only
  exact if_neg (fun h => h hph)

theorem stageReplay_ok {s1 : State} {gs : List Staged} (hgs : stageLines s o t (dieOfEng e) (tileLines o t) = (.ok gs, s1)) :
    stageReplay s e o t = setCur s1 e (some { t with staged := gs }) := by
  unfold stageReplay
  rw [hgs]

theorem replayStagingDone_stages (hcur : (getEng s e).cur = some t) (ho : getOp s t.op = some o) (hph : t.phase = .staging)
    (hr : t.refresh = false) :
    replayStagingDone s e = stageReplay s e o { t.restart with rung := t.target, respun := decide (t.target > o.rung) } := by
  unfold replayStagingDone
  rw [hcur]
  dsimp only
  rw [ho]
  dsimp only
  rw [if_neg (fun h => h hph), if_neg (ne_true_of_eq_false hr)]

/-- Settles O9: a request that fits is reported and staged, the staged tile starts again at its target, and any other is accepted as it
is. -/
theorem respinCommandsComplete : Obligations.RespinCommandsComplete := by
  unfold Obligations.RespinCommandsComplete
  refine ⟨?_, ?_, ?_⟩
  · intro s e t o hon hcur ho hph hstorm hfit harena
    have hreq := respinRequest_waiting hcur ho hph
    rw [if_neg (ne_true_of_eq_false hstorm), if_neg (by rintro (h | h); exact Nat.not_le.mpr h hfit; exact harena h)] at hreq
    refine ⟨_, { t with phase := .staging, replay := t.replay + replayNeed o t, out := none, outTally := {} },
      completes_engineAct rfl hon, ?_, ?_, rfl, rfl⟩
    · rw [(dampCheck_bookSide_refl _ _).reports, hreq]
      exact (markOp_bookSide (tallyOp_bookSide (tallyDrop_bookSide (.refl (reported s o false))))).reports
    · rw [getEng_dampCheck, hreq, getEng_setCur_some]
  · intro s s1 e t r o gs hon hcur ho hph hr hrr hgs
    subst hrr
    refine ⟨_, { t.restart with rung := t.target, respun := decide (t.target > o.rung), staged := gs },
      completes_engineAct rfl hon, ?_, rfl, rfl, rfl, rfl, rfl, rfl, rfl⟩
    rw [getEng_dampCheck, replayStagingDone_stages hcur ho hph hr, stageReplay_ok hgs, getEng_setCur_some]
  · intro s e t o hon hcur ho hph hno
    have hreq : ∃ s1, getEng s1 e.val = getEng s e.val ∧ respinRequest s e.val = acceptTile s1 e.val o t := by
      rw [respinRequest_waiting hcur ho hph]
      by_cases hstorm : s.storm.active = true
      · exact ⟨s, rfl, if_pos hstorm⟩
      · refine ⟨reported s o true, rfl, ?_⟩
        rw [if_neg hstorm, if_pos (show replayUsed s _ + replayNeed o t > _ ∨ _ from hno.resolve_left hstorm)]
    obtain ⟨s1, hs1, hreq⟩ := hreq
    obtain ⟨hnone, -, hdrains⟩ := acceptTile_drains (s := s1) (e := e.val) (o := o) (t' := t)
      (by rw [hs1, hcur]; exact Option.some_ne_none t)
    refine ⟨_, { t with phase := .running }, completes_engineAct rfl hon, ?_⟩
    rw [getEng_dampCheck, hreq, ← hs1]
    exact ⟨hnone, hdrains, rfl, rfl⟩

/-! ### Storms -/

/-- What every step of a fold leaves alone, the fold leaves alone. -/
theorem foldl_keeps {α β : Type} (p : State → β) {f : State → α → State} (hf : ∀ st x, p (f st x) = p st) (l : List α) (s : State) :
    p (l.foldl f s) = p s := by
  induction l generalizing s with
  | nil => rfl
  | cons x r ih => exact (ih (f s x)).trans (hf s x)

/-- The storm that a declaration for a job begins (R197). -/
def declared (s : State) (job : Nat) : Storm :=
  { active := true, job := job, policy := dget s Key.stormPolicy
    hold := if dget s Key.stormPolicy = 2 then .host else .record, discard := false, told := [] }

/-- A declaration's records change none of what its storm has set. -/
theorem declareStorm_keeps {β : Type} (p : State → β) (hp : ∀ st a c d, p (hubEvent st a c d) = p st) (s : State)
    (job slot cause : Nat) :
    p (declareStorm s job slot cause) = p (dset { s with storm := declared s job } Key.stormActive 1) :=
  (foldl_keeps p (fun st _ => hp st _ _ _) _ _).trans (hp _ _ _ _)

theorem sinsert_ne_nil {k : Nat} {l : List Nat} : sinsert k l ≠ [] := by
  cases l with
  | nil => exact List.cons_ne_nil _ _
  | cons j r =>
    unfold sinsert
    split
    · exact List.cons_ne_nil _ _
    · split <;> exact List.cons_ne_nil _ _

theorem getJob_tset_respun {s1 : State} {job : Nat} {j : Job} (h : s1.jobs = tset {} s.jobs job j) (hj : j.respun ≠ []) :
    getJob s1 job = j := by
  unfold getJob
  rw [h, tget_tset_new (fun hd => hj (congrArg Job.respun hd)), if_pos rfl]

theorem respinReport_noFit {pos : Nat} {r : Report} (hr : s.reports[pos]? = some r) (hno : r.noFit = true)
    (hst : s.storm.active = false) :
    respinReport s pos = declareStorm { s with reports := dropAt pos s.reports } r.job 0xFFFF 1 := by
  unfold respinReport
  rw [hr]
  dsimp only
  rw [if_pos hno, if_neg (ne_true_of_eq_false hst), if_pos hno]

theorem respinReport_inStorm {pos : Nat} {r : Report} (hr : s.reports[pos]? = some r) (hno : r.noFit = false)
    (hst : s.storm.active = true) :
    respinReport s pos = { s with
      reports := dropAt pos s.reports
      jobs := tset {} s.jobs r.job { getJob s r.job with respun := sinsert r.slot (getJob s r.job).respun } } := by
  unfold respinReport
  rw [hr]
  dsimp only
  rw [if_neg (ne_true_of_eq_false hno), if_pos hst]
  rfl

theorem writeStormRelease_ok {v : Nat} (hw : stormWaits s = true) (hv : v ≤ 1) :
    writeStormRelease s v = (releaseStorm s (v == 0), 0) := by
  unfold writeStormRelease
  rw [if_neg (by rw [hw]; decide), if_neg (Nat.not_lt.mpr hv)]

/-- Settles O10: the report, the notice and the release each take the one branch their premises leave. -/
theorem stormCommandsComplete : Obligations.StormCommandsComplete := by
  unfold Obligations.StormCommandsComplete
  refine ⟨?_, ?_, ?_, ?_⟩
  · intro s pos r hok hr hno hst
    refine ⟨_, completes_of rfl (respinReport_noFit hr hno hst), ?_, ?_, ?_, ?_⟩
    · exact declareStorm_keeps State.reports (fun _ _ _ _ => rfl) _ _ _ _
    · exact congrArg Storm.active (declareStorm_keeps State.storm (fun _ _ _ _ => rfl) _ _ _ _)
    · exact congrArg Storm.job (declareStorm_keeps State.storm (fun _ _ _ _ => rfl) _ _ _ _)
    · exact (declareStorm_keeps (fun st => dget st Key.stormActive) (fun _ _ _ _ => rfl) _ _ _ _).trans (dget_dset_same hok)
  · intro s pos r hr hno hst
    refine ⟨_, completes_of rfl (respinReport_inStorm hr hno hst), rfl, rfl, ?_⟩
    rw [getJob_tset_respun rfl sinsert_ne_nil]
  · intro s k hst
    exact completes_of rfl (if_neg (by rw [hst]; decide))
  · intro s v hmay hw hv
    refine ⟨writtenGone (releaseStorm s (v.toNat == 0)) Key.stormRelease,
      completes_of rfl (ownWrite_of_command hmay (by decide) ?_ ?_), rfl⟩
    · exact v.isLt
    · exact congrArg some (writeStormRelease_ok hw hv)

end Sys2Proof.Machine
end

