-- ==== Sys2Proof/Proofs/EngineHolds.lean ====
section
/-!
PROOF. Pre-emption, hard-cap holds and proof tests (R174, R176, R377, R378), and the frame of the engine commands.
-/

namespace Sys2Proof.Machine

variable {s : State} {e : Nat} {t : TileRun} {o : OpRec}

/-! ### Pre-emption -/

/-- The engine has received a pre-emption request. -/
def asked (s : State) (e : Nat) : State := setEng s e { getEng s e with preempt := true }

theorem engine_ne_of_preempt {g : Engine} (h : g.preempt = true) : g ≠ {} := fun hg =>
  Bool.false_ne_true ((congrArg Engine.preempt hg).symm.trans h)

theorem getEng_asked {j : Nat} : getEng (asked s e) j = if j = e then { getEng s e with preempt := true } else getEng s j :=
  getEng_setEng (engine_ne_of_preempt rfl)

theorem getEng_asked_same : getEng (asked s e) e = { getEng s e with preempt := true } := getEng_asked.trans (if_pos rfl)

theorem saved_asked {j : Nat} : (getEng (asked s e) j).saved = (getEng s j).saved := by
  rw [getEng_asked]
  split
  · next h => rw [h]
  · rfl

theorem nextOrder_asked {core : Nat} : nextOrder (asked s e) core = nextOrder s core := by
  unfold nextOrder
  simp only [saved_asked]

/-- A pre-emption waits while a chunk streams or awaits its seal (R174). -/
theorem preemptRequest_waits (hcur : (getEng s e).cur = some t) (ho : getOp s t.op = some o)
    (hc : t.cur.isSome = true ∨ t.sealing.isSome = true) : preemptRequest s e = asked s e := by
  have hop : getOp (setEng s e { getEng s e with preempt := true }) t.op = some o := ho
  change settle (asked s e) e = asked s e
  unfold settle
  dsimp only
  rw [getEng_asked_same]
  dsimp only
  rw [if_neg (by decide), hcur]
  dsimp only
  rw [show getOp (asked s e) t.op = some o from ho]
  dsimp only
  exact if_pos (by obtain h | h := hc <;> simp [h])

/-- The engine whose tile has been put aside. -/
def putAside (s : State) (e : Nat) (t : TileRun) : Engine :=
  { getEng s e with
    preempt := false, cur := none, saved := (getEng s e).saved ++ [{ t.rewind with order := nextOrder s (e / 4) }] }

theorem preemptRequest_putsAside (hcur : (getEng s e).cur = some t) (ho : getOp s t.op = some o) (hc : t.cur = none)
    (hs : t.sealing = none) (hd : t.chunksDone o = false) :
    preemptRequest s e = spillOldest (setEng (asked s e) e (putAside s e t)) (e / 4) := by
  change settle (asked s e) e = _
  unfold settle
  dsimp only
  rw [getEng_asked_same]
  dsimp only
  rw [if_neg (by decide), hcur]
  dsimp only
  rw [show getOp (asked s e) t.op = some o from ho]
  dsimp only
  rw [if_neg (by simp [hc, hs, hd]), nextOrder_asked]
  rfl

/-- The tiles an engine holds, whether or not their banks are spilled. -/
def unspilled (l : List TileRun) : List TileRun := l.map fun v => { v with spilled := false }

theorem engine_ne_of_saved {g : Engine} (h : g.saved ≠ []) : g ≠ {} := fun hg => h (congrArg Engine.saved hg)

theorem unspilled_map_spill (l : List TileRun) (n : Nat) :
    unspilled (l.map fun t => if t.order = n then { t with spilled := true } else t) = unspilled l := by
  unfold unspilled
  rw [List.map_map]
  refine List.map_congr_left fun t _ => ?_
  dsimp only [Function.comp]
  split <;> rfl

/-- The choice of the oldest is one of the list. -/
theorem oldest_mem (r : List (Nat × Nat)) (h : Nat × Nat) : r.foldl (fun a b => if b.2 < a.2 then b else a) h ∈ h :: r := by
  induction r generalizing h with
  | nil => exact List.mem_singleton_self h
  | cons x r ih =>
    rw [List.foldl_cons]
    split
    · exact List.mem_cons_of_mem _ (ih x)
    · obtain hm | hm := List.mem_cons.1 (ih h)
      · rw [hm]; exact List.mem_cons_self
      · exact List.mem_cons_of_mem _ (List.mem_cons_of_mem _ hm)

/-- Spilling a bank changes of an engine that holds a tile only which of its banks are spilled. -/
theorem getEng_spillOldest {core j : Nat} :
    ∃ l, unspilled l = unspilled (getEng s j).saved ∧ getEng (spillOldest s core) j = { getEng s j with saved := l } := by
  unfold spillOldest
  dsimp only
  split
  · exact ⟨(getEng s j).saved, rfl, rfl⟩
  · split
    · exact ⟨(getEng s j).saved, rfl, rfl⟩
    · next h r hheld =>
      have hm := oldest_mem r h
      generalize r.foldl (fun a b => if b.2 < a.2 then b else a) h = m at hm ⊢
      rw [← hheld] at hm
      obtain ⟨i, -, hm⟩ := List.mem_flatMap.1 hm
      obtain ⟨v, hv, rfl⟩ := List.mem_map.1 hm
      have hne : (getEng s i).saved ≠ [] := List.ne_nil_of_mem (List.mem_filter.1 hv).1
      rw [getEng_setEng (engine_ne_of_saved (by simpa using hne))]
      by_cases hj : j = i
      · subst hj
        exact ⟨_, unspilled_map_spill _ _, if_pos rfl⟩
      · exact ⟨(getEng s j).saved, rfl, if_neg hj⟩

/-! ### Proof tests -/

/-- An engine that is retired takes up no tile. -/
theorem takeTile_of_retired (h : (getEng s e).retired = true) : takeTile s e = s := by
  unfold takeTile
  dsimp only
  exact if_pos (by simp [Engine.mayStart, h])

/-- Reading a value other than the default after an image of the table that keeps such a value. -/
theorem tget_map_filter {α : Type} [DecidableEq α] {d v : α} {f : α → α} {t : Tab α} {k : Nat} (h : tget d t k = v) (hv : v ≠ d)
    (hf : f v ≠ d) : tget d ((t.map fun p => (p.1, f p.2)).filter fun p => p.2 != d) k = f v := by
  induction t with
  | nil => exact absurd h.symm hv
  | cons p r ih =>
    obtain ⟨j, w⟩ := p
    unfold tget at h
    by_cases hj : j = k
    · rw [if_pos hj] at h
      subst h hj
      simp [tget, hf]
    · rw [if_neg hj] at h
      by_cases hlt : k < j
      · rw [if_pos hlt] at h
        exact absurd h.symm hv
      · rw [if_neg hlt] at h
        rw [List.map_cons, List.filter_cons]
        split
        · unfold tget
          rw [if_neg hj, if_neg hlt]
          exact ih h
        · exact ih h

theorem engine_ne_of_retired {g : Engine} (h : g.retired = true) : g ≠ {} := fun hg =>
  Bool.false_ne_true ((congrArg Engine.retired hg).symm.trans h)

/-- No tile that stops and no tile that is moved brings a retired engine back. -/
theorem retired_dropTiles {k : Nat} (h : (getEng s e).retired = true) : (getEng (dropTiles s k) e).retired = true := by
  have hdrop : getEng (dropTiles s k) e = (getEng s e).dropOp k :=
    tget_map_filter (f := fun g : Engine => g.dropOp k) (t := s.engines) rfl (engine_ne_of_retired h) (engine_ne_of_retired h)
  rw [hdrop]
  exact h

theorem retired_failOp {k code : Nat} (h : (getEng s e).retired = true) : (getEng (failOp s k code) e).retired = true := by
  unfold failOp
  split
  · exact h
  · exact retired_dropTiles h

theorem insTile_ne_nil {kt : Nat × Nat} {l : List (Nat × Nat)} : insTile kt l ≠ [] := by
  cases l with
  | nil => exact List.cons_ne_nil _ _
  | cons x r =>
    unfold insTile
    split <;> exact List.cons_ne_nil _ _

theorem insRestart_ne_nil {l : List TileRun} : insRestart t l ≠ [] := by
  cases l with
  | nil => exact List.cons_ne_nil _ _
  | cons x r =>
    unfold insRestart
    split <;> exact List.cons_ne_nil _ _

theorem retired_setEng {j : Nat} {g : Engine} (h : (getEng s e).retired = true) (hg : g ≠ {}) (hr : g.retired = (getEng s j).retired) :
    (getEng (setEng s j g) e).retired = true := by
  rw [getEng_setEng hg]
  split
  · next he => rw [hr, ← he]; exact h
  · exact h

theorem retired_reassignTile {j : Nat} {kt : Nat × Nat} {t' : Option TileRun} (h : (getEng s e).retired = true) :
    (getEng (reassignTile s j kt t') e).retired = true := by
  unfold reassignTile
  split
  · exact h
  · dsimp only
    split
    · exact retired_failOp h
    · split
      · exact retired_setEng h (fun hg => insTile_ne_nil (congrArg Engine.todo hg)) rfl
      · refine retired_setEng ?_ (fun hg => insRestart_ne_nil (congrArg Engine.restarts hg)) ?_
        · rw [getEng_of_bookSide (tallyDrop_bookSide (.refl s))]
          exact h
        · rw [getEng_of_bookSide (tallyDrop_bookSide (.refl s))]

theorem retired_foldl {α : Type} {f : State → α → State} {l : List α}
    (hf : ∀ st x, (getEng st e).retired = true → (getEng (f st x) e).retired = true) (h : (getEng s e).retired = true) :
    (getEng (l.foldl f s) e).retired = true := by
  induction l generalizing s with
  | nil => exact h
  | cons x r ih => exact ih (hf s x h)

theorem retired_retireEngine : (getEng (retireEngine s e) e).retired = true := by
  unfold retireEngine
  dsimp only
  refine retired_foldl (fun st x => retired_reassignTile) (retired_foldl (fun st x => retired_reassignTile) ?_)
  rw [getEng_of_bookSide (coreEvent_bookSide (.refl _)), getEng_setEng_same (engine_ne_of_retired rfl)]

/-! ### An entry that is not at its default -/

/-- A write of another entry leaves what reads as other than its default. -/
theorem tget_tput_of_ne {d v x : Nat} {b : Bool} {t : Tab Nat} {k j : Nat} (h : tget d t j = v) (hv : v ≠ d) (hj : j ≠ k) :
    tget d (tput b t k x) j = v := by
  induction t with
  | nil => exact absurd h.symm hv
  | cons p r ih =>
    obtain ⟨i, w⟩ := p
    unfold tget at h
    by_cases hi : i = j
    · rw [if_pos hi] at h
      have hik : i ≠ k := fun hk => hj (hi.symm.trans hk)
      unfold tput
      rw [if_neg hik]
      split
      · next hlt =>
        split
        · simp [tget, hi, h]
        · have hkj : k ≠ j := Ne.symm hj
          simp only [tget, hkj, if_false, hi, if_true, h]
          rw [if_neg (by omega)]
      · simp [tget, hi, h]
    · rw [if_neg hi] at h
      by_cases hlt : j < i
      · rw [if_pos hlt] at h
        exact absurd h.symm hv
      · rw [if_neg hlt] at h
        unfold tput
        by_cases hik : i = k
        · rw [if_pos hik]
          cases b
          · simp only [Bool.false_eq_true, if_false, tget]
            rw [if_neg (Ne.symm hj), if_neg (by omega)]
            exact h
          · exact h
        · rw [if_neg hik]
          by_cases hki : k < i
          · rw [if_pos hki]
            cases b
            · simp only [Bool.false_eq_true, if_false, tget]
              rw [if_neg (Ne.symm hj), if_neg (by omega), if_neg hi, if_neg hlt]
              exact h
            · simp only [if_true, tget]
              rw [if_neg hi, if_neg hlt]
              exact h
          · rw [if_neg hki]
            unfold tget
            rw [if_neg hi, if_neg hlt]
            exact ih h

theorem dget_dset_other {key k v x : Nat} (h : dget s key = v) (hv : v ≠ dictDefault key) (hk : key ≠ k) :
    dget (dset s k x) key = v := tget_tput_of_ne h hv hk

theorem sendEmber_dict {src dst : Nat} {w : EmberWhat} : (sendEmber s src dst w).dict = s.dict := by
  unfold sendEmber
  dsimp only
  split <;> rfl

theorem sendCaps_dict {c : Nat} {b : Bool} : (sendCaps s c b).dict = s.dict :=
  foldl_keeps State.dict (fun _ _ => sendEmber_dict) _ _

theorem condEvent_dict {c old : Nat} : (condEvent s c old).dict = s.dict := by
  unfold condEvent
  split <;> rfl

theorem updCluster_dict (s : State) (c : Nat) (f : ClusterPw → ClusterPw) :
    ∃ x, (updCluster s c f).dict = (dset s Key.capHeld x).dict := by
  unfold updCluster
  dsimp only
  generalize setBit _ c _ = x
  refine ⟨x, ?_⟩
  rw [condEvent_dict]
  split
  · rfl
  · rw [sendCaps_dict]
    rfl

theorem dget_dampCheck_of_ne {c key v : Nat} (h : dget s key = v) (hv : v ≠ dictDefault key) (hk : key ≠ Key.capHeld) :
    dget (dampCheck s c) key = v := by
  unfold dampCheck
  dsimp only
  split
  · exact h
  · split
    · obtain ⟨x, hx⟩ := updCluster_dict s c fun p => { p with damp := .hold }
      rw [dget, hx]
      exact dget_dset_other h hv hk
    · exact h

theorem reassignTile_dict {j : Nat} {kt : Nat × Nat} {t' : Option TileRun} : (reassignTile s j kt t').dict = s.dict := by
  unfold reassignTile
  split
  · rfl
  · dsimp only
    split
    · unfold failOp
      split <;> rfl
    · split <;> rfl

theorem retireEngine_dict : (retireEngine s e).dict = s.dict := by
  unfold retireEngine
  dsimp only
  rw [foldl_keeps State.dict (fun _ _ => reassignTile_dict), foldl_keeps State.dict (fun _ _ => reassignTile_dict)]
  rfl

/-- A failed proof test is counted, and its engine stands retired (R378). -/
theorem engineProof_fails (hcore : e % 4 ≠ 0) :
    (getEng (engineProof s e true {}) e).retired = true ∧
      (engineProof s e true {}).dict = (dcount s Key.proofFails).dict := by
  unfold engineProof
  dsimp only
  rw [if_neg hcore, if_pos rfl]
  generalize hs4 : proofFailed _ _ = s4
  have hdict : s4.dict = (dcount s Key.proofFails).dict := by
    rw [← hs4]
    rfl
  split
  · next hr => exact ⟨hr, hdict⟩
  · exact ⟨retired_retireEngine, retireEngine_dict.trans hdict⟩

theorem satAdd_one_ne_zero {x : Nat} : satAdd (2 ^ 32 - 1) x 1 ≠ 0 := by
  unfold satAdd
  omega

theorem dget_dcount_proofFails :
    dget (dcount s Key.proofFails) Key.proofFails = satAdd (2 ^ 32 - 1) (dget s Key.proofFails) 1 :=
  (tget_tset_new (d := 0) satAdd_one_ne_zero).trans (if_pos rfl)

theorem mem_sinsert {k : Nat} {l : List Nat} : k ∈ sinsert k l := by
  induction l with
  | nil => exact List.mem_singleton_self k
  | cons j r ih =>
    unfold sinsert
    split
    · next h => exact h ▸ List.mem_cons_self
    · split
      · exact List.mem_cons_self
      · exact List.mem_cons_of_mem _ ih

/-- Settles O11: a request waits or puts the tile aside, a message sets or clears its hold, and a failed test retires its engine or is
remembered. -/
theorem holdsAndProofTestsComplete : Obligations.HoldsAndProofTestsComplete := by
  unfold Obligations.HoldsAndProofTestsComplete
  refine ⟨?_, ?_, ?_, ?_, ?_, ?_, ?_, ?_, ?_, ?_⟩
  · intro s e t o hon hcur ho hc
    refine ⟨_, completes_engineAct rfl hon, ?_⟩
    rw [getEng_dampCheck, preemptRequest_waits hcur ho hc, getEng_asked_same]
    exact ⟨rfl, hcur⟩
  · intro s e t o hon hcur ho hc hs hd
    obtain ⟨l, hl, hg⟩ := getEng_spillOldest (s := setEng (asked s e.val) e.val (putAside s e.val t)) (core := e.val / 4) (j := e.val)
    rw [getEng_setEng_same (engine_ne_of_saved (List.append_ne_nil_of_right_ne_nil _ (List.cons_ne_nil _ _)))] at hl hg
    refine ⟨_, completes_engineAct rfl hon, ?_⟩
    rw [getEng_dampCheck, preemptRequest_putsAside hcur ho hc hs hd, hg]
    exact ⟨rfl, rfl, hl⟩
  · intro s e m hf hoff hm
    refine ⟨_, rfl, ?_⟩
    have hheld : hardCapHold s false e.val = dampCheck (capHoldEngine (takeEmber s m) e.val true) (clusterOfEng e.val) := by
      unfold hardCapHold
      rw [if_neg (by rw [hf, hoff]; decide), if_neg (by decide), hm]
    rw [hheld, getEng_dampCheck]
    exact congrArg Engine.capHold (getEng_setEng_same fun h => Bool.false_ne_true (congrArg Engine.capHold h).symm)
  · intro s e h
    refine ⟨_, rfl, ?_⟩
    have hheld : hardCapHold s false e.val = dampCheck (capHoldEngine s e.val true) (clusterOfEng e.val) := by
      unfold hardCapHold
      rw [if_pos (by simpa using h), if_neg (by decide)]
    rw [hheld, getEng_dampCheck]
    exact congrArg Engine.capHold (getEng_setEng_same fun h => Bool.false_ne_true (congrArg Engine.capHold h).symm)
  · intro s h hf
    refine completes_of rfl ?_
    unfold hardCapHold
    rw [if_pos (by rw [hf]; rfl), if_pos rfl]
  · intro s e m hf hoff hm
    refine completes_of rfl ?_
    unfold hardCapRelease
    rw [if_neg (by rw [hf, hoff]; decide), if_neg (by decide), hm]
  · intro s h hf hoff
    refine completes_of rfl ?_
    unfold hardCapRelease
    rw [if_neg (by rw [hf, hoff]; decide), if_pos rfl]
  · intro s e hon hdue hcur hf _ hcore _
    obtain ⟨hr, hd⟩ := engineProof_fails (s := s) hcore
    have htest : proofTest s e.val true {} = engineProof s e.val true {} := by
      unfold proofTest
      rw [if_neg (by rw [hdue, hcur, hf]; decide)]
      exact takeTile_of_retired hr
    refine ⟨_, completes_engineAct rfl hon, ?_, ?_⟩
    · rw [getEng_dampCheck, htest]
      exact hr
    · refine dget_dampCheck_of_ne ?_ satAdd_one_ne_zero (by decide)
      rw [htest, dget, hd]
      exact dget_dcount_proofFails
  · intro s h hdue hf
    refine completes_of rfl ?_
    unfold hearthProof
    rw [if_neg (by rw [hdue, hf]; decide)]
    rfl
  · intro s h hdue hf
    refine ⟨_, rfl, ?_⟩
    unfold hearthProof
    rw [if_neg (by rw [hdue, hf]; decide)]
    exact mem_sinsert

/-! ### The frame -/

/-- Settles O12: an engine's event acts on the engine's side alone. -/
theorem engineCommandsFrame : Obligations.EngineCommandsFrame := by
  unfold Obligations.EngineCommandsFrame
  intro s t i e h m b c hi ht
  have hside : ∃ f, exec i s = .next (engineAct s e.val f) ∧ EngineSide s (f s) := by
    simp only [List.mem_cons, List.not_mem_nil, or_false] at hi
    obtain rfl | rfl | rfl | rfl | rfl | rfl | rfl | rfl | rfl := hi
    · exact ⟨_, rfl, arrayStep_engineSide (.refl s)⟩
    · exact ⟨_, rfl, stationaryLoad_engineSide (.refl s)⟩
    · exact ⟨_, rfl, checksumRowPass_engineSide (.refl s)⟩
    · exact ⟨_, rfl, tileRoundDone_engineSide (.refl s)⟩
    · exact ⟨_, rfl, drainDone_engineSide (.refl s)⟩
    · exact ⟨_, rfl, respinRequest_engineSide (.refl s)⟩
    · exact ⟨_, rfl, replayStagingDone_engineSide (.refl s)⟩
    · exact ⟨_, rfl, preemptRequest_engineSide (.refl s)⟩
    · exact ⟨_, rfl, proofTest_engineSide (.refl s)⟩
  obtain ⟨f, hf, hs⟩ := hside
  cases hf.symm.trans ht
  have hu := engineAct_engineSide (e := e.val) hs
  exact ⟨hu.seqs, hu.saved, hu.knots, hu.knotq, hu.q, hu.cord, hu.gens, hu.raq, hu.rst, hu.flash, hu.sec, hu.dsys, hu.snap, hu.out,
    hu.heldHost⟩

end Sys2Proof.Machine
end

