-- ==== Sys2Proof/Proofs/MemoryMap.lean ====
section
/-!
PROOF. What an access to memory leaves as it was: the writes of the hub keep to memory, and no access changes where addresses lie.
-/

namespace Sys2Proof.Machine

/-! ### Writes of the hub -/

theorem hubWriteFor_memOnly (s : State) (who : Requester) (bulk : Bool) (a : Nat) (b : List Byte) :
    MemOnly s (hubWriteFor s who bulk a b).2 := by
  have h := devWrite_memOnly (v := s) (a1 := hubVia) (bulk := bulk) (a := a) (b := b) (.refl s)
  unfold hubWriteFor
  split
  · next he =>
    rw [he] at h
    dsimp only
    split <;> exact h
  · exact h

theorem hubWrite_memOnly (s : State) (bulk : Bool) (a : Nat) (b : List Byte) : MemOnly s (hubWrite s bulk a b).2 := by
  have h := hubWriteFor_memOnly s .host bulk a b
  unfold hubWrite
  split
  · next he => rw [he] at h; exact h
  · exact h

theorem hubWrites_memOnly (bulk : Bool) (l : List (Nat × List Byte)) (s : State) : MemOnly s (hubWrites s bulk l).2 := by
  induction l generalizing s with
  | nil => exact .refl s
  | cons p r ih => exact (hubWrite_memOnly s bulk p.1 p.2).trans (ih _)

theorem ctxWriteBack_memOnly (s : State) (q : Nat) (c : QCtx) : MemOnly s (ctxWriteBack s q c) := hubWrites_memOnly false _ s

/-! ### Where addresses lie -/

/-- What the place of an address depends on: the channels, the zones and the reservations in force. -/
def MemSys.layout (m : MemSys) : MemSys :=
  { m with cells := [], cache := [], poison := [], cured := [], poisonSeen := [], reqs := [] }

/-- Addresses lie in `t` where they lie in `s`. -/
def SameMap (s t : State) : Prop := t.mem.layout = s.mem.layout

theorem SameMap.refl (s : State) : SameMap s s := rfl

theorem SameMap.trans {s t u : State} (h : SameMap s t) (h' : SameMap t u) : SameMap s u := Eq.trans h' h

theorem resolve_layout (m : MemSys) (home : Option Nat) (a : Nat) : resolve m.layout home a = resolve m home a := rfl

theorem SameMap.resolve {s t : State} (h : SameMap s t) (home : Option Nat) (a : Nat) :
    Machine.resolve t.mem home a = Machine.resolve s.mem home a := by
  rw [← resolve_layout t.mem, ← resolve_layout s.mem, show t.mem.layout = s.mem.layout from h]

theorem Via.resolve_layout (w : Via) (m : MemSys) (a : Nat) : w.resolve m.layout a = w.resolve m a := rfl

theorem SameMap.viaResolve {s t : State} (h : SameMap s t) (w : Via) (a : Nat) : w.resolve t.mem a = w.resolve s.mem a := by
  rw [← w.resolve_layout t.mem, ← w.resolve_layout s.mem, show t.mem.layout = s.mem.layout from h]

theorem evictLine_layout (m : MemSys) (k : Nat) : (evictLine m k).layout = m.layout := by
  unfold evictLine
  split <;> rfl

theorem allocLine_sameMap (s : State) (k : Nat) (l : CLine) : SameMap s (allocLine s k l) := by
  unfold allocLine
  dsimp only
  split
  · rfl
  · exact evictLine_layout s.mem _

theorem atomFill_sameMap (s : State) (c : Bool) (l : Loc) : SameMap s (atomFill s c l).2 := by
  unfold atomFill
  split
  · rfl
  · dsimp only
    split
    · exact allocLine_sameMap s _ _
    · rfl

theorem atomRead_sameMap (s : State) (w : Via) (c : Bool) (l : Loc) (n : Nat) : SameMap s (atomRead s w c l n).2 := by
  unfold atomRead
  split
  · rfl
  · dsimp only
    split
    · exact atomFill_sameMap s c l
    · exact atomFill_sameMap s c l

theorem atomWrite_sameMap (s : State) (w : Via) (c : Bool) (l : Loc) (b : List Byte) : SameMap s (atomWrite s w c l b).2 := by
  unfold atomWrite
  split
  · rfl
  · dsimp only
    have h0 : SameMap s (if (b.length == 64) = true then { s with mem := cureAtom s.mem l.atom } else s) := by
      split <;> rfl
    generalize (if (b.length == 64) = true then { s with mem := cureAtom s.mem l.atom } else s) = s0 at h0 ⊢
    split
    · rfl
    · split
      · exact h0
      · split
        · exact h0.trans (allocLine_sameMap s0 _ _)
        · exact h0

theorem readPieces_sameMap (w : Via) (bulk : Bool) (l : List (Nat × Nat)) (s : State) : SameMap s (readPieces s w bulk l).2 := by
  induction l generalizing s with
  | nil => rfl
  | cons p r ih =>
    obtain ⟨a, n⟩ := p
    unfold readPieces
    split
    · rfl
    · next l _ =>
      have h := atomRead_sameMap s w (isCached s w bulk a l) l n
      split
      · next he => rw [he] at h; exact h
      · next he =>
        rw [he] at h
        have h2 := h.trans (ih _)
        split
        · next hr => rw [hr] at h2; exact h2
        · next hr => rw [hr] at h2; exact h2

theorem devRead_sameMap (s : State) (w : Via) (bulk : Bool) (a n : Nat) : SameMap s (devRead s w bulk a n).2 := by
  unfold devRead
  split
  · rfl
  · exact readPieces_sameMap w bulk _ s

theorem touchPage_sameMap (s : State) (p : Nat) (pg : PageSt) : SameMap s (touchPage s p pg) := by
  unfold touchPage
  split
  · split <;> rfl
  · rfl
  · rfl
  · rfl

theorem writeBlocked_sameMap (w : Via) (bulk : Bool) (l : List (Nat × Nat)) (s : State) :
    SameMap s (writeBlocked s w bulk l).2 := by
  induction l generalizing s with
  | nil => rfl
  | cons p r ih =>
    obtain ⟨a, n⟩ := p
    unfold writeBlocked
    split
    · exact ih s
    · split
      · split
        · exact ih s
        · split
          · exact ih s
          · exact (touchPage_sameMap s _ _).trans (ih _)
      · split <;> exact ih s

theorem writePieces_sameMap (w : Via) (bulk : Bool) (l : List (Nat × Nat)) (b : List Byte) (s : State) :
    SameMap s (writePieces s w bulk l b).2 := by
  induction l generalizing s b with
  | nil => rfl
  | cons p r ih =>
    obtain ⟨a, n⟩ := p
    unfold writePieces
    split
    · exact ih _ s
    · exact (atomWrite_sameMap s w _ _ _).trans (ih _ _)

theorem devWrite_sameMap (s : State) (w : Via) (bulk : Bool) (a : Nat) (b : List Byte) : SameMap s (devWrite s w bulk a b).2 := by
  unfold devWrite
  dsimp only
  split
  · rfl
  · have h := writeBlocked_sameMap w bulk (piecesOf a b.length) s
    split
    · next he => rw [he] at h; exact h
    · exact writePieces_sameMap w bulk _ b s

theorem hubWriteFor_sameMap (s : State) (who : Requester) (bulk : Bool) (a : Nat) (b : List Byte) :
    SameMap s (hubWriteFor s who bulk a b).2 := by
  have h := devWrite_sameMap s hubVia bulk a b
  unfold hubWriteFor
  split
  · next he =>
    rw [he] at h
    dsimp only
    split <;> exact h
  · exact h

theorem hubWrite_sameMap (s : State) (bulk : Bool) (a : Nat) (b : List Byte) : SameMap s (hubWrite s bulk a b).2 := by
  have h := hubWriteFor_sameMap s .host bulk a b
  unfold hubWrite
  split
  · next he => rw [he] at h; exact h
  · exact h

theorem hubWrites_sameMap (bulk : Bool) (l : List (Nat × List Byte)) (s : State) : SameMap s (hubWrites s bulk l).2 := by
  induction l generalizing s with
  | nil => rfl
  | cons p r ih => exact (hubWrite_sameMap s bulk p.1 p.2).trans (ih _)

end Sys2Proof.Machine
end

