-- ==== Sys2Proof/Proofs/Queues.lean ====
section
/-!
PROOF. Doorbells and the commands of queues and strands (R251–R253, R258–R262).
-/

namespace Sys2Proof.Machine

variable {s : State} {q : Nat} {c : QCtx}

/-! ### Contexts -/

/-- Caching a context changes of the queue engine only the cache, in which it comes first. -/
theorem putCtx_q (s : State) (q : Nat) (c : QCtx) :
    (putCtx s q c).q = { s.q with cache := (q, c) :: (s.q.cache.filter (fun p => p.1 != q)).take 4095 } := by
  unfold putCtx
  dsimp only
  split
  · rfl
  · exact (ctxWriteBack_memOnly _ _ _).q

theorem cachedCtx_putCtx (s : State) (q : Nat) (c : QCtx) : cachedCtx (putCtx s q c) q = some c := by
  unfold cachedCtx
  rw [putCtx_q]
  simp

theorem putCtx_sameMap (s : State) (q : Nat) (c : QCtx) : SameMap s (putCtx s q c) := by
  unfold putCtx
  dsimp only
  split
  · rfl
  · exact hubWrites_sameMap false _ _

/-- A context that is cached already, and the most recently used, displaces none. -/
theorem putCtx_again {c' : QCtx} {r : List (Nat × QCtx)} (h : s.q.cache = (q, c') :: r) (hr : ∀ p ∈ r, p.1 ≠ q)
    (hlen : r.length ≤ 4095) (c : QCtx) : putCtx s q c = { s with q := { s.q with cache := (q, c) :: r } } := by
  have hfilter : s.q.cache.filter (fun p => p.1 != q) = r := by
    rw [h, List.filter_cons_of_neg (by simp), List.filter_eq_self.2]
    exact fun p hp => by simpa using hr p hp
  unfold putCtx
  dsimp only
  rw [hfilter, List.getElem?_eq_none hlen, List.take_of_length_le hlen]

/-- Loading a context changes of the queue engine only the cache. -/
theorem loadCtx_q (s : State) (q : Nat) : ∃ k, (loadCtx s q).2.q = { s.q with cache := k } := by
  unfold loadCtx
  split
  · exact ⟨_, putCtx_q _ _ _⟩
  · have hm := (devRead_memOnly (v := s) (a1 := hubVia) (bulk := false) (a := qctxAddr s q) (n := 64) (.refl s)).q
    split
    · next he => rw [he] at hm; exact ⟨s.q.cache, hm⟩
    · next he =>
      rw [he] at hm
      dsimp only
      split
      · exact ⟨s.q.cache, hm⟩
      · exact ⟨_, (putCtx_q _ _ _).trans (by rw [hm])⟩

theorem loadCtx_cache {r : Except MemErr QCtx} {s1 : State} (h : loadCtx s q = (r, s1)) : ∃ k, s1.q = { s.q with cache := k } := by
  have := loadCtx_q s q
  rwa [h] at this

theorem loadCtx_seqs {r : Except MemErr QCtx} {s1 : State} (h : loadCtx s q = (r, s1)) : s1.seqs = s.seqs := by
  have := (loadCtx_hostSide (v := s) (q := q) (.refl s)).seqs
  rwa [h] at this

theorem loadCtx_sameMap {r : Except MemErr QCtx} {s1 : State} (h : loadCtx s q = (r, s1)) : SameMap s s1 := by
  unfold loadCtx at h
  split at h
  · cases h
    exact putCtx_sameMap _ _ _
  · have hm := devRead_sameMap s hubVia false (qctxAddr s q) 64
    split at h
    · next he => rw [he] at hm; cases h; exact hm
    · next he =>
      rw [he] at hm
      dsimp only at h
      cases h
      split
      · exact hm
      · exact hm.trans (putCtx_sameMap _ _ _)

/-- The context of an enabled queue, or of one in ERROR, is held from then on. -/
theorem loadCtx_holds {s1 : State} (h : loadCtx s q = (.ok c, s1)) (hst : ctxState s1 c ≠ 0) :
    ∃ t, s1 = putCtx t q c := by
  unfold loadCtx at h
  split at h
  · cases h
    exact ⟨s, rfl⟩
  · split at h
    · cases h
    · next t _ _ =>
      dsimp only at h
      split at h
      · next h0 =>
        cases h
        exact absurd h0 hst
      · cases h
        exact ⟨_, rfl⟩

theorem loadCtx_of_cached (h : cachedCtx s q = some c) : loadCtx s q = (.ok c, putCtx s q c) := by
  unfold loadCtx
  rw [h]

/-! ### BAR0 writes in their order -/

theorem runLate_next {n : Nat} {a : Bar0Act} {r : List Bar0Act} (h : s.q.late = a :: r) (hb : bar2WriteOpen s = false)
    (hc : ctxBlocked s a = false) : runLate (n + 1) s = runLate n (bar0Effect { s with q := { s.q with late := r } } a) := by
  rw [runLate, h]
  exact if_neg (by simp [hb, hc])

/-- A BAR0 write that need not wait is carried out at once. -/
theorem lateAll_one {a : Bar0Act} (hl : s.q.late = []) (hb : bar2WriteOpen s = false) (hc : ctxBlocked s a = false) :
    lateAll { s with q := { s.q with late := s.q.late ++ [a] } } = bar0Effect s a := by
  have hs : ({ s with q := { s.q with late := [] } } : State) = s := by rw [← hl]
  rw [hl]
  exact (runLate_next (s := { s with q := { s.q with late := [a] } }) rfl hb hc).trans (congrArg (bar0Effect · a) hs)

theorem writeDoorbell_now {v : Nat} (hup : hostUp s = true) (hl : s.q.late = []) (hb : bar2WriteOpen s = false)
    (hc : ctxBlocked s (.doorbell v) = false) : writeDoorbell s v = doorbell s v := by
  unfold writeDoorbell
  rw [if_neg (by rw [hup]; decide), lateAll_one hl hb hc]
  rfl

theorem writeCommand_now {strand : Bool} {cmd entry q : Nat} (h : bar0Ready s (.command strand cmd entry q)) :
    writeCommand s strand cmd entry q = bar0Effect s (.command strand cmd entry q) := by
  obtain ⟨hup, hqe, hl, hb, hc⟩ := h
  unfold writeCommand
  rw [if_neg (by rw [hup]; decide), if_neg (by simp [cmdBusy, hl, hqe]), lateAll_one hl hb hc]

/-! ### Doorbells -/

/-- Settles O24: the table's rows are the branches of `doorbell`, in their order. -/
theorem doorbellsByTheTable : Obligations.DoorbellsByTheTable := by
  unfold Obligations.DoorbellsByTheTable
  intro s v q pi hq hpi hup hl hb hc
  have hnow : Completes (.doorbell v) s (doorbell s v.toNat) := completes_of rfl (writeDoorbell_now hup hl hb hc)
  refine ⟨fun h => completes_of hnow ?_, fun c s1 hz hqe hload => ?_⟩
  · unfold doorbell
    exact if_pos (h.imp_right fun hn => by rw [hn]; rfl)
  · have hrow : doorbell s v.toNat =
        if ctxState s1 c ≠ 1 then dcount s1 Key.doorbellDrops
        else if (pi + 2 ^ 16 - c.done) % 2 ^ 16 > 2 ^ c.ringLog2 then queueError s1 q 2 pi
        else if (pi + 2 ^ 16 - c.done) % 2 ^ 16 < (c.pi + 2 ^ 16 - c.done) % 2 ^ 16 then dcount s1 Key.doorbellDrops
        else if (pi + 2 ^ 16 - c.done) % 2 ^ 16 = (c.pi + 2 ^ 16 - c.done) % 2 ^ 16 then s1
        else putCtx { s1 with q := { s1.q with doorbells := s1.q.doorbells + 1 } } q { c with pi := pi } := by
      unfold doorbell
      dsimp only
      rw [if_neg (by rintro (h | h); exact h hz; simp [hqe] at h), hq, hpi, hload]
    refine ⟨fun hst => ?_, fun hst hfar => ?_, fun hst hnear => ⟨fun hlt => ?_, fun heq => ?_, fun hgt => ?_⟩⟩
    · exact completes_of hnow (hrow.trans (if_pos hst))
    · exact completes_of hnow (hrow.trans (by rw [if_neg (fun h => h hst), if_pos hfar]))
    · exact completes_of hnow (hrow.trans (by rw [if_neg (fun h => h hst), if_neg (Nat.not_lt.mpr hnear), if_pos hlt]))
    · exact completes_of hnow (hrow.trans
        (by rw [if_neg (fun h => h hst), if_neg (Nat.not_lt.mpr hnear), if_neg (Nat.not_lt.mpr (Nat.le_of_eq heq.symm)), if_pos heq]))
    · obtain ⟨k, hk⟩ := loadCtx_cache hload
      refine ⟨_, completes_of hnow (hrow.trans
        (by rw [if_neg (fun h => h hst), if_neg (Nat.not_lt.mpr hnear), if_neg (Nat.not_lt.mpr (Nat.le_of_lt hgt)), if_neg (Nat.ne_of_gt hgt)])),
        cachedCtx_putCtx _ _ _, ?_, ?_, ?_⟩
      · rw [putCtx_q, hk]
      · rw [putCtx_q, hk]
      · exact (putCtx_hostSide (v := { s1 with q := { s1.q with doorbells := s1.q.doorbells + 1 } }) (.refl _)).seqs.trans
          (show s1.seqs = s.seqs from loadCtx_seqs hload)

/-! ### ENABLE and FLUSH -/

/-- The queue's context is cached, enabled, and the queue counts as live, with no item started (R261). -/
def enabledState (s : State) (q : Nat) (c : QCtx) : State :=
  { putCtx s q c with q := { (putCtx s q c).q with
      live := sinsert q (putCtx s q c).q.live, started := tset 0 (putCtx s q c).q.started q 0 } }

theorem enableQueue_enables {s1 s2 : State} {old : QCtx} {b : List Byte} (hqe : s.q.qeReady = true)
    (hload : loadCtx s q = (.ok old, s1)) (hst : ctxState s1 old = 0)
    (hb : devRead s1 hubVia false (qctxAddr s1 q) 64 = (.ok b, s2)) (hv : ctxValid s (QCtx.parse b) = true) :
    enableQueue s q = kickQueue (setResult (enabledState s2 q
      { QCtx.parse b with state := 1, errCode := 0, epoch := s2.q.hostEpoch }) false 0 1 0 q) q := by
  have hread : SameMap s1 s2 := by
    have := devRead_sameMap s1 hubVia false (qctxAddr s1 q) 64
    rwa [hb] at this
  have hmap : SameMap s (enabledState s2 q { QCtx.parse b with state := 1, errCode := 0, epoch := s2.q.hostEpoch }) :=
    ((loadCtx_sameMap hload).trans hread).trans (putCtx_sameMap s2 q _)
  have hvalid : ctxValid (enabledState s2 q { QCtx.parse b with state := 1, errCode := 0, epoch := s2.q.hostEpoch })
      (QCtx.parse b) = true := by
    unfold ctxValid at hv ⊢
    rwa [hmap.resolve]
  unfold enableQueue
  rw [if_neg (by rw [hqe]; decide), hload]
  dsimp only
  rw [hst, if_neg (by decide), hb]
  dsimp only
  rw [if_pos rfl, if_pos rfl]
  exact if_pos hvalid

theorem enabledState_spec {s1 s2 : State} {old : QCtx} {b : List Byte} {c' : QCtx} (hload : loadCtx s q = (.ok old, s1))
    (hb : devRead s1 hubVia false (qctxAddr s1 q) 64 = (.ok b, s2)) :
    s2.q.hostEpoch = s.q.hostEpoch ∧ cachedCtx (enabledState s2 q c') q = some c' ∧ q ∈ (enabledState s2 q c').q.live ∧
      (enabledState s2 q c').q.started = tset 0 s.q.started q 0 ∧ (enabledState s2 q c').q.ents = s.q.ents ∧
      (enabledState s2 q c').seqs = s.seqs := by
  obtain ⟨k, hk⟩ := loadCtx_cache hload
  have hread : MemOnly s1 s2 := by
    have := devRead_memOnly (v := s1) (a1 := hubVia) (bulk := false) (a := qctxAddr s1 q) (n := 64) (.refl s1)
    rwa [hb] at this
  have hq : s2.q = { s.q with cache := k } := hread.q.trans hk
  have hput := putCtx_q s2 q c'
  refine ⟨by rw [hq], cachedCtx_putCtx s2 q c', mem_sinsert, ?_, ?_, ?_⟩
  · exact congrArg (fun t => tset 0 t q 0) (by rw [hput, hq])
  · exact (congrArg QSys.ents hput).trans (by rw [hq])
  · exact ((putCtx_hostSide (v := s2) (.refl s2)).seqs.trans hread.seqs).trans (loadCtx_seqs hload)

/-! ### DISABLE -/

/-- What cancelling the entries of a queue keeps: the queue's context stays cached and not DISABLED, of the queue engine only the cache
and entries change, and no entry comes to be fetched. -/
structure Cancelling (s t : State) (q : Nat) : Prop where
  rest : ∃ k l, t.q = { s.q with cache := k, ents := l }
  cached : ∃ c, cachedCtx t q = some c ∧ ctxState t c ≠ 0
  wf : twf [] t.q.ents = true
  fetched : ∀ e ∈ queueEnts t q, e.phase = .fetched → ∃ e' ∈ queueEnts s q, e'.phase = .fetched ∧ e'.idx = e.idx
  seqs : t.seqs = s.seqs

theorem Cancelling.hostEpoch {t : State} (h : Cancelling s t q) : t.q.hostEpoch = s.q.hostEpoch := by
  obtain ⟨k, l, hk⟩ := h.rest
  rw [hk]

/-- A further step that leaves sequencers and entries alone, and the cache but for the context of the queue. -/
theorem Cancelling.step {t u : State} {k : List (Nat × QCtx)} (h : Cancelling s t q) (hq : u.q = { t.q with cache := k })
    (hc : ∃ c, cachedCtx u q = some c ∧ ctxState u c ≠ 0) (hs : u.seqs = t.seqs) : Cancelling s u q := by
  obtain ⟨k', l, hk⟩ := h.rest
  refine ⟨⟨k, l, by rw [hq, hk]⟩, hc, by rw [hq]; exact h.wf, ?_, hs.trans h.seqs⟩
  have : queueEnts u q = queueEnts t q := by unfold queueEnts; rw [hq]
  rw [this]
  exact h.fetched

theorem ctxState_of_epoch {t : State} (h : t.q.hostEpoch = s.q.hostEpoch) (c : QCtx) : ctxState t c = ctxState s c := by
  unfold ctxState
  rw [h]

theorem Cancelling.putCtx {t : State} (h : Cancelling s t q) {c : QCtx} (hc : ctxState t c ≠ 0) :
    Cancelling s (putCtx t q c) q :=
  h.step (putCtx_q t q c) ⟨c, cachedCtx_putCtx t q c, by rwa [ctxState_of_epoch (s := t) (by rw [putCtx_q])]⟩
    (putCtx_hostSide (v := t) (.refl t)).seqs

/-- Steps that change neither the queue engine nor a sequencer. -/
theorem Cancelling.same {t u : State} (h : Cancelling s t q) (hq : u.q = t.q) (hs : u.seqs = t.seqs) : Cancelling s u q := by
  obtain ⟨c, hc, hst⟩ := h.cached
  refine h.step (k := t.q.cache) hq ⟨c, ?_, ?_⟩ hs
  · rwa [cachedCtx, hq]
  · rwa [ctxState_of_epoch (s := t) (by rw [hq])]

theorem Cancelling.setEnts {t : State} (h : Cancelling s t q) {l : List QEnt}
    (hl : ∀ e ∈ l, e.phase = .fetched → ∃ e' ∈ queueEnts t q, e'.phase = .fetched ∧ e'.idx = e.idx) :
    Cancelling s (setEnts t q l) q := by
  obtain ⟨k, l', hk⟩ := h.rest
  refine ⟨⟨k, _, by unfold Machine.setEnts; rw [hk]⟩, h.cached, tset_wf [] l t.q.ents q h.wf, ?_, h.seqs⟩
  have he : queueEnts (Machine.setEnts t q l) q = l := by
    unfold queueEnts Machine.setEnts
    rw [tget_tset [] l t.q.ents q q h.wf, if_pos rfl]
  rw [he]
  intro e hm hp
  obtain ⟨e1, hm1, hp1, hi1⟩ := hl e hm hp
  obtain ⟨e2, hm2, hp2, hi2⟩ := h.fetched e1 hm1 hp1
  exact ⟨e2, hm2, hp2, hi2.trans hi1⟩

theorem Cancelling.queueError {t : State} (h : Cancelling s t q) (code entry : Nat) : Cancelling s (queueError t q code entry) q := by
  obtain ⟨c, hc, hst⟩ := h.cached
  have hst' : ctxState (Machine.putCtx t q c) c = ctxState t c := ctxState_of_epoch (by rw [putCtx_q]) c
  unfold Machine.queueError
  rw [loadCtx_of_cached hc]
  dsimp only
  split
  · next h1 =>
    refine Cancelling.same ((h.putCtx hst).putCtx (c := { c with state := 2, errCode := code, errEntry := entry }) ?_) rfl rfl
    unfold ctxState at h1 ⊢
    dsimp only
    split
    · decide
    · next hne => rw [if_neg hne] at h1; exact absurd h1 (by decide)
  · exact Cancelling.same (h.putCtx hst) rfl rfl

theorem advanceDone_subset (done n : Nat) (l : List QEnt) : ∀ e ∈ (advanceDone done n l).2, e ∈ l := by
  induction n generalizing done l with
  | zero => exact fun e h => h
  | succ n ih =>
    cases l with
    | nil => exact fun e h => h
    | cons x r =>
      unfold advanceDone
      dsimp only
      split
      · exact fun e h => List.mem_cons_of_mem _ (ih _ r e h)
      · exact fun e h => h

/-- An entry that is marked done is not fetched, and the others stay as they were. -/
theorem fetched_of_marked {l : List QEnt} {idx : Nat} {e : QEnt}
    (h : e ∈ l.map fun k => if k.idx = idx then { k with phase := .done } else k) (hp : e.phase = .fetched) :
    ∃ e' ∈ l, e'.phase = .fetched ∧ e'.idx = e.idx := by
  obtain ⟨x, hx, rfl⟩ := List.mem_map.1 h
  split at hp
  · cases hp
  · next hi => exact ⟨x, hx, hp, by rw [if_neg hi]⟩

theorem Cancelling.completionWritten {t : State} (h : Cancelling s t q) (idx code src : Nat) (evt : Bool) (err : Option MemErr) :
    Cancelling s (completionWritten t q idx code src evt err) q := by
  have h1 : Cancelling s (if err.isSome then Machine.queueError t q 5 idx else t) q := by
    split
    · exact h.queueError 5 idx
    · exact h
  unfold Machine.completionWritten
  dsimp only
  split
  · exact h1.same rfl rfl
  · exact h1

theorem toHost_q (t : State) (m : OutMsg) : (toHost t m).q = t.q := by
  unfold toHost
  split <;> rfl

theorem toHost_seqs (t : State) (m : OutMsg) : (toHost t m).seqs = t.seqs := by
  unfold toHost
  split <;> rfl

theorem Cancelling.completeEntry {t : State} (h : Cancelling s t q) (idx code info error : Nat) :
    Cancelling s (completeEntry t q idx code info error) q := by
  obtain ⟨c, hc, hst⟩ := h.cached
  unfold Machine.completeEntry
  split
  · exact h
  · next e _ =>
    rw [loadCtx_of_cached hc]
    dsimp only
    have h1 := h.putCtx hst
    have hst1 : ctxState (Machine.putCtx t q c) c ≠ 0 := by rwa [ctxState_of_epoch (s := t) (by rw [putCtx_q])]
    generalize Machine.putCtx t q c = s1 at h1 hst1
    have hadv := fun n => advanceDone_subset c.done n
      ((queueEnts s1 q).map fun k => if k.idx = idx then { k with phase := .done } else k)
    generalize hd : advanceDone c.done _ _ = adv
    have h2 : Cancelling s (putDone s1 q c adv.1 adv.2) q := by
      unfold putDone
      dsimp only
      rw [if_neg hst1]
      exact Cancelling.putCtx (h1.setEnts fun e hm hp => fetched_of_marked (hadv _ e (by rwa [hd])) hp) hst1
    generalize putDone s1 q c adv.1 adv.2 = s2 at h2
    split
    · have hm := hubWriteFor_memOnly s2 (.completion q idx code (bitOf (leField e.bytes 2 1) 0)) false
        (c.complBase + 32 * (idx % 2 ^ c.ringLog2)) (completionBytes q c e code info error)
      split
      · next he =>
        rw [he] at hm
        exact h2.same hm.q hm.seqs
      · next he =>
        rw [he] at hm
        exact (h2.same hm.q hm.seqs).completionWritten _ _ _ _ _
    · exact (h2.same (toHost_q _ _) (toHost_seqs _ _)).completionWritten _ _ _ _ _

theorem Cancelling.cancelEntries (l : List Nat) {t : State} (h : Cancelling s t q) : Cancelling s (cancelEntries t q l) q := by
  induction l generalizing t with
  | nil => exact h
  | cons i r ih => exact ih (h.completeEntry i 0x0A 0 0)

/-- The entries of a queue that DISABLE discards. -/
def discarded (s : State) (q : Nat) : List Nat := ((queueEnts s q).filter (fun e => e.phase == .fetched)).map (·.idx)

/-- The state in which those entries have completed as CANCELLED and are gone. -/
def cancelledState (s : State) (q : Nat) : State :=
  setEnts (cancelEntries s q (discarded s q)) q
    ((queueEnts (cancelEntries s q (discarded s q)) q).filter fun e => !(discarded s q).contains e.idx)

/-- The context that DISABLE writes back. -/
def disabledCtx (gone : List Nat) (c : QCtx) : QCtx :=
  { c with state := 0, ci := gone.headD c.ci
           done := if gone.contains ((c.done + 2 ^ 16 - 1) % 2 ^ 16) then gone.headD c.ci else c.done }

/-- The state that DISABLE leaves, from the one without the queue's context. -/
def disabledState (s : State) (q : Nat) (c : QCtx) : State :=
  setResult { ctxWriteBack s q c with q := { (ctxWriteBack s q c).q with live := sremove q (ctxWriteBack s q c).q.live } } false 0 2 0 q

theorem disableQueue_disables {s1 : State} {c1 : QCtx} (hqe : s.q.qeReady = true) (hload : loadCtx s q = (.ok c, s1))
    (hst : ctxState s1 c ≠ 0) (hc1 : cachedCtx (cancelledState s1 q) q = some c1) :
    disableQueue s q = disabledState (dropCtx (putCtx (cancelledState s1 q) q c1) q) q (disabledCtx (discarded s1 q) c1) := by
  unfold disableQueue
  rw [if_neg (by rw [hqe]; decide), hload]
  dsimp only
  rw [if_neg hst]
  have hl := loadCtx_of_cached hc1
  unfold cancelledState discarded at hl
  rw [hl]
  unfold disabledState disabledCtx cancelledState discarded
  dsimp only

theorem discarded_fetched {t : State} {e : QEnt} (hc : Cancelling s t q) (he : e ∈ queueEnts t q) (hp : e.phase = .fetched) :
    e.idx ∈ discarded s q := by
  obtain ⟨e', hm, hp', hi⟩ := hc.fetched e he hp
  exact List.mem_map.2 ⟨e', List.mem_filter.2 ⟨hm, by simp [hp']⟩, hi⟩

theorem cancelledState_cancelling (h : Cancelling s s q) : Cancelling s (cancelledState s q) q :=
  (h.cancelEntries _).setEnts fun e hm hp => ⟨e, (List.mem_filter.1 hm).1, hp, rfl⟩

theorem queueEnts_setEnts {l : List QEnt} (h : twf [] s.q.ents = true) : queueEnts (setEnts s q l) q = l := by
  unfold queueEnts setEnts
  rw [tget_tset [] l s.q.ents q q h, if_pos rfl]

/-- Every entry that is left has been started. -/
theorem cancelledState_none_fetched (h : Cancelling s s q) :
    (queueEnts (cancelledState s q) q).any (fun e => e.phase == .fetched) = false := by
  have hc := h.cancelEntries (discarded s q)
  rw [cancelledState, queueEnts_setEnts hc.wf, List.any_eq_false]
  intro e hm hp
  obtain ⟨hm, hgone⟩ := List.mem_filter.1 hm
  have := discarded_fetched hc hm (by simpa using hp)
  simp [this] at hgone

/-- With nothing to discard, no completion is written and memory stays as it is. -/
theorem cancelledState_of_none (h : discarded s q = []) :
    (cancelledState s q).mem = s.mem ∧ (cancelledState s q).q.cache = s.q.cache := by
  unfold cancelledState
  rw [h]
  exact ⟨rfl, rfl⟩

theorem cachedCtx_dropCtx : cachedCtx (dropCtx s q) q = none := by
  unfold cachedCtx dropCtx
  rw [Option.map_eq_none_iff, List.find?_eq_none]
  intro p hp
  simpa using (List.mem_filter.1 hp).2

theorem disabledState_q : (disabledState s q c).q =
    { s.q with live := sremove q s.q.live, cmdResult := cmdResultWord false 0 2 0 q } := by
  have := (ctxWriteBack_memOnly s q c).q
  unfold disabledState setResult
  dsimp only
  rw [this]

theorem disabledState_mem : (disabledState s q c).mem = (ctxWriteBack s q c).mem := by
  unfold disabledState
  generalize ctxWriteBack s q c = t
  rfl

theorem disabledState_seqs : (disabledState s q c).seqs = s.seqs := by
  refine Eq.trans ?_ (ctxWriteBack_memOnly s q c).seqs
  unfold disabledState
  generalize ctxWriteBack s q c = t
  rfl

theorem flushQueue_flushes {s1 : State} (hqe : s.q.qeReady = true) (hload : loadCtx s q = (.ok c, s1)) (hst : ctxState s1 c ≠ 0) :
    flushQueue s q = setResult (hubWrites s1 false (ctxWrites (qctxAddr s1 q) c)).2 false 0 3 0 q := by
  unfold flushQueue
  rw [if_neg (by rw [hqe]; decide), hload]
  exact if_neg hst

theorem badCommand_answers {strand : Bool} {cmd entry : Nat} (hup : hostUp s = true) (hqe : s.q.qeReady = true)
    (hb : cmdBusy s = false) : badCommand s strand cmd entry q = setResult s strand 1 cmd entry q := by
  unfold badCommand
  rw [if_neg (by rw [hup]; decide), if_neg (by simp [hb, hqe])]

/-- DISABLE of a queue that is not DISABLED, from its loaded context. -/
theorem disable_completes {s1 : State} (hqe : s.q.qeReady = true) (hload : loadCtx s q = (.ok c, s1)) (hst : ctxState s1 c ≠ 0)
    (hwf : twf [] s.q.ents = true) :
    ∃ s3 c2, disableQueue s q = disabledState s3 q c2 ∧ c2.state = 0 ∧
      ((queueEnts s q).any (fun e => e.phase == .fetched) = false → c2 = { c with state := 0 } ∧ s3.mem = s1.mem) ∧
      (queueEnts s3 q).any (fun e => e.phase == .fetched) = false ∧ cachedCtx s3 q = none ∧ s3.q.live = s.q.live ∧
      s3.seqs = s.seqs := by
  obtain ⟨k, hk⟩ := loadCtx_cache hload
  obtain ⟨t, ht⟩ := loadCtx_holds hload hst
  have hcached : cachedCtx s1 q = some c := by rw [ht]; exact cachedCtx_putCtx t q c
  have hself : Cancelling s1 s1 q :=
    ⟨⟨s1.q.cache, s1.q.ents, rfl⟩, ⟨c, hcached, hst⟩, by rw [hk]; exact hwf, fun e hm hp => ⟨e, hm, hp, rfl⟩, rfl⟩
  have hcan := cancelledState_cancelling hself
  obtain ⟨c1, hc1, -⟩ := hcan.cached
  obtain ⟨k', l', hk'⟩ := hcan.rest
  have hput := putCtx_q (cancelledState s1 q) q c1
  have hents : queueEnts (dropCtx (putCtx (cancelledState s1 q) q c1) q) q = queueEnts (cancelledState s1 q) q := by
    unfold queueEnts dropCtx
    dsimp only
    rw [hput]
  refine ⟨_, _, disableQueue_disables hqe hload hst hc1, rfl, fun hnone => ?_, ?_, cachedCtx_dropCtx, ?_, ?_⟩
  · have hgone : discarded s1 q = [] := by
      have hsame : queueEnts s1 q = queueEnts s q := by unfold queueEnts; rw [hk]
      unfold discarded
      rw [hsame, List.map_eq_nil_iff, List.filter_eq_nil_iff]
      exact fun e he => by simpa using List.any_eq_false.1 hnone e he
    obtain ⟨hmem, hcache⟩ := cancelledState_of_none hgone
    have hcc : c1 = c := by
      unfold cachedCtx at hc1 hcached
      rw [hcache, hcached] at hc1
      exact (Option.some.inj hc1).symm
    subst hcc
    rw [hgone]
    refine ⟨rfl, ?_⟩
    have hs1 : s1.q.cache = (q, c1) :: (t.q.cache.filter (fun p => p.1 != q)).take 4095 := by rw [ht, putCtx_q]
    have hag := putCtx_again (hcache.trans hs1)
      (fun p hp => by simpa using (List.mem_filter.1 (List.mem_of_mem_take hp)).2) (List.length_take_le _ _) c1
    exact (congrArg (fun u : State => (dropCtx u q).mem) hag).trans hmem
  · rw [hents]
    exact cancelledState_none_fetched hself
  · change (putCtx (cancelledState s1 q) q c1).q.live = _
    rw [hput, hk', hk]
  · exact ((putCtx_hostSide (v := cancelledState s1 q) (.refl _)).seqs.trans hcan.seqs).trans (loadCtx_seqs hload)

/-- Settles O25: each command is carried out at once, and its action is the branch of its queue's state. -/
theorem queueCommandsComplete : Obligations.QueueCommandsComplete := by
  unfold Obligations.QueueCommandsComplete
  refine ⟨?_, ?_, ?_, ?_⟩
  · intro s s1 s2 q old b hready hload hst hb hv
    obtain ⟨hepoch, hspec⟩ := enabledState_spec (c' := { QCtx.parse b with state := 1, errCode := 0, epoch := s2.q.hostEpoch }) hload hb
    refine ⟨_, completes_of rfl ((writeCommand_now hready).trans (enableQueue_enables hready.2.1 hload hst hb hv)), ?_⟩
    rw [hepoch] at hspec ⊢
    exact hspec
  · intro s s1 q c hready hload hst hwf
    obtain ⟨s3, c2, hdis, hzero, hnone, hents, hcache, hlive, hseqs⟩ := disable_completes hready.2.1 hload hst hwf
    have hq := disabledState_q (s := s3) (q := q.val) (c := c2)
    refine ⟨_, s3, c2, completes_of rfl ((writeCommand_now hready).trans hdis), hzero, disabledState_mem, hnone, ?_, ?_, ?_, ?_, ?_⟩
    · unfold queueEnts at hents ⊢
      rw [hq]
      exact hents
    · unfold cachedCtx at hcache ⊢
      rw [hq]
      exact hcache
    · rw [hq]
    · rw [hq, ← hlive]
    · exact disabledState_seqs.trans hseqs
  · intro s s1 q c hready hload hst
    exact completes_of rfl ((writeCommand_now hready).trans (flushQueue_flushes hready.2.1 hload hst))
  · intro s strand cmd e q hup hqe hb
    exact completes_of rfl (badCommand_answers hup hqe hb)

end Sys2Proof.Machine
end

