-- ==== Sys2Proof/Proofs/Entries.lean ====
section
/-!
PROOF. Strand commands, fetched entries and copies (R237, R238, R255, R257, R260, R262, R264).
-/

namespace Sys2Proof.Machine

variable {s : State} {q e : Nat} {c : QCtx}

/-! ### RESUME and END -/

theorem resumeStrand_held {r cause : Nat} {st : Strand} (hqe : s.q.qeReady = true) (hr : runnerOf s q e = some r)
    (hst : getStrand s r = some st) (hh : st.hold = some cause) :
    resumeStrand s q e = setResult (setStrand (tieWithheld s st) r
      (some { st with hold := none, stopped := false, withheld := [] })) true 0 1 e q := by
  unfold resumeStrand
  rw [if_neg (by rw [hqe]; decide), hr]
  dsimp only
  rw [hst]
  dsimp only
  rw [if_neg (by rw [hh]; exact Bool.false_ne_true)]

theorem resumeStrand_saved {v : Saved} (hqe : s.q.qeReady = true) (hr : runnerOf s q e = none)
    (hv : s.saved.find? (fun v => v.strand.queue == q && v.strand.entry == e) = some v) (hh : v.strand.hold = none) :
    resumeStrand s q e = setResult s true 3 1 e q := by
  unfold resumeStrand
  rw [if_neg (by rw [hqe]; decide), hr]
  dsimp only
  rw [hv]
  dsimp only
  rw [if_pos (by rw [hh]; rfl)]

theorem resumeStrand_absent (hqe : s.q.qeReady = true) (hr : runnerOf s q e = none)
    (hv : s.saved.find? (fun v => v.strand.queue == q && v.strand.entry == e) = none) :
    resumeStrand s q e = setResult s true 4 1 e q := by
  unfold resumeStrand
  rw [if_neg (by rw [hqe]; decide), hr]
  dsimp only
  rw [hv]

theorem endCommand_running {r : Nat} {st : Strand} (hqe : s.q.qeReady = true) (hr : runnerOf s q e = some r)
    (hst : getStrand s r = some st) :
    endCommand s q e = setResult (reportEnd (setStrand s r none) r st 0x08 st.pc.toNat 0) true 0 2 e q := by
  unfold endCommand
  rw [if_neg (by rw [hqe]; decide), hr]
  dsimp only
  rw [endStrand_running hst]

theorem endCommand_saved {v : Saved} (hqe : s.q.qeReady = true) (hr : runnerOf s q e = none)
    (hv : s.saved.find? (fun v => v.strand.queue == q && v.strand.entry == e) = some v) :
    endCommand s q e = setResult (reportEnd { s with
      saved := s.saved.filter fun w => !(w.strand.queue == q && w.strand.entry == e) } v.seq v.strand 0x08 v.strand.pc.toNat 0)
      true 0 2 e q := by
  unfold endCommand
  rw [if_neg (by rw [hqe]; decide), hr]
  dsimp only
  rw [hv]

theorem endCommand_absent (hqe : s.q.qeReady = true) (hr : runnerOf s q e = none)
    (hv : s.saved.find? (fun v => v.strand.queue == q && v.strand.entry == e) = none) :
    endCommand s q e = setResult s true 4 2 e q := by
  unfold endCommand
  rw [if_neg (by rw [hqe]; decide), hr]
  dsimp only
  rw [hv]

/-- While a command is busy, or the queue engine is not ready, a command is discarded. -/
theorem writeCommand_discarded {strand : Bool} {cmd entry : Nat} (hup : hostUp s = true)
    (h : cmdBusy s = true ∨ s.q.qeReady = false) : writeCommand s strand cmd entry q = bar0Drop s := by
  unfold writeCommand
  rw [if_neg (by rw [hup]; decide)]
  exact if_pos (h.imp_right fun hn => by rw [hn]; rfl)

/-- Settles O26: each strand command takes the branch for a strand that runs, is saved or is absent. -/
theorem strandCommandsComplete : Obligations.StrandCommandsComplete := by
  unfold Obligations.StrandCommandsComplete
  refine ⟨?_, ?_, ?_, ?_, ?_⟩
  · intro s q e r st c hready hr hst hh
    exact completes_of rfl ((writeCommand_now hready).trans (resumeStrand_held hready.2.1 hr hst hh))
  · intro s q e r st hready hr hst
    exact completes_of rfl ((writeCommand_now hready).trans (endCommand_running hready.2.1 hr hst))
  · intro s q e v hresume hend hr hv
    refine ⟨⟨_, completes_of rfl ((writeCommand_now hend).trans (endCommand_saved hend.2.1 hr hv)), ?_, rfl⟩, fun hh =>
      completes_of rfl ((writeCommand_now hresume).trans (resumeStrand_saved hresume.2.1 hr hv hh))⟩
    exact (reportEnd_hostSide (v := { s with
      saved := s.saved.filter fun w => !(w.strand.queue == q.val && w.strand.entry == e.toNat) }) (.refl _)).saved
  · intro s q e i hup hi h
    simp only [List.mem_cons, List.not_mem_nil, or_false] at hi
    obtain rfl | rfl | rfl | rfl | rfl := hi <;> exact completes_of rfl (writeCommand_discarded hup h)
  · intro s q e hresume hend hr hv
    exact ⟨completes_of rfl ((writeCommand_now hresume).trans (resumeStrand_absent hresume.2.1 hr hv)),
      completes_of rfl ((writeCommand_now hend).trans (endCommand_absent hend.2.1 hr hv))⟩

/-! ### Fetched entries -/

theorem canFetch_spec {n : Nat} {s0 : State} (h : canFetch s q = some (c, n, s0)) : loadCtx s q = (.ok c, s0) ∧ n ≠ 0 := by
  unfold canFetch at h
  split at h
  · cases h
  · next hl =>
    split at h
    · cases h
    · next hno =>
      cases h
      exact ⟨hl, fun h0 => hno (.inr (.inr h0))⟩

theorem appendEnts_ne_nil {i n : Nat} {b : List Byte} (hn : n ≠ 0) : appendEnts i n b ≠ [] := by
  cases n with
  | zero => exact absurd rfl hn
  | succ n => exact List.cons_ne_nil _ _

/-- The state in which a fetch's entries stand behind the queue's, and `CI` has moved past them. -/
def fetchedState (s : State) (q : Nat) (c : QCtx) (n : Nat) (b : List Byte) : State :=
  putCtx (setEnts s q (queueEnts s q ++ appendEnts c.ci n b)) q { c with ci := (c.ci + n) % 2 ^ 16 }

theorem fetchedState_spec {n : Nat} {b : List Byte} (hn : n ≠ 0) :
    queueEnts (fetchedState s q c n b) q = queueEnts s q ++ appendEnts c.ci n b ∧
      cachedCtx (fetchedState s q c n b) q = some { c with ci := (c.ci + n) % 2 ^ 16 } ∧ (fetchedState s q c n b).seqs = s.seqs := by
  refine ⟨?_, cachedCtx_putCtx _ _ _, (putCtx_hostSide (v := setEnts s q _) (.refl _)).seqs⟩
  unfold queueEnts fetchedState
  rw [putCtx_q]
  exact (tget_tset_new (List.append_ne_nil_of_right_ne_nil _ (appendEnts_ne_nil hn))).trans (if_pos rfl)

theorem entryFetchReturn_host {n : Nat} {s0 : State} {b : List Byte} (h : canFetch s q = some (c, n, s0)) (hdev : c.ringDev = false)
    (hlen : 64 * n ≤ b.length) : entryFetchReturn s q (some b) = kickQueue (fetchedState s0 q c n b) q := by
  unfold entryFetchReturn
  rw [h]
  dsimp only
  rw [if_neg (ne_true_of_eq_false hdev)]
  exact if_neg (Nat.not_lt.mpr hlen)

theorem entryFetchReturn_device {n : Nat} {s0 s1 : State} {b : List Byte} {host : Option (List Byte)}
    (h : canFetch s q = some (c, n, s0)) (hdev : c.ringDev = true)
    (hb : devRead s0 hubVia false (c.ringBase + 64 * (c.ci % 2 ^ c.ringLog2)) (64 * n) = (.ok b, s1)) :
    entryFetchReturn s q host = kickQueue (fetchedState s1 q c n b) q := by
  unfold entryFetchReturn
  rw [h]
  dsimp only
  rw [if_pos hdev, hb]
  rfl

theorem queueEnts_of_memOnly {t : State} (h : MemOnly s t) : queueEnts t q = queueEnts s q := by
  unfold queueEnts
  rw [h.q]

/-! ### Copies -/

theorem copyComplete_fromHost {i len w : Nat} {en : QEnt} {s0 s1 : State} {b : List Byte}
    (he : copyEntry s q i = some en) (hl : loadCtx s q = (.ok c, s0)) (hlen : leField en.bytes 24 8 = len)
    (hsrc : bitOf (leField en.bytes 1 1) 0 = true) (hd3 : s0.d3 = false) (hb : b.length = len)
    (hcopy : copyIn (!c.class2) (len / 64) s0 (leField en.bytes 16 8) b 0 = (none, w, s1)) :
    copyComplete s q i (some b) = finishCopy s1 q c en none w := by
  unfold copyComplete
  rw [he, hl]
  dsimp only
  rw [if_neg (by rw [hd3]; simp), if_pos hsrc, hlen, if_neg (fun h => h hb), hcopy]

theorem copyComplete_toHost {i len : Nat} {en : QEnt} {s0 s1 : State} {b : List Byte} {host : Option (List Byte)}
    (he : copyEntry s q i = some en) (hl : loadCtx s q = (.ok c, s0)) (hlen : leField en.bytes 24 8 = len)
    (hsrc : bitOf (leField en.bytes 1 1) 0 = false) (hdst : bitOf (leField en.bytes 1 1) 1 = true) (hd3 : s0.d3 = false)
    (hread : devRead s0 hubVia (!c.class2) (leField en.bytes 8 8) len = (.ok b, s1)) :
    copyComplete s q i host = finishCopy (toHost s1 (.hostWrite (leField en.bytes 16 8) b)) q c en none len := by
  unfold copyComplete
  rw [he, hl]
  dsimp only
  rw [if_neg (by rw [hd3]; simp), if_neg (ne_true_of_eq_false hsrc), if_pos hdst, hlen, hread]

theorem copyComplete_device {i len w : Nat} {en : QEnt} {s0 s1 : State} {host : Option (List Byte)}
    (he : copyEntry s q i = some en) (hl : loadCtx s q = (.ok c, s0)) (hlen : leField en.bytes 24 8 = len)
    (hsrc : bitOf (leField en.bytes 1 1) 0 = false) (hdst : bitOf (leField en.bytes 1 1) 1 = false)
    (hcopy : copyDev (!c.class2) (len / 64) s0 (leField en.bytes 8 8) (leField en.bytes 16 8) 0 = (none, w, s1)) :
    copyComplete s q i host = finishCopy s1 q c en none w := by
  unfold copyComplete
  rw [he, hl]
  dsimp only
  rw [if_neg (by rw [hsrc, hdst]; simp), if_neg (ne_true_of_eq_false hsrc), if_neg (ne_true_of_eq_false hdst), hlen, hcopy]

theorem pcieTimeout_fetch {n : Nat} {s0 : State} (h : canFetch s q = some (c, n, s0)) (hdev : c.ringDev = false) :
    pcieTimeout s q none = queueError (sendAer s0 .completionTimeout) q 4 c.ci := by
  unfold pcieTimeout
  rw [h]
  exact if_neg (ne_true_of_eq_false hdev)

theorem pcieTimeout_copy {i : Nat} {en : QEnt} {s0 : State} (he : copyEntry s q i = some en) (hl : loadCtx s q = (.ok c, s0))
    (hsrc : bitOf (leField en.bytes 1 1) 0 = true) :
    pcieTimeout s q (some i) = finishCopy (sendAer s0 .completionTimeout) q c en (some .poisoned) 0 := by
  unfold pcieTimeout
  dsimp only
  rw [he, hl]
  exact if_neg (by rw [hsrc]; decide)

/-- Settles O27: what a fetch returns stands behind the queue's entries, and each kind of copy or timeout takes its own branch. -/
theorem entriesAndCopiesComplete : Obligations.EntriesAndCopiesComplete := by
  unfold Obligations.EntriesAndCopiesComplete
  refine ⟨?_, ?_, ?_, ?_⟩
  · intro s s0 s1 q c n b host hf hring
    obtain ⟨hload, hn⟩ := canFetch_spec hf
    obtain ⟨k, hk⟩ := loadCtx_cache hload
    have hents : queueEnts s0 q.val = queueEnts s q.val := by unfold queueEnts; rw [hk]
    obtain ⟨hdev, rfl, hlen, rfl⟩ | ⟨hdev, hread⟩ := hring
    · obtain ⟨he, hc, hs⟩ := fetchedState_spec (s := s1) (q := q.val) (c := c) (b := b) hn
      exact ⟨_, completes_of rfl (entryFetchReturn_host hf hdev hlen), he.trans (by rw [hents]), hc, hs.trans (loadCtx_seqs hload)⟩
    · have hm : MemOnly s0 s1 := by
        have := devRead_memOnly (v := s0) (a1 := hubVia) (bulk := false) (a := c.ringBase + 64 * (c.ci % 2 ^ c.ringLog2))
          (n := 64 * n) (.refl s0)
        rwa [hread] at this
      obtain ⟨he, hc, hs⟩ := fetchedState_spec (s := s1) (q := q.val) (c := c) (b := b) hn
      exact ⟨_, completes_of rfl (entryFetchReturn_device hf hdev hread), he.trans (by rw [queueEnts_of_memOnly hm, hents]), hc,
        (hs.trans hm.seqs).trans (loadCtx_seqs hload)⟩
  · intro s s0 s1 q i e c host b len w he hl hlen
    refine ⟨fun hsrc hd3 hhost hb hcopy => ?_, fun hsrc hdst hd3 hread => ?_, fun hsrc hdst hcopy => ?_⟩
    · subst hhost
      exact completes_of rfl (copyComplete_fromHost he hl hlen hsrc hd3 hb hcopy)
    · exact completes_of rfl (copyComplete_toHost he hl hlen hsrc hdst hd3 hread)
    · exact completes_of rfl (copyComplete_device he hl hlen hsrc hdst hcopy)
  · intro s s0 q c n hf hdev
    exact completes_of rfl (pcieTimeout_fetch hf hdev)
  · intro s s0 q i e c he hl hsrc
    exact completes_of rfl (pcieTimeout_copy he hl hsrc)

end Sys2Proof.Machine
end

