-- ==== Sys2Proof/Proofs/Delivery.lean ====
section
/-!
PROOF. What raising and delivering interrupts changes (R410–R412, R415–R417): control words of targets, the rings' marks, what is pending,
and messages that go out.
-/

namespace Sys2Proof.Machine

/-- A state without what the delivery of interrupts changes. -/
def State.undelivered (s : State) : State :=
  { s with dict := [], heldHost := [], out := []
           ev := { s.ev with ringPend := [], ringMod := [], ringRaised := [], pba := [], tstack := [], intIrq := [] } }

/-- `t` is `u` but for interrupts raised and delivered: every entry below the targets' control words reads as before, and what has
been sent stays sent. -/
structure Delivers (u t : State) : Prop where
  rest : t.undelivered = u.undelivered
  dictOk : u.dictOk → t.dictOk
  entry : u.dictOk → ∀ k, k < Key.tctl → dget t k = dget u k
  out : ∀ m ∈ u.out, m ∈ t.out

namespace Delivers

variable {u t w : State}

theorem refl (s : State) : Delivers s s := ⟨rfl, id, fun _ _ _ => rfl, fun _ => id⟩

theorem trans (h : Delivers u t) (h' : Delivers t w) : Delivers u w :=
  ⟨h'.rest.trans h.rest, fun hu => h'.dictOk (h.dictOk hu),
    fun hu k hk => (h'.entry (h.dictOk hu) k hk).trans (h.entry hu k hk), fun m hm => h'.out m (h.out m hm)⟩

/-- A change of marks and pending interrupts alone. -/
theorem marks (hr : t.undelivered = u.undelivered) (hd : t.dict = u.dict) (ho : t.out = u.out) : Delivers u t :=
  ⟨hr, fun h => by unfold State.dictOk; rw [hd]; exact h, fun _ k _ => by unfold dget; rw [hd], fun m hm => by rw [ho]; exact hm⟩

theorem q (h : Delivers u t) : t.q = u.q :=
  (congrArg State.q h.rest : t.undelivered.q = u.undelivered.q)
theorem mem (h : Delivers u t) : t.mem = u.mem :=
  (congrArg State.mem h.rest : t.undelivered.mem = u.undelivered.mem)
theorem d3 (h : Delivers u t) : t.d3 = u.d3 :=
  (congrArg State.d3 h.rest : t.undelivered.d3 = u.undelivered.d3)
theorem msixEnable (h : Delivers u t) : t.ev.msixEnable = u.ev.msixEnable :=
  (congrArg (fun s : State => s.ev.msixEnable) h.rest : t.undelivered.ev.msixEnable = u.undelivered.ev.msixEnable)
theorem msixFuncMask (h : Delivers u t) : t.ev.msixFuncMask = u.ev.msixFuncMask :=
  (congrArg (fun s : State => s.ev.msixFuncMask) h.rest : t.undelivered.ev.msixFuncMask = u.undelivered.ev.msixFuncMask)
theorem seq (h : Delivers u t) : t.ev.seq = u.ev.seq :=
  (congrArg (fun s : State => s.ev.seq) h.rest : t.undelivered.ev.seq = u.undelivered.ev.seq)
theorem evq (h : Delivers u t) : t.ev.evq = u.ev.evq :=
  (congrArg (fun s : State => s.ev.evq) h.rest : t.undelivered.ev.evq = u.undelivered.ev.evq)
theorem ringDropped (h : Delivers u t) : t.ev.ringDropped = u.ev.ringDropped :=
  (congrArg (fun s : State => s.ev.ringDropped) h.rest : t.undelivered.ev.ringDropped = u.undelivered.ev.ringDropped)

theorem foldl {α : Type} {f : State → α → State} (hf : ∀ st x, Delivers st (f st x)) (l : List α) (s : State) :
    Delivers s (l.foldl f s) := by
  induction l generalizing s with
  | nil => exact refl s
  | cons x r ih => exact (hf s x).trans (ih _)

end Delivers

variable {s : State}

theorem tctl_le_tctlKey (t : Nat) : Key.tctl ≤ tctlKey t := by
  unfold Key.tctl tctlKey
  omega

theorem putTctl_delivers (s : State) (t : Nat) (idle : Bool) (runpri thresh : Nat) (stack : List Nat) :
    Delivers s (putTctl s t idle runpri thresh stack) :=
  ⟨rfl, fun h => dset_dictOk h,
    fun h _ hk => dget_dset_ne h (Nat.ne_of_lt (Nat.lt_of_lt_of_le hk (tctl_le_tctlKey t))), fun _ => id⟩

theorem toHost_delivers (s : State) (m : OutMsg) : Delivers s (toHost s m) := by
  unfold toHost
  split
  · exact .marks rfl rfl rfl
  · exact ⟨rfl, id, fun _ _ _ => rfl, fun _ hm => List.mem_append_left _ hm⟩

theorem sendOut_delivers (s : State) (m : OutMsg) : Delivers s (sendOut s m) :=
  ⟨rfl, id, fun _ _ _ => rfl, fun _ hm => List.mem_append_left _ hm⟩

theorem deliverAt_delivers (s : State) (r p t : Nat) : Delivers s (deliverAt s r p t) := by
  have h := putTctl_delivers s t false p (tThresh s t) (tRunpri s t :: tStack s t)
  unfold deliverAt
  dsimp only
  split
  · refine h.trans (.trans ?_ (sendOut_delivers _ _))
    exact .marks rfl rfl rfl
  · split
    · exact h.trans (toHost_delivers _ _)
    · exact h.trans (.marks rfl rfl rfl)

theorem deliverRing_delivers (s : State) (r : Nat) : Delivers s (deliverRing s r) := by
  unfold deliverRing
  dsimp only
  split
  · refine .trans ?_ (deliverAt_delivers _ _ _ _)
    exact .marks rfl rfl rfl
  · exact .marks rfl rfl rfl

theorem raiseRing_delivers (s : State) (r : Nat) : Delivers s (raiseRing s r) := by
  unfold raiseRing
  split
  · exact .refl s
  · refine .trans ?_ (deliverRing_delivers _ _)
    exact .marks rfl rfl rfl

theorem retryRings_delivers (s : State) (which : Nat → Bool) : Delivers s (retryRings s which) := by
  unfold retryRings
  split
  · exact .refl s
  · exact .foldl deliverRing_delivers _ _

theorem checkModerated_delivers (s : State) (which : Nat → Bool) : Delivers s (checkModerated s which) := by
  refine .foldl (fun st r => ?_) _ _
  split
  · exact raiseRing_delivers st r
  · exact .refl st

end Sys2Proof.Machine
end

