-- ==== Sys2Proof/Proofs/HostFunction.lean ====
section
/-!
PROOF. The PCIe function: BAR0, BAR2, power-management states, link training and MSI-X (R242–R249, R264, R410–R412).
-/

namespace Sys2Proof.Machine

variable {s : State}

theorem writeWinBase_aligned {v : Nat} (hup : hostUp s = true) (ha : v % 2 ^ 48 % 2 ^ s.q.bar2Log2 = 0) :
    writeWinBase s v true = { s with q := { s.q with winBase := v % 2 ^ 48 } } := by
  unfold writeWinBase
  rw [if_neg (by rw [hup]; decide)]
  exact if_neg (by rintro (h | h); exact absurd h (by decide); exact h ha)

theorem writeWinBase_wrong {v : Nat} {whole : Bool} (hup : hostUp s = true)
    (h : whole = false ∨ v % 2 ^ 48 % 2 ^ s.q.bar2Log2 ≠ 0) : writeWinBase s v whole = bar0Drop s := by
  unfold writeWinBase
  rw [if_neg (by rw [hup]; decide)]
  exact if_pos (h.imp_left fun hw => by rw [hw]; rfl)

theorem bar0Discarded_up {unlisted : Bool} (hup : hostUp s = true) :
    bar0Discarded s unlisted = if unlisted then sendAer (bar0Drop s) .unsupportedRequest else bar0Drop s := by
  unfold bar0Discarded
  rw [if_neg (by rw [hup]; decide)]

theorem bar2Resize_offered {n : Nat} (hup : hostUp s = true) (hlo : 28 ≤ n) (hhi : n ≤ 41) :
    bar2Resize s n = { s with q := { s.q with bar2Log2 := n, winBase := 0 } } := by
  unfold bar2Resize
  exact if_neg (by rintro (h | h | h); (rw [hup] at h; exact absurd h (by decide)); omega; omega)

/-- A BAR2 read that need not wait is completed with its bytes. -/
theorem bar2Read_served {off len : Nat} {b : List Byte} {s1 : State} (hup : hostUp s = true)
    (hwin : off + len ≤ 2 ^ s.q.bar2Log2) (hmem : s.q.memReady = true)
    (hbehind : bar2Behind s { who := .bar2, epoch := s.rst.epochs, bulk := true, addr := s.q.winBase + off, len := len
                              expl := dget s Key.cacheExplicit == 1 } = false)
    (hblocked : readBlocked s hubVia true (s.q.winBase + off) len = false)
    (hread : devRead s hubVia true (s.q.winBase + off) len = (.ok b, s1)) :
    bar2Read s off len = toHost s1 (.completion 0 b) := by
  unfold bar2Read
  rw [if_neg (by rintro (h | h); (rw [hup] at h; exact absurd h (by decide)); omega)]
  dsimp only
  rw [if_neg (by rw [hmem]; decide), hbehind, hblocked, if_neg (by decide), hread]
  rfl

/-- A BAR2 write that need not wait reaches memory, in silence or with the event of its error. -/
theorem bar2Write_served {off : Nat} {b : List Byte} {e : Option MemErr} {s1 : State} (hup : hostUp s = true)
    (hwin : off + b.length ≤ 2 ^ s.q.bar2Log2) (hmem : s.q.memReady = true)
    (hbehind : bar2Behind s { who := .bar2, epoch := s.rst.epochs, bulk := true, addr := s.q.winBase + off, len := b.length
                              wdata := some b, expl := dget s Key.cacheExplicit == 1 } = false)
    (hwrite : devWrite s hubVia true (s.q.winBase + off) b = (e, s1)) (he : e ≠ some .waits) :
    bar2Write s off b = bar2End s1 true (s.q.winBase + off) b.length { err := e } := by
  unfold bar2Write
  rw [if_neg (by rintro (h | h); (rw [hup] at h; exact absurd h (by decide)); omega)]
  dsimp only
  rw [if_neg (by rw [hmem]; decide), hbehind, if_neg (by decide), hwrite]
  split
  · next h => cases h; exact absurd rfl he
  · next h => cases h; rfl

theorem linkTraining_trains {rate width : Nat} (hlo : 3 ≤ rate) (hhi : rate ≤ dget s Key.pcieMaxRate)
    (hw : width ∈ [1, 2, 4, 8, 16]) (hoff : s.rst.off = false) (hm : s.pw.module ≠ .banked) :
    linkTraining s rate width = { s with q := { s.q with
      linkRate := rate, linkWidth := width, linkDegraded := !(rate == 5 && width == 16), linkLost := false } } := by
  have hc : [1, 2, 4, 8, 16].contains width = true := List.contains_iff_mem.2 hw
  unfold linkTraining
  refine if_neg ?_
  rintro (h | h | h | h | h)
  · omega
  · omega
  · rw [hc] at h
    exact absurd h (by decide)
  · rw [hoff] at h
    exact absurd h (by decide)
  · exact hm h

theorem unmaskVector_delivers (s : State) (v : Nat) :
    Delivers { s with ev := { s.ev with vecOpen := sinsert v s.ev.vecOpen } } (unmaskVector s v) := by
  unfold unmaskVector
  dsimp only
  split
  · refine .trans ?_ (toHost_delivers _ _)
    exact .marks rfl rfl rfl
  · exact .refl _

/-- Unmasking vectors leaves the queue engine, memory and the capability's control word. -/
theorem foldl_unmaskVector_keeps {β : Type} (p : State → β) (hv : ∀ st : State, ∀ l, p { st with ev := { st.ev with vecOpen := l } } = p st)
    (hd : ∀ u t, Delivers u t → p t = p u) (l : List Nat) (s : State) : p (l.foldl unmaskVector s) = p s :=
  foldl_keeps p (fun st v => (hd _ _ (unmaskVector_delivers st v)).trans (hv st _)) l s

theorem msixControl_keeps {β : Type} {enable mask : Bool} (p : State → β)
    (hv : ∀ st : State, ∀ l, p { st with ev := { st.ev with vecOpen := l } } = p st) (hd : ∀ u t, Delivers u t → p t = p u)
    (hup : hostUp s = true) :
    p (msixControl s enable mask) = p { s with ev := { s.ev with msixEnable := enable, msixFuncMask := mask } } := by
  unfold msixControl
  rw [if_neg (by rw [hup]; decide)]
  dsimp only
  have hfold := foldl_unmaskVector_keeps p hv hd
  split
  · exact (hd _ _ ((retryRings_delivers _ _).trans (checkModerated_delivers _ _))).trans (hfold _ _)
  · exact hfold _ _

/-- The table entry of a vector has its address and data, and its mask bit is 0 (R245, R412). -/
def vectorOpened (s : State) (v a d : Nat) : State :=
  { s with ev := { s.ev with vecOpen := sinsert v s.ev.vecOpen, vecMsg := tset (0, 0) s.ev.vecMsg v (a, d) } }

/-- The same, with the vector pending no more. -/
def vectorCleared (s : State) (v a d : Nat) : State :=
  { vectorOpened s v a d with ev := { (vectorOpened s v a d).ev with pba := sremove v s.ev.pba } }

theorem toHost_awake {m : OutMsg} (h : s.d3 = false) : toHost s m = { s with out := s.out ++ [m] } :=
  if_neg (ne_true_of_eq_false h)

theorem vectorUnmask_sends {v a d : Nat} (hup : hostUp s = true) (hd3 : s.d3 = false) (hmask : s.ev.msixFuncMask = false)
    (hpba : s.ev.pba.contains v = true) (hne : (a, d) ≠ (0, 0)) :
    (vectorUnmask s v a d).out = s.out ++ [.msix v a d] ∧ (vectorUnmask s v a d).ev.pba = sremove v s.ev.pba := by
  have hopen : vectorUnmask s v a d =
      toHost (vectorCleared s v a d) (msixOf (vectorOpened s v a d) v) := by
    unfold vectorUnmask
    rw [if_neg (by rw [hup]; decide)]
    unfold unmaskVector
    exact if_pos (by rw [hpba, hmask]; rfl)
  have hmsg : msixOf (vectorOpened s v a d) v = .msix v a d := by
    have hget : tget (0, 0) (vectorOpened s v a d).ev.vecMsg v = (a, d) := (tget_tset_new hne).trans (if_pos rfl)
    unfold msixOf
    rw [hget]
  rw [hopen, hmsg, toHost_awake (s := vectorCleared s v a d) hd3]
  exact ⟨rfl, rfl⟩

theorem vectorUnmask_quiet {v a d : Nat} (hup : hostUp s = true) (h : s.ev.msixFuncMask = true ∨ s.ev.pba.contains v = false) :
    vectorUnmask s v a d = vectorOpened s v a d := by
  unfold vectorUnmask
  rw [if_neg (by rw [hup]; decide)]
  unfold unmaskVector
  refine if_neg ?_
  change ¬(s.ev.pba.contains v && !s.ev.msixFuncMask) = true
  obtain h | h := h
  · rw [h, Bool.not_true, Bool.and_false]
    exact Bool.false_ne_true
  · rw [h]
    exact Bool.false_ne_true

/-- Settles O28: each command of the function takes the branch of a host that is up, with nothing to wait for. -/
theorem functionCommandsComplete : Obligations.FunctionCommandsComplete := by
  unfold Obligations.FunctionCommandsComplete
  refine ⟨?_, ?_, ?_, ?_, ?_, ?_, ?_, ?_, ?_, ?_, ?_, ?_, ?_⟩
  · intro s v hup ha
    exact completes_of rfl (writeWinBase_aligned hup ha)
  · intro s v whole hup h
    exact completes_of rfl (writeWinBase_wrong hup h)
  · intro s hup
    exact ⟨completes_of rfl (bar0Discarded_up hup), completes_of rfl (bar0Discarded_up hup)⟩
  · intro s n hup hlo hhi
    exact completes_of rfl (bar2Resize_offered hup hlo hhi)
  · intro s s1 off len b hup hwin hmem hbehind hblocked hread
    exact completes_of rfl (bar2Read_served hup hwin hmem hbehind hblocked hread)
  · intro s s1 off b hup hwin hmem hbehind
    exact ⟨fun hw => completes_of rfl (bar2Write_served hup hwin hmem hbehind hw (by decide)),
      fun hw => completes_of rfl (bar2Write_served hup hwin hmem hbehind hw (by decide))⟩
  · intro s hup
    exact completes_of rfl (if_neg (by rw [hup]; decide))
  · intro s m hd3
    exact if_pos hd3
  · intro s hd3
    exact completes_of rfl (if_neg (by rw [hd3]; decide))
  · intro s rate width hlo hhi hw hoff hm
    exact completes_of rfl (linkTraining_trains hlo hhi hw hoff hm)
  · intro s enable mask hup
    exact ⟨_, rfl, msixControl_keeps (fun t => t.ev.msixEnable) (fun _ _ => rfl) (fun _ _ h => h.msixEnable) hup,
      msixControl_keeps (fun t => t.ev.msixFuncMask) (fun _ _ => rfl) (fun _ _ h => h.msixFuncMask) hup,
      msixControl_keeps State.q (fun _ _ => rfl) (fun _ _ h => h.q) hup,
      msixControl_keeps State.mem (fun _ _ => rfl) (fun _ _ h => h.mem) hup⟩
  · intro s v a d hup hd3 hmask hpba hne
    exact ⟨_, rfl, vectorUnmask_sends hup hd3 hmask hpba hne⟩
  · intro s v a d hup h
    exact completes_of rfl (vectorUnmask_quiet hup h)

end Sys2Proof.Machine
end

