-- ==== Sys2Proof/Proofs/Events.lean ====
section
/-!
PROOF. Event records, rings, targets, and the cluster and die controllers (R407–R422).
-/

namespace Sys2Proof.Machine

variable {s : State}

/-! ### Bits of a word -/

/-- Adding a power of two whose bit is clear changes that bit alone. -/
theorem bitOf_add_pow {m i : Nat} (h : bitOf m i = false) (j : Nat) :
    bitOf (m + 2 ^ i) j = if j = i then true else bitOf m j := by
  have hclear : m / 2 ^ i % 2 = 0 := by simpa [bitOf] using h
  unfold bitOf
  obtain hji | rfl | hij := Nat.lt_trichotomy j i
  · rw [if_neg (Nat.ne_of_lt hji)]
    obtain ⟨k, rfl⟩ : ∃ k, i = j + (k + 1) := ⟨i - j - 1, by omega⟩
    have : (m + 2 ^ (j + (k + 1))) / 2 ^ j = m / 2 ^ j + 2 * 2 ^ k := by
      rw [Nat.pow_add, Nat.add_mul_div_left _ _ (Nat.two_pow_pos j), Nat.pow_succ, Nat.mul_comm]
    rw [this, Nat.add_mul_mod_self_left]
  · rw [if_pos rfl, Nat.add_div_right _ (Nat.two_pow_pos j), beq_iff_eq]
    omega
  · rw [if_neg (Nat.ne_of_gt hij)]
    obtain ⟨k, rfl⟩ : ∃ k, j = (i + 1) + k := ⟨j - i - 1, by omega⟩
    have hdiv : (m + 2 ^ i) / 2 ^ (i + 1) = m / 2 ^ (i + 1) := by
      rw [Nat.pow_succ, ← Nat.div_div_eq_div_mul, ← Nat.div_div_eq_div_mul, Nat.add_div_right _ (Nat.two_pow_pos i)]
      omega
    rw [Nat.pow_add, ← Nat.div_div_eq_div_mul, ← Nat.div_div_eq_div_mul, hdiv]

theorem bitOf_pow_le {m i : Nat} (h : bitOf m i = true) : 2 ^ i ≤ m := by
  refine Nat.not_lt.1 fun hlt => ?_
  simp [bitOf, Nat.div_eq_of_lt hlt] at h

theorem bitOf_sub_pow_self {m i : Nat} (h : bitOf m i = true) : bitOf (m - 2 ^ i) i = false := by
  have hle := bitOf_pow_le h
  have hset : m / 2 ^ i % 2 = 1 := by simpa [bitOf] using h
  have hd : m / 2 ^ i = (m - 2 ^ i) / 2 ^ i + 1 := by
    rw [← Nat.add_div_right _ (Nat.two_pow_pos i), Nat.sub_add_cancel hle]
  have : (m - 2 ^ i) / 2 ^ i % 2 ≠ 1 := by omega
  simpa [bitOf] using this

theorem bitOf_setBit (m i j : Nat) (b : Bool) : bitOf (setBit m i b) j = if j = i then b else bitOf m j := by
  unfold setBit
  by_cases hb : bitOf m i = b
  · rw [if_pos hb]
    split
    · next hj => rw [hj, hb]
    · rfl
  · rw [if_neg hb]
    cases b with
    | true => exact bitOf_add_pow (by simpa using hb) j
    | false =>
      have hset : bitOf m i = true := by simpa using hb
      have hback := bitOf_add_pow (bitOf_sub_pow_self hset) j
      rw [Nat.sub_add_cancel (bitOf_pow_le hset)] at hback
      rw [if_neg Bool.false_ne_true]
      split
      · next hj => rw [hj]; exact bitOf_sub_pow_self hset
      · next hj => rw [hback, if_neg hj]

/-! ### Accepting a record -/

/-- The record at a position has left those in flight and taken the next sequence value (R414). -/
def sequenced (s : State) (pos : Nat) : State :=
  { s with ev := { s.ev with evq := dropAt pos s.ev.evq, seq := (s.ev.seq + 1) % 2 ^ 64 } }

theorem acceptAt_of_route {pos : Nat} {e : EvRec} {s1 : State} (hrun : hubRuns s = true)
    (he : nextOfOrigin s.ev.evq pos = some e) (hr : routeRecord (sequenced s pos) e s.ev.seq false = some s1) :
    acceptAt s pos false = snapEvent (if e.source = 0x0101 ∧ e.code = 0 then stormRecorded s1 else s1) e.source := by
  have hacc : acceptRecord { s with ev := { s.ev with evq := dropAt pos s.ev.evq } } e false = some s1 := hr
  unfold acceptAt
  rw [if_neg (by rw [hrun]; decide), he]
  dsimp only
  rw [hacc]

theorem routeRecord_unrouted {e : EvRec} {n : Nat}
    (h : bitOf (dget s (srcCfgKey e.source)) 15 = false ∨ dget s (Key.ringEnable + bits (dget s (srcCfgKey e.source)) 21 16) = 0) :
    routeRecord s e n false = some (dcount s Key.evtUnrouted) := by
  unfold routeRecord
  exact if_pos (by obtain h | h := h <;> simp [h])

/-- The record is routed to an enabled ring. -/
theorem routeRecord_routed {e : EvRec} {n : Nat} (hv : bitOf (dget s (srcCfgKey e.source)) 15 = true)
    (hen : dget s (Key.ringEnable + bits (dget s (srcCfgKey e.source)) 21 16) ≠ 0) :
    routeRecord s e n false =
      if ringCount s (bits (dget s (srcCfgKey e.source)) 21 16) =
          2 ^ bits (dget s (Key.ringCfg + bits (dget s (srcCfgKey e.source)) 21 16)) 4 0 then
        some (dcount { s with ev := { s.ev with
          ringDropped := sinsert (bits (dget s (srcCfgKey e.source)) 21 16) s.ev.ringDropped } }
          (Key.ringOvf + bits (dget s (srcCfgKey e.source)) 21 16))
      else ringStore s (bits (dget s (srcCfgKey e.source)) 21 16) (bits (dget s (srcCfgKey e.source)) 3 0) e n false := by
  unfold routeRecord
  exact if_neg (by simp [hv, hen])

/-- A ring's producer index after a record, and what raising its interrupt leaves. -/
theorem ringWritten_delivers (s : State) (r prio : Nat) :
    ∃ x mod, Delivers { dset (dset s (Key.ringPi + r) ((dget s (Key.ringPi + r) + 1) % 2 ^ 32)) (Key.ringPpri + r) x with
      ev := { s.ev with ringDropped := sremove r s.ev.ringDropped, ringMod := mod } } (ringWritten s r prio) := by
  unfold ringWritten
  dsimp only
  generalize (if (dget s (Key.ringPi + r) == dget s (Key.ringCi + r)) = true then prio
    else max (dget s (Key.ringPpri + r)) prio) = x
  refine ⟨x, ?_⟩
  split
  · refine ⟨sinsert r s.ev.ringMod, ?_⟩
    split
    · exact raiseRing_delivers _ _
    · exact .refl _
  · refine ⟨s.ev.ringMod, ?_⟩
    split
    · split
      · exact raiseRing_delivers _ _
      · exact .refl _
    · split
      · exact retryRings_delivers _ _
      · exact .refl _

theorem ringPi_ne_ringPpri {r : Nat} : Key.ringPi + r ≠ Key.ringPpri + r := by
  unfold Key.ringPi Key.ringPpri
  omega

theorem ringPi_lt_tctl {r : Nat} (h : r < 64) : Key.ringPi + r < Key.tctl := by
  unfold Key.ringPi Key.tctl
  omega

/-- A record written moves the producer index on, and takes no other record. -/
theorem ringWritten_spec {r prio : Nat} (hok : s.dictOk) (hr : r < 64) :
    (ringWritten s r prio).ev.seq = s.ev.seq ∧ (ringWritten s r prio).ev.evq = s.ev.evq ∧ (ringWritten s r prio).mem = s.mem ∧
      dget (ringWritten s r prio) (Key.ringPi + r) = (dget s (Key.ringPi + r) + 1) % 2 ^ 32 ∧
      ∀ m ∈ s.out, m ∈ (ringWritten s r prio).out := by
  obtain ⟨x, mod, h⟩ := ringWritten_delivers s r prio
  have hok1 : (dset s (Key.ringPi + r) ((dget s (Key.ringPi + r) + 1) % 2 ^ 32)).dictOk := dset_dictOk hok
  refine ⟨h.seq, h.evq, h.mem, (h.entry (dset_dictOk hok1) _ (ringPi_lt_tctl hr)).trans ?_, h.out⟩
  exact (dget_dset_ne hok1 ringPi_ne_ringPpri).trans (dget_dset_same hok)

theorem bits_lt (w hi lo : Nat) : bits w hi lo < 2 ^ (hi + 1 - lo) := Nat.mod_lt _ (Nat.two_pow_pos _)

theorem mem_toHost {m : OutMsg} (h : s.d3 = false) : m ∈ (toHost s m).out := by
  rw [toHost_awake h]
  exact List.mem_append_right _ (List.mem_singleton_self m)

theorem ringStore_host {r prio n : Nat} {e : EvRec} (h : bitOf (dget s (Key.ringCfg + r)) 20 = true) :
    ringStore s r prio e n false = some (ringWritten (toHost s (.hostWrite
      (dget s (Key.ringBase + r) + 32 * (dget s (Key.ringPi + r) % 2 ^ bits (dget s (Key.ringCfg + r)) 4 0))
      (recordBytes e n prio (dget s (Key.ringPi + r) / 2 ^ bits (dget s (Key.ringCfg + r)) 4 0 % 2 == 0)
        (s.ev.ringDropped.contains r)))) r prio) := by
  unfold ringStore
  dsimp only
  rw [if_pos h, if_neg Bool.false_ne_true]

theorem ringStore_device {r prio n : Nat} {e : EvRec} {sb : State} (h : bitOf (dget s (Key.ringCfg + r)) 20 = false)
    (hw : devWrite s hubVia false
      (dget s (Key.ringBase + r) + 32 * (dget s (Key.ringPi + r) % 2 ^ bits (dget s (Key.ringCfg + r)) 4 0))
      (recordBytes e n prio (dget s (Key.ringPi + r) / 2 ^ bits (dget s (Key.ringCfg + r)) 4 0 % 2 == 0)
        (s.ev.ringDropped.contains r)) = (none, sb)) :
    ringStore s r prio e n false = some (ringWritten sb r prio) := by
  unfold ringStore
  dsimp only
  rw [if_neg (ne_true_of_eq_false h), hw]

/-- What the checked operations keep, they keep of the dictionary's canonical form. -/
theorem dictOk_of_kept {t : State} (h : Kept s.view t) (hok : s.dictOk) : t.dictOk := h.2.1 hok

theorem memOnly_of_devWrite {w : Via} {bulk : Bool} {a : Nat} {b : List Byte} {e : Option MemErr} {t : State}
    (h : devWrite s w bulk a b = (e, t)) : MemOnly s t := by
  have hm := devWrite_memOnly (v := s) (a1 := w) (bulk := bulk) (a := a) (b := b) (.refl s)
  rwa [h] at hm

theorem dictOk_of_devWrite {w : Via} {bulk : Bool} {a : Nat} {b : List Byte} {e : Option MemErr} {t : State}
    (h : devWrite s w bulk a b = (e, t)) (hok : s.dictOk) : t.dictOk := by
  have hk := devWrite_kept (a1 := w) (bulk := bulk) (a := a) (b := b) (Kept.view s)
  rw [h] at hk
  exact dictOk_of_kept hk hok

/-- Settles O38: the record's route is the branch of `routeRecord` that its configuration and ring give. -/
theorem recordsAreAccepted : Obligations.RecordsAreAccepted := by
  unfold Obligations.RecordsAreAccepted
  intro s sa pos e cfg r size idx hok hrun he hcfg hr hsize hidx hsa
  have hsa' : sa = sequenced s pos := hsa
  subst hcfg hr hsize hidx hsa'
  clear hsa
  have hlt : bits (dget s (srcCfgKey e.source)) 21 16 < 64 := bits_lt _ _ _
  have hoka : (sequenced s pos).dictOk := hok
  refine ⟨fun h => completes_of rfl (acceptAt_of_route hrun he (routeRecord_unrouted h)), fun hv hen => ?_⟩
  have hroute := routeRecord_routed (s := sequenced s pos) (e := e) (n := s.ev.seq) hv hen
  refine ⟨fun hfull => ?_, fun hroom hhost hd3 => ?_, fun sb hroom hdev hw => ?_⟩
  · exact ⟨_, completes_of rfl (acceptAt_of_route hrun he (hroute.trans (if_pos hfull))), rfl, rfl, mem_sinsert, rfl, rfl,
      dget_dset_same hoka⟩
  · obtain ⟨hseq, hevq, hmem, hpi, hout⟩ := ringWritten_spec
      (s := toHost (sequenced s pos) (.hostWrite _ _)) (r := bits (dget s (srcCfgKey e.source)) 21 16)
      (prio := bits (dget s (srcCfgKey e.source)) 3 0) ((toHost_delivers (sequenced s pos) _).dictOk hoka) hlt
    refine ⟨_, completes_of rfl (acceptAt_of_route hrun he ((hroute.trans (if_neg hroom)).trans (ringStore_host hhost))),
      hseq.trans (toHost_delivers _ _).seq, hevq.trans (toHost_delivers _ _).evq, hmem.trans (toHost_delivers _ _).mem,
      hpi.trans ?_, hout _ (mem_toHost hd3)⟩
    rw [(toHost_delivers _ _).entry hoka _ (ringPi_lt_tctl hlt)]
    rfl
  · have hm := memOnly_of_devWrite hw
    have hokb := dictOk_of_devWrite hw hoka
    obtain ⟨hseq, hevq, hmem, hpi, -⟩ := ringWritten_spec (r := bits (dget s (srcCfgKey e.source)) 21 16)
      (prio := bits (dget s (srcCfgKey e.source)) 3 0) hokb hlt
    exact ⟨_, completes_of rfl (acceptAt_of_route hrun he ((hroute.trans (if_neg hroom)).trans (ringStore_device hdev hw))),
      hseq.trans (by rw [hm.ev]), hevq.trans (by rw [hm.ev]), hmem, hpi⟩

end Sys2Proof.Machine
end

