-- ==== Sys2Proof/Proofs/LocalControllers.lean ====
section
/-!
PROOF. A group definition also ends moderation (R416), and the cluster and die event controllers (R419–R422).
-/

namespace Sys2Proof.Machine

variable {s : State}

/-! ### A group definition and the moderated rings -/

/-- A started module whose ring 0 awaits its moderation, which is over: its holdoff is of 0 counts. -/
def moderatedState : State :=
  dset { State.reset with q := { qeReady := true, memReady := true }, ev := { State.reset.ev with ringMod := [0] } } Key.startupStage 7

/-- The key of group 0, and the word written to it: one target. -/
abbrev groupKey : Nat := Key.groupDef + (0 : Fin 64).val

abbrev groupWord : Nat := (BitVec.ofNat 32 (2 ^ 12)).toNat

theorem mayWrite_moderatedState : mayWrite moderatedState groupKey groupWord := by
  unfold mayWrite
  decide +kernel

/-- The write raises the ring, which then awaits moderation no more. -/
theorem groupDefWrite_moderatedState :
    ∃ t, Completes (.groupDefWrite 0 (BitVec.ofNat 32 (2 ^ 12))) moderatedState t ∧ t.ev.ringMod = [] := by
  have hrun : runWrite moderatedState groupKey groupWord = some ((writeGroupDef moderatedState 0 groupWord).1, 0) := by decide +kernel
  have hmod : (writeGroupDef moderatedState 0 groupWord).1.ev.ringMod = [] := by decide +kernel
  exact ⟨_, completes_of rfl (ownWrite_of_run mayWrite_moderatedState (by decide +kernel) (by decide +kernel) hrun), hmod⟩

/-- Refutes O39: a written group definition also evaluates the moderated rings of its group (R416), which the last clause leaves out. With
ring 0 of group 0 moderated and its moderation over, the write raises it; without that evaluation it would go on waiting. -/
theorem not_ringAndTargetCommandsComplete : ¬ Obligations.RingAndTargetCommandsComplete := by
  unfold Obligations.RingAndTargetCommandsComplete
  rintro ⟨-, -, -, -, -, hgroup⟩
  obtain ⟨s1, rfl, hclaim⟩ := hgroup moderatedState 0 (BitVec.ofNat 32 (2 ^ 12)) mayWrite_moderatedState (by decide) (by decide)
    (by decide) (by decide)
  obtain ⟨t, ht, hmod⟩ := groupDefWrite_moderatedState
  have hsame : t = writtenGone (retryRings (dset moderatedState groupKey groupWord)
      fun r => ringGroup (dset moderatedState groupKey groupWord) r == 0) groupKey := Host.Outcome.next.inj (ht.symm.trans hclaim)
  have hwaits : (writtenGone (retryRings (dset moderatedState groupKey groupWord)
      fun r => ringGroup (dset moderatedState groupKey groupWord) r == 0) groupKey).ev.ringMod = [0] := by decide +kernel
  exact absurd (hmod.symm.trans (hsame ▸ hwaits)) (by decide)

/-! ### Occurrences -/

theorem ecLatch_setLatch {ctl b c : Nat} {e : EvRec} :
    ecLatch (setLatch s ctl b e) ctl c = if c = b then some e else ecLatch s ctl c := by
  have hkey : ctl * 64 + c = ctl * 64 + b ↔ c = b := by omega
  unfold ecLatch setLatch
  rw [tget_tset_new (Option.some_ne_none e)]
  simp only [hkey]

theorem localOccur_first {o : LocalOcc} (h : bitOf (dget s (pendKey o.ctl)) o.bit = false) :
    localOccur s o = setLatch (dset s (pendKey o.ctl) (setBit (dget s (pendKey o.ctl)) o.bit true)) o.ctl o.bit
      { o.ev with count := 1 } := by
  unfold localOccur
  exact if_neg (ne_true_of_eq_false h)

theorem localOccur_again {o : LocalOcc} {e : EvRec} (h : bitOf (dget s (pendKey o.ctl)) o.bit = true)
    (he : ecLatch s o.ctl o.bit = some e) :
    localOccur s o = setLatch s o.ctl o.bit { e with count := satAdd 0xFFFF e.count 1 } := by
  unfold localOccur
  dsimp only
  rw [if_pos h, he]

theorem localOccur_occq {o : LocalOcc} : (localOccur s o).ev.occq = s.ev.occq := by
  unfold localOccur
  dsimp only
  split
  · split <;> rfl
  · rfl

/-! ### Forwarding -/

/-- The bit is pending and not masked. -/
def forwards (s : State) (ctl b : Nat) : Bool := bitOf (dget s (pendKey ctl)) b && !bitOf (dget s (maskKey ctl)) b

/-- The record that a controller forwards for a bit. -/
def forwarded (s : State) (ctl b : Nat) : EvRec := (ecLatch s ctl b).getD (softRecord ctl b)

theorem maskKey_ne_pendKey {ctl : Nat} (_h : ctl < 36) : maskKey ctl ≠ pendKey ctl := by
  unfold maskKey pendKey Key.cecMask Key.decMask Key.cecPend Key.decPend
  split <;> omega

/-- What the first bits' forwarding leaves: their pending bits are clear unless masked, their records are on their way in order, and the
other bits and latches stand. -/
structure ForwardedTo (s t : State) (ctl n : Nat) : Prop where
  ok : t.dictOk
  mask : dget t (maskKey ctl) = dget s (maskKey ctl)
  pend : ∀ b, bitOf (dget t (pendKey ctl)) b =
    if b < n then bitOf (dget s (pendKey ctl)) b && bitOf (dget s (maskKey ctl)) b else bitOf (dget s (pendKey ctl)) b
  latch : ∀ b, n ≤ b → ecLatch t ctl b = ecLatch s ctl b
  evq : t.ev.evq = s.ev.evq ++ ((List.range n).filter (forwards s ctl)).map (forwarded s ctl)

theorem forwardedTo_start {ctl : Nat} (hok : s.dictOk) : ForwardedTo s s ctl 0 :=
  ⟨hok, rfl, fun _ => by rw [if_neg (Nat.not_lt_zero _)], fun _ _ => rfl, by simp⟩

theorem forwardBit_of_not {ctl b : Nat} (h : forwards s ctl b = false) : forwardBit ctl s b = s := by
  unfold forwardBit
  exact if_neg (ne_true_of_eq_false h)

theorem forwardBit_of_forwards {ctl b : Nat} (h : forwards s ctl b = true) :
    forwardBit ctl s b =
      { setLatch (dset s (pendKey ctl) (setBit (dget s (pendKey ctl)) b false)) ctl b
          { forwarded s ctl b with count := 0, soft := false } with
        ev := { (setLatch (dset s (pendKey ctl) (setBit (dget s (pendKey ctl)) b false)) ctl b
          { forwarded s ctl b with count := 0, soft := false }).ev with evq := s.ev.evq ++ [forwarded s ctl b] } } := by
  unfold forwardBit
  exact if_pos h

theorem ForwardedTo.step {t : State} {ctl n : Nat} (h : ForwardedTo s t ctl n) (hctl : ctl < 36) :
    ForwardedTo s (forwardBit ctl t n) ctl (n + 1) := by
  have hself : bitOf (dget t (pendKey ctl)) n = bitOf (dget s (pendKey ctl)) n := by rw [h.pend, if_neg (Nat.lt_irrefl n)]
  have hfor : forwards t ctl n = forwards s ctl n := by unfold forwards; rw [hself, h.mask]
  have hrec : forwarded t ctl n = forwarded s ctl n := by unfold forwarded; rw [h.latch n (Nat.le_refl n)]
  by_cases hf : forwards s ctl n = true
  · obtain ⟨-, hm⟩ : bitOf (dget s (pendKey ctl)) n = true ∧ bitOf (dget s (maskKey ctl)) n = false := by
      simpa [forwards] using hf
    rw [forwardBit_of_forwards (hfor.trans hf), hrec]
    have hpend : ∀ k, dget ({ setLatch (dset t (pendKey ctl) (setBit (dget t (pendKey ctl)) n false)) ctl n
        { forwarded s ctl n with count := 0, soft := false } with
        ev := { (setLatch (dset t (pendKey ctl) (setBit (dget t (pendKey ctl)) n false)) ctl n
          { forwarded s ctl n with count := 0, soft := false }).ev with evq := t.ev.evq ++ [forwarded s ctl n] } }) k =
        dget (dset t (pendKey ctl) (setBit (dget t (pendKey ctl)) n false)) k := fun _ => rfl
    refine ⟨dset_dictOk h.ok, ?_, fun b => ?_, fun b hb => ?_, ?_⟩
    · rw [hpend, dget_dset_ne h.ok (maskKey_ne_pendKey hctl), h.mask]
    · rw [hpend, dget_dset_same h.ok, bitOf_setBit, h.pend b]
      by_cases hbn : b = n
      · subst hbn
        rw [if_pos rfl, if_pos (Nat.lt_succ_self b), hm, Bool.and_false]
      · rw [if_neg hbn]
        exact ite_congr (propext (by omega)) (fun _ => rfl) (fun _ => rfl)
    · have hbn : b ≠ n := by omega
      exact (ecLatch_setLatch.trans (if_neg hbn)).trans (h.latch b (by omega))
    · rw [List.range_succ, List.filter_append, List.map_append, List.filter_cons, hf, ← List.append_assoc, ← h.evq]
      rfl
  · have hf' : forwards s ctl n = false := by simpa using hf
    rw [forwardBit_of_not (hfor.trans hf')]
    refine ⟨h.ok, h.mask, fun b => ?_, fun b hb => h.latch b (by omega), ?_⟩
    · rw [h.pend b]
      by_cases hbn : b = n
      · subst hbn
        rw [if_neg (Nat.lt_irrefl b), if_pos (Nat.lt_succ_self b)]
        have : bitOf (dget s (pendKey ctl)) b = true → bitOf (dget s (maskKey ctl)) b = true := by simpa [forwards] using hf'
        cases hp : bitOf (dget s (pendKey ctl)) b
        · rfl
        · rw [this hp]; rfl
      · exact ite_congr (propext (by omega)) (fun _ => rfl) (fun _ => rfl)
    · rw [h.evq, List.range_succ, List.filter_append, List.map_append, List.filter_cons, hf']
      exact (congrArg (s.ev.evq ++ ·) (List.append_nil _)).symm

theorem ForwardedTo.range {ctl : Nat} (h : s.dictOk) (hctl : ctl < 36) (n : Nat) :
    ForwardedTo s ((List.range n).foldl (forwardBit ctl) s) ctl n := by
  induction n with
  | zero => exact forwardedTo_start h
  | succ n ih =>
    rw [List.range_succ, List.foldl_append]
    exact ih.step hctl

/-! ### Written words -/

theorem keyBytes_maskKey : ∀ ctl : Fin 36, keyBytes (maskKey ctl.val) = 8 ∧ maskKey ctl.val ∉ namedKeys := by decide +kernel

theorem keyBytes_pendKey : ∀ ctl : Fin 36, keyBytes (pendKey ctl.val) = 8 ∧ pendKey ctl.val ∉ namedKeys := by decide +kernel

theorem keyBytes_ecLock : ∀ d : Fin 4, keyBytes (Key.ecLock + d.val) = 1 ∧ Key.ecLock + d.val ∉ namedKeys := by decide +kernel

theorem runIndex_of_lt {key first n : Nat} (h : key < first) : runIndex key first n = none := if_neg (by omega)

theorem runIndex_of_ge {key first n : Nat} (h : first + n ≤ key) : runIndex key first n = none := if_neg (by omega)

theorem runIndex_at {first n i : Nat} (h : i < n) : runIndex (first + i) first n = some i :=
  (if_pos (by omega)).trans (congrArg some (by omega))

/-- A word of the controllers is in no run of rings, groups and targets. -/
theorem runWrite_controllers {key v : Nat} (hlo : 0x660001 ≤ key) :
    runWrite s key v = match runIndex key Key.cecPend 32, runIndex key Key.decPend 4, runIndex key Key.ecLock 4 with
      | some c, _, _ => some (writePend s c v, 0)
      | none, some d, _ => some (writePend s (32 + d) v, 0)
      | none, none, some d => some (writeEcLock s d v)
      | none, none, none => none := by
  unfold runWrite
  rw [runIndex_of_ge (first := Key.ringCi) (by unfold Key.ringCi; omega),
    runIndex_of_ge (first := Key.groupDef) (by unfold Key.groupDef; omega)]
  dsimp only
  rw [if_neg (by omega)] <;> rfl

theorem runWrite_pend {ctl v : Nat} (h : ctl < 36) : runWrite s (pendKey ctl) v = some (writePend s ctl v, 0) := by
  unfold pendKey
  split
  · next hc =>
    rw [runWrite_controllers (by unfold Key.cecPend; omega), runIndex_at hc]
  · next hc =>
    rw [runWrite_controllers (by unfold Key.decPend; omega),
      runIndex_of_ge (first := Key.cecPend) (by unfold Key.decPend Key.cecPend; omega), runIndex_at (show ctl - 32 < 4 by omega)]
    dsimp only
    rw [Nat.add_sub_cancel' (by omega)]

theorem runWrite_ecLock {d v : Nat} (h : d < 4) : runWrite s (Key.ecLock + d) v = some (writeEcLock s d v) := by
  rw [runWrite_controllers (by unfold Key.ecLock; omega),
    runIndex_of_ge (first := Key.cecPend) (by unfold Key.ecLock Key.cecPend; omega),
    runIndex_of_ge (first := Key.decPend) (by unfold Key.ecLock Key.decPend; omega), runIndex_at h]

theorem runWrite_mask {ctl v : Nat} (h : ctl < 36) : runWrite s (maskKey ctl) v = none := by
  unfold maskKey
  split
  · rw [runWrite_controllers (by unfold Key.cecMask; omega),
      runIndex_of_lt (first := Key.cecPend) (by unfold Key.cecMask Key.cecPend; omega),
      runIndex_of_lt (first := Key.decPend) (by unfold Key.cecMask Key.decPend; omega),
      runIndex_of_lt (first := Key.ecLock) (by unfold Key.cecMask Key.ecLock; omega)]
  · rw [runWrite_controllers (by unfold Key.decMask; omega),
      runIndex_of_ge (first := Key.cecPend) (by unfold Key.decMask Key.cecPend; omega),
      runIndex_of_lt (first := Key.decPend) (by unfold Key.decMask Key.decPend; omega),
      runIndex_of_lt (first := Key.ecLock) (by unfold Key.decMask Key.ecLock; omega)]

/-- The entries to which a plain write does more than store its value. -/
def effectKey (key : Nat) : Bool :=
  isSrcCfg key || key == Key.snapBlock || (runIndex key Key.decMask 4).isSome || (runIndex key Key.ringCfg 64).isSome
    || (runIndex key Key.ringBase 64).isSome || (runIndex key Key.ringEnable 64).isSome || key == Key.feedAOvr || key == Key.feedBOvr
    || key == Key.lowVoltagePermit || (runIndex key Key.draughtFixed 4).isSome || key == Key.draughtMax
    || key == Key.cordPortEnable || (runIndex key Key.mapoutReq 20).isSome

theorem plainWrite_stores {key v : Nat} (h : effectKey key = false) : plainWrite s key v = (wset s key v, 0) := by
  simp only [effectKey, Bool.or_eq_false_iff, beq_eq_false_iff_ne, Option.isSome_eq_false_iff, Option.isNone_iff_eq_none] at h
  obtain ⟨⟨⟨⟨⟨⟨⟨⟨⟨⟨⟨⟨hsrc, hsnap⟩, hdec⟩, hcfg⟩, hbase⟩, hen⟩, hfa⟩, hfb⟩, hlow⟩, hfix⟩, hmax⟩, hport⟩, hmap⟩ := h
  have hring : ringWordOk s key v = true := by unfold ringWordOk; rw [hcfg, hbase]
  unfold plainWrite
  rw [if_neg (ne_true_of_eq_false hsrc), if_neg hsnap, if_neg (by rw [hdec]; decide), if_neg (by rw [hring]; decide)]
  dsimp only
  rw [hen]
  dsimp only
  rw [if_neg (by rintro (h | h); exact hfa h; exact hfb h), if_neg hlow,
    if_neg (by rintro (h | h); exact absurd h (by rw [hfix]; decide); exact hmax h), if_neg hport, hmap]

theorem plainWrite_mask {ctl v : Nat} (h : ctl < 36) :
    plainWrite s (maskKey ctl) v = (wset s (maskKey ctl) (ctlWord ctl v), 0) := by
  unfold ctlWord
  split
  · next hc =>
    refine plainWrite_stores ?_
    have : ∀ c : Fin 32, effectKey (maskKey c.val) = false := by decide +kernel
    exact this ⟨ctl, hc⟩
  · next hc =>
    have hidx : (runIndex (maskKey ctl) Key.decMask 4).isSome = true := by
      unfold maskKey
      rw [if_neg hc, runIndex_at (show ctl - 32 < 4 by omega)]
      rfl
    have hsrc : isSrcCfg (maskKey ctl) = false ∧ maskKey ctl ≠ Key.snapBlock := by
      have : ∀ c : Fin 36, isSrcCfg (maskKey c.val) = false ∧ maskKey c.val ≠ Key.snapBlock := by decide +kernel
      exact this ⟨ctl, h⟩
    unfold plainWrite
    rw [if_neg (ne_true_of_eq_false hsrc.1), if_neg hsrc.2, if_pos hidx]

/-- A latch whose record is marked as raised by software alone. -/
def softLatch (s : State) (ctl b : Nat) : State :=
  setLatch s ctl b { forwarded s ctl b with count := 0, soft := true }

theorem foldl_softLatch {ctl : Nat} (l : List Nat) (s : State) :
    (l.foldl (fun st b => softLatch st ctl b) s).dict = s.dict ∧ (l.foldl (fun st b => softLatch st ctl b) s).ev.evq = s.ev.evq ∧
      ∀ b, (b ∈ l ∨ ∃ e, ecLatch s ctl b = some e ∧ e.soft = true ∧ e.count = 0) →
        ∃ e, ecLatch (l.foldl (fun st b => softLatch st ctl b) s) ctl b = some e ∧ e.soft = true ∧ e.count = 0 := by
  induction l generalizing s with
  | nil => exact ⟨rfl, rfl, fun b h => h.resolve_left (List.not_mem_nil)⟩
  | cons x r ih =>
    obtain ⟨hd, he, hl⟩ := ih (softLatch s ctl x)
    refine ⟨hd, he, fun b hb => hl b ?_⟩
    by_cases hbx : b = x
    · exact .inr ⟨_, ecLatch_setLatch.trans (if_pos hbx), rfl, rfl⟩
    · obtain hb | ⟨e, hb, hs⟩ := hb
      · exact .inl ((List.mem_cons.1 hb).resolve_left hbx)
      · exact .inr ⟨e, (ecLatch_setLatch.trans (if_neg hbx)).trans hb, hs⟩

/-- Settles O40: an occurrence is `localOccur`, forwarding goes bit by bit in order, and the written words go where `runWrite` and
`plainWrite` put them. -/
theorem localControllersComplete : Obligations.LocalControllersComplete := by
  unfold Obligations.LocalControllersComplete
  refine ⟨?_, ?_, ?_, ?_, ?_⟩
  · intro s pos o hok ho
    have hocc : occurAt s pos = localOccur { s with ev := { s.ev with occq := dropAt pos s.ev.occq } } o := by
      unfold occurAt
      rw [ho]
    refine ⟨_, completes_of rfl hocc, localOccur_occq, fun hclear => ?_, fun e hset he => ?_⟩
    · rw [localOccur_first (s := { s with ev := { s.ev with occq := dropAt pos s.ev.occq } }) hclear]
      refine ⟨?_, ecLatch_setLatch.trans (if_pos rfl)⟩
      have hd : dget (dset s (pendKey o.ctl) (setBit (dget s (pendKey o.ctl)) o.bit true)) (pendKey o.ctl) = _ := dget_dset_same hok
      exact (congrArg (bitOf · o.bit) hd).trans ((bitOf_setBit _ _ _ _).trans (if_pos rfl))
    · rw [localOccur_again (s := { s with ev := { s.ev with occq := dropAt pos s.ev.occq } }) hset he]
      exact ⟨ecLatch_setLatch.trans (if_pos rfl), rfl⟩
  · intro s ctl hok
    have h := ForwardedTo.range hok ctl.isLt 64
    exact ⟨_, rfl, fun b hb => (h.pend b).trans (if_pos hb), h.evq⟩
  · intro s ctl v hmay
    obtain ⟨hbytes, hnamed⟩ := keyBytes_maskKey ctl
    exact completes_of rfl (ownWrite_of_plain hmay hnamed (by rw [hbytes]; exact v.isLt) (runWrite_mask ctl.isLt)
      (plainWrite_mask ctl.isLt))
  · intro s ctl v hmay hok
    obtain ⟨hbytes, hnamed⟩ := keyBytes_pendKey ctl
    obtain ⟨hd, he, hl⟩ := foldl_softLatch (ctl := ctl.val)
      ((List.range 64).filter fun b => bitOf (ctlWord ctl.val v.toNat) b && !bitOf (dget s (pendKey ctl.val)) b)
      (dset s (pendKey ctl.val) (ctlWord ctl.val v.toNat))
    refine ⟨writtenGone (writePend s ctl.val v.toNat) (pendKey ctl.val),
      completes_of rfl (ownWrite_of_run hmay hnamed (by rw [hbytes]; exact v.isLt) (runWrite_pend ctl.isLt)), ?_, he, ?_⟩
    · refine Eq.trans ?_ (dget_dset_same (k := pendKey ctl.val) (v := ctlWord ctl.val v.toNat) hok)
      exact congrArg (fun d => tget (dictDefault (pendKey ctl.val)) d (pendKey ctl.val)) hd
    · intro b hb hv hp
      exact hl b (.inl (List.mem_filter.2 ⟨List.mem_range.2 hb, by simp [hv, hp]⟩))
  · intro s d v hmay
    obtain ⟨hbytes, hnamed⟩ := keyBytes_ecLock d
    have hv : v.toNat < 256 ^ keyBytes (Key.ecLock + d.val) := by rw [hbytes]; exact v.isLt
    have hzero : v = 0 ↔ v.toNat = 0 := by rw [← BitVec.toNat_inj]; rfl
    refine ⟨fun h => ?_, fun h0 hne hv0 => ?_⟩
    · refine completes_of rfl (ownWrite_of_run hmay hnamed hv ((runWrite_ecLock d.isLt).trans ?_))
      unfold writeEcLock
      rw [if_pos (by rwa [hzero] at h)]
    · refine completes_of rfl (ownWrite_refused (t := writtenGone s (Key.ecLock + d.val)) hmay (not_mem_namedKeys hnamed).1
        (writeEffect_of_run hnamed ?_) (by decide))
      rw [leNat_keyBytes hv, runWrite_ecLock d.isLt]
      unfold writeEcLock
      rw [if_neg (by rintro (h | h | h); exact h0 h; exact hne h; exact hv0 (hzero.2 h))]

end Sys2Proof.Machine
end

