-- ==== Sys2Proof/Proofs/Stores.lean ====
section
/-!
PROOF. Two offsets of an aperture never meet (R273, R274), and a store reads back and changes no other byte (R267, R279).
-/

namespace Sys2Proof.Machine

/-! ### Places of an aperture -/

theorem interleave_nodup {sts : List Nat} (m : MemSys) (h : sts.Nodup) : (interleave m sts).Nodup := by
  unfold interleave
  refine List.pairwise_flatMap.2 ⟨fun c _ => ?_, List.nodup_range.imp fun {c d} hne p hp q hq hpq => ?_⟩
  · exact List.Pairwise.map _ (fun x y hxy he => hxy (Prod.mk.inj he).1) (List.Pairwise.filter _ h)
  · obtain ⟨x, -, rfl⟩ := List.mem_map.1 hp
    obtain ⟨y, -, rfl⟩ := List.mem_map.1 hq
    exact hne (Prod.mk.inj hpq).2

theorem resolveIn_eq_some {m : MemSys} {sts : List Nat} {z : Zone} {usable o : Nat} {l : Loc} (h : resolveIn m sts z usable o = some l) :
    ∃ s c, (interleave m sts)[o / 2 ^ 12 % (interleave m sts).length]? = some (s, c) ∧
      l = .hbm s c (zoneBase m z + o / 2 ^ 12 / (interleave m sts).length * 2 ^ 12 + o % 2 ^ 12) := by
  unfold resolveIn at h
  split at h
  · cases h
  · dsimp only at h
    split at h
    · cases h
    · split at h
      · cases h
      · next s c hget => exact ⟨s, c, hget, (Option.some.inj h).symm⟩

/-- Settles O29: the interleave list names no channel twice, so the place gives back the offset's channel, row and byte. -/
theorem placesNeverMeet : Obligations.PlacesNeverMeet := by
  intro m sts z usable a b l hnd ha hb
  obtain ⟨s, c, hga, rfl⟩ := resolveIn_eq_some ha
  obtain ⟨s', c', hgb, heq⟩ := resolveIn_eq_some hb
  obtain ⟨rfl, rfl, hoff⟩ := Loc.hbm.inj heq
  have hchan : a / 2 ^ 12 % (interleave m sts).length = b / 2 ^ 12 % (interleave m sts).length :=
    (List.getElem?_inj (List.getElem?_eq_some_iff.1 hga).1 (interleave_nodup m hnd)).1 (hga.trans hgb.symm)
  have hrow : a / 2 ^ 12 / (interleave m sts).length = b / 2 ^ 12 / (interleave m sts).length := by omega
  have hpage : a / 2 ^ 12 = b / 2 ^ 12 := by
    rw [← Nat.div_add_mod (a / 2 ^ 12) (interleave m sts).length, hrow, hchan, Nat.div_add_mod]
  omega

/-! ### Atoms of an address -/

theorem piecesOf_within_atom {a n : Nat} (hn : n ≠ 0) (h : a % 64 + n ≤ 64) : piecesOf a n = [(a, n)] := by
  have hmin : min n (64 - a % 64) = n := by omega
  unfold piecesOf pieces
  rw [if_neg hn]
  dsimp only
  rw [hmin]
  unfold pieces
  rw [Nat.sub_self]
  cases n / 64 <;> rfl

theorem zoneBase_mod (m : MemSys) (z : Zone) : zoneBase m z % 64 = 0 := by
  cases z <;> dsimp only [zoneBase, zoneUnit] <;> omega

theorem hbm_phys_mod (s c off : Nat) : (Loc.hbm s c off).phys % 64 = off % 64 := by
  dsimp only [Loc.phys, channelBytes]
  omega

theorem resolveIn_phys_mod {m : MemSys} {sts : List Nat} {z : Zone} {usable o : Nat} {l : Loc}
    (h : resolveIn m sts z usable o = some l) : l.phys % 64 = o % 64 := by
  obtain ⟨s, c, -, rfl⟩ := resolveIn_eq_some h
  have hz := zoneBase_mod m z
  rw [hbm_phys_mod]
  omega

theorem resolveAt_phys_mod {m : MemSys} {home : Option Nat} {ap : Aperture} {o : Nat} {l : Loc}
    (h : resolveAt m home ap o = some l) : l.phys % 64 = o % 64 := by
  unfold resolveAt at h
  split at h
  · exact resolveIn_phys_mod h
  · exact resolveIn_phys_mod h
  · split at h
    · obtain rfl := Option.some.inj h
      have hz := zoneBase_mod m .expl
      rw [hbm_phys_mod]
      omega
    · cases h
  · split at h
    · cases h
    · exact resolveIn_phys_mod h
  · exact resolveIn_phys_mod h
  · split at h
    · obtain rfl := Option.some.inj h
      dsimp only [Loc.phys, channelBytes, hearthBytes]
      omega
    · cases h

theorem apertureOf_mod {a o : Nat} {ap : Aperture} (h : apertureOf a = some (ap, o)) : o % 64 = a % 64 := by
  have offset {q : Aperture × Nat} (hq : some q = some (ap, o)) : o = q.2 := (congrArg Prod.snd (Option.some.inj hq)).symm
  unfold apertureOf at h
  split at h
  · rw [offset h]
  · split at h
    · rw [offset h]; omega
    · split at h
      · rw [offset h]; omega
      · split at h
        · rw [offset h]; omega
        · split at h
          · rw [offset h]; omega
          · split at h
            · rw [offset h]; omega
            · cases h

theorem dvd_apertureBytes (m : MemSys) (sts : List Nat) (z : Zone) : 64 ∣ apertureBytes m sts z :=
  Nat.dvd_mul_left_of_dvd (Nat.dvd_mul_left_of_dvd (by decide) _) _

theorem dvd_dieReserved (m : MemSys) : 64 ∣ dieReserved m := Nat.dvd_mul_left_of_dvd (by decide) _

theorem dvd_partnerBytes (m : MemSys) : 64 ∣ partnerBytes m := by
  unfold partnerBytes
  split
  · exact Nat.dvd_zero 64
  · exact Nat.dvd_mul_left_of_dvd (by decide) _

theorem dvd_schedAt (m : MemSys) : 64 ∣ (schedAt m).2.2.1 ∧ 64 ∣ (schedAt m).2.2.2 := by
  unfold schedAt
  split
  · exact ⟨Nat.dvd_zero 64, Nat.dvd_sub (Nat.dvd_sub (dvd_apertureBytes m _ _) (dvd_partnerBytes m)) (dvd_dieReserved m)⟩
  · exact ⟨(by decide : 64 ∣ 0x0200_0000_0000), Nat.dvd_sub (dvd_apertureBytes m _ _) (dvd_dieReserved m)⟩

theorem resolve_phys_mod {m : MemSys} {home : Option Nat} {a : Nat} {l : Loc} (h : resolve m home a = some l) :
    l.phys % 64 = a % 64 := by
  unfold resolve at h
  split at h
  · cases h
  · next ap o hap =>
    rcases Option.or_eq_some_iff.1 h with hat | ⟨-, hsched⟩
    · exact (resolveAt_phys_mod hat).trans (apertureOf_mod hap)
    · unfold schedResolve schedAddr at hsched
      obtain ⟨hbase, hoff⟩ := dvd_schedAt m
      split at hsched
      · next hc =>
        simp only [Bool.and_eq_true, decide_eq_true_eq] at hc
        have hmod := resolveIn_phys_mod hsched
        omega
      · cases hsched

/-! ### Bytes of an atom -/

/-- What is laid over a line is read back at its place. -/
theorem read_overlay {d b : List Byte} {o : Nat} (hd : d.length = 64) (h : o + b.length ≤ 64) :
    ((overlay d o b).drop o).take b.length = b := by
  have hlen : (d.take o).length = o := by rw [List.length_take]; omega
  unfold overlay
  rw [List.append_assoc, List.drop_append_of_le_length (by omega), List.drop_eq_nil_of_le (by omega), List.nil_append,
    List.take_left]

theorem getD_overlay_out {d b : List Byte} {o i : Nat} (hd : d.length = 64) (h : o + b.length ≤ 64) (hi : i < o ∨ o + b.length ≤ i) :
    (overlay d o b).getD i 0#8 = d.getD i 0#8 := by
  have hlen : (d.take o).length = o := by rw [List.length_take]; omega
  unfold overlay
  simp only [List.getD_eq_getElem?_getD]
  rcases hi with hi | hi
  · rw [List.append_assoc, List.getElem?_append_left (by omega), List.getElem?_take_of_lt hi]
  · rw [List.getElem?_append_right (by rw [List.length_append]; omega), List.getElem?_drop, List.length_append, hlen,
      Nat.add_sub_cancel' hi]

theorem length_cellRead (cells : List Host.Cell) (a n : Nat) : (cellRead cells a n).length = n := by
  induction n generalizing a with
  | zero => rfl
  | succ n ih => exact congrArg (· + 1) (ih (a + 1))

theorem getD_cellRead (cells : List Host.Cell) {a n i : Nat} (h : i < n) : (cellRead cells a n).getD i 0#8 = cellGet cells (a + i) := by
  induction n generalizing a i with
  | zero => omega
  | succ n ih =>
    cases i with
    | zero => rfl
    | succ i =>
      rw [cellRead, List.getD_cons_succ, ih (by omega), Nat.add_assoc, Nat.add_comm 1]

theorem drop_cellRead (cells : List Host.Cell) (k a n : Nat) : (cellRead cells a n).drop k = cellRead cells (a + k) (n - k) := by
  induction k generalizing a n with
  | zero => rfl
  | succ k ih =>
    cases n with
    | zero => rw [Nat.zero_sub]; rfl
    | succ n => rw [cellRead, List.drop_succ_cons, ih, Nat.add_assoc, Nat.add_comm 1, Nat.succ_sub_succ]

theorem take_cellRead (cells : List Host.Cell) {k a n : Nat} (h : k ≤ n) : (cellRead cells a n).take k = cellRead cells a k := by
  induction n generalizing k a with
  | zero => rw [Nat.le_zero.1 h]; rfl
  | succ n ih =>
    cases k with
    | zero => rfl
    | succ k => rw [cellRead, List.take_succ_cons, ih (by omega)]; rfl

/-! ### The cache -/

/-- The lines of the cache hold whole atoms. -/
def WholeLines (m : MemSys) : Prop := ∀ k ln, cacheLine m k = some ln → ln.data.length = 64

theorem cacheLine_putLine {m : MemSys} {k j : Nat} {ln : CLine} :
    cacheLine (putLine m k ln) j = if j = k then some ln else cacheLine m j := tget_tset_new (Option.some_ne_none ln)

theorem cacheLine_evictLine {m : MemSys} {k j : Nat} (hwf : twf none m.cache = true) :
    cacheLine (evictLine m k) j = if j = k then none else cacheLine m j := by
  unfold evictLine
  split
  · next h =>
    split
    · next hj => rw [hj, h]
    · rfl
  · exact tget_tset none none m.cache k j hwf

theorem peek_of_line {m : MemSys} {p : Nat} {ln : CLine} (h : cacheLine m (p / 64) = some ln) : peek m p = ln.data.getD (p % 64) 0#8 := by
  unfold peek
  rw [h]

theorem peek_of_no_line {m : MemSys} {p : Nat} (h : cacheLine m (p / 64) = none) : peek m p = cellGet m.cells p := by
  unfold peek
  rw [h]

/-- The byte's cached line, if clean, agrees with the memory behind it. -/
def CleanAt (m : MemSys) (p : Nat) : Prop :=
  ∀ ln, cacheLine m (p / 64) = some ln → ln.dirty = false → ln.data.getD (p % 64) 0#8 = cellGet m.cells p

theorem cellGet_cellWrite_at {cells : List Host.Cell} {b : List Byte} {a i : Nat} (hwf : Memory.wf cells = true) (h : i < b.length) :
    cellGet (cellWrite cells a b) (a + i) = b.getD i 0#8 := by
  rw [← getD_cellRead (cellWrite cells a b) h, cellRead_cellWrite b cells a hwf]

/-- A line that is displaced leaves every byte as it was. -/
theorem peek_evictLine {m : MemSys} {k p : Nat} (hcells : Memory.wf m.cells = true) (hcache : twf none m.cache = true)
    (hlines : WholeLines m) (hclean : CleanAt m p) : peek (evictLine m k) p = peek m p := by
  have hat := cacheLine_evictLine (m := m) (k := k) (j := p / 64) hcache
  cases hk : cacheLine m k with
  | none => unfold evictLine; rw [hk]
  | some ln =>
    have hcell : (evictLine m k).cells = if ln.dirty then cellWrite m.cells (k * 64) ln.data else m.cells := by
      unfold evictLine; rw [hk]
    have hlen := hlines k ln hk
    by_cases hp : p / 64 = k
    · subst hp
      rw [if_pos rfl] at hat
      rw [peek_of_no_line hat, peek_of_line hk, hcell]
      split
      · have := cellGet_cellWrite_at (b := ln.data) (a := p / 64 * 64) (i := p % 64) hcells (by omega)
        rwa [Nat.div_add_mod'] at this
      · next hd => exact (hclean ln hk (by simpa using hd)).symm
    · rw [if_neg hp] at hat
      cases hline : cacheLine m (p / 64) with
      | some l => rw [peek_of_line (hat.trans hline), peek_of_line hline]
      | none =>
        rw [peek_of_no_line (hat.trans hline), peek_of_no_line hline, hcell]
        split
        · exact cellGet_cellWrite_out _ _ _ _ hcells (by omega)
        · rfl

/-! ### A write within one atom -/

/-- The memory system without its bytes: neither cells nor cached lines. -/
def MemSys.bare (m : MemSys) : MemSys := { m with cells := [], cache := [] }

theorem evictLine_bare (m : MemSys) (k : Nat) : (evictLine m k).bare = m.bare := by
  unfold evictLine
  split <;> rfl

/-- A line may have been displaced. -/
def Displaced (m m' : MemSys) : Prop := m' = m ∨ ∃ k, m' = evictLine m k

/-- The line that a write which misses allocates. -/
def missLine (m : MemSys) (l : Loc) (b : List Byte) : CLine :=
  { data := if (b.length == 64) = true then b else overlay (cellRead m.cells (l.atom * 64) 64) (l.phys % 64) b, dirty := true }

theorem read_missLine {m : MemSys} {l : Loc} {b : List Byte} (h : l.phys % 64 + b.length ≤ 64) :
    ((missLine m l b).data.drop (l.phys % 64)).take b.length = b := by
  dsimp only [missLine]
  split
  · next hfull =>
    have hlen : b.length = 64 := by simpa using hfull
    rw [show l.phys % 64 = 0 by omega, List.drop_zero, List.take_length]
  · exact read_overlay (length_cellRead _ _ _) h

theorem getD_missLine_out {m : MemSys} {l : Loc} {b : List Byte} {p : Nat} (hp : p / 64 = l.atom) (h : l.phys % 64 + b.length ≤ 64)
    (hout : p % 64 < l.phys % 64 ∨ l.phys % 64 + b.length ≤ p % 64) : (missLine m l b).data.getD (p % 64) 0#8 = cellGet m.cells p := by
  dsimp only [missLine]
  split
  · next hfull =>
    have hlen : b.length = 64 := by simpa using hfull
    omega
  · rw [getD_overlay_out (length_cellRead _ _ _) h hout, getD_cellRead _ (Nat.mod_lt p (by decide)), ← hp, Nat.div_add_mod']

theorem peek_putLine_ne {m : MemSys} {k p : Nat} {ln : CLine} (hp : p / 64 ≠ k) : peek (putLine m k ln) p = peek m p := by
  have hsame : cacheLine (putLine m k ln) (p / 64) = cacheLine m (p / 64) := cacheLine_putLine.trans (if_neg hp)
  cases hl : cacheLine m (p / 64) with
  | some l => rw [peek_of_line (hsame.trans hl), peek_of_line hl]
  | none => rw [peek_of_no_line (hsame.trans hl), peek_of_no_line hl]; rfl

/-- What a write of bytes at a place makes of the memory: over the line held, in a line allocated, or around the cache. -/
inductive Written (m : MemSys) (cached : Bool) (l : Loc) (b : List Byte) : MemSys → Prop
  | hit (ln : CLine) (hline : cacheLine m l.atom = some ln) :
    Written m cached l b (putLine m l.atom { data := overlay ln.data (l.phys % 64) b, dirty := true })
  | miss (m' : MemSys) (hc : cached = true) (hline : cacheLine m l.atom = none) (hm : Displaced m m') :
    Written m cached l b (putLine m' l.atom (missLine m l b))
  | around (hc : cached = false) (hline : cacheLine m l.atom = none) :
    Written m cached l b ({ m with cells := cellWrite m.cells l.phys b })

theorem allocLine_displaces (s : State) (k : Nat) (ln : CLine) :
    ∃ m' f, Displaced s.mem m' ∧ allocLine s k ln = { s with mem := putLine m' k ln, free := f } := by
  unfold allocLine
  dsimp only
  split
  · exact ⟨s.mem, s.free, .inl rfl, rfl⟩
  · exact ⟨_, _, .inr ⟨_, rfl⟩, rfl⟩

/-- A write that ends well was not stopped, its atom is not poisoned (a whole atom cures it), and its bytes are written. -/
theorem atomWrite_ends {s s1 : State} {v : Via} {c : Bool} {l : Loc} {b : List Byte} (h : atomWrite s v c l b = (none, s1)) :
    accessStop s v c l = none ∧ ∃ m0 m1 f, (m0 = s.mem ∨ m0 = cureAtom s.mem l.atom) ∧ isPoisoned m0 l.atom = false ∧
      Written m0 c l b m1 ∧ s1 = { s with mem := m1, free := f } := by
  unfold atomWrite at h
  split at h
  · cases (Prod.mk.inj h).1
  · next hstop =>
    refine ⟨hstop, ?_⟩
    dsimp only at h
    have hcure : ∃ m0, (m0 = s.mem ∨ m0 = cureAtom s.mem l.atom) ∧
        (if (b.length == 64) = true then { s with mem := cureAtom s.mem l.atom } else s) = { s with mem := m0 } := by
      split
      · exact ⟨_, .inr rfl, rfl⟩
      · exact ⟨_, .inl rfl, rfl⟩
    obtain ⟨m0, hm0, hs0⟩ := hcure
    rw [hs0] at h
    split at h
    · cases (Prod.mk.inj h).1
    · next hpoison =>
      have hpoison : isPoisoned m0 l.atom = false := by simpa using hpoison
      split at h
      · next ln hline => exact ⟨m0, _, s.free, hm0, hpoison, .hit ln hline, (Prod.mk.inj h).2.symm⟩
      · next hline =>
        split at h
        · next hc =>
          obtain ⟨m', f, hm', halloc⟩ := allocLine_displaces { s with mem := m0 } l.atom (missLine m0 l b)
          exact ⟨m0, _, f, hm0, hpoison, .miss m' hc hline hm', (Prod.mk.inj h).2.symm.trans halloc⟩
        · next hc => exact ⟨m0, _, s.free, hm0, hpoison, .around (by simpa using hc) hline, (Prod.mk.inj h).2.symm⟩

section

variable {m m1 : MemSys} {c : Bool} {l : Loc} {b : List Byte}

theorem Displaced.bare {m' : MemSys} (h : Displaced m m') : m'.bare = m.bare := by
  obtain rfl | ⟨k, rfl⟩ := h
  · rfl
  · exact evictLine_bare m k

theorem Displaced.peek {m' : MemSys} {p : Nat} (h : Displaced m m') (hcells : Memory.wf m.cells = true) (hcache : twf none m.cache = true)
    (hlines : WholeLines m) (hclean : CleanAt m p) : Machine.peek m' p = Machine.peek m p := by
  obtain rfl | ⟨j, rfl⟩ := h
  · rfl
  · exact peek_evictLine hcells hcache hlines hclean

theorem Written.bare (h : Written m c l b m1) : m1.bare = m.bare := by
  cases h with
  | hit ln hline => rfl
  | miss m' hc hline hm => exact hm.bare
  | around hc hline => rfl

theorem isPoisoned_of_bare (h : m1.bare = m.bare) (k : Nat) : isPoisoned m1 k = isPoisoned m k :=
  show isPoisoned m1.bare k = isPoisoned m.bare k from congrArg (isPoisoned · k) h

/-- A line that was held still is. -/
theorem Written.line_isSome (h : Written m c l b m1) (hsome : (cacheLine m l.atom).isSome = true) : (cacheLine m1 l.atom).isSome = true := by
  cases h with
  | hit ln hline => rw [cacheLine_putLine, if_pos rfl]; rfl
  | miss m' hc hline hm => rw [hline] at hsome; cases hsome
  | around hc hline => rw [hline] at hsome; cases hsome

/-- The atom's 64 bytes are then read without another line allocated, and hold what was written. -/
theorem Written.fill {s : State} (h : Written m c l b m1) (hs : s.mem = m1) (hcells : Memory.wf m.cells = true) (hlines : WholeLines m)
    (hfit : l.phys % 64 + b.length ≤ 64) :
    ∃ d, atomFill s c l = (d, s) ∧ (d.drop (l.phys % 64)).take b.length = b := by
  unfold atomFill
  rw [hs]
  cases h with
  | hit ln hline =>
    rw [cacheLine_putLine, if_pos rfl]
    exact ⟨_, rfl, read_overlay (hlines _ _ hline) hfit⟩
  | miss m' hc hline hm =>
    rw [cacheLine_putLine, if_pos rfl]
    exact ⟨_, rfl, read_missLine hfit⟩
  | around hc hline =>
    rw [show cacheLine { m with cells := cellWrite m.cells l.phys b } l.atom = none from hline, hc]
    refine ⟨_, rfl, ?_⟩
    rw [drop_cellRead, take_cellRead _ (by omega), Loc.atom, Nat.div_add_mod', cellRead_cellWrite b m.cells l.phys hcells]

theorem Written.peek {p : Nat} (h : Written m c l b m1) (hcells : Memory.wf m.cells = true) (hcache : twf none m.cache = true)
    (hlines : WholeLines m) (hclean : CleanAt m p) (hfit : l.phys % 64 + b.length ≤ 64) (hout : p < l.phys ∨ l.phys + b.length ≤ p) :
    Machine.peek m1 p = Machine.peek m p := by
  have hplace : p / 64 = l.atom → p % 64 < l.phys % 64 ∨ l.phys % 64 + b.length ≤ p % 64 := by
    unfold Loc.atom
    omega
  cases h with
  | hit ln hline =>
    by_cases hp : p / 64 = l.atom
    · rw [peek_of_line (cacheLine_putLine.trans (if_pos hp)), peek_of_line (hp ▸ hline)]
      exact getD_overlay_out (hlines _ _ hline) hfit (hplace hp)
    · exact peek_putLine_ne hp
  | miss m' hc hline hm =>
    by_cases hp : p / 64 = l.atom
    · rw [peek_of_line (cacheLine_putLine.trans (if_pos hp)), peek_of_no_line (hp ▸ hline)]
      exact getD_missLine_out hp hfit (hplace hp)
    · exact (peek_putLine_ne hp).trans (hm.peek hcells hcache hlines hclean)
  | around hc hline =>
    cases hl : cacheLine m (p / 64) with
    | some ln => rw [peek_of_line hl]; exact peek_of_line hl
    | none =>
      rw [peek_of_no_line hl, ← cellGet_cellWrite_out b m.cells l.phys p hcells hout]
      exact peek_of_no_line (m := { m with cells := cellWrite m.cells l.phys b }) hl

end

/-! ### The access after the write -/

section

variable {s : State} {m1 : MemSys} {f : Nat} {v : Via} {c : Bool} {l : Loc}

theorem accessStop_after (hbare : m1.bare = s.mem.bare)
    (hline : (cacheLine s.mem l.atom).isSome = true → (cacheLine m1 l.atom).isSome = true) (h : accessStop s v c l = none) :
    accessStop { s with mem := m1, free := f } v c l = none := by
  have hfenced (st ch : Nat) : chanFenced m1 st ch = chanFenced s.mem st ch :=
    show chanFenced m1.bare st ch = chanFenced s.mem.bare st ch by rw [hbare]
  unfold accessStop at h ⊢
  split at h
  · cases h
  · next hroute =>
    rw [if_neg (show ¬(locFenced { s with mem := m1, free := f } l || (routeLinks v (dieOfStack l.owner)).any (bitOf s.rst.linkDown)) = true
      from hroute)]
    cases l with
    | hearth hh off => rfl
    | hbm st ch off =>
      dsimp only at h ⊢
      rw [hfenced]
      split at h
      · cases h
      · next hf =>
        rw [if_neg hf]
        split at h
        · cases h
        · next hheld =>
          refine if_neg fun hc => hheld ?_
          obtain ⟨hst, hmiss⟩ := Bool.and_eq_true_iff.1 hc
          refine Bool.and_eq_true_iff.2 ⟨hst, ?_⟩
          cases hcache : c
          · rfl
          · cases hs : (cacheLine s.mem (Loc.hbm st ch off).atom).isSome
            · rfl
            · rw [hcache, hline hs] at hmiss
              cases hmiss

theorem isCached_after (hbare : m1.bare = s.mem.bare) (bulk : Bool) (a : Nat) :
    isCached { s with mem := m1, free := f } v bulk a l = isCached s v bulk a l :=
  show isCached { s with mem := m1.bare, free := f } v bulk a l = isCached { s with mem := s.mem.bare } v bulk a l by
    rw [hbare]; rfl

theorem heldBack_after (hbare : m1.bare = s.mem.bare) (a n : Nat) :
    heldBack { s with mem := m1, free := f } v a n = heldBack s v a n :=
  show heldBack { s with mem := m1.bare, free := f } v a n = heldBack { s with mem := s.mem.bare } v a n by
    rw [hbare]; rfl

end

/-! ### A store -/

/-- A write within one atom that ends well is one write of the atom. -/
theorem devWrite_within_atom {s s1 : State} {v : Via} {bulk : Bool} {a : Nat} {l : Loc} {b : List Byte} (hres : v.resolve s.mem a = some l)
    (hne : b ≠ []) (hfit : a % 64 + b.length ≤ 64) (h : devWrite s v bulk a b = (none, s1)) :
    heldBack s v a b.length = false ∧ atomWrite s v (isCached s v bulk a l) l b = (none, s1) := by
  have hpieces : piecesOf a b.length = [(a, b.length)] := piecesOf_within_atom (by simpa using hne) hfit
  unfold devWrite at h
  dsimp only at h
  split at h
  · cases (Prod.mk.inj h).1
  · next hheld =>
    refine ⟨by simpa using hheld, ?_⟩
    split at h
    · cases (Prod.mk.inj h).1
    · rw [hpieces] at h
      unfold writePieces at h
      rw [hres] at h
      dsimp only at h
      rw [List.take_length] at h
      obtain ⟨he, hs⟩ := Prod.mk.inj h
      exact Prod.ext he hs

theorem devRead_within_atom {s : State} {v : Via} {bulk : Bool} {a n : Nat} {l : Loc} {b : List Byte} (hres : v.resolve s.mem a = some l)
    (hn : n ≠ 0) (hfit : a % 64 + n ≤ 64) (hheld : heldBack s v a n = false)
    (h : atomRead s v (isCached s v bulk a l) l n = (.ok b, s)) : devRead s v bulk a n = (.ok b, s) := by
  unfold devRead
  rw [if_neg (ne_true_of_eq_false hheld), piecesOf_within_atom hn hfit]
  unfold readPieces
  rw [hres]
  dsimp only
  rw [h]
  dsimp only [readPieces]
  rw [List.append_nil]

theorem atomRead_of_fill {s : State} {v : Via} {c : Bool} {l : Loc} {n : Nat} {d : List Byte} (hstop : accessStop s v c l = none)
    (hfill : atomFill s c l = (d, s)) (hpoison : isPoisoned s.mem l.atom = false) :
    atomRead s v c l n = (.ok ((d.drop (l.phys % 64)).take n), s) := by
  unfold atomRead
  rw [hstop, hfill]
  exact if_neg (ne_true_of_eq_false hpoison)

/-- Settles O30: over the three forms that a write of an atom takes. -/
theorem storesReadBackAndTouchNothingElse : Obligations.StoresReadBackAndTouchNothingElse := by
  intro s s1 v bulk a l b hok hcache hres hne hfit hwrite hlines
  have hvia : v.resolve s.mem a = some l := by unfold Via.resolve; rw [hres]; rfl
  have hmod := resolve_phys_mod hres
  have hfit' : l.phys % 64 + b.length ≤ 64 := by omega
  obtain ⟨hheld, hatom⟩ := devWrite_within_atom hvia hne hfit hwrite
  obtain ⟨hstop, m0, m1, f, hm0, hpoison, hw, rfl⟩ := atomWrite_ends hatom
  -- curing an atom touches neither bytes, lines, addresses nor requests
  obtain ⟨hmap, hstop, hcached, hheld, hcells, hcache, hlines, hpeek⟩ : SameMap s { s with mem := m0 } ∧
      accessStop { s with mem := m0 } v (isCached s v bulk a l) l = none ∧
      isCached { s with mem := m0 } v bulk a l = isCached s v bulk a l ∧ heldBack { s with mem := m0 } v a b.length = false ∧
      Memory.wf m0.cells = true ∧ twf none m0.cache = true ∧ WholeLines m0 ∧
      ∀ p, peek m0 p = peek s.mem p ∧ (CleanAt s.mem p → CleanAt m0 p) := by
    obtain rfl | rfl := hm0 <;> exact ⟨rfl, hstop, rfl, hheld, hok, hcache, hlines, fun p => ⟨rfl, id⟩⟩
  have hbare := hw.bare
  refine ⟨?_, fun p hout hclean => ?_⟩
  · obtain ⟨d, hfill, hd⟩ := hw.fill (s := { s with mem := m1, free := f }) rfl hcells hlines hfit'
    have hread : atomRead { s with mem := m1, free := f } v (isCached s v bulk a l) l b.length =
        (.ok b, { s with mem := m1, free := f }) := by
      rw [atomRead_of_fill (accessStop_after (s := { s with mem := m0 }) hbare hw.line_isSome hstop) hfill
        ((isPoisoned_of_bare hbare _).trans hpoison), hd]
    have hres1 : v.resolve m1 a = some l := by
      rw [← hvia, ← hmap.viaResolve v a, ← v.resolve_layout m1, ← v.resolve_layout m0]
      exact congrArg (v.resolve · a) (show m1.bare.layout = m0.bare.layout by rw [hbare])
    refine ⟨_, devRead_within_atom hres1 (by simpa using hne) hfit ((heldBack_after (s := { s with mem := m0 }) hbare a _).trans hheld) ?_⟩
    rw [isCached_after (s := { s with mem := m0 }) hbare, hcached]
    exact hread
  · exact (hw.peek hcells hcache hlines ((hpeek p).2 hclean) hfit' hout).trans (hpeek p).1

end Sys2Proof.Machine
end

