-- ==== Sys2Proof/Proofs/Requests.lean ====
section
/-!
PROOF. What a hearth does with a request that nothing holds (R267, R281, R282).
-/

namespace Sys2Proof.Machine

/-! ### A request reaches its hearth -/

theorem atomError_quiet {s : State} (h : s.flt.armed = []) (l : Loc) : atomError s l .none = s := by
  have hhit : takeHit s 2 l.owner [.hbmUe] none = (none, s) := takeHit_unarmed h _ _ _
  unfold atomError
  rw [if_neg (by decide), hhit]
  exact if_neg (by decide)

theorem readErrors_quiet {s : State} (h : s.flt.armed = []) (l : List Loc) : readErrors s l [] = s := by
  induction l with
  | nil => rfl
  | cons x r ih =>
    unfold readErrors
    rw [show [].headD AtomErr.none = .none from rfl, atomError_quiet h]
    exact ih

theorem wakeStack_flt (s : State) (r : MemReq) : (wakeStack s r).flt = s.flt := by
  unfold wakeStack
  split <;> rfl

/-- A request that finds no error and no fence is served as it stands. -/
theorem reachHearth_quiet {s : State} {r : MemReq} (h : s.flt.armed = [])
    (hash : requestAshed (wakeStack s r) (r.via (wakeStack s r).mem) r = false) :
    reachHearth s r [] = serveRequest (wakeStack s r) r := by
  unfold reachHearth
  dsimp only
  rw [readErrors_quiet ((congrArg FltSys.armed (wakeStack_flt s r)).trans h), hash]
  rfl

theorem memoryRequest_first {s : State} {pos : Nat} {r : MemReq} (hr : s.mem.reqs[pos]? = some r)
    (hb : behind s (s.mem.reqs.take pos) r = false)
    (hw : waveBehind s r.post (emberSource 2 ((ownerOf s (r.via s.mem) r.addr).getD 0)) = false) :
    memoryRequest s pos [] = reachHearth { s with mem := { s.mem with reqs := dropAt pos s.mem.reqs } } r [] := by
  unfold memoryRequest
  rw [hr]
  dsimp only
  rw [hb, hw]
  rfl

theorem atomicRequest_first {s : State} {die : Option DieId} {a n : Nat} {x : Amo} (h : behind s s.mem.reqs (atomicReq s die a n x) = false) :
    atomicRequest s die a n x = reachHearth s (atomicReq s die a n x) [] := by
  unfold atomicRequest
  exact if_neg (ne_true_of_eq_false h)

/-! ### What is served -/

section

variable {s s2 s3 : State} {r : MemReq} {b : List Byte}

theorem serveRequest_read (ha : r.amo = none) (hw : r.wdata = none) (hb : readBlocked s (r.via s.mem) r.bulk r.addr r.len = false)
    (h : devRead s (r.via s.mem) r.bulk r.addr r.len = (.ok b, s2)) : serveRequest s r = sendReply s2 r { bytes := b } := by
  unfold serveRequest
  dsimp only
  rw [ha, hw]
  dsimp only
  rw [hb, h]
  rfl

theorem serveRequest_write (ha : r.amo = none) (hw : r.wdata = some b)
    (h : devWrite s (r.via s.mem) r.bulk r.addr b = (none, s2)) : serveRequest s r = sendReply s2 r {} := by
  unfold serveRequest
  dsimp only
  rw [ha, hw]
  dsimp only
  rw [h]

theorem serveRequest_atomic {x : Amo} {old : Nat} (ha : r.amo = some x)
    (h : atomicOp s (r.via s.mem) r.addr r.len (x.apply r.len) = (some { old := old }, s2)) :
    serveRequest s r = sendReply s2 r { bytes := leBytes r.len old } := by
  unfold serveRequest
  dsimp only
  rw [ha]
  dsimp only
  rw [h]

theorem atomicOp_writes {v : Via} {a n w : Nat} {f : Nat → Option Nat} (ht : atomicTarget s v a = .performed)
    (hr : devRead s v false a n = (.ok b, s2)) (hf : f (leNat b) = some w)
    (hw : devWrite s2 v false a (leBytes n w) = (none, s3)) : atomicOp s v a n f = (some { old := leNat b }, s3) := by
  unfold atomicOp
  rw [ht]
  dsimp only
  rw [hr]
  dsimp only
  rw [hf]
  dsimp only
  rw [hw]

theorem atomicOp_keeps {v : Via} {a n : Nat} {f : Nat → Option Nat} (ht : atomicTarget s v a = .performed)
    (hr : devRead s v false a n = (.ok b, s2)) (hf : f (leNat b) = none) : atomicOp s v a n f = (some { old := leNat b }, s2) := by
  unfold atomicOp
  rw [ht]
  dsimp only
  rw [hr]
  dsimp only
  rw [hf]

/-- A target that performs an atomic is not fenced. -/
theorem not_requestAshed_of_performed {v : Via} (hbulk : r.bulk = false) (ht : atomicTarget s v r.addr = .performed) :
    requestAshed s v r = false := by
  unfold requestAshed
  rw [hbulk]
  unfold atomicTarget at ht
  split
  · next l hl =>
    rw [hl] at ht
    dsimp only at ht
    cases hstop : accessStop s v (isCached s v false r.addr l) l with
    | none => rfl
    | some e =>
      rw [hstop] at ht
      cases e with
      | ash => cases ht
      | unmapped => rfl
      | poisoned => rfl
      | fenced => rfl
      | waits => rfl
  · rfl

end

/-- An atomic that waits for nothing is served, and answered with the value before. -/
theorem atomicRequest_performed {s s3 : State} {die : Option DieId} {a n old : Nat} {x : Amo}
    (hb : behind s s.mem.reqs (atomicReq s die a n x) = false) (harmed : s.flt.armed = [])
    (ht : atomicTarget (wakeStack s (atomicReq s die a n x)) ((atomicReq s die a n x).via (wakeStack s (atomicReq s die a n x)).mem) a =
      .performed)
    (hop : atomicOp (wakeStack s (atomicReq s die a n x)) ((atomicReq s die a n x).via (wakeStack s (atomicReq s die a n x)).mem) a n
      (x.apply n) = (some { old := old }, s3)) :
    atomicRequest s die a n x = sendReply s3 (atomicReq s die a n x) { bytes := leBytes n old } := by
  rw [atomicRequest_first hb, reachHearth_quiet harmed (not_requestAshed_of_performed rfl ht)]
  exact serveRequest_atomic (r := atomicReq s die a n x) rfl hop

/-- Settles O31. -/
theorem requestsComplete : Obligations.RequestsComplete := by
  unfold Obligations.RequestsComplete
  refine ⟨?_, ?_, ?_⟩
  · intro s s1 s2 pos r hr hb hw ha harmed hs1 hash
    subst hs1
    have hreach : memoryRequest s pos [] = serveRequest (requestTaken s pos r) r :=
      (memoryRequest_first hr hb hw).trans
        (reachHearth_quiet (s := { s with mem := { s.mem with reqs := dropAt pos s.mem.reqs } }) harmed hash)
    refine ⟨fun b hwd hblock hread => ?_, fun b hwd hwrite => ?_⟩
    · exact completes_of rfl (congrArg memoryAgain (hreach.trans (serveRequest_read ha hwd hblock hread)))
    · exact completes_of rfl (congrArg memoryAgain (hreach.trans (serveRequest_write ha hwd hwrite)))
  · rintro s s1 s2 s3 die wide a v n r b rfl rfl hb harmed rfl ht hread hwrite
    exact completes_of rfl (atomicRequest_performed hb harmed ht (atomicOp_writes ht hread rfl hwrite))
  · rintro s s1 s2 s3 die a e v r b rfl hb harmed rfl ht hread hend
    refine completes_of rfl (atomicRequest_performed hb harmed ht ?_)
    rcases hend with ⟨heq, hwrite⟩ | ⟨hne, rfl⟩
    · exact atomicOp_writes ht hread (if_pos heq) hwrite
    · exact atomicOp_keeps ht hread (if_neg hne)

end Sys2Proof.Machine
end

