-- ==== Sys2Proof/Proofs/UnitsKeep.lean ====
section
/-!
PROOF. What a hearth's group and a core's vector part compute, they compute from memory: computing changes nothing else.
-/

namespace Sys2Proof.Machine

variable {v : State}

theorem readSkein_memOnly {s : State} {a1 : Via} {t : Tensor} {js : List Nat} (h : MemOnly v s) :
    MemOnly v (readSkein s a1 t js).2 := by
  unfold readSkein
  repeat' first
    | (with_reducible first | assumption | intro _ | apply MemOnly.foldl | apply MemOnly.foldlFst)
    | (with_reducible first | apply MemOnly.foldlSnd | apply readMany_memOnly | apply MemOnly.c)
    | (with_reducible refine MemOnly.snd (by assumption) ?_)
    | (dsimp only)
    | split

theorem readElems_memOnly {s : State} {a1 : Via} {t : Tensor} {js : List Nat} (h : MemOnly v s) :
    MemOnly v (readElems s a1 t js).2 := by
  unfold readElems
  repeat' first
    | (with_reducible first | assumption | intro _ | apply readSkein_memOnly | apply readMany_memOnly | apply MemOnly.c)
    | (with_reducible refine MemOnly.snd (by assumption) ?_)
    | (dsimp only)
    | split

theorem readOpt_memOnly {s : State} {a1 : Via} {t : Option Tensor} {js : List Nat} (h : MemOnly v s) :
    MemOnly v (readOpt s a1 t js).2 := by
  unfold readOpt
  repeat' first
    | (with_reducible first | assumption | intro _ | apply readElems_memOnly | apply MemOnly.c)
    | (with_reducible refine MemOnly.snd (by assumption) ?_)
    | (dsimp only)
    | split

theorem vecPart_memOnly {s : State} {a1 : Via} {o : OpRec} {y : Tensor} {js : List Nat} (h : MemOnly v s) :
    MemOnly v (vecPart s a1 o y js).2 := by
  unfold vecPart
  repeat' first
    | (with_reducible first | assumption | intro _ | apply readOpt_memOnly | apply MemOnly.c)
    | (with_reducible refine MemOnly.snd (by assumption) ?_)
    | (dsimp only)
    | split

theorem reduceAll_memOnly {s : State} {a1 : Via} {x : Tensor} {y : TD} {axis : Nat} {rop : Nat} {js : List Nat} (h :
    MemOnly v s) :
    MemOnly v (reduceAll s a1 x y axis rop js).2 := by
  unfold reduceAll
  repeat' first
    | (with_reducible first | assumption | intro _ | apply readElems_memOnly | apply MemOnly.c)
    | (with_reducible refine MemOnly.snd (by assumption) ?_)
    | (dsimp only)
    | split

theorem reducePart_memOnly {s : State} {a1 : Via} {o : OpRec} {y : Tensor} {js : List Nat} (h : MemOnly v s) :
    MemOnly v (reducePart s a1 o y js).2 := by
  unfold reducePart
  repeat' first
    | (with_reducible first | assumption | intro _ | apply reduceAll_memOnly | apply MemOnly.c)
    | (with_reducible refine MemOnly.snd (by assumption) ?_)
    | (dsimp only)
    | split

theorem convertPart_memOnly {s : State} {a1 : Via} {o : OpRec} {y : Tensor} {js : List Nat} (h : MemOnly v s) :
    MemOnly v (convertPart s a1 o y js).2 := by
  unfold convertPart
  repeat' first
    | (with_reducible first | assumption | intro _ | apply readOpt_memOnly | apply MemOnly.c)
    | (with_reducible refine MemOnly.snd (by assumption) ?_)
    | (dsimp only)
    | split

theorem readIndex_memOnly {s : State} {a1 : Via} {o : OpRec} (h : MemOnly v s) :
    MemOnly v (readIndex s a1 o).2 := by
  unfold readIndex
  repeat' first
    | (with_reducible first | assumption | intro _ | apply readMany_memOnly | apply MemOnly.c)
    | (with_reducible refine MemOnly.snd (by assumption) ?_)
    | (dsimp only)
    | split

theorem copyPart_memOnly {s : State} {a1 : Via} {x : Tensor} {y : Tensor} {ps : List (Nat × Nat)} (h : MemOnly v s) :
    MemOnly v (copyPart s a1 x y ps).2 := by
  unfold copyPart
  repeat' first
    | (with_reducible first | assumption | intro _ | apply readMany_memOnly | apply MemOnly.c)
    | (with_reducible refine MemOnly.snd (by assumption) ?_)
    | (dsimp only)
    | split

theorem gatherPart_memOnly {s : State} {a1 : Via} {o : OpRec} {y : Tensor} {js : List Nat} (h : MemOnly v s) :
    MemOnly v (gatherPart s a1 o y js).2 := by
  unfold gatherPart
  repeat' first
    | (with_reducible first | assumption | intro _ | apply copyPart_memOnly | apply readIndex_memOnly | apply MemOnly.c)
    | (with_reducible refine MemOnly.snd (by assumption) ?_)
    | (dsimp only)
    | split

theorem computePart_memOnly {s : State} {a1 : Via} {o : OpRec} {js : List Nat} (h : MemOnly v s) :
    MemOnly v (computePart s a1 o js).2 := by
  unfold computePart
  repeat' first
    | (with_reducible first | assumption | intro _ | apply vecPart_memOnly | apply convertPart_memOnly)
    | (with_reducible first | apply reducePart_memOnly | apply gatherPart_memOnly | apply MemOnly.c)
    | (with_reducible refine MemOnly.snd (by assumption) ?_)
    | (dsimp only)
    | split

theorem expectCheck_memOnly {s : State} {a1 : Via} {o : OpRec} {p : Part} (h : MemOnly v s) :
    MemOnly v (expectCheck s a1 o p).2 := by
  unfold expectCheck
  repeat' first
    | (with_reducible first | assumption | intro _ | apply readMany_memOnly | apply MemOnly.c)
    | (with_reducible refine MemOnly.snd (by assumption) ?_)
    | (dsimp only)
    | split

theorem updateGroup_memOnly {s : State} {a1 : Via} {o : OpRec} {y : Tensor} {js : List Nat} (h : MemOnly v s) :
    MemOnly v (updateGroup s a1 o y js).2 := by
  unfold updateGroup
  repeat' first
    | (with_reducible first | assumption | intro _ | apply MemOnly.foldl | apply MemOnly.foldlFst)
    | (with_reducible first | apply MemOnlyO.getD)
    | (with_reducible first | apply MemOnly.foldlSnd | apply readMany_memOnly | apply MemOnly.c)
    | (with_reducible refine MemOnly.snd (by assumption) ?_)
    | (dsimp only)
    | split

theorem spinGroup_memOnly {s : State} {a1 : Via} {o : OpRec} {y : Tensor} {n : Nat} {sub : Nat} (h : MemOnly v s) :
    MemOnly v (spinGroup s a1 o y n sub).2 := by
  unfold spinGroup
  repeat' first
    | (with_reducible first | assumption | intro _ | apply readOpt_memOnly | apply MemOnly.c)
    | (with_reducible refine MemOnly.snd (by assumption) ?_)
    | (dsimp only)
    | split

theorem foldGroup_memOnly {s : State} {a1 : Via} {o : OpRec} {y : Tensor} {i1 : Nat} (h : MemOnly v s) :
    MemOnly v (foldGroup s a1 o y i1).2 := by
  unfold foldGroup
  repeat' first
    | (with_reducible first | assumption | intro _ | apply MemOnly.foldl | apply MemOnly.foldlFst)
    | (with_reducible first | apply MemOnly.foldlSnd | apply readElems_memOnly | apply MemOnly.c)
    | (with_reducible refine MemOnly.snd (by assumption) ?_)
    | (dsimp only)
    | split

theorem remoteAccGroup_memOnly {s : State} {a1 : Via} {k : Nat} {a3 : Nat} {o : OpRec} {js : List Nat} (h : MemOnly v
    s) :
    MemOnly v (remoteAccGroup s a1 k a3 o js).2 := by
  unfold remoteAccGroup
  repeat' first
    | (with_reducible first | apply MemOnlyO.getD)
    | (with_reducible first | assumption | intro _ | apply readMany_memOnly | apply MemOnly.c)
    | (with_reducible refine MemOnly.snd (by assumption) ?_)
    | (dsimp only)
    | split

theorem computeGroup_memOnly {s : State} {a1 : Via} {k : Nat} {a3 : Nat} {o : OpRec} {p : Part} (h : MemOnly v s) :
    MemOnly v (computeGroup s a1 k a3 o p).2 := by
  unfold computeGroup
  repeat' first
    | (with_reducible first | assumption | intro _ | apply updateGroup_memOnly | apply foldGroup_memOnly)
    | (with_reducible first | apply computePart_memOnly | apply spinGroup_memOnly | apply remoteAccGroup_memOnly)
    | (with_reducible first | apply MemOnly.c)
    | (with_reducible refine MemOnly.snd (by assumption) ?_)
    | (dsimp only)
    | split

end Sys2Proof.Machine
end

