-- ==== Sys2Proof/Proofs/Units.lean ====
section
/-!
PROOF. Groups of hearths and parts of vector units, remote accumulates, and the upkeep of memory (R285, R287, R292, R295, R305, R343).
-/

namespace Sys2Proof.Machine

variable {s s1 s2 s3 : State}

/-! ### Groups and parts -/

theorem finishIfDone_mem (s : State) (k : Nat) : (finishIfDone s k).mem = s.mem := by
  unfold finishIfDone
  split
  · rfl
  · split <;> rfl

theorem finishIfDone_raq (s : State) (k : Nat) : (finishIfDone s k).raq = s.raq := by
  unfold finishIfDone
  split
  · rfl
  · split <;> rfl

theorem finishIfDone_flt (s : State) (k : Nat) : (finishIfDone s k).flt = s.flt := by
  unfold finishIfDone
  split
  · rfl
  · split <;> rfl

/-- Finishing an operation changes neither its parts nor its counts. -/
theorem finishIfDone_getOp {k : Nat} {o : OpRec} (h : getOp s k = some o) :
    ∃ o1, getOp (finishIfDone s k) k = some o1 ∧ o1.parts = o.parts ∧ o1.tally = o.tally := by
  unfold finishIfDone
  rw [h]
  dsimp only
  split
  · exact ⟨_, getOp_setOp.trans (if_pos rfl), rfl, rfl⟩
  · exact ⟨o, h, rfl, rfl⟩

theorem commitGroup_written {v : Via} {k h : Nat} {o : OpRec} {p : Part} {out : GroupOut}
    (hw : writeMany s v false out.writes = (none, s1)) :
    ∃ o1, (commitGroup s v k h o p out).mem = s1.mem ∧ (commitGroup s v k h o p out).raq = s1.raq ++ out.send ∧
      (commitGroup s v k h o p out).flt.groups = tset 0 s1.flt.groups h (tget 0 s1.flt.groups h + 1) ∧
      getOp (commitGroup s v k h o p out) k = some o1 ∧ o1.parts = (o.putPart h (o.afterGroup p)).parts ∧
      o1.tally = (o.countAt h out.tally).tally := by
  unfold commitGroup
  rw [hw]
  dsimp only
  obtain ⟨o1, hget, hparts, htally⟩ := finishIfDone_getOp (s := { setOp s1 k (some { ({ o.putPart h (o.afterGroup p) with
      last := emberSource 2 h }).countAt h out.tally with invalid := (o.putPart h (o.afterGroup p)).invalid || out.nan }) with
      raq := s1.raq ++ out.send
      flt := { s1.flt with groups := tset 0 s1.flt.groups h (tget 0 s1.flt.groups h + 1) } }) (k := k)
    (getOp_setOp.trans (if_pos rfl))
  exact ⟨o1, finishIfDone_mem _ _, finishIfDone_raq _ _, congrArg FltSys.groups (finishIfDone_flt _ _), hget, hparts, htally⟩

theorem hearthGroup_commits {k h : Nat} {o : OpRec} {p : Part} {out : GroupOut} (ho : getOp s k = some o)
    (hp : o.partOf h = some p) (hu : dUnit o.desc = 1) (hr : hearthRuns s h = true) (hd : hearthProofDue s h = false)
    (ha : s.flt.armed = [])
    (hres : o.kind = .update → accResidueBad s (opVia o (some (h / 5))) (leField o.desc 64 6 + 16 * p.lo) (o.groupEnd p - p.lo) = none)
    (hpre : (if (o.kind = .update && !p.checked) = true then expectCheck s (opVia o (some (h / 5))) o p else (.ok none, s)) =
      (.ok none, s1))
    (hc : computeGroup s1 (opVia o (some (h / 5))) k h o p = (.ok out, s2))
    (hb : (writesBlocked s2 (opVia o (some (h / 5))) out.writes).1 = false) :
    hearthGroup s k h none = commitGroup s2 (opVia o (some (h / 5))) k h o p out := by
  have hbad : (if o.kind = .update then accResidueBad s (opVia o (some (h / 5))) (leField o.desc 64 6 + 16 * p.lo) (o.groupEnd p - p.lo)
      else none) = none := by
    split
    · next hk => exact hres hk
    · rfl
  have hhit : takeHit s 2 h [.resHearth] none = (none, s) := takeHit_unarmed ha _ _ _
  unfold hearthGroup
  rw [ho]
  dsimp only
  rw [hp]
  dsimp only
  rw [if_neg (by simp [hu, hr, hd]), hbad]
  dsimp only [Option.or, Option.map]
  rw [hhit]
  dsimp only
  rw [hpre]
  dsimp only
  rw [hc]
  dsimp only
  generalize hwb : writesBlocked s2 (opVia o (some (h / 5))) out.writes = r at hb
  obtain ⟨x, s3⟩ := r
  obtain rfl : x = false := hb
  rfl

theorem vectorPart_written {k core : Nat} {o : OpRec} {p : Part} {out : PartOut} (ho : getOp s k = some o)
    (hp : o.partOf core = some p) (hu : dUnit o.desc = 0) (hf : s.flt.hubFault = false) (hw : clusterAwake s (core / 8) = true)
    (hd : bitOf s.rst.dieFence (core / 64) = false) (ha : s.flt.armed = [])
    (hc : computePart s (opVia o (some (core / 64))) o ((List.range (p.hi - p.lo)).map (· + p.lo)) = (.ok out, s1))
    (hb : (writesBlocked s1 (opVia o (some (core / 64))) out.writes).1 = false)
    (hwr : writeMany s1 (opVia o (some (core / 64))) false out.writes = (none, s2)) :
    vectorPart s k core none = setOp (tallyOp s2 core o out.tally) k (some { o.putPart core none with
      last := emberSource 1 core
      invalid := (o.putPart core none).invalid || decide (out.tally.invalid ≠ 0)
      finished := (o.putPart core none).parts.isEmpty }) := by
  have hhit : takeHit s 1 core [.resCore, .memUe] none = (none, s) := takeHit_unarmed ha _ _ _
  unfold vectorPart
  rw [ho]
  dsimp only
  rw [hp]
  dsimp only
  rw [if_neg (by simp [hu, hf, hw, hd]), hhit]
  dsimp only
  rw [hc]
  dsimp only
  generalize hwb : writesBlocked s1 (opVia o (some (core / 64))) out.writes = r at hb
  obtain ⟨x, s3⟩ := r
  obtain rfl : x = false := hb
  dsimp only
  rw [hwr]

/-! ### Remote accumulates -/

theorem remoteAccRequest_applied {pos : Nat} {r : RaReq} (hr : raReady s pos = some r) (ha : s.flt.armed = [])
    (hres : r.mode = 0 → accResidueBad s r.via r.addr r.codes.length = none) (hd : applyRa s r.via r.mode r.addr r.vals = (.ended 0, s1)) :
    remoteAccRequest s pos none = raEnded { s1 with raq := dropAt pos s1.raq } r 0 := by
  have hbad : (if r.mode = 0 then accResidueBad s r.via r.addr r.codes.length else none) = none := by
    split
    · next hm => exact hres hm
    · rfl
  have hhit : takeHit s 2 (raOwner s r) [.resHearth] none = (none, s) := takeHit_unarmed ha _ _ _
  unfold remoteAccRequest
  rw [hr]
  dsimp only
  rw [hbad]
  dsimp only [Option.or, Option.map]
  rw [hhit]
  dsimp only
  rw [hd]

theorem raEnded_of_operation {r : RaReq} (h : r.sender ≠ 1000) : raEnded s r 0 = finishIfDone s r.op := by
  unfold raEnded
  rw [if_neg h, if_pos rfl]

theorem raEnded_of_collective {r : RaReq} {c : Coll} (h : r.sender = 1000) (hc : s.cord.posted.find? (fun c => c.op == r.op) = some c) :
    raEnded s r 0 = collCheck s c.post := by
  unfold raEnded
  rw [if_pos h, hc]
  exact if_pos rfl

/-! ### First-touch copies -/

/-- What a read gives, nothing when it fails. -/
def bytesOf (f : Nat → Except MemErr (List Byte)) (j : Nat) : List Byte :=
  match f j with
  | .ok g => g
  | .error _ => []

theorem bytesOf_ok {f : Nat → Except MemErr (List Byte)} {j : Nat} {g : List Byte} (h : f j = .ok g) : bytesOf f j = g := by
  unfold bytesOf
  rw [h]

theorem bytesOf_error {f : Nat → Except MemErr (List Byte)} {j : Nat} {e : MemErr} (h : f j = .error e) : bytesOf f j = [] := by
  unfold bytesOf
  rw [h]

/-- Reads one after the other, none of which fails, give their bytes in order. -/
theorem foldl_reads {F : Except MemErr (List Byte) → Nat → Except MemErr (List Byte)} {f : Nat → Except MemErr (List Byte)}
    (hF : ∀ b j g, f j = .ok g → F (.ok b) j = .ok (b ++ g)) {l : List Nat} (h : ∀ j ∈ l, ∃ g, f j = .ok g) (b : List Byte) :
    l.foldl F (.ok b) = .ok (b ++ l.flatMap (bytesOf f)) := by
  induction l generalizing b with
  | nil => rw [List.flatMap_nil, List.append_nil]; rfl
  | cons j r ih =>
    obtain ⟨g, hj⟩ := h j (List.mem_cons_self ..)
    rw [List.foldl_cons, hF b j g hj, List.flatMap_cons, bytesOf_ok hj, ← List.append_assoc]
    exact ih (fun i hi => h i (List.mem_cons_of_mem _ hi)) _

/-- A granule of a page. -/
def pageGranule (s : State) (page j : Nat) : Except MemErr (List Byte) := physRead s (granulePhys page j) 4096

theorem firstTouchDone_copied {page : Nat} {q : PageSt} (hq : tget none s.ck.pages page = some q) (hp : q.phase = .copying)
    (hg : ∀ j ∈ maskGranules q.mask, ∃ g, pageGranule s page j = .ok g) :
    firstTouchDone s page = releaseHold (dcount (setPage s page
      (some { q with phase := .copied, copy := (maskGranules q.mask).flatMap (bytesOf (pageGranule s page)) })) Key.ftCopies) := by
  unfold firstTouchDone
  rw [hq]
  dsimp only
  rw [if_neg (not_not_intro hp), foldl_reads (f := pageGranule s page) ?_ hg, List.nil_append]
  intro b j g hj
  unfold pageGranule at hj
  generalize physRead s (granulePhys page j) 4096 = r at hj ⊢
  subst hj
  rfl

/-! ### Digests of pages -/

theorem enqueue_ck (s : State) (key : Nat) (f : TxFrame) : (enqueue s key f).ck = s.ck := rfl

theorem enqueue_mem (s : State) (key : Nat) (f : TxFrame) : (enqueue s key f).mem = s.mem := rfl

theorem queuePage_ck (s : State) (fz : Freeze) (peer k : Nat) : (queuePage s fz peer k).ck = s.ck :=
  foldl_keeps State.ck (fun st _ => enqueue_ck st _ _) _ _

theorem queuePage_mem (s : State) (fz : Freeze) (peer k : Nat) : (queuePage s fz peer k).mem = s.mem :=
  foldl_keeps State.mem (fun st _ => enqueue_mem st _ _) _ _

theorem hostPage_spec (s : State) (fz : Freeze) (k : Nat) (b : List Byte) :
    (hostPage s fz k b).ck = s.ck ∧ (hostPage s fz k b).mem = s.mem := by
  have hck (st : State) (m : OutMsg) : (toHost st m).ck = st.ck := by unfold toHost; split <;> rfl
  have hmem (st : State) (m : OutMsg) : (toHost st m).mem = st.mem := by unfold toHost; split <;> rfl
  exact ⟨foldl_keeps State.ck (fun _ _ => hck _ _) _ _, foldl_keeps State.mem (fun _ _ => hmem _ _) _ _⟩

theorem digestPage_enters {fz : Freeze} {u k : Nat} {b : List Byte} (hfz : s.ck.fz = some fz) (hst : fz.stream = true)
    (hk : nextSlot s fz u = some k) (hb : readSlot s fz k = .ok b) :
    ∃ fz1, (digestPage s u).ck.fz = some fz1 ∧ fz1.entries = tset [] fz.entries k
      (listEntry (fz.slot k).1 k (fz.slot k).2 (pageDigest (fz.slot k).1 (fz.slot k).2 b)) ∧ (digestPage s u).mem = s.mem := by
  unfold digestPage
  rw [hfz]
  dsimp only
  rw [if_neg (by simp [hst]), hk]
  dsimp only
  rw [hb]
  dsimp only
  refine ⟨{ fz with entries := _ }, ?_, rfl, ?_⟩
  · split
    · rw [(hostPage_spec _ _ _ _).1]
      split
      · rfl
      · exact congrArg CkSys.fz (queuePage_ck _ _ _ _)
    · split
      · rfl
      · exact congrArg CkSys.fz (queuePage_ck _ _ _ _)
  · split
    · rw [(hostPage_spec _ _ _ _).2]
      split
      · rfl
      · rw [queuePage_mem]
    · split
      · rfl
      · rw [queuePage_mem]

/-! ### Fences of channels -/

/-- A raised fault is on its way, or held at its source, alone or merged with one of its mechanism. -/
theorem raiseFault_formed (s : State) (m : FaultMsg) :
    ∃ f, (f ∈ (raiseFault s m).flt.faultq ∨ f ∈ (raiseFault s m).flt.held) ∧ f.mech = m.mech ∧ f.src = m.src := by
  unfold raiseFault postFault
  dsimp only
  split
  · exact ⟨_, .inl (List.mem_append_right _ (List.mem_singleton_self _)), rfl, rfl⟩
  · split
    · next hany =>
      obtain ⟨x, hx, hm⟩ := List.any_eq_true.1 hany
      obtain ⟨hsrc, hmech⟩ := Bool.and_eq_true_iff.1 hm
      exact ⟨_, .inr (List.mem_map.2 ⟨x, hx, if_pos hm⟩), eq_of_beq hmech, eq_of_beq hsrc⟩
    · exact ⟨_, .inr (List.mem_append_right _ (List.mem_singleton_self _)), rfl, rfl⟩

theorem fenceChannel_live {st c : Nat} (hok : s.dictOk) (hl : chanLive s.mem st c = true) (hf : chanFenced s.mem st c = false) :
    ∃ s1, fenceChannel s st c = ckFenced s1 st c ∧ chanFenced s1.mem st c = true ∧
      bitOf (dget s1 (Key.mapoutReq + st)) c = true ∧ s1.mem.cells = s.mem.cells ∧
      (∀ p ∈ s1.mem.cache, atomChannel p.1 ≠ 32 * st + c) ∧
      (∃ o ∈ s1.ev.occq, o.ctl = 32 + dieOfStack st ∧ o.ev.source = 0x0302) ∧
      ∃ f, (f ∈ s1.flt.faultq ∨ f ∈ s1.flt.held) ∧ f.mech = .fence ∧ f.src = 2 * 4096 + st := by
  have hne : setBit (tget 0 s.mem.fenced st) c true ≠ 0 := by
    intro h0
    have hbit := bitOf_setBit (tget 0 s.mem.fenced st) c c true
    rw [h0, if_pos rfl] at hbit
    simp [bitOf] at hbit
  unfold fenceChannel
  rw [if_neg (by simp [hl, hf])]
  dsimp only
  refine ⟨_, rfl, ?_, ?_, rfl, ?_, ?_, ?_⟩
  · show bitOf (tget 0 (tset 0 s.mem.fenced st (setBit (tget 0 s.mem.fenced st) c true)) st) c = true
    rw [tget_tset_new hne, if_pos rfl, bitOf_setBit, if_pos rfl]
  · show bitOf (dget (dset s (Key.mapoutReq + st) (setBit (dget s (Key.mapoutReq + st)) c true)) (Key.mapoutReq + st)) c = true
    rw [dget_dset_same hok, bitOf_setBit, if_pos rfl]
  · intro p hp
    have hkeep : (!(atomChannel p.1 == 32 * st + c)) = true := (List.mem_filter.1 hp).2
    simpa using hkeep
  · exact ⟨_, List.mem_append_right _ (List.mem_singleton_self _), rfl, rfl⟩
  · exact raiseFault_formed _ _

/-! ### Scrubbing -/

theorem scrubVisit_quiet {h : Nat} (h1 : dget s Key.scrubHours ≠ 0) (h2 : stackHeld s h = false) (h3 : bitOf s.mem.selfRefresh h = false)
    (h4 : bitOf s.rst.dieFence (h / 5) = false) (h5 : s.q.memReady = true) (ha : s.flt.armed = []) :
    ∃ u, scrubVisit s h .none = u ∧ u.mem.cells = s.mem.cells ∧ u.mem.cache = s.mem.cache ∧ u.dict = s.dict ∧
      u.flt = s.flt ∧ u.mem.scrubPos = tset 0 s.mem.scrubPos h
        (if scrubEnd ≤ scrubPlace s h (tget 0 s.mem.scrubPos h) + 1 then 0
         else scrubPlace s h (tget 0 s.mem.scrubPos h) + 1) := by
  have hread : (if isPoisoned s.mem (scrubLoc h (scrubPlace s h (tget 0 s.mem.scrubPos h))).atom = true
      then { s with mem := { s.mem with idleRefresh := setBit s.mem.idleRefresh h false } }
      else atomError { s with mem := { s.mem with idleRefresh := setBit s.mem.idleRefresh h false } }
        (scrubLoc h (scrubPlace s h (tget 0 s.mem.scrubPos h))) .none) =
      { s with mem := { s.mem with idleRefresh := setBit s.mem.idleRefresh h false } } := by
    split
    · rfl
    · exact atomError_quiet (s := { s with mem := { s.mem with idleRefresh := setBit s.mem.idleRefresh h false } }) ha _
  unfold scrubVisit
  rw [if_neg (by simp [h1, h2, h3, h4, h5])]
  dsimp only
  rw [hread]
  split
  · exact ⟨_, rfl, rfl, rfl, rfl, rfl, rfl⟩
  · exact ⟨_, rfl, rfl, rfl, rfl, rfl, rfl⟩

/-- Settles O32. -/
theorem unitsAndUpkeepComplete : Obligations.UnitsAndUpkeepComplete := by
  unfold Obligations.UnitsAndUpkeepComplete
  refine ⟨?_, ?_, ?_, ?_, ?_, ?_, ?_⟩
  · intro s s1 s2 s3 k h o p out ho hp hu hr hd ha hres hpre hc hb hw
    have hmem1 : MemOnly s s1 := by
      have hx : MemOnly s (if (o.kind = .update && !p.checked) = true then expectCheck s (opVia o (some (h.val / 5))) o p
          else (.ok none, s)).2 := by
        split
        · exact expectCheck_memOnly (.refl s)
        · exact .refl s
      rwa [hpre] at hx
    have hmem : MemOnly s s3 := .snd hw (writeMany_memOnly (.snd hc (computeGroup_memOnly hmem1)))
    obtain ⟨o1, hm, hraq, hgroups, hget, hparts, htally⟩ :=
      commitGroup_written (v := opVia o (some (h.val / 5))) (k := k) (h := h.val) (o := o) (p := p) hw
    rw [hmem.raq] at hraq
    rw [hmem.flt] at hgroups
    exact ⟨_, o1, completes_of rfl (hearthGroup_commits ho hp hu hr hd ha hres hpre hc hb), hm, hraq, hgroups, hget, hparts, htally⟩
  · intro s s1 s2 k c o p out ho hp hu hf hw hd ha hc hb hwr
    exact ⟨_, _, completes_of rfl (vectorPart_written ho hp hu hf hw hd ha hc hb hwr), (tallyOp_bookSide (.refl s2)).mem,
      getOp_setOp.trans (if_pos rfl), rfl, rfl⟩
  · intro s s1 pos r hr ha hres hd
    have he := remoteAccRequest_applied hr ha hres hd
    refine ⟨fun hop => ?_, fun c hcoll hc => ?_⟩
    · exact completes_of rfl (congrArg pump (he.trans (raEnded_of_operation hop)))
    · exact completes_of rfl (congrArg pump (he.trans
        (raEnded_of_collective (s := { s1 with raq := dropAt pos s1.raq }) hcoll hc)))
  · intro s page q hq hp hg
    refine ⟨_, _, completes_of rfl (congrArg memoryAgain (firstTouchDone_copied hq hp hg)), rfl, rfl, rfl, ?_⟩
    refine congrArg (fun f => (maskGranules q.mask).flatMap f) (funext fun j => ?_)
    cases hj : physRead s (granulePhys page j) 4096 with
    | ok g => exact bytesOf_ok (f := pageGranule s page) hj
    | error e => exact bytesOf_error (f := pageGranule s page) hj
  · intro s n fz k b hfz hst hk hb
    obtain ⟨fz1, hfz1, hentries, hmem⟩ := digestPage_enters hfz hst hk hb
    exact ⟨_, fz1, completes_of rfl rfl, hfz1, hentries, hmem⟩
  · intro s h c hok hl hf
    obtain ⟨s1, he, hspec⟩ := fenceChannel_live hok hl hf
    exact ⟨s1, completes_of rfl he, hspec⟩
  · intro s h h1 h2 h3 h4 h5 ha
    obtain ⟨u, he, hspec⟩ := scrubVisit_quiet h1 h2 h3 h4 h5 ha
    exact ⟨u, completes_of rfl he, hspec⟩

end Sys2Proof.Machine
end

