-- ==== Sys2Proof/Proofs/StackHeat.lean ====
section
/-!
PROOF. Temperatures of stacks and clocks of islands (R54, R288).
-/

namespace Sys2Proof.Machine

variable {s : State}

/-! ### The level of a stack -/

/-- The highest level that a temperature enters below Critical. -/
def enteredLevel (t : Int) : Nat := if 105 * 16 ≤ t then 3 else if 95 * 16 ≤ t then 2 else if 85 * 16 ≤ t then 1 else 0

/-- The highest level up to `l` that a temperature does not leave. -/
def keptLevel (l : Nat) (t : Int) : Nat :=
  if t < 82 * 16 then 0 else if t < 92 * 16 then min l 1 else if t < 100 * 16 then min l 2 else l

theorem fallTo_stackLeave {l : Nat} (t : Int) (h : l < 4) : fallTo stackLeave t l = keptLevel l t := by
  unfold keptLevel
  obtain rfl | rfl | rfl | rfl : l = 0 ∨ l = 1 ∨ l = 2 ∨ l = 3 := by omega
  all_goals
    simp only [fallTo, stackLeave]
    (repeat' split) <;> omega

theorem riseTo_stackEnter {l : Nat} (t : Int) (h : l < 4) :
    riseTo stackEnter 4 t 4 l = if 110 * 16 ≤ t then 4 else max l (enteredLevel t) := by
  unfold enteredLevel
  obtain rfl | rfl | rfl | rfl : l = 0 ∨ l = 1 ∨ l = 2 ∨ l = 3 := by omega
  all_goals
    simp only [riseTo, stackEnter]
    (repeat' split) <;> omega

theorem stackLevel_eq {l : Nat} (t : Int) (h : l < 4) :
    stackLevel l t = if 110 * 16 ≤ t then 4 else keptLevel (max l (enteredLevel t)) t := by
  have hmax : max l (enteredLevel t) < 4 := by unfold enteredLevel; (repeat' split) <;> omega
  unfold stackLevel
  dsimp only
  rw [if_neg (by omega), riseTo_stackEnter t h]
  split
  · rfl
  · rw [if_neg (by omega), fallTo_stackLeave t hmax]

/-- In a band of temperatures the level rises to the one entered, and falls to the highest one kept. -/
theorem stackLevel_of_band {l e k : Nat} {t : Int} (he : enteredLevel t = e) (hk : ∀ j < 4, keptLevel j t = min j k) (hl : l < 4)
    (ht : t < 110 * 16) (he4 : e < 4 := by decide) : stackLevel l t = min (max l e) k := by
  rw [stackLevel_eq t hl, if_neg (by omega), he, hk _ (by omega)]

/-- The level entered in a band. -/
theorem enteredLevel_of {t : Int} {e : Nat} (h : (105 * 16 ≤ t ∧ e = 3) ∨ (95 * 16 ≤ t ∧ t < 105 * 16 ∧ e = 2) ∨
    (85 * 16 ≤ t ∧ t < 95 * 16 ∧ e = 1) ∨ (t < 85 * 16 ∧ e = 0)) : enteredLevel t = e := by
  unfold enteredLevel
  (repeat' split) <;> omega

/-- The highest level kept in a band. -/
theorem keptLevel_of {t : Int} {k : Nat} (h : (100 * 16 ≤ t ∧ k = 3) ∨ (92 * 16 ≤ t ∧ t < 100 * 16 ∧ k = 2) ∨
    (82 * 16 ≤ t ∧ t < 92 * 16 ∧ k = 1) ∨ (t < 82 * 16 ∧ k = 0)) : ∀ j < 4, keptLevel j t = min j k := by
  intro j hj
  unfold keptLevel
  (repeat' split) <;> omega

/-! ### A reading -/

/-- The temperature entry after a reading. -/
def readingShown (s : State) (h : Nat) (t : Option Int) : State :=
  dset s (Key.stackTemp + h) (match t with | none => 0x7FFF | some x => signed16 x)

/-- A stack goes to a level: its entry, its self-refresh and the event. -/
def stackMoved (s : State) (h n : Nat) : State :=
  let s2 := dset s (Key.stackThermal + h) n
  localEvent { s2 with mem := { s2.mem with selfRefresh := setBit s2.mem.selfRefresh h (decide (n ≥ 3)) } }
    (32 + dieOfStack h) (8 * (h % 5) + 4) 0x0300 2 0 0

theorem readingShown_dictOk {h : Nat} {t : Option Int} (hok : s.dictOk) : (readingShown s h t).dictOk := dset_dictOk hok

theorem readingShown_level {h : Nat} {t : Option Int} (hok : s.dictOk) (_hh : h < 20) :
    dget (readingShown s h t) (Key.stackThermal + h) = dget s (Key.stackThermal + h) :=
  dget_dset_ne hok (by unfold Key.stackThermal Key.stackTemp; omega)

/-- A stack whose level was `old` goes to the level `new`, with its fences and the requests it lets go. -/
def stackGoes (s : State) (h old new : Nat) : State :=
  if new = old then s
  else
    let s4 := if new = 4 then fenceStack (stackMoved s h new) h else stackMoved s h new
    pump (heatNotices (if (decide (old ≥ 3) && decide (new < 3)) = true then releaseHold s4 else s4))

theorem stackReading_eq {h : Nat} {t : Option Int} (hh : h < 20) (hok : s.dictOk) (hm : s.q.memReady = true) :
    stackReading s h t = stackGoes (readingShown s h t) h (dget s (Key.stackThermal + h))
      (stackLevel (dget s (Key.stackThermal + h)) (t.getD 1680)) := by
  have hread : stackReading s h t = stackGoes (readingShown s h t) h (dget (readingShown s h t) (Key.stackThermal + h))
      (stackLevel (dget (readingShown s h t) (Key.stackThermal + h)) (t.getD 1680)) := by
    unfold stackReading
    rw [if_neg (by simp [hm]; omega)]
    rfl
  rw [hread, readingShown_level hok hh]

theorem stackGoes_ne {h old new : Nat} (hn : new ≠ old) :
    stackGoes s h old new = pump (heatNotices (if (decide (old ≥ 3) && decide (new < 3)) = true then
        releaseHold (if new = 4 then fenceStack (stackMoved s h new) h else stackMoved s h new)
      else if new = 4 then fenceStack (stackMoved s h new) h else stackMoved s h new)) := if_neg hn

theorem stackMoved_level {h n : Nat} (hok : s.dictOk) : dget (stackMoved s h n) (Key.stackThermal + h) = n := dget_dset_same hok

theorem stackMoved_selfRefresh {h n : Nat} : bitOf (stackMoved s h n).mem.selfRefresh h = decide (3 ≤ n) :=
  (bitOf_setBit _ _ _ _).trans (if_pos rfl)

/-- Settles O33. -/
theorem stackHeatAndClocksComplete : Obligations.StackHeatAndClocksComplete := by
  unfold Obligations.StackHeatAndClocksComplete
  refine ⟨?_, ?_, ?_, ?_, ?_, ?_, ?_⟩
  · intro s h t hok hm
    refine ⟨fun hl => ?_, fun n hl hn h4 => ?_, fun hl hn => ?_⟩
    · exact completes_of rfl (congrArg memoryAgain ((stackReading_eq h.isLt hok hm).trans (if_pos hl)))
    · have hmove := (stackReading_eq (t := t) h.isLt hok hm).trans (stackGoes_ne (hl ▸ hn))
      rw [hl] at hmove
      rw [if_neg (by omega : ¬n = 4)] at hmove
      have hok1 := readingShown_dictOk (h := h.val) (t := t) hok
      split at hmove
      · next hrel =>
        refine ⟨_, completes_of rfl (congrArg memoryAgain hmove), stackMoved_level hok1, stackMoved_selfRefresh, rfl, fun h3 p hp => .inl ?_⟩
        intro he
        have hheld : stackHeld (stackMoved (readingShown s h t) h n) p.1 = true := (List.mem_filter.1 hp).2
        unfold stackHeld at hheld
        rw [he, stackMoved_level hok1] at hheld
        exact absurd (of_decide_eq_true hheld) (by omega)
      · next hrel =>
        refine ⟨_, completes_of rfl (congrArg memoryAgain hmove), stackMoved_level hok1, stackMoved_selfRefresh, rfl, fun h3 p hp => .inr ?_⟩
        simp only [Bool.and_eq_true, decide_eq_true_eq] at hrel
        omega
    · have hmove := (stackReading_eq (t := t) h.isLt hok hm).trans (stackGoes_ne (hl ▸ hn.symm))
      rw [hl] at hmove
      rw [if_neg (by simp), if_pos rfl] at hmove
      exact ⟨_, completes_of rfl (congrArg memoryAgain hmove), stackMoved_level (readingShown_dictOk hok), stackMoved_selfRefresh⟩
  · intro s h hm
    refine completes_of rfl ?_
    unfold islandLost
    exact if_neg (by simp [hm])
  · intro s l hq
    refine completes_of rfl ?_
    unfold islandLost
    exact if_pos hq
  · intro s hoff hmrst hb
    refine completes_of rfl ?_
    unfold islandLost
    exact if_neg (by simp [hoff, hmrst, hb])
  · intro s p h0 h3
    refine completes_of rfl ?_
    unfold islandLost
    exact if_neg (by simp [h0, h3])
  · intro s
    exact ⟨fun h => completes_of rfl (if_neg h), fun h => completes_of rfl (if_pos h)⟩
  · intro t
    refine ⟨fun l hl h => ?_, fun l hl h h' => ?_, fun h h' => ?_, fun h h' => ?_, fun h h' => ?_, fun h h' l hl => ?_, fun h h' => ?_,
      fun h l hl => ?_, rfl⟩
    · rw [stackLevel_eq t hl, if_pos h]
    · have level (l : Nat) (hl : l < 4) : stackLevel l t = min (max l 3) 3 :=
        stackLevel_of_band (enteredLevel_of (by omega)) (keptLevel_of (by omega)) hl (by omega)
      exact (level l hl).trans (by omega)
    · have level (l : Nat) (hl : l < 4) : stackLevel l t = min (max l 2) 2 :=
        stackLevel_of_band (enteredLevel_of (by omega)) (keptLevel_of (by omega)) hl (by omega)
      exact ⟨level 0 (by decide), level 1 (by decide), level 2 (by decide), level 3 (by decide)⟩
    · have level (l : Nat) (hl : l < 4) : stackLevel l t = min (max l 2) 3 :=
        stackLevel_of_band (enteredLevel_of (by omega)) (keptLevel_of (by omega)) hl (by omega)
      exact ⟨level 0 (by decide), level 1 (by decide), level 2 (by decide), level 3 (by decide)⟩
    · have level (l : Nat) (hl : l < 4) : stackLevel l t = min (max l 1) 2 :=
        stackLevel_of_band (enteredLevel_of (by omega)) (keptLevel_of (by omega)) hl (by omega)
      exact ⟨level 0 (by decide), level 1 (by decide), level 2 (by decide), level 3 (by decide)⟩
    · have level (l : Nat) (hl : l < 4) : stackLevel l t = min (max l 1) 1 :=
        stackLevel_of_band (enteredLevel_of (by omega)) (keptLevel_of (by omega)) hl (by omega)
      exact (level l hl).trans (by omega)
    · have level (l : Nat) (hl : l < 4) : stackLevel l t = min (max l 0) 1 :=
        stackLevel_of_band (enteredLevel_of (by omega)) (keptLevel_of (by omega)) hl (by omega)
      exact ⟨level 0 (by decide), fun l h0 hl => (level l hl).trans (by omega)⟩
    · have level (l : Nat) (hl : l < 4) : stackLevel l t = min (max l 0) 0 :=
        stackLevel_of_band (enteredLevel_of (by omega)) (keptLevel_of (by omega)) hl (by omega)
      exact (level l hl).trans (by omega)

end Sys2Proof.Machine
end

