-- ==== Sys2Proof/Proofs/Paced.lean ====
section
/-!
PROOF. A budget window's measures leave the voltage it chose and the ready work items as they are.
-/

namespace Sys2Proof.Machine

set_option linter.unusedSimpArgs false

/-- The draught voltage and the ready work items are as in `u`. -/
def Paced (u t : State) : Prop := t.pw.vc = u.pw.vc ∧ t.q.ready = u.q.ready

variable {v : State}

/-- `Paced` of a state's parts. -/
def PacedC (v : State) (x_vc : Nat) (x_ready : List WorkItem) : Prop := x_vc = v.pw.vc ∧ x_ready = v.q.ready

theorem Paced.mk_iff x_pending x_free x_dict x_mem x_ev x_flt x_knotq x_knots x_knotsLost x_engines x_ops x_nextOp
    x_jobs x_raq x_storm x_reports x_gens x_tlines x_tin x_tout x_swapJob x_swapped x_seqs x_saved x_q x_pcie x_pw
    x_cord x_ck x_snap x_rst x_flash x_dsys x_sec x_d3 x_heldHost x_out :
    Paced v (State.mk x_pending x_free x_dict x_mem x_ev x_flt x_knotq x_knots x_knotsLost x_engines x_ops x_nextOp
      x_jobs x_raq x_storm x_reports x_gens x_tlines x_tin x_tout x_swapJob x_swapped x_seqs x_saved x_q x_pcie x_pw
      x_cord x_ck x_snap x_rst x_flash x_dsys x_sec x_d3 x_heldHost x_out) =
      PacedC v x_pw.vc x_q.ready :=
  Eq.trans rfl rfl

theorem Paced.c {s : State} (h : Paced v s) : PacedC v s.pw.vc s.q.ready := h

theorem Paced.refl (s : State) : Paced s s := ⟨rfl, rfl⟩

theorem Paced.trans {s t u : State} (h : Paced s t) (h' : Paced t u) : Paced s u :=
  ⟨(h'.1).trans h.1, (h'.2).trans h.2⟩

/-- Reading and writing memory is within it. -/
theorem MemOnly.paced {s t : State} (h : MemOnly s t) : Paced s t :=
  ⟨congrArg (·.vc) h.pw, congrArg (·.ready) h.q⟩

theorem Paced.snd {α : Type} {r : α × State} {x : α} {t : State} (e : r = (x, t)) (h : Paced v r.2) : Paced v t := by
  subst e; exact h

theorem Paced.fst {α : Type} {r : State × α} {x : α} {t : State} (e : r = (t, x)) (h : Paced v r.1) : Paced v t := by
  subst e; exact h

theorem Paced.foldl {α : Type} {f : State → α → State} {l : List α} {s : State}
    (hf : ∀ t x, Paced v t → Paced v (f t x)) (h : Paced v s) : Paced v (l.foldl f s) := by
  induction l generalizing s with
  | nil => exact h
  | cons x r ih => exact ih (hf s x h)

theorem Paced.foldlFst {α β : Type} {f : State × β → α → State × β} {l : List α} {s : State × β}
    (hf : ∀ t x, Paced v t.1 → Paced v (f t x).1) (h : Paced v s.1) : Paced v (l.foldl f s).1 := by
  induction l generalizing s with
  | nil => exact h
  | cons x r ih => exact ih (hf s x h)

theorem Paced.foldlSnd {α β : Type} {f : β × State → α → β × State} {l : List α} {s : β × State}
    (hf : ∀ t x, Paced v t.2 → Paced v (f t x).2) (h : Paced v s.2) : Paced v (l.foldl f s).2 := by
  induction l generalizing s with
  | nil => exact h
  | cons x r ih => exact ih (hf s x h)

/-- Of an outcome that may be none. -/
def PacedO (v : State) (o : Option State) : Prop := ∀ t, o = some t → Paced v t

theorem PacedO.use {o : Option State} {t : State} (e : o = some t) (h : PacedO v o) : Paced v t := h t e
theorem PacedO.none : PacedO v none := fun _ e => nomatch e
theorem PacedO.some {t : State} (h : Paced v t) : PacedO v (some t) := fun _ e => by cases e; exact h

theorem PacedO.getD {o : Option State} {s : State} (h : PacedO v o) (h' : Paced v s) : Paced v (o.getD s) := by
  cases o with
  | none => exact h'
  | some t => exact h t rfl

theorem Paced.foldlSndEq {α β : Type} {f : β × State → α → β × State} {l : List α} {s : β × State}
    (hf : ∀ t x r, f t x = r → Paced v t.2 → Paced v r.2) (h : Paced v s.2) : Paced v (l.foldl f s).2 :=
  Paced.foldlSnd (fun t x => hf t x _ rfl) h

theorem atomWrite_paced {s : State} {a1 : Via} {cached : Bool} {l : Loc} {b : List Byte} (h : Paced v s) : Paced v
    (atomWrite s a1 cached l b).2 :=
  h.trans (MemOnly.paced (atomWrite_memOnly (.refl s)))

theorem devWrite_paced {s : State} {a1 : Via} {bulk : Bool} {a : Nat} {b : List Byte} (h : Paced v s) : Paced v
    (devWrite s a1 bulk a b).2 :=
  h.trans (MemOnly.paced (devWrite_memOnly (.refl s)))

theorem dset_paced {s : State} {key : Nat} {a2 : Nat} (h : Paced v s) :
    Paced v (dset s key a2) := by
  unfold dset
  repeat' first
    | (with_reducible first | assumption | intro _ | apply Paced.c)
    | (simp only [Paced.mk_iff])
    | split

theorem toHost_paced {s : State} {m : OutMsg} (h : Paced v s) :
    Paced v (toHost s m) := by
  unfold toHost
  repeat' first
    | (with_reducible first | assumption | intro _ | apply Paced.c)
    | (simp only [Paced.mk_iff])
    | split

theorem sendOut_paced {s : State} {m : OutMsg} (h : Paced v s) :
    Paced v (sendOut s m) := by
  unfold sendOut
  repeat' first
    | (with_reducible first | assumption | intro _ | apply Paced.c)
    | (simp only [Paced.mk_iff])
    | split

theorem hubEvent_paced {s : State} {source : Nat} {code : Nat} {data : Nat} {kind : Nat} (h : Paced v s) :
    Paced v (hubEvent s source code data kind) := by
  unfold hubEvent
  repeat' first
    | (with_reducible first | assumption | intro _ | apply Paced.c)
    | (simp only [Paced.mk_iff])
    | split

theorem localEvent_paced {s : State} {ctl : Nat} {bit : Nat} {source : Nat} {kind : Nat} {code : Nat} {data : Nat} (h
    : Paced v s) :
    Paced v (localEvent s ctl bit source kind code data) := by
  unfold localEvent
  repeat' first
    | (with_reducible first | assumption | intro _ | apply Paced.c)
    | (simp only [Paced.mk_iff])
    | split

theorem hubNotice_paced {s : State} {source : Nat} {what : List Nat} (h : Paced v s) :
    Paced v (hubNotice s source what) := by
  unfold hubNotice
  repeat' first
    | (with_reducible first | assumption | intro _ | apply hubEvent_paced | apply Paced.c)
    | (simp only [Paced.mk_iff])
    | split

theorem sendEmber_paced {s : State} {src : Nat} {dst : Nat} {w : EmberWhat} (h : Paced v s) :
    Paced v (sendEmber s src dst w) := by
  unfold sendEmber
  repeat' first
    | (with_reducible first | assumption | intro _ | apply Paced.c)
    | (simp only [Paced.mk_iff])
    | split

theorem releaseHold_paced {s : State} (h : Paced v s) :
    Paced v (releaseHold s) := by
  unfold releaseHold
  repeat' first
    | (with_reducible first | assumption | intro _ | apply Paced.c)
    | (simp only [Paced.mk_iff])
    | split

theorem putTctl_paced {s : State} {t : Nat} {idle : Bool} {runpri : Nat} {thresh : Nat} {stack : List Nat} (h : Paced
    v s) :
    Paced v (putTctl s t idle runpri thresh stack) := by
  unfold putTctl
  repeat' first
    | (with_reducible first | assumption | intro _ | apply dset_paced | apply Paced.c)
    | (simp only [Paced.mk_iff])
    | split

theorem deliverAt_paced {s : State} {r : Nat} {p : Nat} {t : Nat} (h : Paced v s) :
    Paced v (deliverAt s r p t) := by
  unfold deliverAt
  repeat' first
    | (with_reducible first | assumption | intro _ | apply toHost_paced | apply sendOut_paced | apply putTctl_paced)
    | (with_reducible first | apply Paced.c)
    | (simp only [Paced.mk_iff])
    | split

theorem deliverRing_paced {s : State} {r : Nat} (h : Paced v s) :
    Paced v (deliverRing s r) := by
  unfold deliverRing
  repeat' first
    | (with_reducible first | assumption | intro _ | apply deliverAt_paced | apply Paced.c)
    | (simp only [Paced.mk_iff])
    | split

theorem raiseRing_paced {s : State} {r : Nat} (h : Paced v s) :
    Paced v (raiseRing s r) := by
  unfold raiseRing
  repeat' first
    | (with_reducible first | assumption | intro _ | apply deliverRing_paced | apply Paced.c)
    | (simp only [Paced.mk_iff])
    | split

theorem withdrawTarget_paced {s : State} {t : Nat} (h : Paced v s) :
    Paced v (withdrawTarget s t) := by
  unfold withdrawTarget
  repeat' first
    | (with_reducible first | assumption | intro _ | apply Paced.foldl | apply Paced.foldlFst)
    | (with_reducible first | apply Paced.foldlSnd | apply putTctl_paced | apply raiseRing_paced | apply Paced.c)
    | (simp only [Paced.mk_iff])
    | split

theorem setEng_paced {s : State} {e : Nat} {g : Engine} (h : Paced v s) :
    Paced v (setEng s e g) := by
  unfold setEng
  repeat' first
    | (with_reducible first | assumption | intro _ | apply Paced.c)
    | (simp only [Paced.mk_iff])
    | split

theorem setSeq_paced {s : State} {q : Nat} {r : Seqr} (h : Paced v s) :
    Paced v (setSeq s q r) := by
  unfold setSeq
  repeat' first
    | (with_reducible first | assumption | intro _ | apply Paced.c)
    | (simp only [Paced.mk_iff])
    | split

theorem setStrand_paced {s : State} {q : Nat} {st : Option Strand} (h : Paced v s) :
    Paced v (setStrand s q st) := by
  unfold setStrand
  repeat' first
    | (with_reducible first | assumption | intro _ | apply setSeq_paced | apply Paced.c)
    | (simp only [Paced.mk_iff])
    | split

theorem setCluster_paced {s : State} {c : Nat} {p : ClusterPw} (h : Paced v s) :
    Paced v (setCluster s c p) := by
  unfold setCluster
  repeat' first
    | (with_reducible first | assumption | intro _ | apply Paced.c)
    | (simp only [Paced.mk_iff])
    | split

theorem writeRecord_paced {s : State} {q : Nat} {a : Nat} {b : List Byte} (h : Paced v s) :
    Paced v (writeRecord s q a b) := by
  unfold writeRecord
  repeat' first
    | (with_reducible first | assumption | intro _ | apply devWrite_paced | apply Paced.c)
    | (with_reducible refine Paced.snd (by assumption) ?_)
    | (simp only [Paced.mk_iff])
    | split

theorem saveStrand_paced {s : State} {q : Nat} {st : Strand} (h : Paced v s) : PacedO v (saveStrand s q st) := by
  unfold saveStrand
  dsimp only
  split
  · exact .none
  · next r _ =>
    exact .some (show Paced v (setStrand (writeRecord s q ((strandJob s st).saveBase + 512 * r) (saveBytes s q st)) q none) from
      setStrand_paced (writeRecord_paced h))

theorem physWritePieces_paced {s : State} {a1 : List (Nat × Nat)} {a2 : List Byte} (h : Paced v s) :
    Paced v (physWritePieces s a1 a2).2 := by
  induction a1 generalizing s a2 with
  | nil =>
    unfold physWritePieces
    repeat' first
      | (with_reducible first | assumption | intro _ | apply atomWrite_paced | apply Paced.c)
      | (with_reducible refine Paced.snd (by assumption) ?_)
      | (simp only [Paced.mk_iff])
      | split
  | cons x r ih =>
    unfold physWritePieces
    repeat' first
      | (with_reducible first | assumption | intro _ | apply atomWrite_paced | apply ih | apply Paced.c)
      | (with_reducible refine Paced.snd (by assumption) ?_)
      | (simp only [Paced.mk_iff])
      | split

theorem physWrite_paced {s : State} {a : Nat} {b : List Byte} (h : Paced v s) :
    Paced v (physWrite s a b).2 := by
  unfold physWrite
  repeat' first
    | (with_reducible first | assumption | intro _ | apply physWritePieces_paced | apply Paced.c)
    | (with_reducible refine Paced.snd (by assumption) ?_)
    | (simp only [Paced.mk_iff])
    | split

theorem setChan_paced {s : State} {k : Nat} {c : Chan} (h : Paced v s) :
    Paced v (setChan s k c) := by
  unfold setChan
  repeat' first
    | (with_reducible first | assumption | intro _ | apply Paced.c)
    | (simp only [Paced.mk_iff])
    | split

theorem enqueue_paced {s : State} {key : Nat} {f : TxFrame} (h : Paced v s) :
    Paced v (enqueue s key f) := by
  unfold enqueue
  repeat' first
    | (with_reducible first | assumption | intro _ | apply setChan_paced | apply Paced.c)
    | (simp only [Paced.mk_iff])
    | split

theorem latchBank_paced {s : State} {cut : Nat} {status : Nat} {key : Nat} (h : Paced v s) :
    Paced v (latchBank s cut status key) := by
  unfold latchBank
  repeat' first
    | (with_reducible first | assumption | intro _ | apply Paced.c)
    | (simp only [Paced.mk_iff])
    | split

theorem launchWave_paced {s : State} {freeze : Bool} {number : Nat} {xnum : Nat} {xorigin : Nat} (h : Paced v s) :
    Paced v (launchWave s freeze number xnum xorigin) := by
  unfold launchWave
  repeat' first
    | (with_reducible first | assumption | intro _ | apply Paced.foldl | apply Paced.foldlFst)
    | (with_reducible first | apply Paced.foldlSnd | apply dset_paced | apply latchBank_paced | apply Paced.c)
    | (simp only [Paced.mk_iff])
    | split

theorem endWave_paced {s : State} (h : Paced v s) :
    Paced v (endWave s) := by
  unfold endWave
  repeat' first
    | (with_reducible first | assumption | intro _ | apply Paced.c)
    | (simp only [Paced.mk_iff])
    | split

theorem waveOff_paced {s : State} {cluster : Nat} (h : Paced v s) :
    Paced v (waveOff s cluster) := by
  unfold waveOff
  repeat' first
    | (with_reducible first | assumption | intro _ | apply Paced.foldl | apply Paced.foldlFst)
    | (with_reducible first | apply Paced.foldlSnd | apply dset_paced | apply latchBank_paced | apply Paced.c)
    | (simp only [Paced.mk_iff])
    | split

theorem sendCtrl_paced {s : State} {peer : Nat} {code : Nat} {gen : Nat} {elem : Nat} {payload : List Byte} (h : Paced
    v s) :
    Paced v (sendCtrl s peer code gen elem payload) := by
  unfold sendCtrl
  repeat' first
    | (with_reducible first | assumption | intro _ | apply enqueue_paced | apply Paced.c)
    | (simp only [Paced.mk_iff])
    | split

theorem dropStream_paced {s : State} {which : Nat} (h : Paced v s) :
    Paced v (dropStream s which) := by
  unfold dropStream
  repeat' first
    | (with_reducible first | assumption | intro _ | apply Paced.c)
    | (simp only [Paced.mk_iff])
    | split

theorem setFreezeState_paced {s : State} {a1 : Nat} (h : Paced v s) :
    Paced v (setFreezeState s a1) := by
  unfold setFreezeState
  repeat' first
    | (with_reducible first | assumption | intro _ | apply dset_paced | apply Paced.c)
    | (simp only [Paced.mk_iff])
    | split

theorem freezeFail_paced {s : State} {cause : FreezeCause} (h : Paced v s) :
    Paced v (freezeFail s cause) := by
  unfold freezeFail
  repeat' first
    | (with_reducible first | assumption | intro _ | apply dropStream_paced | apply hubNotice_paced)
    | (with_reducible first | apply releaseHold_paced | apply sendCtrl_paced | apply setFreezeState_paced)
    | (with_reducible first | apply Paced.c)
    | (simp only [Paced.mk_iff])
    | split

theorem launchFreeze_paced {s : State} {gen : Nat} (h : Paced v s) :
    Paced v (launchFreeze s gen) := by
  unfold launchFreeze
  repeat' first
    | (with_reducible first | assumption | intro _ | apply launchWave_paced | apply Paced.c)
    | (simp only [Paced.mk_iff])
    | split

theorem writeSched_paced {s : State} {b : List Byte} (h : Paced v s) :
    Paced v (writeSched s b).2 := by
  unfold writeSched
  refine Paced.foldlSndEq ?_ h
  intro t x r e ht
  revert e
  generalize schedLoc t.2.mem (4096 * x) = o
  intro e
  subst e
  cases o with
  | none => exact ht
  | some l => exact physWrite_paced (b := (b.drop (4096 * x)).take 4096) (a := l.phys) ht

theorem assembleSched_paced {s : State} (h : Paced v s) :
    Paced v (assembleSched s) := by
  unfold assembleSched
  split
  · exact h
  · next fz _ =>
    split
    · exact h
    · have hw := writeSched_paced (b := schedContent s fz) h
      revert hw
      generalize writeSched s (schedContent s fz) = r
      intro hw
      obtain ⟨e, t⟩ := r
      cases e with
      | some _ => exact freezeFail_paced hw
      | none => exact setFreezeState_paced hw.c

theorem freezeCutDone_paced {s : State} {number : Nat} {nulls : Nat} (h : Paced v s) :
    Paced v (freezeCutDone s number nulls) := by
  unfold freezeCutDone
  repeat' first
    | (with_reducible first | assumption | intro _ | apply assembleSched_paced | apply freezeFail_paced)
    | (with_reducible first | apply Paced.c)
    | (simp only [Paced.mk_iff])
    | split

theorem launchWaiting_paced {s : State} (h : Paced v s) :
    Paced v (launchWaiting s) := by
  unfold launchWaiting
  repeat' first
    | (with_reducible first | assumption | intro _ | apply launchFreeze_paced | apply Paced.c)
    | (simp only [Paced.mk_iff])
    | split

theorem debugCutDone_paced {s : State} {c : Cut} (h : Paced v s) :
    Paced v (debugCutDone s c) := by
  unfold debugCutDone
  repeat' first
    | (with_reducible first | assumption | intro _ | apply hubEvent_paced | apply dset_paced | apply Paced.c)
    | (simp only [Paced.mk_iff])
    | split

theorem cutCheck_paced {s : State} (h : Paced v s) :
    Paced v (cutCheck s) := by
  unfold cutCheck
  repeat' first
    | (with_reducible first | assumption | intro _ | apply freezeCutDone_paced | apply debugCutDone_paced)
    | (with_reducible first | apply endWave_paced)
    | (with_reducible first | apply launchWaiting_paced | apply dset_paced | apply Paced.c)
    | (simp only [Paced.mk_iff])
    | split

theorem resetV_paced {s : State} {which : EUnit → Bool} (h : Paced v s) :
    Paced v (resetV s which) := by
  unfold resetV
  repeat' first
    | (with_reducible first | assumption | intro _ | apply Paced.c)
    | (simp only [Paced.mk_iff])
    | split

theorem resetCore_paced {s : State} {c : Nat} (h : Paced v s) :
    Paced v (resetCore s c) := by
  unfold resetCore
  repeat' first
    | (with_reducible first | assumption | intro _ | apply Paced.foldl | apply Paced.foldlFst)
    | (with_reducible first | apply Paced.foldlSnd | apply setEng_paced | apply setSeq_paced | apply Paced.c)
    | (simp only [Paced.mk_iff])
    | split

theorem resetClusterUnit_paced {s : State} {c : Nat} (h : Paced v s) :
    Paced v (resetClusterUnit s c) := by
  unfold resetClusterUnit
  repeat' first
    | (with_reducible first | assumption | intro _ | apply resetV_paced | apply Paced.c)
    | (simp only [Paced.mk_iff])
    | split

theorem resetHearthMem_paced {s : State} {a1 : Nat} {faulty : Bool} (h : Paced v s) :
    Paced v (resetHearthMem s a1 faulty) := by
  unfold resetHearthMem
  repeat' first
    | (with_reducible first | assumption | intro _ | apply hubEvent_paced | apply Paced.c)
    | (simp only [Paced.mk_iff, dropLines_cells])
    | split

theorem resetDieUnit_paced {s : State} {d : Nat} (h : Paced v s) :
    Paced v (resetDieUnit s d) := by
  unfold resetDieUnit
  repeat' first
    | (with_reducible first | assumption | intro _ | apply Paced.foldl | apply Paced.foldlFst)
    | (with_reducible first | apply Paced.foldlSnd | apply withdrawTarget_paced | apply setSeq_paced)
    | (with_reducible first | apply releaseHold_paced)
    | (with_reducible first | apply resetV_paced | apply Paced.c)
    | (simp only [Paced.mk_iff])
    | split

theorem resetUnit_paced {s : State} {kind : Nat} {unit : Nat} {faulty : Nat} (h : Paced v s) :
    Paced v (resetUnit s kind unit faulty) := by
  unfold resetUnit
  repeat' first
    | (with_reducible first | assumption | intro _ | apply Paced.foldl | apply Paced.foldlFst)
    | (with_reducible first | apply Paced.foldlSnd | apply resetClusterUnit_paced | apply resetDieUnit_paced)
    | (with_reducible first | apply resetHearthMem_paced | apply resetCore_paced | apply Paced.c)
    | (simp only [Paced.mk_iff])
    | split

theorem setLevel_paced {s : State} {d : Nat} {a2 : Nat} (h : Paced v s) :
    Paced v (setLevel s d a2) := by
  unfold setLevel
  repeat' first
    | (with_reducible first | assumption | intro _ | apply localEvent_paced | apply dset_paced | apply Paced.c)
    | (simp only [Paced.mk_iff])
    | split

theorem setLevels_paced {s : State} (h : Paced v s) :
    Paced v (setLevels s) := by
  unfold setLevels
  repeat' first
    | (with_reducible first | assumption | intro _ | apply Paced.foldl | apply Paced.foldlFst)
    | (with_reducible first | apply Paced.foldlSnd | apply setLevel_paced | apply Paced.c)
    | (simp only [Paced.mk_iff])
    | split

theorem condEvent_paced {s : State} {c : Nat} {old : Nat} (h : Paced v s) :
    Paced v (condEvent s c old) := by
  unfold condEvent
  repeat' first
    | (with_reducible first | assumption | intro _ | apply localEvent_paced | apply Paced.c)
    | (simp only [Paced.mk_iff])
    | split

theorem sendCaps_paced {s : State} {c : Nat} {hold : Bool} (h : Paced v s) :
    Paced v (sendCaps s c hold) := by
  unfold sendCaps
  repeat' first
    | (with_reducible first | assumption | intro _ | apply Paced.foldl | apply Paced.foldlFst)
    | (with_reducible first | apply Paced.foldlSnd | apply sendEmber_paced | apply Paced.c)
    | (simp only [Paced.mk_iff])
    | split

theorem updCluster_paced {s : State} {c : Nat} {f : ClusterPw → ClusterPw} (h : Paced v s) :
    Paced v (updCluster s c f) := by
  unfold updCluster
  repeat' first
    | (with_reducible first | assumption | intro _ | apply condEvent_paced | apply dset_paced)
    | (with_reducible first | apply sendCaps_paced)
    | (with_reducible first | apply setCluster_paced | apply Paced.c)
    | (simp only [Paced.mk_iff])
    | split

theorem dampCheck_paced {s : State} {c : Nat} (h : Paced v s) :
    Paced v (dampCheck s c) := by
  unfold dampCheck
  repeat' first
    | (with_reducible first | assumption | intro _ | apply updCluster_paced | apply Paced.c)
    | (simp only [Paced.mk_iff])
    | split

theorem turnOff_paced {s : State} {c : Nat} (h : Paced v s) :
    Paced v (turnOff s c) := by
  unfold turnOff
  repeat' first
    | (with_reducible first | assumption | intro _ | apply resetUnit_paced | apply updCluster_paced)
    | (with_reducible first | apply cutCheck_paced | apply waveOff_paced | apply Paced.c)
    | (simp only [Paced.mk_iff])
    | split

theorem holdUntil_paced {cap : Nat} {a1 : List Nat} {a2 : Int} {a3 : State} (h : Paced v a3) :
    Paced v (holdUntil cap a1 a2 a3) := by
  induction a1 generalizing cap a2 a3 with
  | nil =>
    unfold holdUntil
    repeat' first
      | (with_reducible first | assumption | intro _ | apply updCluster_paced | apply Paced.c)
      | (simp only [Paced.mk_iff])
      | split
  | cons x r ih =>
    unfold holdUntil
    repeat' first
      | (with_reducible first | assumption | intro _ | apply updCluster_paced | apply ih | apply Paced.c)
      | (simp only [Paced.mk_iff])
      | split

theorem capRelease_paced {s : State} {p : Nat} {cap : Nat} (h : Paced v s) :
    Paced v (capRelease s p cap) := by
  unfold capRelease
  repeat' first
    | (with_reducible first | assumption | intro _ | apply updCluster_paced | apply Paced.c)
    | (simp only [Paced.mk_iff])
    | split

theorem hardCap_paced {s : State} {p : Nat} {cap : Nat} (h : Paced v s) :
    Paced v (hardCap s p cap) := by
  unfold hardCap
  repeat' first
    | (with_reducible first | assumption | intro _ | apply holdUntil_paced | apply capRelease_paced | apply Paced.c)
    | (simp only [Paced.mk_iff])
    | split

theorem countHeld_paced {s : State} (h : Paced v s) :
    Paced v (countHeld s) := by
  unfold countHeld
  repeat' first
    | (with_reducible first | assumption | intro _ | apply Paced.foldl | apply Paced.foldlFst)
    | (with_reducible first | apply Paced.foldlSnd | apply setCluster_paced | apply Paced.c)
    | (simp only [Paced.mk_iff])
    | split

theorem lowCap_paced {s : State} {quiet : Nat} (h : Paced v s) :
    Paced v (lowCap s quiet).1 := by
  unfold lowCap
  repeat' first
    | (with_reducible first | assumption | intro _ | apply Paced.foldl | apply Paced.foldlFst)
    | (with_reducible first | apply Paced.foldlSnd | apply turnOff_paced | apply updCluster_paced)
    | (with_reducible first | apply setCluster_paced | apply Paced.c)
    | (simp only [Paced.mk_iff])
    | split

theorem capMeasures_paced {s : State} {p : Nat} {cap : Nat} {quiet : Nat} (h : Paced v s) :
    Paced v (capMeasures s p cap quiet) := by
  unfold capMeasures
  repeat' first
    | (with_reducible first | assumption | intro _ | apply Paced.foldl | apply Paced.foldlFst)
    | (with_reducible first | apply Paced.foldlSnd | apply lowCap_paced | apply hubEvent_paced | apply dset_paced)
    | (with_reducible first | apply setCluster_paced | apply Paced.c)
    | (with_reducible refine Paced.fst (by assumption) ?_)
    | (simp only [Paced.mk_iff])
    | split

theorem preempt_paced {s : State} {q : Nat} (h : Paced v s) :
    Paced v (preempt s q) := by
  unfold preempt
  repeat' first
    | (with_reducible first | assumption | intro _ | apply saveStrand_paced | apply Paced.c | apply PacedO.getD)
    | (with_reducible refine PacedO.use (by assumption) ?_)
    | (simp only [Paced.mk_iff])
    | split

end Sys2Proof.Machine
end

