-- ==== Sys2Proof/Proofs/WaveEnd.lean ====
section
/-!
PROOF. What the end of a marker wave leaves as it was: power, strands, operations, knots, queues and the stacks' self-refresh.
-/

namespace Sys2Proof.Machine

set_option linter.unusedSimpArgs false

/-- Power, strands, operations, knots, queues and the stacks in self-refresh are as in `u`. -/
def WaveSide (u t : State) : Prop := t.pw = u.pw ∧ t.seqs = u.seqs ∧ t.ops = u.ops ∧ t.knots = u.knots ∧ t.q = u.q ∧ t.mem.selfRefresh = u.mem.selfRefresh

variable {v : State}

/-- `WaveSide` of a state's parts. -/
def WaveSideC (v : State) (x_pw : PwSys) (x_seqs : Tab Seqr) (x_ops : Tab (Option OpRec)) (x_knots : Tab Nat) (x_q : QSys) (x_refresh : Nat) : Prop := x_pw = v.pw ∧ x_seqs = v.seqs ∧ x_ops = v.ops ∧ x_knots = v.knots ∧ x_q = v.q ∧ x_refresh = v.mem.selfRefresh

theorem WaveSide.mk_iff x_pending x_free x_dict x_mem x_ev x_flt x_knotq x_knots x_knotsLost x_engines x_ops x_nextOp
    x_jobs x_raq x_storm x_reports x_gens x_tlines x_tin x_tout x_swapJob x_swapped x_seqs x_saved x_q x_pcie x_pw
    x_cord x_ck x_snap x_rst x_flash x_dsys x_sec x_d3 x_heldHost x_out :
    WaveSide v (State.mk x_pending x_free x_dict x_mem x_ev x_flt x_knotq x_knots x_knotsLost x_engines x_ops x_nextOp
      x_jobs x_raq x_storm x_reports x_gens x_tlines x_tin x_tout x_swapJob x_swapped x_seqs x_saved x_q x_pcie x_pw
      x_cord x_ck x_snap x_rst x_flash x_dsys x_sec x_d3 x_heldHost x_out) =
      WaveSideC v x_pw x_seqs x_ops x_knots x_q x_mem.selfRefresh :=
  Eq.trans rfl rfl

theorem WaveSide.c {s : State} (h : WaveSide v s) : WaveSideC v s.pw s.seqs s.ops s.knots s.q s.mem.selfRefresh := h

theorem WaveSide.refl (s : State) : WaveSide s s := ⟨rfl, rfl, rfl, rfl, rfl, rfl⟩

theorem WaveSide.trans {s t u : State} (h : WaveSide s t) (h' : WaveSide t u) : WaveSide s u :=
  ⟨(h'.1).trans h.1, (h'.2.1).trans h.2.1, (h'.2.2.1).trans h.2.2.1, (h'.2.2.2.1).trans h.2.2.2.1, (h'.2.2.2.2.1).trans h.2.2.2.2.1, (h'.2.2.2.2.2).trans h.2.2.2.2.2⟩

theorem WaveSide.snd {α : Type} {r : α × State} {x : α} {t : State} (e : r = (x, t)) (h : WaveSide v r.2) : WaveSide v t := by
  subst e; exact h

theorem WaveSide.foldl {α : Type} {f : State → α → State} {l : List α} {s : State}
    (hf : ∀ t x, WaveSide v t → WaveSide v (f t x)) (h : WaveSide v s) : WaveSide v (l.foldl f s) := by
  induction l generalizing s with
  | nil => exact h
  | cons x r ih => exact ih (hf s x h)

theorem WaveSide.foldlSnd {α β : Type} {f : β × State → α → β × State} {l : List α} {s : β × State}
    (hf : ∀ t x, WaveSide v t.2 → WaveSide v (f t x).2) (h : WaveSide v s.2) : WaveSide v (l.foldl f s).2 := by
  induction l generalizing s with
  | nil => exact h
  | cons x r ih => exact ih (hf s x h)

theorem WaveSide.pw {s t : State} (h : WaveSide s t) : t.pw = s.pw := h.1

theorem WaveSide.seqs {s t : State} (h : WaveSide s t) : t.seqs = s.seqs := h.2.1

theorem WaveSide.ops {s t : State} (h : WaveSide s t) : t.ops = s.ops := h.2.2.1

theorem WaveSide.knots {s t : State} (h : WaveSide s t) : t.knots = s.knots := h.2.2.2.1

theorem WaveSide.q {s t : State} (h : WaveSide s t) : t.q = s.q := h.2.2.2.2.1

theorem WaveSide.refresh {s t : State} (h : WaveSide s t) : t.mem.selfRefresh = s.mem.selfRefresh := h.2.2.2.2.2

theorem WaveSide.foldlSndEq {α β : Type} {f : β × State → α → β × State} {l : List α} {s : β × State}
    (hf : ∀ t x r, f t x = r → WaveSide v t.2 → WaveSide v r.2) (h : WaveSide v s.2) : WaveSide v (l.foldl f s).2 :=
  WaveSide.foldlSnd (fun t x => hf t x _ rfl) h

theorem atomWrite_waveSide {s : State} {w : Via} {c : Bool} {l : Loc} {b : List Byte} (h : WaveSide v s) :
    WaveSide v (atomWrite s w c l b).2 := by
  have hm : MemOnly s (atomWrite s w c l b).2 := atomWrite_memOnly (.refl s)
  have hl : (atomWrite s w c l b).2.mem.selfRefresh = s.mem.selfRefresh :=
    (congrArg MemSys.selfRefresh (atomWrite_sameMap s w c l b) :
      (atomWrite s w c l b).2.mem.layout.selfRefresh = s.mem.layout.selfRefresh)
  exact h.trans ⟨hm.pw, hm.seqs, hm.ops, hm.knots, hm.q, hl⟩

theorem dset_waveSide {s : State} {key : Nat} {a2 : Nat} (h : WaveSide v s) :
    WaveSide v (dset s key a2) := by
  unfold dset
  repeat' first
    | (with_reducible first | assumption | intro _ | apply WaveSide.c)
    | (simp only [WaveSide.mk_iff])
    | split

theorem hubEvent_waveSide {s : State} {source : Nat} {code : Nat} {data : Nat} {kind : Nat} (h : WaveSide v s) :
    WaveSide v (hubEvent s source code data kind) := by
  unfold hubEvent
  repeat' first
    | (with_reducible first | assumption | intro _ | apply WaveSide.c)
    | (simp only [WaveSide.mk_iff])
    | split

theorem hubNotice_waveSide {s : State} {source : Nat} {what : List Nat} (h : WaveSide v s) :
    WaveSide v (hubNotice s source what) := by
  unfold hubNotice
  repeat' first
    | (with_reducible first | assumption | intro _ | apply hubEvent_waveSide | apply WaveSide.c)
    | (simp only [WaveSide.mk_iff])
    | split

theorem releaseHold_waveSide {s : State} (h : WaveSide v s) :
    WaveSide v (releaseHold s) := by
  unfold releaseHold
  repeat' first
    | (with_reducible first | assumption | intro _ | apply WaveSide.c)
    | (simp only [WaveSide.mk_iff])
    | split

theorem physWritePieces_waveSide {s : State} {a1 : List (Nat × Nat)} {a2 : List Byte} (h : WaveSide v s) :
    WaveSide v (physWritePieces s a1 a2).2 := by
  induction a1 generalizing s a2 with
  | nil =>
    unfold physWritePieces
    repeat' first
      | (with_reducible first | assumption | intro _ | apply atomWrite_waveSide | apply WaveSide.c)
      | (with_reducible refine WaveSide.snd (by assumption) ?_)
      | (simp only [WaveSide.mk_iff])
      | split
  | cons x r ih =>
    unfold physWritePieces
    repeat' first
      | (with_reducible first | assumption | intro _ | apply atomWrite_waveSide | apply ih | apply WaveSide.c)
      | (with_reducible refine WaveSide.snd (by assumption) ?_)
      | (simp only [WaveSide.mk_iff])
      | split

theorem physWrite_waveSide {s : State} {a : Nat} {b : List Byte} (h : WaveSide v s) :
    WaveSide v (physWrite s a b).2 := by
  unfold physWrite
  repeat' first
    | (with_reducible first | assumption | intro _ | apply physWritePieces_waveSide | apply WaveSide.c)
    | (with_reducible refine WaveSide.snd (by assumption) ?_)
    | (simp only [WaveSide.mk_iff])
    | split

theorem setChan_waveSide {s : State} {k : Nat} {c : Chan} (h : WaveSide v s) :
    WaveSide v (setChan s k c) := by
  unfold setChan
  repeat' first
    | (with_reducible first | assumption | intro _ | apply WaveSide.c)
    | (simp only [WaveSide.mk_iff])
    | split

theorem enqueue_waveSide {s : State} {key : Nat} {f : TxFrame} (h : WaveSide v s) :
    WaveSide v (enqueue s key f) := by
  unfold enqueue
  repeat' first
    | (with_reducible first | assumption | intro _ | apply setChan_waveSide | apply WaveSide.c)
    | (simp only [WaveSide.mk_iff])
    | split

theorem latchBank_waveSide {s : State} {cut : Nat} {status : Nat} {key : Nat} (h : WaveSide v s) :
    WaveSide v (latchBank s cut status key) := by
  unfold latchBank
  repeat' first
    | (with_reducible first | assumption | intro _ | apply WaveSide.c)
    | (simp only [WaveSide.mk_iff])
    | split

theorem launchWave_waveSide {s : State} {freeze : Bool} {number : Nat} {xnum : Nat} {xorigin : Nat} (h : WaveSide v s)
    :
    WaveSide v (launchWave s freeze number xnum xorigin) := by
  unfold launchWave
  repeat' first
    | (with_reducible first | assumption | intro _ | apply WaveSide.foldl | apply WaveSide.foldlFst)
    | (with_reducible first | apply WaveSide.foldlSnd | apply dset_waveSide | apply latchBank_waveSide | apply WaveSide.c)
    | (simp only [WaveSide.mk_iff])
    | split

theorem endWave_waveSide {s : State} (h : WaveSide v s) :
    WaveSide v (endWave s) := by
  unfold endWave
  repeat' first
    | (with_reducible first | assumption | intro _ | apply WaveSide.c)
    | (simp only [WaveSide.mk_iff])
    | split

theorem waveOff_waveSide {s : State} {cluster : Nat} (h : WaveSide v s) :
    WaveSide v (waveOff s cluster) := by
  unfold waveOff
  repeat' first
    | (with_reducible first | assumption | intro _ | apply WaveSide.foldl | apply WaveSide.foldlFst)
    | (with_reducible first | apply WaveSide.foldlSnd | apply dset_waveSide | apply latchBank_waveSide | apply WaveSide.c)
    | (simp only [WaveSide.mk_iff])
    | split

theorem sendCtrl_waveSide {s : State} {peer : Nat} {code : Nat} {gen : Nat} {elem : Nat} {payload : List Byte} (h :
    WaveSide v s) :
    WaveSide v (sendCtrl s peer code gen elem payload) := by
  unfold sendCtrl
  repeat' first
    | (with_reducible first | assumption | intro _ | apply enqueue_waveSide | apply WaveSide.c)
    | (simp only [WaveSide.mk_iff])
    | split

theorem dropStream_waveSide {s : State} {which : Nat} (h : WaveSide v s) :
    WaveSide v (dropStream s which) := by
  unfold dropStream
  repeat' first
    | (with_reducible first | assumption | intro _ | apply WaveSide.c)
    | (simp only [WaveSide.mk_iff])
    | split

theorem setFreezeState_waveSide {s : State} {a1 : Nat} (h : WaveSide v s) :
    WaveSide v (setFreezeState s a1) := by
  unfold setFreezeState
  repeat' first
    | (with_reducible first | assumption | intro _ | apply dset_waveSide | apply WaveSide.c)
    | (simp only [WaveSide.mk_iff])
    | split

theorem freezeFail_waveSide {s : State} {cause : FreezeCause} (h : WaveSide v s) :
    WaveSide v (freezeFail s cause) := by
  unfold freezeFail
  repeat' first
    | (with_reducible first | assumption | intro _ | apply dropStream_waveSide | apply hubNotice_waveSide)
    | (with_reducible first | apply releaseHold_waveSide | apply sendCtrl_waveSide | apply setFreezeState_waveSide)
    | (with_reducible first | apply WaveSide.c)
    | (simp only [WaveSide.mk_iff])
    | split

theorem launchFreeze_waveSide {s : State} {gen : Nat} (h : WaveSide v s) :
    WaveSide v (launchFreeze s gen) := by
  unfold launchFreeze
  repeat' first
    | (with_reducible first | assumption | intro _ | apply launchWave_waveSide | apply WaveSide.c)
    | (simp only [WaveSide.mk_iff])
    | split

theorem writeSched_waveSide {s : State} {b : List Byte} (h : WaveSide v s) :
    WaveSide v (writeSched s b).2 := by
  unfold writeSched
  refine WaveSide.foldlSndEq ?_ h
  intro t x r e ht
  revert e
  generalize schedLoc t.2.mem (4096 * x) = o
  intro e
  subst e
  cases o with
  | none => exact ht
  | some l => exact physWrite_waveSide (b := (b.drop (4096 * x)).take 4096) (a := l.phys) ht

theorem assembleSched_waveSide {s : State} (h : WaveSide v s) :
    WaveSide v (assembleSched s) := by
  unfold assembleSched
  split
  · exact h
  · next fz _ =>
    split
    · exact h
    · have hw := writeSched_waveSide (b := schedContent s fz) h
      revert hw
      generalize writeSched s (schedContent s fz) = r
      intro hw
      obtain ⟨e, t⟩ := r
      cases e with
      | some _ => exact freezeFail_waveSide hw
      | none => exact setFreezeState_waveSide hw.c

theorem freezeCutDone_waveSide {s : State} {number : Nat} {nulls : Nat} (h : WaveSide v s) :
    WaveSide v (freezeCutDone s number nulls) := by
  unfold freezeCutDone
  repeat' first
    | (with_reducible first | assumption | intro _ | apply assembleSched_waveSide | apply freezeFail_waveSide)
    | (with_reducible first | apply WaveSide.c)
    | (simp only [WaveSide.mk_iff])
    | split

theorem launchWaiting_waveSide {s : State} (h : WaveSide v s) :
    WaveSide v (launchWaiting s) := by
  unfold launchWaiting
  repeat' first
    | (with_reducible first | assumption | intro _ | apply launchFreeze_waveSide | apply WaveSide.c)
    | (simp only [WaveSide.mk_iff])
    | split

theorem debugCutDone_waveSide {s : State} {c : Cut} (h : WaveSide v s) :
    WaveSide v (debugCutDone s c) := by
  unfold debugCutDone
  repeat' first
    | (with_reducible first | assumption | intro _ | apply hubEvent_waveSide | apply dset_waveSide | apply WaveSide.c)
    | (simp only [WaveSide.mk_iff])
    | split

theorem cutCheck_waveSide {s : State} (h : WaveSide v s) :
    WaveSide v (cutCheck s) := by
  unfold cutCheck
  repeat' first
    | (with_reducible first | assumption | intro _ | apply freezeCutDone_waveSide | apply debugCutDone_waveSide)
    | (with_reducible first | apply endWave_waveSide)
    | (with_reducible first | apply launchWaiting_waveSide | apply dset_waveSide | apply WaveSide.c)
    | (simp only [WaveSide.mk_iff])
    | split

theorem cordStop_waveSide {s : State} (h : WaveSide v s) :
    WaveSide v (cordStop s) := by
  unfold cordStop
  repeat' first
    | (with_reducible first | assumption | intro _ | apply WaveSide.foldl | apply WaveSide.foldlFst)
    | (with_reducible first | apply WaveSide.foldlSnd | apply dset_waveSide)
    | (with_reducible first | apply WaveSide.c)
    | (simp only [WaveSide.mk_iff])
    | split

end Sys2Proof.Machine
end

