-- ==== Sys2Proof/Proofs/PowerWindows.lean ====
section
/-!
PROOF. Crossing feeds, power fail, budget windows and damping (R385, R388, R391, R395).
-/

namespace Sys2Proof.Machine

variable {s : State}

/-! ### Both feeds -/

/-- What a reading of a feed leaves: memory, strands, queues and engines, and of power all but the magnitudes and the load. -/
structure FeedSide (s t : State) : Prop where
  mem : t.mem = s.mem
  seqs : t.seqs = s.seqs
  q : t.q = s.q
  engines : t.engines = s.engines
  vc : t.pw.vc = s.pw.vc
  capW : t.pw.capW = s.pw.capW

theorem FeedSide.trans {s t u : State} (h : FeedSide s t) (h' : FeedSide t u) : FeedSide s u :=
  ⟨h'.mem.trans h.mem, h'.seqs.trans h.seqs, h'.q.trans h.q, h'.engines.trans h.engines, h'.vc.trans h.vc, h'.capW.trans h.capW⟩

theorem feedEntry_feedSide (f : Nat) (r : FeedReading) : FeedSide s (feedEntry s f r) := by
  unfold feedEntry
  dsimp only
  constructor <;> (split <;> split <;> rfl)

theorem feedTransfer_feedSide : FeedSide s (feedTransfer s) := by
  obtain h | h := feedTransfer_cases s <;> rw [h] <;> exact ⟨rfl, rfl, rfl, rfl, rfl, rfl⟩

theorem feedEntry_a (r : FeedReading) : (feedEntry s 0 r).pw.feedA = feedMag r.volt := by
  unfold feedEntry
  dsimp only
  split <;> rfl

theorem feedEntry_b (r : FeedReading) : (feedEntry s 1 r).pw.feedB = feedMag r.volt ∧ (feedEntry s 1 r).pw.feedA = s.pw.feedA := by
  unfold feedEntry
  dsimp only
  constructor <;> (split <;> rfl)

theorem feedTransfer_magnitudes : (feedTransfer s).pw.feedA = s.pw.feedA ∧ (feedTransfer s).pw.feedB = s.pw.feedB := by
  obtain h | h := feedTransfer_cases s <;> rw [h] <;> exact ⟨rfl, rfl⟩

theorem feedsRead_feedSide (a b : FeedReading) : FeedSide s (feedsRead s a b) :=
  ((feedEntry_feedSide 0 a).trans (feedEntry_feedSide 1 b)).trans feedTransfer_feedSide

theorem feedsRead_magnitudes (a b : FeedReading) :
    (feedsRead s a b).pw.feedA = feedMag a.volt ∧ (feedsRead s a b).pw.feedB = feedMag b.volt :=
  ⟨feedTransfer_magnitudes.1.trans ((feedEntry_b b).2.trans (feedEntry_a a)), feedTransfer_magnitudes.2.trans (feedEntry_b b).1⟩

theorem feedEntry_dictOk {f : Nat} {r : FeedReading} (h : s.dictOk) : (feedEntry s f r).dictOk := dictOk_of_kept (feedEntry_kept (Kept.view s)) h

theorem feedCond_feedsRead {a b : FeedReading} (h : s.dictOk) :
    feedCond (feedsRead s a b) 0 = feedNext (feedCond s 0) (feedMag a.volt) ∧
      feedCond (feedsRead s a b) 1 = feedNext (feedCond s 1) (feedMag b.volt) := by
  have hread (g : Nat) (hg : g < 2) : feedCond (feedsRead s a b) g =
      if g = 1 then feedNext (feedCond (feedEntry s 0 a) 1) (feedMag b.volt) else feedCond (feedEntry s 0 a) g :=
    (feedCond_of_dict (feedTransfer_dict _) g).trans (feedCond_feedEntry (feedEntry_dictOk h) (by decide) hg b)
  rw [hread 0 (by decide), hread 1 (by decide), if_neg (by decide), if_pos rfl,
    feedCond_feedEntry h (by decide) (by decide) a, feedCond_feedEntry h (by decide) (by decide) a]
  exact ⟨rfl, rfl⟩

/-! ### Power fail and cold start -/

/-- What a reset of every unit leaves of the dictionary shows its cause and what flash keeps; the rest stands at its default. -/
theorem dget_wipe {cause key : Nat} (h : key ∉ [Key.fwStageState, Key.dictCommits, Key.openCount]) :
    dget (wipe s cause) key = if key = Key.resetCause then cause else dictDefault key := by
  simp only [List.mem_cons, List.not_mem_nil, or_false, not_or] at h
  obtain ⟨hstage, hcommits, hopen⟩ := h
  have hbare (t : State) (ht : t.dict = []) : t.dictOk := by unfold State.dictOk; rw [ht]; rfl
  have hcause := dset_dictOk (k := Key.resetCause) (v := cause) (hbare { pending := s.pending, free := s.free, out := s.out, flash := flashAfter s
                                                                         rst := { mrst := s.rst.mrst }, q := { perst := s.q.perst } } rfl)
  unfold wipe
  dsimp only
  rw [dget_dset_ne (dset_dictOk (dset_dictOk hcause)) hopen, dget_dset_ne (dset_dictOk hcause) hcommits, dget_dset_ne hcause hstage]
  rw [dget_dset (hbare _ rfl)]
  rfl

/-! ### The draught voltage -/

theorem nextVc_eq (s : State) (p cap : Nat) (hmax : s.pw.vc ≤ dget s Key.draughtMax) (hfl : draughtFloor s ≤ s.pw.vc) :
    nextVc s p cap = if p > cap then max (s.pw.vc - 25) (draughtFloor s) else if capHeldClusters s ≠ [] then max (s.pw.vc - 5) (draughtFloor s)
      else if 100 * p < 97 * cap ∧ ∀ c < 32, clusterLevel s c = 0 then min (s.pw.vc + 5) (dget s Key.draughtMax) else s.pw.vc := by
  have hwarm : (¬((List.range 32).any fun c => decide (clusterLevel s c ≥ 1)) = true) ↔ ∀ c < 32, clusterLevel s c = 0 := by
    simp
  have hfold (v : Nat) (hv : v ≤ dget s Key.draughtMax) :
      min (max v (draughtFloor s)) (dget s Key.draughtMax) = max v (draughtFloor s) := by omega
  have hempty : (!(capHeldClusters s).isEmpty) = true ↔ capHeldClusters s ≠ [] := by simp
  unfold nextVc
  dsimp only
  by_cases hp : p > cap
  · rw [if_pos hp, if_pos hp, hfold _ (by omega)]
  · rw [if_neg hp, if_neg hp]
    by_cases hh : capHeldClusters s ≠ []
    · rw [if_pos (hempty.2 hh), if_pos hh, hfold _ (by omega)]
    · rw [if_neg (mt hempty.1 hh), if_neg hh]
      by_cases hr : 100 * p < 97 * cap ∧ ∀ c < 32, clusterLevel s c = 0
      · rw [if_pos hr, if_pos ⟨hr.1, by simpa using hwarm.2 hr.2⟩]
        omega
      · rw [if_neg hr, if_neg fun h => hr ⟨h.1, hwarm.1 (by simpa using h.2)⟩]
        omega

/-! ### The budget window -/

/-- The readings of a budget window: both feeds, the module's power and that of every cluster. -/
def windowPowers (s : State) (a b : FeedReading) (clusters : List (Option Nat)) : State :=
  let miss := dget s Key.powerCap * 10
  (List.range 32).foldl (fun st c => setCluster st c { getCluster st c with power := (clusters.getD c none).getD miss })
    (dset (feedsRead s a b) Key.modulePower (min (2 ^ 16 - 1) (a.power.getD miss + b.power.getD miss)))

/-- The state in which a budget window decides: its readings are taken, and work is a window older. -/
def windowRead (s : State) (a b : FeedReading) (clusters : List (Option Nat)) (quiet : Nat) : State :=
  let s1 := windowPowers s a b clusters
  let idle := (List.range 20).foldl (fun m h => if bitOf quiet h then m else setBit m h false) s1.mem.idleRefresh
  ageWork { s1 with pw := { s1.pw with committed := {} }, mem := { s1.mem with idleRefresh := idle } }

/-- The measures of a budget window once the voltage is chosen: the levels, damping, the steps of R393 and pre-emption. -/
def windowMeasures (s : State) (p cap quiet : Nat) : State :=
  let s6 := capMeasures ((List.range 32).foldl dampCheck (setLevels s)) p cap quiet
  (s6.seqs.map (·.1)).foldl preempt s6

/-- What a budget window does once its readings are taken: the cap's holds and releases, the voltages, and its measures. -/
def windowActs (s : State) (p quiet : Nat) : State :=
  let s3 := countHeld (hardCap s p (effCap s))
  windowMeasures { s3 with pw := { s3.pw with
    vc := nextVc s p (effCap s), vt := (List.range 4).foldl (fun t d => tset 650 t d (nextVt s d)) s.pw.vt } } p (effCap s) quiet

theorem budgetWindow_eq (a b : FeedReading) (cl : List (Option Nat)) (quiet : Nat) (hq : s.q.qeReady = true) (hf : s.flt.hubFault = false) :
    budgetWindow s a b cl quiet =
      { windowActs (windowRead s a b cl quiet) ((a.power.getD (dget s Key.powerCap * 10) + b.power.getD (dget s Key.powerCap * 10)) * 1000) quiet with
        pw := { (windowActs (windowRead s a b cl quiet)
          ((a.power.getD (dget s Key.powerCap * 10) + b.power.getD (dget s Key.powerCap * 10)) * 1000) quiet).pw with
          capW := dget (windowActs (windowRead s a b cl quiet)
            ((a.power.getD (dget s Key.powerCap * 10) + b.power.getD (dget s Key.powerCap * 10)) * 1000) quiet) Key.powerCap } } := by
  unfold budgetWindow
  rw [if_neg (by simp [hq, hf])]
  rfl

theorem foldl_setCluster (g : State → Nat → ClusterPw) (l : List Nat) (s : State) :
    ∃ x, l.foldl (fun st c => setCluster st c (g st c)) s = { s with pw := { s.pw with clusters := x } } := by
  induction l generalizing s with
  | nil => exact ⟨s.pw.clusters, rfl⟩
  | cons c r ih =>
    obtain ⟨x, hx⟩ := ih (setCluster s c (g s c))
    exact ⟨x, hx⟩

theorem windowPowers_eq (a b : FeedReading) (cl : List (Option Nat)) : ∃ x, windowPowers s a b cl =
    { dset (feedsRead s a b) Key.modulePower (min (2 ^ 16 - 1)
        (a.power.getD (dget s Key.powerCap * 10) + b.power.getD (dget s Key.powerCap * 10))) with
      pw := { (feedsRead s a b).pw with clusters := x } } := foldl_setCluster _ _ _

theorem ageWork_pw : (ageWork s).pw = s.pw := rfl

theorem ageWork_engines : (ageWork s).engines = s.engines := rfl

theorem ageWork_ready : (ageWork s).q.ready = s.q.ready.map fun w => { w with age := w.age + 1 } := rfl

theorem windowRead_spec (a b : FeedReading) (cl : List (Option Nat)) (quiet : Nat) :
    (windowRead s a b cl quiet).pw.vc = s.pw.vc ∧ (windowRead s a b cl quiet).pw.committed = {} ∧
      (windowRead s a b cl quiet).pw.feedA = feedMag a.volt ∧ (windowRead s a b cl quiet).pw.feedB = feedMag b.volt ∧
      (windowRead s a b cl quiet).pw.capW = s.pw.capW ∧ (windowRead s a b cl quiet).engines = s.engines ∧
      (windowRead s a b cl quiet).q.ready = s.q.ready.map fun w => { w with age := w.age + 1 } := by
  have hside := feedsRead_feedSide (s := s) a b
  obtain ⟨ha, hb⟩ := feedsRead_magnitudes (s := s) a b
  obtain ⟨x, hx⟩ := windowPowers_eq (s := s) a b cl
  unfold windowRead
  dsimp only
  rw [hx, ageWork_pw, ageWork_engines, ageWork_ready]
  exact ⟨hside.vc, rfl, ha, hb, hside.capW, hside.engines, congrArg _ (congrArg QSys.ready hside.q)⟩

theorem windowMeasures_paced (s : State) (p cap quiet : Nat) : Paced s (windowMeasures s p cap quiet) :=
  .foldl (fun _ _ h => preempt_paced h)
    (capMeasures_paced (.foldl (fun _ _ h => dampCheck_paced h) (setLevels_paced (.refl s))))

theorem windowActs_spec (s : State) (p quiet : Nat) :
    (windowActs s p quiet).pw.vc = nextVc s p (effCap s) ∧ (windowActs s p quiet).q.ready = s.q.ready := by
  have h3 : Paced s (countHeld (hardCap s p (effCap s))) := countHeld_paced (hardCap_paced (.refl s))
  unfold windowActs
  dsimp only
  generalize countHeld (hardCap s p (effCap s)) = s3 at h3 ⊢
  obtain ⟨hvc, hready⟩ := windowMeasures_paced { s3 with pw := { s3.pw with
    vc := nextVc s p (effCap s), vt := (List.range 4).foldl (fun t d => tset 650 t d (nextVt s d)) s.pw.vt } } p (effCap s) quiet
  exact ⟨hvc, hready.trans h3.2⟩

/-! ### Damping -/

theorem sendEmber_pw {src dst : Nat} {w : EmberWhat} : (sendEmber s src dst w).pw = s.pw := by
  unfold sendEmber
  dsimp only
  split <;> rfl

theorem sendCaps_pw {c : Nat} {b : Bool} : (sendCaps s c b).pw = s.pw := foldl_keeps State.pw (fun _ _ => sendEmber_pw) _ _

theorem condEvent_pw {c old : Nat} : (condEvent s c old).pw = s.pw := by
  unfold condEvent
  split <;> rfl

theorem updCluster_pw {c : Nat} {f : ClusterPw → ClusterPw} : (updCluster s c f).pw = (setCluster s c (f (getCluster s c))).pw := by
  unfold updCluster
  dsimp only
  rw [condEvent_pw]
  split
  · rfl
  · exact sendCaps_pw

/-- A cluster's condition after a change that leaves it other than a cluster that runs. -/
theorem getCluster_updCluster {c : Nat} {f : ClusterPw → ClusterPw} (h : f (getCluster s c) ≠ {}) :
    getCluster (updCluster s c f) c = f (getCluster s c) := by
  rw [getCluster, updCluster_pw]
  exact (tget_tset_new h).trans (if_pos rfl)

/-- Settles O35. -/
theorem feedsWindowsAndDampingComplete : Obligations.FeedsWindowsAndDampingComplete := by
  unfold Obligations.FeedsWindowsAndDampingComplete
  refine ⟨?_, ?_, ?_, ?_, ?_, ?_, ?_⟩
  · intro s a b hok
    have hside := feedsRead_feedSide (s := s) a b
    exact ⟨feedsRead s a b, completes_of rfl rfl, (feedsRead_magnitudes a b).1, (feedsRead_magnitudes a b).2,
      (feedCond_feedsRead hok).1, (feedCond_feedsRead hok).2, feedTransfer_feedDraw _, hside.mem, hside.seqs⟩
  · intro s hoff
    exact ⟨_, completes_of rfl (if_neg (ne_true_of_eq_false hoff)), rfl, rfl, rfl, rfl, rfl, rfl, rfl, rfl, rfl, rfl⟩
  · intro s hoff
    exact ⟨_, completes_of rfl (if_pos hoff), rfl, (dget_wipe (by decide)).trans (by decide), (dget_wipe (by decide)).trans (if_pos rfl),
      rfl, rfl, rfl⟩
  · rintro s a b cl quiet p hq hf rfl
    obtain ⟨hvc, hcom, ha, hb, hcap, heng, hready⟩ := windowRead_spec (s := s) a b cl quiet.toNat
    obtain ⟨hvcu, hreadyu⟩ := windowActs_spec (windowRead s a b cl quiet.toNat)
      ((a.power.getD (dget s Key.powerCap * 10) + b.power.getD (dget s Key.powerCap * 10)) * 1000) quiet.toNat
    exact ⟨_, windowRead s a b cl quiet.toNat, completes_of rfl (budgetWindow_eq a b cl quiet.toNat hq hf), hvcu, hreadyu.trans hready,
      hvc, hcom, ha, hb, hcap, rfl, heng⟩
  · intro s p cap hmax hfl
    have heq := nextVc_eq s p cap hmax hfl
    refine ⟨fun h => heq.trans (if_pos h), fun h hh => ?_, fun h hh => ⟨fun hr hc => ?_, fun hr => ?_, fun hc => ?_⟩⟩
    · rw [heq, if_neg (by omega), if_pos hh]
    · rw [heq, if_neg (by omega), if_neg (not_not_intro hh), if_pos ⟨hr, hc⟩]
    · rw [heq, if_neg (by omega), if_neg (not_not_intro hh), if_neg (by omega)]
    · obtain ⟨c, hlt, hwarm⟩ := hc
      rw [heq, if_neg (by omega), if_neg (not_not_intro hh), if_neg fun h => by have := h.2 c hlt; omega]
  · intro s c hd hc hi
    have hact : dampIdle s c.val = updCluster s c.val fun p => { p with damp := .idle } := by
      unfold dampIdle
      exact if_neg (by simp [hd, hc, hi])
    have hne : ({ getCluster s c.val with damp := .idle } : ClusterPw) ≠ {} := fun h => by cases congrArg ClusterPw.damp h
    have hmem := (updCluster_bookSide (c := c.val) (f := fun p => { p with damp := .idle }) (.refl s)).mem
    have hseqs := (updCluster_engineSide (c := c.val) (f := fun p => { p with damp := .idle }) (.refl s)).seqs
    exact ⟨_, completes_of rfl hact, congrArg ClusterPw.damp (getCluster_updCluster hne), hmem, hseqs⟩
  · intro s c hc
    refine completes_of rfl ?_
    unfold clusterWake
    exact if_pos (by simpa using hc)

end Sys2Proof.Machine
end

