-- ==== Sys2Proof/Proofs/PowerStates.lean ====
section
/-!
PROOF. The power states and the heat of clusters (R396–R398).
-/

namespace Sys2Proof.Machine

variable {s : State}

/-! ### Smoulder -/

/-- The compute dies are off: no work is left, and every stack is in self-refresh. -/
theorem diesOff_spec : (diesOff s).seqs = [] ∧ (diesOff s).ops = [] ∧ (diesOff s).knots = [] ∧ (diesOff s).q.qeReady = false ∧
    (diesOff s).q.memReady = false ∧ (diesOff s).mem.selfRefresh = 2 ^ 20 - 1 := by
  unfold diesOff
  dsimp only
  refine ⟨(cutCheck_waveSide (.refl _)).seqs, (cutCheck_waveSide (.refl _)).ops, (cutCheck_waveSide (.refl _)).knots,
    congrArg QSys.qeReady (cutCheck_waveSide (.refl _)).q, congrArg QSys.memReady (cutCheck_waveSide (.refl _)).q,
    (cutCheck_waveSide (.refl _)).refresh⟩

theorem commandWrite_powerState {v : Nat} {x : Outside} : commandWrite s Key.powerStateCmd v x = some (writePowerState s v) := by
  unfold commandWrite
  rw [if_neg (by decide), if_neg (by decide), if_pos rfl]

theorem powerStateCmd_written {t : State} {v : Nat} (hv : v < 3) (h : mayWrite s Key.powerStateCmd v) (hw : writePowerState s v = (t, 0)) :
    ownWrite s Key.powerStateCmd v = writtenGone t Key.powerStateCmd := by
  have hb : keyBytes Key.powerStateCmd = 1 := by decide
  exact ownWrite_of_command h (by decide) (by rw [hb]; omega) (commandWrite_powerState.trans (congrArg some hw))

theorem cordStop_up : (cordStop s).cord.up = [] := by
  unfold cordStop
  dsimp only

theorem powerSmoulder_rests (hrun : s.pw.module = .run) (hr : mayRest s = true) :
    ∃ t, powerSmoulder s = (t, 0) ∧ t.pw.module = .smoulder ∧ t.seqs = [] ∧ t.ops = [] ∧ t.knots = [] ∧
      t.q.qeReady = false ∧ t.q.memReady = false ∧ t.cord.up = [] ∧ t.mem.selfRefresh = 2 ^ 20 - 1 := by
  unfold powerSmoulder
  rw [if_neg (by rw [hrun]; decide), if_neg (by rw [hrun, hr]; decide)]
  dsimp only
  generalize flushContexts (goingDown (dset s Key.pairState 0) 2) = s0
  obtain ⟨hseqs, hops, hknots, hqe, hmem, href⟩ := diesOff_spec (s := s0)
  generalize diesOff s0 = s1 at hseqs hops hknots hqe hmem href ⊢
  have hstop : WaveSide s1 (cordStop s1) := cordStop_waveSide (.refl _)
  have hup := cordStop_up (s := s1)
  generalize cordStop s1 = s2 at hstop hup ⊢
  exact ⟨_, rfl, rfl, hstop.seqs.trans hseqs, hstop.ops.trans hops, hstop.knots.trans hknots,
    (congrArg QSys.qeReady hstop.q).trans hqe, (congrArg QSys.memReady hstop.q).trans hmem, hup, hstop.refresh.trans href⟩

/-! ### Levels of a cluster -/

/-- The highest level that a temperature enters below Trip. -/
def enteredHeat (t : Int) : Nat := if 105 * 16 ≤ t then 3 else if 100 * 16 ≤ t then 2 else if 90 * 16 ≤ t then 1 else 0

/-- The highest level up to `l` that a temperature does not leave. -/
def keptHeat (l : Nat) (t : Int) : Nat :=
  if t < 87 * 16 then 0 else if t < 96 * 16 then min l 1 else if t < 100 * 16 then min l 2 else l

theorem fallTo_clusterLeave {l : Nat} (t : Int) (h : l < 4) : fallTo clusterLeave t l = keptHeat l t := by
  unfold keptHeat
  obtain rfl | rfl | rfl | rfl : l = 0 ∨ l = 1 ∨ l = 2 ∨ l = 3 := by omega
  all_goals
    simp only [fallTo, clusterLeave]
    (repeat' split) <;> omega

theorem riseTo_clusterEnter {l : Nat} (t : Int) (h : l < 4) :
    riseTo clusterEnter 4 t 4 l = if 115 * 16 ≤ t then 4 else max l (enteredHeat t) := by
  unfold enteredHeat
  obtain rfl | rfl | rfl | rfl : l = 0 ∨ l = 1 ∨ l = 2 ∨ l = 3 := by omega
  all_goals
    simp only [riseTo, clusterEnter]
    (repeat' split) <;> omega

theorem clusterNext_eq {l : Nat} (t : Int) (h : l < 4) :
    clusterNext l t = if 115 * 16 ≤ t then 4 else keptHeat (max l (enteredHeat t)) t := by
  have hmax : max l (enteredHeat t) < 4 := by unfold enteredHeat; (repeat' split) <;> omega
  unfold clusterNext
  dsimp only
  rw [if_neg (by omega), riseTo_clusterEnter t h]
  split
  · rfl
  · rw [if_neg (by omega), fallTo_clusterLeave t hmax]

/-- Trip is left below 100 °C, for the level that is entered afresh. -/
theorem clusterNext_trip (t : Int) : clusterNext 4 t = if 100 * 16 ≤ t then 4 else enteredHeat t := by
  unfold clusterNext
  rw [if_pos rfl, riseTo_clusterEnter t (by decide)]
  (repeat' split) <;> omega

/-- The level entered in a band. -/
theorem enteredHeat_of {t : Int} {e : Nat} (h : (105 * 16 ≤ t ∧ e = 3) ∨ (100 * 16 ≤ t ∧ t < 105 * 16 ∧ e = 2) ∨
    (90 * 16 ≤ t ∧ t < 100 * 16 ∧ e = 1) ∨ (t < 90 * 16 ∧ e = 0)) : enteredHeat t = e := by
  unfold enteredHeat
  (repeat' split) <;> omega

/-- The highest level kept in a band. -/
theorem keptHeat_of {t : Int} {k : Nat} (h : (100 * 16 ≤ t ∧ k = 3) ∨ (96 * 16 ≤ t ∧ t < 100 * 16 ∧ k = 2) ∨
    (87 * 16 ≤ t ∧ t < 96 * 16 ∧ k = 1) ∨ (t < 87 * 16 ∧ k = 0)) : ∀ j < 4, keptHeat j t = min j k := by
  intro j hj
  unfold keptHeat
  (repeat' split) <;> omega

/-- In a band of temperatures the level rises to the one entered, and falls to the highest one kept. -/
theorem clusterNext_of_band {l e k : Nat} {t : Int} (he : enteredHeat t = e) (hk : ∀ j < 4, keptHeat j t = min j k) (hl : l < 4)
    (ht : t < 115 * 16) (he4 : e < 4 := by decide) : clusterNext l t = min (max l e) k := by
  rw [clusterNext_eq t hl, if_neg (by omega), he, hk _ (by omega)]

/-! ### A reading of a cluster -/

theorem updCluster_dget {c key : Nat} {f : ClusterPw → ClusterPw} (hok : s.dictOk) (hk : key ≠ Key.capHeld) :
    dget (updCluster s c f) key = dget s key := by
  obtain ⟨x, hx⟩ := updCluster_dict s c f
  rw [dget, hx]
  exact dget_dset_ne hok hk

theorem dampCheck_dget {c key : Nat} (hok : s.dictOk) (hk : key ≠ Key.capHeld) : dget (dampCheck s c) key = dget s key := by
  unfold dampCheck
  dsimp only
  split
  · rfl
  · split
    · exact updCluster_dget hok hk
    · rfl

/-- A cluster's condition after a change, in a table in canonical form. -/
theorem getCluster_updCluster_wf {c : Nat} {f : ClusterPw → ClusterPw} (h : twf ({} : ClusterPw) s.pw.clusters = true) :
    getCluster (updCluster s c f) c = f (getCluster s c) := by
  rw [getCluster, updCluster_pw]
  exact (tget_tset _ _ _ _ _ h).trans (if_pos rfl)

theorem updCluster_clusters_wf {c : Nat} {f : ClusterPw → ClusterPw} (h : twf ({} : ClusterPw) s.pw.clusters = true) :
    twf ({} : ClusterPw) (updCluster s c f).pw.clusters = true := by
  rw [updCluster_pw]
  exact tset_wf _ _ _ _ h

/-- Damping does not release a hold for heat. -/
theorem dampCheck_heatHold {c : Nat} (h : twf ({} : ClusterPw) s.pw.clusters = true) :
    (getCluster (dampCheck s c) c).heatHold = (getCluster s c).heatHold := by
  unfold dampCheck
  dsimp only
  split
  · rfl
  · split
    · rw [getCluster_updCluster_wf h]
    · rfl

/-- What the entry of a temperature shows. -/
def shownTemp (t : Option Int) : Nat := match t with | none => 0x7FFF | some x => signed16 x

/-- The entries after a reading that leads to level `n`, with the event of a change. -/
def clusterShown (s : State) (c n : Nat) (t : Option Int) : State :=
  let s1 := dset s (Key.clusterTemp + c) (shownTemp t)
  if n = clusterLevel s c then s1
  else localEvent (dset s1 (Key.clusterThermal + c) n) (32 + c / 8) (40 + c % 8) 0x0203 2 0 0

/-- The cluster is held for heat at level 3, and released below it. -/
def heatHeld (s : State) (c n : Nat) : State :=
  if (getCluster s c).heatHold != decide (n = 3) then updCluster s c (fun p => { p with heatHold := decide (n = 3) }) else s

theorem clusterKeys_ne {c : Nat} (hc : c < 32) : Key.clusterThermal + c ≠ Key.clusterTemp + c ∧ Key.clusterThermal + c ≠ Key.capHeld ∧
    Key.clusterTemp + c ≠ Key.capHeld := by
  unfold Key.clusterThermal Key.clusterTemp Key.capHeld
  omega

theorem clusterReading_eq {c n : Nat} {t : Option Int} (hc : c < 32) (hok : s.dictOk) (hq : s.q.qeReady = true)
    (hn : clusterNext (clusterLevel s c) (t.getD 1680) = n) (h4 : n ≠ 4) :
    clusterReading s c t = dampCheck (heatHeld (clusterShown s c n t) c n) c := by
  have hlevel : clusterLevel (dset s (Key.clusterTemp + c) (shownTemp t)) c = clusterLevel s c :=
    dget_dset_ne hok (clusterKeys_ne hc).1
  have hread : clusterReading s c t =
      if clusterNext (clusterLevel (dset s (Key.clusterTemp + c) (shownTemp t)) c) (t.getD 1680) = 4 then
        trip (dset s (Key.clusterTemp + c) (shownTemp t)) c
      else dampCheck (heatHeld (if clusterNext (clusterLevel (dset s (Key.clusterTemp + c) (shownTemp t)) c) (t.getD 1680) =
          clusterLevel (dset s (Key.clusterTemp + c) (shownTemp t)) c then dset s (Key.clusterTemp + c) (shownTemp t)
        else localEvent (dset (dset s (Key.clusterTemp + c) (shownTemp t)) (Key.clusterThermal + c)
          (clusterNext (clusterLevel (dset s (Key.clusterTemp + c) (shownTemp t)) c) (t.getD 1680)))
          (32 + c / 8) (40 + c % 8) 0x0203 2 0 0) c
          (clusterNext (clusterLevel (dset s (Key.clusterTemp + c) (shownTemp t)) c) (t.getD 1680))) c := by
    unfold clusterReading
    rw [if_neg (by simp [hq])]
    rfl
  rw [hread, hlevel, hn, if_neg h4]
  rfl

theorem clusterShown_spec {c n : Nat} {t : Option Int} (hc : c < 32) (hok : s.dictOk) :
    (clusterShown s c n t).dictOk ∧ clusterLevel (clusterShown s c n t) c = n ∧
      dget (clusterShown s c n t) (Key.clusterTemp + c) = shownTemp t ∧ (clusterShown s c n t).pw = s.pw ∧
      (clusterShown s c n t).mem = s.mem ∧ (clusterShown s c n t).seqs = s.seqs := by
  obtain ⟨hne, -, -⟩ := clusterKeys_ne hc
  have hok1 : (dset s (Key.clusterTemp + c) (shownTemp t)).dictOk := dset_dictOk hok
  unfold clusterShown
  dsimp only
  split
  · next h => exact ⟨hok1, (dget_dset_ne hok hne).trans h.symm, dget_dset_same hok, rfl, rfl, rfl⟩
  · exact ⟨dset_dictOk hok1, dget_dset_same hok1, (dget_dset_ne hok1 hne.symm).trans (dget_dset_same hok), rfl, rfl, rfl⟩

theorem heatHeld_spec {c n : Nat} (hok : s.dictOk) (hwf : twf ({} : ClusterPw) s.pw.clusters = true) :
    (heatHeld s c n).dictOk ∧ (∀ key, key ≠ Key.capHeld → dget (heatHeld s c n) key = dget s key) ∧
      twf ({} : ClusterPw) (heatHeld s c n).pw.clusters = true ∧ (getCluster (heatHeld s c n) c).heatHold = decide (n = 3) ∧
      (heatHeld s c n).mem = s.mem ∧ (heatHeld s c n).seqs = s.seqs := by
  unfold heatHeld
  split
  · exact ⟨dictOk_of_kept (updCluster_kept (Kept.view s)) hok, fun key hk => updCluster_dget hok hk, updCluster_clusters_wf hwf,
      by rw [getCluster_updCluster_wf hwf], (updCluster_bookSide (.refl s)).mem, (updCluster_engineSide (.refl s)).seqs⟩
  · next h => exact ⟨hok, fun _ _ => rfl, hwf, by simpa using h, rfl, rfl⟩

/-- A reading of a cluster that stays below Trip: what is shown, the level and its event, and the hold for heat. -/
theorem clusterReading_below_trip {c n : Nat} {t : Option Int} (hc : c < 32) (hok : s.dictOk)
    (hwf : twf ({} : ClusterPw) s.pw.clusters = true) (hq : s.q.qeReady = true) (hn : clusterNext (clusterLevel s c) (t.getD 1680) = n)
    (h4 : n ≠ 4) :
    clusterLevel (clusterReading s c t) c = n ∧ dget (clusterReading s c t) (Key.clusterTemp + c) = shownTemp t ∧
      (getCluster (clusterReading s c t) c).heatHold = decide (n = 3) ∧ (clusterReading s c t).mem = s.mem ∧
      (clusterReading s c t).seqs = s.seqs := by
  obtain ⟨-, hthermal, htemp⟩ := clusterKeys_ne hc
  obtain ⟨hok2, hlevel, hshown, hpw, hmem, hseqs⟩ := clusterShown_spec (n := n) (t := t) hc hok
  obtain ⟨hok3, hkeep, hwf3, hheat, hmem3, hseqs3⟩ := heatHeld_spec (c := c) (n := n) hok2 (by rw [hpw]; exact hwf)
  rw [clusterReading_eq hc hok hq hn h4]
  exact ⟨(dampCheck_dget hok3 hthermal).trans ((hkeep _ hthermal).trans hlevel),
    (dampCheck_dget hok3 htemp).trans ((hkeep _ htemp).trans hshown), (dampCheck_heatHold hwf3).trans hheat,
    (dampCheck_bookSide (.refl _)).mem.trans (hmem3.trans hmem), (dampCheck_engineSide (.refl _)).seqs.trans (hseqs3.trans hseqs)⟩

/-! ### Trip -/

theorem turnOff_off {c : Nat} : (getCluster (turnOff s c) c).off = true := by
  have hwave (t : State) : WaveSide t (cutCheck (waveOff t c)) := cutCheck_waveSide (waveOff_waveSide (.refl t))
  unfold turnOff
  dsimp only
  rw [getCluster, (hwave _).pw]
  refine congrArg ClusterPw.off (getCluster_updCluster ?_)
  exact fun h => by cases congrArg ClusterPw.off h

/-- The last act of a trip. -/
theorem tripped_spec {c : Nat} {e : EvSys} (hk : Key.clusterThermal + c ≠ Key.capHeld) (hok : s.dictOk)
    (hoff : (getCluster s c).off = true) (hl : clusterLevel s c = 4) :
    (getCluster (updCluster { s with ev := e } c fun p => { p with tripped := true, damp := .none }) c).tripped = true ∧
      (getCluster (updCluster { s with ev := e } c fun p => { p with tripped := true, damp := .none }) c).off = true ∧
      clusterLevel (updCluster { s with ev := e } c fun p => { p with tripped := true, damp := .none }) c = 4 := by
  have hget := getCluster_updCluster (s := { s with ev := e }) (c := c) (f := fun p => { p with tripped := true, damp := .none })
    fun h => by cases congrArg ClusterPw.tripped h
  exact ⟨congrArg ClusterPw.tripped hget, (congrArg ClusterPw.off hget).trans hoff,
    (updCluster_dget (s := { s with ev := e }) hok hk).trans hl⟩

theorem trip_spec {c : Nat} (hc : c < 32) (hok : s.dictOk) (hq : s.q.qeReady = true) (ht : (getCluster s c).tripped = false) :
    (getCluster (trip s c) c).tripped = true ∧ (getCluster (trip s c) c).off = true ∧ clusterLevel (trip s c) c = 4 := by
  obtain ⟨hne, hthermal, -⟩ := clusterKeys_ne hc
  unfold trip
  rw [if_neg (by simp [ht, hq])]
  dsimp only
  generalize hs1 : (if clusterLevel s c = 4 then s
    else localEvent (dset s (Key.clusterThermal + c) 4) (32 + c / 8) (40 + c % 8) 0x0203 2 0 0) = s1
  have hok1 : s1.dictOk := by
    rw [← hs1]
    split
    · exact hok
    · exact dset_dictOk hok
  generalize hs2 : kickAll (fenceUnit s1 5 c) = s2
  have hok2 : (turnOff s2 c).dictOk := by
    rw [← hs2]
    exact dictOk_of_kept (turnOff_kept (kickAll_kept (fenceUnit_kept (Kept.view s1)))) hok1
  have hoff := turnOff_off (s := s2) (c := c)
  generalize turnOff s2 c = s3 at hok2 hoff ⊢
  generalize dget s1 (Key.clusterTemp + c) = x
  have hok3 : (dset s3 (Key.clusterThermal + c) 4).dictOk := dset_dictOk hok2
  exact tripped_spec (s := dset (dset s3 (Key.clusterThermal + c) 4) (Key.clusterTemp + c) x) hthermal (dset_dictOk hok3) hoff
    ((dget_dset_ne hok3 hne).trans (dget_dset_same hok2))

/-! ### Banked -/

/-- What is left in Banked before the entries of what is lost are cleared. -/
def bankedBase (s : State) : State :=
  { pending := s.pending, free := s.free, out := s.out, dict := s.dict, dsys := s.dsys
    flash := { flashAfter s with fwState := s.flash.fwState, staged := s.flash.staged }
    sec := restSec s.sec
    rst := { mrst := s.rst.mrst }, q := { perst := s.q.perst }, pw := { module := .banked }
    engines := s.engines
    flt := { hubFault := s.flt.hubFault, alert := s.flt.hubFault, laneRetired := s.flt.laneRetired } }

theorem bankedState_outside_dict {β : Type} (p : State → β) (hp : ∀ t k v, p (dset t k v) = p t) :
    p (bankedState s) = p (bankedBase s) := by
  have hif (c : Prop) [Decidable c] (t : State) (k v : Nat) : p (if c then dset t k v else t) = p t := by
    split
    · exact hp t k v
    · rfl
  unfold bankedState
  dsimp only
  rw [hp, foldl_keeps p (fun t k => hp t k 0), hif, hif, hif]
  rfl

/-- Settles O36. -/
theorem powerStatesAndHeatComplete : Obligations.PowerStatesAndHeatComplete := by
  unfold Obligations.PowerStatesAndHeatComplete
  refine ⟨?_, ?_, ?_, ?_, ?_, ?_⟩
  · intro s hw hrun hr
    obtain ⟨t, hcmd, hspec⟩ := powerSmoulder_rests hrun hr
    exact ⟨_, completes_of rfl (powerStateCmd_written (by decide) hw hcmd), hspec⟩
  · intro s hw hm
    have hcmd : writePowerState s 2 = (bankedState s, 0) := by
      show powerBanked s = _
      unfold powerBanked
      rw [if_neg (by rw [hm]; decide), if_pos hm]
    have keep {β : Type} (p : State → β) (hp : ∀ t k v, p (dset t k v) = p t) := bankedState_outside_dict (s := s) p hp
    exact ⟨completes_of rfl (powerStateCmd_written (by decide) hw hcmd), keep State.mem fun _ _ _ => rfl,
      keep State.flash fun _ _ _ => rfl, congrArg PwSys.module (keep State.pw fun _ _ _ => rfl),
      congrArg QSys.hostEpoch (keep State.q fun _ _ _ => rfl)⟩
  · intro s hw
    refine ⟨fun hm => ?_, fun hm => ?_⟩
    · have hcmd : ∃ s1, writePowerState s 0 = (cordStart (startLevels s1), 0) ∧ s1.pw.module = .run ∧
          s1.q.qeReady = true ∧ s1.q.memReady = true ∧ s1.mem.cells = s.mem.cells ∧ s1.mem.selfRefresh = 0 := by
        show ∃ s1, powerRun s = _ ∧ _
        unfold powerRun
        rw [hm]
        exact ⟨_, rfl, rfl, rfl, rfl, rfl, rfl⟩
      obtain ⟨s1, hcmd, hspec⟩ := hcmd
      exact ⟨s1, completes_of rfl (powerStateCmd_written (by decide) hw hcmd), hspec⟩
    · have hcmd : writePowerState s 0 = (wipe s 3, 0) := by
        show powerRun s = _
        unfold powerRun
        simp only [hm]
      exact completes_of rfl (powerStateCmd_written (by decide) hw hcmd)
  · intro s c t n hok hwf hq hn h4
    exact ⟨_, completes_of rfl rfl, clusterReading_below_trip c.isLt hok hwf hq hn h4⟩
  · intro s c hok hq ht
    exact ⟨_, completes_of rfl rfl, trip_spec c.isLt hok hq ht⟩
  · intro t
    have level (e k : Nat) (he : enteredHeat t = e) (hk : ∀ j < 4, keptHeat j t = min j k) (ht : t < 115 * 16) (he4 : e < 4) (l : Nat)
        (hl : l < 4) : clusterNext l t = min (max l e) k := clusterNext_of_band he hk hl ht he4
    refine ⟨fun l hl h => ?_, fun l hl h h' => ?_, fun h h' => ?_, fun h h' => ?_, fun h h' l hl => ?_, fun h h' => ?_, fun h l hl => ?_,
      fun h => ?_⟩
    · rw [clusterNext_eq t hl, if_pos h]
    · exact (level 3 3 (enteredHeat_of (by omega)) (keptHeat_of (by omega)) (by omega) (by decide) l hl).trans (by omega)
    · have lv := level 2 3 (enteredHeat_of (by omega)) (keptHeat_of (by omega)) (by omega) (by decide)
      exact ⟨lv 0 (by decide), lv 1 (by decide), lv 2 (by decide), lv 3 (by decide), (clusterNext_trip t).trans (if_pos h)⟩
    · have he : enteredHeat t = 1 := enteredHeat_of (by omega)
      have lv := level 1 2 he (keptHeat_of (by omega)) (by omega) (by decide)
      exact ⟨lv 0 (by decide), lv 1 (by decide), lv 2 (by decide), lv 3 (by decide), (clusterNext_trip t).trans ((if_neg (by omega)).trans he)⟩
    · have he : enteredHeat t = 1 := enteredHeat_of (by omega)
      by_cases h4 : l = 4
      · rw [h4, clusterNext_trip, if_neg (by omega), he]
      · exact (level 1 1 he (keptHeat_of (by omega)) (by omega) (by decide) l (by omega)).trans (by omega)
    · have he : enteredHeat t = 0 := enteredHeat_of (by omega)
      have lv := level 0 1 he (keptHeat_of (by omega)) (by omega) (by decide)
      exact ⟨lv 0 (by decide), (clusterNext_trip t).trans ((if_neg (by omega)).trans he), fun l h0 hl => (lv l hl).trans (by omega)⟩
    · have he : enteredHeat t = 0 := enteredHeat_of (by omega)
      by_cases h4 : l = 4
      · rw [h4, clusterNext_trip, if_neg (by omega), he]
      · exact (level 0 0 he (keptHeat_of (by omega)) (by omega) (by decide) l (by omega)).trans (by omega)
    · exact (clusterNext_trip t).trans (if_pos (by omega))

end Sys2Proof.Machine
end

