-- ==== Sys2Proof/Proofs/Monitors.lean ====
section
/-!
PROOF. The low-voltage permit, step monitors and coolant readings (R47, R48, R405).
-/

namespace Sys2Proof.Machine

variable {s : State}

/-! ### The low-voltage permit -/

/-- A level of a die depends on the permit, the fixed level and the limit of the dictionary and on the voltages alone. -/
theorem levelOf_of {t : State} {d : Nat} (hp : dget t Key.lowVoltagePermit = dget s Key.lowVoltagePermit)
    (hf : dget t (Key.draughtFixed + d) = dget s (Key.draughtFixed + d)) (hm : dget t Key.draughtMax = dget s Key.draughtMax)
    (hpw : t.pw = s.pw) : levelOf t d = levelOf s d := by
  unfold levelOf draughtFloor thermalTarget
  rw [hp, hf, hm, hpw]

/-- A die without a fixed level stands at the floor or above it. -/
theorem draughtFloor_le_levelOf {d : Nat} (hm : draughtFloor s ≤ dget s Key.draughtMax) (hf : dget s (Key.draughtFixed + d) = 0) :
    draughtFloor s ≤ levelOf s d := by
  unfold levelOf
  dsimp only
  rw [if_neg (not_not_intro hf)]
  omega

theorem draughtFloor_range : 620 ≤ draughtFloor s ∧ draughtFloor s ≤ 650 := by
  unfold draughtFloor
  split <;> omega

/-- What setting levels leaves: every entry but the levels of the dies, and the power system. -/
structure LevelSide (s t : State) : Prop where
  ok : t.dictOk
  pw : t.pw = s.pw
  kept : ∀ key, (∀ d < 4, key ≠ Key.draughtLevel + d) → dget t key = dget s key

theorem setLevel_levelSide {d v : Nat} (hd : d < 4) (hok : s.dictOk) : LevelSide s (setLevel s d v) := by
  unfold setLevel
  split
  · exact ⟨hok, rfl, fun _ _ => rfl⟩
  · exact ⟨dset_dictOk hok, rfl, fun key h => dget_dset_ne hok (h d hd)⟩

/-- Setting levels leaves what a die should have. -/
theorem LevelSide.levelOf {t : State} (h : LevelSide s t) {d : Nat} (hd : d < 4) : levelOf t d = levelOf s d :=
  levelOf_of (h.kept _ (by decide)) (h.kept _ (by intro e he h; simp [Key.draughtFixed, Key.draughtLevel] at h; omega))
    (h.kept _ (by decide)) h.pw

/-- Of the levels of the first dies: each is what the die should have, or would be outside the range of a level. -/
theorem setLevels_range (hok : s.dictOk) {n : Nat} (hn : n ≤ 4) :
    LevelSide s ((List.range n).foldl (fun st d => setLevel st d (levelOf st d)) s) ∧
      ∀ d < n, 620 ≤ levelOf s d → levelOf s d ≤ 850 →
        dget ((List.range n).foldl (fun st d => setLevel st d (levelOf st d)) s) (Key.draughtLevel + d) = levelOf s d := by
  induction n with
  | zero => exact ⟨⟨hok, rfl, fun _ _ => rfl⟩, fun d hd => absurd hd (Nat.not_lt_zero d)⟩
  | succ n ih =>
    obtain ⟨hside, hlev⟩ := ih (by omega)
    rw [List.range_succ, List.foldl_append]
    generalize hst : (List.range n).foldl (fun st d => setLevel st d (levelOf st d)) s = st at hside hlev
    rw [List.foldl_cons, List.foldl_nil, hside.levelOf (by omega)]
    have hset := setLevel_levelSide (v := levelOf s n) (show n < 4 by omega) hside.ok
    refine ⟨⟨hset.ok, hset.pw.trans hside.pw, fun key h => (hset.kept key h).trans (hside.kept key h)⟩, fun d hd hlo hhi => ?_⟩
    by_cases hdn : d = n
    · rw [hdn] at hlo hhi ⊢
      unfold setLevel
      rw [if_neg (by omega)]
      exact dget_dset_same hside.ok
    · rw [← hlev d (by omega) hlo hhi]
      unfold setLevel
      split
      · rfl
      · exact dget_dset_ne hside.ok (by omega)

theorem setLevels_spec (hok : s.dictOk) : LevelSide s (setLevels s) ∧
    ∀ d < 4, 620 ≤ levelOf s d → levelOf s d ≤ 850 → dget (setLevels s) (Key.draughtLevel + d) = levelOf s d :=
  setLevels_range hok (Nat.le_refl 4)

theorem wset_dictOk {key v : Nat} (hok : s.dictOk) : (wset s key v).dictOk := dset_dictOk (s := s) hok

theorem dget_wset_same {key v : Nat} (hok : s.dictOk) : dget (wset s key v) key = v := dget_dset_same (s := s) hok

theorem dget_wset_ne {key k v : Nat} (hok : s.dictOk) (h : k ≠ key) : dget (wset s key v) k = dget s k :=
  dget_dset_ne (s := s) hok h

theorem plainWrite_permit {v : Nat} : plainWrite s Key.lowVoltagePermit v = (permitWritten (wset s Key.lowVoltagePermit v), 0) := by
  have hkey : isSrcCfg Key.lowVoltagePermit = false ∧ Key.lowVoltagePermit ≠ Key.snapBlock ∧
      runIndex Key.lowVoltagePermit Key.decMask 4 = none ∧ ringWordOk s Key.lowVoltagePermit v = true ∧
      runIndex Key.lowVoltagePermit Key.ringEnable 64 = none ∧
      ¬ (Key.lowVoltagePermit = Key.feedAOvr ∨ Key.lowVoltagePermit = Key.feedBOvr) := by
    refine ⟨by decide, by decide, by decide, ?_, by decide, by decide⟩
    unfold ringWordOk
    rw [show runIndex Key.lowVoltagePermit Key.ringCfg 64 = none from by decide,
      show runIndex Key.lowVoltagePermit Key.ringBase 64 = none from by decide]
  obtain ⟨hsrc, hsnap, hmask, hring, hen, hovr⟩ := hkey
  unfold plainWrite
  rw [if_neg (ne_true_of_eq_false hsrc), if_neg hsnap, if_neg (by rw [hmask]; decide), if_neg (by rw [hring]; decide)]
  dsimp only
  rw [hen]
  dsimp only
  rw [if_neg hovr, if_pos rfl]

/-- The permit is as written, and a die without a fixed level stands at the floor or above it. -/
theorem permitWritten_spec {v : Nat} (hok : s.dictOk) :
    let u := permitWritten (wset s Key.lowVoltagePermit v)
    dget u Key.lowVoltagePermit = v ∧ (s.q.qeReady = true → ∀ d < 4, draughtFloor u ≤ dget s Key.draughtMax →
      dget s (Key.draughtFixed + d) = 0 → draughtFloor u ≤ dget u (Key.draughtLevel + d) ∨ 850 < levelOf u d) := by
  have hwok := wset_dictOk (key := Key.lowVoltagePermit) (v := v) hok
  obtain ⟨hside, hlev⟩ := setLevels_spec hwok
  have hwritten := dget_wset_same (key := Key.lowVoltagePermit) (v := v) hok
  dsimp only
  unfold permitWritten
  by_cases hq : (wset s Key.lowVoltagePermit v).q.qeReady = true
  · rw [if_pos hq]
    refine ⟨(hside.kept _ (by decide)).trans hwritten, fun _ d hd hmax hfix => ?_⟩
    have hfloor : draughtFloor (setLevels (wset s Key.lowVoltagePermit v)) ≤
        levelOf (setLevels (wset s Key.lowVoltagePermit v)) d := by
      refine draughtFloor_le_levelOf ?_ ?_
      · rw [hside.kept _ (by decide), dget_wset_ne hok (by decide)]
        exact hmax
      · rw [hside.kept _ (by intro e he h; simp [Key.draughtFixed, Key.draughtLevel] at h; omega),
          dget_wset_ne hok (by simp only [Key.draughtFixed, Key.lowVoltagePermit, ne_eq]; omega)]
        exact hfix
    have hlow := (draughtFloor_range (s := setLevels (wset s Key.lowVoltagePermit v))).1
    by_cases hhi : levelOf (setLevels (wset s Key.lowVoltagePermit v)) d ≤ 850
    · refine .inl (Nat.le_trans hfloor (Nat.le_of_eq ?_))
      rw [hside.levelOf hd] at hfloor hhi ⊢
      exact (hlev d hd (Nat.le_trans hlow hfloor) hhi).symm
    · exact .inr (Nat.lt_of_not_le hhi)
  · rw [if_neg hq]
    exact ⟨hwritten, fun h => absurd h hq⟩

/-! ### Step monitors -/

/-- A run of entries set one by one: each holds its own value, and every other entry what it held. -/
theorem foldl_dset_run {base : Nat} {f : Nat → Nat} (hok : s.dictOk) (n : Nat) :
    ((List.range n).foldl (fun st c => dset st (base + c) (f c)) s).dictOk ∧
      (∀ c < n, dget ((List.range n).foldl (fun st c => dset st (base + c) (f c)) s) (base + c) = f c) ∧
      (∀ key, (∀ c < n, key ≠ base + c) → dget ((List.range n).foldl (fun st c => dset st (base + c) (f c)) s) key = dget s key) ∧
      ∃ dict, (List.range n).foldl (fun st c => dset st (base + c) (f c)) s = { s with dict := dict } := by
  induction n with
  | zero => exact ⟨hok, fun c hc => absurd hc (Nat.not_lt_zero c), fun _ _ => rfl, s.dict, rfl⟩
  | succ n ih =>
    obtain ⟨hok', hval, hkept, dict, hdict⟩ := ih
    rw [List.range_succ, List.foldl_append]
    refine ⟨dset_dictOk hok', fun c hc => ?_, fun key h => ?_, ?_⟩
    · by_cases hcn : c = n
      · rw [hcn]
        exact dget_dset_same hok'
      · exact (dget_dset_ne hok' (by omega)).trans (hval c (by omega))
    · exact (dget_dset_ne hok' (h n (by omega))).trans (hkept key fun c hc => h c (by omega))
    · rw [hdict]
      exact ⟨_, rfl⟩

/-- The rates of clusters and of dies, and the count of windows, each in its own entry. -/
theorem stepRates_written {f g : Nat → Nat} (hok : s.dictOk) :
    let s1 := (List.range 32).foldl (fun st c => dset st (Key.clusterStepRate + c) (f c)) s
    let s2 := (List.range 4).foldl (fun st d => dset st (Key.dieStepRate + d) (g d)) s1
    let u := dset s2 Key.stepMonCount ((dget s2 Key.stepMonCount + 1) % 2 ^ 32)
    (∀ c < 32, dget u (Key.clusterStepRate + c) = f c) ∧
      dget u Key.stepMonCount = (dget s Key.stepMonCount + 1) % 2 ^ 32 ∧ u = { s with dict := u.dict } := by
  obtain ⟨hok1, hval1, hkept1, dict1, hdict1⟩ := foldl_dset_run (base := Key.clusterStepRate) (f := f) hok 32
  obtain ⟨hok2, -, hkept2, dict2, hdict2⟩ := foldl_dset_run (base := Key.dieStepRate) (f := g) hok1 4
  refine ⟨fun c hc => ?_, ?_, ?_⟩
  · refine (dget_dset_ne hok2 ?_).trans ((hkept2 _ fun d hd => ?_).trans (hval1 c hc))
    · simp only [Key.clusterStepRate, Key.stepMonCount, ne_eq]
      omega
    · simp only [Key.clusterStepRate, Key.dieStepRate, ne_eq]
      omega
  · refine (dget_dset_same hok2).trans (congrArg (fun n => (n + 1) % 2 ^ 32) ?_)
    refine (hkept2 _ fun d hd => ?_).trans (hkept1 _ fun c hc => ?_)
    · simp only [Key.stepMonCount, Key.dieStepRate, ne_eq]
      omega
    · simp only [Key.stepMonCount, Key.clusterStepRate, ne_eq]
      omega
  · rw [hdict2, hdict1]
    rfl

theorem stepMonitor_spec {counts : List Nat} (hok : s.dictOk) (hq : s.q.qeReady = true) :
    (∀ c < 32, dget (stepMonitor s counts) (Key.clusterStepRate + c) = if 2 ≤ clusterCond s c then 0
        else counts.getD c 0 * 156250000 / 2 ^ dget s Key.stepMonWindow / 1000 % 2 ^ 32) ∧
      dget (stepMonitor s counts) Key.stepMonCount = (dget s Key.stepMonCount + 1) % 2 ^ 32 ∧
      stepMonitor s counts = { s with dict := (stepMonitor s counts).dict } := by
  unfold stepMonitor
  rw [if_neg (by rw [hq]; decide)]
  exact stepRates_written hok

/-! ### Coolant -/

/-- Both readings are shown, and an inlet that comes to be hot has its event. -/
theorem coolant_shown {a b : Nat} {hot : Bool} (hok : s.dictOk) :
    let s1 := dset (dset s Key.coolantTemp a) (Key.coolantTemp + 1) b
    let s2 : State := { s1 with pw := { s1.pw with coolantHot := hot } }
    let u := if hot && !s.pw.coolantHot then hubEvent s2 0x0206 else s2
    dget u Key.coolantTemp = a ∧ dget u (Key.coolantTemp + 1) = b ∧ u.pw.coolantHot = hot ∧
      u.ev.evq = s.ev.evq ++
        (if u.pw.coolantHot = true ∧ s.pw.coolantHot = false then [{ source := 0x0206, kind := 2 }] else []) := by
  intro s1 s2 u
  have hin : dget s1 Key.coolantTemp = a := (dget_dset_ne (dset_dictOk hok) (by decide)).trans (dget_dset_same hok)
  have hout : dget s1 (Key.coolantTemp + 1) = b := dget_dset_same (dset_dictOk hok)
  by_cases hc : (hot && !s.pw.coolantHot) = true
  · have hu : u = hubEvent s2 0x0206 := if_pos hc
    rw [hu]
    exact ⟨hin, hout, rfl, congrArg (s.ev.evq ++ ·) (if_pos (by simpa using hc)).symm⟩
  · have hu : u = s2 := if_neg hc
    rw [hu]
    refine ⟨hin, hout, rfl, ?_⟩
    rw [if_neg (by simpa [s2] using hc), List.append_nil]
    rfl

/-- Settles O37: the permit's levels by `permitWritten_spec`, the window by `stepRates_written`, the readings by `coolant_shown`. -/
theorem monitorsComplete : Obligations.MonitorsComplete := by
  unfold Obligations.MonitorsComplete
  refine ⟨fun s v hmay hok => ?_, fun s counts hok hq => ?_, fun s i o hok => ?_⟩
  · exact ⟨_, completes_of rfl (ownWrite_of_plain hmay (by decide) v.isLt (by rfl) plainWrite_permit), permitWritten_spec hok⟩
  · exact ⟨_, rfl, stepMonitor_spec hok hq⟩
  · obtain ⟨hin, hout, hhot, hev⟩ := coolant_shown (hot := match i with | none => s.pw.coolantHot | some x => decide (x > 50 * 16))
      (a := match i with | none => 0x7FFF | some x => signed16 x) (b := match o with | none => 0x7FFF | some x => signed16 x) hok
    refine ⟨_, rfl, hin, hout, fun x hx => ?_, fun hn => ?_, hev⟩
    · subst hx
      exact hhot
    · subst hn
      exact hhot

end Sys2Proof.Machine
end

