-- ==== Sys2Proof/Proofs/Cord.lean ====
section
/-!
PROOF. What frames of the Cord and the timers of its channels do (R310–R313, R320, R321, R324, R326). A frame is checked, belongs to
a path, and meets its channel's sequence: one lemma for each, which every command of a frame goes through.
-/

namespace Sys2Proof.Machine

variable {s s2 : State} {peer port type : Nat} {f g : CordFrame}

/-! ### Channels -/

theorem getChan_setChan_same {key : Nat} {c : Chan} (h : twf {} s.cord.chans = true) : getChan (setChan s key c) key = c :=
  (tget_tset _ _ _ _ _ h).trans (if_pos rfl)

theorem getChan_setChan_ne {key k : Nat} {c : Chan} (h : twf {} s.cord.chans = true) (hk : k ≠ key) :
    getChan (setChan s key c) k = getChan s k := tget_tset_ne h hk

/-- Sending a frame changes the counts of its port and what leaves the module. -/
theorem sendFrame_parts {key : Nat} {x : TxFrame} {retx : Bool} {b : List Byte} : ∃ tx rx out,
    sendFrame s key x retx b = { s with cord := { s.cord with portTx := tx, portRetx := rx }, out := out } := by
  unfold sendFrame
  by_cases h : (!portOpen s (key / 16 % 8)) = true
  · exact ⟨_, _, _, if_pos h⟩
  · exact ⟨_, _, _, if_neg h⟩

theorem sendFrame_chans {key : Nat} {x : TxFrame} {retx : Bool} {b : List Byte} :
    (sendFrame s key x retx b).cord.chans = s.cord.chans := by
  obtain ⟨tx, rx, out, h⟩ := sendFrame_parts (s := s) (key := key) (x := x) (retx := retx) (b := b)
  rw [h]

theorem sendFrame_posted {key : Nat} {x : TxFrame} {retx : Bool} {b : List Byte} :
    (sendFrame s key x retx b).cord.posted = s.cord.posted := by
  obtain ⟨tx, rx, out, h⟩ := sendFrame_parts (s := s) (key := key) (x := x) (retx := retx) (b := b)
  rw [h]

theorem sendFrame_mem {key : Nat} {x : TxFrame} {retx : Bool} {b : List Byte} : (sendFrame s key x retx b).mem = s.mem := by
  obtain ⟨tx, rx, out, h⟩ := sendFrame_parts (s := s) (key := key) (x := x) (retx := retx) (b := b)
  rw [h]

theorem chanKey_peer {ch : Nat} (hp : port < 8) (hc : ch < 16) : chanKey peer port ch / 128 = peer := by
  unfold chanKey pathKey
  omega

theorem chanKey_port {ch : Nat} (hp : port < 8) (hc : ch < 16) : chanKey peer port ch / 16 % 8 = port := by
  unfold chanKey pathKey
  omega

/-! ### A frame at a port, on a path and at its channel -/

theorem rxCheck_accepted {k : State → CordFrame → State} (h : accepted s port type f g) : rxCheck s port type f k = k s g := by
  obtain ⟨hopen, hverdict, hg⟩ := h
  unfold rxCheck
  rw [if_neg (by rw [hopen]; decide), hverdict, hg]

theorem rxFrame_in {k : State → State} (h : frameIn s s2 peer port type f g) : rxFrame s peer port g k = pump (k s2) := by
  obtain ⟨-, hexists, hup, s1, hsession, hs2⟩ := h
  unfold rxFrame
  rw [if_neg (by rw [hexists, hup]; decide), hsession, hs2]

theorem rxFrame_down {k : State → State} (h : pathUp s peer port = false) : rxFrame s peer port g k = s := by
  unfold rxFrame
  rw [if_pos (by rw [h]; simp)]

theorem rxSeq_applied {key : Nat} {take : State → Taken} {s3 : State} (hseq : g.seq = (getChan s key).expected)
    (h : take s = .done s3) : rxSeq s key g take = frameApplied s3 key := by
  unfold rxSeq
  dsimp only
  rw [if_pos hseq, h]
  rfl

theorem rxSeq_notPosted {key : Nat} {take : State → Taken} (hseq : g.seq = (getChan s key).expected) (h : take s = .notPosted) :
    rxSeq s key g take = sendNak (setChan s key { getChan s key with gapSent := false }) key 2 := by
  unfold rxSeq
  dsimp only
  rw [if_pos hseq, h]

theorem rxSeq_behind {key : Nat} {take : State → Taken} (h : 2 ^ 31 ≤ (g.seq + 2 ^ 32 - (getChan s key).expected) % 2 ^ 32) :
    rxSeq s key g take = sendAck s key := by
  unfold rxSeq
  dsimp only
  rw [if_neg (by omega), if_neg (by omega)]

theorem rxSeq_ahead {key : Nat} {take : State → Taken} (hne : g.seq ≠ (getChan s key).expected)
    (h : (g.seq + 2 ^ 32 - (getChan s key).expected) % 2 ^ 32 < 2 ^ 31) :
    rxSeq s key g take = if (getChan s key).gapSent then s
      else sendNak (setChan s key { getChan s key with gapSent := true }) key 0 := by
  unfold rxSeq
  dsimp only
  rw [if_neg hne, if_pos h]

theorem inGroup_known {k : State → State} (h : groupKnown s g = true) : inGroup s g k = k s := if_pos h

theorem inGroup_unknown {k : State → State} (h : groupKnown s g = false) : inGroup s g k = cordDrop s :=
  if_neg (ne_true_of_eq_false h)

/-- Every sequenced frame that is accepted, and belongs to a group where it names one, meets its channel. -/
theorem exec_sequencedCmds {port : Fin 8} {hit : Option (Nat × Nat × Bool)} {x : Nat × CordFrame × Instr}
    (hx : x ∈ sequencedCmds peer port f hit) (hgroup : x.1 = 1 ∨ x.1 = 2 → groupKnown s g = true)
    (h : accepted s port.val x.1 x.2.1 g) : ∃ take, exec x.2.2 s = .next (rxSequenced s peer port.val g take) := by
  have hctrl : ∀ {code : Nat} {k : CordFrame → State → State}, accepted s port.val 11 { f with code := code } g →
      rxCtrl s peer port.val code f k = rxSequenced s peer port.val g fun s2 => .done (k g s2) := fun h => rxCheck_accepted h
  unfold sequencedCmds at hx
  dsimp only at hx
  simp only [List.mem_cons, List.not_mem_nil, or_false] at hx
  rcases hx with rfl | rfl | rfl | rfl | rfl | rfl | rfl | rfl | rfl | rfl | rfl | rfl | rfl | rfl | rfl | rfl
  · exact ⟨_, (congrArg Host.Outcome.next (rxCheck_accepted h)).trans
      (congrArg Host.Outcome.next (inGroup_known (hgroup (.inl rfl))))⟩
  · exact ⟨_, (congrArg Host.Outcome.next (rxCheck_accepted h)).trans
      (congrArg Host.Outcome.next (inGroup_known (hgroup (.inr rfl))))⟩
  · exact ⟨_, congrArg Host.Outcome.next (rxCheck_accepted h)⟩
  all_goals exact ⟨_, congrArg Host.Outcome.next (hctrl h)⟩

/-! ### Frames of collectives -/

theorem frameApplied_chan {key : Nat} (h : twf {} s.cord.chans = true) :
    (getChan (frameApplied s key) key).expected = ((getChan s key).expected + 1) % 2 ^ 32 ∧
      (getChan (frameApplied s key) key).owed = (if (getChan s key).owed < 7 then (getChan s key).owed + 1 else 0) ∧
      (∀ k, k ≠ key → getChan (frameApplied s key) k = getChan s k) ∧
      (frameApplied s key).mem = s.mem ∧ (frameApplied s key).cord.posted = s.cord.posted := by
  unfold frameApplied
  dsimp only
  generalize hc : ({ getChan s key with
      expected := ((getChan s key).expected + 1) % 2 ^ 32, owed := (getChan s key).owed + 1, gapSent := false } : Chan) = c
  have hsame := getChan_setChan_same (key := key) (c := c) h
  by_cases ho : (getChan s key).owed + 1 ≥ 8
  · rw [if_pos ho, if_neg (by omega)]
    have hwf : twf {} (setChan s key c).cord.chans = true := tset_wf _ _ _ _ h
    have hchans : (sendAck (setChan s key c) key).cord.chans =
        (setChan (setChan s key c) key { getChan (setChan s key c) key with owed := 0 }).cord.chans := sendFrame_chans
    have hget : ∀ k, getChan (sendAck (setChan s key c) key) k =
        getChan (setChan (setChan s key c) key { getChan (setChan s key c) key with owed := 0 }) k :=
      fun k => congrArg (fun t : Tab Chan => tget ({} : Chan) t k) hchans
    refine ⟨?_, ?_, fun k hk => ?_, sendFrame_mem, sendFrame_posted⟩
    · rw [hget, getChan_setChan_same hwf, hsame, ← hc]
    · rw [hget, getChan_setChan_same hwf]
    · rw [hget, getChan_setChan_ne hwf hk, getChan_setChan_ne h hk]
  · rw [if_neg ho, if_pos (by omega), hsame, ← hc]
    exact ⟨rfl, rfl, fun k hk => getChan_setChan_ne h hk, rfl, rfl⟩

theorem takeRa_applied {s3 : State} {hit : Option RaHit} {c : Coll} {fmt : Fmt} {n : Nat} (hcoll : collOf s g = some c)
    (hab : c.aborted = none) (hgather : c.gather = false) (hfmt : Fmt.ofCode g.code = some fmt) (hacc : fmt.accumulates = true)
    (hfit : g.elem + g.payload.length / fmt.bytes ≤ c.shard) (hrank : g.srcRank < c.members)
    (happly : applyChunks s { home := c.home } fmt c.x.bb (c.accBase + 16 * g.elem) 0 0 hit
      (frameChunks fmt.bytes (g.payload.length + 1) g.payload) = (some (0, n), s3)) :
    takeRa s peer port g hit = .done (collGot s3 c g.srcRank (g.payload.length / fmt.bytes)) := by
  have hbad : ¬ (c.gather || !fmt.accumulates || decide (g.elem + g.payload.length / fmt.bytes > c.shard)
      || decide (g.srcRank ≥ c.members)) = true := by
    rw [hgather, hacc, decide_eq_false (by omega), decide_eq_false (by omega)]
    decide
  unfold takeRa
  rw [hcoll]
  dsimp only
  rw [if_neg (by rw [hab]; decide), hfmt]
  dsimp only
  rw [if_neg hbad, happly]
  rfl

theorem takeGather_applied {s3 : State} {c : Coll} (hcoll : collOf s g = some c) (hab : c.aborted = none) (hgather : c.gather = true)
    (hfit : 64 * g.elem + g.payload.length ≤ c.shard) (hrank : g.srcRank < c.members)
    (hwrite : devWrite s { home := c.home } false (c.yBase + g.srcRank * c.shard + 64 * g.elem) g.payload = (none, s3)) :
    takeGather s g = .done (collGot s3 c g.srcRank g.payload.length) := by
  have hbad : ¬ (!c.gather || decide (64 * g.elem + g.payload.length > c.shard) || decide (g.srcRank ≥ c.members)) = true := by
    rw [hgather, decide_eq_false (by omega), decide_eq_false (by omega)]
    decide
  unfold takeGather
  rw [hcoll]
  dsimp only
  rw [if_neg (by rw [hab]; decide), if_neg hbad, hwrite]

/-- What the first two commands of sequenced frames do with an accepted frame. -/
theorem exec_groupCmds {port : Fin 8} {hit : Option (Nat × Nat × Bool)} {x : Nat × CordFrame × Instr}
    (hx : x ∈ (sequencedCmds peer port f hit).take 2) (h : accepted s port.val x.1 x.2.1 g) :
    ∃ take : State → Taken, exec x.2.2 s = .next (rxGroup s peer port.val g take) ∧
      ∀ u, collOf u g = none → take u = .notPosted := by
  rcases List.mem_cons.1 hx with rfl | hx
  · refine ⟨_, congrArg Host.Outcome.next (rxCheck_accepted h), fun u hu => ?_⟩
    unfold takeRa
    rw [hu]
  · rcases List.mem_cons.1 hx with rfl | hx
    · refine ⟨_, congrArg Host.Outcome.next (rxCheck_accepted h), fun u hu => ?_⟩
      unfold takeGather
      rw [hu]
    · exact absurd hx List.not_mem_nil

/-- Settles O41: an expected frame is applied by `rxSeq_applied`, with what `takeRa` and `takeGather` make of it. -/
theorem collectiveFramesComplete : Obligations.CollectiveFramesComplete := by
  unfold Obligations.CollectiveFramesComplete
  refine ⟨fun s key => frameApplied_chan, ?_, ?_, ?_⟩
  · intro s s2 s3 peer port f g hit c fmt n hin hgroup hseq hcoll hab hgather hfmt hacc hfit hrank happly
    refine completes_of rfl ((rxCheck_accepted hin.1).trans ((inGroup_known hgroup).trans ((rxFrame_in hin).trans ?_)))
    exact congrArg pump (rxSeq_applied hseq (takeRa_applied hcoll hab hgather hfmt hacc hfit hrank happly))
  · intro s s2 s3 peer port f g c hin hgroup hseq hcoll hab hgather hfit hrank hwrite
    refine completes_of rfl ((rxCheck_accepted hin.1).trans ((inGroup_known hgroup).trans ((rxFrame_in hin).trans ?_)))
    exact congrArg pump (rxSeq_applied hseq (takeGather_applied hcoll hab hgather hfit hrank hwrite))
  · intro s s2 peer port f g hit key x hx hkey
    refine ⟨fun hacc hgroup => ?_, fun hin hgroup hseq hcoll => ?_⟩
    · obtain ⟨take, hexec, -⟩ := exec_groupCmds hx hacc
      exact completes_of hexec (inGroup_unknown hgroup)
    · obtain ⟨take, hexec, htake⟩ := exec_groupCmds hx hin.1
      subst hkey
      exact completes_of hexec ((inGroup_known hgroup).trans ((rxFrame_in hin).trans
        (congrArg pump (rxSeq_notPosted hseq (htake _ hcoll)))))

/-- Settles O42: by `exec_sequencedCmds` every such frame meets its channel, where the three orders exclude each other. -/
theorem framesOutOfOrderHaveNoEffect : Obligations.FramesOutOfOrderHaveNoEffect := by
  unfold Obligations.FramesOutOfOrderHaveNoEffect
  intro s peer port f g hit x hx hgroup
  refine ⟨fun hacc hdown => ?_, fun s2 key c hin hkey hc => ⟨fun hbehind => ?_, fun hne hahead => ?_⟩⟩
  · obtain ⟨take, hexec⟩ := exec_sequencedCmds hx hgroup hacc
    exact completes_of hexec (rxFrame_down hdown)
  · obtain ⟨take, hexec⟩ := exec_sequencedCmds hx hgroup hin.1
    subst hc hkey
    exact completes_of hexec ((rxFrame_in hin).trans (congrArg pump (rxSeq_behind hbehind)))
  · obtain ⟨take, hexec⟩ := exec_sequencedCmds hx hgroup hin.1
    subst hc hkey
    exact completes_of hexec ((rxFrame_in hin).trans (congrArg pump (rxSeq_ahead hne hahead)))

/-! ### Acknowledgements and the timers of channels -/

theorem goBack_resends {key seq : Nat} (h : (getChan s key).goBacks < dget s Key.cordRetryMax) :
    goBack s key seq = resend (setChan s key { getChan s key with goBacks := (getChan s key).goBacks + 1 }) key seq := by
  unfold goBack
  exact if_neg (by omega)

theorem goBack_lost {ch seq : Nat} (hp : port < 8) (hch : ch < 16)
    (h : dget s Key.cordRetryMax ≤ (getChan s (chanKey peer port ch)).goBacks) :
    goBack s (chanKey peer port ch) seq = pathLost s peer port 2 := by
  unfold goBack
  dsimp only
  rw [if_pos (by omega), chanKey_peer hp hch, chanKey_port hp hch]

theorem chanTimer_up {ch : Nat} {k : Nat → Chan → State} (h : pathUp s peer port = true) (hch : ch < 16) :
    chanTimer s peer port ch k = pump (k (chanKey peer port ch) (getChan s (chanKey peer port ch))) := by
  unfold chanTimer
  rw [if_pos h, Nat.mod_eq_of_lt hch]

/-- Settles O43: each frame by `rxFrame_in`, each timer by `chanTimer_up`, and a go-back by its count. -/
theorem acknowledgementsComplete : Obligations.AcknowledgementsComplete := by
  unfold Obligations.AcknowledgementsComplete
  refine ⟨?_, ?_, ?_⟩
  · intro s s2 peer port f g key c late hin hkey hc hlate
    subst hlate hc hkey
    exact completes_of rfl ((rxCheck_accepted hin.1).trans (rxFrame_in hin))
  · intro s s2 peer port f g key c hin hkey hc hne
    subst hc hkey
    have hnak := (rxCheck_accepted (k := fun s1 g => rxNak s1 peer port.val g) hin.1).trans (rxFrame_in hin)
    have hempty : ¬ (getChan s2 (chanKey peer port.val (g.chan % 16))).unacked.isEmpty = true := by
      rwa [List.isEmpty_iff]
    refine ⟨fun hcode hlt => ?_, fun hcode hge => ?_, fun hcode => ?_⟩
    · refine completes_of rfl (hnak.trans (congrArg pump ?_))
      dsimp only
      rw [if_neg hempty, if_pos hcode]
      exact goBack_resends hlt
    · refine completes_of rfl (hnak.trans (congrArg pump ?_))
      dsimp only
      rw [if_neg hempty, if_pos hcode]
      exact goBack_lost port.isLt (Nat.mod_lt _ (by decide)) hge
    · refine completes_of rfl (hnak.trans (congrArg pump ?_))
      dsimp only
      rw [if_neg hempty, if_neg hcode]
  · intro s peer port ch key c hup hkey hc
    subst hc hkey
    refine ⟨fun s1 c1 hs1 hc1 => ⟨fun h => ?_, fun x rest hx hrnr => ?_⟩, fun a ha => ?_, fun howed => ?_⟩
    · refine completes_of rfl ((chanTimer_up hup ch.isLt).trans (congrArg pump ?_))
      subst hc1 hs1
      dsimp only
      cases hu : (getChan s (chanKey peer port.val ch.val)).unacked with
      | nil => rfl
      | cons x rest =>
        obtain h | h := h
        · exact absurd (hu.symm.trans h) (by simp)
        · exact if_pos h
    · have hrto : rtoExpiry s peer port.val ch.val = pump (goBack s1 (chanKey peer port.val ch.val) x.seq) := by
        refine (chanTimer_up hup ch.isLt).trans (congrArg pump ?_)
        subst hs1
        dsimp only
        rw [hx]
        exact if_neg (by rw [hrnr]; decide)
      have hmax : dget s1 Key.cordRetryMax = dget s Key.cordRetryMax := by rw [hs1]; rfl
      subst hc1
      refine ⟨fun hlt => completes_of rfl (hrto.trans (congrArg pump (goBack_resends (by rw [hmax]; exact hlt)))),
        fun hge => completes_of rfl (hrto.trans (congrArg pump (goBack_lost port.isLt ch.isLt (by rw [hmax]; exact hge))))⟩
    · refine completes_of rfl ((chanTimer_up hup ch.isLt).trans (congrArg pump ?_))
      rw [ha]
    · exact completes_of rfl ((chanTimer_up hup ch.isLt).trans (congrArg pump (if_neg howed)))

end Sys2Proof.Machine
end

