-- ==== Sys2Proof/Proofs/CommandEntries.lean ====
section
/-!
PROOF. What a write of each command entry does: the branch of `commandWrite` that is its own.
-/

namespace Sys2Proof.Machine

variable {s : State} {v : Nat} {x : Outside}

theorem commandWrite_resetCmd : commandWrite s Key.resetCmd v x =
    some (writeResetCmd s v) := by
  unfold commandWrite
  exact if_pos rfl

theorem commandWrite_fwStageCmd : commandWrite s Key.fwStageCmd v x =
    some (writeFwCmd s v) := by
  unfold commandWrite
  repeat rw [if_neg (by decide)]
  exact if_pos rfl

theorem commandWrite_faultInject : commandWrite s Key.faultInject v x =
    some (writeFaultInject s v) := by
  unfold commandWrite
  repeat rw [if_neg (by decide)]
  exact if_pos rfl

theorem commandWrite_alertAck : commandWrite s Key.alertAck v x =
    some (writeAlertAck s v, 0) := by
  unfold commandWrite
  repeat rw [if_neg (by decide)]
  exact if_pos rfl

theorem commandWrite_engineUnretire : commandWrite s Key.engineUnretire v x =
    some (writeUnretire s v) := by
  unfold commandWrite
  repeat rw [if_neg (by decide)]
  exact if_pos rfl

theorem commandWrite_cordPeerCount : commandWrite s Key.cordPeerCount v x =
    some (writePeerCount s v) := by
  unfold commandWrite
  repeat rw [if_neg (by decide)]
  exact if_pos rfl

theorem commandWrite_partnerHolder : commandWrite s Key.partnerHolder v x =
    some (writePartnerHolder s v) := by
  unfold commandWrite
  repeat rw [if_neg (by decide)]
  exact if_pos rfl

theorem commandWrite_partnerOf : commandWrite s Key.partnerOf v x =
    some (writePartnerOf s v, 0) := by
  unfold commandWrite
  repeat rw [if_neg (by decide)]
  exact if_pos rfl

theorem commandWrite_freezeNow : commandWrite s Key.freezeNow v x =
    some (if v = 1 then { s with ck := { s.ck with now := true, nowPast := [] } } else s, 0) := by
  unfold commandWrite
  repeat rw [if_neg (by decide)]
  exact if_pos rfl

theorem commandWrite_restoreCmd : commandWrite s Key.restoreCmd v x =
    some (writeRestoreCmd s v x.hostList) := by
  unfold commandWrite
  repeat rw [if_neg (by decide)]
  exact if_pos rfl

theorem commandWrite_dictCommit : commandWrite s Key.dictCommit v x =
    some (if v = 1 then writeCommit s else (s, 0)) := by
  unfold commandWrite
  repeat rw [if_neg (by decide)]
  exact if_pos rfl

theorem commandWrite_snapTrigger : commandWrite s Key.snapTrigger v x =
    some (writeSnapTrigger s v, 0) := by
  unfold commandWrite
  repeat rw [if_neg (by decide)]
  exact if_pos rfl

theorem commandWrite_snapResume : commandWrite s Key.snapResume v x =
    some (snapResume s v, 0) := by
  unfold commandWrite
  repeat rw [if_neg (by decide)]
  exact if_pos rfl

theorem commandWrite_serviceOpenCmd : commandWrite s Key.serviceOpenCmd v x =
    some (if v = 1 then openRequest s none else s, 0) := by
  unfold commandWrite
  repeat rw [if_neg (by decide)]
  exact if_pos rfl

theorem commandWrite_attCmd : commandWrite s Key.attCmd v x =
    some (attGenerate s) := by
  unfold commandWrite
  repeat rw [if_neg (by decide)]
  exact if_pos rfl

theorem commandWrite_enrolCmd : commandWrite s Key.enrolCmd v x =
    some (writeEnrolCmd s v) := by
  unfold commandWrite
  repeat rw [if_neg (by decide)]
  exact if_pos rfl

end Sys2Proof.Machine
end

