-- ==== Sys2Proof/Proofs/CordPaths.lean ====
section
/-!
PROOF. Paths, ports and peers of the Cord, aborted collectives and heat holds (R309, R313–R317, R329–R332).
-/

namespace Sys2Proof.Machine

variable {s s1 s2 : State} {peer port type : Nat} {f g : CordFrame}

/-! ### Paths and ports -/

theorem rxHeartbeat_known (hstate : dget s (Key.cordPortState + port) = 2) (hexists : pathExists s peer port = true)
    (hid : leField g.payload 0 4 = (getPeer s peer).moduleId) (hsession : rxSession s peer port g false = some s1)
    (hs2 : s2 = hubEvent { s1 with cord := { s1.cord with up := sinsert (pathKey peer port) s1.cord.up } } 0x0400) :
    rxHeartbeat s peer port g = if pathUp s1 peer port then s1
      else if (livePorts s1 peer).isEmpty && dget s2 Key.partnerHolder == peer && dget s2 Key.pairState != 2 then
        pump (startPairing s2) else s2 := by
  unfold rxHeartbeat
  rw [if_neg (by rw [hexists, hstate]; decide), if_neg (not_not_intro hid), hsession, hs2]

theorem portOpen_state (h : portOpen s port = true) : dget s (Key.cordPortState + port) = 2 :=
  of_decide_eq_true (Bool.and_eq_true_iff.1 h).2

theorem sendFrame_open {key : Nat} {x : TxFrame} {b : List Byte} (h : portOpen s (key / 16 % 8) = true) :
    ∃ cord, sendFrame s key x false b = { s with cord := cord, out := s.out ++ [.cord (key / 128) (key / 16 % 8) x.type (wireFrame s key x false b)] } ∧
      cord.posted = s.cord.posted ∧ cord.chans = s.cord.chans := by
  unfold sendFrame
  exact ⟨_, if_neg (by rw [h]; decide), rfl, rfl⟩

theorem heartbeatSend_open (hexists : pathExists s peer port = true) (hstate : dget s (Key.cordPortState + port) = 2) (hp : port < 8) :
    ∃ cord f, heartbeatSend s peer port = { s with cord := cord, out := s.out ++ [.cord peer port 6 f] } ∧
      cord.posted = s.cord.posted ∧ cord.chans = s.cord.chans ∧
      f = wireFrame s (chanKey peer port 0) { type := 6, src := .lit (leBytes 64 Config.moduleId.toNat) } false
        (leBytes 64 Config.moduleId.toNat) := by
  have hstarted : s.cord.started = true := (Bool.and_eq_true_iff.1 hexists).2
  have hkey : chanKey peer port 0 / 128 = peer ∧ chanKey peer port 0 / 16 % 8 = port :=
    ⟨chanKey_peer hp (by decide), chanKey_port hp (by decide)⟩
  have hopen : portOpen s (chanKey peer port 0 / 16 % 8) = true := by
    unfold portOpen
    rw [hkey.2, hstarted, hstate]
    rfl
  obtain ⟨cord, hsend, hposted, hchans⟩ := sendFrame_open (x := { type := 6, src := .lit (leBytes 64 Config.moduleId.toNat) })
    (b := leBytes 64 Config.moduleId.toNat) hopen
  rw [hkey.1, hkey.2] at hsend
  refine ⟨cord, _, ?_, hposted, hchans, rfl⟩
  unfold heartbeatSend
  rw [if_pos (by rw [hexists, hstate]; rfl)]
  exact hsend

theorem portChange_up (hp : port < 8) (hstarted : s.cord.started = true) (hen : bitOf (dget s Key.cordPortEnable) port = true)
    (hstate : dget s (Key.cordPortState + port) ≠ 2) :
    portChange s port true = hubEvent (dset s (Key.cordPortState + port) 2) 0x0403 := by
  unfold portChange
  rw [if_neg (by rw [hstarted]; simp; omega), hen]
  dsimp only
  exact (if_neg hstate).trans (if_pos rfl)

theorem portChange_down (hp : port < 8) (hstarted : s.cord.started = true) (hen : bitOf (dget s Key.cordPortEnable) port = true)
    (hstate : dget s (Key.cordPortState + port) ≠ 0) (hs1 : s1 = hubEvent (dset s (Key.cordPortState + port) 0) 0x0403) :
    portChange s port false = pump ((s1.cord.up.filter fun k => k % 8 == port).foldl (fun st k => pathLost st (k / 8) port 2) s1) := by
  unfold portChange
  rw [if_neg (by rw [hstarted]; simp; omega), hen, hs1]
  dsimp only
  exact (if_neg hstate).trans (if_neg (by decide))

/-! ### Dropped frames -/

theorem frameDrop_drop {b : List Byte} {fcs : Bool} (hparse : parseFrame b = (type, f)) (hopen : portOpen s port = true)
    (hv : portVerdict s port type { f with fcsOk := fcs } = .drop) : frameDrop s port b fcs = cordDrop s := by
  unfold frameDrop rxCheck
  rw [hparse]
  dsimp only
  rw [if_neg (by rw [hopen]; decide), hv]

theorem frameDrop_crcDrop {b : List Byte} {fcs : Bool} (hparse : parseFrame b = (type, f)) (hopen : portOpen s port = true)
    (hv : portVerdict s port type { f with fcsOk := fcs } = .crcDrop) : frameDrop s port b fcs = dcount s Key.cordCrcDrops := by
  unfold frameDrop rxCheck
  rw [hparse]
  dsimp only
  rw [if_neg (by rw [hopen]; decide), hv]

theorem portVerdict_fcs : portVerdict s port type { f with fcsOk := false } = .crcDrop := rfl

theorem portVerdict_misfit (he : f.etherType ≠ 0x8808)
    (h : f.dst ≠ portMac port ∨ f.etherType ≠ dget s Key.cordEthertype ∨ f.tag.any (fun t => t % 4096 != dget s Key.cordVlan) ∨
      4158 < frameLength f ∨ f.payload.length < 64 * f.len) : portVerdict s port type { f with fcsOk := true } = .drop := by
  unfold portVerdict frameVerdict
  exact (if_neg Bool.false_ne_true).trans ((if_neg he).trans (if_pos h))

theorem portVerdict_fits (he : f.etherType ≠ 0x8808) (hdst : f.dst = portMac port) (hether : f.etherType = dget s Key.cordEthertype)
    (htag : f.tag = none) (hlen : frameLength f ≤ 4158) (hpay : 64 * f.len ≤ f.payload.length) :
    portVerdict s port type { f with fcsOk := true } = if f.crc ≠ frameSum f type then .crcDrop
      else if f.ver ≠ 1 ∨ f.rsvd ≠ 0 ∨ !codeListed formatCode type f.code then .drop else .accept := by
  have hfits : ¬ (f.dst ≠ portMac port ∨ f.etherType ≠ dget s Key.cordEthertype ∨
      f.tag.any (fun t => t % 4096 != dget s Key.cordVlan) ∨ 4158 < frameLength f ∨ f.payload.length < 64 * f.len) := by
    rintro (h | h | h | h | h)
    · exact h hdst
    · exact h hether
    · rw [htag] at h
      exact Bool.false_ne_true h
    · omega
    · omega
  unfold portVerdict frameVerdict
  exact (if_neg Bool.false_ne_true).trans ((if_neg he).trans (if_neg hfits))

/-! ### The peer table -/

/-- A record of the peer table (R314). -/
def peerRecord (b : List Byte) (i : Nat) : Peer :=
  let e := (b.drop (16 * i)).take 16
  { mac := leField e 0 6, portMask := leField e 6 1, valid := bitOf (leField e 7 1) 0, moduleId := leField e 8 4 }

/-- The peer table has been read: `v` records of it stand. -/
def peersRead (s : State) (b : List Byte) (v : Nat) : State :=
  dset { s with cord := { s.cord with peers := (List.range v).map (peerRecord b) } } Key.cordPeerCount v

theorem writePeerCount_read {v : Nat} {b : List Byte} (hv : v ≤ 4096)
    (hread : devRead s hubVia false (dget s Key.cordPeerTable) (16 * v) = (.ok b, s1)) :
    writePeerCount s v = (pump (((peersRead s1 b v).cord.up.filter fun k => !pathExists (peersRead s1 b v) (k / 8) (k % 8)).foldl
      (fun st k => pathLost st (k / 8) (k % 8) 2) (peersRead s1 b v)), 0) := by
  unfold writePeerCount
  rw [if_neg (by omega), hread]
  rfl

theorem getPeer_peersRead {v i : Nat} {b : List Byte} (hi : i < v) : getPeer (peersRead s b v) i = peerRecord b i := by
  unfold getPeer peersRead
  simp [List.getD, hi]

/-! ### Heartbeats -/

theorem take_leBytes {m n v : Nat} (h : m ≤ n) : (leBytes n v).take m = leBytes m v := by
  induction m generalizing n v with
  | zero => rfl
  | succ m ih =>
    obtain ⟨n, rfl⟩ : ∃ k, n = k + 1 := ⟨n - 1, by omega⟩
    exact congrArg (BitVec.ofNat 8 v :: ·) (ih (by omega))

/-- The low bytes of a number that fits them hold it. -/
theorem leField_leBytes_short {m n v : Nat} (h : m ≤ n) (hv : v < 256 ^ m) : leField (leBytes n v) 0 m = v := by
  unfold leField
  rw [List.drop_zero, take_leBytes h, leNat_leBytes, Nat.mod_eq_of_lt hv]

/-- Settles O44: heartbeats by `rxHeartbeat_known` and `heartbeatSend_open`, ports by `portChange_up` and `portChange_down`, dropped
frames by their verdict, and the table by `writePeerCount_read`. -/
theorem pathsAndPortsComplete : Obligations.PathsAndPortsComplete := by
  unfold Obligations.PathsAndPortsComplete
  refine ⟨?_, ?_, ?_, ?_, ?_, ?_, ?_⟩
  · intro s s1 s2 peer port f g hacc hexists hid hsession hs2
    have hbeat := rxHeartbeat_known (portOpen_state hacc.1) hexists hid hsession hs2
    have hexec := (rxCheck_accepted (k := fun s1 g => rxHeartbeat s1 peer port.val g) hacc).trans hbeat
    refine ⟨fun hup => completes_of rfl (hexec.trans (if_pos hup)), fun hup => ⟨fun h => ?_, fun hlive hholder hpair => ?_⟩⟩
    · refine completes_of rfl (hexec.trans ((if_neg (ne_true_of_eq_false hup)).trans (if_neg fun hc => ?_)))
      simp only [Bool.and_eq_true, List.isEmpty_iff, beq_iff_eq] at hc
      exact h.elim (fun h => h hc.1.1) (fun h => h hc.1.2)
    · refine completes_of rfl (hexec.trans ((if_neg (ne_true_of_eq_false hup)).trans (if_pos ?_)))
      simp only [Bool.and_eq_true, List.isEmpty_iff, beq_iff_eq, bne_iff_ne]
      exact ⟨⟨hlive, hholder⟩, hpair⟩
  · intro s peer port hexists hstate
    obtain ⟨cord, f, hsend, hposted, hchans, hf⟩ := heartbeatSend_open hexists hstate port.isLt
    have hkey : chanKey peer port.val 0 / 128 = peer ∧ chanKey peer port.val 0 / 16 % 8 = port.val :=
      ⟨chanKey_peer port.isLt (by decide), chanKey_port port.isLt (by decide)⟩
    have hpayload : f.payload = leBytes 64 Config.moduleId.toNat := by rw [hf]; rfl
    have hlen : f.len = (leBytes 64 Config.moduleId.toNat).length / 64 := by rw [hf]; rfl
    refine ⟨_, completes_of rfl hsend, rfl, hposted, hchans, f, rfl, ?_, ?_, ?_, ?_, ?_, ?_, ?_, ?_⟩
    · rw [hpayload]
      exact leField_leBytes_short (by decide) Config.moduleId.isLt
    · rw [hf]; rfl
    · rw [hf]
      exact congr (congrArg (fun p q => ((getPeer s p).mac + q) % 2 ^ 48) hkey.1) hkey.2
    · rw [hf]
      exact congrArg portMac hkey.2
    · rw [hf]; rfl
    · rw [hf]; rfl
    · rw [hlen, leBytes_length]
    · rw [hf]; rfl
  · exact fun s peer port => rfl
  · intro s s1 peer port f g hacc hexists hsession
    refine completes_of rfl ((rxCheck_accepted hacc).trans ?_)
    unfold rxGoingDown
    rw [if_neg (by rw [hexists]; decide), hsession]
  · intro s port hstarted hen
    exact ⟨fun hstate => completes_of rfl (portChange_up port.isLt hstarted hen hstate), fun hstate => ⟨_, rfl,
      completes_of rfl (portChange_down port.isLt hstarted hen hstate rfl)⟩⟩
  · intro s port b fcs type f hparse hopen
    refine ⟨fun hf => ?_, fun hf he => ⟨fun h => ?_, fun hdst hether htag hlen hpay => ?_⟩⟩
    · subst hf
      exact completes_of rfl (frameDrop_crcDrop hparse hopen portVerdict_fcs)
    · subst hf
      exact completes_of rfl (frameDrop_drop hparse hopen (portVerdict_misfit he h))
    · subst hf
      have hverdict := portVerdict_fits (s := s) (type := type) he hdst hether htag hlen hpay
      refine ⟨fun hcrc => ?_, fun hcrc hbad => ?_⟩
      · exact completes_of rfl (frameDrop_crcDrop hparse hopen (hverdict.trans (if_pos hcrc)))
      · refine completes_of rfl (frameDrop_drop hparse hopen (hverdict.trans ((if_neg (not_not_intro hcrc)).trans (if_pos ?_))))
        simpa using hbad
  · intro s s1 v b hmay hv hread
    have hbytes : keyBytes Key.cordPeerCount = 2 := by decide
    refine ⟨peersRead s1 b v.toNat, completes_of rfl (congrArg pump (ownWrite_of_command hmay (by decide) (by rw [hbytes]; exact v.isLt)
      (commandWrite_cordPeerCount.trans (congrArg some (writePeerCount_read hv hread))))), ?_, rfl, rfl, fun i hi => ?_⟩
    · exact (List.length_map _).trans List.length_range
    · rw [getPeer_peersRead hi]
      exact ⟨rfl, rfl, rfl⟩

/-! ### Aborted collectives and heat holds -/

theorem find_replaced {l : List Coll} {post : Nat} {c d : Coll} (h : l.find? (fun x => x.post == post) = some c) (hd : d.post = post) :
    (l.map fun x => if x.post = post then d else x).find? (fun x => x.post == post) = some d := by
  induction l with
  | nil => cases h
  | cons x r ih =>
    rw [List.map_cons]
    by_cases hx : x.post = post
    · rw [if_pos hx, List.find?_cons_of_pos (by rw [hd]; exact beq_self_eq_true post)]
    · rw [if_neg hx, List.find?_cons_of_neg (by simpa using hx)]
      rw [List.find?_cons_of_neg (by simpa using hx)] at h
      exact ih h

/-- The notices of an abort leave the table of posted collectives. -/
theorem abortNotices_posted {c : Coll} {reason : Nat} (l : List Nat) :
    (l.foldl (fun st r => (livePorts st (c.peers.getD r 0)).foldl (fun st1 port =>
      sendPlain st1 (c.peers.getD r 0) port c.chan { c.header 0xC r with code := reason }) st) s).cord.posted = s.cord.posted :=
  foldl_keeps (fun t : State => t.cord.posted)
    (fun t _ => foldl_keeps (fun t : State => t.cord.posted) (fun _ _ => sendFrame_posted) _ t) l s

/-- An aborted collective stands in the table with its reason, and nothing of it is to be sent. -/
theorem collAbort_spec {post reason : Nat} {c : Coll} (hc : getColl s post = some c) (hab : c.aborted = none) (hpost : c.post = post) :
    ∃ d, getColl (collAbort s post reason) post = some d ∧ d.aborted = some reason ∧ d.owners = [] := by
  have hfind : ∀ (t : State) (d : Coll), t.cord.posted = s.cord.posted.map (fun x => if x.post = post then d else x) → d.post = post →
      getColl t post = some d := fun t d ht hd => (congrArg (List.find? _) ht).trans (find_replaced hc hd)
  have hfail : ∀ (t : State) (k code : Nat), (failOp t k code).cord = t.cord := fun t k code => by
    have h : (failOp t k code).engineless = t.engineless := failOp_engineSide (EngineSide.refl t)
    exact (congrArg State.cord h : (failOp t k code).engineless.cord = t.engineless.cord)
  refine ⟨{ c with aborted := some reason, owners := [], queued := false, ownNext := c.shard }, hfind _ _ ?_ hpost, rfl, rfl⟩
  unfold collAbort
  rw [hc]
  dsimp only
  rw [if_neg (by rw [hab]; decide)]
  generalize hs1 : setColl _ _ = s1
  have hposted : s1.cord.posted = s.cord.posted.map (fun x => if x.post = post then
      { c with aborted := some reason, owners := [], queued := false, ownNext := c.shard } else x) := by
    rw [← hs1, ← hpost]
    rfl
  generalize hs2 : (if reason = 7 then s1 else _) = s2
  have hsent : s2.cord.posted = s1.cord.posted := by
    rw [← hs2]
    split
    · rfl
    · exact abortNotices_posted _
  by_cases h8 : reason = 8
  · rw [if_pos h8]
    exact hsent.trans hposted
  · rw [if_neg h8, hfail]
    exact hsent.trans hposted

theorem rxEnds_in {reason : Nat} {c : Coll} (hgroup : groupKnown s g = true) (hin : frameIn s s2 peer port type f g)
    (hc : collOf s2 g = some c) : rxEnds s peer port g reason = pump (collAbort s2 c.post reason g.srcRank) := by
  refine (inGroup_known hgroup).trans ((rxFrame_in hin).trans ?_)
  rw [hc]

/-- Settles O45: frames by `rxEnds_in`, timers by the collective's state, and the abort by `collAbort_spec`. -/
theorem holdsAndAbortsComplete : Obligations.HoldsAndAbortsComplete := by
  unfold Obligations.HoldsAndAbortsComplete
  refine ⟨?_, ?_, ?_, ?_, fun s post reason c => collAbort_spec⟩
  · intro s s2 peer port f g c hgroup hc
    exact ⟨fun hin => completes_of rfl ((rxCheck_accepted hin.1).trans (rxEnds_in hgroup hin hc)),
      fun hin => completes_of rfl ((rxCheck_accepted hin.1).trans (rxEnds_in hgroup hin hc))⟩
  · intro s s1 peer port f g hacc hexists hup hsession
    refine completes_of rfl ((rxCheck_accepted hacc).trans ?_)
    unfold rxHeat
    rw [if_neg (by rw [hexists, hup]; decide), hsession]
  · exact fun s h => completes_of rfl (if_pos h)
  · intro s post c hc
    refine ⟨fun hab hs => ?_, fun hab hs => ⟨?_, ?_⟩, fun hab => ?_⟩
    · refine completes_of rfl ?_
      unfold collTimeout
      rw [hc]
      exact if_neg (by rw [hab, hs]; decide)
    · refine completes_of rfl ?_
      unfold collTimeout
      rw [hc]
      exact if_pos (by rw [hab, hs]; decide)
    · refine completes_of rfl ?_
      unfold heatLimit
      rw [hc]
      exact if_pos (by rw [hab, hs]; decide)
    · refine completes_of rfl ?_
      unfold abortAgeing
      rw [hc]
      exact if_pos (Option.isSome_iff_ne_none.2 hab)

end Sys2Proof.Machine
end

