-- ==== Sys2Proof/Proofs/Holders.lean ====
section
/-!
PROOF. Pairing, and the frames of freezes and restores at the originator, the holder and the restoring module (R342–R350, R354).
-/

namespace Sys2Proof.Machine

variable {s s2 : State} {peer type : Nat} {port : Fin 8} {f g : CordFrame}

/-! ### Frames that are queued -/

/-- Nothing but the channels of the Cord is changed. -/
def ChansOnly (s t : State) : Prop := ∃ chans, t = { s with cord := { s.cord with chans := chans } }

theorem ChansOnly.refl (s : State) : ChansOnly s s := ⟨s.cord.chans, rfl⟩

theorem ChansOnly.trans {s t u : State} (h : ChansOnly s t) (h' : ChansOnly t u) : ChansOnly s u := by
  obtain ⟨c, rfl⟩ := h
  obtain ⟨c', rfl⟩ := h'
  exact ⟨c', rfl⟩

theorem ChansOnly.foldl {α : Type} {k : State → α → State} (hk : ∀ st x, ChansOnly st (k st x)) (l : List α) (s : State) :
    ChansOnly s (l.foldl k s) := by
  induction l generalizing s with
  | nil => exact .refl s
  | cons x r ih => exact (hk s x).trans (ih (k s x))

theorem ChansOnly.dict {t : State} (h : ChansOnly s t) : t.dict = s.dict := by obtain ⟨c, rfl⟩ := h; rfl

theorem ChansOnly.ck {t : State} (h : ChansOnly s t) : t.ck = s.ck := by obtain ⟨c, rfl⟩ := h; rfl

theorem ChansOnly.mem {t : State} (h : ChansOnly s t) : t.mem = s.mem := by obtain ⟨c, rfl⟩ := h; rfl

theorem ChansOnly.ev {t : State} (h : ChansOnly s t) : t.ev = s.ev := by obtain ⟨c, rfl⟩ := h; rfl

theorem ChansOnly.dget {t : State} (h : ChansOnly s t) (key : Nat) : dget t key = dget s key := by obtain ⟨c, rfl⟩ := h; rfl

theorem ChansOnly.dictOk {t : State} (h : ChansOnly s t) (hok : s.dictOk) : t.dictOk := by obtain ⟨c, rfl⟩ := h; exact hok

theorem enqueue_chansOnly {key : Nat} {x : TxFrame} : ChansOnly s (enqueue s key x) := ⟨_, rfl⟩

theorem sendCtrl_chansOnly {code gen elem : Nat} {b : List Byte} : ChansOnly s (sendCtrl s peer code gen elem b) := by
  unfold sendCtrl
  split
  · exact .refl s
  · exact enqueue_chansOnly

theorem dropStream_chansOnly {which : Nat} : ChansOnly s (dropStream s which) := ⟨_, rfl⟩

/-! ### Expected frames -/

theorem afterFrame_eq {take : State → Taken} {s3 : State} (hin : expectedIn s s2 peer port.val type f g) (h : take s2 = .done s3) :
    rxSequenced s peer port.val g take = afterFrame s3 peer port.val g := by
  obtain ⟨hframe, hseq, -⟩ := hin
  exact (rxFrame_in hframe).trans (congrArg pump (rxSeq_applied hseq h))

theorem rxCtrl_in {code : Nat} {k : CordFrame → State → State} (hin : ctrlIn s s2 peer port.val code f g) :
    rxCtrl s peer port.val code f k = afterFrame (k g s2) peer port.val g :=
  (rxCheck_accepted hin.1.1).trans (afterFrame_eq hin rfl)

/-! ### Pairing -/

/-- What the end of a pairing leaves: its state, whether a pair is correlated, and its event. -/
theorem pairEnd_spec {state : Nat} {corr : Bool} (hok : s.dictOk) :
    dget (pairEnd s state corr) Key.pairState = state ∧
      dget (pairEnd s state corr) Key.pairCorrelated = (if corr || s.ck.corrOf then 1 else 0) ∧
      (pairEnd s state corr).ck = { s.ck with corrHolder := corr } ∧ (pairEnd s state corr).cord = s.cord ∧
      ∃ e ∈ (pairEnd s state corr).ev.evq, e.source = 0x0505 := by
  have h1 : (dset s Key.pairState state).dictOk := dset_dictOk hok
  refine ⟨?_, ?_, rfl, rfl, _, List.mem_append_right _ (List.mem_singleton.2 rfl), rfl⟩
  · exact (dget_dset_ne (s := { dset s Key.pairState state with ck := _ }) h1 (by decide)).trans (dget_dset_same hok)
  · exact dget_dset_same (s := { dset s Key.pairState state with ck := _ }) h1

theorem pairReq_answered {a b o : Nat} (hp : peer = dget s Key.partnerOf) (hslots : s.mem.slotPages ≠ 0) (hr : restoring s = false)
    (hshare : sharesFeed s a b = false) :
    pairReq s peer a b o = (let s3 := sendCtrl s peer 2 0 0 (leBytes 1 (dget s Key.feedAId) ++
      leBytes 1 (dget s Key.feedBId) ++ leBytes 4 s.mem.slotPages); setCorrelated s3 s3.ck.corrHolder false) := by
  unfold pairReq
  dsimp only
  rw [if_neg (not_not_intro hp), if_neg hslots, if_neg (ne_true_of_eq_false hr), if_neg (by rw [hshare]; exact Bool.false_ne_true), hshare]

theorem pairReq_feed {a b o : Nat} (hp : peer = dget s Key.partnerOf) (hslots : s.mem.slotPages ≠ 0) (hr : restoring s = false)
    (hshare : sharesFeed s a b = true) (hover : dget s Key.pairSameFeedOk ≠ 1) :
    pairReq s peer a b o = sendCtrl s peer 3 0 0 (leBytes 1 0) := by
  unfold pairReq
  dsimp only
  rw [if_neg (not_not_intro hp), if_neg hslots, if_neg (ne_true_of_eq_false hr),
    if_pos (by rw [hshare, beq_eq_false_iff_ne.2 hover]; rfl)]

theorem pairAck_pairs {a b slots : Nat} (hp : peer = dget s Key.partnerHolder) (hst : dget s Key.pairState = 1)
    (hshare : sharesFeed s a b = false) :
    pairAck s peer a b slots = pairEnd { s with ck := { s.ck with partnerSlots := slots } } 2 false := by
  unfold pairAck
  dsimp only
  rw [if_neg (by rintro (h | h); exact h hp; exact h hst), if_neg (by rw [hshare]; exact Bool.false_ne_true), hshare]

theorem pairRefuse_ends {reason : Nat} (hp : peer = dget s Key.partnerHolder) (hst : dget s Key.pairState = 1) :
    pairRefuse s peer reason = pairEnd s (if reason = 0 then 3 else 4) false := by
  unfold pairRefuse
  rw [if_neg (by rintro (h | h); exact h hp; exact h hst)]

/-! ### How a freeze or a restore ends -/

/-- A complete freeze has gone, its generation is named and its list kept. -/
theorem freezeComplete_spec {fz : Freeze} (hok : s.dictOk) :
    (freezeComplete s fz).ck.fz = none ∧ (freezeComplete s fz).ck.pages = [] ∧ dget (freezeComplete s fz) Key.freezeState = 0 ∧
      dget (freezeComplete s fz) Key.freezeDoneGen = fz.gen ∧ dget (freezeComplete s fz) Key.restoreUnverified = 0 ∧
      (freezeComplete s fz).ck.own.head? = (if s.mem.slotPages = 0 then none else some (fz.gen, fz.list)) ∧
      (freezeComplete s fz).cord = s.cord ∧ (freezeComplete s fz).mem.cells = s.mem.cells ∧
      ∃ e ∈ (freezeComplete s fz).ev.evq, e.source = 0x0500 := by
  unfold freezeComplete
  dsimp only
  generalize hs1 : releaseHold _ = s1
  have hok1 : s1.dictOk := by rw [← hs1]; exact hok
  have hcells : s1.mem.cells = s.mem.cells := by rw [← hs1]; rfl
  have hcord : s1.cord = s.cord := by rw [← hs1]; rfl
  have hck : s1.ck = { s.ck with
      fz := none, pages := [], own := if s.mem.slotPages = 0 then [] else ((fz.gen, fz.list) :: s.ck.own).take 2 } := by
    rw [← hs1]
    rfl
  have hokState : (setFreezeState s1 0).dictOk := dset_dictOk hok1
  refine ⟨congrArg CkSys.fz hck, congrArg CkSys.pages hck, ?_, ?_, dget_dset_same (dset_dictOk hokState), ?_, hcord, hcells,
    _, List.mem_append_right _ (List.mem_singleton.2 rfl), rfl⟩
  · exact (dget_dset_ne (dset_dictOk hokState) (by decide)).trans ((dget_dset_ne hokState (by decide)).trans (dget_dset_same hok1))
  · exact (dget_dset_ne (dset_dictOk hokState) (by decide)).trans (dget_dset_same hokState)
  · refine (congrArg (fun c : CkSys => c.own.head?) hck).trans ?_
    dsimp only
    split <;> rfl

theorem endAck_completes {fz : Freeze} {gen : Nat} (hfz : s.ck.fz = some fz) (hp : fz.partner = some peer) (hgen : fz.gen = gen)
    (hstream : fz.stream = true) (hended : fz.ended = true) : endAck s peer gen = freezeComplete s fz := by
  unfold endAck
  rw [hfz]
  exact if_pos ⟨hstream, hended, hp, hgen⟩

/-- A failed freeze has gone and holds nothing; its event tells. -/
theorem freezeFail_spec {fz : Freeze} {cause : FreezeCause} (hok : s.dictOk) (hfz : s.ck.fz = some fz) :
    (freezeFail s cause).ck.fz = none ∧ (freezeFail s cause).ck.pages = [] ∧ (freezeFail s cause).ck.issueHold = false ∧
      dget (freezeFail s cause) Key.freezeState = 0 ∧ (freezeFail s cause).mem.cells = s.mem.cells ∧
      (freezeFail s cause).ck.own = s.ck.own ∧ ∃ e ∈ (freezeFail s cause).ev.evq, e.source = 0x0502 := by
  unfold freezeFail
  rw [hfz]
  dsimp only
  generalize hs1 : dropStream _ 0 = s1
  have hok1 : s1.dictOk := by rw [← hs1]; exact hok
  have hcells : s1.mem.cells = s.mem.cells := by rw [← hs1]; rfl
  have hck : s1.ck = { s.ck with fz := none, pages := [], issueHold := false } := by rw [← hs1]; rfl
  have hend : ∀ t2, ChansOnly s1 t2 → (hubNotice (setFreezeState t2 0) 0x0502 [cause.code, fz.gen]).ck = s1.ck ∧
      dget (hubNotice (setFreezeState t2 0) 0x0502 [cause.code, fz.gen]) Key.freezeState = 0 ∧
      (hubNotice (setFreezeState t2 0) 0x0502 [cause.code, fz.gen]).mem = s1.mem ∧
      ∃ e ∈ (hubNotice (setFreezeState t2 0) 0x0502 [cause.code, fz.gen]).ev.evq, e.source = 0x0502 := fun t2 hsent =>
    ⟨hsent.ck, dget_dset_same (hsent.dictOk hok1), hsent.mem, _, List.mem_append_right _ (List.mem_singleton.2 rfl), rfl⟩
  have hall : ∀ t : State, t.ck = s1.ck → t.mem = s1.mem → dget t Key.freezeState = 0 → (∃ e ∈ t.ev.evq, e.source = 0x0502) →
      t.ck.fz = none ∧ t.ck.pages = [] ∧ t.ck.issueHold = false ∧ dget t Key.freezeState = 0 ∧ t.mem.cells = s.mem.cells ∧
        t.ck.own = s.ck.own ∧ ∃ e ∈ t.ev.evq, e.source = 0x0502 := by
    intro t htck htm hst hev
    rw [htck, htm, hck]
    exact ⟨rfl, rfl, rfl, hst, hcells, rfl, hev⟩
  cases fz.partner with
  | none =>
    obtain ⟨htck, hst, htm, hev⟩ := hend s1 (.refl s1)
    exact hall _ htck htm hst hev
  | some p =>
    obtain ⟨htck, hst, htm, hev⟩ := hend (sendCtrl s1 p 10 fz.gen 0 []) sendCtrl_chansOnly
    exact hall _ htck htm hst hev

theorem refused_failsFreeze {fz : Freeze} {gen : Nat} (hfz : s.ck.fz = some fz) (hp : fz.partner = some peer) (hgen : fz.gen = gen) :
    refused s peer gen = freezeFail s .holder := by
  unfold refused
  rw [if_pos (by rw [hfz]; simp [hp, hgen])]

/-- A restore that has ended has gone, with its result. -/
theorem restoreExit_spec {r : RestoreResult} (hok : s.dictOk) :
    (restoreExit s r).ck.rs = none ∧ dget (restoreExit s r) Key.restoreState = (if r = .ok then 3 else 0) ∧
      dget (restoreExit s r) Key.restoreResult = r.code ∧ (restoreExit s r).mem = s.mem := by
  have hok1 : (dset { s with ck := { s.ck with rs := none } } Key.restoreResult r.code).dictOk := dset_dictOk (s := { s with ck := _ }) hok
  refine ⟨rfl, dget_dset_same hok1, ?_, rfl⟩
  exact (dget_dset_ne hok1 (by decide)).trans (dget_dset_same (s := { s with ck := _ }) hok)

theorem restoreUnavailable_exits {r : Restore} {gen : Nat} (hr : s.ck.rs = some r) (hp : peer = r.source) (hgen : gen = r.gen)
    (hst : dget s Key.restoreState = 1) : restoreUnavailable s peer gen = restoreExit s .sourceLost := by
  unfold restoreUnavailable
  rw [hr]
  exact if_pos ⟨hp, hgen, hst⟩

/-- Settles O46: each frame by `rxCtrl_in`; a pairing ends by `pairEnd`, a freeze by `freezeComplete` or `freezeFail`, a restore by
`restoreExit`. -/
theorem pairingAndEndingFramesComplete : Obligations.PairingAndEndingFramesComplete := by
  unfold Obligations.PairingAndEndingFramesComplete
  refine ⟨fun s s2 peer port f g => ⟨?_, ?_, ?_⟩, fun s s2 peer port f g => ⟨?_, ?_⟩⟩
  · intro hin hp hslots hr
    exact ⟨fun hshare => ⟨_, rfl, completes_of rfl ((rxCtrl_in hin).trans
        (congrArg (afterFrame · peer port.val g) (pairReq_answered hp hslots hr hshare)))⟩,
      fun hshare hover => completes_of rfl ((rxCtrl_in hin).trans
        (congrArg (afterFrame · peer port.val g) (pairReq_feed hp hslots hr hshare hover)))⟩
  · intro hp hst
    refine ⟨fun hin hshare => ?_, fun hin => ?_⟩
    · obtain ⟨hstate, hcorr, hck, hcord, hev⟩ := pairEnd_spec (state := 2) (corr := false)
        (s := { s2 with ck := { s2.ck with partnerSlots := leField g.payload 2 4 } }) hin.2.2
      exact ⟨_, completes_of rfl ((rxCtrl_in hin).trans (congrArg (afterFrame · peer port.val g) (pairAck_pairs hp hst hshare))),
        hstate, hcorr, congrArg CkSys.partnerSlots hck, hcord, hev⟩
    · obtain ⟨hstate, -, hck, hcord, hev⟩ := pairEnd_spec (state := if leField g.payload 0 1 = 0 then 3 else 4) (corr := false) hin.2.2
      exact ⟨_, completes_of rfl ((rxCtrl_in hin).trans (congrArg (afterFrame · peer port.val g) (pairRefuse_ends hp hst))),
        hstate, hcord, hck, hev⟩
  · exact fun hin hpaired => completes_of rfl ((rxCtrl_in hin).trans (congrArg (afterFrame · peer port.val g) (if_pos hpaired)))
  · intro fz hfz hp hgen
    refine ⟨fun hin hstream hended => ?_, fun hin => ?_⟩
    · exact ⟨_, completes_of rfl ((rxCtrl_in hin).trans (congrArg (afterFrame · peer port.val g)
        (endAck_completes hfz hp hgen hstream hended))), freezeComplete_spec hin.2.2⟩
    · exact ⟨_, completes_of rfl ((rxCtrl_in hin).trans (congrArg (afterFrame · peer port.val g)
        (refused_failsFreeze hfz hp hgen))), freezeFail_spec hin.2.2 hfz⟩
  · intro r hin hr hp hgen hst
    exact ⟨_, completes_of rfl ((rxCtrl_in hin).trans (congrArg (afterFrame · peer port.val g)
      (restoreUnavailable_exits hr hp hgen hst))), restoreExit_spec hin.2.2⟩

/-! ### Holder slots -/

theorem holder_setHolder {i : Nat} {h : Holder} : holder (setHolder s i h) i = h := by
  unfold holder setHolder
  split <;> rfl

theorem holder_setHolder_ne {i j : Nat} {h : Holder} (hi : i < 2) (hj : j < 2) (hne : i ≠ j) :
    holder (setHolder s j h) i = holder s i := by
  unfold holder setHolder
  by_cases hj0 : j = 0
  · rw [if_pos hj0, if_neg (by omega), if_neg (by omega)]
  · rw [if_neg hj0, if_pos (by omega), if_pos (by omega)]

theorem setHolder_dict {i : Nat} {h : Holder} : (setHolder s i h).dict = s.dict := by
  unfold setHolder
  split <;> rfl

theorem setHolder_dget {i : Nat} {h : Holder} (key : Nat) : dget (setHolder s i h) key = dget s key := by
  unfold setHolder
  split <;> rfl

theorem setHolder_mem {i : Nat} {h : Holder} : (setHolder s i h).mem = s.mem := by
  unfold setHolder
  split <;> rfl

theorem putHolder_dictOk {i st gen : Nat} {h : Holder} (hok : s.dictOk) : (putHolder s i st gen h).dictOk := by
  unfold putHolder State.dictOk
  rw [setHolder_dict]
  exact dset_dictOk (dset_dictOk hok)

/-- A slot put into a state stands there, with its generation and record, and memory is as before. -/
theorem putHolder_spec {i st gen : Nat} {h : Holder} (hok : s.dictOk) :
    holderState (putHolder s i st gen h) i = st ∧ holderGen (putHolder s i st gen h) i = gen ∧ holder (putHolder s i st gen h) i = h ∧
      (putHolder s i st gen h).mem = s.mem := by
  have hne : Key.holderSlotState + i ≠ Key.holderSlotGen + i := by
    simp only [Key.holderSlotState, Key.holderSlotGen, ne_eq]
    omega
  refine ⟨?_, ?_, holder_setHolder, setHolder_mem⟩
  · exact (setHolder_dget _).trans ((dget_dset_ne (dset_dictOk hok) hne).trans (dget_dset_same hok))
  · exact (setHolder_dget _).trans (dget_dset_same (dset_dictOk hok))

theorem ChansOnly.holder {t : State} (h : ChansOnly s t) (i : Nat) : holder t i = holder s i := by obtain ⟨c, rfl⟩ := h; rfl

theorem putHolder_ne {i j st gen : Nat} {h : Holder} (hok : s.dictOk) (hi : i < 2) (hj : j < 2) (hne : i ≠ j) :
    holderState (putHolder s j st gen h) i = holderState s i ∧ holder (putHolder s j st gen h) i = holder s i := by
  refine ⟨(setHolder_dget _).trans ((dget_dset_ne (dset_dictOk hok) ?_).trans (dget_dset_ne hok (by omega))), ?_⟩
  · simp only [Key.holderSlotState, Key.holderSlotGen, ne_eq]
    omega
  · exact (holder_setHolder_ne hi hj hne).trans rfl

theorem emptyHolder_spec {i : Nat} (hok : s.dictOk) :
    holderState (emptyHolder s i) i = 0 ∧ holder (emptyHolder s i) i = {} ∧ (emptyHolder s i).mem = s.mem := by
  obtain ⟨hst, -, hh, hm⟩ := putHolder_spec (i := i) (st := 0) (gen := 0) (h := {}) (dropStream_chansOnly (which := 1 + i).dictOk hok)
  exact ⟨hst, hh, hm⟩

theorem emptyHolder_dictOk {i : Nat} (hok : s.dictOk) : (emptyHolder s i).dictOk :=
  putHolder_dictOk (dropStream_chansOnly (which := 1 + i).dictOk hok)

theorem emptyHolder_ne {i j : Nat} (hok : s.dictOk) (hi : i < 2) (hj : j < 2) (hne : i ≠ j) :
    holderState (emptyHolder s j) i = holderState s i ∧ holder (emptyHolder s j) i = holder s i :=
  putHolder_ne (s := dropStream s (1 + j)) hok hi hj hne

theorem freezeBegin_takes {i gen count : Nat} (hok : s.dictOk) (hr : restoring s = false) (hp : peer = dget s Key.partnerOf)
    (hslots : s.mem.slotPages ≠ 0) (hi : slotFor s = some i) :
    holderState (freezeBegin s peer gen count) i = 1 ∧ holderGen (freezeBegin s peer gen count) i = gen ∧
      holder (freezeBegin s peer gen count) i = { peer := peer, count := count } ∧ (freezeBegin s peer gen count).mem = s.mem := by
  obtain ⟨hst, hgen, hh, hm⟩ := putHolder_spec (i := i) (st := 1) (gen := gen) (h := { peer := peer, count := count }) hok
  unfold freezeBegin
  rw [if_neg (ne_true_of_eq_false hr), if_neg (by rintro (h | h); exact h hp; exact hslots h), hi]
  dsimp only
  have hsent := sendCtrl_chansOnly (s := putHolder s i 1 gen { peer := peer, count := count }) (peer := peer) (code := 5)
    (gen := gen) (elem := 0) (b := leBytes 4 s.mem.slotPages)
  exact ⟨(hsent.dget _).trans hst, (hsent.dget _).trans hgen, (hsent.holder i).trans hh, hsent.mem.trans hm⟩

theorem anyDigests_laid {i : Nat} (hi : receivingSlot s peer g.arg = some i) :
    anyDigests s peer g = setHolder s i { holder s i with list := layEntries (holder s i).list g.elem g.payload } := by
  unfold anyDigests
  rw [hi]

/-- A granule of a slot's frame that is written is marked. -/
theorem pageReceive_applied {i gen k j : Nat} {b : List Byte} {l : Loc} {s3 : State} (hi : receivingSlot s peer gen = some i)
    (hk : k < s.mem.slotPages) (hl : frameLoc s.mem i k j = some l) (hw : physWrite s l.phys (b.take 4096) = (none, s3)) :
    ∃ s4, pageReceive s peer gen k j b = (.applied, s4) ∧ s4.mem = s3.mem ∧ bitOf (tget 0 (holder s4 i).got k) j = true := by
  refine ⟨setHolder s3 i { holder s3 i with
    got := tset 0 (holder s3 i).got k (setBit (tget 0 (holder s3 i).got k) j true) }, ?_, setHolder_mem, ?_⟩
  · simp only [pageReceive, hi, hl, hw, if_neg (Nat.not_le_of_lt hk)]
  rw [holder_setHolder]
  have hbit : bitOf (setBit (tget 0 (holder s3 i).got k) j true) j = true := (bitOf_setBit _ _ _ _).trans (if_pos rfl)
  have hne : setBit (tget 0 (holder s3 i).got k) j true ≠ 0 := fun h => by
    rw [h] at hbit
    simp [bitOf] at hbit
  exact (congrArg (bitOf · j) ((tget_tset_new hne).trans (if_pos rfl))).trans hbit

theorem rxPage_applied {i : Nat} {l : Loc} {s3 : State} (hin : expectedIn s s2 peer port.val 10 f g)
    (hi : receivingSlot s2 peer g.arg = some i) (hcode : g.code ≠ 1) (hlen : g.payload.length = 4096)
    (hk : g.elem % 2 ^ 20 < s2.mem.slotPages)
    (hl : frameLoc s2.mem i (g.elem % 2 ^ 20) (g.elem / 2 ^ 20 % 2 ^ 20) = some l)
    (hw : physWrite s2 l.phys (g.payload.take 4096) = (none, s3)) :
    ∃ s4, rxPage s peer port.val g = afterFrame s4 peer port.val g ∧ s4.mem = s3.mem ∧
      bitOf (tget 0 (holder s4 i).got (g.elem % 2 ^ 20)) (g.elem / 2 ^ 20 % 2 ^ 20) = true := by
  obtain ⟨s4, hpage, hmem, hbit⟩ := pageReceive_applied hi hk hl hw
  refine ⟨s4, afterFrame_eq hin ?_, hmem, hbit⟩
  dsimp only
  rw [if_neg (not_not_intro hlen), if_neg hcode, hpage]

/-- Every granule that a list's masks name has arrived. -/
def wholeSlot (h : Holder) (count : Nat) : Bool :=
  (List.range count).all fun k => (tget [] h.list k).length == 128 &&
    (maskGranules (entryMask (tget [] h.list k))).all (bitOf (tget 0 h.got k))

theorem undefineFrames_dictOk {i : Nat} {h : Holder} (hok : s.dictOk) (l : List Nat) :
    (l.foldl (fun st k => undefineFrame st i k (entryMask (tget [] h.list k))) s).dictOk :=
  dictOk_of_kept (Kept.foldl (fun _ _ h => undefineFrame_kept h) (Kept.view s)) hok

theorem freezeEnd_held {i gen count digest : Nat} (hok : s.dictOk) (hi : receivingSlot s peer gen = some i)
    (hd : listDigest (listBytes (holder s i).list count) = digest) (hw : wholeSlot (holder s i) count = true) :
    holderState (freezeEnd s peer gen count digest) i = 2 ∧ holderGen (freezeEnd s peer gen count digest) i = gen ∧
      (holder (freezeEnd s peer gen count digest) i).count = count ∧
      ∃ e ∈ (freezeEnd s peer gen count digest).ev.evq, e.source = 0x0503 := by
  unfold freezeEnd
  rw [hi]
  dsimp only
  rw [if_pos ⟨hd, hw⟩]
  generalize hs1 : (List.range count).foldl _ s = s1
  have hok1 : s1.dictOk := by rw [← hs1]; exact undefineFrames_dictOk hok _
  obtain ⟨hst, hgen, hh, -⟩ := putHolder_spec (i := i) (st := 2) (gen := gen) (h := { holder s i with count := count }) hok1
  generalize hp : putHolder s1 i 2 gen { holder s i with count := count } = p at hst hgen hh
  have hsent := sendCtrl_chansOnly (s := p) (peer := peer) (code := 8) (gen := gen) (elem := 0) (b := [])
  exact ⟨(hsent.dget _).trans hst, (hsent.dget _).trans hgen, congrArg Holder.count ((hsent.holder i).trans hh),
    _, List.mem_append_right _ (List.mem_singleton.2 rfl), rfl⟩

theorem freezeEnd_discarded {i gen count digest : Nat} (hok : s.dictOk) (hi : receivingSlot s peer gen = some i)
    (hd : listDigest (listBytes (holder s i).list count) ≠ digest) :
    holderState (freezeEnd s peer gen count digest) i = 0 ∧ holder (freezeEnd s peer gen count digest) i = {} := by
  unfold freezeEnd
  rw [hi]
  dsimp only
  rw [if_neg fun h => hd h.1]
  obtain ⟨hst, hh, -⟩ := emptyHolder_spec (i := i) hok
  have hsent := sendCtrl_chansOnly (s := emptyHolder s i) (peer := peer) (code := 9) (gen := gen) (elem := 0) (b := leBytes 1 1)
  exact ⟨(hsent.dget _).trans hst, (hsent.holder i).trans hh⟩

theorem anyFreezeEnd_slot {i : Nat} (hi : receivingSlot s peer g.arg = some i) :
    anyFreezeEnd s peer g = freezeEnd s peer g.arg (leField g.payload 0 4) (leField g.payload 4 48) := by
  unfold anyFreezeEnd
  exact if_pos (by rw [hi]; rfl)

/-- What `receivingSlot` gives is a slot that receives that generation from that peer. -/
theorem receivingSlot_spec {i gen : Nat} (h : receivingSlot s peer gen = some i) :
    i < 2 ∧ holderState s i = 1 ∧ (holder s i).peer = peer := by
  have hmem := List.mem_of_find?_eq_some h
  have hspec := List.find?_some h
  simp only [Bool.and_eq_true, beq_iff_eq] at hspec
  exact ⟨List.mem_range.1 hmem, hspec.1.1, hspec.2⟩

/-- A receiving slot of the peer, as an ABANDON of that peer leaves it. -/
def abandonSlot (peer : Nat) (st : State) (i : Nat) : State :=
  if holderState st i = 1 ∧ (holder st i).peer = peer then emptyHolder st i else st

theorem abandon_eq : abandon s peer = abandonSlot peer (abandonSlot peer s 0) 1 := rfl

theorem abandonSlot_dictOk {i : Nat} (hok : s.dictOk) : (abandonSlot peer s i).dictOk := by
  unfold abandonSlot
  split
  · exact emptyHolder_dictOk hok
  · exact hok

theorem abandonSlot_ne {i j : Nat} (hok : s.dictOk) (hi : i < 2) (hj : j < 2) (hne : i ≠ j) :
    holderState (abandonSlot peer s j) i = holderState s i ∧ holder (abandonSlot peer s j) i = holder s i := by
  unfold abandonSlot
  split
  · exact emptyHolder_ne hok hi hj hne
  · exact ⟨rfl, rfl⟩

theorem abandonSlot_empties {i : Nat} (hok : s.dictOk) (hst : holderState s i = 1) (hp : (holder s i).peer = peer) :
    holderState (abandonSlot peer s i) i = 0 ∧ holder (abandonSlot peer s i) i = {} := by
  unfold abandonSlot
  rw [if_pos ⟨hst, hp⟩]
  obtain ⟨h, hh, -⟩ := emptyHolder_spec (i := i) hok
  exact ⟨h, hh⟩

theorem abandon_discards {i gen : Nat} (hok : s.dictOk) (h : receivingSlot s peer gen = some i) :
    holderState (abandon s peer) i = 0 ∧ holder (abandon s peer) i = {} := by
  obtain ⟨hi, hst, hp⟩ := receivingSlot_spec h
  rw [abandon_eq]
  obtain rfl | rfl : i = 0 ∨ i = 1 := by omega
  · have hkeep := abandonSlot_ne (peer := peer) (abandonSlot_dictOk (peer := peer) (i := 0) hok) (i := 0) (j := 1) (by decide) (by decide) (by decide)
    have hempty := abandonSlot_empties hok hst hp
    exact ⟨hkeep.1.trans hempty.1, hkeep.2.trans hempty.2⟩
  · have hkeep := abandonSlot_ne (peer := peer) hok (i := 1) (j := 0) (by decide) (by decide) (by decide)
    exact abandonSlot_empties (abandonSlot_dictOk hok) (hkeep.1.trans hst) ((congrArg Holder.peer hkeep.2).trans hp)

theorem serve_spec {i target first : Nat} (hok : s.dictOk) :
    holderState (serve s i target first) i = 3 ∧ (holder (serve s i target first) i).serving = some target ∧
      (holder (serve s i target first) i).list = (holder s i).list := by
  obtain ⟨hst, -, hh, -⟩ := putHolder_spec (i := i) (st := 3) (gen := holderGen s i)
    (h := { holder s i with serving := some target }) hok
  have hsent : ChansOnly (putHolder s i 3 (holderGen s i) { holder s i with serving := some target }) (serve s i target first) :=
    ChansOnly.foldl (fun _ _ => ChansOnly.foldl (fun _ _ => enqueue_chansOnly) _ _) _ _
  have hkeep := (hsent.holder i).trans hh
  exact ⟨(hsent.dget _).trans hst, congrArg Holder.serving hkeep, by rw [hkeep]⟩

theorem restoreReq_serves {i gen origin first : Nat} (hr : restoring s = false) (hi : heldSlot s gen = some i)
    (ho : origin = (getPeer s (holder s i).peer).moduleId) (hst : holderState s i = 2) :
    restoreReq s peer gen origin first = serve s i peer first := by
  unfold restoreReq
  rw [if_neg (ne_true_of_eq_false hr), hi]
  dsimp only
  rw [if_neg (not_not_intro ho), if_pos hst]

theorem restoreReq_noGen {gen origin first : Nat} (hr : restoring s = false) (hi : heldSlot s gen = none) :
    restoreReq s peer gen origin first = refuse s peer gen 2 := by
  unfold restoreReq
  rw [if_neg (ne_true_of_eq_false hr), hi]

theorem digestReq_answered {i gen origin : Nat} (hr : restoring s = false) (hi : heldSlot s gen = some i)
    (ho : origin = (getPeer s (holder s i).peer).moduleId) :
    digestReq s peer gen origin = sendList s peer gen (listBytes (holder s i).list (holder s i).count) := by
  unfold digestReq
  rw [if_neg (ne_true_of_eq_false hr), hi]
  dsimp only
  rw [if_neg (not_not_intro ho)]

theorem digestReq_noGen {gen origin : Nat} (hr : restoring s = false) (hi : heldSlot s gen = none) :
    digestReq s peer gen origin = refuse s peer gen 2 := by
  unfold digestReq
  rw [if_neg (ne_true_of_eq_false hr), hi]

/-- Settles O47: each frame by `rxCtrl_in` or `rxPage_applied`, and what it makes of its slot by the lemma of its operation. -/
theorem holderFramesComplete : Obligations.HolderFramesComplete := by
  unfold Obligations.HolderFramesComplete
  intro s s2 peer port f g
  have hctrl : ∀ {code : Nat} {k : CordFrame → State → State} {t : State}, ctrlIn s s2 peer port.val code f g → k g s2 = t →
      rxCtrl s peer port.val code f k = afterFrame t peer port.val g :=
    fun hin h => (rxCtrl_in hin).trans (congrArg (afterFrame · peer port.val g) h)
  refine ⟨?_, ?_, ?_, ?_, ?_⟩
  · intro i hin hr hp hslots hi
    exact ⟨_, completes_of rfl (hctrl hin rfl), freezeBegin_takes hin.2.2 hr hp hslots hi⟩
  · intro i hi
    refine ⟨fun hin => completes_of rfl (hctrl hin (anyDigests_laid hi)), ?_, ?_, fun hin => ?_⟩
    · intro l s3 hin hcode hlen hk hl hw
      obtain ⟨s4, hpage, hmem, hbit⟩ := rxPage_applied hin hi hcode hlen hk hl hw
      exact ⟨s4, completes_of rfl ((rxCheck_accepted hin.1.1).trans hpage), hmem, hbit⟩
    · intro count hin hcount
      refine ⟨fun hd hw => ?_, fun hd => ?_⟩
      · exact ⟨_, completes_of rfl (hctrl hin ((anyFreezeEnd_slot hi).trans (by rw [← hcount]))), freezeEnd_held hin.2.2 hi hd hw⟩
      · exact ⟨_, completes_of rfl (hctrl hin ((anyFreezeEnd_slot hi).trans (by rw [← hcount]))), freezeEnd_discarded hin.2.2 hi hd⟩
    · exact ⟨_, completes_of rfl (hctrl hin rfl), abandon_discards hin.2.2 hi⟩
  · intro i hi hr ho
    exact ⟨fun hin hst => ⟨_, completes_of rfl (hctrl hin (restoreReq_serves hr hi ho hst)), serve_spec hin.2.2⟩,
      fun hin => completes_of rfl (hctrl hin (digestReq_answered hr hi ho))⟩
  · intro hi hr
    exact ⟨fun hin => completes_of rfl (hctrl hin (restoreReq_noGen hr hi)),
      fun hin => completes_of rfl (hctrl hin (digestReq_noGen hr hi))⟩
  · intro hr
    exact ⟨fun hin => completes_of rfl (hctrl hin (if_pos hr)), fun hin => completes_of rfl (hctrl hin (if_pos hr))⟩

end Sys2Proof.Machine
end

