-- ==== Sys2Proof/Proofs/Restores.lean ====
section
/-!
PROOF. The written commands of freezes, partners and restores (R339, R346, R349, R351, R354).
-/

namespace Sys2Proof.Machine

variable {s : State}

theorem startPairing_spec (hok : s.dictOk) {v : Nat} (hv : dget s Key.partnerHolder = v) :
    dget (startPairing s) Key.partnerHolder = v ∧ dget (startPairing s) Key.pairState = (if v = 0xFFFF then 0 else 1) ∧
      (startPairing s).mem = s.mem ∧
      (startPairing s).ck = { s.ck with corrHolder := if v = 0xFFFF then false else s.ck.corrHolder } := by
  unfold startPairing
  dsimp only
  rw [hv]
  by_cases hn : v = 0xFFFF
  · rw [if_pos hn, if_pos hn, if_pos hn]
    have hok1 : (dset s Key.pairState 0).dictOk := dset_dictOk hok
    refine ⟨?_, ?_, rfl, rfl⟩
    · exact (dget_dset_ne (s := { dset s Key.pairState 0 with ck := _ }) hok1 (by decide)).trans ((dget_dset_ne hok (by decide)).trans hv)
    · exact (dget_dset_ne (s := { dset s Key.pairState 0 with ck := _ }) hok1 (by decide)).trans (dget_dset_same hok)
  · rw [if_neg hn, if_neg hn, if_neg hn]
    generalize hb : leBytes 4 _ ++ _ ++ _ ++ _ = b
    have hsent := sendCtrl_chansOnly (s := dset s Key.pairState 1) (peer := v) (code := 1) (gen := 0) (elem := 0) (b := b)
    exact ⟨(hsent.dget _).trans ((dget_dset_ne hok (by decide)).trans hv), (hsent.dget _).trans (dget_dset_same hok), hsent.mem, hsent.ck⟩

/-- Naming the module to hold for discards both slots. -/
theorem writePartnerOf_spec {v : Nat} (hok : s.dictOk) :
    dget (writePartnerOf s v) Key.partnerOf = v ∧ holderState (writePartnerOf s v) 0 = 0 ∧ holderState (writePartnerOf s v) 1 = 0 ∧
      (writePartnerOf s v).ck.slotA = {} ∧ (writePartnerOf s v).ck.slotB = {} ∧ (writePartnerOf s v).mem = s.mem := by
  unfold writePartnerOf
  have hok0 : (dset s Key.partnerOf v).dictOk := dset_dictOk hok
  have hok1 : (setCorrelated (dset s Key.partnerOf v) s.ck.corrHolder false).dictOk := dset_dictOk (s := { dset s Key.partnerOf v with ck := _ }) hok0
  have hof : dget (setCorrelated (dset s Key.partnerOf v) s.ck.corrHolder false) Key.partnerOf = v :=
    (dget_dset_ne (s := { dset s Key.partnerOf v with ck := _ }) hok0 (by decide)).trans (dget_dset_same hok)
  have hmem : (setCorrelated (dset s Key.partnerOf v) s.ck.corrHolder false).mem = s.mem := rfl
  generalize setCorrelated (dset s Key.partnerOf v) s.ck.corrHolder false = s1 at hok1 hof hmem ⊢
  have hok2 := emptyHolder_dictOk (i := 0) hok1
  obtain ⟨hst0, hh0, hm0⟩ := emptyHolder_spec (i := 0) hok1
  obtain ⟨hst1, hh1, hm1⟩ := emptyHolder_spec (i := 1) hok2
  obtain ⟨hkst, hkh⟩ := emptyHolder_ne (i := 0) (j := 1) hok2 (by decide) (by decide) (by decide)
  refine ⟨?_, hkst.trans hst0, hst1, hkh.trans hh0, hh1, hm1.trans (hm0.trans hmem)⟩
  have hkeep : ∀ (t : State) (i : Nat), i < 2 → t.dictOk → dget (emptyHolder t i) Key.partnerOf = dget t Key.partnerOf := by
    intro t i hi ht
    refine (setHolder_dget _).trans ((dget_dset_ne (dset_dictOk (s := dropStream t (1 + i)) ht) ?_).trans
      (dget_dset_ne (s := dropStream t (1 + i)) ht ?_))
    · simp only [Key.partnerOf, Key.holderSlotGen, ne_eq]
      omega
    · simp only [Key.partnerOf, Key.holderSlotState, ne_eq]
      omega
  exact (hkeep _ 1 (by decide) hok2).trans ((hkeep _ 0 (by decide) hok1).trans hof)

/-! ### Restores -/

theorem restoreStart_busy {l : List Byte} (hr : restoring s = true) : restoreStart s l = dset s Key.restoreResult 9 := if_pos hr

theorem restoreStart_single {l : List Byte} (hr : restoring s = false) (h : singleSource s = true) :
    restoreStart s l = dset s Key.restoreResult 1 := (if_neg (ne_true_of_eq_false hr)).trans (if_pos h)

/-- A restore that has asked for its lists, and has none of the source's. -/
theorem compareLists_waits {r : Restore} (hr : s.ck.rs = some r) (hf : r.filling = false) (he : r.srcEnd = none) : compareLists s = s := by
  unfold compareLists
  rw [hr]
  dsimp only
  rw [hf, he]
  rfl

/-- The replica and then the source are asked for their lists, where they are peers. -/
def askLists (s : State) (src rep gen origin : Nat) : State :=
  let ask := fun (st : State) p => if p ≥ 0xFFFD then st else sendCtrl st p 12 gen 0 (leBytes 4 origin)
  ask (ask s rep) src

theorem askLists_chansOnly {src rep gen origin : Nat} : ChansOnly s (askLists s src rep gen origin) := by
  have hask : ∀ (st : State) (p : Nat), ChansOnly st (if p ≥ 0xFFFD then st else sendCtrl st p 12 gen 0 (leBytes 4 origin)) := by
    intro st p
    split
    · exact .refl st
    · exact sendCtrl_chansOnly
  exact (hask s rep).trans (hask _ src)

theorem restoreBegun {t : State} {u : Nat} {r : Restore} (hok : s.dictOk) (hmem : s.mem = t.mem) :
    let s3 := setRestore (dset (dset (dset s Key.restoreState 1) Key.restorePages 0) Key.restoreUnverified u) r
    dget s3 Key.restoreState = 1 ∧ dget s3 Key.restorePages = 0 ∧ s3.mem = t.mem := by
  have hok1 : (dset s Key.restoreState 1).dictOk := dset_dictOk hok
  have hok2 : (dset (dset s Key.restoreState 1) Key.restorePages 0).dictOk := dset_dictOk hok1
  refine ⟨?_, ?_, hmem⟩
  · exact (dget_dset_ne hok2 (by decide)).trans ((dget_dset_ne hok1 (by decide)).trans (dget_dset_same hok))
  · exact (dget_dset_ne hok2 (by decide)).trans (dget_dset_same hok1)

/-- START with a source of the Cord, and a replica that can be read, begins to fill. -/
theorem restoreStart_fills {l : List Byte} {src rep : Nat} (hok : s.dictOk) (hr : restoring s = false) (hsingle : singleSource s = false)
    (hsrc : src = dget s Key.restoreSource) (hrep : rep = dget s Key.restoreReplica) (hlt : src < 0xFFFD) (hlive : livePorts s src ≠ [])
    (hne : rep ≠ src) (hrepOk : rep = 0xFFFE ∨ rep = 0xFFFF ∨ rep < 0xFFFD ∧ livePorts s rep ≠ []) :
    ∃ r, dget (restoreStart s l) Key.restoreState = 1 ∧ dget (restoreStart s l) Key.restorePages = 0 ∧
      (restoreStart s l).ck.rs = some r ∧ r.source = src ∧ r.replica = rep ∧ r.gen = dget s Key.restoreGen ∧ r.filling = false ∧
      (restoreStart s l).mem = s.mem := by
  unfold restoreStart
  rw [if_neg (ne_true_of_eq_false hr), if_neg (ne_true_of_eq_false hsingle)]
  dsimp only
  rw [← hsrc, ← hrep, if_neg hne]
  generalize hs1 : (if dget s Key.restoreOrigin = _ then s else _) = s1
  have hbase : s1.dictOk ∧ s1.mem = s.mem := by
    rw [← hs1]
    split
    · exact ⟨hok, rfl⟩
    · exact ⟨emptyHolder_dictOk (emptyHolder_dictOk hok),
        (emptyHolder_spec (emptyHolder_dictOk hok)).2.2.trans (emptyHolder_spec hok).2.2⟩
  generalize hs3 : setRestore _ _ = s3
  obtain ⟨hst, hpages, hmem⟩ : dget s3 Key.restoreState = 1 ∧ dget s3 Key.restorePages = 0 ∧ s3.mem = s.mem := by
    rw [← hs3]
    exact restoreBegun hbase.1 hbase.2
  obtain ⟨r, hrs, hrsrc, hrrep, hrgen, hfill, hend⟩ : ∃ r, s3.ck.rs = some r ∧ r.source = src ∧ r.replica = rep ∧
      r.gen = dget s Key.restoreGen ∧ r.filling = false ∧ r.srcEnd = none := by
    rw [← hs3]
    exact ⟨_, rfl, rfl, rfl, rfl, rfl, if_neg (by omega)⟩
  have hask : ChansOnly s3 (askLists s3 src rep (dget s Key.restoreGen) (dget s Key.restoreOrigin)) := askLists_chansOnly
  rw [if_neg (by rintro (⟨h, -⟩ | ⟨-, h⟩); exact absurd h (by omega); exact hlive h), if_neg (by rintro ⟨h, -⟩; omega),
    if_neg (by rintro ⟨hlt, h⟩; obtain rfl | rfl | ⟨-, hl⟩ := hrepOk; exact absurd hlt (by decide); exact absurd hlt (by decide); exact hl h)]
  have hwait : compareLists (askLists s3 src rep (dget s Key.restoreGen) (dget s Key.restoreOrigin)) = _ :=
    compareLists_waits ((congrArg CkSys.rs hask.ck).trans hrs) hfill hend
  refine ⟨r, ?_, ?_, ?_, hrsrc, hrrep, hrgen, hfill, ?_⟩
  · exact (congrArg (dget · Key.restoreState) hwait).trans ((hask.dget _).trans hst)
  · exact (congrArg (dget · Key.restorePages) hwait).trans ((hask.dget _).trans hpages)
  · exact (congrArg (fun t : State => t.ck.rs) hwait).trans ((congrArg CkSys.rs hask.ck).trans hrs)
  · exact (congrArg State.mem hwait).trans (hask.mem.trans hmem)

/-- Settles O48: each command by `ownWrite_of_command`, with the lemma of its effect. -/
theorem checkpointCommandsComplete : Obligations.CheckpointCommandsComplete := by
  unfold Obligations.CheckpointCommandsComplete
  have hwritten : ∀ {key v : Nat} {s t : State} {x : Outside}, key ∉ blockKeys ++ boundKeys → mayWrite s key v →
      v < 256 ^ keyBytes key → commandWrite s key v x = some (t, 0) → pump (ownWrite s key v x) = pump (writtenGone t key) :=
    fun hk hmay hv hc => congrArg pump (ownWrite_of_command hmay hk hv hc)
  refine ⟨fun s v hmay hv => ?_, fun s v hmay hok => ⟨fun hst => ?_, fun hst => ?_⟩, fun s v hmay hok => ?_,
    fun s l src rep hmay hok hsrc hrep => ⟨fun hr => ?_, fun hr hsingle => ?_, fun hr hsingle hlt hlive hne hrepOk => ?_⟩,
    fun s hmay hok hr => ?_⟩
  · subst hv
    exact completes_of rfl (hwritten (by decide) hmay (by decide) (commandWrite_freezeNow.trans rfl))
  · obtain ⟨hh, hp, hm, hck⟩ := startPairing_spec (dset_dictOk (k := Key.partnerHolder) (v := v.toNat) hok) (dget_dset_same hok)
    refine ⟨_, completes_of rfl (hwritten (by decide) hmay (show v.toNat < 256 ^ keyBytes Key.partnerHolder by exact v.isLt)
      (commandWrite_partnerHolder.trans (congrArg some (if_neg (not_not_intro hst))))), hh, hp, hm, hck⟩
  · exact completes_of rfl (congrArg pump (ownWrite_of_refused_command hmay (by decide)
      (show v.toNat < 256 ^ keyBytes Key.partnerHolder by exact v.isLt)
      (commandWrite_partnerHolder.trans (congrArg some (if_pos hst))) (by decide)))
  · exact ⟨_, completes_of rfl (hwritten (by decide) hmay (show v.toNat < 256 ^ keyBytes Key.partnerOf by exact v.isLt)
      commandWrite_partnerOf), writePartnerOf_spec hok⟩
  · exact completes_of rfl (hwritten (by decide) hmay (by decide) (commandWrite_restoreCmd.trans
      (congrArg (fun t => some (t, 0)) (restoreStart_busy hr))))
  · exact completes_of rfl (hwritten (by decide) hmay (by decide) (commandWrite_restoreCmd.trans
      (congrArg (fun t => some (t, 0)) (restoreStart_single hr hsingle))))
  · obtain ⟨r, h⟩ := restoreStart_fills (l := l) hok hr hsingle hsrc hrep hlt hlive hne hrepOk
    exact ⟨_, r, completes_of rfl (hwritten (by decide) hmay (by decide) (commandWrite_restoreCmd.trans rfl)), h⟩
  · obtain ⟨hrs, hst, hres, hm⟩ := restoreExit_spec (r := .aborted) hok
    exact ⟨_, completes_of rfl (hwritten (by decide) hmay (by decide) (commandWrite_restoreCmd.trans
      (congrArg (fun t => some (t, 0)) (if_pos hr)))), hst, hres, hrs, hm⟩

end Sys2Proof.Machine
end

