-- ==== Sys2Proof/Proofs/Faults.lean ====
section
/-!
PROOF. Fault messages and credits, faults of the hub, injection, acknowledgement and die links (R27, R365, R370–R372, R376, R379, R383).
-/

namespace Sys2Proof.Machine

variable {s : State}

/-! ### Messages that are formed -/

/-- A fault message changes the fault system, and there neither the pin nor the hub's own fault. -/
theorem raiseFault_parts {m : FaultMsg} : ∃ flt, raiseFault s m = { s with flt := flt } ∧ flt.hubFault = s.flt.hubFault ∧
    flt.alert = s.flt.alert := by
  unfold raiseFault postFault
  dsimp only
  split
  · exact ⟨_, rfl, rfl, rfl⟩
  · split
    · exact ⟨_, rfl, rfl, rfl⟩
    · exact ⟨_, rfl, rfl, rfl⟩

/-- A fault message of a source with a credit is sent, numbered. -/
theorem raiseFault_sent {m : FaultMsg} (h : tget 0 s.flt.inflight m.ember < 4) :
    (raiseFault s m).flt.faultq = s.flt.faultq ++ [{ m with fseq := tget 0 s.flt.fseq m.src, no := s.flt.emberNo }] := by
  unfold raiseFault postFault
  exact congrArg FltSys.faultq (if_pos h)

/-! ### The collector and credits -/

theorem dget_dcount {key n : Nat} (hok : s.dictOk) : dget (dcount s key n) key = satAdd (2 ^ 32 - 1) (dget s key) n := dget_dset_same hok

theorem classCounter_ne_lastFault (c : Nat) : classCounter c ≠ Key.lastFault := by
  unfold classCounter
  split <;> decide

/-- The collector has accepted a message: what stands of it. -/
theorem faultMessage_ready {i : Nat} {m : FaultMsg} (h : faultReady s i = some m) (hok : s.dictOk) :
    ∃ flt dict, faultMessage s i = { s with
        flt := flt, dict := dict, ev := { s.ev with evq := s.ev.evq ++ [{ source := m.mech.code, kind := 1, data := m.bits }] } } ∧
      flt.faultq = dropAt i s.flt.faultq ∧ tget 0 flt.returning m.ember = tget 0 s.flt.returning m.ember + 1 ∧
      flt.alert = (s.flt.alert || bitOf (dget s Key.alertClassMask) m.mech.cls) ∧
      dget (faultMessage s i) Key.lastFault = m.bits ∧
      dget (faultMessage s i) (classCounter m.mech.cls) = satAdd (2 ^ 32 - 1) (dget s (classCounter m.mech.cls)) 1 := by
  unfold faultMessage
  rw [h]
  dsimp only
  generalize hs1 : hubEvent _ m.mech.code 0 m.bits 1 = s1
  have hok1 : s1.dictOk := by rw [← hs1]; exact hok
  have hd1 : ∀ key, dget s1 key = dget s key := by rw [← hs1]; exact fun key => rfl
  have hok2 : (dcount s1 (classCounter m.mech.cls)).dictOk := dset_dictOk hok1
  have hlast : dget (dset (dcount s1 (classCounter m.mech.cls)) Key.lastFault m.bits) Key.lastFault = m.bits := dget_dset_same hok2
  have hcount : dget (dset (dcount s1 (classCounter m.mech.cls)) Key.lastFault m.bits) (classCounter m.mech.cls) =
      satAdd (2 ^ 32 - 1) (dget s (classCounter m.mech.cls)) 1 := by
    rw [dget_dset_ne hok2 (classCounter_ne_lastFault _), dget_dcount hok1, hd1]
  rw [hlast, hcount, ← hs1]
  exact ⟨_, _, rfl, rfl, (tget_tset_new (Nat.succ_ne_zero _)).trans (if_pos rfl), rfl, rfl, rfl⟩

/-- The fault system with a credit of a source back. -/
def creditBack (f : FltSys) (src : Nat) : FltSys :=
  { f with returning := tset 0 f.returning src (tget 0 f.returning src - 1), inflight := tset 0 f.inflight src (tget 0 f.inflight src - 1) }

theorem emberReturn_fault {src : Nat} {m : FaultMsg} (hr : tget 0 s.flt.returning src ≠ 0)
    (hm : s.flt.held.find? (fun m => m.ember == src) = some m) :
    emberReturn s src = { s with flt := { (creditBack s.flt src).take src with
      held := s.flt.held.erase m, faultq := s.flt.faultq ++ [{ m with no := s.flt.emberNo }], emberNo := s.flt.emberNo + 1 } } := by
  unfold emberReturn
  dsimp only
  rw [if_neg hr, hm]
  rfl

theorem emberReturn_none {src : Nat} (hr : tget 0 s.flt.returning src ≠ 0)
    (hm : s.flt.held.find? (fun m => m.ember == src) = none) :
    emberReturn s src = sendHeld { s with flt := creditBack s.flt src } src := by
  unfold emberReturn
  dsimp only
  rw [if_neg hr, hm]
  rfl

/-- The message of a source with a number leaves. -/
def leaves (src n no : Nat) (m : KnotMsg) : KnotMsg := if m.held && m.src == src && m.no == n then { m with held := false, no := no } else m

def leavesEmber (src n no : Nat) (m : EmberMsg) : EmberMsg :=
  if m.held && m.src == src && m.no == n then { m with held := false, no := no } else m

/-- A source with a credit sends its oldest message, if it holds one. -/
theorem sendHeld_cases {src : Nat} : sendHeld s src = s ∧ (s.flt.free src = true → oldestHeld s src = none) ∨
    ∃ n, s.flt.free src = true ∧ oldestHeld s src = some n ∧ sendHeld s src = { s with
      knotq := s.knotq.map (leaves src n s.flt.emberNo)
      flt := { s.flt.take src with emberNo := s.flt.emberNo + 1, embers := s.flt.embers.map (leavesEmber src n s.flt.emberNo) } } := by
  unfold sendHeld
  by_cases hf : s.flt.free src = true
  · rw [if_pos hf]
    cases ho : oldestHeld s src with
    | none => exact .inl ⟨rfl, fun _ => rfl⟩
    | some n => exact .inr ⟨n, hf, rfl, rfl⟩
  · rw [if_neg hf]
    exact .inl ⟨rfl, fun h => absurd h hf⟩

theorem mem_leaves {l : List KnotMsg} {m : KnotMsg} {src n no : Nat} (hm : m ∈ l) (hh : m.held = true) (hs : m.src = src) (hn : m.no = n) :
    { m with held := false, no := no } ∈ l.map (leaves src n no) :=
  List.mem_map.2 ⟨m, hm, if_pos (by simp [hh, hs, hn])⟩

theorem mem_leavesEmber {l : List EmberMsg} {m : EmberMsg} {src n no : Nat} (hm : m ∈ l) (hh : m.held = true) (hs : m.src = src)
    (hn : m.no = n) : { m with held := false, no := no } ∈ l.map (leavesEmber src n no) :=
  List.mem_map.2 ⟨m, hm, if_pos (by simp [hh, hs, hn])⟩

/-- What a returned credit does where its source holds no fault. -/
theorem emberReturn_other {src : Nat} (hr : tget 0 s.flt.returning src ≠ 0) (hret : twf 0 s.flt.returning = true)
    (hin : twf 0 s.flt.inflight = true) (hm : s.flt.held.find? (fun m => m.ember == src) = none) :
    let u := emberReturn s src
    tget 0 u.flt.returning src = tget 0 s.flt.returning src - 1 ∧ u.flt.faultq = s.flt.faultq ∧
      (oldestHeld s src = none → tget 0 u.flt.inflight src = tget 0 s.flt.inflight src - 1 ∧ u.knotq = s.knotq ∧
        u.flt.embers = s.flt.embers) ∧
      (∀ n, oldestHeld s src = some n → tget 0 s.flt.inflight src ≤ 3 →
        (∀ m ∈ s.knotq, m.held = true → m.src = src → m.no = n → { m with held := false, no := s.flt.emberNo } ∈ u.knotq) ∧
        (∀ m ∈ s.flt.embers, m.held = true → m.src = src → m.no = n → { m with held := false, no := s.flt.emberNo } ∈ u.flt.embers)) ∧
      u = { s with flt := u.flt, knotq := u.knotq } := by
  have hback : tget 0 (creditBack s.flt src).returning src = tget 0 s.flt.returning src - 1 := (tget_tset _ _ _ _ _ hret).trans (if_pos rfl)
  have huse : tget 0 (creditBack s.flt src).inflight src = tget 0 s.flt.inflight src - 1 := (tget_tset _ _ _ _ _ hin).trans (if_pos rfl)
  dsimp only
  rw [emberReturn_none hr hm]
  obtain ⟨heq, hnone⟩ | ⟨n, hfree, hold, heq⟩ := sendHeld_cases (s := { s with flt := creditBack s.flt src }) (src := src)
  · rw [heq]
    refine ⟨hback, rfl, fun _ => ⟨huse, rfl, rfl⟩, fun n hn hle => ?_, rfl⟩
    have hfree : (creditBack s.flt src).free src = true := decide_eq_true (by rw [huse]; omega)
    exact absurd ((hnone hfree).symm.trans hn) (by simp)
  · rw [heq]
    refine ⟨hback, rfl, fun ho => absurd (ho.symm.trans hold) (by simp), fun n' hn hle => ?_, rfl⟩
    obtain rfl : n' = n := Option.some.inj (hn.symm.trans hold)
    exact ⟨fun m hm hh hs hno => mem_leaves hm hh hs hno, fun m hm hh hs hno => mem_leavesEmber hm hh hs hno⟩

/-! ### Faults of the hub and of die links -/

theorem sendAer_parts {e : Aer} : ∃ pcie held out, sendAer s e = { s with pcie := pcie, heldHost := held, out := out } ∧
    (s.d3 = false → out = s.out ++ [.aer e]) := by
  unfold sendAer toHost
  dsimp only
  by_cases hd : s.d3 = true
  · rw [if_pos hd]
    exact ⟨_, _, _, rfl, fun h => absurd hd (ne_true_of_eq_false h)⟩
  · rw [if_neg hd]
    exact ⟨_, _, _, rfl, fun _ => rfl⟩

theorem hubInternal_spec {sub : Nat} {lost inj : Bool} :
    let u := hubInternal s sub lost inj
    u.flt.hubFault = true ∧ u.flt.alert = true ∧ u.engines = s.engines.map (fun p => (p.1, { p.2 with hubHold := true })) ∧
      (s.d3 = false → u.out = s.out ++ [.aer .internalError]) ∧ (lost = true → u.flt.faultq = s.flt.faultq) ∧
      (lost = false → tget 0 s.flt.inflight hubSource < 4 →
        ∃ m, u.flt.faultq = s.flt.faultq ++ [m] ∧ m.mech = .hubInternal ∧ m.unit = sub) ∧ u.mem = s.mem := by
  unfold hubInternal
  dsimp only
  obtain ⟨pcie, held, out, haer, hout⟩ := sendAer_parts (e := .internalError) (s := { s with
    engines := s.engines.map fun p => (p.1, { p.2 with hubHold := true }), flt := { s.flt with hubFault := true, alert := true } })
  rw [haer]
  cases lost with
  | true => exact ⟨rfl, rfl, rfl, hout, fun _ => rfl, fun h => absurd h (by decide), rfl⟩
  | false =>
    rw [if_neg Bool.false_ne_true]
    generalize hs2 : ({ s with
      engines := s.engines.map fun p => (p.1, { p.2 with hubHold := true }), flt := { s.flt with hubFault := true, alert := true }
      pcie := pcie, heldHost := held, out := out } : State) = s2
    obtain ⟨flt, hflt, hhub, halert⟩ := raiseFault_parts (s := s2) (m := { mech := .hubInternal, inj := inj, utype := 6, unit := sub })
    have hsent := raiseFault_sent (s := s2) (m := { mech := .hubInternal, inj := inj, utype := 6, unit := sub })
    rw [hflt] at hsent ⊢
    rw [← hs2] at hhub halert hsent ⊢
    exact ⟨hhub, halert, rfl, hout, fun h => absurd h (by decide), fun _ hlt => ⟨_, hsent hlt, rfl, rfl⟩, rfl⟩

theorem flitError_twice {p : FlitPlace} : flitError s p true = raiseFault s { mech := .emberCrc, utype := p.unit.1, unit := p.unit.2 } := rfl

theorem flitError_link {l : Fin 8} : flitError s (.link l) false = raiseFault { s with rst := { s.rst with
    linkResends := tset 0 s.rst.linkResends l.val (tget 0 s.rst.linkResends l.val + 1) } }
    { mech := .linkRetry, utype := 4, unit := l.val } := rfl

/-! ### Injection, acknowledgement and return to service -/

theorem writeFaultInject_refused {v : Nat} {m : Mech} (hm : Mech.ofCode (bits v 31 24) = some m)
    (h : v % 256 ≠ 0 ∨ m.cls ≠ 1 ∨ m.kinds.contains (bits v 23 20) = false ∨ unitCount (bits v 23 20) ≤ bits v 19 8) :
    writeFaultInject s v = (s, 3) := by
  unfold writeFaultInject
  dsimp only
  rw [hm]
  refine if_pos ?_
  simpa using h

theorem writeFaultInject_armed {v : Nat} {m : Mech} (hm : Mech.ofCode (bits v 31 24) = some m) (hr : v % 256 = 0) (hc : m.cls = 1)
    (hk : m.kinds.contains (bits v 23 20) = true) (hu : bits v 19 8 < unitCount (bits v 23 20))
    (hnot : m ∉ [.fence, .hbmClock, .linkDown, .emberCrc, .hubInternal]) :
    writeFaultInject s v = ({ s with flt := { s.flt with armed := s.flt.armed ++ [(m, bits v 23 20, bits v 19 8)] } }, 0) := by
  have hnow : injectNow s m (bits v 23 20) (bits v 19 8) =
      { s with flt := { s.flt with armed := s.flt.armed ++ [(m, bits v 23 20, bits v 19 8)] } } := by
    unfold injectNow
    split
    iterate 5 exact absurd (by decide) hnot
    all_goals rfl
  unfold writeFaultInject
  dsimp only
  rw [hm]
  dsimp only
  rw [if_neg (by rintro (h | h | h | h); exact h hr; exact h hc; exact absurd hk (by simpa using h); exact absurd hu (Nat.not_lt_of_le h)), hnow]

/-- Settles O49: messages by `raiseFault_sent`, credits by `emberReturn_fault` and `emberReturn_other`, written commands by
`ownWrite_of_command`. -/
theorem faultCommandsComplete : Obligations.FaultCommandsComplete := by
  unfold Obligations.FaultCommandsComplete
  refine ⟨fun s i m hm hok => ?_, fun s src hr hret hin => ?_, fun s sub lost => ⟨_, rfl, hubInternal_spec⟩, fun s v m hmay hm => ⟨?_, ?_⟩,
    fun s v hmay hv => ⟨fun hf => ?_, fun hf => ?_⟩, fun s v hmay => ⟨fun hv => ?_, fun hv => ?_⟩, fun s p twice => ?_⟩
  · obtain ⟨flt, dict, heq, hq, hret, hal, hlast, hcount⟩ := faultMessage_ready hm hok
    refine ⟨faultMessage s i, rfl, ?_, ?_, ?_, hlast, hcount, ?_, ?_⟩ <;> rw [heq]
    · exact hq
    · exact hret
    · exact hal
  · cases hm : s.flt.held.find? (fun m => m.ember == src) with
    | none =>
      obtain ⟨hback, hq, hnone, hsome, hrest⟩ := emberReturn_other hr hret hin hm
      exact ⟨_, rfl, hback, fun _ => ⟨hq, hnone, hsome⟩, fun m h => absurd h (by simp), hrest⟩
    | some m =>
      refine ⟨_, completes_of rfl (emberReturn_fault hr hm), (tget_tset _ _ _ _ _ hret).trans (if_pos rfl), fun h => absurd h (by simp),
        fun m' h => ?_, rfl⟩
      obtain rfl := Option.some.inj h
      exact ⟨rfl, rfl⟩
  · exact fun h => completes_of rfl (ownWrite_of_refused_command hmay (by decide)
      (show v.toNat < 256 ^ keyBytes Key.faultInject by exact v.isLt)
      (commandWrite_faultInject.trans (congrArg some (writeFaultInject_refused hm h))) (by decide))
  · exact fun hr hc hk hu hnot => completes_of rfl (ownWrite_of_command hmay (by decide)
      (show v.toNat < 256 ^ keyBytes Key.faultInject by exact v.isLt)
      (commandWrite_faultInject.trans (congrArg some (writeFaultInject_armed hm hr hc hk hu hnot))))
  · exact completes_of rfl (ownWrite_of_command hmay (by decide) (show v.toNat < 256 ^ keyBytes Key.alertAck by exact v.isLt)
      (commandWrite_alertAck.trans (congrArg (fun t => some (t, 0)) (if_pos (.inr hf)))))
  · refine completes_of rfl (ownWrite_of_command hmay (by decide) (show v.toNat < 256 ^ keyBytes Key.alertAck by exact v.isLt)
      (commandWrite_alertAck.trans (congrArg (fun t => some (t, 0)) (if_neg ?_))))
    rintro (h | h)
    · exact hv (BitVec.eq_of_toNat_eq h)
    · exact absurd h (ne_true_of_eq_false hf)
  · exact completes_of rfl (ownWrite_of_refused_command hmay (by decide)
      (show v.toNat < 256 ^ keyBytes Key.engineUnretire by exact v.isLt)
      (commandWrite_engineUnretire.trans (congrArg some (if_pos hv))) (by decide))
  · exact completes_of rfl (ownWrite_of_command hmay (by decide) (show v.toNat < 256 ^ keyBytes Key.engineUnretire by exact v.isLt)
      (commandWrite_engineUnretire.trans (congrArg some (if_neg (Nat.not_le_of_lt hv)))))
  · refine ⟨_, rfl, ?_, ?_, ?_, ?_⟩
    · cases twice with
      | true =>
        obtain ⟨flt, hflt, -, -⟩ := raiseFault_parts (s := s) (m := { mech := .emberCrc, utype := p.unit.1, unit := p.unit.2 })
        rw [flitError_twice, hflt]
      | false =>
        cases p with
        | link l =>
          rw [flitError_link]
          obtain ⟨flt, hflt, -, -⟩ := raiseFault_parts (s := { s with rst := { s.rst with
            linkResends := tset 0 s.rst.linkResends l.val (tget 0 s.rst.linkResends l.val + 1) } })
            (m := { mech := .linkRetry, utype := 4, unit := l.val })
          rw [hflt]
        | router r => rfl
        | hub => rfl
    · intro l hp ht
      subst hp ht
      rw [flitError_link]
      obtain ⟨flt, hflt, -, -⟩ := raiseFault_parts (s := { s with rst := { s.rst with
        linkResends := tset 0 s.rst.linkResends l.val (tget 0 s.rst.linkResends l.val + 1) } })
        (m := { mech := .linkRetry, utype := 4, unit := l.val })
      refine ⟨?_, fun hlt => ⟨_, raiseFault_sent hlt, rfl, rfl⟩⟩
      rw [hflt]
      exact (tget_tset_new (Nat.succ_ne_zero _)).trans (if_pos rfl)
    · intro hp ht
      subst ht
      cases p with
      | link l => exact absurd rfl (hp l)
      | router r => rfl
      | hub => rfl
    · intro ht hlt
      subst ht
      exact ⟨_, raiseFault_sent hlt, rfl, rfl⟩

end Sys2Proof.Machine
end

