-- ==== Sys2Proof/Proofs/Dictionary.lean ====
section
/-!
PROOF. Writes of entries through the mirror and the direct map, commits of the persistent image and the load of defaults (R429, R430, R441,
R443, R447–R451).
-/

namespace Sys2Proof.Machine

variable {s s1 : State} {path : DictPath} {key type : Nat} {b : List Byte} {x : Outside}

/-! ### Writes and their reports -/

theorem reportedWrite_refused {st : Nat} (h : writeStatus s path key type b = st) (hst : st ≠ 0) :
    reportedWrite s path key type b x = (writeRejected s key st, st) := by
  subst h
  have hentry : entryWrite s path key type b x = (s, writeStatus s path key type b) := if_pos hst
  unfold reportedWrite
  rw [hentry]
  split
  · next h => exact absurd (congrArg Prod.snd h) hst
  · next h =>
    obtain ⟨-, rfl⟩ := Prod.mk.inj h
    rfl

theorem entryWrite_effect (h : writeStatus s path key type b = 0) (hd : key ≠ Key.dictLoadDefaults)
    (he : writeEffect s key b x = (s1, 0)) (hb : inHold s = true ∨ breaksRule s1 key = false) :
    entryWrite s path key type b x = (s1, 0) := by
  have hrule : (!inHold s && breaksRule s1 key) = false := by
    obtain hb | hb := hb <;> simp [hb]
  unfold entryWrite entryStore
  dsimp only
  rw [if_neg (not_not_intro h), if_neg hd, he]
  exact if_neg (ne_true_of_eq_false hrule)

theorem entryWrite_breaks (h : writeStatus s path key type b = 0) (hd : key ≠ Key.dictLoadDefaults)
    (he : writeEffect s key b x = (s1, 0)) (hh : inHold s = false) (hb : breaksRule s1 key = true) :
    entryWrite s path key type b x = (s, 7) := by
  unfold entryWrite entryStore
  dsimp only
  rw [if_neg (not_not_intro h), if_neg hd, he]
  exact if_pos (by rw [hh, hb]; rfl)

theorem reportedWrite_of_entry (h : entryWrite s path key type b x = (s1, 0)) : reportedWrite s path key type b x = (s1, 0) := by
  unfold reportedWrite
  rw [h]
  rfl

theorem reportedWrite_of_refused {st : Nat} (h : entryWrite s path key type b x = (s1, st)) (hst : st ≠ 0) :
    reportedWrite s path key type b x = (writeRejected s key st, st) := by
  unfold reportedWrite
  rw [h]
  split
  · next h => exact absurd (congrArg Prod.snd h) hst
  · next h =>
    obtain ⟨-, rfl⟩ := Prod.mk.inj h
    rfl

/-- The rows with an entry of their own write it through the mirror. -/
theorem exec_ownRows {i : Instr} {v : Nat} (h : (i, key, v) ∈ ownRows) : exec i s = .next (ownWrite s key v) := by
  simp only [ownRows, List.mem_cons, List.not_mem_nil, or_false, Prod.mk.injEq] at h
  rcases h with ⟨rfl, rfl, rfl⟩ | ⟨rfl, rfl, rfl⟩ | ⟨rfl, rfl, rfl⟩ | ⟨rfl, rfl, rfl⟩ | ⟨rfl, rfl, rfl⟩ | ⟨rfl, rfl, rfl⟩ |
    ⟨rfl, rfl, rfl⟩ | ⟨rfl, rfl, rfl⟩ | ⟨rfl, rfl, rfl⟩ | ⟨rfl, rfl, rfl⟩ | ⟨rfl, rfl, rfl⟩ | ⟨rfl, rfl, rfl⟩ | ⟨rfl, rfl, rfl⟩ |
    ⟨rfl, rfl, rfl⟩ | ⟨rfl, rfl, rfl⟩ | ⟨rfl, rfl, rfl⟩ | ⟨rfl, rfl, rfl⟩ | ⟨rfl, rfl, rfl⟩ <;> rfl

/-- Settles O50: a row with an entry of its own is an `ownWrite`, which an unserved dictionary drops, and `reportedWrite_refused`
says the rest. -/
theorem refusedWritesOnlyReport : Obligations.RefusedWritesOnlyReport := by
  unfold Obligations.RefusedWritesOnlyReport
  refine ⟨fun s i key v st ty hi => ⟨fun hserved => ?_, fun hserved hty hst hne => ?_⟩, fun s field key type b path st hpath hserved hst hne => ?_⟩
  · exact completes_of (exec_ownRows hi) (if_pos (by rw [hserved]; rfl))
  · subst hty
    exact completes_of (exec_ownRows hi) ((if_neg (by rw [hserved]; decide)).trans (congrArg Prod.fst (reportedWrite_refused hst hne)))
  · subst hpath
    exact completes_of rfl (congrArg pump ((if_pos hserved).trans (congrArg Prod.fst (reportedWrite_refused hst hne))))

/-! ### Stored values -/

theorem ETy.code_lt (ty : ETy) : ty.code < 256 := by cases ty <;> decide

theorem typeByte_toNat (ty : ETy) : (BitVec.ofNat 8 ty.code).toNat = ty.code := by
  rw [BitVec.toNat_ofNat]
  exact Nat.mod_eq_of_lt (ETy.code_lt ty)

/-- ENTRY_WRITE through the mirror while the dictionary is served. -/
theorem exec_entryWrite {key : BitVec 24} {ty : ETy} (hserved : dictServed s = true) :
    exec (.entryWrite false key (BitVec.ofNat 8 ty.code) b) s = .next (pump (reportedWrite s .mirror key.toNat ty.code b {}).1) := by
  have h : exec (.entryWrite false key (BitVec.ofNat 8 ty.code) b) s = .next (pump (if dictServed s then
      (reportedWrite s .mirror key.toNat (BitVec.ofNat 8 ty.code).toNat b {}).1 else s)) := rfl
  rw [h, if_pos hserved, typeByte_toNat]

/-- Entries of settings whose write has no effect of its own. -/
theorem settingEntries {key : Nat} (h : key ∈ [Key.stepMonWindow, Key.dampIdle, Key.heatHoldLimit, Key.cordRetryMax, Key.freezeEvery,
      Key.freezeJob, Key.snapHalt, Key.snapSources]) :
    key ∉ namedKeys ∧ effectKey key = false ∧ key < 2 ^ 24 ∧ (findMeta key).isSome = true ∧ (∀ (s : State) v, runWrite s key v = none) := by
  simp only [List.mem_cons, List.not_mem_nil, or_false] at h
  rcases h with rfl | rfl | rfl | rfl | rfl | rfl | rfl | rfl <;>
    exact ⟨by decide, by decide, by decide, by decide, fun s v => rfl⟩

theorem reportedWrite_stores {v : Nat} (hk : key ∉ namedKeys) (he : effectKey key = false) (hr : ∀ v, runWrite s key v = none)
    (hst : writeStatus s path key type b = 0) (hv : leNat b = v) : reportedWrite s path key type b x = (wset s key v, 0) := by
  have heffect : writeEffect s key b x = (wset s key v, 0) := by
    rw [writeEffect_of_plain hk (hr _), hv, plainWrite_stores he]
  exact reportedWrite_of_entry (entryWrite_effect hst (fun h => hk (by rw [h]; decide)) heffect
    (.inr (breaksRule_of_unbound (not_mem_namedKeys hk).2.1)))

/-! ### The direct map -/

theorem directWrite_stores {off v : Nat} {m : EMeta} (hup : hostUp s = true) (hoff : off % 8 = 0)
    (hm : findMeta (off / 64 % 2 ^ 16 * 256 + off / 8 % 8) = some m) (hn : m.ty.bytes ≠ 0) (hv : v < 256 ^ m.ty.bytes)
    (h : entryWrite s .mirror (off / 64 % 2 ^ 16 * 256 + off / 8 % 8) m.ty.code (leBytes m.ty.bytes v) {} = (s1, 0)) :
    directWrite s off v true = s1 := by
  unfold directWrite
  rw [if_neg (by rw [hup]; decide)]
  dsimp only
  rw [hm]
  dsimp only
  rw [if_neg hn, if_neg (by rw [hoff]; decide), if_neg (fun hc => absurd hc.1 (Nat.not_le_of_lt hv)), Nat.mod_eq_of_lt hv, h]
  rfl

theorem directWrite_partial {off v : Nat} {m : EMeta} (hup : hostUp s = true)
    (hm : findMeta (off / 64 % 2 ^ 16 * 256 + off / 8 % 8) = some m) (hn : m.ty.bytes ≠ 0) :
    directWrite s off v false = writeRejected (dcount s Key.hifDrops) (off / 64 % 2 ^ 16 * 256 + off / 8 % 8) 2 := by
  unfold directWrite
  rw [if_neg (by rw [hup]; decide)]
  dsimp only
  rw [hm]
  dsimp only
  rw [if_neg hn]
  exact if_pos (.inl (by decide))

/-! ### The persistent image -/

theorem beginCommit_spec : ∃ c, (beginCommit s).dsys.commit = some c ∧ (c.target, c.gen) = commitTarget s ∧
    c.recs = storedValues (dset s Key.dictCommitState 1) ∧
    (c.target = 1 → (beginCommit s).flash.copyA = none ∧ (beginCommit s).flash.copyB = s.flash.copyB) ∧
    (c.target ≠ 1 → (beginCommit s).flash.copyB = none ∧ (beginCommit s).flash.copyA = s.flash.copyA) ∧ (beginCommit s).mem = s.mem := by
  unfold beginCommit
  cases commitTarget s with
  | mk t g =>
    dsimp only
    refine ⟨_, rfl, rfl, rfl, fun ht => ?_, fun ht => ?_, rfl⟩
    · rw [if_pos ht]
      exact ⟨rfl, rfl⟩
    · rw [if_neg ht]
      exact ⟨rfl, rfl⟩

theorem writeCommit_begins (hc : s.dsys.commit = none) (h : inHold s = false ∨ consistent s = true) : writeCommit s = (beginCommit s, 0) := by
  unfold writeCommit
  rw [if_neg (by rw [hc]; decide), if_neg (by obtain h | h := h <;> simp [h])]

theorem commitComplete_failed {c : Commit} {e : FlashEnd} (hc : s.dsys.commit = some c) (he : e ≠ .ok) (hok : s.dictOk) :
    (commitComplete s e).dsys.commit = none ∧ (commitComplete s e).flash = s.flash ∧
      dget (commitComplete s e) Key.dictCommitState = 3 ∧ ∃ r ∈ (commitComplete s e).ev.evq, r.source = 0x0605 := by
  have h : ∀ code, let u := commitFailed { s with dsys := { s.dsys with commit := none } } code c.target c.gen
      u.dsys.commit = none ∧ u.flash = s.flash ∧ dget u Key.dictCommitState = 3 ∧ ∃ r ∈ u.ev.evq, r.source = 0x0605 := fun code =>
    ⟨rfl, rfl, dget_dset_same (s := { s with dsys := { s.dsys with commit := none } }) hok, _, List.mem_append_right _ (List.mem_singleton.2 rfl), rfl⟩
  unfold commitComplete
  rw [hc]
  cases e with
  | ok => exact absurd rfl he
  | writeFailed => exact h 2
  | readBackFailed => exact h 3

/-- What a commit that is read back leaves, before a hold that it ends is left. -/
def committed (s : State) (c : Commit) : State :=
  let img : DictImage := { gen := c.gen, recs := c.recs }
  let fl := { s.flash with commits := satAdd (2 ^ 32 - 1) s.flash.commits 1 }
  let s1 := { s with
    flash := if c.target = 1 then { fl with copyA := some img } else { fl with copyB := some img }
    dsys := { s.dsys with commit := none, base := c.recs } }
  dset (dset (dset s1 Key.dictImageGen c.gen) Key.dictImageCopy c.target) Key.dictCommitState 2

theorem commitComplete_ok {c : Commit} (hc : s.dsys.commit = some c) :
    commitComplete s .ok = if inHold (committed s c) && consistent (committed s c) then leaveHold (committed s c) else committed s c := by
  unfold commitComplete
  rw [hc]
  rfl

theorem committed_spec {c : Commit} (hok : s.dictOk) :
    (committed s c).dsys.commit = none ∧ (committed s c).dsys.base = c.recs ∧
      (c.target = 1 → (committed s c).flash.copyA = some { gen := c.gen, recs := c.recs }) ∧
      (c.target ≠ 1 → (committed s c).flash.copyB = some { gen := c.gen, recs := c.recs }) ∧
      (committed s c).flash.commits = satAdd (2 ^ 32 - 1) s.flash.commits 1 ∧ inHold (committed s c) = inHold s ∧
      dget (committed s c) Key.dictCommitState = 2 ∧ dget (committed s c) Key.dictImageGen = c.gen ∧
      dget (committed s c) Key.dictImageCopy = c.target := by
  unfold committed
  dsimp only
  generalize hs1 : ({ s with
    flash := if c.target = 1 then _ else _, dsys := { s.dsys with commit := none, base := c.recs } } : State) = s1
  have hok1 : s1.dictOk := by rw [← hs1]; exact hok
  have hok2 : (dset s1 Key.dictImageGen c.gen).dictOk := dset_dictOk hok1
  have hok3 : (dset (dset s1 Key.dictImageGen c.gen) Key.dictImageCopy c.target).dictOk := dset_dictOk hok2
  have hcause : dget (dset (dset (dset s1 Key.dictImageGen c.gen) Key.dictImageCopy c.target) Key.dictCommitState 2) Key.holdCause =
      dget s Key.holdCause := by
    rw [dget_dset_ne hok3 (by decide), dget_dset_ne hok2 (by decide), dget_dset_ne hok1 (by decide), ← hs1]
    rfl
  refine ⟨by rw [← hs1]; rfl, by rw [← hs1]; rfl, fun ht => ?_, fun ht => ?_, ?_, congrArg (· != 0) hcause, dget_dset_same hok3, ?_, ?_⟩
  · rw [← hs1]
    exact congrArg FlashSys.copyA (if_pos ht)
  · rw [← hs1]
    exact congrArg FlashSys.copyB (if_neg ht)
  · rw [← hs1]
    exact (apply_ite FlashSys.commits _ _ _).trans (ite_self _)
  · exact (dget_dset_ne hok3 (by decide)).trans ((dget_dset_ne hok2 (by decide)).trans (dget_dset_same hok1))
  · exact (dget_dset_ne hok3 (by decide)).trans (dget_dset_same hok2)

/-! ### The load of defaults -/

theorem loadDefaults_busy {v : Nat} (h : s.dsys.commit ≠ none) : loadDefaults s v = (s, 0x0A) := by
  unfold loadDefaults
  exact if_pos (Option.isSome_iff_ne_none.2 h)

/-- The defaults have been set in the hold state. -/
def defaultsSet (s : State) : State :=
  let s1 := (touchedKeys s).foldl defaultEntry s
  { s1 with flash := { s1.flash with mapout := [] } }

theorem loadDefaults_inHold {v : Nat} (hc : s.dsys.commit = none) (hh : inHold s = true) :
    loadDefaults s v = (if v = 2 then (beginCommit (defaultsSet s), 0) else (defaultsSet s, 0)) := by
  unfold loadDefaults
  rw [if_neg (by rw [hc]; decide), if_neg (fun h => by rw [hh] at h; exact absurd h.1 (by decide))]
  rfl

theorem entryWrite_defaults {v st : Nat} (hv : v < 256) (hmay : mayWrite s Key.dictLoadDefaults v) (h : loadDefaults s v = (s1, st)) :
    entryWrite s .mirror Key.dictLoadDefaults (((findMeta Key.dictLoadDefaults).map EMeta.ty).getD ETy.u8).code
      (leBytes (((findMeta Key.dictLoadDefaults).map EMeta.ty).getD ETy.u8).bytes v) x = (s1, st) := by
  have hb : leNat (leBytes (((findMeta Key.dictLoadDefaults).map EMeta.ty).getD ETy.u8).bytes v) = v := leNat_keyBytes (by
    rw [show keyBytes Key.dictLoadDefaults = 1 by decide]
    omega)
  unfold entryWrite
  dsimp only
  rw [if_neg (not_not_intro hmay.2), if_pos rfl, hb, h]

theorem ownWrite_of_entry {v : Nat} (hserved : dictServed s = true)
    (h : entryWrite s .mirror key (((findMeta key).map EMeta.ty).getD ETy.u8).code
      (leBytes (((findMeta key).map EMeta.ty).getD ETy.u8).bytes v) x = (s1, 0)) : ownWrite s key v x = s1 :=
  (if_neg (by rw [hserved]; decide)).trans (congrArg Prod.fst (reportedWrite_of_entry h))

theorem ownWrite_of_entry_refused {v st : Nat} (hserved : dictServed s = true)
    (h : entryWrite s .mirror key (((findMeta key).map EMeta.ty).getD ETy.u8).code
      (leBytes (((findMeta key).map EMeta.ty).getD ETy.u8).bytes v) x = (s1, st)) (hst : st ≠ 0) :
    ownWrite s key v x = writeRejected s key st :=
  (if_neg (by rw [hserved]; decide)).trans (congrArg Prod.fst (reportedWrite_of_refused h hst))

theorem ownWrite_defaults {v : Nat} (hv : v < 256) (hmay : mayWrite s Key.dictLoadDefaults v) (h : loadDefaults s v = (s1, 0)) :
    ownWrite s Key.dictLoadDefaults v = s1 := ownWrite_of_entry hmay.1 (entryWrite_defaults hv hmay h)

theorem ownWrite_defaults_refused {v st : Nat} (hv : v < 256) (hmay : mayWrite s Key.dictLoadDefaults v)
    (h : loadDefaults s v = (s1, st)) (hst : st ≠ 0) :
    ownWrite s Key.dictLoadDefaults v = writeRejected s Key.dictLoadDefaults st :=
  ownWrite_of_entry_refused hmay.1 (entryWrite_defaults hv hmay h) hst

/-- Settles O51: entries by `entryWrite_effect`, plain ones by `reportedWrite_stores`, commits by `beginCommit_spec` and
`committed_spec`, and defaults by `loadDefaults_inHold`. -/
theorem entryWritesAndCommitsComplete : Obligations.EntryWritesAndCommitsComplete := by
  unfold Obligations.EntryWritesAndCommitsComplete
  refine ⟨?_, ?_, ?_, ?_, ?_, ?_⟩
  · intro s key m b s1 hserved hm hst hd he
    refine ⟨fun hb => ?_, fun hh hb => ?_⟩
    · rw [Completes, exec_entryWrite hserved, reportedWrite_of_entry (entryWrite_effect hst hd he hb)]
    · rw [Completes, exec_entryWrite hserved, reportedWrite_of_refused (entryWrite_breaks hst hd he hh hb) (by decide)]
  · intro s s1 off v key m hup hoff hkey hm hn hv
    subst hkey
    exact ⟨fun h => completes_of rfl (congrArg pump (directWrite_stores hup hoff hm hn hv h)),
      completes_of rfl (congrArg pump (directWrite_partial hup hm hn))⟩
  · intro s key v hk hmay
    obtain ⟨hnamed, heff, hlt, hmeta, hrun⟩ := settingEntries hk
    obtain ⟨m, hm⟩ := Option.isSome_iff_exists.1 hmeta
    have hty : ((findMeta key).map EMeta.ty).getD ETy.u8 = m.ty := by rw [hm]; rfl
    have hkey : (BitVec.ofNat 24 key).toNat = key := by
      rw [BitVec.toNat_ofNat]
      exact Nat.mod_eq_of_lt hlt
    refine ⟨m.ty, by rw [hm]; rfl, ?_⟩
    rw [Completes, exec_entryWrite hmay.1, hkey, reportedWrite_stores hnamed heff (hrun s) (by rw [← hty]; exact hmay.2) (leNat_leBytes _ _)]
  · intro s v hmay hv hc h
    subst hv
    obtain ⟨c, hcommit, htarget, hrecs, h1, h2, hmem⟩ := beginCommit_spec (s := s)
    exact ⟨_, c, completes_of rfl (ownWrite_of_command hmay (by decide) (by decide)
      (commandWrite_dictCommit.trans (congrArg some (writeCommit_begins hc h)))), hcommit, htarget, hrecs, h1, h2, hmem⟩
  · intro s c hc hok
    refine ⟨?_, fun e he => ⟨_, rfl, commitComplete_failed hc he hok⟩⟩
    obtain ⟨hnone, hbase, hA, hB, hn, hhold, hstate, hgen, hcopy⟩ := committed_spec (c := c) hok
    by_cases hl : (inHold (committed s c) && consistent (committed s c)) = true
    · refine ⟨_, completes_of rfl ((commitComplete_ok hc).trans (if_pos hl)), hnone, hbase, hA, hB, hn, fun hh => ?_⟩
      rw [hhold, hh] at hl
      exact absurd hl Bool.false_ne_true
    · exact ⟨_, completes_of rfl ((commitComplete_ok hc).trans (if_neg hl)), hnone, hbase, hA, hB, hn, fun _ => ⟨hstate, hgen, hcopy⟩⟩
  · intro s h1 h2
    refine ⟨fun hc => ⟨?_, ?_⟩, fun hc hh => ⟨_, rfl, ?_, ?_⟩⟩
    · exact completes_of rfl (ownWrite_defaults_refused (by decide) h1 (loadDefaults_busy hc) (by decide))
    · exact completes_of rfl (ownWrite_defaults_refused (by decide) h2 (loadDefaults_busy hc) (by decide))
    · exact completes_of rfl (ownWrite_defaults (by decide) h1 (loadDefaults_inHold hc hh))
    · exact completes_of rfl (ownWrite_defaults (by decide) h2 (loadDefaults_inHold hc hh))

end Sys2Proof.Machine
end

