-- ==== Sys2Proof/Proofs/FieldRequests.lean ====
section
/-!
PROOF. Requests of the mailbox and the field network, and the field port (R431–R438, R442, R454).
-/

namespace Sys2Proof.Machine

variable {s s1 : State} {x : Outside} {d : Datagram}

/-! ### Serving a message -/

/-- A request that is no WRITE changes nothing. -/
theorem serveMsg_keeps {path : DictPath} {limit : Nat} {b : List Byte} (h : msgOp b ≠ 2) : (serveMsg s path limit b x).1 = s := by
  unfold serveMsg
  dsimp only
  split
  · rfl
  · rw [if_neg h]
    split
    · split <;> rfl
    · rfl

theorem mbxServe_holds {resp : List Byte} (h : serveMsg s .mirror 4096 s.dsys.mbxReq x = (s1, resp)) (hbusy : s1.dsys.mbxBusy = true)
    (hquiet : s1.dsys.mbxQuiet = false) :
    mbxServe s x = { s1 with dsys := { s1.dsys with mbxBusy := false, mbxDone := true, mbxResp := resp } } := by
  unfold mbxServe
  rw [h]
  dsimp only
  rw [if_neg (by rw [hbusy]; decide), if_neg (ne_true_of_eq_false hquiet)]

theorem fieldServe_again {k : KeptResp} (hup : fieldUp s = true) (ha : acceptable d = true)
    (hk : keptFor s d.src d.port (msgId d.payload) = some k) : fieldServe s d x = sendOut s (.udp d.src d.port k.resp) := by
  unfold fieldServe
  rw [if_neg (by rw [hup]; decide), if_neg (by rw [ha]; decide), hk]

theorem fieldServe_full (hup : fieldUp s = true) (ha : acceptable d = true)
    (hk : keptFor s d.src d.port (msgId d.payload) = none) (hf : d.full = true) : fieldServe s d x = overload s d := by
  unfold fieldServe
  rw [if_neg (by rw [hup]; decide), if_neg (by rw [ha]; decide), hk]
  dsimp only
  rw [if_pos hf]

theorem fieldServe_served {resp : List Byte} (hup : fieldUp s = true) (ha : acceptable d = true)
    (hk : keptFor s d.src d.port (msgId d.payload) = none) (hf : d.full = false)
    (h : serveMsg s .field 1452 d.payload x = (s1, resp)) (hserved : dictServed s1 = true) :
    fieldServe s d x = keepSend s1 d.src d.port (msgId d.payload) resp := by
  unfold fieldServe
  rw [if_neg (by rw [hup]; decide), if_neg (by rw [ha]; decide), hk]
  dsimp only
  rw [if_neg (ne_true_of_eq_false hf), h]
  dsimp only
  rw [if_pos hserved]

theorem fieldUp_served (h : fieldUp s = true) : dictServed s = true := by
  unfold fieldUp at h
  simp only [Bool.and_eq_true] at h
  exact h.1.1

/-! ### DISCOVER -/

theorem answerOnce_again {a p id : Nat} {resp : List Byte} {k : KeptResp} (h : keptFor s a p id = some k) :
    answerOnce s a p id resp = sendOut s (.udp a p k.resp) := by
  unfold answerOnce
  rw [h]

theorem answerOnce_new {a p id : Nat} {resp : List Byte} (h : keptFor s a p id = none) :
    answerOnce s a p id resp = keepSend s a p id resp := by
  unfold answerOnce
  rw [h]

theorem trananDiscover_full (hup : fieldUp s = true) (ha : acceptable d = true) (hop : msgOp d.payload = 3) (hf : d.full = true)
    (hk : keptFor s d.src d.port (msgId d.payload) = none) :
    trananDiscover s d = sendOut s (.udp d.src d.port (response 3 0 (msgId d.payload) 0x104 [] 0)) := by
  unfold trananDiscover
  dsimp only
  rw [if_neg (by rw [hup, hop]; decide), if_neg (by rw [ha]; decide), if_pos (by rw [hf, hk]; rfl)]
  unfold overload
  rw [hop]

theorem trananDiscover_empty (hup : fieldUp s = true) (ha : acceptable d = true) (hop : msgOp d.payload = 3)
    (hroom : d.full = false ∨ (keptFor s d.src d.port (msgId d.payload)).isSome = true) (hc : checkMsg d.payload = .ok []) :
    trananDiscover s d = if d.multicast then { s with dsys := { s.dsys with
        discover := s.dsys.discover ++ [(d.src, d.port, msgId d.payload)] } }
      else answerOnce s d.src d.port (msgId d.payload) (discoverAnswer s (msgId d.payload)) := by
  unfold trananDiscover
  dsimp only
  rw [if_neg (by rw [hup, hop]; decide), if_neg (by rw [ha]; decide), if_neg ?_, hc]
  · rfl
  · intro h
    rw [Bool.and_eq_true, Option.isNone_iff_eq_none] at h
    obtain hf | hk := hroom
    · exact absurd h.1 (ne_true_of_eq_false hf)
    · rw [h.2] at hk
      exact absurd hk (by decide)

theorem msgId_response {op flags id status n : Nat} {items : List Byte} : msgId (response op flags id status items n) = id % 2 ^ 32 := by
  have hdrop : ((response op flags id status items n).drop 4).take 4 = leBytes 4 id := by
    unfold response
    simp only [List.append_assoc]
    rfl
  unfold msgId leField
  rw [hdrop]
  exact leNat_leBytes 4 id

/-- Settles O52: the mailbox by `mbxServe_holds`, datagrams by `fieldServe` and `trananDiscover`, one lemma a case. -/
theorem requestsAreServed : Obligations.RequestsAreServed := by
  unfold Obligations.RequestsAreServed
  refine ⟨?_, ?_, ?_, ?_, ?_, ?_, ?_, ?_, ?_, ?_, ?_⟩
  · intro s v buf hup hbusy hlo hhi
    refine completes_of rfl ((if_neg (by rw [hup]; decide)).trans (if_neg ?_))
    rintro (h | h | h)
    · exact absurd h (ne_true_of_eq_false hbusy)
    · omega
    · omega
  · intro s hbusy hquiet hserved hop
    have hserve : serveMsg s .mirror 4096 s.dsys.mbxReq {} = (s, (serveMsg s .mirror 4096 s.dsys.mbxReq {}).2) :=
      Prod.ext (serveMsg_keeps hop) rfl
    exact completes_of rfl ((if_pos ⟨hbusy, hop, hserved⟩).trans (mbxServe_holds hserve hbusy hquiet))
  · intro s s1 x resp hbusy hserved hop hserve hbusy1 hquiet
    exact completes_of rfl (congrArg pump ((if_pos ⟨hbusy, hop, hserved⟩).trans (mbxServe_holds hserve hbusy1 hquiet)))
  · intro s d hup ha h2 h3
    have hread : trananRead s (.field d) = fieldServe s d {} := if_neg (by rintro (h | h); exact h2 h; exact h3 h)
    refine ⟨fun k hk => completes_of rfl (hread.trans (fieldServe_again hup ha hk)), fun hk => ⟨fun hf => ?_, fun hf => ?_⟩⟩
    · have hserve : serveMsg s .field 1452 d.payload {} = (s, (serveMsg s .field 1452 d.payload {}).2) :=
        Prod.ext (serveMsg_keeps h2) rfl
      exact completes_of rfl (hread.trans (fieldServe_served hup ha hk hf hserve (fieldUp_served hup)))
    · exact completes_of rfl (hread.trans (fieldServe_full hup ha hk hf))
  · intro s s1 d x resp hup ha hop hserve hserved hf hk
    exact completes_of rfl (congrArg pump ((if_pos hop).trans (fieldServe_served hup ha hk hf hserve hserved)))
  · intro s d hup ha hop hc
    refine ⟨fun k hk hm => ?_, fun hk hf hm => ?_, fun hk hf => ?_, fun hf hm => ?_⟩
    · exact completes_of rfl ((trananDiscover_empty hup ha hop (.inr (by rw [hk]; rfl)) hc).trans
        ((if_neg (ne_true_of_eq_false hm)).trans (answerOnce_again hk)))
    · exact completes_of rfl ((trananDiscover_empty hup ha hop (.inl hf) hc).trans
        ((if_neg (ne_true_of_eq_false hm)).trans (answerOnce_new hk)))
    · exact completes_of rfl (trananDiscover_full hup ha hop hf hk)
    · exact completes_of rfl ((trananDiscover_empty hup ha hop (.inl hf) hc).trans (if_pos hm))
  · intro s a p id rest hup hd hk
    have hdelay : discoverDelay s = keepSend { s with dsys := { s.dsys with discover := rest } } a p id
        (discoverAnswer { s with dsys := { s.dsys with discover := rest } } id) := by
      unfold discoverDelay
      rw [hd]
      exact (if_pos hup).trans (answerOnce_new hk)
    exact ⟨_, _, completes_of rfl hdelay, rfl, msgId_response, rfl, rfl⟩
  · intro s hserved hstate hok
    have hlink : fieldLink s true = sendOut { (dset s Key.fieldLinkState 1) with dsys := { s.dsys with
        dad := true, plcaNodes := wget s Key.plcaNodeCount, plcaTimer := wget s Key.plcaToTimer } } .neighborProbe := by
      unfold fieldLink
      rw [if_neg (by rw [hserved, hstate]; decide), if_neg (by decide), if_neg (by rw [hstate]; decide)]
    refine ⟨_, completes_of rfl hlink, dget_dset_same hok, rfl, rfl, rfl, rfl, ?_⟩
    exact Bool.and_false _
  · intro s hserved hstate hok
    have hlink : fieldLink s false = { (dset s Key.fieldLinkState 0) with dsys := { s.dsys with dad := false } } := by
      unfold fieldLink fieldLost
      rw [if_neg (by rw [hserved, hstate]; decide), if_pos (by decide), if_neg (by rw [hstate]; decide)]
    exact ⟨_, completes_of rfl hlink, dget_dset_same hok, rfl, rfl⟩
  · intro s hdad hok
    have hdone : ∀ c, dadDone s c = if c then dset { s with dsys := { s.dsys with dad := false } } Key.fieldLinkState 2
        else { s with dsys := { s.dsys with dad := false } } := fun c => if_neg (by rw [hdad]; decide)
    exact ⟨completes_of rfl ((hdone false).trans (if_neg Bool.false_ne_true)), _, completes_of rfl ((hdone true).trans (if_pos rfl)), rfl,
      dget_dset_same (s := { s with dsys := _ }) hok, rfl, rfl⟩
  · intro s src b hserved hstate hdad
    have hans : fieldAnswers s = true := by
      unfold fieldAnswers
      rw [hserved, hstate, hdad]
      rfl
    exact ⟨completes_of rfl (if_pos hans), completes_of rfl (if_pos hans)⟩

end Sys2Proof.Machine
end

