-- ==== Sys2Proof/Proofs/QuenchSide.lean ====
section
/-!
PROOF. What the end of every strand and operation leaves as it was: the resets in progress and the queue engine.
-/

namespace Sys2Proof.Machine

set_option linter.unusedSimpArgs false

/-- The resets in progress and the queue engine are as in `u`. -/
def QuenchSide (u t : State) : Prop := t.rst = u.rst ∧ t.q = u.q

variable {v : State}

/-- `QuenchSide` of a state's parts. -/
def QuenchSideC (v : State) (x_rst : RstSys) (x_q : QSys) : Prop := x_rst = v.rst ∧ x_q = v.q

theorem QuenchSide.mk_iff x_pending x_free x_dict x_mem x_ev x_flt x_knotq x_knots x_knotsLost x_engines x_ops
    x_nextOp x_jobs x_raq x_storm x_reports x_gens x_tlines x_tin x_tout x_swapJob x_swapped x_seqs x_saved x_q x_pcie
    x_pw x_cord x_ck x_snap x_rst x_flash x_dsys x_sec x_d3 x_heldHost x_out :
    QuenchSide v (State.mk x_pending x_free x_dict x_mem x_ev x_flt x_knotq x_knots x_knotsLost x_engines x_ops
      x_nextOp x_jobs x_raq x_storm x_reports x_gens x_tlines x_tin x_tout x_swapJob x_swapped x_seqs x_saved x_q
      x_pcie x_pw x_cord x_ck x_snap x_rst x_flash x_dsys x_sec x_d3 x_heldHost x_out) =
      QuenchSideC v x_rst x_q :=
  Eq.trans rfl rfl

theorem QuenchSide.c {s : State} (h : QuenchSide v s) : QuenchSideC v s.rst s.q := h

theorem QuenchSide.refl (s : State) : QuenchSide s s := ⟨rfl, rfl⟩

theorem QuenchSide.trans {s t u : State} (h : QuenchSide s t) (h' : QuenchSide t u) : QuenchSide s u :=
  ⟨(h'.1).trans h.1, (h'.2).trans h.2⟩

/-- Reading and writing memory is within it. -/
theorem MemOnly.quenchSide {s t : State} (h : MemOnly s t) : QuenchSide s t :=
  ⟨h.rst, h.q⟩

theorem QuenchSide.snd {α : Type} {r : α × State} {x : α} {t : State} (e : r = (x, t)) (h : QuenchSide v r.2) : QuenchSide v t := by
  subst e; exact h

theorem QuenchSide.foldl {α : Type} {f : State → α → State} {l : List α} {s : State}
    (hf : ∀ t x, QuenchSide v t → QuenchSide v (f t x)) (h : QuenchSide v s) : QuenchSide v (l.foldl f s) := by
  induction l generalizing s with
  | nil => exact h
  | cons x r ih => exact ih (hf s x h)

theorem QuenchSide.foldlSnd {α β : Type} {f : β × State → α → β × State} {l : List α} {s : β × State}
    (hf : ∀ t x, QuenchSide v t.2 → QuenchSide v (f t x).2) (h : QuenchSide v s.2) : QuenchSide v (l.foldl f s).2 := by
  induction l generalizing s with
  | nil => exact h
  | cons x r ih => exact ih (hf s x h)

theorem QuenchSide.rst {s t : State} (h : QuenchSide s t) : t.rst = s.rst := h.1

theorem QuenchSide.q {s t : State} (h : QuenchSide s t) : t.q = s.q := h.2

theorem QuenchSide.foldlSndEq {α β : Type} {f : β × State → α → β × State} {l : List α} {s : β × State}
    (hf : ∀ t x r, f t x = r → QuenchSide v t.2 → QuenchSide v r.2) (h : QuenchSide v s.2) : QuenchSide v (l.foldl f s).2 :=
  QuenchSide.foldlSnd (fun t x => hf t x _ rfl) h

theorem devWrite_quenchSide {s : State} {a1 : Via} {bulk : Bool} {a : Nat} {b : List Byte} (h : QuenchSide v s) :
    QuenchSide v (devWrite s a1 bulk a b).2 :=
  h.trans (MemOnly.quenchSide (devWrite_memOnly (.refl s)))

theorem dset_quenchSide {s : State} {key : Nat} {a2 : Nat} (h : QuenchSide v s) :
    QuenchSide v (dset s key a2) := by
  unfold dset
  repeat' first
    | (with_reducible first | assumption | intro _ | apply QuenchSide.c)
    | (simp only [QuenchSide.mk_iff])
    | split

theorem dcount_quenchSide {s : State} {key : Nat} {n : Nat} (h : QuenchSide v s) :
    QuenchSide v (dcount s key n) := by
  unfold dcount
  repeat' first
    | (with_reducible first | assumption | intro _ | apply dset_quenchSide | apply QuenchSide.c)
    | (simp only [QuenchSide.mk_iff])
    | split

theorem sendOut_quenchSide {s : State} {m : OutMsg} (h : QuenchSide v s) :
    QuenchSide v (sendOut s m) := by
  unfold sendOut
  repeat' first
    | (with_reducible first | assumption | intro _ | apply QuenchSide.c)
    | (simp only [QuenchSide.mk_iff])
    | split

theorem hubEvent_quenchSide {s : State} {source : Nat} {code : Nat} {data : Nat} {kind : Nat} (h : QuenchSide v s) :
    QuenchSide v (hubEvent s source code data kind) := by
  unfold hubEvent
  repeat' first
    | (with_reducible first | assumption | intro _ | apply QuenchSide.c)
    | (simp only [QuenchSide.mk_iff])
    | split

theorem hubNotice_quenchSide {s : State} {source : Nat} {what : List Nat} (h : QuenchSide v s) :
    QuenchSide v (hubNotice s source what) := by
  unfold hubNotice
  repeat' first
    | (with_reducible first | assumption | intro _ | apply hubEvent_quenchSide | apply QuenchSide.c)
    | (simp only [QuenchSide.mk_iff])
    | split

theorem undefineAt_quenchSide {s : State} {l : Loc} {n : Nat} (h : QuenchSide v s) : QuenchSide v (undefineAt s l n)
    := by
  unfold undefineAt
  dsimp only
  repeat' first
    | (with_reducible first | assumption | intro _ | apply QuenchSide.c)
    | (simp only [QuenchSide.mk_iff, putLine_cells])
    | split

theorem releaseHold_quenchSide {s : State} (h : QuenchSide v s) :
    QuenchSide v (releaseHold s) := by
  unfold releaseHold
  repeat' first
    | (with_reducible first | assumption | intro _ | apply QuenchSide.c)
    | (simp only [QuenchSide.mk_iff])
    | split

theorem onTallies_quenchSide {s : State} {f : TLine → TLine} (h : QuenchSide v s) :
    QuenchSide v (onTallies s f) := by
  unfold onTallies
  repeat' first
    | (with_reducible first | assumption | intro _ | apply QuenchSide.c)
    | (simp only [QuenchSide.mk_iff])
    | split

theorem tallyDropOp_quenchSide {s : State} {op : Nat} (h : QuenchSide v s) :
    QuenchSide v (tallyDropOp s op) := by
  unfold tallyDropOp
  repeat' first
    | (with_reducible first | assumption | intro _ | apply onTallies_quenchSide | apply QuenchSide.c)
    | (simp only [QuenchSide.mk_iff])
    | split

theorem setOp_quenchSide {s : State} {k : Nat} {o : Option OpRec} (h : QuenchSide v s) :
    QuenchSide v (setOp s k o) := by
  unfold setOp
  repeat' first
    | (with_reducible first | assumption | intro _ | apply QuenchSide.c)
    | (simp only [QuenchSide.mk_iff])
    | split

theorem dropTiles_quenchSide {s : State} {k : Nat} (h : QuenchSide v s) :
    QuenchSide v (dropTiles s k) := by
  unfold dropTiles
  repeat' first
    | (with_reducible first | apply tallyDropOp_quenchSide)
    | (with_reducible first | assumption | intro _ | apply QuenchSide.c)
    | (simp only [QuenchSide.mk_iff])
    | split

theorem failOp_quenchSide {s : State} {k : Nat} {code : Nat} (h : QuenchSide v s) :
    QuenchSide v (failOp s k code) := by
  unfold failOp
  repeat' first
    | (with_reducible first | assumption | intro _ | apply setOp_quenchSide | apply dropTiles_quenchSide | apply QuenchSide.c)
    | (simp only [QuenchSide.mk_iff])
    | split

theorem hubWriteFor_quenchSide {s : State} {who : Requester} {bulk : Bool} {a : Nat} {b : List Byte} (h : QuenchSide v
    s) :
    QuenchSide v (hubWriteFor s who bulk a b).2 := by
  unfold hubWriteFor
  repeat' first
    | (with_reducible first | assumption | intro _ | apply dcount_quenchSide | apply devWrite_quenchSide | apply QuenchSide.c)
    | (with_reducible refine QuenchSide.snd (by assumption) ?_)
    | (simp only [QuenchSide.mk_iff])
    | split

theorem hubWrite_quenchSide {s : State} {bulk : Bool} {a : Nat} {b : List Byte} (h : QuenchSide v s) :
    QuenchSide v (hubWrite s bulk a b).2 := by
  unfold hubWrite
  repeat' first
    | (with_reducible first | apply hubWriteFor_quenchSide)
    | (with_reducible first | assumption | intro _ | apply devWrite_quenchSide | apply QuenchSide.c)
    | (with_reducible refine QuenchSide.snd (by assumption) ?_)
    | (simp only [QuenchSide.mk_iff])
    | split

theorem hubWrites_quenchSide {s : State} {bulk : Bool} {a2 : List (Nat × List Byte)} (h : QuenchSide v s) :
    QuenchSide v (hubWrites s bulk a2).2 := by
  induction a2 generalizing s bulk with
  | nil =>
    unfold hubWrites
    repeat' first
      | (with_reducible first | assumption | intro _ | apply hubWrite_quenchSide | apply QuenchSide.c)
      | (with_reducible refine QuenchSide.snd (by assumption) ?_)
      | (simp only [QuenchSide.mk_iff])
      | split
  | cons x r ih =>
    unfold hubWrites
    repeat' first
      | (with_reducible first | assumption | intro _ | apply hubWrite_quenchSide | apply ih | apply QuenchSide.c)
      | (with_reducible refine QuenchSide.snd (by assumption) ?_)
      | (simp only [QuenchSide.mk_iff])
      | split

theorem ctxWriteBack_quenchSide {s : State} {q : Nat} {c : QCtx} (h : QuenchSide v s) :
    QuenchSide v (ctxWriteBack s q c) := by
  unfold ctxWriteBack
  repeat' first
    | (with_reducible first | assumption | intro _ | apply hubWrites_quenchSide | apply QuenchSide.c)
    | (with_reducible refine QuenchSide.snd (by assumption) ?_)
    | (simp only [QuenchSide.mk_iff])
    | split

theorem setChan_quenchSide {s : State} {k : Nat} {c : Chan} (h : QuenchSide v s) :
    QuenchSide v (setChan s k c) := by
  unfold setChan
  repeat' first
    | (with_reducible first | assumption | intro _ | apply QuenchSide.c)
    | (simp only [QuenchSide.mk_iff])
    | split

theorem sendFrame_quenchSide {s : State} {key : Nat} {f : TxFrame} {retx : Bool} {payload : List Byte} (h : QuenchSide
    v s) :
    QuenchSide v (sendFrame s key f retx payload) := by
  unfold sendFrame
  repeat' first
    | (with_reducible first | assumption | intro _ | apply sendOut_quenchSide | apply QuenchSide.c)
    | (simp only [QuenchSide.mk_iff])
    | split

theorem sendPlain_quenchSide {s : State} {peer : Nat} {port : Nat} {ch : Nat} {f : TxFrame} (h : QuenchSide v s) :
    QuenchSide v (sendPlain s peer port ch f) := by
  unfold sendPlain
  repeat' first
    | (with_reducible first | assumption | intro _ | apply sendFrame_quenchSide | apply QuenchSide.c)
    | (simp only [QuenchSide.mk_iff])
    | split

theorem enqueue_quenchSide {s : State} {key : Nat} {f : TxFrame} (h : QuenchSide v s) :
    QuenchSide v (enqueue s key f) := by
  unfold enqueue
  repeat' first
    | (with_reducible first | assumption | intro _ | apply setChan_quenchSide | apply QuenchSide.c)
    | (simp only [QuenchSide.mk_iff])
    | split

theorem setColl_quenchSide {s : State} {c : Coll} (h : QuenchSide v s) :
    QuenchSide v (setColl s c) := by
  unfold setColl
  repeat' first
    | (with_reducible first | assumption | intro _ | apply QuenchSide.c)
    | (simp only [QuenchSide.mk_iff])
    | split

theorem collAbort_quenchSide {s : State} {post : Nat} {reason : Nat} {rank : Option Nat} (h : QuenchSide v s) :
    QuenchSide v (collAbort s post reason rank) := by
  unfold collAbort
  repeat' first
    | (with_reducible first | assumption | intro _ | apply QuenchSide.foldl | apply QuenchSide.foldlFst)
    | (with_reducible first | apply QuenchSide.foldlSnd | apply dcount_quenchSide | apply failOp_quenchSide)
    | (with_reducible first | apply hubNotice_quenchSide | apply sendPlain_quenchSide | apply setColl_quenchSide)
    | (with_reducible first | apply QuenchSideO.getD | apply QuenchSide.c)
    | (simp only [QuenchSide.mk_iff])
    | split

theorem sendCtrl_quenchSide {s : State} {peer : Nat} {code : Nat} {gen : Nat} {elem : Nat} {payload : List Byte} (h :
    QuenchSide v s) :
    QuenchSide v (sendCtrl s peer code gen elem payload) := by
  unfold sendCtrl
  repeat' first
    | (with_reducible first | assumption | intro _ | apply enqueue_quenchSide | apply QuenchSide.c)
    | (simp only [QuenchSide.mk_iff])
    | split

theorem dropStream_quenchSide {s : State} {which : Nat} (h : QuenchSide v s) :
    QuenchSide v (dropStream s which) := by
  unfold dropStream
  repeat' first
    | (with_reducible first | assumption | intro _ | apply QuenchSide.c)
    | (simp only [QuenchSide.mk_iff])
    | split

theorem setFreezeState_quenchSide {s : State} {a1 : Nat} (h : QuenchSide v s) :
    QuenchSide v (setFreezeState s a1) := by
  unfold setFreezeState
  repeat' first
    | (with_reducible first | assumption | intro _ | apply dset_quenchSide | apply QuenchSide.c)
    | (simp only [QuenchSide.mk_iff])
    | split

theorem freezeFail_quenchSide {s : State} {cause : FreezeCause} (h : QuenchSide v s) :
    QuenchSide v (freezeFail s cause) := by
  unfold freezeFail
  repeat' first
    | (with_reducible first | assumption | intro _ | apply dropStream_quenchSide | apply hubNotice_quenchSide)
    | (with_reducible first | apply releaseHold_quenchSide | apply sendCtrl_quenchSide | apply setFreezeState_quenchSide)
    | (with_reducible first | apply QuenchSide.c)
    | (simp only [QuenchSide.mk_iff])
    | split

theorem restoreExit_quenchSide {s : State} {r : RestoreResult} (h : QuenchSide v s) :
    QuenchSide v (restoreExit s r) := by
  unfold restoreExit
  repeat' first
    | (with_reducible first | assumption | intro _ | apply hubNotice_quenchSide | apply dset_quenchSide | apply QuenchSide.c)
    | (simp only [QuenchSide.mk_iff])
    | split

theorem restoreAbort_quenchSide {s : State} (h : QuenchSide v s) :
    QuenchSide v (restoreAbort s) := by
  unfold restoreAbort
  repeat' first
    | (with_reducible first | assumption | intro _ | apply restoreExit_quenchSide | apply QuenchSide.c)
    | (simp only [QuenchSide.mk_iff])
    | split

theorem undefineDests_quenchSide {s : State} {o : OpRec} (h : QuenchSide v s) : QuenchSide v (undefineDests s o) := by
  unfold undefineDests
  split
  · exact h
  · refine QuenchSide.foldl (fun st _ hst => ?_) h
    split
    · exact hst
    · exact undefineAt_quenchSide hst

end Sys2Proof.Machine
end

