-- ==== Sys2Proof/Proofs/ModuleResets.lean ====
section
/-!
PROOF. Resets of the module and of the host (R456, R462, R464).
-/

namespace Sys2Proof.Machine

variable {s : State}

/-! ### What flash keeps, and the notices to the peers -/

theorem flashAfter_of {t : State} (hf : t.flash = s.flash) (hd : t.dict = s.dict) (hs : t.sec = s.sec) : flashAfter t = flashAfter s := by
  unfold flashAfter dget
  rw [hf, hd, hs]

/-- Sending GOING_DOWN changes the counts of ports and what leaves the module. -/
theorem goingDown_parts {code : Nat} : ∃ cord out, goingDown s code = { s with cord := cord, out := out } ∧
    cord.started = s.cord.started ∧
    ((∀ k ∈ s.cord.up, portOpen s (k % 8) = true) → out.length = s.out.length + s.cord.up.length) := by
  unfold goingDown
  generalize s.cord.up = l
  induction l generalizing s with
  | nil => exact ⟨s.cord, s.out, rfl, rfl, fun _ => rfl⟩
  | cons k r ih =>
    rw [List.foldl_cons]
    have hport : chanKey (k / 8) (k % 8) 0 / 16 % 8 = k % 8 := chanKey_port (Nat.mod_lt _ (by decide)) (by decide)
    by_cases ho : portOpen s (k % 8) = true
    · obtain ⟨cord, hsend, -, -⟩ := sendFrame_open (s := s) (key := chanKey (k / 8) (k % 8) 0) (x := { type := 7, code := code })
        (b := []) (by rw [hport]; exact ho)
      have hstarted : cord.started = s.cord.started := by
        have h := congrArg (fun t : State => t.cord.started) hsend
        obtain ⟨tx, rx, out, hp⟩ := sendFrame_parts (s := s) (key := chanKey (k / 8) (k % 8) 0) (x := { type := 7, code := code })
          (retx := false) (b := [])
        rw [hp] at h
        exact h.symm
      obtain ⟨c, o, heq, hst, hlen⟩ := ih (s := sendPlain s (k / 8) (k % 8) 0 { type := 7, code := code })
      have hplain : sendPlain s (k / 8) (k % 8) 0 { type := 7, code := code } = _ := hsend
      rw [hplain] at heq hst hlen ⊢
      refine ⟨c, o, heq, hst.trans hstarted, fun hall => (hlen fun x hx => ?_).trans ?_⟩
      · have hx := hall x (List.mem_cons_of_mem _ hx)
        unfold portOpen at hx ⊢
        rw [← hstarted] at hx
        exact hx
      · simp only [List.length_append, List.length_cons, List.length_nil]
        omega
    · obtain ⟨tx, rx, out, hp⟩ := sendFrame_parts (s := s) (key := chanKey (k / 8) (k % 8) 0) (x := { type := 7, code := code })
          (retx := false) (b := [])
      obtain ⟨c, o, heq, hst, -⟩ := ih (s := sendPlain s (k / 8) (k % 8) 0 { type := 7, code := code })
      have hplain : sendPlain s (k / 8) (k % 8) 0 { type := 7, code := code } = _ := hp
      rw [hplain] at heq hst ⊢
      exact ⟨c, o, heq, hst, fun hall => absurd (hall k (List.mem_cons_self ..)) ho⟩

/-! ### The module -/

theorem wipe_spec {cause : Nat} :
    (wipe s cause).flash = flashAfter s ∧ (wipe s cause).mem = {} ∧ (wipe s cause).seqs = [] ∧ (wipe s cause).cord = {} ∧
      (wipe s cause).q = { perst := s.q.perst } ∧ (wipe s cause).rst = { mrst := s.rst.mrst } ∧ (wipe s cause).pw = {} ∧
      (wipe s cause).out = s.out ∧ dget (wipe s cause) Key.startupStage = 0 ∧ dget (wipe s cause) Key.resetCause = cause :=
  ⟨rfl, rfl, rfl, rfl, rfl, rfl, rfl, rfl, (dget_wipe (by decide)).trans rfl, (dget_wipe (by decide)).trans (if_pos rfl)⟩

theorem wipe_dictOk {cause : Nat} : (wipe s cause).dictOk := by
  unfold wipe
  exact dset_dictOk (dset_dictOk (dset_dictOk (dset_dictOk rfl)))

theorem moduleReset_spec :
    (moduleReset s).flash = flashAfter s ∧ (moduleReset s).mem = {} ∧ (moduleReset s).seqs = [] ∧ (moduleReset s).q.qeReady = false ∧
      dget (moduleReset s) Key.startupStage = 0 ∧ dget (moduleReset s) Key.resetCause = 2 ∧ dget (moduleReset s) Key.resetState = 1 ∧
      ((∀ k ∈ s.cord.up, portOpen s (k % 8) = true) → (moduleReset s).out.length = s.out.length + s.cord.up.length) := by
  obtain ⟨cord, out, heq, -, hlen⟩ := goingDown_parts (s := s) (code := 1)
  unfold moduleReset
  rw [heq]
  obtain ⟨hflash, hmem, hseqs, -, hq, -, -, hout, hstage, hcause⟩ := wipe_spec (s := { s with cord := cord, out := out }) (cause := 2)
  refine ⟨hflash.trans (flashAfter_of rfl rfl rfl), hmem, hseqs, congrArg QSys.qeReady hq, ?_, ?_, dget_dset_same wipe_dictOk, fun h => ?_⟩
  · exact (dget_dset_ne wipe_dictOk (by decide)).trans hstage
  · exact (dget_dset_ne wipe_dictOk (by decide)).trans hcause
  · exact (congrArg List.length hout).trans (hlen h)

/-! ### The host -/

theorem disableAll_memOnly : MemOnly s (disableAll s) := by
  unfold disableAll
  generalize List.range (2 ^ 20) = l
  induction l generalizing s with
  | nil => exact .refl s
  | cons q r ih => exact (hubWrite_memOnly s false _ _).trans ih

/-- What is left of strands and operations once all are quenched. -/
theorem quenchAll_spec :
    (quenchAll s).ops = [] ∧ (quenchAll s).saved = [] ∧ (quenchAll s).rst = { s.rst with epochs := s.rst.epochs + 1 } ∧
      (quenchAll s).q = { s.q with cache := [], ents := [], ready := [], live := [], owed := [] } ∧
      ∀ e ∈ (quenchAll s).seqs, e.2.strand = none := by
  unfold quenchAll
  dsimp only
  generalize hs4 : List.foldl undefineDests _ _ = s4
  have hside : QuenchSide s s4 := by
    rw [← hs4]
    refine QuenchSide.foldl (fun _ _ h => undefineDests_quenchSide h) (dset_quenchSide ?_)
    refine QuenchSide.foldl (fun _ _ h => ctxWriteBack_quenchSide h) ?_
    refine QuenchSide.foldl (fun _ _ h => collAbort_quenchSide h) ?_
    exact restoreAbort_quenchSide (freezeFail_quenchSide (.refl s))
  refine ⟨rfl, rfl, by rw [hside.rst], by rw [hside.q], fun e he => ?_⟩
  obtain ⟨x, -, hx⟩ := List.mem_filterMap.1 he
  split at hx
  · cases hx
  · cases hx
    rfl

/-- What the host interface's reset leaves, whatever the state it begins from. -/
theorem hostInterfaceReset_spec :
    let u := hostInterfaceReset s
    u.q.winBase = 0 ∧ u.q.late = [] ∧ u.q.cmdResult = 0 ∧ u.q.hostEpoch = nextEpoch s.q.hostEpoch ∧ u.ev.msixEnable = false ∧
      u.ev.vecOpen = [] ∧ u.ev.pba = [] ∧ u.d3 = false ∧ u.heldHost = [] ∧ u.dsys.mbxDone = false ∧ u.q.perst = s.q.perst ∧
      u.ops = s.ops ∧ u.saved = s.saved ∧ u.seqs = s.seqs ∧ u.rst = s.rst ∧ u.q.cache = s.q.cache ∧ u.q.ents = s.q.ents ∧
      u.q.live = s.q.live :=
  ⟨rfl, rfl, rfl, rfl, rfl, rfl, rfl, rfl, rfl, rfl, rfl, rfl, rfl, rfl, rfl, rfl, rfl, rfl⟩

theorem hostReset_done (hoff : s.rst.off = false) (hm : s.rst.mrst = false) (hb : s.pw.module ≠ .banked) :
    hostResetDone s (hostReset s) ∧ (hostReset s).q.perst = s.q.perst := by
  unfold hostReset
  rw [if_neg (by rw [hoff, hm]; simpa using hb)]
  dsimp only
  generalize hs1 : (if s.q.qeReady = true then quenchAll s else s) = s1
  obtain ⟨hepoch, hperst, hready⟩ : s1.q.hostEpoch = s.q.hostEpoch ∧ s1.q.perst = s.q.perst ∧
      (s.q.qeReady = true → s1.ops = [] ∧ s1.saved = [] ∧ s1.q.cache = [] ∧ s1.q.ents = [] ∧ s1.q.live = [] ∧
        s1.rst.epochs = s.rst.epochs + 1 ∧ ∀ e ∈ s1.seqs, e.2.strand = none) := by
    rw [← hs1]
    split
    · obtain ⟨hops, hsaved, hrst, hq, hseqs⟩ := quenchAll_spec (s := s)
      rw [hops, hsaved, hrst, hq]
      exact ⟨rfl, rfl, fun _ => ⟨rfl, rfl, rfl, rfl, rfl, rfl, hseqs⟩⟩
    · next h => exact ⟨rfl, rfl, fun hq => absurd hq h⟩
  generalize hs2 : (if (decide (s.q.hostEpoch ≥ 0xFFFF) && s1.q.memReady) = true then disableAll s1 else s1) = s2
  obtain ⟨hq, hops, hsaved, hseqs, hrst⟩ : s2.q = s1.q ∧ s2.ops = s1.ops ∧ s2.saved = s1.saved ∧ s2.seqs = s1.seqs ∧ s2.rst = s1.rst := by
    rw [← hs2]
    split
    · have h := disableAll_memOnly (s := s1)
      exact ⟨h.q, h.ops, h.saved, h.seqs, h.rst⟩
    · exact ⟨rfl, rfl, rfl, rfl, rfl⟩
  obtain ⟨hwin, hlate, hcmd, hep, hmsix, hvec, hpba, hd3, hheld, hmbx, hp, ho, hsv, hsq, hr, hca, hen, hli⟩ := hostInterfaceReset_spec (s := s2)
  refine ⟨⟨hwin, hlate, hcmd, hep.trans ?_, hmsix, hvec, hpba, hd3, hheld, hmbx, fun h => ?_⟩, hp.trans ?_⟩
  · rw [hq, hepoch]
  · obtain ⟨h1, h2, h3, h4, h5, h6, h7⟩ := hready h
    rw [ho, hsv, hsq, hr, hca, hen, hli, hops, hsaved, hseqs, hrst, hq]
    exact ⟨h1, h2, h3, h4, h5, h6, h7⟩
  · rw [hq, hperst]

theorem hostUp_spec (h : hostUp s = true) : s.rst.mrst = false ∧ s.rst.off = false ∧ s.q.perst = false ∧ s.pw.module ≠ .banked := by
  unfold hostUp at h
  simp only [Bool.and_eq_true, Bool.not_eq_true', bne_iff_ne, ne_eq] at h
  obtain ⟨⟨⟨⟨⟨⟨hm, ho⟩, hp⟩, -⟩, -⟩, hb⟩, -⟩ := h
  exact ⟨hm, ho, hp, hb⟩

/-- Settles O53: `wipe_spec` says what a reset of the module leaves, `hostReset_done` what a reset of the host does. -/
theorem moduleAndHostResetsComplete : Obligations.ModuleAndHostResetsComplete := by
  unfold Obligations.ModuleAndHostResetsComplete
  refine ⟨fun s hm ho => ?_, fun s => rfl, fun s hmay => ?_, fun s hp => ?_, fun s => ⟨fun hup => ?_, fun hup => ?_⟩,
    fun s hp => ⟨fun hb => ?_, fun hb => ?_⟩⟩
  · obtain ⟨hflash, hmem, hseqs, hcord, hq, hrst, -, hout, hstage, hcause⟩ :=
      wipe_spec (s := { s with rst := { s.rst with mrst := true } }) (cause := 1)
    exact ⟨_, completes_of rfl ((if_neg (ne_true_of_eq_false hm)).trans (if_neg (ne_true_of_eq_false ho))), congrArg RstSys.mrst hrst,
      hflash.trans (flashAfter_of rfl rfl rfl), hmem, hseqs, hcord, congrArg QSys.qeReady hq, hstage, hcause, hout⟩
  · exact ⟨_, completes_of rfl (ownWrite_of_command hmay (by decide) (by decide) (commandWrite_resetCmd.trans rfl)), moduleReset_spec⟩
  · refine ⟨_, completes_of rfl (if_neg (ne_true_of_eq_false hp)), rfl, fun ho hm hb => ?_⟩
    exact (hostReset_done ho hm hb).1
  · obtain ⟨hm, ho, hp, hb⟩ := hostUp_spec hup
    obtain ⟨hdone, hperst⟩ := hostReset_done ho hm hb
    exact ⟨_, completes_of rfl (if_pos hup), hdone, hperst.trans hp⟩
  · exact completes_of rfl (if_neg (ne_true_of_eq_false hup))
  · exact completes_of rfl ((if_neg (by rw [hp]; decide)).trans (if_neg hb))
  · obtain ⟨hflash, -, -, -, hq, -, hpw, -, hstage, hcause⟩ := wipe_spec (s := { s with q := { s.q with perst := false } }) (cause := 3)
    exact ⟨_, completes_of rfl ((if_neg (by rw [hp]; decide)).trans (if_pos hb)), congrArg QSys.perst hq, congrArg PwSys.module hpw, hstage,
      hcause, hflash.trans (flashAfter_of rfl rfl rfl)⟩

end Sys2Proof.Machine
end

