-- ==== Sys2Proof/Proofs/UnitResets.lean ====
section
/-!
PROOF. The reset of a die, cluster or core: its commands and the quench protocol, message by message.
-/

namespace Sys2Proof.Machine

variable {s : State} {i : Nat} {q : Quench}

/-! ### The commands -/

theorem resetCommand_range {kind limit : Nat} (h : limit ≤ dget s Key.resetTarget) : resetCommand s kind limit = (s, 3) :=
  if_pos h

theorem resetCommand_runs {kind limit : Nat} (h : dget s Key.resetTarget < limit) (hrun : dget s Key.resetState = 1) :
    resetCommand s kind limit = (s, 0x0A) :=
  (if_neg (Nat.not_le_of_lt h)).trans (if_pos (.inl hrun))

theorem resetCommand_free {kind limit : Nat} (h : dget s Key.resetTarget < limit) (hrun : dget s Key.resetState ≠ 1)
    (hq : s.rst.quenches = []) :
    resetCommand s kind limit =
      if resetNotIdle s then (s, 6) else (orderQuench (dset s Key.resetState 1) kind (dget s Key.resetTarget) true, 0) := by
  refine (if_neg (Nat.not_le_of_lt h)).trans (if_neg ?_)
  rw [hq]
  rintro (h1 | ⟨-, h1⟩)
  · exact hrun h1
  · cases h1

/-- `RESET_CMD` with a unit's command, whatever the unit. -/
theorem ownWrite_resetCommand {i : Instr} {v kind limit : Nat} (hi : exec i s = .next (ownWrite s Key.resetCmd v)) (hv : v < 256)
    (hw : writeResetCmd s v = resetCommand s kind limit) (hmay : mayWrite s Key.resetCmd v) :
    (limit ≤ dget s Key.resetTarget → Completes i s (writeRejected s Key.resetCmd 3)) ∧
    (dget s Key.resetTarget < limit → dget s Key.resetState = 1 → Completes i s (writeRejected s Key.resetCmd 0x0A)) ∧
    (dget s Key.resetTarget < limit → dget s Key.resetState ≠ 1 → s.rst.quenches = [] →
      (resetNotIdle s = true → Completes i s (writeRejected s Key.resetCmd 6)) ∧
      (resetNotIdle s = false → Completes i s (writtenGone
        (orderQuench (dset s Key.resetState 1) kind (dget s Key.resetTarget) true) Key.resetCmd))) := by
  have hbytes : v < 256 ^ keyBytes Key.resetCmd := hv
  have hrefuse : ∀ st, st ≠ 0 → resetCommand s kind limit = (s, st) → Completes i s (writeRejected s Key.resetCmd st) :=
    fun st hst h => completes_of hi (ownWrite_of_refused_command hmay (by decide) hbytes
      (commandWrite_resetCmd.trans (congrArg some (hw.trans h))) hst)
  refine ⟨fun h => hrefuse 3 (by decide) (resetCommand_range h), fun h hrun => hrefuse 0x0A (by decide) (resetCommand_runs h hrun),
    fun h hrun hq => ⟨fun hidle => ?_, fun hidle => ?_⟩⟩
  · exact hrefuse 6 (by decide) ((resetCommand_free h hrun hq).trans (if_pos hidle))
  · exact completes_of hi (ownWrite_of_command hmay (by decide) hbytes
      (commandWrite_resetCmd.trans (congrArg some (hw.trans ((resetCommand_free h hrun hq).trans (if_neg (ne_true_of_eq_false hidle)))))))

theorem agentReset_cooled {c : Nat} (hrun : dget s Key.resetState ≠ 1) (hoff : (getCluster s c).off = true)
    (hcap : (getCluster s c).capHold = false) (hcool : dget s (Key.clusterThermal + c) < 3) (hq : s.rst.quenches = [])
    (hqe : s.q.qeReady = true) : agentReset s c = orderQuench s 5 c false := by
  unfold agentReset
  dsimp only
  refine if_neg ?_
  rw [hoff, hcap, hq, hqe]
  rintro (h | h | h | ⟨-, h⟩ | h | h)
  · exact hrun h
  · cases h
  · cases h
  · exact absurd h (Nat.not_le_of_lt hcool)
  · cases h
  · cases h

/-! ### The message arrives -/

theorem quenchArrive_eq {m : EmberMsg} (hq : s.rst.quenches[i]? = some q) (hb : q.begun = false)
    (hm : emberArrival s (.quench q.kind q.unit) = some m) :
    quenchArrive s i =
      let s1 := setQuench (takeEmber s m) i { q with begun := true }
      let s2 := if q.kind = 3 then dieCheckpoint { s1 with rst := { s1.rst with dieFence := setBit s1.rst.dieFence q.unit true } } q.unit
                else s1
      let s3 := if q.kind = 5 then wakeForQuench s2 q.unit else s2
      kickAll (fenceUnit s3 q.kind q.unit) := by
  unfold quenchArrive
  rw [hq]
  dsimp only
  rw [hb, if_neg Bool.false_ne_true, hm]

/-- A freeze that fails changes what checkpoints, the dictionary, memory's waiting requests and the Cord's channels hold. -/
theorem freezeFail_parts {cause : FreezeCause} : ∃ dict mem ev cord ck snap,
    freezeFail s cause = { s with dict := dict, mem := mem, ev := ev, cord := cord, ck := ck, snap := snap } := by
  unfold freezeFail
  cases s.ck.fz with
  | none => exact ⟨_, _, _, _, _, _, rfl⟩
  | some fz =>
    dsimp only
    cases fz.partner with
    | none => exact ⟨_, _, _, _, _, _, rfl⟩
    | some p =>
      dsimp only
      generalize hs1 : dropStream _ 0 = s1
      obtain ⟨chans, hc⟩ := sendCtrl_chansOnly (s := s1) (peer := p) (code := 10) (gen := fz.gen) (elem := 0) (b := [])
      rw [hc, ← hs1]
      exact ⟨_, _, _, _, _, _, rfl⟩

theorem layoutExit_keeps {ck : State → CkSys} :
    let u := if restoring s then restoreExit s .layout else s
    (releaseHold { u with ck := ck u }).rst = s.rst ∧ (releaseHold { u with ck := ck u }).seqs = s.seqs ∧
      (releaseHold { u with ck := ck u }).engines = s.engines := by
  by_cases h : restoring s = true
  · rw [if_pos h]
    exact ⟨rfl, rfl, rfl⟩
  · rw [if_neg h]
    exact ⟨rfl, rfl, rfl⟩

/-- The checkpoints of a die that is reset leave resets, strands and engines alone. -/
theorem dieCheckpoint_keeps {d : Nat} :
    (dieCheckpoint s d).rst = s.rst ∧ (dieCheckpoint s d).seqs = s.seqs ∧ (dieCheckpoint s d).engines = s.engines := by
  unfold dieCheckpoint
  cases s.ck.fz with
  | none => exact layoutExit_keeps (ck := fun u => { u.ck with pages := u.ck.pages.filter _ })
  | some fz =>
    dsimp only
    by_cases hf : (!fz.stream || fz.pages.any (fun p => (p.1 / 1536 / 32 / 5 == d) && (tget none s.ck.pages p.1).isSome)) = true
    · rw [if_pos hf]
      obtain ⟨_, _, _, _, _, _, h⟩ := freezeFail_parts (s := s) (cause := .quench)
      obtain ⟨hrst, hseqs, heng⟩ := layoutExit_keeps (s := freezeFail s .quench)
        (ck := fun u => { u.ck with pages := u.ck.pages.filter fun e => !(e.1 / 1536 / 32 / 5 == d) })
      exact ⟨hrst.trans (by rw [h]), hseqs.trans (by rw [h]), heng.trans (by rw [h])⟩
    · rw [if_neg hf]
      exact layoutExit_keeps (ck := fun u => { u.ck with pages := u.ck.pages.filter _ })

/-! ### Notices -/

theorem getElem?_modAt_const {α : Type} {l : List α} {x y : α} (h : l[i]? = some x) : (modAt (fun _ => y) i l)[i]? = some y := by
  induction l generalizing i with
  | nil => cases h
  | cons z r ih =>
    cases i with
    | zero => rfl
    | succ j => exact ih h

theorem quenchNotice_spec {h : Nat} (hq : s.rst.quenches[i]? = some q) (hb : q.begun = true) (ho : q.owed.contains h = true) :
    let u := quenchNotice s i h
    (∀ r ∈ u.mem.reqs, q.owns r = true → ownerOf s (r.via s.mem) r.addr ≠ some h) ∧
      u.rst.quenches[i]? = some { q with owed := sremove h q.owed } ∧ u.mem.cells = s.mem.cells ∧
      u = { s with mem := u.mem, rst := u.rst } := by
  unfold quenchNotice
  rw [hq]
  dsimp only
  rw [hb, ho, if_neg (by decide)]
  refine ⟨fun r hr hown heq => ?_, getElem?_modAt_const hq, rfl, rfl⟩
  have hkeep := (List.mem_filter.1 hr).2
  rw [hown, heq] at hkeep
  simp at hkeep

/-! ### The acknowledgement -/

theorem emberPass_flt {src dst : Nat} {t : State} (h : emberPass s src dst = some t) : t = { s with flt := t.flt } := by
  unfold emberPass at h
  split at h
  · cases h
    rfl
  · cases h

theorem quenchAck_eq {faulty : Nat} {t : State} (hq : s.rst.quenches[i]? = some q) (hb : q.begun = true) (ha : q.acked = false)
    (hp : emberPass s (emberSource q.kind q.unit) (quenchInitiator q.kind q.unit) = some t) :
    quenchAck s i faulty = resetUnit (setQuench t i { q with acked := true }) q.kind q.unit faulty := by
  unfold quenchAck
  rw [hq]
  dsimp only
  rw [hb, ha, if_neg (by decide), hp]

theorem resetCore_spec {c : Nat} :
    (∀ e ∈ (resetCore s c).gens, e.1 / 16 ≠ c) ∧ (resetCore s c).knots = s.knots ∧ (resetCore s c).mem = s.mem := by
  unfold resetCore
  dsimp only
  generalize hs1 : List.foldl _ s (List.range 4) = s1
  refine ⟨fun _ he => by simpa using (List.mem_filter.1 he).2, ?_, ?_⟩
  · refine (congrArg State.knots hs1).symm.trans (foldl_keeps State.knots ?_ _ s)
    exact fun _ _ => rfl
  · refine (congrArg State.mem hs1).symm.trans (foldl_keeps State.mem ?_ _ s)
    exact fun _ _ => rfl

theorem resetDieUnit_spec {d : Nat} :
    (∀ e ∈ (resetDieUnit s d).knots, e.1 / 4096 ≠ d) ∧ bitOf (resetDieUnit s d).rst.tallyLost d = true :=
  ⟨fun _ he => by simpa using (List.mem_filter.1 he).2, (bitOf_setBit _ _ _ _).trans (if_pos rfl)⟩

/-! ### The release -/

/-- Lifting a fence changes sequencers, engines and, of a die, its own fence. -/
theorem unfence_parts {kind unit : Nat} : ∃ seqs engines, unfence s kind unit =
    { s with seqs := seqs, engines := engines
             rst := if kind = 3 then { s.rst with dieFence := setBit s.rst.dieFence unit false } else s.rst } := by
  unfold unfence
  dsimp only
  have hseqs : ∀ (l : List Nat) (t : State), ∃ seqs, l.foldl (fun st q => setSeq st q { getSeq st q with fenced := false }) t =
      { t with seqs := seqs } := by
    intro l
    induction l with
    | nil => exact fun t => ⟨_, rfl⟩
    | cons x r ih => exact fun t => (ih _).imp fun _ h => h
  have hcores : ∀ (l : List Nat) (t : State), ∃ engines, l.foldl (fun st c => (List.range 4).foldl (fun st1 i =>
      setEng st1 (4 * c + i) { getEng st1 (4 * c + i) with fenced := false }) st) t = { t with engines := engines } := by
    intro l
    induction l with
    | nil => exact fun t => ⟨_, rfl⟩
    | cons x r ih => exact fun t => (ih _).imp fun _ h => h
  obtain ⟨seqs, h1⟩ := hseqs (quenchSeqs kind unit) s
  rw [h1]
  obtain ⟨engines, h2⟩ := hcores (quenchCores kind unit) { s with seqs := seqs }
  rw [h2]
  refine ⟨seqs, engines, ?_⟩
  split <;> rfl

theorem quenchRelease_eq {t : State} (hk : q.kind ≠ 3) (hq : s.rst.quenches[i]? = some q) (ha : q.acked = true) (hn : noticed s q = true)
    (hp : emberPass s (quenchInitiator q.kind q.unit) (emberSource q.kind q.unit) = some t) :
    quenchRelease s i = quenchOver (unfence t q.kind q.unit) i q := by
  unfold quenchRelease
  rw [hq]
  dsimp only
  rw [ha, hn, if_neg (by simpa using hk), hp]

theorem quenchOver_parts : ∃ dict, quenchOver s i q =
    { s with dict := dict, rst := { s.rst with quenches := dropAt i s.rst.quenches } } := by
  unfold quenchOver
  dsimp only
  split
  · exact ⟨_, rfl⟩
  · exact ⟨_, rfl⟩

theorem quenchOver_done (hc : q.cmd = true) (hok : s.dictOk) : dget (quenchOver s i q) Key.resetState = 2 := by
  unfold quenchOver
  dsimp only
  rw [if_pos hc]
  exact dget_dset_same (s := { s with rst := _ }) hok

/-! ### A die comes back -/

theorem dieResetDone_eq {d : Nat} {t : State} (hk : q.kind = 3) (hu : q.unit = d) (ha : q.acked = true) (hn : noticed s q = true)
    (hqs : s.rst.quenches = [q]) (hp : emberPass s hubSource (agentSource d) = some t) :
    dieResetDone s d =
      let s1 := quenchOver (unfence t 3 d) 0 q
      kickAll { s1 with
        mem := { s1.mem with selfRefresh := (dieStacks d).foldl (fun m h => setBit m h false) s1.mem.selfRefresh }
        pw := { s1.pw with clusters := s1.pw.clusters.filter fun e => e.1 / 8 != d } } := by
  have hfound : (q.kind == 3 && q.unit == d && q.acked) = true := by
    rw [hk, hu, ha]
    simp
  unfold dieResetDone
  rw [hqs, show List.range [q].length = [0] from rfl, List.find?_cons_of_pos]
  · dsimp only [List.getElem?_cons_zero]
    rw [if_pos hn, hp]
  · exact hfound

/-- Bits cleared one after another are clear. -/
theorem bitOf_foldl_clear {l : List Nat} {m j : Nat} (h : bitOf m j = false ∨ j ∈ l) :
    bitOf (l.foldl (fun m h => setBit m h false) m) j = false := by
  induction l generalizing m with
  | nil => exact h.resolve_right (List.not_mem_nil)
  | cons x r ih =>
    refine ih ?_
    rw [bitOf_setBit]
    split
    · exact .inl rfl
    · next hx => exact h.imp id fun hm => (List.mem_cons.1 hm).resolve_left hx

/-! ### The statement -/

/-- Settles O54: the commands by `resetCommand`, the protocol by one lemma for each message. -/
theorem unitResetsComplete : Obligations.UnitResetsComplete := by
  unfold Obligations.UnitResetsComplete
  refine ⟨fun s i v kind limit hmem hmay => ?_, fun s c hrun hoff hcap hcool hq hqe => completes_of rfl
    (agentReset_cooled hrun hoff hcap hcool hq hqe), fun s i q hq => ⟨fun m hb hm => ⟨fun hk => ?_, fun hk => ?_⟩, fun hb hk hm => ?_,
    fun h hb ho => ?_, fun faulty hb ha hp => ?_, fun hk ha hn hp hok hwf => ?_, fun d hk hu ha hn hqs hp => ?_⟩⟩
  · simp only [List.mem_cons, Prod.mk.injEq, List.not_mem_nil, or_false] at hmem
    obtain ⟨rfl, rfl, rfl, rfl⟩ | ⟨rfl, rfl, rfl, rfl⟩ | ⟨rfl, rfl, rfl, rfl⟩ := hmem
    · exact ownWrite_resetCommand rfl (by decide) rfl hmay
    · exact ownWrite_resetCommand rfl (by decide) rfl hmay
    · exact ownWrite_resetCommand rfl (by decide) rfl hmay
  · refine completes_of rfl ((quenchArrive_eq hq hb hm).trans ?_)
    dsimp only
    rw [if_neg (show q.kind ≠ 3 by omega), if_neg (show q.kind ≠ 5 by omega)]
    exact congrArg (kickAll <| fenceUnit _ · q.unit) hk
  · refine ⟨wakeForQuench (setQuench (takeEmber s m) i { q with begun := true }) q.unit, ?_, rfl, fun _ hwf => ?_⟩
    · refine completes_of rfl ((quenchArrive_eq hq hb hm).trans ?_)
      dsimp only
      rw [if_neg (show q.kind ≠ 3 by omega), if_pos hk]
      exact congrArg (kickAll <| fenceUnit _ · q.unit) hk
    · have hget : getCluster (wakeForQuench (setQuench (takeEmber s m) i { q with begun := true }) q.unit) q.unit = _ :=
        (tget_tset _ _ _ _ _ hwf).trans (if_pos rfl)
      rw [hget]
      refine ⟨rfl, rfl, ?_⟩
      dsimp only
      split
      · decide
      · assumption
  · obtain ⟨m, hm⟩ := Option.ne_none_iff_exists'.1 hm
    generalize hs1 : setQuench (takeEmber s m) i { q with begun := true } = s1
    obtain ⟨hrst, hseqs, heng⟩ := dieCheckpoint_keeps (d := q.unit)
      (s := { s1 with rst := { s1.rst with dieFence := setBit s1.rst.dieFence q.unit true } })
    refine ⟨_, completes_of rfl ((quenchArrive_eq hq hb hm).trans ?_), ?_, hseqs.trans (by rw [← hs1]; rfl), heng.trans (by rw [← hs1]; rfl)⟩
    · dsimp only
      rw [if_pos hk, if_neg (show q.kind ≠ 5 by omega), ← hs1]
      exact congrArg (kickAll <| fenceUnit _ · q.unit) hk
    · rw [hrst]
      exact (bitOf_setBit _ _ _ _).trans (if_pos rfl)
  · exact ⟨quenchNotice s i h.val, rfl, quenchNotice_spec hq hb ho⟩
  · obtain ⟨t, ht⟩ := Option.ne_none_iff_exists'.1 hp
    have hflt := emberPass_flt ht
    refine ⟨_, completes_of rfl (quenchAck_eq hq hb ha ht), fun hk => ?_, fun hk => ?_⟩
    · rw [hk, hflt]
      exact resetCore_spec
    · rw [hk]
      exact resetDieUnit_spec
  · obtain ⟨t, ht⟩ := Option.ne_none_iff_exists'.1 hp
    obtain ⟨seqs, engines, hfence⟩ := unfence_parts (s := t) (kind := q.kind) (unit := q.unit)
    rw [if_neg hk, emberPass_flt ht] at hfence
    refine ⟨_, completes_of rfl ((quenchRelease_eq hk hq ha hn ht).trans rfl), ?_, fun hc => ?_, ?_, ?_⟩
    · obtain ⟨dict, h⟩ := quenchOver_parts (s := unfence t q.kind q.unit) (i := i) (q := q)
      rw [h, emberPass_flt ht, hfence]
    · refine quenchOver_done hc ?_
      rw [emberPass_flt ht, hfence]
      exact hok
    · obtain ⟨dict, h⟩ := quenchOver_parts (s := unfence t q.kind q.unit) (i := i) (q := q)
      rw [h, emberPass_flt ht, hfence]
    · obtain ⟨dict, h⟩ := quenchOver_parts (s := unfence t q.kind q.unit) (i := i) (q := q)
      rw [h, emberPass_flt ht, hfence]
  · obtain ⟨t, ht⟩ := Option.ne_none_iff_exists'.1 hp
    obtain ⟨seqs, engines, hfence⟩ := unfence_parts (s := t) (kind := 3) (unit := d.val)
    rw [if_pos rfl, emberPass_flt ht] at hfence
    refine ⟨_, completes_of rfl (congrArg pump (dieResetDone_eq hk hu ha hn hqs ht)), ?_, ?_, ?_, ?_⟩
    · obtain ⟨dict, h⟩ := quenchOver_parts (s := unfence t 3 d.val) (i := 0) (q := q)
      rw [h, emberPass_flt ht, hfence]
      exact congrArg (dropAt 0) hqs
    · obtain ⟨dict, h⟩ := quenchOver_parts (s := unfence t 3 d.val) (i := 0) (q := q)
      rw [h, emberPass_flt ht, hfence]
      exact (bitOf_setBit _ _ _ _).trans (if_pos rfl)
    · exact fun st hst => bitOf_foldl_clear (.inr hst)
    · obtain ⟨dict, h⟩ := quenchOver_parts (s := unfence t 3 d.val) (i := 0) (q := q)
      rw [h, emberPass_flt ht, hfence]

end Sys2Proof.Machine
end

