-- ==== Sys2Proof/Proofs/Startup.lean ====
section
/-!
PROOF. Start-up, stage by stage.
-/

namespace Sys2Proof.Machine

variable {s t : State}

/-! ### The start of the dictionary -/

/-- The entries that say what stage 0 has started. -/
def bootKeys : List Nat := [Key.bootResult, Key.fwFallback]

/-- What stage 0 has started, flash and the cells of memory are as in `u`, no image is on trial, and the dictionary is canonical. -/
structure BootSide (u t : State) : Prop where
  ok : t.dictOk
  shown : ∀ key ∈ bootKeys, dget t key = dget u key
  flash : t.flash = u.flash
  cells : t.mem.cells = u.mem.cells
  trial : t.sec.trial = false

theorem BootSide.dset (h : BootSide s t) {key v : Nat} (hk : key ∉ bootKeys) : BootSide s (dset t key v) :=
  ⟨dset_dictOk h.ok, fun k hm => (dget_dset_ne h.ok fun e => hk (by rw [← e]; exact hm)).trans (h.shown k hm), h.flash, h.cells, h.trial⟩

/-- What has the same dictionary, flash, cells and trial. -/
theorem BootSide.same {t' : State} (h : BootSide s t) (hd : t'.dict = t.dict) (hf : t'.flash = t.flash) (hm : t'.mem.cells = t.mem.cells)
    (ht : t'.sec.trial = t.sec.trial) : BootSide s t' := by
  refine ⟨?_, fun key hk => ?_, hf.trans h.flash, hm.trans h.cells, ht.trans h.trial⟩
  · unfold State.dictOk
    rw [hd]
    exact h.ok
  · refine Eq.trans ?_ (h.shown key hk)
    unfold dget
    rw [hd]

theorem BootSide.foldl {α : Type} {f : State → α → State} {l : List α} (hf : ∀ t, ∀ x ∈ l, BootSide s t → BootSide s (f t x))
    (h : BootSide s t) : BootSide s (l.foldl f t) := by
  induction l generalizing t with
  | nil => exact h
  | cons x r ih => exact ih (fun t y hy => hf t y (List.mem_cons_of_mem _ hy)) (hf t x (List.mem_cons_self ..) h)

theorem reloadMapout_bootSide (h : BootSide s t) : BootSide s (reloadMapout t) := by
  refine BootSide.foldl (fun u x hx hu => hu.dset ?_) h
  have hx := List.mem_range.1 hx
  simp only [bootKeys, Key.mapoutReq, Key.bootResult, Key.fwFallback, List.mem_cons, List.not_mem_nil, or_false]
  omega

theorem actAtStart_bootSide (h : BootSide s t) : BootSide s (actAtStart t) :=
  ((h.dset (by decide)).dset (by decide)).same rfl rfl rfl rfl

theorem startBar2_bootSide (h : BootSide s t) : BootSide s (startBar2 t) := h.same rfl rfl rfl rfl

/-- What a load that has its values does next. -/
theorem startValues_bootSide {base : Tab Nat} (h : BootSide s t) :
    BootSide s (startBar2 (actAtStart (reloadMapout { t with dsys := { t.dsys with base := base } }))) :=
  startBar2_bootSide (actAtStart_bootSide (reloadMapout_bootSide (h.same rfl rfl rfl rfl)))

theorem enterHold_bootSide {cause at_ : Nat} (h : BootSide s t) :
    BootSide s (enterHold t cause at_) ∧ dget (enterHold t cause at_) Key.startupStage = 2 :=
  ⟨((h.dset (by decide)).dset (by decide)).same rfl rfl rfl rfl, dget_dset_same (dset_dictOk h.ok)⟩

theorem not_stored_bootKeys {k : Nat} (h : storedKey k = true) : k ∉ bootKeys := by
  have hnone : ∀ key ∈ bootKeys, storedKey key = false := by decide
  exact fun hm => absurd (h.symm.trans (hnone k hm)) (by decide)

theorem dictLoad_bootSide (h : BootSide s t) : BootSide s (dictLoad t) ∧
    (dget (dictLoad t) Key.startupStage = 2 ∨ dget (dictLoad t) Key.startupStage = 3) := by
  unfold dictLoad
  dsimp only
  have h0 : ∀ fail, BootSide s (dset t Key.dictImageFail fail) := fun _ => h.dset (by decide)
  cases chosenCopy t.flash with
  | none => exact (enterHold_bootSide (startValues_bootSide (h0 _))).imp id .inl
  | some p =>
    obtain ⟨n, img⟩ := p
    dsimp only
    generalize hs1 : List.foldl _ _ _ = s1
    have h1 : BootSide s s1 := by
      rw [← hs1]
      refine BootSide.foldl (fun u r hr hu => hu.dset ?_) (h0 _)
      exact not_stored_bootKeys (List.mem_filter.1 hr).2
    have h2 := startValues_bootSide (base := imageValues img.recs) (((h1.dset (key := Key.dictImageGen) (v := img.gen) (by decide)).dset
      (key := Key.dictImageCopy) (v := n) (by decide)).dset (key := Key.dictImageSkipped)
      (v := img.recs.length - (img.recs.filter fun r => storedKey r.1).length) (by decide))
    split
    · exact ⟨h2.dset (by decide), .inr (dget_dset_same h2.ok)⟩
    · exact (enterHold_bootSide h2).imp id .inl

/-! ### Stage 0 -/

theorem rebuildKeys_bootSide {puf : Bool} (h : BootSide s t) : BootSide s (rebuildKeys t puf) := by
  unfold rebuildKeys
  dsimp only [drawFree]
  generalize hs2 : dset _ Key.openCount _ = s2
  have h2 : BootSide s s2 := by
    rw [← hs2]
    refine BootSide.dset ?_ (by decide)
    exact h.same rfl rfl rfl rfl
  split
  · exact h2.dset (by decide)
  · split
    · refine BootSide.dset ?_ (by decide)
      exact h2.same rfl rfl rfl rfl
    · refine BootSide.dset ?_ (by decide)
      exact h2.same rfl rfl rfl rfl

theorem bootEnd_spec {puf : Bool} (h : BootSide s t) : BootSide s (bootEnd t puf) ∧
    (dget (bootEnd t puf) Key.startupStage = 2 ∨ dget (bootEnd t puf) Key.startupStage = 3) := by
  unfold bootEnd
  refine dictLoad_bootSide (BootSide.dset (rebuildKeys_bootSide (BootSide.dset ?_ (by decide))) (by decide))
  exact h.same rfl rfl rfl h.trial.symm

theorem inStage_dget {n : Nat} (h : inStage s n = true) : dget s Key.startupStage = n := by
  unfold inStage at h
  simp only [Bool.and_eq_true, beq_iff_eq] at h
  exact h.2

theorem boot_first {b : BootFinds} {puf : Bool} (h0 : inStage s 0 = true) (hr : dget s Key.bootResult ≠ 3) (ht : s.sec.trial = false)
    (ho : s.flash.openMarker = false) :
    (b.identity = false → boot s b puf = bootRefuse (dset s Key.bootFail (b.activeStep % 6))) ∧
    (b.identity = true → b.activeStep % 6 = 0 → s.flash.fwState ≠ 3 →
      boot s b puf = bootEnd (bootImage (dset s Key.bootFail (b.activeStep % 6)) 0) puf) := by
  unfold boot
  dsimp only
  rw [if_neg (show ¬((!inStage s 0) = true ∨ dget s Key.bootResult = 3) by simp [h0, hr]), ht, if_neg Bool.false_ne_true, ho,
    if_neg Bool.false_ne_true]
  refine ⟨fun hi => by rw [hi]; rfl, fun hi ha hf => ?_⟩
  have harmed : decide ((dset s Key.bootFail (b.activeStep % 6)).flash.fwState = 3) = false := decide_eq_false hf
  rw [hi, harmed, if_neg (by decide), if_neg (show ¬(false = true ∧ _) from fun h => absurd h.1 (by decide)), if_pos ha,
    if_neg Bool.false_ne_true]

theorem bootRefuse_spec (hok : s.dictOk) (h0 : inStage s 0 = true) :
    dget (bootRefuse s) Key.bootResult = 3 ∧ (bootRefuse s).flt.alert = true ∧ dget (bootRefuse s) Key.startupStage = 0 ∧
      (bootRefuse s).mem = s.mem :=
  ⟨dget_dset_same hok, rfl, (dget_dset_ne hok (by decide)).trans (inStage_dget h0), rfl⟩

/-! ### Dies and memory -/

theorem diesStage_eq {failed : Nat} (h : inStage s 3 = true) (hf : dget s Key.startupFault = 0) (hlt : failed < 16) :
    diesStage s failed = if failed = 0 then dset s Key.startupStage 4 else dset s Key.startupFault failed := by
  unfold diesStage
  rw [if_neg (by simp [h, hf]), Nat.mod_eq_of_lt hlt]

/-- A table filled by its indices. -/
theorem tget_foldl_tset {f : Nat → Nat} {n j : Nat} :
    twf 0 ((List.range n).foldl (fun t h => tset 0 t h (f h)) []) = true ∧
      (j < n → tget 0 ((List.range n).foldl (fun t h => tset 0 t h (f h)) []) j = f j) := by
  induction n with
  | zero => exact ⟨rfl, fun h => absurd h (Nat.not_lt_zero j)⟩
  | succ n ih =>
    obtain ⟨hwf, hval⟩ := ih
    rw [List.range_succ, List.foldl_append]
    refine ⟨tset_wf _ _ _ _ hwf, fun hj => (tget_tset _ _ _ _ _ hwf).trans ?_⟩
    split
    · next h => rw [h]
    · next h => exact hval (by omega)

/-- The live channels of every stack after stage 4's training. -/
def trainedLive (s : State) (fails : List Nat) : Tab Nat :=
  (List.range 20).foldl (fun t h => tset 0 t h (liveAfter s h (fails.getD h 0))) []

theorem trainedLive_get {fails : List Nat} {h : Nat} (hh : h < 20) : tget 0 (trainedLive s fails) h = liveAfter s h (fails.getD h 0) :=
  (tget_foldl_tset (f := fun h => liveAfter s h (fails.getD h 0)) (n := 20) (j := h)).2 hh

/-- Memory after stage 4's training: the live channels, and nothing held. -/
def trained (s : State) (fails : List Nat) : State :=
  { s with mem := { s.mem with
    live := trainedLive s fails, fenced := [], cells := [], cache := [], poison := [], poisonSeen := [] } }

theorem memoryStage_eq {fails : List Nat} (h : inStage s 4 = true) :
    memoryStage s fails = if reservationsFit (trained s fails).mem then
        dset { trained s fails with q := { s.q with memReady := true } } Key.startupStage 5
      else enterHold (trained s fails) 2 4 := by
  unfold memoryStage
  rw [h, if_neg (by decide)]
  dsimp only
  change (if (!reservationsFit (trained s fails).mem) = true then enterHold (trained s fails) 2 4 else _) = _
  cases reservationsFit (trained s fails).mem
  · rfl
  · rfl

theorem trained_live {fails : List Nat} : (trained s fails).mem.live = trainedLive s fails := by
  simp only [trained]

/-- What stage 4 leaves for either outcome of the check of the reservations. -/
def memoryLeft (s u : State) (fails : List Nat) : Prop :=
  u.mem.cells = [] ∧ u.mem.cache = [] ∧ u.mem.fenced = [] ∧ (∀ h, h < 20 → tget 0 u.mem.live h = liveAfter s h (fails.getD h 0)) ∧
    (reservationsFit u.mem = true → u.q.memReady = true ∧ dget u Key.startupStage = 5) ∧
    (reservationsFit u.mem = false → u.q.memReady = s.q.memReady ∧ dget u Key.startupStage = 2 ∧ dget u Key.holdCause = 2)

theorem memoryLeft_of {u : State} {fails : List Nat} (hm : u.mem = (trained s fails).mem)
    (hfit : reservationsFit (trained s fails).mem = true → u.q.memReady = true ∧ dget u Key.startupStage = 5)
    (hnot : reservationsFit (trained s fails).mem = false →
      u.q.memReady = s.q.memReady ∧ dget u Key.startupStage = 2 ∧ dget u Key.holdCause = 2) : memoryLeft s u fails := by
  unfold memoryLeft
  rw [hm]
  refine ⟨rfl, rfl, rfl, fun h hh => ?_, hfit, hnot⟩
  rw [trained_live]
  exact trainedLive_get hh

theorem memoryStage_spec {fails : List Nat} (h : inStage s 4 = true) (hok : s.dictOk) : memoryLeft s (memoryStage s fails) fails := by
  rw [memoryStage_eq h]
  have hok1 : (trained s fails).dictOk := hok
  cases hfit : reservationsFit (trained s fails).mem with
  | true =>
    refine memoryLeft_of rfl (fun _ => ⟨rfl, ?_⟩) fun hno => absurd (hfit.symm.trans hno) (by decide)
    exact dget_dset_same (s := { trained s fails with q := _ }) hok1
  | false =>
    refine memoryLeft_of rfl (fun hyes => absurd (hfit.symm.trans hyes) (by decide)) fun _ => ⟨rfl, ?_, ?_⟩
    · exact dget_dset_same (dset_dictOk hok1)
    · exact (dget_dset_ne (dset_dictOk hok1) (by decide)).trans (dget_dset_same hok1)

/-! ### Compute -/

theorem startLevels_knots : (startLevels s).knots = s.knots := by
  unfold startLevels setLevels
  refine foldl_keeps State.knots ?_ _ _
  intro st d
  unfold setLevel
  split <;> rfl

/-- An engine whose proof test fails at stage 5. -/
def startFailed (st : State) (e : Nat) : State :=
  if (getEng st e).retired then st
  else
    let (a, st1) := drawFree st
    retireEngine (proofFailed st1 { mech := .proofFail, utype := 0, unit := e, locA := a % 2 ^ 24 }) e

theorem startFailed_engineSide {v : State} {e : Nat} (h : EngineSide v s) : EngineSide v (startFailed s e) := by
  unfold startFailed
  split
  · exact h
  · exact retireEngine_engineSide (proofFailed_engineSide h)

theorem startFailed_kept {v : View} {e : Nat} (h : Kept v s) : Kept v (startFailed s e) := by
  unfold startFailed
  split
  · exact h
  · exact retireEngine_kept (proofFailed_kept h)

/-- The engines' and cores' tests of stage 5. -/
def startTests (s : State) (bad : List Nat) (cores : List (Nat × CoreProof)) : State :=
  (bad.map (· % 1024)).foldl startFailed (cores.foldl (fun st c => coreProof st (c.1 % 256) c.2)
    (startLevels { s with knots := [], knotsLost := [], tlines := [], tin := [], tout := [] }))

theorem startTests_spec {bad : List Nat} {cores : List (Nat × CoreProof)} (hok : s.dictOk) :
    (startTests s bad cores).knots = [] ∧ (startTests s bad cores).dictOk := by
  unfold startTests
  generalize hs1 : startLevels _ = s1
  constructor
  · refine (EngineSide.knots (s := s1) (EngineSide.foldl (fun _ _ h => startFailed_engineSide h)
      (EngineSide.foldl (fun _ _ h => coreProof_engineSide h) (.refl s1)))).trans ?_
    rw [← hs1]
    exact startLevels_knots
  · refine dictOk_of_kept (s := { s with knots := [], knotsLost := [], tlines := [], tin := [], tout := [] }) ?_ hok
    refine Kept.foldl (fun _ _ h => startFailed_kept h) (Kept.foldl (fun _ c h => coreProof_kept h) ?_)
    rw [← hs1]
    exact startLevels_kept (Kept.view _)

theorem computeStage_eq {bad : List Nat} {cores : List (Nat × CoreProof)} (h : inStage s 5 = true) :
    computeStage s bad cores =
      let s3 := startTests s bad cores
      let s4 := dset { s3 with q := { s3.q with qeReady := true } } Key.startupStage 6
      cordStart (if dget s4 Key.resetState = 1 then dset s4 Key.resetState 2 else s4) := by
  unfold computeStage
  rw [h, if_neg (by decide)]
  rfl

/-! ### The Cord -/

theorem nextSession_ne {old draw : Nat} : nextSession old draw ≠ 0 ∧ nextSession old draw ≠ old := by
  unfold nextSession
  dsimp only
  have hlt := Nat.mod_lt draw (show 0 < 0xFFFF by decide)
  generalize draw % 0xFFFF = x at hlt
  split <;> omega

/-- Pairing changes the entries of its own state, and what waits to be sent. -/
theorem startPairing_keeps (hok : s.dictOk) :
    (startPairing s).flash = s.flash ∧ (startPairing s).cord.started = s.cord.started ∧
      ∀ key, key ≠ Key.pairState → key ≠ Key.pairCorrelated → dget (startPairing s) key = dget s key := by
  unfold startPairing
  dsimp only
  split
  · refine ⟨rfl, rfl, fun key h1 h2 => ?_⟩
    exact (dget_dset_ne (s := { dset s Key.pairState 0 with ck := _ }) (dset_dictOk hok) h2).trans (dget_dset_ne hok h1)
  · generalize leBytes 4 _ ++ _ ++ _ ++ _ = b
    obtain ⟨chans, hc⟩ := sendCtrl_chansOnly (s := dset s Key.pairState 1) (peer := dget s Key.partnerHolder) (code := 1) (gen := 0)
      (elem := 0) (b := b)
    rw [hc]
    exact ⟨rfl, rfl, fun key h1 _ => dget_dset_ne hok h1⟩

/-- The states of the ports when they start to train. -/
theorem startPorts_keeps (l : List Nat) (hl : ∀ p ∈ l, p < 8) (hok : s.dictOk) : ∃ dict,
    l.foldl (fun st p => dset st (Key.cordPortState + p) (if bitOf (dget st Key.cordPortEnable) p then 1 else 3)) s = { s with dict := dict } ∧
      State.dictOk { s with dict := dict } ∧
      ∀ key, (∀ p < 8, key ≠ Key.cordPortState + p) → dget { s with dict := dict } key = dget s key := by
  induction l generalizing s with
  | nil => exact ⟨s.dict, rfl, hok, fun _ _ => rfl⟩
  | cons p r ih =>
    have hok1 : (dset s (Key.cordPortState + p) (if bitOf (dget s Key.cordPortEnable) p then 1 else 3)).dictOk := dset_dictOk hok
    obtain ⟨dict, heq, hd, hkeep⟩ := ih (fun x hx => hl x (List.mem_cons_of_mem _ hx)) hok1
    exact ⟨dict, heq, hd, fun key hk => (hkeep key hk).trans (dget_dset_ne hok (hk p (hl p (List.mem_cons_self ..))))⟩

theorem cordStart_spec (he : dget s Key.entropyFail ≠ 1) (hok : s.dictOk) :
    (cordStart s).cord.started = true ∧ dget (cordStart s) Key.cordSession ≠ 0 ∧
      dget (cordStart s) Key.cordSession ≠ s.flash.lastSession ∧ (cordStart s).flash.lastSession = dget (cordStart s) Key.cordSession ∧
      (dget s Key.startupStage = 6 → dget (cordStart s) Key.startupStage = 7) := by
  unfold cordStart
  rw [if_neg he]
  dsimp only [drawRandom, drawFree]
  generalize hn : nextSession s.flash.lastSession _ = n
  obtain ⟨hn0, hnold⟩ : n ≠ 0 ∧ n ≠ s.flash.lastSession := by rw [← hn]; exact nextSession_ne
  generalize hs2 : State.mk _ _ _ _ _ _ _ _ _ _ _ _ _ _ _ _ _ _ _ _ _ _ _ _ _ _ _ _ _ _ _ _ _ _ _ _ _ = s2
  obtain ⟨hdict, hflash, hstarted⟩ : s2.dict = s.dict ∧ s2.flash.lastSession = n ∧ s2.cord.started = true := by
    rw [← hs2]
    exact ⟨rfl, rfl, rfl⟩
  have hok2 : s2.dictOk := by
    unfold State.dictOk
    rw [hdict]
    exact hok
  obtain ⟨dict, heq, hok3, hkeep⟩ := startPorts_keeps (s := dset s2 Key.cordSession n) (List.range 8) (fun p => List.mem_range.1)
    (dset_dictOk hok2)
  rw [heq]
  generalize hs3 : ({ dset s2 Key.cordSession n with dict := dict } : State) = s3 at hok3 hkeep
  have hsession : dget s3 Key.cordSession = n := (hkeep _ (by simp only [Key.cordSession, Key.cordPortState, ne_eq]; omega)).trans (dget_dset_same hok2)
  have hstage : dget s3 Key.startupStage = dget s Key.startupStage :=
    (hkeep _ (by simp only [Key.startupStage, Key.cordPortState, ne_eq]; omega)).trans
      ((dget_dset_ne hok2 (by decide)).trans (congrArg (tget _ · _) hdict))
  generalize hs4 : (if dget s3 Key.startupStage = 6 then dset s3 Key.startupStage 7 else s3) = s4
  obtain ⟨hok4, hsession4, hstage4, hflash4, hstarted4⟩ : s4.dictOk ∧ dget s4 Key.cordSession = n ∧
      (dget s Key.startupStage = 6 → dget s4 Key.startupStage = 7) ∧ s4.flash = s3.flash ∧ s4.cord = s3.cord := by
    rw [← hs4]
    split
    · exact ⟨dset_dictOk hok3, (dget_dset_ne hok3 (by decide)).trans hsession, fun _ => dget_dset_same hok3, rfl, rfl⟩
    · next h => exact ⟨hok3, hsession, fun h6 => absurd (hstage.trans h6) h, rfl, rfl⟩
  obtain ⟨hpf, hps, hpk⟩ := startPairing_keeps hok4
  have hsession5 := (hpk Key.cordSession (by decide) (by decide)).trans hsession4
  rw [hsession5]
  refine ⟨hps.trans ?_, hn0, hnold, ?_, fun h6 => (hpk _ (by decide) (by decide)).trans (hstage4 h6)⟩
  · rw [hstarted4, ← hs3]
    exact hstarted
  · rw [hpf, hflash4, ← hs3]
    exact hflash

/-! ### The statement -/

/-- Settles O55: each stage by its own lemma. -/
theorem startupStagesComplete : Obligations.StartupStagesComplete := by
  unfold Obligations.StartupStagesComplete
  refine ⟨fun s b puf h0 hr ht ho hok => ⟨fun hi => ?_, fun hi ha hf => ?_⟩, fun s failed h3 hf => ⟨fun h => ?_, fun h => ?_⟩,
    fun s fails h4 hok => ⟨memoryStage s (fails.map (·.toNat)), ?_, ?_⟩, fun s bad cores h5 hok => ?_,
    fun s he hok => cordStart_spec he hok⟩
  · have hstage : inStage (dset s Key.bootFail (b.activeStep % 6)) 0 = true := by
      unfold inStage at h0 ⊢
      rw [dget_dset_ne hok (by decide)]
      exact h0
    exact ⟨_, completes_of rfl ((boot_first h0 hr ht ho).1 hi), bootRefuse_spec (dset_dictOk hok) hstage⟩
  · generalize hs1 : dset (dset s Key.bootFail (b.activeStep % 6)) Key.bootResult 0 = s1
    have hside : BootSide s1 s1 := ⟨by rw [← hs1]; exact dset_dictOk (dset_dictOk hok), fun _ _ => rfl, rfl, rfl, by rw [← hs1]; exact ht⟩
    obtain ⟨hend, hstage⟩ := bootEnd_spec (puf := puf) hside
    refine ⟨bootEnd s1 puf, completes_of rfl (((boot_first h0 hr ht ho).2 hi ha hf).trans ?_), (hend.shown Key.bootResult (by decide)).trans ?_, hstage,
      hend.flash.trans ?_, hend.cells.trans ?_⟩ <;> rw [← hs1]
    · rfl
    · exact dget_dset_same (dset_dictOk hok)
    · rfl
    · rfl
  · exact completes_of rfl ((diesStage_eq h3 hf failed.isLt).trans (if_pos (congrArg BitVec.toNat h)))
  · exact completes_of rfl ((diesStage_eq h3 hf failed.isLt).trans (if_neg fun h0 => h (BitVec.eq_of_toNat_eq h0)))
  · rfl
  · have hleft := memoryStage_spec (fails := fails.map (·.toNat)) h4 hok
    unfold memoryLeft at hleft
    exact hleft
  · obtain ⟨hknots, hok3⟩ := startTests_spec (bad := bad.map (·.val)) (cores := cores.map fun p => (p.1.val, p.2)) hok
    refine ⟨_, completes_of rfl (computeStage_eq h5), ?_⟩
    generalize startTests s (bad.map (·.val)) (cores.map fun p => (p.1.val, p.2)) = s3 at hknots hok3
    generalize hs4 : dset { s3 with q := { s3.q with qeReady := true } } Key.startupStage 6 = s4
    have hok4 : s4.dictOk := by rw [← hs4]; exact dset_dictOk (s := { s3 with q := _ }) hok3
    have hstage : dget s4 Key.startupStage = 6 := by rw [← hs4]; exact dget_dset_same (s := { s3 with q := _ }) hok3
    obtain ⟨hready, hk⟩ : s4.q.qeReady = true ∧ s4.knots = [] := by rw [← hs4]; exact ⟨rfl, hknots⟩
    split
    · exact ⟨hready, hk, (dget_dset_ne hok4 (by decide)).trans hstage⟩
    · exact ⟨hready, hk, hstage⟩

end Sys2Proof.Machine
end

