-- ==== Sys2Proof/Proofs/Images.lean ====
section
/-!
PROOF. Staging a hub image, and its fallback.
-/

namespace Sys2Proof.Machine

variable {s t : State}

/-! ### Writes of the commands -/

theorem fwCommand_done {i : Instr} {v : Nat} (hi : exec i s = .next (ownWrite s Key.fwStageCmd v)) (hv : v < 256)
    (hmay : mayWrite s Key.fwStageCmd v) (hw : writeFwCmd s v = (t, 0)) : Completes i s (writtenGone t Key.fwStageCmd) :=
  completes_of hi (ownWrite_of_command hmay (by decide) hv (commandWrite_fwStageCmd.trans (congrArg some hw)))

theorem fwCommand_refused {i : Instr} {v st : Nat} (hi : exec i s = .next (ownWrite s Key.fwStageCmd v)) (hv : v < 256)
    (hmay : mayWrite s Key.fwStageCmd v) (hw : writeFwCmd s v = (t, st)) (hst : st ≠ 0) :
    Completes i s (writeRejected s Key.fwStageCmd st) :=
  completes_of hi (ownWrite_of_refused_command hmay (by decide) hv (commandWrite_fwStageCmd.trans (congrArg some hw)) hst)

/-! ### The commands -/

theorem fwBegin_empties (hv : verifying s = false) (hst : s.flash.fwState ∈ [0, 2, 4, 5]) :
    fwBegin s = (setFwState (dset { s with flash := { s.flash with staged := {} } } Key.fwStageOffset 0) 1, 0) :=
  (if_neg (ne_true_of_eq_false hv)).trans (if_pos (List.contains_iff_mem.2 hst))

theorem fwBegin_loading (hv : verifying s = false) (hst : s.flash.fwState = 1) : fwBegin s = (s, 3) :=
  (if_neg (ne_true_of_eq_false hv)).trans (if_neg (by rw [hst]; decide))

theorem fwVerify_loading (hv : verifying s = false) (hst : s.flash.fwState = 1) :
    fwVerify s = ({ s with sec := { s.sec with work := s.sec.work ++ [.verify] } }, 0) :=
  (if_neg (ne_true_of_eq_false hv)).trans (if_pos hst)

theorem fwArm_not_valid (hv : verifying s = false) (hst : s.flash.fwState ≠ 2) : fwArm s = (s, 3) :=
  (if_neg (ne_true_of_eq_false hv)).trans (if_pos hst)

theorem fwArm_valid (hv : verifying s = false) (hst : s.flash.fwState = 2) (hr : resetUnderWay s = false) :
    fwArm s = (setFwState s 3, 0) :=
  (if_neg (ne_true_of_eq_false hv)).trans ((if_neg (not_not_intro hst)).trans (if_neg (ne_true_of_eq_false hr)))

theorem fwCancel_empties (hv : verifying s = false) (hst : s.flash.fwState ∈ [1, 2, 3]) :
    fwCancel s = (setFwState { s with flash := { s.flash with staged := {} } } 0, 0) :=
  (if_neg (ne_true_of_eq_false hv)).trans (if_pos (List.contains_iff_mem.2 hst))

/-! ### Data -/

theorem fwData_stores {b : List Byte} {o : Nat} (hlen : b.length = 1024) (hst : s.flash.fwState = 1) (ho : o = dget s Key.fwStageOffset)
    (hlt : o < 16 * 2 ^ 20) : fwData s b =
      (dset { s with flash := { s.flash with staged := { s.flash.staged with data := tset [] s.flash.staged.data (o / 1024) b } } }
        Key.fwStageOffset (o + 1024), 0) := by
  subst ho
  refine (if_neg (not_not_intro hlen)).trans (if_neg ?_)
  rintro (h | h)
  · exact h hst
  · exact absurd hlt (Nat.not_lt_of_le h)

theorem ownBlob_fwStageData {b : List Byte} (hserved : dictServed s = true)
    (hstatus : writeStatus s .mirror Key.fwStageData ETy.blob.code b = 0) (hw : fwData s b = (t, 0)) :
    ownBlob s Key.fwStageData b = t := by
  have heffect : writeEffect s Key.fwStageData b {} = (t, 0) := by
    unfold writeEffect
    exact (if_pos rfl).trans hw
  unfold ownBlob
  rw [hserved, if_neg (by decide), reportedWrite_of_entry (entryWrite_effect hstatus (by decide) heffect
    (.inr (breaksRule_of_unbound (by decide))))]

/-! ### Verification -/

theorem failedStep_zero {f : FwImage} {rsa slh : Bool} (h : f.failedStep rsa slh = 0) : rsa = true ∧ slh = true := by
  unfold FwImage.failedStep at h
  dsimp only at h
  split at h
  · cases h
  split at h
  · cases h
  split at h
  · cases h
  split at h
  · cases h
  next hrsa =>
  split at h
  · cases h
  next hslh =>
  exact ⟨by simpa using hrsa, by simpa using hslh⟩

theorem verifyDone_eq {rsa slh : Bool} {r : List SecWork} (hw : s.sec.work = .verify :: r) (hst : s.flash.fwState = 1) :
    verifyDone s rsa slh =
      let s1 := { s with sec := { s.sec with work := r } }
      if s.flash.staged.failedStep rsa slh = 0 then setFwState { s1 with flash := { s.flash with staged := s.flash.staged.named } } 2
      else setFwState s1 4 := by
  unfold verifyDone
  rw [hw]
  exact if_neg (not_not_intro hst)

/-! ### The fallback -/

/-- The state in which the earlier image is the active one again. -/
def fellBack (s : State) : State :=
  dset (dset (setFwState (swapImages { s with sec := { s.sec with trial := false } }) 4) Key.fwActivated 0) Key.fwFallback 1

theorem watchdogFallback_eq {puf : Bool} (ht : s.sec.trial = true) (h0 : inStage s 0 = true) :
    watchdogFallback s puf = if s.sec.earlierOk then bootEnd (bootImage (fellBack s) 2) puf else bootRefuse (fellBack s) := by
  unfold watchdogFallback
  rw [if_neg (by simp [ht, h0])]
  rfl

theorem fellBack_spec (hok : s.dictOk) :
    (fellBack s).dictOk ∧ (fellBack s).sec.trial = false ∧ (fellBack s).flash.fwState = 4 ∧
      (fellBack s).flash.active = some s.flash.staged ∧ dget (fellBack s) Key.fwFallback = 1 := by
  unfold fellBack setFwState
  have hok1 : (dset (dset { swapImages { s with sec := { s.sec with trial := false } } with
      flash := { (swapImages { s with sec := { s.sec with trial := false } }).flash with fwState := 4 } } Key.fwStageState 4)
      Key.fwActivated 0).dictOk := dset_dictOk (dset_dictOk (s := { swapImages _ with flash := _ }) hok)
  exact ⟨dset_dictOk hok1, rfl, rfl, rfl, dget_dset_same hok1⟩

/-- Settles O56: the commands by their states, the fallback by `bootEnd_spec`. -/
theorem imageStagingComplete : Obligations.ImageStagingComplete := by
  unfold Obligations.ImageStagingComplete
  refine ⟨fun s hok hmay hv => ⟨fun hst => ?_, fun hst => ⟨?_, ?_⟩, fun hst hr => ?_, fun hst => ?_, fun hst => ?_⟩,
    fun s b o hserved hstatus hok hlen hst ho hlt => ?_, fun s rsa slh r hw hst => ?_, fun s puf ht h0 hok => ?_⟩
  · have hok1 : (dset { s with flash := { s.flash with staged := {} } } Key.fwStageOffset 0).dictOk :=
      dset_dictOk (s := { s with flash := _ }) hok
    refine ⟨_, fwCommand_done rfl (by decide) (hmay 1 (by decide) (by decide)) (fwBegin_empties hv hst), rfl, rfl, ?_, ?_, rfl, rfl⟩
    · exact dget_dset_same (s := { dset { s with flash := _ } Key.fwStageOffset 0 with flash := _ }) hok1
    · exact (dget_dset_ne (s := { dset { s with flash := _ } Key.fwStageOffset 0 with flash := _ }) hok1 (by decide)).trans
        (dget_dset_same (s := { s with flash := _ }) hok)
  · exact fwCommand_refused rfl (by decide) (hmay 1 (by decide) (by decide)) (fwBegin_loading hv hst) (by decide)
  · exact fwCommand_done rfl (by decide) (hmay 2 (by decide) (by decide)) (fwVerify_loading hv hst)
  · exact fwCommand_done rfl (by decide) (hmay 3 (by decide) (by decide)) (fwArm_valid hv hst hr)
  · exact fwCommand_refused rfl (by decide) (hmay 3 (by decide) (by decide)) (fwArm_not_valid hv hst) (by decide)
  · exact fwCommand_done rfl (by decide) (hmay 4 (by decide) (by decide)) (fwCancel_empties hv hst)
  · refine ⟨_, completes_of rfl (ownBlob_fwStageData hserved hstatus (fwData_stores hlen hst ho hlt)), ?_, ?_, hst, rfl⟩
    · have hb : b ≠ [] := fun h => by rw [h] at hlen; cases hlen
      exact (tget_tset_new hb).trans (if_pos rfl)
    · exact dget_dset_same (s := { s with flash := _ }) hok
  · refine ⟨_, completes_of rfl (verifyDone_eq hw hst), ?_⟩
    dsimp only
    split
    · next h =>
      obtain ⟨hrsa, hslh⟩ := failedStep_zero h
      refine ⟨rfl, rfl, fun hbad => ?_, rfl⟩
      rw [hrsa, hslh] at hbad
      simp at hbad
    · exact ⟨rfl, rfl, fun _ => rfl, rfl⟩
  · obtain ⟨hok1, htrial, hfw, hactive, hfall⟩ := fellBack_spec hok
    refine ⟨_, completes_of rfl (watchdogFallback_eq ht h0), ?_⟩
    generalize fellBack s = s1 at hok1 htrial hfw hactive hfall
    by_cases he : s.sec.earlierOk = true
    · rw [if_pos he]
      have hside : BootSide (bootImage s1 2) (bootImage s1 2) := ⟨dset_dictOk hok1, fun _ _ => rfl, rfl, rfl, htrial⟩
      obtain ⟨hend, -⟩ := bootEnd_spec (puf := puf) hside
      refine ⟨hend.trial, (congrArg FlashSys.fwState hend.flash).trans hfw, (congrArg FlashSys.active hend.flash).trans hactive, ?_,
        fun _ => ?_, fun hno => absurd (he.symm.trans hno) (by decide)⟩
      · exact (hend.shown _ (by decide)).trans ((dget_dset_ne hok1 (by decide)).trans hfall)
      · exact (hend.shown _ (by decide)).trans (dget_dset_same hok1)
    · rw [if_neg he]
      exact ⟨htrial, hfw, hactive, (dget_dset_ne hok1 (by decide)).trans hfall, fun hyes => absurd hyes he,
        fun _ => dget_dset_same hok1⟩

end Sys2Proof.Machine
end

