-- ==== Sys2Proof/Proofs/Enrolment.lean ====
section
/-!
PROOF. Device keys, enrolment, the entropy source and the service port.
-/

namespace Sys2Proof.Machine

variable {s t : State}

/-! ### Writes of the commands -/

theorem enrolCommand_done {i : Instr} {v : Nat} (hi : exec i s = .next (ownWrite s Key.enrolCmd v)) (hv : v < 256)
    (hmay : mayWrite s Key.enrolCmd v) (hw : writeEnrolCmd s v = (t, 0)) : Completes i s (writtenGone t Key.enrolCmd) :=
  completes_of hi (ownWrite_of_command hmay (by decide) hv (commandWrite_enrolCmd.trans (congrArg some hw)))

theorem enrolCommand_refused {i : Instr} {v st : Nat} (hi : exec i s = .next (ownWrite s Key.enrolCmd v)) (hv : v < 256)
    (hmay : mayWrite s Key.enrolCmd v) (hw : writeEnrolCmd s v = (t, st)) (hst : st ≠ 0) :
    Completes i s (writeRejected s Key.enrolCmd st) :=
  completes_of hi (ownWrite_of_refused_command hmay (by decide) hv (commandWrite_enrolCmd.trans (congrArg some hw)) hst)

/-- A write from the field network is refused where that path may not write. -/
theorem writeStatus_field_denied {key type : Nat} {b : List Byte} (h : dget s Key.fieldAccess = 1) :
    writeStatus s .field key type b = 9 :=
  if_pos ⟨rfl, .inl h⟩

/-- Where the field network may write, its write meets the conditions of any other path. -/
theorem writeStatus_field_open {key type : Nat} {b : List Byte} (h : dget s Key.fieldAccess ≠ 1) (hk : key ≠ Key.serviceOpenPermit) :
    writeStatus s .field key type b = writeStatus s .mirror key type b := by
  unfold writeStatus
  rw [if_neg (show ¬(DictPath.field = .field ∧ (dget s Key.fieldAccess = 1 ∨ key = Key.serviceOpenPermit)) from
    fun hc => hc.2.elim h hk), if_neg (show ¬(DictPath.mirror = .field ∧ _) from fun hc => absurd hc.1 (by decide))]

theorem ownWrite_field_open {key v : Nat} (h : dget s Key.fieldAccess ≠ 1) (hk : key ≠ Key.serviceOpenPermit) :
    ownWrite s key v {} .field = ownWrite s key v {} .mirror := by
  unfold ownWrite reportedWrite entryWrite
  dsimp only
  rw [writeStatus_field_open h hk]

theorem ownWrite_field_denied {key v : Nat} (hserved : dictServed s = true) (h : dget s Key.fieldAccess = 1) :
    ownWrite s key v {} .field = writeRejected s key 9 := by
  have hentry : ∀ ty b, entryWrite s .field key ty b {} = (s, 9) := fun ty b => by
    unfold entryWrite
    rw [writeStatus_field_denied h]
    rfl
  unfold ownWrite
  rw [hserved, if_neg (by decide)]
  exact congrArg Prod.fst (reportedWrite_of_refused (hentry _ _) (by decide))

/-! ### Keys -/

theorem tget_key {ks : Tab Nat} {k j v : Nat} : tget 0 (tset 0 ks k (1 + v)) j = if j = k then 1 + v else tget 0 ks j :=
  tget_tset_new (by omega)

theorem formKeys_spec : tget 0 (formKeys s).sec.ks 1 ≠ 0 ∧ tget 0 (formKeys s).sec.ks 2 ≠ 0 ∧ tget 0 (formKeys s).sec.ks 3 ≠ 0 := by
  unfold formKeys
  simp [drawFree, tget_key]

theorem enrolGenerate_eq (hb : s.sec.enrolBusy = false) : enrolGenerate s =
    if [0, 3, 4].contains (dget s Key.attState) then
      (dset { s with sec := { s.sec with enrolBusy := true } } Key.enrolResult 1, 0) else (s, 3) :=
  if_neg (ne_true_of_eq_false hb)

/-- What a generation leaves. -/
def newlyEnrolling (s u : State) : Prop :=
  dget u Key.attState = 1 ∧ dget u Key.enrolResult = 0 ∧ u.flash.helper = true ∧ u.flash.enrolled = false ∧ u.sec.enrolBusy = false ∧
    tget 0 u.sec.ks 1 ≠ 0 ∧ tget 0 u.sec.ks 2 ≠ 0 ∧ tget 0 u.sec.ks 3 ≠ 0 ∧ u.mem = s.mem

theorem enrolGenerated_spec (hok : s.dictOk) (hb : s.sec.enrolBusy = true) (he : dget s Key.entropyFail ≠ 1) :
    newlyEnrolling s (enrolGenerated s) := by
  unfold enrolGenerated newlyEnrolling
  rw [if_neg (by simp [hb, he])]
  dsimp only [drawRandom, drawFree]
  generalize hs3 : State.mk _ _ _ _ _ _ _ _ _ _ _ _ _ _ _ _ _ _ _ _ _ _ _ _ _ _ _ _ _ _ _ _ _ _ _ _ _ = s3
  have hok3 : s3.dictOk := by rw [← hs3]; exact hok
  refine ⟨(dget_dset_ne (dset_dictOk hok3) (by decide)).trans (dget_dset_same hok3), dget_dset_same (dset_dictOk hok3), ?_⟩
  obtain ⟨h1, h2, h3⟩ := formKeys_spec (s := s)
  rw [← hs3]
  exact ⟨rfl, rfl, rfl, h1, h2, h3, rfl⟩

/-! ### Chains -/

theorem enrolInstall_idle (hb : s.sec.enrolBusy = false) (ha : dget s Key.attState ≠ 1) : enrolInstall s = (s, 3) :=
  (if_neg (ne_true_of_eq_false hb)).trans (if_pos ha)

theorem enrolCancel_idle (hb : s.sec.enrolBusy = false) (ha : dget s Key.attState ≠ 1) : enrolCancel s = (s, 3) :=
  (if_neg (ne_true_of_eq_false hb)).trans (if_pos ha)

/-- What an installation leaves: both chains taken, or the result that says they are not valid. -/
theorem enrolInstall_enrolling (hok : s.dictOk) (hb : s.sec.enrolBusy = false) (ha : dget s Key.attState = 1) :
    ∃ u, enrolInstall s = (u, 0) ∧ u.sec.ks = s.sec.ks ∧
      if chainValid s false = true ∧ chainValid s true = true then
        dget u Key.attState = 2 ∧ dget u Key.enrolResult = 0 ∧ u.flash.enrolled = true ∧ u.flash.chains = s.sec.chainBuf
      else dget u Key.attState = 1 ∧ dget u Key.enrolResult = 2 ∧ u.flash = s.flash := by
  unfold enrolInstall
  rw [if_neg (ne_true_of_eq_false hb), if_neg (not_not_intro ha)]
  by_cases hv : chainValid s false = true ∧ chainValid s true = true
  · rw [if_pos (by simpa using hv)]
    simp only [if_pos hv]
    have hok1 : (dset { s with flash := { s.flash with enrolled := true, chains := s.sec.chainBuf }, sec := { s.sec with chainBuf := [] } }
      Key.enrolResult 0).dictOk := dset_dictOk (s := { s with flash := _, sec := _ }) hok
    exact ⟨_, rfl, rfl, dget_dset_same hok1, (dget_dset_ne hok1 (by decide)).trans (dget_dset_same (s := { s with flash := _, sec := _ }) hok),
      rfl, rfl⟩
  · rw [if_neg (by simpa using hv)]
    simp only [if_neg hv]
    exact ⟨_, rfl, rfl, (dget_dset_ne hok (by decide)).trans ha, dget_dset_same hok, rfl⟩

theorem enrolDrop_spec (hok : s.dictOk) :
    (enrolDrop s).dictOk ∧ dget (enrolDrop s) Key.attState = attBare s ∧ (enrolDrop s).flash.helper = false ∧
      (enrolDrop s).flash.openMarker = s.flash.openMarker ∧ (enrolDrop s).flash.openCount = s.flash.openCount ∧
      (enrolDrop s).sec.work = s.sec.work ∧ (enrolDrop s).mem = s.mem ∧ ∀ e ∈ (enrolDrop s).sec.ks, e.1 = 4 := by
  unfold enrolDrop
  dsimp only
  refine ⟨dset_dictOk (s := zeroKeys _) hok, dget_dset_same (s := zeroKeys _) hok, rfl, rfl, rfl, rfl, rfl, fun e he => ?_⟩
  simpa using (List.mem_filter.1 he).2

theorem enrolCancel_enrolling (hok : s.dictOk) (hb : s.sec.enrolBusy = false) (ha : dget s Key.attState = 1) :
    ∃ u, enrolCancel s = (u, 0) ∧ dget u Key.attState = attBare s ∧ dget u Key.enrolResult = 3 ∧ u.flash.helper = false ∧
      ∀ e ∈ u.sec.ks, e.1 = 4 := by
  unfold enrolCancel
  rw [if_neg (ne_true_of_eq_false hb), if_neg (not_not_intro ha)]
  obtain ⟨hokd, hatt, hhelp, -, -, -, -, hks⟩ := enrolDrop_spec hok
  exact ⟨_, rfl, (dget_dset_ne hokd (by decide)).trans hatt, dget_dset_same hokd, hhelp, hks⟩

/-! ### The entropy source -/

theorem drbgReseed_eq {ok : Bool} (he : dget s Key.entropyFail = 1) : drbgReseed s ok =
    if !ok then entropyFail s
    else
      let (v, s1) := drawFree s
      let s2 := dset { s1 with sec := { s1.sec with drbg := 0, ks := tset 0 s1.sec.ks 4 (1 + v) } } Key.entropyFail 0
      if s2.sec.cordWaits then cordStart s2 else s2 :=
  if_neg (by rw [he]; omega)

/-! ### The service port -/

theorem openRequest_tap {v : Nat} (hoff : s.rst.off = false) (hm : s.pw.module ≠ .off) :
    openRequest s (some v) = if v = Config.moduleId.toNat then openPort s else s :=
  if_neg (by simp [hoff, hm])

theorem openRequest_entry (hoff : s.rst.off = false) (hm : s.pw.module ≠ .off) : openRequest s none = openPort s :=
  if_neg (by simp [hoff, hm])

theorem dictServed_on (h : dictServed s = true) : s.rst.off = false := by
  unfold dictServed at h
  simp only [Bool.and_eq_true, Bool.not_eq_true'] at h
  exact h.1.2

theorem openPort_opened (hp : dget s Key.servicePortState = 0) (ha : dget s Key.attState = 4) :
    openPort s = dset s Key.servicePortState 2 :=
  (if_neg (not_not_intro hp)).trans (if_pos ha)

theorem openPort_refused (hp : dget s Key.servicePortState = 0) (ha : dget s Key.attState ≠ 4) (hperm : dget s Key.serviceOpenPermit ≠ 1)
    (h0 : dget s Key.attState ≠ 0) : openPort s = hubEvent s 0x0702 :=
  (if_neg (not_not_intro hp)).trans ((if_neg ha).trans (if_neg (not_or.2 ⟨hperm, h0⟩)))

/-- An opening that is permitted starts the erase. -/
theorem openPort_erases (hok : s.dictOk) (hp : dget s Key.servicePortState = 0) (ha : dget s Key.attState ≠ 4)
    (hperm : dget s Key.serviceOpenPermit = 1 ∨ dget s Key.attState = 0) :
    dget (openPort s) Key.servicePortState = 1 ∧ (openPort s).flash.openMarker = true ∧
      (openPort s).flash.openCount = s.flash.openCount ∧ .report ∉ (openPort s).sec.work ∧ (openPort s).mem = s.mem := by
  unfold openPort
  rw [if_neg (not_not_intro hp), if_neg ha, if_pos hperm]
  dsimp only
  generalize hs1 : ({ s with
      flash := { s.flash with openMarker := true }
      sec := { s.sec with work := s.sec.work.filter fun w => w != .report } } : State) = s1
  generalize hs2 : (if dget s1 Key.attReportState = 1 then dset s1 Key.attReportState 3 else s1) = s2
  have hok1 : s1.dictOk := by rw [← hs1]; exact hok
  obtain ⟨hok2, hflash, hsec, hmem⟩ : s2.dictOk ∧ s2.flash = s1.flash ∧ s2.sec = s1.sec ∧ s2.mem = s1.mem := by
    rw [← hs2]
    split
    · exact ⟨dset_dictOk hok1, rfl, rfl, rfl⟩
    · exact ⟨hok1, rfl, rfl, rfl⟩
  have hwork : SecWork.report ∉ s2.sec.work := by
    rw [hsec, ← hs1]
    intro h
    exact absurd (List.mem_filter.1 h).2 (by decide)
  have hmark : s2.flash.openMarker = true ∧ s2.flash.openCount = s.flash.openCount := by
    rw [hflash, ← hs1]
    exact ⟨rfl, rfl⟩
  have hmem2 : s2.mem = s.mem := by rw [hmem, ← hs1]
  by_cases hd : dget s2 Key.attState = 1 ∨ s2.sec.enrolBusy = true
  · rw [if_pos hd]
    obtain ⟨hokd, -, -, hm, hc, hw, hmd, -⟩ := enrolDrop_spec hok2
    exact ⟨dget_dset_same hokd, hm.trans hmark.1, hc.trans hmark.2, fun h => hwork (hw ▸ h), hmd.trans hmem2⟩
  · rw [if_neg hd]
    exact ⟨dget_dset_same hok2, hmark.1, hmark.2, hwork, hmem2⟩

theorem eraseSteps_spec (hok : s.dictOk) :
    let u := eraseSteps s
    dget u Key.servicePortState = 2 ∧ dget u Key.attState = 4 ∧ u.sec.ks = [] ∧ u.flash.helper = false ∧ u.flash.openMarker = false ∧
      u.flash.openCount = min 0xFFFF (s.flash.openCount + 1) ∧ dget u Key.openCount = u.flash.openCount ∧
      ∃ e ∈ u.ev.evq, e.source = 0x0701 := by
  unfold eraseSteps
  dsimp only
  generalize hs1 : State.mk _ _ _ _ _ _ _ _ _ _ _ _ _ _ _ _ _ _ _ _ _ _ _ _ _ _ _ _ _ _ _ _ _ _ _ _ _ = s1
  have hok1 : s1.dictOk := by rw [← hs1]; exact hok
  have hok2 : (dset s1 Key.attState 4).dictOk := dset_dictOk hok1
  have hok3 : (dset (dset s1 Key.attState 4) Key.openCount (min 0xFFFF (s.flash.openCount + 1))).dictOk := dset_dictOk hok2
  have hflash : s1.flash.openCount = min 0xFFFF (s.flash.openCount + 1) := by rw [← hs1]
  refine ⟨dget_dset_same hok3, ?_, by rw [← hs1]; rfl, by rw [← hs1]; rfl, by rw [← hs1]; rfl, hflash, ?_, _,
    List.mem_append_right _ (List.mem_singleton.2 rfl), rfl⟩
  · exact (dget_dset_ne hok3 (by decide)).trans ((dget_dset_ne hok2 (by decide)).trans (dget_dset_same hok1))
  · exact (dget_dset_ne hok3 (by decide)).trans ((dget_dset_same hok2).trans hflash.symm)

/-- Settles O57: each command and each end of the security block's work by the lemma of its case. -/
theorem enrolmentAndServicePortComplete : Obligations.EnrolmentAndServicePortComplete := by
  unfold Obligations.EnrolmentAndServicePortComplete
  refine ⟨fun s hok hmay hb => ⟨fun ha => ?_, fun ha => ?_⟩, fun s hok hb he => ⟨_, rfl, enrolGenerated_spec hok hb he⟩,
    fun s hok hmay2 hmay3 hb => ⟨fun ha => ⟨?_, ?_⟩, fun hf => ?_, fun hf => ?_, fun ha => ⟨?_, ?_⟩⟩,
    fun s hok => ⟨_, rfl, dget_dset_same hok, rfl, rfl⟩, fun s hok he => ⟨?_, fun hw => ?_, fun hw => ?_⟩,
    fun s v hok hoff hm hp => ⟨fun hv => ?_, fun hv => ⟨fun ha => ?_, fun ha hperm h0 => ?_, fun ha hperm => ?_⟩⟩,
    fun s hmay hm => ?_, fun s hok hp => ⟨_, completes_of rfl (if_pos hp), eraseSteps_spec hok⟩⟩
  · exact enrolCommand_done rfl (by decide) hmay ((enrolGenerate_eq hb).trans (if_pos (List.contains_iff_mem.2 ha)))
  · exact enrolCommand_refused rfl (by decide) hmay ((enrolGenerate_eq hb).trans (if_neg fun h => ha (List.contains_iff_mem.1 h))) (by decide)
  · exact enrolCommand_refused rfl (by decide) hmay3 (enrolCancel_idle hb ha) (by decide)
  · exact enrolCommand_refused rfl (by decide) hmay2 (enrolInstall_idle hb ha) (by decide)
  · exact completes_of rfl (ownWrite_field_denied hmay2.1 hf)
  · exact congrArg Host.Outcome.next (ownWrite_field_open (key := Key.enrolCmd) hf (by decide))
  · obtain ⟨u, hu, hks, hres⟩ := enrolInstall_enrolling hok hb ha
    exact ⟨u, enrolCommand_done rfl (by decide) hmay2 hu, hks, hres⟩
  · obtain ⟨u, hu, hatt, hres, hhelp, hks⟩ := enrolCancel_enrolling hok hb ha
    exact ⟨u, enrolCommand_done rfl (by decide) hmay3 hu, hatt, hres, hhelp, hks⟩
  · exact completes_of rfl ((drbgReseed_eq he).trans (if_pos rfl))
  · refine ⟨_, completes_of rfl ((drbgReseed_eq he).trans ((if_neg (by decide)).trans (if_neg (ne_true_of_eq_false hw)))), ?_, rfl, ?_, rfl⟩
    · exact dget_dset_same (s := { s with free := _, sec := _ }) hok
    · exact fun h => absurd (((tget_tset_new (by omega)).trans (if_pos rfl)).symm.trans h) (by omega)
  · refine ⟨_, completes_of rfl ((drbgReseed_eq he).trans ((if_neg (by decide)).trans (if_pos hw))), ?_, rfl⟩
    exact dget_dset_same (s := { s with free := _, sec := _ }) hok
  · exact completes_of rfl ((openRequest_tap hoff hm).trans (if_neg fun h => hv (BitVec.eq_of_toNat_eq h)))
  · exact completes_of rfl ((openRequest_tap hoff hm).trans ((if_pos (congrArg BitVec.toNat hv)).trans (openPort_opened hp ha)))
  · exact completes_of rfl ((openRequest_tap hoff hm).trans ((if_pos (congrArg BitVec.toNat hv)).trans (openPort_refused hp ha hperm h0)))
  · exact ⟨openPort s, completes_of rfl ((openRequest_tap hoff hm).trans (if_pos (congrArg BitVec.toNat hv))),
      openPort_erases hok hp ha hperm⟩
  · exact completes_of rfl (ownWrite_of_command hmay (by decide) (by decide) (commandWrite_serviceOpenCmd.trans
      (congrArg (fun t => some (t, 0)) ((if_pos rfl).trans (openRequest_entry (dictServed_on hmay.1) hm)))))

end Sys2Proof.Machine
end

