-- ==== Sys2Proof/Proofs/Attestation.lean ====
section
/-!
PROOF. SPDM requests, signed work and reports.
-/

namespace Sys2Proof.Machine

variable {s : State}

/-! ### Requests -/

/-- The state in which a request is taken up: no signature is asked for any more. -/
abbrev noSignature (s : State) : State := { s with sec := { s.sec with pqNext := false } }

theorem spdmRequest_up {f : State → State} (hup : hostUp s = true) : spdmRequest s f = f (noSignature s) :=
  if_neg (by simp [hup])

theorem spdmAfter_up {f : State → State} {stage : Nat} (hup : hostUp s = true) (h : stage ≤ s.sec.spdm) :
    spdmAfter s stage f = f (noSignature s) :=
  (spdmRequest_up hup).trans (if_neg (Nat.not_lt_of_le h))

theorem spdmKeyed_refused {f : State → State} (hup : hostUp s = true) (ha : dget s Key.attState ≠ 2) :
    spdmKeyed s f = spdmRefuse (noSignature s) :=
  (spdmRequest_up hup).trans (if_pos ha)

theorem spdmKeyed_early {f : State → State} (hup : hostUp s = true) (ha : dget s Key.attState = 2) (h : s.sec.spdm < 3) :
    spdmKeyed s f = spdmSend (noSignature s) .unexpected :=
  (spdmRequest_up hup).trans ((if_neg (not_not_intro ha)).trans (if_pos h))

theorem spdmKeyed_ready {f : State → State} (hup : hostUp s = true) (ha : dget s Key.attState = 2) (h : 3 ≤ s.sec.spdm) :
    spdmKeyed s f = f (noSignature s) :=
  (spdmRequest_up hup).trans ((if_neg (not_not_intro ha)).trans (if_neg (Nat.not_lt_of_le h)))

/-- The requests that need the keys. -/
theorem exec_keyed {i : Instr} {off len : Nat} (h : i ∈ [Instr.getDigests, .getCertificate off len, .challenge, .getMeasurements true]) :
    ∃ f, exec i s = .next (spdmKeyed s f) := by
  simp only [List.mem_cons, List.not_mem_nil, or_false] at h
  obtain rfl | rfl | rfl | rfl := h
  · exact ⟨_, rfl⟩
  · exact ⟨_, rfl⟩
  · exact ⟨_, rfl⟩
  · exact ⟨_, congrArg Host.Outcome.next (if_pos rfl)⟩

theorem spdmPqSignature_signs (hup : hostUp s = true) (hn : s.sec.pqNext = true) (hc : canSign s = true) :
    spdmPqSignature s =
      if dget s Key.entropyFail = 1 then signWork (noSignature s) .pqSignature else sendPqSignature (noSignature s) :=
  (if_neg (by simp [hup])).trans (if_neg (by simp [hn, hc]))

theorem spdmPqSignature_none (hup : hostUp s = true) (hn : s.sec.pqNext = false) : spdmPqSignature s = spdmSend s .unexpected :=
  (if_neg (by simp [hup])).trans (if_pos (by simp [hn]))

/-! ### Reports and signed work -/

theorem attGenerate_eq (h : dget s Key.attReportState ≠ 1) : attGenerate s =
    if !canSign s then (hubEvent (dset s Key.attReportState 3) 0x0705, 0) else (signWork (dset s Key.attReportState 1) .report, 0) :=
  if_neg h

theorem attCommand_done {t : State} (hmay : mayWrite s Key.attCmd 1) (hw : attGenerate s = (t, 0)) :
    Completes .attGenerate s (writtenGone t Key.attCmd) :=
  completes_of rfl (ownWrite_of_command hmay (by decide) (by decide) (commandWrite_attCmd.trans (congrArg some hw)))

/-- The work in front, once it is done; `r` is the work behind it. -/
def frontDone (s : State) (w : SecWork) (r : List SecWork) : State :=
  let s0 := { s with sec := { s.sec with work := r } }
  match w with
  | .verify => s
  | .report => finishReport s0
  | .challenge =>
    if !canSign s0 then spdmRefuse s0
    else
      let (n, s1) := drawRandom s0
      let (a, s2) := signature s1 384
      spdmSend { s2 with sec := { s2.sec with pqNext := true } } (.challengeAuth (n % 256 ^ 32) a)
  | .signedMeas b =>
    if !canSign s0 then spdmRefuse s0
    else
      let (n, s1) := drawRandom s0
      let (a, s2) := signature s1 384
      spdmSend { s2 with sec := { s2.sec with pqNext := true } } (.measurements b (n % 256 ^ 32) (some a))
  | .pqSignature => if !canSign s0 then spdmSend s0 .unexpected else sendPqSignature s0

theorem reportReady_front {w : SecWork} {r : List SecWork} (hw : s.sec.work = w :: r) (he : dget s Key.entropyFail ≠ 1) :
    reportReady s = frontDone s w r := by
  unfold reportReady
  split
  · next h => cases h.symm.trans hw
  · next h =>
    cases h.symm.trans hw
    rw [if_neg he]
    cases w <;> rfl

theorem finishReport_spec (hok : s.dictOk) :
    let u := finishReport s
    u.sec.work = s.sec.work ∧ dget u Key.attReportState = 2 ∧ dget u Key.attReportLen = u.sec.report.length ∧ u.out = s.out := by
  unfold finishReport
  dsimp only [signature, drawRandom, drawFree]
  generalize leBytes 4 _ ++ _ ++ _ ++ _ ++ _ = body
  generalize hs3 : State.mk _ _ _ _ _ _ _ _ _ _ _ _ _ _ _ _ _ _ _ _ _ _ _ _ _ _ _ _ _ _ _ _ _ _ _ _ _ = s3
  have hok3 : s3.dictOk := by rw [← hs3]; exact hok
  refine ⟨by rw [← hs3]; rfl, (dget_dset_ne (dset_dictOk hok3) (by decide)).trans (dget_dset_same hok3), ?_, by rw [← hs3]; rfl⟩
  rw [dget_dset_same (dset_dictOk hok3), ← hs3]
  rfl

/-- Settles O58: the requests by what the connection allows, signed work by its front. -/
theorem attestationComplete : Obligations.AttestationComplete := by
  unfold Obligations.AttestationComplete
  refine ⟨fun s off len hup => ⟨⟨_, completes_of rfl (spdmRequest_up hup), rfl, rfl, rfl⟩,
    fun h => ⟨_, completes_of rfl (spdmAfter_up hup h), rfl, rfl, rfl⟩, fun h => ⟨_, completes_of rfl (spdmAfter_up hup h), rfl, rfl, rfl⟩,
    fun i hi => ⟨fun h ha => ?_, fun ha => ?_⟩, fun h ha => ⟨?_, ?_, ?_, ?_⟩, ⟨_, completes_of rfl ((if_neg (by decide)).trans (spdmRequest_up hup)), rfl, rfl⟩,
    ⟨_, completes_of rfl (spdmRequest_up hup), rfl⟩, fun hn hc => ⟨fun he => ?_, fun he => ?_⟩,
    fun hn => completes_of rfl (spdmPqSignature_none hup hn)⟩, fun s hmay hok hr => ⟨fun hc => ?_, fun hc => ?_⟩,
    fun s r he hok => ⟨fun hw => ?_, fun hw hc => ?_, fun b hw hc => ?_, fun hw hc => ?_⟩, fun s => ⟨_, rfl, rfl, rfl, fun w hw => ?_, rfl⟩⟩
  · obtain ⟨f, hf⟩ := exec_keyed (s := s) hi
    exact ⟨_, completes_of hf (spdmKeyed_early hup ha h), rfl, rfl, rfl⟩
  · obtain ⟨f, hf⟩ := exec_keyed (s := s) hi
    exact ⟨_, completes_of hf (spdmKeyed_refused hup ha), rfl, rfl, rfl⟩
  · exact ⟨_, _, completes_of rfl (spdmKeyed_ready hup ha h), rfl, rfl⟩
  · exact ⟨_, _, rfl, completes_of rfl (spdmKeyed_ready hup ha h), rfl⟩
  · exact ⟨_, completes_of rfl (spdmKeyed_ready hup ha h), rfl, rfl⟩
  · exact ⟨_, completes_of rfl ((if_pos rfl).trans (spdmKeyed_ready hup ha h)), rfl, rfl⟩
  · exact ⟨_, _, completes_of rfl ((spdmPqSignature_signs hup hn hc).trans (if_neg he)), rfl, rfl⟩
  · exact ⟨_, completes_of rfl ((spdmPqSignature_signs hup hn hc).trans (if_pos he)), rfl, rfl, rfl⟩
  · exact ⟨_, attCommand_done hmay ((attGenerate_eq hr).trans (if_neg (by simp [hc]))), dget_dset_same hok, rfl⟩
  · exact ⟨_, attCommand_done hmay ((attGenerate_eq hr).trans (if_pos (by simp [hc]))), dget_dset_same hok, rfl, _,
      List.mem_append_right _ (List.mem_singleton.2 rfl), rfl⟩
  · exact ⟨_, completes_of rfl (reportReady_front hw he), finishReport_spec (s := { s with sec := _ }) hok⟩
  · have hc0 : canSign { s with sec := { s.sec with work := r } } = true := hc
    refine ⟨_, _, _, completes_of rfl ((reportReady_front hw he).trans (if_neg (by rw [hc0]; decide))), rfl, rfl, rfl⟩
  · have hc0 : canSign { s with sec := { s.sec with work := r } } = true := hc
    refine ⟨_, _, _, completes_of rfl ((reportReady_front hw he).trans (if_neg (by rw [hc0]; decide))), rfl, rfl, rfl⟩
  · have hc0 : canSign { s with sec := { s.sec with work := r } } = true := hc
    refine ⟨_, _, completes_of rfl ((reportReady_front hw he).trans (if_neg (by rw [hc0]; decide))), rfl, rfl⟩
  · simpa using (List.mem_filter.1 hw).2

end Sys2Proof.Machine
end

