-- ==== Sys2Proof/Proofs/Waves.lean ====
section
/-!
PROOF. Marker waves and debug cuts.
-/

namespace Sys2Proof.Machine

variable {s : State}

/-! ### Banks -/

theorem wordsOf_length (b : List Byte) (n : Nat) : (wordsOf b n).length = n := by
  simp [wordsOf]

theorem pairWords_length (f : Nat → Nat) (n : Nat) : (pairWords f n).length = n := by
  simp [pairWords]

/-- A bank's length fits the field of its header. -/
theorem bankWords_length (f : Nat → Nat) (key : Nat) : (bankWords s f key).length < 2 ^ 12 := by
  have hgens : ∀ l : List Nat, ((l.flatMap fun g => genWords (tget ({} : Gen) s.gens (key % 4096 * 16 + g))).length = 3 * l.length) := by
    intro l
    induction l with
    | nil => rfl
    | cons x r ih => rw [List.flatMap_cons, List.length_append, ih, List.length_cons]; show 3 + _ = _; omega
  unfold bankWords
  split <;> simp [wordsOf_length, pairWords_length, tallyWords, hgens]

/-- The fields of a header: the status, and the cut. -/
theorem bankHeader_fields {cut status len key : Nat} (hs : status < 2 ^ 16) (hl : len ≤ 2 ^ 12) :
    bankHeader cut status len key / 2 ^ 32 % 2 ^ 16 = status ∧ bankHeader cut status len key / 2 ^ 48 = cut % 2 ^ 16 := by
  unfold bankHeader
  omega

theorem latchBank_bank {cut key : Nat} : ∃ w ws, tget [] (latchBank s cut 1 key).snap.banks key = w :: ws ∧
    w / 2 ^ 32 % 2 ^ 16 = 1 ∧ w / 2 ^ 48 = cut % 2 ^ 16 := by
  unfold latchBank
  dsimp only
  rw [if_pos rfl]
  generalize hws : bankWords s _ key = ws
  have hlen : ws.length < 2 ^ 12 := by rw [← hws]; exact bankWords_length _ _
  exact ⟨_, ws, (tget_tset_new (List.cons_ne_nil _ _)).trans (if_pos rfl), bankHeader_fields (by decide) hlen⟩

theorem latchBanks_parts {cut status : Nat} (l : List Nat) : ∃ free banks,
    l.foldl (fun st k => latchBank st cut status k) s = { s with free := free, snap := { s.snap with banks := banks } } := by
  induction l generalizing s with
  | nil => exact ⟨s.free, s.snap.banks, rfl⟩
  | cons k r ih =>
    obtain ⟨free, banks, h⟩ := ih (s := latchBank s cut status k)
    exact ⟨free, banks, h⟩

/-! ### Triggers -/

/-- The cut of a debug wave: every block that is powered owes. -/
def debugCut (s : State) (number xnum xorigin : Nat) : Cut :=
  { freeze := false, number := number % 2 ^ 16, owed := allBlocks.filter fun k => !blockOff s k, xnum := xnum, xorigin := xorigin }

theorem blockOff_of_owed {number xnum xorigin k : Nat} (h : k ∈ (debugCut s number xnum xorigin).owed) : blockOff s k = false := by
  simp only [debugCut, List.mem_filter] at h
  simpa using h.2

/-- A debug wave draws free values, fills the banks of the blocks without power and opens its cut. -/
theorem launchWave_debug {number xnum xorigin : Nat} : ∃ free banks,
    launchWave s false number xnum xorigin =
      dset { s with free := free, snap := { s.snap with banks := banks, cut := some (debugCut s number xnum xorigin) } }
        Key.snapPending (debugCut s number xnum xorigin).owed.length := by
  unfold launchWave
  dsimp only
  rw [if_neg (by decide)]
  obtain ⟨free, banks, h⟩ := latchBanks_parts (s := s) (cut := number) (status := 3) (allBlocks.filter (blockOff s))
  rw [h]
  refine ⟨free, banks, ?_⟩
  simp only [debugCut]

theorem blockOff_dset {key v k : Nat} (hok : s.dictOk) (hk : Key.startupStage ≠ key) : blockOff (dset s key v) k = blockOff s k := by
  unfold blockOff
  rw [dget_dset_ne hok hk]
  rfl

theorem launchDebug_parts {xnum xorigin : Nat} : ∃ free banks c,
    launchDebug s xnum xorigin = dset { dset s Key.snapState 1 with free := free, snap := { s.snap with banks := banks, cut := some c } }
      Key.snapPending c.owed.length ∧
    c = debugCut (dset s Key.snapState 1) ((dget s Key.snapCut + 1) % 2 ^ 16) xnum xorigin := by
  obtain ⟨free, banks, h⟩ := launchWave_debug (s := dset s Key.snapState 1) (number := (dget s Key.snapCut + 1) % 2 ^ 16)
    (xnum := xnum) (xorigin := xorigin)
  exact ⟨free, banks, _, h, rfl⟩

theorem launchDebug_spec {xnum xorigin : Nat} (hok : s.dictOk) :
    (∃ c, (launchDebug s xnum xorigin).snap.cut = some c ∧ c.freeze = false ∧ c.acks = [] ∧
      c.number = (dget s Key.snapCut + 1) % 2 ^ 16 ∧ ∀ k ∈ c.owed, blockOff s k = false) ∧
    dget (launchDebug s xnum xorigin) Key.snapState = 1 ∧ (launchDebug s xnum xorigin).mem = s.mem := by
  obtain ⟨free, banks, c, h, hc⟩ := launchDebug_parts (s := s) (xnum := xnum) (xorigin := xorigin)
  rw [h]
  refine ⟨⟨c, rfl, congrArg Cut.freeze hc, congrArg Cut.acks hc, (congrArg Cut.number hc).trans (Nat.mod_mod _ _), fun k hk => ?_⟩, ?_, rfl⟩
  · rw [hc] at hk
    exact (blockOff_dset hok (by decide)).symm.trans (blockOff_of_owed hk)
  · exact (dget_dset_ne (s := { dset s Key.snapState 1 with free := _, snap := _ }) (dset_dictOk hok) (by decide)).trans (dget_dset_same hok)

theorem snapTrigger_busy (h : snapBusy s = true) : snapTrigger s = snapMissed s := if_pos h

theorem snapTrigger_local (h : snapBusy s = false) (h3 : snapSource s 3 = false) : snapTrigger s = launchDebug s 0 0 :=
  (if_neg (ne_true_of_eq_false h)).trans (if_neg (ne_true_of_eq_false h3))

theorem snapIn_armed (hrun : s.pw.module = .run) (hq : s.q.qeReady = true) (h0 : snapSource s 0 = true) (ha : dget s Key.snapArm = 1) :
    snapIn s = snapTrigger s :=
  (if_pos ⟨hrun, hq⟩).trans (if_pos (by simp [h0, ha]))

theorem snapIn_none (h : snapSource s 0 = false ∨ dget s Key.snapArm ≠ 1 ∨ s.pw.module ≠ .run ∨ s.q.qeReady = false) : snapIn s = s := by
  unfold snapIn snapArmedTrigger
  split
  · next hrun =>
    refine if_neg ?_
    obtain h | h | h | h := h
    · simp [h]
    · simp [h]
    · exact absurd hrun.1 h
    · exact absurd (hrun.2.symm.trans h) (by decide)
  · rfl

/-! ### Arrivals of markers -/

theorem blockLatched_parts {c : Cut} {key : Nat} {null : Bool} : ∃ flt, blockLatched s c key null =
    { s with flt := flt, snap := { s.snap with cut := some { c with owed := sremove key c.owed, acks := c.acks ++ [(key, null)] } } } := by
  unfold blockLatched sendEmber
  dsimp only
  split
  · exact ⟨_, rfl⟩
  · exact ⟨_, rfl⟩

theorem markerArrival_latches {ut u : Nat} {c : Cut} (hc : s.snap.cut = some c) (hf : c.freeze = false)
    (ho : c.owed.contains (blockKey ut u) = true) (ht : trafficAhead s (blockKey ut u) = false)
    (hq : blockQuenched s (blockKey ut u) = false) (hh : dget s Key.snapHalt ≠ 1) :
    markerArrival s ut u true = blockLatched (latchBank s c.number 1 (blockKey ut u)) c (blockKey ut u) false := by
  unfold markerArrival
  rw [hc]
  dsimp only
  rw [if_neg (by rw [ho, ht, hf]; simp), if_neg (ne_true_of_eq_false hq), if_neg (ne_true_of_eq_false hf), if_neg hh]

theorem markerArrival_behind {ut u : Nat} {c : Cut} {last : Bool} (hc : s.snap.cut = some c)
    (ht : trafficAhead s (blockKey ut u) = true) : markerArrival s ut u last = s := by
  unfold markerArrival
  rw [hc]
  exact if_pos (by simp [ht])

theorem cutCheck_owed {c : Cut} (hc : s.snap.cut = some c) (ho : c.owed ≠ []) :
    cutCheck s = dset s Key.snapPending (c.owed.length + c.acks.length) := by
  unfold cutCheck
  rw [hc]
  exact if_neg (by simp [ho])

/-! ### Acknowledgements and the end of a cut -/

theorem markerAck_arrived {ut u : Nat} {c : Cut} {null : Bool} {m : EmberMsg} (hc : s.snap.cut = some c)
    (ha : c.acks.find? (fun a => a.1 == blockKey ut u) = some (blockKey ut u, null))
    (hm : emberArrival s (.markerAck (blockKey ut u) null) = some m) :
    markerAck s ut u = cutCheck { takeEmber s m with snap := { (takeEmber s m).snap with cut := some { c with
      acks := c.acks.filter (fun b => b.1 != blockKey ut u), nulls := c.nulls + (if null then 1 else 0) } } } := by
  unfold markerAck
  rw [hc]
  dsimp only
  rw [ha, Option.bind_some, hm]
  rfl

theorem launchWaiting_none (hz : s.ck.fz = none) : launchWaiting s = s := by
  unfold launchWaiting
  rw [hz]

theorem cutCheck_debugDone {c : Cut} (hc : s.snap.cut = some c) (ho : c.owed = []) (ha : c.acks = []) (hf : c.freeze = false)
    (hz : s.ck.fz = none) : cutCheck s = debugCutDone (endWave (dset s Key.snapPending 0)) c := by
  unfold cutCheck
  rw [hc]
  dsimp only
  rw [ho, ha, hf]
  exact launchWaiting_none hz

theorem debugCutDone_spec {c : Cut} (hok : s.dictOk) :
    (debugCutDone s c).snap.cut = s.snap.cut ∧ dget (debugCutDone s c) Key.snapCut = c.number ∧
      dget (debugCutDone s c) Key.snapArm = 0 ∧
      dget (debugCutDone s c) Key.snapState = (if dget s Key.snapHalt = 1 ∨ s.snap.held ≠ [] then 2 else 0) ∧
      (debugCutDone s c).snap.outHigh = true := by
  unfold debugCutDone
  dsimp only
  have hok1 : (dset s Key.snapCut c.number).dictOk := dset_dictOk hok
  generalize hs2 : hubEvent _ _ _ _ = s2
  obtain ⟨hok2, hnum, harm, hhalt, hsnap⟩ : s2.dictOk ∧ dget s2 Key.snapCut = c.number ∧ dget s2 Key.snapArm = 0 ∧
      dget s2 Key.snapHalt = dget s Key.snapHalt ∧ s2.snap = s.snap := by
    rw [← hs2]
    exact ⟨dset_dictOk hok1, (dget_dset_ne hok1 (by decide)).trans (dget_dset_same hok), dget_dset_same hok1,
      (dget_dset_ne hok1 (by decide)).trans (dget_dset_ne hok (by decide)), rfl⟩
  rw [hhalt, hsnap]
  have hok3 : State.dictOk { s2 with snap := { s.snap with outHigh := true } } := hok2
  exact ⟨rfl, (dget_dset_ne hok3 (by decide)).trans hnum, (dget_dset_ne hok3 (by decide)).trans harm, dget_dset_same hok3, rfl⟩

/-! ### MARKER frames -/

theorem sendMarkers_snap {number origin : Nat} : (sendMarkers s number origin).snap = s.snap ∧ (sendMarkers s number origin).dict = s.dict := by
  have hside : ChansOnly s (sendMarkers s number origin) := by
    unfold sendMarkers
    exact ChansOnly.foldl (fun _ _ => ChansOnly.foldl (fun _ _ => enqueue_chansOnly) _ _) _ _
  obtain ⟨chans, h⟩ := hside
  rw [h]
  exact ⟨rfl, rfl⟩

theorem joinCut_joined {origin number : Nat} : (joinCut s origin number).snap.joined.head? = some (origin, number) := by
  unfold joinCut
  dsimp only
  generalize hs1 : dset _ Key.snapXcut number = s1
  rw [(sendMarkers_snap (s := s1) (number := number) (origin := origin)).1, ← hs1]
  rfl

/-- The channel's marker is noted, whatever the cut. -/
theorem markerFrame_cut {key number origin : Nat} : ∃ t, (markerFrame s key number origin).snap.joined = t.snap.joined ∧
    (markerFrame s key number origin).snap.cut = t.snap.cut ∧
    t = (if s.snap.joined.contains (origin, number) then s
      else if snapSource s 2 && dget s Key.snapArm == 1 then
        if snapBusy s then snapMissed s else launchDebug (joinCut s origin number) number origin
      else s) := by
  unfold markerFrame
  dsimp only
  generalize hs1 : (if s.snap.joined.contains (origin, number) then s else _) = s1
  refine ⟨s1, ?_, ?_, rfl⟩
  · split <;> rfl
  · split <;> rfl

/-! ### Resuming -/

/-- The engines a halted cut held go on. -/
theorem haltReleased_spec (l : List Nat) (hwf : twf ({} : Engine) s.engines = true) : ∃ engines,
    l.foldl (fun st e => setEng st e { getEng st e with haltHold := false }) s = { s with engines := engines } ∧
      ∀ e, (e ∈ l ∨ (getEng s e).haltHold = false) → (getEng { s with engines := engines } e).haltHold = false := by
  induction l generalizing s with
  | nil => exact ⟨s.engines, rfl, fun e h => h.resolve_left List.not_mem_nil⟩
  | cons x r ih =>
    obtain ⟨engines, heq, hval⟩ := ih (s := setEng s x { getEng s x with haltHold := false }) (tset_wf _ _ _ _ hwf)
    refine ⟨engines, heq, fun e he => hval e ?_⟩
    have hget : getEng (setEng s x { getEng s x with haltHold := false }) e =
        if e = x then { getEng s x with haltHold := false } else getEng s e := tget_tset _ _ _ _ _ hwf
    rw [hget]
    split
    · exact .inr rfl
    · next hx => exact he.imp (fun hm => (List.mem_cons.1 hm).resolve_left hx) id

theorem snapResume_halted (hst : dget s Key.snapState = 2) (hz : s.ck.fz = none) (hok : s.dictOk)
    (hwf : twf ({} : Engine) s.engines = true) :
    (snapResume s 1).snap.held = [] ∧ dget (snapResume s 1) Key.snapState = 0 ∧ (snapResume s 1).mem = s.mem ∧
      ∀ e, e < 1024 → e ∈ s.snap.held → (getEng (snapResume s 1) e).haltHold = false := by
  obtain ⟨engines, heq, hval⟩ := haltReleased_spec (s.snap.held.filter fun e => decide (e < 1024)) hwf
  unfold snapResume
  rw [if_neg (by simp [hst])]
  dsimp only
  rw [heq]
  rw [launchWaiting_none (s := dset { s with engines := engines, snap := { s.snap with held := [] } } Key.snapState 0) hz]
  exact ⟨rfl, dget_dset_same (s := { s with engines := _, snap := _ }) hok, rfl, fun e hlt he => hval e
    (.inl (List.mem_filter.2 ⟨he, decide_eq_true hlt⟩))⟩

/-- Settles O59: triggers by `launchDebug_spec`, arrivals, acknowledgements and frames by the lemma of each. -/
theorem markerWavesComplete : Obligations.MarkerWavesComplete := by
  unfold Obligations.MarkerWavesComplete
  refine ⟨fun s hok hb h3 => ⟨?_, fun hmay => ?_, fun hrun hq h0 ha => completes_of rfl (snapIn_armed hrun hq h0 ha)⟩,
    fun s hb => ⟨fun hmay => ?_, fun hrun hq h0 ha => completes_of rfl ((snapIn_armed hrun hq h0 ha).trans (snapTrigger_busy hb))⟩,
    fun s h => completes_of rfl (snapIn_none h), fun s ut u c key hkey hc hf ho ht hq hh => ?_,
    fun s ut u c last hc ht ho => ?_, fun s s1 ut u c null m hc ha hm hs1 => ?_, fun s c hc ho ha hf hz hok => ?_,
    fun s s1 s2 peer port f g key hacc hex hup hses hkey hseq hs2 => ⟨?_, fun hnot h2 harm hb => ?_, fun h2 => ?_⟩, fun s => rfl,
    fun s hmay hok hst hz hwf => ?_⟩
  · obtain ⟨⟨c, hc, hf, hacks, hnum, howed⟩, hst, hmem⟩ := launchDebug_spec (xnum := 0) (xorigin := 0) hok
    rw [snapTrigger_local hb h3]
    exact ⟨c, hc, hf, hacks, hnum, hst, howed, hmem⟩
  · exact completes_of rfl (ownWrite_of_command hmay (by decide) (by decide) (commandWrite_snapTrigger.trans rfl))
  · exact completes_of rfl (ownWrite_of_command hmay (by decide) (by decide) (commandWrite_snapTrigger.trans
      (congrArg (fun t => some (t, 0)) (snapTrigger_busy hb))))
  · subst hkey
    obtain ⟨flt, hl⟩ := blockLatched_parts (s := latchBank s c.number 1 (blockKey ut.val u.val)) (c := c) (key := blockKey ut.val u.val)
      (null := false)
    refine ⟨_, completes_of rfl (congrArg cutCheck (markerArrival_latches hc hf ho ht hq hh)), ?_⟩
    rw [hl]
    exact ⟨rfl, latchBank_bank, rfl, rfl⟩
  · refine ⟨_, completes_of rfl ((congrArg cutCheck (markerArrival_behind hc ht)).trans (cutCheck_owed hc ho)), rfl⟩
  · subst hs1
    exact completes_of rfl (markerAck_arrived hc ha hm)
  · obtain ⟨hcut, hnum, harm, hst, hhigh⟩ := debugCutDone_spec (s := endWave (dset s Key.snapPending 0)) (c := c)
      (dset_dictOk (s := s) hok)
    rw [cutCheck_debugDone hc ho ha hf hz]
    have hhalt : dget (endWave (dset s Key.snapPending 0)) Key.snapHalt = dget s Key.snapHalt := dget_dset_ne (s := s) hok (by decide)
    exact ⟨hcut, hnum, harm, hst.trans (by rw [hhalt]; rfl), hhigh⟩
  · subst hs2
    refine completes_of rfl ((rxCheck_accepted hacc).trans ?_)
    unfold rxMarker
    rw [if_neg (by simp [hex, hup]), hses]
    dsimp only
    rw [← hkey]
    exact congrArg pump (rxSeq_applied hseq rfl)
  · obtain ⟨t, hj, hcut, ht⟩ := markerFrame_cut (s := s1) (key := key) (number := g.arg) (origin := g.elem % 2 ^ 32)
    rw [if_neg (by simpa using hnot), if_pos (by simp [h2, harm]), if_neg (ne_true_of_eq_false hb)] at ht
    obtain ⟨free, banks, c, h, -⟩ := launchDebug_parts (s := joinCut s1 (g.elem % 2 ^ 32) g.arg) (xnum := g.arg) (xorigin := g.elem % 2 ^ 32)
    rw [h] at ht
    rw [hs2, hj, hcut, ht]
    exact ⟨joinCut_joined, Option.some_ne_none c⟩
  · obtain ⟨t, -, hcut, ht⟩ := markerFrame_cut (s := s1) (key := key) (number := g.arg) (origin := g.elem % 2 ^ 32)
    rw [hs2, hcut, ht]
    split
    · rfl
    · rw [if_neg (by simp [h2])]
  · exact ⟨_, completes_of rfl (ownWrite_of_command hmay (by decide) (by decide) (commandWrite_snapResume.trans rfl)),
      snapResume_halted hst hz hok hwf⟩

end Sys2Proof.Machine
end

