-- ==== Sys2Proof/Proofs/Families.lean ====
section
/-!
PROOF. The frames of the security, event, reading and field commands: what is left of a state when its family's own part
is taken away stays the same.
-/

namespace Sys2Proof.Machine

variable {s t : State}

/-! ### Writes -/

/-- What a refused write's event and every effect of a write leave alone, a write of the entry leaves alone. -/
theorem reportedWrite_keeps {β : Type} (p : State → β) {path : DictPath} {key type : Nat} {b : List Byte} {x : Outside}
    (hd : key ≠ Key.dictLoadDefaults) (hev : ∀ st, p (writeRejected s key st) = p s) (heff : p (writeEffect s key b x).1 = p s) :
    p (reportedWrite s path key type b x).1 = p s := by
  have hentry : p (entryWrite s path key type b x).1 = p s := by
    unfold entryWrite entryStore
    dsimp only
    by_cases hst : writeStatus s path key type b ≠ 0
    · rw [if_pos hst]
    · rw [if_neg hst, if_neg hd]
      generalize writeEffect s key b x = r at heff
      obtain ⟨u, n⟩ := r
      cases n with
      | zero =>
        show p (if (!inHold s && breaksRule u key) = true then (s, 7) else (u, 0)).1 = p s
        split
        · rfl
        · exact heff
      | succ n => rfl
  unfold reportedWrite
  generalize entryWrite s path key type b x = r at hentry
  obtain ⟨u, n⟩ := r
  cases n with
  | zero => exact hentry
  | succ n => exact hev _

theorem ownWrite_keeps {β : Type} (p : State → β) {path : DictPath} {key v : Nat} {x : Outside} (hd : key ≠ Key.dictLoadDefaults)
    (hev : ∀ st, p (writeRejected s key st) = p s) (heff : ∀ b, p (writeEffect s key b x).1 = p s) :
    p (ownWrite s key v x path) = p s := by
  unfold ownWrite
  split
  · rfl
  · exact reportedWrite_keeps p hd hev (heff _)

theorem ownBlob_keeps {β : Type} (p : State → β) {key : Nat} {b : List Byte} (hd : key ≠ Key.dictLoadDefaults)
    (hev : ∀ st, p (writeRejected s key st) = p s) (heff : p (writeEffect s key b {}).1 = p s) : p (ownBlob s key b) = p s := by
  unfold ownBlob
  split
  · rfl
  · exact reportedWrite_keeps p hd hev heff

/-! ### Security -/

/-- A state without what the commands of security and attestation change. -/
def withoutSecurity (s : State) : State :=
  { s with sec := {}, flash := {}, dict := [], dsys := {}, ev := {}, out := [], free := 0 }

theorem eq_of_withoutSecurity (h : withoutSecurity t = withoutSecurity s) :
    t = { s with sec := t.sec, flash := t.flash, dict := t.dict, dsys := t.dsys, ev := t.ev, out := t.out, free := t.free } :=
  congrArg (fun u : State => { u with sec := t.sec, flash := t.flash, dict := t.dict, dsys := t.dsys, ev := t.ev, out := t.out, free := t.free }) h

theorem writeFwCmd_withoutSecurity {v : Nat} : withoutSecurity (writeFwCmd s v).1 = withoutSecurity s := by
  unfold writeFwCmd
  split
  · unfold fwBegin
    split
    · rfl
    · split <;> rfl
  · unfold fwVerify
    split
    · rfl
    · split <;> rfl
  · unfold fwArm
    split
    · rfl
    · split
      · rfl
      · split <;> rfl
  · unfold fwCancel
    split
    · rfl
    · split <;> rfl
  · rfl

theorem fwData_withoutSecurity {b : List Byte} : withoutSecurity (fwData s b).1 = withoutSecurity s := by
  unfold fwData
  dsimp only
  split
  · rfl
  · split <;> rfl

theorem verifyDone_withoutSecurity {rsa slh : Bool} : withoutSecurity (verifyDone s rsa slh) = withoutSecurity s := by
  unfold verifyDone
  split
  · dsimp only
    split
    · rfl
    · split <;> rfl
  · rfl

theorem writeEnrolCmd_withoutSecurity {v : Nat} : withoutSecurity (writeEnrolCmd s v).1 = withoutSecurity s := by
  unfold writeEnrolCmd
  split
  · unfold enrolGenerate
    split
    · rfl
    · split <;> rfl
  · unfold enrolInstall
    split
    · rfl
    · split
      · rfl
      · split <;> rfl
  · unfold enrolCancel
    split
    · rfl
    · split <;> rfl
  · rfl

theorem enrolGenerated_withoutSecurity : withoutSecurity (enrolGenerated s) = withoutSecurity s := by
  unfold enrolGenerated
  split <;> rfl

theorem attGenerate_withoutSecurity : withoutSecurity (attGenerate s).1 = withoutSecurity s := by
  unfold attGenerate
  split
  · rfl
  · split <;> rfl

theorem finishReport_withoutSecurity : withoutSecurity (finishReport s) = withoutSecurity s := rfl

theorem frontDone_withoutSecurity {w : SecWork} {r : List SecWork} : withoutSecurity (frontDone s w r) = withoutSecurity s := by
  unfold frontDone
  dsimp only
  split
  · rfl
  · exact finishReport_withoutSecurity
  · split <;> rfl
  · split <;> rfl
  · split <;> rfl

theorem reportReady_withoutSecurity : withoutSecurity (reportReady s) = withoutSecurity s := by
  cases hw : s.sec.work with
  | nil =>
    unfold reportReady
    split
    · rfl
    · next h => cases hw.symm.trans h
  | cons w r =>
    by_cases he : dget s Key.entropyFail = 1
    · unfold reportReady
      split
      · rfl
      · rw [if_pos he]
    · rw [reportReady_front hw he]
      exact frontDone_withoutSecurity

theorem spdmRequest_withoutSecurity {f : State → State} (hf : ∀ u, withoutSecurity (f u) = withoutSecurity u) :
    withoutSecurity (spdmRequest s f) = withoutSecurity s := by
  unfold spdmRequest
  split
  · rfl
  · exact hf _

theorem spdmAfter_withoutSecurity {f : State → State} {stage : Nat} (hf : ∀ u, withoutSecurity (f u) = withoutSecurity u) :
    withoutSecurity (spdmAfter s stage f) = withoutSecurity s := by
  refine spdmRequest_withoutSecurity fun u => ?_
  split
  · rfl
  · exact hf u

theorem spdmKeyed_withoutSecurity {f : State → State} (hf : ∀ u, withoutSecurity (f u) = withoutSecurity u) :
    withoutSecurity (spdmKeyed s f) = withoutSecurity s := by
  refine spdmRequest_withoutSecurity fun u => ?_
  split
  · rfl
  · split
    · rfl
    · exact hf u

theorem spdmMeasurements_withoutSecurity {signed : Bool} : withoutSecurity (spdmMeasurements s signed) = withoutSecurity s := by
  unfold spdmMeasurements
  split
  · exact spdmKeyed_withoutSecurity fun _ => rfl
  · exact spdmRequest_withoutSecurity fun _ => rfl

theorem spdmPqSignature_withoutSecurity : withoutSecurity (spdmPqSignature s) = withoutSecurity s := by
  unfold spdmPqSignature
  split
  · rfl
  · split
    · rfl
    · dsimp only
      split <;> rfl

theorem openPort_withoutSecurity : withoutSecurity (openPort s) = withoutSecurity s := by
  unfold openPort
  split
  · rfl
  · split
    · rfl
    · split
      · dsimp only
        generalize hs2 : (if dget _ Key.attReportState = 1 then dset _ Key.attReportState 3 else _) = s2
        have h2 : withoutSecurity s2 = withoutSecurity s := by
          rw [← hs2]
          split <;> rfl
        refine Eq.trans ?_ h2
        split <;> rfl
      · rfl

theorem openRequest_withoutSecurity {tap : Option Nat} : withoutSecurity (openRequest s tap) = withoutSecurity s := by
  unfold openRequest
  split
  · rfl
  · split
    · split
      · exact openPort_withoutSecurity
      · rfl
    · exact openPort_withoutSecurity

theorem eraseDone_withoutSecurity : withoutSecurity (eraseDone s) = withoutSecurity s := by
  unfold eraseDone
  split <;> rfl

/-- A write of a command entry whose effect stays in the family. -/
theorem ownWrite_withoutSecurity {path : DictPath} {key v : Nat} {r : Nat → State × Nat} (hk : key ∉ blockKeys)
    (hc : ∀ w, commandWrite s key w {} = some (r w)) (hr : ∀ w, withoutSecurity (r w).1 = withoutSecurity s) :
    withoutSecurity (ownWrite s key v {} path) = withoutSecurity s := by
  refine ownWrite_keeps withoutSecurity (fun h => hk (by rw [h]; decide)) (fun _ => rfl) fun b => ?_
  rw [writeEffect_of_command hk (hc (leNat b))]
  exact hr _

/-- Every command of security and attestation stays in the family. -/
theorem security_withoutSecurity {data : List Byte} {a b : Bool} {off len : Nat} {tap : Option (BitVec 32)} {path : DictPath} {i : Instr}
    (hi : i ∈ [.fwBegin, .fwStageData data, .fwVerify, .fwVerifyDone a b, .fwArm, .fwCancel, .enrolGenerate, .enrolGenerateDone,
      .enrolInstall path, .enrolCancel, .attGenerate, .reportReady, .getVersion, .getCapabilities, .negotiateAlgorithms, .getDigests,
      .getCertificate off len, .challenge, .getMeasurements a, .getPqSignature, .getPqChain off len, .doeAbort, .openRequest tap,
      .eraseDone, .entropyFail]) : ∃ u, exec i s = .next u ∧ withoutSecurity u = withoutSecurity s := by
  have hfw : ∀ v, withoutSecurity (ownWrite s Key.fwStageCmd v {} .mirror) = withoutSecurity s := fun v =>
    ownWrite_withoutSecurity (by decide) (fun _ => commandWrite_fwStageCmd) fun _ => writeFwCmd_withoutSecurity
  have henrol : ∀ v path, withoutSecurity (ownWrite s Key.enrolCmd v {} path) = withoutSecurity s := fun v path =>
    ownWrite_withoutSecurity (by decide) (fun _ => commandWrite_enrolCmd) fun _ => writeEnrolCmd_withoutSecurity
  simp only [List.mem_cons, List.not_mem_nil, or_false] at hi
  rcases hi with rfl | rfl | rfl | rfl | rfl | rfl | rfl | rfl | rfl | rfl | rfl | rfl | rfl | rfl | rfl | rfl | rfl | rfl | rfl | rfl |
    rfl | rfl | rfl | rfl | rfl
  · exact ⟨_, rfl, hfw 1⟩
  · refine ⟨_, rfl, ownBlob_keeps withoutSecurity (by decide) (fun _ => rfl) ?_⟩
    have heffect : writeEffect s Key.fwStageData data {} = fwData s data := by
      unfold writeEffect
      exact if_pos rfl
    rw [heffect]
    exact fwData_withoutSecurity
  · exact ⟨_, rfl, hfw 2⟩
  · exact ⟨_, rfl, verifyDone_withoutSecurity⟩
  · exact ⟨_, rfl, hfw 3⟩
  · exact ⟨_, rfl, hfw 4⟩
  · exact ⟨_, rfl, henrol 1 _⟩
  · exact ⟨_, rfl, enrolGenerated_withoutSecurity⟩
  · exact ⟨_, rfl, henrol 2 path⟩
  · exact ⟨_, rfl, henrol 3 _⟩
  · exact ⟨_, rfl, ownWrite_withoutSecurity (by decide) (fun _ => commandWrite_attCmd) fun _ => attGenerate_withoutSecurity⟩
  · exact ⟨_, rfl, reportReady_withoutSecurity⟩
  · exact ⟨_, rfl, spdmRequest_withoutSecurity fun _ => rfl⟩
  · exact ⟨_, rfl, spdmAfter_withoutSecurity fun _ => rfl⟩
  · exact ⟨_, rfl, spdmAfter_withoutSecurity fun _ => rfl⟩
  · exact ⟨_, rfl, spdmKeyed_withoutSecurity fun _ => rfl⟩
  · exact ⟨_, rfl, spdmKeyed_withoutSecurity fun _ => rfl⟩
  · exact ⟨_, rfl, spdmKeyed_withoutSecurity fun _ => rfl⟩
  · exact ⟨_, rfl, spdmMeasurements_withoutSecurity⟩
  · exact ⟨_, rfl, spdmPqSignature_withoutSecurity⟩
  · exact ⟨_, rfl, spdmRequest_withoutSecurity fun _ => rfl⟩
  · exact ⟨_, rfl, rfl⟩
  · cases tap with
    | none =>
      refine ⟨_, rfl, ownWrite_withoutSecurity (by decide) (fun _ => commandWrite_serviceOpenCmd) fun w => ?_⟩
      dsimp only
      split
      · exact openRequest_withoutSecurity
      · rfl
    | some v => exact ⟨_, rfl, openRequest_withoutSecurity⟩
  · exact ⟨_, rfl, eraseDone_withoutSecurity⟩
  · exact ⟨_, rfl, rfl⟩

/-! ### Events -/

/-- A state without what the commands of the event controllers change. -/
def withoutEvents (s : State) : State := { s with ev := {}, dict := [], dsys := {}, out := [], heldHost := [] }

theorem eq_of_withoutEvents (h : withoutEvents t = withoutEvents s) :
    t = { s with ev := t.ev, dict := t.dict, dsys := t.dsys, out := t.out, heldHost := t.heldHost } :=
  congrArg (fun u : State => { u with ev := t.ev, dict := t.dict, dsys := t.dsys, out := t.out, heldHost := t.heldHost }) h

theorem toHost_withoutEvents {m : OutMsg} : withoutEvents (toHost s m) = withoutEvents s := by
  unfold toHost
  split <;> rfl

theorem deliverAt_withoutEvents {r p t : Nat} : withoutEvents (deliverAt s r p t) = withoutEvents s := by
  unfold deliverAt
  dsimp only
  split
  · rfl
  · split
    · exact toHost_withoutEvents
    · rfl

theorem deliverRing_withoutEvents {r : Nat} : withoutEvents (deliverRing s r) = withoutEvents s := by
  unfold deliverRing
  dsimp only
  split
  · exact deliverAt_withoutEvents
  · rfl

theorem raiseRing_withoutEvents {r : Nat} : withoutEvents (raiseRing s r) = withoutEvents s := by
  unfold raiseRing
  split
  · rfl
  · exact deliverRing_withoutEvents

theorem retryRings_withoutEvents {which : Nat → Bool} : withoutEvents (retryRings s which) = withoutEvents s := by
  unfold retryRings
  split
  · rfl
  · exact foldl_keeps withoutEvents (fun _ _ => deliverRing_withoutEvents) _ _

theorem checkModerated_withoutEvents {which : Nat → Bool} : withoutEvents (checkModerated s which) = withoutEvents s := by
  refine foldl_keeps withoutEvents (fun st r => ?_) _ _
  split
  · exact raiseRing_withoutEvents
  · rfl

theorem writeRingCi_withoutEvents {r v : Nat} : withoutEvents (writeRingCi s r v).1 = withoutEvents s := by
  unfold writeRingCi
  extract_lets ci s1 s2
  generalize (v + 2 ^ 32 - ci) % 2 ^ 32 = beyond
  split
  · rfl
  · split
    · rfl
    · exact raiseRing_withoutEvents

theorem endOfInterrupt_withoutEvents {t : Nat} : withoutEvents (endOfInterrupt s t) = withoutEvents s := by
  unfold endOfInterrupt
  split <;> rfl

theorem writeTctl_withoutEvents {t v : Nat} : withoutEvents (writeTctl s t v) = withoutEvents s := by
  unfold writeTctl
  dsimp only
  refine checkModerated_withoutEvents.trans (retryRings_withoutEvents.trans ?_)
  split
  · exact endOfInterrupt_withoutEvents
  · rfl

theorem writeEvtHold_withoutEvents {hold : Bool} : withoutEvents (writeEvtHold s hold) = withoutEvents s := by
  unfold writeEvtHold
  dsimp only
  split
  · rfl
  · exact retryRings_withoutEvents.trans (foldl_keeps withoutEvents (fun _ _ => raiseRing_withoutEvents) _ _)

theorem writeGroupDef_withoutEvents {g v : Nat} : withoutEvents (writeGroupDef s g v).1 = withoutEvents s := by
  unfold writeGroupDef
  dsimp only
  split
  · rfl
  · exact checkModerated_withoutEvents.trans retryRings_withoutEvents

theorem unmaskVector_withoutEvents {v : Nat} : withoutEvents (unmaskVector s v) = withoutEvents s := by
  unfold unmaskVector
  dsimp only
  split
  · exact toHost_withoutEvents
  · rfl

theorem msixControl_withoutEvents {enable mask : Bool} : withoutEvents (msixControl s enable mask) = withoutEvents s := by
  unfold msixControl
  split
  · rfl
  · dsimp only
    generalize hs2 : List.foldl _ _ _ = s2
    have h2 : withoutEvents s2 = withoutEvents s := by
      rw [← hs2]
      exact foldl_keeps withoutEvents (fun _ _ => unmaskVector_withoutEvents) _ _
    refine Eq.trans ?_ h2
    split
    · exact checkModerated_withoutEvents.trans retryRings_withoutEvents
    · rfl

theorem localOccur_withoutEvents {o : LocalOcc} : withoutEvents (localOccur s o) = withoutEvents s := by
  unfold localOccur
  dsimp only
  split
  · split <;> rfl
  · rfl

theorem forwardAll_withoutEvents {ctl : Nat} : withoutEvents (forwardAll s ctl) = withoutEvents s := by
  refine foldl_keeps withoutEvents (fun st b => ?_) _ _
  unfold forwardBit
  dsimp only
  split <;> rfl

theorem writePend_withoutEvents {ctl v : Nat} : withoutEvents (writePend s ctl v) = withoutEvents s := by
  unfold writePend
  refine (foldl_keeps withoutEvents ?_ _ _).trans rfl
  exact fun _ _ => rfl

theorem writeEcLock_withoutEvents {d v : Nat} : withoutEvents (writeEcLock s d v).1 = withoutEvents s := by
  unfold writeEcLock
  dsimp only
  split <;> rfl

/-- A write of a word of a run has the effect of an event controller. -/
theorem runWrite_withoutEvents {key v : Nat} {r : State × Nat} (h : runWrite s key v = some r) : withoutEvents r.1 = withoutEvents s := by
  unfold runWrite at h
  split at h
  · cases h
    exact writeRingCi_withoutEvents
  · cases h
    exact writeGroupDef_withoutEvents
  · split at h
    · cases h
      exact writeTctl_withoutEvents
    · split at h
      · cases h
        exact writePend_withoutEvents
      · cases h
        exact writePend_withoutEvents
      · cases h
        exact writeEcLock_withoutEvents
      · cases h

theorem ownWrite_run_withoutEvents {key v : Nat} (hk : key ∉ namedKeys) (hr : ∀ w, ∃ r, runWrite s key w = some r) :
    withoutEvents (ownWrite s key v) = withoutEvents s := by
  refine ownWrite_keeps withoutEvents (fun h => hk (by rw [h]; decide)) (fun _ => rfl) fun b => ?_
  obtain ⟨r, h⟩ := hr (leNat b)
  rw [writeEffect_of_run hk h]
  exact Eq.trans (b := withoutEvents r.1) rfl (runWrite_withoutEvents h)

/-- The keys of the rings, groups and targets that software writes. -/
theorem runWrite_ringCi {r v : Nat} (h : r < 64) : ∃ x, runWrite s (Key.ringCi + r) v = some x := by
  unfold runWrite
  rw [runIndex_at h]
  exact ⟨_, rfl⟩

theorem runWrite_groupDef {g v : Nat} (h : g < 64) : ∃ x, runWrite s (Key.groupDef + g) v = some x := by
  unfold runWrite
  rw [runIndex_at h]
  cases runIndex (Key.groupDef + g) Key.ringCi 64 with
  | none => exact ⟨_, rfl⟩
  | some r => exact ⟨_, rfl⟩

theorem runWrite_tctl {t v : Nat} (h : t < 2054) : ∃ x, runWrite s (tctlKey t) v = some x := by
  unfold runWrite
  cases runIndex (tctlKey t) Key.ringCi 64 with
  | some r => exact ⟨_, rfl⟩
  | none =>
    cases runIndex (tctlKey t) Key.groupDef 64 with
    | some g => exact ⟨_, rfl⟩
    | none => exact ⟨_, if_pos (by unfold tctlKey; omega)⟩

theorem tctlKey_unnamed {t : Nat} (h : t < 2054) : tctlKey t ∉ namedKeys := by
  have hbound : ∀ k ∈ namedKeys, k < 0x640000 ∨ 0x641100 ≤ k := by decide
  have hlo : 0x640000 ≤ tctlKey t := by unfold tctlKey; omega
  have hhi : tctlKey t < 0x641100 := by unfold tctlKey; omega
  intro hm
  obtain h1 | h1 := hbound _ hm
  · omega
  · omega

theorem ringKeys_unnamed : ∀ r : Fin 64, Key.ringCi + r.val ∉ namedKeys ∧ Key.groupDef + r.val ∉ namedKeys := by decide +kernel

theorem commandWrite_evtHold {v : Nat} {x : Outside} : commandWrite s Key.evtHold v x = some (writeEvtHold s (v == 1), 0) := by
  unfold commandWrite
  repeat rw [if_neg (by decide)]
  exact if_pos rfl

/-- Every command of the event controllers stays in the family. -/
theorem events_withoutEvents {pos : Nat} {r g : Fin 64} {tgt : Fin 2054} {vec : VecEntry} {ctl : Fin 36} {d : DieId} {w : Word}
    {v : BitVec 32} {x : BitVec 31} {y : Byte} {a b : Bool} {i : Instr}
    (hi : i ∈ [.holdoffExpiry r, .ringCiWrite r v, .tctlWrite tgt x, .eoi tgt x, .evtHoldWrite y, .groupDefWrite g v, .localOccurrence pos,
      .ecForward ctl, .maskWrite ctl w, .pendWrite ctl w, .ecLockWrite d y, .msiXEnable a b, .vectorUnmask vec]) :
    ∃ u, exec i s = .next u ∧ withoutEvents u = withoutEvents s := by
  simp only [List.mem_cons, List.not_mem_nil, or_false] at hi
  rcases hi with rfl | rfl | rfl | rfl | rfl | rfl | rfl | rfl | rfl | rfl | rfl | rfl | rfl
  · refine ⟨_, rfl, ?_⟩
    unfold holdoffOver
    split
    · exact raiseRing_withoutEvents
    · rfl
  · exact ⟨_, rfl, ownWrite_run_withoutEvents (ringKeys_unnamed r).1 fun _ => runWrite_ringCi r.isLt⟩
  · exact ⟨_, rfl, ownWrite_run_withoutEvents (tctlKey_unnamed tgt.isLt) fun _ => runWrite_tctl tgt.isLt⟩
  · exact ⟨_, rfl, ownWrite_run_withoutEvents (tctlKey_unnamed tgt.isLt) fun _ => runWrite_tctl tgt.isLt⟩
  · refine ⟨_, rfl, ownWrite_keeps withoutEvents (by decide) (fun _ => rfl) fun b => ?_⟩
    rw [writeEffect_of_command (by decide) commandWrite_evtHold]
    exact writeEvtHold_withoutEvents
  · exact ⟨_, rfl, ownWrite_run_withoutEvents (ringKeys_unnamed g).2 fun _ => runWrite_groupDef g.isLt⟩
  · refine ⟨_, rfl, ?_⟩
    unfold occurAt
    split
    · rfl
    · exact localOccur_withoutEvents
  · exact ⟨_, rfl, forwardAll_withoutEvents⟩
  · have hnamed := (keyBytes_maskKey ctl).2
    refine ⟨_, rfl, ownWrite_keeps withoutEvents (fun h => hnamed (by rw [h]; decide)) (fun _ => rfl) fun b => ?_⟩
    rw [writeEffect_of_plain hnamed (runWrite_mask ctl.isLt), plainWrite_mask ctl.isLt]
    rfl
  · exact ⟨_, rfl, ownWrite_run_withoutEvents (keyBytes_pendKey ctl).2 fun _ => ⟨_, runWrite_pend ctl.isLt⟩⟩
  · exact ⟨_, rfl, ownWrite_run_withoutEvents (keyBytes_ecLock d).2 fun _ => ⟨_, runWrite_ecLock d.isLt⟩⟩
  · exact ⟨_, rfl, msixControl_withoutEvents⟩
  · refine ⟨_, rfl, ?_⟩
    unfold vectorUnmask
    split
    · rfl
    · exact unmaskVector_withoutEvents

/-! ### Readings -/

/-- A state without what readings of feeds, coolant and step monitors change. -/
def withoutReadings (s : State) : State := { s with pw := {}, dict := [], dsys := {}, ev := {} }

theorem eq_of_withoutReadings (h : withoutReadings t = withoutReadings s) :
    t = { s with pw := t.pw, dict := t.dict, dsys := t.dsys, ev := t.ev } :=
  congrArg (fun u : State => { u with pw := t.pw, dict := t.dict, dsys := t.dsys, ev := t.ev }) h

theorem feedEntry_withoutReadings {f : Nat} {r : FeedReading} : withoutReadings (feedEntry s f r) = withoutReadings s := by
  unfold feedEntry
  dsimp only
  split <;> rfl

theorem feedTransfer_withoutReadings : withoutReadings (feedTransfer s) = withoutReadings s := by
  unfold feedTransfer
  dsimp only
  split <;> rfl

theorem coolantReading_withoutReadings {inlet outlet : Option Int} :
    withoutReadings (coolantReading s inlet outlet) = withoutReadings s := by
  unfold coolantReading
  cases inlet with
  | none =>
    dsimp only
    split <;> rfl
  | some x =>
    dsimp only
    split <;> rfl

theorem dset_withoutReadings {k v : Nat} : withoutReadings (dset s k v) = withoutReadings s := rfl

theorem foldl_dset_withoutReadings {k v : Nat → Nat} (l : List Nat) :
    withoutReadings (l.foldl (fun st c => dset st (k c) (v c)) s) = withoutReadings s := by
  exact foldl_keeps withoutReadings (fun _ _ => dset_withoutReadings) l s

theorem stepMonitor_withoutReadings {counts : List Nat} : withoutReadings (stepMonitor s counts) = withoutReadings s := by
  unfold stepMonitor
  extract_lets n rate s1 dieRate s2
  have h2 : withoutReadings s2 = withoutReadings s := (foldl_dset_withoutReadings _).trans (foldl_dset_withoutReadings _)
  clear_value s2
  split
  · rfl
  · exact dset_withoutReadings.trans h2

theorem condEvent_withoutReadings {c old : Nat} : withoutReadings (condEvent s c old) = withoutReadings s := by
  unfold condEvent
  split <;> rfl

theorem dampIdle_withoutReadings {c : Nat} : withoutReadings (dampIdle s c) = withoutReadings s := by
  unfold dampIdle
  split
  · rfl
  · unfold updCluster
    refine condEvent_withoutReadings.trans ?_
    exact (congrArg withoutReadings (if_pos (by simp [ClusterPw.isHeld]))).trans rfl

theorem setLevels_withoutReadings : withoutReadings (setLevels s) = withoutReadings s := by
  refine foldl_keeps withoutReadings (fun st d => ?_) _ _
  unfold setLevel
  split <;> rfl

theorem permitWrite_withoutReadings {v : Nat} : withoutReadings (ownWrite s Key.lowVoltagePermit v) = withoutReadings s := by
  have hnamed : Key.lowVoltagePermit ∉ namedKeys := by decide
  refine ownWrite_keeps withoutReadings (by decide) (fun _ => rfl) fun b => ?_
  rw [writeEffect_of_plain hnamed rfl, plainWrite_permit]
  unfold permitWritten
  dsimp only
  split
  · exact setLevels_withoutReadings
  · rfl

/-! ### The field network and the mailbox -/

/-- A state without what requests that write nothing change. -/
def withoutRequests (s : State) : State := { s with dsys := {}, dict := [], ev := {}, out := [] }

theorem eq_of_withoutRequests (h : withoutRequests t = withoutRequests s) :
    t = { s with dsys := t.dsys, dict := t.dict, ev := t.ev, out := t.out } :=
  congrArg (fun u : State => { u with dsys := t.dsys, dict := t.dict, ev := t.ev, out := t.out }) h

theorem answerOnce_withoutRequests {src port id : Nat} {resp : List Byte} :
    withoutRequests (answerOnce s src port id resp) = withoutRequests s := by
  unfold answerOnce
  split <;> rfl

theorem mbxServe_withoutRequests {x : Outside} (h : msgOp s.dsys.mbxReq ≠ 2) : withoutRequests (mbxServe s x) = withoutRequests s := by
  have hkeep := serveMsg_keeps (s := s) (path := .mirror) (limit := 4096) (b := s.dsys.mbxReq) (x := x) h
  unfold mbxServe
  dsimp only
  rw [hkeep]
  split
  · rfl
  · split <;> rfl

theorem fieldServe_withoutRequests {d : Datagram} {x : Outside} (h : msgOp d.payload ≠ 2) :
    withoutRequests (fieldServe s d x) = withoutRequests s := by
  have hkeep := serveMsg_keeps (s := s) (path := .field) (limit := 1452) (b := d.payload) (x := x) h
  unfold fieldServe
  split
  · rfl
  · split
    · rfl
    · split
      · rfl
      · split
        · rfl
        · dsimp only
          rw [hkeep]
          split <;> rfl

theorem trananRead_withoutRequests {r : Tranan} : withoutRequests (trananRead s r) = withoutRequests s := by
  cases r with
  | mailbox =>
    unfold trananRead
    dsimp only
    split
    · next h => exact mbxServe_withoutRequests h.2.1
    · rfl
  | field d =>
    unfold trananRead
    dsimp only
    split
    · rfl
    · next h => exact fieldServe_withoutRequests (not_or.1 h).1

theorem trananDiscover_withoutRequests {d : Datagram} : withoutRequests (trananDiscover s d) = withoutRequests s := by
  unfold trananDiscover
  dsimp only
  split
  · rfl
  · split
    · rfl
    · split
      · rfl
      · split
        · exact answerOnce_withoutRequests
        · split
          · exact answerOnce_withoutRequests
          · split
            · rfl
            · exact answerOnce_withoutRequests

theorem discoverDelay_withoutRequests : withoutRequests (discoverDelay s) = withoutRequests s := by
  unfold discoverDelay
  split
  · rfl
  · dsimp only
    split
    · exact answerOnce_withoutRequests
    · rfl

theorem dadDone_withoutRequests {conflict : Bool} : withoutRequests (dadDone s conflict) = withoutRequests s := by
  unfold dadDone
  split
  · rfl
  · dsimp only
    split <;> rfl

theorem fieldLink_withoutRequests {up : Bool} : withoutRequests (fieldLink s up) = withoutRequests s := by
  unfold fieldLink fieldLost
  split
  · rfl
  · split
    · split <;> rfl
    · split <;> rfl

theorem mbxDoorbell_withoutRequests {v : Nat} {buf : List Byte} : withoutRequests (mbxDoorbell s v buf) = withoutRequests s := by
  unfold mbxDoorbell
  split
  · rfl
  · split <;> rfl

/-! ### The statement -/

/-- Settles O60: of each family, every command leaves the state without the family's part as it was. -/
theorem familiesKeepToTheirState : Obligations.FamiliesKeepToTheirState := by
  unfold Obligations.FamiliesKeepToTheirState
  refine ⟨fun s t data a b off len tap path i hi ht => ?_, fun s t pos r g tgt vec ctl d w v x y a b i hi ht => ?_,
    fun s t f a b counts c y x z i hi ht => ?_, fun s t r d w buf src a i hi ht => ?_⟩
  · obtain ⟨u, hu, hkeep⟩ := security_withoutSecurity (s := s) hi
    cases hu.symm.trans ht
    exact eq_of_withoutSecurity hkeep
  · obtain ⟨u, hu, hkeep⟩ := events_withoutEvents (s := s) hi
    cases hu.symm.trans ht
    exact eq_of_withoutEvents hkeep
  · refine eq_of_withoutReadings ?_
    simp only [List.mem_cons, List.not_mem_nil, or_false] at hi
    rcases hi with rfl | rfl | rfl | rfl | rfl | rfl <;> cases ht
    · exact feedTransfer_withoutReadings.trans feedEntry_withoutReadings
    · exact feedTransfer_withoutReadings.trans (feedEntry_withoutReadings.trans feedEntry_withoutReadings)
    · exact coolantReading_withoutReadings
    · exact stepMonitor_withoutReadings
    · exact dampIdle_withoutReadings
    · exact permitWrite_withoutReadings
  · refine eq_of_withoutRequests ?_
    simp only [List.mem_cons, List.not_mem_nil, or_false] at hi
    rcases hi with rfl | rfl | rfl | rfl | rfl | rfl | rfl | rfl <;> cases ht
    · exact trananRead_withoutRequests
    · exact trananDiscover_withoutRequests
    · exact discoverDelay_withoutRequests
    · exact dadDone_withoutRequests
    · unfold neighborSolicited
      split <;> rfl
    · unfold echoRequested
      split <;> rfl
    · exact fieldLink_withoutRequests
    · exact mbxDoorbell_withoutRequests

end Sys2Proof.Machine
end
